-- ==== Sys2Proof/Word.lean ====
section
/-! DEFINITION. The byte, the byte string, and the plainest arithmetic on them. -/

namespace Sys2Proof

/-- One byte (R12: multi-byte values are strings of these, most significant byte first). -/
abbrev Byte := BitVec 8

/-- A string of bytes: a key, a value, a message body, a log record body. -/
abbrev Bytes := List Byte

/-- A division rounded up; 0 for a divisor of 0. -/
def ceilDiv (a b : Nat) : Nat := (a + b - 1) / b

end Sys2Proof
end

