-- ==== Sys2Proof/Syntax.lean ====
section
/-! DEFINITION. The commands: one constructor per row of spec/opcode_table.json, and the types of their operands.
A row that a GKP opcode names takes the number of the command context that holds the complete command (log entry 1);
the other rows take what the outside world brings with the event. -/

namespace Sys2Proof

/-- The alarm sources of R363, in the order of their cause bits. -/
inductive AlarmSource where
  | tamper | latch | supply | temperature | clock
  deriving DecidableEq, Repr, Inhabited

/-- The levels of the straps when they are sampled (R35). -/
structure Straps where
  slotId   : BitVec 4
  traceEn  : Bool
  factoryN : Bool
  deriving DecidableEq, Repr, Inhabited

/-- The CMIS locations the module reads from a plug-in module (R103, R104). -/
structure Cmis where
  identifier  : Byte
  qsfpClass   : Bool      -- the identifier is a CMIS QSFP112 or QSFP-DD-class identifier
  revision    : Byte      -- byte 1; 0x40 is 4.0
  flat        : Bool
  moduleState : Byte
  flags       : Byte
  fault       : Bool      -- ModuleFault, or a fault flag raised
  answers     : Bool      -- answers its management interface
  temperature : BitVec 16
  supply      : BitVec 16
  mediaType   : Byte
  copper      : Bool      -- passive copper cable
  crMatch     : Bool      -- a copper cable's host interface matches the CR PMD
  apps        : List Nat  -- format codes (R98) for which an application is advertised
  halfApps    : Bool      -- an application of the narrower format is advertised (R102)
  maxPowerDW  : Nat       -- advertised maximum power, in 0.1 W
  maxPower    : Byte      -- page 00h byte 201
  readyMs     : Nat       -- advertised ModuleReady timeout; 0 none
  pathMs      : Nat       -- advertised data path activation time
  los         : BitVec 4
  lol         : BitVec 4
  vendor      : BitVec 128
  part        : BitVec 128
  serial      : BitVec 128
  dateCode    : BitVec 64
  deriving DecidableEq, Repr, Inhabited

/-- A network address: family 4 or 6, and its number. -/
structure Addr where
  v6  : Bool
  val : Nat
  deriving DecidableEq, Repr, Inhabited

/-- Where a packet came from (R112): source addresses, and the module address it was sent to. -/
structure Source where
  mac  : Nat
  ip   : Addr
  port : Nat
  dst  : Addr
  deriving DecidableEq, Repr, Inhabited

/-- The destination MAC of a frame, as check 5 of R106 sees it; `macControl` is the group address that IEEE 802.3
Annex 31B gives PAUSE frames. -/
inductive DstMac where
  | own | broadcast | solicited | macControl | other
  deriving DecidableEq, Repr, Inhabited

/-- What a frame's tagging is (R108). -/
inductive Tagging where
  | untagged | tagged (tpid vid pcp : Nat) | double
  deriving DecidableEq, Repr, Inhabited

/-- An ARP packet or Neighbor Discovery message (R110, R111). -/
inductive ArpNd where
  | request (target : Addr)
  | claim (addr : Addr) (mac : Nat)    -- an ARP reply, a gratuitous ARP or a Neighbor Advertisement
  deriving DecidableEq, Repr, Inhabited

/-- An ICMP or ICMPv6 message (R111). -/
inductive Icmp where
  | echo (data : Bytes) | nd (m : ArpNd) | other
  deriving DecidableEq, Repr, Inhabited

/-- What an IP packet carries after its header (check 12 of R106). -/
inductive IpPayload where
  | udp (checksumZero checksumOk : Bool) (srcPort dstPort : Nat) (payload : Bytes)
  | icmp (checksumOk : Bool) (m : Icmp)
  | extension
  | other
  deriving DecidableEq, Repr, Inhabited

/-- What the EtherType of a frame announces (checks 6 and 8 of R106). -/
inductive L3 where
  | pause (quanta : Nat)
  | pfc (enable : BitVec 8) (quanta : List Nat)
  | arp (m : ArpNd)
  | ip (v6 : Bool) (headerOk : Bool) (fragment : Bool) (src dst : Addr) (solicitedFor : Option Addr) (p : IpPayload)
  | macControlOther
  | other
  deriving DecidableEq, Repr, Inhabited

/-- A received frame, as the checks of R106 see it. -/
structure Frame where
  srcMac     : Nat
  fcsOk      : Bool
  fecOk      : Bool     -- no codeword it overlaps was uncorrectable (R100)
  length     : Nat      -- bytes, FCS included
  bufferFree : Bool     -- ingress buffer space is free in the port MAC island
  dstMac     : DstMac
  tag        : Tagging
  l3         : L3
  deriving DecidableEq, Repr, Inhabited

/-- A transport acknowledgement (R142). -/
structure AckInfo where
  session  : Nat
  tag      : Nat
  sequence : Nat
  opcode   : Nat
  notice   : Bool
  ackAll   : Bool
  contig   : Nat
  beyond   : BitVec 64
  deriving DecidableEq, Repr, Inhabited

/-- A reply that reaches a relay slot from a successor, with its CREDIT (R134, R380, R381), or the failures R381 lists. -/
inductive ForwardAnswer where
  | status (code : Nat) (credit : BitVec 16)   -- a terminal status
  | backoff (hintUs : Nat) (credit : BitVec 16)
  | windowExceeded (credit : BitVec 16)
  | noSession
  | noRoute
  deriving DecidableEq, Repr, Inhabited

/-- Lock modes of R206. -/
inductive LockMode where
  | read | write | move
  deriving DecidableEq, Repr, Inhabited

/-- Why a background item moves a record (R206). -/
inductive MoveKind where
  | collect | fold | patrol | rekey | rebuild
  deriving DecidableEq, Repr, Inhabited

/-- An operation at the range-lock table: a command, or a background relocation of the record at a location. -/
inductive LockOp where
  | cmd (ctx : Nat)
  | move (kind : MoveKind) (loc : Nat)
  deriving DecidableEq, Repr, Inhabited

/-- A cipher job's owner: a command's next record, a sweep item (key page), a Sieve visit (slot), a relay forward. -/
inductive JobOf where
  | cmd (ctx : Nat) | sweep (page : Nat) (loc : Nat) | sieve (slot : Nat) | relay (slot : Nat)
  deriving DecidableEq, Repr, Inhabited

/-- How the codewords of one record read climbed the ladder of R303: the step each codeword decoded at when it decoded
in its own page (1-10), or that it did not. -/
inductive ReadOutcome where
  | step (n : Nat)     -- the highest step any codeword needed, 1-10
  | undecodable        -- a codeword failed steps 1-10: step 11 decides from the stripe (R304)
  deriving DecidableEq, Repr, Inhabited

/-- What patrol found on a page (R311). -/
structure PatrolFinding where
  corrected : Nat            -- most corrected bits in a codeword
  outcome   : ReadOutcome
  lastPage  : Bool           -- this page ends the cycle
  deriving DecidableEq, Repr, Inhabited

/-- What the physical world did to a Quince row since it was written (R255, R256). -/
inductive Upset where
  | none
  | way (w : Nat) (parity : Bool) (priority : Nat)  -- the way differs from its shadow
  | shadowUncorrectable (w : Nat)
  deriving DecidableEq, Repr, Inhabited

/-- The memory in which an uncorrectable error was found (R409). `held` are the commands an island holds; `unit` is a directory
bucket, or from 2^29 on another unit of DRAM that R409 names with it; `ctx` is the command whose read found it. -/
inductive UeWhere where
  | islandState (held : List Nat)
  | bufferCell (ctx : Nat)
  | directory (unit : Nat) (ctx : Option Nat)
  | valueCache (loc : Nat)
  | summaryCache (group : Nat)
  | heat (index : Nat)
  | sieveBatch (slot : Nat) (batch : Nat)
  deriving DecidableEq, Repr, Inhabited

/-- The measured state of the hold-up bank at a test (R427, R428). -/
structure BankTest where
  capacitancePct : List Nat     -- per physical section 0-7, percent of rated
  resistancePct  : List Nat     -- per physical section, percent of rated
  energyCj       : Nat          -- usable energy, 0.01 J
  deriving DecidableEq, Repr, Inhabited

/-- What an SMBus write carried as PEC (R454). -/
inductive Pec where
  | absent | good | bad
  deriving DecidableEq, Repr, Inhabited

/-- A directory log page that recovery cannot read in either copy (R263): its owner (true is island 230), its first LSN, its
records, and the locations of the records found in the SLC blocks written in its interval. -/
structure LostPage where
  ownerB : Bool
  first  : Nat
  count  : Nat
  found  : List Nat
  deriving DecidableEq, Repr, Inhabited

/-- One command: an operation or event of spec/opcode_table.json. `c` is a command context's number. -/
inductive Instr where
  -- supplies, straps and start-up
  | p3v3AuxInRange (straps : Straps)
  | pwrEnWatchStart
  | p3v3AuxLoss
  | pwrEnRise (straps : Straps)
  | pwrEnFall
  | p12vInRange
  | p12vLoss (removed : Bool)
  | alarm (src : AlarmSource)
  | mainRailsInRange
  | sramFillComplete
  | dramTrainingComplete
  | dramFillComplete
  | confirmedImageRead
  | islandCodeLoaded
  | settingsMigrated
  | directoryRecovered (lost : List LostPage) (found : List Nat)
  | fillingComplete (bankCharged : Bool)
  | fillingTimeout
  | restart (island : Nat)
  | mainSupplyReenable
  -- ports
  | plugInInsert (portB : Bool) (cmis : Cmis)
  | cmisReadyTimeout (portB : Bool)
  | plugInRemove (portB : Bool)
  | cmisPoll (portB : Bool) (cmis : Cmis)
  | linkUp (link : Nat)
  | linkDown (link : Nat) (failing : BitVec 8)
  | linkAttemptTimeout (link : Nat) (failing : BitVec 8)
  | failoverHold (link : Nat)
  | failoverBack (link : Nat)
  | egressFrameTimeout (frame : Nat)
  | frameReceive (link : Nat) (frame : Frame)
  | pauseQuantaExpire (link : Nat) (prio : Nat)
  | pauseWatchdog (link : Nat) (prio : Nat)
  | pauseWatchdogHoldoffEnd (link : Nat) (prio : Nat)
  | neighbourAgeOut (portB : Bool) (addr : Addr)
  -- transport and sessions
  | assemblyTimeout (c : Nat)
  | ackCoalesceExpire (c : Nat)
  | transportAck (ack : AckInfo)
  | retransmit (msg : Nat)
  | messageUnanswered (msg : Nat)
  | sessionIdle (session : Nat)
  | sessionFree (session : Nat)
  | windowRebalance
  | watermarkHoldoffEnd (wm : Nat)
  -- GKP commands
  | get (c : Nat)
  | put (c : Nat)
  | putPosted (c : Nat)
  | delete (c : Nat)
  | appendSegment (c : Nat)
  | discard (c : Nat)
  | secureDiscard (c : Nat)
  | scanKeys (c : Nat)
  | abort (c : Nat)
  | head (c : Nat)
  | versionsNext (c : Nat)
  | sieveOpen (c : Nat)
  | sieveNext (c : Nat)
  | sieveClose (c : Nat)
  | sessionOpen (c : Nat)
  | sessionClose (c : Nat)
  | echo (c : Nat)
  | keyspaceCreate (c : Nat)
  | keyspaceDelete (c : Nat)
  | keyspaceQuery (c : Nat)
  | keyLoad (c : Nat)
  | keyRetire (c : Nat)
  | fenceSet (c : Nat)
  | shaperSet (c : Nat)
  | powerPolicy (c : Nat)
  | relaySet (c : Nat)
  | orchardMapLoad (c : Nat)
  | promote (c : Nat)
  | healthRead (c : Nat)
  | identify (c : Nat)
  | logRead (c : Nat)
  | configGet (c : Nat)
  | configSet (c : Nat)
  | holdupTestNow (c : Nat)
  | fwStage (c : Nat)
  | fwActivate (c : Nat)
  | fwConfirm (c : Nat)
  | fwAbort (c : Nat)
  | sanitise (c : Nat)
  | modeSet (c : Nat)
  | relayedWrite (c : Nat)
  | seedBegin (c : Nat)
  | seedEnd (c : Nat)
  -- inside the module
  | shaperAdmit (c : Nat)
  | rangeLockEnter (op : LockOp)
  | rangeLockLeave (op : LockOp)
  | quinceUpdate (bank : Nat)
  | quinceSweep (bank row : Nat) (upset : Upset)
  | readS (slice bucket : Nat)
  | readE (slice bucket : Nat)
  | writeBack (slice bucket : Nat)
  | writeBackClean (slice bucket : Nat)
  | evict (slice bucket : Nat)
  | snoopInv (slice bucket : Nat)
  | snoopFetch (slice bucket : Nat)
  | presentClean (slice bucket : Nat)
  | presentData (slice bucket : Nat)
  | notPresent (slice bucket : Nat)
  | cipherJobArrive (job : JobOf)
  | cipherJobEnd (pipe : Nat)
  | cipherUrgencyRaise (job : JobOf)
  | pageReadComplete (c : Nat) (outcome : ReadOutcome)
  | programComplete (c : Nat) (ok : Bool)
  | eraseComplete (group : Nat) (failed : List (Nat × Nat))
  | commitClaim (c : Nat)
  | sessionCloseDrained (c : Nat)
  | keyspaceDeleteDrained (c : Nat)
  | dormantDrained (c : Nat)
  | dormantFlushComplete
  | settingsWriteDone (c : Nat)
  | logFlush (logB : Bool)
  | checkpointWrite
  | stripeIdleClose (group : Nat)
  | gcTick
  | heatHalving
  | patrolStep (group page : Nat) (finding : PatrolFinding)
  | rekeySweepStep (page : Nat) (loc : Nat) (readable : Bool)
  | dieRetire (channel position : Nat) (cause : Nat)
  | rebuildDone (channel position : Nat)
  | islandRetire (island bank : Nat)
  | islandFail (island : Nat) (held : List Nat)
  | trunkLinkFail (hub dir : Nat)
  | ueFound (island asker addr row : Nat) (flit : Bool) (site : UeWhere)
  | repairComplete (bucket : Nat) (readable : Bool)
  | codeTrap (island addr : Nat) (held : List Nat)
  | codeBankReloaded (island : Nat)
  | ceDecay (sram dram : List (Nat × Nat × Nat))
  | progressScan (island : Nat)
  | sieveVisit (slot : Nat)
  | sieveBatchAge (slot : Nat)
  | sieveIdle (slot : Nat)
  | relayForwardAnswer (slot : Nat) (answer : ForwardAnswer)
  | relayTimeout (slot : Nat)
  | resyncStart (keyspace successor : Nat)
  | resyncStateSave
  | idleTimer (target : Nat)
  | powerExitComplete
  | thermalSample (readings : List Int)
  | temperatureHistorySample
  | lastWaltzPhaseEnd (energyCj : Nat) (ok : Bool)
  | holdupTestStart
  | holdupTest (result : BankTest)
  | sectionFail (sectionNo : Nat)
  | sanitiseEraseComplete (refused : Nat)
  | fwStageIdle
  | slotProgramDone (readBackOk : Bool)
  | standbyBooted
  | handoverDone
  | islandReload (island : Nat) (ok : Bool)
  | selftestEnd (passed : Bool)
  | confirmationWindowExpire
  | restartActivation
  | fallbackDone
  | standbyFail (restartable : Bool)
  -- sideband, console, trace
  | mbData (bytes : Bytes) (pec : Pec)
  | go (pec : Pec)
  | mbAbort (pec : Pec)
  | mbReply
  | kek (bytes : Bytes) (pec : Pec)
  | sbRegisterWrite (code : Nat) (bytes : Bytes) (pec : Pec)
  | alertResponse
  | smbusTimeout
  | segmentPoll (device : Nat) (answers : Bool)
  | segmentRetry (device : Nat) (answers : Bool)
  | consoleLine (line : Bytes) (framingError : Bool)
  | traceSync (island : Nat)
  | alarmConditionEnd (src : AlarmSource)
  | signalReturn (link : Nat)
  | relayBackoffResend (slot : Nat)
  | bulkCopyDone
  | activationFlushComplete
  | dramSelfRefresh (channel : Nat)
  deriving DecidableEq, Repr, Inhabited

end Sys2Proof
end

