-- ==== Sys2Proof/Machine/State.lean ====
section
/-! DEFINITION. The state of the module: plain data, one structure per part of the spec, and the state after reset.
Times are in nanoseconds of the model's clock (log entry 2). -/

namespace Sys2Proof.Machine

/-- The six modes, with the codes of R43 in `Mode.code`. -/
inductive Mode where
  | dormant | filling | serving | shadowing | frozen | sanitising
  deriving DecidableEq, Repr, Inhabited

/-- Status codes of R17. -/
inductive Status where
  | done | doneReplayed | notFound | exists' | alreadyDone | aborted | more | notReady
  | badOpcode | badLength | badKeyspace | windowExceeded | staleSequence | redirect
  | keyspaceLocked | keyExhausted | authFail | digestMismatch | mediaError | noSpace
  | readOnly | backoff | wrongMode | relayFault | deviceFault | incomplete
  deriving DecidableEq, Repr, Inhabited

/-- Notice kinds of R18. -/
inductive NoticeKind where
  | lateFault | watermark | keyUsage | modeChange | secureDiscardDone | relayFault
  | spareBroughtIn | fwState | mapChanged | keysErased
  deriving DecidableEq, Repr, Inhabited

/-- Supplies, pins and straps (R29-R36, R363). -/
structure Supply where
  auxInRange : Bool                    -- P3V3_AUX has come into range and not been lost (R29)
  auxSince   : Nat                     -- when it came into range
  watched    : Bool                    -- PWR_EN is being sampled (R29)
  pwrEn      : Bool                    -- PWR_EN as last accepted by its filter
  armed      : Bool                    -- PWR_EN has risen and no MODE_SET to Dormant or start fault has used it up (R29, R47, R51)
  p12vOk     : Bool                    -- P12V is within range
  seated     : Bool                    -- the module is fully seated (R30)
  mainOn     : Bool                    -- the main supply is on (R457)
  refclk     : Bool                    -- a valid REFCLK, or the internal reference (R28)
  straps     : Straps                  -- as last sampled (R35)
  conditions : List AlarmSource        -- alarm conditions that hold now (R33, R363)
  lastCauses : BitVec 8                -- cause bits of the latest alarm (R368)
  alarms     : Nat                     -- alarms since manufacture (R368)
  keptAlarms : List (BitVec 8 × Nat)   -- alarms of Dormant and Filling, to be written at the next Filling end (R365)
  erasedLocked : Bool                  -- KEYS_ERASED_LOCKED (R365)
  deriving DecidableEq, Repr, Inhabited

/-- A flush from the main supply or from the hold-up bank (R47, R422, R423, R447). `trigger` is that of R431, 0 for the
flush of a firmware restart. -/
structure Flush where
  trigger  : Nat
  phase    : Nat      -- the phase running, 1-5 (R423)
  since    : Nat
  energyCj : Nat
  dirtyMiB : Nat
  deriving DecidableEq, Repr, Inhabited

/-- Mode, freeze causes, start-up record and flushes (R43-R66, R96, R97). -/
structure ModeState where
  mode         : Mode
  freezeCauses : BitVec 8              -- R61
  frozenFrom   : Option Mode           -- R62
  recorded     : Option Mode           -- mode recorded at turn-off; none before the first (R56)
  sanitising   : Bool                  -- a sanitise is recorded as in progress (R66)
  resetConfig  : Bool                  -- RESET_CONFIG of that sanitise (R65)
  sanitisePct  : Nat                   -- progress, 0-100
  fillStart    : Nat                   -- when PWR_EN was accepted, or the supply re-enabled (R50, R96)
  startStep    : Nat                   -- START_STEP (R60)
  startFault   : Bool
  startCause   : Nat
  faultIsland  : Nat                   -- 0x1FF if none
  starts       : Nat
  startFaults  : Nat
  lastFillMs   : Nat
  restartAt    : Option Nat            -- the main supply was turned off for a restart (R96)
  restartFault : Option Nat            -- island of the fault behind the latest restart, until Filling ends (R97)
  flush        : Option Flush          -- Last Waltz, or the flush of a MODE_SET or activation
  markFound    : Option Bool           -- completion mark of a flush not yet examined by a start (R429)
  markTrigger  : Flush                 -- the record of that flush
  timeBase     : Nat                   -- clock value at which the time base restarted at 0 (R85)
  deriving DecidableEq, Repr, Inhabited

/-- Spares, retirements and error tables (R57-R60, R72, R95, R405-R410). -/
structure Spares where
  roles       : List (Nat × Nat)           -- role (its home island number) ↦ island that holds it now; others hold their own
  unused      : List Nat                   -- spare islands left
  retired     : List Nat                   -- islands retired or failed, never used again (R72)
  lostRoles   : List Nat                   -- roles whose island failed with no spare left
  trunkSpares : List (Nat × Nat)           -- trunks whose spare link is in use (R95)
  trunkShort  : List (Nat × Nat)           -- links lost after that
  dieMap      : List ((Nat × Nat) × Nat)   -- (channel, logical position) ↦ physical position, where a spare stands in
  deadDies    : List (Nat × Nat)           -- logical dies retired with no spare
  rebuilding  : List ((Nat × Nat) × Nat)   -- logical dies being rebuilt, and since when
  reserveUsed : List ((Nat × Nat) × Nat)   -- reserve blocks used per logical die (R313)
  remap       : List ((Nat × Nat × Nat) × Nat) -- (channel, position, block) ↦ reserve block in its place
  rowsUsed    : List (Nat × Nat)           -- spare DRAM rows used per channel (R407)
  sparedRows  : List (Nat × Nat)           -- (channel, row) redirected
  standbyLost : Bool                       -- SINGLE_COMPLEX (R57)
  ceCounts    : List ((Nat × Nat) × Nat)   -- correctable-error counts per (island, bank) (R405)
  ceRows      : List ((Nat × Nat) × Nat)   -- and per DRAM (channel, row)
  traps       : List ((Nat × Nat) × Nat)   -- (island, address) of a code trap, and when (R410)
  trapped     : List (Nat × Nat)           -- islands halted on a trap, and since when
  deriving DecidableEq, Repr, Inhabited

/-- Counts since manufacture or since the last start (R188, R319, R368, R395, R412). -/
structure Counts where
  overruns  : Nat
  discards  : Nat
  unanswered : Nat
  sramUe    : Nat
  dramUe    : Nat
  dramCorrected : Nat
  sramCorrected : Nat
  quinceReloads : Nat
  codeTraps : Nat
  dmaHalts  : Nat
  busErrors : Nat
  islandsRetired : Nat
  islandsFailed : Nat
  digestMis : Nat
  repairs   : Nat
  lastUeIsland : Nat
  authFails : Nat
  suspends  : Nat
  slotWaits : Nat
  relayFaults : Nat
  lateNotices : Nat
  journalled : Nat
  divergent : Nat
  resyncLost : Nat
  partnerBytes : Nat
  nandBytes : Nat
  retryCw   : Nat
  softCw    : Nat
  rebuiltCw : Nat
  mediaErrors : Nat
  programFails : Nat
  eraseFails : Nat
  blocksRetired : Nat
  patrolMoves : Nat
  diesRetired : Nat
  deriving DecidableEq, Repr, Inhabited

/-- One link (R98-R117). -/
structure Link where
  up       : Bool
  degraded : Bool
  lanes    : BitVec 8                  -- lanes that carry it
  upSince  : Nat
  ups      : Nat                       -- LINK_UPS (R119)
  downAt   : Option Nat                -- since when it has been down (R114)
  attempt  : Option Nat                -- start of the running attempt (R489)
  failed   : Nat                       -- failed attempts in a row (R102)
  movedTo  : Option Nat                -- carrier of its addresses (R114)
  waiting  : Bool                      -- its addresses wait for a link of the other port
  pauses   : List (Nat × Nat × Nat)    -- (priority, paused since, paused until); priority 8 is the link (R117)
  holdoff  : List (Nat × Nat)          -- (priority, until): pauses discarded after the watchdog (R117)
  deriving DecidableEq, Repr, Inhabited

/-- One cage and the management of its plug-in module (R103-R105, R119). -/
structure Cage where
  present  : Bool
  accepted : Bool
  refuse   : Nat                       -- REFUSE_REASON
  lowPower : Bool                      -- LowPwrRequestSW as the module set it (R105)
  since    : Nat
  cmis     : Option Cmis
  deriving DecidableEq, Repr, Inhabited

/-- The ports (R98-R118). -/
structure Ports where
  links      : List Link               -- links 0-7
  cageA      : Cage
  cageB      : Cage
  eventsA    : BitVec 16               -- R118
  eventsB    : BitVec 16
  locked     : BitVec 8                -- LANES_LOCKED
  failing    : BitVec 8                -- LANES_FAILING
  formatA    : Nat                     -- format in effect
  formatB    : Nat
  activeA    : Nat                     -- last frame received or sent on the port (R23)
  activeB    : Nat
  neighbours : List (Bool × Addr × Nat × Nat) -- (Port B, address, MAC, last use) (R113)
  deriving DecidableEq, Repr, Inhabited

/-- A path to a partner (R112). -/
structure Path where
  link : Nat
  src  : Source
  pcp  : Nat
  deriving DecidableEq, Repr, Inhabited

/-- What a reply or notice carries beyond its addressing (R121, R124, R146, R154). -/
structure Msg where
  notice    : Option NoticeKind
  opcode    : Nat
  session   : Nat
  tag       : Nat
  sequence  : BitVec 32
  status    : Status
  flags     : BitVec 4                 -- REPLY_FLAGS
  reread    : Bool
  noSession : Bool
  lost      : Bool                     -- NOTICES_LOST
  keyspace  : Nat
  paramA    : BitVec 64
  paramB    : BitVec 64
  body      : Bytes
  deriving DecidableEq, Repr, Inhabited

/-- A LATE_FAULT's facts, from which its journal entry is made (R384, R385). -/
structure LateFault where
  keyspace : Nat
  hop      : Nat
  reason   : Nat
  succ     : Nat
  session  : Nat
  tag      : Nat
  mailbox  : Bool
  stamp    : Nat
  fp       : BitVec 128
  seq      : BitVec 32
  key      : Bytes
  deriving DecidableEq, Repr, Inhabited

/-- A notice that waits to be sent (R147, R148). -/
structure Notice where
  kind     : NoticeKind
  keyspace : Nat
  paramA   : BitVec 64
  paramB   : BitVec 64
  value    : Bytes
  late     : Option LateFault
  deriving DecidableEq, Repr, Inhabited

/-- A reply or notice kept until it is acknowledged or unanswered (R144, R145). -/
structure Kept where
  id      : Nat
  session : Nat
  owner   : Nat                        -- pool part its cells come from (R329)
  msg     : Msg
  path    : Path                       -- fixed at its first sending (R144)
  seg     : Nat                        -- segment size at its first sending
  sends   : Nat                        -- sendings begun, 1-8
  ended   : Option Nat                 -- end of the latest sending
  contig  : Nat                        -- packets acknowledged (R142)
  beyond  : BitVec 64
  late    : Option LateFault
  deriving DecidableEq, Repr, Inhabited

/-- A relay prefix (R375). -/
structure Prefix where
  tailAck   : Bool
  resync    : Bool
  seed      : Bool
  marker  : Nat
  origin  : Nat
  attrs   : BitVec 13
  stamp   : Nat
  crc     : BitVec 64
  quota   : Nat
  deriving DecidableEq, Repr, Inhabited

/-- What leaves by a link: a GKP message's packets, or a frame of R111. -/
inductive Content where
  | gkp (m : Msg) (credit : BitVec 16) (retransmit : Bool) (seg : Nat) (packets : List Nat)
  | ack (a : AckInfo) (credit : BitVec 16)
  | forward (session : Nat) (seq : BitVec 32) (ks opcode : Nat) (offset : Nat) (pfx : Prefix) (key value : Bytes)   -- R375, R380
  | announce (a : Addr)                -- gratuitous ARP or unsolicited Neighbor Advertisement
  | arpReply (a : Addr)
  | echoReply (data : Bytes)
  deriving DecidableEq, Repr, Inhabited

/-- A frame held in a port MAC island because its link is down or paused (R114-R117). -/
structure Held where
  id     : Nat
  link   : Nat
  prio   : Nat
  queued : Nat
  kept   : Option Nat                  -- the kept message it belongs to
  dest     : Source
  what   : Content
  deriving DecidableEq, Repr, Inhabited

/-- A frame that has left the module: the link it left by, where to, its PCP, its 802.1Q tag and DSCP (R108), what it carries. -/
structure Sent where
  link : Nat
  dest   : Source
  pcp  : Nat
  tag  : Tagging
  dscp : Nat
  what : Content
  deriving DecidableEq, Repr, Inhabited

/-- One entry of a replay window (R136): IN_PROGRESS or DONE; an absent number is NOT_RECEIVED. -/
structure ReplayEntry where
  seq      : BitVec 32
  opcode   : Nat
  tag      : Nat
  finished : Bool
  status   : Status
  paramA   : BitVec 64
  rerun    : Bool                      -- recorded as re-executable (R139)
  deriving DecidableEq, Repr, Inhabited

/-- One open or closing session (R129). -/
structure Session where
  num        : Nat
  fence      : Nat
  path       : Path
  nonce      : BitVec 64
  openSeq    : BitVec 32
  granted    : Nat                     -- window granted at the open (R130)
  request    : Nat
  window     : Nat
  highest    : BitVec 32
  base       : BitVec 32               -- lowest number without a terminal status (R134)
  limit      : BitVec 32
  replay     : List ReplayEntry
  queue      : List Nat                -- session queue, head first (R214)
  noticeMask : BitVec 16
  nextNotice : BitVec 32
  notices    : List Notice             -- waiting, oldest first (R148)
  waitingSd  : List Notice             -- SECURE_DISCARD_DONEs that wait outside the queue (R148)
  lost       : Bool                    -- set NOTICES_LOST in the next notice
  backoffs   : Nat                     -- BACKOFFs since the last accepted command (R220)
  lastHeard  : Nat                     -- last packet received (R131)
  used       : Bool                    -- a further command has been received (R130)
  closing    : Option Nat              -- context of the SESSION_CLOSE that began closing
  closed     : Bool                    -- closing, and its SESSION_CLOSE answered or none needed
  deriving DecidableEq, Repr, Inhabited

/-- A token-bucket pair (R334-R340). Counts are in bytes and in 1/1024 operations; remainders of accrual are kept in
units of 10^-9. Rate 2^64-1 is unlimited. -/
structure Shaper where
  byteRate  : Nat
  byteDepth : Nat
  opRate    : Nat
  opDepth   : Nat
  bytes   : Int
  ops     : Int
  byteRem   : Nat
  opRem     : Nat
  at'     : Nat                        -- time of the last accrual
  stopped : Bool                       -- stopped by an accepted KEYSPACE_DELETE (R341)
  deriving DecidableEq, Repr, Inhabited

/-- A successor of a relay chain (R183). -/
structure Succ where
  moduleId : Nat
  port     : Nat
  addr     : Addr
  deriving DecidableEq, Repr, Inhabited

/-- A relay chain (R371): explicit successors, or from the map; the relay timeout in ms, 0 the default. -/
structure Chain where
  fromMap : Bool
  succs   : List Succ
  timeout : Nat
  deriving DecidableEq, Repr, Inhabited

/-- A keyspace (R175). -/
structure Keyspace where
  id            : Nat
  fence         : Nat
  encrypted     : Bool
  keyPage       : Nat
  holdBack      : Bool
  requireDigest : Bool
  quota         : Nat
  seed          : BitVec 128
  deleting      : Option Nat           -- context of the accepted KEYSPACE_DELETE (R176)
  partialSeed   : Bool
  lateSticky    : Bool
  chain         : Option Chain
  shaper        : Option Shaper
  deriving DecidableEq, Repr, Inhabited

/-- An owner: the commons (0) or a fence (R323). Targets are those of the latest FENCE_SET. -/
structure Owner where
  sessions512 : Nat
  cells128    : Nat
  pipes       : Nat
  dieSets     : Nat
  shaper      : Option Shaper
  held        : BitVec 32              -- die sets held (R332)
  moving      : BitVec 32              -- die sets being emptied to pass to this owner
  gc          : Nat                    -- GC mode: 0 OFF, 1 IDLE, 2 BACKGROUND, 3 FOREGROUND (R307)
  lastOp      : Nat                    -- last partner operation in the owner's die queues
  throttle    : List (Nat × Nat)       -- (session, last write accepted) (R309)
  deriving DecidableEq, Repr, Inhabited

/-- A change of the stored settings that a command makes at its DONE (R54, R226). -/
inductive Change where
  | config (id value : Nat)
  | create (ks : Keyspace)
  | fence (n sessions512 cells128 pipes dieSets : Nat)
  | shaper (fence : Bool) (target : Nat) (remove forgive : Bool) (byteRate byteDepth opRate opDepth : Nat)
  | power (deepest p1 p2 p3 : Nat)
  | relay (ks : Nat) (chain : Option Chain)
  | map (epoch : Nat) (body : Bytes)
  | keyLoad (page : Nat) (previous : Bool) (key : BitVec 256)
  | keyRetire (page : Nat) (key : BitVec 256)
  deriving DecidableEq, Repr, Inhabited

/-- Where a command context stands (R83, R199-R215). -/
inductive Phase where
  | assembling      -- waiting for packets of its message
  | complete        -- message complete; its opcode's row has not run yet
  | shaping         -- checked; in the session queue, or waiting at a bucket
  | locking         -- has its tokens; has not entered the range-lock table
  | waiting         -- in the table, not granted
  | reading         -- granted read: its records are being read
  | opening         -- its records are at the cipher step
  | sealing         -- granted write of an encrypted keyspace: its cipher job
  | spaceWait       -- granted write that waits for erases (R306)
  | programming     -- its record is being programmed
  | relayWait       -- waits for a relay slot (R379)
  | ready           -- its commit claim may be made
  | settings        -- waits for the settings write
  | draining        -- waits for earlier commands
  | relaying        -- past its commit point; waits for its successors (R382)
  deriving DecidableEq, Repr, Inhabited

/-- An assembly (R126). -/
structure Assembly where
  seg      : Option Nat                -- segment size, once a packet has shown it
  packets  : List (Nat × Bytes)
  reported : List Nat                  -- missing indices already reported (R143)
  deriving DecidableEq, Repr, Inhabited

/-- A reply that is decided and waits for its commit claim or its drain. -/
structure Reply where
  status : Status
  flags  : BitVec 4
  paramA : BitVec 64
  paramB : BitVec 64
  body   : Bytes
  deriving DecidableEq, Repr, Inhabited

/-- A command context (R83, R92). -/
structure Ctx where
  id        : Nat
  session   : Option Nat               -- none: the mailbox, or a SESSION_OPEN
  mailbox   : Bool
  reexec    : Bool                     -- a re-execution (R139)
  pool      : Nat                      -- context pool (R217)
  age       : Nat                      -- R85
  path      : Path
  opcode    : Nat
  tag       : Nat
  seq       : BitVec 32
  sessField : Nat                      -- SESSION as received
  flags     : BitVec 8                 -- CMD_FLAGS
  keyspace  : Nat
  keyLen    : Nat
  valLen    : Nat
  paramA    : BitVec 64
  paramB    : BitVec 64
  pre       : Option Prefix            -- of a RELAYED command
  key       : Bytes
  body      : Bytes                    -- the body after the key
  fp        : BitVec 128
  cells     : Nat                      -- input cells held
  outCells  : Nat                      -- cells held beyond the input (R329)
  phase     : Phase
  asm       : Assembly
  admitted  : Nat
  completed : Option Nat               -- when the message was complete
  acked     : Bool                     -- a transport-ack has covered the whole message
  work      : Nat                      -- internal work so far (R92)
  runSince  : Option Nat               -- running since; none in an excluded wait (R88)
  ksTokens  : Bool                     -- holds the tokens of its keyspace's bucket
  keyUse    : Bool                     -- holds a reservation of its key page (R354)
  sealGen   : Option (Nat × Nat)       -- generation and use its cipher job took
  slotRes   : Option Nat               -- sieve slot reserved (R173)
  recs      : List (Nat × Nat × Nat)   -- what its lookup resolved: location, first byte of the record used, bytes used
  newLoc    : Nat                      -- location of the record it writes
  newGroup  : Nat
  growth    : Int                      -- growth reserved (R306)
  reserved  : Nat                      -- record length reserved
  readFail  : Option Status            -- MEDIA_ERROR, AUTH_FAIL or DIGEST_MISMATCH found so far (R160)
  reply     : Reply                    -- what the commit claim or drain sends
  change    : Option Change
  committed : Bool                     -- past its commit point
  stamp     : Nat
  deriving DecidableEq, Repr, Inhabited

/-- A range-lock holder or waiter (R206, R211). -/
structure LockRec where
  op    : LockOp
  mode  : LockMode
  start : Nat
  stop  : Nat
  age   : Nat
  held  : Bool
  deriving DecidableEq, Repr, Inhabited

/-- An object entry of the range-lock table (R211). -/
structure LockEntry where
  keyspace : Nat
  fp       : BitVec 128
  recs     : List LockRec
  deriving DecidableEq, Repr, Inhabited

/-- A segment of a segmented object (R237). -/
structure Seg where
  offset : Nat
  length : Nat
  skip   : Nat
  loc    : Nat
  stamp  : Nat
  digest : Bool
  deriving DecidableEq, Repr, Inhabited

/-- A mapped match of a key (R233): its record, or a segment table. -/
structure Match where
  loc   : Nat                          -- location of the record; of the segment table when `segs` is not none
  stamp : Nat
  tomb  : Bool
  segs  : Option (List Seg)
  deriving DecidableEq, Repr, Inhabited

/-- Where a key's directory entries lie (R234, R236). -/
inductive Place where
  | bucket (n : Nat) | stash
  deriving DecidableEq, Repr, Inhabited

/-- The directory entries of one key: the newest match, then the further mapped matches (R233, R250). The keyspace,
fingerprint and key are those of its records' headers. -/
structure Entry where
  keyspace : Nat
  fp       : BitVec 128
  key      : Bytes
  newest   : Match
  older    : List Match
  pinned   : Bool
  place    : Place
  deriving DecidableEq, Repr, Inhabited

/-- A record on flash (R294). `loc` is its LOCATION, 40 bits (R235). -/
structure Rec where
  loc      : Nat
  kind     : Nat                       -- 1 value, 2 segment, 3 tombstone, 4 discard
  keyspace : Nat
  secure   : Bool
  sealed   : Option (Nat × Nat)        -- GENERATION and USE of an encrypted record (R347)
  digest   : Option (BitVec 64)
  key      : Bytes
  valLen   : Nat
  segOff   : Nat
  fp       : BitVec 128
  stamp    : Nat
  prev     : Nat                       -- PREV (R238)
  data     : Bytes                     -- value bytes as stored
  gcmTag   : BitVec 128
  group    : Nat                       -- stripe group that holds it (R292)
  slot     : Nat
  poison   : Bool                      -- unreadable for good (R411)
  deriving DecidableEq, Repr, Inhabited

/-- A stripe group that is not simply erased (R292, R297). -/
structure Group where
  num      : Nat
  owner    : Nat
  sets     : Nat × Nat                 -- its even and odd die set
  slc      : Bool
  fine     : Bool                      -- of the fine stream
  gcOwn    : Bool                      -- opened by GC or folding
  isOpen   : Bool
  closedAt : Nat
  written  : Nat                       -- slots written
  parityAt : Nat                       -- last program in its open stripe (R300)
  parity   : Bool                      -- the open stripe holds data: running P and Q held
  blk      : Nat                       -- its die block number on every die of both sets (R292)
  base     : Nat                       -- extent, or fine unit, of its slot 0 (R295, R296)
  collecting : Bool                    -- GC or folding empties it, and then it is erased (R301, R308)
  secure   : Option Nat                -- when marked secure-pending (R317)
  refresh  : Option Nat                -- when marked refresh-pending
  wear     : Option Nat
  patrolled : List Nat                 -- pages that qualified in this patrol cycle (R311)
  deriving DecidableEq, Repr, Inhabited

/-- The erase set of a SECURE_DISCARD or secure KEYSPACE_DELETE whose erasure has not completed (R317). -/
structure EraseSet where
  keyspace : Nat
  session  : Option Nat
  stamp    : Nat
  key      : Bytes
  groups   : List Nat                  -- not yet erased
  total    : Nat
  deriving DecidableEq, Repr, Inhabited

/-- A log record (R259). -/
structure LogRec where
  kind     : Nat
  keyspace : Nat
  pin      : Bool
  fp       : BitVec 128
  key      : Bytes
  loc      : Nat
  stamp    : Nat
  seg      : Option Seg
  old      : Nat                       -- kinds 6 and 7: the location it replaces
  extra    : Bool                      -- entered as a further mapped match (R263, R376)
  lsn      : Nat
  deriving DecidableEq, Repr, Inhabited

/-- One directory log owner (R259, R260): records in its buffer and the mirror's, then on flash. -/
structure LogOwner where
  nextLsn  : Nat
  buffer   : List LogRec
  medium   : List LogRec
  lastAt   : Nat
  deriving DecidableEq, Repr, Inhabited

/-- A checkpoint chunk image (R261). -/
structure Image where
  chunk   : Nat
  lsnA    : Nat
  lsnB    : Nat
  entries : List Entry
  deriving DecidableEq, Repr, Inhabited

/-- Cache states of a slice's line (R240), and the waits of R243. -/
inductive LineState where
  | s | e | m | wantS | wantE
  deriving DecidableEq, Repr, Inhabited

/-- A bucket line in a lookup slice. `ver` names the contents: the number of the change that made them. -/
structure Line where
  slice  : Nat
  bucket : Nat
  st     : LineState
  ver    : Nat
  deriving DecidableEq, Repr, Inhabited

/-- A coherence request at a home (R240, R242). `from'` are the holders whose snoop answers are awaited, `owner` the
recorded owner whose write-back is awaited. -/
structure HomeTx where
  bucket : Nat
  slice  : Nat
  excl   : Bool
  age    : Nat
  active : Bool
  snoops : List Nat
  owner  : Option Nat
  deriving DecidableEq, Repr, Inhabited

/-- The slices, the homes and their snoop filters (R240-R243). -/
structure Coherence where
  lines   : List Line
  dram    : List (Nat × Nat)               -- bucket ↦ version in DRAM; others 0
  filter  : List (Nat × List Nat × Option Nat) -- bucket ↦ holders, owner in E or M
  txs     : List HomeTx
  flying  : List (Nat × Nat × Option Nat)  -- write-backs under way: slice, bucket, data
  snooped : List (Nat × Nat × Bool)        -- snoops not yet answered: slice, bucket, SNOOP_INV
  answers : List (Nat × Nat × Option (Option Nat)) -- answers under way: some (some v) PRESENT_DATA, some none PRESENT_CLEAN, none NOT_PRESENT
  evicts  : List (Nat × Nat)               -- EVICT notices that have left a slice
  repairs : List (Nat × Nat × Nat)         -- units under repair, with the DRAM channel and row of each (R409)
  deriving DecidableEq, Repr, Inhabited

/-- A Quince way (R245). -/
structure Way where
  n        : Nat
  fp       : BitVec 128
  loc      : Nat
  len4k    : Nat
  priority : Nat
  older    : Bool
  cached   : Bool
  tomb     : Bool
  seg      : Bool
  parityOk : Bool
  matched  : Nat                       -- time of the last match (R250 eviction)
  deriving DecidableEq, Repr, Inhabited

/-- A Quince row and its shadow (R245, R249). -/
structure QRow where
  bank   : Nat
  row    : Nat
  ways   : List Way
  shadow : List Way
  deriving DecidableEq, Repr, Inhabited

/-- A queued row update: the row's new contents (R249). -/
structure QUpdate where
  bank : Nat
  row  : Nat
  ways : List Way
  deriving DecidableEq, Repr, Inhabited

/-- The Quince index and its admission counters (R245-R256). -/
structure Quince where
  rows    : List QRow
  updates : List QUpdate
  heat    : List (Nat × BitVec 128 × Nat × Nat)  -- (keyspace, fingerprint, lookups, window start)
  deriving DecidableEq, Repr, Inhabited

/-- The store: keyspaces, directory, media, logs, caches. -/
structure Store where
  keyspaces : List Keyspace
  stamps    : List (Nat × Nat)             -- highest stamp ever issued or relayed per keyspace ID (R162, R377)
  entries   : List Entry
  recs      : List Rec
  groups    : List Group
  extents   : Nat                          -- where the search for free extents resumes (R295)
  fineNext  : Nat                          -- where the search for free fine units resumes (R296)
  wear      : List ((Nat × Nat) × Nat)     -- (die set, die block) ↦ erases in thirds of a cycle (R312); others 0
  gens      : List (Nat × Nat)             -- erase generation of a group (R297); others 0
  eraseSets : List EraseSet
  stale     : List (BitVec 32 × Nat × Nat) -- stale-copy index: FP[127:96], group, generation (R316)
  heat      : List (Nat × Nat)             -- heat counters (R296)
  cache     : List Nat                     -- locations in the value cache (R257)
  holds     : List (Nat × Nat)             -- read-holds: kept message or context, location (R202)
  logA      : LogOwner
  logB      : LogOwner
  mapLog    : Nat                          -- map-log records not yet on flash
  dirty     : List (Nat × Nat)             -- dirty chunks and the LSN that made them dirty, oldest first (R261)
  images    : List Image
  patrolAt  : Nat                          -- start of the patrol cycle
  patrolMoved : Nat
  cycleHours : Nat
  deriving DecidableEq, Repr, Inhabited

/-- State of a key slot (R349). -/
inductive SlotState where
  | empty | recorded | loaded
  deriving DecidableEq, Repr, Inhabited

/-- One slot of a key page (R349). `key` is that of the key stores while LOADED. -/
structure KeySlot where
  st       : SlotState
  identity : BitVec 64
  salt     : BitVec 32
  gen      : Nat
  key      : BitVec 256
  deriving DecidableEq, Repr, Inhabited

/-- A re-key sweep (R358). -/
structure Sweep where
  started  : Nat
  total    : Nat
  resealed : Nat
  inPlace  : List Nat                  -- locations left in place
  deriving DecidableEq, Repr, Inhabited

/-- A key page (R349-R358). -/
structure KeyPage where
  n          : Nat
  cur        : KeySlot
  prev       : KeySlot
  taken      : Nat
  reserved   : Nat
  warnSent   : Bool
  exhSent    : Bool
  sweep      : Option Sweep
  deriving DecidableEq, Repr, Inhabited

/-- A cipher job (R361). -/
structure Job where
  of'     : JobOf
  owner   : Nat                        -- owner whose queue and pipelines it uses (R344)
  cls     : Nat
  age     : Nat
  waited  : Nat                        -- time spent waiting or suspended so far
  since   : Nat                        -- when the present wait began
  deriving DecidableEq, Repr, Inhabited

/-- A logical cipher pipeline (R343, R344, R362). -/
structure Pipe where
  n         : Nat
  owner     : Nat
  running   : Option Job
  suspended : List Job
  deriving DecidableEq, Repr, Inhabited

/-- The cipher engine (R343-R362). -/
structure Cipher where
  pages : List KeyPage                 -- pages with a slot that is not EMPTY
  kek   : Option (BitVec 256)
  pipes : List Pipe
  queue : List Job
  deriving DecidableEq, Repr, Inhabited

/-- One pattern of a sieve (R268). -/
structure Pattern where
  numeric   : Bool
  priority  : Nat
  signed    : Bool
  little    : Bool
  floating  : Bool
  length    : Nat
  op        : Nat
  offset    : Nat
  window    : Nat
  pattern   : Bytes                    -- a byte pattern's bytes
  mask      : Bytes
  const     : BitVec 64
  deriving DecidableEq, Repr, Inhabited

/-- A closed batch (R276): its number, its bytes, and whether it is LAST. -/
structure Batch where
  num  : Nat
  body : Bytes
  last : Bool
  deriving DecidableEq, Repr, Inhabited

/-- An open sieve (R266-R285). -/
structure Sieve where
  slot      : Nat
  gen       : Nat
  keyspace  : Nat
  patterns  : List Pattern
  require   : BitVec 16
  exclude   : BitVec 16
  checkDig  : Bool
  asOfOpen  : Bool
  batchMax  : Nat
  rate      : Nat                      -- MB/s
  maxMatch  : Nat
  openStamp : Nat
  age       : Nat
  h         : Option Nat               -- highest batch returned (R280)
  batches   : List Batch               -- closed and held
  filling   : List Bytes               -- entries of the open batch, in order
  firstAt   : Nat                      -- when the open batch got its first entry
  nextNum   : Nat
  cursor    : Nat                      -- fingerprint order position after the last key visited
  ended     : Bool                     -- LAST produced
  matches'  : Nat
  visited   : Nat
  scanned   : Nat
  skipped   : Nat
  authFails : Nat
  mediaErrs : Nat
  digFails  : Nat
  lastNext  : Nat                      -- time of the last SIEVE_NEXT (R282)
  tokens    : Int                      -- its own bucket, thousandths of a byte (R284)
  tokensAt  : Nat
  lost      : List Nat                 -- held batches lost to a memory error (R409)
  deriving DecidableEq, Repr, Inhabited

/-- The sieves and their shared bucket (R284). -/
structure Sieves where
  list   : List Sieve
  gens   : List (Nat × Nat)            -- slot ↦ generation; others 0
  tokens : Int                         -- thousandths of a byte
  at'    : Nat
  deriving DecidableEq, Repr, Inhabited

/-- What a relay slot forwards (R379, R392). -/
inductive ForwardKind where
  | live | seed | resync
  deriving DecidableEq, Repr, Inhabited

/-- A held relay slot (R379-R382). -/
structure RelaySlot where
  id       : Nat
  ctx      : Option Nat                -- the command that waits for it
  kind     : ForwardKind
  keyspace : Nat
  opcode   : Nat
  loc      : Nat                       -- record forwarded; 0 for a discard
  key      : Bytes
  fp       : BitVec 128
  stamp    : Nat
  seg      : Option Seg
  marker   : Nat
  succs    : List Succ                 -- successors in chain order
  hop      : Nat                       -- successor now addressed, from 1
  waiting  : Bool                      -- not sent yet: behind an earlier write of the object, or for credit
  sentAt   : Option Nat                -- first sending to this successor
  seq      : BitVec 32                 -- sequence number in the initiator session
  session  : Nat
  backoff  : Option Nat                -- resend at (R381)
  timeout  : Nat                       -- ms
  mailbox  : Bool
  issuer   : Option Nat                -- issuing session of a PUT_POSTED
  tag      : Nat
  cmdSeq   : BitVec 32
  posted   : Bool
  sends    : Nat                       -- sendings begun to this successor (R144)
  ended    : Option Nat                -- end of the latest sending
  acked    : Bool                      -- transport-acknowledged whole
  deriving DecidableEq, Repr, Inhabited

/-- A keyspace and successor pair that is behind, or being seeded (R383, R386, R392). -/
structure Pair where
  keyspace : Nat
  succ     : Succ
  hop      : Nat
  point    : Nat                       -- resync point P
  since    : Nat
  running  : Bool                      -- a resync runs
  started  : Nat
  sends    : Nat
  cursor   : Nat                       -- fingerprint after the last key sent
  part     : Nat                       -- segments of the key at the cursor already sent
  seeding  : Bool
  behind   : Bool
  discards : List (Bytes × BitVec 128 × Nat × Nat) -- key, fingerprint, stamp, opcode (R387)
  lost     : Nat
  buckets  : List Nat                  -- placement buckets it is restricted to; none: every key of the chain (R391)
  redo     : Option (Nat × Nat)        -- a seed that resumes: next key below its cursor to look at, and that cursor (R392)
  deriving DecidableEq, Repr, Inhabited

/-- A module entry and a bucket entry of the orchard map (R389). -/
structure MapModule where
  id     : Nat
  succ   : Succ
  serial : Nat
  deriving DecidableEq, Repr, Inhabited

/-- The loaded orchard map (R389). -/
structure OrchardMap where
  epoch   : Nat
  cover   : Bytes
  modules : List MapModule
  buckets : List (List Nat)            -- chain of each placement bucket, head first
  self    : Nat
  deriving DecidableEq, Repr, Inhabited

/-- An initiator session (R151). -/
structure Initiator where
  succ  : Succ
  num   : Nat
  next  : BitVec 32
  limit : BitVec 32
  deriving DecidableEq, Repr, Inhabited

/-- The relay islands (R371-R397). -/
structure Relay where
  slots      : List RelaySlot
  pairs      : List Pair
  initiators : List Initiator
  map        : Option OrchardMap
  stored     : List Pair               -- resync points and discard lists in the run record (R388)
  deriving DecidableEq, Repr, Inhabited

/-- Power states (R415-R418). -/
structure Power where
  st        : Nat
  lastFg    : Nat                      -- last foreground activity (R417)
  preparing : Bool                     -- preparing for P3
  exiting   : Option (Nat × Nat)       -- (state left, when the exit began) (R418)
  refreshed : BitVec 16                -- DRAM channels in self-refresh
  stSince   : Nat
  residency : List Nat                 -- ns in P0-P3 since the last start
  p3Exits   : Nat
  deriving DecidableEq, Repr, Inhabited

/-- Temperature (R40, R320, R420, R421). -/
structure Thermal where
  readings  : List Int                 -- 10 sensors, in the order of R40
  stage     : Nat
  nandNow   : Int
  minutes   : Nat                      -- POWER_ON_MINUTES
  histogram : List Nat
  maxima    : List (Int × Nat)
  deriving DecidableEq, Repr, Inhabited

/-- The hold-up bank (R426-R431). -/
structure Holdup where
  charged    : Bool
  spareInUse : Bool
  failed     : BitVec 8                -- physical sections failed
  lastPassed : Bool
  tested     : Bool                    -- a test has run since manufacture
  testing    : Option Nat
  lastTestAt : Nat
  health     : List Nat                -- capacitance of each section, percent
  energyCj   : Nat
  flushCj    : Nat                     -- LAST_FLUSH_ENERGY_CJ
  flush10us  : Nat
  runs       : Nat                     -- LAST_WALTZ_COUNT
  interrupted : Bool                   -- a test that a power loss interrupted (R427)
  deriving DecidableEq, Repr, Inhabited

/-- A NOR firmware slot (R439, R451). States: 0 empty, 1 staged, 2 earlier, 3 invalid, 4 running confirmed,
5 running unconfirmed. -/
structure FwSlot where
  st       : Nat
  version  : Nat
  floor    : Nat                       -- NEW_FLOOR of its header
  settings : Nat                       -- SETTINGS_FORMAT
  media    : Nat                       -- MEDIA_FORMAT
  full     : Bool                      -- from a full package
  parts    : List Nat                  -- part codes whose KIND is not 0
  sound    : Bool                      -- every part's tag and digest checks
  images   : List (Nat × Bytes)        -- part images; a part not listed is that of the factory image (log entry 4)
  writes   : Nat                       -- write count
  deriving DecidableEq, Repr, Inhabited

/-- Firmware (R433-R453). Activation state is that of R451. -/
structure Firmware where
  slot0      : FwSlot
  slot1      : FwSlot
  active     : Nat                     -- slot of the running image
  confirmed  : Nat                     -- slot of the confirmed image
  floor      : Nat                     -- version floor
  staging    : Option Bytes            -- bytes staged
  stagedAt   : Nat                     -- last FW_STAGE
  programming : Option (Nat × FwSlot)  -- since, and what is being programmed
  act        : Nat                     -- ACTIVATION_STATE
  byRestart  : Bool
  complexB   : Bool                    -- the active complex is B
  standbyOld : Bool                    -- the standby holds the old code
  copying    : Bool                    -- the standby has booted and copies state
  freeze     : Option Nat              -- the freeze of a handover (R441)
  reload     : List Nat                -- roles whose islands are still to be reloaded, in order
  reloaded   : Nat
  reloadTotal : Nat
  lastReload : Nat
  mediaFmt   : Nat                     -- MEDIA_FORMAT that the module writes (R446)
  selftestS  : Nat                     -- duration of the self-test under way, s
  awaitSince : Option Nat              -- the image awaits confirmation
  selftested : Bool
  doneAt     : Nat                     -- DONE of the FW_ACTIVATE
  bootNew    : Bool                    -- the next start boots the activated image (R447)
  fallback   : Nat                     -- reason of a fallback in progress, 0 none
  abandoned  : Option (Nat × Nat)      -- FW_STATE and reason to record at the end of the next Filling (R449)
  restarting : Bool                    -- commands drain for a restart (R447)
  lastReason : Nat
  activations : Nat
  fallbacks  : Nat
  deriving DecidableEq, Repr, Inhabited

/-- Mailbox reply states of R461. -/
inductive MbState where
  | ready | busy | empty | noReply
  deriving DecidableEq, Repr, Inhabited

/-- The sideband (R454-R464). -/
structure Sideband where
  alertStatus : BitVec 16
  alertMask   : BitVec 16
  mbOffset    : Nat
  mbLen       : Nat
  request     : Bytes                  -- request buffer, 4096 bytes
  mb          : MbState
  reason      : Nat
  whileBusy   : Bool
  pecError    : Bool
  reply       : Bytes
  readOff     : Nat
  delivered   : Bool                   -- the whole reply has been delivered once
  lastRead    : Bytes                  -- bytes the latest read delivered (code byte first)
  arAnswered  : Bool                   -- the latest Alert Response read was answered
  kekRefused  : Bool
  failed      : List (Nat × Nat)       -- failed segment devices, and since when (R464)
  deriving DecidableEq, Repr, Inhabited

/-- A trace record (R468). -/
structure TraceRec where
  kind    : Nat
  island  : Nat
  wake    : Bool
  time    : Nat
  payload : BitVec 64
  deriving DecidableEq, Repr, Inhabited

/-- Console and trace (R465-R470). -/
structure Debug where
  tx      : List Bytes                 -- console lines transmitted, oldest first
  txBusy  : Nat                        -- when the UART will have sent everything in its buffer
  dropped : Bool
  trace   : List TraceRec
  lost    : Nat                        -- FLOW and DATA records dropped
  area    : List TraceRec              -- the trace area of P3 (R470)
  lastSync : List (Nat × Nat)
  deriving DecidableEq, Repr, Inhabited

/-- A watermark: level, crossed-up and crossed-down bits, the last notice and the crossings it has yet to cover (R149). -/
structure Watermark where
  level  : Bool
  up     : Bool
  down   : Bool
  sentAt : Option Nat
  merged : Nat
  deriving DecidableEq, Repr, Inhabited

/-- A record of the event log or the late-fault journal (R191). -/
structure LogEntry where
  index : Nat
  start : Nat
  code  : Nat
  time  : Nat
  body  : Bytes
  deriving DecidableEq, Repr, Inhabited

/-- The event log, the journal, and their next indices (R190, R385). -/
structure Logs where
  events  : List LogEntry
  nextEv  : Nat
  journal : List LogEntry
  nextJn  : Nat
  deriving DecidableEq, Repr, Inhabited

/-- The contents of a settings block (R54). -/
structure Settings where
  format       : Nat
  vars         : List (Nat × Nat)
  recorded     : Option Mode
  freezeCauses : BitVec 8
  frozenFrom   : Option Mode
  sanitising   : Bool
  resetConfig  : Bool
  keyspaces    : List Keyspace
  owners       : List Owner
  map          : Option OrchardMap
  pages        : List KeyPage
  lastTestAt   : Nat
  deriving DecidableEq, Repr, Inhabited

/-- The settings areas of the two NOR devices (R53, R54). -/
structure Nor where
  seqA   : Nat
  blockA : Option Settings
  seqB   : Nat
  blockB : Option Settings
  older  : Option Settings             -- retained until the image is confirmed
  deriving DecidableEq, Repr, Inhabited

/-- The transport side: sessions, contexts, what is kept, held and sent. -/
structure Transport where
  sessions : List Session
  closed   : List (Nat × Nat)          -- numbers of closed sessions, and when (R129)
  ctxs     : List Ctx
  nextId   : Nat                       -- next context, message or slot number
  kept     : List Kept
  held     : List Held
  sent     : List Sent                 -- everything that has left the module, oldest first
  locks    : List LockEntry
  deriving DecidableEq, Repr, Inhabited

/-- The module. -/
structure State where
  pending  : List Instr                -- commands that wait, first in, first out
  clock    : Nat                       -- ns
  rnd      : Nat                       -- free values drawn so far (log entry 5)
  supply   : Supply
  modes    : ModeState
  spares   : Spares
  counts   : Counts
  ports    : Ports
  net      : Transport
  vars     : List (Nat × Nat)          -- configuration variables that differ from their defaults
  marks    : List Watermark            -- the six watermarks, in order (R149)
  logs     : Logs
  owners   : List Owner                -- the commons, fences 1-8
  store    : Store
  coh      : Coherence
  quince   : Quince
  cipher   : Cipher
  sieves   : Sieves
  relay    : Relay
  power    : Power
  thermal  : Thermal
  holdup   : Holdup
  fw       : Firmware
  sb       : Sideband
  dbg    : Debug
  nor      : Nor
  deriving DecidableEq, Repr

/-- Why the machine stops. No command of this machine stops it: every row of the table has an effect the spec gives, so
the type has no constructor, and no meaning can fault. -/
inductive Fault where
  deriving DecidableEq, Repr

/-- Why a command has no meaning. -/
inductive Refusal where
  /-- Raised by `exec`'s arm of a row that has no meaning yet; safe: the machine stops. -/
  | notModelled (mnemonic : String)
  deriving DecidableEq, Repr

/-- A link before any supply: down, with nothing tried. -/
def Link.off : Link :=
  { up := false, degraded := false, lanes := 0, upSince := 0, ups := 0, downAt := none, attempt := none, failed := 0,
    movedTo := none, waiting := false, pauses := [], holdoff := [] }

/-- An empty cage. -/
def Cage.empty : Cage :=
  { present := false, accepted := false, refuse := 0, lowPower := true, since := 0, cmis := none }

/-- The commons as shipped: every die set, no reservation (R323). -/
def Owner.commons : Owner :=
  { sessions512 := 0, cells128 := 0, pipes := 0, dieSets := 0, shaper := none, held := BitVec.allOnes 32, moving := 0,
    gc := 0, lastOp := 0, throttle := [] }

/-- A fence that holds nothing. -/
def Owner.none : Owner := { Owner.commons with held := 0 }

/-- An unset watermark (R150). -/
def Watermark.clear : Watermark := { level := false, up := false, down := false, sentAt := none, merged := 0 }

/-- An empty directory log (R259). -/
def LogOwner.empty : LogOwner := { nextLsn := 0, buffer := [], medium := [], lastAt := 0 }

/-- The image the module is shipped with, in slot 0 (R439); its version is not stated (log entry 4). -/
def FwSlot.factory : FwSlot :=
  { st := 4, version := 0, floor := 0, settings := 0, media := 1, full := true, parts := [], sound := true, images := [], writes := 0 }

/-- The other slot at shipment (log entry 4). -/
def FwSlot.blank : FwSlot := { FwSlot.factory with st := 0, media := 0, full := false, sound := false }

/-- A flush that never ran. -/
def Flush.none : Flush := { trigger := 0, phase := 0, since := 0, energyCj := 0, dirtyMiB := 0 }

/-- The module as manufactured, with no supply connected: Dormant in name (R43), nothing stored, nothing started. -/
def State.reset : State :=
  { pending := [], clock := 0, rnd := 0
    supply :=
      { auxInRange := false, auxSince := 0, watched := false, pwrEn := false, armed := false, p12vOk := false, seated := true,
        mainOn := false, refclk := true, straps := ⟨15, false, true⟩, conditions := [], lastCauses := 0, alarms := 0,
        keptAlarms := [], erasedLocked := false }
    modes :=
      { mode := .dormant, freezeCauses := 0, frozenFrom := none, recorded := none, sanitising := false,
        resetConfig := false, sanitisePct := 0, fillStart := 0, startStep := 0, startFault := false,
        startCause := 0, faultIsland := 0x1FF, starts := 0, startFaults := 0, lastFillMs := 0, restartAt := none,
        restartFault := none, flush := none, markFound := none, markTrigger := Flush.none, timeBase := 0 }
    spares :=
      { roles := [],
        unused := [26, 27, 36, 41, 58, 63] ++ [128, 129, 130, 131, 136, 145, 146, 179, 180],
        retired := [], lostRoles := [], trunkSpares := [], trunkShort := [], dieMap := [], deadDies := [],
        rebuilding := [], reserveUsed := [], remap := [], rowsUsed := [], sparedRows := [], standbyLost := false,
        ceCounts := [], ceRows := [], traps := [], trapped := [] }
    counts :=
      { overruns := 0, discards := 0, unanswered := 0, sramUe := 0, dramUe := 0, dramCorrected := 0,
        sramCorrected := 0, quinceReloads := 0, codeTraps := 0, dmaHalts := 0, busErrors := 0, islandsRetired := 0,
        islandsFailed := 0, digestMis := 0, repairs := 0, lastUeIsland := 0x1FF, authFails := 0, suspends := 0,
        slotWaits := 0, relayFaults := 0, lateNotices := 0, journalled := 0, divergent := 0, resyncLost := 0,
        partnerBytes := 0, nandBytes := 0, retryCw := 0, softCw := 0, rebuiltCw := 0, mediaErrors := 0,
        programFails := 0, eraseFails := 0, blocksRetired := 0, patrolMoves := 0, diesRetired := 0 }
    ports :=
      { links := List.replicate 8 Link.off, cageA := Cage.empty, cageB := Cage.empty, eventsA := 0, eventsB := 0,
        locked := 0, failing := 0, formatA := 1, formatB := 1, activeA := 0, activeB := 0, neighbours := [] }
    net :=
      { sessions := [], closed := [], ctxs := [], nextId := 1, kept := [], held := [], sent := [], locks := [] }
    vars := []
    marks := List.replicate 6 Watermark.clear
    logs := { events := [], nextEv := 0, journal := [], nextJn := 0 }
    owners := Owner.commons :: List.replicate 8 Owner.none
    store :=
      { keyspaces := [], stamps := [], entries := [], recs := [], groups := [], extents := 1,
        fineNext := 1, wear := [], gens := [], eraseSets := [], stale := [], heat := [], cache := [], holds := [], logA := LogOwner.empty,
        logB := LogOwner.empty, mapLog := 0, dirty := [], images := [], patrolAt := 0, patrolMoved := 0,
        cycleHours := 0 }
    coh :=
      { lines := [], dram := [], filter := [], txs := [], flying := [], snooped := [], answers := [], evicts := [],
        repairs := [] }
    quince := { rows := [], updates := [], heat := [] }
    cipher :=
      { pages := [], kek := none,
        pipes := (List.range 8).map (fun n => { n := n, owner := 0, running := none, suspended := [] }),
        queue := [] }
    sieves := { list := [], gens := [], tokens := 16777216000, at' := 0 }
    relay := { slots := [], pairs := [], initiators := [], map := none, stored := [] }
    power :=
      { st := 0, lastFg := 0, preparing := false, exiting := none, refreshed := 0, stSince := 0,
        residency := [0, 0, 0, 0], p3Exits := 0 }
    thermal :=
      { readings := List.replicate 10 0, stage := 0, nandNow := 0, minutes := 0, histogram := List.replicate 16 0,
        maxima := List.replicate 10 (0, 0) }
    holdup :=
      { charged := false, spareInUse := false, failed := 0, lastPassed := true, tested := false, testing := none,
        lastTestAt := 0, health := List.replicate 8 100, energyCj := 2400, flushCj := 0, flush10us := 0, runs := 0,
        interrupted := false }
    fw :=
      { slot0 := FwSlot.factory, slot1 := FwSlot.blank, active := 0, confirmed := 0, floor := 0, staging := none,
        stagedAt := 0, programming := none, act := 0, byRestart := false, complexB := false, standbyOld := false,
        copying := false, freeze := none, reload := [], reloaded := 0, reloadTotal := 0, lastReload := 0, mediaFmt := 1, selftestS := 60,
        awaitSince := none, selftested := false, doneAt := 0, bootNew := false, fallback := 0, abandoned := none, restarting := false,
        lastReason := 0, activations := 0, fallbacks := 0 }
    sb :=
      { alertStatus := 0, alertMask := 0x07FF, mbOffset := 0, mbLen := 0, request := [], mb := .empty, reason := 0,
        whileBusy := false, pecError := false, reply := [], readOff := 0, delivered := false, lastRead := [],
        arAnswered := false, kekRefused := false, failed := [] }
    dbg := { tx := [], txBusy := 0, dropped := false, trace := [], lost := 0, area := [], lastSync := [] }
    nor := { seqA := 0, blockA := none, seqB := 0, blockB := none, older := none } }

end Sys2Proof.Machine
end

