-- ==== Sys2Proof/Machine/Operands.lean ====
section
/-! DEFINITION. Operand forms: numbers in byte strings, the GKP header (R121), the relay prefix (R375) and the
configuration variables (R14) with their ranges. -/

namespace Sys2Proof.Machine

/-- The number a byte string holds, most significant byte first (R12). -/
def natOfBytes (b : Bytes) : Nat := b.foldl (fun a x => a * 256 + x.toNat) 0

/-- The low `8 n` bits of `v` as `n` bytes, most significant first (R12). -/
def bytesOfNat : Nat → Nat → Bytes
  | 0, _ => []
  | n + 1, v => BitVec.ofNat 8 (v / 256 ^ n) :: bytesOfNat n v

/-- Bits `hi` down to `lo` of a number. -/
def bits (v hi lo : Nat) : Nat := v / 2 ^ lo % 2 ^ (hi + 1 - lo)

/-- Bit `i` of a number, as a Bool. -/
def bit (v i : Nat) : Bool := v / 2 ^ i % 2 == 1

/-- A Bool as a one-bit number. -/
def b1 (b : Bool) : Nat := if b then 1 else 0

/-- A signed number in `w` bits, two's complement. -/
def signed (w : Nat) (i : Int) : Nat := (BitVec.ofInt w i).toNat

/-- Fields given as (width, value), most significant first, as one number. -/
def packNat (fs : List (Nat × Nat)) : Nat := fs.foldl (fun a f => a * 2 ^ f.1 + f.2 % 2 ^ f.1) 0

/-- Fields given as (width, value), most significant first, as bytes; the widths sum to a multiple of 8. -/
def pack (fs : List (Nat × Nat)) : Bytes := bytesOfNat ((fs.map (·.1)).sum / 8) (packNat fs)

/-- `v` limited to `w` bits by saturation. -/
def sat (w v : Nat) : Nat := min v (2 ^ w - 1)

/-- The header of R121. -/
structure Header where
  version  : Nat
  kind     : Nat
  opcode   : Nat
  flags    : Nat
  session  : Nat
  tag      : Nat
  index    : Nat
  sequence : BitVec 32
  keyspace : Nat
  keyLen   : Nat
  valLen   : Nat
  paramA   : BitVec 64
  paramB   : BitVec 64
  credit   : BitVec 16
  crc      : Nat
  deriving DecidableEq, Repr, Inhabited

/-- Reads the 40 header bytes (R121). PKT_INDEX[10] is bit 211. -/
def parseHeader (b : Bytes) : Header :=
  let n := natOfBytes (b.take 40)
  { version := bits n 319 316, kind := bits n 315 312, opcode := bits n 311 304, flags := bits n 303 288
    session := bits n 287 271, tag := bits n 270 266, index := bits n 211 211 * 1024 + bits n 265 256
    sequence := BitVec.ofNat 32 (bits n 255 224), keyspace := bits n 223 212
    keyLen := bits n 207 192, valLen := bits n 191 160, paramA := BitVec.ofNat 64 (bits n 159 96)
    paramB := BitVec.ofNat 64 (bits n 95 32), credit := BitVec.ofNat 16 (bits n 31 16), crc := bits n 15 0 }

/-- LAST_PACKET of a command (R124). -/
def Header.last (h : Header) : Bool := bit h.flags 14

/-- The opcodes of R16. -/
def opcodes : List Nat :=
  [0x01, 0x02, 0x03, 0x04, 0x05, 0x06, 0x07, 0x08, 0x09, 0x0A, 0x0B, 0x0C, 0x0D, 0x0E, 0x10, 0x11, 0x12,
   0x20, 0x21, 0x22, 0x23, 0x24, 0x28, 0x29, 0x2A, 0x30, 0x31, 0x32, 0x38, 0x39, 0x3A, 0x3C, 0x3D,
   0x40, 0x41, 0x42, 0x43, 0x48, 0x49]

/-- Opcodes whose VALUE_LENGTH is a requested size and not a count of body bytes (R156, R190). -/
def requestsSize (op : Nat) : Bool := op == 0x01 || op == 0x0E || op == 0x08 || op == 0x3A

/-- Bytes of a command's body: the key, and the value bytes where VALUE_LENGTH counts them (R125, R156). -/
def bodyLength (op keyLen valLen : Nat) : Nat := keyLen + (if requestsSize op then 0 else valLen)

/-- The data commands that mutate (R48, R199). -/
def isDataWrite (op : Nat) : Bool := op == 0x02 || op == 0x03 || op == 0x04 || op == 0x05 || op == 0x06 || op == 0x07

/-- GET, HEAD and VERSIONS_NEXT. -/
def isKeyRead (op : Nat) : Bool := op == 0x01 || op == 0x0D || op == 0x0E

/-- SIEVE_OPEN, SIEVE_NEXT, SIEVE_CLOSE. -/
def isSieve (op : Nat) : Bool := op == 0x09 || op == 0x0A || op == 0x0B

/-- Commands that pass through the session queue (R214): the data commands but ABORT, and the sieve commands. -/
def isQueued (op : Nat) : Bool := isDataWrite op || isKeyRead op || op == 0x08 || isSieve op

/-- Re-executable commands (R139); `clear` is CLEAR_LATE_FAULT. -/
def isReexecutable (op : Nat) (clear : Bool) : Bool :=
  isKeyRead op || op == 0x08 || op == 0x0A || op == 0x12 || (op == 0x22 && !clear) || op == 0x38 || op == 0x39
    || op == 0x3A || op == 0x3C

/-- Commands that count as mutating for R46: every command that changes stored state of keyspaces. -/
def isMutating (op : Nat) : Bool := isDataWrite op || op == 0x20 || op == 0x21

/-- The serial difference S − T of two sequence numbers, signed (R138). -/
def seqDiff (s t : BitVec 32) : Int := (s - t).toInt

/-- The full credit limit that a CREDIT field stands for: the value with those low 16 bits that lies nearest the next sequence
number (R134). -/
def fullLimit (next : BitVec 32) (credit : BitVec 16) : BitVec 32 := next + (credit - next.setWidth 16).signExtend 32

/-- The GKP payload of one packet on a link of that MTU (R107). -/
def packetPayload (mtu : Nat) (v6 : Bool) : Nat := min 8960 (mtu - (if v6 then 88 else 68))

/-- A configuration variable: the first ID and the number of IDs it covers, its range, its default, its width in bits
and the modes in which it is writable (R14, R70). -/
structure VarDesc where
  id    : Nat
  count : Nat
  lo    : Nat
  hi    : Nat
  zero  : Bool            -- 0 is allowed beside lo–hi
  dflt  : Nat
  width : Nat
  modes : List Mode
  deriving DecidableEq, Repr, Inhabited

/-- Writable in Dormant, Serving, Shadowing and Frozen. -/
def usualModes : List Mode := [.dormant, .serving, .shadowing, .frozen]

/-- Writable in Sanitising also. -/
def wideModes : List Mode := [.dormant, .serving, .shadowing, .frozen, .sanitising]

/-- A variable of up to 64 bits with one ID, writable in the usual modes. -/
def usualVar (id lo hi dflt : Nat) : VarDesc := ⟨id, 1, lo, hi, false, dflt, 64, usualModes⟩

/-- A variable with one ID per link. -/
def linkVar (id lo hi dflt width : Nat) : VarDesc := ⟨id, 8, lo, hi, false, dflt, width, usualModes⟩

/-- The variables of R120 (Ethernet ports). -/
def portVars : List VarDesc :=
  [usualVar 0x0101 0 3 1, usualVar 0x0102 0 3 1, usualVar 0x0103 0 1 1, usualVar 0x0104 0 1 1, usualVar 0x0105 0 1 1,
   usualVar 0x0106 10 1000 50, usualVar 0x0107 0 2 0, usualVar 0x0108 0 2 0, usualVar 0x0109 0 0xFF 0xFF,
   ⟨0x010A, 1, 10, 1000, true, 100, 64, usualModes⟩, usualVar 0x010B 0 7 0, usualVar 0x010C 0 63 0,
   ⟨0x010D, 1, 1024, 65535, false, 29417, 64, [.dormant]⟩,
   linkVar 0x0110 0 4094 0 64, linkVar 0x0118 1280 9216 9216 64, linkVar 0x0120 0 (2 ^ 32 - 1) 0 64,
   linkVar 0x0128 8 30 24 64, linkVar 0x0130 0 (2 ^ 128 - 1) 0 128, linkVar 0x0138 16 127 64 64,
   ⟨0x0140, 1, 0, 0xFFFF, false, 0, 64, wideModes⟩, ⟨0x0141, 1, 0, 0xFFFF, false, 0, 64, wideModes⟩,
   usualVar 0x0142 0 (2 ^ 32 - 1) 0, usualVar 0x0143 0 (2 ^ 32 - 1) 0,
   ⟨0x0144, 1, 0, 2 ^ 128 - 1, false, 0, 128, usualModes⟩, ⟨0x0145, 1, 0, 2 ^ 128 - 1, false, 0, 128, usualModes⟩]

/-- The variables of R152, R227 (transport, ordering). -/
def transportVars : List VarDesc :=
  [usualVar 0x0201 1 32 16, usualVar 0x0202 0 100 20, usualVar 0x0203 10 86400 900, usualVar 0x0204 1 3600 10,
   ⟨0x0205, 1, 0, 0x3FFFF, false, 0, 64, wideModes⟩,
   usualVar 0x0301 50 99 90, usualVar 0x0302 40 98 80, usualVar 0x0303 100 10000 1000, usualVar 0x0304 1 60000 100,
   usualVar 0x0305 1 1000 10, usualVar 0x0306 100 100000 10000]

/-- The variables of R265, R289, R322 (directory, Sieve, media). -/
def storeVars : List VarDesc :=
  [usualVar 0x0401 2 255 8, usualVar 0x0402 1 1000 10, usualVar 0x0403 0 56 48, usualVar 0x0404 10 1000 50,
   usualVar 0x0405 4 1024 64, usualVar 0x0406 0 2 1, usualVar 0x0407 5 1000 50, usualVar 0x0408 64 1024 512,
   usualVar 0x0501 1 100000 10000, usualVar 0x0502 1 100000 100000, usualVar 0x0503 4 1024 256,
   usualVar 0x0504 1 10000 100, usualVar 0x0505 1 86400 300,
   usualVar 0x0601 5 30 8, usualVar 0x0602 2 20 3, usualVar 0x0603 1 10 1, usualVar 0x0604 1 10 1,
   usualVar 0x0605 10 60000 500, usualVar 0x0606 1 3 1, usualVar 0x0607 10 80 50, usualVar 0x0608 81 98 90,
   usualVar 0x0609 2 1000 16, usualVar 0x060A 1 3600 60, usualVar 0x060B 4 64 16, usualVar 0x060C 1 7 7,
   usualVar 0x060D 16 400 120, usualVar 0x060E 50 1000 300]

/-- The variables of R342, R370, R397, R414, R432, R453, R471, R68. -/
def otherVars : List VarDesc :=
  [usualVar 0x0701 4097 30720 8194, usualVar 0x0702 50 99 90, usualVar 0x0703 40 98 80,
   usualVar 0x0801 16777216 4294967295 2147483648, usualVar 0x0802 1 100000 2000, usualVar 0x0803 4 64 4,
   usualVar 0x0901 10 60000 100, usualVar 0x0902 10 60000 1000, usualVar 0x0903 1 100000 5000,
   usualVar 0x0904 256 8192 4096, usualVar 0x0905 1 32 32,
   usualVar 0x0A01 8 1024 64, usualVar 0x0A02 1 1440 60, usualVar 0x0A03 1 16 2, usualVar 0x0A04 0 0x1F 0,
   usualVar 0x0B01 0 3 3, usualVar 0x0B02 10 65535 1000, usualVar 0x0B03 1 65535 200, usualVar 0x0B04 1 65535 30,
   usualVar 0x0B05 7 90 30, ⟨0x0B06, 1, 0, 1, false, 0, 64, [.serving, .shadowing, .frozen]⟩, usualVar 0x0B07 2 15 5,
   usualVar 0x0C01 0 1 1, usualVar 0x0C02 10 300 60, usualVar 0x0C03 0 20 5, usualVar 0x0C04 10 3600 600,
   ⟨0x0D01, 1, 0, 0x07FF, false, 0x07FF, 64, wideModes⟩, ⟨0x0D02, 1, 0, 1, false, 0, 64, wideModes⟩,
   ⟨0x0D03, 1, 0, 0x3FF, false, 3, 64, wideModes⟩,
   usualVar 0x0E01 0 1 1, usualVar 0x0E02 1 50 10, usualVar 0x0E03 1 50 25, usualVar 0x0E04 0 1 0,
   ⟨0x0E08, 1, 0, 1, false, 0, 64, [.dormant]⟩]

/-- Every configuration variable. -/
def varTable : List VarDesc := portVars ++ transportVars ++ storeVars ++ otherVars

/-- The descriptor of an ID; none for an ID that no chapter defines (R15). -/
def varDesc (id : Nat) : Option VarDesc := varTable.find? (fun d => d.id ≤ id && id < d.id + d.count)

/-- Is the value within the variable's range (R69)? -/
def VarDesc.admits (d : VarDesc) (v : Nat) : Bool := (d.lo ≤ v && v ≤ d.hi) || (d.zero && v == 0)

/-- The value of a variable among the values that differ from their defaults. -/
def varIn (vs : List (Nat × Nat)) (id : Nat) : Nat :=
  match vs.find? (·.1 == id) with
  | some p => p.2
  | none => match varDesc id with
    | some d => d.dflt
    | none => 0

/-- The values after a write: a value equal to the default is not listed. -/
def setVarIn (vs : List (Nat × Nat)) (id v : Nat) : List (Nat × Nat) :=
  let rest := vs.filter (fun p => p.1 != id)
  if some v == (varDesc id).map (·.dflt) then rest else (id, v) :: rest

/-- The value of a configuration variable now. -/
def State.var (s : State) (id : Nat) : Nat := varIn s.vars id

/-- The conditions between variables (R227, R322, R342, R419). -/
def varConditions (vs : List (Nat × Nat)) : Bool :=
  varIn vs 0x0302 < varIn vs 0x0301 && varIn vs 0x0305 ≤ varIn vs 0x0306
  && varIn vs 0x0603 < varIn vs 0x0602 && varIn vs 0x0602 + varIn vs 0x0604 ≤ varIn vs 0x0601
  && varIn vs 0x0607 < varIn vs 0x0608 && varIn vs 0x0703 < varIn vs 0x0702
  && varIn vs 0x0B02 < 1000 * varIn vs 0x0B03 && varIn vs 0x0B03 < 1000 * varIn vs 0x0B04

/-- Status variables (R192): not settings. -/
def isStatusVar (id : Nat) : Bool := id == 0x0205 || id == 0x0140 || id == 0x0141 || id == 0x0B06

end Sys2Proof.Machine
end

