-- ==== Sys2Proof/Machine/Crypto.lean ====
section
/-! DEFINITION. Checks and ciphers the spec names by their standards: CRC-16 (R122), CRC-64 (R399), AES (FIPS 197), CMAC
(SP 800-38B, R228), GCM (SP 800-38D, R346) and AES key wrap (RFC 3394, R352). The standards' definitions are PRESUMED,
log entry 11. -/

namespace Sys2Proof.Machine

/-- One byte through the CRC of R122. -/
def crc16Byte (c : BitVec 16) (b : Byte) : BitVec 16 :=
  (List.range 8).foldl (fun a _ => if a.msb then (a <<< 1) ^^^ 0x1021 else a <<< 1) (c ^^^ (b.setWidth 16 <<< 8))

/-- HEADER_CRC over a byte string (R122): polynomial 0x1021, initial value 0xFFFF. -/
def crc16 (b : Bytes) : BitVec 16 := b.foldl crc16Byte 0xFFFF

/-- One byte through the CRC of R399. -/
def crc64Byte (c : BitVec 64) (b : Byte) : BitVec 64 :=
  (List.range 8).foldl (fun a _ => if a.msb then (a <<< 1) ^^^ 0x42F0E1EBA9EA3693 else a <<< 1)
    (c ^^^ (b.setWidth 64 <<< 56))

/-- CRC-64 over a byte string (R399): ECMA-182 polynomial, initial value 0. -/
def crc64 (b : Bytes) : BitVec 64 := b.foldl crc64Byte 0

/-- Multiplication by x in GF(2^8) (FIPS 197). -/
def xtime (b : Byte) : Byte := if b.msb then (b <<< 1) ^^^ 0x1B else b <<< 1

/-- The product in GF(2^8), over the low `n` bits of `b`. -/
def gmulN : Nat → Byte → Byte → Byte
  | 0, _, _ => 0
  | n + 1, a, b => (if b.getLsbD 0 then a else 0) ^^^ gmulN n (xtime a) (b >>> 1)

/-- The product in GF(2^8). -/
def gmul (a b : Byte) : Byte := gmulN 8 a b

/-- The inverse in GF(2^8), 0 for 0: the power 254. -/
def ginv (a : Byte) : Byte :=
  let a2 := gmul a a
  let a4 := gmul a2 a2
  let a8 := gmul a4 a4
  let a16 := gmul a8 a8
  let a32 := gmul a16 a16
  let a64 := gmul a32 a32
  let a128 := gmul a64 a64
  gmul a2 (gmul a4 (gmul a8 (gmul a16 (gmul a32 (gmul a64 a128)))))

/-- SubBytes of one byte. -/
def sbox (a : Byte) : Byte :=
  let i := ginv a
  i ^^^ i.rotateLeft 1 ^^^ i.rotateLeft 2 ^^^ i.rotateLeft 3 ^^^ i.rotateLeft 4 ^^^ 0x63

/-- InvSubBytes of one byte. -/
def invSbox (a : Byte) : Byte :=
  ginv (a.rotateLeft 1 ^^^ a.rotateLeft 3 ^^^ a.rotateLeft 6 ^^^ 0x05)

/-- XOR of byte strings of one length. -/
def xorBytes (a b : Bytes) : Bytes := List.zipWith (· ^^^ ·) a b

/-- Byte `i` of a string; 0 beyond it. -/
def byteAt (b : Bytes) (i : Nat) : Byte := b.getD i 0

/-- A string cut into words of four bytes. -/
def words4 : Nat → Bytes → List Bytes
  | 0, _ => []
  | n + 1, b => b.take 4 :: words4 n (b.drop 4)

/-- Key expansion: the words made so far, newest first, `i` being the number of the next one. -/
def expandStep (nk : Nat) : Nat → Nat → Byte → List Bytes → List Bytes
  | 0, _, _, ws => ws
  | n + 1, i, rc, ws =>
    let t := ws.headD []
    let old := ws.getD (nk - 1) []
    let u :=
      if i % nk == 0 then xorBytes ((t.drop 1 ++ t.take 1).map sbox) [rc, 0, 0, 0]
      else if nk == 8 && i % nk == 4 then t.map sbox else t
    expandStep nk n (i + 1) (if i % nk == 0 then xtime rc else rc) (xorBytes old u :: ws)

/-- The round keys of 16 bytes, in order; `nk` is 4 for AES-128 and 8 for AES-256. -/
def roundKeys (nk : Nat) (key : Bytes) : List Bytes :=
  let n := 4 * (nk + 7)
  let ws := (expandStep nk (n - nk) nk 1 (words4 nk key).reverse).reverse
  (List.range (nk + 7)).map (fun r => ((ws.drop (4 * r)).take 4).flatten)

/-- ShiftRows on a state of 16 bytes, column by column; `k` is 1, or 3 for its inverse. -/
def shiftRows (k : Nat) (b : Bytes) : Bytes :=
  (List.range 16).map (fun i => byteAt b ((i + 4 * k * (i % 4)) % 16))

/-- MixColumns with the row (c0, c1, c2, c3). -/
def mixColumns (c0 c1 c2 c3 : Byte) (b : Bytes) : Bytes :=
  (List.range 16).map (fun i =>
    let col := 4 * (i / 4)
    let r := i % 4
    gmul c0 (byteAt b (col + r)) ^^^ gmul c1 (byteAt b (col + (r + 1) % 4))
      ^^^ gmul c2 (byteAt b (col + (r + 2) % 4)) ^^^ gmul c3 (byteAt b (col + (r + 3) % 4)))

/-- The rounds of the cipher after the first AddRoundKey. -/
def encryptRounds : List Bytes → Bytes → Bytes
  | [], b => b
  | [k], b => xorBytes (shiftRows 1 (b.map sbox)) k
  | k :: ks, b => encryptRounds ks (xorBytes (mixColumns 2 3 1 1 (shiftRows 1 (b.map sbox))) k)

/-- AES encryption of one block; `nk` is 4 or 8. -/
def aesEncrypt (nk : Nat) (key blk : Bytes) : Bytes :=
  match roundKeys nk key with
  | [] => blk
  | k :: ks => encryptRounds ks (xorBytes blk k)

/-- The rounds of the inverse cipher after its first AddRoundKey, the keys last first. -/
def decryptRounds : List Bytes → Bytes → Bytes
  | [], b => b
  | [k], b => xorBytes ((shiftRows 3 b).map invSbox) k
  | k :: ks, b => decryptRounds ks (mixColumns 0x0E 0x0B 0x0D 0x09 (xorBytes ((shiftRows 3 b).map invSbox) k))

/-- AES decryption of one block. -/
def aesDecrypt (nk : Nat) (key blk : Bytes) : Bytes :=
  match (roundKeys nk key).reverse with
  | [] => blk
  | k :: ks => decryptRounds ks (xorBytes blk k)

/-- Doubling in GF(2^128) for CMAC. -/
def cmacDouble (b : BitVec 128) : BitVec 128 := if b.msb then (b <<< 1) ^^^ 0x87 else b <<< 1

/-- CBC-MAC over whole blocks. -/
def cbcMac (key : Bytes) : Nat → Bytes → Bytes → Bytes
  | 0, _, x => x
  | n + 1, m, x => cbcMac key n (m.drop 16) (aesEncrypt 4 key (xorBytes x (m.take 16)))

/-- AES-128-CMAC (SP 800-38B). -/
def cmac (key msg : Bytes) : BitVec 128 :=
  let l := BitVec.ofNat 128 (natOfBytes (aesEncrypt 4 key (List.replicate 16 0)))
  let k1 := cmacDouble l
  let k2 := cmacDouble k1
  let n := max 1 (ceilDiv msg.length 16)
  let last := msg.drop (16 * (n - 1))
  let padded := if last.length == 16 then xorBytes last (bytesOfNat 16 k1.toNat)
    else xorBytes (last ++ [0x80] ++ List.replicate (15 - last.length) 0) (bytesOfNat 16 k2.toNat)
  BitVec.ofNat 128 (natOfBytes (cbcMac key n (msg.take (16 * (n - 1)) ++ padded) (List.replicate 16 0)))

/-- The fingerprint of a key (R228). -/
def fingerprint (keyspace : Nat) (seed : BitVec 128) (key : Bytes) : BitVec 128 :=
  cmac (bytesOfNat 16 seed.toNat) (bytesOfNat 2 (keyspace % 4096) ++ key)

/-- The product in GF(2^128) of GCM, over the high `n` bits of `x` from bit `n - 1`. -/
def ghashMul : Nat → BitVec 128 → BitVec 128 → BitVec 128 → BitVec 128
  | 0, _, _, z => z
  | n + 1, x, v, z =>
    ghashMul n x (if v.getLsbD 0 then (v >>> 1) ^^^ (0xE1 <<< 120) else v >>> 1) (if x.getLsbD n then z ^^^ v else z)

/-- GHASH over `n` blocks, the last one padded with zeros. -/
def ghash (h : BitVec 128) : Nat → Bytes → BitVec 128 → BitVec 128
  | 0, _, y => y
  | n + 1, b, y =>
    let blk := b.take 16
    let x := BitVec.ofNat 128 (natOfBytes (blk ++ List.replicate (16 - blk.length) 0))
    ghash h n (b.drop 16) (ghashMul 128 (y ^^^ x) h 0)

/-- Counter-mode keystream applied to `n` blocks, from counter `c`. -/
def gctr (key iv : Bytes) : Nat → Nat → Bytes → Bytes
  | 0, _, _ => []
  | n + 1, c, b =>
    List.zipWith (· ^^^ ·) (b.take 16) (aesEncrypt 8 key (iv ++ bytesOfNat 4 c)) ++ gctr key iv n (c + 1) (b.drop 16)

/-- AES-256-GCM encryption or decryption of the bytes (the keystream is the same). -/
def gcmCrypt (key iv b : Bytes) : Bytes := gctr key iv (ceilDiv b.length 16) 2 b

/-- The GCM tag over the AAD and the ciphertext (R346). -/
def gcmTag (key iv aad c : Bytes) : BitVec 128 :=
  let h := BitVec.ofNat 128 (natOfBytes (aesEncrypt 8 key (List.replicate 16 0)))
  let y := ghash h (ceilDiv aad.length 16) aad 0
  let y := ghash h (ceilDiv c.length 16) c y
  let y := ghash h 1 (bytesOfNat 8 (8 * aad.length) ++ bytesOfNat 8 (8 * c.length)) y
  y ^^^ BitVec.ofNat 128 (natOfBytes (aesEncrypt 8 key (iv ++ bytesOfNat 4 1)))

/-- The IV of a record (R346). -/
def recordIv (salt : BitVec 32) (gen use : Nat) : Bytes :=
  bytesOfNat 4 salt.toNat ++ bytesOfNat 4 gen ++ bytesOfNat 4 use

/-- One step of the inverse of RFC 3394's wrapping, step number `t`, over four 8-byte registers. -/
def unwrapStep (kek : Bytes) (t : Nat) (a : Bytes) (rs : List Bytes) : Bytes × List Bytes :=
  let i := (t + 3) % 4
  let blk := aesDecrypt 8 kek (xorBytes a (bytesOfNat 8 t) ++ rs.getD i [])
  (blk.take 8, rs.set i (blk.drop 8))

/-- The unwrapping steps `t` down to 1. -/
def unwrapSteps (kek : Bytes) : Nat → Bytes → List Bytes → Bytes × List Bytes
  | 0, a, rs => (a, rs)
  | t + 1, a, rs =>
    let r := unwrapStep kek (t + 1) a rs
    unwrapSteps kek t r.1 r.2

/-- Unwraps a 40-byte wrapped AES-256 key (R352); none where the integrity check fails. -/
def keyUnwrap (kek : BitVec 256) (b : Bytes) : Option (BitVec 256) :=
  let r := unwrapSteps (bytesOfNat 32 kek.toNat) 24 (b.take 8)
    ((List.range 4).map (fun i => (b.drop (8 + 8 * i)).take 8))
  if b.length == 40 && r.1 == List.replicate 8 0xA6 then some (BitVec.ofNat 256 (natOfBytes r.2.flatten)) else none

/-- KEY_CHECK of a key (R349): the first 8 bytes of the encryption of the all-zero block. -/
def keyIdentity (key : BitVec 256) : BitVec 64 :=
  BitVec.ofNat 64 (natOfBytes ((aesEncrypt 8 (bytesOfNat 32 key.toNat) (List.replicate 16 0)).take 8))

/-! ### SHA-384 (FIPS 180-4, named by R434) -/

/-- The first 80 primes. -/
def primes80 : List Nat :=
  [2, 3, 5, 7, 11, 13, 17, 19, 23, 29, 31, 37, 41, 43, 47, 53, 59, 61, 67, 71, 73, 79, 83, 89, 97, 101, 103, 107, 109, 113, 127, 131, 137, 139, 149,
   151, 157, 163, 167, 173, 179, 181, 191, 193, 197, 199, 211, 223, 227, 229, 233, 239, 241, 251, 257, 263, 269, 271, 277, 281, 283, 293, 307, 311,
   313, 317, 331, 337, 347, 349, 353, 359, 367, 373, 379, 383, 389, 397, 401, 409]

/-- The largest `r` of at most `b + 1` bits, bits above `b` given in `r`, whose power `k` is at most `n`. -/
def rootBits (k n : Nat) : Nat → Nat → Nat
  | 0, r => r
  | b + 1, r => rootBits k n b (if (r + 2 ^ b) ^ k ≤ n then r + 2 ^ b else r)

/-- The first 64 bits of the fraction of the `k`-th root of `p`. -/
def rootFraction (k p : Nat) : BitVec 64 := BitVec.ofNat 64 (rootBits k (p * 2 ^ (64 * k)) 72 0)

/-- The constants of the rounds: cube roots of the first 80 primes. -/
def shaK : List (BitVec 64) := primes80.map (rootFraction 3)

/-- The initial hash value of SHA-384: square roots of the 9th to 16th primes. -/
def shaInit : List (BitVec 64) := ((primes80.drop 8).take 8).map (rootFraction 2)

/-- The message schedule of a block, oldest word first. -/
def shaSchedule : Nat → List (BitVec 64) → List (BitVec 64)
  | 0, w => w
  | n + 1, w =>
    let at' (i : Nat) : BitVec 64 := w.getD (w.length - i) 0
    let s0 (x : BitVec 64) : BitVec 64 := x.rotateRight 1 ^^^ x.rotateRight 8 ^^^ (x >>> 7)
    let s1 (x : BitVec 64) : BitVec 64 := x.rotateRight 19 ^^^ x.rotateRight 61 ^^^ (x >>> 6)
    shaSchedule n (w ++ [s1 (at' 2) + at' 7 + s0 (at' 15) + at' 16])

/-- One round on the eight working variables. -/
def shaRound (v : List (BitVec 64)) (kw : BitVec 64) : List (BitVec 64) :=
  let g (i : Nat) : BitVec 64 := v.getD i 0
  let big0 := (g 0).rotateRight 28 ^^^ (g 0).rotateRight 34 ^^^ (g 0).rotateRight 39
  let big1 := (g 4).rotateRight 14 ^^^ (g 4).rotateRight 18 ^^^ (g 4).rotateRight 41
  let ch := (g 4 &&& g 5) ^^^ (~~~(g 4) &&& g 6)
  let maj := (g 0 &&& g 1) ^^^ (g 0 &&& g 2) ^^^ (g 1 &&& g 2)
  let t1 := g 7 + big1 + ch + kw
  [t1 + (big0 + maj), g 0, g 1, g 2, g 3 + t1, g 4, g 5, g 6]

/-- The compression of one 128-byte block. -/
def shaBlock (h : List (BitVec 64)) (b : Bytes) : List (BitVec 64) :=
  let w := (List.range 16).map (fun i => BitVec.ofNat 64 (natOfBytes ((b.drop (8 * i)).take 8)))
  let kw := List.zipWith (· + ·) shaK (shaSchedule 64 w)
  List.zipWith (· + ·) h (kw.foldl shaRound h)

/-- The hash of `n` blocks. -/
def shaBlocks : Nat → List (BitVec 64) → Bytes → List (BitVec 64)
  | 0, h, _ => h
  | n + 1, h, b => shaBlocks n (shaBlock h (b.take 128)) (b.drop 128)

/-- SHA-384 of a byte string, as a number of 384 bits. -/
def sha384 (b : Bytes) : Nat :=
  let pad := (128 - (b.length + 17) % 128) % 128
  let m := b ++ [0x80] ++ List.replicate pad 0 ++ bytesOfNat 16 (8 * b.length)
  ((shaBlocks (m.length / 128) shaInit m).take 6).foldl (fun a x => a * 2 ^ 64 + x.toNat) 0

/-! ### ECDSA over P-384 (FIPS 186-5, named by R435) -/

/-- The prime of P-384. -/
def p384 : Nat := 2 ^ 384 - 2 ^ 128 - 2 ^ 96 + 2 ^ 32 - 1

/-- The order of its base point. -/
def n384 : Nat := 0xffffffffffffffffffffffffffffffffffffffffffffffffc7634d81f4372ddf581a0db248b0a77aecec196accc52973

/-- Its base point. -/
def g384 : Nat × Nat :=
  (0xaa87ca22be8b05378eb1c71ef320ad746e1d3b628ba79b9859f741e082542a385502f25dbf55296c3a545e3872760ab7,
   0x3617de4a96262c6f5d9e98bf9292dc29f8f41dbd289a147ce9da3113b5f0b8c00a60b1ce1d7e819d7a431d7c90ea0e5f)

/-- `a` to the power `e`, of `n` bits, modulo `m`. -/
def powMod (m : Nat) : Nat → Nat → Nat → Nat
  | 0, _, _ => 1
  | n + 1, a, e => (if e % 2 == 1 then a else 1) * powMod m n (a * a % m) (e / 2) % m

/-- The inverse modulo a prime of 384 bits. -/
def invMod (m a : Nat) : Nat := powMod m 384 (a % m) (m - 2)

/-- The sum of two points; none is the point at infinity. -/
def pointAdd : Option (Nat × Nat) → Option (Nat × Nat) → Option (Nat × Nat)
  | none, q => q
  | p, none => p
  | some (x1, y1), some (x2, y2) =>
    if x1 == x2 && (y1 + y2) % p384 == 0 then none
    else
      let l := if x1 == x2 then (3 * x1 * x1 + (p384 - 3)) * invMod p384 (2 * y1) % p384
        else (y2 + p384 - y1) * invMod p384 (x2 + p384 - x1) % p384
      let x3 := (l * l + (2 * p384 - x1 - x2)) % p384
      some (x3, (l * (x1 + p384 - x3) + (p384 - y1)) % p384)

/-- A point times a number of `n` bits. -/
def pointMul : Nat → Nat → Option (Nat × Nat) → Option (Nat × Nat)
  | 0, _, _ => none
  | n + 1, k, p => pointAdd (if k % 2 == 1 then p else none) (pointMul n (k / 2) (pointAdd p p))

/-- Does the signature (r, s) of a 384-bit digest verify under a public key? -/
def ecdsaValid (q : Nat × Nat) (digest r s : Nat) : Bool :=
  if r == 0 || n384 ≤ r || s == 0 || n384 ≤ s then false
  else
    let w := invMod n384 s
    match pointAdd (pointMul 384 (digest * w % n384) (some g384)) (pointMul 384 (r * w % n384) (some q)) with
    | some (x, _) => x % n384 == r
    | none => false

end Sys2Proof.Machine
end

