-- ==== Sys2Proof/Config.lean ====
section
/-! DEFINITION. What one module fixes at manufacture, and the free values: opaque constants without a body, so that
no proof can see a value of theirs. -/

namespace Sys2Proof.Config

/-- The three ordering codes of R1. -/
inductive OrderCode where
  | f2 | b8 | f2t
  deriving DecidableEq, Repr, Inhabited

/-- The module's ordering code (R1): fixed at manufacture. Log entry 4. -/
opaque orderCode : OrderCode


/-- Draws of the random number generator (R229 seeds, R350 salts): draw `n` of the life of the model. Log entry 5. -/
opaque random : Nat → Nat

/-- A choice the spec leaves to the module, numbered by the model's counter (R129 session numbers, R236 victims,
R250 ways, R291 addresses). Log entry 5. -/
opaque choice : Nat → Nat

/-- An estimate or a measured figure whose value the spec does not state (waits reported with NOT_READY, energies,
durations). Log entry 5. -/
opaque estimate : Nat → Nat

/-- Module serial number (R189). -/
opaque serial : Nat → Nat

/-- Base MAC address without its three low bits (R109). -/
opaque baseMacHigh : Nat → Nat

/-- The 256-bit package key (R438), fused and not given. -/
opaque packageKey : Nat → Nat

/-- The four public keys fused at manufacture (R435), by KEY_INDEX: the affine coordinates of a point of P-384. -/
opaque publicKey : Nat → Nat × Nat

/-- The image of a part in the factory firmware. -/
opaque factoryImage : Nat → Bytes

end Sys2Proof.Config
end

