-- ==== Sys2Proof/Machine/Flags.lean ====
section
/-! DEFINITION. Codes and flag words: modes, statuses, notice kinds, the mode table of R48, the watermark bits of R150,
the port event bits of R118 and the alert bits of R458. -/

namespace Sys2Proof.Machine

/-- The mode codes of R43. -/
def Mode.code : Mode → Nat
  | .dormant => 0
  | .filling => 1
  | .serving => 2
  | .shadowing => 3
  | .frozen => 4
  | .sanitising => 5

/-- The mode of a code; none for a code not listed in R43. -/
def modeOfCode : Nat → Option Mode
  | 0 => some .dormant
  | 1 => some .filling
  | 2 => some .serving
  | 3 => some .shadowing
  | 4 => some .frozen
  | 5 => some .sanitising
  | _ => none

/-- The status codes of R17. -/
def Status.code : Status → Nat
  | .done => 0x00
  | .doneReplayed => 0x01
  | .notFound => 0x02
  | .exists' => 0x03
  | .alreadyDone => 0x04
  | .aborted => 0x05
  | .more => 0x06
  | .notReady => 0x07
  | .badOpcode => 0x10
  | .badLength => 0x11
  | .badKeyspace => 0x12
  | .windowExceeded => 0x13
  | .staleSequence => 0x14
  | .redirect => 0x15
  | .keyspaceLocked => 0x16
  | .keyExhausted => 0x17
  | .authFail => 0x18
  | .digestMismatch => 0x19
  | .mediaError => 0x1A
  | .noSpace => 0x1B
  | .readOnly => 0x1C
  | .backoff => 0x1D
  | .wrongMode => 0x1E
  | .relayFault => 0x20
  | .deviceFault => 0x21
  | .incomplete => 0x22

/-- The notice kinds of R18. -/
def NoticeKind.code : NoticeKind → Nat
  | .lateFault => 1
  | .watermark => 2
  | .keyUsage => 3
  | .modeChange => 4
  | .secureDiscardDone => 5
  | .relayFault => 6
  | .spareBroughtIn => 7
  | .fwState => 8
  | .mapChanged => 9
  | .keysErased => 10

/-- Does the mode accept the opcode (R48)? none: accepted; otherwise the status that answers it. RELAYED commands pass
the Shadowing row of the data writes. CONFIG_SET is "subject to R70", which its own meaning applies. -/
def modeRefusal (m : Mode) (op : Nat) (relayed : Bool) : Option Status :=
  match m with
  | .dormant =>
    if op == 0x38 || op == 0x39 || op == 0x3C || op == 0x3D || op == 0x49 then none else some .wrongMode
  | .filling => if op == 0x38 || op == 0x39 then none else some .wrongMode
  | .serving => if op == 0x32 then some .wrongMode else none
  | .shadowing =>
    if isDataWrite op then (if relayed then none else some .readOnly)
    else if op == 0x20 || op == 0x21 then some .wrongMode else none
  | .frozen =>
    if isDataWrite op || op == 0x20 || op == 0x21 || op == 0x24 || op == 0x28 then some .readOnly
    else if op == 0x32 then some .wrongMode else none
  | .sanitising =>
    if op == 0x10 || op == 0x11 || op == 0x12 || op == 0x38 || op == 0x39 || op == 0x3A || op == 0x3C || op == 0x3D
    then none else some .wrongMode

/-- Data service modes: Serving, Shadowing, Frozen. -/
def Mode.service (m : Mode) : Bool := m == .serving || m == .shadowing || m == .frozen

/-- The WM_STATUS word of R150: watermark k (from 0) has its level in bit 3k, its crossed-up bit in 3k + 1 and its
crossed-down bit in 3k + 2. -/
def wmStatus (ms : List Watermark) : Nat :=
  ms.foldr (fun m a => b1 m.level + 2 * b1 m.up + 4 * b1 m.down + 8 * a) 0

/-- A write of 1 bits to WM_STATUS clears those sticky bits; level bits are not affected (R150). -/
def clearMarks : List Watermark → Nat → List Watermark
  | [], _ => []
  | m :: ms, w => { m with up := m.up && !bit w 1, down := m.down && !bit w 2 } :: clearMarks ms (w / 8)

/-- Alert causes of R458, by bit. -/
inductive Alert where
  | mbReady | modeChange | watermark | keysErased | spareBroughtIn | fwState | portEvent | segmentFault | startFault
  | thermal | relayBehind
  deriving DecidableEq, Repr, Inhabited

/-- The bit of an alert cause (R458). -/
def Alert.bit : Alert → Nat
  | .mbReady => 0
  | .modeChange => 1
  | .watermark => 2
  | .keysErased => 3
  | .spareBroughtIn => 4
  | .fwState => 5
  | .portEvent => 6
  | .segmentFault => 7
  | .startFault => 8
  | .thermal => 9
  | .relayBehind => 10

/-- SANITISE_PERCENT (R65, R188, R457): from acceptance to completion how far the erase has come is not stated for any instant, so a
free value from 0 to 100 (log entry 35). -/
def State.sanitisePercent (s : State) : Nat :=
  if s.modes.sanitising then Config.estimate s.clock % 101 else s.modes.sanitisePct

/-- Sets an alert bit in ALERT_STATUS (R458). -/
def State.alert (s : State) (a : Alert) : State :=
  { s with sb := { s.sb with alertStatus := s.sb.alertStatus ||| BitVec.ofNat 16 (2 ^ a.bit) } }

/-- ALERT_N is low while an unmasked alert is set (R458). -/
def State.alertLow (s : State) : Bool := s.sb.alertStatus &&& s.sb.alertMask != 0

/-- The port event bits of R118. -/
inductive PortEvent where
  | linkLost | laneDegraded | fecUncorrected | fcsError | runt | oversize | ingressDrop | vlanRefused | ipRefused
  | ipFragment | notGkp | addrConflict | pauseWatchdog | failoverOut | failoverBack | cmisFault
  deriving DecidableEq, Repr, Inhabited

/-- The bit of a port event (R118). -/
def PortEvent.bit : PortEvent → Nat
  | .linkLost => 0
  | .laneDegraded => 1
  | .fecUncorrected => 2
  | .fcsError => 3
  | .runt => 4
  | .oversize => 5
  | .ingressDrop => 6
  | .vlanRefused => 7
  | .ipRefused => 8
  | .ipFragment => 9
  | .notGkp => 10
  | .addrConflict => 11
  | .pauseWatchdog => 12
  | .failoverOut => 13
  | .failoverBack => 14
  | .cmisFault => 15

/-- Sets a port event bit (R118). PORT_EVENT of ALERT_STATUS is set when the bit was 0 (R458: "a port event bit set"). -/
def State.portEvent (s : State) (portB : Bool) (e : PortEvent) : State :=
  let w := BitVec.ofNat 16 (2 ^ e.bit)
  let old := if portB then s.ports.eventsB else s.ports.eventsA
  let p := if portB then { s.ports with eventsB := s.ports.eventsB ||| w }
           else { s.ports with eventsA := s.ports.eventsA ||| w }
  let s1 := { s with ports := p }
  if old &&& w == 0 then s1.alert .portEvent else s1

/-- Clears the port event bits written as 1 (R118). -/
def State.clearPortEvents (s : State) (portB : Bool) (w : BitVec 16) : State :=
  if portB then { s with ports := { s.ports with eventsB := s.ports.eventsB &&& ~~~w } }
  else { s with ports := { s.ports with eventsA := s.ports.eventsA &&& ~~~w } }

/-- Freeze-cause bits of R61. -/
inductive FreezeCause where
  | spareDie | spareBlock | spareDram | spareIsland | holdup | settingsFormat | operator
  deriving DecidableEq, Repr, Inhabited

/-- The bit of a freeze cause (R61). -/
def FreezeCause.bit : FreezeCause → Nat
  | .spareDie => 0
  | .spareBlock => 1
  | .spareDram => 2
  | .spareIsland => 3
  | .holdup => 4
  | .settingsFormat => 5
  | .operator => 6

/-- A freeze cause as a word. -/
def FreezeCause.word (f : FreezeCause) : BitVec 8 := BitVec.ofNat 8 (2 ^ f.bit)

/-- Is OPERATOR the only freeze cause, or is there none (R44)? -/
def onlyOperator (w : BitVec 8) : Bool := w &&& ~~~FreezeCause.operator.word == 0

/-- The order codes of R189. -/
def orderCodeNumber : Config.OrderCode → Nat
  | .f2 => 1
  | .b8 => 2
  | .f2t => 3

end Sys2Proof.Machine
end

