-- ==== Sys2Proof/Machine/QuinceRow.lean ====
section
/-! DEFINITION. The rows of the Quince index (R245–R253): what a row holds, resolution of a search, and the updates of a
key's ways. An update is queued at its bank (R249); what a row will hold once its queue has drained is `State.qRow`. -/

namespace Sys2Proof.Machine

/-- The bank of a fingerprint (R230). -/
def qBank (fp : BitVec 128) : Nat := bits fp.toNat 5 4

/-- The row of a fingerprint within its bank (R230). -/
def qRowOf (fp : BitVec 128) : Nat := bits fp.toNat 17 6

/-- The ways of a row once every queued update has been written. -/
def State.qRow (s : State) (bank row : Nat) : List Way :=
  match (s.quince.updates.filter (fun u => u.bank == bank && u.row == row)).getLast? with
  | some u => u.ways
  | none => match s.quince.rows.find? (fun r => r.bank == bank && r.row == row) with
    | some r => r.ways
    | none => []

/-- Queues an update of a row (R249). -/
def State.qUpdate (s : State) (bank row : Nat) (ways : List Way) : State :=
  { s with quince := { s.quince with updates := s.quince.updates ++ [{ bank := bank, row := row, ways := ways }] } }

/-- Has the queue of a bank room for an update (R249)? -/
def State.qRoom (s : State) (bank : Nat) : Bool := (s.quince.updates.filter (·.bank == bank)).length < 256

/-- The result of a search (R247). -/
structure QHit where
  win   : Way
  multi : Bool
  tie   : Bool
  deriving DecidableEq, Repr

/-- Resolves a row (R247): tentative ways are never returned; the highest priority wins, the lowest-numbered way on a tie. -/
def qResolve (ways : List Way) (fp : BitVec 128) : Option QHit :=
  let c := ways.filter (fun w => w.fp == fp && 8 ≤ w.priority)
  let p := (c.map (·.priority)).foldl max 0
  let top := c.filter (·.priority == p)
  let win := top.foldl (fun a w => match a with
    | none => some w
    | some v => if w.n < v.n then some w else some v) (none : Option Way)
  win.map (fun w => { win := w, multi := 1 < c.length, tie := 1 < top.length })

/-- Does the Quince hold the key (a committed way)? -/
def State.qHolds (s : State) (fp : BitVec 128) : Bool := (qResolve (s.qRow (qBank fp) (qRowOf fp)) fp).isSome

/-- A way number to write: the key's own where `own`, a free one, or the least recently matched way of priority 8 or 15
(R250 eviction); none where all are tentative or pinned. -/
def qPick (ways : List Way) : Option Nat :=
  match (List.range 64).find? (fun n => !ways.any (·.n == n)) with
  | some n => some n
  | none =>
    let ev := ways.filter (fun w => w.priority == 8 || w.priority == 15)
    (ev.foldl (fun a w => match a with
      | none => some w
      | some v => if w.matched < v.matched then some w else some v) (none : Option Way)).map (·.n)

/-- The tentative priority of an opcode (R246). -/
def tentativePriority (op : Nat) (relayed : Bool) : Nat :=
  if relayed then 3 else if op == 0x05 then 1 else if op == 0x02 || op == 0x03 then 0 else 2

/-- The grant of a write installs a tentative way where the Quince holds the key or the write has PIN (R250). It takes no way that
the key already has. -/
def State.qTentative (s : State) (fp : BitVec 128) (priority : Nat) (pin : Bool) : State :=
  let b := qBank fp
  let r := qRowOf fp
  let ways := s.qRow b r
  if !(pin || ways.any (fun w => w.fp == fp)) then s
  else match qPick (ways.map (fun w => if w.fp == fp then { w with priority := 12 } else w)) with
    | none => s
    | some n =>
      let w : Way := { n := n, fp := fp, loc := 0, len4k := 0, priority := priority, older := false, cached := false,
                       tomb := false, seg := false, parityOk := true, matched := s.clock }
      s.qUpdate b r (w :: ways.filter (·.n != n))

/-- A write that ends without passing its commit point: its tentative way is invalidated (R250). -/
def State.qWithdraw (s : State) (fp : BitVec 128) (priority : Nat) : State :=
  let b := qBank fp
  let r := qRowOf fp
  let ways := s.qRow b r
  match ways.find? (fun w => w.fp == fp && w.priority == priority) with
  | some v => s.qUpdate b r (ways.filter (·.n != v.n))
  | none => s

/-- The commit of a write updates the row once (R250): `final` has the way's new priority, location and flags; none for a
DISCARD. Every other committed way of the key goes. -/
def State.qCommit (s : State) (fp : BitVec 128) (tentative : Nat) (final : Option Way) : State :=
  let b := qBank fp
  let r := qRowOf fp
  let ways := s.qRow b r
  let tent := ways.find? (fun w => w.fp == fp && w.priority == tentative)
  let own := match tent with
    | some v => some v
    | none => ways.find? (fun w => w.fp == fp && 8 ≤ w.priority)
  match own with
  | none => s
  | some v =>
    let rest := ways.filter (fun w => w.n != v.n && !(w.fp == fp && 8 ≤ w.priority))
    match final with
    | some w => s.qUpdate b r ({ w with n := v.n } :: rest)
    | none => s.qUpdate b r rest

/-- Enters a key's committed way (admission on heat, recovery) in a free or evictable way (R250). -/
def State.qEnter (s : State) (w : Way) : State :=
  let b := qBank w.fp
  let r := qRowOf w.fp
  let ways := s.qRow b r
  match qPick ways with
  | none => s
  | some n => s.qUpdate b r ({ w with n := n } :: ways.filter (·.n != n))

end Sys2Proof.Machine
end

