-- ==== Sys2Proof/Machine/Ops.lean ====
section
/-! DEFINITION. The named operations every meaning uses: access to the parts of the state, free values, logs, frames that
leave, replies, notices, the replay window, the range-lock table and the end of a command. -/

namespace Sys2Proof.Machine

/-- Nanoseconds in a microsecond, a millisecond and a second. -/
def us (n : Nat) : Nat := n * 1000
def ms (n : Nat) : Nat := n * 1000000
def sec (n : Nat) : Nat := n * 1000000000

/-- The elements that `p` selects are changed by `f`. -/
def upd {α : Type} (p : α → Bool) (f : α → α) (l : List α) : List α := l.map (fun x => if p x then f x else x)

/-- The value of a key in an association list, or a default. -/
def getKey {β : Type} (l : List (Nat × β)) (k : Nat) (d : β) : β := ((l.find? (·.1 == k)).map (·.2)).getD d

/-- An association list with one key set. -/
def setKey {β : Type} (l : List (Nat × β)) (k : Nat) (v : β) : List (Nat × β) := (k, v) :: l.filter (·.1 != k)

/-- Time on the module time base (R85). -/
def State.time (s : State) : Nat := s.clock - s.modes.timeBase

/-- One free value has been drawn. Log entry 5. -/
def State.drawn (s : State) : State := { s with rnd := s.rnd + 1 }

/-- A command context by its number. -/
def State.ctx? (s : State) (c : Nat) : Option Ctx := s.net.ctxs.find? (·.id == c)

/-- The contexts replaced. -/
def State.withCtxs (s : State) (cs : List Ctx) : State := { s with net := { s.net with ctxs := cs } }

/-- A context changed. -/
def State.updCtx (s : State) (c : Nat) (f : Ctx → Ctx) : State := s.withCtxs (upd (·.id == c) f s.net.ctxs)

/-- An open or closing session by its number. -/
def State.session? (s : State) (n : Nat) : Option Session := s.net.sessions.find? (·.num == n)

/-- A session changed. -/
def State.updSession (s : State) (n : Nat) (f : Session → Session) : State :=
  { s with net := { s.net with sessions := upd (·.num == n) f s.net.sessions } }

/-- A keyspace by its ID. -/
def State.keyspace? (s : State) (k : Nat) : Option Keyspace := s.store.keyspaces.find? (·.id == k)

/-- A keyspace changed. -/
def State.updKeyspace (s : State) (k : Nat) (f : Keyspace → Keyspace) : State :=
  { s with store := { s.store with keyspaces := upd (·.id == k) f s.store.keyspaces } }

/-- An owner: the commons (0) or a fence (R323). -/
def State.owner (s : State) (o : Nat) : Owner := s.owners.getD o Owner.none

/-- An owner changed. -/
def State.updOwner (s : State) (o : Nat) (f : Owner → Owner) : State :=
  { s with owners := s.owners.set o (f (s.owner o)) }

/-- A link. -/
def State.link (s : State) (n : Nat) : Link := s.ports.links.getD n Link.off

/-- A link changed. -/
def State.updLink (s : State) (n : Nat) (f : Link → Link) : State :=
  { s with ports := { s.ports with links := s.ports.links.set n (f (s.link n)) } }

/-- Is a link of Port B (R98)? -/
def isPortB (link : Nat) : Bool := 4 ≤ link

/-- The cage of a port. -/
def State.cage (s : State) (portB : Bool) : Cage := if portB then s.ports.cageB else s.ports.cageA

/-- A cage replaced. -/
def State.setCage (s : State) (portB : Bool) (c : Cage) : State :=
  if portB then { s with ports := { s.ports with cageB := c } } else { s with ports := { s.ports with cageA := c } }

/-! ### Console, trace, logs -/

/-- `n` hexadecimal digits of `v`, in ASCII. -/
def hexDigits : Nat → Nat → Bytes
  | 0, _ => []
  | n + 1, v =>
    let d := v / 16 ^ n % 16
    BitVec.ofNat 8 (if d < 10 then 48 + d else 55 + d) :: hexDigits n v

/-- The ASCII bytes of a text. -/
def ascii (t : String) : Bytes := t.toList.map (fun c => BitVec.ofNat 8 c.toNat)

/-- Bytes that wait in the 4 KiB console transmit buffer now (R465): 10 bit times of 1/115 200 s each. -/
def State.txWaiting (s : State) : Nat := ceilDiv ((s.dbg.txBusy - s.clock) * 11520) 1000000000

/-- Sends a console line; a line that does not fit is dropped whole and the next one sent begins "!dropped" (R465). -/
def State.console (s : State) (line : Bytes) : State :=
  let l := (if s.dbg.dropped then ascii "!dropped" else []) ++ line ++ [13, 10]
  if s.txWaiting + l.length > 4096 then { s with dbg := { s.dbg with dropped := true } }
  else
    let busy := max s.dbg.txBusy s.clock + ceilDiv (l.length * 1000000000) 11520
    { s with dbg := { s.dbg with tx := s.dbg.tx ++ [l], txBusy := busy, dropped := false } }

/-- The class of a traced island as a bit of TRACE_SOURCES (R71, R471); none for an island that is never traced. -/
def traceClass (island : Nat) : Option Nat :=
  if 233 ≤ island && island ≤ 237 then some 0 else if 238 ≤ island && island ≤ 242 then some 1
  else if island == 243 then some 2 else if 10 ≤ island && island ≤ 27 then some 3
  else if 42 ≤ island && island ≤ 58 then some 4 else if 59 ≤ island && island ≤ 63 then some 5
  else if 181 ≤ island && island ≤ 212 then some 6 else if 147 ≤ island && island ≤ 180 then some 7
  else if island == 231 || island == 232 then some 8 else if island == 244 then some 9 else none

/-- Is the island traced (TRACE_SOURCES, R468)? -/
def State.traced (s : State) (island : Nat) : Bool :=
  match traceClass island with
  | some k => bit (s.var 0x0D03) k
  | none => false

/-- Places a trace record of a traced island in the buffer of 16 384 records (R468, R469), while there is a trace island (R71). -/
def State.trace (s : State) (kind island : Nat) (wake : Bool) (payload : BitVec 64) : State :=
  if s.traced island && !s.spares.lostRoles.contains 246 then
    let r : TraceRec := { kind := kind, island := island, wake := wake, time := s.time % 2 ^ 48, payload := payload }
    { s with dbg := { s.dbg with trace := (s.dbg.trace ++ [r]).drop (s.dbg.trace.length + 1 - 16384) } }
  else s

/-- The uncore of the active execution complex, which writes event records (R71). -/
def State.uncore (s : State) : Nat := if s.fw.complexB then 242 else 237

/-- Writes a record of the event log (R190, R191), its console line (R465) and its EVENT trace record (R468). -/
def State.logEvent (s : State) (code : Nat) (body : Bytes) : State :=
  let e : LogEntry := { index := s.logs.nextEv, start := s.modes.starts, code := code, time := s.time, body := body }
  let evs := (s.logs.events ++ [e]).drop (s.logs.events.length + 1 - 65536)
  let s1 := { s with logs := { s.logs with events := evs, nextEv := s.logs.nextEv + 1 } }
  (s1.console (hexDigits 4 code ++ [32] ++ hexDigits 16 e.index)).trace 3 s.uncore false
    (BitVec.ofNat 64 (code * 2 ^ 48 + e.index % 2 ^ 48))

/-! ### Power states (R415–R418, R470) -/

/-- An exit to P0 starts (R418). -/
def State.startExit (s : State) : State :=
  if s.power.st != 0 && s.power.exiting.isNone then { s with power := { s.power with exiting := some (s.power.st, s.clock) } } else s

/-- Foreground activity restarts the idle timers, ends a preparation for P3 and starts an exit to P0 (R416, R418). -/
def State.wake (s : State) : State :=
  let p := { s.power with lastFg := s.clock, preparing := false }
  ({ s with power := p } : State).startExit

/-- Foreground activity has lasted until now (R416). -/
def State.foreground (s : State) : State := { s with power := { s.power with lastFg := s.clock } }

/-- The power state changes; the stay in the old one is added to its residency (R430). -/
def Power.move (p : Power) (n now : Nat) : Power :=
  { p with st := n, stSince := now, preparing := false, exiting := none, refreshed := if n < 2 then 0 else p.refreshed
           residency := p.residency.set p.st (p.residency.getD p.st 0 + (now - p.stSince)), p3Exits := p.p3Exits + b1 (p.st == 3 && n < 3) }

/-- The traced islands whose clocks stop from P1 on (R415): protocol, lookup slice and Quince. -/
def State.gatedIslands (s : State) : List Nat :=
  ((List.range 18).map (· + 10) ++ (List.range 22).map (· + 42)).filter (fun i => !s.spares.unused.contains i && !s.spares.retired.contains i)

/-- Enters a deeper power state (R417, R470): POWER_DOWN records, and on entry to P3 the trace buffer goes to its area. -/
def State.deepen (s : State) (n : Nat) : State :=
  let s1 := s.gatedIslands.foldl (fun t i => t.trace 4 i false (BitVec.ofNat 64 n)) s
  let s2 : State := { s1 with power := { s1.power.move n s.clock with refreshed := if n == 3 then 0xFFFF else s1.power.refreshed } }
  if n == 3 then { s2 with dbg := { s2.dbg with area := s2.dbg.trace, trace := [] } } else s2

/-- Leaves for a shallower power state (R418, R470): the trace area is read back, and each island whose clock starts again places a
SYNC record with WAKE; its cycle count is a free value (log entry 5). -/
def State.shallower (s : State) (n : Nat) : State :=
  let s1 : State := { s with power := s.power.move n s.clock, dbg := { s.dbg with trace := s.dbg.area ++ s.dbg.trace, area := [] } }
  if n == 0 then s1.gatedIslands.foldl (fun t i =>
    (t.trace 5 i true (BitVec.ofNat 64 (t.time / 2 ^ 48 % 2 ^ 15 * 2 ^ 49 + Config.estimate t.rnd % 2 ^ 49))).drawn) s1
  else s1

/-- A bucket of value bytes after accrual, in thousandths of a byte: 10^6 bytes/s is one of them in a ns (R284). -/
def accrueScan (tokens : Int) (gained depth : Nat) : Int := min (1000 * depth : Nat) (tokens + (gained : Nat))

/-- The tokens of the device bucket of all sieves: at half its rate in a throttle stage (R284, R421). -/
def State.scanTokens (s : State) : Int :=
  accrueScan s.sieves.tokens ((s.clock - s.sieves.at') * s.var 0x0502 / (if s.thermal.stage == 0 then 1 else 2)) 16777216

/-- The device bucket is settled before its rate changes (R284). -/
def State.settleScan (s : State) : State := { s with sieves := { s.sieves with tokens := s.scanTokens, at' := s.clock } }

/-- A DIGEST_MISMATCH found by the module is counted and recorded: where 2 second check, 3 read, 4 Sieve, 5 relay admission
(R412, R413). -/
def State.digestEvent (s : State) (ks place op : Nat) (fp : BitVec 128) : State :=
  ({ s with counts := { s.counts with digestMis := s.counts.digestMis + 1 } } : State).logEvent 0x0A04
    (pack [(12, ks), (4, place), (8, op), (128, fp.toNat), (104, 0)])

/-- Writes a late fault to the journal and sets LATE_FAULT_STICKY of its keyspace (R384, R385). -/
def State.journalLate (s : State) (f : LateFault) : State :=
  let body := pack [(12, f.keyspace), (2, f.hop), (6, 0), (8, f.reason), (12, f.succ),
    (17, if f.mailbox then 0 else f.session), (5, f.tag), (1, 0), (1, b1 f.mailbox), (64, f.stamp), (128, f.fp.toNat)]
  let e : LogEntry := { index := s.logs.nextJn, start := s.modes.starts, code := 0x0901, time := s.time, body := body }
  let js := (s.logs.journal ++ [e]).drop (s.logs.journal.length + 1 - 4096)
  let s1 := { s with logs := { s.logs with journal := js, nextJn := s.logs.nextJn + 1 },
                     counts := { s.counts with journalled := s.counts.journalled + 1 } }
  s1.updKeyspace f.keyspace (fun k => { k with lateSticky := true })

/-! ### What leaves the module -/

/-- The link that carries a link's addresses (R114). -/
def State.carrier (s : State) (link : Nat) : Nat := (s.link link).movedTo.getD link

/-- Is a priority of a link paused (R117)? Priority 8 stands for the whole link. -/
def State.isPaused (s : State) (link prio : Nat) : Bool := (s.link link).pauses.any (fun p => p.1 == prio || p.1 == 8)

/-- A sending of a kept message has ended (R144). -/
def State.sendingEnded (s : State) (id : Option Nat) : State :=
  { s with net := { s.net with kept := upd (fun k => some k.id == id) (fun k => { k with ended := some s.clock }) s.net.kept } }

/-- The tag of a frame that a link sends (R108): the link's VID from 1 on; with VID 0 a priority tag, and none for PCP 0. -/
def State.frameTag (s : State) (link pcp : Nat) : Tagging :=
  let vid := s.var (0x0110 + link)
  if vid == 0 && pcp == 0 then .untagged else .tagged 0x8100 vid pcp

/-- Sends a frame by its link, or its carrier, or holds it in the port MAC island while that is down or paused
(R114–R117). -/
def State.push (s : State) (h : Held) : State :=
  let k := s.carrier h.link
  if (s.link k).up && !s.isPaused k h.prio then
    let f : Sent := { link := k, dest := h.dest, pcp := h.prio, tag := s.frameTag k h.prio, dscp := s.var 0x010C, what := h.what }
    let s1 : State :=
      { s with net := { s.net with sent := s.net.sent ++ [f] },
               ports := if isPortB k then { s.ports with activeB := s.clock } else { s.ports with activeA := s.clock } }
    s1.sendingEnded h.kept
  else { s with net := { s.net with held := s.net.held ++ [h] } }

/-- Sends every held frame whose link now carries it (R114, R117). -/
def State.drainHeld (s : State) : State :=
  let empty : State := { s with net := { s.net with held := [] } }
  s.net.held.foldl State.push empty

/-- Sends a frame now. -/
def State.sendFrame (s : State) (p : Path) (pcp : Nat) (kept : Option Nat) (what : Content) : State :=
  let h : Held := { id := s.net.nextId, link := p.link, prio := pcp, queued := s.clock, kept := kept, dest := p.src, what := what }
  State.push { s with net := { s.net with nextId := s.net.nextId + 1 } } h

/-- The MTU of a link (R107). -/
def State.mtu (s : State) (link : Nat) : Nat := s.var (0x0118 + link)

/-- The per-packet GKP payload on a path (R107). -/
def State.payload (s : State) (p : Path) : Nat := packetPayload (s.mtu p.link) p.src.ip.v6

/-- The packets of a message with that body and segment size (R125). -/
def packetCount (body seg : Nat) : Nat := max 1 (ceilDiv body seg)

/-- CREDIT_LIMIT[15:0] of a session; 0 where no session exists (R134). -/
def State.credit (s : State) (sess : Option Nat) : BitVec 16 :=
  match sess.bind s.session? with
  | some x => x.limit.setWidth 16
  | none => 0

/-- Sends a message that is not retained: a refusal, a replay, a REREAD reply (R140, R142). -/
def State.sendOnce (s : State) (p : Path) (sess : Option Nat) (m : Msg) : State :=
  let seg := s.payload p
  s.sendFrame p p.pcp none (.gkp m (s.credit sess) false seg (List.range (packetCount m.body.length seg)))

/-- Sends a reply or notice and keeps it until it is acknowledged or unanswered (R144). -/
def State.sendKept (s : State) (p : Path) (sess owner : Nat) (late : Option LateFault) (m : Msg) : State :=
  let seg := s.payload p
  let k : Kept := { id := s.net.nextId, session := sess, owner := owner, msg := m, path := p, seg := seg, sends := 1,
                    ended := none, contig := 0, beyond := 0, late := late }
  let s1 := { s with net := { s.net with nextId := s.net.nextId + 1, kept := s.net.kept ++ [k] } }
  s1.sendFrame p p.pcp (some k.id) (.gkp m (s.credit (some sess)) false seg (List.range (packetCount m.body.length seg)))

/-! ### Notices (R146–R148) -/

/-- Notices of a session sent and not yet acknowledged. -/
def State.unackedNotices (s : State) (sess : Nat) : Nat :=
  (s.net.kept.filter (fun k => k.session == sess && k.msg.notice.isSome)).length

/-- Numbers a notice and sends it to its session (R147). -/
def State.emitNotice (s : State) (x : Session) (n : Notice) : State :=
  let m : Msg :=
    { notice := some n.kind, opcode := 0, session := x.num, tag := 0, sequence := x.nextNotice, status := .done, flags := 0,
      reread := false, noSession := false, lost := x.lost, keyspace := n.keyspace, paramA := n.paramA, paramB := n.paramB,
      body := n.value }
  (s.updSession x.num (fun y => { y with nextNotice := y.nextNotice + 1, lost := false })).sendKept x.path x.num x.fence n.late m

/-- A notice for a session: sent, queued, dropped with NOTICES_LOST, or journalled (R147, R148). -/
def State.notify (s : State) (sess : Nat) (n : Notice) : State :=
  match s.session? sess with
  | none =>
    match n.late with
    | some f => s.journalLate f
    | none => s
  | some x =>
    if x.notices.isEmpty && s.unackedNotices sess < 8 then s.emitNotice x n
    else if x.notices.length < 16 then s.updSession sess (fun y => { y with notices := y.notices ++ [n] })
    else match n.kind, n.late with
      | .lateFault, some f => s.journalLate f
      | .secureDiscardDone, _ => s.updSession sess (fun y => { y with waitingSd := y.waitingSd ++ [n] })
      | _, _ => s.updSession sess (fun y => { y with lost := true })

/-- Sends queued notices of a session while fewer than 8 are unacknowledged (R148). -/
def State.pumpNotices : Nat → State → Nat → State
  | 0, s, _ => s
  | fuel + 1, s, sess =>
    match s.session? sess with
    | none => s
    | some x =>
      match x.notices with
      | [] => s
      | n :: rest =>
        if s.unackedNotices sess < 8 then
          let keep := rest ++ x.waitingSd.take 1
          let s1 := s.updSession sess (fun y => { y with notices := keep, waitingSd := x.waitingSd.drop 1 })
          State.pumpNotices fuel (s1.emitNotice x n) sess
        else s

/-- Does a session receive a broadcast notice of that kind (R147)? -/
def Session.wants (x : Session) (k : NoticeKind) : Bool :=
  x.closing.isNone && (k == .modeChange || x.noticeMask.getLsbD k.code)

/-- A broadcast notice (R147). Those of R418 start an exit to P0. -/
def State.broadcast (s : State) (k : NoticeKind) (keyspace : Nat) (a b : BitVec 64) (value : Bytes) : State :=
  let n : Notice := { kind := k, keyspace := keyspace, paramA := a, paramB := b, value := value, late := none }
  let s1 := if k == .watermark || k == .spareBroughtIn || k == .keysErased || k == .modeChange then s.startExit else s
  (s.net.sessions.filter (·.wants k)).foldl (fun t x => t.notify x.num n) s1

/-! ### Cells and contexts (R217, R328–R331) -/

/-- Cells of a reply that waits for its acknowledgement. -/
def Kept.cells (k : Kept) : Nat := if k.msg.notice.isSome then 0 else max 1 (ceilDiv k.msg.body.length 4096)

/-- The pool part of the egress reserve, beside the owners 0–8 (R328). -/
def egressPart : Nat := 9

/-- Pool total (R328): 512 cells less for each buffer bank whose role is lost. -/
def State.poolTotal (s : State) : Nat :=
  32768 - 512 * (s.spares.lostRoles.filter (fun i => 64 ≤ i && i ≤ 131)).length

/-- Cells reserved for an owner's part (R328). -/
def State.ownerCells (s : State) (o : Nat) : Nat :=
  if o == 0 then s.poolTotal - 2048 - ((s.owners.drop 1).map (fun w => 128 * w.cells128)).sum
  else if o == egressPart then 1024 else 128 * (s.owner o).cells128

/-- Cells a part holds: commands of the owner's sessions and their kept replies (R329). -/
def State.cellsHeld (s : State) (o : Nat) : Nat :=
  ((s.net.ctxs.filter (·.pool == o)).map (fun x => x.cells + x.outCells)).sum
    + ((s.net.kept.filter (·.owner == o)).map Kept.cells).sum

/-- Cells free in a part. -/
def State.cellsFree (s : State) (o : Nat) : Nat := s.ownerCells o - s.cellsHeld o

/-- Cells of the media reserve held: running P and Q of open stripes (R300). -/
def State.mediaHeld (s : State) : Nat :=
  ((s.store.groups.filter (fun g => g.isOpen && g.parity)).map (fun _ => 8)).sum

/-- Cells held in the whole pool (R331). -/
def State.poolHeld (s : State) : Nat := ((List.range 10).map s.cellsHeld).sum + s.mediaHeld

/-- Units of session capacity all fences hold (R217). -/
def State.capacityUnits (s : State) : Nat := ((s.owners.drop 1).map (·.sessions512)).sum

/-- Session entries of a pool (R217). -/
def State.poolEntries (s : State) (o : Nat) : Nat :=
  if o == 0 then 131072 - 512 * s.capacityUnits else 512 * (s.owner o).sessions512

/-- Contexts of a pool (R217). -/
def State.poolContexts (s : State) (o : Nat) : Nat :=
  if o == 0 then 262144 - 4096 * s.capacityUnits else 4096 * (s.owner o).sessions512

/-- Internal contexts in use: mailbox commands and relay forwards (R217). -/
def State.internalContexts (s : State) : Nat :=
  (s.net.ctxs.filter (·.mailbox)).length + s.relay.slots.length

/-- Contexts a pool's accepted commands hold, internal ones of the commons included. -/
def State.contextsHeld (s : State) (o : Nat) : Nat :=
  (s.net.ctxs.filter (fun x => x.session.isSome && x.pool == o)).length + (if o == 0 then s.internalContexts else 0)

/-- Contexts in use device-wide (R221). -/
def State.contextsInUse (s : State) : Nat := ((List.range 9).map s.contextsHeld).sum

/-- Open sessions of a pool. -/
def State.poolOpen (s : State) (o : Nat) : Nat := (s.net.sessions.filter (·.fence == o)).length

/-- Sum of a pool's windows (R218). -/
def State.poolWindows (s : State) (o : Nat) : Nat := ((s.net.sessions.filter (·.fence == o)).map (·.window)).sum

/-- Credits a pool can still grant (R218). -/
def State.poolAvail (s : State) (o : Nat) : Nat :=
  s.poolContexts o - s.poolWindows o - (s.poolEntries o - s.poolOpen o) - (if o == 0 then s.internalContexts else 0)

/-! ### The replay window (R136, R137) -/

/-- The replay entry of a sequence number. -/
def Session.entry? (x : Session) (q : BitVec 32) : Option ReplayEntry := x.replay.find? (·.seq == q)

/-- The lowest number without a terminal status from `b` on; a number beyond the highest has none (R134). -/
def Session.baseFrom (x : Session) : Nat → BitVec 32 → BitVec 32
  | 0, b => b
  | n + 1, b => match x.entry? b with
    | some e => if e.finished then x.baseFrom n (b + 1) else b
    | none => b

/-- Recomputes BASE and moves the credit limit, never backwards (R134). -/
def Session.advance (x : Session) : Session :=
  let b := x.baseFrom 64 x.base
  let l := b + BitVec.ofNat 32 x.window
  { x with base := b, limit := if seqDiff l x.limit > 0 then l else x.limit }

/-- Records a terminal status as DONE (R137). -/
def Session.record (x : Session) (q : BitVec 32) (st : Status) (a : BitVec 64) (rerun : Bool) : Session :=
  { x with replay := upd (·.seq == q) (fun e => { e with finished := true, status := st, paramA := a, rerun := rerun }) x.replay }.advance

/-- Accepts a number: its entry becomes IN_PROGRESS (R137, R138). -/
def Session.accept (x : Session) (q : BitVec 32) (opcode tag : Nat) : Session :=
  let h := if seqDiff q x.highest > 0 then q else x.highest
  let e : ReplayEntry := { seq := q, opcode := opcode, tag := tag, finished := false, status := .done, paramA := 0, rerun := false }
  { x with highest := h, used := true, backoffs := 0
           replay := (e :: x.replay.filter (·.seq != q)).filter (fun r => seqDiff r.seq h > -64) }

/-! ### Phases and internal work (R88, R92) -/

/-- Phases that are excluded waits (R88). -/
def Phase.excluded : Phase → Bool
  | .assembling | .shaping | .waiting | .draining | .relaying => true
  | _ => false

/-- A context in a new phase, its internal-work counter kept (R92). -/
def Ctx.enter (x : Ctx) (p : Phase) (now : Nat) : Ctx :=
  match x.runSince with
  | some t => if p.excluded then { x with phase := p, work := x.work + (now - t), runSince := none } else { x with phase := p }
  | none => if p.excluded then { x with phase := p } else { x with phase := p, runSince := some now }

/-- Moves a context to a phase. -/
def State.toPhase (s : State) (c : Nat) (p : Phase) : State := s.updCtx c (fun x => x.enter p s.clock)

/-! ### The range-lock table (R206, R211, R213) -/

/-- The modes conflict (R206). -/
def lockModesConflict : LockMode → LockMode → Bool
  | .read, .write => true
  | .write, _ => true
  | .move, .write => true
  | .move, .move => true
  | _, _ => false

/-- Two locks on one object conflict: their ranges overlap and their modes are incompatible (R206). -/
def LockRec.conflicts (h w : LockRec) : Bool :=
  lockModesConflict h.mode w.mode && h.start < w.stop && w.start < h.stop

/-- Inserts by age, oldest first. -/
def insertByAge (w : LockRec) : List LockRec → List LockRec
  | [] => [w]
  | v :: vs => if v.age ≤ w.age then v :: insertByAge w vs else w :: v :: vs

/-- The grant pass over the waiters in age order, `done` being the records passed so far (holders, and waiters older and
still waiting) (R213). -/
def grantPass (holders : List LockRec) : List LockRec → List LockRec → List LockRec
  | _, [] => []
  | done, w :: ws =>
    if w.held then w :: grantPass holders done ws
    else
      let blocked := (holders ++ done).any (fun h => h.conflicts w)
      let w' := { w with held := !blocked }
      w' :: grantPass (if blocked then holders else w' :: holders) (if blocked then w :: done else done) ws

/-- An entry after a grant pass. -/
def LockEntry.grant (e : LockEntry) : LockEntry := { e with recs := grantPass (e.recs.filter (·.held)) [] e.recs }

/-- The island of an object's entry (R211). -/
def lockIsland (fp : BitVec 128) : Nat := (fp.toNat) % 4

/-- Has the object an entry, or its island a free one (R211, R212)? -/
def State.lockRoom (s : State) (keyspace : Nat) (fp : BitVec 128) : Bool :=
  s.net.locks.any (fun e => e.keyspace == keyspace && e.fp == fp)
    || (s.net.locks.filter (fun e => lockIsland e.fp == lockIsland fp)).length < 16384

/-- Enters an operation into its object's entry, and runs a grant pass (R213). -/
def State.lockEnter (s : State) (keyspace : Nat) (fp : BitVec 128) (w : LockRec) : State :=
  let locks :=
    if s.net.locks.any (fun e => e.keyspace == keyspace && e.fp == fp) then
      upd (fun e => e.keyspace == keyspace && e.fp == fp) (fun e => { e with recs := insertByAge w e.recs }.grant) s.net.locks
    else s.net.locks ++ [LockEntry.grant { keyspace := keyspace, fp := fp, recs := [w] }]
  { s with net := { s.net with locks := locks } }

/-- Removes an operation from its entry; the entry is freed, or a grant pass runs (R213). -/
def State.lockLeave (s : State) (op : LockOp) : State :=
  let locks := s.net.locks.map (fun e =>
    if e.recs.any (·.op == op) then { e with recs := e.recs.filter (fun r => r.op != op) }.grant else e)
  { s with net := { s.net with locks := locks.filter (fun e => !e.recs.isEmpty) } }

/-- The lock record of an operation, with its object. -/
def State.lockOf (s : State) (op : LockOp) : Option (LockEntry × LockRec) :=
  s.net.locks.findSome? (fun e => (e.recs.find? (·.op == op)).map (fun r => (e, r)))

/-- Does the operation hold its lock? -/
def State.holdsLock (s : State) (op : LockOp) : Bool :=
  match s.lockOf op with
  | some p => p.2.held
  | none => false

/-! ### The end of a command -/

/-- A reply without parameters or body. -/
def Reply.plain (st : Status) : Reply := { status := st, flags := 0, paramA := 0, paramB := 0, body := [] }

/-- A reply with a parameter A. -/
def Reply.withA (st : Status) (a : Nat) : Reply := { Reply.plain st with paramA := BitVec.ofNat 64 a }

/-- The message of a context's reply (R154). -/
def Ctx.message (x : Ctx) (r : Reply) : Msg :=
  { notice := none, opcode := x.opcode, session := x.sessField, tag := x.tag, sequence := x.seq, status := r.status,
    flags := r.flags, reread := x.reexec, noSession := false, lost := false, keyspace := x.keyspace, paramA := r.paramA,
    paramB := r.paramB, body := r.body }

/-- The 40 header bytes of a reply (R121, R124), as the mailbox delivers them. -/
def replyHeader (m : Msg) (credit : BitVec 16) : Bytes :=
  let h := pack [(4, 1), (4, 1), (8, m.opcode), (8, m.status.code), (1, 0), (1, 1), (1, b1 m.reread), (1, b1 m.noSession),
    (4, m.flags.toNat), (17, m.session), (5, m.tag), (10, 0), (32, m.sequence.toNat), (12, m.keyspace), (4, 0), (16, 0),
    (32, m.body.length), (64, m.paramA.toNat), (64, m.paramB.toNat), (16, credit.toNat)]
  h ++ bytesOfNat 2 (crc16 h).toNat

/-- What a command holds is released at its terminal status (R83, R204): its place in the session queue, its lock, its
queued cipher job, its relay slot before the commit, its key-use reservation or its share of a sweep's (R357), its tentative
Quince way (R250); a KEYSPACE_DELETE that ends before its
commit point restores the keyspace (R176). Cells, the sieve-slot reservation and reserved growth go with the context. -/
def State.releaseCmd (s : State) (x : Ctx) : State :=
  let s1 := match x.session with
    | some n => s.updSession n (fun y => { y with queue := y.queue.filter (· != x.id) })
    | none => s
  let s2 := s1.lockLeave (.cmd x.id)
  let s3 := { s2 with cipher := { s2.cipher with
    queue := s2.cipher.queue.filter (fun j => j.of' != .cmd x.id)
    pipes := s2.cipher.pipes.map (fun p => { p with suspended := p.suspended.filter (fun j => j.of' != .cmd x.id) })
    pages := upd (fun p => some p.n == (s2.keyspace? x.keyspace).map (·.keyPage)
        && (x.keyUse || (!x.committed && x.sealGen.any (fun g => g.1 != p.cur.gen)))) (fun p => { p with reserved := p.reserved - 1 })
      s2.cipher.pages } }
  let s4 := if x.committed then s3
    else { s3 with relay := { s3.relay with slots := s3.relay.slots.filter (fun r => r.ctx != some x.id) } }
  let s5 := if isDataWrite x.opcode && !x.committed && (s.lockOf (.cmd x.id)).any (·.2.held) then
    s4.qWithdraw x.fp (tentativePriority x.opcode (x.flags.getLsbD 5)) else s4
  if x.opcode == 0x21 && !x.committed then
    s5.updKeyspace x.keyspace (fun k => if k.deleting == some x.id then
      { k with deleting := none, shaper := k.shaper.map (fun b => { b with stopped := false }) } else k)
  else s5

/-- The pool part a reply takes its cells from: its owner's, then the egress reserve (R329). -/
def State.replyPart (s : State) (x : Ctx) (body : Nat) : Nat :=
  if max 1 (ceilDiv body 4096) ≤ s.cellsFree x.pool + x.cells + x.outCells then x.pool else egressPart

/-- Sends a context's reply: into the mailbox (R461), once (a re-execution, R139), or kept until acknowledged (R144). A
reply whose context has no session is the answer to a SESSION_OPEN that opens none (R130). -/
def State.sendReply (s : State) (x : Ctx) (r : Reply) : State :=
  let m := x.message r
  if x.mailbox then
    { s with sb := { s.sb with mb := .ready, reply := replyHeader m 0 ++ m.body, readOff := 0, delivered := false } }.alert .mbReady
  else match x.session with
    | none => s.sendOnce x.path none m
    | some n =>
      let p := match s.session? n with
        | some y => y.path
        | none => x.path
      if x.reexec then s.sendOnce p (some n) m else s.sendKept p n (s.replyPart x r.body.length) none m

/-- Records the terminal status in the session's replay window (R137). A command that ended at its assembly is recorded
as not re-executable (R139). -/
def State.recordStatus (s : State) (x : Ctx) (r : Reply) : State :=
  match x.session with
  | none => s
  | some n =>
    if x.reexec then s
    else s.updSession n (fun y =>
      y.record x.seq r.status r.paramA (x.phase != .assembling && isReexecutable x.opcode (x.flags.getLsbD 0)))

/-- Ends a command with a reply: releases what it holds, records its status, sends the reply and frees the context. -/
def State.endCmd (s : State) (c : Nat) (r : Reply) : State :=
  match s.ctx? c with
  | none => s
  | some x =>
    let s1 := (s.releaseCmd x).recordStatus x r
    ((s1.sendReply x r).withCtxs (s.net.ctxs.filter (fun y => y.id != c))).foreground

/-- Ends a command with a status alone. -/
def State.endStatus (s : State) (c : Nat) (st : Status) : State := s.endCmd c (Reply.plain st)

end Sys2Proof.Machine
end

