-- ==== Sys2Proof/Machine/Ports.lean ====
section
/-! DEFINITION. The Ethernet ports (R98–R120, R489): formats, attempts, lane degrade, plug-in modules, failover, pause. -/

namespace Sys2Proof.Machine

/-- The lanes of a link, as a mask of LANE0–LANE7, in a format (R98); 0 where the format does not use the link. -/
def formatLanes (fmt link : Nat) : BitVec 8 :=
  let p := link % 4
  let m : Nat :=
    if fmt == 1 then (if p == 0 then 0xF else 0)
    else if fmt == 2 then (if p == 0 then 0x3 else if p == 2 then 0xC else 0)
    else if fmt == 3 then 2 ^ p else 0
  BitVec.ofNat 8 (if isPortB link then m * 16 else m)

/-- The number of lanes in a mask. -/
def laneCount (m : BitVec 8) : Nat := ((List.range 8).filter (fun i => m.getLsbD i)).length

/-- The format in effect on a port (R98). -/
def State.format (s : State) (portB : Bool) : Nat := if portB then s.ports.formatB else s.ports.formatA

/-- The full lanes of a link in the format in effect. -/
def State.fullLanes (s : State) (link : Nat) : BitVec 8 := formatLanes (s.format (isPortB link)) link

/-- The links of a port. -/
def portLinks (portB : Bool) : List Nat := if portB then [4, 5, 6, 7] else [0, 1, 2, 3]

/-- Is the module a backplane part, without cages (R1)? -/
def isB8 : Bool := Config.orderCode == .b8

/-- Was a flush started, or taken over, by the loss of a supply (R422, R431)? -/
def Flush.waltz (f : Flush) : Bool := f.trigger == 1 || f.trigger == 2 || f.trigger == 4

/-- Does Last Waltz run? -/
def State.waltzing (s : State) : Bool := s.modes.flush.any Flush.waltz

/-- May the links of the port train: code loaded, main supply on, port enabled, reference or plug-in module there
(R28, R49, R103)? -/
def State.trainable (s : State) (portB : Bool) : Bool :=
  s.supply.mainOn && !s.waltzing && 8 ≤ s.modes.startStep && s.format portB != 0
    && (if isB8 then s.supply.refclk else (s.cage portB).accepted)

/-- Is the port's medium passive copper or a backplane, which trains (R99, R101)? -/
def State.trains (s : State) (portB : Bool) : Bool :=
  isB8 || ((s.cage portB).cmis.map (·.copper)).getD false

/-- The latest time of an attempt, in ns (R489). -/
def State.attemptLimit (s : State) (portB : Bool) : Nat :=
  if s.trains portB then (if s.var 0x0103 == 1 then sec 5 else sec 4)
  else sec 2 + ms (((s.cage portB).cmis.map (·.pathMs)).getD 0)

/-- An attempt starts on every link of the port's format that is down, on all its lanes (R489). -/
def State.startAttempts (s : State) (portB : Bool) : State :=
  if s.trainable portB then
    (portLinks portB).foldl (fun t l =>
      if t.fullLanes l != 0 && !(t.link l).up then
        t.updLink l (fun k => { k with attempt := some t.clock, failed := 0, lanes := t.fullLanes l, degraded := false
                                       downAt := some (k.downAt.getD t.clock) })
      else t) s
  else s

/-- The MAC address of a link (R109): the base, whose three low bits are 0, plus its number. -/
def linkMac (link : Nat) : Nat := Config.baseMacHigh 0 % 2 ^ 45 * 8 + link

/-- The EUI-64 link-local address of a link (R110). -/
def linkLocal (link : Nat) : Addr :=
  let m := linkMac link
  ⟨true, 0xFE80 * 2 ^ 112 + (m / 2 ^ 24 ^^^ 0x020000) * 2 ^ 40 + 0xFFFE * 2 ^ 24 + m % 2 ^ 24⟩

/-- A link's own addresses (R110): none of a family whose address is 0. -/
def State.ownAddrs (s : State) (link : Nat) : List Addr :=
  (if s.var (0x0120 + link) == 0 then [] else [⟨false, s.var (0x0120 + link)⟩])
    ++ (if s.var (0x0130 + link) == 0 then [] else [⟨true, s.var (0x0130 + link)⟩, linkLocal link])

/-- The addresses a link answers on: its own, and those it carries for failed links (R114). -/
def State.linkAddrs (s : State) (link : Nat) : List Addr :=
  ((List.range 8).filter (fun n => s.carrier n == link)).flatMap s.ownAddrs

/-- Announces a link's addresses on the link that carries them (R111, R114), with PCP 0 (R108). -/
def State.announce (s : State) (link : Nat) : State :=
  (s.ownAddrs link).foldl (fun t a =>
    t.sendFrame { link := link, src := { mac := 2 ^ 48 - 1, ip := a, port := 0, dst := a }, pcp := 0 } 0 none (.announce a)) s

/-- Takes a link down: LINK_LOST, its lanes unlocked; its next attempt is on all its lanes (R102, R114). -/
def State.takeDown (s : State) (link : Nat) (failing : BitVec 8) : State :=
  if (s.link link).up then
    let full := s.fullLanes link
    let s1 := s.updLink link (fun k => { k with up := false, degraded := false, lanes := full, downAt := some s.clock
                                                attempt := none, failed := 0, pauses := [], holdoff := [] })
    ({ s1 with ports := { s1.ports with locked := s1.ports.locked &&& ~~~full, failing := s1.ports.failing ||| failing } }).portEvent
      (isPortB link) .linkLost
  else s

/-- Moves the addresses of a link, and those it carries, to a carrier on the other port (R114). -/
def State.failOver (s : State) (link carrier : Nat) : State :=
  let moved := (List.range 8).filter (fun n => n == link || (s.link n).movedTo == some link)
  let s1 := moved.foldl (fun t n => t.updLink n (fun k =>
    { k with movedTo := if n == carrier then none else some carrier, waiting := false })) s
  let s2 := (moved.foldl (fun t n => t.announce n) s1).portEvent (isPortB link) .failoverOut
  s2.drainHeld

/-- The carrier of a failed link: the link in the same position of the other port if it is up, else the lowest-numbered
up link of that port (R114). -/
def State.chooseCarrier (s : State) (link : Nat) : Option Nat :=
  let same := (link + 4) % 8
  if (s.link same).up then some same else (portLinks (!isPortB link)).find? (fun n => (s.link n).up)

/-- LINK_UP (R489, R102, R111, R114): a running attempt brings its link up on the lanes it trained. -/
def execLinkUp (link : Nat) (s : State) : Host.Outcome State Fault Refusal :=
  let k := s.link link
  if link < 8 && !k.up && k.attempt.isSome && s.trainable (isPortB link) && s.fullLanes link != 0 then
    let degraded := k.lanes != s.fullLanes link
    let s1 := s.updLink link (fun k => { k with up := true, degraded := degraded, upSince := s.clock, ups := k.ups + 1
                                                attempt := none, failed := 0, downAt := none })
    let s2 := { s1 with ports := { s1.ports with locked := s1.ports.locked ||| k.lanes, failing := s1.ports.failing &&& ~~~k.lanes } }
    let s3 := if degraded then s2.portEvent (isPortB link) .laneDegraded else s2
    let s4 := if k.movedTo.isNone then (s3.updLink link (fun k => { k with waiting := false })).announce link else s3
    let waiting := (portLinks (!isPortB link)).filter (fun n => (s4.link n).waiting && !(s4.link n).up)
    .next (if s.var 0x0105 == 1 then waiting.foldl (fun t n => t.failOver n link) s4.drainHeld else s4.drainHeld)
  else .next s

/-- LINK_DOWN (R114, R118): a link that was up loses signal or block lock; its egress frames are held from now on. -/
def execLinkDown (link : Nat) (failing : BitVec 8) (s : State) : Host.Outcome State Fault Refusal :=
  .next (s.takeDown link failing)

/-- SIGNAL_RETURN (R489): signal returns after a loss and an attempt starts. -/
def execSignalReturn (link : Nat) (s : State) : Host.Outcome State Fault Refusal :=
  let k := s.link link
  if link < 8 && !k.up && k.attempt.isNone && s.trainable (isPortB link) && s.fullLanes link != 0 then
    .next (s.updLink link (fun k => { k with attempt := some s.clock, failed := 0, lanes := s.fullLanes link, degraded := false
                                             downAt := some (k.downAt.getD s.clock) }))
  else .next s

/-- The half of a link's lanes without a failing lane (R102); none where both halves have one or the link has one lane. -/
def degradedHalf (full failing : BitVec 8) : Option (BitVec 8) :=
  let lanes := (List.range 8).filter (fun i => full.getLsbD i)
  let h := lanes.length / 2
  let mask (l : List Nat) : BitVec 8 := l.foldl (fun m i => m ||| BitVec.ofNat 8 (2 ^ i)) 0
  let low := mask (lanes.take h)
  let high := mask (lanes.drop h)
  if lanes.length < 2 then none
  else if low &&& failing == 0 then some low
  else if high &&& failing == 0 then some high else none

/-- LINK_ATTEMPT_TIMEOUT (R489, R102): the attempt failed and a new one begins at once; after the third failed attempt the
link is trained on the half of its lanes without a failing lane. -/
def execLinkAttemptTimeout (link : Nat) (failing : BitVec 8) (s : State) : Host.Outcome State Fault Refusal :=
  let k := s.link link
  let portB := isPortB link
  match k.attempt with
  | some t =>
    if link < 8 && !k.up && t + s.attemptLimit portB ≤ s.clock then
      let s1 := { s with ports := { s.ports with failing := s.ports.failing ||| (failing &&& s.fullLanes link) } }
      let half := if k.failed + 1 ≥ 3 && s.var 0x0104 == 1 && k.lanes == s.fullLanes link
          && (s.trains portB || ((s.cage portB).cmis.map (·.halfApps)).getD false)
        then degradedHalf (s.fullLanes link) failing else none
      .next (s1.updLink link (fun k => { k with attempt := some s.clock, failed := k.failed + 1, lanes := half.getD k.lanes }))
    else .next s
  | none => .next s

/-- FAILOVER_HOLD (R114): the link has been down for FAILOVER_HOLD_MS and its addresses move, or wait for the first link of
the other port that comes up. -/
def execFailoverHold (link : Nat) (s : State) : Host.Outcome State Fault Refusal :=
  let k := s.link link
  match k.downAt with
  | some t =>
    if link < 8 && s.var 0x0105 == 1 && !k.up && k.movedTo.isNone && t + ms (s.var 0x0106) ≤ s.clock then
      match s.chooseCarrier link with
      | some c => .next (s.failOver link c)
      | none => .next (s.updLink link (fun k => { k with waiting := true }))
    else .next s
  | none => .next s

/-- FAILOVER_BACK (R114): the link has been up for 1 s and its addresses return to it, with the same announcements. -/
def execFailoverBack (link : Nat) (s : State) : Host.Outcome State Fault Refusal :=
  let k := s.link link
  if link < 8 && k.up && k.movedTo.isSome && k.upSince + sec 1 ≤ s.clock then
    let s1 := s.updLink link (fun k => { k with movedTo := none, waiting := false })
    .next ((s1.announce link).portEvent (isPortB link) .failoverBack).drainHeld
  else .next s

/-- EGRESS_FRAME_TIMEOUT (R115): a frame held 1 s because neither its link nor a carrier is up is discarded; its sending
has ended. -/
def execEgressFrameTimeout (frame : Nat) (s : State) : Host.Outcome State Fault Refusal :=
  match s.net.held.find? (·.id == frame) with
  | some h =>
    if !(s.link (s.carrier h.link)).up && h.queued + sec 1 ≤ s.clock then
      .next (({ s with net := { s.net with held := s.net.held.filter (fun g => g.id != frame) } } : State).sendingEnded h.kept)
    else .next s
  | none => .next s

/-- The duration of a quanta value on a link, in ns (R117): 512 bit times each. -/
def State.quantaNs (s : State) (link quanta : Nat) : Nat :=
  ceilDiv (quanta * 512) (100 * max 1 (laneCount (s.link link).lanes))

/-- A pause of a priority with a quanta value: zero quanta release it; a priority in its watchdog hold-off discards it
(R117). -/
def State.pause (s : State) (link prio quanta : Nat) : State :=
  if (s.link link).holdoff.any (·.1 == prio) then s
  else if quanta == 0 then
    (s.updLink link (fun k => { k with pauses := k.pauses.filter (fun p => p.1 != prio) })).drainHeld
  else
    s.updLink link (fun k =>
      let since := ((k.pauses.find? (·.1 == prio)).map (·.2.1)).getD s.clock
      { k with pauses := (prio, since, s.clock + s.quantaNs link quanta) :: k.pauses.filter (fun p => p.1 != prio) })

/-- PAUSE_QUANTA_EXPIRE (R117). -/
def execPauseQuantaExpire (link prio : Nat) (s : State) : Host.Outcome State Fault Refusal :=
  if (s.link link).pauses.any (fun p => p.1 == prio && p.2.2 ≤ s.clock) then
    .next (s.updLink link (fun k => { k with pauses := k.pauses.filter (fun p => p.1 != prio) })).drainHeld
  else .next s

/-- PAUSE_WATCHDOG (R117): a priority paused for PAUSE_WD_MS resumes, its pauses are discarded for 500 ms, and
PAUSE_WATCHDOG sets; 0 disables the watchdog. -/
def execPauseWatchdog (link prio : Nat) (s : State) : Host.Outcome State Fault Refusal :=
  if s.var 0x010A != 0 && (s.link link).pauses.any (fun p => p.1 == prio && p.2.1 + ms (s.var 0x010A) ≤ s.clock) then
    let s1 := s.updLink link (fun k => { k with pauses := k.pauses.filter (fun p => p.1 != prio)
                                                holdoff := (prio, s.clock + ms 500) :: k.holdoff })
    .next (s1.portEvent (isPortB link) .pauseWatchdog).drainHeld
  else .next s

/-- PAUSE_WATCHDOG_HOLDOFF_END (R117). -/
def execPauseWatchdogHoldoffEnd (link prio : Nat) (s : State) : Host.Outcome State Fault Refusal :=
  .next (s.updLink link (fun k => { k with holdoff := k.holdoff.filter (fun p => !(p.1 == prio && p.2 ≤ s.clock)) }))

/-- NEIGHBOUR_AGE_OUT (R113): an entry not used for 60 s goes. -/
def execNeighbourAgeOut (portB : Bool) (addr : Addr) (s : State) : Host.Outcome State Fault Refusal :=
  .next { s with ports := { s.ports with
    neighbours := s.ports.neighbours.filter (fun n => !(n.1 == portB && n.2.1 == addr && n.2.2.2 + sec 60 ≤ s.clock)) } }

/-! ### Plug-in modules (R103–R105) -/

/-- ModuleReady in the module state byte: bits [3:1] are 3. PRESUMED, log entry 16 (CMIS). -/
def cmisReady (c : Cmis) : Bool := bits c.moduleState.toNat 3 1 == 3

/-- The first reason to refuse a plug-in module from what it advertises (R103, REFUSE_REASON of R119); 0 none. -/
def State.refuseReason (s : State) (portB : Bool) (c : Cmis) : Nat :=
  if !c.answers then 4
  else if !(c.qsfpClass && 0x40 ≤ c.revision.toNat) then 1
  else if 35 < c.maxPowerDW then 2
  else if !(c.apps.contains (s.format portB)) || (c.copper && !c.crMatch) then 3
  else 0

/-- Refuses a plug-in module: low-power mode, port down, CMIS_FAULT (R103). -/
def State.refusePlugIn (s : State) (portB : Bool) (reason : Nat) : State :=
  let c := s.cage portB
  let s1 := s.setCage portB { c with accepted := false, refuse := reason, lowPower := true }
  let s2 := (portLinks portB).foldl (fun t l =>
    (t.takeDown l 0).updLink l (fun k => { k with attempt := none })) s1
  s2.portEvent portB .cmisFault

/-- Judges the plug-in module of a cage while the main supply is on and the port is enabled: refused, or out of low-power
mode and accepted once it is ready (R103). -/
def State.judgePlugIn (s : State) (portB : Bool) : State :=
  let c := s.cage portB
  match c.cmis with
  | none => s
  | some m =>
    if !c.present || c.accepted || !s.supply.mainOn || s.format portB == 0 then s
    else
      let r := s.refuseReason portB m
      if r != 0 then s.refusePlugIn portB r
      else if cmisReady m && !m.fault then
        (s.setCage portB { c with accepted := true, refuse := 0, lowPower := false }).startAttempts portB
      else s.setCage portB { c with lowPower := false, refuse := 0 }

/-- PLUG_IN_INSERT (R103, R104). The backplane part has no cages (R1). -/
def execPlugInInsert (portB : Bool) (cmis : Cmis) (s : State) : Host.Outcome State Fault Refusal :=
  if isB8 || (s.cage portB).present then .next s
  else
    let c : Cage := { present := true, accepted := false, refuse := 0, lowPower := true, since := s.clock, cmis := some cmis }
    .next ((s.setCage portB c).judgePlugIn portB)

/-- CMIS_READY_TIMEOUT (R103): not ready within the advertised time, or 2 s: refused with reason 4. -/
def execCmisReadyTimeout (portB : Bool) (s : State) : Host.Outcome State Fault Refusal :=
  let c := s.cage portB
  let limit := match c.cmis with
    | some m => if m.readyMs == 0 then sec 2 else ms m.readyMs
    | none => sec 2
  if c.present && !c.accepted && c.refuse == 0 && !c.lowPower && c.since + limit ≤ s.clock then .next (s.refusePlugIn portB 4)
  else .next s

/-- PLUG_IN_REMOVE (R105): a loss of link for each link of the port. -/
def execPlugInRemove (portB : Bool) (s : State) : Host.Outcome State Fault Refusal :=
  if (s.cage portB).present then
    let s1 := (portLinks portB).foldl (fun t l => (t.takeDown l 0).updLink l (fun k => { k with attempt := none })) s
    .next (s1.setCage portB Cage.empty)
  else .next s

/-- CMIS_POLL (R104): flags and monitors are read; a plug-in module that has become ready is accepted, one that reports a
fault after acceptance is refused with reason 5. -/
def execCmisPoll (portB : Bool) (cmis : Cmis) (s : State) : Host.Outcome State Fault Refusal :=
  let c := s.cage portB
  if c.present && s.supply.mainOn then
    let s1 := s.setCage portB { c with cmis := some cmis }
    if c.accepted then .next (if cmis.fault then s1.refusePlugIn portB 5 else s1)
    else if c.refuse == 0 then .next (s1.judgePlugIn portB) else .next s1
  else .next s

/-- A write to a port's format: its links go down and train again at the new format (R101, R105). -/
def State.retrainPort (s : State) (portB : Bool) (fmt : Nat) : State :=
  let s1 := (portLinks portB).foldl (fun t l =>
    (t.takeDown l 0).updLink l (fun k => { k with attempt := none, failed := 0 })) s
  let s2 := if portB then { s1 with ports := { s1.ports with formatB := fmt } } else { s1 with ports := { s1.ports with formatA := fmt } }
  let c := s2.cage portB
  let s3 := if isB8 || !c.present then s2
    else if fmt == 0 then s2.setCage portB { c with accepted := false, lowPower := true }
    else (s2.setCage portB { c with accepted := false, refuse := 0, since := s2.clock }).judgePlugIn portB
  if isB8 then s3.startAttempts portB else s3

end Sys2Proof.Machine
end

