-- ==== Sys2Proof/Machine/Store.lean ====
section
/-! DEFINITION. The store: capacity of an owner (R306), allocation of stripe groups and addresses (R292, R295, R296),
records (R294), the directory (R233–R239), its logs (R259), and relocation (R308). -/

namespace Sys2Proof.Machine

/-! ### Geometry and capacity (R290–R293, R306) -/

/-- Data bytes of a TLC group and of an SLC group (R292). -/
def tlcBytes : Nat := 754974720
def slcBytes : Nat := 251658240

/-- Slots of a group (R292). -/
def groupSlots (slc : Bool) : Nat := if slc then 15360 else 46080

/-- Die sets of one parity in a mask (R291). -/
def setsOf (held : BitVec 32) (odd : Bool) : List Nat :=
  (List.range 32).filter (fun s => held.getLsbD s && (s % 2 == 1) == odd)

/-- The number of die-set pairs a mask can form (R292). -/
def pairCount (held : BitVec 32) : Nat := min (setsOf held false).length (setsOf held true).length

/-- The sets an owner may open groups on: those it holds and that are not being emptied for another owner (R327). -/
def State.usable (s : State) (o : Nat) : BitVec 32 :=
  (s.owner o).held &&& ~~~(s.owners.foldl (fun m w => m ||| w.moving) 0)

/-- The SLC quota of an owner in bytes: 8 GiB for each die set it holds (R299). -/
def slcQuota (held : BitVec 32) : Nat := 8589934592 * ((setsOf held false).length + (setsOf held true).length)

/-- D_o (R306). -/
def State.dataCapacity (s : State) (o : Nat) : Nat :=
  10923 * pairCount (s.owner o).held * tlcBytes - 3 * slcQuota (s.owner o).held

/-- User capacity of a set of dies (R306): 6.25 TB for each pair. -/
def userCapacity (held : BitVec 32) : Nat := 6250000000000 * pairCount held

/-- On-flash length of a record (R294): header, key, value, tag, padded to 512 bytes. -/
def recordLength (keyLen valLen : Nat) (sealed : Bool) : Nat :=
  512 * ceilDiv (64 + keyLen + valLen + (if sealed then 16 else 0)) 512

/-- On-flash length of a record. -/
def Rec.length (r : Rec) : Nat := recordLength r.key.length r.valLen r.sealed.isSome

/-- The record at a location: 0 is no location. -/
def State.rec? (s : State) (loc : Nat) : Option Rec :=
  if loc == 0 then none else s.store.recs.find? (·.loc == loc)

/-- Locations of the records of a match: those of its segments, each once, or its own. -/
def Match.locs (m : Match) : List Nat :=
  match m.segs with
  | none => [m.loc]
  | some ss => (ss.map (·.loc)).eraseDups

/-- The mapped matches of a key, newest first. -/
def Entry.all (e : Entry) : List Match := e.newest :: e.older

/-- Locations of a key's mapped records. -/
def Entry.locs (e : Entry) : List Nat := (e.all.flatMap Match.locs).eraseDups

/-- Does the directory map a record at the location? -/
def State.isMapped (s : State) (loc : Nat) : Bool := loc != 0 && s.store.entries.any (fun e => e.locs.contains loc)

/-- Is a record the mapped copy: it is the record found at a mapped location. -/
def State.mappedRec (s : State) (r : Rec) : Bool := s.isMapped r.loc

/-- The owner of a keyspace; the commons for one that is gone. -/
def State.ksOwner (s : State) (k : Nat) : Nat :=
  match s.keyspace? k with
  | some x => x.fence
  | none => 0

/-- Stored bytes of an owner (R306): on-flash length of every mapped record of its keyspaces. -/
def State.storedBytes (s : State) (o : Nat) : Nat :=
  ((s.store.entries.filter (fun e => s.ksOwner e.keyspace == o)).map (fun e =>
    (e.locs.map (fun l => ((s.rec? l).map Rec.length).getD 0)).sum)).sum

/-- Growth and space reserved by an owner's writes in flight (R306). -/
def State.inFlight (s : State) (o : Nat) : List Ctx :=
  s.net.ctxs.filter (fun x => x.reserved != 0 && !x.committed && s.ksOwner x.keyspace == o)

/-- F_o (R306): erased TLC-mode capacity and unwritten slots of open groups, less what writes in flight have reserved. -/
def State.freeSpace (s : State) (o : Nat) : Nat :=
  let gs := s.store.groups.filter (·.owner == o)
  let unwritten := ((gs.filter (·.isOpen)).map (fun g => 16384 * (groupSlots g.slc - g.written))).sum
  (10923 * pairCount (s.usable o) - gs.length) * tlcBytes + unwritten - ((s.inFlight o).map (·.reserved)).sum

/-- SLC occupancy of an owner in percent of its quota (R301). -/
def State.slcPct (s : State) (o : Nat) : Nat :=
  let n := (s.store.groups.filter (fun g => g.owner == o && g.slc)).length
  let q := slcQuota (s.owner o).held
  if q == 0 then 100 else 100 * (n * slcBytes) / q

/-- The group of a number. -/
def State.group? (s : State) (n : Nat) : Option Group := s.store.groups.find? (·.num == n)

/-- A group changed. -/
def State.updGroup (s : State) (n : Nat) (f : Group → Group) : State :=
  { s with store := { s.store with groups := upd (·.num == n) f s.store.groups } }

/-! ### Opening groups and placing records -/

/-- The number of a group: its even set and die block name it. Log entry 9. -/
def groupNumber (even blk : Nat) : Nat := even / 2 * 16384 + blk

/-- The pairs of an owner's sets at die block `b`, in rotation (R292). -/
def pairsAt (held : BitVec 32) (b : Nat) : List (Nat × Nat) :=
  let e := setsOf held false
  let o := setsOf held true
  if e.length ≤ o.length then (List.range e.length).map (fun i => (e.getD i 0, o.getD ((i + b) % o.length) 0))
  else (List.range o.length).map (fun i => (e.getD ((i + b) % e.length) 0, o.getD i 0))

/-- Erases of a die block of a set, in thirds of a cycle (R312). -/
def State.wearOf (s : State) (set blk : Nat) : Nat :=
  ((s.store.wear.find? (fun w => w.1 == (set, blk))).map (·.2)).getD 0

/-- Is a pair's block erased and unused? -/
def State.blockFree (s : State) (p : Nat × Nat) (b : Nat) : Bool :=
  !(s.store.groups.any (fun g => g.blk == b && (g.sets.1 == p.1 || g.sets.2 == p.2)))

/-- The first free pair and block with at most `limit` erases on either side, from block `b` up. -/
def State.findBlock (s : State) (held : BitVec 32) (limit : Nat) : Nat → Nat → Option ((Nat × Nat) × Nat)
  | 0, _ => none
  | fuel + 1, b =>
    match (pairsAt held b).find? (fun p => s.blockFree p b && s.wearOf p.1 b ≤ limit && s.wearOf p.2 b ≤ limit) with
    | some p => some (p, b)
    | none => s.findBlock held limit fuel (b + 1)

/-- Inserts a number into a rising list, once. -/
def insertNat (n : Nat) : List Nat → List Nat
  | [] => [n]
  | m :: ms => if n < m then n :: m :: ms else if n == m then m :: ms else m :: insertNat n ms

/-- An owner's erased block with the lowest count (R312): an unworn one first, else by rising count. -/
def State.lowestBlock (s : State) (held : BitVec 32) : Option ((Nat × Nat) × Nat) :=
  let counts := 0 :: (s.store.wear.map (·.2)).foldr insertNat []
  counts.findSome? (fun l => s.findBlock held l 10923 0)

/-- Address ranges in use in coarse space (extents) or fine space (fine units): those of groups and of records. -/
def State.usedRanges (s : State) (fine : Bool) : List (Nat × Nat) :=
  ((s.store.groups.filter (·.fine == fine)).map (fun g =>
      (g.base, g.base + groupSlots g.slc * (if fine then 4 else 1) / (if fine then 1 else 16))))
    ++ ((s.store.recs.filter (fun r => r.loc != 0 && (2 ^ 38 ≤ r.loc) == fine)).map (fun r =>
      if fine then (r.loc - 2 ^ 38, r.loc - 2 ^ 38 + ceilDiv r.length 4096)
      else (r.loc / 512, (r.loc + r.length / 512 - 1) / 512 + 1)))

/-- The first range of `n` free addresses from `b` on, wrapping below `limit`. -/
def freeRange (used : List (Nat × Nat)) (n limit : Nat) : Nat → Nat → Nat
  | 0, b => b
  | fuel + 1, b =>
    let b' := if limit < b + n then 1 else b
    match used.find? (fun r => r.1 < b' + n && b' < r.2) with
    | some r => freeRange used n limit fuel r.2
    | none => b'

/-- Closes a group: it takes no further slots. -/
def State.closeGroup (s : State) (n : Nat) : State :=
  s.updGroup n (fun g => { g with isOpen := false, closedAt := s.clock, parity := false })

/-- Is a group the open one of a stream? -/
def Group.isStream (g : Group) (o : Nat) (slc fine gc : Bool) : Bool :=
  g.owner == o && g.isOpen && g.slc == slc && g.fine == fine && g.gcOwn == gc

/-- Opens a group for a stream, closing the stream's earlier one; none where no block is erased, or where the SLC quota is
full (R299, R301). -/
def State.openGroup (s : State) (o : Nat) (slc fine gc : Bool) : Option State :=
  let n := (s.store.groups.filter (fun g => g.owner == o && g.slc)).length
  if slc && slcQuota (s.owner o).held < (n + 1) * slcBytes then none
  else match s.lowestBlock (s.usable o) with
    | none => none
    | some (p, b) =>
      let s1 := (s.store.groups.filter (·.isStream o slc fine gc)).foldl (fun t g => t.closeGroup g.num) s
      let size := if fine then groupSlots slc * 4 else groupSlots slc / 16
      let used := s1.usedRanges fine
      let base := freeRange used size (if fine then 2 ^ 30 else 2 ^ 29) (2 * used.length + 2)
        (if fine then s1.store.fineNext else s1.store.extents)
      let g : Group := { num := groupNumber p.1 b, owner := o, sets := p, slc := slc, fine := fine, gcOwn := gc, isOpen := true,
                         closedAt := 0, written := 0, parityAt := s.clock, parity := false, blk := b, base := base,
                         collecting := false, secure := none, refresh := none, wear := none, patrolled := [] }
      some { s1 with store := { s1.store with groups := s1.store.groups ++ [g], mapLog := s1.store.mapLog + 1
                                              fineNext := if fine then base + size else s1.store.fineNext
                                              extents := if fine then s1.store.extents else base + size } }

/-- The location of slot `k` of a group (R235, R295, R296). -/
def Group.locOf (g : Group) (k : Nat) : Nat :=
  if g.fine then 2 ^ 38 + g.base + 4 * k else 512 * g.base + 32 * k

/-- Takes slots for a record of `len` bytes in a stream: the new state, the group, the slot and the location. Each record
begins on a page of its own and lies within one group (R299; log entry 9). -/
def State.takeSlots (s : State) (o : Nat) (slc fine gc : Bool) (len : Nat) : Option (State × Group × Nat × Nat) :=
  let pages := ceilDiv len 16384
  let fit (t : State) := t.store.groups.find? (fun g => g.isStream o slc fine gc && g.written + pages ≤ groupSlots slc)
  let t? := match fit s with
    | some _ => some s
    | none => s.openGroup o slc fine gc
  match t? with
  | none => none
  | some t =>
    match fit t with
    | none => none
    | some g =>
      let t1 := t.updGroup g.num (fun g => { g with written := g.written + pages, parityAt := t.clock, parity := (g.written + pages) % 30 != 0 })
      some ({ t1 with counts := { t1.counts with nandBytes := t1.counts.nandBytes + 16384 * pages },
                      store := { t1.store with mapLog := t1.store.mapLog + 1 } }, g, g.written, g.locOf g.written)

/-! ### Key heat (R296) -/

/-- The heat counter of a fingerprint (R296): FP[63:34]. -/
def heatIndex (fp : BitVec 128) : Nat := bits fp.toNat 63 34

/-- Adds a write to a key's heat counter. -/
def State.heatUp (s : State) (fp : BitVec 128) : State :=
  let i := heatIndex fp
  { s with store := { s.store with heat := setKey s.store.heat i (getKey s.store.heat i 0 + 1) } }

/-- Does a record of that length go to fine space (R296)? -/
def State.goesFine (s : State) (fp : BitVec 128) (len : Nat) : Bool :=
  s.var 0x0609 ≤ getKey s.store.heat (heatIndex fp) 0 && len ≤ 1024 * s.var 0x060B

/-! ### The directory (R230, R234, R236) -/

/-- The first candidate bucket (R230). -/
def bucket1 (fp : BitVec 128) : Nat := bits fp.toNat 63 35

/-- The second candidate bucket (R230). -/
def bucket2 (fp : BitVec 128) : Nat :=
  let h := bits fp.toNat 92 64
  if h == bucket1 fp then h ^^^ 1 else h

/-- The home slice of a key (R230). -/
def homeSlice (fp : BitVec 128) : Nat := bits fp.toNat 5 2

/-- The entry of a key. -/
def State.entry? (s : State) (ks : Nat) (fp : BitVec 128) (key : Bytes) : Option Entry :=
  s.store.entries.find? (fun e => e.keyspace == ks && e.fp == fp && e.key == key)

/-- Is a different key of the keyspace mapped under the same fingerprint (R231)? -/
def State.collides (s : State) (ks : Nat) (fp : BitVec 128) (key : Bytes) : Bool :=
  s.store.entries.any (fun e => e.keyspace == ks && e.fp == fp && e.key != key)

/-- Slots of a bucket in use. -/
def slotsUsed (es : List Entry) (b : Nat) : Nat :=
  ((es.filter (·.place == .bucket b)).map (fun e => 1 + e.older.length)).sum

/-- The other candidate bucket of an entry. -/
def otherBucket (e : Entry) (b : Nat) : Nat := if bucket1 e.fp == b then bucket2 e.fp else bucket1 e.fp

/-- Frees a slot of bucket `b` by displacing an entry into its other candidate bucket, and so on, in at most `fuel` steps
(R236). The victim is the module's choice (log entry 5). -/
def displace : Nat → Nat → Nat → List Entry → Option (List Entry)
  | 0, _, _, _ => none
  | fuel + 1, draw, b, es =>
    if slotsUsed es b < 17 then some es
    else
      let cands := es.filter (fun e => e.place == .bucket b && e.older.isEmpty)
      match cands[Config.choice draw % max 1 cands.length]? with
      | none => none
      | some v =>
        let other := otherBucket v b
        match displace fuel (draw + 1) other es with
        | none => none
        | some es1 =>
          some (upd (fun e => e.keyspace == v.keyspace && e.fp == v.fp && e.key == v.key) (fun e => { e with place := .bucket other }) es1)

/-- Where a key that gains its first entry goes (R236), with the other entries as they then stand; none where the stash is
full too. -/
def State.placeFor (s : State) (fp : BitVec 128) : Option (Place × List Entry) :=
  let es := s.store.entries
  let h1 := bucket1 fp
  let h2 := bucket2 fp
  if slotsUsed es h1 < 17 then some (.bucket h1, es)
  else if slotsUsed es h2 < 17 then some (.bucket h2, es)
  else match displace 17 s.rnd h1 es with
    | some es1 => some (.bucket h1, es1)
    | none => if (es.filter (·.place == .stash)).length < 65536 then some (.stash, es) else none

/-- The checkpoint chunk of an entry (R261): 8 192 buckets; the stash lies in a chunk of its own. -/
def Entry.chunk (e : Entry) : Nat :=
  match e.place with
  | .bucket b => b / 8192
  | .stash => 65536

/-- The free page number for a new segment table: kind 2 (R235). Tables are numbered 386 pages apart, the most that one
takes (R237). -/
def State.tableLoc (s : State) : Nat :=
  let used := (s.store.entries.flatMap Entry.all).filterMap (fun m => if m.segs.isSome then some m.loc else none)
  let n := ((List.range (used.length + 1)).find? (fun n => !used.contains (2 ^ 39 + 386 * n))).getD 0
  2 ^ 39 + 386 * n

/-! ### Lengths and stamps of a match (R161, R162) -/

/-- Total length of a match: the value length, or the end of the last segment. -/
def State.matchLength (s : State) (m : Match) : Nat :=
  match m.segs with
  | some ss => (ss.map (fun g => g.offset + g.length)).foldl max 0
  | none => if m.tomb then 0 else ((s.rec? m.loc).map (·.valLen)).getD 0

/-- The stamp under the HEAD rule of R162. -/
def Match.headStamp (m : Match) : Nat :=
  match m.segs with
  | some ss => (ss.map (·.stamp)).foldl max 0
  | none => m.stamp

/-- Keys with a committed value of a keyspace (R158). -/
def State.committed (s : State) (ks : Nat) : List Entry :=
  s.store.entries.filter (fun e => e.keyspace == ks && !e.newest.tomb)

/-- The pieces that supply the object's bytes [o, o + n): location, first byte within the record, count (R237). -/
def segPieces (ss : List Seg) (o n : Nat) : List (Nat × Nat × Nat) :=
  ss.filterMap (fun g =>
    let a := max o g.offset
    let b := min (o + n) (g.offset + g.length)
    if a < b then some (g.loc, g.skip + (a - g.offset), b - a) else none)

/-- The stamps of the segments that supply bytes of [o, o + n). -/
def segStamps (ss : List Seg) (o n : Nat) : List Nat :=
  (ss.filter (fun g => max o g.offset < min (o + n) (g.offset + g.length))).map (·.stamp)

/-- The segment table after a record of L bytes is written at offset O (R166): segments within the range go, overlapping
ones are cut back, the new one is entered in offset order. -/
def segInsert (ss : List Seg) (g : Seg) : List Seg :=
  let o := g.offset
  let e := g.offset + g.length
  let cut := ss.flatMap (fun x =>
    let xe := x.offset + x.length
    if xe ≤ o || e ≤ x.offset then [x]
    else
      (if x.offset < o then [{ x with length := o - x.offset }] else [])
        ++ (if e < xe then [{ x with offset := e, length := xe - e, skip := x.skip + (e - x.offset) }] else []))
  cut.filter (fun x => x.offset < o) ++ [g] ++ cut.filter (fun x => o ≤ x.offset)

/-- The segments of a match that an APPEND_SEGMENT extends: a PUT value becomes the first segment (R166). -/
def State.segsOf (s : State) (m : Match) : List Seg :=
  match m.segs with
  | some ss => ss
  | none =>
    let n := s.matchLength m
    if m.tomb || n == 0 then []
    else [{ offset := 0, length := n, skip := 0, loc := m.loc, stamp := m.stamp,
            digest := ((s.rec? m.loc).map (·.digest.isSome)).getD false }]

/-- PREV of a record written over a match (R238): the location of the value or tombstone; of the segment that holds byte
`o` of a segmented object. -/
def Match.prevAt (m : Match) (o : Nat) : Nat :=
  match m.segs with
  | none => m.loc
  | some ss => ((ss.find? (fun g => g.offset ≤ o && o < g.offset + g.length)).map (·.loc)).getD 0

/-! ### Version chains (R238, R239) -/

/-- Does a record hold object offset `o` (R163)? -/
def Rec.holds (r : Rec) (o : Nat) : Bool :=
  if r.kind == 3 then true else if r.kind == 1 then o ≤ r.valLen
  else if r.kind == 2 then r.segOff ≤ o && o < r.segOff + r.valLen else false

/-- The record of key `k` at a PREV location, or none where a chain ends (R239). -/
def State.follow (s : State) (ks : Nat) (fp : BitVec 128) (key : Bytes) (loc : Nat) : Option Rec :=
  match s.rec? loc with
  | some r => if r.keyspace == ks && r.fp == fp && r.key == key then some r else none
  | none => none

/-- The first record of a chain below the bound that holds `o`. -/
def State.chainFind (s : State) (ks : Nat) (fp : BitVec 128) (key : Bytes) (o b : Nat) : Nat → Nat → Option Rec
  | 0, _ => none
  | fuel + 1, loc =>
    match s.follow ks fp key loc with
    | none => none
    | some r => if r.stamp < b && r.holds o then some r else s.chainFind ks fp key o b fuel r.prev

/-- Every record of a key's version chains: mapped and superseded. -/
def State.chainAll (s : State) (ks : Nat) (fp : BitVec 128) (key : Bytes) : Nat → Nat → List Rec
  | 0, _ => []
  | fuel + 1, loc =>
    match s.follow ks fp key loc with
    | none => []
    | some r => r :: s.chainAll ks fp key fuel r.prev

/-- VERSIONS_NEXT's choice (R239): the candidate with the highest stamp. -/
def State.versionsNext (s : State) (e : Entry) (o b : Nat) : Option Rec :=
  (e.locs.filterMap (s.chainFind e.keyspace e.fp e.key o b (s.store.recs.length + 1))).foldl (fun a r =>
    match a with
    | none => some r
    | some v => if v.stamp < r.stamp then some r else some v) none

/-! ### The directory logs (R259) -/

/-- The log owner of a fingerprint (R259): true is island 230. -/
def logSide (fp : BitVec 128) : Bool := fp.getLsbD 6

/-- Bytes of a log record (R259). -/
def LogRec.size (r : LogRec) : Nat := if r.kind == 2 || r.kind == 7 then 64 else 32

/-- The buffer of an owner is programmed (R260). -/
def LogOwner.program (o : LogOwner) : LogOwner := { o with medium := o.medium ++ o.buffer, buffer := [] }

/-- Writes a record to its owner's buffer and the mirror, with the next LSN (R259); a full page of 16 KiB is programmed (R260). -/
def State.dirLog (s : State) (r : LogRec) : State :=
  let add (o : LogOwner) : LogOwner :=
    let o1 : LogOwner := { o with nextLsn := o.nextLsn + 1, buffer := o.buffer ++ [{ r with lsn := o.nextLsn }], lastAt := s.clock }
    if 16384 ≤ (o1.buffer.map LogRec.size).sum then o1.program else o1
  if logSide r.fp then { s with store := { s.store with logB := add s.store.logB } }
  else { s with store := { s.store with logA := add s.store.logA } }

/-- Marks the chunk of an entry dirty (R261). -/
def State.dirtyChunk (s : State) (e : Entry) : State :=
  if s.store.dirty.any (·.1 == e.chunk) then s
  else
    let lsn := if logSide e.fp then s.store.logB.nextLsn else s.store.logA.nextLsn
    { s with store := { s.store with dirty := s.store.dirty ++ [(e.chunk, lsn)] } }

/-- Would dirtying that chunk pass the bound of R261 (1.25 MiB a chunk)? -/
def State.dirtyFull (s : State) (chunk : Nat) : Bool :=
  !(s.store.dirty.any (·.1 == chunk)) && 4 * s.var 0x0408 < 5 * (s.store.dirty.length + 1)

/-- The stale-copy entries of records that a commit unmaps (R316). -/
def State.markStale (s : State) (rs : List Rec) : State :=
  { s with store := { s.store with
    stale := s.store.stale ++ rs.map (fun r => (BitVec.ofNat 32 (bits r.fp.toNat 127 96), r.group, getKey s.store.gens r.group 0)) } }

/-- An entry stored in place of the key's earlier one, or added. -/
def State.setEntry (s : State) (e : Entry) : State :=
  let same (x : Entry) : Bool := x.keyspace == e.keyspace && x.fp == e.fp && x.key == e.key
  let es := if s.store.entries.any same then upd same (fun _ => e) s.store.entries else s.store.entries ++ [e]
  ({ s with store := { s.store with entries := es } } : State).dirtyChunk e

/-- An entry removed. -/
def State.removeEntry (s : State) (e : Entry) : State :=
  let same (x : Entry) : Bool := x.keyspace == e.keyspace && x.fp == e.fp && x.key == e.key
  ({ s with store := { s.store with entries := s.store.entries.filter (fun x => !same x) } } : State).dirtyChunk e

/-! ### The value cache (R257, R258) -/

/-- Places a record in the value cache, dropping the oldest entries past 4 194 304 cells. -/
def State.cachePut (s : State) (r : Rec) : State :=
  if r.length ≤ 1024 * s.var 0x0405 && !s.store.cache.contains r.loc && r.loc != 0 then
    let all := s.store.cache ++ [r.loc]
    { s with store := { s.store with cache := all.drop (all.length - 4194304) } }
  else s

/-- Is a read's or a commit's record placed in the cache (R258)? -/
def State.cacheAdmits (s : State) (fp : BitVec 128) (read : Bool) : Bool :=
  match s.var 0x0406 with
  | 0 => false
  | 1 => s.qHolds fp
  | _ => read || s.qHolds fp

/-- Drops cached records (R258, R317). -/
def State.cacheDrop (s : State) (p : Nat → Bool) : State :=
  { s with store := { s.store with cache := s.store.cache.filter (fun l => !p l) } }

/-! ### Relocation (R208, R308) -/

/-- Extents that a coarse record touches. -/
def Rec.extents (r : Rec) : List Nat :=
  let a := r.loc / 512
  (List.range ((r.loc + r.length / 512 - 1) / 512 + 1 - a)).map (· + a)

/-- 512-byte units of an extent that mapped records occupy (VALID_UNITS, R295). -/
def State.validUnits (s : State) (x : Nat) : Nat :=
  ((s.store.recs.filter (fun r => r.loc < 2 ^ 38 && s.mappedRec r)).map (fun r =>
    min (512 * (x + 1)) (r.loc + r.length / 512) - max (512 * x) r.loc)).sum

/-- Does a mapped record keep its logical address when it moves: in fine space, or in extents at least 75 % valid (R308)? -/
def State.keepsAddress (s : State) (r : Rec) : Bool :=
  2 ^ 38 ≤ r.loc || r.extents.all (fun x => 384 ≤ s.validUnits x)

/-- Replaces a mapped location in the directory. -/
def State.remapLoc (s : State) (old new : Nat) : State :=
  let m (x : Match) : Match := match x.segs with
    | none => if x.loc == old then { x with loc := new } else x
    | some ss => { x with segs := some (ss.map (fun g => if g.loc == old then { g with loc := new } else g)) }
  { s with store := { s.store with entries := s.store.entries.map (fun e => { e with newest := m e.newest, older := e.older.map m }) } }

/-- A copy left behind on flash: no location leads to it, unless it keeps its own address. -/
def State.leaveCopy (s : State) (r : Rec) (keep : Bool) : List Rec :=
  s.store.recs.map (fun x =>
    if x == r then (if keep then { x with loc := 0 } else x)
    else if keep && r.loc < 2 ^ 38 && x.loc != 0 && x.loc < 2 ^ 38 && !s.mappedRec x && x.extents.any r.extents.contains then { x with loc := 0 }
    else x)

/-- Moves the mapped record at a location into the owner's TLC groups, keeping its stamp; `seal` gives the record's new
contents where it is resealed (R308, R358). The state is unchanged where the record is no longer mapped (R225) or no slot
is free. A fine record whose heat has fallen goes to coarse space (R296). -/
def State.relocate (s : State) (loc : Nat) (reseal : Rec → Rec) : State :=
  match s.rec? loc with
  | none => s
  | some r =>
    if !s.isMapped loc then s
    else
      let cold := 2 ^ 38 ≤ loc && 2 * getKey s.store.heat (heatIndex r.fp) 0 < s.var 0x0609
      let fine := 2 ^ 38 ≤ loc && !cold
      match s.takeSlots (s.ksOwner r.keyspace) false fine true r.length with
      | none => s
      | some (s1, g, slot, fresh) =>
        let keep := !cold && s.keepsAddress r
        let new := if keep then loc else fresh
        let r' := reseal { r with loc := new, group := g.num, slot := slot }
        let s2 := ({ s1 with store := { s1.store with recs := s1.leaveCopy r keep ++ [r'],
                                                      mapLog := s1.store.mapLog + 1 } } : State).markStale [r]
        let s3 := s2.cacheDrop (· == loc)
        if keep then s3
        else
          let s4 := s3.remapLoc loc new
          match s4.store.entries.find? (fun e => e.locs.contains new) with
          | none => s4
          | some e =>
            let seg := ((e.all.filterMap (·.segs)).flatten.find? (·.loc == new))
            let s5 := s4.dirtyChunk e
            s5.dirLog { kind := if seg.isSome then 7 else 6, keyspace := r.keyspace, pin := e.pinned, fp := r.fp, key := r.key,
                        loc := new, stamp := r.stamp, seg := seg, old := loc, extra := false, lsn := 0 }

/-! ### Reading media (R303, R304, R321) -/

/-- The physical place of a slot: channel, logical position, page (R292). -/
def Group.pageOf (g : Group) (slot : Nat) : Nat × Nat × Nat :=
  let st := slot / 30
  let p := 2 * (st + g.num) % 32
  let data := (List.range 32).filter (fun c => c != p && c != (p + 1) % 32)
  let c := data.getD (slot % 30) 0
  (c, (if c < 16 then g.sets.1 else g.sets.2) / 2, st)

/-- The MEDIA_ERROR event of a record (R304, R321). -/
def State.mediaErrorEvent (s : State) (r : Rec) : State :=
  let p := match s.group? r.group with
    | some g => (g.pageOf r.slot, g.blk)
    | none => ((0, 0, 0), 0)
  ({ s with counts := { s.counts with mediaErrors := s.counts.mediaErrors + 1 } } : State).logEvent 0x0603
    (pack [(12, r.keyspace), (12, 0), (128, r.fp.toNat), (8, p.1.1), (8, p.1.2.1), (16, p.2), (11, p.1.2.2), (61, 0)])

/-- The dies of a group, as channel and logical position, that are retired and not rebuilt (R304). -/
def State.missingDies (s : State) (g : Group) : List (Nat × Nat) :=
  (s.spares.deadDies ++ s.spares.rebuilding.map (·.1)).filter (fun d =>
    d.2 == (if d.1 < 16 then g.sets.1 else g.sets.2) / 2)

/-- Is an unreadable page of a record one of three or more missing pages of its stripe (R304)? It is the page on a retired die, where
the record has one, or one more than those of the retired dies. -/
def State.stripeLost (s : State) (g : Group) (r : Rec) : Bool :=
  let m := s.missingDies g
  let pages := (List.range (ceilDiv r.length 16384)).map (fun i => g.pageOf (r.slot + i))
  3 ≤ m.length + b1 (!pages.any (fun p => m.contains (p.1, p.2.1)))

/-- Marks a group refresh-pending, the earliest mark kept (R302, R303, R311). -/
def State.markRefresh (s : State) (n : Nat) : State :=
  s.updGroup n (fun g => { g with refresh := some (g.refresh.getD s.clock) })

/-- What a read of a record comes to (R303, R304): whether it yields the bytes, and the state with its counts and marks.
Step 11 rebuilds from the stripe unless three or more of its pages are missing. -/
def State.readRec (s : State) (r : Rec) (o : ReadOutcome) : Bool × State :=
  let count (t : State) (f : Counts → Counts) : State := { t with counts := f t.counts }
  let lost : Bool := match s.group? r.group with
    | some g => s.stripeLost g r
    | none => true
  if r.poison then (false, s.mediaErrorEvent r)
  else if s.store.cache.contains r.loc then (true, s)
  else match o with
    | .undecodable =>
      let s1 := s.markRefresh r.group
      if lost then (false, s1.mediaErrorEvent { r with poison := true }) else (true, count s1 (fun c => { c with rebuiltCw := c.rebuiltCw + 1 }))
    | .step n =>
      if n ≤ 1 then (true, s)
      else if n ≤ 9 then (true, count s (fun c => { c with retryCw := c.retryCw + 1 }))
      else (true, count (s.markRefresh r.group) (fun c => { c with softCw := c.softCw + 1 }))

/-- Poisons the record at a location: it stays unreadable until its key is written again (R304). -/
def State.poisonRec (s : State) (loc : Nat) : State :=
  { s with store := { s.store with recs := upd (fun r => r.loc == loc && loc != 0) (fun r => { r with poison := true }) s.store.recs } }

end Sys2Proof.Machine
end

