-- ==== Sys2Proof/Machine/Modes.lean ====
section
/-! DEFINITION. Modes (R43–R48), freezing (R61–R63), the settings block (R54), spares (R57–R59) and retirement of die
blocks (R313). -/

namespace Sys2Proof.Machine

/-! ### The settings block (R53, R54) -/

/-- The contents the settings block would have now: a slot that is LOADED is stored as RECORDED, without its key (R349). -/
def State.settings (s : State) : Settings :=
  let slot (k : KeySlot) : KeySlot := if k.st == .empty then k else { k with st := .recorded, key := 0 }
  { format := (if s.fw.active == 0 then s.fw.slot0 else s.fw.slot1).settings, vars := s.vars, recorded := s.modes.recorded,
    freezeCauses := s.modes.freezeCauses, frozenFrom := s.modes.frozenFrom, sanitising := s.modes.sanitising,
    resetConfig := s.modes.resetConfig, keyspaces := s.store.keyspaces, owners := s.owners, map := s.relay.map,
    pages := s.cipher.pages.map (fun p => { p with cur := slot p.cur, prev := slot p.prev }), lastTestAt := s.holdup.lastTestAt }

/-- Writes the settings block, one NOR copy after the other, with the next sequence numbers (R54). -/
def State.saveSettings (s : State) : State :=
  let b := s.settings
  let q := max s.nor.seqA s.nor.seqB
  { s with nor := { s.nor with seqA := q + 1, blockA := some b, seqB := q + 1, blockB := some b } }

/-! ### Mode changes -/

/-- The name of a mode on the console. Log entry 19. -/
def Mode.name : Mode → String
  | .dormant => "Dormant"
  | .filling => "Filling"
  | .serving => "Serving"
  | .shadowing => "Shadowing"
  | .frozen => "Frozen"
  | .sanitising => "Sanitising"

/-- Ends commands with a status, oldest context first. -/
def State.endAll (s : State) (p : Ctx → Bool) (st : Status) : State :=
  (s.net.ctxs.filter p).foldl (fun t x => t.endStatus x.id st) s

/-- The handle of a sieve (R266). -/
def Sieve.handle (v : Sieve) : Nat := v.gen * 128 + v.slot

/-- Ends sieves: their engines stop, their batches go, their slots are free with the next generation (R266, R282). A reason
above 0 is recorded (R288). -/
def State.closeSieves (s : State) (p : Sieve → Bool) (reason : Nat) : State :=
  let gone := s.sieves.list.filter p
  let gens := gone.foldl (fun g v => setKey g v.slot ((v.gen + 1) % 2 ^ 25)) s.sieves.gens
  let s1 := { s with sieves := { s.sieves with list := s.sieves.list.filter (fun v => !p v), gens := gens } }
  if reason == 0 then s1
  else gone.foldl (fun t v => t.logEvent 0x0501 (pack [(32, v.handle), (12, v.keyspace), (4, 0), (8, reason), (64, v.visited), (136, 0)])) s1

/-- Commands in flight at a mode change (R46): what is past its commit point stands. -/
def State.endForMode (s : State) (new : Mode) : State :=
  let mutating (x : Ctx) : Bool := !x.committed && isMutating x.opcode
  match new with
  | .frozen | .shadowing => s.endAll mutating .readOnly
  | .sanitising =>
    let s1 := s.endAll (fun x => mutating x || (!x.committed && (isKeyRead x.opcode || x.opcode == 0x08 || isSieve x.opcode))) .aborted
    s1.closeSieves (fun _ => true) 4
  | _ => s

/-- The MODE_CHANGE notice's PARAM_A (R45). -/
def modeChangeWord (old new : Mode) (causes : BitVec 8) : BitVec 64 :=
  BitVec.ofNat 64 (old.code * 256 + new.code + causes.toNat * 65536)

/-- The module enters a mode: commands in flight end as R46 gives, MODE_CHANGE goes to every open session (R45), the alert
and the console line are given (R458, R465). Outside Serving the power state is P0 (R188). -/
def State.changeMode (s : State) (new : Mode) : State :=
  let old := s.modes.mode
  if old == new then s
  else
    let s1 := s.endForMode new
    let s2 := { s1 with modes := { s1.modes with mode := new },
                        power := if new == Mode.serving then s1.power else { s1.power with preparing := false, exiting := none } }
    let s2 := if new != Mode.serving && s2.power.st != 0 then s2.shallower 0 else s2
    let s3 := s2.broadcast .modeChange 0 (modeChangeWord old new s2.modes.freezeCauses) 0 []
    (s3.alert .modeChange).console (ascii ("mode " ++ new.name))

/-- A freeze cause arises (R61, R62): it is recorded, and Serving or Shadowing becomes Frozen with its frozen-from mode
stored. -/
def State.freeze (s : State) (f : FreezeCause) : State :=
  let s1 := { s with modes := { s.modes with freezeCauses := s.modes.freezeCauses ||| f.word } }
  let s2 := if s1.modes.mode == .serving || s1.modes.mode == .shadowing then
      ({ s1 with modes := { s1.modes with frozenFrom := some s1.modes.mode } } : State).changeMode .frozen
    else s1
  s2.saveSettings

/-! ### Spares (R57–R59) -/

/-- The classes of R57 that have islands, in its row order from 1: the islands in service and the spares (R71). -/
def islandClasses : List (Nat × Nat × Nat × List Nat) :=
  [(1, 10, 25, [26, 27]), (2, 28, 35, [36]), (3, 37, 40, [41]), (4, 42, 57, [58]), (5, 59, 62, [63]),
   (6, 64, 127, [128, 129, 130, 131]), (7, 132, 135, [136]), (8, 137, 144, [145, 146]), (9, 147, 178, [179, 180])]

/-- The class of an island that is in a class with spares. -/
def classOf (island : Nat) : Option (Nat × Nat × Nat × List Nat) :=
  islandClasses.find? (fun c => (c.2.1 ≤ island && island ≤ c.2.2.1) || c.2.2.2.contains island)

/-- Unused spares of a class. After a spare rotation an island of the class' main range may be one of them (R442). -/
def State.sparesOf (s : State) (c : Nat × Nat × Nat × List Nat) : List Nat :=
  s.spares.unused.filter (fun i => (c.2.1 ≤ i && i ≤ c.2.2.1) || c.2.2.2.contains i)

/-- Spare dies left on a channel (R57). -/
def State.diesLeft (s : State) (channel : Nat) : Nat :=
  2 - (s.spares.dieMap.filter (fun d => d.1.1 == channel)).length

/-- Most reserve blocks used on one die. -/
def State.reserveWorst (s : State) : Nat := (s.spares.reserveUsed.map (·.2)).foldl max 0

/-- Most spare rows used on one DRAM channel. -/
def State.rowsWorst (s : State) : Nat := (s.spares.rowsUsed.map (·.2)).foldl max 0

/-- The number of classes at their watch level (R59): the nine island classes, dies, blocks, DRAM rows, the hold-up
section, the standby complex, and the trunks. -/
def State.spareClasses (s : State) : Nat :=
  (islandClasses.filter (fun c =>
      if s.var 0x0E04 == 1 then (s.sparesOf c).length < c.2.2.2.length else (s.sparesOf c).isEmpty)).length
    + b1 ((List.range 32).any (fun c => s.diesLeft c ≤ s.var 0x0E01))
    + b1 (100 * (280 - s.reserveWorst) ≤ s.var 0x0E02 * 280)
    + b1 (100 * (512 - s.rowsWorst) ≤ s.var 0x0E03 * 512)
    + b1 s.holdup.spareInUse + b1 s.spares.standbyLost + b1 (!s.spares.trunkSpares.isEmpty)

/-- SPARE_BROUGHT_IN (R58): class in bits [7:0], index in bits [31:16]; the alert of R458. -/
def State.spareNotice (s : State) (cls index : Nat) : State :=
  (s.broadcast .spareBroughtIn 0 (BitVec.ofNat 64 (cls + index * 65536)) 0 []).alert .spareBroughtIn

/-! ### Die blocks (R313) -/

/-- Retires a die block of a group (R302, R313): the die's next reserve block takes its number, the group is marked
refresh-pending, and BLOCK_RETIRED is recorded; an exhausted reserve freezes the module. -/
def State.retireBlock (s : State) (channel position : Nat) (g : Group) (cause : Nat) : State :=
  let used := ((s.spares.reserveUsed.find? (fun r => r.1 == (channel, position))).map (·.2)).getD 0
  let room := used < 280
  let sp := if room then
      { s.spares with reserveUsed := ((channel, position), used + 1) :: s.spares.reserveUsed.filter (fun r => r.1 != (channel, position)),
                      remap := ((channel, position, g.blk), 10923 + used) :: s.spares.remap.filter (fun r => r.1 != (channel, position, g.blk)) }
    else s.spares
  let s1 := { s with spares := sp, counts := { s.counts with blocksRetired := s.counts.blocksRetired + 1 } }
  let s2 := (s1.markRefresh g.num).logEvent 0x0601 (pack [(8, channel), (8, position), (16, g.blk), (8, cause), (216, 0)])
  if used + 1 < 280 then s2 else s2.freeze .spareBlock

end Sys2Proof.Machine
end

