-- ==== Sys2Proof/Machine/Cipher.lean ====
section
/-! DEFINITION. The cipher engine (R343–R370): key pages and use counts, sealing and opening of records, and the scheduling
of cipher jobs. -/

namespace Sys2Proof.Machine

/-- An EMPTY slot (R349). -/
def KeySlot.blank : KeySlot := { st := .empty, identity := 0, salt := 0, gen := 0, key := 0 }

/-- A page both of whose slots are EMPTY. -/
def KeyPage.blank (n : Nat) : KeyPage :=
  { n := n, cur := KeySlot.blank, prev := KeySlot.blank, taken := 0, reserved := 0, warnSent := false, exhSent := false, sweep := none }

/-- A key page. -/
def State.page (s : State) (n : Nat) : KeyPage := (s.cipher.pages.find? (·.n == n)).getD (KeyPage.blank n)

/-- A key page replaced. -/
def State.setPage (s : State) (p : KeyPage) : State :=
  { s with cipher := { s.cipher with pages := p :: s.cipher.pages.filter (fun q => q.n != p.n) } }

/-- Is a keyspace locked (R353)? -/
def State.locked (s : State) (k : Keyspace) : Bool :=
  k.encrypted && (let p := s.page k.keyPage
    p.cur.st != .loaded || p.prev.st == .recorded)

/-- Keyspaces locked now. -/
def State.lockedCount (s : State) : Nat := (s.store.keyspaces.filter s.locked).length

/-- The limit of a key's usage (R354). -/
def useLimit : Nat := 4294967296

/-- The usage of a page's current key (R354). -/
def KeyPage.usage (p : KeyPage) : Nat := p.taken + p.reserved

/-- A KEY_USAGE notice (R355): event 1 WARN, 2 EXHAUSTED, 3 SWEEP_DONE. -/
def State.keyUsage (s : State) (p : KeyPage) (event : Nat) : State :=
  s.broadcast .keyUsage 0 (BitVec.ofNat 64 (p.cur.gen * 2 ^ 32 + event * 256 + p.n)) (BitVec.ofNat 64 p.taken) []

/-- Sends the WARN and EXHAUSTED events a page has reached, once per generation (R355). -/
def State.keyEvents (s : State) (n : Nat) : State :=
  let p := s.page n
  let s1 := if !p.warnSent && s.var 0x0801 ≤ p.taken then (s.setPage { p with warnSent := true }).keyUsage p 1 else s
  let p1 := s1.page n
  if !p1.exhSent && useLimit ≤ p1.usage then (s1.setPage { p1 with exhSent := true }).keyUsage p1 2 else s1

/-- Reserves a use (check 8, R354). -/
def State.reserveUse (s : State) (n : Nat) : State :=
  let p := s.page n
  (s.setPage { p with reserved := p.reserved + 1 }).keyEvents n

/-- The slot that holds the key of a generation: current, or previous (R350, R359). -/
def KeyPage.slotOf (p : KeyPage) (gen : Nat) : Option KeySlot :=
  if p.cur.st != .empty && p.cur.gen == gen then some p.cur
  else if p.prev.st != .empty && p.prev.gen == gen then some p.prev else none

/-- The record header as it is authenticated (R294, R346). STAMP reads 0 there: it is given at the commit, after sealing
(log entry 7). -/
def Rec.aadHeader (r : Rec) : Bytes :=
  pack [(16, 0xA5C3), (8, 1), (4, r.kind), (12, r.keyspace), (5, 0), (1, b1 r.secure), (1, b1 r.sealed.isSome), (1, b1 r.digest.isSome),
    (16, r.key.length), (32, r.valLen), (32, r.segOff), (128, r.fp.toNat), (64, 0), (40, r.prev), (24, 0),
    (64, (r.digest.map (·.toNat)).getD 0), (64, (r.sealed.map (fun g => g.1 * 2 ^ 32 + g.2)).getD 0)]

/-- The bytes of a key. -/
def KeySlot.bytes (k : KeySlot) : Bytes := bytesOfNat 32 k.key.toNat

/-- Seals a record's plaintext under a slot (R346). -/
def Rec.seal (r : Rec) (k : KeySlot) (use : Nat) (plain : Bytes) : Rec :=
  let r1 := { r with sealed := some (k.gen, use) }
  let iv := recordIv k.salt k.gen use
  let c := gcmCrypt k.bytes iv plain
  { r1 with data := c, gcmTag := Sys2Proof.Machine.gcmTag k.bytes iv (r1.aadHeader ++ r1.key) c }

/-- Opens a record: its plaintext, or none where no loaded slot holds its generation or its tag fails (R359, R360). -/
def State.openRec (s : State) (r : Rec) : Option Bytes :=
  match r.sealed with
  | none => some r.data
  | some (gen, use) =>
    match (s.keyspace? r.keyspace).bind (fun k => (s.page k.keyPage).slotOf gen) with
    | none => none
    | some k =>
      if k.st != .loaded then none
      else
        let iv := recordIv k.salt gen use
        if gcmTag k.bytes iv (r.aadHeader ++ r.key) r.data == r.gcmTag then some (gcmCrypt k.bytes iv r.data) else none

/-- Zeroises all key material: every LOADED slot becomes RECORDED, and the KEK is erased (R349, R351, R364). -/
def State.eraseKeys (s : State) : State :=
  let slot (k : KeySlot) : KeySlot := if k.st == .loaded then { k with st := .recorded, key := 0 } else k
  { s with cipher := { s.cipher with kek := none, pages := s.cipher.pages.map (fun p => { p with cur := slot p.cur, prev := slot p.prev }) } }

/-- Clears a key page (R350), with its event (R369). -/
def State.clearPage (s : State) (n cause : Nat) : State :=
  ({ s with cipher := { s.cipher with pages := s.cipher.pages.filter (fun p => p.n != n) } } : State).logEvent 0x0805
    (pack [(6, n), (2, cause), (248, 0)])

/-- Mapped records of a page's keyspaces sealed under a generation (R357). -/
def State.sealedUnder (s : State) (page gen : Nat) : List Rec :=
  s.store.recs.filter (fun r => s.mappedRec r && (r.sealed.map (·.1)) == some gen
    && (s.keyspace? r.keyspace).any (fun k => k.encrypted && k.keyPage == page))

/-- Writes sealed under a generation of a page that have neither committed nor ended (R357). -/
def State.uncommittedUnder (s : State) (page gen : Nat) : Nat :=
  (s.net.ctxs.filter (fun x => !x.committed && (x.sealGen.map (·.1)) == some gen
    && (s.keyspace? x.keyspace).any (fun k => k.encrypted && k.keyPage == page))).length

/-- Records of the previous generation that a page's sweep has still to reseal: those it has not left in place (R358). -/
def State.sweepLeft (s : State) (p : KeyPage) : List Rec :=
  let g := (p.cur.gen + 2 ^ 32 - 1) % 2 ^ 32
  (s.sealedUnder p.n g).filter (fun r => match p.sweep with
    | some w => !w.inPlace.contains r.loc
    | none => true)

/-- Ends a page's sweep where nothing of the previous generation is left: KEY_USAGE event 3 and REKEY_DONE (R358). -/
def State.sweepEnd (s : State) (n : Nat) : State :=
  let p := s.page n
  match p.sweep with
  | none => s
  | some w =>
    let g := (p.cur.gen + 2 ^ 32 - 1) % 2 ^ 32
    if (s.sweepLeft p).isEmpty && s.uncommittedUnder n g == 0 then
      ((s.setPage { p with sweep := none }).keyUsage p 3).logEvent 0x0804
        (pack [(6, n), (32, p.cur.gen), (64, w.resealed), (32, w.inPlace.length), (32, (s.clock - w.started) / 1000000000), (90, 0)])
    else s

/-! ### Scheduling (R344, R361, R362) -/

/-- The owner whose pipelines run a keyspace's jobs (R344). -/
def State.pipeOwner (s : State) (ks : Nat) : Nat :=
  let o := s.ksOwner ks
  if s.cipher.pipes.any (·.owner == o) then o else 0

/-- A pipeline replaced. -/
def State.setPipe (s : State) (p : Pipe) : State :=
  { s with cipher := { s.cipher with pipes := upd (·.n == p.n) (fun _ => p) s.cipher.pipes } }

/-- Does a job take a use number at its start: a write that has taken none (R354)? Its reservation becomes the use. -/
def State.takeUse (s : State) (j : JobOf) : State :=
  match j with
  | .cmd c =>
    match s.ctx? c with
    | none => s
    | some x =>
      if x.phase != .sealing || x.sealGen.isSome then s
      else match s.keyspace? x.keyspace with
        | none => s
        | some k =>
          let p := s.page k.keyPage
          let s1 := s.setPage { p with taken := p.taken + 1, reserved := p.reserved - 1 }
          (s1.updCtx c (fun y => { y with sealGen := some (p.cur.gen, p.taken), keyUse := false })).keyEvents k.keyPage
  | _ => s

/-- Starts a job on a pipeline. -/
def State.startJob (s : State) (p : Pipe) (j : Job) : State :=
  let j1 := { j with waited := j.waited + (s.clock - j.since) }
  (s.setPipe { p with running := some j1 }).takeUse j.of'

/-- The pipeline a job can suspend: running a job of lower class, with a free slot; lowest class, then youngest (R362). -/
def State.victimPipe (s : State) (j : Job) : Option Pipe :=
  (s.cipher.pipes.filter (fun p => p.owner == j.owner && p.suspended.length < 4 && p.running.any (·.cls < j.cls))).foldl
    (fun a p => match a with
      | none => some p
      | some q =>
        let key (x : Pipe) : Nat × Nat := match x.running with
          | some r => (r.cls, r.age)
          | none => (0, 0)
        if (key p).1 < (key q).1 || ((key p).1 == (key q).1 && (key q).2 < (key p).2) then some p else some q) none

/-- A job arrives (R362): it starts on an idle pipeline, suspends a job of lower class, or waits. -/
def State.jobArrive (s : State) (j : Job) : State :=
  match s.cipher.pipes.find? (fun p => p.owner == j.owner && p.running.isNone) with
  | some p => s.startJob p j
  | none =>
    match s.victimPipe j with
    | some p =>
      let held := p.running.toList.map (fun r => { r with since := s.clock })
      let s1 := { s with counts := { s.counts with suspends := s.counts.suspends + 1 } }
      s1.startJob { p with suspended := p.suspended ++ held } j
    | none =>
      let wants := s.cipher.pipes.any (fun p => p.owner == j.owner && p.running.any (·.cls < j.cls))
      { s with cipher := { s.cipher with queue := s.cipher.queue ++ [j] },
               counts := if wants then { s.counts with slotWaits := s.counts.slotWaits + 1 } else s.counts }

/-- The better of two jobs: higher class, then older stamp (R362). -/
def Job.better (a b : Job) : Bool := b.cls < a.cls || (a.cls == b.cls && a.age ≤ b.age)

/-- The job a pipeline runs next: the best of its own suspended jobs and its owner's queue (R362). -/
def State.nextJob (s : State) (n : Nat) : State :=
  match s.cipher.pipes.find? (·.n == n) with
  | none => s
  | some p =>
    let best := (p.suspended ++ s.cipher.queue.filter (·.owner == p.owner)).foldl (fun a j => match a with
      | none => some j
      | some i => if i.better j then some i else some j) (none : Option Job)
    match best with
    | none => s
    | some j =>
      let s1 := { s with cipher := { s.cipher with queue := s.cipher.queue.filter (fun i => i.of' != j.of') } }
      s1.startJob { p with suspended := p.suspended.filter (fun i => i.of' != j.of') } j

/-- Is a job of that owner queued, suspended or running? -/
def State.hasJob (s : State) (j : JobOf) : Bool :=
  s.cipher.queue.any (·.of' == j) || s.cipher.pipes.any (fun p => p.suspended.any (·.of' == j) || p.running.any (·.of' == j))

/-- CIPHER_URGENCY_RAISE (R361): a job that has spent 50 µs waiting or suspended takes class 3; one in a queue is treated as
arriving at that instant. -/
def execCipherUrgencyRaise (job : JobOf) (s : State) : Host.Outcome State Fault Refusal :=
  let due (j : Job) : Bool := j.of' == job && j.cls < 3 && us 50 ≤ j.waited + (s.clock - j.since)
  match s.cipher.queue.find? due with
  | some j =>
    let s1 := { s with cipher := { s.cipher with queue := s.cipher.queue.filter (fun i => i.of' != job) } }
    .next (s1.jobArrive { j with cls := 3 })
  | none => .next { s with cipher := { s.cipher with pipes := s.cipher.pipes.map (fun p =>
      { p with suspended := upd due (fun j => { j with cls := 3 }) p.suspended }) } }

end Sys2Proof.Machine
end

