-- ==== Sys2Proof/Machine/Coherence.lean ====
section
/-! DEFINITION. Lookup-slice lines and the DRAM homes (R240–R244): requests, snoops, answers, and lines given up. The
version number of a line names its contents; the directory's entries themselves are in the store (log entry 9). -/

namespace Sys2Proof.Machine

/-- The home of a bucket (R234), 0–15. -/
def homeOf (bucket : Nat) : Nat := bucket % 16

/-- The line of a bucket in a slice; none is state I. -/
def Coherence.line? (c : Coherence) (slice bucket : Nat) : Option Line :=
  c.lines.find? (fun l => l.slice == slice && l.bucket == bucket)

/-- The lines without that of a bucket in a slice. -/
def Coherence.without (c : Coherence) (slice bucket : Nat) : List Line :=
  c.lines.filter (fun l => !(l.slice == slice && l.bucket == bucket))

/-- The snoop filter's record of a bucket: holders, and the owner in E or M (R240). -/
def Coherence.holders (c : Coherence) (bucket : Nat) : List Nat × Option Nat :=
  match c.filter.find? (·.1 == bucket) with
  | some f => f.2
  | none => ([], none)

/-- The filter's record of a bucket set; an empty one is removed. -/
def Coherence.setHolders (c : Coherence) (bucket : Nat) (hs : List Nat) (owner : Option Nat) : Coherence :=
  let rest := c.filter.filter (fun f => f.1 != bucket)
  { c with filter := if hs.isEmpty then rest else (bucket, hs, owner) :: rest }

/-- The version of a bucket in DRAM. -/
def Coherence.dramVer (c : Coherence) (bucket : Nat) : Nat := getKey c.dram bucket 0

/-- A slice gives up a line (R241): EVICT for S, WRITE_BACK_CLEAN for E, WRITE_BACK for M. The line is I at once. -/
def Coherence.giveUp (c : Coherence) (l : Line) : Coherence :=
  let c1 := { c with lines := c.without l.slice l.bucket }
  match l.st with
  | .s => { c1 with evicts := c1.evicts ++ [(l.slice, l.bucket)] }
  | .e => { c1 with flying := c1.flying ++ [(l.slice, l.bucket, none)] }
  | .m => { c1 with flying := c1.flying ++ [(l.slice, l.bucket, some l.ver)] }
  | _ => c

/-- A fill reaches a slice: a line in state S or E; a full set of 8 ways gives up its oldest line (R240). -/
def Coherence.fill (c : Coherence) (slice bucket : Nat) (excl : Bool) : Coherence :=
  let c0 := { c with lines := c.without slice bucket }
  let ways : List Line := c0.lines.filter (fun l => l.slice == slice && l.bucket % 768 == bucket % 768 && l.st != .wantS && l.st != .wantE)
  let c1 := if ways.length < 8 then c0 else match ways.head? with
    | some l => c0.giveUp l
    | none => c0
  { c1 with lines := c1.lines ++ [{ slice := slice, bucket := bucket, st := if excl then .e else .s, ver := c1.dramVer bucket }] }

/-- Completes a transaction (R240): the requester is filled from DRAM and the filter records it. Slice 16 stands for the home
itself, which only clears its filter entry. -/
def Coherence.finish (c : Coherence) (t : HomeTx) : Coherence :=
  let c1 := { c with txs := c.txs.filter (fun u => u != t) }
  if t.slice == 16 then c1.setHolders t.bucket [] none
  else
    let hs := (c1.holders t.bucket).1
    let c2 := if t.excl then c1.setHolders t.bucket [t.slice] (some t.slice)
      else c1.setHolders t.bucket (t.slice :: hs.filter (· != t.slice)) none
    c2.fill t.slice t.bucket t.excl

/-- Starts a transaction (R241, R242): the snoops it needs; a full filter first evicts an entry of the home (R240). -/
def Coherence.start (c : Coherence) (t : HomeTx) : Coherence :=
  let f := c.holders t.bucket
  let home := c.filter.filter (fun g => homeOf g.1 == homeOf t.bucket)
  if f.1.isEmpty && t.slice != 16 && 8192 ≤ home.length then
    match home.find? (fun g => !c.txs.any (·.bucket == g.1)) with
    | some g => { c with txs := c.txs ++ [{ bucket := g.1, slice := 16, excl := true, age := t.age, active := false, snoops := [], owner := none }] }
    | none => c
  else
    let targets := if t.excl then f.1.filter (· != t.slice) else f.2.toList.filter (· != t.slice)
    let t' := { t with active := true, snoops := targets, owner := none }
    { c with txs := upd (· == t) (fun _ => t') c.txs, snooped := c.snooped ++ targets.map (fun h => (h, t.bucket, t.excl)) }

/-- The waiting transaction to start at a home: the oldest of a bucket with none active (R242) that is not under repair (R409). -/
def Coherence.oldest (c : Coherence) : Option HomeTx :=
  (c.txs.filter (fun t => !t.active && !c.repairs.any (·.1 == t.bucket) && !c.txs.any (fun u => u.active && u.bucket == t.bucket)
      && !c.txs.any (fun u => u.bucket == t.bucket && !u.active && (u.age < t.age)))).head?

/-- Completes what can complete and starts what can start. -/
def Coherence.run : Nat → Coherence → Coherence
  | 0, c => c
  | fuel + 1, c =>
    match c.txs.find? (fun t => t.active && t.snoops.isEmpty && t.owner.isNone) with
    | some t => Coherence.run fuel (c.finish t)
    | none => match c.oldest with
      | some t => Coherence.run fuel (c.start t)
      | none => c

/-- The homes proceed. -/
def State.homes (s : State) (c : Coherence) : State := { s with coh := c.run (2 * c.txs.length + 4) }

/-- Is nothing under way for a bucket? -/
def Coherence.quiet (c : Coherence) (bucket : Nat) : Bool :=
  !(c.repairs.any (·.1 == bucket) || c.txs.any (·.bucket == bucket) || c.flying.any (·.2.1 == bucket) || c.snooped.any (·.2.1 == bucket)
    || c.answers.any (·.2.1 == bucket) || c.evicts.any (·.2 == bucket))

/-- The home slice of a key changes an entry of a bucket at which nothing is under way: it holds the line M, and no other
slice holds it (R240). An M line elsewhere has been written back. -/
def State.cohWrite (s : State) (slice bucket : Nat) : State :=
  let c := s.coh
  let ver := (c.dramVer bucket :: (c.lines.filter (·.bucket == bucket)).map (·.ver)).foldl max 0
  let c1 := { c with lines := c.lines.filter (fun l => l.bucket != bucket), dram := setKey c.dram bucket ver }
  let c2 := (c1.setHolders bucket [slice] (some slice)).fill slice bucket true
  { s with coh := { c2 with lines := upd (fun l => l.slice == slice && l.bucket == bucket) (fun l => { l with st := .m, ver := ver + 1 }) c2.lines } }

/-- A slice sends a request to a bucket's home, which has a free place (R242); a full table leaves the request with the slice. -/
def State.request (s : State) (slice bucket : Nat) (excl : Bool) : State :=
  let c := s.coh
  let have' := c.line? slice bucket
  let may := slice < 16 && !c.txs.any (fun t => t.slice == slice && t.bucket == bucket)
    && (match have' with
      | none => true
      | some l => excl && l.st == .s)
  if may && (c.txs.filter (fun t => homeOf t.bucket == homeOf bucket)).length < 4096 then
    let c1 := if have'.isNone then
        { c with lines := c.lines ++ [{ slice := slice, bucket := bucket, st := if excl then .wantE else .wantS, ver := 0 }] } else c
    s.homes { c1 with txs := c1.txs ++ [{ bucket := bucket, slice := slice, excl := excl, age := s.clock, active := false, snoops := [], owner := none }] }
  else s

/-- READ_S (R240): a slice asks for a line for reading. -/
def execReadS (slice bucket : Nat) (s : State) : Host.Outcome State Fault Refusal := .next (s.request slice bucket false)

/-- READ_E (R240): a slice asks for a line for writing. -/
def execReadE (slice bucket : Nat) (s : State) : Host.Outcome State Fault Refusal := .next (s.request slice bucket true)

/-- A write-back or clean write-back lands at the home (R241, R243): the data goes to DRAM, the holder is no longer recorded,
and a transaction that waits for it goes on. -/
def State.landBack (s : State) (w : Nat × Nat × Option Nat) : State :=
  let c := s.coh
  let c1 := { c with flying := c.flying.filter (fun x => x != w),
                     dram := match w.2.2 with
                       | some v => setKey c.dram w.2.1 v
                       | none => c.dram }
  let f := c1.holders w.2.1
  let c2 := c1.setHolders w.2.1 (f.1.filter (· != w.1)) (if f.2 == some w.1 then none else f.2)
  s.homes { c2 with txs := upd (fun t => t.active && t.bucket == w.2.1 && t.owner == some w.1) (fun t => { t with owner := none }) c2.txs }

/-- WRITE_BACK (R241): a slice gives up an M line with its data, or the data lands at the home. -/
def execWriteBack (slice bucket : Nat) (s : State) : Host.Outcome State Fault Refusal :=
  match s.coh.flying.find? (fun w => w.1 == slice && w.2.1 == bucket && w.2.2.isSome) with
  | some w => .next (s.landBack w)
  | none => match s.coh.line? slice bucket with
    | some l => .next (if l.st == .m then { s with coh := s.coh.giveUp l } else s)
    | none => .next s

/-- WRITE_BACK_CLEAN (R241): a slice gives up an E line, or the message lands at the home. -/
def execWriteBackClean (slice bucket : Nat) (s : State) : Host.Outcome State Fault Refusal :=
  match s.coh.flying.find? (fun w => w.1 == slice && w.2.1 == bucket && w.2.2.isNone) with
  | some w => .next (s.landBack w)
  | none => match s.coh.line? slice bucket with
    | some l => .next (if l.st == .e then { s with coh := s.coh.giveUp l } else s)
    | none => .next s

/-- EVICT (R241): a slice drops an S line, or the notice reaches the home. -/
def execEvict (slice bucket : Nat) (s : State) : Host.Outcome State Fault Refusal :=
  if s.coh.evicts.contains (slice, bucket) then
    let c := { s.coh with evicts := s.coh.evicts.filter (fun e => e != (slice, bucket)) }
    let f := c.holders bucket
    .next { s with coh := c.setHolders bucket (f.1.filter (· != slice)) f.2 }
  else match s.coh.line? slice bucket with
    | some l => .next (if l.st == .s then { s with coh := s.coh.giveUp l } else s)
    | none => .next s

/-- A snoop arrives at a slice (R243): S and E answer PRESENT_CLEAN and M PRESENT_DATA after acting on it; I answers
NOT_PRESENT; a slice that waits for a fill and has nothing under way holds it. -/
def State.snoop (s : State) (slice bucket : Nat) (inv : Bool) : State :=
  let c := s.coh
  if !c.snooped.contains (slice, bucket, inv) then s
  else
    let c1 := { c with snooped := c.snooped.filter (fun x => x != (slice, bucket, inv)) }
    let keep (l : Line) : List Line := if inv then c1.without slice bucket else { l with st := .s } :: c1.without slice bucket
    match c.line? slice bucket with
    | none => { s with coh := { c1 with answers := c1.answers ++ [(slice, bucket, none)] } }
    | some l =>
      match l.st with
      | .s | .e => { s with coh := { c1 with lines := keep l, answers := c1.answers ++ [(slice, bucket, some none)] } }
      | .m => { s with coh := { c1 with lines := keep l, answers := c1.answers ++ [(slice, bucket, some (some l.ver))] } }
      | .wantS | .wantE =>
        if c.flying.any (fun w => w.1 == slice && w.2.1 == bucket) || c.evicts.contains (slice, bucket) then
          { s with coh := { c1 with answers := c1.answers ++ [(slice, bucket, none)] } }
        else s

/-- SNOOP_INV (R241, R243). -/
def execSnoopInv (slice bucket : Nat) (s : State) : Host.Outcome State Fault Refusal := .next (s.snoop slice bucket true)

/-- SNOOP_FETCH (R241, R243). -/
def execSnoopFetch (slice bucket : Nat) (s : State) : Host.Outcome State Fault Refusal := .next (s.snoop slice bucket false)

/-- An answer reaches the home (R243): data goes to DRAM; the answering slice is awaited no longer; a NOT_PRESENT of the
recorded owner waits for its write-back. -/
def State.snoopAnswer (s : State) (a : Nat × Nat × Option (Option Nat)) : State :=
  let c := s.coh
  if !c.answers.contains a then s
  else
    let c1 := { c with answers := c.answers.filter (fun x => x != a),
                       dram := match a.2.2 with
                         | some (some v) => setKey c.dram a.2.1 v
                         | _ => c.dram }
    let f := c1.holders a.2.1
    let waits := a.2.2.isNone && f.2 == some a.1
    let act (t : HomeTx) : Bool := t.active && t.bucket == a.2.1 && t.snoops.contains a.1
    let c2 := { c1 with txs := upd act (fun t => { t with snoops := t.snoops.filter (· != a.1), owner := if waits then some a.1 else t.owner }) c1.txs }
    let excl := (c1.txs.find? act).any (·.excl)
    s.homes (if waits then c2
      else if excl || a.2.2.isNone then c2.setHolders a.2.1 (f.1.filter (· != a.1)) (if f.2 == some a.1 then none else f.2)
      else c2.setHolders a.2.1 f.1 none)

/-- PRESENT_CLEAN (R243). -/
def execPresentClean (slice bucket : Nat) (s : State) : Host.Outcome State Fault Refusal :=
  .next (s.snoopAnswer (slice, bucket, some none))

/-- PRESENT_DATA (R243). -/
def execPresentData (slice bucket : Nat) (s : State) : Host.Outcome State Fault Refusal :=
  match s.coh.answers.find? (fun a => a.1 == slice && a.2.1 == bucket && (match a.2.2 with
    | some (some _) => true
    | _ => false)) with
  | some a => .next (s.snoopAnswer a)
  | none => .next s

/-- NOT_PRESENT (R243). -/
def execNotPresent (slice bucket : Nat) (s : State) : Host.Outcome State Fault Refusal := .next (s.snoopAnswer (slice, bucket, none))

end Sys2Proof.Machine
end

