-- ==== Sys2Proof/Machine/Marks.lean ====
section
/-! DEFINITION. The six watermarks (R149, R150): what each watches, its levels, its notices. -/

namespace Sys2Proof.Machine

/-- The owners that have data capacity. -/
def State.capacityOwners (s : State) : List Nat := (List.range 9).filter (fun o => 0 < s.dataCapacity o)

/-- 100 × F_o / D_o in units of 0.01 % (R306, R310). -/
def State.freeBp (s : State) (o : Nat) : Nat := 10000 * s.freeSpace o / s.dataCapacity o

/-- The quantity of WM_FREE_SPACE (R310). -/
def State.lowestFree (s : State) : Nat := (s.capacityOwners.map s.freeBp).foldl min 10000

/-- The warning limits of R420 with the sensors they bind, in the order of R40: junction, NAND zones 0-3, DRAM, hold-up,
regulator. -/
def warnLimits : List (Nat × Int) := [(2, 100), (3, 70), (4, 70), (5, 70), (6, 70), (7, 85), (8, 65), (9, 110)]

/-- The thermal margin (R420). -/
def thermalMargin (readings : List Int) : Int := (warnLimits.map (fun w => readings.getD w.1 0 - w.2)).foldl max (-273)

/-- The readings as WM_TEMP takes them: a failed sensor counts as its warning limit (R464). -/
def State.warnReadings (s : State) : List Int :=
  (List.range 10).map (fun i => if s.sb.failed.any (·.1 == i) then ((warnLimits.find? (·.1 == i)).map (·.2)).getD (-128) else s.thermal.readings.getD i 0)

/-- The quantity of WM_KEY_USAGE (R356). -/
def State.mostTaken (s : State) : Nat := ((s.cipher.pages.filter (fun p => p.cur.st != .empty)).map (·.taken)).foldl max 0

/-- The quantity of watermark `k`, counted from 0, as PARAM_B carries it (R221, R310, R331, R356, R420, R59). -/
def State.watched (s : State) : Nat → Int
  | 0 => s.lowestFree
  | 1 => s.poolHeld
  | 2 => s.contextsInUse
  | 3 => s.mostTaken
  | 4 => thermalMargin s.warnReadings
  | _ => s.spareClasses

/-- Does the quantity reach the set level? -/
def State.markSet (s : State) (k : Nat) : Bool :=
  match k with
  | 0 => s.lowestFree ≤ 100 * s.var 0x0602
  | 1 => s.var 0x0702 * s.poolTotal ≤ 100 * s.poolHeld
  | 2 => ceilDiv (262144 * s.var 0x0301) 100 ≤ s.contextsInUse
  | 3 => s.var 0x0801 ≤ s.mostTaken
  | 4 => 0 ≤ thermalMargin s.warnReadings
  | _ => 0 < s.spareClasses

/-- Does the quantity reach the clear level or pass beyond it? -/
def State.markClear (s : State) (k : Nat) : Bool :=
  match k with
  | 0 => 100 * (s.var 0x0602 + s.var 0x0604) ≤ s.lowestFree
  | 1 => 100 * s.poolHeld ≤ s.var 0x0703 * s.poolTotal
  | 2 => s.contextsInUse ≤ 262144 * s.var 0x0302 / 100
  | 3 => s.mostTaken ≤ s.var 0x0801 / 2
  | 4 => thermalMargin s.warnReadings ≤ -(s.var 0x0B07 : Int)
  | _ => s.spareClasses == 0

/-- A watermark of the list. -/
def State.mark (s : State) (k : Nat) : Watermark := s.marks.getD k Watermark.clear

/-- A WATERMARK notice of watermark `k` that covers `n` upward crossings (R149). -/
def State.markNotice (s : State) (k n : Nat) : State :=
  let a := (k + 1) + min 255 n * 256 + b1 (s.mark k).level * 65536
  ({ s with marks := s.marks.set k { s.mark k with sentAt := some s.clock, merged := 0 } } : State).broadcast .watermark 0
    (BitVec.ofNat 64 a) (BitVec.ofInt 64 (s.watched k)) []

/-- Does the hold-off of 1 s after the last notice run (R149)? -/
def State.markHeldOff (s : State) (m : Watermark) : Bool := m.sentAt.any (fun t => s.clock < t + sec 1)

/-- One watermark follows its quantity (R149): the level and sticky bits, and at a 0-to-1 change the notice and the alert. -/
def State.watchOne (s : State) (k : Nat) : State :=
  let m := s.mark k
  if !m.level && s.markSet k then
    let s1 := ({ s with marks := s.marks.set k { m with level := true, up := true } } : State).alert .watermark
    if s.markHeldOff m then { s1 with marks := s1.marks.set k { s1.mark k with merged := m.merged + 1 } }
    else s1.markNotice k 1
  else if m.level && s.markClear k then { s with marks := s.marks.set k { m with level := false, down := true } }
  else s

/-- The watermarks follow their quantities, once Filling has ended. -/
def State.watch (s : State) : State :=
  match s.modes.mode with
  | .dormant => s
  | .filling => s
  | _ => (List.range 6).foldl State.watchOne s

/-- At the end of Filling the sticky bits are 0 and each level reflects its quantity (R150). -/
def State.startMarks (s : State) : State :=
  { s with marks := (List.range 6).map (fun k => { Watermark.clear with level := s.markSet k }) }

/-- WATERMARK_HOLDOFF_END (R149): 1 s after a notice, the crossings merged meanwhile go in one notice. -/
def execWatermarkHoldoffEnd (wm : Nat) (s : State) : Host.Outcome State Fault Refusal :=
  let m := s.mark (wm - 1)
  if 0 < wm && wm < 7 && 0 < m.merged && !s.markHeldOff m then .next (s.markNotice (wm - 1) m.merged) else .next s

end Sys2Proof.Machine
end

