-- ==== Sys2Proof/Machine/Transport.lean ====
section
/-! DEFINITION. Frames received and the GKP transport (R106–R152): assembly, the decision of R138, acknowledgement,
retransmission and the end of sessions. -/

namespace Sys2Proof.Machine

/-- A packet discarded under R123 is counted (R188). -/
def State.discard (s : State) : State := { s with counts := { s.counts with discards := s.counts.discards + 1 } }

/-- The answer to a packet, to its source and not retained (R133, R140): a copy of the packet's addressing. -/
def State.answer (s : State) (p : Path) (sess : Option Nat) (h : Header) (st : Status) (noSession : Bool) (a b : BitVec 64) : State :=
  let m : Msg :=
    { notice := none, opcode := h.opcode, session := h.session, tag := h.tag, sequence := h.sequence, status := st, flags := 0,
      reread := false, noSession := noSession, lost := false, keyspace := h.keyspace, paramA := a, paramB := b, body := [] }
  s.sendOnce p sess m

/-- The hint of a BACKOFF refused under R220: doubling from BACKOFF_MIN_US to BACKOFF_MAX_US. -/
def State.backoffHint (s : State) (b : Nat) : Nat := min (s.var 0x0306) (s.var 0x0305 * 2 ^ b)

/-- Are new commands refused while a restart activation drains (R447)? -/
def State.activationDrains (s : State) : Bool := s.fw.restarting

/-- A refusal BACKOFF of a command of a session, which counts in the doubling series (R220). -/
def State.refuseBackoff (s : State) (p : Path) (x : Session) (h : Header) : State :=
  let hint := if s.activationDrains then 10000 else s.backoffHint x.backoffs
  (s.answer p (some x.num) h .backoff false (BitVec.ofNat 64 hint) 0).updSession x.num
    (fun y => { y with backoffs := y.backoffs + 1 })

/-! ### Assembly (R125, R126) -/

/-- Is a command RELAYED (R157)? -/
def relayedFlag (op : Nat) (flags : Nat) : Bool := isDataWrite op && bit flags 5

/-- Bytes of a command's body: 32 more for the relay prefix of a RELAYED command (R125, R375). -/
def Header.body (h : Header) : Nat :=
  bodyLength h.opcode h.keyLen h.valLen + (if relayedFlag h.opcode h.flags then 32 else 0)

/-- Bytes of a context's message body. -/
def Ctx.bodyLen (x : Ctx) : Nat :=
  bodyLength x.opcode x.keyLen x.valLen + (if relayedFlag x.opcode x.flags.toNat then 32 else 0)

/-- Reads a relay prefix (R375); none where its FORMAT, MARKER_KIND or reserved fields are not those of R375. -/
def parsePrefix (b : Bytes) : Option Prefix :=
  let n := natOfBytes (b.take 32)
  if b.length < 32 || bits n 255 248 != 1 || bits n 244 243 == 3 || bits n 242 236 != 0 || bits n 223 205 != 0 then none
  else some { tailAck := bit n 247, resync := bit n 246, seed := bit n 245, marker := bits n 244 243, origin := bits n 235 224,
              attrs := BitVec.ofNat 13 (bits n 204 192), stamp := bits n 191 128, crc := BitVec.ofNat 64 (bits n 127 64),
              quota := bits n 63 0 }

/-- Cells a body takes at admission (R126). -/
def inputCells (body : Nat) : Nat := ceilDiv body 4096

/-- Sieve slots in use: open sieves, and slots reserved by SIEVE_OPENs in progress (R173). -/
def State.sieveSlots (s : State) : List Nat := s.sieves.list.map (·.slot) ++ s.net.ctxs.filterMap (·.slotRes)

/-- The lowest free sieve slot of the 128 (R173). -/
def State.freeSlot (s : State) : Option Nat := (List.range 128).find? (fun n => !s.sieveSlots.contains n)

/-- Is admission refused for want of a context, of cells, or of a sieve slot (R220, R330)? -/
def State.pressed (s : State) (x : Session) (h : Header) (cells : Nat) : Bool :=
  s.activationDrains || s.poolContexts x.fence ≤ s.contextsHeld x.fence
    || s.cellsFree x.fence < cells
    || (x.fence == 0 && s.var 0x0701 < ((s.net.ctxs.filter (·.session == some x.num)).map (·.cells)).sum + cells)
    || (h.opcode == 0x09 && s.freeSlot.isNone)

/-- Does the message end BAD_LENGTH at admission for its key length (R126)? -/
def badKeyLength (h : Header) : Bool := 1024 < h.keyLen

/-- A context for an admitted message (R83, R85). The age stamp is the time of acceptance and the number of the accepting
protocol island, 10 (log entry 17). -/
def State.newCtx (s : State) (p : Path) (h : Header) (sess : Option Nat) (reexec : Bool) (pool cells : Nat) : Ctx :=
  { id := s.net.nextId, session := sess, mailbox := false, reexec := reexec, pool := pool, age := s.time * 512 + 10, path := p,
    opcode := h.opcode, tag := h.tag, seq := h.sequence, sessField := h.session, flags := BitVec.ofNat 8 h.flags,
    keyspace := h.keyspace, keyLen := h.keyLen, valLen := h.valLen, paramA := h.paramA, paramB := h.paramB, pre := none,
    key := [], body := [], fp := 0, cells := cells, outCells := 0, phase := .assembling,
    asm := { seg := none, packets := [], reported := [] }, admitted := s.clock, completed := none, acked := false, work := 0,
    runSince := none, ksTokens := false, keyUse := false, sealGen := none,
    slotRes := if h.opcode == 0x09 && sess.isSome then s.freeSlot else none, recs := [], newLoc := 0,
    newGroup := 0, growth := 0, reserved := 0, readFail := none, reply := Reply.plain .done, change := none, committed := false,
    stamp := 0 }

/-- Do a packet's header fields agree with its message's (R125)? -/
def Ctx.agrees (x : Ctx) (h : Header) : Bool :=
  x.opcode == h.opcode && x.sessField == h.session && x.tag == h.tag && x.seq == h.sequence && x.keyspace == h.keyspace
    && x.keyLen == h.keyLen && x.valLen == h.valLen && x.paramA == h.paramA && x.paramB == h.paramB
    && x.flags == BitVec.ofNat 8 h.flags

/-- The segment size a packet shows: its own length where it is not the last, and what the last leaves for each packet
before it where it is (R125). none: it contradicts the body length. -/
def segShown (body : Nat) (h : Header) (len : Nat) : Option Nat :=
  if h.last then
    if h.index == 0 then (if len == body then some (max 1 len) else none)
    else if len < 1 || body < len || (body - len) % h.index != 0 then none
    else if len ≤ (body - len) / h.index then some ((body - len) / h.index) else none
  else if len < 1 then none else some len

/-- Is the packet consistent with a segment size (R125, R126)? -/
def segFits (body seg limit : Nat) (h : Header) (len : Nat) : Bool :=
  seg ≤ limit && packetCount body seg ≤ 2048
    && (if h.last then h.index + 1 == packetCount body seg else h.index + 1 < packetCount body seg && len == seg)

/-- Indices below the highest received that are missing. -/
def Assembly.missing (a : Assembly) : List Nat :=
  let top := (a.packets.map (·.1)).foldl max 0
  (List.range top).filter (fun i => !(a.packets.any (·.1 == i)))

/-- The transport-ack of a command message (R142). -/
def Ctx.ackInfo (x : Ctx) (n : Nat) : AckInfo :=
  let has (i : Nat) : Bool := x.asm.packets.any (·.1 == i)
  let contig := ((List.range n).takeWhile has).length
  { session := x.sessField, tag := x.tag, sequence := x.seq.toNat, opcode := x.opcode, notice := false, ackAll := contig == n,
    contig := contig,
    beyond := (List.range 64).foldl (fun m i => if has (contig + 1 + i) then m ||| BitVec.ofNat 64 (2 ^ i) else m) 0 }

/-- Sends a transport-ack for a context's message (R143). -/
def State.sendAck (s : State) (p : Path) (x : Ctx) : State :=
  let n := packetCount x.bodyLen (x.asm.seg.getD 1)
  s.sendFrame p p.pcp none (.ack (x.ackInfo n) (s.credit x.session))

/-- The message of a context is complete: its key and body, its fingerprint (R228), and its place in the session queue
(R214). An opcode that R16 does not define ends BAD_OPCODE (R155). -/
def State.complete (s : State) (x : Ctx) : State :=
  let whole := ((List.range x.asm.packets.length).map (fun i => getKey x.asm.packets i [])).flatten
  let relayed := relayedFlag x.opcode x.flags.toNat
  let rest := if relayed then whole.drop 32 else whole
  let key := rest.take x.keyLen
  let fp := match s.keyspace? x.keyspace with
    | some k => fingerprint k.id k.seed key
    | none => 0
  let x' := { x with key := key, body := rest.drop x.keyLen, pre := if relayed then parsePrefix whole else none, fp := fp, completed := some s.clock }.enter .complete s.clock
  let s1 := s.updCtx x.id (fun _ => x')
  if !opcodes.contains x.opcode then s1.endStatus x.id .badOpcode
  else match x.session with
    | some n => if isQueued x.opcode && !x.reexec then s1.updSession n (fun y => { y with queue := y.queue ++ [x.id] }) else s1
    | none => s1

/-- Places a packet in a context's assembly (R126), with the transport-acks of R143. -/
def State.place (s : State) (c : Nat) (p : Path) (h : Header) (data : Bytes) : State :=
  match s.ctx? c with
  | none => s
  | some x =>
    let body := x.bodyLen
    if !x.agrees h then s.endStatus c .badLength
    else if x.asm.packets.any (·.1 == h.index) then s
    else
      match segShown body h data.length with
      | none => s.endStatus c .badLength
      | some shown =>
        let seg := x.asm.seg.getD shown
        if seg != shown && !(h.last && h.index == 0) || !segFits body seg (s.payload p) h data.length then s.endStatus c .badLength
        else
          let a := { x.asm with seg := some seg, packets := (h.index, data) :: x.asm.packets }
          let gap := a.missing.filter (fun i => !a.reported.contains i)
          let x1 := { x with asm := { a with reported := a.reported ++ gap } }
          let s1 := s.updCtx c (fun _ => x1)
          let full := a.packets.length == packetCount body seg
          let s2 := if !gap.isEmpty || a.packets.length % 256 == 0 || (full && s.var 0x0202 == 0) then s1.sendAck p x1 else s1
          if full then s2.complete x1 else s2

/-- The first packet of an admitted message: its context opens, and the message ends at once where its key length is bad
(R126). -/
def State.openAssembly (s : State) (p : Path) (h : Header) (data : Bytes) (x : Session) (reexec : Bool) : State :=
  let cells := if badKeyLength h then 0 else inputCells (h.body)
  let k := s.newCtx p h (some x.num) reexec x.fence cells
  let s1 : State := { s with net := { s.net with nextId := s.net.nextId + 1, ctxs := s.net.ctxs ++ [k] } }
  let s2 := if isDataWrite h.opcode && !reexec then
      match s1.keyspace? h.keyspace with
      | some ks => s1.updOwner ks.fence (fun o => { o with throttle := setKey o.throttle x.num s1.clock })
      | none => s1
    else s1
  if badKeyLength h then s2.endStatus k.id .badLength else s2.place k.id p h data

/-! ### The decision of R138 -/

/-- The context of a sequence number of a session: of the command itself, or of a re-execution. -/
def State.ctxOf (s : State) (sess : Nat) (q : BitVec 32) (reexec : Bool) : Option Ctx :=
  s.net.ctxs.find? (fun x => x.session == some sess && x.seq == q && x.reexec == reexec)

/-- Does a command of the session in progress carry the tag (R135)? -/
def State.tagBusy (s : State) (sess tag : Nat) : Bool :=
  s.net.ctxs.any (fun x => x.session == some sess && x.tag == tag && !x.reexec)

/-- A packet of a number at or below the highest whose entry is IN_PROGRESS or DONE (R138, R139). -/
def State.decideDuplicate (s : State) (p : Path) (h : Header) (data : Bytes) (x : Session) (e : ReplayEntry) : State :=
  if !e.finished then
    match s.ctxOf x.num h.sequence false with
    | some k => if k.phase == .assembling then s.place k.id p h data else s
    | none => s
  else
    match s.ctxOf x.num h.sequence true with
    | some k => if k.phase == .assembling then s.place k.id p h data else s
    | none =>
      if h.index != 0 then s
      else if e.rerun then
        let cells := if badKeyLength h then 0 else inputCells (h.body)
        if s.pressed x h cells then s.refuseBackoff p x h else s.openAssembly p h data x true
      else s.answer p (some x.num) h .doneReplayed false e.paramA (BitVec.ofNat 64 e.status.code)

/-- A new command's packet (R138): the window and the tag, pool pressure, acceptance. -/
def State.decideNew (s : State) (p : Path) (h : Header) (data : Bytes) (x : Session) : State :=
  let cells := if badKeyLength h then 0 else inputCells (h.body)
  if seqDiff h.sequence x.limit ≥ 0 || s.tagBusy x.num h.tag then
    if h.index == 0 then s.answer p (some x.num) h .windowExceeded false 0 0 else s
  else if s.pressed x h cells then
    if h.index == 0 then s.refuseBackoff p x h else s
  else (s.updSession x.num (fun y => y.accept h.sequence h.opcode h.tag)).openAssembly p h data x false

/-- A command packet other than SESSION_OPEN (R133, R138). -/
def State.decide (s : State) (p : Path) (h : Header) (data : Bytes) : State :=
  match s.session? h.session with
  | none => if h.index == 0 then s.answer p none h .notFound true 0 0 else s
  | some x0 =>
    let s := s.updSession x0.num (fun y => { y with path := p, lastHeard := s.clock })
    let x := { x0 with path := p, lastHeard := s.clock }
    let d := seqDiff h.sequence x.highest
    if d ≤ -64 then (if h.index == 0 then s.answer p (some x.num) h .staleSequence false 0 0 else s)
    else match (if d ≤ 0 then x.entry? h.sequence else none) with
      | some e => s.decideDuplicate p h data x e
      | none =>
        if x.closing.isSome then (if h.index == 0 then s.answer p none h .notFound true 0 0 else s)
        else s.decideNew p h data x

/-- A SESSION_OPEN packet takes a context of its own, which SESSION_OPEN's meaning decides (R130, R138). -/
def State.openRequest (s : State) (p : Path) (h : Header) : State :=
  if h.index != 0 then s
  else
    let k := { s.newCtx p h none false 0 0 with phase := .complete, completed := some s.clock, runSince := some s.clock }
    { s with net := { s.net with nextId := s.net.nextId + 1, ctxs := s.net.ctxs ++ [k] } }

/-! ### Acknowledgement (R142–R145) -/

/-- Packets of a kept message not reported as received (R144). -/
def Kept.unacked (k : Kept) : List Nat :=
  (List.range (packetCount k.msg.body.length k.seg)).filter (fun i =>
    !(i < k.contig || (k.contig < i && i ≤ k.contig + 64 && k.beyond.getLsbD (i - k.contig - 1))))

/-- The kept message a transport-ack names (R142). -/
def AckInfo_names (a : AckInfo) (k : Kept) : Bool :=
  k.session == a.session && k.msg.sequence.toNat == a.sequence
    && (if a.notice then k.msg.notice.isSome else k.msg.notice.isNone && k.msg.opcode == a.opcode && k.msg.tag == a.tag)

/-- A kept message is no longer retained: its read-holds and held frames stay with what has been sent. -/
def State.dropKept (s : State) (id : Nat) : State :=
  ({ s with
      net := { s.net with kept := s.net.kept.filter (fun k => k.id != id), held := s.net.held.filter (fun h => h.kept != some id) }
      store := { s.store with holds := s.store.holds.filter (fun h => h.1 != id) } } : State).foreground

/-- A transport-ack for a reply or notice of a session (R144); one that names none is discarded (R123). -/
def State.ackArrives (s : State) (a : AckInfo) : State :=
  match s.net.kept.find? (AckInfo_names a) with
  | none => s.discard
  | some k =>
    let k' := { k with contig := max k.contig a.contig, beyond := if k.contig ≤ a.contig then a.beyond else k.beyond }
    if a.ackAll || k'.unacked.isEmpty then (s.dropKept k.id).pumpNotices 24 k.session
    else { s with net := { s.net with kept := upd (fun j => j.id == k.id) (fun _ => k') s.net.kept } }

/-- TRANSPORT_ACK (R144). -/
def execTransportAck (ack : AckInfo) (s : State) : Host.Outcome State Fault Refusal := .next (s.ackArrives ack).watch

/-- The intervals of R144, in ns: before the second to the eighth sending. -/
def retransmitAfter (sends : Nat) : Nat := us (50 * 2 ^ (sends - 1))

/-- A kept message is retransmitted (R144): the interval after the latest sending's end has passed; the packets not reported as received are sent
again, with RETRANSMIT set. A message too large for its link's MTU now is not sent, but its sending counts. -/
def State.retransmitKept (s : State) (msg : Nat) : State :=
  match s.net.kept.find? (·.id == msg) with
  | none => s
  | some k =>
    match k.ended with
    | none => s
    | some t =>
      if k.sends < 8 && t + retransmitAfter k.sends ≤ s.clock then
        let fits := k.seg ≤ s.payload k.path || k.msg.body.length ≤ s.payload k.path
        let s1 := { s with net := { s.net with kept := upd (·.id == msg) (fun j =>
          { j with sends := j.sends + 1, ended := if fits then none else some s.clock }) s.net.kept } }
        if fits then
          State.sendFrame s1 k.path k.path.pcp (some msg) (.gkp k.msg (s.credit (some k.session)) true k.seg k.unacked)
        else s1
      else s

/-- A kept message is unanswered (R145): 3.2 ms after the eighth sending a reply's cells are freed and the loss is counted; a
broadcast notice and a SECURE_DISCARD_DONE are dropped; a LATE_FAULT goes to the journal. -/
def State.keptUnanswered (s : State) (msg : Nat) : State :=
  match s.net.kept.find? (·.id == msg) with
  | none => s
  | some k =>
    match k.ended with
    | none => s
    | some t =>
      if 8 ≤ k.sends && t + us 3200 ≤ s.clock then
        let s1 := s.dropKept msg
        let s2 := if k.msg.notice.isNone then
            { s1 with counts := { s1.counts with unanswered := s1.counts.unanswered + 1 } } else s1
        let s3 := match k.late with
          | some f => s2.journalLate f
          | none => s2
        s3.pumpNotices 24 k.session
      else s

/-- ASSEMBLY_TIMEOUT (R126): a message not complete 200 ms after admission ends INCOMPLETE. -/
def execAssemblyTimeout (c : Nat) (s : State) : Host.Outcome State Fault Refusal :=
  match s.ctx? c with
  | some x => if x.phase == .assembling && x.admitted + ms 200 ≤ s.clock then .next (s.endStatus c .incomplete) else .next s
  | none => .next s

/-- ACK_COALESCE_EXPIRE (R143): no reply within ACK_COALESCE_US of completion: a transport-ack is sent. -/
def execAckCoalesceExpire (c : Nat) (s : State) : Host.Outcome State Fault Refusal :=
  match s.ctx? c with
  | some x =>
    match x.completed, x.session with
    | some t, some _ =>
      if !x.acked && !x.reexec && s.var 0x0202 != 0 && t + us (s.var 0x0202) ≤ s.clock then
        .next ((s.updCtx c (fun y => { y with acked := true })).sendAck x.path x)
      else .next s
    | _, _ => .next s
  | none => .next s

/-! ### The end of sessions (R129, R131, R132) -/

/-- Is the session idle (R131): no command in progress, no assembly, nothing awaiting acknowledgement? -/
def State.idleSession (s : State) (n : Nat) : Bool :=
  !(s.net.ctxs.any (·.session == some n)) && !(s.net.kept.any (·.session == n))

/-- Frees a session's entry; its queued late faults go to the journal (R131). Its number rests 1 s (R129). -/
def State.freeSession (s : State) (n : Nat) : State :=
  match s.session? n with
  | none => s
  | some x =>
    let s1 := (x.notices.filterMap (·.late)).foldl State.journalLate s
    { s1 with net := { s1.net with
      sessions := s1.net.sessions.filter (fun y => y.num != n), closed := setKey s1.net.closed n s1.clock } }

/-- SESSION_IDLE (R131): idle for SESSION_IDLE_S. -/
def execSessionIdle (session : Nat) (s : State) : Host.Outcome State Fault Refusal :=
  match s.session? session with
  | some x =>
    if x.closing.isNone && s.idleSession session && x.lastHeard + sec (s.var 0x0203) ≤ s.clock then .next (s.freeSession session)
    else .next s
  | none => .next s

/-- SESSION_FREE (R132): the last reply or notice of a closed session has been acknowledged or is unanswered. -/
def execSessionFree (session : Nat) (s : State) : Host.Outcome State Fault Refusal :=
  match s.session? session with
  | some x => if x.closed && s.idleSession session then .next (s.freeSession session) else .next s
  | none => .next s

/-! ### Frames (R106–R111, R116) -/

/-- The priority of a received frame (R116): the PCP of its tag, 0 for an untagged frame. -/
def framePcp : Tagging → Nat
  | .tagged _ _ pcp => pcp
  | _ => 0

/-- Does a frame's tagging agree with the link's VLAN (R108)? -/
def tagAgrees (vlan : Nat) : Tagging → Bool
  | .untagged => vlan == 0
  | .tagged tpid vid _ => tpid == 0x8100 && vid == vlan
  | .double => false

/-- A claim of an address: a conflict where it is one of the link's (R110), else the neighbour's entry (R113). -/
def State.claimed (s : State) (link : Nat) (a : Addr) (mac : Nat) : State :=
  if (s.linkAddrs link).contains a then s.portEvent (isPortB link) .addrConflict
  else
    let b := isPortB link
    let rest := s.ports.neighbours.filter (fun n => !(n.1 == b && n.2.1 == a))
    let known := s.ports.neighbours.any (fun n => n.1 == b && n.2.1 == a)
    if known || (rest.filter (fun n => n.1 == b)).length < 1024 then
      { s with ports := { s.ports with neighbours := (b, a, mac, s.clock) :: rest } }
    else s

/-- ARP and Neighbor Discovery (R110, R111): requests for the link's addresses are answered, with PCP 0. -/
def State.arpNd (s : State) (link mac : Nat) : ArpNd → State
  | .request t =>
    if (s.linkAddrs link).contains t then
      s.sendFrame { link := link, src := { mac := mac, ip := t, port := 0, dst := t }, pcp := 0 } 0 none (.arpReply t)
    else s
  | .claim a m => s.claimed link a m

/-- ICMP (R111): echo requests are answered, Neighbor Discovery handled, everything else ignored. -/
def State.icmp (s : State) (link mac : Nat) (src dst : Addr) : Icmp → State
  | .echo data => s.sendFrame { link := link, src := { mac := mac, ip := src, port := 0, dst := dst }, pcp := 0 } 0 none (.echoReply data)
  | .nd m => s.arpNd link mac m
  | .other => s

/-- The initiator session a packet belongs to: by the sender's address and the session number (R151). -/
def State.initiatorOf (s : State) (a : Addr) (sess : Nat) : Bool := s.relay.initiators.any (fun i => i.succ.addr == a && i.num == sess)

/-- A packet of an initiator session brings its credit limit, which never moves backwards (R134, R151). -/
def State.takeCredit (s : State) (p : Initiator → Bool) (credit : BitVec 16) : State :=
  { s with relay := { s.relay with initiators := upd p (fun i =>
      if 0 < seqDiff (fullLimit i.next credit) i.limit then { i with limit := fullLimit i.next credit } else i) s.relay.initiators } }

/-- A successor has the whole of a forward: no retransmission follows (R144, R381). -/
def State.forwardAcked (s : State) (sess : Nat) (q : BitVec 32) : State :=
  { s with relay := { s.relay with slots := upd (fun r => r.session == sess && r.seq == q) (fun r => { r with acked := true }) s.relay.slots } }

/-- GKP handling of a UDP payload (R121–R123, R138, R151). -/
def State.gkp (s : State) (p : Path) (payload : Bytes) : State :=
  let h := parseHeader payload
  let data := payload.drop 40
  if payload.length < 40 || (crc16 (payload.take 38)).toNat != h.crc || h.version != 1 || 3 < h.kind then s.discard
  else if h.kind == 0 then (if h.opcode == 0x10 then s.openRequest p h else s.decide p h data)
  else if h.kind == 3 then
    if s.initiatorOf p.src.ip h.session then
      let s1 := s.takeCredit (fun i => i.succ.addr == p.src.ip && i.num == h.session) h.credit
      if bit h.flags 14 then s1.forwardAcked h.session h.sequence else s1
    else
      let s1 := s.updSession h.session (fun y => { y with path := p, lastHeard := s.clock })
      s1.ackArrives { session := h.session, tag := h.tag, sequence := h.sequence.toNat, opcode := h.opcode, notice := bit h.flags 13,
                      ackAll := bit h.flags 14, contig := bits h.paramA.toNat 11 0, beyond := h.paramB }
  else if s.initiatorOf p.src.ip h.session then
    let a : AckInfo := { session := h.session, tag := h.tag, sequence := h.sequence.toNat, opcode := h.opcode,
                         notice := h.kind == 2, ackAll := true, contig := 1, beyond := 0 }
    (s.takeCredit (fun i => i.succ.addr == p.src.ip && i.num == h.session) h.credit).sendFrame p (s.var 0x010B) none (.ack a 0)
  else s.discard

/-- Checks 12 to 14 of R106, and GKP handling. -/
def State.ipPayload (s : State) (link : Nat) (f : Frame) (v6 : Bool) (src dst : Addr) : IpPayload → State
  | .icmp ok m => if ok then s.icmp link f.srcMac src dst m else s.portEvent (isPortB link) .ipRefused
  | .extension => s.portEvent (isPortB link) .ipRefused
  | .other => s.portEvent (isPortB link) .notGkp
  | .udp zero ok sport dport payload =>
    if !(if zero then !v6 else ok) then s.portEvent (isPortB link) .ipRefused
    else if dport != s.var 0x010D then s.portEvent (isPortB link) .notGkp
    else s.gkp { link := link, src := { mac := f.srcMac, ip := src, port := sport, dst := dst }, pcp := framePcp f.tag } payload

/-- A PAUSE frame is honoured in flow-control mode 1 (R116). -/
def State.pauseFrame (s : State) (link quanta : Nat) : State :=
  if s.var (if isPortB link then 0x0108 else 0x0107) == 1 then s.pause link 8 quanta else s

/-- A PFC frame is honoured in flow-control mode 2, for the priorities of PFC_PRIORITIES (R116). -/
def State.pfcFrame (s : State) (link : Nat) (enable : BitVec 8) (quanta : List Nat) : State :=
  if s.var (if isPortB link then 0x0108 else 0x0107) == 2 then
    (List.range 8).foldl (fun t p =>
      if enable.getLsbD p && bit (s.var 0x0109) p then t.pause link p (quanta.getD p 0) else t) s
  else s

/-- Check 5 of R106: the destination MAC. A MAC control frame may carry the group address of Annex 31B (log entry 18). -/
def dstOk (f : Frame) : Bool :=
  match f.dstMac, f.l3 with
  | .own, _ => true
  | .broadcast, .arp _ => true
  | .solicited, .ip true _ _ _ _ _ _ => true
  | .macControl, .pause _ => true
  | .macControl, .pfc _ _ => true
  | _, _ => false

/-- Checks 6 to 11 of R106. -/
def State.frameL3 (s : State) (link : Nat) (f : Frame) : State :=
  let b := isPortB link
  match f.l3 with
  | .pause q => s.pauseFrame link q
  | .pfc e qs => s.pfcFrame link e qs
  | .macControlOther => s
  | l3 =>
    if !tagAgrees (s.var (0x0110 + link)) f.tag then s.portEvent b .vlanRefused
    else match l3 with
      | .arp m => s.arpNd link f.srcMac m
      | .ip v6 headerOk fragment src dst solicited pl =>
        if !headerOk then s.portEvent b .ipRefused
        else if fragment then s.portEvent b .ipFragment
        else
          let addrs := s.linkAddrs link
          let nd := match solicited, pl with
            | some a, .icmp _ (.nd _) => v6 && addrs.contains a
            | _, _ => false
          if addrs.contains dst || nd then s.wake.ipPayload link f v6 src dst pl else s
      | _ => s.portEvent b .notGkp

/-- FRAME_RECEIVE (R106): the checks in their order; the first that fails decides. -/
def execFrameReceive (link : Nat) (frame : Frame) (s : State) : Host.Outcome State Fault Refusal :=
  if link < 8 && (s.link link).up then
    let b := isPortB link
    let s1 := { s with ports := if b then { s.ports with activeB := s.clock } else { s.ports with activeA := s.clock } }
    let s2 := if frame.fecOk then s1 else s1.portEvent b .fecUncorrected
    .next
      (if !frame.fcsOk || !frame.fecOk then s2.portEvent b .fcsError
       else if frame.length < 64 then s2.portEvent b .runt
       else if s2.mtu link + 22 < frame.length then s2.portEvent b .oversize
       else if !frame.bufferFree then s2.portEvent b .ingressDrop
       else if !dstOk frame then s2
       else (s2.frameL3 link frame).watch)
  else .next s

end Sys2Proof.Machine
end

