-- ==== Sys2Proof/Machine/Path.lean ====
section
/-! DEFINITION. The path of a data command from its range lock to its commit claim (R83, R206–R213): lookup at the grant, the
conditions and limits decided there, space, sealing and programming of a write, reading and opening of a read. -/

namespace Sys2Proof.Machine

/-! ### Operands of the data commands -/

/-- The object offset a command names: PARAM_A[31:0], or PARAM_B[31:0] in VERSIONS_NEXT (R156). -/
def Ctx.offset (x : Ctx) : Nat := (if x.opcode == 0x0E then x.paramB.toNat else x.paramA.toNat) % 2 ^ 32

/-- Is the command RELAYED (R157)? -/
def Ctx.relayed (x : Ctx) : Bool := relayedFlag x.opcode x.flags.toNat

/-- Does the command write PIN (R157)? -/
def Ctx.pin (x : Ctx) : Bool := (x.opcode == 0x02 || x.opcode == 0x03 || x.opcode == 0x05) && x.flags.getLsbD 3

/-- Does it write a value that an encrypted keyspace seals (R346)? -/
def Ctx.writesValue (x : Ctx) : Bool := x.opcode == 0x02 || x.opcode == 0x03 || x.opcode == 0x05

/-- The reply capacity of a command (R159): 2 048 packets of its session's path; 4 056 bytes through the mailbox (R460). -/
def State.replyCap (s : State) (x : Ctx) : Nat :=
  if x.mailbox then 4056
  else
    let p := match x.session.bind s.session? with
      | some y => y.path
      | none => x.path
    2048 * s.payload p

/-- Mode and range of a command's lock (R206). -/
def Ctx.lock (x : Ctx) : LockMode × Nat × Nat :=
  let whole := 2 ^ 32
  if x.opcode == 0x05 then (.write, x.offset, x.offset + x.valLen)
  else if isDataWrite x.opcode then (.write, 0, whole)
  else if x.opcode == 0x0D || x.valLen == 0 then (.read, 0, whole)
  else if x.valLen == 2 ^ 32 - 1 then (.read, x.offset, whole)
  else (.read, x.offset, x.offset + x.valLen)

/-- The reply of a decided command is kept until its commit claim. -/
def State.decideReply (s : State) (c : Nat) (r : Reply) : State :=
  s.updCtx c (fun x => { x with reply := r }.enter .ready s.clock)

/-! ### Lookup (R250, R254) -/

/-- What a lookup does to the Quince: the matched way is marked, and a key looked up QUINCE_ADMIT_READS times within the
window enters on heat (R250). -/
def State.noteLookup (s : State) (ks : Nat) (fp : BitVec 128) (e : Option Entry) : State :=
  let old := s.quince.heat.find? (fun h => h.1 == ks && h.2.1 == fp)
  let rest := s.quince.heat.filter (fun h => !(h.1 == ks && h.2.1 == fp))
  let cnt : Nat × Nat := match old with
    | some h => if s.clock ≤ h.2.2.2 + ms (s.var 0x0402) then (h.2.2.1 + 1, h.2.2.2) else (1, s.clock)
    | none => (1, s.clock)
  let touched := s.quince.rows.map (fun r =>
    if r.bank == qBank fp && r.row == qRowOf fp then { r with ways := upd (·.fp == fp) (fun w => { w with matched := s.clock }) r.ways } else r)
  let s1 := { s with quince := { s.quince with heat := (ks, fp, cnt.1, cnt.2) :: rest, rows := touched } }
  match e with
  | none => s1
  | some e =>
    if cnt.1 < s.var 0x0401 || s.qHolds fp || !s.qRoom (qBank fp) then s1
    else
      let len := ((s.rec? e.newest.loc).map Rec.length).getD 0
      s1.qEnter { n := 0, fp := fp, loc := e.newest.loc, len4k := min 255 (ceilDiv len 4096), priority := if e.newest.tomb then 15 else 8,
                  older := false, cached := s.store.cache.contains e.newest.loc, tomb := false, seg := e.newest.segs.isSome,
                  parityOk := true, matched := s.clock }

/-! ### A read's grant (R160–R163) -/

/-- GET at its grant (R160, R162). -/
def State.grantGet (s : State) (x : Ctx) : State :=
  match s.entry? x.keyspace x.fp x.key with
  | none => s.decideReply x.id (Reply.plain .notFound)
  | some e =>
    if e.newest.tomb then s.decideReply x.id (Reply.plain .notFound)
    else
      let t := s.matchLength e.newest
      let o := x.offset
      if t < o then s.decideReply x.id (Reply.plain .badLength)
      else
        let want := if x.valLen == 2 ^ 32 - 1 then t - o else x.valLen
        let n := min (min want (t - o)) (s.replyCap x)
        let pieces := match e.newest.segs with
          | some ss => segPieces ss o n
          | none => if n == 0 then [] else [(e.newest.loc, o, n)]
        let stamp := match e.newest.segs with
          | some ss => if n == 0 then e.newest.headStamp else (segStamps ss o n).foldl max 0
          | none => e.newest.stamp
        let r : Reply :=
          { status := if n < want && n < t - o then .more else .done
            flags := BitVec.ofNat 4 (8 * b1 (!e.older.isEmpty) + 4 * b1 e.newest.segs.isSome)
            paramA := BitVec.ofNat 64 stamp, paramB := BitVec.ofNat 64 (o * 2 ^ 32 + t), body := [] }
        if n == 0 then s.decideReply x.id r
        else s.updCtx x.id (fun y => { y with reply := r, recs := pieces }.enter .reading s.clock)

/-- HEAD at its grant (R161). -/
def State.grantHead (s : State) (x : Ctx) : State :=
  match s.entry? x.keyspace x.fp x.key with
  | none => s.decideReply x.id (Reply.plain .notFound)
  | some e =>
    if e.newest.tomb then s.decideReply x.id (Reply.plain .notFound)
    else s.decideReply x.id
      { status := .done, flags := BitVec.ofNat 4 (8 * b1 (!e.older.isEmpty) + 4 * b1 e.newest.segs.isSome)
        paramA := BitVec.ofNat 64 e.newest.headStamp, paramB := BitVec.ofNat 64 (s.matchLength e.newest), body := [] }

/-- VERSIONS_NEXT at its grant (R163, R239). -/
def State.grantVersions (s : State) (x : Ctx) : State :=
  match (s.entry? x.keyspace x.fp x.key).bind (fun e => (s.versionsNext e x.offset x.paramA.toNat).map (fun r => (e, r))) with
  | none => s.decideReply x.id (Reply.plain .notFound)
  | some (e, r) =>
    let o := x.offset
    let multi := r.prev != 0 || e.locs.any (fun l => (s.rec? l).any (·.stamp < r.stamp))
    let last := if r.kind == 3 then 0 else r.segOff + r.valLen
    let want := if x.valLen == 2 ^ 32 - 1 then last - o else x.valLen
    let n := if r.kind == 3 then 0 else min (min want (last - o)) (s.replyCap x)
    let rep : Reply :=
      { status := if n < want && n < last - o then .more else .done
        flags := BitVec.ofNat 4 (8 * b1 multi + 4 * b1 (r.kind == 2) + 2 * b1 (r.kind == 3))
        paramA := BitVec.ofNat 64 r.stamp, paramB := BitVec.ofNat 64 (o * 2 ^ 32 + last), body := [] }
    if n == 0 then s.decideReply x.id rep
    else s.updCtx x.id (fun y => { y with reply := rep, recs := [(r.loc, o - r.segOff, n)] }.enter .reading s.clock)

/-! ### A write's grant (R164–R169, R376) -/

/-- What a RELAYED record command comes to at its grant (R376). -/
inductive Verdict where
  | apply | already | diverge
  deriving DecidableEq, Repr

/-- M of R376: the key's stamp, or the highest stamp of the segments an append overlaps; none without a match. -/
def State.heldStamp (s : State) (x : Ctx) : Option Nat :=
  match s.entry? x.keyspace x.fp x.key with
  | none => none
  | some e =>
    if x.opcode == 0x05 then
      match segStamps (s.segsOf e.newest) x.offset x.valLen with
      | [] => none
      | st => some (st.foldl max 0)
    else some e.newest.headStamp

/-- CRC-64 of the key and the bytes held under a stamp (R376); none where no record under it can be read. -/
def State.heldCrc (s : State) (x : Ctx) (stamp : Nat) : Option (BitVec 64) :=
  match (s.entry? x.keyspace x.fp x.key).bind (fun e => e.locs.findSome? (fun l => (s.rec? l).bind (fun r => if r.stamp == stamp then some r else none))) with
  | none => none
  | some r => (s.openRec r).map (fun d => crc64 (x.key ++ d))

/-- The comparison of R376. -/
def State.verdict (s : State) (x : Ctx) (p : Prefix) : Verdict :=
  match s.heldStamp x with
  | none => .apply
  | some m =>
    if m < p.stamp then .apply
    else if p.stamp < m then .already
    else if s.heldCrc x m == some p.crc then .already else .diverge

/-- The record length a write needs (R294). -/
def State.newLength (s : State) (x : Ctx) : Nat :=
  let enc := x.writesValue && (s.keyspace? x.keyspace).any (·.encrypted)
  recordLength x.key.length (if x.writesValue then x.valLen else 0) enc

/-- Segments of the object after an APPEND_SEGMENT. -/
def State.segsAfter (s : State) (x : Ctx) (loc stamp : Nat) : List Seg :=
  let old := match s.entry? x.keyspace x.fp x.key with
    | some e => s.segsOf e.newest
    | none => []
  segInsert old { offset := x.offset, length := x.valLen, skip := 0, loc := loc, stamp := stamp, digest := x.flags.getLsbD 0 }

/-- Locations that stay mapped when a write commits. -/
def State.keptLocs (s : State) (x : Ctx) : List Nat :=
  if x.opcode == 0x05 then (s.segsAfter x 0 0).map (·.loc) else []

/-- On-flash bytes of the key's records that the write's commit will unmap (R306). -/
def State.unmapBytes (s : State) (x : Ctx) : Nat :=
  match s.entry? x.keyspace x.fp x.key with
  | none => 0
  | some e => ((e.locs.filter (fun l => !(s.keptLocs x).contains l)).map (fun l => ((s.rec? l).map Rec.length).getD 0)).sum

/-- Sum of the committed value lengths of a keyspace (BYTES_STORED, R177). -/
def State.bytesStored (s : State) (ks : Nat) : Nat := ((s.committed ks).map (fun e => s.matchLength e.newest)).sum

/-- The committed length of a key now, and after the write (R175 quota). -/
def State.lengthAfter (s : State) (x : Ctx) : Nat :=
  if x.opcode == 0x05 then ((s.segsAfter x 0 0).map (fun g => g.offset + g.length)).foldl max 0
  else if x.opcode == 0x02 || x.opcode == 0x03 then x.valLen else 0

/-- The capacity limits a write would breach (R167), as reasons. -/
def State.breaches (s : State) (x : Ctx) (k : Keyspace) : List Nat :=
  let o := k.fence
  let growth : Int := (s.newLength x : Int) - s.unmapBytes x
  let reserved : Int := ((s.inFlight o).map (·.growth)).sum
  let now := match s.entry? x.keyspace x.fp x.key with
    | some e => s.matchLength e.newest
    | none => 0
  let adds := (s.entry? x.keyspace x.fp x.key).isNone && x.opcode != 0x06 && x.opcode != 0x07
  (if (userCapacity (s.owner o).held : Int) < (s.storedBytes o : Int) + reserved + growth then [1] else [])
    ++ (if k.quota != 0 && now < s.lengthAfter x && k.quota < s.bytesStored k.id - now + s.lengthAfter x then [2] else [])
    ++ (if adds && 8589934592 ≤ s.store.entries.length then [3] else [])
    ++ (if x.opcode == 0x05 && 65536 < (s.segsAfter x 0 0).length then [4] else [])

/-- Has a group of the owner stale data: slots written that no mapped record and no write in flight uses (R306)? -/
def State.hasStale (s : State) (o : Nat) : Bool :=
  (s.store.groups.filter (·.owner == o)).any (fun g =>
    let live := ((s.store.recs.filter (fun r => r.group == g.num && s.mappedRec r)).map (fun r => ceilDiv r.length 16384)).sum
    let flying := ((s.net.ctxs.filter (fun x => x.newGroup == g.num && x.newLoc != 0 && !x.committed)).map (fun x => ceilDiv x.reserved 16384)).sum
    live + flying < g.written)

/-- Programs a write's record in its owner's open SLC group (R299); without SLC space the write waits (R301). -/
def State.program (s : State) (x : Ctx) (k : Keyspace) : State :=
  let fine := x.writesValue && s.goesFine x.fp x.reserved
  let take := match s.takeSlots k.fence true fine false x.reserved with
    | some r => some r
    | none => if fine then s.takeSlots k.fence true false false x.reserved else none
  match take with
  | none => s.toPhase x.id .spaceWait
  | some (s1, g, _, loc) =>
    let s2 := s1.updOwner k.fence (fun o => { o with lastOp := s.clock })
    s2.updCtx x.id (fun y => { y with newLoc := loc, newGroup := g.num }.enter .programming s.clock)

/-- A granted write goes on where its owner has space: to its cipher job, or to its program; otherwise it waits for erases,
or ends NO_SPACE where nothing stale could be erased (R306). -/
def State.proceed (s : State) (x : Ctx) : State :=
  match s.keyspace? x.keyspace with
  | none => s.endStatus x.id .badKeyspace
  | some k =>
    if x.sealGen.isNone && 100 * s.freeSpace k.fence < s.var 0x0603 * s.dataCapacity k.fence then
      if s.hasStale k.fence then s.toPhase x.id .spaceWait else s.endCmd x.id (Reply.withA .noSpace 1)
    else if x.writesValue && k.encrypted && x.sealGen.isNone then s.toPhase x.id .sealing
    else s.program x k

/-- Checks of a write at its grant that end it, beside capacity: its conditions (R164–R168). -/
def State.writeRefusal (s : State) (x : Ctx) : Option Status :=
  let e := s.entry? x.keyspace x.fp x.key
  let committed := e.any (fun e => !e.newest.tomb)
  if x.relayed then
    (if x.opcode == 0x05 && (e.map (fun e => s.matchLength e.newest)).getD 0 < x.offset then some .badLength else none)
  else if x.opcode == 0x02 || x.opcode == 0x03 then
    (if x.flags.getLsbD 1 && committed then some .exists'
     else if x.flags.getLsbD 2 && !committed then some .notFound else none)
  else if x.opcode == 0x04 then (if committed then none else some .notFound)
  else if x.opcode == 0x05 then
    (if (e.map (fun e => s.matchLength e.newest)).getD 0 < x.offset then some .badLength else none)
  else if e.isNone then some .notFound else none

/-- A write at its grant (R164–R169, R231, R306, R376). -/
def State.grantWrite (s : State) (x : Ctx) : State :=
  match s.keyspace? x.keyspace with
  | none => s.endStatus x.id .badKeyspace
  | some k =>
    if s.collides k.id x.fp x.key then
      (s.logEvent 0x0403 (pack [(12, k.id), (12, 0), (128, x.fp.toNat), (8, x.opcode), (96, 0)])).endStatus x.id .deviceFault
    else if x.pre.any (fun p => s.verdict x p == .already) then s.endStatus x.id .alreadyDone
    else match s.writeRefusal x with
      | some st => s.endStatus x.id st
      | none =>
        match s.breaches x k with
        | r :: _ => s.endCmd x.id (Reply.withA .noSpace r)
        | [] =>
          let s1 := if x.writesValue then s.heatUp x.fp else s
          let s2 := s1.qTentative x.fp (tentativePriority x.opcode x.relayed) x.pin
          let s3 := s2.updCtx x.id (fun y => { y with reserved := s.newLength x, growth := (s.newLength x : Int) - s.unmapBytes x })
          match s3.ctx? x.id with
          | some y => s3.proceed y
          | none => s3

/-- A command whose lock has been granted runs its lookup and goes on (R254). -/
def State.granted (s : State) (x : Ctx) : State :=
  let s1 := s.noteLookup x.keyspace x.fp (s.entry? x.keyspace x.fp x.key)
  if x.opcode == 0x01 then s1.grantGet x
  else if x.opcode == 0x0D then s1.grantHead x
  else if x.opcode == 0x0E then s1.grantVersions x
  else s1.grantWrite x

/-- Is a bucket of the key under repair (R409)? Lookups of the key wait. -/
def State.repairing (s : State) (fp : BitVec 128) : Bool := s.coh.repairs.any (fun r => r.1 == bucket1 fp || r.1 == bucket2 fp)

/-- Serves every command that holds its lock and has not gone on, until none is left. -/
def State.settleN : Nat → State → State
  | 0, s => s
  | fuel + 1, s =>
    match s.net.ctxs.find? (fun x => x.phase == .waiting && s.holdsLock (.cmd x.id) && !s.repairing x.fp) with
    | some x => State.settleN fuel (s.granted x)
    | none => s

/-- Serves the grants that the last grant passes signalled; the watermarks follow. -/
def State.settle (s : State) : State := (s.settleN (s.net.ctxs.length + 1)).watch

/-- Writes that wait for space try again (R306), oldest first. -/
def State.retrySpace (s : State) : State :=
  (s.net.ctxs.filter (fun x => x.phase == .spaceWait)).foldl (fun t x =>
    match t.ctx? x.id with
    | some y => t.proceed y
    | none => t) s

/-! ### Reading (R160, R303, R360) -/

/-- A record as it supplies a reply: its whole plaintext, or the status of its failure (R160). CHECK_DIGEST is bit 0. -/
def State.supplied (s : State) (x : Ctx) (piece : Nat × Nat × Nat) : Status × Bytes × Bool :=
  match s.rec? piece.1 with
  | none => (.mediaError, [], false)
  | some r => match s.openRec r with
    | none => (.authFail, [], false)
    | some d =>
      match r.digest with
      | some g => if x.flags.getLsbD 0 && x.opcode != 0x0D && crc64 d != g then (.digestMismatch, [], false) else (.done, (d.drop piece.2.1).take piece.2.2, true)
      | none => (.done, (d.drop piece.2.1).take piece.2.2, false)

/-- A read whose records have been read, and opened: its reply (R154, R158, R160). -/
def State.finishRead (s : State) (x : Ctx) : State :=
  let got := x.recs.map (s.supplied x)
  let n := (x.recs.map (·.2.2)).sum
  let auth := (got.filter (·.1 == .authFail)).length
  let bad := (got.filter (·.1 == .digestMismatch)).length
  let holdBack := (s.keyspace? x.keyspace).any (·.holdBack)
  let s0 := { s with counts := { s.counts with authFails := s.counts.authFails + auth } }
  let s1 := (List.range bad).foldl (fun t _ => t.digestEvent x.keyspace 3 x.opcode x.fp) s0
  if x.readFail == some .mediaError || got.any (·.1 == .mediaError) then s1.decideReply x.id (Reply.plain .mediaError)
  else if 0 < auth then
    s1.decideReply x.id { x.reply with status := .authFail, flags := 0, body := if holdBack then [] else List.replicate n 0 }
  else if 0 < bad then s1.decideReply x.id (Reply.plain .digestMismatch)
  else
    let checked := x.flags.getLsbD 0 && !got.isEmpty && got.all (·.2.2)
    let body := (got.map (·.2.1)).flatten
    let place := s.cacheAdmits x.fp true && !(x.opcode == 0x01 && x.flags.getLsbD 1)
    let s2 := if place then x.recs.foldl (fun t p => match t.rec? p.1 with
        | some r => t.cachePut r
        | none => t) s1 else s1
    (s2.updCtx x.id (fun y => { y with outCells := ceilDiv body.length 4096 })).decideReply x.id
      { x.reply with flags := x.reply.flags ||| (if checked then 1 else 0), body := body }

/-- Reads a command's records, with what the ladder of R303 came to. -/
def State.readAll (s : State) (x : Ctx) (o : ReadOutcome) : Bool × State :=
  x.recs.foldl (fun a p =>
    match a.2.rec? p.1 with
    | none => a
    | some r =>
      let q := a.2.readRec r o
      (a.1 && q.1, if q.1 then q.2 else q.2.poisonRec p.1)) (true, s)

/-- PAGE_READ_COMPLETE (R303, R304): the records a read resolved have been read, or one could not be. A record that has gone
meanwhile is resolved again (R254). Room for the reply's cells is awaited (R329). -/
def execPageReadComplete (c : Nat) (outcome : ReadOutcome) (s : State) : Host.Outcome State Fault Refusal :=
  match s.ctx? c with
  | none => .next s
  | some x =>
    if x.phase != .reading then .next s
    else if x.recs.any (fun p => (s.rec? p.1).isNone) then .next (s.granted x)
    else if !x.mailbox && s.cellsFree x.pool < ceilDiv (x.recs.map (·.2.2)).sum 4096
        && s.cellsFree egressPart < ceilDiv (x.recs.map (·.2.2)).sum 4096 then .next s
    else
      let r := (s.updOwner (s.ksOwner x.keyspace) (fun o => { o with lastOp := s.clock })).readAll x outcome
      if !r.1 then .next ((r.2.updCtx c (fun y => { y with readFail := some .mediaError })).decideReply c (Reply.plain .mediaError))
      else if x.recs.any (fun p => (s.rec? p.1).any (·.sealed.isSome)) then .next (r.2.toPhase c .opening)
      else .next (r.2.finishRead x)

/-! ### Sealing and programming -/

/-- The record a write stores, before its stamp (R294, R238): KIND, PREV, DIGEST and the rest of its header. -/
def State.draft (s : State) (x : Ctx) : Rec :=
  let e := s.entry? x.keyspace x.fp x.key
  let kind := if x.writesValue then (if x.opcode == 0x05 then 2 else 1) else if x.opcode == 0x04 then 3 else 4
  let prev := match e with
    | none => 0
    | some e => if kind == 4 then 0
      else if kind == 2 then
        (if e.newest.tomb then e.newest.loc
         else ((s.segsOf e.newest).find? (fun g => g.offset ≤ x.offset && x.offset < g.offset + g.length)).map (·.loc) |>.getD 0)
      else e.newest.prevAt 0
  { loc := x.newLoc, kind := kind, keyspace := x.keyspace, secure := x.opcode == 0x07, sealed := none,
    digest := if x.writesValue && x.flags.getLsbD 0 then some x.paramB else none, key := x.key,
    valLen := if x.writesValue then x.valLen else 0, segOff := if kind == 2 then x.offset else 0, fp := x.fp, stamp := 0, prev := prev,
    data := if x.writesValue then x.body else [], gcmTag := 0, group := x.newGroup,
    slot := match s.group? x.newGroup with
      | some g => if g.fine then (x.newLoc - 2 ^ 38 - g.base) / 4 else (x.newLoc - 512 * g.base) / 32
      | none => 0
    poison := false }

/-- Seals a write's value under the key its job started with: its cells hold ciphertext and tag from now on (R346). A key
erased meanwhile leaves the command to the alarm that erased it (R365). -/
def State.sealWrite (s : State) (x : Ctx) : State :=
  match s.keyspace? x.keyspace, x.sealGen with
  | some k, some (gen, use) =>
    match (s.page k.keyPage).slotOf gen with
    | some slot =>
      let r := ({ s.draft x with sealed := some (gen, use) }).seal slot use x.body
      let s1 := s.updCtx x.id (fun y => { y with body := r.data ++ bytesOfNat 16 r.gcmTag.toNat })
      match s1.ctx? x.id with
      | some y => s1.program y k
      | none => s1
    | none => s.endStatus x.id .deviceFault
  | _, _ => s

/-- CIPHER_JOB_ARRIVE (R361, R362): the job of a command at its cipher step, of a sweep, of a Sieve visit or of a forward. -/
def execCipherJobArrive (job : JobOf) (s : State) : Host.Outcome State Fault Refusal :=
  if s.hasJob job then .next s
  else
    let make (ks cls age : Nat) : State :=
      State.watch (s.jobArrive { of' := job, owner := s.pipeOwner ks, cls := cls, age := age, waited := 0, since := s.clock })
    match job with
    | .cmd c => match s.ctx? c with
      | some x =>
        if x.phase == .sealing then .next (make x.keyspace 1 x.age)
        else if x.phase == .opening then
          let big := x.recs.any (fun p => (s.rec? p.1).any (fun r => 1024 * s.var 0x0803 < r.length))
          .next (make x.keyspace (if big then 2 else 3) x.age)
        else .next s
      | none => .next s
    | .sweep page loc => match s.rec? loc with
      | some r => if (s.page page).sweep.isSome && s.isMapped loc then .next (make r.keyspace 0 (s.time * 512)) else .next s
      | none => .next s
    | .sieve slot => match s.sieves.list.find? (·.slot == slot) with
      | some v => .next (make v.keyspace 0 v.age)
      | none => .next s
    | .relay slot => match s.relay.slots.find? (·.id == slot) with
      | some r => .next (make r.keyspace 0 (s.time * 512))
      | none => .next s

/-- CIPHER_JOB_END (R362): the running job ends with its tag, and the pipeline runs its next job. A sealed write goes to its
program, an opened read to its reply. Sweep, Sieve and forward jobs do their work in their own rows. -/
def execCipherJobEnd (pipe : Nat) (s : State) : Host.Outcome State Fault Refusal :=
  match s.cipher.pipes.find? (·.n == pipe) with
  | none => .next s
  | some p =>
    match p.running with
    | none => .next s
    | some j =>
      let s1 := s.setPipe { p with running := none }
      let s2 := match j.of' with
        | .cmd c => match s1.ctx? c with
          | some x =>
            if x.phase == Phase.sealing then s1.sealWrite x
            else if x.phase == Phase.opening then
              (if x.recs.any (fun q => (s1.rec? q.1).isNone) then s1.granted x else s1.finishRead x)
            else s1
          | none => s1
        | _ => s1
      .next ((s2.nextJob pipe).settle)

/-! ### Entering and leaving the range-lock table -/

/-- The age of a background item: it is made now. -/
def State.ageNow (s : State) : Nat := s.time * 512 + 511

/-- The range a record covers (R206). -/
def Rec.range (r : Rec) : Nat × Nat := if r.kind == 2 then (r.segOff, r.segOff + r.valLen) else (0, 2 ^ 32)

/-- Is a command at the head of its session queue, or one that does not queue (R214)? -/
def State.atHead (s : State) (x : Ctx) : Bool :=
  x.reexec || (match x.session.bind s.session? with
    | some y => y.queue.head? == some x.id
    | none => true)

/-- A command leaves its session queue (R214). -/
def State.dequeue (s : State) (x : Ctx) : State :=
  match x.session with
  | some n => s.updSession n (fun y => { y with queue := y.queue.filter (· != x.id) })
  | none => s

/-- Enters the MOVE lock of a relocation (R206, R308). -/
def State.enterMove (s : State) (kind : MoveKind) (loc : Nat) : State :=
  match s.rec? loc with
  | some r =>
    if s.isMapped loc && (s.lockOf (.move kind loc)).isNone && s.lockRoom r.keyspace r.fp then
      s.lockEnter r.keyspace r.fp { op := .move kind loc, mode := .move, start := r.range.1, stop := r.range.2, age := s.ageNow, held := false }
    else s
  | none => s

/-- A relocation under its MOVE lock: made where the lock is held and the record still mapped, abandoned otherwise; the lock
is released (R207, R225). -/
def State.finishMove (s : State) (kind : MoveKind) (loc : Nat) : State :=
  let s1 := if s.holdsLock (.move kind loc) then s.relocate loc id else s
  s1.lockLeave (.move kind loc)

/-- Relocates a record now where its MOVE lock is granted at once; otherwise the item waits for its grant (R212). -/
def State.moveNow (s : State) (kind : MoveKind) (loc : Nat) : State :=
  let s1 := s.enterMove kind loc
  if s1.holdsLock (.move kind loc) then s1.finishMove kind loc else s1

/-- RANGE_LOCK_ENTER (R213): a command that has its tokens, at the head of its session queue, or a background item, enters its
object's entry where there is one or a free one; what is granted goes on. -/
def execRangeLockEnter (op : LockOp) (s : State) : Host.Outcome State Fault Refusal :=
  match op with
  | .move kind loc => .next (s.enterMove kind loc).settle
  | .cmd c =>
    match s.ctx? c with
    | none => .next s
    | some x =>
      if x.phase == .locking && s.atHead x && s.lockRoom x.keyspace x.fp then
        let l := x.lock
        let s1 := (s.dequeue x).toPhase c .waiting
        .next (s1.lockEnter x.keyspace x.fp
          { op := op, mode := l.1, start := l.2.1, stop := l.2.2, age := x.age, held := false }).settle
      else .next s

/-- RANGE_LOCK_LEAVE (R207, R213): a background item makes or abandons its relocation and releases its MOVE. A command's lock
leaves with its commit point or its terminal status, which are rows of their own. -/
def execRangeLockLeave (op : LockOp) (s : State) : Host.Outcome State Fault Refusal :=
  match op with
  | .move kind loc => .next (s.finishMove kind loc).settle
  | .cmd c => match s.ctx? c with
    | some x => if x.committed then .next (s.lockLeave op).settle else .next s
    | none => .next (s.lockLeave op).settle

end Sys2Proof.Machine
end

