-- ==== Sys2Proof/Machine/Relay.lean ====
section
/-! DEFINITION. Relay chains (R371–R396): the chain of a key, relay slots and forwards, faults, late faults, resync and seed. -/

namespace Sys2Proof.Machine

/-! ### Maps and chains (R371, R389, R390) -/

/-- Does the map cover a keyspace (R389)? -/
def OrchardMap.covers (m : OrchardMap) (ks : Nat) : Bool := (m.cover.getD (ks / 8) 0).getLsbD (7 - ks % 8)

/-- The placement bucket of a key (R390). -/
def placement (ks : Nat) (key : Bytes) : Nat := (crc64 (bytesOfNat 2 (ks % 4096) ++ key)).toNat % 65536

/-- The map chain of a key: module IDs, head first. -/
def OrchardMap.chain (m : OrchardMap) (ks : Nat) (key : Bytes) : List Nat := m.buckets.getD (placement ks key) []

/-- The successors of a key in a chain (R371, R390). -/
def State.successors (s : State) (k : Keyspace) (key : Bytes) : List Succ :=
  match k.chain with
  | none => []
  | some c =>
    if !c.fromMap then c.succs
    else match s.relay.map with
      | none => []
      | some m =>
        let ch := m.chain k.id key
        if m.covers k.id && ch.head? == some m.self then
          ((ch.drop 1).take 3).filterMap (fun i => (m.modules.find? (·.id == i)).map (·.succ))
        else []

/-- The relay timeout of a chain in ms (R183, R397). -/
def State.chainTimeout (s : State) (c : Chain) : Nat := if c.timeout == 0 then s.var 0x0901 else c.timeout

/-! ### Routes (R113) -/

/-- Does a link's prefix contain an address? -/
def State.inPrefix (s : State) (link : Nat) (a : Addr) : Bool :=
  let own := s.var ((if a.v6 then 0x0130 else 0x0120) + link)
  let len := s.var ((if a.v6 then 0x0138 else 0x0128) + link)
  let width := if a.v6 then 128 else 32
  own != 0 && own / 2 ^ (width - len) == a.val / 2 ^ (width - len)

/-- The link for traffic the module initiates, and the next hop (R113). -/
def State.route (s : State) (a : Addr) : Option (Nat × Addr) :=
  let up := (List.range 8).filter (fun l => (s.link l).up)
  match up.find? (fun l => s.inPrefix l a) with
  | some l => some (l, a)
  | none =>
    let gw (portB : Bool) : Addr := ⟨a.v6, s.var (if a.v6 then (if portB then 0x0145 else 0x0144) else (if portB then 0x0143 else 0x0142))⟩
    match [false, true].find? (fun b => (gw b).val != 0) with
    | none => none
    | some b => (up.find? (fun l => isPortB l == b && s.inPrefix l (gw b))).map (fun l => (l, gw b))

/-- The MAC of a next hop: from the neighbour table, else what ARP or Neighbor Discovery resolves it to, a free value. -/
def State.nextMac (s : State) (link : Nat) (a : Addr) : Nat :=
  match s.ports.neighbours.find? (fun n => n.1 == isPortB link && n.2.1 == a) with
  | some n => n.2.2.1
  | none => Config.choice s.rnd % 2 ^ 48

/-! ### Slots (R379, R380) -/

/-- Slots that seeds and resyncs hold. -/
def State.seedSlots (s : State) : Nat := (s.relay.slots.filter (fun r => r.kind != .live)).length

/-- A slot for a write that waits for one (R379). -/
def State.newSlot (s : State) (x : Ctx) (succs : List Succ) (timeout : Nat) : RelaySlot :=
  { id := s.net.nextId, ctx := some x.id, kind := .live, keyspace := x.keyspace, opcode := x.opcode, loc := 0, key := x.key, fp := x.fp,
    stamp := 0, seg := none, marker := 0, succs := succs, hop := 1, waiting := true, sentAt := none, seq := 0, session := 0, backoff := none,
    timeout := timeout, mailbox := x.mailbox, issuer := if x.relayed then none else x.session, tag := x.tag, cmdSeq := x.seq,
    posted := x.opcode == 0x03 && !x.relayed, sends := 0, ended := none, acked := false }

/-- The successors a write will be forwarded to: a FROM_MAP chain never cascades (R374). -/
def State.writeChain (s : State) (x : Ctx) : List Succ :=
  match s.keyspace? x.keyspace with
  | none => []
  | some k => if x.relayed && (k.chain.map (·.fromMap)).getD true then [] else s.successors k x.key

/-- Grants relay slots to the writes that wait for one, oldest first (R379); a write without successors needs none. -/
def State.grantSlots (s : State) : State :=
  let waiting := s.net.ctxs.filter (fun x => x.phase == .relayWait)
  let ordered := waiting.foldl (fun l x => (l.filter (fun y => y.age ≤ x.age)) ++ [x] ++ l.filter (fun y => x.age < y.age)) []
  ordered.foldl (fun t x =>
    let succs := t.writeChain x
    if succs.isEmpty then t.toPhase x.id .ready
    else if 16384 ≤ t.relay.slots.length then t
    else
      let timeout := ((t.keyspace? x.keyspace).bind (·.chain)).map t.chainTimeout |>.getD (t.var 0x0901)
      let r := t.newSlot x succs timeout
      ({ t with net := { t.net with nextId := t.net.nextId + 1 }, relay := { t.relay with slots := t.relay.slots ++ [r] } } : State).toPhase x.id .ready) s

/-- A slot changed. -/
def State.updSlot (s : State) (id : Nat) (f : RelaySlot → RelaySlot) : State :=
  { s with relay := { s.relay with slots := upd (·.id == id) f s.relay.slots } }

/-- The successor a slot now addresses. -/
def RelaySlot.dest (r : RelaySlot) : Succ := r.succs.getD (r.hop - 1) default

/-- Bytes a forward carries: the record's plaintext, for a cut segment only its live bytes (R380, R386). -/
def State.forwardValue (s : State) (r : RelaySlot) : Bytes :=
  match s.rec? r.loc with
  | none => []
  | some x =>
    let d := (s.openRec x).getD []
    match r.seg, r.kind with
    | some g, .resync => (d.drop g.skip).take g.length
    | some g, .seed => (d.drop g.skip).take g.length
    | _, _ => d

/-- The initiator session to a successor: the open one, or a new one, whose number the successor chooses, and whose window it grants up
to RELAY_REQ_WINDOW (R130, R151). SESSION_OPEN takes sequence number 0. -/
def State.initiatorFor (s : State) (u : Succ) : Initiator × State :=
  match s.relay.initiators.find? (·.succ == u) with
  | some i => (i, s)
  | none =>
    let i : Initiator := { succ := u, num := Config.choice s.rnd % 2 ^ 17, next := 1,
                           limit := BitVec.ofNat 32 (2 + Config.choice (s.rnd + 1) % s.var 0x0905) }
    (i, { s.drawn.drawn with relay := { s.relay with initiators := s.relay.initiators ++ [i] } })

/-- The attributes of a keyspace, laid out as PARAM_A[12:0] of KEYSPACE_CREATE. -/
def Keyspace.attrs (k : Keyspace) : Nat :=
  k.fence + 16 * b1 k.encrypted + 32 * k.keyPage + 2048 * b1 k.holdBack + 4096 * b1 k.requireDigest

/-- The relay prefix of a forward (R375, R380): TAIL_ACK for every opcode but PUT_POSTED; a SEED_BEGIN carries the keyspace's attributes
and quota. -/
def State.forwardPrefix (s : State) (r : RelaySlot) : Prefix :=
  let k := if r.marker == 1 then s.keyspace? r.keyspace else none
  { tailAck := r.opcode != 0x03, resync := r.kind == .resync, seed := r.kind == .seed, marker := r.marker,
    origin := (s.relay.map.map (·.self)).getD 0, attrs := BitVec.ofNat 13 ((k.map (·.attrs)).getD 0), stamp := r.stamp,
    crc := if r.marker == 0 then crc64 (r.key ++ s.forwardValue r) else 0, quota := (k.map (·.quota)).getD 0 }

/-- Puts a forward's packets on a route (R380). -/
def State.putForward (s : State) (r : RelaySlot) (route : Nat × Addr) : State :=
  let p : Path :=
    { link := route.1, src := { mac := s.nextMac route.1 route.2, ip := r.dest.addr, port := r.dest.port,
                                dst := ((s.ownAddrs route.1).find? (·.v6 == r.dest.addr.v6)).getD default },
      pcp := s.var 0x010B }
  let s1 := s.sendFrame p p.pcp none (.forward r.session r.seq r.keyspace r.opcode ((r.seg.map (·.offset)).getD 0) (s.forwardPrefix r) r.key
    (s.forwardValue r))
  s1.updSlot r.id (fun x => { x with ended := some s1.clock })

/-- Does an earlier slot hold the same object (R380)? -/
def State.behindEarlier (s : State) (r : RelaySlot) : Bool :=
  s.relay.slots.any (fun q => q.id < r.id && q.keyspace == r.keyspace && q.key == r.key && q.marker == 0 && r.marker == 0
    && (q.kind == .live || r.kind == q.kind))

/-- Sends slots whose write has committed, that no earlier write of the object holds back, and for which the successor has
granted credit (R380, R381). What the successor has refused for credit goes again under its number. A send without a route is left for
`State.failStuck`. -/
def State.trySend (s : State) (id : Nat) : State :=
  match s.relay.slots.find? (·.id == id) with
  | none => s
  | some r =>
    if !r.waiting || (r.stamp == 0 && r.marker == 0) || s.behindEarlier r then s
    else
      let q := s.initiatorFor r.dest
      let i := q.1
      let seq := if 0 < r.sends && r.session == i.num then r.seq else i.next
      if seqDiff seq i.limit ≥ 0 then q.2
      else
        let r1 := { r with waiting := false, sentAt := some (r.sentAt.getD s.clock), seq := seq, session := i.num, sends := 1, ended := none, acked := false, backoff := none }
        let s1 := (q.2.updSlot id (fun _ => r1))
        let s2 := { s1 with relay := { s1.relay with initiators := upd (·.succ == r.dest) (fun j => if seq == j.next then { j with next := j.next + 1 } else j) s1.relay.initiators } }
        match s2.route r.dest.addr with
        | some p => s2.putForward r1 p
        | none => s2

/-- Every slot that can send, oldest first; and waiting writes get free slots. -/
def State.pumpSlots (s : State) : State :=
  let s1 := s.grantSlots
  (s1.relay.slots.map (·.id)).foldl State.trySend s1

/-- A committed write's slot takes its record and stamp and may send (R379). -/
def State.activateSlot (s : State) (c loc stamp : Nat) (seg : Option Seg) : State :=
  let s1 : State := { s with relay := { s.relay with slots := upd (fun r => r.ctx == some c) (fun r => { r with loc := loc, stamp := stamp, seg := seg }) s.relay.slots } }
  let own : List RelaySlot := s1.relay.slots.filter (fun r => r.ctx == some c)
  let s2 : State := { s1 with store := { s1.store with holds := s1.store.holds ++ own.map (fun r => (r.id, loc)) } }
  s2.pumpSlots

/-- Frees a slot: its read-hold ends. -/
def State.dropSlot (s : State) (id : Nat) : State :=
  { s with relay := { s.relay with slots := s.relay.slots.filter (·.id != id) }
           store := { s.store with holds := s.store.holds.filter (·.1 != id) } }

/-! ### Faults (R383, R384, R387) -/

/-- A pair of a keyspace and a successor. -/
def State.pair? (s : State) (ks : Nat) (u : Succ) : Option Pair := s.relay.pairs.find? (fun p => p.keyspace == ks && p.succ == u)

/-- A pair stored in place of the earlier one, or added. -/
def State.setPair (s : State) (p : Pair) : State :=
  { s with relay := { s.relay with pairs := p :: s.relay.pairs.filter (fun q => !(q.keyspace == p.keyspace && q.succ == p.succ)) } }

/-- A pair that nothing has happened to. -/
def Pair.fresh (ks : Nat) (u : Succ) (hop now : Nat) : Pair :=
  { keyspace := ks, succ := u, hop := hop, point := 0, since := now, running := false, started := 0, sends := 0, cursor := 0, part := 0,
    seeding := false, behind := false, discards := [], lost := 0, buckets := [],
    redo := none }

/-- One successor becomes, or stays, behind after a faulted write (R383, R386); a faulted discard, sent live or from the list, goes to its list (R387). -/
def State.makeBehind (s : State) (r : RelaySlot) (u : Succ) (hop : Nat) : State :=
  let p := (s.pair? r.keyspace u).getD (Pair.fresh r.keyspace u hop s.clock)
  let point := if p.behind then min p.point r.stamp else r.stamp
  let p1 := { p with behind := true, point := point, hop := if r.kind == .live then hop else p.hop, running := false, since := if p.behind && !p.running then p.since else s.clock }
  let isDiscard := r.marker == 0 && (r.opcode == 0x06 || r.opcode == 0x07)
  if isDiscard && 4096 ≤ p1.discards.length then
    let s1 := s.setPair { p1 with lost := p1.lost + 1 }
    ({ s1 with counts := { s1.counts with resyncLost := s1.counts.resyncLost + 1 } } : State).logEvent 0x0905
      (pack [(12, r.keyspace), (12, u.moduleId), (32, p1.lost + 1), (200, 0)])
  else s.setPair (if isDiscard then { p1 with discards := p1.discards ++ [(r.key, r.fp, r.stamp, r.opcode)] } else p1)

/-- A late fault of a posted write (R384): a notice to its session, or the journal. -/
def State.lateFault (s : State) (r : RelaySlot) (u : Succ) (reason : Nat) : State :=
  let f : LateFault :=
    { keyspace := r.keyspace, hop := r.hop, reason := reason, succ := u.moduleId, session := r.issuer.getD 0, tag := r.tag,
      mailbox := r.mailbox, stamp := r.stamp, fp := r.fp, seq := r.cmdSeq, key := r.key }
  match r.issuer with
  | none => s.journalLate f
  | some n =>
    if (s.session? n).any (fun y => y.closing.isNone) then
      let room := (s.session? n).any (fun y => y.notices.length < 16)
      let b := r.cmdSeq.toNat * 2 ^ 32 + u.moduleId * 65536 + r.tag * 2048 + r.hop * 256 + reason
      ({ s with counts := { s.counts with lateNotices := s.counts.lateNotices + b1 room } } : State).notify n
        { kind := .lateFault, keyspace := r.keyspace, paramA := BitVec.ofNat 64 r.stamp, paramB := BitVec.ofNat 64 b, value := r.key, late := some f }
    else s.journalLate f

/-- A forward faults (R383): the successor and those after it are behind, the first of them newly so is reported, the issuing
command ends RELAY_FAULT or its late fault is reported, and the slot is freed. Reason 5 reports nothing (R388). -/
def State.relayFault (s : State) (r : RelaySlot) (reason : Nat) : State :=
  let u := r.dest
  let s0 := { s with counts := { s.counts with relayFaults := s.counts.relayFaults + 1 } }
  let hops := (List.range r.succs.length).filter (fun i => r.hop ≤ i + 1)
  let s1 := hops.foldl (fun t i => t.makeBehind r (r.succs.getD i default) (i + 1)) s0
  let s2 := match hops.find? (fun i => !(s.pair? r.keyspace (r.succs.getD i default)).any (·.behind)) with
    | none => s1
    | some i =>
      let v := r.succs.getD i default
      let p := ((s1.pair? r.keyspace v).map Pair.point).getD 0
      let hop := ((s1.pair? r.keyspace v).map Pair.hop).getD 0
      let b := v.moduleId * 65536 + hop * 256 + reason
      ((s1.broadcast .relayFault r.keyspace (BitVec.ofNat 64 p) (BitVec.ofNat 64 b) []).logEvent 0x0902
        (pack [(12, r.keyspace), (12, v.moduleId), (2, hop), (6, 0), (8, reason), (64, p), (152, 0)])).alert .relayBehind
  let s3 := s2.dropSlot r.id
  let s4 := if reason == 5 then s3
    else match r.ctx.bind s3.ctx? with
      | some x => if x.phase == Phase.relaying then s3.endCmd x.id { x.reply with status := .relayFault } else s3
      | none => if r.posted then s3.lateFault r u reason else s3
  s4.pumpSlots

/-- Faults forwards that found no route, at once, with reason 3 (R381). -/
def State.failStuck : Nat → State → State
  | 0, s => s
  | fuel + 1, s =>
    match s.relay.slots.find? (fun r => !r.waiting && r.ended.isNone && r.sends == 1) with
    | some r => State.failStuck fuel (s.relayFault r 3)
    | none => s

/-- What relay activity leaves to do: forwards without a route fault, and grants are served. -/
def State.relaySettle (s : State) : State := (s.failStuck (s.relay.slots.length + 1)).settle

/-! ### Resync and seed (R386, R392) -/

/-- The keys a pair now looks at: from and below which fingerprint, and the least stamp. A resync looks at stamps of P and
above; a seed at every key from its cursor on; a seed that resumes after a fault looks first at the keys below its cursor with
stamps of P and above (R386, R392). -/
def Pair.scope (p : Pair) : Nat × Nat × Nat :=
  match p.redo with
  | some r => (r.1, r.2, p.point)
  | none => (p.cursor, 2 ^ 128, if p.seeding then 0 else p.point)

/-- The pair after the key of a fingerprint. -/
def Pair.past (p : Pair) (fp : Nat) : Pair :=
  match p.redo with
  | some r => { p with redo := some (fp + 1, r.2), part := 0 }
  | none => { p with cursor := fp + 1, part := 0 }

/-- Keys a resync or seed has still to send, in fingerprint order (R386, R392). Only keys whose chain has the successor are
sent, and after a map change only those of the buckets that gained it (R391). -/
def State.resyncKeys (s : State) (p : Pair) : List Entry :=
  let w := p.scope
  let es := s.store.entries.filter (fun e => e.keyspace == p.keyspace && w.1 ≤ e.fp.toNat && e.fp.toNat < w.2.1 && w.2.2 ≤ e.newest.headStamp
    && (s.keyspace? p.keyspace).any (fun k => (s.successors k e.key).contains p.succ)
    && (p.buckets.isEmpty || p.buckets.contains (placement e.keyspace e.key)))
  es.foldl (fun l e => (l.filter (fun x => x.fp.toNat ≤ e.fp.toNat)) ++ [e] ++ l.filter (fun x => e.fp.toNat < x.fp.toNat)) []

/-- A slot for one send of a resync or seed. -/
def State.pairSlot (s : State) (p : Pair) (opcode loc stamp marker : Nat) (key : Bytes) (fp : BitVec 128) (seg : Option Seg) : State :=
  let timeout := ((s.keyspace? p.keyspace).bind (·.chain)).map s.chainTimeout |>.getD (s.var 0x0901)
  let r : RelaySlot :=
    { id := s.net.nextId, ctx := none, kind := if p.seeding then .seed else .resync, keyspace := p.keyspace, opcode := opcode, loc := loc,
      key := key, fp := fp, stamp := stamp, seg := seg, marker := marker, succs := [p.succ], hop := 1, waiting := true, sentAt := none,
      seq := 0, session := 0, backoff := none, timeout := timeout, mailbox := false, issuer := none, tag := 0, cmdSeq := 0, posted := false,
      sends := 0, ended := none, acked := false }
  let s1 := { s with net := { s.net with nextId := s.net.nextId + 1 }, relay := { s.relay with slots := s.relay.slots ++ [r] },
                     store := { s.store with holds := (r.id, loc) :: s.store.holds } }
  s1.trySend r.id

/-- The next send of a running resync or seed: the next record of the key at the cursor, the next key, then the discard list,
then the end (R386, R392). -/
def State.pairNext (s : State) (p : Pair) : State :=
  if s.var 0x0904 ≤ s.seedSlots || 16384 ≤ s.relay.slots.length then s
  else match s.resyncKeys p with
    | e :: _ =>
      (match e.newest.segs with
       | some ss => match ss[p.part]? with
         | some g => (s.setPair { p with part := p.part + 1, sends := p.sends + 1 }).pairSlot p 0x05 g.loc g.stamp 0 e.key e.fp (some g)
         | none => s.setPair (p.past e.fp.toNat)
       | none =>
         (s.setPair { p.past e.fp.toNat with sends := p.sends + 1 }).pairSlot p
           (if e.newest.tomb then 0x04 else 0x02) e.newest.loc e.newest.stamp 0 e.key e.fp none)
    | [] =>
      if p.redo.isSome then s.setPair { p with redo := none }
      else match p.discards with
      | d :: rest => (s.setPair { p with discards := rest, sends := p.sends + 1 }).pairSlot p d.2.2.2 0 d.2.2.1 0 d.1 d.2.1 none
      | [] =>
        if p.seeding then (s.setPair { p with sends := p.sends + 1 }).pairSlot p 0x06 0 0 2 [0] 0 none
        else
          let done := s.logEvent 0x0903 (pack [(12, p.keyspace), (12, p.succ.moduleId), (32, p.sends), (32, (s.clock - p.started) / 1000000000), (168, 0)])
          { done with relay := { done.relay with pairs := done.relay.pairs.filter (fun q => !(q.keyspace == p.keyspace && q.succ == p.succ)) } }

/-- Runs a pair that has no send outstanding on to its next send; throttle stage 2 pauses it (R421). -/
def State.pairRun : Nat → State → Nat → Succ → State
  | 0, s, _, _ => s
  | fuel + 1, s, ks, u =>
    match s.pair? ks u with
    | none => s
    | some p =>
      if !p.running || 2 ≤ s.thermal.stage || s.relay.slots.any (fun r => r.kind != .live && r.keyspace == ks && r.succs == [u]) then s
      else State.pairRun fuel (s.pairNext p) ks u

/-- A pair's resync starts, or its seed, with a SEED_BEGIN (R386, R392). -/
def State.startPair (s : State) (p : Pair) : State :=
  let p1 := { p with running := true, started := s.clock, sends := 0, cursor := if p.seeding then p.cursor else 0, part := 0,
                     redo := if p.seeding && p.behind then some (0, p.cursor) else none }
  let s1 := s.setPair p1
  if p.seeding then (s1.pairSlot p1 0x06 0 0 1 [0] 0 none).relaySettle else (s1.pairRun 4 p.keyspace p.succ).relaySettle

/-- RESYNC_START (R386, R392): RESYNC_DELAY_MS after the pair became behind, its resync starts, or its seed resumes at its
cursor with a further SEED_BEGIN. -/
def execResyncStart (keyspace successor : Nat) (s : State) : Host.Outcome State Fault Refusal :=
  match s.relay.pairs.find? (fun p => p.keyspace == keyspace && p.succ.moduleId == successor && !p.running && (p.behind || p.seeding)) with
  | none => .next s
  | some p =>
    if !s.modes.mode.service || (p.behind && s.clock < p.since + ms (s.var 0x0902)) then .next s else .next (s.startPair p)

/-- RESYNC_STATE_SAVE (R388): each pair's point and discard list go to the run record. -/
def execResyncStateSave (s : State) : Host.Outcome State Fault Refusal :=
  .next { s with relay := { s.relay with stored := s.relay.pairs } }

/-! ### Answers and timeouts (R380–R382) -/

/-- The last successor has answered: the issuing command ends DONE, a resync goes on, a seed's SEED_END ends it (R382, R392). -/
def State.slotDone (s : State) (r : RelaySlot) : State :=
  let s1 := s.dropSlot r.id
  if r.kind != .live then
    match s1.pair? r.keyspace r.dest with
    | none => s1.pumpSlots
    | some p =>
      if r.marker == 2 then
        let s2 := s1.logEvent 0x0904 (pack [(12, p.keyspace), (12, p.succ.moduleId), (32, p.sends), (32, (s1.clock - p.started) / 1000000000), (168, 0)])
        ({ s2 with relay := { s2.relay with pairs := s2.relay.pairs.filter (fun q => !(q.keyspace == p.keyspace && q.succ == p.succ)) } } : State).pumpSlots
      else (s1.pairRun 4 r.keyspace r.dest).pumpSlots
  else
    let s2 := match r.ctx.bind s1.ctx? with
      | some x => if x.phase == Phase.relaying then s1.endCmd x.id x.reply else s1
      | none => s1
    s2.pumpSlots

/-- RELAY_FORWARD_ANSWER (R380, R381): DONE and ALREADY_DONE pass to the next successor or free the slot; BACKOFF, credit and
session refusals resend; any other status faults. -/
def execRelayForwardAnswer (slot : Nat) (answer : ForwardAnswer) (s : State) : Host.Outcome State Fault Refusal :=
  match s.relay.slots.find? (·.id == slot) with
  | none => .next s
  | some r =>
    if r.waiting then .next s
    else match answer with
      | .status code credit =>
        let s := s.takeCredit (·.succ == r.dest) credit
        if code == 0x00 || code == 0x04 then
          if r.hop < r.succs.length then
            .next ((s.updSlot slot (fun x => { x with hop := x.hop + 1, waiting := true, sentAt := none, sends := 0, backoff := none })).pumpSlots).relaySettle
          else .next (s.slotDone r).relaySettle
        else .next (s.relayFault r (0x80 + code)).relaySettle
      | .backoff hintUs credit => .next ((s.takeCredit (·.succ == r.dest) credit).updSlot slot (fun x => { x with backoff := some (s.clock + us hintUs), acked := true }))
      | .windowExceeded credit =>
        .next (((s.takeCredit (·.succ == r.dest) credit).updSlot slot (fun x => { x with waiting := true })).trySend slot).relaySettle
      | .noSession =>
        let s1 := { s with relay := { s.relay with initiators := s.relay.initiators.filter (fun i => !(i.succ == r.dest && i.num == r.session)) } }
        .next ((s1.updSlot slot (fun x => { x with waiting := true, sends := 0 })).trySend slot).relaySettle
      | .noRoute => .next (s.relayFault r 3).relaySettle

/-- RELAY_BACKOFF_RESEND (R381): the hint has run out; the same sequence number goes again. -/
def execRelayBackoffResend (slot : Nat) (s : State) : Host.Outcome State Fault Refusal :=
  match s.relay.slots.find? (·.id == slot) with
  | none => .next s
  | some r =>
    if r.backoff.any (· ≤ s.clock) then
      let r1 := { r with backoff := none, sends := 1, ended := none, acked := false }
      let s1 := s.updSlot slot (fun _ => r1)
      match s1.route r.dest.addr with
      | some p => .next (s1.putForward r1 p)
      | none => .next (s1.relayFault r1 3).relaySettle
    else .next s

/-- RELAY_TIMEOUT (R381): the chain's timeout since the first sending to this successor has passed, whatever it was answered
that made it wait: reason 4. -/
def execRelayTimeout (slot : Nat) (s : State) : Host.Outcome State Fault Refusal :=
  match s.relay.slots.find? (·.id == slot) with
  | none => .next s
  | some r => if r.sentAt.any (fun t => t + ms r.timeout ≤ s.clock) then .next (s.relayFault r 4).relaySettle else .next s

/-- A forward is retransmitted on the schedule of R144 (R151). -/
def State.retransmitForward (s : State) (r : RelaySlot) : State :=
  match r.ended with
  | none => s
  | some t =>
    if !r.waiting && !r.acked && r.sends < 8 && t + retransmitAfter r.sends ≤ s.clock then
      let r1 := { r with sends := r.sends + 1 }
      match s.route r.dest.addr with
      | some p => (s.updSlot r.id (fun _ => r1)).putForward r1 p
      | none => s.updSlot r.id (fun _ => { r1 with ended := some s.clock })
    else s

/-- RETRANSMIT (R144): of a reply or notice, or of a forward to a successor. -/
def execRetransmit (msg : Nat) (s : State) : Host.Outcome State Fault Refusal :=
  match s.relay.slots.find? (·.id == msg) with
  | some r => .next (s.retransmitForward r)
  | none => .next (s.retransmitKept msg)

/-- MESSAGE_UNANSWERED (R145): 3.2 ms after the eighth sending; a forward then faults with reason 2 (R381). -/
def execMessageUnanswered (msg : Nat) (s : State) : Host.Outcome State Fault Refusal :=
  match s.relay.slots.find? (·.id == msg) with
  | some r =>
    if r.waiting || r.acked then .next s
    else match r.ended with
      | some t => if 8 ≤ r.sends && t + us 3200 ≤ s.clock then .next (s.relayFault r 2).relaySettle else .next s
      | none => .next s
  | none => .next (s.keptUnanswered msg)

end Sys2Proof.Machine
end

