-- ==== Sys2Proof/Machine/Shaper.lean ====
section
/-! DEFINITION. Token buckets (R333–R341). -/

namespace Sys2Proof.Machine

/-- The rate that leaves a dimension unlimited (R336). -/
def unlimited : Nat := 2 ^ 64 - 1

/-- The lowest a reply's charge takes a byte count (R335). -/
def byteDebtFloor : Int := -18350080

/-- Accrual of one dimension over `dt` ns: count, remainder in 10^-9 units; never above the depth (R334). -/
def accrueCount (count : Int) (rem rate depth dt : Nat) : Int × Nat :=
  if rate == unlimited then (count, rem)
  else
    let total := rem + dt * rate
    let c := count + ((total / 1000000000 : Nat) : Int)
    if (depth : Int) ≤ c then (max count depth, 0) else (c, total % 1000000000)

/-- A shaper accrued to the present (R334). Operation counts are in 1/1024. -/
def Shaper.accrue (h : Shaper) (now : Nat) : Shaper :=
  let b := accrueCount h.bytes h.byteRem h.byteRate h.byteDepth (now - h.at')
  let o := accrueCount h.ops h.opRem (if h.opRate == unlimited then unlimited else 1024 * h.opRate) (1024 * h.opDepth) (now - h.at')
  { h with bytes := b.1, byteRem := b.2, ops := o.1, opRem := o.2, at' := now }

/-- Does an accrued bucket admit a command (R334, R336)? -/
def Shaper.admits (h : Shaper) : Bool := (h.byteRate == unlimited || 0 ≤ h.bytes) && (h.opRate == unlimited || 0 ≤ h.ops)

/-- The step-3 charge (R333, R334). -/
def Shaper.charge (h : Shaper) (bytes : Nat) : Shaper :=
  { h with bytes := if h.byteRate == unlimited then h.bytes else h.bytes - bytes
           ops := if h.opRate == unlimited then h.ops else h.ops - 1024 }

/-- A reply's charge, with the floor of R335. -/
def Shaper.chargeReply (h : Shaper) (bytes : Nat) : Shaper :=
  { h with bytes := if h.byteRate == unlimited then h.bytes else max (min h.bytes byteDebtFloor) (h.bytes - bytes) }

/-- The step-3 bytes of a command (R333). -/
def Ctx.shapedBytes (x : Ctx) : Nat :=
  if isSieve x.opcode then 0 else if x.writesValue then x.keyLen + x.valLen else x.keyLen

/-- Is the command charged (R333)? -/
def Ctx.isShaped (x : Ctx) : Bool := isQueued x.opcode && !x.relayed

/-- Changes the shaper of a keyspace; one that has none, or whose shaper is stopped, is unchanged. -/
def State.onKsShaper (s : State) (ks : Nat) (f : Shaper → Shaper) : State :=
  s.updKeyspace ks (fun k => { k with shaper := k.shaper.map (fun h => if h.stopped then h else f h) })

/-- Changes the shaper of an owner. -/
def State.onOwnerShaper (s : State) (o : Nat) (f : Shaper → Shaper) : State :=
  s.updOwner o (fun w => { w with shaper := w.shaper.map f })

/-- Charges a reply's body bytes to its keyspace's bucket and the owner's (R333, R335). -/
def State.chargeReply (s : State) (x : Ctx) (bytes : Nat) : State :=
  (s.onKsShaper x.keyspace (fun h => (h.accrue s.clock).chargeReply bytes)).onOwnerShaper (s.ksOwner x.keyspace)
    (fun h => (h.accrue s.clock).chargeReply bytes)

/-- Is the command the oldest that waits at its keyspace's bucket, or, once it holds those tokens, at the owner's (R86,
R334)? Only heads of session queues wait. -/
def State.firstWaiter (s : State) (x : Ctx) : Bool :=
  !(s.net.ctxs.any (fun y => y.id != x.id && y.phase == .shaping && y.isShaped && y.ksTokens == x.ksTokens && s.atHead y && y.age < x.age
    && (if x.ksTokens then s.ksOwner y.keyspace == s.ksOwner x.keyspace else y.keyspace == x.keyspace)))

/-- The shaper that would hold a command back at its keyspace: none where it has none or it is stopped (R341). -/
def State.ksShaper (s : State) (ks : Nat) : Option Shaper :=
  match (s.keyspace? ks).bind (·.shaper) with
  | some h => if h.stopped then none else some (h.accrue s.clock)
  | none => none

/-- A command passes its keyspace's bucket and takes its tokens, where it may (R334). -/
def State.takeKsTokens (s : State) (x : Ctx) : State :=
  match s.ksShaper x.keyspace with
  | none => s.updCtx x.id (fun y => { y with ksTokens := true })
  | some h =>
    if s.firstWaiter x && h.admits then
      (s.onKsShaper x.keyspace (fun h => (h.accrue s.clock).charge x.shapedBytes)).updCtx x.id (fun y => { y with ksTokens := true })
    else s

/-- A command has its tokens: it leaves the session queue where it takes no lock, or goes on to its range-lock entry
(R214). -/
def State.shaped (s : State) (x : Ctx) : State :=
  if x.opcode == 0x08 || isSieve x.opcode then (s.dequeue x).toPhase x.id .ready else s.toPhase x.id .locking

/-- A command that holds its keyspace's tokens passes the owner's bucket, where it may (R334). -/
def State.takeOwnerTokens (s : State) (x : Ctx) : State :=
  let o := s.ksOwner x.keyspace
  match (s.owner o).shaper with
  | none => s.shaped x
  | some h =>
    if s.firstWaiter x && (h.accrue s.clock).admits then
      (s.onOwnerShaper o (fun h => (h.accrue s.clock).charge x.shapedBytes)).shaped x
    else s

/-- SHAPER_ADMIT (R333–R337): the command at the head of its session queue takes the tokens of its keyspace's bucket and then
of the owner's, each when both counts are 0 or above and no older command waits there. -/
def execShaperAdmit (c : Nat) (s : State) : Host.Outcome State Fault Refusal :=
  match s.ctx? c with
  | none => .next s
  | some x =>
    if x.phase != .shaping || !s.atHead x then .next s
    else if !x.isShaped then .next (s.shaped x)
    else
      let s1 := if x.ksTokens then s else s.takeKsTokens x
      match s1.ctx? c with
      | none => .next s1
      | some y => if y.ksTokens then .next (s1.takeOwnerTokens y) else .next s1

end Sys2Proof.Machine
end

