-- ==== Sys2Proof/Machine/Sieve.lean ====
section
/-! DEFINITION. Sieve content scans (R266–R289): descriptors, matching, visits, batches, and what the sieve commands do at
their commit claims. -/

namespace Sys2Proof.Machine

/-! ### The descriptor (R267–R269) -/

/-- One pattern entry (R268). -/
def parsePattern (b : Bytes) : Pattern :=
  let n := natOfBytes b
  { numeric := bits n 1151 1144 == 2, priority := bits n 1143 1136, signed := bit n 1130, little := bit n 1129, floating := bit n 1128,
    length := bits n 1127 1120, op := bits n 1119 1112, offset := bits n 1087 1056, window := bits n 1055 1024,
    pattern := (b.drop 16).take 64, mask := (b.drop 80).take 64, const := BitVec.ofNat 64 (bits n 1023 960) }

/-- Does a pattern entry keep the rules of R269? -/
def patternOk (b : Bytes) : Bool :=
  let n := natOfBytes b
  let p := parsePattern b
  let reserved := bits n 1135 1131 == 0 && bits n 1111 1088 == 0
  let kind := bits n 1151 1144
  reserved && p.offset + max p.length p.window ≤ 2 ^ 32
    && (if kind == 1 then
          1 ≤ p.length && p.length ≤ 64 && p.op == 0 && !p.signed && !p.little
            && (p.pattern.drop p.length).all (· == 0) && (p.mask.drop p.length).all (· == 0) && (p.floating || p.window == 0)
        else if kind == 2 then
          (p.length == 1 || p.length == 2 || p.length == 4 || p.length == 8) && p.op ≤ 5 && !p.floating && p.window == 0
            && p.mask.all (· == 0) && (p.pattern.drop 8).all (· == 0)
        else false)

/-- The pattern entries of a descriptor. -/
def patternBytes : Nat → Bytes → List Bytes
  | 0, _ => []
  | n + 1, b => b.take 144 :: patternBytes n (b.drop 144)

/-- Does a descriptor keep the rules of R269? Every START_CURSOR decodes (log entry 20). -/
def descriptorOk (b : Bytes) : Bool :=
  let n := natOfBytes (b.take 32)
  let count := bits n 247 240
  let req := bits n 239 224
  let exc := bits n 223 208
  let batch := bits n 191 160
  let rate := bits n 159 128
  32 ≤ b.length && bits n 255 248 == 1 && count ≤ 16 && b.length == 32 + 144 * count
    && req < 2 ^ count && exc < 2 ^ count && req &&& exc == 0 && (count == 0 || exc != 2 ^ count - 1)
    && bits n 207 194 == 0
    && (batch == 0 || (4096 ≤ batch && batch ≤ 1048576)) && (rate == 0 || (1 ≤ rate && rate ≤ 100000))
    && (patternBytes count (b.drop 32)).all patternOk

/-! ### Matching (R270–R272) -/

/-- Does a byte pattern match at a position (R270)? -/
def matchesAt (p : Pattern) (v : Bytes) (pos : Nat) : Bool :=
  pos + p.length ≤ v.length &&
    (List.range p.length).all (fun i => (byteAt v (pos + i) ^^^ byteAt p.pattern i) &&& byteAt p.mask i == 0)

/-- The numeric field of a value (R271), extended to 64 bits. -/
def numField (p : Pattern) (v : Bytes) : BitVec 64 :=
  let raw := (v.drop p.offset).take p.length
  let n := natOfBytes (if p.little then raw.reverse else raw)
  if p.signed && 2 ^ (8 * p.length - 1) ≤ n then BitVec.ofInt 64 ((n : Int) - 2 ^ (8 * p.length)) else BitVec.ofNat 64 n

/-- Does a comparison hold (R271)? Operators 0 EQ, 1 NE, 2 LT, 3 LE, 4 GT, 5 GE. -/
def compareHolds (op : Nat) (signed : Bool) (a b : BitVec 64) : Bool :=
  let lt := if signed then a.slt b else a.ult b
  match op with
  | 0 => a == b
  | 1 => a != b
  | 2 => lt
  | 3 => lt || a == b
  | 4 => !(lt || a == b)
  | _ => !lt

/-- The positions at which a pattern matches a value: every one for a floating pattern (R270, R271). -/
def matchPositions (p : Pattern) (v : Bytes) : List Nat :=
  if p.numeric then
    (if p.offset + p.length ≤ v.length && compareHolds p.op p.signed (numField p v) p.const then [p.offset] else [])
  else if !p.floating then (if matchesAt p v p.offset then [p.offset] else [])
  else
    let e := if p.window == 0 then v.length else min v.length (p.offset + p.window)
    ((List.range (e + 1 - p.length - p.offset)).map (· + p.offset)).filter (fun q => q + p.length ≤ e && matchesAt p v q)

/-- What comparing a value comes to (R272): BITMAP, whether it qualifies, WINNER, VALUE_OFFSET, MULTI. -/
structure Compared where
  bitmap    : Nat
  qualifies : Bool
  winner    : Nat
  offset    : Nat
  multi     : Bool
  deriving DecidableEq, Repr

/-- Compares a value against a sieve's patterns (R272). -/
def Sieve.compare (s : Sieve) (v : Bytes) : Compared :=
  let hits := s.patterns.map (fun p => matchPositions p v)
  let on := (List.range hits.length).filter (fun k => !(hits.getD k []).isEmpty)
  let bitmap := (on.map (2 ^ ·)).sum
  let cand := on.filter (fun k => !s.exclude.getLsbD k)
  let best := cand.foldl (fun a k => match a with
    | none => some k
    | some j => if (s.patterns.getD j default).priority < (s.patterns.getD k default).priority then some k else some j) (none : Option Nat)
  let q := bitmap &&& s.require.toNat == s.require.toNat && bitmap &&& s.exclude.toNat == 0 && (s.patterns.isEmpty || !cand.isEmpty)
  match best with
  | none => { bitmap := bitmap, qualifies := q, winner := 0, offset := 0, multi := false }
  | some w =>
    let h := hits.getD w []
    { bitmap := bitmap, qualifies := q, winner := w, offset := h.getD 0 0,
      multi := 1 < on.length || ((s.patterns.getD w default).floating && 1 < h.length) }

/-! ### Batches (R276–R278) -/

/-- A cursor after a fingerprint: its upper 64 bits plus 1 (log entry 20). -/
def cursorAfter (fp : Nat) : Nat := (fp / 2 ^ 64 + 1) % 2 ^ 64

/-- A sieve changed. -/
def State.updSieve (s : State) (slot : Nat) (f : Sieve → Sieve) : State :=
  { s with sieves := { s.sieves with list := upd (·.slot == slot) f s.sieves.list } }

/-- Closes the batch being filled (R276, R278): `resume` is RESUME_CURSOR. -/
def Sieve.close (v : Sieve) (last limit : Bool) (resume : Nat) : Sieve :=
  let permille := if last && !limit then 1000 else min 1000 (v.cursor * 1000 / 2 ^ 128)
  let h := pack [(32, v.nextNum), (32, v.filling.length), (1, b1 last), (1, b1 limit), (14, 0), (16, permille), (64, resume), (64, v.visited),
    (64, v.scanned), (32, sat 32 v.skipped), (16, sat 16 v.authFails), (16, sat 16 v.mediaErrs), (16, sat 16 v.digFails), (16, 0)]
  { v with batches := v.batches ++ [{ num := v.nextNum, body := h ++ v.filling.flatten, last := last }], filling := [],
           nextNum := v.nextNum + 1, ended := v.ended || last }

/-- Has the sieve MAX_MATCHES entries (R278)? -/
def Sieve.full (v : Sieve) : Bool := v.maxMatch != 0 && v.maxMatch ≤ v.matches'

/-- Adds an entry: one that does not fit closes the batch and opens the next (R278). -/
def Sieve.add (v : Sieve) (entry : Bytes) (now before : Nat) : Sieve :=
  let size := 48 + (v.filling.map (·.length)).sum
  let v1 := if !v.filling.isEmpty && v.batchMax < size + entry.length then v.close false false before else v
  { v1 with filling := v1.filling ++ [entry], firstAt := if v1.filling.isEmpty then now else v1.firstAt, matches' := v1.matches' + 1 }

/-! ### Visits (R273–R275, R284) -/

/-- The next key a sieve visits: the lowest fingerprint at or after its cursor with a committed value. -/
def State.nextKey (s : State) (v : Sieve) : Option Entry :=
  (s.committed v.keyspace).foldl (fun a e =>
    if e.fp.toNat < v.cursor then a
    else match a with
      | none => some e
      | some b => if e.fp.toNat < b.fp.toNat then some e else some b) none

/-- The value of a key, with the failures of its records (R275): tag, media, digest. -/
def State.sieveValue (s : State) (v : Sieve) (e : Entry) : Bytes × Nat × Nat × Nat :=
  let pieces : List (Nat × Nat × Nat) := match e.newest.segs with
    | some ss => ss.map (fun g => (g.loc, g.skip, g.length))
    | none => [(e.newest.loc, 0, s.matchLength e.newest)]
  pieces.foldl (fun a p =>
    match s.rec? p.1 with
    | none => (a.1, a.2.1, a.2.2.1 + 1, a.2.2.2)
    | some r =>
      if r.poison then (a.1, a.2.1, a.2.2.1 + 1, a.2.2.2)
      else match s.openRec r with
        | none => (a.1, a.2.1 + 1, a.2.2.1, a.2.2.2)
        | some d =>
          let bad := v.checkDig && r.digest.any (fun g => crc64 d != g)
          (a.1 ++ (d.drop p.2.1).take p.2.2, a.2.1, a.2.2.1, a.2.2.2 + b1 bad)) ([], 0, 0, 0)

/-- One visit of a key (R273–R275): skipped, failed, or compared. -/
def State.visitKey (s : State) (v : Sieve) (e : Entry) : Sieve × Nat :=
  let before := cursorAfter (v.cursor - 1)
  let v1 := { v with cursor := e.fp.toNat + 1, visited := v.visited + 1 }
  if v.asOfOpen && v.openStamp < e.newest.headStamp then ({ v1 with skipped := v1.skipped + 1 }, 0)
  else
    let val := s.sieveValue v e
    let n := s.matchLength e.newest
    let v2 := { v1 with authFails := v1.authFails + val.2.1, mediaErrs := v1.mediaErrs + val.2.2.1, digFails := v1.digFails + val.2.2.2 }
    if 0 < val.2.1 + val.2.2.1 + val.2.2.2 then (v2, n)
    else
      let c := v.compare val.1
      let v3 := { v2 with scanned := v2.scanned + val.1.length }
      if c.qualifies then
        let entry := pack [(16, e.key.length), (16, c.bitmap), (1, b1 c.multi), (1, b1 e.newest.segs.isSome), (2, 0), (4, c.winner), (24, 0),
          (32, c.offset), (32, val.1.length), (64, e.newest.headStamp)] ++ e.key
        (v3.add entry s.clock before, n)
      else (v3, n)

/-- What the engines do next: nothing more once MAX_MATCHES entries are there, else the visit of the next key (R273, R278). -/
def State.visitNext (s : State) (v : Sieve) : Sieve × Nat :=
  if v.full then (v, 0) else match s.nextKey v with
    | some e => s.visitKey v e
    | none => (v, 0)

/-- The batch closes as LAST at MAX_MATCHES or after the last key (R278), while fewer than two closed batches are held (R281). -/
def State.closeLast (s : State) (v : Sieve) : Sieve :=
  if v.ended || 2 ≤ v.batches.length then v
  else if v.full then v.close true true (cursorAfter (v.cursor - 1))
  else if (s.nextKey v).isNone then v.close true false 0 else v

/-- SIEVE_VISIT (R273–R278, R284): the engines visit the next key; after the last key the batch closes as LAST. A sieve that
holds two closed batches, or either of whose buckets is in debt, does not visit. A batch lost to a memory error is produced again
first (R409). -/
def execSieveVisit (slot : Nat) (s : State) : Host.Outcome State Fault Refusal :=
  match s.sieves.list.find? (·.slot == slot) with
  | none => .next s
  | some v =>
    let mine := accrueScan v.tokens ((s.clock - v.tokensAt) * v.rate) 4194304
    let all := s.scanTokens
    if !v.lost.isEmpty && s.power.st == 0 && s.modes.mode.service then
      .next { (s.updSieve slot (fun w => { w with lost := w.lost.drop 1 })) with counts := { s.counts with repairs := s.counts.repairs + 1 } }
    else if v.ended || 2 ≤ v.batches.length || s.power.st != 0 || s.thermal.stage == 2 || mine < 0 || all < 0 || !s.modes.mode.service then .next s
    else
      let q := s.visitNext v
      let v2 := s.closeLast { q.1 with tokens := mine - 1000 * q.2, tokensAt := s.clock }
      let s0 := (List.range (v2.digFails - v.digFails)).foldl (fun t _ =>
        t.digestEvent v.keyspace 4 0x09 (((s.nextKey v).map (·.fp)).getD 0)) s
      let s1 := s0.updSieve slot (fun _ => v2)
      .next { s1 with sieves := { s1.sieves with tokens := all - 1000 * q.2, at' := s.clock } }

/-- SIEVE_BATCH_AGE (R278): SIEVE_BATCH_AGE_MS after the batch's first entry it closes. -/
def execSieveBatchAge (slot : Nat) (s : State) : Host.Outcome State Fault Refusal :=
  match s.sieves.list.find? (·.slot == slot) with
  | none => .next s
  | some v =>
    if !v.filling.isEmpty && v.batches.length < 2 && v.firstAt + ms (s.var 0x0504) ≤ s.clock then
      .next (s.updSieve slot (fun v => v.close v.full v.full (cursorAfter (v.cursor - 1))))
    else .next s

/-- SIEVE_IDLE (R282): no SIEVE_NEXT has named the sieve for SIEVE_IDLE_S. -/
def execSieveIdle (slot : Nat) (s : State) : Host.Outcome State Fault Refusal :=
  match s.sieves.list.find? (·.slot == slot) with
  | none => .next s
  | some v => if v.lastNext + sec (s.var 0x0505) ≤ s.clock then .next (s.closeSieves (fun w => w.slot == slot) 1) else .next s

/-! ### The commands at their commit claims (R279–R282) -/

/-- The sieve of a handle; none where it is unknown (R266). -/
def State.sieveOf (s : State) (handle : Nat) : Option Sieve := s.sieves.list.find? (fun v => v.handle == handle)

/-- SIEVE_OPEN at its claim (R279): the reserved slot becomes the sieve's. -/
def State.commitSieveOpen (s : State) (x : Ctx) : State :=
  match x.slotRes.orElse (fun _ => s.freeSlot) with
  | none => s.endStatus x.id .deviceFault
  | some slot =>
    let n := natOfBytes (x.body.take 32)
    let batch := bits n 191 160
    let rate := bits n 159 128
    let v : Sieve :=
      { slot := slot, gen := getKey s.sieves.gens slot 0, keyspace := x.keyspace, patterns := (patternBytes (bits n 247 240) (x.body.drop 32)).map parsePattern,
        require := BitVec.ofNat 16 (bits n 239 224), exclude := BitVec.ofNat 16 (bits n 223 208), checkDig := bit n 193, asOfOpen := bit n 192,
        batchMax := if batch == 0 then 1024 * s.var 0x0503 else batch, rate := if rate == 0 then s.var 0x0501 else rate, maxMatch := bits n 127 64,
        openStamp := getKey s.store.stamps x.keyspace 0, age := x.age, h := none, batches := [], filling := [], firstAt := 0, nextNum := 0,
        cursor := bits n 63 0 * 2 ^ 64, ended := false, matches' := 0, visited := 0, scanned := 0, skipped := 0, authFails := 0, mediaErrs := 0,
        digFails := 0, lastNext := s.clock, tokens := 4194304000, tokensAt := s.clock, lost := [] }
    let s1 := { s with sieves := { s.sieves with list := s.sieves.list ++ [v] } }
    s1.endCmd x.id { Reply.withA .done v.handle with paramB := BitVec.ofNat 64 (s.bytesStored x.keyspace) }

/-- SIEVE_NEXT at its claim (R280, R281). The wait of a NOT_READY is an estimate, at least 1 (log entry 5). A batch lost to a
memory error is NOT_READY until it is produced again (R409). -/
def State.commitSieveNext (s : State) (x : Ctx) : State :=
  let handle := x.paramA.toNat % 2 ^ 32
  let b := x.paramB.toNat % 2 ^ 32
  match s.sieveOf handle with
  | none => s.endStatus x.id .notFound
  | some v =>
    let s1 := s.updSieve v.slot (fun w => { w with lastNext := s.clock })
    let next := match v.h with
      | some h => h + 1
      | none => 0
    if next < b then s1.endStatus x.id .badLength
    else if v.lost.contains b then s1.drawn.endCmd x.id (Reply.withA .notReady (1 + Config.estimate s.rnd % (2 ^ 32 - 1)))
    else match v.batches.find? (·.num == b) with
      | some k =>
        let s2 := s1.updSieve v.slot (fun w => { w with h := some b, batches := w.batches.filter (fun j => b ≤ j.num) })
        s2.endCmd x.id { status := if k.last then .done else .more, flags := 0, paramA := BitVec.ofNat 64 handle, paramB := BitVec.ofNat 64 b, body := k.body }
      | none =>
        if b == next && !v.ended then s1.drawn.endCmd x.id (Reply.withA .notReady (1 + Config.estimate s.rnd % (2 ^ 32 - 1)))
        else s1.endStatus x.id .notFound

/-- SIEVE_CLOSE at its claim (R282). -/
def State.commitSieveClose (s : State) (x : Ctx) : State :=
  match s.sieveOf (x.paramA.toNat % 2 ^ 32) with
  | none => s.endStatus x.id .notFound
  | some v => (s.closeSieves (fun w => w.slot == v.slot) 0).endStatus x.id .done

end Sys2Proof.Machine
end

