-- ==== Sys2Proof/Machine/Commit.lean ====
section
/-! DEFINITION. Commit claims (R199–R202): a granted mutation is stamped, logged and released, a granted read sends its reply;
and the completion of programs (R299, R302). -/

namespace Sys2Proof.Machine

/-! ### Read-holds (R202) -/

/-- Does a read-hold last: its reply still waits to leave, or its relay slot is held? -/
def State.holdLasts (s : State) (id : Nat) : Bool :=
  s.net.held.any (fun h => h.id == id || h.kept == some id) || s.relay.slots.any (·.id == id)

/-- Is the location under a read-hold? -/
def State.isHeld (s : State) (loc : Nat) : Bool := s.store.holds.any (fun h => h.2 == loc && s.holdLasts h.1)

/-- Places the locations a read resolved under a read-hold, named by the number its reply will take; holds that have ended
are dropped. -/
def State.placeHolds (s : State) (x : Ctx) : State :=
  let old := s.store.holds.filter (fun h => s.holdLasts h.1)
  { s with store := { s.store with holds := old ++ x.recs.map (fun p => (s.net.nextId, p.1)) } }

/-! ### Reads -/

/-- Does the key of an entry begin with a prefix (R170)? -/
def Entry.hasPrefix (e : Entry) (p : Bytes) : Bool := e.key.take p.length == p

/-- The cursor part of a fingerprint: FP[127:64] (log entry 20). -/
def cursorOf (e : Entry) : Nat := e.fp.toNat / 2 ^ 64

/-- Inserts an entry in fingerprint order. -/
def insertByFp (e : Entry) : List Entry → List Entry
  | [] => [e]
  | x :: xs => if x.fp.toNat ≤ e.fp.toNat then x :: insertByFp e xs else e :: x :: xs

/-- The keys a SCAN_KEYS has still to return, in fingerprint order (R170). -/
def State.scanList (s : State) (ks cursor : Nat) (p : Bytes) : List Entry :=
  ((s.committed ks).filter (fun e => cursor ≤ cursorOf e && e.hasPrefix p)).foldr insertByFp []

/-- One entry of a SCAN_KEYS reply (R171). -/
def scanEntry (e : Entry) : Bytes :=
  pack [(16, e.key.length), (2, 0), (1, b1 e.newest.segs.isSome), (1, b1 (!e.older.isEmpty)), (12, 0), (64, e.newest.headStamp)] ++ e.key

/-- The entries that fit: as many leading ones as `room` bytes hold, cut back to one the cursor can mark. Keys that share a
cursor part are returned together (R170). -/
def scanFit (room : Nat) : List Entry → List Entry
  | [] => []
  | e :: es =>
    let same := es.takeWhile (fun x => cursorOf x == cursorOf e)
    let size := ((e :: same).map (fun x => 12 + x.key.length)).sum
    if room < size then []
    else if es.length ≤ same.length then e :: same
    else e :: (scanFit (room - (12 + e.key.length)) es)

/-- The first keys of a list that share a cursor part. -/
def firstGroup : List Entry → List Entry
  | [] => []
  | e :: es => e :: es.takeWhile (fun x => cursorOf x == cursorOf e)

/-- The reply of a SCAN_KEYS (R170, R171). -/
def State.scanReply (s : State) (x : Ctx) : Reply :=
  let cap := s.replyCap x
  let room := if x.valLen == 2 ^ 32 - 1 then cap else min x.valLen cap
  let all := s.scanList x.keyspace x.paramA.toNat x.key
  let fit := scanFit room all
  let fit := if fit.isEmpty then firstGroup all else fit
  let rest := all.drop fit.length
  { status := if rest.isEmpty then .done else .more, flags := 0
    paramA := if rest.isEmpty then 0 else BitVec.ofNat 64 ((fit.getLast?.map cursorOf).getD 0 + 1)
    paramB := 0, body := (fit.map scanEntry).flatten }

/-- Are there cells for a reply body (R329)? The mailbox takes none. -/
def State.replyRoom (s : State) (x : Ctx) (bytes : Nat) : Bool :=
  x.mailbox || ceilDiv bytes 4096 ≤ s.cellsFree x.pool + x.outCells || ceilDiv bytes 4096 ≤ s.cellsFree egressPart

/-- A read's claim is granted: its locations go under a read-hold, its buckets are charged, its reply is sent (R202, R333). -/
def State.commitRead (s : State) (x : Ctx) (r : Reply) : State :=
  let s1 := (s.placeHolds x).updCtx x.id (fun y => { y with committed := true })
  let s2 := if x.opcode == 0x0D then s1 else s1.chargeReply x r.body.length
  s2.endCmd x.id r

/-! ### Erase sets (R169, R317, R318) -/

/-- SECURE_DISCARD_DONE of an erase set (R318). -/
def State.eraseDone (s : State) (e : EraseSet) : State :=
  match e.session with
  | none => s
  | some n => s.notify n
      { kind := .secureDiscardDone, keyspace := e.keyspace, paramA := BitVec.ofNat 64 e.stamp, paramB := BitVec.ofNat 64 e.total,
        value := e.key, late := none }

/-- Erase sets that have become empty are complete: each leaves, and its notice goes. -/
def State.eraseSetsDone (s : State) : State :=
  let done := s.store.eraseSets.filter (·.groups.isEmpty)
  done.foldl State.eraseDone { s with store := { s.store with eraseSets := s.store.eraseSets.filter (fun e => !e.groups.isEmpty) } }

/-- Forms an erase set: its open groups close at once, and each group is marked secure-pending (R317). -/
def State.formEraseSet (s : State) (ks stamp : Nat) (session : Option Nat) (key : Bytes) (groups : List Nat) : State :=
  let gs := groups.eraseDups.filter (fun n => (s.group? n).isSome)
  let s1 := gs.foldl (fun t n =>
    let t1 := if (t.group? n).any (·.isOpen) then t.closeGroup n else t
    t1.updGroup n (fun g => { g with secure := some (g.secure.getD s.clock) })) s
  let e : EraseSet := { keyspace := ks, session := session, stamp := stamp, key := key, groups := gs, total := gs.length }
  ({ s1 with store := { s1.store with eraseSets := s1.store.eraseSets ++ [e] } } : State).eraseSetsDone

/-- The groups of a key's records: mapped ones and superseded ones reached through PREV, and those of the stale-copy index
(R317). -/
def State.keyGroups (s : State) (e : Entry) : List Nat :=
  let chain := e.locs.flatMap (fun l => s.chainAll e.keyspace e.fp e.key (s.store.recs.length + 1) l)
  let tag := BitVec.ofNat 32 (bits e.fp.toNat 127 96)
  chain.map (·.group) ++ (s.store.stale.filter (fun t => t.1 == tag && t.2.2 == getKey s.store.gens t.2.1 0)).map (·.2.1)

/-! ### Mutations (R201) -/

/-- The record a write commits, with its stamp; a sealed value is the ciphertext and tag its cells hold. -/
def State.finalRec (s : State) (x : Ctx) (stamp : Nat) : Rec :=
  let d := { s.draft x with stamp := stamp }
  match x.sealGen with
  | some g => if x.writesValue then
      { d with sealed := some g, data := x.body.take x.valLen, gcmTag := BitVec.ofNat 128 (natOfBytes (x.body.drop x.valLen)) } else d
  | none => d

/-- Does the Quince row of the key hold room for its pin (R253)? -/
def State.pinRoom (s : State) (fp : BitVec 128) : Bool :=
  ((s.qRow (qBank fp) (qRowOf fp)).filter (fun w => w.priority == 12 && w.fp != fp)).length < s.var 0x0403

/-- The match a write enters for its key. -/
def State.newMatch (s : State) (x : Ctx) (loc stamp : Nat) (diverges : Bool) : Match :=
  if x.opcode == 0x05 then
    let seg : Seg := { offset := x.offset, length := x.valLen, skip := 0, loc := loc, stamp := stamp, digest := x.flags.getLsbD 0 }
    let table := match s.entry? x.keyspace x.fp x.key with
      | some e => if e.newest.segs.isSome && !diverges then e.newest.loc else s.tableLoc
      | none => s.tableLoc
    { loc := table, stamp := stamp, tomb := false, segs := some (if diverges then [seg] else s.segsAfter x loc stamp) }
  else { loc := loc, stamp := stamp, tomb := x.opcode == 0x04, segs := none }

/-- The log record of a commit (R259). -/
def logRecOf (x : Ctx) (loc stamp : Nat) (pin extra : Bool) : LogRec :=
  { kind := if x.opcode == 0x05 then 2 else if x.opcode == 0x04 then 3 else if x.opcode == 0x06 || x.opcode == 0x07 then 4 else 1
    keyspace := x.keyspace, pin := pin, fp := x.fp, key := x.key
    loc := if x.opcode == 0x06 || x.opcode == 0x07 then 0 else loc, stamp := stamp
    seg := if x.opcode == 0x05 then
        some { offset := x.offset, length := x.valLen, skip := 0, loc := loc, stamp := stamp, digest := x.flags.getLsbD 0 } else none
    old := 0, extra := extra, lsn := 0 }

/-- The Quince way of a committed match (R246, R250). -/
def State.wayOf (s : State) (fp : BitVec 128) (m : Match) (len : Nat) (pinned older : Bool) : Way :=
  { n := 0, fp := fp, loc := m.loc, len4k := min 255 (ceilDiv len 4096),
    priority := if older then 8 else if m.tomb then 15 else if pinned then 12 else 8, older := older,
    cached := s.store.cache.contains m.loc, tomb := older && m.tomb, seg := m.segs.isSome, parityOk := true, matched := s.clock }

/-- A commit that replaces every match of its key, or removes them (R166, R168, R201, R233, R250, R253, R316). -/
def State.commitReplace (s : State) (x : Ctx) (r : Rec) (place : Place) (entries : List Entry) : State :=
  let discards := r.kind == 4
  let pinned := x.pin && s.pinRoom x.fp
  let old := s.entry? x.keyspace x.fp x.key
  let m := s.newMatch x r.loc r.stamp false
  let gone := ((old.map Entry.locs).getD []).filter (fun l => !(s.keptLocs x).contains l)
  let goneRecs := gone.filterMap s.rec?
  let erase := (old.map s.keyGroups).getD []
  let s1 : State := { s with store := { s.store with entries := entries, recs := s.store.recs ++ [r] } }
  let e : Entry := { keyspace := x.keyspace, fp := x.fp, key := x.key, newest := m, older := [], pinned := pinned, place := place }
  let s2 := if discards then (match old with
      | some o => s1.removeEntry o
      | none => s1) else s1.setEntry e
  let s3 := s2.qCommit x.fp (tentativePriority x.opcode x.relayed) (if discards then none else some (s.wayOf x.fp m r.length pinned false))
  let s4 := (s3.dirLog (logRecOf x r.loc r.stamp pinned false)).markStale goneRecs
  let s5 := if x.pin && !pinned then s4.logEvent 0x0401 (pack [(12, x.keyspace), (12, 0), (128, x.fp.toNat), (104, 0)]) else s4
  let s6 := if !discards && r.kind != 3 && s.cacheAdmits x.fp false then s5.cachePut r else s5
  if x.opcode == 0x07 then
    (s6.cacheDrop (fun l => l != 0 && s.store.recs.any (fun q => q.loc == l && q.keyspace == x.keyspace && q.fp == x.fp && q.key == x.key))).formEraseSet
      x.keyspace r.stamp x.session x.key erase
  else s6

/-- A RELAYED record whose stamp the key already holds with other contents: a further mapped match (R376). -/
def State.commitDiverge (s : State) (x : Ctx) (r : Rec) : State :=
  let m := s.newMatch x r.loc r.stamp true
  let s1 : State := { s with store := { s.store with recs := s.store.recs ++ [r] } }
  let s2 := match s.entry? x.keyspace x.fp x.key with
    | some e => if r.kind == 4 then s1 else s1.setEntry { e with older := e.older ++ [m] }
    | none => s1
  let s3 := s2.qWithdraw x.fp (tentativePriority x.opcode true)
  let s4 := if s3.qHolds x.fp && r.kind != 4 then s3.qEnter (s.wayOf x.fp m r.length false true) else s3
  let s5 := s4.dirLog (logRecOf x r.loc r.stamp false true)
  ({ s5 with counts := { s5.counts with divergent := s5.counts.divergent + 1 } } : State).logEvent 0x0906
    (pack [(12, x.keyspace), (12, 0), (128, x.fp.toNat), (64, r.stamp), (40, 0)])

/-- The reply of a mutation past its commit point (R164–R169). -/
def commitReply (stamp : Nat) : Reply := Reply.withA .done stamp

/-- Does the command wait for its successors before it replies (R164, R374, R382)? -/
def Ctx.waitsForTail (x : Ctx) : Bool := if x.relayed then x.pre.any (·.tailAck) else x.opcode != 0x03

/-- After the record is mapped: the lock is released, the relay slot takes the record, and the reply is sent or waits for the
successors (R201, R379, R382). -/
def State.afterCommit (s : State) (x : Ctx) (r : Rec) : State :=
  let s1 := (s.updCtx x.id (fun y => { y with committed := true, stamp := r.stamp, reply := commitReply r.stamp })).lockLeave (.cmd x.id)
  let chained := s1.relay.slots.any (fun q => q.ctx == some x.id)
  let s2 := if chained && x.waitsForTail then s1.toPhase x.id .relaying else s1.endCmd x.id (commitReply r.stamp)
  let seg : Option Seg :=
    if x.opcode == 0x05 then some { offset := x.offset, length := x.valLen, skip := 0, loc := r.loc, stamp := r.stamp, digest := x.flags.getLsbD 0 }
    else none
  if chained then s2.activateSlot x.id (if r.kind == 4 then 0 else r.loc) r.stamp seg else s2

/-- A mutation's claim is granted (R201): the stamp, the record, the directory, Quince and log, then the release. Stamps of
RELAYED records raise the keyspace's highest (R377). -/
def State.commitWrite (s : State) (x : Ctx) (place : Place) (entries : List Entry) : State :=
  let top := getKey s.store.stamps x.keyspace 0
  let stamp := match x.pre with
    | some p => p.stamp
    | none => top + 1
  let diverges := x.pre.any (fun p => s.verdict x p == .diverge)
  let r := s.finalRec x stamp
  let s1 : State := { s with store := { s.store with stamps := setKey s.store.stamps x.keyspace (max top stamp) }
                             counts := { s.counts with partnerBytes := s.counts.partnerBytes + x.keyLen + (if x.writesValue then x.valLen else 0) } }
  let s2 := if diverges then s1.commitDiverge x r else s1.commitReplace x r place entries
  let bucket := match place with
    | .bucket n => n
    | .stash => bucket1 x.fp
  (s2.cohWrite (homeSlice x.fp) bucket).afterCommit x r

/-- Where the key's entry lies, or will lie (R236), with the entries as displacement leaves them. -/
def State.writePlace (s : State) (x : Ctx) : Option (Place × List Entry) :=
  match s.entry? x.keyspace x.fp x.key with
  | some e => some (e.place, s.store.entries)
  | none => if x.opcode == 0x06 || x.opcode == 0x07 then some (.bucket (bucket1 x.fp), s.store.entries) else s.placeFor x.fp

/-- A write's claim: it waits for its line, for its bank's update queue and for the dirty bound (R240, R249, R261); a full
stash ends it (R236). -/
def State.claimWrite (s : State) (x : Ctx) : State :=
  match s.writePlace x with
  | none => (s.logEvent 0x0405 (pack [(12, x.keyspace), (244, 0)])).endCmd x.id (Reply.withA .noSpace 3)
  | some (place, entries) =>
    let bucket := match place with
      | .bucket n => n
      | .stash => bucket1 x.fp
    let chunk := match place with
      | .bucket n => n / 8192
      | .stash => 65536
    if !s.coh.quiet bucket || !s.qRoom (qBank x.fp) || s.dirtyFull chunk then s
    else
      let moved := entries.filter (fun e => !s.store.entries.contains e)
      (moved.foldl State.dirtyChunk { s with rnd := s.rnd + 17 }).commitWrite x place entries

/-- COMMIT_CLAIM (R200): the claim of a command whose outcome is not yet fixed is granted. -/
def execCommitClaim (c : Nat) (s : State) : Host.Outcome State Fault Refusal :=
  match s.ctx? c with
  | none => .next s
  | some x =>
    if x.phase != .ready || x.committed then .next s
    else if isDataWrite x.opcode then .next (s.claimWrite x).relaySettle
    else if x.opcode == 0x09 then .next (s.commitSieveOpen x).settle
    else if x.opcode == 0x0A then
      .next (s.commitSieveNext x).settle
    else if x.opcode == 0x0B then .next (s.commitSieveClose x).settle
    else
      let r := if x.opcode == 0x08 then s.scanReply x else x.reply
      if !s.replyRoom x r.body.length then .next s else .next (s.commitRead x r).settle

/-! ### Programs (R299, R302) -/

/-- A program that failed (R302): its block is retired, and the record is programmed again in the stream's next page. -/
def State.programFailed (s : State) (x : Ctx) : State :=
  let s1 : State := { s with counts := { s.counts with programFails := s.counts.programFails + 1 } }
  let s2 := match s.group? x.newGroup with
    | some g =>
      let slot := (s.draft x).slot
      let p := g.pageOf slot
      s1.retireBlock p.1 p.2.1 g 1
    | none => s1
  match s2.ctx? x.id, s2.keyspace? x.keyspace with
  | some y, some k => s2.program y k
  | _, _ => s2

/-- PROGRAM_COMPLETE (R299): the last program that holds the record has completed; the input cells are freed, and the write
waits for a relay slot where its keyspace has a chain (R379). -/
def execProgramComplete (c : Nat) (ok : Bool) (s : State) : Host.Outcome State Fault Refusal :=
  match s.ctx? c with
  | none => .next s
  | some x =>
    if x.phase != .programming then .next s
    else if !ok then .next (s.programFailed x).settle
    else
      let s1 := (s.updCtx c (fun y => { y with cells := 0 })).toPhase c .relayWait
      .next s1.pumpSlots.relaySettle

end Sys2Proof.Machine
end

