-- ==== Sys2Proof/Machine/Data.lean ====
section
/-! DEFINITION. The data commands and sieve commands up to their shaper (R153–R173, R375–R378): the checks of R155 in their
order, ABORT, and the markers of a seed. -/

namespace Sys2Proof.Machine

/-! ### The checks of R155 -/

/-- The context of a complete message of that opcode that no check has decided yet. A module leaving a power state lets it
wait (R418). -/
def State.fresh? (s : State) (c op : Nat) : Option Ctx :=
  (s.ctx? c).bind (fun x => if x.phase == .complete && x.opcode == op && s.power.st == 0 then some x else none)

/-- Is the module on its way to Dormant by a MODE_SET accepted before this command, so that the command ends WRONG_MODE
(R47)? -/
def State.leaving (s : State) (x : Ctx) : Bool :=
  s.modes.flush.isSome || s.net.ctxs.any (fun y => y.opcode == 0x49 && y.phase == .draining && y.id < x.id)

/-- Check 3 (R48): the status of a mode that does not accept the command. -/
def State.modeStops (s : State) (x : Ctx) : Option Status :=
  if s.leaving x then some .wrongMode else modeRefusal s.modes.mode x.opcode x.relayed

/-- Check 5: the keyspace exists, is not 0x000, and is not being deleted by a KEYSPACE_DELETE accepted before this command
(R155, R176). Context numbers rise in the order of acceptance. -/
def State.ksMissing (s : State) (x : Ctx) : Bool :=
  match s.keyspace? x.keyspace with
  | some k => x.keyspace == 0 || k.deleting.any (· < x.id)
  | none => true

/-- Check 6 (R186, R390): the reply REDIRECT where the loaded map places the key elsewhere. `anywhere` is set for reads. -/
def State.misplaced (s : State) (x : Ctx) (anywhere : Bool) : Option Reply :=
  match s.relay.map with
  | none => none
  | some m =>
    let ch := m.chain x.keyspace x.key
    if !m.covers x.keyspace || (if anywhere then ch.contains m.self else ch.head? == some m.self) then none
    else some { Reply.plain .redirect with paramA := BitVec.ofNat 64 m.epoch, paramB := BitVec.ofNat 64 (ch.head?.getD 0) }

/-- Check 7 (R353). -/
def State.ksLocked (s : State) (ks : Nat) : Bool := (s.keyspace? ks).any s.locked

/-- Does check 8 apply: does the write go to an encrypted keyspace? -/
def State.usesKey (s : State) (x : Ctx) : Bool := x.writesValue && (s.keyspace? x.keyspace).any (·.encrypted)

/-- Check 8 (R354). -/
def State.keyExhausted (s : State) (x : Ctx) : Bool :=
  s.usesKey x && (s.keyspace? x.keyspace).any (fun k => useLimit ≤ (s.page k.keyPage).usage)

/-- Checks 3 to 8 of R155 for a command that uses KEYSPACE: the reply of the first that fails. `limits` is check 4. -/
def State.refusal (s : State) (x : Ctx) (limits place keys : Bool) : Option Reply :=
  match s.modeStops x with
  | some st => some (Reply.plain st)
  | none =>
    if !limits then some (Reply.plain .badLength)
    else if s.ksMissing x then some (Reply.plain .badKeyspace)
    else match (if place && !x.relayed then s.misplaced x (isKeyRead x.opcode) else none) with
      | some r => some r
      | none =>
        if keys && s.ksLocked x.keyspace then some (Reply.plain .keyspaceLocked)
        else if s.keyExhausted x then some (Reply.plain .keyExhausted)
        else none

/-- Only the flags of a mask are set (R153, R157). -/
def Ctx.flagsWithin (x : Ctx) (mask : BitVec 8) : Bool := x.flags &&& ~~~mask == 0

/-- The key is of a length that R156 allows. -/
def Ctx.keyOk (x : Ctx) : Bool := 1 ≤ x.keyLen && x.keyLen ≤ 1024

/-- Check 4 of a GET (R156, R157). -/
def getLimits (x : Ctx) : Bool := x.keyOk && x.flagsWithin 0x03 && x.paramA.toNat < 2 ^ 32 && x.paramB == 0

/-- Check 4 of a HEAD. -/
def headLimits (x : Ctx) : Bool := x.keyOk && x.valLen == 0 && x.flagsWithin 0 && x.paramA == 0 && x.paramB == 0

/-- Check 4 of a VERSIONS_NEXT. -/
def versionsLimits (x : Ctx) : Bool := x.keyOk && x.flagsWithin 0x01 && x.paramB.toNat < 2 ^ 32

/-- Check 4 of a PUT or PUT_POSTED; a RELAYED one carries no conditions (R375). -/
def putLimits (x : Ctx) : Bool :=
  x.keyOk && x.valLen ≤ 16777216 && x.flagsWithin (if x.relayed then 0x29 else 0x0F) && x.paramA == 0
    && (x.flags.getLsbD 0 || x.paramB == 0) && !(x.flags.getLsbD 1 && x.flags.getLsbD 2)

/-- Check 4 of an APPEND_SEGMENT (R156, R166, R198). -/
def appendLimits (x : Ctx) : Bool :=
  x.keyOk && 1 ≤ x.valLen && x.valLen ≤ 16777216 && x.flagsWithin (if x.relayed then 0x29 else 0x09) && x.paramA.toNat < 2 ^ 32
    && x.paramA.toNat + x.valLen ≤ 2 ^ 32 - 1 && (x.flags.getLsbD 0 || x.paramB == 0)

/-- Check 4 of a DELETE, DISCARD or SECURE_DISCARD. -/
def removeLimits (x : Ctx) : Bool :=
  x.keyOk && x.valLen == 0 && x.flagsWithin (if x.relayed then 0x20 else 0) && x.paramA == 0 && x.paramB == 0

/-- Check 4 of a write. -/
def writeLimits (x : Ctx) : Bool :=
  if x.opcode == 0x02 || x.opcode == 0x03 then putLimits x else if x.opcode == 0x05 then appendLimits x else removeLimits x

/-- Check 4 of a SCAN_KEYS. Every cursor decodes (log entry 20). -/
def scanLimits (x : Ctx) : Bool := x.keyLen ≤ 1024 && 1036 ≤ x.valLen && x.flagsWithin 0 && x.paramB == 0

/-- The command has passed its checks: it waits for its shaper tokens (R83, R214). -/
def State.toShaper (s : State) (x : Ctx) : State := s.toPhase x.id .shaping

/-- A command that takes no key: its checks decide it, or it goes on to its shaper. -/
def State.checked (s : State) (x : Ctx) (limits place keys : Bool) : State :=
  match s.refusal x limits place keys with
  | some r => s.endCmd x.id r
  | none => s.toShaper x

/-- A write's own conditions that precede its lock (R164, R175, R400): REQUIRE_DIGEST, then the digest of the bytes received. -/
def State.writeConditions (s : State) (x : Ctx) : State :=
  if x.writesValue && !x.flags.getLsbD 0 && (s.keyspace? x.keyspace).any (·.requireDigest) then s.endStatus x.id .badLength
  else if x.writesValue && x.flags.getLsbD 0 && crc64 x.body != x.paramB then
    ({ s with counts := { s.counts with digestMis := s.counts.digestMis + 1 } } : State).endStatus x.id .digestMismatch
  else s.toShaper x

/-- A write: its checks, the reservation of a use of its key (R354), its own conditions. -/
def State.checkedWrite (s : State) (x : Ctx) : State :=
  match s.refusal x (writeLimits x) true x.writesValue with
  | some r => s.endCmd x.id r
  | none =>
    let s1 := match s.usesKey x, s.keyspace? x.keyspace with
      | true, some k => (s.reserveUse k.keyPage).updCtx x.id (fun y => { y with keyUse := true })
      | _, _ => s
    s1.writeConditions x

/-- A write row of a command that is not RELAYED. -/
def State.writeRow (s : State) (c op : Nat) : State :=
  match s.fresh? c op with
  | some x => if x.relayed then s else (s.checkedWrite x).settle
  | none => s

/-- GET (R156, R160). -/
def execGet (c : Nat) (s : State) : Host.Outcome State Fault Refusal :=
  match s.fresh? c 0x01 with
  | some x => .next (s.checked x (getLimits x) true true).settle
  | none => .next s

/-- PUT (R156, R164). -/
def execPut (c : Nat) (s : State) : Host.Outcome State Fault Refusal := .next (s.writeRow c 0x02)

/-- PUT_POSTED (R156, R164). -/
def execPutPosted (c : Nat) (s : State) : Host.Outcome State Fault Refusal := .next (s.writeRow c 0x03)

/-- DELETE (R156, R165). -/
def execDelete (c : Nat) (s : State) : Host.Outcome State Fault Refusal := .next (s.writeRow c 0x04)

/-- APPEND_SEGMENT (R156, R166). -/
def execAppendSegment (c : Nat) (s : State) : Host.Outcome State Fault Refusal := .next (s.writeRow c 0x05)

/-- DISCARD (R156, R168). -/
def execDiscard (c : Nat) (s : State) : Host.Outcome State Fault Refusal := .next (s.writeRow c 0x06)

/-- SECURE_DISCARD (R156, R169). -/
def execSecureDiscard (c : Nat) (s : State) : Host.Outcome State Fault Refusal := .next (s.writeRow c 0x07)

/-- SCAN_KEYS (R156, R170). -/
def execScanKeys (c : Nat) (s : State) : Host.Outcome State Fault Refusal :=
  match s.fresh? c 0x08 with
  | some x => .next (s.checked x (scanLimits x) false true).settle
  | none => .next s

/-- HEAD (R156, R161). -/
def execHead (c : Nat) (s : State) : Host.Outcome State Fault Refusal :=
  match s.fresh? c 0x0D with
  | some x => .next (s.checked x (headLimits x) true true).settle
  | none => .next s

/-- VERSIONS_NEXT (R156, R163). -/
def execVersionsNext (c : Nat) (s : State) : Host.Outcome State Fault Refusal :=
  match s.fresh? c 0x0E with
  | some x => .next (s.checked x (versionsLimits x) true true).settle
  | none => .next s

/-- SIEVE_OPEN (R173, R267–R269): a malformed descriptor ends BAD_LENGTH; check 7 is made. -/
def execSieveOpen (c : Nat) (s : State) : Host.Outcome State Fault Refusal :=
  match s.fresh? c 0x09 with
  | some x => .next (s.checked x (x.keyLen == 0 && x.flagsWithin 0 && x.paramA == 0 && x.paramB == 0 && descriptorOk x.body) false true).settle
  | none => .next s

/-- SIEVE_NEXT (R173). -/
def execSieveNext (c : Nat) (s : State) : Host.Outcome State Fault Refusal :=
  match s.fresh? c 0x0A with
  | some x =>
    .next (s.checked x (x.keyLen == 0 && x.valLen == 0 && x.flagsWithin 0 && x.paramA.toNat < 2 ^ 32 && x.paramB.toNat < 2 ^ 32) false false).settle
  | none => .next s

/-- SIEVE_CLOSE (R173). -/
def execSieveClose (c : Nat) (s : State) : Host.Outcome State Fault Refusal :=
  match s.fresh? c 0x0B with
  | some x => .next (s.checked x (x.keyLen == 0 && x.valLen == 0 && x.flagsWithin 0 && x.paramA.toNat < 2 ^ 32 && x.paramB == 0) false false).settle
  | none => .next s

/-! ### ABORT (R172, R204) -/

/-- Can a command be aborted: a data or sieve command before its commit point? Opcodes outside those groups are past it from
acceptance (R172, R199). -/
def Ctx.abortable (x : Ctx) : Bool := isQueued x.opcode && !x.committed

/-- The command of a session in progress that holds a tag, ABORT itself and re-executions apart. An ABORT through the mailbox
is of no session, and finds none. -/
def State.tagged (s : State) (x : Ctx) (tag : Nat) : Option Ctx :=
  match x.session with
  | none => none
  | some n => s.net.ctxs.find? (fun y => y.session == some n && y.tag == tag && y.id != x.id && !y.reexec)

/-- ABORT (R172): decided at once. The target's reply goes first (R204). -/
def execAbort (c : Nat) (s : State) : Host.Outcome State Fault Refusal :=
  match s.fresh? c 0x0C with
  | none => .next s
  | some x =>
    match s.modeStops x with
    | some st => .next (s.endStatus c st).settle
    | none =>
      if !(x.keyLen == 0 && x.valLen == 0 && x.flagsWithin 0 && x.paramA.toNat < 32 && x.paramB == 0) then .next (s.endStatus c .badLength).settle
      else
        let tag := x.paramA.toNat
        let echo (st : Status) : Reply := Reply.withA st tag
        if tag == x.tag then .next (s.endCmd c (echo .notFound)).settle
        else match s.tagged x tag with
          | none => .next (s.endCmd c (echo .notFound)).settle
          | some y =>
            if y.abortable then .next ((s.endStatus y.id .aborted).endCmd c (echo .done)).settle
            else .next (s.endCmd c (echo .alreadyDone)).settle

/-! ### Keyspace attributes (R175) -/

/-- What KEYSPACE_CREATE comes to for a keyspace and PARAM_A (R175): the status of the first check that fails. -/
def State.createStatus (s : State) (ks attrs : Nat) : Option Status :=
  let fence := bits attrs 3 0
  if 2 ^ 13 ≤ attrs || 8 < fence || ((bit attrs 11 || bits attrs 10 5 != 0) && !bit attrs 4) then some .badLength
  else if ks == 0 then some .badKeyspace
  else if (s.keyspace? ks).isSome then some .exists'
  else if fence != 0 && (s.owner fence).dieSets == 0 then some .badLength
  else none

/-- The keyspace that a creation makes; its seed is drawn from the random number generator (R229). -/
def State.newKeyspace (s : State) (ks attrs quota : Nat) (partialSeed : Bool) : Keyspace :=
  { id := ks, fence := bits attrs 3 0, encrypted := bit attrs 4, keyPage := bits attrs 10 5, holdBack := bit attrs 11,
    requireDigest := bit attrs 12, quota := quota, seed := BitVec.ofNat 128 (Config.random s.rnd), deleting := none,
    partialSeed := partialSeed, lateSticky := false, chain := none, shaper := none }

/-- Does a settings write run (R54)? Commands that would change the settings wait for it, so that each is checked against
what it will change (log entry 6). -/
def State.settingsBusy (s : State) : Bool := s.net.ctxs.any (fun y => y.phase == .settings)

/-- A command that changes the stored settings waits for their write (R54, log entry 6). -/
def State.toSettings (s : State) (c : Nat) (ch : Change) (r : Reply) : State :=
  s.updCtx c (fun x => { x with change := some ch, reply := r }.enter .settings s.clock)

/-! ### RELAYED commands (R375–R378) -/

/-- Check 4 of a RELAYED command: its prefix and its fields. -/
def relayedLimits (x : Ctx) : Bool := x.pre.isSome && writeLimits x

/-- RELAYED_WRITE (R375, R376, R402): a record command of a predecessor. Its checks are those of its opcode without check 6; its
RECORD_CRC is compared at admission; its stamp is compared when its lock is granted. -/
def execRelayedWrite (c : Nat) (s : State) : Host.Outcome State Fault Refusal :=
  match (s.ctx? c).bind (fun x => s.fresh? c x.opcode) with
  | none => .next s
  | some x =>
    if !x.relayed || x.pre.any (·.marker != 0) then .next s
    else
      match s.modeStops x with
      | some st => .next (s.endStatus c st).settle
      | none =>
        if !relayedLimits x then .next (s.endStatus c .badLength).settle
        else if !s.ksMissing x && !(x.writesValue && s.ksLocked x.keyspace) && !s.keyExhausted x
            && x.pre.any (fun p => p.crc != crc64 (x.key ++ x.body)) then
          .next ((s.digestEvent x.keyspace 5 x.opcode x.fp).endStatus c .digestMismatch).settle
        else .next (s.checkedWrite x).settle

/-- A marker of that kind, complete and at the head of its session queue. -/
def State.marker? (s : State) (c kind : Nat) : Option (Ctx × Prefix) :=
  (s.fresh? c 0x06).bind (fun x => match x.pre with
    | some p => if x.relayed && p.marker == kind && s.atHead x && !s.settingsBusy then some (x, p) else none
    | none => none)

/-- Check 4 of a marker (R375). -/
def markerLimits (x : Ctx) : Bool := x.keyLen == 1 && removeLimits x

/-- SEED_BEGIN (R378): an absent keyspace is created with PARTIAL_SEED; one that agrees gets PARTIAL_SEED. -/
def execSeedBegin (c : Nat) (s : State) : Host.Outcome State Fault Refusal :=
  match s.marker? c 1 with
  | none => .next s
  | some (x, p) =>
    match s.modeStops x with
    | some st => .next (s.endStatus c st).settle
    | none =>
      if !markerLimits x then .next (s.endStatus c .badLength).settle
      else match s.keyspace? x.keyspace with
        | some k =>
          if k.deleting.any (· < x.id) || k.attrs != p.attrs.toNat then .next (s.endStatus c .badKeyspace).settle
          else .next (((s.updKeyspace k.id (fun k => { k with partialSeed := true })).saveSettings).endStatus c .done).settle
        | none =>
          match s.createStatus x.keyspace p.attrs.toNat with
          | some st => .next (s.endStatus c st).settle
          | none => .next ((s.dequeue x).drawn.toSettings c (.create (s.newKeyspace x.keyspace p.attrs.toNat p.quota true)) (Reply.plain .done)).settle

/-- SEED_END (R378): PARTIAL_SEED is cleared. -/
def execSeedEnd (c : Nat) (s : State) : Host.Outcome State Fault Refusal :=
  match s.marker? c 2 with
  | none => .next s
  | some (x, _) =>
    match s.modeStops x with
    | some st => .next (s.endStatus c st).settle
    | none =>
      if !markerLimits x then .next (s.endStatus c .badLength).settle
      else if s.ksMissing x then .next (s.endStatus c .badKeyspace).settle
      else .next (((s.updKeyspace x.keyspace (fun k => { k with partialSeed := false })).saveSettings).endStatus c .done).settle

end Sys2Proof.Machine
end

