-- ==== Sys2Proof/Machine/Sessions.lean ====
section
/-! DEFINITION. Sessions (R129–R132), their windows (R217–R219, R309), and ECHO (R174). -/

namespace Sys2Proof.Machine

/-! ### SESSION_OPEN (R130, R131, R218) -/

/-- Check 4 of a SESSION_OPEN (R130, R155): no reserved bit, a fence that exists and has session capacity, a window of at most
32. It carries no key, no value and no flag. -/
def State.openLimits (s : State) (x : Ctx) : Bool :=
  let a := x.paramA.toNat
  let f := bits a 11 8
  x.keyLen == 0 && x.valLen == 0 && x.flagsWithin 0 && bits a 63 32 == 0 && bits a 15 12 == 0 && bits a 7 6 == 0 && f ≤ 8
    && bits a 5 0 ≤ 32 && (f == 0 || (s.owner f).sessions512 != 0)

/-- The session that an open repeats (R130): same source address, port and nonce, still open, no further command received. -/
def State.repeatOf (s : State) (x : Ctx) : Option Session :=
  s.net.sessions.find? (fun y => y.closing.isNone && !y.used && y.path.src.ip == x.path.src.ip && y.path.src.port == x.path.src.port
    && y.nonce == x.paramB)

/-- The answer to an open that opens no session goes once, to its source; a context is freed with it (R130). -/
def State.answerOpen (s : State) (x : Ctx) (r : Reply) : State := s.endCmd x.id r

/-- The replay of an open (R130): the session's number and its granted window, with its credit limit, sent once. -/
def State.replayOpen (s : State) (x : Ctx) (y : Session) : State :=
  let m := { x with sessField := y.num }.message
    { Reply.plain .doneReplayed with paramA := BitVec.ofNat 64 y.num, paramB := BitVec.ofNat 64 y.granted }
  (s.sendOnce x.path (some y.num) m).withCtxs (s.net.ctxs.filter (fun k => k.id != x.id))

/-- Idle sessions of a pool, the longest idle first wins (R131). -/
def State.longestIdle (s : State) (o : Nat) : Option Session :=
  (s.net.sessions.filter (fun y => y.fence == o && y.closing.isNone && s.idleSession y.num)).foldl (fun a y => match a with
    | none => some y
    | some v => if y.lastHeard < v.lastHeard then some y else some v) (none : Option Session)

/-- Microseconds until a time, at least BACKOFF_MIN_US. -/
def State.usUntil (s : State) (t : Nat) : Nat := max (s.var 0x0305) (ceilDiv (t - s.clock) 1000)

/-- Room for one more session in a pool (R131): as it is, after the longest-idle session is reclaimed, or the hint of a
BACKOFF. -/
def State.openRoom (s : State) (o : Nat) : State × Option Nat :=
  if s.poolOpen o < s.poolEntries o then (s, none)
  else match s.longestIdle o with
    | none => (s, some (1000000 * s.var 0x0204))
    | some y =>
      let due := y.lastHeard + sec (s.var 0x0204)
      if due ≤ s.clock then (s.freeSession y.num, none) else (s, some (s.usUntil due))

/-- Did a session of that number close within the last second (R129)? -/
def State.restsNumber (s : State) (n : Nat) : Bool := s.net.closed.any (fun c => c.1 == n && s.clock < c.2 + sec 1)

/-- The first number from `start` on, of the 131 072, that no session has and that has rested 1 s (R129). The module's choice of
`start` is free (log entry 5). -/
def State.freeNumber (s : State) : Option Nat :=
  let start := Config.choice s.rnd
  ((List.range (s.net.sessions.length + s.net.closed.length + 1)).map (fun i => (start + i) % 131072)).find? (fun n =>
    !(s.net.sessions.any (·.num == n)) && !s.restsNumber n)

/-- When the first number that still rests will have rested 1 s (R129). -/
def State.firstRested (s : State) : Nat :=
  (s.net.closed.filter (fun c => s.restsNumber c.1)).foldl (fun a c => min a (c.2 + sec 1)) (s.clock + sec 1)

/-- Opens a session with that number (R129, R130, R218): its window is granted, its SEQUENCE is its highest number, and the DONE
reply is kept. -/
def State.openSession (s : State) (x : Ctx) (n : Nat) : State :=
  let a := x.paramA.toNat
  let o := bits a 11 8
  let r := if bits a 5 0 == 0 then s.var 0x0201 else bits a 5 0
  let w := 1 + min (r - 1) (s.poolAvail o)
  let own : ReplayEntry := { seq := x.seq, opcode := x.opcode, tag := x.tag, finished := false, status := .done, paramA := 0, rerun := false }
  let y : Session :=
    { num := n, fence := o, path := x.path, nonce := x.paramB, openSeq := x.seq, granted := w, request := r, window := w,
      highest := x.seq, base := x.seq + 1, limit := x.seq + 1 + BitVec.ofNat 32 w, replay := [own], queue := [],
      noticeMask := BitVec.ofNat 16 (bits a 31 16), nextNotice := 0, notices := [], waitingSd := [], lost := false, backoffs := 0,
      lastHeard := s.clock, used := false, closing := none, closed := false }
  let s1 := { s.drawn with net := { s.net with sessions := s.net.sessions ++ [y] } }
  (s1.updCtx x.id (fun k => { k with session := some n, sessField := n, pool := o })).endCmd x.id
    { Reply.plain .done with paramA := BitVec.ofNat 64 n, paramB := BitVec.ofNat 64 w }

/-- SESSION_OPEN (R130, R131). -/
def execSessionOpen (c : Nat) (s : State) : Host.Outcome State Fault Refusal :=
  match s.fresh? c 0x10 with
  | none => .next s
  | some x =>
    match s.modeStops x with
    | some st => .next (s.answerOpen x (Reply.plain st))
    | none =>
      if !s.openLimits x then .next (s.answerOpen x (Reply.plain .badLength))
      else match s.repeatOf x with
        | some y => .next (s.replayOpen x y)
        | none =>
          if s.activationDrains then .next (s.answerOpen x (Reply.withA .backoff 10000))
          else match s.openRoom (bits x.paramA.toNat 11 8) with
            | (t, some hint) => .next (t.answerOpen x (Reply.withA .backoff hint))
            | (t, none) => match t.freeNumber with
              | some n => .next (t.openSession x n)
              | none => .next (t.answerOpen x (Reply.withA .backoff (t.usUntil t.firstRested)))

/-! ### SESSION_CLOSE (R132) -/

/-- SESSION_CLOSE (R132): the session begins closing; the answer waits for the commands accepted earlier. -/
def execSessionClose (c : Nat) (s : State) : Host.Outcome State Fault Refusal :=
  match s.fresh? c 0x11 with
  | none => .next s
  | some x =>
    match s.modeStops x with
    | some st => .next (s.endStatus c st)
    | none =>
      if !(x.keyLen == 0 && x.valLen == 0 && x.flagsWithin 0 && x.paramA == 0 && x.paramB == 0) then .next (s.endStatus c .badLength)
      else match x.session with
        | none => .next (s.endStatus c .badOpcode)
        | some n => .next ((s.updSession n (fun y => { y with closing := some (y.closing.getD c) })).toPhase c .draining)

/-- Commands of a session accepted before its SESSION_CLOSE and still without a terminal status (R132). -/
def State.earlier (s : State) (n c : Nat) : List Ctx := s.net.ctxs.filter (fun y => y.session == some n && y.id != c && !y.reexec)

/-- SESSION_CLOSE_DRAINED (R132): every earlier command has its terminal status, and the SESSION_CLOSE ends DONE. -/
def execSessionCloseDrained (c : Nat) (s : State) : Host.Outcome State Fault Refusal :=
  match s.ctx? c with
  | none => .next s
  | some x =>
    match x.session with
    | none => .next s
    | some n =>
      if x.phase == .draining && x.opcode == 0x11 && (s.earlier n c).all (fun y => y.opcode == 0x11 && y.phase == .draining) then
        .next ((s.endStatus c .done).updSession n (fun y => { y with closed := true }))
      else .next s

/-! ### Windows (R219, R309) -/

/-- The target that an owner in foreground GC gives a session of its throttle set (R309). -/
def State.throttleTarget (s : State) (o : Nat) (y : Session) : Option Nat :=
  let w := s.owner o
  if w.gc == 3 && w.throttle.any (fun t => t.1 == y.num && s.clock < t.2 + ms 10) then
    some (min y.request (max 1 (ceilDiv (y.request * (s.freeBp o - 100 * s.var 0x0603)) (100 * (s.var 0x0602 - s.var 0x0603)))))
  else none

/-- Targets 1, 2 and 5 of R219. -/
def State.ownTarget (s : State) (y : Session) : Nat :=
  let t := if s.idleSession y.num && y.lastHeard + ms (s.var 0x0304) ≤ s.clock then 1 else y.request
  ((List.range 9).filterMap (fun o => s.throttleTarget o y)).foldl min t

/-- A session's window set; the credit limit follows and never moves back (R134). -/
def State.setWindow (s : State) (n w : Nat) : State := s.updSession n (fun y => { y with window := w }.advance)

/-- The fair share of a pool (R219). -/
def State.fairShare (s : State) (o : Nat) : Nat :=
  max 1 ((s.poolContexts o - s.poolEntries o + s.poolOpen o) / max 1 (s.poolOpen o))

/-- The sessions of a pool. -/
def State.poolSessions (s : State) (o : Nat) : List Session := s.net.sessions.filter (·.fence == o)

/-- What the commons' windows exceed their bound by (target 3 of R219). -/
def State.windowExcess (s : State) : Nat :=
  s.poolWindows 0 + (s.poolEntries 0 - s.poolOpen 0) + s.internalContexts - s.poolContexts 0

/-- Takes `excess` from windows, the largest first, down to a floor. -/
def State.shrinkLargest (s : State) (floor : Nat) : Nat → Nat → State
  | 0, _ => s
  | _, 0 => s
  | fuel + 1, excess =>
    let big := (s.poolSessions 0).foldl (fun a y => match a with
      | none => some y
      | some v => if v.window < y.window then some y else some v) (none : Option Session)
    match big with
    | none => s
    | some y =>
      if y.window ≤ floor then s
      else
        let cut := min excess (y.window - floor)
        (s.setWindow y.num (y.window - cut)).shrinkLargest floor fuel (excess - cut)

/-- Target 3 of R219: down to the fair share, and below it only as far as needed. -/
def State.shrinkCommons (s : State) : State :=
  let n := s.net.sessions.length
  let s1 := s.shrinkLargest (s.fairShare 0) n s.windowExcess
  s1.shrinkLargest 1 n s1.windowExcess

/-- Are windows above the fair share to shrink to it: a session is below it and its request while nothing is available
(target 4 of R219)? -/
def State.poolTight (s : State) (o : Nat) : Bool :=
  s.poolAvail o == 0 && (s.poolSessions o).any (fun y => y.window < s.fairShare o && y.window < s.ownTarget y)

/-- Windows below their target grow while the pool has credits available (R219), in the order of the session table. -/
def State.growWindows (s : State) (o cap : Nat) : State :=
  (s.poolSessions o).foldl (fun t y =>
    let target := min cap (t.ownTarget y)
    if y.window < target then t.setWindow y.num (y.window + min (target - y.window) (t.poolAvail o)) else t) s

/-- One pool's re-computation (R219). -/
def State.rebalance (s : State) (o : Nat) : State :=
  let s1 := (s.poolSessions o).foldl (fun t y => if t.ownTarget y < y.window then t.setWindow y.num (t.ownTarget y) else t) s
  let s2 := if o == 0 then s1.shrinkCommons else s1
  let f := s2.fairShare o
  if s2.poolTight o then
    ((s2.poolSessions o).foldl (fun t y => if f < y.window then t.setWindow y.num f else t) s2).growWindows o f
  else s2.growWindows o 32

/-- WINDOW_REBALANCE (R219): every pool's windows are re-computed. -/
def execWindowRebalance (s : State) : Host.Outcome State Fault Refusal := .next ((List.range 9).foldl State.rebalance s)

/-! ### ECHO (R174) -/

/-- ECHO (R174): the reply carries the body and both parameters. -/
def execEcho (c : Nat) (s : State) : Host.Outcome State Fault Refusal :=
  match s.fresh? c 0x12 with
  | none => .next s
  | some x =>
    match s.modeStops x with
    | some st => .next (s.endStatus c st)
    | none =>
      if x.keyLen == 0 && x.valLen ≤ 8960 && x.flagsWithin 0 then
        .next (s.endCmd c { Reply.plain .done with paramA := x.paramA, paramB := x.paramB, body := x.body })
      else .next (s.endStatus c .badLength)

end Sys2Proof.Machine
end

