-- ==== Sys2Proof/Machine/Fence.lean ====
section
/-! DEFINITION. Fences (R180, R323–R327): reservations, their checks, and how die sets and pipelines move. -/

namespace Sys2Proof.Machine

/-- The numbers of the sets in a mask, rising. -/
def setList (m : BitVec 32) : List Nat := (List.range 32).filter (fun t => m.getLsbD t)

/-- The mask of a list of sets. -/
def setMask (l : List Nat) : BitVec 32 := l.foldl (fun m t => m ||| BitVec.ofNat 32 (2 ^ t)) 0

/-- Sets that move to any owner. -/
def State.movingSets (s : State) : BitVec 32 := s.owners.foldl (fun m w => m ||| w.moving) 0

/-- The sets an owner will hold once everything that moves has passed (R327). -/
def State.targetSets (s : State) (o : Nat) : BitVec 32 := ((s.owner o).held &&& ~~~s.movingSets) ||| (s.owner o).moving

/-- The targets of fence `f` and of the commons after `f` asks for `n` sets (R327): given are sets that return to the fence,
then the lowest-numbered sets the commons holds and that do not move; taken back are the fence's highest-numbered. none: the
commons has not enough. -/
def State.planSets (s : State) (f n : Nat) : Option (BitVec 32 × BitVec 32) :=
  let mine := setList (s.targetSets f)
  let com := s.targetSets 0
  if mine.length ≤ n then
    let back := setList (com &&& (s.owner f).held)
    let give := (back ++ setList (com &&& (s.owner 0).held)).take (n - mine.length)
    if give.length < n - mine.length then none else some (setMask (mine ++ give), com &&& ~~~setMask give)
  else
    let keep := mine.take n
    some (setMask keep, com ||| setMask (mine.drop n))

/-- Logical pipelines in service (R57, R344): those whose role has an island. -/
def State.pipesInService (s : State) : List Nat := (List.range 8).filter (fun i => !s.spares.lostRoles.contains (137 + i))

/-- The sum of a reservation over the fences, with fence `f` at `v`. -/
def State.fenceSum (s : State) (f v : Nat) (get : Owner → Nat) : Nat :=
  ((List.range 8).map (fun i => if i + 1 == f then v else get (s.owner (i + 1)))).sum

/-- Do an owner's sessions fit a pool of `n` entries and `c` contexts (R326)? -/
def State.poolFits (s : State) (o n c : Nat) : Bool := s.poolOpen o ≤ n && s.poolWindows o + (n - s.poolOpen o) ≤ c

/-- Check 1 of R326: session capacity of every owner that would lose some. -/
def State.sessionsFit (s : State) (f units : Nat) : Bool :=
  let k := s.fenceSum f units (·.sessions512)
  ((s.owner f).sessions512 ≤ units || s.poolFits f (512 * units) (4096 * units))
  && (k ≤ s.capacityUnits || s.poolFits 0 (131072 - 512 * k) (262144 - 4096 * k - s.internalContexts))

/-- Check 2 of R326 for one owner: what it stores and has reserved fits the sets it keeps. -/
def State.diesFit (s : State) (o : Nat) (new : BitVec 32) : Bool :=
  s.targetSets o &&& ~~~new == 0
    || (s.storedBytes o : Int) + ((s.inFlight o).map (·.growth)).sum ≤ userCapacity new

/-- What a FENCE_SET comes to (R180): none where it passes every check. -/
def State.fenceReply (s : State) (x : Ctx) : Option Reply :=
  let a := x.paramA.toNat
  let f := bits a 3 0
  let dies := bits a 8 4
  let pipes := bits a 11 9
  let cells := bits a 19 12
  let sess := bits a 27 20
  let full := some (Reply.withA .noSpace 5)
  if 2 ^ 28 ≤ a || f == 0 || 8 < f || 4 < pipes then some (Reply.plain .badLength)
  else if sess != 0 && cells < 33 then some (Reply.plain .badLength)
  else if dies == 0 && s.store.keyspaces.any (·.fence == f) then some (Reply.plain .exists')
  else if 30 < s.fenceSum f dies (·.dieSets) || 176 < s.fenceSum f cells (·.cells128) || 4 < s.fenceSum f pipes (·.pipes)
      || 32 < s.fenceSum f sess (·.sessions512)
      || s.poolTotal < 8192 + 2048 + 128 * s.fenceSum f cells (·.cells128)
      || s.pipesInService.length < 4 + s.fenceSum f pipes (·.pipes) then full
  else match s.planSets f dies with
    | none => full
    | some (mine, com) =>
      if (setsOf com false).isEmpty || (setsOf com true).isEmpty then full
      else if !s.sessionsFit f sess then full
      else if !(s.diesFit f mine && s.diesFit 0 com) then full else none

/-- The owner that holds a set, and the owner it moves to. -/
def State.setMove (s : State) (t : Nat) : Option (Nat × Nat) :=
  ((List.range 9).find? (fun o => (s.owner o).moving.getLsbD t)).bind (fun o =>
    ((List.range 9).find? (fun p => (s.owner p).held.getLsbD t)).map (fun p => (p, o)))

/-- Does a group lie on a set? -/
def Group.onSet (g : Group) (t : Nat) : Bool := g.sets.1 == t || g.sets.2 == t

/-- A set that moves and holds no written group passes to its new owner (R327). -/
def State.passSet (s : State) (t : Nat) : State :=
  match s.setMove t with
  | none => s
  | some (p, o) =>
    if s.store.groups.any (·.onSet t) then s
    else
      let b := setMask [t]
      (s.updOwner p (fun w => { w with held := w.held &&& ~~~b })).updOwner o
        (fun w => { w with held := w.held ||| b, moving := w.moving &&& ~~~b })

/-- Every set that can pass does, lowest-numbered first (R327). -/
def State.passSets (s : State) : State := (List.range 32).foldl State.passSet s

/-- The pipelines of a fence (R327): given are the commons' highest-numbered, taken back the fence's highest-numbered. -/
def State.movePipes (s : State) (f n : Nat) : State :=
  let of (o : Nat) : List Nat := s.pipesInService.filter (fun i => s.cipher.pipes.any (fun p => p.n == i && p.owner == o))
  let mine := of f
  let give := (of 0).reverse.take (n - mine.length)
  let back := mine.drop n
  let own (p : Pipe) : Pipe := if give.contains p.n then { p with owner := f } else if back.contains p.n then { p with owner := 0 } else p
  let pipes := s.cipher.pipes.map own
  let fix (j : Job) : Job := if pipes.any (·.owner == j.owner) then j else { j with owner := 0 }
  let s1 : State := { s with cipher := { s.cipher with pipes := pipes, queue := s.cipher.queue.map fix } }
  (pipes.filter (·.running.isNone)).foldl (fun t p => t.nextJob p.n) s1

/-- A FENCE_SET takes effect (R327): the new targets, the sets that begin to move with their open groups closed, and the
pipelines. Cells and session capacity follow the new figures at once. -/
def State.setFence (s : State) (f sess cells pipes dies : Nat) : State :=
  match s.planSets f dies with
  | none => s
  | some (mine, com) =>
    let s1 := s.updOwner f (fun w => { w with sessions512 := sess, cells128 := cells, pipes := pipes, dieSets := dies, moving := mine &&& ~~~w.held })
    let s2 := s1.updOwner 0 (fun w => { w with moving := com &&& ~~~w.held })
    let s3 := (s2.store.groups.filter (fun g => g.isOpen && (setList s2.movingSets).any g.onSet)).foldl (fun t g => t.closeGroup g.num) s2
    (s3.passSets.movePipes f pipes).retrySpace

end Sys2Proof.Machine
end

