-- ==== Sys2Proof/Machine/Admin.lean ====
section
/-! DEFINITION. The administrative commands of keyspaces, keys, fences, shapers, power and relay (R175–R185), and what the
changes they make to the settings do at their DONE. -/

namespace Sys2Proof.Machine

/-! ### The gate of an administrative command -/

/-- An administrative command whose checks can be made: it waits during the freeze of a handover (R441). -/
def State.admin? (s : State) (c op : Nat) : Option Ctx := if s.fw.freeze.isNone then s.fresh? c op else none

/-- Checks 3 and 4 of R155 of an administrative command, and then its own; one that would change the settings waits while
another settings write runs (log entry 6). -/
def State.adminRow (s : State) (c op : Nat) (settings : Bool) (limits : Ctx → Bool) (run : Ctx → State) : State :=
  match s.admin? c op with
  | none => s
  | some x =>
    if settings && s.settingsBusy then s
    else match s.modeStops x with
      | some st => s.endStatus c st
      | none => if limits x then run x else s.endStatus c .badLength

/-- No key, no value, no parameter and no flag but those given: a Bool for each of flags, KEY/VALUE_LENGTH, A and B (R153). -/
def Ctx.only (x : Ctx) (flags : BitVec 8) (valLen : Nat) (a b : Bool) : Bool :=
  x.keyLen == 0 && x.valLen == valLen && x.flagsWithin flags && (a || x.paramA == 0) && (b || x.paramB == 0)

/-- The milliseconds that remain of the confirmation of an image activated by restart with a newer settings format; while it
awaits confirmation the settings do not change (R447). -/
def State.settingsHeld (s : State) : Option Nat :=
  match s.fw.awaitSince with
  | none => none
  | some t =>
    let fmt (n : Nat) : Nat := (if n == 0 then s.fw.slot0 else s.fw.slot1).settings
    if s.fw.byRestart && fmt s.fw.confirmed < fmt s.fw.active then some (ceilDiv (t + ms 600000 - s.clock) 1000000) else none

/-- A command that has passed its checks changes the settings, unless R447 holds them. -/
def State.change (s : State) (x : Ctx) (ch : Change) (r : Reply) : State :=
  match s.settingsHeld with
  | some left => s.endCmd x.id (Reply.withA .notReady left)
  | none => s.toSettings x.id ch r

/-- KEYS_ERASED_LOCKED clears when no keyspace is locked (R365). -/
def State.unlockSeen (s : State) : State :=
  if s.supply.erasedLocked && s.lockedCount == 0 then { s with supply := { s.supply with erasedLocked := false } } else s

/-! ### Keyspaces (R175–R177) -/

/-- KEYSPACE_CREATE (R175). -/
def execKeyspaceCreate (c : Nat) (s : State) : Host.Outcome State Fault Refusal :=
  .next (s.adminRow c 0x20 true (·.only 0 0 true true) (fun x =>
    match s.createStatus x.keyspace x.paramA.toNat with
    | some st => s.endStatus c st
    | none => s.drawn.change x (.create (s.newKeyspace x.keyspace x.paramA.toNat x.paramB.toNat false)) (Reply.plain .done)))

/-- KEYSPACE_DELETE (R176, R341): from now on new commands naming the keyspace end BAD_KEYSPACE, its shaper stops, its sieves end,
and the deletion waits for the commands accepted before it. SECURE is CMD_FLAGS[0]. -/
def execKeyspaceDelete (c : Nat) (s : State) : Host.Outcome State Fault Refusal :=
  .next (s.adminRow c 0x21 false (·.only 1 0 false false) (fun x =>
    if s.ksMissing x || (s.keyspace? x.keyspace).any (·.deleting.isSome) then s.endStatus c .badKeyspace
    else match s.settingsHeld with
      | some left => s.endCmd c (Reply.withA .notReady left)
      | none =>
        let s1 := s.updKeyspace x.keyspace (fun k => { k with deleting := some c, shaper := k.shaper.map (fun h => { h with stopped := true }) })
        (s1.closeSieves (·.keyspace == x.keyspace) 2).toPhase c .draining))

/-- Does a command use KEYSPACE (R153)? -/
def Ctx.usesKeyspace (x : Ctx) : Bool :=
  (isQueued x.opcode || x.opcode == 0x22 || x.opcode == 0x30 || (x.opcode == 0x29 && !x.flags.getLsbD 1))

/-- Commands naming a keyspace accepted before its deletion that have no terminal status yet (R176). -/
def State.before (s : State) (x : Ctx) : List Ctx :=
  s.net.ctxs.filter (fun y => y.id < x.id && y.keyspace == x.keyspace && y.usesKeyspace)

/-- The chain of a keyspace ends: nothing more is forwarded, and every pair's behind state, seed and resync go (R373). -/
def State.dropPairs (s : State) (ks : Nat) (gone : Succ → Bool) : State :=
  { s with relay := { s.relay with
      pairs := s.relay.pairs.filter (fun p => !(p.keyspace == ks && gone p.succ))
      slots := s.relay.slots.filter (fun r => !(r.keyspace == ks && r.kind != .live && r.succs.all gone)) } }

/-- The deletion of a keyspace (R176): its log record, its records unmapped, its pinned ways invalidated (R253), its chain and
shaper gone, and its key page cleared where no keyspace names it now (R350). Its stamps continue (R162). -/
def State.deleteKeyspace (s : State) (k : Keyspace) : State :=
  let es := s.store.entries.filter (·.keyspace == k.id)
  let locs := es.flatMap Entry.locs
  let recs := locs.filterMap s.rec?
  let s1 := es.foldl (fun t e => t.removeEntry e) s
  let s2 := (es.filter (·.pinned)).foldl (fun t e => t.qUpdate (qBank e.fp) (qRowOf e.fp)
    ((t.qRow (qBank e.fp) (qRowOf e.fp)).filter (fun w => !(w.priority == 12 && w.fp == e.fp)))) s1
  let log (fp : BitVec 128) (t : State) : State := t.dirLog
    { kind := 5, keyspace := k.id, pin := false, fp := fp, key := [], loc := 0, stamp := getKey s.store.stamps k.id 0, seg := none, old := 0,
      extra := false, lsn := 0 }
  let s3 := ((log 64 (log 0 s2)).markStale recs).dropPairs k.id (fun _ => true)
  let s4 : State := { s3 with store := { s3.store with keyspaces := s3.store.keyspaces.filter (fun y => y.id != k.id) } }
  let s5 := s4.closeSieves (·.keyspace == k.id) 2
  let s6 := if k.encrypted && (s.page k.keyPage).cur.st != .empty && !(s4.store.keyspaces.any (fun y => y.encrypted && y.keyPage == k.keyPage)) then
      s5.clearPage k.keyPage 1 else s5
  s6.unlockSeen

/-- KEYSPACE_DELETE_DRAINED (R176): the commands accepted before have ended; the deletion is logged and ends DONE. With SECURE its
copies form an erase set of every group that holds records of the keyspace (R317). -/
def execKeyspaceDeleteDrained (c : Nat) (s : State) : Host.Outcome State Fault Refusal :=
  match s.ctx? c with
  | none => .next s
  | some x =>
    match s.keyspace? x.keyspace with
    | none => .next s
    | some k =>
      if x.opcode == 0x21 && x.phase == .draining && k.deleting == some c && (s.before x).isEmpty then
        let groups := (s.store.recs.filter (·.keyspace == k.id)).map (·.group)
        let cached := (s.store.recs.filter (·.keyspace == k.id)).map (·.loc)
        let s1 := (s.updCtx c (fun y => { y with committed := true })).deleteKeyspace k
        let s2 := if x.flags.getLsbD 0 then (s1.cacheDrop (cached.contains ·)).formEraseSet k.id 0 x.session [] groups else s1
        .next ((s2.saveSettings.endStatus c .done).retrySpace).relaySettle
      else .next s

/-- The body of KEYSPACE_QUERY (R177). -/
def State.queryBody (s : State) (k : Keyspace) : Bytes :=
  let p := s.page k.keyPage
  pack [(4, 0), (12, k.id), (4, 0), (4, k.fence), (1, b1 k.holdBack), (1, b1 k.encrypted), (6, k.keyPage), (1, 0), (1, b1 k.partialSeed),
    (1, b1 k.chain.isSome), (1, b1 k.lateSticky), (1, b1 (k.encrypted && p.sweep.isSome)), (1, b1 (k.encrypted && useLimit ≤ p.usage)),
    (1, b1 (s.locked k)), (1, b1 k.requireDigest), (24, 0), (64, (s.committed k.id).length), (64, s.bytesStored k.id), (64, k.quota),
    (64, getKey s.store.stamps k.id 0),
    (32, (s.store.eraseSets.filter (fun e => e.keyspace == k.id && !e.key.isEmpty)).length),
    (64, if k.encrypted then p.taken else 0), (96, 0)]

/-- KEYSPACE_QUERY (R177, R385): a snapshot; CLEAR_LATE_FAULT clears the flag after it. -/
def execKeyspaceQuery (c : Nat) (s : State) : Host.Outcome State Fault Refusal :=
  .next (s.adminRow c 0x22 false (·.only 1 0 false false) (fun x =>
    match s.keyspace? x.keyspace with
    | none => s.endStatus c .badKeyspace
    | some k =>
      if s.ksMissing x then s.endStatus c .badKeyspace
      else
        let s1 := if x.flags.getLsbD 0 then s.updKeyspace k.id (fun y => { y with lateSticky := false }) else s
        s1.endCmd c { Reply.plain .done with body := s.queryBody k }))

/-! ### Keys (R178, R179, R352) -/

/-- Is an older KEY_LOAD or KEY_RETIRE still to be handled (R352)? -/
def State.keyTurn (s : State) (x : Ctx) : Bool :=
  !(s.net.ctxs.any (fun y => y.id != x.id && (y.opcode == 0x23 || y.opcode == 0x24) && y.phase != .assembling && y.age < x.age))

/-- Can a key be unwrapped: is a KEK held, and does no alarm condition persist (R33, R178)? -/
def State.unwrapKey (s : State) (b : Bytes) : Option (Option (BitVec 256)) :=
  match s.cipher.kek with
  | none => none
  | some k => if s.supply.conditions.isEmpty then some (keyUnwrap k b) else none

/-- Loads a key into a slot (R350, R352), with its KEY_LOADED event (R369). An EMPTY current slot records the identity first. -/
def State.loadKey (s : State) (n : Nat) (previous : Bool) (key : BitVec 256) : State :=
  let p := s.page n
  let old := if previous then p.prev else p.cur
  if old.st == .loaded then s
  else
    let new := old.st == .empty
    let k : KeySlot := if new then
        { st := .loaded, identity := keyIdentity key, salt := BitVec.ofNat 32 (Config.random s.rnd), gen := 1, key := key }
      else { old with st := .loaded, key := key }
    let s1 := (if new then s.drawn else s).setPage (if previous then { p with prev := k } else { p with cur := k })
    (s1.logEvent 0x0802 (pack [(6, n), (1, b1 previous), (1, b1 new), (32, k.gen), (64, k.identity.toNat), (152, 0)])).unlockSeen

/-- KEY_LOAD (R178, R352). A load into a recorded slot changes no setting and ends at once (R447). -/
def execKeyLoad (c : Nat) (s : State) : Host.Outcome State Fault Refusal :=
  if (s.admin? c 0x23).any (fun x => !s.keyTurn x) then .next s
  else .next (s.adminRow c 0x23 true (fun x => x.only 0 40 true false && x.paramA.toNat < 512 && bits x.paramA.toNat 7 6 == 0) (fun x =>
    let n := bits x.paramA.toNat 5 0
    let previous := bit x.paramA.toNat 8
    let slot := if previous then (s.page n).prev else (s.page n).cur
    match s.unwrapKey x.body with
    | none => s.endStatus c .keyspaceLocked
    | some none => s.endStatus c .authFail
    | some (some key) =>
      if slot.st != .empty && slot.identity != keyIdentity key then s.endStatus c .authFail
      else if previous && slot.st == .empty then s.endStatus c .notFound
      else if slot.st == .empty then s.change x (.keyLoad n previous key) (Reply.withA .done n)
      else (s.loadKey n previous key).endCmd c (Reply.withA .done n)))

/-- Milliseconds a page's sweep still needs at REKEY_RATE_MBPS (R358). -/
def State.sweepMs (s : State) (p : KeyPage) : Nat := ceilDiv ((s.sweepLeft p).map Rec.length).sum (1000 * s.var 0x0802)

/-- KEY_RETIRE (R179). -/
def execKeyRetire (c : Nat) (s : State) : Host.Outcome State Fault Refusal :=
  if (s.admin? c 0x24).any (fun x => !s.keyTurn x) then .next s
  else .next (s.adminRow c 0x24 true (fun x => x.only 0 40 true false && x.paramA.toNat < 64) (fun x =>
    let p := s.page x.paramA.toNat
    if p.sweep.isSome then s.endCmd c (Reply.withA .notReady (s.sweepMs p))
    else if p.cur.st != .loaded then s.endStatus c .keyspaceLocked
    else match s.unwrapKey x.body with
      | none => s.endStatus c .keyspaceLocked
      | some none => s.endStatus c .authFail
      | some (some key) => s.change x (.keyRetire p.n key) (Reply.plain .done)))

/-- Does a cipher job that started under a page's current key still run (R357)? -/
def State.keyInUse (s : State) (n : Nat) : Bool :=
  s.net.ctxs.any (fun x => x.phase == .sealing && x.sealGen.any (fun g => g.1 == (s.page n).cur.gen)
    && (s.keyspace? x.keyspace).any (fun k => k.encrypted && k.keyPage == n) && s.hasJob (.cmd x.id))

/-- A key page is rotated (R179, R350, R357): the current key becomes the previous one, the new key is current with no use
taken, the sweep's uses and those promised to waiting writes are reserved, and the sweep starts. -/
def State.retireKey (s : State) (n : Nat) (key : BitVec 256) : State :=
  let p := s.page n
  let gen := (p.cur.gen + 1) % 2 ^ 32
  let wraps := gen == 0
  let salt := if wraps then BitVec.ofNat 32 (Config.random s.rnd) else p.cur.salt
  let swept := (s.sealedUnder n p.cur.gen).length + s.uncommittedUnder n p.cur.gen
  let carried := (s.net.ctxs.filter (fun x => x.keyUse && (s.keyspace? x.keyspace).any (fun k => k.encrypted && k.keyPage == n))).length
  let w : Sweep := { started := s.clock, total := swept, resealed := 0, inPlace := [] }
  let q : KeyPage :=
    { n := n, cur := { st := .loaded, identity := keyIdentity key, salt := salt, gen := gen, key := key }, prev := p.cur, taken := 0,
      reserved := swept + carried, warnSent := false, exhSent := false, sweep := some w }
  let s1 := (if wraps then s.drawn else s).setPage q
  ((s1.logEvent 0x0803 (pack [(6, n), (32, gen), (64, (keyIdentity key).toNat), (32, swept), (122, 0)])).keyEvents n).sweepEnd n

/-! ### Fences, shapers, power (R180–R182) -/

/-- FENCE_SET (R180). -/
def execFenceSet (c : Nat) (s : State) : Host.Outcome State Fault Refusal :=
  .next (s.adminRow c 0x28 true (·.only 0 0 true false) (fun x =>
    match s.fenceReply x with
    | some r => s.endCmd c r
    | none =>
      let a := x.paramA.toNat
      s.change x (.fence (bits a 3 0) (bits a 27 20) (bits a 19 12) (bits a 11 9) (bits a 8 4)) (Reply.plain .done)))

/-- Check 4 of a SHAPER_SET (R181, R336). -/
def shaperLimits (x : Ctx) : Bool :=
  let n := natOfBytes (x.body.take 32)
  let br := bits n 255 192
  let bd := bits n 191 128
  let or := bits n 127 64
  let od := bits n 63 0
  let fence := x.flags.getLsbD 1
  x.keyLen == 0 && x.flagsWithin 7 && x.paramB == 0 && (if fence then x.paramA.toNat ≤ 8 else x.paramA == 0)
    && (if x.flags.getLsbD 2 then x.valLen == 0
        else x.valLen == 32 && (br ≤ 1000000000000 || br == unlimited) && (br == unlimited || bd ≤ 1099511627776)
          && (or ≤ 1000000000 || or == unlimited) && (or == unlimited || od ≤ 4294967296))

/-- The shaper of a target. -/
def State.targetShaper (s : State) (fence : Bool) (n : Nat) : Option Shaper :=
  if fence then (s.owner n).shaper else (s.keyspace? n).bind (·.shaper)

/-- A target's shaper replaced. -/
def State.setShaper (s : State) (fence : Bool) (n : Nat) (h : Option Shaper) : State :=
  if fence then s.updOwner n (fun w => { w with shaper := h }) else s.updKeyspace n (fun k => { k with shaper := h })

/-- SHAPER_SET (R181, R338). -/
def execShaperSet (c : Nat) (s : State) : Host.Outcome State Fault Refusal :=
  .next (s.adminRow c 0x29 true shaperLimits (fun x =>
    let fence := x.flags.getLsbD 1
    let target := if fence then x.paramA.toNat else x.keyspace
    let remove := x.flags.getLsbD 2
    let n := natOfBytes (x.body.take 32)
    if !fence && s.ksMissing x then s.endStatus c .badKeyspace
    else if remove && (s.targetShaper fence target).isNone then s.endStatus c .notFound
    else s.change x (.shaper fence target remove (x.flags.getLsbD 0) (bits n 255 192) (bits n 191 128) (bits n 127 64) (bits n 63 0))
      (Reply.plain .done)))

/-- One count through steps 2 to 4 of R337, in units where a depth is `depth`. -/
def reshape (count : Int) (oldUnlimited forgive : Bool) (depth : Nat) : Int :=
  if oldUnlimited then depth else min (if forgive then max count 0 else count) depth

/-- A shaper created or changed now (R337). -/
def State.reshaped (s : State) (old : Option Shaper) (forgive : Bool) (br bd or od : Nat) : Shaper :=
  match old with
  | none => { byteRate := br, byteDepth := bd, opRate := or, opDepth := od, bytes := bd, ops := 1024 * od, byteRem := 0, opRem := 0,
              at' := s.clock, stopped := false }
  | some h0 =>
    let h := h0.accrue s.clock
    { h with byteRate := br, byteDepth := bd, opRate := or, opDepth := od
             bytes := reshape h.bytes (h.byteRate == unlimited) forgive bd
             ops := reshape h.ops (h.opRate == unlimited) forgive (1024 * od) }

/-- The counts that the reply carries (R339). -/
def Shaper.counts (h : Shaper) : Reply :=
  let all := BitVec.ofNat 64 (2 ^ 63 - 1)
  { Reply.plain .done with paramA := if h.byteRate == unlimited then all else BitVec.ofInt 64 h.bytes
                           paramB := if h.opRate == unlimited then all else BitVec.ofInt 64 h.ops }

/-- The timers a POWER_POLICY asks for: a field of 0 leaves its timer (R182). -/
def State.policyVars (s : State) (x : Ctx) : List (Nat × Nat) :=
  let b := x.paramB.toNat
  let put (vs : List (Nat × Nat)) (id v : Nat) : List (Nat × Nat) := if v == 0 then vs else setVarIn vs id v
  put (put (put (setVarIn s.vars 0x0B01 (bits x.paramA.toNat 1 0)) 0x0B02 (bits b 47 32)) 0x0B03 (bits b 31 16)) 0x0B04 (bits b 15 0)

/-- POWER_POLICY (R182, R419). -/
def execPowerPolicy (c : Nat) (s : State) : Host.Outcome State Fault Refusal :=
  .next (s.adminRow c 0x2A true (fun x =>
      let b := x.paramB.toNat
      x.only 0 0 true true && x.paramA.toNat < 4 && b < 2 ^ 48 && (bits b 47 32 == 0 || 10 ≤ bits b 47 32) && varConditions (s.policyVars x))
    (fun x =>
      let vs := s.policyVars x
      s.change x (.power (varIn vs 0x0B01) (varIn vs 0x0B02) (varIn vs 0x0B03) (varIn vs 0x0B04)) (Reply.plain .done)))

/-- A module deeper than POWER_DEEPEST exits to that state (R419): through P0 where the exit of R418 leads there. -/
def State.clampPower (s : State) : State :=
  if s.power.st ≤ s.var 0x0B01 then s
  else { s with power := { s.power with preparing := false, exiting := some (s.power.exiting.getD (s.power.st, s.clock)) } }

/-! ### Relay (R183, R184, R371–R373, R389–R391) -/

/-- Reads a successor entry (R183); none where it is malformed. -/
def parseSucc (b : Bytes) : Option Succ :=
  let n := natOfBytes (b.take 24)
  let fam := bits n 159 152
  let a := bits n 127 0
  if b.length < 24 || bits n 191 188 != 0 || bits n 151 128 != 0 || (fam != 4 && fam != 6) || (fam == 4 && 2 ^ 32 ≤ a) then none
  else some { moduleId := bits n 187 176, port := bits n 175 160, addr := ⟨fam == 6, a⟩ }

/-- The successor entries of a RELAY_SET body; none where one is malformed. -/
def parseSuccs : Nat → Bytes → Option (List Succ)
  | 0, _ => some []
  | n + 1, b => match parseSucc b, parseSuccs n (b.drop 24) with
    | some u, some us => some (u :: us)
    | _, _ => none

/-- Check 4 of a RELAY_SET (R183). -/
def relayLimits (x : Ctx) : Bool :=
  let a := x.paramA.toNat
  let t := x.paramB.toNat
  let count := bits a 1 0
  x.keyLen == 0 && x.flagsWithin 0 && a < 16 && !bit a 2 && t < 2 ^ 16 && (t == 0 || (10 ≤ t && t ≤ 60000))
    && (if bit a 3 then count == 0 && x.valLen == 0 else x.valLen == 24 * count && (parseSuccs count x.body).isSome)

/-- Does a chain close a cycle the module sees (R372)? -/
def State.seesCycle (s : State) (us : List Succ) : Bool :=
  us.any (fun u => (u.port == s.var 0x010D && (List.range 8).any (fun l => (s.ownAddrs l).contains u.addr))
      || s.relay.map.any (fun m => m.self == u.moduleId))
    || (us.map (fun u => (u.addr, u.port))).eraseDups.length != us.length

/-- RELAY_SET (R183, R372). -/
def execRelaySet (c : Nat) (s : State) : Host.Outcome State Fault Refusal :=
  .next (s.adminRow c 0x30 true relayLimits (fun x =>
    let a := x.paramA.toNat
    let count := bits a 1 0
    let us := (parseSuccs count x.body).getD []
    if s.ksMissing x then s.endStatus c .badKeyspace
    else if bit a 3 then
      if s.relay.map.isNone then s.endStatus c .notFound
      else s.change x (.relay x.keyspace (some { fromMap := true, succs := [], timeout := x.paramB.toNat })) (Reply.plain .done)
    else if s.seesCycle us then s.endCmd c (Reply.withA .relayFault 1)
    else s.change x (.relay x.keyspace (if count == 0 then none else some { fromMap := false, succs := us, timeout := x.paramB.toNat }))
      (Reply.plain .done)))

/-- The successors a chain has for some key: its entries, or those of the map's buckets this module heads (R371, R390). -/
def State.allSuccs (s : State) (k : Keyspace) : List Succ :=
  match k.chain with
  | none => []
  | some ch =>
    if !ch.fromMap then ch.succs
    else match s.relay.map with
      | none => []
      | some m =>
        if !m.covers k.id then []
        else
          let ids := ((m.buckets.filter (fun b => b.head? == some m.self)).flatMap (fun b => (b.drop 1).take 3)).eraseDups
          ids.filterMap (fun i => (m.modules.find? (·.id == i)).map (·.succ))

/-- A keyspace's chain is set (R371, R373): successors it loses are dropped, and each it gains is seeded. -/
def State.setChain (s : State) (ks : Nat) (chain : Option Chain) : State :=
  match s.keyspace? ks with
  | none => s
  | some k =>
    let old := s.allSuccs k
    let new := s.allSuccs { k with chain := chain }
    let s1 := (s.updKeyspace ks (fun y => { y with chain := chain })).dropPairs ks (fun u => !new.contains u)
    (new.filter (fun u => !old.contains u)).foldl (fun t u =>
      let hop := (((new.findIdx? (· == u)).getD 0) % 3) + 1
      t.startPair { Pair.fresh ks u hop t.clock with seeding := true }) s1

/-- Reads a map's module entries (R389). -/
def parseModules : Nat → Bytes → Option (List MapModule)
  | 0, _ => some []
  | n + 1, b =>
    let v := natOfBytes (b.take 32)
    let fam := bits v 223 216
    let a := bits v 191 64
    if bits v 243 240 != 0 || bits v 215 192 != 0 || (fam != 4 && fam != 6) || (fam == 4 && 2 ^ 32 ≤ a) then none
    else (parseModules n (b.drop 32)).map (fun ms =>
      { id := bits v 255 244, succ := { moduleId := bits v 255 244, port := bits v 239 224, addr := ⟨fam == 6, a⟩ }, serial := bits v 63 0 } :: ms)

/-- Reads a bucket entry (R389); none where it is malformed, repeats a module or names one not in the table. -/
def parseBucket (ids : List Nat) (b : Bytes) : Option (List Nat) :=
  let v := natOfBytes (b.take 8)
  let count := bits v 50 48
  let chain := [bits v 47 36, bits v 35 24, bits v 23 12, bits v 11 0]
  let used := chain.take count
  if bits v 63 51 != 0 || count == 0 || 4 < count || (chain.drop count).any (· != 0) || !used.all ids.contains
      || used.eraseDups.length != used.length then none
  else some used

/-- Reads `n` bucket entries. -/
def parseBuckets (ids : List Nat) : Nat → Bytes → Option (List (List Nat))
  | 0, _ => some []
  | n + 1, b => match parseBucket ids b, parseBuckets ids n (b.drop 8) with
    | some c, some cs => some (c :: cs)
    | _, _ => none

/-- Reads an orchard map (R389); none where the command ends BAD_LENGTH. -/
def parseMap (epoch : Nat) (b : Bytes) : Option OrchardMap :=
  let h := natOfBytes (b.take 64)
  let n := bits h 503 488
  let cover := (b.drop 64).take 512
  if b.length < 576 || bits h 511 504 != 1 || n == 0 || 4096 < n || bits h 487 480 != 1 || bits h 479 0 != 0
      || b.length != 576 + 32 * n + 524288 || (cover.getD 0 0).getLsbD 7 then none
  else match parseModules n (b.drop 576) with
    | none => none
    | some mods =>
      let ids := mods.map (·.id)
      if ids.eraseDups.length != n || (mods.map (·.serial)).eraseDups.length != n then none
      else match mods.find? (fun m => m.serial == Config.serial 0 % 2 ^ 64), parseBuckets ids 65536 (b.drop (576 + 32 * n)) with
        | some me, some bs => some { epoch := epoch, cover := cover, modules := mods, buckets := bs, self := me.id }
        | _, _ => none

/-- ORCHARD_MAP_LOAD (R184, R389). -/
def execOrchardMapLoad (c : Nat) (s : State) : Host.Outcome State Fault Refusal :=
  .next (s.adminRow c 0x31 true (fun x => x.keyLen == 0 && x.flagsWithin 0 && x.paramA.toNat < 2 ^ 32 && x.paramB == 0
      && (parseMap x.paramA.toNat x.body).isSome)
    (fun x =>
      if s.relay.map.any (fun m => x.paramA.toNat ≤ m.epoch) then s.endStatus c .alreadyDone
      else s.change x (.map x.paramA.toNat x.body) (Reply.plain .done)))

/-- The buckets whose chain, with this module as head, has gained a member (R391). -/
def OrchardMap.gained (m : OrchardMap) (old : Option OrchardMap) (id : Nat) : List Nat :=
  (List.range 65536).filter (fun b =>
    let c := m.buckets.getD b []
    c.head? == some m.self && (c.drop 1).contains id && !(old.any (fun o => (o.buckets.getD b []).contains id)))

/-- The new members of a map are sent the keys of their buckets of one FROM_MAP keyspace, as a resync with P 0 (R391). -/
def State.seedGained (s : State) (m : OrchardMap) (old : Option OrchardMap) (k : Keyspace) : State :=
  m.modules.foldl (fun t u =>
    let bs := m.gained old u.id
    if bs.isEmpty then t
    else match t.pair? k.id u.succ with
      | some p => t.setPair { p with point := 0, buckets := [] }
      | none => t.startPair { Pair.fresh k.id u.succ 1 t.clock with buckets := bs }) s

/-- A map replaces the loaded one (R184, R391): chain members it no longer has are dropped, new ones are seeded, and
MAP_CHANGED goes out where a map was loaded before. -/
def State.setMap (s : State) (m : OrchardMap) : State :=
  let old := s.relay.map
  let s1 : State := { s with relay := { s.relay with map := some m } }
  let s2 := if old.isSome then s1.broadcast .mapChanged 0 (BitVec.ofNat 64 m.epoch) (BitVec.ofNat 64 m.self) [] else s1
  (s2.store.keyspaces.filter (fun k => m.covers k.id && (k.chain.map (·.fromMap)).getD false)).foldl (fun t k =>
    (t.dropPairs k.id (fun u => !(t.allSuccs k).contains u)).seedGained m old k) s2

/-- PROMOTE (R185, R394): without incomplete keyspaces, or with FORCE, the module serves. -/
def execPromote (c : Nat) (s : State) : Host.Outcome State Fault Refusal :=
  .next (s.adminRow c 0x32 false (·.only 1 0 false false) (fun x =>
    let force := x.flags.getLsbD 0
    let part := (s.store.keyspaces.filter (·.partialSeed)).map (·.id)
    if !part.isEmpty && !force then s.endCmd c (Reply.withA .incomplete part.length)
    else
      let s1 := (s.changeMode .serving).logEvent 0x0907 (pack [(1, b1 force), (15, 0), (16, part.length), (224, 0)])
      s1.endCmd c { Reply.withA .done part.length with body := part.flatMap (bytesOfNat 2) })).settle

end Sys2Proof.Machine
end

