-- ==== Sys2Proof/Machine/Settings.lean ====
section
/-! DEFINITION. Configuration variables (R69, R70, R192) and the settings write (R54). -/

namespace Sys2Proof.Machine

/-- The value a configuration variable reads as: the status variables read the state they report (R150, R118, R432). -/
def State.readVar (s : State) (id : Nat) : Nat :=
  if id == 0x0205 then wmStatus s.marks else if id == 0x0140 then s.ports.eventsA.toNat else if id == 0x0141 then s.ports.eventsB.toNat
  else if id == 0x0B06 then b1 s.holdup.testing.isSome else s.var id

/-- The reply that carries a variable's value (R192). -/
def State.varReply (s : State) (d : VarDesc) (id : Nat) : Reply :=
  let v := s.readVar id
  { Reply.plain .done with paramA := BitVec.ofNat 64 v, paramB := BitVec.ofNat 64 id, body := if d.width == 128 then bytesOfNat 16 v else [] }

/-- The variable a CONFIG command names; none where check 1 of R192 fails. -/
def Ctx.varNamed (x : Ctx) : Option VarDesc :=
  if x.keyLen == 0 && x.flagsWithin 0 && x.paramA.toNat < 2 ^ 16 then varDesc x.paramA.toNat else none

/-- CONFIG_GET (R192). -/
def execConfigGet (c : Nat) (s : State) : Host.Outcome State Fault Refusal :=
  .next (s.adminRow c 0x3C false (fun _ => true) (fun x =>
    match x.varNamed with
    | none => s.endStatus c .badLength
    | some d => if x.valLen == 0 && x.paramB == 0 then s.endCmd c (s.varReply d x.paramA.toNat) else s.endStatus c .badLength))

/-- The value a CONFIG_SET carries; none where it is not in the encoding of its variable's width (check 3 of R192). -/
def Ctx.varValue (x : Ctx) (d : VarDesc) : Option Nat :=
  if d.width == 128 then (if x.valLen == 16 && x.paramB == 0 then some (natOfBytes x.body) else none)
  else if x.valLen == 0 then some x.paramB.toNat else none

/-- The checks 1 to 5 of R192 of a CONFIG_SET: the variable and the value, or the status. -/
def State.checkSet (s : State) (x : Ctx) : Status ⊕ (VarDesc × Nat) :=
  let id := x.paramA.toNat
  match x.varNamed with
  | none => .inl .badLength
  | some d =>
    if !d.modes.contains s.modes.mode || (id / 256 == 0x0D && !x.mailbox) then .inl .wrongMode
    else match x.varValue d with
      | none => .inl .badLength
      | some v => if d.admits v && (isStatusVar id || varConditions (setVarIn s.vars id v)) then .inr (d, v) else .inl .badLength

/-- A CONFIG_SET that writes 1 to HOLDUP_TEST_NOW and passes its checks. -/
def State.isTestNow (s : State) (x : Ctx) : Bool :=
  x.paramA.toNat == 0x0B06 && (match s.checkSet x with
    | .inr p => p.2 == 1
    | .inl _ => false)

/-- A write to a status variable (R118, R150, R192). -/
def State.writeStatusVar (s : State) (id v : Nat) : State :=
  if id == 0x0205 then { s with marks := clearMarks s.marks v }
  else if id == 0x0140 then s.clearPortEvents false (BitVec.ofNat 16 v)
  else if id == 0x0141 then s.clearPortEvents true (BitVec.ofNat 16 v) else s

/-- CONFIG_SET (R69, R70, R192): status variables change at once; every other value is stored before the DONE. A write of 1 to
HOLDUP_TEST_NOW is a row of its own. -/
def execConfigSet (c : Nat) (s : State) : Host.Outcome State Fault Refusal :=
  if (s.admin? c 0x3D).any s.isTestNow then .next s
  else .next (s.adminRow c 0x3D true (fun _ => true) (fun x =>
    match s.checkSet x with
    | .inl st => s.endStatus c st
    | .inr (d, v) =>
      let id := x.paramA.toNat
      if isStatusVar id then
        let s1 := s.writeStatusVar id v
        s1.endCmd c (s1.varReply d id)
      else s.change x (.config id v) (Reply.plain .done)))

/-- A bank test starts (R427): one at a time, in Serving, Shadowing or Frozen. -/
def State.startTest (s : State) : State :=
  if s.modes.mode.service && s.holdup.testing.isNone then { s with holdup := { s.holdup with testing := some s.clock, interrupted := false } } else s

/-- HOLDUP_TEST_NOW (R427): the write of 1 starts a test; the variable reads 1 while it runs. -/
def execHoldupTestNow (c : Nat) (s : State) : Host.Outcome State Fault Refusal :=
  if (s.admin? c 0x3D).any s.isTestNow then
    .next (s.adminRow c 0x3D false (fun _ => true) (fun x =>
      let s1 := s.startTest
      match x.varNamed with
      | some d => s1.endCmd c (s1.varReply d 0x0B06)
      | none => s))
  else .next s

/-! ### The settings write (R54) -/

/-- A variable takes its new value: a port's format retrains its links (R101), VALUE_CACHE_ADMIT 0 empties the value cache (R265),
the bucket of the sieves goes on at its new rate (R284), POWER_DEEPEST may end a power state (R419), and SB_ALERT_MASK sets
ALERT_MASK (R471). -/
def State.setConfig (s : State) (id v : Nat) : State :=
  let s0 := if id == 0x0502 then s.settleScan else s
  let s1 := { s0 with vars := setVarIn s.vars id v }
  if id == 0x0101 then s1.retrainPort false v
  else if id == 0x0102 then s1.retrainPort true v
  else if id == 0x0406 && v == 0 then s1.cacheDrop (fun _ => true)
  else if id == 0x0B01 then s1.clampPower
  else if id == 0x0D01 then { s1 with sb := { s1.sb with alertMask := BitVec.ofNat 16 v } }
  else s1

/-- A change of the settings takes effect at its command's DONE (R226). -/
def State.applyChange (s : State) : Change → State
  | .config id v => s.setConfig id v
  | .create k => { s with store := { s.store with keyspaces := s.store.keyspaces ++ [k] } }
  | .fence n sess cells pipes dies => s.setFence n sess cells pipes dies
  | .shaper fence target remove forgive br bd or od =>
    s.setShaper fence target (if remove then none else some (s.reshaped (s.targetShaper fence target) forgive br bd or od))
  | .power deepest p1 p2 p3 =>
    ({ s with vars := setVarIn (setVarIn (setVarIn (setVarIn s.vars 0x0B01 deepest) 0x0B02 p1) 0x0B03 p2) 0x0B04 p3 } : State).clampPower
  | .relay ks chain => s.setChain ks chain
  | .map epoch body => match parseMap epoch body with
    | some m => s.setMap m
    | none => s
  | .keyLoad n previous key => s.loadKey n previous key
  | .keyRetire n key => s.retireKey n key

/-- The reply of a change that has taken effect: a CONFIG_SET carries the value (R192), a SHAPER_SET its counts (R339). -/
def State.changeReply (s : State) (r : Reply) : Change → Reply
  | .config id _ => match varDesc id with
    | some d => s.varReply d id
    | none => r
  | .shaper fence target remove _ _ _ _ _ => if remove then r else match s.targetShaper fence target with
    | some h => h.counts
    | none => r
  | _ => r

/-- Must a change still wait: KEY_RETIRE ends only after every job that started under the old key (R357)? -/
def State.changeWaits (s : State) : Change → Bool
  | .keyRetire n _ => s.keyInUse n
  | _ => false

/-- SETTINGS_WRITE_DONE (R54): both NOR copies hold the change, and the waiting command ends DONE. -/
def execSettingsWriteDone (c : Nat) (s : State) : Host.Outcome State Fault Refusal :=
  match s.ctx? c with
  | none => .next s
  | some x =>
    match x.phase, x.change with
    | .settings, some ch =>
      if s.changeWaits ch then .next s
      else
        let s1 := (s.applyChange ch).saveSettings
        .next (s1.endCmd c (s1.changeReply x.reply ch)).relaySettle
    | _, _ => .next s

end Sys2Proof.Machine
end

