-- ==== Sys2Proof/Machine/Health.lean ====
section
/-! DEFINITION. What the module reports of itself: HEALTH_READ and its pages (R187, R188, R60, R119, R319, R320, R332, R368, R395,
R412, R430, R451), IDENTIFY (R189) and LOG_READ (R190, R191). Pages 1, 2, 4, 8 and 9 come from DRAM and flash and read 0 while VALID
is 0; the management island holds the others itself (log entry 21). -/

namespace Sys2Proof.Machine

/-- Are the fields that depend on DRAM or flash valid (R187)? -/
def State.valid (s : State) : Bool := s.modes.mode.service || s.modes.mode == .sanitising

/-- A temperature in 8 bits; 0x80 for a failed sensor (R456, R464). -/
def State.tempByte (s : State) (i : Nat) : Nat :=
  if s.sb.failed.any (·.1 == i) then 0x80 else signed 8 (s.thermal.readings.getD i 0)

/-- WEAR_USED (R312). -/
def State.wearUsed (s : State) : Nat := sat 16 (10000 * s.counts.partnerBytes / 182600000000000000)

/-- FREE_BYTES (R306). -/
def State.freeBytes (s : State) : Nat := ((List.range 9).map (fun o => userCapacity (s.owner o).held - s.storedBytes o)).sum

/-- A page of `n` bytes that is not valid and reads 0. -/
def blankPage (n : Nat) : Bytes := List.replicate n 0

/-- The frozen-from code (R188). -/
def frozenFromCode : Option Mode → Nat
  | some .serving => 1
  | some .shadowing => 2
  | _ => 0

/-- Page 0 (R188). -/
def State.page0 (s : State) : Bytes :=
  pack ([(1, b1 s.valid), (1, 0), (2, if s.modes.mode == .serving then s.power.st else 0), (4, s.modes.mode.code), (8, s.modes.freezeCauses.toNat),
      (4, 0), (2, frozenFromCode s.modes.frozenFrom), (18, wmStatus s.marks), (4, 0), (1, b1 s.modes.sanitising), (1, b1 s.cipher.kek.isSome),
      (1, b1 s.supply.erasedLocked), (1, b1 s.modes.startFault), (8, s.sanitisePercent), (8, 0)]
    ++ (List.range 10).map (fun i => (8, s.tempByte i))
    ++ [(16, s.ports.eventsA.toNat), (16, s.ports.eventsB.toNat), (16, if s.valid then s.wearUsed else 0), (64, if s.valid then s.freeBytes else 0),
        (32, sat 32 s.counts.overruns), (32, sat 32 s.counts.discards), (32, sat 32 s.counts.unanswered), (160, 0)])

/-- Mean and highest erase count of the die blocks, in 0.01 cycles (R319). -/
def State.eraseAvg (s : State) : Nat := 100 * (s.store.wear.map (·.2)).sum / (3 * 32 * 10923)
def State.eraseMax (s : State) : Nat := 100 * (s.store.wear.map (·.2)).foldl max 0 / 3

/-- Percent of a die's block reserve left. -/
def reservePct (used : Nat) : Nat := 100 * (280 - used) / 280

/-- Page 1 (R319). -/
def State.page1 (s : State) : Bytes :=
  if !s.valid then blankPage 192
  else
    let c := s.counts
    pack ([(1, 1), (7, 0), (8, reservePct s.reserveWorst), (8, ((List.range 32).map s.diesLeft).foldl min 2), (8, c.diesRetired),
        (16, s.wearUsed), (16, 0), (64, sat 64 c.partnerBytes), (64, sat 64 c.nandBytes), (32, sat 32 s.eraseAvg), (32, sat 32 s.eraseMax),
        (32, sat 32 c.retryCw), (32, sat 32 c.softCw), (32, sat 32 c.rebuiltCw), (32, sat 32 c.mediaErrors), (32, sat 32 c.programFails),
        (32, sat 32 c.eraseFails), (32, sat 32 c.blocksRetired), (32, sat 32 c.patrolMoves)]
      ++ (List.range 9).map (fun o => (64, s.freeSpace o))
      ++ [(32, s.store.cycleHours), (32, (s.store.groups.filter (·.secure.isSome)).length), (384, 0)])

/-- Page 2 (R320). -/
def State.page2 (s : State) : Bytes :=
  if !s.valid then blankPage 160
  else
    let t := s.thermal
    pack ([(1, 1), (7, 0), (8, signed 8 t.nandNow), (16, 0), (32, sat 32 t.minutes)] ++ (List.range 16).map (fun i => (32, sat 32 (t.histogram.getD i 0)))
      ++ (List.range 10).flatMap (fun i => [(8, signed 8 (t.maxima.getD i (0, 0)).1), (24, 0), (32, sat 32 (t.maxima.getD i (0, 0)).2)]) ++ [(64, 0)])

/-- The die with the most reserve blocks used, as channel and position. -/
def State.worstDie (s : State) : Nat × Nat :=
  ((s.spares.reserveUsed.find? (fun r => r.2 == s.reserveWorst)).map (·.1)).getD (0, 0)

/-- The DRAM channel with the most spare rows used. -/
def State.worstRows (s : State) : Nat := ((s.spares.rowsUsed.find? (fun r => r.2 == s.rowsWorst)).map (·.1)).getD 0

/-- Page 3 (R60): valid in every mode but for its die, block and row fields. -/
def State.page3 (s : State) : Bytes :=
  let v (n : Nat) : Nat := if s.valid then n else 0
  pack ([(1, b1 s.valid), (1, b1 s.modes.startFault), (1, b1 s.spares.standbyLost), (1, b1 s.holdup.spareInUse), (3, s.modes.startCause), (1, 0),
      (8, s.modes.startStep), (9, s.modes.faultIsland), (7, 0), (32, sat 32 s.modes.starts), (32, sat 32 s.modes.startFaults),
      (16, sat 16 s.modes.lastFillMs), (16, 0)]
    ++ islandClasses.map (fun c => (8, (s.sparesOf c).length))
    ++ [(8, s.spares.trunkSpares.length), (16, 0)]
    ++ (List.range 32).map (fun c => (2, v (s.diesLeft c)))
    ++ [(8, v (reservePct s.reserveWorst)), (8, v s.worstDie.1), (8, v s.worstDie.2), (16, v (512 - s.rowsWorst)), (8, v s.worstRows), (688, 0)])

/-- Page 4 (R412). -/
def State.page4 (s : State) : Bytes :=
  if !s.valid then blankPage 64
  else
    let c := s.counts
    pack ([(1, 1), (54, 0), (9, c.lastUeIsland)]
      ++ [c.sramCorrected, c.sramUe, c.dramCorrected, c.dramUe, s.spares.sparedRows.length, c.quinceReloads, c.codeTraps, c.dmaHalts,
          c.busErrors, c.islandsRetired, c.islandsFailed, c.overruns, c.digestMis, c.repairs].map (fun n => (32, sat 32 n)))

/-- Seconds in a power state since the last start, the present stay included. -/
def State.residency (s : State) (i : Nat) : Nat :=
  (s.power.residency.getD i 0 + (if s.power.st == i then s.clock - s.power.stSince else 0)) / 1000000000

/-- Page 5 (R430). -/
def State.page5 (s : State) : Bytes :=
  let h := s.holdup
  pack ([(1, b1 s.valid), (1, b1 h.charged), (1, b1 h.spareInUse), (1, b1 h.lastPassed), (8, h.failed.toNat), (4, s.thermal.stage),
      (16, sat 16 h.energyCj), (16, sat 16 h.flushCj), (16, sat 16 h.flush10us),
      (32, sat 32 (if h.tested then (s.clock - h.lastTestAt) / 3600000000000 else 0)), (32, sat 32 h.runs)]
    ++ (List.range 4).map (fun i => (32, sat 32 (s.residency i)))
    ++ [(32, sat 32 s.power.p3Exits), (2, s.var 0x0B01), (14, 0), (16, s.var 0x0B02), (16, s.var 0x0B03), (16, s.var 0x0B04), (32, 0)]
    ++ (List.range 8).map (fun i => (8, sat 8 (h.health.getD i 0))) ++ [(16, 3), (16, 250), (16, 6000), (16, 0)])

/-- One link's entry of page 6 (R119). -/
def State.linkEntry (s : State) (n : Nat) : List (Nat × Nat) :=
  let k := s.link n
  let carried := (List.range 8).filter (fun m => (s.link m).movedTo == some n)
  let speed := match laneCount k.lanes with
    | 4 => 3
    | l => l
  if !s.supply.mainOn then [(128, 0)]
  else
    [(1, b1 k.up), (1, b1 (k.up && k.degraded)), (1, b1 k.movedTo.isSome), (1, b1 (!carried.isEmpty)),
     (3, match k.movedTo with
      | some m => m
      | none => carried.head?.getD 0),
     (2, if k.up then speed else 0), (8, if k.up then k.lanes.toNat else 0), (15, 0),
     (32, if k.up then sat 32 ((s.clock - k.upSince) / 1000000000) else 0), (32, sat 32 k.ups), (32, 0)]

/-- One cage's entry of page 6 (R119). -/
def cageEntry (c : Cage) : List (Nat × Nat) :=
  match c.cmis with
  | none => [(704, 0)]
  | some m =>
    if isB8 then [(704, 0)]
    else
      [(1, b1 c.present), (1, b1 c.accepted), (1, b1 m.flat), (3, c.refuse), (2, 0), (8, m.identifier.toNat), (8, m.revision.toNat),
       (8, m.moduleState.toNat), (8, m.flags.toNat), (8, m.mediaType.toNat), (8, m.maxPower.toNat), (16, m.temperature.toNat),
       (16, m.supply.toNat), (4, m.los.toNat), (4, m.lol.toNat), (128, m.vendor.toNat), (128, m.part.toNat), (128, m.serial.toNat),
       (64, m.dateCode.toNat), (160, 0)]

/-- Page 6 (R119): valid in every mode. -/
def State.page6 (s : State) : Bytes :=
  let lane (w : BitVec 8) : Nat := if s.supply.mainOn then w.toNat else 0
  pack ([(1, b1 s.valid), (3, 0), (2, s.ports.formatA), (2, s.ports.formatB), (16, s.ports.eventsA.toNat), (16, s.ports.eventsB.toNat),
      (8, lane s.ports.locked), (8, lane s.ports.failing), (72, 0)]
    ++ (List.range 8).flatMap s.linkEntry ++ cageEntry s.ports.cageA ++ cageEntry s.ports.cageB)

/-- The code of a key slot's state (R368). -/
def SlotState.code : SlotState → Nat
  | .empty => 0
  | .recorded => 1
  | .loaded => 2

/-- Progress of a sweep, 0–1 000 (R368). -/
def State.sweepPermille (s : State) (p : KeyPage) : Nat :=
  match p.sweep with
  | none => 0
  | some w => if w.total == 0 then 1000 else 1000 * (w.total - min w.total (s.sweepLeft p).length) / w.total

/-- One key page's entry of page 7 (R368). -/
def State.keyEntry (s : State) (n : Nat) : List (Nat × Nat) :=
  let p := s.page n
  [(2, p.cur.st.code), (2, p.prev.st.code), (1, b1 p.sweep.isSome), (1, b1 (useLimit ≤ p.usage)), (1, b1 (s.var 0x0801 ≤ p.taken)),
   (12, (s.store.keyspaces.filter (fun k => k.encrypted && k.keyPage == n)).length), (10, s.sweepPermille p), (3, 0), (32, p.cur.gen),
   (32, sat 32 p.taken), (32, sat 32 p.reserved)]

/-- Page 7 (R368). -/
def State.page7 (s : State) : Bytes :=
  let spares := (s.sparesOf (8, 137, 144, [145, 146])).length
  pack ([(1, b1 s.valid), (1, b1 s.cipher.kek.isSome), (1, b1 (!s.supply.conditions.isEmpty)), (5, 0), (8, s.supply.lastCauses.toNat),
      (32, sat 32 s.supply.alarms), (8, s.pipesInService.length), (8, spares), (32, sat 32 s.counts.authFails), (32, sat 32 s.counts.suspends),
      (32, sat 32 s.counts.slotWaits), (96, 0)]
    ++ (List.range 64).flatMap s.keyEntry)

/-- One owner's entry of page 8 (R332): a fence that holds nothing reads 0. -/
def State.ownerEntry (s : State) (o : Nat) : List (Nat × Nat) :=
  let w := s.owner o
  let pipes := ((s.cipher.pipes.filter (·.owner == o)).map (fun p => 2 ^ p.n)).sum
  let none' := o != 0 && w.held == 0 && w.moving == 0 && w.sessions512 == 0 && w.cells128 == 0 && pipes == 0
  if none' then [(256, 0)]
  else
    [(32, w.held.toNat), (32, w.moving.toNat), (16, s.ownerCells o), (16, s.cellsHeld o), (8, pipes), (24, 0), (32, s.poolEntries o),
     (32, s.poolOpen o), (32, s.poolContexts o), (32, s.contextsHeld o)]

/-- Page 8 (R332). -/
def State.page8 (s : State) : Bytes :=
  if !s.valid then blankPage 320
  else
    pack ([(1, 1), (15, 0), (16, s.poolTotal), (16, s.poolHeld), (16, s.cellsHeld egressPart), (16, s.mediaHeld), (16, s.internalContexts), (160, 0)]
      ++ (List.range 9).flatMap s.ownerEntry)

/-- Page 9 (R395). -/
def State.page9 (s : State) : Bytes :=
  if !s.valid then blankPage 128
  else
    let r := s.relay
    let c := s.counts
    pack [(1, 1), (1, b1 r.map.isSome), (1, b1 (s.store.keyspaces.any (·.partialSeed))), (1, 0), (12, (r.map.map (·.self)).getD 0),
      (32, (r.map.map (·.epoch)).getD 0), (16, (s.store.keyspaces.filter (·.chain.isSome)).length), (16, r.slots.length), (16, s.seedSlots),
      (16, sat 16 r.initiators.length), (16, sat 16 (r.pairs.filter (·.behind)).length), (16, sat 16 (r.pairs.filter (fun p => p.seeding && p.running)).length),
      (16, 0), (32, sat 32 c.relayFaults), (32, sat 32 c.lateNotices), (32, sat 32 c.journalled), (32, sat 32 c.divergent),
      (32, sat 32 c.resyncLost), (704, 0)]

/-- A firmware slot (R439). -/
def State.fwSlot (s : State) (n : Nat) : FwSlot := if n == 0 then s.fw.slot0 else s.fw.slot1

/-- The version a slot shows: 0 if it is empty (R189, R451). -/
def FwSlot.shown (f : FwSlot) : Nat := if f.st == 0 then 0 else f.version

/-- Milliseconds of the confirmation window that remain; 0 when no image awaits confirmation (R444, R451). -/
def State.confirmLeft (s : State) : Nat :=
  match s.fw.awaitSince with
  | some t => ceilDiv (t + ms 600000 - s.clock) 1000000
  | none => 0

/-- Page 10 (R451). -/
def State.page10 (s : State) : Bytes :=
  let f := s.fw
  pack [(1, b1 s.valid), (3, f.act), (1, b1 s.spares.standbyLost), (1, b1 f.complexB), (1, b1 f.byRestart), (1, 0), (8, f.lastReason),
    (32, (s.fwSlot f.active).version), (32, (s.fwSlot (1 - f.active)).shown), (32, (s.fwSlot f.confirmed).version), (32, f.floor),
    (32, (f.staging.map List.length).getD 0), (32, s.confirmLeft), (16, f.reloaded), (16, f.reloadTotal), (4, f.slot0.st), (4, f.slot1.st),
    (32, sat 32 f.activations), (32, sat 32 f.fallbacks), (200, 0)]

/-- A health page by its number (R187); none for a number not listed. -/
def State.healthPage (s : State) : Nat → Option Bytes
  | 0 => some s.page0
  | 1 => some s.page1
  | 2 => some s.page2
  | 3 => some s.page3
  | 4 => some s.page4
  | 5 => some s.page5
  | 6 => some s.page6
  | 7 => some s.page7
  | 8 => some s.page8
  | 9 => some s.page9
  | 10 => some s.page10
  | _ => none

/-- HEALTH_READ (R187). -/
def execHealthRead (c : Nat) (s : State) : Host.Outcome State Fault Refusal :=
  .next (s.adminRow c 0x38 false (fun x => x.only 0 0 true false && x.paramA.toNat ≤ 10) (fun x =>
    match s.healthPage x.paramA.toNat with
    | some b => s.endCmd c { Reply.plain .done with body := b }
    | none => s.endStatus c .badLength))

/-- The body of IDENTIFY (R189). -/
def State.identity (s : State) : Bytes :=
  let m := if s.valid then s.relay.map else none
  let other := s.fwSlot (1 - s.fw.active)
  pack [(8, 1), (8, orderCodeNumber Config.orderCode), (8, 1), (4, 0), (4, s.supply.straps.slotId.toNat), (64, Config.serial 0), (48, linkMac 0),
    (1, b1 m.isSome), (3, 0), (12, (m.map (·.self)).getD 0), (32, (s.fwSlot s.fw.active).version), (32, other.shown), (3, 0),
    (1, b1 s.fw.awaitSince.isSome), (3, other.st), (1, s.fw.active), (4, 0), (4, s.modes.mode.code), (16, 0), (16, 3), (16, 250), (16, 6000),
    (16, 1024), (32, 16777216), (32, 262144), (32, 131072), (64, 100000000000000), (32, 0)]

/-- IDENTIFY (R189). -/
def execIdentify (c : Nat) (s : State) : Host.Outcome State Fault Refusal :=
  .next (s.adminRow c 0x39 false (·.only 0 0 false false) (fun _ => s.endCmd c { Reply.plain .done with body := s.identity }))

/-! ### LOG_READ (R190, R191) -/

/-- A log record as it is read (R191). -/
def LogEntry.bytes (e : LogEntry) : Bytes :=
  pack [(64, e.index), (32, e.start), (16, e.code), (16, e.body.length), (64, e.time)] ++ e.body

/-- The leading records that fit. -/
def logFit : Nat → List LogEntry → List LogEntry
  | _, [] => []
  | room, e :: es => if e.bytes.length ≤ room then e :: logFit (room - e.bytes.length) es else []

/-- The reply of a LOG_READ of a log whose next record has index `next` (R190). -/
def logReply (log : List LogEntry) (next first room : Nat) : Reply :=
  let from' := log.filter (fun e => first ≤ e.index)
  let fit := logFit room from'
  let oldest := (log.head?.map (·.index)).getD next
  { status := if fit.length < from'.length then .more else .done, flags := BitVec.ofNat 4 (b1 (first < oldest))
    paramA := BitVec.ofNat 64 (match fit.getLast? with
      | some e => e.index + 1
      | none => next)
    paramB := 0, body := (fit.map LogEntry.bytes).flatten }

/-- LOG_READ (R190). -/
def execLogRead (c : Nat) (s : State) : Host.Outcome State Fault Refusal :=
  .next (s.adminRow c 0x3A false (fun x => x.keyLen == 0 && x.flagsWithin 0 && x.paramB.toNat < 2 && 280 ≤ x.valLen) (fun x =>
    let room := min x.valLen (s.replyCap x)
    if x.paramB == 0 then s.endCmd c (logReply s.logs.events s.logs.nextEv x.paramA.toNat room)
    else s.endCmd c (logReply s.logs.journal s.logs.nextJn x.paramA.toNat room)))

end Sys2Proof.Machine
end

