-- ==== Sys2Proof/Machine/Turnoff.lean ====
section
/-! DEFINITION. What the loss of the main supply, a flush and a start do to the parts of the module (R46–R56, R422–R431, R447),
and the FW_STATE records (R450–R452). -/

namespace Sys2Proof.Machine

/-! ### Firmware records and the image that runs (R441, R447–R452) -/

/-- A firmware slot changed. -/
def State.updFwSlot (s : State) (n : Nat) (f : FwSlot → FwSlot) : State :=
  if n == 0 then { s with fw := { s.fw with slot0 := f s.fw.slot0 } } else { s with fw := { s.fw with slot1 := f s.fw.slot1 } }

/-- An FW_STATE notice, its record of the event log and its alert (R450, R452, R458). -/
def State.fwState (s : State) (st reason version : Nat) : State :=
  let left := if st == 4 then s.confirmLeft else 0
  let since := if s.fw.doneAt == 0 then 0 else (s.clock - s.fw.doneAt) / 1000000
  ((s.broadcast .fwState 0 (BitVec.ofNat 64 (st + reason * 256 + version * 2 ^ 32)) (BitVec.ofNat 64 left) []).logEvent 0x0C01
    (pack [(8, st), (8, reason), (32, version), (32, (s.fwSlot s.fw.active).version), (32, since), (144, 0)])).alert .fwState

/-- Is there an image that is activated, being activated, on probation or being left (R447, R449)? -/
def State.fwOpen (s : State) : Bool := 3 ≤ s.fw.act || s.fw.bootNew || s.fw.active != s.fw.confirmed

/-- A loss of power or a restart finds an activation under way: the next start uses the confirmed image, and the fallback is
recorded then (R447, R449). -/
def State.fwLoss (s : State) (reason : Nat) : State :=
  if s.fwOpen then
    let r := if s.fw.act == 7 then s.fw.fallback else reason
    { s with fw := { s.fw with abandoned := some (s.fw.abandoned.getD (7, r)), bootNew := false, restarting := false, act := 0, awaitSince := none,
                               freeze := none, copying := false, standbyOld := false, reload := [], fallback := 0, byRestart := false } }
  else s

/-- A start boots the activated image on exactly one start, the confirmed image otherwise (R447). A start also discards staged
bytes (R440). -/
def State.bootImage (s : State) : State :=
  let n := if s.fw.bootNew then 1 - s.fw.confirmed else s.fw.confirmed
  { s with fw := { s.fw with active := n, bootNew := false, staging := none, programming := none, copying := false, standbyOld := false,
                             freeze := none, restarting := false, mediaFmt := (s.fwSlot s.fw.confirmed).media, act := if s.fw.act ≤ 2 then 0 else s.fw.act } }

/-- An image begins to await confirmation (R444). -/
def State.awaitConfirm (s : State) : State :=
  ({ s with fw := { s.fw with awaitSince := some s.clock, selftested := false, act := 5, selftestS := s.var 0x0C02 } } : State).fwState 4 0 (s.fwSlot s.fw.active).version

/-- The end of Filling records what became of an activation (R444, R449). -/
def State.fwAfterFilling (s : State) : State :=
  match s.fw.abandoned with
  | some (st, reason) =>
    let other := 1 - s.fw.confirmed
    let v := (s.fwSlot other).version
    let s1 := ({ s with fw := { s.fw with abandoned := none, lastReason := reason, fallbacks := s.fw.fallbacks + 1 } } : State).updFwSlot
      s.fw.confirmed (fun f => { f with st := 4 })
    (if st == 7 then s1.updFwSlot other (fun f => { f with st := 3 }) else s1.updFwSlot other (fun f => { f with st := 1 })).fwState st reason v
  | none =>
    if s.fw.active != s.fw.confirmed then
      ((s.updFwSlot s.fw.active (fun f => { f with st := 5 })).updFwSlot s.fw.confirmed (fun f => { f with st := 2 })).awaitConfirm
    else s

/-! ### What ends with the network side (R129, R424) -/

/-- Every forward that holds a relay slot is abandoned with fault reason 5: its pairs' points fall, and nothing is reported
(R388). A slot that no commit has filled holds no write. -/
def State.abandonForwards (s : State) : State :=
  (s.relay.slots.filter (fun r => r.kind != .live || r.stamp != 0)).foldl (fun t r =>
    ((List.range r.succs.length).filter (fun i => r.hop ≤ i + 1)).foldl (fun u i => u.makeBehind r (r.succs.getD i default) (i + 1)) t) s

/-- The pairs that the next start finds in the run record: as they are where the flush wrote them, otherwise with the points and
lists of the latest store (R388). -/
def State.keepPairs (s : State) (flushed : Bool) : State :=
  let kept (p : Pair) : Pair := match s.relay.stored.find? (fun q => q.keyspace == p.keyspace && q.succ == p.succ) with
    | some q => { p with point := min p.point q.point, discards := q.discards, lost := q.lost }
    | none => { p with discards := [] }
  { s with relay := { s.relay with stored := if flushed then s.relay.pairs else s.relay.pairs.map kept } }

/-- Sessions, contexts, locks, kept and held messages, sieves, cipher jobs and relay slots end without a reply; a mailbox command
in progress ends NO_REPLY with a reason (R129, R282, R424, R462). Late faults that no session took go to the journal (R384). -/
def State.dropAll (s : State) (reason : Nat) : State :=
  let late := s.net.kept.filterMap (·.late) ++ s.net.sessions.flatMap (fun y => y.notices.filterMap (·.late))
  let s1 := (late.foldl State.journalLate s).abandonForwards.closeSieves (fun _ => true) 0
  { s1 with
    net := { s1.net with sessions := [], closed := [], ctxs := [], kept := [], held := [], locks := [] }
    relay := { s1.relay with slots := [], initiators := [] }
    cipher := { s1.cipher with queue := [], pipes := s1.cipher.pipes.map (fun p => { p with running := none, suspended := [] }),
                               pages := s1.cipher.pages.map (fun p => { p with reserved := 0 }) }
    store := { s1.store with holds := [], keyspaces := s1.store.keyspaces.map (fun k => { k with deleting := none }),
                             eraseSets := s1.store.eraseSets.map (fun e => { e with session := none }) }
    sb := if s1.sb.mb == .busy then { s1.sb with mb := .noReply, reason := reason } else s1.sb }

/-- The lanes go off: every link is down, with nothing held, paused or tried. -/
def State.linksOff (s : State) : State :=
  { s with ports := { s.ports with links := s.ports.links.map (fun k => { Link.off with ups := k.ups }), locked := 0, failing := 0,
                                   neighbours := [] }
           net := { s.net with held := [] } }

/-! ### The flush (R423) -/

/-- Both log buffers are programmed (R260). -/
def State.flushLogs (s : State) : State :=
  { s with store := { s.store with logA := s.store.logA.program, logB := s.store.logB.program, mapLog := 0 } }

/-- Running P and Q of every open stripe are programmed (R300). -/
def State.closeParity (s : State) : State :=
  { s with store := { s.store with groups := s.store.groups.map (fun g => { g with parity := false }) } }

/-- The image of a chunk as it is now (R261). -/
def State.chunkImage (s : State) (chunk : Nat) : Image :=
  { chunk := chunk, lsnA := s.store.logA.nextLsn, lsnB := s.store.logB.nextLsn, entries := s.store.entries.filter (fun e => e.chunk == chunk) }

/-- Writes one dirty chunk. -/
def State.writeChunk (s : State) (chunk : Nat) : State :=
  { s with store := { s.store with dirty := s.store.dirty.filter (fun d => d.1 != chunk)
                                   images := s.chunkImage chunk :: s.store.images.filter (fun i => i.chunk != chunk) } }

/-- Writes every dirty chunk. -/
def State.writeChunks (s : State) : State := (s.store.dirty.map (·.1)).foldl State.writeChunk s

/-- MiB of the dirty chunks, 1.25 MiB each (R261). -/
def State.dirtyMiB (s : State) : Nat := ceilDiv (5 * s.store.dirty.length) 4

/-! ### The main supply (R29, R49) -/

/-- The main supply goes off: links down, DRAM and SRAM contents gone, keys and KEK erased, trace records lost (R43, R55, R351,
R470). The supply detectors are disarmed (R363). What is on flash and in NOR stays; log records still in a buffer are lost. A bank test is interrupted (R427). -/
def State.mainOff (s : State) : State :=
  let s1 := (s.dropAll 2).linksOff.eraseKeys.closeParity
  let cage (c : Cage) : Cage := { c with accepted := false, lowPower := true }
  { s1 with
    supply := { s1.supply with mainOn := false, conditions := s1.supply.conditions.filter (· != .supply) }
    modes := { s1.modes with flush := none }
    ports := { s1.ports with cageA := cage s1.ports.cageA, cageB := cage s1.ports.cageB }
    store := { s1.store with entries := [], heat := [], cache := [], logA := { s1.store.logA with buffer := [] },
                             logB := { s1.store.logB with buffer := [] } }
    coh := { lines := [], dram := [], filter := [], txs := [], flying := [], snooped := [], answers := [], evicts := [], repairs := [] }
    quince := { rows := [], updates := [], heat := [] }
    spares := { s1.spares with ceCounts := [], ceRows := [], traps := [], trapped := [] }
    power := { s1.power with st := 0, preparing := false, exiting := none, refreshed := 0 }
    thermal := { s1.thermal with stage := 0 }
    holdup := { s1.holdup with charged := false, testing := none, interrupted := s1.holdup.interrupted || s1.holdup.testing.isSome }
    fw := { s1.fw with staging := none, programming := none, act := if s1.fw.act ≤ 2 then 0 else s1.fw.act }
    dbg := { s1.dbg with trace := [], area := [], lost := 0 } }

/-- Counts that run since the last start begin again at 0 (R119, R188, R368, R395, R430). -/
def State.clearCounts (s : State) : State :=
  { s with
    counts := { s.counts with discards := 0, unanswered := 0, authFails := 0, suspends := 0, slotWaits := 0, relayFaults := 0,
                              lateNotices := 0, divergent := 0 }
    ports := { s.ports with links := s.ports.links.map (fun k => { k with ups := 0 }) }
    power := { s.power with residency := [0, 0, 0, 0], p3Exits := 0, stSince := s.clock, lastFg := s.clock } }

/-- The main supply is enabled and Filling begins (R29, R50, R85): the time base restarts, the start is counted, the start-fault
flag clears (R51), and ALERT_MASK and KEYS_ERASED_LOCKED take their values of a start (R365, R471). -/
def State.beginFilling (s : State) : State :=
  let s1 := s.clearCounts.bootImage
  let s2 : State := { s1 with
    supply := { s1.supply with mainOn := true, erasedLocked := false }
    modes := { s1.modes with fillStart := s.clock, timeBase := s.clock, startStep := 1, starts := s.modes.starts + 1, startFault := false,
                             restartAt := none }
    sb := { s1.sb with alertMask := BitVec.ofNat 16 (s1.var 0x0D01) } }
  (s2.console (ascii "step 1")).changeMode .filling

/-- A start, or what ran before a restart, is given up: the main supply goes off and the module is in Dormant (R29, R51). -/
def State.toDormant (s : State) : State := (s.keepPairs false).mainOff.changeMode .dormant

/-- A start fault (R51, R97): recorded, and no further attempt until PWR_EN rises again or a MODE_SET asks for one. -/
def State.startFault (s : State) (cause island : Nat) : State :=
  let s1 := (s.fwLoss 6).toDormant
  ({ s1 with
    supply := { s1.supply with armed := false }
    modes := { s1.modes with startFault := true, startCause := cause, startFaults := s.modes.startFaults + 1, faultIsland := island,
                             restartFault := none, restartAt := none, markFound := none } } : State).alert .startFault

/-- Records the mode at turn-off (R54, R56). Sanitising is known from its own record. -/
def State.recordMode (s : State) : State :=
  match s.modes.mode with
  | .serving => { s with modes := { s.modes with recorded := some .serving } }
  | .shadowing => { s with modes := { s.modes with recorded := some .shadowing } }
  | .frozen => { s with modes := { s.modes with recorded := some .frozen } }
  | _ => s

/-! ### Last Waltz (R422–R425, R431) -/

/-- Last Waltz starts, or takes over the flush of a MODE_SET or of a restart activation; a second trigger has no effect (R422, R425). -/
def State.startWaltz (s : State) (trigger : Nat) : State :=
  if s.waltzing then s
  else
    let s1 := ((s.fwLoss 6).dropAll 2).linksOff
    let f : Flush := match s.modes.flush with
      | some f => { f with trigger := trigger, since := s.clock }
      | none => { trigger := trigger, phase := 1, since := s.clock, energyCj := 0, dirtyMiB := 0 }
    { s1 with modes := { s1.modes with flush := some f }
              holdup := { s1.holdup with testing := none, interrupted := s1.holdup.interrupted || s1.holdup.testing.isSome }
              power := { s1.power with st := 0, preparing := false, exiting := none } }

/-- The work that a phase of the flush has done when it ends (R66, R423). -/
def State.phaseDone (s : State) (f : Flush) : State × Flush :=
  let f1 := { f with phase := f.phase + 1 }
  let wiping := s.modes.mode == .sanitising
  if f.phase == 3 then ((if wiping then s else ((s.flushLogs).closeParity).keepPairs true).saveSettings, f1)
  else if f.phase == 4 then (if wiping then (s, f1) else (s.writeChunks, { f1 with dirtyMiB := f.dirtyMiB + s.dirtyMiB }))
  else (s, f1)

/-- The end of a flush that leads to Dormant (R423, R429, R431): its record waits for the next start, and a Last Waltz run is
counted. The mode changes, with its notice, before the links go down (R45, R47). `last` is the last phase completed. -/
def State.finishFlush (s : State) (f : Flush) (last : Nat) : State :=
  let s1 := s.recordMode
  let took := s.clock - f.since
  let s2 : State := { s1 with
    modes := { s1.modes with markFound := some (last == 5), markTrigger := { f with phase := last, since := took } }
    holdup := if f.waltz then { s1.holdup with runs := s1.holdup.runs + 1, flushCj := f.energyCj, flush10us := took / 10000 } else s1.holdup }
  ((if 3 ≤ last then s2 else s2.keepPairs false).changeMode .dormant).mainOff.saveSettings

/-! ### The settings at a start (R53, R54) -/

/-- The whole copy with the higher sequence number. -/
def State.settingsBlock (s : State) : Option Settings :=
  if s.nor.seqA < s.nor.seqB then s.nor.blockB else s.nor.blockA

/-- A shaper as a start leaves it: full and running (R340, R341). -/
def Shaper.refill (h : Shaper) (now : Nat) : Shaper :=
  { h with bytes := h.byteDepth, ops := h.opDepth * 1024, byteRem := 0, opRem := 0, at' := now, stopped := false }

/-- A stored key page as a start finds it: the use count of its current key never goes back (R354), and a sweep goes on (R358). -/
def State.restorePage (s : State) (p : KeyPage) : KeyPage :=
  match s.cipher.pages.find? (fun q => q.n == p.n && q.cur.gen == p.cur.gen) with
  | some q => { p with reserved := 0, taken := max p.taken q.taken, warnSent := q.warnSent, exhSent := q.exhSent, sweep := q.sweep }
  | none => { p with reserved := 0 }

/-- The stored settings take effect (R54). The late-fault flag follows the journal, not the settings (R384), and the die sets an
owner holds follow the media (R332). -/
def State.restore (s : State) (b : Settings) : State :=
  let ks (k : Keyspace) : Keyspace :=
    { k with deleting := none, shaper := k.shaper.map (·.refill s.clock)
             lateSticky := ((s.keyspace? k.id).map (·.lateSticky)).getD k.lateSticky }
  let ow (o : Owner) (now : Owner) : Owner :=
    { o with shaper := o.shaper.map (·.refill s.clock), gc := 0, throttle := [], held := now.held, moving := now.moving }
  { s with
    vars := b.vars
    modes := { s.modes with recorded := b.recorded, freezeCauses := b.freezeCauses, frozenFrom := b.frozenFrom, sanitising := b.sanitising,
                            resetConfig := b.resetConfig }
    owners := List.zipWith ow b.owners s.owners
    store := { s.store with keyspaces := b.keyspaces.map ks }
    relay := { s.relay with map := b.map }
    cipher := { s.cipher with pages := b.pages.map s.restorePage }
    holdup := { s.holdup with lastTestAt := b.lastTestAt }
    ports := { s.ports with formatA := varIn b.vars 0x0101, formatB := varIn b.vars 0x0102 } }

/-- Drops the SETTINGS_FORMAT cause: settings have been read (R61). -/
def State.formatRead (s : State) : State :=
  { s with modes := { s.modes with freezeCauses := s.modes.freezeCauses &&& ~~~FreezeCause.settingsFormat.word } }

/-- Reads the settings, and migrates a block older than the image (R53). An image on probation keeps the older block. Settings
newer than the image with no older block leave the module to complete Filling into Frozen. -/
def State.readSettings (s : State) : State :=
  let image := (s.fwSlot s.fw.active).settings
  match s.settingsBlock with
  | none => s
  | some b =>
    if b.format == image then (s.restore b).formatRead
    else if b.format < image then
      let s1 := (s.restore b).formatRead.saveSettings
      { s1 with nor := { s1.nor with older := some (s.nor.older.getD b) } }
    else match s.nor.older with
      | some o => if o.format ≤ image then (s.restore o).formatRead.saveSettings else s.freeze .settingsFormat
      | none => s.freeze .settingsFormat

end Sys2Proof.Machine
end

