-- ==== Sys2Proof/Machine/Startup.lean ====
section
/-! DEFINITION. Supplies, the start-up sequence, directory recovery, start faults and restarts (R29–R36, R49–R56, R96, R97, R262,
R263, R422, R478). -/

namespace Sys2Proof.Machine

/-! ### Supplies and straps (R29, R35, R36, R478) -/

/-- The straps are sampled (R35). FACTORY_N at 0 sets START_FAULT with cause 3; at 1 it clears the flag that cause 3 set (R36). -/
def State.sampleStraps (s : State) (straps : Straps) : State :=
  let s1 := { s with supply := { s.supply with straps := straps } }
  if !straps.factoryN then { s1 with modes := { s1.modes with startFault := true, startCause := 3 } }
  else if s.modes.startFault && s.modes.startCause == 3 then { s1 with modes := { s1.modes with startFault := false } }
  else s1

/-- P3V3_AUX_IN_RANGE (R29, R35): the straps are sampled and the wait of 50 ms begins; Dormant begins with the sideband at its
values of power-up (R456, R478). -/
def execP3v3AuxInRange (straps : Straps) (s : State) : Host.Outcome State Fault Refusal :=
  if s.supply.auxInRange then .next s
  else
    let s1 : State := { s with
      supply := { s.supply with auxInRange := true, auxSince := s.clock, watched := false, pwrEn := false, armed := false, seated := true }
      sb := { s.sb with alertStatus := 0, alertMask := BitVec.ofNat 16 (s.var 0x0D01), mbOffset := 0, mbLen := 0, request := [], mb := .empty,
                        reason := 0, whileBusy := false, pecError := false, reply := [], readOff := 0, delivered := false, lastRead := [],
                        arAnswered := false, kekRefused := false } }
    .next (s1.sampleStraps straps)

/-- PWR_EN_WATCH_START (R29): 50 ms after P3V3_AUX came into range, PWR_EN is sampled. -/
def execPwrEnWatchStart (s : State) : Host.Outcome State Fault Refusal :=
  if s.supply.auxInRange && !s.supply.watched && s.supply.auxSince + ms 50 ≤ s.clock then
    .next { s with supply := { s.supply with watched := true } }
  else .next s

/-- May a start begin: Dormant, nothing pending of a restart, PWR_EN high and P12V within range, FACTORY_N at 1 (R29, R36)? -/
def State.mayStart (s : State) : Bool :=
  s.modes.mode == .dormant && !s.supply.mainOn && s.supply.auxInRange && s.supply.watched && s.supply.pwrEn && s.supply.p12vOk
    && s.supply.straps.factoryN && s.modes.restartAt.isNone

/-- PWR_EN_RISE (R29, R35): a high level accepted by the filter. A rising edge samples the straps and asks for a start, which waits
for P12V; after a flush the level itself does (R425). -/
def execPwrEnRise (straps : Straps) (s : State) : Host.Outcome State Fault Refusal :=
  if !s.supply.watched then .next s
  else
    let edge := !s.supply.pwrEn
    let s1 := if edge then ({ s with supply := { s.supply with pwrEn := true, armed := true } } : State).sampleStraps straps else s
    if s1.mayStart && s1.supply.armed then .next s1.beginFilling else .next s1

/-- P12V_IN_RANGE (R29): P12V has been within range for 20 ms; a start that waits for it begins. -/
def execP12vInRange (s : State) : Host.Outcome State Fault Refusal :=
  let s1 : State := { s with supply := { s.supply with p12vOk := true, seated := true } }
  if s1.mayStart && s1.supply.armed then .next s1.beginFilling else .next s1

/-- What the loss of the supply does to a module whose main supply is on (R29, R422): Filling is abandoned, otherwise Last Waltz
starts. -/
def State.supplyLost (s : State) (trigger : Nat) : State :=
  if !s.supply.mainOn then s
  else if s.modes.mode == .filling then (s.fwLoss 6).toDormant
  else s.startWaltz trigger

/-- PWR_EN_FALL (R29). In Sanitising it is handled as a loss of P12V. The main supply of a restart is not enabled again. -/
def execPwrEnFall (s : State) : Host.Outcome State Fault Refusal :=
  if !s.supply.watched || !s.supply.pwrEn then .next s
  else
    let s1 : State := { s with supply := { s.supply with pwrEn := false, armed := false }, modes := { s.modes with restartAt := none } }
    .next (s1.supplyLost (if s.modes.mode == .sanitising then 1 else 2))

/-- P12V_LOSS (R29, R31, R422): below 10.2 V for 5 µs, or the module is pulled out. -/
def execP12vLoss (removed : Bool) (s : State) : Host.Outcome State Fault Refusal :=
  let s1 : State := { s with supply := { s.supply with p12vOk := false, seated := s.supply.seated && !removed } }
  .next (s1.supplyLost 1)

/-! ### Directory recovery (R262, R263) -/

/-- The length of a value a log record mapped: that of the record with its stamp, wherever it lies now. -/
def State.stampLength (s : State) (e : Entry) (stamp : Nat) : Nat :=
  ((s.store.recs.find? (fun r => r.keyspace == e.keyspace && r.fp == e.fp && r.key == e.key && r.stamp == stamp && r.kind == 1)).map (·.valLen)).getD 0

/-- The segments of an entry that a segment record extends (R166). -/
def State.replaySegs (s : State) (e : Entry) : List Seg :=
  match e.newest.segs with
  | some ss => ss
  | none =>
    let n := s.stampLength e e.newest.stamp
    if e.newest.tomb || n == 0 then []
    else [{ offset := 0, length := n, skip := 0, loc := e.newest.loc, stamp := e.newest.stamp,
            digest := ((s.rec? e.newest.loc).map (·.digest.isSome)).getD false }]

/-- Enters a further mapped match of a key: the newest is that of the highest stamp (R250, R263, R376). -/
def Entry.addMatch (e : Entry) (m : Match) : Entry :=
  if e.newest.stamp < m.stamp then { e with newest := m, older := e.older ++ [e.newest] } else { e with older := e.older ++ [m] }

/-- A location replaced in a match. -/
def Match.moved (m : Match) (old new : Nat) : Match :=
  match m.segs with
  | none => if m.loc == old then { m with loc := new } else m
  | some ss => { m with segs := some (ss.map (fun g => if g.loc == old then { g with loc := new } else g)) }

/-- The match that a log record of kind 1, 2 or 3 makes. -/
def State.replayMatch (s : State) (r : LogRec) (old : Option Entry) : Match :=
  match r.seg with
  | some g =>
    let before := match old with
      | some e => if r.extra then [] else s.replaySegs e
      | none => []
    let table := match old with
      | some e => if e.newest.segs.isSome && !r.extra then e.newest.loc else s.tableLoc
      | none => s.tableLoc
    { loc := table, stamp := r.stamp, tomb := false, segs := some (if before.isEmpty then [g] else segInsert before g) }
  | none => { loc := r.loc, stamp := r.stamp, tomb := r.kind == 3, segs := none }

/-- Applies a log record to the directory (R262). Kind 5 drops the keys of its keyspace that this owner holds. -/
def State.replay (sideB : Bool) (s : State) (r : LogRec) : State :=
  let same (e : Entry) : Bool := e.keyspace == r.keyspace && e.fp == r.fp && e.key == r.key
  let set (es : List Entry) : State := { s with store := { s.store with entries := es } }
  let old := s.store.entries.find? same
  if r.kind == 4 then (if r.extra then s else set (s.store.entries.filter (fun e => !same e)))
  else if r.kind == 5 then set (s.store.entries.filter (fun e => !(e.keyspace == r.keyspace && logSide e.fp == sideB)))
  else if r.kind == 6 || r.kind == 7 then
    set (upd same (fun e => { e with newest := e.newest.moved r.old r.loc, older := e.older.map (·.moved r.old r.loc) }) s.store.entries)
  else
    let m := s.replayMatch r old
    match old with
    | some e => set (upd same (fun _ => if r.extra then e.addMatch m else { e with newest := m, older := [], pinned := r.pin }) s.store.entries)
    | none =>
      let p := (s.placeFor r.fp).getD (.stash, s.store.entries)
      { set (p.2 ++ [{ keyspace := r.keyspace, fp := r.fp, key := r.key, newest := m, older := [], pinned := r.pin, place := p.1 }]) with
        rnd := s.rnd + 17 }

/-- The lowest LSN of an owner that a chunk still needs (R261, R262). -/
def State.lsnNeeded (s : State) (sideB : Bool) : Nat :=
  let all := s.store.images.map (fun i => if sideB then i.lsnB else i.lsnA)
  match all with
  | [] => 0
  | a :: as => as.foldl min a

/-- The records of an owner that recovery does not find: those of lost pages that a chunk still needs (R262, R263). -/
def State.loses (s : State) (lost : List LostPage) (sideB : Bool) (r : LogRec) : Bool :=
  s.lsnNeeded sideB ≤ r.lsn && lost.any (fun p => p.ownerB == sideB && p.first ≤ r.lsn && r.lsn < p.first + p.count)

/-- Enters the record found at a location as a further mapped match where its stamp is above its key's recovered state (R263),
with its log record. -/
def State.enterFound (s : State) (loc : Nat) : State :=
  match s.rec? loc with
  | none => s
  | some r =>
    let old := s.entry? r.keyspace r.fp r.key
    if r.kind == 4 || (s.keyspace? r.keyspace).isNone || s.isMapped loc || old.any (fun e => r.stamp ≤ e.newest.headStamp) then s
    else
      let seg : Option Seg := if r.kind == 2 then
        some { offset := r.segOff, length := r.valLen, skip := 0, loc := loc, stamp := r.stamp, digest := r.digest.isSome } else none
      let l : LogRec :=
        { kind := r.kind, keyspace := r.keyspace, pin := old.any (·.pinned), fp := r.fp, key := r.key, loc := loc, stamp := r.stamp, seg := seg,
          old := 0, extra := true, lsn := 0 }
      let s1 := s.replay (logSide r.fp) l
      let s2 := match s1.entry? r.keyspace r.fp r.key with
        | some e => s1.dirtyChunk e
        | none => s1
      s2.dirLog l

/-- Enters what was found, and counts what was entered. -/
def State.enterAll (s : State) (locs : List Nat) : State × Nat :=
  locs.foldl (fun a l => let t := a.1.enterFound l; (t, a.2 + b1 (t.isMapped l && !a.1.isMapped l))) (s, 0)

/-- The Quince ways of a recovered key: the newest match at the priority its kind gives, older ones at 8 with OLDER (R250). -/
def State.enterWays (s : State) (e : Entry) : State :=
  let s1 := s.qEnter (s.wayOf e.fp e.newest (((s.rec? e.newest.loc).map Rec.length).getD 0) e.pinned false)
  e.older.foldl (fun t m => t.qEnter (t.wayOf e.fp m (((t.rec? m.loc).map Rec.length).getD 0) false true)) s1

/-- Writes every queued row update, with its shadow (R249). -/
def State.drainQuince (s : State) : State :=
  let rows := s.quince.updates.foldl (fun (rs : List QRow) u =>
    { bank := u.bank, row := u.row, ways := u.ways, shadow := u.ways } :: rs.filter (fun r => !(r.bank == u.bank && r.row == u.row))) s.quince.rows
  { s with quince := { s.quince with rows := rows, updates := [] } }

/-- The directory as the logs give it (R262): each owner's records in LSN order, without the lost ones. -/
def State.replayLogs (s : State) (lost : List LostPage) : State :=
  let a := s.store.logA.medium.filter (fun r => !s.loses lost false r)
  let b := s.store.logB.medium.filter (fun r => !s.loses lost true r)
  let s1 : State := { s with store := { s.store with entries := [], logA := { s.store.logA with medium := a }, logB := { s.store.logB with medium := b } } }
  b.foldl (State.replay true) (a.foldl (State.replay false) s1)

/-- The LOG_PAGE_LOST records, each with the records found in its interval entered (R263, R264). -/
def State.lostPages (s : State) (lost : List LostPage) : State :=
  lost.foldl (fun t p =>
    let e := t.enterAll p.found
    e.1.logEvent 0x0404 (pack [(8, if p.ownerB then 230 else 229), (64, p.first), (32, e.2), (152, 0)])) s

/-- What a start finds of the last flush (R429): its completion mark, or that it is missing, which freezes the module. -/
def State.findMark (s : State) (found : List Nat) : State :=
  match s.modes.markFound with
  | none => s
  | some complete =>
    let f := s.modes.markTrigger
    let s1 := if complete then s else (s.enterAll found).1
    let s2 := if f.trigger == 0 then s1
      else s1.logEvent 0x0B01 (pack [(8, f.trigger), (1, b1 complete), (7, f.phase), (16, sat 16 (f.since / 10000)), (16, sat 16 f.energyCj),
        (16, sat 16 f.dirtyMiB), (192, 0)])
    let s3 : State := { s2 with modes := { s2.modes with markFound := none } }
    if complete then s3 else s3.freeze .holdup

/-- One step of R50 is complete: START_STEP, and its console line (R60, R465). -/
def State.stepDone (s : State) (n : Nat) : State :=
  ({ s with modes := { s.modes with startStep := n } } : State).console (ascii "step " ++ (if n < 10 then [BitVec.ofNat 8 (48 + n)] else ascii "1" ++ [BitVec.ofNat 8 (38 + n)]))

/-- Is the start at that step (R50)? -/
def State.atStep (s : State) (n : Nat) : Bool := s.modes.mode == .filling && s.supply.mainOn && s.modes.startStep == n

/-- MAIN_RAILS_IN_RANGE (R50): the bank charges and the SRAM fill starts. -/
def execMainRailsInRange (s : State) : Host.Outcome State Fault Refusal :=
  if s.atStep 1 then .next (s.stepDone 2) else .next s

/-- SRAM_FILL_COMPLETE (R49, R50). The training of row 3 has started by then. -/
def execSramFillComplete (s : State) : Host.Outcome State Fault Refusal :=
  if s.atStep 2 then .next ((s.stepDone 3).stepDone 4) else .next s

/-- DRAM_TRAINING_COMPLETE (R50): the DRAM fill starts. -/
def execDramTrainingComplete (s : State) : Host.Outcome State Fault Refusal :=
  if s.atStep 4 then .next (s.stepDone 5) else .next s

/-- DRAM_FILL_COMPLETE (R49, R404): every check bit is valid, the distinct-word tables are empty, and the control cores run. -/
def execDramFillComplete (s : State) : Host.Outcome State Fault Refusal :=
  if s.atStep 5 then .next (({ s with spares := { s.spares with ceCounts := [], ceRows := [] } } : State).stepDone 6) else .next s

/-- CONFIRMED_IMAGE_READ (R50): the image to run has been read and its tags checked. -/
def execConfirmedImageRead (s : State) : Host.Outcome State Fault Refusal :=
  if s.atStep 6 then .next (s.stepDone 7) else .next s

/-- ISLAND_CODE_LOADED (R49, R50): every island runs code of this image; the lane islands begin link training (R103, R489). -/
def execIslandCodeLoaded (s : State) : Host.Outcome State Fault Refusal :=
  if s.atStep 7 then
    let s1 := s.stepDone 8
    if isB8 then .next ((s1.startAttempts false).startAttempts true)
    else
      let fresh (b : Bool) (t : State) : State := t.setCage b { t.cage b with since := t.clock, refuse := 0 }
      .next (((fresh true (fresh false s1)).judgePlugIn false).judgePlugIn true)
  else .next s

/-- SETTINGS_MIGRATED (R53, R54): the settings are read, and migrated where older. -/
def execSettingsMigrated (s : State) : Host.Outcome State Fault Refusal :=
  if s.atStep 8 then .next (s.readSettings.stepDone 9) else .next s

/-- DIRECTORY_RECOVERED (R262, R263, R388, R429): the directory is rebuilt from the logs, pinned keys enter the Quince, and the pairs
of the run record return as they were stored. `found` are the records found past the last log page where the mark is missing. -/
def execDirectoryRecovered (lost : List LostPage) (found : List Nat) (s : State) : Host.Outcome State Fault Refusal :=
  if s.atStep 9 then
    let s1 := ((s.replayLogs lost).lostPages lost).findMark found
    let s2 := ((s1.store.entries.filter (·.pinned)).foldl State.enterWays s1).drainQuince
    let pairs := s2.relay.stored.map (fun p => { p with running := false, behind := p.behind || !p.seeding, since := s.clock })
    .next (({ s2 with relay := { s2.relay with pairs := pairs } } : State).stepDone 10)
  else .next s

/-- The mode after start-up (R56). A module recorded as Frozen whose only cause, SETTINGS_FORMAT, has cleared (R61) returns to the
mode it was frozen from (log entry 22). -/
def State.modeAfterStart (s : State) : Mode :=
  if s.modes.sanitising then .sanitising
  else if !(onlyOperator s.modes.freezeCauses) then .frozen
  else match s.modes.recorded with
    | some .frozen => if s.modes.freezeCauses == 0 then s.modes.frozenFrom.getD .serving else .frozen
    | some m => m
    | none => .serving

/-- The frozen-from mode when Filling ends in a mode (R62). -/
def State.frozenFromAfter (s : State) (m : Mode) : Option Mode :=
  if m != .frozen then none
  else match s.modes.frozenFrom with
    | some f => some f
    | none => if s.modes.recorded == some .shadowing then some .shadowing else some .serving

/-- The KEYS_ERASED record of an alarm (R369). -/
def State.keysErasedEvent (s : State) (causes : BitVec 8) (mode : Nat) : State :=
  s.logEvent 0x0801 (pack [(8, causes.toNat), (8, mode), (8, signed 8 (s.thermal.readings.getD 2 0)), (32, s.lockedCount), (200, 0)])

/-- FILLING_COMPLETE (R50, R56, R62): the module enters its mode. Every port event bit is 0 (R118), watermarks take their levels
(R150), alarms kept from Dormant and Filling are recorded (R365), an interrupted bank test is due within 1 hour (R427), and what became of an activation is
recorded (R444, R449). -/
def execFillingComplete (bankCharged : Bool) (s : State) : Host.Outcome State Fault Refusal :=
  if s.atStep 10 then
    let s1 : State := { s with
      holdup := { s.holdup with charged := bankCharged }
      ports := { s.ports with eventsA := 0, eventsB := 0 }
      modes := { s.modes with restartFault := none, lastFillMs := (s.clock - s.modes.fillStart) / 1000000
                              freezeCauses := if bankCharged then s.modes.freezeCauses else s.modes.freezeCauses ||| FreezeCause.holdup.word } }
    let m := s1.modeAfterStart
    let s2 := (({ s1 with modes := { s1.modes with frozenFrom := s1.frozenFromAfter m } } : State).stepDone 11).changeMode m
    let s3 := s2.supply.keptAlarms.foldl (fun t a => t.keysErasedEvent a.1 a.2) s2
    let s4 : State := { s3 with supply := { s3.supply with keptAlarms := [] } }
    .next (s4.fwAfterFilling.startMarks.saveSettings)
  else .next s

/-- FILLING_TIMEOUT (R51): 9 s after PWR_EN was accepted the start is abandoned. -/
def execFillingTimeout (s : State) : Host.Outcome State Fault Refusal :=
  if s.modes.mode == .filling && s.modes.fillStart + sec 9 ≤ s.clock then .next (s.startFault 1 0x1FF) else .next s

/-! ### Restarts (R96, R97) -/

/-- The module restarts: the log buffers that can be reached are flushed, the mode is recorded, and the main supply goes off for
50 ms. A fault that recurs at the next start is a start fault (R97). -/
def State.restart (s : State) (island reason : Nat) : State :=
  if !s.supply.mainOn || s.waltzing then s
  else if s.modes.mode == .filling && s.modes.restartFault == some island then s.startFault 2 island
  else
    let s1 := ((((s.fwLoss reason).recordMode).dropAll 3).flushLogs).keepPairs false
    let s2 := s1.mainOff.changeMode .dormant
    ({ s2 with modes := { s2.modes with restartAt := some s.clock, restartFault := some island, markFound := none } } : State).saveSettings

/-- RESTART (R96, R97): a hub, a directory log island or an access link has failed uncorrectably. -/
def execRestart (island : Nat) (s : State) : Host.Outcome State Fault Refusal := .next (s.restart island 6)

/-- MAIN_SUPPLY_REENABLE (R96): 50 ms after a restart turned the main supply off. -/
def execMainSupplyReenable (s : State) : Host.Outcome State Fault Refusal :=
  match s.modes.restartAt with
  | some t => if t + ms 50 ≤ s.clock && s.supply.p12vOk && s.supply.auxInRange then .next s.beginFilling else .next s
  | none => .next s

end Sys2Proof.Machine
end

