-- ==== Sys2Proof/Machine/Alarm.lean ====
section
/-! DEFINITION. Alarms (R32, R33, R363–R367) and the loss of the auxiliary supply (R478). -/

namespace Sys2Proof.Machine

/-- The cause bit of an alarm source (R363). -/
def AlarmSource_bit : AlarmSource → Nat
  | .tamper => 0
  | .latch => 1
  | .supply => 2
  | .temperature => 3
  | .clock => 4

/-- Can the source raise an alarm now: its logic is powered, the latch is fitted, the supply detectors are armed (R33, R363, R480)? -/
def State.alarmArmed (s : State) : AlarmSource → Bool
  | .tamper => s.supply.auxInRange
  | .latch => s.supply.auxInRange && Config.orderCode == .f2t
  | .supply => s.supply.mainOn
  | _ => s.supply.auxInRange || s.supply.mainOn

/-- Does an alarm end the command: one of an encrypted keyspace whose cipher job was ended, or that has not reached its cipher step
(R365)? Commands not yet checked meet KEYSPACE_LOCKED at check 7. -/
def State.alarmEnds (s : State) (x : Ctx) : Bool :=
  !x.committed && (s.keyspace? x.keyspace).any (·.encrypted)
    && ((x.writesValue && (x.phase == .shaping || x.phase == .locking || x.phase == .waiting || x.phase == .sealing))
      || ((x.opcode == 0x01 || x.opcode == 0x0E)
        && (x.phase == .shaping || x.phase == .locking || x.phase == .waiting || x.phase == .reading || x.phase == .opening)))

/-- Does a command hold an unwrapped key that has not been loaded (R367)? -/
def Ctx.holdsKey (x : Ctx) : Bool :=
  match x.change with
  | some (.keyLoad _ _ _) => true
  | some (.keyRetire _ _) => true
  | _ => false

/-- The erasure of an alarm (R364, R365): key material is zero, cipher jobs end, commands end, sieves of encrypted keyspaces end, and
KEYS_ERASED is queued and recorded. -/
def State.eraseForAlarm (s : State) (causes : BitVec 8) : State :=
  let s1 := s.eraseKeys
  let s2 : State := { s1 with cipher := { s1.cipher with
    queue := [], pipes := s1.cipher.pipes.map (fun p => { p with running := none, suspended := [] }) } }
  let s3 := (s2.endAll s2.alarmEnds .deviceFault).endAll Ctx.holdsKey .keyspaceLocked
  let s4 := s3.closeSieves (fun v => (s3.keyspace? v.keyspace).any (·.encrypted)) 3
  let a := causes.toNat + 256 * b1 (!s4.supply.conditions.isEmpty)
  (((s4.broadcast .keysErased 0 (BitVec.ofNat 64 a) (BitVec.ofNat 64 s4.lockedCount) []).keysErasedEvent causes s4.modes.mode.code).alert .keysErased).wake

/-- An alarm is raised (R363–R365). In Dormant and Filling it finds no keys, and its record waits for the end of the next Filling. -/
def State.raiseAlarm (s : State) (src : AlarmSource) : State :=
  let causes := BitVec.ofNat 8 (2 ^ AlarmSource_bit src)
  let s1 : State := { s with supply := { s.supply with
    conditions := src :: s.supply.conditions.filter (· != src), lastCauses := causes, alarms := s.supply.alarms + 1
    erasedLocked := s.supply.erasedLocked || s.store.keyspaces.any (·.encrypted) } }
  if s.modes.mode == .dormant || s.modes.mode == .filling then
    { s1 with supply := { s1.supply with keptAlarms := s1.supply.keptAlarms ++ [(causes, s.modes.mode.code)] } }
  else s1.eraseForAlarm causes

/-- ALARM (R363, R364): a condition has held for its filter time. A condition that already holds raises none again. -/
def execAlarm (src : AlarmSource) (s : State) : Host.Outcome State Fault Refusal :=
  if s.alarmArmed src && !s.supply.conditions.contains src then .next (s.raiseAlarm src).settle else .next s

/-- ALARM_CONDITION_END (R33, R363): the condition no longer holds. -/
def execAlarmConditionEnd (src : AlarmSource) (s : State) : Host.Outcome State Fault Refusal :=
  .next { s with supply := { s.supply with conditions := s.supply.conditions.filter (· != src) } }

/-- P3V3_AUX_LOSS (R422, R478): with the main supply on, a supply-glitch alarm and Last Waltz; otherwise the module goes off, and no
alarm condition is watched. -/
def execP3v3AuxLoss (s : State) : Host.Outcome State Fault Refusal :=
  if !s.supply.auxInRange then .next s
  else
    let off (t : State) : State := { t with
      supply := { t.supply with auxInRange := false, watched := false, armed := false }
      modes := { t.modes with restartAt := none } }
    if s.supply.mainOn then
      let s1 := if s.supply.conditions.contains .supply then s else s.raiseAlarm .supply
      .next (off (s1.supplyLost 4))
    else .next { off s with supply := { (off s).supply with conditions := [] } }

end Sys2Proof.Machine
end

