-- ==== Sys2Proof/Machine/Lifecycle.lean ====
section
/-! DEFINITION. MODE_SET (R44–R47), SANITISE (R65, R66) and the flushes they lead to. -/

namespace Sys2Proof.Machine

/-- Is a handover or reload under way: a cut-in in progress, in an activation or a fallback (R443, R448)? -/
def State.cutIn (s : State) : Bool := !s.fw.byRestart && (s.fw.act == 3 || s.fw.act == 4 || s.fw.act == 7)

/-- NOT_READY with an estimate the spec gives no value of (log entry 5). -/
def State.notReadyGuess (s : State) (c : Nat) : State := s.drawn.endCmd c (Reply.withA .notReady (Config.estimate s.rnd % 2 ^ 32))

/-! ### MODE_SET (R44) -/

/-- Leaves Frozen for the mode it was frozen from: OPERATOR clears, and no frozen-from mode stays stored (R44, R61, R62). -/
def State.unfreeze (s : State) (m : Mode) : State :=
  ((({ s with modes := { s.modes with freezeCauses := s.modes.freezeCauses &&& ~~~FreezeCause.operator.word } } : State).changeMode m)
    |> (fun t : State => { t with modes := { t.modes with frozenFrom := none } })).saveSettings

/-- A MODE_SET to a target, by the rows of R44. -/
def State.setMode (s : State) (x : Ctx) (target : Mode) : State :=
  match s.modes.mode, target with
  | .dormant, .serving =>
    if x.mailbox && s.supply.watched && s.supply.pwrEn && s.supply.straps.factoryN && s.modes.restartAt.isNone then
      let s1 := (({ s with supply := { s.supply with armed := true } } : State).endStatus x.id .done)
      if s1.mayStart then s1.beginFilling else s1
    else s.endStatus x.id .wrongMode
  | .serving, .shadowing =>
    if s.store.keyspaces.any (fun k => k.id != 0) then s.endStatus x.id .wrongMode
    else ((s.changeMode .shadowing).saveSettings.endStatus x.id .done).settle
  | .serving, .frozen => ((s.freeze .operator).endStatus x.id .done).settle
  | .shadowing, .frozen => ((s.freeze .operator).endStatus x.id .done).settle
  | .frozen, m =>
    if m == .dormant then s.toPhase x.id .draining
    else if s.modes.frozenFrom == some m && s.modes.freezeCauses == FreezeCause.operator.word then ((s.unfreeze m).endStatus x.id .done).settle
    else s.endStatus x.id .wrongMode
  | .serving, .dormant => s.toPhase x.id .draining
  | .shadowing, .dormant => s.toPhase x.id .draining
  | _, _ => s.endStatus x.id .wrongMode

/-- MODE_SET (R44, R47, R443). -/
def execModeSet (c : Nat) (s : State) : Host.Outcome State Fault Refusal :=
  .next (s.adminRow c 0x49 false (fun x => x.only 0 0 true false && (modeOfCode x.paramA.toNat).isSome) (fun x =>
    if s.cutIn then s.notReadyGuess c
    else match modeOfCode x.paramA.toNat with
      | some m => s.setMode x m
      | none => s.endStatus c .badLength))

/-- DORMANT_DRAINED (R47): every command accepted before the MODE_SET has its status; it ends DONE, forwards are abandoned (R383), and
the flush starts on the main supply. -/
def execDormantDrained (c : Nat) (s : State) : Host.Outcome State Fault Refusal :=
  match s.ctx? c with
  | none => .next s
  | some x =>
    if x.opcode == 0x49 && x.phase == .draining && s.modes.flush.isNone && !(s.net.ctxs.any (fun y => y.id < c)) then
      let s1 := (s.endStatus c .done).abandonForwards
      let f : Flush := { trigger := 3, phase := 3, since := s.clock, energyCj := 0, dirtyMiB := 0 }
      .next { s1 with relay := { s1.relay with slots := [] }, modes := { s1.modes with flush := some f } }
    else .next s

/-- What a flush from the main supply writes: phases 3 and 4 (R47, R423). -/
def State.flushAll (s : State) (f : Flush) : State × Flush :=
  let a := s.phaseDone { f with phase := 3 }
  a.1.phaseDone a.2

/-- DORMANT_FLUSH_COMPLETE (R47, R431): the links go down, the main supply turns off and the module is in Dormant until PWR_EN rises
again or a MODE_SET asks for a start. -/
def execDormantFlushComplete (s : State) : Host.Outcome State Fault Refusal :=
  match s.modes.flush with
  | none => .next s
  | some f =>
    if f.trigger == 3 then
      let a := s.flushAll f
      .next (({ a.1 with supply := { a.1.supply with armed := false } } : State).finishFlush a.2 5)
    else .next s

/-- LAST_WALTZ_PHASE_END (R423, R425): a phase completes, having drawn energy from the bank, and the next begins; after phase 5 the
main supply is off. A phase that does not complete leaves no completion mark (R429). -/
def execLastWaltzPhaseEnd (energyCj : Nat) (ok : Bool) (s : State) : Host.Outcome State Fault Refusal :=
  match s.modes.flush with
  | none => .next s
  | some f =>
    if !f.waltz then .next s
    else
      let f1 := { f with energyCj := f.energyCj + energyCj }
      if !ok then .next (s.finishFlush f1 (f.phase - 1))
      else if f.phase == 5 then .next (s.finishFlush f1 5)
      else
        let a := s.phaseDone f1
        .next { a.1 with modes := { a.1.modes with flush := some a.2 } }

/-! ### SANITISE (R65, R66) -/

/-- Commands that wait for their successors when forwards are abandoned end RELAY_FAULT, their writes standing (R46, R383). -/
def State.endRelaying (s : State) : State :=
  (s.net.ctxs.filter (·.phase == .relaying)).foldl (fun t x => t.endCmd x.id { x.reply with status := .relayFault }) s

/-- The module enters Sanitising (R46, R62, R65): keys and KEK are zero and every key page is cleared (R350), and commands end. -/
def State.enterSanitising (s : State) (reset : Bool) : State :=
  let s1 := (s.cipher.pages.map (·.n)).foldl (fun t n => t.clearPage n 2) s.eraseKeys
  let s2 := s1.abandonForwards.endRelaying
  let s3 : State := { s2 with
    relay := { s2.relay with slots := [] }
    cipher := { s2.cipher with queue := [], pipes := s2.cipher.pipes.map (fun p => { p with running := none, suspended := [] }) }
    modes := { s2.modes with sanitising := true, resetConfig := reset, sanitisePct := 0 } }
  let s4 := s3.changeMode .sanitising
  ({ s4 with modes := { s4.modes with frozenFrom := none } } : State).unlockSeen.saveSettings

/-- SANITISE (R65, R443): RESET_CONFIG is PARAM_A[0]. SANITISE_LOCK refuses it. -/
def execSanitise (c : Nat) (s : State) : Host.Outcome State Fault Refusal :=
  .next (s.adminRow c 0x48 false (fun x => x.only 0 0 true false && x.paramA.toNat < 2) (fun x =>
    if s.var 0x0E08 == 1 then s.endStatus c .wrongMode
    else if s.cutIn then s.notReadyGuess c
    else ((s.enterSanitising (x.paramA == 1)).endStatus c .done).settle))

/-- Every block of all 32 die sets erased once, at three thirds of a cycle (R65, R312). -/
def State.wearAll (s : State) : List ((Nat × Nat) × Nat) :=
  (List.range 32).flatMap (fun t => (List.range 10923).map (fun b =>
    ((t, b), ((s.store.wear.find? (fun w => w.1 == (t, b))).map (·.2)).getD 0 + 3)))

/-- Configuration variables back at their defaults but for those of R65 step 5; a port whose format changes trains again. -/
def State.resetVars (s : State) : State :=
  let s1 : State := { s with vars := s.vars.filter (fun v => v.1 / 256 == 0x0D || v.1 == 0x0E08) }
  let s2 := if s1.ports.formatA == s1.var 0x0101 then s1 else s1.retrainPort false (s1.var 0x0101)
  if s2.ports.formatB == s2.var 0x0102 then s2 else s2.retrainPort true (s2.var 0x0102)

/-- Steps 3 and 4 of R65: media, directory, logs, keyspaces, fences, shapers, relay settings, map and journal are cleared, and
pending SECURE_DISCARD_DONEs go out. Sessions of a fence are the commons' from then on (log entry 23). Stamps go on (R162). -/
def State.wipe (s : State) (refused : Nat) : State :=
  let s1 := s.store.eraseSets.foldl State.eraseDone { s with store := { s.store with eraseSets := [] } }
  { s1 with
    modes := { s1.modes with sanitisePct := 100 }
    counts := { s1.counts with eraseFails := s1.counts.eraseFails + refused }
    store := { s1.store with
      keyspaces := [], entries := [], recs := [], groups := [], extents := 1, fineNext := 1, wear := s.wearAll
      gens := s.store.groups.foldl (fun l g => setKey l g.num ((getKey l g.num 0 + 1) % 256)) s.store.gens
      stale := [], heat := [], cache := [], holds := [], logA := LogOwner.empty, logB := LogOwner.empty, mapLog := 0, dirty := [], images := [] }
    coh := { lines := [], dram := [], filter := [], txs := [], flying := [], snooped := [], answers := [], evicts := [], repairs := [] }
    quince := { rows := [], updates := [], heat := [] }
    owners := Owner.commons :: List.replicate 8 Owner.none
    cipher := { s1.cipher with pipes := s1.cipher.pipes.map (fun p => { p with owner := 0 }) }
    net := { s1.net with sessions := s1.net.sessions.map (fun y => { y with fence := 0 }), ctxs := s1.net.ctxs.map (fun x => { x with pool := 0 })
                         kept := s1.net.kept.map (fun k => { k with owner := if k.owner == egressPart then egressPart else 0 }) }
    relay := { s1.relay with slots := [], pairs := [], initiators := [], map := none, stored := [] }
    logs := { s1.logs with journal := [] } }

/-- SANITISE_ERASE_COMPLETE (R65, R66): the block erase of all media is complete, `refused` retired blocks having refused it; the
sanitise clears state and enters its next mode (R44, R62). -/
def execSanitiseEraseComplete (refused : Nat) (s : State) : Host.Outcome State Fault Refusal :=
  if s.modes.mode == .sanitising && s.modes.sanitising && !s.waltzing then
    let s1 := s.wipe refused
    let s2 := if s1.modes.resetConfig then s1.resetVars else s1
    let s3 : State := { s2 with modes := { s2.modes with sanitising := false, resetConfig := false } }
    let m : Mode := if onlyOperator s3.modes.freezeCauses then .serving else .frozen
    let s4 : State := { s3 with modes := { s3.modes with frozenFrom := if m == .frozen then some .serving else none } }
    .next ((s4.changeMode m).saveSettings).watch
  else .next s

end Sys2Proof.Machine
end

