-- ==== Sys2Proof/Machine/Package.lean ====
section
/-! DEFINITION. Sorsen packages (R433–R440): the checks of the header and the manifest, the sections, and the image they build. -/

namespace Sys2Proof.Machine

/-- The header of a package (R434). -/
structure PkgHeader where
  wellFormed : Bool      -- magic, format and reserved bits
  target     : Nat
  keyIndex   : Nat
  base       : Nat
  version    : Nat
  floor      : Nat
  manLength  : Nat
  bodyLength : Nat
  manDigest  : Nat
  r          : Nat
  s          : Nat
  deriving DecidableEq, Repr

/-- Reads the header (R434). -/
def parsePkgHeader (b : Bytes) : PkgHeader :=
  let v := natOfBytes (b.take 256)
  { wellFormed := bits v 2047 2016 == 0x534F5253 && bits v 2015 2000 == 1 && bits v 1975 1952 == 0 && bits v 1407 768 == 0
    target := bits v 1999 1984, keyIndex := bits v 1983 1976, base := bits v 1951 1920, version := bits v 1919 1888, floor := bits v 1887 1856
    manLength := bits v 1855 1824, bodyLength := bits v 1823 1792, manDigest := bits v 1791 1408, r := bits v 767 384, s := bits v 383 0 }

/-- The largest package (R433). -/
def packageLimit : Nat := 67108864

/-- The length of the package a header announces (R433). -/
def PkgHeader.total (h : PkgHeader) : Nat := 256 + h.manLength + h.bodyLength

/-- The checks of the header in the order of R435; none where it passes. -/
def State.headerFault (s : State) (b : Bytes) : Option Status :=
  let h := parsePkgHeader b
  if !h.wellFormed || 3 < h.keyIndex || h.version < h.floor || packageLimit < h.total then some .badLength
  else if !(ecdsaValid (Config.publicKey h.keyIndex) (sha384 (b.take 160)) h.r h.s) then some .authFail
  else if h.target != 0x0100 || (h.base != 0 && h.base != (s.fwSlot s.fw.active).version) || h.version < s.fw.floor then some .notFound
  else none

/-- A manifest entry (R436). -/
structure PartEntry where
  part   : Nat
  kind   : Nat
  zero   : Bool      -- the reserved field is 0
  offset : Nat
  length : Nat
  image  : Nat
  digest : Nat
  raw    : Bytes
  deriving DecidableEq, Repr

/-- Reads a manifest entry. -/
def parsePart (b : Bytes) : PartEntry :=
  let v := natOfBytes (b.take 64)
  { part := bits v 511 496, kind := bits v 495 488, zero := bits v 487 480 == 0, offset := bits v 479 448, length := bits v 447 416,
    image := bits v 415 384, digest := bits v 383 0, raw := b.take 64 }

/-- The ten entries of a manifest. -/
def manifestParts (man : Bytes) : List PartEntry := (List.range 10).map (fun i => parsePart (man.drop (32 + 64 * i)))

/-- What a slot holds for part images: 60 MiB (R41, R436). -/
def slotSize : Nat := 62914560

/-- Do the sections of two entries overlap? -/
def PartEntry.overlaps (a b : PartEntry) : Bool :=
  a.kind != 0 && b.kind != 0 && a.offset < b.offset + b.length && b.offset < a.offset + a.length

/-- Does some section overlap a later one? -/
def sectionsOverlap : List PartEntry → Bool
  | [] => false
  | e :: es => es.any e.overlaps || sectionsOverlap es

/-- The fields of the manifest are in range (R436). -/
def manifestOk (h : PkgHeader) (man : Bytes) : Bool :=
  let v := natOfBytes (man.take 32)
  let es := manifestParts man
  h.manLength == 32 + 64 * 10 && bits v 255 248 == 1 && bits v 247 240 == 10 && bits v 215 0 == 0
    && es.all (fun e => e.kind ≤ 2 && e.zero && 1 ≤ e.part && e.part ≤ 10 && (e.kind != 0 || (e.offset == 0 && e.length == 0))
      && e.offset + e.length ≤ h.bodyLength && !(e.kind == 2 && h.base == 0))
    && (es.map (·.part)).eraseDups.length == 10 && !sectionsOverlap es && (es.map (·.image)).sum ≤ slotSize

/-- The check of the manifest when its last byte arrives (R436); none where it passes. -/
def manifestFault (b : Bytes) : Option Status :=
  let h := parsePkgHeader b
  let man := (b.drop 256).take h.manLength
  if sha384 man != h.manDigest then some .authFail else if !manifestOk h man then some .badLength else none

/-- The image of a part in a slot. -/
def FwSlot.image (f : FwSlot) (part : Nat) : Bytes := ((f.images.find? (·.1 == part)).map (·.2)).getD (Config.factoryImage part)

/-- Applies the difference commands of a KIND 2 section (R438); none where they are malformed. -/
def applyDiff (old : Bytes) : Nat → Bytes → Bytes → Option Bytes
  | 0, _, _ => none
  | fuel + 1, cmds, out =>
    if cmds.length < 8 then none
    else
      let w := natOfBytes (cmds.take 8)
      let op := bits w 63 62
      let n := bits w 61 32
      let src := bits w 31 0
      let rest := cmds.drop 8
      if op == 1 then (if src + n ≤ old.length then applyDiff old fuel rest (out ++ (old.drop src).take n) else none)
      else if op == 2 then (if src == 0 && n ≤ rest.length then applyDiff old fuel (rest.drop n) (out ++ rest.take n) else none)
      else if op == 3 then (if src == 0 && n == 0 && rest.isEmpty then some out else none)
      else none

/-- The plaintext of a section (R438); none where its tag fails. -/
def openSection (e : PartEntry) (version : Nat) (sec : Bytes) : Option Bytes :=
  if sec.length < 28 then none
  else
    let key := bytesOfNat 32 (Config.packageKey 0)
    let iv := sec.take 12
    let c := (sec.drop 12).take (sec.length - 28)
    if (gcmTag key iv (e.raw ++ bytesOfNat 4 version) c).toNat == natOfBytes (sec.drop (sec.length - 16)) then some (gcmCrypt key iv c) else none

/-- The image of a part as the package builds it (R438); none where a check fails. -/
def buildPart (installed : FwSlot) (version : Nat) (body : Bytes) (e : PartEntry) : Option (Nat × Bytes) :=
  let sec := (body.drop e.offset).take e.length
  let out := if e.kind == 0 then some (installed.image e.part)
    else match openSection e version sec with
      | none => none
      | some p => if e.kind == 1 then some p else applyDiff (installed.image e.part) (p.length / 8 + 1) p []
  out.bind (fun i => if i.length == e.image && sha384 i == e.digest then some (e.part, i) else none)

/-- The images of all parts, in order; none where one fails. -/
def buildParts (installed : FwSlot) (version : Nat) (body : Bytes) : List PartEntry → Option (List (Nat × Bytes))
  | [] => some []
  | e :: es => match buildPart installed version body e, buildParts installed version body es with
    | some i, some is => some (i :: is)
    | _, _ => none

/-- The slot that a complete package makes (R438, R440); none where a tag or digest fails. -/
def State.buildImage (s : State) (b : Bytes) : Option FwSlot :=
  let h := parsePkgHeader b
  let man := (b.drop 256).take h.manLength
  let v := natOfBytes (man.take 32)
  let es := manifestParts man
  let other := s.fwSlot (1 - s.fw.active)
  (buildParts (s.fwSlot s.fw.active) h.version (b.drop (256 + h.manLength)) es).map (fun is =>
    { st := 0, version := h.version, floor := h.floor, settings := bits v 239 224, media := bits v 223 216, full := h.base == 0,
      parts := (es.filter (·.kind != 0)).map (·.part), sound := true, images := is, writes := other.writes + 1 })

/-- The staging ends with a status (R193, R435, R436). -/
def State.stageFails (s : State) (c : Nat) (st : Status) : State :=
  ({ s with fw := { s.fw with staging := none, act := 0 } } : State).endStatus c st

/-- The inactive slot changed. -/
def State.updInactive (s : State) (f : FwSlot → FwSlot) : State := s.updFwSlot (1 - s.fw.active) f

/-- A chunk that may be appended (R193, R435, R436, R440): the checks that it completes, and what it comes to. -/
def State.stageChunk (s : State) (x : Ctx) (before : Bytes) : State :=
  let all := before ++ x.body
  let c := x.id
  let h := parsePkgHeader all
  let manEnd := 256 + h.manLength
  let completes (n : Nat) : Bool := before.length < n && n ≤ all.length
  let headFault := if completes 256 then s.headerFault all else none
  match headFault with
  | some st => s.stageFails c st
  | none =>
    if 256 ≤ all.length && h.total < all.length then
      ({ s with fw := { s.fw with staging := if before.isEmpty then none else s.fw.staging } } : State).endCmd c (Reply.withA .badLength before.length)
    else match (if 256 ≤ all.length && completes manEnd then manifestFault all else none) with
      | some st => s.stageFails c st
      | none =>
        let s1 : State := { s with fw := { s.fw with staging := some all, stagedAt := s.clock, act := 1 } }
        let done := Reply.withA .done all.length
        if 256 ≤ all.length && all.length == h.total then
          match s.buildImage all with
          | none => s.stageFails c .authFail
          | some f =>
            let s2 := s1.updInactive (fun o => { o with st := 0, images := [] })
            ({ s2 with fw := { s2.fw with programming := some (s.clock, f), act := 2 } } : State).endCmd c done
        else s1.endCmd c done

/-- FW_STAGE (R193, R440, R443). -/
def execFwStage (c : Nat) (s : State) : Host.Outcome State Fault Refusal :=
  .next (s.adminRow c 0x40 false (fun x =>
      x.keyLen == 0 && x.flagsWithin 0 && 1 ≤ x.valLen && x.valLen ≤ 16777216 && x.paramA.toNat < 2 ^ 32 && x.paramB == 0) (fun x =>
    if s.fw.awaitSince.isSome then s.endCmd c (Reply.withA .notReady s.confirmLeft)
    else if 3 ≤ s.fw.act then s.endCmd c (Reply.withA .notReady 600000)
    else if s.fw.programming.isSome then s.notReadyGuess c
    else
      let staged := s.fw.staging.getD []
      let at' := x.paramA.toNat
      if at' == 0 then s.stageChunk x []
      else if at' == staged.length then s.stageChunk x staged
      else s.endCmd c (Reply.withA .badLength staged.length)))

/-- FW_STAGE_IDLE (R440): FW_STAGE_IDLE_S without a FW_STAGE. -/
def execFwStageIdle (s : State) : Host.Outcome State Fault Refusal :=
  if s.fw.staging.isSome && s.fw.programming.isNone && s.fw.stagedAt + sec (s.var 0x0C04) ≤ s.clock then
    .next { s with fw := { s.fw with staging := none, act := if s.fw.act == 1 then 0 else s.fw.act } }
  else .next s

/-- SLOT_PROGRAM_DONE (R440): the slot has been programmed and read back. -/
def execSlotProgramDone (readBackOk : Bool) (s : State) : Host.Outcome State Fault Refusal :=
  match s.fw.programming with
  | none => .next s
  | some (_, f) =>
    let s1 := (s.updInactive (fun _ => { f with st := if readBackOk then 1 else 3 }))
    let s2 : State := { s1 with fw := { s1.fw with programming := none, act := 0 } }
    .next (if readBackOk then s2.fwState 1 0 f.version else s2.fwState 2 7 f.version)

end Sys2Proof.Machine
end

