-- ==== Sys2Proof/Machine/Firmware.lean ====
section
/-! DEFINITION. Activation, reload, confirmation and fallback of firmware (R441–R449). -/

namespace Sys2Proof.Machine

/-! ### Which islands an image reloads (R437, R442) -/

/-- The home islands of the roles of a part's class, in order (R71, R437). -/
def partRoles : Nat → List Nat
  | 3 => [244]
  | 4 => List.range 8
  | 5 => (List.range 16).map (· + 10)
  | 6 => (List.range 16).map (· + 42)
  | 7 => (List.range 4).map (· + 59)
  | 8 => (List.range 32).map (· + 181)
  | 9 => (List.range 32).map (· + 147)
  | 10 => [231, 232]
  | _ => []

/-- The roles that an image reloads, class by class in the order of R437. -/
def FwSlot.reloads (f : FwSlot) : List Nat := ((List.range 11).filter f.parts.contains).flatMap partRoles

/-- The island that holds a role (R72). -/
def State.holder (s : State) (role : Nat) : Nat := getKey s.spares.roles role role

/-- Is the role of a class reloaded by spare rotation (R437)? -/
def rotates (role : Nat) : Bool := [5, 6, 7, 9].any (fun p => (partRoles p).contains role)

/-- The spare that takes a role's code next: the first unused one of its class (R442). -/
def State.rotationSpare (s : State) (role : Nat) : Option Nat := (classOf role).bind (fun c => (s.sparesOf c).head?)

/-- The island that is loaded for a role: a spare by rotation, or the role's own in place (R442). -/
def State.loadTarget (s : State) (role : Nat) : Nat :=
  if rotates role then (s.rotationSpare role).getD (s.holder role) else s.holder role

/-- A role moves to a spare that holds its class's new code; the island it vacates is an unused spare in its place (R442). -/
def State.rotateRole (s : State) (role : Nat) : State :=
  match rotates role, s.rotationSpare role with
  | true, some sp =>
    let from' := s.holder role
    { s with spares := { s.spares with roles := setKey s.spares.roles role sp, unused := s.spares.unused.map (fun i => if i == sp then from' else i) } }
  | _, _ => s

/-! ### Fallback (R448) -/

/-- The version of the image that is activated or on probation. -/
def State.newVersion (s : State) : Nat := (s.fwSlot (1 - s.fw.confirmed)).version

/-- Fallback starts (R444, R448): before the handover nothing has changed; after it, the old code takes the state back where the
standby still holds it, and otherwise the module restarts into the confirmed image. -/
def State.startFallback (s : State) (reason : Nat) : State :=
  let s1 := s.fwState 6 reason s.newVersion
  let swapped := s.fw.active != s.fw.confirmed
  let byRestart := swapped && (s.fw.byRestart || !s.fw.standbyOld)
  let back := if swapped && !byRestart then ((s.fwSlot s.fw.active).reloads).take s.fw.reloaded else []
  { s1 with fw := { s1.fw with awaitSince := none, act := 7, fallback := reason, freeze := none, copying := swapped && !byRestart, reload := back,
                               reloaded := 0, reloadTotal := back.length, byRestart := byRestart, restarting := byRestart } }

/-- FALLBACK_DONE (R448): the old code runs everywhere; the abandoned image's slot is invalid. -/
def execFallbackDone (s : State) : Host.Outcome State Fault Refusal :=
  if s.fw.act == 7 && !s.fw.restarting && s.fw.reload.isEmpty && !s.fw.copying && s.fw.freeze.isNone && s.fw.active == s.fw.confirmed
      && (s.modes.mode.service || s.modes.mode == .sanitising) then
    let v := s.newVersion
    let s1 := (s.updFwSlot (1 - s.fw.confirmed) (fun f => { f with st := 3 })).updFwSlot s.fw.confirmed (fun f => { f with st := 4 })
    let s2 : State := { s1 with fw := { s1.fw with act := 0, fallback := 0, byRestart := false, standbyOld := false, lastReason := s.fw.fallback,
                                                   fallbacks := s.fw.fallbacks + 1 } }
    let s3 := s2.fwState 7 s.fw.fallback v
    .next { s3 with fw := { s3.fw with doneAt := 0 } }
  else .next s

/-! ### FW_ACTIVATE and the handover (R441) -/

/-- Must the staged image be activated by a restart (R441)? -/
def State.needsRestart (s : State) (f : FwSlot) (asked : Bool) : Bool :=
  asked || f.parts.contains 2 || f.settings != (s.fwSlot s.fw.active).settings || f.full || s.spares.standbyLost

/-- FW_ACTIVATE (R194, R441). CMD_FLAGS[0] is RESTART. -/
def execFwActivate (c : Nat) (s : State) : Host.Outcome State Fault Refusal :=
  .next (s.adminRow c 0x41 false (·.only 1 0 false false) (fun x =>
    let f := s.fwSlot (1 - s.fw.active)
    if s.fw.awaitSince.isSome then s.endCmd c (Reply.withA .notReady s.confirmLeft)
    else if 3 ≤ s.fw.act then s.notReadyGuess c
    else if f.st != 1 || s.fw.programming.isSome then s.endStatus c .notFound
    else if !f.sound then (s.updInactive (fun g => { g with st := 3 })).endStatus c .notFound
    else
      let r := s.needsRestart f (x.flags.getLsbD 0)
      ({ s with fw := { s.fw with act := 3, byRestart := r, restarting := r, copying := false, freeze := none, reloaded := 0, reloadTotal := 0,
                                  reload := [], doneAt := s.clock, activations := s.fw.activations + 1 } } : State).endCmd c (Reply.withA .done (b1 r))))

/-- Does a handover run, of an activation or, in reverse, of a fallback (R441, R448)? -/
def State.handingOver (s : State) : Bool := !s.fw.byRestart && (s.fw.act == 3 || (s.fw.act == 7 && s.fw.active != s.fw.confirmed))

/-- STANDBY_BOOTED (R441): the standby complex runs the new code and copies the state. -/
def execStandbyBooted (s : State) : Host.Outcome State Fault Refusal :=
  if s.handingOver && !s.fw.copying && s.fw.freeze.isNone then .next { s with fw := { s.fw with copying := true } } else .next s

/-- BULK_COPY_DONE (R441): the freeze of at most 2 ms begins. -/
def execBulkCopyDone (s : State) : Host.Outcome State Fault Refusal :=
  if s.handingOver && s.fw.copying && s.fw.freeze.isNone then .next { s with fw := { s.fw with freeze := some s.clock } } else .next s

/-- The reload has ended: an activation awaits confirmation (R442, R444). -/
def State.reloadEnd (s : State) : State := if s.fw.act == 4 && s.fw.reload.isEmpty then s.awaitConfirm else s

/-- HANDOVER_DONE (R441): the complexes have exchanged roles, and the reload of the islands begins (R442). -/
def execHandoverDone (s : State) : Host.Outcome State Fault Refusal :=
  if s.handingOver && s.fw.freeze.isSome then
    let fw := { s.fw with freeze := none, copying := false, complexB := !s.fw.complexB, lastReload := s.clock }
    if s.fw.act == 3 then
      let n := 1 - s.fw.confirmed
      let l := (s.fwSlot n).reloads
      let s1 : State := { s with fw := { fw with active := n, act := 4, standbyOld := true, reload := l, reloaded := 0, reloadTotal := l.length } }
      let s2 := (s1.updFwSlot n (fun f => { f with st := 5 })).updFwSlot s.fw.confirmed (fun f => { f with st := 2 })
      .next (s2.fwState 3 0 s.newVersion).reloadEnd
    else .next { s with fw := { fw with active := s.fw.confirmed, standbyOld := false } }
  else .next s

/-! ### Confirmation (R444, R445) -/

/-- The image that awaits confirmation is confirmed (R445). -/
def State.confirmImage (s : State) : State :=
  let a := s.fw.active
  let f := s.fwSlot a
  let s1 := (s.updFwSlot a (fun g => { g with st := 4 })).updFwSlot (1 - a) (fun g => { g with st := 2 })
  let s2 : State := { s1 with
    fw := { s1.fw with confirmed := a, floor := max s.fw.floor f.floor, mediaFmt := f.media, awaitSince := none, act := 0, byRestart := false,
                       standbyOld := false }
    nor := { s1.nor with older := none } }
  let s3 := s2.fwState 5 0 f.version
  { s3 with fw := { s3.fw with doneAt := 0 } }

/-- FW_CONFIRM (R195, R443, R444). -/
def execFwConfirm (c : Nat) (s : State) : Host.Outcome State Fault Refusal :=
  .next (s.adminRow c 0x42 false (·.only 0 0 false false) (fun _ =>
    if s.fw.awaitSince.isSome then s.confirmImage.endStatus c .done else s.endStatus c .alreadyDone))

/-- SELFTEST_END (R444): after FW_SELFTEST_S the self-test passes, and FW_AUTO_CONFIRM may confirm the image; a failure starts
fallback at once. -/
def execSelftestEnd (passed : Bool) (s : State) : Host.Outcome State Fault Refusal :=
  match s.fw.awaitSince with
  | none => .next s
  | some t =>
    if s.fw.act != 5 then .next s
    else if !passed then .next (s.startFallback 2)
    else if s.clock < t + sec s.fw.selftestS then .next s
    else
      let s1 : State := { s with fw := { s.fw with selftested := true, act := 6 } }
      .next (if s.var 0x0C01 == 1 then s1.confirmImage else s1)

/-- CONFIRMATION_WINDOW_EXPIRE (R444). -/
def execConfirmationWindowExpire (s : State) : Host.Outcome State Fault Refusal :=
  match s.fw.awaitSince with
  | none => .next s
  | some t => if t + ms 600000 ≤ s.clock then .next (s.startFallback 1) else .next s

/-- FW_ABORT (R195, R440, R443, R448). -/
def execFwAbort (c : Nat) (s : State) : Host.Outcome State Fault Refusal :=
  .next (s.adminRow c 0x43 false (·.only 0 0 false false) (fun _ =>
    if s.fw.act == 7 then s.endStatus c .notFound
    else if 3 ≤ s.fw.act then (s.startFallback 3).endStatus c .done
    else if s.fw.programming.isSome then
      ({ s with fw := { s.fw with programming := none, staging := none, act := 0 } } : State).endStatus c .done
    else if s.fw.staging.isSome || (s.fwSlot (1 - s.fw.active)).st == 1 then
      let s1 := s.updInactive (fun f => if f.st == 1 then { f with st := 0 } else f)
      ({ s1 with fw := { s1.fw with staging := none, act := 0 } } : State).endStatus c .done
    else s.endStatus c .notFound))

/-! ### Restart activation (R447) -/

/-- RESTART_ACTIVATION (R447): the commands accepted before have ended, and the flush starts from the main supply. -/
def execRestartActivation (s : State) : Host.Outcome State Fault Refusal :=
  if s.fw.restarting && s.modes.flush.isNone && s.net.ctxs.isEmpty && s.supply.mainOn then
    let s1 := s.abandonForwards
    let f : Flush := { trigger := 0, phase := 3, since := s.clock, energyCj := 0, dirtyMiB := 0 }
    .next { s1 with relay := { s1.relay with slots := [] }, modes := { s1.modes with flush := some f } }
  else .next s

/-- ACTIVATION_FLUSH_COMPLETE (R447, R448): the module restarts into the activated image, on this one start, or into the confirmed
image. -/
def execActivationFlushComplete (s : State) : Host.Outcome State Fault Refusal :=
  match s.modes.flush with
  | none => .next s
  | some f =>
    if f.trigger == 0 then
      let s1 := ((s.flushAll f).1.recordMode.mainOff.changeMode .dormant)
      let s2 : State := { s1 with fw := { s1.fw with bootNew := s.fw.act == 3, restarting := false }, modes := { s1.modes with markFound := none } }
      .next s2.saveSettings.beginFilling
    else .next s

/-! ### Failures (R449) -/

/-- The activation is abandoned before its handover: the slot stays staged (R449). -/
def State.abandonActivation (s : State) : State :=
  let s1 : State := { s with fw := { s.fw with act := 0, copying := false, freeze := none, byRestart := false, restarting := false, lastReason := 5,
                                               fallbacks := s.fw.fallbacks + 1 } }
  let s2 := s1.fwState 8 5 s.newVersion
  { s2 with fw := { s2.fw with doneAt := 0 } }

/-- STANDBY_FAIL (R449): the standby complex fails. Before the handover the activation is abandoned; after it a later fallback is
made by restart; a standby that cannot be restarted leaves single-complex operation (R57). -/
def execStandbyFail (restartable : Bool) (s : State) : Host.Outcome State Fault Refusal :=
  let s1 : State := { s with spares := { s.spares with standbyLost := s.spares.standbyLost || !restartable } }
  if s.fw.act == 3 && !s.fw.byRestart then .next s1.abandonActivation.watch
  else if s.fw.act == 7 && s.handingOver then
    .next ({ s1 with fw := { s1.fw with copying := false, freeze := none, byRestart := true, restarting := true, reload := [], standbyOld := false } } : State).watch
  else .next ({ s1 with fw := { s1.fw with standbyOld := false } } : State).watch

end Sys2Proof.Machine
end

