-- ==== Sys2Proof/Machine/Integrity.lean ====
section
/-! DEFINITION. Islands that are retired or fail (R57, R58, R71, R72, R95), memory errors (R405–R410), the progress monitor
(R92–R94) and the reload of islands (R442). -/

namespace Sys2Proof.Machine

/-! ### Commands held in what failed (R58) -/

/-- Ends a command as R58 gives for one held in an island that failed uncorrectably: a mutation past its commit point DONE,
everything else DEVICE_FAULT. -/
def State.deviceEnd (s : State) (c : Nat) : State :=
  match s.ctx? c with
  | none => s
  | some x => if x.committed then s.endCmd c { x.reply with status := .done } else s.endStatus c .deviceFault

/-- A failure that the self-test of a new image counts against it: a code trap, an island failure or an overrun (R444). -/
def State.selftestFault (s : State) : State := if s.fw.act == 5 then s.startFallback 2 else s

/-! ### Roles and spares (R57, R58, R72) -/

/-- The role an island holds; none for an unused spare and for an island that is retired. -/
def State.roleOf (s : State) (island : Nat) : Option Nat :=
  match s.spares.roles.find? (·.2 == island) with
  | some r => some r.1
  | none => if s.spares.roles.any (·.1 == island) || s.spares.unused.contains island || s.spares.retired.contains island || 262 < island then none
    else some island

/-- A spare takes a role, and its island is never used again (R58, R72). -/
def State.bringIn (s : State) (role cls spare : Nat) : State :=
  let old := s.holder role
  ({ s with spares := { s.spares with roles := setKey s.spares.roles role spare, unused := s.spares.unused.filter (· != spare),
                                      retired := s.spares.retired ++ [old] } } : State).spareNotice cls spare

/-- An island is no longer used and nothing takes its role. -/
def State.loseRole (s : State) (role : Nat) : State :=
  { s with spares := { s.spares with lostRoles := s.spares.lostRoles ++ [role], retired := s.spares.retired ++ [s.holder role] } }

/-- The logical pipeline of a lost role goes; a fence that held it takes one of the commons' (R57, R344). -/
def State.losePipe (s : State) (n : Nat) : State :=
  match s.cipher.pipes.find? (·.n == n) with
  | none => s
  | some p =>
    let s1 : State := { s with cipher := { s.cipher with pipes := s.cipher.pipes.filter (·.n != n) } }
    let s2 := if p.owner == 0 then s1 else s1.movePipes p.owner (s.owner p.owner).pipes
    (p.running.toList ++ p.suspended).foldl (fun t j => match j.of' with
      | .cmd _ => t
      | _ => t.jobArrive { j with since := t.clock }) s2

/-- The jobs of a failed pipeline island: its commands' jobs are lost with the commands, the others run again. -/
def State.failPipe (s : State) (n : Nat) : State :=
  match s.cipher.pipes.find? (·.n == n) with
  | none => s
  | some p =>
    let all := p.running.toList ++ p.suspended
    let s1 := s.setPipe { p with running := none, suspended := [] }
    all.foldl (fun t j => match j.of' with
      | .cmd c => t.deviceEnd c
      | _ => t.jobArrive { j with since := t.clock }) s1

/-- The lines of a failed lookup slice: the homes forget it, what it had modified being recovered from the logs (R409). -/
def State.failSlice (s : State) (slice : Nat) : State :=
  let c := s.coh
  let mine := c.lines.filter (·.slice == slice)
  let c1 : Coherence := { c with
    lines := c.lines.filter (·.slice != slice)
    dram := (mine.filter (·.st == .m)).foldl (fun d l => setKey d l.bucket l.ver) c.dram
    txs := (c.txs.filter (·.slice != slice)).map (fun t => { t with snoops := t.snoops.filter (· != slice) })
    snooped := c.snooped.filter (·.1 != slice) }
  let c2 := mine.foldl (fun d l =>
    let h := d.holders l.bucket
    d.setHolders l.bucket (h.1.filter (· != slice)) (h.2.filter (· != slice))) c1
  s.homes c2

/-- The rows of a failed Quince bank: they are empty, and the pin table re-enters its pinned keys (R251, R256). -/
def State.failBank (s : State) (bank : Nat) : State :=
  let s1 : State := { s with quince := { s.quince with rows := s.quince.rows.filter (·.bank != bank),
                                                       updates := s.quince.updates.filter (·.bank != bank) } }
  (s1.store.entries.filter (fun e => e.pinned && qBank e.fp == bank)).foldl State.enterWays s1

/-- What the failure of an island does to the work in it, beside the commands it holds. -/
def State.failWork (s : State) (role : Nat) : State :=
  if 42 ≤ role && role ≤ 57 then s.failSlice (role - 42)
  else if 59 ≤ role && role ≤ 62 then s.failBank (role - 59)
  else if 137 ≤ role && role ≤ 144 then s.failPipe (role - 137)
  else s

/-- A failure with no spare of its class left (R57): foreground classes freeze the module. -/
def State.noSpare (s : State) (cls role : Nat) : State :=
  let s1 := s.loseRole role
  if cls ≤ 7 then s1.freeze .spareIsland else if cls == 8 then s1.losePipe (role - 137) else s1

/-- An island of a class with spares fails (R58). -/
def State.failClass (s : State) (c : Nat × Nat × Nat × List Nat) (role : Nat) : State :=
  let s1 := s.failWork role
  match (s1.sparesOf c).head? with
  | some sp => s1.bringIn role c.1 sp
  | none => s1.noSpare c.1 role

/-- The links that a lane island carries, or that a port MAC island serves, go down (R71, R98). -/
def State.failLinks (s : State) (role : Nat) : State :=
  let lanes : BitVec 8 := if role < 8 then BitVec.ofNat 8 (2 ^ role) else 0
  let hit (n : Nat) : Bool := if role < 8 then (s.link n).lanes &&& lanes != 0 else isPortB n == (role == 9)
  ((List.range 8).filter hit).foldl (fun t n => t.takeDown n lanes) s

/-- The forwards of a failed relay island fault: the forwards of a key run on island 231 + FP[7] (R71, R379). Reason 4 is this
model's choice (log entry 24). -/
def State.failRelay (s : State) (role : Nat) : State :=
  (s.relay.slots.filter (fun r => r.stamp != 0 && 231 + bits r.fp.toNat 7 7 == role)).foldl (fun t r => t.relayFault r 4) s

/-- A flash channel without its island: its dies answer no more, and reads rebuild their pages (R71, R304). -/
def State.failChannel (s : State) (ch : Nat) : State :=
  let all := (List.range 16).map (fun p => (ch, p))
  { s with spares := { s.spares with deadDies := s.spares.deadDies ++ all.filter (fun d => !s.spares.deadDies.contains d) } }

/-- Is the island of the active execution complex? -/
def State.inActive (s : State) (island : Nat) : Bool :=
  if s.fw.complexB then 238 ≤ island && island ≤ 242 else 233 ≤ island && island ≤ 237

/-- Is the island of the standby execution complex? -/
def State.inStandby (s : State) (island : Nat) : Bool := 233 ≤ island && island ≤ 242 && !s.inActive island

/-- The active complex fails: the watchdog restarts the module (R449). During the state copy the slot stays staged. -/
def State.activeFails (s : State) (island : Nat) : State :=
  let s1 : State := if s.fw.act == 3 && !s.fw.byRestart then { s with fw := { s.fw with abandoned := some (8, 5) } } else s
  s1.restart island 5

/-- The standby complex fails (R449, R57). -/
def State.standbyFails (s : State) (restartable : Bool) : State :=
  match execStandbyFail restartable s with
  | .next t => t
  | _ => s

/-- An island without a spare fails (R71, R96). -/
def State.failSingle (s : State) (role : Nat) : State :=
  if role < 10 then (s.failLinks role).loseRole role
  else if 247 ≤ role || role == 229 || role == 230 then s.restart role 6
  else if s.inActive role then s.activeFails role
  else if s.inStandby role then s.standbyFails false
  else if role == 243 then (s.flushLogs).startFault 4 243
  else if role == 231 || role == 232 then (s.failRelay role).loseRole role
  else if 181 ≤ role && role ≤ 212 then (s.failChannel (role - 181)).loseRole role
  else s.loseRole role

/-- An island fails uncorrectably (R58): it is counted, the commands it holds end, and a spare takes its role. -/
def State.failIsland (s : State) (island : Nat) (held : List Nat) : State :=
  if s.spares.retired.contains island || 262 < island then s
  else
    let s1 := held.foldl State.deviceEnd { s with counts := { s.counts with islandsFailed := s.counts.islandsFailed + 1 } }
    match s1.roleOf island with
    | none => { s1 with spares := { s1.spares with unused := s1.spares.unused.filter (· != island), retired := s1.spares.retired ++ [island] } }
    | some role =>
      match classOf role with
      | some c => s1.failClass c role
      | none => s1.failSingle role

/-- Does the failure of that island restart the module (R96)? -/
def State.failureRestarts (s : State) (island : Nat) : Bool :=
  247 ≤ island || island == 229 || island == 230 || s.inActive island

/-- ISLAND_FAIL (R58): an island with supply fails uncorrectably. The management island runs on P3V3_AUX. -/
def execIslandFail (island : Nat) (held : List Nat) (s : State) : Host.Outcome State Fault Refusal :=
  if s.supply.mainOn || (island == 243 && s.supply.auxInRange) then .next (s.failIsland island held).selftestFault.relaySettle else .next s

/-- The count of an SRAM bank (R405). -/
def State.bankCount (s : State) (island bank : Nat) : Nat :=
  ((s.spares.ceCounts.find? (fun c => c.1 == (island, bank))).map (·.2)).getD 0

/-- ISLAND_RETIRE (R58, R406): a bank has reached CE_WORD_LIMIT. With a spare left the island's state and role move to it;
otherwise the bank's count starts again. Corrections since the last CE_DECAY are counted here. -/
def execIslandRetire (island bank : Nat) (s : State) : Host.Outcome State Fault Refusal :=
  if !s.supply.mainOn then .next s
  else match s.roleOf island with
    | none => .next s
    | some role =>
      let more := s.var 0x0A01 - s.bankCount island bank
      let s1 : State := { s with
        counts := { s.counts with sramCorrected := s.counts.sramCorrected + more }
        spares := { s.spares with ceCounts := s.spares.ceCounts.filter (fun c => c.1 != (island, bank)) } }
      let spare := (classOf role).bind (fun c => ((s.sparesOf c).head?).map (fun sp => (c.1, sp)))
      match spare with
      | some (cls, sp) =>
        let s2 := s1.logEvent 0x0A02 (pack [(9, island), (6, bank), (1, 1), (9, sp), (231, 0)])
        .next (({ s2 with counts := { s2.counts with islandsRetired := s2.counts.islandsRetired + 1 } } : State).bringIn role cls sp).watch
      | none => .next (s1.logEvent 0x0A02 (pack [(9, island), (6, bank), (1, 0), (9, 0), (231, 0)]))

/-- TRUNK_LINK_FAIL (R95): the first link lost on a trunk is replaced by its spare; a further one leaves the trunk narrower. -/
def execTrunkLinkFail (hub dir : Nat) (s : State) : Host.Outcome State Fault Refusal :=
  if !s.supply.mainOn then .next s
  else if s.spares.trunkSpares.contains (hub, dir) then
    .next { s with spares := { s.spares with trunkShort := s.spares.trunkShort ++ [(hub, dir)] } }
  else .next ({ s with spares := { s.spares with trunkSpares := s.spares.trunkSpares ++ [(hub, dir)] } } : State).watch

/-! ### DRAM rows (R407) -/

/-- Spare rows used on a DRAM channel. -/
def State.rowsUsedOn (s : State) (ch : Nat) : Nat := getKey s.spares.rowsUsed ch 0

/-- Copies a DRAM row into a spare row (R407); cause 1 correctable limit, 2 uncorrectable error. The last row used up freezes the
module. -/
def State.spareRow (s : State) (ch row cause : Nat) : State :=
  let used := s.rowsUsedOn ch
  if 512 ≤ used then s.freeze .spareDram
  else
    let s1 : State := { s with spares := { s.spares with
      rowsUsed := setKey s.spares.rowsUsed ch (used + 1), sparedRows := s.spares.sparedRows ++ [(ch, row)]
      ceRows := s.spares.ceRows.filter (fun c => c.1 != (ch, row)) } }
    let s2 := s1.logEvent 0x0A03 (pack [(8, ch), (24, row), (8, cause), (16, 511 - used), (200, 0)])
    if used == 511 then s2.freeze .spareDram else s2

/-! ### Correctable errors (R405) -/

/-- A count raised. -/
def addCount (l : List ((Nat × Nat) × Nat)) (e : Nat × Nat × Nat) : List ((Nat × Nat) × Nat) :=
  let n := ((l.find? (fun c => c.1 == (e.1, e.2.1))).map (·.2)).getD 0
  ((e.1, e.2.1), n + e.2.2) :: l.filter (fun c => c.1 != (e.1, e.2.1))

/-- Every count falls by 1, down to 0. -/
def decayed (l : List ((Nat × Nat) × Nat)) : List ((Nat × Nat) × Nat) :=
  (l.map (fun c => (c.1, c.2 - 1))).filter (fun c => c.2 != 0)

/-- CE_DECAY (R405, R407): `sram` and `dram` are the corrections counted since the last one, by island and bank, and by channel and
row. DRAM rows that have reached DRAM_ROW_CE_LIMIT are spared; then every count falls by 1. -/
def execCeDecay (sram dram : List (Nat × Nat × Nat)) (s : State) : Host.Outcome State Fault Refusal :=
  if !s.supply.mainOn then .next s
  else
    let sum (l : List (Nat × Nat × Nat)) : Nat := (l.map (·.2.2)).sum
    let s1 : State := { s with
      counts := { s.counts with sramCorrected := s.counts.sramCorrected + sum sram, dramCorrected := s.counts.dramCorrected + sum dram }
      spares := { s.spares with ceCounts := sram.foldl addCount s.spares.ceCounts, ceRows := dram.foldl addCount s.spares.ceRows } }
    let full := s1.spares.ceRows.filter (fun c => s.var 0x0A03 ≤ c.2)
    let s2 := full.foldl (fun t c => t.spareRow c.1.1 c.1.2 1) s1
    .next ({ s2 with spares := { s2.spares with ceCounts := decayed s2.spares.ceCounts, ceRows := decayed s2.spares.ceRows } } : State).watch

/-! ### Uncorrectable errors (R408, R409) -/

/-- Does UE_POLICY_B choose policy B for reads that an island issues (R408, R414)? -/
def State.policyB (s : State) (asker : Nat) : Bool :=
  let v := s.var 0x0A04
  if 10 ≤ asker && asker ≤ 27 then bit v 0 else if 28 ≤ asker && asker ≤ 36 then bit v 1
  else if 42 ≤ asker && asker ≤ 58 then bit v 2 else if 132 ≤ asker && asker ≤ 136 then bit v 3
  else if 147 ≤ asker && asker ≤ 180 then bit v 4 else false

/-- Is the memory of the site SRAM? -/
def inSram : UeWhere → Bool
  | .islandState _ => true
  | .bufferCell _ => true
  | _ => false

/-- The memory code of UE_FOUND (R413). -/
def ueMemory (flit : Bool) : UeWhere → Nat
  | .islandState _ => if flit then 4 else 0
  | .bufferCell _ => if flit then 4 else 2
  | _ => if flit then 4 else 3

/-- The count of the error and its record (R412, R413). -/
def State.ueRecord (s : State) (island memory outcome addr : Nat) (b sram : Bool) : State :=
  ({ s with counts := { s.counts with
      lastUeIsland := island
      sramUe := s.counts.sramUe + b1 sram
      dramUe := s.counts.dramUe + b1 (!sram) } } : State).logEvent 0x0A01
    (pack [(9, island), (3, memory), (4, outcome), (1, b1 b), (64, addr), (175, 0)])

/-- One repair has completed (R412). -/
def State.repaired (s : State) : State := { s with counts := { s.counts with repairs := s.counts.repairs + 1 } }

/-- Does a slice hold the line of a bucket (R241)? -/
def State.sliceHolds (s : State) (unit : Nat) : Bool :=
  s.coh.lines.any (fun l => l.bucket == unit && (l.st == .s || l.st == .e || l.st == .m))

/-- The outcome of an uncorrectable error, by its memory (R409). -/
def State.ueOutcome (s : State) (island : Nat) (b : Bool) : UeWhere → Nat
  | .islandState _ => if s.failureRestarts island then 4 else 3
  | .bufferCell _ => 2
  | .directory _ ctx => if b && ctx.isSome then 2 else 1
  | _ => 1

/-- The state after an uncorrectable error (R409): what is dropped, repaired, or repaired later. -/
def State.ueEffect (s : State) (island row : Nat) (b : Bool) : UeWhere → State
  | .islandState held => (s.failIsland island held).selftestFault
  | .bufferCell c => s.deviceEnd c
  | .directory unit ctx =>
    let s1 := if b then ctx.toList.foldl State.deviceEnd s else s
    if s.sliceHolds unit then (s1.spareRow (island - 213) row 2).repaired
    else { s1 with coh := { s1.coh with repairs := s1.coh.repairs ++ [(unit, island - 213, row)] } }
  | .valueCache loc => ((s.cacheDrop (· == loc)).spareRow (island - 213) row 2).repaired
  | .summaryCache _ => (s.spareRow (island - 213) row 2).repaired
  | .heat i => (({ s with store := { s.store with heat := s.store.heat.filter (fun h => h.1 != i) } } : State).spareRow (island - 213) row 2).repaired
  | .sieveBatch slot n =>
    (s.updSieve slot (fun v => if v.batches.any (·.num == n) then { v with lost := v.lost ++ [n] } else v)).spareRow (island - 213) row 2

/-- UE_FOUND (R408–R410, R413): a read by `asker` finds an uncorrectable error at an address of `island`. Under policy A its DMA
channel halts; under policy B it gets a bus-error marker. -/
def execUeFound (island asker addr row : Nat) (flit : Bool) (site : UeWhere) (s : State) : Host.Outcome State Fault Refusal :=
  if !s.supply.mainOn then .next s
  else
    let state : Bool := match site with
      | .islandState _ => true
      | _ => false
    let b := s.policyB asker && !state
    let s1 := s.ueRecord island (ueMemory flit site) (s.ueOutcome island b site) addr b (inSram site)
    let s2 : State := { s1 with counts := { s1.counts with
      dmaHalts := s1.counts.dmaHalts + b1 (!b && !state), busErrors := s1.counts.busErrors + b1 b } }
    .next (s2.ueEffect island row b site).relaySettle

/-- REPAIR_COMPLETE (R409): the unit is repaired, its row spared, and what waited for it goes on; a repair that cannot read its
sources restarts the module. -/
def execRepairComplete (unit : Nat) (readable : Bool) (s : State) : Host.Outcome State Fault Refusal :=
  match s.coh.repairs.find? (·.1 == unit) with
  | none => .next s
  | some r =>
    let s1 : State := { s with coh := { s.coh with repairs := s.coh.repairs.filter (·.1 != unit) } }
    if readable then
      let s2 := (s1.spareRow r.2.1 r.2.2 2).repaired
      .next (s2.homes s2.coh).settle
    else .next (s1.restart (213 + r.2.1) 6)

/-! ### Code traps (R410) -/

/-- CODE_TRAP (R410): the core halts and its bank is reloaded; a second trap at the address within 1 s is a failure of the island; a
trap of the active complex or the management island restarts the module. -/
def execCodeTrap (island addr : Nat) (held : List Nat) (s : State) : Host.Outcome State Fault Refusal :=
  if !s.supply.mainOn || s.spares.retired.contains island || 262 < island then .next s
  else
    let restarts := s.inActive island || island == 243
    let again := s.spares.traps.any (fun t => t.1 == (island, addr) && s.clock < t.2 + sec 1)
    let s1 : State := { s with counts := { s.counts with codeTraps := s.counts.codeTraps + 1 } }
    let s2 := s1.ueRecord island 1 (if restarts then 4 else if again then 3 else 1) addr false true
    let s3 : State := { s2 with spares := { s2.spares with traps := ((island, addr), s.clock) :: s2.spares.traps.filter (fun t => t.1 != (island, addr)) } }
    if s.inActive island then .next (s3.activeFails island)
    else if island == 243 then .next (s3.restart 243 6)
    else if again then .next (s3.failIsland island held).selftestFault.relaySettle
    else
      let s4 : State := { s3 with spares := { s3.spares with trapped := setKey s3.spares.trapped island s.clock } }
      if s.inStandby island && s.handingOver then .next (s4.standbyFails true) else .next s4.selftestFault

/-- CODE_BANK_RELOADED (R410): the bank passes its tag check and the core resumes. -/
def execCodeBankReloaded (island : Nat) (s : State) : Host.Outcome State Fault Refusal :=
  .next { s with spares := { s.spares with trapped := s.spares.trapped.filter (fun t => t.1 != island) } }

/-! ### The progress monitor (R92–R94) -/

/-- The session island that monitors a context: eight roles, by session number (log entry 25). -/
def monitorRole (x : Ctx) : Nat := 28 + x.session.getD 0 % 8

/-- Internal work of a command so far, in ns (R88, R92). -/
def State.workOf (s : State) (x : Ctx) : Nat :=
  match x.runSince with
  | some t => x.work + (s.clock - t)
  | none => x.work

/-- The highest step of R83 at which a command holds a resource. -/
def Ctx.stepHeld (x : Ctx) : Nat :=
  match x.phase with
  | .reading => 7
  | .programming => 7
  | .opening => 6
  | .sealing => 6
  | .locking => 3
  | .waiting => 4
  | .spaceWait => 4
  | .relayWait => 4
  | .ready => if x.outCells == 0 then 4 else 7
  | _ => if x.ksTokens then 3 else if x.cells == 0 then 1 else 2

/-- The overrun record (R94). -/
def State.overrunBody (s : State) (island : Nat) (x : Ctx) : Bytes :=
  let elapsed := (s.clock - x.admitted) / 1000
  let work := s.workOf x / 1000
  pack [(9, island), (4, x.stepHeld), (17, if x.mailbox then 0 else x.session.getD 0), (5, x.tag), (8, x.opcode), (12, x.keyspace),
    (8, if x.committed then 0 else 0x21), (1, b1 x.committed), (32, sat 32 elapsed), (1, b1 x.mailbox), (31, sat 31 (elapsed - work))]

/-- A command that has overrun (R93). -/
def State.overrun (s : State) (island : Nat) (x : Ctx) : State :=
  let s1 := (s.deviceEnd x.id).logEvent 0x0001 (s.overrunBody island x)
  { s1 with counts := { s1.counts with overruns := s1.counts.overruns + 1 } }

/-- PROGRESS_SCAN (R92, R93): a session island examines its contexts; those at 4 s of internal work have overrun. -/
def execProgressScan (island : Nat) (s : State) : Host.Outcome State Fault Refusal :=
  let late := s.net.ctxs.filter (fun x => s.holder (monitorRole x) == island && sec 4 ≤ s.workOf x)
  if !s.supply.mainOn || late.isEmpty then .next s
  else .next (late.foldl (fun t x => t.overrun island x) s).selftestFault.relaySettle

/-! ### Reloading islands (R442) -/

/-- ISLAND_RELOAD (R442, R449): FW_RELOAD_GAP_MS after the last one, the next role in order is loaded. An island that fails to load
is handled as failed, and an activation falls back. -/
def execIslandReload (island : Nat) (ok : Bool) (s : State) : Host.Outcome State Fault Refusal :=
  match s.fw.reload with
  | [] => .next s
  | role :: rest =>
    let waits := 181 ≤ role && role ≤ 212 && 2 ≤ s.spares.rebuilding.length
    if !(s.fw.act == 4 || s.fw.act == 7) || island != s.loadTarget role || s.clock < s.fw.lastReload + ms (s.var 0x0C03) || waits then .next s
    else
      let done (t : State) : State := { t with fw := { t.fw with reload := rest, reloaded := t.fw.reloaded + 1, lastReload := t.clock } }
      if ok then .next (done (s.rotateRole role)).reloadEnd
      else
        let s1 := s.failIsland island []
        if s.fw.act == 4 then .next (s1.startFallback 4).relaySettle
        else .next (if rotates role && (s1.rotationSpare role).isSome then s1 else done s1).relaySettle

end Sys2Proof.Machine
end

