-- ==== Sys2Proof/Machine/Leds.lean ====
section
/-! DEFINITION. What the module shows without being asked: the port LEDs (R23), the two module LEDs (R37, R38) and the
bits of a trace record (R467, R468). Each is a function of the state; no command reads one. -/

namespace Sys2Proof.Machine

/-- What a LED does. Blinks are at 50 % duty. -/
inductive LedShow where
  | off | amberBlink1Hz | amberSteady | alternating1Hz | greenBlink4Hz | greenSteady
  | blinkHalfHz | blink4Hz | steady | doubleFlash | flashEvery2s
  deriving DecidableEq, Repr, Inhabited

/-- Has the port received or sent a frame within the last 100 ms (R23)? -/
def State.portActive (s : State) (portB : Bool) : Bool :=
  let a := if portB then s.ports.activeB else s.ports.activeA
  a != 0 && s.clock ≤ a + ms 100

/-- A port LED of a front-cabled part (R23): the first condition that holds. -/
def State.portLed (s : State) (portB : Bool) : LedShow :=
  let c := s.cage portB
  let used := (portLinks portB).filter (fun l => s.fullLanes l != 0)
  let up := used.filter (fun l => (s.link l).up)
  if c.present && c.refuse != 0 then .amberBlink1Hz
  else if s.format portB == 0 || !c.present then .off
  else if up.isEmpty then .amberSteady
  else if up.any (fun l => (s.link l).degraded) || up.length < used.length then .alternating1Hz
  else if s.portActive portB then .greenBlink4Hz else .greenSteady

/-- The green module LED (R37). -/
def State.greenLed (s : State) : LedShow :=
  if !s.supply.auxInRange || s.modes.startFault then .off
  else match s.modes.mode with
    | .dormant => .blinkHalfHz
    | .filling => .blink4Hz
    | .serving => .steady
    | .frozen => .steady
    | .shadowing => .doubleFlash
    | .sanitising => .flashEvery2s

/-- The amber module LED (R38): the first condition that holds. -/
def State.amberLed (s : State) : LedShow :=
  if !s.supply.auxInRange then .off
  else if s.modes.startFault then .blink4Hz
  else if s.supply.erasedLocked then .doubleFlash
  else if s.modes.mode == .frozen then .steady
  else if (s.mark 5).level then .blinkHalfHz else .off

/-- The 128 bits of a trace record (R468). -/
def TraceRec.word (r : TraceRec) : BitVec 128 :=
  BitVec.ofNat 128 (r.kind * 2 ^ 124 + r.island % 2 ^ 9 * 2 ^ 115 + (if r.wake then 2 ^ 114 else 0) + r.time % 2 ^ 48 * 2 ^ 64 + r.payload.toNat)

/-- The nibbles of a record in the order they leave TRACE_D3..TRACE_D0, the most significant first (R467). -/
def TraceRec.nibbles (r : TraceRec) : List (BitVec 4) :=
  (List.range 32).map (fun i => BitVec.ofNat 4 (r.word.toNat / 2 ^ (4 * (31 - i))))

end Sys2Proof.Machine
end

