-- ==== Sys2Proof/Machine/Power.lean ====
section
/-! DEFINITION. Power states (R415–R419), temperature (R320, R420, R421) and the hold-up bank (R426–R428). -/

namespace Sys2Proof.Machine

/-! ### Power states (R416–R418) -/

/-- Foreground activity that lasts: an accepted command, an open assembly, a reply or notice that awaits its acknowledgement, a
mailbox command (R416). -/
def State.foregroundNow (s : State) : Bool := !s.net.ctxs.isEmpty || !s.net.kept.isEmpty || s.sb.mb == .busy

/-- Background activity, which keeps the module out of P2 and P3 (R287, R416). -/
def State.backgroundNow (s : State) : Bool :=
  s.owners.any (fun o => 2 ≤ o.gc) || s.cipher.pages.any (·.sweep.isSome) || s.relay.pairs.any (·.running) || !s.relay.slots.isEmpty
    || !s.spares.rebuilding.isEmpty || !s.store.eraseSets.isEmpty || s.sieves.list.any (fun v => !v.ended && v.batches.length < 2)

/-- The idle time after which a state is entered, in ns (R417, R432). -/
def State.idleTime (s : State) (target : Nat) : Nat :=
  if target == 1 then us (s.var 0x0B02) else if target == 2 then ms (s.var 0x0B03) else sec (s.var 0x0B04)

/-- May the idle timers enter a state now (R415, R417, R421)? Each state is entered from the one above it. -/
def State.mayIdle (s : State) (target : Nat) : Bool :=
  1 ≤ target && target ≤ 3 && target ≤ s.var 0x0B01 && s.modes.mode == .serving && s.power.st + 1 == target && s.power.exiting.isNone
    && s.thermal.stage != 2 && !s.foregroundNow && s.power.lastFg + s.idleTime target ≤ s.clock && (target == 1 || !s.backgroundNow)

/-- IDLE_TIMER (R417): the module enters P1 or P2, or prepares for P3: the log buffers and running parity are programmed, and with
every dirty chunk written it enters P3. -/
def execIdleTimer (target : Nat) (s : State) : Host.Outcome State Fault Refusal :=
  if !s.mayIdle target then .next s
  else if target == 3 then
    let s1 := s.flushLogs.closeParity
    if s1.store.dirty.isEmpty then .next (s1.deepen 3)
    else .next { s1 with power := { s1.power with preparing := true } }
  else .next (s.deepen target)

/-- The exit latency of a state in ns (R415). -/
def exitLatency (st : Nat) : Nat := if st == 1 then us 3 else if st == 2 then us 250 else us 6000

/-- POWER_EXIT_COMPLETE (R418, R419): the exit has taken its latency. One that a lower POWER_DEEPEST alone began ends at that state. -/
def execPowerExitComplete (s : State) : Host.Outcome State Fault Refusal :=
  match s.power.exiting with
  | none => .next s
  | some (st, t) =>
    if s.clock < t + exitLatency st then .next s
    else .next (s.shallower (if s.power.lastFg < t && s.power.st == st then min (st - 1) (s.var 0x0B01) else 0))

/-- DRAM_SELF_REFRESH (R415): in P2 a channel without an access for 10 µs enters self-refresh. -/
def execDramSelfRefresh (channel : Nat) (s : State) : Host.Outcome State Fault Refusal :=
  if s.power.st == 2 && s.power.exiting.isNone && channel < 16 then
    .next { s with power := { s.power with refreshed := s.power.refreshed ||| BitVec.ofNat 16 (2 ^ channel) } }
  else .next s

/-! ### Temperature (R320, R420, R421) -/

/-- The stage limits of R420, by sensor in the order of R40: stage 1 and stage 2. -/
def stageLimits : List (Nat × Int × Int) :=
  [(2, 105, 115), (3, 75, 85), (4, 75, 85), (5, 75, 85), (6, 75, 85), (7, 90, 100), (8, 70, 80), (9, 115, 120)]

/-- The limit of a stage. -/
def limitOf (l : Nat × Int × Int) (stage : Nat) : Int := if stage ≤ 1 then l.2.1 else l.2.2

/-- A reading as the stages take it: a failed sensor counts as its stage 1 limit (R464). -/
def State.stageReading (s : State) (l : Nat × Int × Int) : Int :=
  if s.sb.failed.any (·.1 == l.1) then l.2.1 else s.thermal.readings.getD l.1 0

/-- Has any sensor reached its limit for the stage? -/
def State.stageReached (s : State) (stage : Nat) : Bool := stageLimits.any (fun l => limitOf l stage ≤ s.stageReading l)

/-- Is every sensor TEMP_HYST_C below its limit for the stage? -/
def State.stageCleared (s : State) (stage : Nat) : Bool :=
  stageLimits.all (fun l => s.stageReading l ≤ limitOf l stage - (s.var 0x0B07 : Int))

/-- The throttle stage that follows (R421): the highest stage reached, or the present one until it clears. -/
def State.nextStage (s : State) : Nat :=
  let top := if s.stageReached 2 then 2 else if s.stageReached 1 then 1 else 0
  let now := s.thermal.stage
  if now < top then top
  else if now == 2 then (if s.stageCleared 2 then (if s.stageCleared 1 then 0 else 1) else 2)
  else if now == 1 then (if s.stageCleared 1 then 0 else 1) else 0

/-- The sensor nearest to, or furthest above, its limit for a stage (log entry 26). -/
def State.hottest (s : State) (stage : Nat) : Nat :=
  let excess (l : Nat × Int × Int) : Int := s.stageReading l - limitOf l stage
  (stageLimits.foldl (fun a l => if excess a < excess l then l else a) (stageLimits.getD 0 default)).1

/-- The throttle stage follows the readings (R421): a change is recorded and alerts; stage 2 keeps the module in P0, and what it paused
goes on after it. -/
def State.throttle (s : State) : State :=
  let n := s.nextStage
  if n == s.thermal.stage then s
  else
    let i := s.hottest (max n 1)
    let s0 := s.settleScan
    let s1 : State := { s0 with thermal := { s0.thermal with stage := n } }
    let s2 := (s1.logEvent 0x0B03 (pack [(8, n), (8, i), (8, s.tempByte i), (232, 0)])).alert .thermal
    if n == 2 then s2.startExit
    else if s.thermal.stage == 2 then
      ((s2.relay.pairs.filter (·.running)).foldl (fun t p => t.pairRun 4 p.keyspace p.succ) s2).relaySettle
    else s2

/-- THERMAL_SAMPLE (R420, R421): the sensors are sampled while the main supply is on. -/
def execThermalSample (readings : List Int) (s : State) : Host.Outcome State Fault Refusal :=
  if s.supply.mainOn && readings.length == 10 then
    .next ({ s with thermal := { s.thermal with readings := readings } } : State).throttle.watch
  else .next s

/-- TEMPERATURE_HISTORY_SAMPLE (R320): once a minute with the main supply on. A failed sensor adds nothing. -/
def execTemperatureHistorySample (s : State) : Host.Outcome State Fault Refusal :=
  if !s.supply.mainOn then .next s
  else
    let t := s.thermal
    let ok (i : Nat) : Bool := !(s.sb.failed.any (·.1 == i))
    let zones := ([3, 4, 5, 6].filter ok).map (fun i => t.readings.getD i 0)
    let now := zones.foldl max (-128)
    let bin := if now < 0 then 0 else min 15 (now.toNat / 5)
    let mins := t.minutes + 1
    let best (i : Nat) : Int × Nat :=
      let old := t.maxima.getD i (0, 0)
      let r := t.readings.getD i 0
      if ok i && (old.2 == 0 || old.1 < r) then (r, mins) else old
    .next { s with thermal := { t with
      nandNow := now, minutes := mins, histogram := t.histogram.set bin (t.histogram.getD bin 0 + 1), maxima := (List.range 10).map best } }

/-! ### The hold-up bank (R426–R428) -/

/-- The spare section of the bank (log entry 27). -/
def spareSection : Nat := 7

/-- Is a section in service: one of 0-6 not replaced, or the spare in use? -/
def State.inService (s : State) (i : Nat) : Bool :=
  !(s.holdup.failed.getLsbD i) && (i != spareSection || s.holdup.spareInUse)

/-- A section fails (R428): an unused spare replaces one in service; with none, the module freezes. -/
def State.failSection (s : State) (i : Nat) : State :=
  if 8 ≤ i || s.holdup.failed.getLsbD i then s
  else
    let serving := s.inService i
    let s1 : State := { s with holdup := { s.holdup with failed := s.holdup.failed ||| BitVec.ofNat 8 (2 ^ i) } }
    if !serving then s1
    else if s1.holdup.spareInUse || s1.holdup.failed.getLsbD spareSection then s1.freeze .holdup
    else ({ s1 with holdup := { s1.holdup with spareInUse := true } } : State).spareNotice 13 spareSection

/-- SECTION_FAIL (R428): the continuous monitor finds a section failed. -/
def execSectionFail (sectionNo : Nat) (s : State) : Host.Outcome State Fault Refusal :=
  if s.supply.mainOn then .next (s.failSection sectionNo).watch else .next s

/-- HOLDUP_TEST_START (R427): HOLDUP_TEST_DAYS after the last test, or within 1 hour of a Filling that follows an interrupted one. -/
def execHoldupTestStart (s : State) : Host.Outcome State Fault Refusal :=
  if s.holdup.interrupted || s.holdup.lastTestAt + sec (86400 * s.var 0x0B05) ≤ s.clock then .next s.startTest else .next s

/-- The sections that a test finds failed (R428): below 60 % of rated capacitance, or above twice rated resistance. -/
def testFailed (r : BankTest) : List Nat :=
  (List.range 8).filter (fun i => r.capacitancePct.getD i 100 < 60 || 200 < r.resistancePct.getD i 100)

/-- HOLDUP_TEST (R427, R428, R431): a bank test ends; its time is kept with the settings. -/
def execHoldupTest (result : BankTest) (s : State) : Host.Outcome State Fault Refusal :=
  if s.holdup.testing.isNone then .next s
  else
    let passed := 1200 ≤ result.energyCj
    let s1 : State := { s with holdup := { s.holdup with
      testing := none, tested := true, lastTestAt := s.clock, lastPassed := passed, charged := passed, energyCj := result.energyCj
      health := (List.range 8).map (fun i => result.capacitancePct.getD i 100) } }
    let s2 := (testFailed result).foldl State.failSection s1
    let swapped := if s2.holdup.spareInUse && !s.holdup.spareInUse then spareSection else 0xFF
    let s3 := s2.logEvent 0x0B02 (pack [(1, b1 passed), (8, s2.holdup.failed.toNat), (16, sat 16 result.energyCj), (8, swapped), (223, 0)])
    .next ((if passed then s3 else s3.freeze .holdup).saveSettings).watch

end Sys2Proof.Machine
end

