-- ==== Sys2Proof/Machine/Media.lean ====
section
/-! DEFINITION. Background work on the media and the index: Quince updates and sweeps (R249, R255, R256), logs and checkpoints
(R260, R261), stripes, collection, folding, patrol and erases (R296, R300, R301, R307–R312), dies (R314) and the re-key sweep
(R358). -/

namespace Sys2Proof.Machine

/-! ### The Quince (R249, R255, R256) -/

/-- QUINCE_UPDATE (R249): the oldest queued update of a bank is written to its row and the row's shadow. -/
def execQuinceUpdate (bank : Nat) (s : State) : Host.Outcome State Fault Refusal :=
  match s.quince.updates.find? (·.bank == bank) with
  | none => .next s
  | some u =>
    let rows := { bank := u.bank, row := u.row, ways := u.ways, shadow := u.ways : QRow } :: s.quince.rows.filter (fun r => !(r.bank == u.bank && r.row == u.row))
    .next { s with quince := { s.quince with rows := rows, updates := s.quince.updates.erase u } }

/-- The reload of a row is counted and recorded (R256, R264). -/
def State.rowReload (s : State) (bank row : Nat) (cleared : Bool) : State :=
  ({ s with counts := { s.counts with quinceReloads := s.counts.quinceReloads + 1 } } : State).logEvent 0x0402
    (pack [(8, bank), (12, row), (1, b1 cleared), (235, 0)])

/-- QUINCE_SWEEP (R255, R256): a row is compared with its shadow. One that differs is reloaded from it; one whose shadow is
uncorrectable is cleared in both copies, and its pinned keys enter again. -/
def execQuinceSweep (bank row : Nat) (upset : Upset) (s : State) : Host.Outcome State Fault Refusal :=
  if !s.supply.mainOn || 4 ≤ bank || 4096 ≤ row then .next s
  else
    let here (r : QRow) : Bool := r.bank == bank && r.row == row
    let reload : State := { s with quince := { s.quince with rows := upd here (fun r => { r with ways := r.shadow }) s.quince.rows } }
    match upset with
    | .none => if s.quince.rows.any (fun r => here r && r.ways != r.shadow) then .next (reload.rowReload bank row false) else .next s
    | .way _ _ _ => .next (reload.rowReload bank row false)
    | .shadowUncorrectable _ =>
      let s1 : State := { s with quince := { s.quince with rows := s.quince.rows.filter (fun r => !here r) } }
      let s2 := (s1.store.entries.filter (fun e => e.pinned && qBank e.fp == bank && qRowOf e.fp == row)).foldl State.enterWays s1
      .next (s2.rowReload bank row true)

/-! ### Logs and checkpoints (R260, R261) -/

/-- LOG_FLUSH (R260): a part page that has had no further record for LOG_FLUSH_US is programmed. -/
def execLogFlush (logB : Bool) (s : State) : Host.Outcome State Fault Refusal :=
  let o := if logB then s.store.logB else s.store.logA
  if !s.supply.mainOn || o.buffer.isEmpty || s.clock < o.lastAt + us (s.var 0x0407) then .next s
  else if logB then .next { s with store := { s.store with logB := o.program } }
  else .next { s with store := { s.store with logA := o.program } }

/-- CHECKPOINT_WRITE (R261): the dirty chunk that became dirty first is written. -/
def execCheckpointWrite (s : State) : Host.Outcome State Fault Refusal :=
  match s.store.dirty with
  | [] => .next s
  | d :: _ => if s.supply.mainOn && !s.waltzing then .next (s.writeChunk d.1) else .next s

/-! ### Stripes and heat (R296, R300) -/

/-- STRIPE_IDLE_CLOSE (R300): a stripe without a program for 10 ms is padded and its parity is programmed; the space of the padding
stays unused. -/
def execStripeIdleClose (group : Nat) (s : State) : Host.Outcome State Fault Refusal :=
  match s.group? group with
  | none => .next s
  | some g =>
    if g.isOpen && g.parity && g.parityAt + ms 10 ≤ s.clock then
      .next (s.updGroup group (fun h => { h with written := 30 * ceilDiv h.written 30, parity := false }))
    else .next s

/-- HEAT_HALVING (R296). -/
def execHeatHalving (s : State) : Host.Outcome State Fault Refusal :=
  .next { s with store := { s.store with heat := (s.store.heat.map (fun h => (h.1, h.2 / 2))).filter (fun h => h.2 != 0) } }

/-! ### Garbage collection and folding (R301, R307, R308, R312, R327) -/

/-- Mapped records of a group. -/
def State.groupRecs (s : State) (n : Nat) : List Rec := s.store.recs.filter (fun r => r.group == n && s.mappedRec r)

/-- Valid bytes of a group. -/
def State.validBytes (s : State) (n : Nat) : Nat := ((s.groupRecs n).map Rec.length).sum

/-- Mean erase count of a group's die blocks, in thirds of a cycle, twice over. -/
def State.groupWear (s : State) (g : Group) : Nat := s.wearOf g.sets.1 g.blk + s.wearOf g.sets.2 g.blk

/-- The group of a list with the least measure; the first on a tie. -/
def leastGroup (f : Group → Nat) (gs : List Group) : Option Group :=
  gs.foldl (fun a g => match a with
    | none => some g
    | some b => if f g < f b then some g else some b) none

/-- Highest erase count of an owner's die blocks less the lowest, in thirds of a cycle (R312). -/
def State.wearSpread (s : State) (o : Nat) : Nat :=
  let sets := setsOf (s.owner o).held false ++ setsOf (s.owner o).held true
  let ws := (s.store.wear.filter (fun w => sets.contains w.1.1)).map (·.2)
  let low := if ws.length < 10923 * sets.length then 0 else ws.foldl min (ws.headD 0)
  ws.foldl max 0 - low

/-- Marks a group wear-pending where an owner's erase counts differ by more than WEAR_SPREAD cycles (R312). -/
def State.markWear (s : State) (o : Nat) : State :=
  let gs := s.store.groups.filter (fun g => g.owner == o && !g.isOpen)
  if gs.any (·.wear.isSome) || s.wearSpread o ≤ 3 * s.var 0x060E then s
  else match leastGroup s.groupWear gs with
    | some g => s.updGroup g.num (fun h => { h with wear := some s.clock })
    | none => s

/-- Groups of an owner that lie on a set being emptied for another owner (R327). -/
def State.onMoving (s : State) (o : Nat) : List Group :=
  s.store.groups.filter (fun g => g.owner == o && (setList s.movingSets).any g.onSet)

/-- Has GC of the owner pending work: marks, or sets to empty? -/
def State.gcPending (s : State) (o : Nat) : Bool :=
  s.store.groups.any (fun g => g.owner == o && (g.secure.isSome || g.refresh.isSome || g.wear.isSome)) || !(s.onMoving o).isEmpty

/-- Have the owner's dies had no partner operation for GC_IDLE_MS? -/
def State.diesIdle (s : State) (o : Nat) : Bool := (s.owner o).lastOp + ms (s.var 0x0605) ≤ s.clock

/-- gc_mode of R307. -/
def State.gcMode (s : State) (o : Nat) : Nat :=
  let f := s.freeBp o
  if f ≤ 100 * s.var 0x0602 then 3
  else if (s.owner o).gc == 3 && f < 100 * (s.var 0x0602 + s.var 0x0604) then 3
  else if f < 100 * s.var 0x0601 || s.gcPending o then 2
  else if s.diesIdle o then 1 else 0

/-- gc_victim of R307 (its mean erase count: that of the closed group with the lowest); sets to empty come after wear, lowest set
first. -/
def State.gcVictim (s : State) (o mode : Nat) : Option Group :=
  let gs := s.store.groups.filter (fun g => g.owner == o && !g.collecting)
  let by' (get : Group → Option Nat) : Option Group := leastGroup (fun g => (get g).getD 0) (gs.filter (fun g => (get g).isSome))
  match by' (·.secure), by' (·.refresh) with
  | some g, _ => some g
  | none, some g => some g
  | none, none =>
    if gs.any (·.wear.isSome) then leastGroup s.groupWear (gs.filter (!·.isOpen))
    else match leastGroup (fun g => (setList s.movingSets).findIdx g.onSet) ((s.onMoving o).filter (!·.collecting)) with
      | some g => some g
      | none =>
        let tlc := gs.filter (fun g => !g.isOpen && !g.slc)
        let least := leastGroup (fun g => s.validBytes g.num) tlc
        let first := least.bind (fun g => leastGroup (·.closedAt) (tlc.filter (fun h => s.validBytes h.num == s.validBytes g.num)))
        match first with
        | some g => if mode == 1 && 3 * tlcBytes < 4 * s.validBytes g.num then none else some g
        | none => none

/-- A group begins to be emptied; an open one closes. -/
def State.collect (s : State) (g : Group) : State :=
  (if g.isOpen then s.closeGroup g.num else s).updGroup g.num (fun h => { h with collecting := true })

/-- Is a group collected by GC, not by folding? -/
def Group.byGc (g : Group) : Bool := g.collecting && (!g.slc || g.secure.isSome || g.refresh.isSome || g.wear.isSome)

/-- The owner's GC takes its mode and, where it collects no group, its next victim (R307). In Frozen it runs only to provide space,
and for what is marked (R63). -/
def State.gcOwner (s : State) (o : Nat) : State :=
  let s1 := if s.modes.mode == .frozen then s else s.markWear o
  let m := s1.gcMode o
  let s2 := s1.updOwner o (fun w => { w with gc := m })
  let busy := s2.store.groups.any (fun g => g.owner == o && g.byGc)
  let runs := 2 ≤ m || (m == 1 && s2.power.st < 2 && s2.modes.mode != .frozen)
  if runs && !busy then
    match s2.gcVictim o m with
    | some g => s2.collect g
    | none => s2
  else s2

/-- Folding (R301): the SLC group of the owner that closed first is emptied where its occupancy calls for it. -/
def State.foldOwner (s : State) (o : Nat) : State :=
  let slc := s.store.groups.filter (fun g => g.owner == o && g.slc && !g.isOpen)
  let now := s.slcPct o
  let runs := s.modes.mode != .frozen && (s.var 0x0607 ≤ now || (s.diesIdle o && s.power.st < 2))
  if runs && !(slc.any (·.collecting)) then
    match leastGroup (·.closedAt) slc with
    | some g => s.collect g
    | none => s
  else s

/-- Moves one record of a group that is being emptied: the first whose MOVE is not yet taken (log entry 28). -/
def State.moveOne (s : State) (n : Nat) : State :=
  let kind : MoveKind := if (s.group? n).any (·.byGc) then .collect else .fold
  match (s.groupRecs n).find? (fun r => (s.lockOf (.move kind r.loc)).isNone) with
  | some r => s.moveNow kind r.loc
  | none => s

/-- May background work on the media run: the main supply is on, data is served, no flush runs, and no handover freezes the
schedulers (R423, R441)? -/
def State.backgroundRuns (s : State) : Bool :=
  s.supply.mainOn && s.modes.mode.service && s.modes.flush.isNone && s.fw.freeze.isNone

/-- GC_TICK (R301, R307, R308): each owner's GC and folding are decided, and each group being emptied moves on. -/
def execGcTick (s : State) : Host.Outcome State Fault Refusal :=
  if !s.backgroundRuns then .next s
  else
    let s1 := s.capacityOwners.foldl (fun t o => (t.gcOwner o).foldOwner o) s
    .next ((s1.store.groups.filter (·.collecting)).foldl (fun t g => t.moveOne g.num) s1).settle

/-- Does a group hold nothing that is still needed: it is being emptied, no record of it is mapped, no write in flight uses it, and
no read-hold is on it (R308)? -/
def State.erasable (s : State) (g : Group) : Bool :=
  !g.isOpen && g.collecting && (s.groupRecs g.num).isEmpty && !(s.net.ctxs.any (fun x => x.newGroup == g.num && x.newLoc != 0 && !x.committed))
    && !(s.store.recs.any (fun r => r.group == g.num && r.loc != 0 && s.isHeld r.loc))

/-- The erase count of a die block raised. -/
def addWear (l : List ((Nat × Nat) × Nat)) (set blk n : Nat) : List ((Nat × Nat) × Nat) :=
  ((set, blk), ((l.find? (fun w => w.1 == (set, blk))).map (·.2)).getD 0 + n) :: l.filter (fun w => w.1 != (set, blk))

/-- A group is erased (R301, R308, R312, R316): its records and cached values go, its blocks wear, its generation advances, and the
erase sets that named it lose it. -/
def State.eraseGroup (s : State) (g : Group) : State :=
  let n := if g.slc then 1 else 3
  let gone := (s.store.recs.filter (·.group == g.num)).map (·.loc)
  let s1 := s.cacheDrop (fun l => l != 0 && gone.contains l)
  { s1 with store := { s1.store with
    recs := s1.store.recs.filter (·.group != g.num), groups := s1.store.groups.filter (·.num != g.num)
    wear := addWear (addWear s1.store.wear g.sets.1 g.blk n) g.sets.2 g.blk n
    gens := setKey s1.store.gens g.num ((getKey s1.store.gens g.num 0 + 1) % 256)
    stale := s1.store.stale.filter (fun t => t.2.1 != g.num), mapLog := s1.store.mapLog + 1
    eraseSets := s1.store.eraseSets.map (fun e => { e with groups := e.groups.filter (· != g.num) }) } }

/-- ERASE_COMPLETE (R308, R313, R317): the erase of a group's die blocks completes; dies that refused it have the block retired.
Erase sets that are complete are reported, sets that have emptied pass (R327), and writes that wait for space go on (R306). -/
def execEraseComplete (group : Nat) (failed : List (Nat × Nat)) (s : State) : Host.Outcome State Fault Refusal :=
  match s.group? group with
  | none => .next s
  | some g =>
    if !s.supply.mainOn || s.waltzing || !s.erasable g then .next s
    else
      let s1 := s.eraseGroup g
      let s2 : State := { s1 with counts := { s1.counts with eraseFails := s1.counts.eraseFails + failed.length } }
      let s3 := failed.foldl (fun t d => t.retireBlock d.1 d.2 g 2) s2
      .next (s3.eraseSetsDone.passSets.retrySpace.settle)

/-! ### Patrol (R311) -/

/-- Does a page qualify to be moved: more than REFRESH_BITS corrected, or step 2 or later needed (R311)? -/
def State.qualifies (s : State) (f : PatrolFinding) : Bool :=
  s.var 0x060D < f.corrected || (match f.outcome with
    | .step n => 2 ≤ n
    | .undecodable => true)

/-- The mapped records on a page of a group. -/
def State.pageRecs (s : State) (n page : Nat) : List Rec :=
  (s.groupRecs n).filter (fun r => r.slot ≤ page && page < r.slot + ceilDiv r.length 16384)

/-- A page that qualifies (R311): its records move, those that cannot be read as poison (R411); past a quarter of the group's pages
the group is marked refresh-pending. -/
def State.patrolMove (s : State) (g : Group) (page : Nat) (o : ReadOutcome) : State :=
  let rs := s.pageRecs g.num page
  let s1 := rs.foldl (fun t r =>
    let q := t.readRec r o
    if q.1 then q.2 else q.2.poisonRec r.loc) s
  let s2 := s1.updGroup g.num (fun h => if h.patrolled.contains page then h else { h with patrolled := h.patrolled ++ [page] })
  if groupSlots g.slc / 30 * 32 < 4 * ((s2.group? g.num).map (·.patrolled.length)).getD 0 then s2.markRefresh g.num
  else
    let s3 := rs.foldl (fun t r => t.moveNow .patrol r.loc) s2
    { s3 with store := { s3.store with patrolMoved := s3.store.patrolMoved + 1 }, counts := { s3.counts with patrolMoves := s3.counts.patrolMoves + 1 } }

/-- The end of a patrol cycle (R311, R321). -/
def State.patrolEnd (s : State) : State :=
  let hours := (s.clock - s.store.patrolAt) / 3600000000000
  let s1 := s.logEvent 0x0605 (pack [(32, sat 32 hours), (32, sat 32 s.store.patrolMoved), (192, 0)])
  { s1 with store := { s1.store with patrolAt := s.clock, patrolMoved := 0, cycleHours := hours
                                     groups := s1.store.groups.map (fun g => { g with patrolled := [] }) } }

/-- PATROL_STEP (R311): patrol reads a written page. It waits in P2 and P3 until its period requires an exit. -/
def execPatrolStep (group page : Nat) (finding : PatrolFinding) (s : State) : Host.Outcome State Fault Refusal :=
  if !s.backgroundRuns then .next s
  else if 2 ≤ s.power.st then
    if s.store.patrolAt + sec (86400 * s.var 0x060C) ≤ s.clock then .next s.startExit else .next s
  else
    let s1 := match s.group? group with
      | some g => if page < g.written && s.qualifies finding then s.patrolMove g page finding.outcome else s
      | none => s
    .next (if finding.lastPage then s1.patrolEnd else s1).settle

/-! ### The re-key sweep (R358) -/

/-- Is the record at a location one that a page's sweep has still to reseal? -/
def State.sweepWants (s : State) (p : KeyPage) (loc : Nat) : Bool := (s.sweepLeft p).any (·.loc == loc)

/-- Reseals a record under the current key with a use of the sweep's reservation, or counts it and leaves it in place (R358). -/
def State.reseal (s : State) (p : KeyPage) (w : Sweep) (r : Rec) (readable : Bool) : State :=
  match readable, s.openRec r with
  | true, some plain =>
    let s1 := s.setPage { p with taken := p.taken + 1, reserved := p.reserved - 1, sweep := some { w with resealed := w.resealed + 1 } }
    (s1.relocate r.loc (fun x => x.seal p.cur p.taken plain)).keyEvents p.n
  | _, _ => s.setPage { p with reserved := p.reserved - 1, sweep := some { w with inPlace := w.inPlace ++ [r.loc] } }

/-- REKEY_SWEEP_STEP (R358): one mapped record of the previous generation is resealed under its MOVE lock. The sweep pauses while a
slot is not LOADED, in throttle stage 2 (R421), and while its owner has no slot to write to. -/
def execRekeySweepStep (page loc : Nat) (readable : Bool) (s : State) : Host.Outcome State Fault Refusal :=
  let p := s.page page
  match p.sweep, s.rec? loc with
  | some w, some r =>
    if !s.backgroundRuns || s.thermal.stage == 2 || p.cur.st != .loaded || p.prev.st != .loaded then .next s
    else if !s.sweepWants p loc then .next (s.sweepEnd page)
    else if (s.takeSlots (s.ksOwner r.keyspace) false false true r.length).isNone then .next s
    else
      let s1 := s.enterMove .rekey loc
      if s1.holdsLock (.move .rekey loc) then
        .next (((s1.reseal p w r readable).lockLeave (.move .rekey loc)).sweepEnd page).settle
      else .next s1
  | some _, none => if s.backgroundRuns then .next (s.sweepEnd page).settle else .next s
  | none, _ => .next s

/-! ### Dies (R314) -/

/-- DIE_RETIRE (R58, R314): a spare die of the channel takes the logical position and its rebuild begins; with none left the module
freezes and reads rebuild its pages. The unit in the notice is channel × 18 + physical position (log entry 29). -/
def execDieRetire (channel position cause : Nat) (s : State) : Host.Outcome State Fault Refusal :=
  let d := (channel, position)
  if !s.supply.mainOn || 32 ≤ channel || 16 ≤ position || s.spares.deadDies.contains d then .next s
  else
    let s1 : State := { s with counts := { s.counts with diesRetired := s.counts.diesRetired + 1 } }
    let event (t : State) (phys : Nat) : State := t.logEvent 0x0602 (pack [(8, channel), (8, position), (8, cause), (8, phys), (224, 0)])
    let left := s.diesLeft channel
    if left == 0 then
      let s2 : State := { s1 with spares := { s1.spares with deadDies := s1.spares.deadDies ++ [d], rebuilding := s1.spares.rebuilding.filter (fun r => r.1 != d) } }
      .next ((event s2 0xFF).freeze .spareDie).watch
    else
      let phys := 18 - left
      let s2 : State := { s1 with spares := { s1.spares with
        dieMap := (d, phys) :: s1.spares.dieMap, rebuilding := (d, s.clock) :: s1.spares.rebuilding.filter (fun r => r.1 != d)
        reserveUsed := s1.spares.reserveUsed.filter (fun r => r.1 != d), remap := s1.spares.remap.filter (fun r => (r.1.1, r.1.2.1) != d) } }
      .next ((event s2 phys).spareNotice 10 (channel * 18 + phys)).watch

/-- REBUILD_DONE (R314, R321). -/
def execRebuildDone (channel position : Nat) (s : State) : Host.Outcome State Fault Refusal :=
  match s.spares.rebuilding.find? (fun r => r.1 == (channel, position)) with
  | none => .next s
  | some r =>
    if !s.supply.mainOn then .next s
    else
      let s1 : State := { s with spares := { s.spares with rebuilding := s.spares.rebuilding.filter (fun q => q.1 != r.1) } }
      .next (s1.logEvent 0x0604 (pack [(8, channel), (8, position), (32, sat 32 ((s.clock - r.2) / 1000000000)), (208, 0)]))

end Sys2Proof.Machine
end

