-- ==== Sys2Proof/Machine/Sideband.lean ====
section
/-! DEFINITION. The SMBus sideband and its mailbox (R454–R463), the on-module segment (R464), the console (R465) and the trace
(R468). -/

namespace Sys2Proof.Machine

/-! ### Writes (R454, R456) -/

/-- Is a write discarded for its PEC (R454)? -/
def State.pecRefused (s : State) (p : Pec) : Bool :=
  match p with
  | .good => false
  | .bad => true
  | .absent => s.var 0x0D02 == 1

/-- A write discarded under R454 sets PEC_ERROR. -/
def State.pecFail (s : State) : State := { s with sb := { s.sb with pecError := true } }

/-- A write discarded while the mailbox is BUSY (R462). -/
def State.busyWrite (s : State) : State := { s with sb := { s.sb with whileBusy := true } }

/-- A write as the target takes it: nothing without P3V3_AUX (R454), PEC_ERROR where its PEC is refused, otherwise its effect. -/
def State.sbWrite (s : State) (p : Pec) (f : State → State) : State :=
  if !s.supply.auxInRange then s else if s.pecRefused p then s.pecFail else f s

/-- The writable registers without a row of their own, with their sizes (R456). -/
def writableSizes : List (Nat × Nat) := [(0x02, 2), (0x03, 2), (0x04, 3), (0x05, 2), (0x06, 2), (0x12, 2), (0x13, 2)]

/-- The effect of a write of a register's whole value (R456): MB_LEN above 4 096 is not taken (log entry 30). -/
def State.writeReg (s : State) (code v : Nat) : State :=
  let w := BitVec.ofNat 16 v
  match code with
  | 0x02 => { s with sb := { s.sb with alertStatus := s.sb.alertStatus &&& ~~~w } }
  | 0x03 => { s with sb := { s.sb with alertMask := w &&& 0x07FF } }
  | 0x04 => { s with marks := clearMarks s.marks v }
  | 0x05 => s.clearPortEvents false w
  | 0x06 => s.clearPortEvents true w
  | 0x12 => { s with sb := { s.sb with mbOffset := v } }
  | 0x13 => if s.sb.mb == .busy then s.busyWrite else if v ≤ 4096 then { s with sb := { s.sb with mbLen := v } } else s
  | _ => s

/-- SB_REGISTER_WRITE (R454, R456): a write of another size, of an RO register or of a code not listed changes nothing. -/
def execSbRegisterWrite (code : Nat) (bytes : Bytes) (pec : Pec) (s : State) : Host.Outcome State Fault Refusal :=
  .next (s.sbWrite pec (fun t => if writableSizes.contains (code, bytes.length) then t.writeReg code (natOfBytes bytes) else t))

/-! ### Reads (R456, R457) -/

/-- Are the fields that come from recovered state readable (R456)? -/
def State.recovered (s : State) : Bool :=
  s.supply.mainOn && (s.modes.mode != .filling || 10 ≤ s.modes.startStep)

/-- SB_STATUS (R457). -/
def State.sbStatus (s : State) : Bytes :=
  pack [(4, s.modes.mode.code), (2, if s.modes.mode == .serving then s.power.st else 0), (1, b1 s.supply.pwrEn), (1, b1 s.supply.mainOn),
    (8, s.modes.freezeCauses.toNat), (4, s.supply.straps.slotId.toNat), (1, b1 s.cipher.kek.isSome), (1, b1 s.supply.erasedLocked),
    (1, b1 s.modes.startFault), (1, b1 s.modes.sanitising), (8, s.sanitisePercent), (2, s.thermal.stage), (1, b1 s.fw.awaitSince.isSome),
    (1, b1 (s.supply.conditions.contains .tamper || s.supply.conditions.contains .latch)),
    (12, ((if s.valid then s.relay.map else none).map (·.self)).getD 0), (16, 0)]

/-- The watermark word as the sideband reads it: level bits read 0 until recovery completes (R456). -/
def State.sbMarks (s : State) : Nat :=
  wmStatus (if s.recovered then s.marks else s.marks.map (fun m => { m with level := false }))

/-- The code of a mailbox state (R461). -/
def MbState.code : MbState → Nat
  | .ready => 0
  | .busy => 1
  | .empty => 2
  | .noReply => 3

/-- What a read of a register delivers, MB_REPLY apart (R456–R458, R462, R463): a write-only register reads 0; none for a code not
listed. -/
def State.sbRead (s : State) : Nat → Option Bytes
  | 0x00 => some (pack [(16, 0x0100), (8, 1), (4, 0), (4, orderCodeNumber Config.orderCode)])
  | 0x01 => some s.sbStatus
  | 0x02 => some (bytesOfNat 2 s.sb.alertStatus.toNat)
  | 0x03 => some (bytesOfNat 2 s.sb.alertMask.toNat)
  | 0x04 => some (bytesOfNat 3 s.sbMarks)
  | 0x05 => some (bytesOfNat 2 s.ports.eventsA.toNat)
  | 0x06 => some (bytesOfNat 2 s.ports.eventsB.toNat)
  | 0x07 => some ((List.range 10).map (fun i => BitVec.ofNat 8 (s.tempByte i)))
  | 0x10 => some [0]
  | 0x11 => some (pack [(1, 0), (1, b1 s.sb.pecError), (1, b1 s.sb.whileBusy), (3, s.sb.reason), (2, s.sb.mb.code)])
  | 0x12 => some (bytesOfNat 2 s.sb.mbOffset)
  | 0x13 => some (bytesOfNat 2 s.sb.mbLen)
  | 0x14 => some [0]
  | 0x20 => some (List.replicate 32 0)
  | 0x21 => some (pack [(5, 0), (1, b1 (!s.supply.conditions.isEmpty)), (1, b1 s.sb.kekRefused), (1, b1 s.cipher.kek.isSome)])
  | _ => none

/-! ### The mailbox (R459–R462) -/

/-- A 4 096-byte buffer with bytes stored from an offset on: a byte past its end is not stored (log entry 30). -/
def storeAt (buf : Bytes) (off : Nat) (b : Bytes) : Bytes :=
  (List.range 4096).map (fun i => if off ≤ i && i < off + b.length then b.getD (i - off) 0 else buf.getD i 0)

/-- The effect of a block write to MB_DATA (R456, R459). -/
def State.mbStore (s : State) (bytes : Bytes) : State :=
  if s.sb.mb == .busy then s.busyWrite
  else if 1 ≤ bytes.length && bytes.length ≤ 255 then
    { s with sb := { s.sb with request := storeAt s.sb.request s.sb.mbOffset bytes, mbOffset := (s.sb.mbOffset + bytes.length) % 2 ^ 16 } }
  else s

/-- MB_DATA (R459). -/
def execMbData (bytes : Bytes) (pec : Pec) (s : State) : Host.Outcome State Fault Refusal := .next (s.sbWrite pec (·.mbStore bytes))

/-- The request: MB_LEN bytes of the buffer, which reads 0 where nothing was stored. -/
def State.mbRequest (s : State) : Bytes := (List.range s.sb.mbLen).map (fun i => s.sb.request.getD i 0)

/-- Does the request pass the checks of R459? -/
def mbChecks (b : Bytes) : Bool :=
  let h := parseHeader b
  40 ≤ b.length && h.version == 1 && h.kind == 0 && (crc16 (b.take 38)).toNat == h.crc

/-- The context of an accepted mailbox command: its message is complete at once, and it holds an internal context and no cells
(R217, R459). -/
def State.mbCtx (s : State) (h : Header) (body : Bytes) : Ctx :=
  let relayed := relayedFlag h.opcode h.flags
  let rest := if relayed then body.drop 32 else body
  let key := rest.take h.keyLen
  let fp := match s.keyspace? h.keyspace with
    | some k => fingerprint k.id k.seed key
    | none => 0
  { s.newCtx default h none false 0 0 with
    mailbox := true, pre := if relayed then parsePrefix body else none, key := key, body := rest.drop h.keyLen, fp := fp
    slotRes := if h.opcode == 0x09 then s.freeSlot else none
    phase := .complete, completed := some s.clock, runSince := some s.clock }

/-- The end that an accepted mailbox command meets before its opcode's own checks (R140, R155, R220, R447, R460); none: it goes on.
SIEVE_OPEN with no free slot is answered BACKOFF with the shortest hint (log entry 30). -/
def State.mbStops (s : State) (h : Header) (body : Bytes) : Option Reply :=
  if s.activationDrains then some (Reply.withA .backoff 10000)
  else if badKeyLength h then some (Reply.plain .badLength)
  else if h.opcode == 0x10 || h.opcode == 0x11 || h.opcode == 0x0C || !opcodes.contains h.opcode then some (Reply.plain .badOpcode)
  else if body.length != h.body then some (Reply.plain .badLength)
  else if h.opcode == 0x09 && s.freeSlot.isNone then some (Reply.withA .backoff (s.var 0x0305))
  else none

/-- An accepted GO (R459, R462): BUSY, and the command in a context of its own. Foreground activity begins (R416). -/
def State.mbAccept (s : State) (h : Header) (body : Bytes) : State :=
  let s0 : State := { s with sb := { s.sb with mb := .busy, reason := 0, whileBusy := false, pecError := false, reply := [], readOff := 0,
                                               delivered := false } }
  let k := s0.mbCtx h body
  let s1 := ({ s0 with net := { s0.net with nextId := s0.net.nextId + 1, ctxs := s0.net.ctxs ++ [k] } } : State).wake
  match s.mbStops h body with
  | some r => s1.endCmd k.id r
  | none => s1

/-- The effect of writing MB_CTRL with GO (R459, R461, R462). During Last Waltz a command ends without a reply (R424). -/
def State.mbGo (s : State) : State :=
  if s.sb.mb == .busy then s.busyWrite
  else
    let b := s.mbRequest
    if mbChecks b && s.waltzing then { s with sb := { s.sb with mb := .noReply, reason := 2, reply := [], readOff := 0, delivered := false } }
    else if mbChecks b then s.mbAccept (parseHeader b) (b.drop 40)
    else { s with sb := { s.sb with mb := .noReply, reason := 1, reply := [], readOff := 0, delivered := false } }

/-- GO (R459). -/
def execGo (pec : Pec) (s : State) : Host.Outcome State Fault Refusal := .next (s.sbWrite pec State.mbGo).watch

/-- The effect of writing MB_CTRL with ABORT (R462): the command in progress ends ABORTED where ABORT would end it so, and otherwise
goes on to its own reply. -/
def State.mbAbortCmd (s : State) : State :=
  match s.net.ctxs.find? (·.mailbox) with
  | some x => if x.abortable then (s.endStatus x.id .aborted).settle.watch else s
  | none => s

/-- MB_ABORT (R462). -/
def execMbAbort (pec : Pec) (s : State) : Host.Outcome State Fault Refusal := .next (s.sbWrite pec State.mbAbortCmd)

/-- The bytes that a read of MB_REPLY delivers, code byte first (R461). -/
def Sideband.replyRead (b : Sideband) : Bytes :=
  pack [(1, b1 (b.mb == .ready && b.delivered)), (5, 0), (2, b.mb.code)] ++ (if b.mb == .ready then (b.reply.drop b.readOff).take 254 else [])

/-- A read of MB_REPLY (R461): the offset advances and returns to 0 after the last byte; the first whole delivery clears MB_READY. -/
def Sideband.afterRead (b : Sideband) : Sideband :=
  let off := b.readOff + 254
  if b.mb != .ready then { b with lastRead := b.replyRead }
  else if off < b.reply.length then { b with lastRead := b.replyRead, readOff := off }
  else { b with lastRead := b.replyRead, readOff := 0, delivered := true
                alertStatus := if b.delivered then b.alertStatus else b.alertStatus &&& ~~~(1#16) }

/-- MB_REPLY (R461). -/
def execMbReply (s : State) : Host.Outcome State Fault Refusal :=
  if s.supply.auxInRange then .next { s with sb := s.sb.afterRead } else .next s

/-! ### KEK, alerts, bus timeout (R455, R458, R463) -/

/-- Does the module take a KEK now (R351)? -/
def State.kekOpen (s : State) : Bool := s.modes.mode.service && s.cipher.kek.isNone && s.supply.conditions.isEmpty

/-- The effect of a block write to KEK (R463). -/
def State.kekWrite (s : State) (bytes : Bytes) : State :=
  if bytes.length == 32 && s.kekOpen then
    { s with cipher := { s.cipher with kek := some (BitVec.ofNat 256 (natOfBytes bytes)) }, sb := { s.sb with kekRefused := false } }
  else { s with sb := { s.sb with kekRefused := true } }

/-- KEK (R351, R463). -/
def execKek (bytes : Bytes) (pec : Pec) (s : State) : Host.Outcome State Fault Refusal := .next (s.sbWrite pec (·.kekWrite bytes))

/-- ALERT_RESPONSE (R458): answered while ALERT_N is low; answering releases nothing. -/
def execAlertResponse (s : State) : Host.Outcome State Fault Refusal :=
  if s.supply.auxInRange then .next { s with sb := { s.sb with arAnswered := s.alertLow } } else .next s

/-- SMBUS_TIMEOUT (R455): the transfer in progress is abandoned; no register changes, and no byte of a read was delivered whole. -/
def execSmbusTimeout (s : State) : Host.Outcome State Fault Refusal :=
  if s.supply.auxInRange then .next { s with sb := { s.sb with lastRead := [] } } else .next s

/-! ### The on-module segment (R464) -/

/-- Is there a device of that number on the segment: the sensors but the junction, the capacitor monitor, two regulator controllers? -/
def segmentDevice (d : Nat) : Bool := d ≤ 12 && d != 2

/-- The event and the alert of a device that failed or recovered (R464). -/
def State.segmentEvent (s : State) (d : Nat) (failed : Bool) : State :=
  (s.logEvent 0x0D01 (pack [(8, d), (1, b1 failed), (247, 0)])).alert .segmentFault

/-- What a device's failure or recovery does to the temperatures (R421, R464), with the main supply on. -/
def State.segmentSensors (s : State) : State := if s.supply.mainOn then s.throttle.watch else s

/-- A device is marked failed (R464). With the capacitor monitor failed the bank counts as failing its test, and the module freezes. -/
def State.segmentFail (s : State) (d : Nat) : State :=
  let s1 := ({ s with sb := { s.sb with failed := s.sb.failed ++ [(d, s.clock)] } } : State).segmentEvent d true
  if d == 10 then ({ s1 with holdup := { s1.holdup with lastPassed := false, charged := false } } : State).freeze .holdup
  else if d < 10 then s1.segmentSensors else s1

/-- A failed device answers again (R464). -/
def State.segmentRecover (s : State) (d : Nat) : State :=
  (({ s with sb := { s.sb with failed := s.sb.failed.filter (·.1 != d) } } : State).segmentEvent d false).segmentSensors

/-- SEGMENT_POLL (R464): a device that is not failed is polled; `answers` is false where the bus could not be recovered. -/
def execSegmentPoll (device : Nat) (answers : Bool) (s : State) : Host.Outcome State Fault Refusal :=
  if s.supply.auxInRange && segmentDevice device && !answers && !s.sb.failed.any (·.1 == device) then .next (s.segmentFail device)
  else .next s

/-- SEGMENT_RETRY (R464): 60 s after a device failed or was last retried. -/
def execSegmentRetry (device : Nat) (answers : Bool) (s : State) : Host.Outcome State Fault Refusal :=
  match s.sb.failed.find? (·.1 == device) with
  | none => .next s
  | some f =>
    if !s.supply.auxInRange || s.clock < f.2 + sec 60 then .next s
    else if answers then .next (s.segmentRecover device)
    else .next { s with sb := { s.sb with failed := upd (·.1 == device) (fun g => (g.1, s.clock)) s.sb.failed } }

/-! ### Console and trace (R465, R468) -/

/-- The number that decimal digits spell; none where there is none or another character. -/
def decimal (b : Bytes) : Option Nat :=
  if b.isEmpty || b.any (fun c => c.toNat < 48 || 57 < c.toNat) then none else some (b.foldl (fun a c => 10 * a + (c.toNat - 48)) 0)

/-- The lines that answer a console line (R465): "id", "status", "events n"; "?" to any other. Their texts are the model's
(log entry 19). -/
def State.consoleAnswer (s : State) (line : Bytes) : List Bytes :=
  if 80 < line.length then [ascii "?"]
  else if line == ascii "id" then [ascii "HLV-100 " ++ hexDigits 16 (Config.serial 0)]
  else if line == ascii "status" then [ascii ("mode " ++ s.modes.mode.name)]
  else match line.take 7 == ascii "events ", decimal (line.drop 7) with
    | true, some n => (s.logs.events.drop (s.logs.events.length - n)).map (fun e => hexDigits 4 e.code ++ [32] ++ hexDigits 16 e.index)
    | _, _ => [ascii "?"]

/-- CONSOLE_LINE (R465, R466): a line with a framing error is discarded. -/
def execConsoleLine (line : Bytes) (framingError : Bool) (s : State) : Host.Outcome State Fault Refusal :=
  if !s.supply.auxInRange || framingError then .next s else .next ((s.consoleAnswer line).foldl State.console s)

/-- TRACE_SYNC (R468): a traced island places a SYNC record; its cycle count is a free value (log entry 5). -/
def execTraceSync (island : Nat) (s : State) : Host.Outcome State Fault Refusal :=
  if s.supply.mainOn && s.traced island then
    let s1 := (s.trace 5 island false (BitVec.ofNat 64 (s.time / 2 ^ 48 % 2 ^ 15 * 2 ^ 49 + Config.estimate s.rnd % 2 ^ 49))).drawn
    .next { s1 with dbg := { s1.dbg with lastSync := setKey s1.dbg.lastSync island s.clock } }
  else .next s

end Sys2Proof.Machine
end

