-- ==== Sys2Proof/Machine/Dispatch.lean ====
section
/-! DEFINITION. One arm per command: a call of its meaning. -/

namespace Sys2Proof.Machine

/-- The effect of a command on everything but the queue. -/
def exec (i : Instr) (s : State) : Host.Outcome State Fault Refusal :=
  match i with
  | .p3v3AuxInRange straps => Sys2Proof.Machine.execP3v3AuxInRange straps s
  | .pwrEnWatchStart => Sys2Proof.Machine.execPwrEnWatchStart s
  | .p3v3AuxLoss => Sys2Proof.Machine.execP3v3AuxLoss s
  | .pwrEnRise straps => Sys2Proof.Machine.execPwrEnRise straps s
  | .pwrEnFall => Sys2Proof.Machine.execPwrEnFall s
  | .p12vInRange => Sys2Proof.Machine.execP12vInRange s
  | .p12vLoss removed => Sys2Proof.Machine.execP12vLoss removed s
  | .alarm src => Sys2Proof.Machine.execAlarm src s
  | .mainRailsInRange => Sys2Proof.Machine.execMainRailsInRange s
  | .sramFillComplete => Sys2Proof.Machine.execSramFillComplete s
  | .dramTrainingComplete => Sys2Proof.Machine.execDramTrainingComplete s
  | .dramFillComplete => Sys2Proof.Machine.execDramFillComplete s
  | .confirmedImageRead => Sys2Proof.Machine.execConfirmedImageRead s
  | .islandCodeLoaded => Sys2Proof.Machine.execIslandCodeLoaded s
  | .settingsMigrated => Sys2Proof.Machine.execSettingsMigrated s
  | .directoryRecovered lost found => Sys2Proof.Machine.execDirectoryRecovered lost found s
  | .fillingComplete bankCharged => Sys2Proof.Machine.execFillingComplete bankCharged s
  | .fillingTimeout => Sys2Proof.Machine.execFillingTimeout s
  | .restart island => Sys2Proof.Machine.execRestart island s
  | .mainSupplyReenable => Sys2Proof.Machine.execMainSupplyReenable s
  | .plugInInsert portB cmis => Sys2Proof.Machine.execPlugInInsert portB cmis s
  | .cmisReadyTimeout portB => Sys2Proof.Machine.execCmisReadyTimeout portB s
  | .plugInRemove portB => Sys2Proof.Machine.execPlugInRemove portB s
  | .cmisPoll portB cmis => Sys2Proof.Machine.execCmisPoll portB cmis s
  | .linkUp link => Sys2Proof.Machine.execLinkUp link s
  | .linkDown link failing => Sys2Proof.Machine.execLinkDown link failing s
  | .linkAttemptTimeout link failing => Sys2Proof.Machine.execLinkAttemptTimeout link failing s
  | .failoverHold link => Sys2Proof.Machine.execFailoverHold link s
  | .failoverBack link => Sys2Proof.Machine.execFailoverBack link s
  | .egressFrameTimeout frame => Sys2Proof.Machine.execEgressFrameTimeout frame s
  | .frameReceive link frame => Sys2Proof.Machine.execFrameReceive link frame s
  | .pauseQuantaExpire link prio => Sys2Proof.Machine.execPauseQuantaExpire link prio s
  | .pauseWatchdog link prio => Sys2Proof.Machine.execPauseWatchdog link prio s
  | .pauseWatchdogHoldoffEnd link prio => Sys2Proof.Machine.execPauseWatchdogHoldoffEnd link prio s
  | .neighbourAgeOut portB addr => Sys2Proof.Machine.execNeighbourAgeOut portB addr s
  | .assemblyTimeout c => Sys2Proof.Machine.execAssemblyTimeout c s
  | .ackCoalesceExpire c => Sys2Proof.Machine.execAckCoalesceExpire c s
  | .transportAck ack => Sys2Proof.Machine.execTransportAck ack s
  | .retransmit msg => Sys2Proof.Machine.execRetransmit msg s
  | .messageUnanswered msg => Sys2Proof.Machine.execMessageUnanswered msg s
  | .sessionIdle session => Sys2Proof.Machine.execSessionIdle session s
  | .sessionFree session => Sys2Proof.Machine.execSessionFree session s
  | .windowRebalance => Sys2Proof.Machine.execWindowRebalance s
  | .watermarkHoldoffEnd wm => Sys2Proof.Machine.execWatermarkHoldoffEnd wm s
  | .get c => Sys2Proof.Machine.execGet c s
  | .put c => Sys2Proof.Machine.execPut c s
  | .putPosted c => Sys2Proof.Machine.execPutPosted c s
  | .delete c => Sys2Proof.Machine.execDelete c s
  | .appendSegment c => Sys2Proof.Machine.execAppendSegment c s
  | .discard c => Sys2Proof.Machine.execDiscard c s
  | .secureDiscard c => Sys2Proof.Machine.execSecureDiscard c s
  | .scanKeys c => Sys2Proof.Machine.execScanKeys c s
  | .abort c => Sys2Proof.Machine.execAbort c s
  | .head c => Sys2Proof.Machine.execHead c s
  | .versionsNext c => Sys2Proof.Machine.execVersionsNext c s
  | .sieveOpen c => Sys2Proof.Machine.execSieveOpen c s
  | .sieveNext c => Sys2Proof.Machine.execSieveNext c s
  | .sieveClose c => Sys2Proof.Machine.execSieveClose c s
  | .sessionOpen c => Sys2Proof.Machine.execSessionOpen c s
  | .sessionClose c => Sys2Proof.Machine.execSessionClose c s
  | .echo c => Sys2Proof.Machine.execEcho c s
  | .keyspaceCreate c => Sys2Proof.Machine.execKeyspaceCreate c s
  | .keyspaceDelete c => Sys2Proof.Machine.execKeyspaceDelete c s
  | .keyspaceQuery c => Sys2Proof.Machine.execKeyspaceQuery c s
  | .keyLoad c => Sys2Proof.Machine.execKeyLoad c s
  | .keyRetire c => Sys2Proof.Machine.execKeyRetire c s
  | .fenceSet c => Sys2Proof.Machine.execFenceSet c s
  | .shaperSet c => Sys2Proof.Machine.execShaperSet c s
  | .powerPolicy c => Sys2Proof.Machine.execPowerPolicy c s
  | .relaySet c => Sys2Proof.Machine.execRelaySet c s
  | .orchardMapLoad c => Sys2Proof.Machine.execOrchardMapLoad c s
  | .promote c => Sys2Proof.Machine.execPromote c s
  | .healthRead c => Sys2Proof.Machine.execHealthRead c s
  | .identify c => Sys2Proof.Machine.execIdentify c s
  | .logRead c => Sys2Proof.Machine.execLogRead c s
  | .configGet c => Sys2Proof.Machine.execConfigGet c s
  | .configSet c => Sys2Proof.Machine.execConfigSet c s
  | .holdupTestNow c => Sys2Proof.Machine.execHoldupTestNow c s
  | .fwStage c => Sys2Proof.Machine.execFwStage c s
  | .fwActivate c => Sys2Proof.Machine.execFwActivate c s
  | .fwConfirm c => Sys2Proof.Machine.execFwConfirm c s
  | .fwAbort c => Sys2Proof.Machine.execFwAbort c s
  | .sanitise c => Sys2Proof.Machine.execSanitise c s
  | .modeSet c => Sys2Proof.Machine.execModeSet c s
  | .relayedWrite c => Sys2Proof.Machine.execRelayedWrite c s
  | .seedBegin c => Sys2Proof.Machine.execSeedBegin c s
  | .seedEnd c => Sys2Proof.Machine.execSeedEnd c s
  | .shaperAdmit c => Sys2Proof.Machine.execShaperAdmit c s
  | .rangeLockEnter op => Sys2Proof.Machine.execRangeLockEnter op s
  | .rangeLockLeave op => Sys2Proof.Machine.execRangeLockLeave op s
  | .quinceUpdate bank => Sys2Proof.Machine.execQuinceUpdate bank s
  | .quinceSweep bank row upset => Sys2Proof.Machine.execQuinceSweep bank row upset s
  | .readS slice bucket => Sys2Proof.Machine.execReadS slice bucket s
  | .readE slice bucket => Sys2Proof.Machine.execReadE slice bucket s
  | .writeBack slice bucket => Sys2Proof.Machine.execWriteBack slice bucket s
  | .writeBackClean slice bucket => Sys2Proof.Machine.execWriteBackClean slice bucket s
  | .evict slice bucket => Sys2Proof.Machine.execEvict slice bucket s
  | .snoopInv slice bucket => Sys2Proof.Machine.execSnoopInv slice bucket s
  | .snoopFetch slice bucket => Sys2Proof.Machine.execSnoopFetch slice bucket s
  | .presentClean slice bucket => Sys2Proof.Machine.execPresentClean slice bucket s
  | .presentData slice bucket => Sys2Proof.Machine.execPresentData slice bucket s
  | .notPresent slice bucket => Sys2Proof.Machine.execNotPresent slice bucket s
  | .cipherJobArrive job => Sys2Proof.Machine.execCipherJobArrive job s
  | .cipherJobEnd pipe => Sys2Proof.Machine.execCipherJobEnd pipe s
  | .cipherUrgencyRaise job => Sys2Proof.Machine.execCipherUrgencyRaise job s
  | .pageReadComplete c outcome => Sys2Proof.Machine.execPageReadComplete c outcome s
  | .programComplete c ok => Sys2Proof.Machine.execProgramComplete c ok s
  | .eraseComplete group failed => Sys2Proof.Machine.execEraseComplete group failed s
  | .commitClaim c => Sys2Proof.Machine.execCommitClaim c s
  | .sessionCloseDrained c => Sys2Proof.Machine.execSessionCloseDrained c s
  | .keyspaceDeleteDrained c => Sys2Proof.Machine.execKeyspaceDeleteDrained c s
  | .dormantDrained c => Sys2Proof.Machine.execDormantDrained c s
  | .dormantFlushComplete => Sys2Proof.Machine.execDormantFlushComplete s
  | .settingsWriteDone c => Sys2Proof.Machine.execSettingsWriteDone c s
  | .logFlush logB => Sys2Proof.Machine.execLogFlush logB s
  | .checkpointWrite => Sys2Proof.Machine.execCheckpointWrite s
  | .stripeIdleClose group => Sys2Proof.Machine.execStripeIdleClose group s
  | .gcTick => Sys2Proof.Machine.execGcTick s
  | .heatHalving => Sys2Proof.Machine.execHeatHalving s
  | .patrolStep group page finding => Sys2Proof.Machine.execPatrolStep group page finding s
  | .rekeySweepStep page loc readable => Sys2Proof.Machine.execRekeySweepStep page loc readable s
  | .dieRetire channel position cause => Sys2Proof.Machine.execDieRetire channel position cause s
  | .rebuildDone channel position => Sys2Proof.Machine.execRebuildDone channel position s
  | .islandRetire island bank => Sys2Proof.Machine.execIslandRetire island bank s
  | .islandFail island held => Sys2Proof.Machine.execIslandFail island held s
  | .trunkLinkFail hub dir => Sys2Proof.Machine.execTrunkLinkFail hub dir s
  | .ueFound island asker addr row flit site => Sys2Proof.Machine.execUeFound island asker addr row flit site s
  | .repairComplete bucket readable => Sys2Proof.Machine.execRepairComplete bucket readable s
  | .codeTrap island addr held => Sys2Proof.Machine.execCodeTrap island addr held s
  | .codeBankReloaded island => Sys2Proof.Machine.execCodeBankReloaded island s
  | .ceDecay sram dram => Sys2Proof.Machine.execCeDecay sram dram s
  | .progressScan island => Sys2Proof.Machine.execProgressScan island s
  | .sieveVisit slot => Sys2Proof.Machine.execSieveVisit slot s
  | .sieveBatchAge slot => Sys2Proof.Machine.execSieveBatchAge slot s
  | .sieveIdle slot => Sys2Proof.Machine.execSieveIdle slot s
  | .relayForwardAnswer slot answer => Sys2Proof.Machine.execRelayForwardAnswer slot answer s
  | .relayTimeout slot => Sys2Proof.Machine.execRelayTimeout slot s
  | .resyncStart keyspace successor => Sys2Proof.Machine.execResyncStart keyspace successor s
  | .resyncStateSave => Sys2Proof.Machine.execResyncStateSave s
  | .idleTimer target => Sys2Proof.Machine.execIdleTimer target s
  | .powerExitComplete => Sys2Proof.Machine.execPowerExitComplete s
  | .thermalSample readings => Sys2Proof.Machine.execThermalSample readings s
  | .temperatureHistorySample => Sys2Proof.Machine.execTemperatureHistorySample s
  | .lastWaltzPhaseEnd energyCj ok => Sys2Proof.Machine.execLastWaltzPhaseEnd energyCj ok s
  | .holdupTestStart => Sys2Proof.Machine.execHoldupTestStart s
  | .holdupTest result => Sys2Proof.Machine.execHoldupTest result s
  | .sectionFail sectionNo => Sys2Proof.Machine.execSectionFail sectionNo s
  | .sanitiseEraseComplete refused => Sys2Proof.Machine.execSanitiseEraseComplete refused s
  | .fwStageIdle => Sys2Proof.Machine.execFwStageIdle s
  | .slotProgramDone readBackOk => Sys2Proof.Machine.execSlotProgramDone readBackOk s
  | .standbyBooted => Sys2Proof.Machine.execStandbyBooted s
  | .handoverDone => Sys2Proof.Machine.execHandoverDone s
  | .islandReload island ok => Sys2Proof.Machine.execIslandReload island ok s
  | .selftestEnd passed => Sys2Proof.Machine.execSelftestEnd passed s
  | .confirmationWindowExpire => Sys2Proof.Machine.execConfirmationWindowExpire s
  | .restartActivation => Sys2Proof.Machine.execRestartActivation s
  | .fallbackDone => Sys2Proof.Machine.execFallbackDone s
  | .standbyFail restartable => Sys2Proof.Machine.execStandbyFail restartable s
  | .mbData bytes pec => Sys2Proof.Machine.execMbData bytes pec s
  | .go pec => Sys2Proof.Machine.execGo pec s
  | .mbAbort pec => Sys2Proof.Machine.execMbAbort pec s
  | .mbReply => Sys2Proof.Machine.execMbReply s
  | .kek bytes pec => Sys2Proof.Machine.execKek bytes pec s
  | .sbRegisterWrite code bytes pec => Sys2Proof.Machine.execSbRegisterWrite code bytes pec s
  | .alertResponse => Sys2Proof.Machine.execAlertResponse s
  | .smbusTimeout => Sys2Proof.Machine.execSmbusTimeout s
  | .segmentPoll device answers => Sys2Proof.Machine.execSegmentPoll device answers s
  | .segmentRetry device answers => Sys2Proof.Machine.execSegmentRetry device answers s
  | .consoleLine line framingError => Sys2Proof.Machine.execConsoleLine line framingError s
  | .traceSync island => Sys2Proof.Machine.execTraceSync island s
  | .alarmConditionEnd src => Sys2Proof.Machine.execAlarmConditionEnd src s
  | .signalReturn link => Sys2Proof.Machine.execSignalReturn link s
  | .relayBackoffResend slot => Sys2Proof.Machine.execRelayBackoffResend slot s
  | .bulkCopyDone => Sys2Proof.Machine.execBulkCopyDone s
  | .activationFlushComplete => Sys2Proof.Machine.execActivationFlushComplete s
  | .dramSelfRefresh channel => Sys2Proof.Machine.execDramSelfRefresh channel s

end Sys2Proof.Machine
end

