-- ==== Sys2Proof/Machine/Step.lean ====
section
/-! DEFINITION. One step: the command at the front of the queue, or, with nothing queued, one tick of the clock. -/

namespace Sys2Proof.Machine

/-- Takes the command at the front of the queue and gives it its effect; on an empty queue one nanosecond of the model's
clock passes and nothing else happens (DESIGN CHOICE, log entry 2). -/
def step (s : State) : Host.Outcome State Fault Refusal :=
  match s.pending with
  | []      => .next { s with clock := s.clock + 1 }
  | c :: cs => exec c { s with pending := cs }

/-- `s` with the command the table word spells in front of its queue; `s` itself where the word spells none. -/
def State.withFetchWord (s : State) (nbits w : Nat) : State :=
  match decodeTableWord nbits w with
  | some c => { s with pending := c :: s.pending }
  | none   => s

end Sys2Proof.Machine
end

