-- ==== Sys2Proof/Safety.lean ====
section
/-! DEFINITION. What a good state is, and what a command leaves behind it: the terms in which claims are made. -/

namespace Sys2Proof.Machine

/-- The command is answered by a next state with that property. -/
def Gives (i : Instr) (s : State) (p : State → Prop) : Prop := ∃ t, exec i s = .next t ∧ p t

/-- The power state is P0 to P3, it is P0 outside Serving (R188, R415), an exit in progress left the state the module is in (R418),
and the module's time has not run backwards (R85). -/
def PowerOk (s : State) : Prop :=
  s.power.st ≤ 3 ∧ (s.modes.mode ≠ .serving → s.power.st = 0) ∧ (∀ e, s.power.exiting = some e → e.1 = s.power.st)
    ∧ s.modes.timeBase ≤ s.clock

/-- The records of a log of capacity `cap` whose next index is `next` are the newest ones written, in order, each with its index (R190,
R385). -/
def LogOk (cap : Nat) (log : List LogEntry) (next : Nat) : Prop :=
  log.length ≤ cap ∧ log.length ≤ next ∧ ∀ i e, log[i]? = some e → e.index = next - log.length + i

/-- The event log holds at most 65 536 records and the journal at most 4 096 (R190, R385). -/
def LogsOk (s : State) : Prop := LogOk 65536 s.logs.events s.logs.nextEv ∧ LogOk 4096 s.logs.journal s.logs.nextJn

/-- The invariant that every step keeps. -/
def Inv (s : State) : Prop := PowerOk s ∧ LogsOk s

/-- What no command takes back: the queue and the clock stay, what has left the module stays in order, indices, context numbers and
draws go on, and a good state stays good. -/
structure After (s t : State) : Prop where
  pending : t.pending = s.pending
  clock   : t.clock = s.clock
  rnd     : s.rnd ≤ t.rnd
  sent    : s.net.sent <+: t.net.sent
  nextId  : s.net.nextId ≤ t.net.nextId
  nextEv  : s.logs.nextEv ≤ t.logs.nextEv
  nextJn  : s.logs.nextJn ≤ t.logs.nextJn
  power   : PowerOk s → PowerOk t
  logs    : LogsOk s → LogsOk t

/-- The reply message `m` of a command has been sent by a link, or is held at one, in all its packets. -/
def Leaves (m : Msg) (t : State) : Prop :=
  ∃ credit seg, (∃ f ∈ t.net.sent, f.what = .gkp m credit false seg (List.range (packetCount m.body.length seg)))
    ∨ ∃ h ∈ t.net.held, h.what = .gkp m credit false seg (List.range (packetCount m.body.length seg))

/-- The reply has been given and the command's context is free: the message has left, is held at its link, or stands in the mailbox. -/
def Replied (x : Ctx) (r : Reply) (t : State) : Prop :=
  t.ctx? x.id = none
    ∧ if x.mailbox then t.sb.mb = .ready ∧ t.sb.reply = replyHeader (x.message r) 0 ++ r.body ∧ t.sb.readOff = 0 else Leaves (x.message r) t

/-- No command stands in the range-lock table without having gone on. -/
def NoneWaits (s : State) : Prop := ∀ y ∈ s.net.ctxs, y.phase ≠ .waiting

/-- The parts of the state: the fields of `State`, those of its transport side, its store and its cipher engine each on its own. -/
inductive Part where
  | pending | clock | rnd | supply | modes | spares | counts | ports | sessions | closed | ctxs | nextId | kept | held
  | sent | locks | vars | marks | logs | owners | keyspaces | stamps | entries | recs | groups | extents | fineNext | wear
  | gens | eraseSets | stale | heat | cache | holds | logA | logB | mapLog | dirty | images | patrolAt | patrolMoved
  | cycleHours | coh | quince | pages | kek | pipes | queue | sieves | relay | power | thermal | holdup | fw | sb | dbg
  | nor
  deriving DecidableEq, Repr

/-- The part is the same in both states. -/
def Same (s t : State) : Part → Prop
  | .pending => t.pending = s.pending
  | .clock => t.clock = s.clock
  | .rnd => t.rnd = s.rnd
  | .supply => t.supply = s.supply
  | .modes => t.modes = s.modes
  | .spares => t.spares = s.spares
  | .counts => t.counts = s.counts
  | .ports => t.ports = s.ports
  | .sessions => t.net.sessions = s.net.sessions
  | .closed => t.net.closed = s.net.closed
  | .ctxs => t.net.ctxs = s.net.ctxs
  | .nextId => t.net.nextId = s.net.nextId
  | .kept => t.net.kept = s.net.kept
  | .held => t.net.held = s.net.held
  | .sent => t.net.sent = s.net.sent
  | .locks => t.net.locks = s.net.locks
  | .vars => t.vars = s.vars
  | .marks => t.marks = s.marks
  | .logs => t.logs = s.logs
  | .owners => t.owners = s.owners
  | .keyspaces => t.store.keyspaces = s.store.keyspaces
  | .stamps => t.store.stamps = s.store.stamps
  | .entries => t.store.entries = s.store.entries
  | .recs => t.store.recs = s.store.recs
  | .groups => t.store.groups = s.store.groups
  | .extents => t.store.extents = s.store.extents
  | .fineNext => t.store.fineNext = s.store.fineNext
  | .wear => t.store.wear = s.store.wear
  | .gens => t.store.gens = s.store.gens
  | .eraseSets => t.store.eraseSets = s.store.eraseSets
  | .stale => t.store.stale = s.store.stale
  | .heat => t.store.heat = s.store.heat
  | .cache => t.store.cache = s.store.cache
  | .holds => t.store.holds = s.store.holds
  | .logA => t.store.logA = s.store.logA
  | .logB => t.store.logB = s.store.logB
  | .mapLog => t.store.mapLog = s.store.mapLog
  | .dirty => t.store.dirty = s.store.dirty
  | .images => t.store.images = s.store.images
  | .patrolAt => t.store.patrolAt = s.store.patrolAt
  | .patrolMoved => t.store.patrolMoved = s.store.patrolMoved
  | .cycleHours => t.store.cycleHours = s.store.cycleHours
  | .coh => t.coh = s.coh
  | .quince => t.quince = s.quince
  | .pages => t.cipher.pages = s.cipher.pages
  | .kek => t.cipher.kek = s.cipher.kek
  | .pipes => t.cipher.pipes = s.cipher.pipes
  | .queue => t.cipher.queue = s.cipher.queue
  | .sieves => t.sieves = s.sieves
  | .relay => t.relay = s.relay
  | .power => t.power = s.power
  | .thermal => t.thermal = s.thermal
  | .holdup => t.holdup = s.holdup
  | .fw => t.fw = s.fw
  | .sb => t.sb = s.sb
  | .dbg => t.dbg = s.dbg
  | .nor => t.nor = s.nor

/-- Only the parts of the list may differ. -/
def Keeps (ws : List Part) (s t : State) : Prop := ∀ p, p ∉ ws → Same s t p

/-- Every part but those of the list. -/
def Part.allBut (l : List Part) : List Part :=
  [.pending, .clock, .rnd, .supply, .modes, .spares, .counts, .ports, .sessions, .closed, .ctxs, .nextId, .kept,
   .held, .sent, .locks, .vars, .marks, .logs, .owners, .keyspaces, .stamps, .entries, .recs, .groups, .extents,
   .fineNext, .wear, .gens, .eraseSets, .stale, .heat, .cache, .holds, .logA, .logB, .mapLog, .dirty, .images,
   .patrolAt, .patrolMoved, .cycleHours, .coh, .quince, .pages, .kek, .pipes, .queue, .sieves, .relay, .power,
   .thermal, .holdup, .fw, .sb, .dbg, .nor].filter
    (fun p => !l.contains p)

/-- The parts of the state that a command may change; it leaves every other part as it is. -/
def Instr.writes : Instr → List Part
  | .pwrEnWatchStart | .alarmConditionEnd .. =>
    [.supply]
  | .linkAttemptTimeout .. | .pauseWatchdogHoldoffEnd .. | .neighbourAgeOut .. | .signalReturn .. =>
    [.ports]
  | .windowRebalance =>
    [.sessions]
  | .quinceUpdate .. =>
    [.quince]
  | .readS .. | .readE .. | .writeBack .. | .writeBackClean .. | .evict .. | .snoopInv .. | .snoopFetch .. | .presentClean ..
  | .presentData .. | .notPresent .. =>
    [.coh]
  | .stripeIdleClose .. =>
    [.groups]
  | .heatHalving =>
    [.heat]
  | .codeBankReloaded .. =>
    [.spares]
  | .sieveBatchAge .. =>
    [.sieves]
  | .resyncStateSave =>
    [.relay]
  | .temperatureHistorySample =>
    [.thermal]
  | .holdupTestStart =>
    [.holdup]
  | .fwStageIdle =>
    [.fw]
  | .mbData .. | .mbReply | .alertResponse | .smbusTimeout =>
    [.sb]
  | .consoleLine .. =>
    [.dbg]
  | .dramSelfRefresh .. =>
    [.power]
  | .mainRailsInRange | .sramFillComplete | .dramTrainingComplete | .confirmedImageRead =>
    [.modes, .dbg]
  | .plugInInsert .. | .cmisReadyTimeout .. | .plugInRemove .. | .cmisPoll .. | .linkDown .. =>
    [.ports, .sb]
  | .egressFrameTimeout .. =>
    [.kept, .held]
  | .logFlush .. =>
    [.logA, .logB]
  | .checkpointWrite =>
    [.dirty, .images]
  | .kek .. =>
    [.kek, .sb]
  | .traceSync .. =>
    [.rnd, .dbg]
  | .p3v3AuxInRange .. =>
    [.supply, .modes, .sb]
  | .dramFillComplete =>
    [.modes, .spares, .dbg]
  | .rebuildDone .. =>
    [.spares, .logs, .dbg]
  | .sieveIdle .. =>
    [.logs, .sieves, .dbg]
  | .powerExitComplete =>
    [.rnd, .power, .dbg]
  | .sbRegisterWrite .. =>
    [.ports, .marks, .sb]
  | .islandCodeLoaded =>
    [.modes, .ports, .sb, .dbg]
  | .pauseQuantaExpire .. =>
    [.ports, .kept, .held, .sent]
  | .shaperAdmit .. =>
    [.sessions, .ctxs, .owners, .keyspaces]
  | .quinceSweep .. =>
    [.counts, .logs, .quince, .dbg]
  | .sieveVisit .. =>
    [.counts, .logs, .sieves, .dbg]
  | .pauseWatchdog .. =>
    [.ports, .kept, .held, .sent, .sb]
  | .sessionIdle .. | .sessionFree .. =>
    [.counts, .sessions, .closed, .logs, .keyspaces]
  | .restartActivation =>
    [.modes, .counts, .logs, .relay, .dbg]
  | .linkUp .. | .failoverHold .. | .failoverBack .. =>
    [.ports, .nextId, .kept, .held, .sent, .sb]
  | .ackCoalesceExpire .. =>
    [.ports, .ctxs, .nextId, .kept, .held, .sent]
  | .retransmit .. =>
    [.ports, .nextId, .kept, .held, .sent, .relay]
  | .idleTimer .. =>
    [.groups, .logA, .logB, .mapLog, .power, .dbg]
  | .watermarkHoldoffEnd .. =>
    [.counts, .ports, .sessions, .nextId, .kept, .held, .sent, .marks, .logs, .keyspaces, .power]
  | .transportAck .. =>
    [.counts, .ports, .sessions, .nextId, .kept, .held, .sent, .marks, .logs, .keyspaces, .holds, .power, .sb]
  | .trunkLinkFail .. =>
    [.spares, .counts, .ports, .sessions, .nextId, .kept, .held, .sent, .marks, .logs, .keyspaces, .power, .sb]
  | .slotProgramDone .. | .confirmationWindowExpire =>
    [.counts, .ports, .sessions, .nextId, .kept, .held, .sent, .logs, .keyspaces, .power, .fw, .sb, .dbg]
  | .cipherUrgencyRaise .. =>
    [.counts, .ports, .sessions, .ctxs, .nextId, .kept, .held, .sent, .logs, .keyspaces, .pages, .pipes, .queue, .power]
  | .islandRetire .. =>
    [.spares, .counts, .ports, .sessions, .nextId, .kept, .held, .sent, .marks, .logs, .keyspaces, .power, .sb, .dbg]
  | .selftestEnd .. =>
    [.counts, .ports, .sessions, .nextId, .kept, .held, .sent, .logs, .keyspaces, .power, .fw, .sb, .dbg, .nor]
  | .standbyFail .. =>
    [.spares, .counts, .ports, .sessions, .nextId, .kept, .held, .sent, .marks, .logs, .keyspaces, .power, .fw, .sb,
      .dbg]
  | .assemblyTimeout .. | .sessionClose .. | .echo .. | .keyspaceQuery .. | .keyRetire .. | .fenceSet .. | .shaperSet ..
  | .powerPolicy .. | .orchardMapLoad .. | .healthRead .. | .identify .. | .logRead .. | .configGet ..
  | .sessionCloseDrained .. =>
    [.ports, .sessions, .ctxs, .nextId, .kept, .held, .sent, .locks, .keyspaces, .quince, .pages, .pipes, .queue, .relay,
      .power, .sb]
  | .cipherJobArrive .. =>
    [.counts, .ports, .sessions, .ctxs, .nextId, .kept, .held, .sent, .marks, .logs, .keyspaces, .pages, .pipes, .queue,
      .power, .sb]
  | .keyspaceCreate .. =>
    [.rnd, .ports, .sessions, .ctxs, .nextId, .kept, .held, .sent, .locks, .keyspaces, .quince, .pages, .pipes, .queue,
      .relay, .power, .sb]
  | .configSet .. =>
    [.ports, .sessions, .ctxs, .nextId, .kept, .held, .sent, .locks, .marks, .keyspaces, .quince, .pages, .pipes, .queue,
      .relay, .power, .sb]
  | .holdupTestNow .. =>
    [.ports, .sessions, .ctxs, .nextId, .kept, .held, .sent, .locks, .keyspaces, .quince, .pages, .pipes, .queue, .relay,
      .power, .holdup, .sb]
  | .fwStage .. | .fwActivate .. =>
    [.rnd, .ports, .sessions, .ctxs, .nextId, .kept, .held, .sent, .locks, .keyspaces, .quince, .pages, .pipes, .queue,
      .relay, .power, .fw, .sb]
  | .keyspaceDelete .. =>
    [.ports, .sessions, .ctxs, .nextId, .kept, .held, .sent, .locks, .logs, .keyspaces, .quince, .pages, .pipes, .queue,
      .sieves, .relay, .power, .sb, .dbg]
  | .go .. =>
    [.counts, .ports, .sessions, .ctxs, .nextId, .kept, .held, .sent, .locks, .marks, .logs, .keyspaces, .quince, .pages,
      .pipes, .queue, .relay, .power, .sb]
  | .keyLoad .. =>
    [.rnd, .supply, .ports, .sessions, .ctxs, .nextId, .kept, .held, .sent, .locks, .logs, .keyspaces, .quince, .pages,
      .pipes, .queue, .relay, .power, .sb, .dbg]
  | .fwAbort .. =>
    [.counts, .ports, .sessions, .ctxs, .nextId, .kept, .held, .sent, .locks, .logs, .keyspaces, .quince, .pages, .pipes,
      .queue, .relay, .power, .fw, .sb, .dbg]
  | .dormantDrained .. =>
    [.modes, .counts, .ports, .sessions, .ctxs, .nextId, .kept, .held, .sent, .locks, .logs, .keyspaces, .quince, .pages,
      .pipes, .queue, .relay, .power, .sb, .dbg]
  | .frameReceive .. =>
    [.counts, .ports, .sessions, .ctxs, .nextId, .kept, .held, .sent, .locks, .marks, .logs, .owners, .keyspaces, .holds,
      .quince, .pages, .pipes, .queue, .relay, .power, .sb]
  | .relaySet .. =>
    [.rnd, .counts, .ports, .sessions, .ctxs, .nextId, .kept, .held, .sent, .locks, .logs, .keyspaces, .holds, .quince,
      .pages, .pipes, .queue, .relay, .power, .sb, .dbg]
  | .fwConfirm .. =>
    [.counts, .ports, .sessions, .ctxs, .nextId, .kept, .held, .sent, .locks, .logs, .keyspaces, .quince, .pages, .pipes,
      .queue, .relay, .power, .fw, .sb, .dbg, .nor]
  | .pwrEnRise .. | .p12vInRange | .mainSupplyReenable =>
    [.rnd, .supply, .modes, .counts, .ports, .sessions, .ctxs, .nextId, .kept, .held, .sent, .locks, .logs, .keyspaces,
      .quince, .pages, .pipes, .queue, .sieves, .relay, .power, .fw, .sb, .dbg]
  | .standbyBooted | .handoverDone | .fallbackDone | .bulkCopyDone =>
    [.rnd, .modes, .counts, .ports, .sessions, .ctxs, .nextId, .kept, .held, .sent, .locks, .logs, .keyspaces, .quince,
      .pages, .pipes, .queue, .sieves, .relay, .power, .fw, .sb, .dbg, .nor]
  | .dieRetire .. | .ceDecay .. =>
    [.rnd, .modes, .spares, .counts, .ports, .sessions, .ctxs, .nextId, .kept, .held, .sent, .locks, .marks, .logs,
      .keyspaces, .quince, .pages, .pipes, .queue, .sieves, .relay, .power, .sb, .dbg, .nor]
  | .holdupTest .. | .sectionFail .. =>
    [.rnd, .modes, .counts, .ports, .sessions, .ctxs, .nextId, .kept, .held, .sent, .locks, .marks, .logs, .keyspaces,
      .quince, .pages, .pipes, .queue, .sieves, .relay, .power, .holdup, .sb, .dbg, .nor]
  | .settingsMigrated =>
    [.rnd, .modes, .counts, .ports, .sessions, .ctxs, .nextId, .kept, .held, .sent, .locks, .vars, .logs, .owners,
      .keyspaces, .quince, .pages, .pipes, .queue, .sieves, .relay, .power, .holdup, .sb, .dbg, .nor]
  | .get .. | .put .. | .putPosted .. | .delete .. | .appendSegment .. | .discard .. | .secureDiscard .. | .scanKeys ..
  | .abort .. | .head .. | .versionsNext .. | .sieveOpen .. | .sieveNext .. | .sieveClose .. | .relayedWrite ..
  | .rangeLockEnter .. | .mbAbort .. =>
    [.counts, .ports, .sessions, .ctxs, .nextId, .kept, .held, .sent, .locks, .marks, .logs, .owners, .keyspaces, .groups,
      .extents, .fineNext, .heat, .mapLog, .quince, .pages, .pipes, .queue, .relay, .power, .sb, .dbg]
  | .directoryRecovered .. =>
    [.rnd, .modes, .counts, .ports, .sessions, .ctxs, .nextId, .kept, .held, .sent, .locks, .logs, .keyspaces, .entries,
      .logA, .logB, .dirty, .quince, .pages, .pipes, .queue, .sieves, .relay, .power, .sb, .dbg, .nor]
  | .fillingComplete .. =>
    [.rnd, .supply, .modes, .counts, .ports, .sessions, .ctxs, .nextId, .kept, .held, .sent, .locks, .marks, .logs,
      .keyspaces, .quince, .pages, .pipes, .queue, .sieves, .relay, .power, .holdup, .fw, .sb, .dbg, .nor]
  | .sessionOpen .. =>
    [.rnd, .counts, .ports, .sessions, .closed, .ctxs, .nextId, .kept, .held, .sent, .locks, .logs, .owners, .keyspaces,
      .groups, .extents, .fineNext, .heat, .mapLog, .quince, .pages, .pipes, .queue, .relay, .power, .sb, .dbg]
  | .seedEnd .. =>
    [.counts, .ports, .sessions, .ctxs, .nextId, .kept, .held, .sent, .locks, .marks, .logs, .owners, .keyspaces, .groups,
      .extents, .fineNext, .heat, .mapLog, .quince, .pages, .pipes, .queue, .relay, .power, .sb, .dbg, .nor]
  | .cipherJobEnd .. =>
    [.counts, .ports, .sessions, .ctxs, .nextId, .kept, .held, .sent, .locks, .marks, .logs, .owners, .keyspaces, .groups,
      .extents, .fineNext, .heat, .cache, .mapLog, .quince, .pages, .pipes, .queue, .relay, .power, .sb, .dbg]
  | .pageReadComplete .. =>
    [.counts, .ports, .sessions, .ctxs, .nextId, .kept, .held, .sent, .locks, .logs, .owners, .keyspaces, .recs, .groups,
      .extents, .fineNext, .heat, .cache, .mapLog, .quince, .pages, .pipes, .queue, .relay, .power, .sb, .dbg]
  | .messageUnanswered .. | .relayForwardAnswer .. | .relayTimeout .. | .resyncStart .. | .relayBackoffResend .. =>
    [.rnd, .counts, .ports, .sessions, .ctxs, .nextId, .kept, .held, .sent, .locks, .marks, .logs, .owners, .keyspaces,
      .groups, .extents, .fineNext, .heat, .holds, .mapLog, .quince, .pages, .pipes, .queue, .relay, .power, .sb, .dbg]
  | .seedBegin .. =>
    [.rnd, .counts, .ports, .sessions, .ctxs, .nextId, .kept, .held, .sent, .locks, .marks, .logs, .owners, .keyspaces,
      .groups, .extents, .fineNext, .heat, .mapLog, .quince, .pages, .pipes, .queue, .relay, .power, .sb, .dbg, .nor]
  | .alarm .. =>
    [.supply, .counts, .ports, .sessions, .ctxs, .nextId, .kept, .held, .sent, .locks, .marks, .logs, .owners, .keyspaces,
      .groups, .extents, .fineNext, .heat, .mapLog, .quince, .pages, .kek, .pipes, .queue, .sieves, .relay, .power, .sb,
      .dbg]
  | .promote .. =>
    [.rnd, .modes, .counts, .ports, .sessions, .ctxs, .nextId, .kept, .held, .sent, .locks, .marks, .logs, .owners,
      .keyspaces, .groups, .extents, .fineNext, .heat, .mapLog, .quince, .pages, .pipes, .queue, .sieves, .relay, .power,
      .sb, .dbg]
  | .progressScan .. =>
    [.rnd, .counts, .ports, .sessions, .ctxs, .nextId, .kept, .held, .sent, .locks, .marks, .logs, .owners, .keyspaces,
      .groups, .extents, .fineNext, .heat, .holds, .mapLog, .quince, .pages, .pipes, .queue, .relay, .power, .fw, .sb,
      .dbg]
  | .thermalSample .. | .segmentRetry .. =>
    [.rnd, .counts, .ports, .sessions, .ctxs, .nextId, .kept, .held, .sent, .locks, .marks, .logs, .owners, .keyspaces,
      .groups, .extents, .fineNext, .heat, .holds, .mapLog, .quince, .pages, .pipes, .queue, .sieves, .relay, .power,
      .thermal, .sb, .dbg]
  | .settingsWriteDone .. =>
    Part.allBut [.pending, .clock, .modes, .spares, .closed, .stamps, .entries, .recs, .wear, .gens, .eraseSets, .stale,
      .logA, .logB, .dirty, .images, .patrolAt, .patrolMoved, .cycleHours, .coh, .kek, .thermal, .holdup, .fw]
  | .modeSet .. =>
    Part.allBut [.pending, .clock, .spares, .closed, .vars, .stamps, .entries, .recs, .wear, .gens, .eraseSets, .stale,
      .cache, .holds, .logA, .logB, .dirty, .images, .patrolAt, .patrolMoved, .cycleHours, .coh, .kek, .thermal, .holdup]
  | .programComplete .. =>
    Part.allBut [.pending, .clock, .supply, .closed, .vars, .stamps, .entries, .recs, .wear, .gens, .eraseSets, .stale,
      .cache, .logA, .logB, .dirty, .images, .patrolAt, .patrolMoved, .cycleHours, .coh, .kek, .thermal, .holdup, .fw]
  | .sanitise .. =>
    Part.allBut [.pending, .clock, .spares, .closed, .vars, .stamps, .entries, .recs, .wear, .gens, .eraseSets, .stale,
      .cache, .logA, .logB, .dirty, .images, .patrolAt, .patrolMoved, .cycleHours, .coh, .thermal, .holdup, .fw]
  | .rangeLockLeave .. | .gcTick | .rekeySweepStep .. =>
    Part.allBut [.pending, .clock, .rnd, .supply, .modes, .spares, .closed, .vars, .stamps, .wear, .gens, .eraseSets,
      .holds, .images, .patrolAt, .patrolMoved, .cycleHours, .coh, .kek, .sieves, .thermal, .holdup, .fw, .nor]
  | .segmentPoll .. =>
    Part.allBut [.pending, .clock, .supply, .spares, .closed, .vars, .stamps, .entries, .recs, .wear, .gens, .eraseSets,
      .stale, .cache, .logA, .logB, .dirty, .images, .patrolAt, .patrolMoved, .cycleHours, .coh, .kek, .fw]
  | .patrolStep .. =>
    Part.allBut [.pending, .clock, .rnd, .supply, .modes, .spares, .closed, .vars, .stamps, .wear, .gens, .eraseSets,
      .holds, .images, .coh, .kek, .sieves, .thermal, .holdup, .fw, .nor]
  | .eraseComplete .. =>
    Part.allBut [.pending, .clock, .supply, .closed, .vars, .stamps, .entries, .holds, .logA, .logB, .dirty, .images,
      .patrolAt, .patrolMoved, .cycleHours, .coh, .kek, .thermal, .holdup, .fw]
  | .p3v3AuxLoss | .pwrEnFall | .p12vLoss .. | .fillingTimeout =>
    Part.allBut [.pending, .clock, .vars, .marks, .owners, .stamps, .recs, .extents, .fineNext, .wear, .gens, .stale,
      .mapLog, .dirty, .images, .patrolAt, .patrolMoved, .cycleHours, .nor]
  | .keyspaceDeleteDrained .. =>
    Part.allBut [.pending, .clock, .modes, .spares, .closed, .vars, .stamps, .recs, .wear, .gens, .images, .patrolAt,
      .patrolMoved, .cycleHours, .coh, .kek, .thermal, .holdup, .fw]
  | .commitClaim .. =>
    Part.allBut [.pending, .clock, .supply, .modes, .spares, .closed, .vars, .wear, .gens, .images, .patrolAt,
      .patrolMoved, .cycleHours, .kek, .thermal, .holdup, .fw, .nor]
  | .restart .. =>
    Part.allBut [.pending, .clock, .vars, .marks, .owners, .stamps, .recs, .extents, .fineNext, .wear, .gens, .stale,
      .dirty, .images, .patrolAt, .patrolMoved, .cycleHours]
  | .dormantFlushComplete | .lastWaltzPhaseEnd .. | .activationFlushComplete =>
    Part.allBut [.pending, .clock, .vars, .marks, .owners, .stamps, .recs, .extents, .fineNext, .wear, .gens, .stale,
      .patrolAt, .patrolMoved, .cycleHours]
  | .islandFail .. | .ueFound .. | .repairComplete .. | .codeTrap .. | .islandReload .. =>
    Part.allBut [.pending, .clock, .vars, .stamps, .recs, .wear, .gens, .stale, .dirty, .images, .patrolAt, .patrolMoved,
      .cycleHours]
  | .sanitiseEraseComplete .. =>
    Part.allBut [.pending, .clock, .supply, .spares, .closed, .stamps, .patrolAt, .patrolMoved, .cycleHours, .kek,
      .thermal, .holdup, .fw]

end Sys2Proof.Machine
end

