-- ==== Sys2Proof/WellFormed.lean ====
section
/-! DEFINITION. Which commands are well formed: operands within the ranges the spec gives what they name. -/

namespace Sys2Proof

/-- A cage's CMIS facts: format codes of R98, times and powers that fit their fields. -/
def Cmis.wf (c : Cmis) : Bool := c.apps.all (fun a => a ≤ 3) && c.readyMs < 2 ^ 32 && c.pathMs < 2 ^ 32 && c.maxPowerDW < 2 ^ 16

/-- An address of its family. -/
def Addr.wf (a : Addr) : Bool := if a.v6 then a.val < 2 ^ 128 else a.val < 2 ^ 32

/-- An island number (R71). -/
def islandOk (i : Nat) : Bool := i ≤ 262

/-- A logical die: channel and position (R291). -/
def dieOk (channel position : Nat) : Bool := channel < 32 && position < 16

/-- A slice and a bucket of the directory (R230, R240). -/
def lineOk (slice bucket : Nat) : Bool := slice < 16 && bucket < 2 ^ 29

/-- The frame of a FRAME_RECEIVE: its addresses are of their family and its PFC quanta are of 16 bits (R106, R117). -/
def Frame.wf (f : Frame) : Bool :=
  f.srcMac < 2 ^ 48 && match f.l3 with
    | .pause q => q < 65536
    | .pfc _ qs => qs.length == 8 && qs.all (fun q => q < 65536)
    | .ip v6 _ _ src dst _ _ => src.wf && dst.wf && src.v6 == v6 && dst.v6 == v6
    | _ => true

/-- A well-formed command. A context, message, frame or slot number is any number: one that names nothing names an event that does
not occur. -/
def Instr.wf : Instr → Bool
  | .plugInInsert _ cmis => cmis.wf
  | .cmisPoll _ cmis => cmis.wf
  | .linkUp link => link < 8
  | .linkDown link _ => link < 8
  | .linkAttemptTimeout link _ => link < 8
  | .failoverHold link => link < 8
  | .failoverBack link => link < 8
  | .signalReturn link => link < 8
  | .frameReceive link frame => link < 8 && frame.wf
  | .pauseQuantaExpire link prio => link < 8 && prio ≤ 8
  | .pauseWatchdog link prio => link < 8 && prio ≤ 8
  | .pauseWatchdogHoldoffEnd link prio => link < 8 && prio ≤ 8
  | .neighbourAgeOut _ addr => addr.wf
  | .watermarkHoldoffEnd wm => 1 ≤ wm && wm ≤ 6
  | .quinceUpdate bank => bank < 4
  | .quinceSweep bank row _ => bank < 4 && row < 4096
  | .readS slice bucket => lineOk slice bucket
  | .readE slice bucket => lineOk slice bucket
  | .writeBack slice bucket => lineOk slice bucket
  | .writeBackClean slice bucket => lineOk slice bucket
  | .evict slice bucket => lineOk slice bucket
  | .snoopInv slice bucket => lineOk slice bucket
  | .snoopFetch slice bucket => lineOk slice bucket
  | .presentClean slice bucket => lineOk slice bucket
  | .presentData slice bucket => lineOk slice bucket
  | .notPresent slice bucket => lineOk slice bucket
  | .cipherJobEnd pipe => pipe < 8
  | .patrolStep _ _ finding => finding.corrected < 2 ^ 16
  | .rekeySweepStep page _ _ => page < 64
  | .dieRetire channel position cause => dieOk channel position && cause < 256
  | .rebuildDone channel position => dieOk channel position
  | .islandRetire island bank => islandOk island && bank < 64
  | .islandFail island _ => islandOk island
  | .trunkLinkFail hub dir => islandOk hub && dir < 8
  | .ueFound island asker _ _ _ _ => islandOk island && islandOk asker
  | .codeTrap island _ _ => islandOk island
  | .codeBankReloaded island => islandOk island
  | .ceDecay sram dram => sram.all (fun c => islandOk c.1) && dram.all (fun c => c.1 < 16)
  | .progressScan island => islandOk island
  | .sieveVisit slot => slot < 128
  | .sieveBatchAge slot => slot < 128
  | .sieveIdle slot => slot < 128
  | .resyncStart keyspace _ => keyspace < 4096
  | .idleTimer target => 1 ≤ target && target ≤ 3
  | .thermalSample readings => readings.length == 10 && readings.all (fun t => -128 < t && t < 128)
  | .holdupTest result => result.capacitancePct.length == 8 && result.resistancePct.length == 8
  | .sectionFail sectionNo => sectionNo < 8
  | .islandReload island _ => islandOk island
  | .mbData bytes _ => 1 ≤ bytes.length && bytes.length ≤ 255
  | .sbRegisterWrite code bytes _ => code < 256 && 1 ≤ bytes.length && bytes.length ≤ 255
  | .segmentPoll device _ => device ≤ 12 && device != 2
  | .segmentRetry device _ => device ≤ 12 && device != 2
  | .consoleLine line _ => line.all (fun b => b.toNat < 128)
  | .traceSync island => islandOk island
  | .dramSelfRefresh channel => channel < 16
  | .restart island => islandOk island
  | .eraseComplete _ failed => failed.all (fun d => dieOk d.1 d.2)
  | _ => true

end Sys2Proof
end

