-- ==== Sys2Proof/Certificates/Slice0/Obligations.lean ====
section
/-! DEFINITION. What the provers are asked about the machine. Every statement is about every state unless it names conditions on it; a
command is answered by a next state wherever `Gives` or an equation says so, and the state it gives is described after it. -/

open Sys2Proof Sys2Proof.Machine

/-- P3V3_AUX_IN_RANGE, PWR_EN_WATCH_START and P3V3_AUX_LOSS with the main supply off (R29, R35, R36, R478): the straps are sampled when the
auxiliary supply comes into range, and a FACTORY_N of 0 sets START_FAULT with cause 3 and counts no start fault; PWR_EN is watched once 50
ms have passed, and not before; with the auxiliary supply gone, nothing is watched. -/
def Obligations.AuxiliarySupply : Prop :=
  (∀ (straps : Straps) (s : State), s.supply.auxInRange = false → Gives (.p3v3AuxInRange straps) s (fun t =>
    t.supply = { s.supply with auxInRange := true, auxSince := s.clock, watched := false, pwrEn := false, armed := false, seated := true,
                               straps := straps }
    ∧ (straps.factoryN = false → t.modes = { s.modes with startFault := true, startCause := 3 })
    ∧ (straps.factoryN = true → s.modes.startFault = true ∧ s.modes.startCause = 3 → t.modes = { s.modes with startFault := false })
    ∧ (straps.factoryN = true → s.modes.startFault = false ∨ s.modes.startCause ≠ 3 → t.modes = s.modes)
    ∧ t.sb.alertStatus = 0 ∧ t.sb.request = [] ∧ t.sb.mb = .empty ∧ Keeps [.supply, .modes, .sb] s t))
  ∧ (∀ s : State, s.supply.auxInRange = true → s.supply.watched = false → s.supply.auxSince + 50000000 ≤ s.clock →
      exec .pwrEnWatchStart s = .next { s with supply := { s.supply with watched := true } })
  ∧ (∀ s : State, s.clock < s.supply.auxSince + 50000000 → exec .pwrEnWatchStart s = .next s)
  ∧ (∀ s : State, s.supply.auxInRange = true → s.supply.mainOn = false → exec .p3v3AuxLoss s = .next
      { s with supply := { s.supply with auxInRange := false, watched := false, armed := false, conditions := [] }
               modes := { s.modes with restartAt := none } })

/-- PWR_EN_RISE, P12V_IN_RANGE and MAIN_SUPPLY_REENABLE begin a start (R29, R50, R51, R85, R96): in Dormant, with PWR_EN high and P12V
within range, Filling begins at START_STEP 1 with the module time at 0 and START_FAULT clear. A FACTORY_N sampled 0 keeps the module in
Dormant (R36). -/
def Obligations.StartBegins : Prop :=
  let begun (s : State) (t : State) : Prop :=
    t.modes = { s.modes with mode := .filling, fillStart := s.clock, timeBase := s.clock, startStep := 1, starts := s.modes.starts + 1,
                             startFault := false, restartAt := none }
    ∧ t.supply.mainOn = true ∧ t.supply.erasedLocked = false
  (∀ (straps : Straps) (s : State), s.modes.mode = .dormant → s.supply.mainOn = false → s.supply.auxInRange = true →
    s.supply.watched = true → s.supply.pwrEn = false → s.supply.p12vOk = true → s.modes.restartAt = none →
    straps.factoryN = true → ¬ (s.modes.startFault = true ∧ s.modes.startCause = 3) →
    Gives (.pwrEnRise straps) s (fun t => begun s t ∧ t.supply.pwrEn = true ∧ t.supply.straps = straps))
  ∧ (∀ s : State, s.modes.mode = .dormant → s.supply.mainOn = false → s.supply.auxInRange = true →
    s.supply.watched = true → s.supply.pwrEn = true → s.supply.armed = true → s.supply.straps.factoryN = true → s.modes.restartAt = none →
    Gives .p12vInRange s (fun t => begun s t ∧ t.supply.p12vOk = true))
  ∧ (∀ (s : State) (at' : Nat), s.modes.mode = .dormant → s.modes.restartAt = some at' → at' + 50000000 ≤ s.clock →
    s.supply.p12vOk = true → s.supply.auxInRange = true → Gives .mainSupplyReenable s (begun s))
  ∧ (∀ (straps : Straps) (s : State), straps.factoryN = false → s.supply.watched = true → s.supply.pwrEn = false →
    exec (.pwrEnRise straps) s = .next
      { s with supply := { s.supply with pwrEn := true, armed := true, straps := straps }
               modes := { s.modes with startFault := true, startCause := 3 } })

/-- The steps of R50, each at its place and none out of it: a start that has completed step n and is told the next one is done stands at the
next step, still in Filling. The fill of DRAM leaves the distinct-word tables empty (R404). -/
def Obligations.StartSteps : Prop :=
  let at' (s : State) (n : Nat) : Prop := s.modes.mode = .filling ∧ s.supply.mainOn = true ∧ s.modes.startStep = n
  (∀ s : State, at' s 1 → Gives .mainRailsInRange s (fun t => t.modes = { s.modes with startStep := 2 } ∧ Keeps [.modes, .dbg] s t))
  ∧ (∀ s : State, at' s 2 → Gives .sramFillComplete s (fun t => t.modes = { s.modes with startStep := 4 } ∧ Keeps [.modes, .dbg] s t))
  ∧ (∀ s : State, at' s 4 → Gives .dramTrainingComplete s (fun t => t.modes = { s.modes with startStep := 5 } ∧ Keeps [.modes, .dbg] s t))
  ∧ (∀ s : State, at' s 5 → Gives .dramFillComplete s (fun t => t.modes = { s.modes with startStep := 6 }
      ∧ t.spares = { s.spares with ceCounts := [], ceRows := [] } ∧ Keeps [.modes, .dbg, .spares] s t))
  ∧ (∀ s : State, at' s 6 → Gives .confirmedImageRead s (fun t => t.modes = { s.modes with startStep := 7 } ∧ Keeps [.modes, .dbg] s t))
  ∧ (∀ s : State, at' s 7 → Gives .islandCodeLoaded s (fun t => t.modes = { s.modes with startStep := 8 }))
  ∧ (∀ s : State, s.supply.mainOn = false ∨ s.modes.mode ≠ .filling →
      ∀ i ∈ [Instr.mainRailsInRange, .sramFillComplete, .dramTrainingComplete, .dramFillComplete, .confirmedImageRead, .islandCodeLoaded,
             .settingsMigrated, .directoryRecovered [] [], .fillingComplete true], exec i s = .next s)

/-- SETTINGS_MIGRATED (R53, R54, R61): the copy with the higher sequence number is the block that counts. With no block the module keeps its
defaults; a block of the image's own format takes effect whole and clears SETTINGS_FORMAT. -/
def Obligations.SettingsRead : Prop :=
  let at8 (s : State) : Prop := s.modes.mode = .filling ∧ s.supply.mainOn = true ∧ s.modes.startStep = 8
  let block (s : State) : Option Settings := if s.nor.seqA < s.nor.seqB then s.nor.blockB else s.nor.blockA
  let image (s : State) : Nat := (if s.fw.active = 0 then s.fw.slot0 else s.fw.slot1).settings
  (∀ s : State, at8 s → block s = none → Gives .settingsMigrated s (fun t => t.modes = { s.modes with startStep := 9 } ∧ t.vars = s.vars
    ∧ t.store = s.store ∧ t.nor = s.nor))
  ∧ (∀ (s : State) (b : Settings), at8 s → block s = some b → b.format = image s → Gives .settingsMigrated s (fun t =>
    t.modes = { s.modes with startStep := 9, recorded := b.recorded, freezeCauses := b.freezeCauses &&& 0xDF#8, frozenFrom := b.frozenFrom,
                             sanitising := b.sanitising, resetConfig := b.resetConfig }
    ∧ t.vars = b.vars ∧ t.store.keyspaces.map (fun k => (k.id, k.encrypted, k.keyPage, k.quota)) =
        b.keyspaces.map (fun k => (k.id, k.encrypted, k.keyPage, k.quota))
    ∧ t.relay.map = b.map ∧ t.holdup.lastTestAt = b.lastTestAt ∧ t.nor = s.nor))

/-- DIRECTORY_RECOVERED and the completion mark (R262, R263, R429): a missing mark records freeze cause HOLDUP and a present one does not;
either is examined once. With no log record on flash the directory is empty. -/
def Obligations.DirectoryRecovered : Prop :=
  let at9 (s : State) : Prop := s.modes.mode = .filling ∧ s.supply.mainOn = true ∧ s.modes.startStep = 9
  (∀ (lost : List LostPage) (found : List Nat) (s : State), at9 s → Gives (.directoryRecovered lost found) s (fun t =>
    t.modes = { s.modes with
      startStep := 10, markFound := none
      freezeCauses := if s.modes.markFound = some false then s.modes.freezeCauses ||| 0x10#8 else s.modes.freezeCauses }
    ∧ t.store.recs = s.store.recs))
  ∧ (∀ s : State, at9 s → s.modes.markFound ≠ some false → s.store.logA.medium = [] → s.store.logB.medium = [] →
    Gives (.directoryRecovered [] []) s (fun t => t.store.entries = []))

/-- FILLING_COMPLETE enters the first mode of R56's list whose condition holds: Sanitising while a sanitise is recorded; Frozen while a
freeze cause other than OPERATOR holds, an uncharged bank being one; else the recorded mode, or Serving at the first start. -/
def Obligations.ModeAfterFilling : Prop :=
  ∀ (charged : Bool) (s : State), s.modes.mode = .filling → s.supply.mainOn = true → s.modes.startStep = 10 →
    Gives (.fillingComplete charged) s (fun t =>
      let causes := if charged = true then s.modes.freezeCauses else s.modes.freezeCauses ||| 0x10#8
      t.modes.startStep = 11 ∧ t.modes.freezeCauses = causes ∧ t.holdup.charged = charged ∧ t.supply.keptAlarms = []
      ∧ (s.modes.sanitising = true → t.modes.mode = .sanitising)
      ∧ (s.modes.sanitising = false → causes &&& 0xBF#8 ≠ 0 → t.modes.mode = .frozen)
      ∧ (s.modes.sanitising = false → causes &&& 0xBF#8 = 0 → s.modes.recorded = none → t.modes.mode = .serving)
      ∧ (s.modes.sanitising = false → causes &&& 0xBF#8 = 0 → s.modes.recorded = some .serving → t.modes.mode = .serving)
      ∧ (s.modes.sanitising = false → causes &&& 0xBF#8 = 0 → s.modes.recorded = some .shadowing → t.modes.mode = .shadowing)
      ∧ (s.modes.sanitising = false → causes = 0x40#8 → s.modes.recorded = some .frozen → t.modes.mode = .frozen))

/-- A start that is abandoned (R29, R51, R97): the main supply goes off and the module is in Dormant. FILLING_TIMEOUT is a start fault of
cause 1 and a fault that recurs one of cause 2 with its island; the loss of PWR_EN or P12V records none. -/
def Obligations.StartAbandoned : Prop :=
  (∀ s : State, s.modes.mode = .filling → s.modes.fillStart + 9000000000 ≤ s.clock → Gives .fillingTimeout s (fun t =>
    t.modes.mode = .dormant ∧ t.supply.mainOn = false ∧ t.supply.armed = false ∧ t.modes.startFault = true ∧ t.modes.startCause = 1
    ∧ t.modes.faultIsland = 0x1FF ∧ t.modes.startFaults = s.modes.startFaults + 1 ∧ t.modes.startStep = s.modes.startStep))
  ∧ (∀ s : State, s.clock < s.modes.fillStart + 9000000000 → exec .fillingTimeout s = .next s)
  ∧ (∀ (island : Nat) (s : State), s.modes.mode = .filling → s.supply.mainOn = true → s.waltzing = false →
      s.modes.restartFault = some island →
    Gives (.restart island) s (fun t => t.modes.mode = .dormant ∧ t.supply.mainOn = false ∧ t.modes.startFault = true
      ∧ t.modes.startCause = 2 ∧ t.modes.faultIsland = island ∧ t.modes.restartAt = none))
  ∧ (∀ s : State, s.modes.mode = .filling → s.supply.mainOn = true → s.supply.watched = true → s.supply.pwrEn = true →
    Gives .pwrEnFall s (fun t => t.modes.mode = .dormant ∧ t.supply.mainOn = false ∧ t.supply.pwrEn = false
      ∧ t.modes.startFaults = s.modes.startFaults))
  ∧ (∀ (removed : Bool) (s : State), s.modes.mode = .filling → s.supply.mainOn = true →
    Gives (.p12vLoss removed) s (fun t => t.modes.mode = .dormant ∧ t.supply.mainOn = false ∧ t.supply.p12vOk = false
      ∧ t.modes.startFaults = s.modes.startFaults))

/-- RESTART (R96): outside Filling the mode is recorded as the mode at turn-off, the main supply is off, the module is in Dormant, and the
island is remembered for the next start. -/
def Obligations.RestartTurnsOff : Prop :=
  ∀ (island : Nat) (s : State), s.modes.mode = .serving ∨ s.modes.mode = .shadowing ∨ s.modes.mode = .frozen → s.supply.mainOn = true →
    s.waltzing = false → Gives (.restart island) s (fun t =>
      t.modes.mode = .dormant ∧ t.modes.recorded = some s.modes.mode ∧ t.modes.restartAt = some s.clock ∧ t.modes.restartFault = some island
      ∧ t.supply.mainOn = false ∧ t.net.sessions = [] ∧ t.cipher.kek = none ∧ t.store.logA.buffer = [] ∧ t.store.logB.buffer = [])

/-- Last Waltz starts on the loss of PWR_EN, of P12V or of P3V3_AUX while the main supply is on and Filling is over (R422, R424, R431):
sessions and contexts end, the links are down, and the flush stands at phase 1 with its trigger. A fall of PWR_EN in Sanitising is handled as a
loss of P12V (R29); that its trigger is then 1 is the model's reading (log entry 67). -/
def Obligations.LastWaltzStarts : Prop :=
  let ready (s : State) : Prop := s.supply.mainOn = true ∧ s.modes.mode ≠ .filling ∧ s.modes.flush = none
  let begun (s t : State) (trigger : Nat) : Prop :=
    t.modes.flush = some { trigger := trigger, phase := 1, since := s.clock, energyCj := 0, dirtyMiB := 0 }
    ∧ t.modes.mode = s.modes.mode ∧ t.net.sessions = [] ∧ t.net.ctxs = [] ∧ t.net.held = [] ∧ (∀ l ∈ t.ports.links, l.up = false)
        ∧ t.power.st = 0
  (∀ s : State, ready s → s.supply.watched = true → s.supply.pwrEn = true → Gives .pwrEnFall s (fun t =>
      begun s t (if s.modes.mode = .sanitising then 1 else 2) ∧ t.supply.pwrEn = false))
  ∧ (∀ (removed : Bool) (s : State), ready s → Gives (.p12vLoss removed) s (fun t => begun s t 1 ∧ t.supply.p12vOk = false))
  ∧ (∀ s : State, ready s → s.supply.auxInRange = true → AlarmSource.supply ∈ s.supply.conditions →
      Gives .p3v3AuxLoss s (fun t => begun s t 4
      ∧ t.supply.auxInRange = false))

/-- ALARM and ALARM_CONDITION_END (R363, R364, R365, R368, R458): an alarm is counted with its cause. In Dormant and Filling its record is
kept for the end of the next Filling; elsewhere the KEK is gone, and with no command in flight every key page has been emptied of keys and
KEYS_ERASED is alerted. A condition that holds raises no second alarm until it has ended. -/
def Obligations.Alarms : Prop :=
  let bit (a : AlarmSource) : BitVec 8 := match a with
    | .tamper => 1
    | .latch => 2
    | .supply => 4
    | .temperature => 8
    | .clock => 16
  (∀ (a : AlarmSource) (s : State), a = .tamper ∨ a = .temperature ∨ a = .clock → s.supply.auxInRange = true →
    s.modes.mode = .dormant ∨ s.modes.mode = .filling → a ∉ s.supply.conditions → Gives (.alarm a) s (fun t =>
      t.supply.lastCauses = bit a ∧ t.supply.alarms = s.supply.alarms + 1 ∧ a ∈ t.supply.conditions
      ∧ t.supply.keptAlarms = s.supply.keptAlarms ++ [(bit a, if s.modes.mode = .dormant then 0 else 1)]))
  ∧ (∀ (a : AlarmSource) (s : State), a = .tamper ∨ a = .temperature ∨ a = .clock → s.supply.auxInRange = true →
    s.modes.mode ≠ .dormant → s.modes.mode ≠ .filling → a ∉ s.supply.conditions → Gives (.alarm a) s (fun t =>
      t.supply.lastCauses = bit a ∧ t.supply.alarms = s.supply.alarms + 1 ∧ a ∈ t.supply.conditions
      ∧ t.cipher.kek = none ∧ (s.net.ctxs = [] → t.sb.alertStatus.getLsbD 3 = true ∧
        ∀ p ∈ t.cipher.pages, p.cur.st ≠ .loaded ∧ p.prev.st ≠ .loaded)))
  ∧ (∀ (a : AlarmSource) (s : State), a ∈ s.supply.conditions → exec (.alarm a) s = .next s)
  ∧ (∀ (a : AlarmSource) (s : State), exec (.alarmConditionEnd a) s =
      .next { s with supply := { s.supply with conditions := s.supply.conditions.filter (· != a) } })

/-- LINK_DOWN, SIGNAL_RETURN and LINK_ATTEMPT_TIMEOUT (R102, R114, R118, R489): a link that was up is down from now with its lanes unlocked
and LINK_LOST set, and the other links and the held frames stay; signal that returns starts an attempt on every lane; an attempt past its
latest time has failed and the next one begins at once; after the third failed attempt on all its lanes, a link of a port that trains is
tried on the half of its lanes without a failing one, the lower half where both would do, and stays as it is where neither would. -/
def Obligations.LinkLoss : Prop :=
  (∀ (n : Nat) (failing : BitVec 8) (s : State), (s.link n).up = true → Gives (.linkDown n failing) s (fun t =>
    (t.link n).up = false ∧ (t.link n).downAt = some s.clock ∧ (t.link n).attempt = none
        ∧ t.ports.locked = s.ports.locked &&& ~~~s.fullLanes n
    ∧ (if n < 4 then t.ports.eventsA else t.ports.eventsB).getLsbD 0 = true ∧ (∀ m, m ≠ n → t.link m = s.link m) ∧ Keeps [.ports, .sb] s t))
  ∧ (∀ (n : Nat) (failing : BitVec 8) (s : State), (s.link n).up = false → exec (.linkDown n failing) s = .next s)
  ∧ (∀ (n : Nat) (s : State), n < s.ports.links.length → n < 8 → (s.link n).up = false → (s.link n).attempt = none →
    s.trainable (isPortB n) = true → s.fullLanes n ≠ 0 → Gives (.signalReturn n) s (fun t =>
      (t.link n).attempt = some s.clock ∧ (t.link n).lanes = s.fullLanes n ∧ (t.link n).failed = 0 ∧ (t.link n).up = false
      ∧ (∀ m, m ≠ n → t.link m = s.link m) ∧ Keeps [.ports] s t))
  ∧ (∀ (n since : Nat) (failing : BitVec 8) (s : State), n < 8 → (s.link n).up = false → (s.link n).attempt = some since →
    since + s.attemptLimit (isPortB n) ≤ s.clock → Gives (.linkAttemptTimeout n failing) s (fun t =>
      (t.link n).attempt = some s.clock ∧ (t.link n).failed = (s.link n).failed + 1 ∧ (t.link n).up = false
      ∧ ((s.link n).failed < 2 → (t.link n).lanes = (s.link n).lanes)
      ∧ t.ports.failing = s.ports.failing ||| (failing &&& s.fullLanes n)
      ∧ (∀ m, m ≠ n → t.link m = s.link m) ∧ Keeps [.ports] s t))
  ∧ (∀ (n since : Nat) (failing half : BitVec 8) (s : State), n < 8 → (s.link n).up = false → (s.link n).attempt = some since →
    since + s.attemptLimit (isPortB n) ≤ s.clock → 2 ≤ (s.link n).failed → s.var 0x0104 = 1 → (s.link n).lanes = s.fullLanes n →
    s.trains (isPortB n) = true → degradedHalf (s.fullLanes n) failing = some half →
    Gives (.linkAttemptTimeout n failing) s (fun t => (t.link n).lanes = half ∧ (t.link n).attempt = some s.clock))
  ∧ degradedHalf 0x0F#8 0x04#8 = some 0x03#8 ∧ degradedHalf 0x0F#8 0x01#8 = some 0x0C#8 ∧ degradedHalf 0x0F#8 0x00#8 = some 0x03#8
  ∧ degradedHalf 0x0F#8 0x05#8 = none ∧ degradedHalf 0x01#8 0x00#8 = none ∧ degradedHalf 0x30#8 0x10#8 = some 0x20#8

/-- LINK_UP (R102, R119, R489): an attempt that has trained brings its link up on the lanes it trained, counted in LINK_UPS. -/
def Obligations.LinkUp : Prop :=
  ∀ (n since : Nat) (s : State), n < 8 → (s.link n).up = false → (s.link n).attempt = some since → s.trainable (isPortB n) = true →
    s.fullLanes n ≠ 0 → (∀ m, (s.link m).waiting = false) → Gives (.linkUp n) s (fun t =>
      (t.link n).up = true ∧ (t.link n).upSince = s.clock ∧ (t.link n).ups = (s.link n).ups + 1 ∧ (t.link n).attempt = none
      ∧ (t.link n).degraded = ((s.link n).lanes != s.fullLanes n)
      ∧ t.ports.locked = s.ports.locked ||| (s.link n).lanes ∧ (∀ m, m ≠ n → t.link m = s.link m))

/-- Failover (R114, R115): a link down for FAILOVER_HOLD_MS gives its addresses to the link in the same position of the other port, or waits
for one to come up; they return after the link has been up for 1 s; a frame held for 1 s with no link to carry it is discarded. -/
def Obligations.Failover : Prop :=
  (∀ (n since : Nat) (s : State), n < 8 → s.ports.links.length = 8 → s.var 0x0105 = 1 → (s.link n).up = false → (s.link n).movedTo = none →
    (s.link n).downAt = some since → since + s.var 0x0106 * 1000000 ≤ s.clock → (s.link ((n + 4) % 8)).up = true →
    Gives (.failoverHold n) s (fun t => (t.link n).movedTo = some ((n + 4) % 8) ∧ (t.link n).waiting = false
      ∧ (if n < 4 then t.ports.eventsA else t.ports.eventsB).getLsbD 13 = true))
  ∧ (∀ (n since : Nat) (s : State), n < 8 → s.ports.links.length = 8 → s.var 0x0105 = 1 → (s.link n).up = false →
      (s.link n).movedTo = none →
    (s.link n).downAt = some since → since + s.var 0x0106 * 1000000 ≤ s.clock → (∀ m, (s.link m).up = false) →
    exec (.failoverHold n) s = .next (s.updLink n (fun k => { k with waiting := true })))
  ∧ (∀ (n since carrier : Nat) (s : State), n < 8 → (s.link n).up = true → (s.link n).movedTo = some carrier → (s.link n).upSince = since →
    since + 1000000000 ≤ s.clock → Gives (.failoverBack n) s (fun t => (t.link n).movedTo = none
      ∧ (if n < 4 then t.ports.eventsA else t.ports.eventsB).getLsbD 14 = true))
  ∧ (∀ (h : Held) (s : State), s.net.held.find? (fun g => g.id == h.id) = some h → (s.link (s.carrier h.link)).up = false →
    h.queued + 1000000000 ≤ s.clock → Gives (.egressFrameTimeout h.id) s (fun t =>
      t.net.held = s.net.held.filter (fun g => g.id != h.id) ∧ t.net.sent = s.net.sent ∧ Keeps [.held, .kept] s t))

/-- Pauses (R113, R117): a pause ends with its quanta; the watchdog ends one that has lasted PAUSE_WD_MS, discards further ones for 500 ms
and sets PAUSE_WATCHDOG; a neighbour entry not used for 60 s goes, and no other does. -/
def Obligations.PausesAndNeighbours : Prop :=
  (∀ (n prio since until' : Nat) (s : State), (prio, since, until') ∈ (s.link n).pauses → until' ≤ s.clock →
    Gives (.pauseQuantaExpire n prio) s (fun t => (t.link n).pauses = (s.link n).pauses.filter (fun p => p.1 != prio)
      ∧ (∀ m, m ≠ n → t.link m = s.link m)))
  ∧ (∀ (n prio since until' : Nat) (s : State), (prio, since, until') ∈ (s.link n).pauses → s.var 0x010A ≠ 0 →
    since + s.var 0x010A * 1000000 ≤ s.clock → Gives (.pauseWatchdog n prio) s (fun t =>
      (t.link n).pauses = (s.link n).pauses.filter (fun p => p.1 != prio)
      ∧ (t.link n).holdoff = (prio, s.clock + 500000000) :: (s.link n).holdoff
      ∧ (if n < 4 then t.ports.eventsA else t.ports.eventsB).getLsbD 12 = true))
  ∧ (∀ (n prio : Nat) (s : State), Gives (.pauseWatchdogHoldoffEnd n prio) s (fun t =>
      (n < s.ports.links.length → (t.link n).holdoff = (s.link n).holdoff.filter (fun p => !(p.1 == prio && p.2 ≤ s.clock)))
      ∧ (∀ m, m ≠ n → t.link m = s.link m) ∧ Keeps [.ports] s t))
  ∧ (∀ (b : Bool) (a : Addr) (s : State), exec (.neighbourAgeOut b a) s = .next { s with ports := { s.ports with
      neighbours := s.ports.neighbours.filter (fun n => !(n.1 == b && n.2.1 == a && n.2.2.2 + 60000000000 ≤ s.clock)) } })

/-- Plug-in modules (R1, R103, R104, R105, R119): a module that does not answer, or that the port cannot use, is refused with its reason and
held in low-power mode; one that is ready is accepted and leaves low-power mode; removal empties the cage and takes the port's links down. A
backplane part has no cages. -/
def Obligations.PlugInModules : Prop :=
  (∀ (b : Bool) (c : Cmis) (s : State), (s.cage b).present = false → Gives (.plugInInsert b c) s (fun t =>
    (isB8 = true → t = s)
    ∧ (isB8 = false → (t.cage b).present = true ∧ (t.cage b).cmis = some c ∧ (t.cage b).since = s.clock
      ∧ (s.supply.mainOn = false → (t.cage b).accepted = false ∧ (t.cage b).lowPower = true ∧ (t.cage b).refuse = 0)
      ∧ (s.supply.mainOn = true → s.format b ≠ 0 → c.answers = false → (t.cage b).accepted = false ∧ (t.cage b).lowPower = true
          ∧ (t.cage b).refuse = 4)
      ∧ (s.supply.mainOn = true → s.format b ≠ 0 → s.refuseReason b c = 0 → cmisReady c = true → c.fault = false →
          (t.cage b).accepted = true ∧ (t.cage b).lowPower = false ∧ (t.cage b).refuse = 0))))
  ∧ (∀ (b : Bool) (s : State), (s.cage b).present = true → (s.cage b).accepted = false → (s.cage b).refuse = 0 →
      (s.cage b).lowPower = false →
    (s.cage b).since + (match (s.cage b).cmis with | some m => if m.readyMs = 0 then 2000000000 else m.readyMs * 1000000 | none => 2000000000) ≤ s.clock →
    Gives (.cmisReadyTimeout b) s (fun t => (t.cage b).refuse = 4 ∧ (t.cage b).accepted = false ∧ (t.cage b).lowPower = true
      ∧ (∀ l ∈ portLinks b, (t.link l).up = false)))
  ∧ (∀ (b : Bool) (s : State), (s.cage b).present = true → Gives (.plugInRemove b) s (fun t =>
      (t.cage b).present = false ∧ (t.cage b).cmis = none ∧ (∀ l ∈ portLinks b, (t.link l).up = false)))
  ∧ (∀ (b : Bool) (c : Cmis) (s : State), (s.cage b).present = true → (s.cage b).accepted = true → s.supply.mainOn = true →
    Gives (.cmisPoll b c) s (fun t => (t.cage b).cmis = some c
      ∧ (c.fault = false → (t.cage b).accepted = true ∧ ∀ l, t.link l = s.link l)
      ∧ (c.fault = true → (t.cage b).accepted = false ∧ (t.cage b).refuse = 5 ∧ ∀ l ∈ portLinks b, (t.link l).up = false)))

/-- FRAME_RECEIVE (R106, R107, R118, R123): the checks in their order. A frame with a bad FCS or an uncorrectable codeword, a runt, an
oversized frame and one that finds no buffer set their port event and change nothing else but the port's; a frame on a link that is down is
not received. Of a good frame (R111, R116, R117): a PAUSE frame of a port in flow-control mode 1 pauses the link for its quanta, and an ARP
request for an address of the link is answered to its sender on that link. -/
def Obligations.FramesReceived : Prop :=
  let event (n k : Nat) (t : State) : Prop := (if n < 4 then t.ports.eventsA else t.ports.eventsB).getLsbD k = true
  let up (n : Nat) (s : State) : Prop := n < 8 ∧ (s.link n).up = true
  let good (n : Nat) (f : Frame) (s : State) : Prop := n < 8 ∧ (s.link n).up = true ∧ f.fcsOk = true ∧ f.fecOk = true ∧ 64 ≤ f.length ∧
    f.length ≤ s.mtu n + 22 ∧ f.bufferFree = true
  (∀ (n : Nat) (f : Frame) (s : State), (s.link n).up = false → exec (.frameReceive n f) s = .next s)
  ∧ (∀ (n : Nat) (f : Frame) (s : State), up n s → f.fecOk = false → Gives (.frameReceive n f) s (fun t =>
      event n 2 t ∧ event n 3 t ∧ Keeps [.ports, .sb] s t))
  ∧ (∀ (n : Nat) (f : Frame) (s : State), up n s → f.fcsOk = false → Gives (.frameReceive n f) s (fun t => event n 3 t
      ∧ Keeps [.ports, .sb] s t))
  ∧ (∀ (n : Nat) (f : Frame) (s : State), up n s → f.fcsOk = true → f.fecOk = true → f.length < 64 → Gives (.frameReceive n f) s (fun t =>
      event n 4 t ∧ Keeps [.ports, .sb] s t))
  ∧ (∀ (n : Nat) (f : Frame) (s : State), up n s → f.fcsOk = true → f.fecOk = true → 64 ≤ f.length → s.mtu n + 22 < f.length →
      Gives (.frameReceive n f) s (fun t => event n 5 t ∧ Keeps [.ports, .sb] s t))
  ∧ (∀ (n : Nat) (f : Frame) (s : State), up n s → f.fcsOk = true → f.fecOk = true → 64 ≤ f.length → f.length ≤ s.mtu n + 22 →
      f.bufferFree = false → Gives (.frameReceive n f) s (fun t => event n 6 t ∧ Keeps [.ports, .sb] s t))
  ∧ (∀ (n quanta : Nat) (f : Frame) (s : State), good n f s → f.dstMac = .macControl → f.l3 = .pause quanta → quanta ≠ 0 →
    s.var (if n < 4 then 0x0107 else 0x0108) = 1 → (s.link n).holdoff = [] → (s.link n).pauses = [] →
    Gives (.frameReceive n f) s (fun t => (t.link n).pauses = [(8, s.clock, s.clock + s.quantaNs n quanta)]))
  ∧ (∀ (n : Nat) (a : Addr) (f : Frame) (s : State), good n f s → f.dstMac = .broadcast → f.l3 = .arp (.request a) → f.tag = .untagged →
    s.var (0x0110 + n) = 0 → a ∈ s.linkAddrs n → (s.link n).movedTo = none → (s.link n).pauses = [] → Gives (.frameReceive n f) s (fun t =>
      { link := n, dest := { mac := f.srcMac, ip := a, port := 0, dst := a }, pcp := 0, tag := .untagged, dscp := s.var 0x010C,
        what := .arpReply a } ∈ t.net.sent))

/-- Sessions (R129, R130, R131, R134, R218): an accepted open makes a session with a free number, whose window is what the pool has to
grant, and answers DONE with the number and the window; an open that is repeated makes none and answers DONE_REPLAYED; with no entry free
and none idle it answers BACKOFF. An idle or closed session is freed, and its number rests. -/
def Obligations.SessionsOpenAndEnd : Prop :=
  (∀ (c n : Nat) (x : Ctx) (s : State), s.fresh? c 0x10 = some x → s.modeStops x = none → s.openLimits x = true → s.repeatOf x = none →
    s.fw.restarting = false → s.poolOpen (bits x.paramA.toNat 11 8) < s.poolEntries (bits x.paramA.toNat 11 8) → s.freeNumber = some n →
    let r := if bits x.paramA.toNat 5 0 = 0 then s.var 0x0201 else bits x.paramA.toNat 5 0
    let w := 1 + min (r - 1) (s.poolAvail (bits x.paramA.toNat 11 8))
    Gives (.sessionOpen c) s (fun t => n < 131072 ∧ s.session? n = none ∧ (∀ p ∈ s.net.closed, p.1 = n → p.2 + 1000000000 ≤ s.clock)
      ∧ Replied { x with session := some n, sessField := n, pool := bits x.paramA.toNat 11 8 }
          { Reply.plain .done with paramA := BitVec.ofNat 64 n, paramB := BitVec.ofNat 64 w } t
      ∧ ∃ y, t.session? n = some y ∧ y.fence = bits x.paramA.toNat 11 8 ∧ y.path = x.path ∧ y.nonce = x.paramB ∧ y.window = w
        ∧ y.highest = x.seq ∧ y.queue = [] ∧ y.lastHeard = s.clock ∧ y.closing = none))
  ∧ (∀ (c : Nat) (x : Ctx) (y : Session) (s : State), s.fresh? c 0x10 = some x → s.modeStops x = none → s.openLimits x = true →
      s.repeatOf x = some y →
    Gives (.sessionOpen c) s (fun t => t.ctx? c = none ∧ t.net.sessions = s.net.sessions
      ∧ Leaves ({ x with sessField := y.num }.message
          { Reply.plain .doneReplayed with paramA := BitVec.ofNat 64 y.num, paramB := BitVec.ofNat 64 y.granted }) t))
  ∧ (∀ (c : Nat) (x : Ctx) (s : State), s.fresh? c 0x10 = some x → s.modeStops x = none → s.openLimits x = true → s.repeatOf x = none →
    s.fw.restarting = false → s.poolEntries (bits x.paramA.toNat 11 8) ≤ s.poolOpen (bits x.paramA.toNat 11 8) →
    s.longestIdle (bits x.paramA.toNat 11 8) = none →
    Gives (.sessionOpen c) s (fun t => Replied x (Reply.withA .backoff (1000000 * s.var 0x0204)) t))
  ∧ (∀ (n : Nat) (y : Session) (s : State), s.session? n = some y → y.closing = none → (∀ x ∈ s.net.ctxs, x.session ≠ some n) →
    (∀ k ∈ s.net.kept, k.session ≠ n) → y.lastHeard + s.var 0x0203 * 1000000000 ≤ s.clock → Gives (.sessionIdle n) s (fun t =>
      t.net.sessions = s.net.sessions.filter (fun z => z.num != n) ∧ t.net.closed = setKey s.net.closed n s.clock
      ∧ t.logs.nextJn = s.logs.nextJn + (y.notices.filterMap (·.late)).length))
  ∧ (∀ (n : Nat) (y : Session) (s : State), s.session? n = some y → y.closed = true → (∀ x ∈ s.net.ctxs, x.session ≠ some n) →
    (∀ k ∈ s.net.kept, k.session ≠ n) → Gives (.sessionFree n) s (fun t =>
      t.net.sessions = s.net.sessions.filter (fun z => z.num != n) ∧ t.net.closed = setKey s.net.closed n s.clock))

/-- SESSION_CLOSE, its drain, ECHO and ABORT (R132, R172, R174, R204): a close closes the session to new commands and is answered once every
earlier command has its terminal status; an echo answers what it was sent; an abort ends the command it names before itself. -/
def Obligations.SessionCommands : Prop :=
  (∀ (c n : Nat) (x : Ctx) (y : Session) (s : State), s.fresh? c 0x11 = some x → s.modeStops x = none → x.keyLen = 0 → x.valLen = 0 →
    x.flags = 0 → x.paramA = 0 → x.paramB = 0 → x.session = some n → s.session? n = some y → y.closing = none →
    Gives (.sessionClose c) s (fun t => (∃ z, t.session? n = some { y with closing := some c } ∧ t.ctx? c = some z ∧ z.phase = .draining)
      ∧ Keeps [.sessions, .ctxs] s t))
  ∧ (∀ (c n : Nat) (x : Ctx) (s : State), s.ctx? c = some x → x.session = some n → x.phase = .draining → x.opcode = 0x11 →
    (∀ y ∈ s.net.ctxs, y.session = some n → y.id = c) → Gives (.sessionCloseDrained c) s (fun t => Replied x (Reply.plain .done) t
      ∧ ∀ z ∈ t.net.sessions, z.num = n → z.closed = true))
  ∧ (∀ (c : Nat) (x : Ctx) (s : State), s.fresh? c 0x12 = some x → s.modeStops x = none → x.keyLen = 0 → x.valLen ≤ 8960 → x.flags = 0 →
    Gives (.echo c) s (fun t => Replied x { Reply.plain .done with paramA := x.paramA, paramB := x.paramB, body := x.body } t
      ∧ t.net.ctxs = s.net.ctxs.filter (fun y => y.id != c)))
  ∧ (∀ (c n : Nat) (x y : Ctx) (s : State), s.fresh? c 0x0C = some x → s.modeStops x = none → x.keyLen = 0 → x.valLen = 0 → x.flags = 0 →
    x.paramA.toNat < 32 → x.paramB = 0 → x.paramA.toNat ≠ x.tag → x.session = some n → x.mailbox = false → y.mailbox = false → NoneWaits s →
    s.net.ctxs.find? (fun z => z.session == some n && z.tag == x.paramA.toNat && z.id != c && !z.reexec) = some y → s.ctx? y.id = some y →
    (isQueued y.opcode = true → y.committed = false → Gives (.abort c) s (fun t => Replied y (Reply.plain .aborted) t
        ∧ Replied x (Reply.withA .done x.paramA.toNat) t))
    ∧ (isQueued y.opcode = false ∨ y.committed = true → Gives (.abort c) s (fun t => Replied x (Reply.withA .alreadyDone x.paramA.toNat) t
        ∧ t.ctx? y.id = some y)))
  ∧ (∀ (c : Nat) (x : Ctx) (s : State), s.fresh? c 0x0C = some x → s.modeStops x = none → x.keyLen = 0 → x.valLen = 0 → x.flags = 0 →
    x.paramA.toNat < 32 → x.paramB = 0 → x.paramA.toNat = x.tag ∨ x.session = none → NoneWaits s →
    Gives (.abort c) s (fun t => Replied x (Reply.withA .notFound x.paramA.toNat) t))

/-- WINDOW_REBALANCE (R134, R219), for the only session of the commons: its window goes to its request, or to 1 once it has been idle for
WINDOW_IDLE_MS; its credit limit never moves back. -/
def Obligations.WindowMoves : Prop :=
  (∀ (y : Session) (s : State), s.net.sessions = [y] → y.fence = 0 → y.window ≤ 32 → y.request ≤ 32 → s.capacityUnits = 0 →
      s.internalContexts = 0 →
    (∀ o, (s.owner o).gc ≠ 3) → (s.idleSession y.num = false ∨ s.clock < y.lastHeard + s.var 0x0304 * 1000000) →
    Gives .windowRebalance s (fun t => t.net.sessions.map (·.window) = [y.request] ∧ Keeps [.sessions] s t))
  ∧ (∀ (y : Session) (s : State), s.net.sessions = [y] → y.fence = 0 → y.window ≤ 32 → s.capacityUnits = 0 → s.internalContexts = 0 →
    (∀ o, (s.owner o).gc ≠ 3) → s.idleSession y.num = true → y.lastHeard + s.var 0x0304 * 1000000 ≤ s.clock →
    Gives .windowRebalance s (fun t => t.net.sessions.map (·.window) = [1] ∧ Keeps [.sessions] s t))

/-- Assembly and acknowledgement (R126, R143, R144, R145, R148): a message not complete after 200 ms ends INCOMPLETE; a transport-ack goes
when no reply has come within ACK_COALESCE_US; a transport-ack that covers a kept message frees it and its read-holds, one that names none
is discarded; a kept message is sent again with the packets not reported as received, and is unanswered 3.2 ms after its eighth sending. -/
def Obligations.KeptMessages : Prop :=
  (∀ (c : Nat) (x : Ctx) (s : State), s.ctx? c = some x → x.phase = .assembling → x.admitted + 200000000 ≤ s.clock →
    Gives (.assemblyTimeout c) s (fun t => Replied x (Reply.plain .incomplete) t))
  ∧ (∀ (c n done : Nat) (x : Ctx) (s : State), s.ctx? c = some x → x.session = some n → x.completed = some done → x.acked = false →
    x.reexec = false → s.var 0x0202 ≠ 0 → done + s.var 0x0202 * 1000 ≤ s.clock → Gives (.ackCoalesceExpire c) s (fun t =>
      (∃ y, t.ctx? c = some y ∧ y.acked = true)
      ∧ ((∃ f ∈ t.net.sent, f.what = .ack (x.ackInfo (packetCount x.bodyLen (x.asm.seg.getD 1))) (s.credit x.session))
        ∨ ∃ h ∈ t.net.held, h.what = .ack (x.ackInfo (packetCount x.bodyLen (x.asm.seg.getD 1))) (s.credit x.session))))
  ∧ (∀ (a : AckInfo) (k : Kept) (s : State), s.net.kept.find? (AckInfo_names a) = some k → a.ackAll = true → k.id < s.net.nextId →
    Gives (.transportAck a) s (fun t => (∀ j ∈ t.net.kept, j.id ≠ k.id) ∧ t.store.holds = s.store.holds.filter (fun h => h.1 != k.id)))
  ∧ (∀ (a : AckInfo) (s : State), s.net.kept.find? (AckInfo_names a) = none → s.modes.mode = .dormant →
    exec (.transportAck a) s = .next { s with counts := { s.counts with discards := s.counts.discards + 1 } })
  ∧ (∀ (id ended : Nat) (k : Kept) (s : State), (∀ r ∈ s.relay.slots, r.id ≠ id) → s.net.kept.find? (fun k => k.id == id) = some k →
      k.ended = some ended → k.sends < 8 →
    ended + 50000 * 2 ^ (k.sends - 1) ≤ s.clock → k.seg ≤ s.payload k.path → Gives (.retransmit id) s (fun t =>
      (∃ j ∈ t.net.kept, j.id = id ∧ j.sends = k.sends + 1)
      ∧ ((∃ f ∈ t.net.sent, f.what = .gkp k.msg (s.credit (some k.session)) true k.seg k.unacked)
        ∨ ∃ h ∈ t.net.held, h.what = .gkp k.msg (s.credit (some k.session)) true k.seg k.unacked)))
  ∧ (∀ (id ended : Nat) (k : Kept) (s : State), (∀ r ∈ s.relay.slots, r.id ≠ id) → s.net.kept.find? (fun k => k.id == id) = some k →
      k.ended = some ended → 8 ≤ k.sends →
    ended + 3200000 ≤ s.clock → id < s.net.nextId →
    Gives (.messageUnanswered id) s (fun t => (∀ j ∈ t.net.kept, j.id ≠ id)
      ∧ t.counts.unanswered = s.counts.unanswered + (if k.msg.notice.isNone then 1 else 0)
      ∧ (k.late.isSome = true → s.logs.nextJn < t.logs.nextJn)))

/-- Watermarks (R149, R150): the crossings merged within a second of the last notice go in one notice when the second is over. -/
def Obligations.MergedCrossings : Prop :=
  ∀ (k : Nat) (m : Watermark) (at' : Nat) (s : State), 1 ≤ k → k ≤ 6 → s.marks.length = 6 → s.marks[k - 1]? = some m → 0 < m.merged →
    m.sentAt = some at' → at' + 1000000000 ≤ s.clock → Gives (.watermarkHoldoffEnd k) s (fun t =>
      t.marks = s.marks.set (k - 1) { m with sentAt := some s.clock, merged := 0 })

/-- The data and sieve commands that read, up to their shaper (R48, R155, R156, R157, R170, R173): the checks of R155 in their order, each
with its status; a command that passes them all waits for its tokens. -/
def Obligations.ReadsAdmitted : Prop :=
  let plain (x : Ctx) (a b : Bool) : Bool := x.keyLen == 0 && x.valLen == 0 && x.flagsWithin 0 && a && b
  ∀ row ∈ ([(Instr.get, 0x01, getLimits, true, true), (.head, 0x0D, headLimits, true,
      true), (.versionsNext, 0x0E, versionsLimits, true, true),
      (.scanKeys, 0x08, scanLimits, false, true),
      (.sieveOpen, 0x09, fun x => x.keyLen == 0 && x.flagsWithin 0 && x.paramA == 0 && x.paramB == 0 && descriptorOk x.body, false, true),
      (.sieveNext, 0x0A, fun x => plain x (x.paramA.toNat < 2 ^ 32) (x.paramB.toNat < 2 ^ 32), false, false),
      (.sieveClose, 0x0B, fun x => plain x (x.paramA.toNat < 2 ^ 32) (x.paramB == 0), false, false)] :
      List ((Nat → Instr) × Nat × (Ctx → Bool) × Bool × Bool)),
  ∀ (c : Nat) (x : Ctx) (s : State), s.fresh? c row.2.1 = some x → NoneWaits s →
    (∀ st, s.modeStops x = some st → Gives (row.1 c) s (Replied x (Reply.plain st)))
    ∧ (s.modeStops x = none → row.2.2.1 x = false → Gives (row.1 c) s (Replied x (Reply.plain .badLength)))
    ∧ (s.modeStops x = none → row.2.2.1 x = true →
        (s.ksMissing x = true → Gives (row.1 c) s (Replied x (Reply.plain .badKeyspace)))
        ∧ (s.ksMissing x = false →
            (∀ r, row.2.2.2.1 = true → s.misplaced x (isKeyRead x.opcode) = some r → Gives (row.1 c) s (Replied x r))
            ∧ (row.2.2.2.1 = false ∨ s.misplaced x (isKeyRead x.opcode) = none →
                (row.2.2.2.2 = true → s.ksLocked x.keyspace = true → Gives (row.1 c) s (Replied x (Reply.plain .keyspaceLocked)))
                ∧ (row.2.2.2.2 = false ∨ s.ksLocked x.keyspace = false → Gives (row.1 c) s (fun t =>
                    (∃ y, t.ctx? c = some y ∧ y.phase = .shaping ∧ y.id = c) ∧ t.store.entries = s.store.entries
                        ∧ t.store.recs = s.store.recs)))))

/-- The writes up to their shaper (R155, R156, R164, R175, R354, R375, R376, R400, R402): the checks of R155 in their order, then
REQUIRE_DIGEST and the digest of the bytes received; a write that passes waits for its tokens and, to an encrypted keyspace, has reserved a
use of its key. A RELAYED one takes no check 6, and its RECORD_CRC is compared once checks 7 and 8 have passed. -/
def Obligations.WritesAdmitted : Prop :=
  let passes (i : Instr) (c : Nat) (x : Ctx) (s : State) : Prop := Gives i s (fun t =>
    (∃ y, t.ctx? c = some y ∧ y.phase = .shaping ∧ y.keyUse = (s.usesKey x || x.keyUse)) ∧ t.store.entries = s.store.entries
        ∧ t.store.recs = s.store.recs
    ∧ ∀ k, s.keyspace? x.keyspace = some k → (t.page k.keyPage).reserved = (s.page k.keyPage).reserved + b1 (s.usesKey x))
  let conditions (i : Instr) (c : Nat) (x : Ctx) (s : State) : Prop :=
    let bare := x.writesValue && !x.flags.getLsbD 0 && (s.keyspace? x.keyspace).any (·.requireDigest)
    let wrong := x.writesValue && x.flags.getLsbD 0 && crc64 x.body != x.paramB
    (bare = true → Gives i s (Replied x (Reply.plain .badLength)))
    ∧ (bare = false → wrong = true → Gives i s (fun t => Replied x (Reply.plain .digestMismatch) t
        ∧ t.counts.digestMis = s.counts.digestMis + 1))
    ∧ (bare = false → wrong = false → passes i c x s)
  (∀ row ∈ [(Instr.put, 0x02), (.putPosted, 0x03), (.delete, 0x04), (.appendSegment, 0x05), (.discard, 0x06), (.secureDiscard, 0x07)],
    ∀ (c : Nat) (x : Ctx) (s : State), s.fresh? c row.2 = some x → x.relayed = false → NoneWaits s →
      (∀ st, s.modeStops x = some st → Gives (row.1 c) s (Replied x (Reply.plain st)))
      ∧ (s.modeStops x = none → writeLimits x = false → Gives (row.1 c) s (Replied x (Reply.plain .badLength)))
      ∧ (s.modeStops x = none → writeLimits x = true →
          (s.ksMissing x = true → Gives (row.1 c) s (Replied x (Reply.plain .badKeyspace)))
          ∧ (s.ksMissing x = false →
              (∀ r, s.misplaced x false = some r → Gives (row.1 c) s (Replied x r))
              ∧ (s.misplaced x false = none →
                  (x.writesValue = true → s.ksLocked x.keyspace = true → Gives (row.1 c) s (Replied x (Reply.plain .keyspaceLocked)))
                  ∧ (x.writesValue = false ∨ s.ksLocked x.keyspace = false →
                      (s.keyExhausted x = true → Gives (row.1 c) s (Replied x (Reply.plain .keyExhausted)))
                      ∧ (s.keyExhausted x = false → conditions (row.1 c) c x s))))))
  ∧ (∀ (c : Nat) (x : Ctx) (p : Prefix) (s : State), s.fresh? c x.opcode = some x → x.relayed = true → x.pre = some p → p.marker = 0 →
      NoneWaits s →
      s.modeStops x = none → writeLimits x = true → s.ksMissing x = false → x.writesValue = false ∨ s.ksLocked x.keyspace = false →
      s.keyExhausted x = false →
      (p.crc ≠ crc64 (x.key ++ x.body) → Gives (.relayedWrite c) s (fun t => Replied x (Reply.plain .digestMismatch) t
        ∧ t.counts.digestMis = s.counts.digestMis + 1 ∧ t.logs.nextEv = s.logs.nextEv + 1))
      ∧ (p.crc = crc64 (x.key ++ x.body) → conditions (.relayedWrite c) c x s))

/-- The marks of a seed (R375, R378): SEED_BEGIN sets PARTIAL_SEED of a keyspace that agrees with it, SEED_END clears it, and both are
stored; SEED_BEGIN has an absent keyspace created with PARTIAL_SEED and the attributes it carries. -/
def Obligations.SeedMarks : Prop :=
  (∀ (c kind : Nat) (x : Ctx) (p : Prefix) (k : Keyspace) (s : State), kind = 1 ∨ kind = 2 → s.marker? c kind = some (x, p) →
      s.modeStops x = none →
    markerLimits x = true → s.keyspace? x.keyspace = some k → s.ksMissing x = false → k.attrs = p.attrs.toNat → NoneWaits s →
    Gives (if kind = 1 then .seedBegin c else .seedEnd c) s (fun t => Replied x (Reply.plain .done) t
      ∧ (t.keyspace? x.keyspace).map (·.partialSeed) = some (decide (kind = 1))
      ∧ ∃ b, t.nor.blockA = some b ∧ t.nor.blockB = some b
          ∧ (b.keyspaces.find? (·.id == x.keyspace)).map (·.partialSeed) = some (decide (kind = 1))))
  ∧ (∀ (c : Nat) (x : Ctx) (p : Prefix) (s : State), s.marker? c 1 = some (x, p) → s.modeStops x = none → markerLimits x = true →
    s.keyspace? x.keyspace = none → s.createStatus x.keyspace p.attrs.toNat = none → NoneWaits s → Gives (.seedBegin c) s (fun t =>
      ∃ y k, t.ctx? c = some y ∧ y.phase = .settings ∧ y.change = some (.create k) ∧ k.id = x.keyspace ∧ k.attrs = p.attrs.toNat
        ∧ k.quota = p.quota ∧ k.partialSeed = true))

/-- SHAPER_ADMIT (R214, R333, R334, R336, R341): a RELAYED command is charged nothing. Another takes the tokens of its keyspace's bucket,
and then of the owner's, when both counts are 0 or above and it is the first waiter; a bucket below 0 holds it back, charging nothing. With
its tokens a command goes on to its range lock, or straight to its claim where it takes none. -/
def Obligations.ShaperAdmits : Prop :=
  let on (x : Ctx) : Phase := if x.opcode = 0x08 ∨ isSieve x.opcode = true then .ready else .locking
  let waits (c : Nat) (x : Ctx) (s : State) : Prop := s.ctx? c = some x ∧ x.phase = .shaping ∧ s.atHead x = true
  (∀ (c : Nat) (x : Ctx) (s : State), waits c x s → x.isShaped = false → Gives (.shaperAdmit c) s (fun t =>
    (∃ y, t.ctx? c = some y ∧ y.phase = on x) ∧ t.store.keyspaces = s.store.keyspaces ∧ t.owners = s.owners))
  ∧ (∀ (c : Nat) (x : Ctx) (k : Keyspace) (h : Shaper) (s : State), waits c x s → x.isShaped = true → x.ksTokens = false →
      s.firstWaiter x = true →
    s.keyspace? x.keyspace = some k → k.shaper = some h → h.stopped = false → (h.accrue s.clock).admits = true →
        (s.owner k.fence).shaper = none →
    Gives (.shaperAdmit c) s (fun t => (∃ y, t.ctx? c = some y ∧ y.phase = on x ∧ y.ksTokens = true) ∧ ∃ h',
      (t.keyspace? x.keyspace).bind (·.shaper) = some h'
      ∧ h'.bytes = (h.accrue s.clock).bytes - (if h.byteRate = 2 ^ 64 - 1 then 0 else x.shapedBytes)
      ∧ h'.ops = (h.accrue s.clock).ops - (if h.opRate = 2 ^ 64 - 1 then 0 else 1024) ∧ h'.at' = s.clock))
  ∧ (∀ (c : Nat) (x : Ctx) (k : Keyspace) (h : Shaper) (s : State), waits c x s → x.isShaped = true → x.ksTokens = false →
    s.keyspace? x.keyspace = some k → k.shaper = some h → h.stopped = false → (h.accrue s.clock).admits = false ∨ s.firstWaiter x = false →
    exec (.shaperAdmit c) s = .next s)
  ∧ (∀ (c : Nat) (x : Ctx) (h : Shaper) (s : State), waits c x s → x.isShaped = true → x.ksTokens = true → s.firstWaiter x = true →
    (s.owner (s.ksOwner x.keyspace)).shaper = some h → s.ksOwner x.keyspace < s.owners.length → (h.accrue s.clock).admits = true →
    Gives (.shaperAdmit c) s (fun t => (∃ y, t.ctx? c = some y ∧ y.phase = on x) ∧
      (t.owner (s.ksOwner x.keyspace)).shaper = some ((h.accrue s.clock).charge x.shapedBytes) ∧ t.store.keyspaces = s.store.keyspaces))
  ∧ (∀ h : Shaper, h.admits = true ↔ (h.byteRate = 2 ^ 64 - 1 ∨ 0 ≤ h.bytes) ∧ (h.opRate = 2 ^ 64 - 1 ∨ 0 ≤ h.ops))

/-- RANGE_LOCK_ENTER (R206, R213): an operation whose range a holder of the object covers in a conflicting mode waits in its entry. -/
def Obligations.LockConflict : Prop :=
  (∀ (c : Nat) (x : Ctx) (s : State), s.ctx? c = some x → x.phase = .locking → s.atHead x = true → NoneWaits s →
    (∃ e ∈ s.net.locks, e.keyspace = x.keyspace ∧ e.fp = x.fp) → (∀ e ∈ s.net.locks, ∀ r ∈ e.recs, r.op ≠ .cmd c) →
    (∀ e ∈ s.net.locks, e.keyspace = x.keyspace → e.fp = x.fp → ∃ h ∈ e.recs, h.held = true ∧ lockModesConflict h.mode x.lock.1 = true
      ∧ h.start < x.lock.2.2 ∧ x.lock.2.1 < h.stop) →
    Gives (.rangeLockEnter (.cmd c)) s (fun t => (∃ y, t.ctx? c = some y ∧ y.phase = .waiting) ∧ t.store.recs = s.store.recs
      ∧ t.store.entries = s.store.entries ∧ ∃ e ∈ t.net.locks, e.keyspace = x.keyspace ∧ e.fp = x.fp ∧ ∃ r ∈ e.recs, r.op = .cmd c
          ∧ r.held = false))
  ∧ (∀ m, lockModesConflict .read m = decide (m = .write)) ∧ (∀ m, lockModesConflict .write m = true)
  ∧ (∀ m, lockModesConflict .move m = decide (m ≠ .read))

/-- The lookup of a read at its grant (R160, R161, R162, R206): a key without a committed value is NOT_FOUND; an offset past the end of the
value is BAD_LENGTH; a GET of bytes goes on to read them, as many as the value has, the command asks for and a reply carries; a HEAD has the
value's stamp and its length. -/
def Obligations.ReadGranted : Prop :=
  let alone (c op : Nat) (x : Ctx) (s : State) : Prop := s.ctx? c = some x ∧ x.phase = .locking ∧ x.opcode = op ∧ s.atHead x = true
      ∧ NoneWaits s
    ∧ s.repairing x.fp = false ∧ (∀ e ∈ s.net.locks, ¬(e.keyspace = x.keyspace ∧ e.fp = x.fp))
        ∧ (∀ e ∈ s.net.locks, ∀ r ∈ e.recs, r.op ≠ .cmd c)
    ∧ (s.net.locks.filter (fun e => lockIsland e.fp == lockIsland x.fp)).length < 16384
  let decided (c : Nat) (s : State) (p : Reply → Prop) : Prop := Gives (.rangeLockEnter (.cmd c)) s (fun t =>
    ∃ y, t.ctx? c = some y ∧ y.phase = .ready ∧ p y.reply)
  (∀ (c op : Nat) (x : Ctx) (s : State), op = 0x01 ∨ op = 0x0D → alone c op x s →
    (∀ e, s.entry? x.keyspace x.fp x.key = some e → e.newest.tomb = true) → decided c s (· = Reply.plain .notFound))
  ∧ (∀ (c : Nat) (x : Ctx) (e : Entry) (s : State), alone c 0x0D x s → s.entry? x.keyspace x.fp x.key = some e → e.newest.tomb = false →
    decided c s (fun r => r.status = .done ∧ r.paramA = BitVec.ofNat 64 e.newest.headStamp
        ∧ r.paramB = BitVec.ofNat 64 (s.matchLength e.newest)))
  ∧ (∀ (c : Nat) (x : Ctx) (e : Entry) (s : State), alone c 0x01 x s → s.entry? x.keyspace x.fp x.key = some e → e.newest.tomb = false →
    s.matchLength e.newest < x.offset → decided c s (· = Reply.plain .badLength))
  ∧ (∀ (c : Nat) (x : Ctx) (e : Entry) (s : State), alone c 0x01 x s → s.entry? x.keyspace x.fp x.key = some e → e.newest.tomb = false →
    e.newest.segs = none → x.offset ≤ s.matchLength e.newest →
    let left := s.matchLength e.newest - x.offset
    let want := if x.valLen = 2 ^ 32 - 1 then left else x.valLen
    let n := min (min want left) (s.replyCap x)
    n ≠ 0 → Gives (.rangeLockEnter (.cmd c)) s (fun t => ∃ y, t.ctx? c = some y ∧ y.phase = .reading
        ∧ y.recs = [(e.newest.loc, x.offset, n)]
      ∧ y.reply.status = (if n < want ∧ n < left then .more else .done) ∧ y.reply.paramA = BitVec.ofNat 64 e.newest.stamp))

/-- The conditions of a write, decided at its grant (R164, R165, R168, R206): IF_ABSENT of a key with a committed value answers EXISTS and
IF_PRESENT of one without NOT_FOUND; so does a DELETE of a key without a committed value and a DISCARD of a key without an entry. -/
def Obligations.WriteConditionsAtGrant : Prop :=
  ∀ (c : Nat) (x : Ctx) (k : Keyspace) (s : State), s.ctx? c = some x → x.phase = .locking → s.atHead x = true → NoneWaits s →
    s.repairing x.fp = false → (∀ e ∈ s.net.locks, ¬(e.keyspace = x.keyspace ∧ e.fp = x.fp)) →
        (∀ e ∈ s.net.locks, ∀ r ∈ e.recs, r.op ≠ .cmd c) →
    (s.net.locks.filter (fun e => lockIsland e.fp == lockIsland x.fp)).length < 16384 → s.keyspace? x.keyspace = some k →
        x.relayed = false →
    x.pre = none → s.collides k.id x.fp x.key = false →
    let present := (s.entry? x.keyspace x.fp x.key).any (fun e => !e.newest.tomb)
    (x.opcode = 0x02 ∨ x.opcode = 0x03 → x.flags.getLsbD 1 = true → present = true →
        Gives (.rangeLockEnter (.cmd c)) s (Replied x (Reply.plain .exists')))
    ∧ (x.opcode = 0x02 ∨ x.opcode = 0x03 → x.flags.getLsbD 1 = false → x.flags.getLsbD 2 = true → present = false →
        Gives (.rangeLockEnter (.cmd c)) s (Replied x (Reply.plain .notFound)))
    ∧ (x.opcode = 0x04 → present = false → Gives (.rangeLockEnter (.cmd c)) s (Replied x (Reply.plain .notFound)))
    ∧ (x.opcode = 0x06 ∨ x.opcode = 0x07 → s.entry? x.keyspace x.fp x.key = none →
        Gives (.rangeLockEnter (.cmd c)) s (Replied x (Reply.plain .notFound)))

/-- RANGE_LOCK_LEAVE (R207, R208, R213): the operation is in no entry any more; a relocation that held its MOVE leaves a record with the
same key, stamp and value in the store. -/
def Obligations.LockLeft : Prop :=
  let gone (op : LockOp) (t : State) : Prop := ∀ e ∈ t.net.locks, ∀ r ∈ e.recs, r.op ≠ op
  (∀ (c : Nat) (s : State), (∀ x, s.ctx? c = some x → x.committed = true) → NoneWaits s → Gives (.rangeLockLeave (.cmd c)) s (fun t =>
    gone (.cmd c) t ∧ t.store.recs = s.store.recs ∧ t.store.entries = s.store.entries))
  ∧ (∀ (kind : MoveKind) (loc : Nat) (s : State), s.holdsLock (.move kind loc) = false → NoneWaits s →
      Gives (.rangeLockLeave (.move kind loc)) s (fun t =>
    gone (.move kind loc) t ∧ t.store.recs = s.store.recs ∧ t.store.entries = s.store.entries))
  ∧ (∀ (kind : MoveKind) (loc : Nat) (r : Rec) (s : State), s.holdsLock (.move kind loc) = true → s.rec? loc = some r → NoneWaits s →
    Gives (.rangeLockLeave (.move kind loc)) s (fun t => gone (.move kind loc) t ∧
      ∃ r' ∈ t.store.recs, r'.keyspace = r.keyspace ∧ r'.key = r.key ∧ r'.stamp = r.stamp ∧ r'.data = r.data ∧ r'.sealed = r.sealed))

/-- PAGE_READ_COMPLETE (R160, R303, R360): the bytes read become the reply's body and the read waits for its claim; an encrypted record goes
to the cipher step first; a record that cannot be read makes it MEDIA_ERROR. -/
def Obligations.PagesRead : Prop :=
  let reads (c loc a n : Nat) (x : Ctx) (r : Rec) (s : State) : Prop := s.ctx? c = some x ∧ x.phase = .reading ∧ x.recs = [(loc, a, n)]
    ∧ s.rec? loc = some r ∧ (x.mailbox = true ∨ ceilDiv n 4096 ≤ s.cellsFree x.pool) ∧ x.readFail = none
  (∀ (c loc a n step : Nat) (x : Ctx) (r : Rec) (s : State), reads c loc a n x r s → r.poison = false → r.sealed = none →
    (r.digest = none ∨ x.flags.getLsbD 0 = false) → Gives (.pageReadComplete c (.step step)) s (fun t =>
      ∃ y, t.ctx? c = some y ∧ y.phase = .ready ∧ y.reply = { x.reply with body := (r.data.drop a).take n }
          ∧ y.outCells = ceilDiv ((r.data.drop a).take n).length 4096))
  ∧ (∀ (c loc a n step : Nat) (x : Ctx) (r : Rec) (s : State), reads c loc a n x r s → r.poison = false → r.sealed.isSome = true →
    Gives (.pageReadComplete c (.step step)) s (fun t => ∃ y, t.ctx? c = some y ∧ y.phase = .opening))
  ∧ (∀ (c loc a n : Nat) (o : ReadOutcome) (x : Ctx) (r : Rec) (s : State), reads c loc a n x r s → r.poison = true →
    Gives (.pageReadComplete c o) s (fun t => (∃ y, t.ctx? c = some y ∧ y.phase = .ready ∧ y.reply = Reply.plain .mediaError)
      ∧ t.counts.mediaErrors = s.counts.mediaErrors + 1))

/-- Cipher jobs (R344, R354, R361, R362): a job that arrives starts on an idle pipeline of its owner, and a write then takes the next use of
the current key; with every pipeline of the owner at work on jobs of its class or higher it waits; a job that has spent 50 µs waiting takes
class 3. A job that ends sealing leaves the ciphertext and tag in the command's cells, which goes to its program. -/
def Obligations.CipherJobs : Prop :=
  (∀ (c : Nat) (x : Ctx) (k : Keyspace) (p : Pipe) (s : State), s.ctx? c = some x → x.phase = .sealing → x.sealGen = none →
    s.keyspace? x.keyspace = some k → s.hasJob (.cmd c) = false →
    s.cipher.pipes.find? (fun q => q.owner == s.pipeOwner x.keyspace && q.running.isNone) = some p →
        Gives (.cipherJobArrive (.cmd c)) s (fun t =>
      (∃ y, t.ctx? c = some y ∧ y.phase = .sealing ∧ y.sealGen = some ((s.page k.keyPage).cur.gen, (s.page k.keyPage).taken)
          ∧ y.keyUse = false)
      ∧ (t.page k.keyPage).taken = (s.page k.keyPage).taken + 1 ∧ (t.page k.keyPage).reserved = (s.page k.keyPage).reserved - 1
      ∧ ∃ q j, q ∈ t.cipher.pipes ∧ q.n = p.n ∧ q.running = some j ∧ j.of' = .cmd c ∧ j.cls = 1))
  ∧ (∀ (c : Nat) (x : Ctx) (s : State), s.ctx? c = some x → x.phase = .sealing → s.hasJob (.cmd c) = false →
    (∀ q ∈ s.cipher.pipes, q.owner = s.pipeOwner x.keyspace → ∃ j, q.running = some j ∧ 1 ≤ j.cls) →
        Gives (.cipherJobArrive (.cmd c)) s (fun t =>
      t.cipher.queue = s.cipher.queue ++ [{ of' := .cmd c, owner := s.pipeOwner x.keyspace, cls := 1, age := x.age, waited := 0, since := s.clock }]
      ∧ t.cipher.pipes = s.cipher.pipes ∧ t.cipher.pages = s.cipher.pages))
  ∧ (∀ (job : JobOf) (s : State), (∀ j ∈ s.cipher.queue, j.of' ≠ job) → Gives (.cipherUrgencyRaise job) s (fun t =>
      t.cipher.pipes = s.cipher.pipes.map (fun p => { p with suspended := p.suspended.map (fun j =>
        if j.of' = job ∧ j.cls < 3 ∧ 50000 ≤ j.waited + (s.clock - j.since) then { j with cls := 3 } else j) }) ∧ Keeps [.pipes] s t))
  ∧ (∀ (job : JobOf) (j : Job) (s : State), s.cipher.queue = [j] → j.of' = job → j.cls < 3 → 50000 ≤ j.waited + (s.clock - j.since) →
    (∀ q ∈ s.cipher.pipes, q.owner = j.owner → ∃ r, q.running = some r ∧ 3 ≤ r.cls) → Gives (.cipherUrgencyRaise job) s (fun t =>
      t.cipher.queue = [{ j with cls := 3 }] ∧ t.cipher.pipes = s.cipher.pipes))
  ∧ (∀ (c n gen use : Nat) (x : Ctx) (k : Keyspace) (slot : KeySlot) (p : Pipe) (j : Job) (s : State),
      s.cipher.pipes.find? (fun q => q.n == n) = some p →
    p.running = some j → p.suspended = [] → s.cipher.queue = [] → j.of' = .cmd c → s.ctx? c = some x → x.phase = .sealing →
    s.keyspace? x.keyspace = some k → x.sealGen = some (gen, use) → (s.page k.keyPage).slotOf gen = some slot → NoneWaits s →
    Gives (.cipherJobEnd n) s (fun t => ∃ y r, t.ctx? c = some y ∧ (y.phase = .programming ∨ y.phase = .spaceWait)
      ∧ r = ({ s.draft x with sealed := some (gen, use) } : Rec).seal slot use x.body ∧ y.body = r.data ++ bytesOfNat 16 r.gcmTag.toNat))

/-- Commands that change the settings (R175, R178, R179, R180, R181, R182, R183, R184, R192): with their checks passed they end no sooner
than the change is stored; until then the change is one that waits for its settings write, and nothing it names has changed. -/
def Obligations.SettingsCommands : Prop :=
  let admitted (c op : Nat) (x : Ctx) (s : State) : Prop := s.admin? c op = some x ∧ s.settingsBusy = false ∧ s.modeStops x = none
      ∧ s.settingsHeld = none
  let waits (i : Instr) (c : Nat) (ch : Change) (r : Reply) (s : State) : Prop := Gives i s (fun t =>
    (∃ y, t.ctx? c = some y ∧ y.phase = .settings ∧ y.change = some ch ∧ y.reply = r) ∧ Keeps [.ctxs, .rnd] s t)
  (∀ (c : Nat) (x : Ctx) (s : State), admitted c 0x20 x s → x.only 0 0 true true = true → s.createStatus x.keyspace x.paramA.toNat = none →
    waits (.keyspaceCreate c) c (.create (s.newKeyspace x.keyspace x.paramA.toNat x.paramB.toNat false)) (Reply.plain .done) s)
  ∧ (∀ (c : Nat) (x : Ctx) (key : BitVec 256) (s : State), admitted c 0x23 x s → s.keyTurn x = true → x.only 0 40 true false = true →
    x.paramA.toNat < 64 → s.unwrapKey x.body = some (some key) → (s.page x.paramA.toNat).cur.st = .empty →
    waits (.keyLoad c) c (.keyLoad x.paramA.toNat false key) (Reply.withA .done x.paramA.toNat) s)
  ∧ (∀ (c : Nat) (x : Ctx) (key : BitVec 256) (s : State), admitted c 0x24 x s → s.keyTurn x = true → x.only 0 40 true false = true →
    x.paramA.toNat < 64 → s.unwrapKey x.body = some (some key) → (s.page x.paramA.toNat).sweep = none →
        (s.page x.paramA.toNat).cur.st = .loaded →
    waits (.keyRetire c) c (.keyRetire x.paramA.toNat key) (Reply.plain .done) s)
  ∧ (∀ (c : Nat) (x : Ctx) (s : State), admitted c 0x28 x s → x.only 0 0 true false = true → s.fenceReply x = none →
    waits (.fenceSet c) c (.fence (bits x.paramA.toNat 3 0) (bits x.paramA.toNat 27 20) (bits x.paramA.toNat 19 12) (bits x.paramA.toNat 11 9)
      (bits x.paramA.toNat 8 4)) (Reply.plain .done) s)
  ∧ (∀ (c : Nat) (x : Ctx) (s : State), admitted c 0x29 x s → shaperLimits x = true → x.flags.getLsbD 1 = false →
      x.flags.getLsbD 2 = false →
    s.ksMissing x = false →
        waits (.shaperSet c) c (.shaper false x.keyspace false (x.flags.getLsbD 0) (bits (natOfBytes (x.body.take 32)) 255 192)
      (bits (natOfBytes (x.body.take 32)) 191 128) (bits (natOfBytes (x.body.take 32)) 127 64) (bits (natOfBytes (x.body.take 32)) 63 0)) (Reply.plain .done) s)
  ∧ (∀ (c : Nat) (x : Ctx) (s : State), admitted c 0x2A x s → x.only 0 0 true true = true → x.paramA.toNat < 4 → x.paramB.toNat < 2 ^ 48 →
    bits x.paramB.toNat 47 32 = 0 ∨ 10 ≤ bits x.paramB.toNat 47 32 → varConditions (s.policyVars x) = true →
    waits (.powerPolicy c) c (.power (varIn (s.policyVars x) 0x0B01) (varIn (s.policyVars x) 0x0B02) (varIn (s.policyVars x) 0x0B03)
      (varIn (s.policyVars x) 0x0B04)) (Reply.plain .done) s)
  ∧ (∀ (c : Nat) (x : Ctx) (us : List Succ) (s : State), admitted c 0x30 x s → relayLimits x = true → s.ksMissing x = false →
      bit x.paramA.toNat 3 = false →
    parseSuccs (bits x.paramA.toNat 1 0) x.body = some us → s.seesCycle us = false → waits (.relaySet c) c (.relay x.keyspace
      (if bits x.paramA.toNat 1 0 = 0 then none else some { fromMap := false, succs := us, timeout := x.paramB.toNat })) (Reply.plain .done) s)
  ∧ (∀ (c : Nat) (x : Ctx) (m : OrchardMap) (s : State), admitted c 0x31 x s → x.keyLen = 0 → x.flagsWithin 0 = true →
      x.paramA.toNat < 2 ^ 32 → x.paramB = 0 →
    parseMap x.paramA.toNat x.body = some m → (∀ n, s.relay.map = some n → n.epoch < x.paramA.toNat) →
    waits (.orchardMapLoad c) c (.map x.paramA.toNat x.body) (Reply.plain .done) s)
  ∧ (∀ (c v : Nat) (x : Ctx) (d : VarDesc) (s : State), admitted c 0x3D x s → s.checkSet x = .inr (d, v) →
      isStatusVar x.paramA.toNat = false →
    ¬(x.paramA.toNat = 0x0B06 ∧ v = 1) → waits (.configSet c) c (.config x.paramA.toNat v) (Reply.plain .done) s)

/-- SETTINGS_WRITE_DONE (R54, R164, R175, R181, R182, R192, R226, R337): both NOR copies hold the settings with the change, with one more
sequence number, and the waiting command ends DONE. A variable reads its new value, a keyspace exists, a shaper starts full, power limits
hold. -/
def Obligations.SettingsWritten : Prop :=
  let stored (t : State) : Prop := ∃ b, t.nor.blockA = some b ∧ t.nor.blockB = some b ∧ t.nor.seqA = t.nor.seqB ∧ b.vars = t.vars
      ∧ b.keyspaces = t.store.keyspaces
  let quiet (s : State) : Prop := NoneWaits s ∧ ∀ r ∈ s.relay.slots, r.waiting = true ∨ r.ended.isSome = true ∨ r.sends ≠ 1
  let waits (c : Nat) (ch : Change) (x : Ctx) (s : State) : Prop := s.ctx? c = some x ∧ x.phase = .settings ∧ x.change = some ch
      ∧ x.opcode ≠ 0x21 ∧ quiet s
  (∀ (c id v : Nat) (x : Ctx) (d : VarDesc) (s : State), waits c (.config id v) x s → varDesc id = some d → isStatusVar id = false →
    id ≠ 0x0101 ∧ id ≠ 0x0102 ∧ id ≠ 0x0B01 ∧ id ≠ 0x0B06 ∧ id ≠ 0x0D01 → Gives (.settingsWriteDone c) s (fun t =>
      t.vars = setVarIn s.vars id v ∧ t.var id = v ∧ stored t ∧ t.nor.seqA = max s.nor.seqA s.nor.seqB + 1
          ∧ t.store.keyspaces = s.store.keyspaces ∧
      Replied x { Reply.plain .done with paramA := BitVec.ofNat 64 v, paramB := BitVec.ofNat 64 id, body := if d.width = 128 then bytesOfNat 16 v else [] } t))
  ∧ (∀ (c : Nat) (k : Keyspace) (x : Ctx) (s : State), waits c (.create k) x s → Gives (.settingsWriteDone c) s (fun t =>
      t.store.keyspaces = s.store.keyspaces ++ [k] ∧ stored t ∧ t.vars = s.vars ∧ Replied x x.reply t))
  ∧ (∀ (c ks br bd or' od : Nat) (x : Ctx) (k : Keyspace) (s : State), waits c (.shaper false ks false false br bd or' od) x s →
      s.keyspace? ks = some k → k.shaper = none → Gives (.settingsWriteDone c) s (fun t => ∃ h, (t.keyspace? ks).bind (·.shaper) = some h ∧
        h.byteRate = br ∧ h.byteDepth = bd ∧ h.opRate = or' ∧ h.opDepth = od ∧ h.bytes = bd ∧ h.ops = 1024 * od ∧ h.stopped = false
            ∧ stored t))
  ∧ (∀ (c deepest p1 p2 p3 : Nat) (x : Ctx) (s : State), waits c (.power deepest p1 p2 p3) x s → Gives (.settingsWriteDone c) s (fun t =>
      t.var 0x0B01 = deepest ∧ t.var 0x0B02 = p1 ∧ t.var 0x0B03 = p2 ∧ t.var 0x0B04 = p3 ∧ stored t ∧ Replied x x.reply t))
  ∧ (∀ (c ks : Nat) (x : Ctx) (k : Keyspace) (s : State), waits c (.relay ks none) x s → s.keyspace? ks = some k →
      Gives (.settingsWriteDone c) s (fun t =>
      (t.keyspace? ks).bind (·.chain) = none ∧ (∀ p ∈ t.relay.pairs, p.keyspace ≠ ks) ∧ stored t ∧ Replied x x.reply t))
  ∧ (∀ (c n : Nat) (key : BitVec 256) (x : Ctx) (s : State), waits c (.keyLoad n false key) x s → (s.page n).cur.st = .empty →
      Gives (.settingsWriteDone c) s (fun t =>
      (t.page n).cur.st = .loaded ∧ (t.page n).cur.gen = 1 ∧ (t.page n).cur.key = key ∧ (t.page n).cur.identity = keyIdentity key
      ∧ (t.page n).prev = (s.page n).prev ∧ stored t))
  ∧ (∀ (c n : Nat) (key : BitVec 256) (x : Ctx) (s : State), waits c (.keyRetire n key) x s → s.keyInUse n = true →
      exec (.settingsWriteDone c) s = .next s)
  ∧ (∀ (c n : Nat) (key : BitVec 256) (x : Ctx) (s : State), waits c (.keyRetire n key) x s → s.keyInUse n = false →
      Gives (.settingsWriteDone c) s (fun t =>
      (t.page n).cur.st = .loaded ∧ (t.page n).cur.gen = ((s.page n).cur.gen + 1) % 2 ^ 32 ∧ (t.page n).cur.key = key
          ∧ (t.page n).prev = (s.page n).cur
      ∧ (t.page n).taken = 0 ∧ stored t))

/-- What the module answers of itself and changes at once (R177, R178, R187, R189, R190, R192, R385, R427). -/
def Obligations.AdminAnswers : Prop :=
  let admitted (c op : Nat) (x : Ctx) (s : State) : Prop := s.admin? c op = some x ∧ s.modeStops x = none
  let tells (i : Instr) (x : Ctx) (r : Reply) (s : State) : Prop := Gives i s (fun t => Replied x r t
      ∧ Keeps [.ports, .sessions, .ctxs, .nextId, .kept,
    .held, .sent, .locks, .keyspaces, .quince, .pages, .pipes, .queue, .relay, .power, .sb] s t)
  (∀ (c : Nat) (x : Ctx) (k : Keyspace) (s : State), admitted c 0x22 x s → x.only 1 0 false false = true → s.keyspace? x.keyspace = some k →
      s.ksMissing x = false →
    Gives (.keyspaceQuery c) s (fun t => Replied x { Reply.plain .done with body := s.queryBody k } t ∧ (s.queryBody k).length = 64 ∧
      (t.keyspace? x.keyspace) = some (if x.flags.getLsbD 0 then { k with lateSticky := false } else k) ∧ t.store.recs = s.store.recs))
  ∧ (∀ (c p : Nat) (b : Bytes) (x : Ctx) (s : State), admitted c 0x38 x s → x.only 0 0 true false = true → x.paramA.toNat = p →
      s.healthPage p = some b →
    tells (.healthRead c) x { Reply.plain .done with body := b } s)
  ∧ (∀ (p : Nat) (s : State), (s.healthPage p).isSome = true ↔ p ≤ 10)
  ∧ (∀ (c : Nat) (x : Ctx) (s : State), admitted c 0x38 x s → 10 < x.paramA.toNat → tells (.healthRead c) x (Reply.plain .badLength) s)
  ∧ (∀ (c : Nat) (x : Ctx) (s : State), admitted c 0x39 x s → x.only 0 0 false false = true →
      tells (.identify c) x { Reply.plain .done with body := s.identity } s)
  ∧ (∀ (c : Nat) (x : Ctx) (s : State), admitted c 0x3A x s → x.keyLen = 0 → x.flagsWithin 0 = true → 280 ≤ x.valLen → x.paramB.toNat < 2 →
    let log := if x.paramB.toNat = 0 then s.logs.events else s.logs.journal
    let next := if x.paramB.toNat = 0 then s.logs.nextEv else s.logs.nextJn
    tells (.logRead c) x (logReply log next x.paramA.toNat (min x.valLen (s.replyCap x))) s)
  ∧ (∀ (c : Nat) (x : Ctx) (d : VarDesc) (s : State), admitted c 0x3C x s → x.varNamed = some d → x.valLen = 0 → x.paramB = 0 →
    tells (.configGet c) x { Reply.plain .done with paramA := BitVec.ofNat 64 (s.readVar x.paramA.toNat), paramB := BitVec.ofNat 64 x.paramA.toNat, body := if d.width = 128 then bytesOfNat 16 (s.readVar x.paramA.toNat) else [] } s)
  ∧ (∀ (c v : Nat) (x : Ctx) (d : VarDesc) (s : State), admitted c 0x3D x s → s.settingsBusy = false → s.checkSet x = .inr (d, v) →
      x.paramA.toNat = 0x0205 →
    Gives (.configSet c) s (fun t => t.marks = clearMarks s.marks v ∧ t.vars = s.vars ∧ t.nor = s.nor))
  ∧ (∀ (c : Nat) (x : Ctx) (s : State), admitted c 0x3D x s → s.isTestNow x = true → s.modes.mode.service = true → s.holdup.testing = none →
    Gives (.holdupTestNow c) s (fun t => t.holdup.testing = some s.clock ∧ t.readVar 0x0B06 = 1 ∧ t.nor = s.nor))
  ∧ (∀ (c : Nat) (x : Ctx) (key : BitVec 256) (s : State), admitted c 0x23 x s → s.settingsBusy = false → s.keyTurn x = true →
      x.only 0 40 true false = true →
    x.paramA.toNat < 64 → s.unwrapKey x.body = some (some key) → (s.page x.paramA.toNat).cur.st = .recorded →
        (s.page x.paramA.toNat).cur.identity = keyIdentity key →
    Gives (.keyLoad c) s (fun t => Replied x (Reply.withA .done x.paramA.toNat) t ∧
      (t.page x.paramA.toNat).cur = { (s.page x.paramA.toNat).cur with st := .loaded, key := key } ∧ t.nor = s.nor))

/-- Deleting a keyspace, and PROMOTE (R176, R185, R266, R341, R350, R394): a deletion waits for the commands accepted before it, with its
shaper stopped and its sieves ended; then the keyspace, its keys and its chain are gone while its highest stamp stands. PROMOTE ends
INCOMPLETE with incomplete keyspaces unless it forces. -/
def Obligations.KeyspacesEnd : Prop :=
  let admitted (c op : Nat) (x : Ctx) (s : State) : Prop := s.admin? c op = some x ∧ s.modeStops x = none
  (∀ (c : Nat) (x : Ctx) (k : Keyspace) (s : State), admitted c 0x21 x s → x.only 1 0 false false = true → s.keyspace? x.keyspace = some k →
      s.ksMissing x = false →
    k.deleting = none → s.settingsHeld = none → Gives (.keyspaceDelete c) s (fun t => (∃ y, t.ctx? c = some y ∧ y.phase = .draining) ∧
      (∃ k', t.keyspace? x.keyspace = some k' ∧ k'.deleting = some c ∧ ∀ h, k'.shaper = some h → h.stopped = true) ∧
      (∀ v ∈ t.sieves.list, v.keyspace ≠ x.keyspace) ∧ t.store.entries = s.store.entries ∧ t.store.recs = s.store.recs))
  ∧ (∀ (c : Nat) (x y : Ctx) (k : Keyspace) (s : State), s.ctx? c = some x → x.opcode = 0x21 → x.phase = .draining →
      s.keyspace? x.keyspace = some k →
    y ∈ s.net.ctxs → y.id < x.id → y.keyspace = x.keyspace → y.usesKeyspace = true → exec (.keyspaceDeleteDrained c) s = .next s)
  ∧ (∀ (c : Nat) (x : Ctx) (k : Keyspace) (s : State), s.ctx? c = some x → x.opcode = 0x21 → x.phase = .draining →
      x.flags.getLsbD 0 = false →
    s.keyspace? x.keyspace = some k → k.deleting = some c → (s.before x).isEmpty = true → NoneWaits s →
        (∀ y ∈ s.net.ctxs, y.phase ≠ .spaceWait) →
    (∀ r ∈ s.relay.slots, r.waiting = true ∨ r.ended.isSome = true ∨ r.sends ≠ 1) → Gives (.keyspaceDeleteDrained c) s (fun t =>
      (∀ q ∈ t.store.keyspaces, q.id ≠ k.id) ∧ (∀ p ∈ t.relay.pairs, p.keyspace ≠ k.id) ∧ t.store.stamps = s.store.stamps
          ∧ Replied x (Reply.plain .done) t))
  ∧ (∀ (c n : Nat) (x : Ctx) (s : State), admitted c 0x32 x s → x.only 1 0 false false = true → x.flags.getLsbD 0 = false → NoneWaits s →
    (s.store.keyspaces.filter (·.partialSeed)).length = n → 0 < n → Gives (.promote c) s (fun t => Replied x (Reply.withA .incomplete n) t
        ∧ t.modes = s.modes))
  ∧ (∀ (c : Nat) (x : Ctx) (s : State), admitted c 0x32 x s → x.only 1 0 false false = true → s.modes.mode = .shadowing → NoneWaits s →
    (∀ k ∈ s.store.keyspaces, k.partialSeed = false) ∨ x.flags.getLsbD 0 = true → Gives (.promote c) s (fun t => t.modes.mode = .serving ∧
      t.store.recs = s.store.recs ∧ t.store.keyspaces = s.store.keyspaces))

/-- MODE_SET and SANITISE (R44, R46, R47, R61, R65, R194, R443): each allowed transition takes place, the rest end WRONG_MODE, and a
handover makes either NOT_READY. A MODE_SET to Dormant waits for the commands accepted before it. SANITISE destroys the key material. -/
def Obligations.ModeCommands : Prop :=
  let asks (c : Nat) (m : Mode) (x : Ctx) (s : State) : Prop := s.admin? c 0x49 = some x ∧ s.modeStops x = none
      ∧ x.only 0 0 true false = true
    ∧ modeOfCode x.paramA.toNat = some m
  (∀ (c : Nat) (x : Ctx) (s : State), asks c .frozen x s → s.cutIn = false → s.modes.mode = .serving ∨ s.modes.mode = .shadowing →
    Gives (.modeSet c) s (fun t => t.modes.mode = .frozen ∧ t.modes.freezeCauses = s.modes.freezeCauses ||| FreezeCause.operator.word
      ∧ t.modes.frozenFrom = some s.modes.mode))
  ∧ (∀ (c : Nat) (x : Ctx) (s : State), asks c .shadowing x s → s.cutIn = false → s.modes.mode = .serving →
      (∀ k ∈ s.store.keyspaces, k.id = 0) →
    Gives (.modeSet c) s (fun t => t.modes.mode = .shadowing))
  ∧ (∀ (c : Nat) (x : Ctx) (m : Mode) (s : State), asks c m x s → s.cutIn = false → s.modes.mode = .frozen → s.modes.frozenFrom = some m →
      m ≠ .dormant →
    s.modes.freezeCauses = FreezeCause.operator.word → Gives (.modeSet c) s (fun t => t.modes.mode = m ∧ t.modes.freezeCauses = 0
        ∧ t.modes.frozenFrom = none))
  ∧ (∀ (c : Nat) (x : Ctx) (s : State), asks c .dormant x s → s.cutIn = false → s.modes.mode.service = true →
    Gives (.modeSet c) s (fun t => (∃ y, t.ctx? c = some y ∧ y.phase = .draining) ∧ Keeps [.ctxs] s t))
  ∧ (∀ (c : Nat) (x : Ctx) (m : Mode) (s : State), asks c m x s → s.cutIn = false → ¬((s.modes.mode = .dormant ∧ m = .serving)
      ∨ (s.modes.mode = .serving ∧ (m = .shadowing ∨ m = .frozen ∨ m = .dormant)) ∨ (s.modes.mode = .shadowing ∧ (m = .frozen
          ∨ m = .dormant))
      ∨ (s.modes.mode = .frozen ∧ (s.modes.frozenFrom = some m ∨ m = .dormant))) →
    Gives (.modeSet c) s (fun t => Replied x (Reply.plain .wrongMode) t ∧ t.modes = s.modes))
  ∧ (∀ (c : Nat) (x : Ctx) (m : Mode) (s : State), asks c m x s → s.cutIn = false → s.modes.mode = .frozen → m ≠ .dormant →
    s.modes.freezeCauses ≠ FreezeCause.operator.word → Gives (.modeSet c) s (fun t => Replied x (Reply.plain .wrongMode) t
        ∧ t.modes = s.modes))
  ∧ (∀ (c : Nat) (m : Mode) (x : Ctx) (s : State), asks c m x s → s.cutIn = true → Gives (.modeSet c) s (fun t => t.modes = s.modes ∧
      ∃ n, Replied x (Reply.withA .notReady n) t))
  ∧ (∀ (c : Nat) (x : Ctx) (s : State), s.admin? c 0x48 = some x → s.modeStops x = none → x.only 0 0 true false = true →
      x.paramA.toNat < 2 → s.var 0x0E08 = 1 →
    Gives (.sanitise c) s (fun t => Replied x (Reply.plain .wrongMode) t ∧ t.modes = s.modes ∧ t.cipher.kek = s.cipher.kek))
  ∧ (∀ (c : Nat) (x : Ctx) (s : State), s.admin? c 0x48 = some x → s.modeStops x = none → x.only 0 0 true false = true →
      x.paramA.toNat < 2 → s.var 0x0E08 ≠ 1 →
    s.cutIn = false → Gives (.sanitise c) s (fun t => t.modes.mode = .sanitising ∧ t.modes.sanitising = true
        ∧ t.modes.resetConfig = decide (x.paramA = 1)
      ∧ t.modes.frozenFrom = none ∧ t.cipher.kek = none))

/-- Turning off in order (R47, R65, R66, R423, R425, R429): the flush of a MODE_SET starts when every earlier command has ended and leads to
Dormant with the main supply off; Last Waltz goes on phase by phase to the same end; the end of a sanitise leaves nothing stored while the
stamps go on. -/
def Obligations.TurningOff : Prop :=
  (∀ (c : Nat) (x : Ctx) (s : State), s.ctx? c = some x → x.opcode = 0x49 → x.phase = .draining → s.modes.flush = none →
      (∀ y ∈ s.net.ctxs, c ≤ y.id) →
    Gives (.dormantDrained c) s (fun t => (∃ f, t.modes.flush = some f ∧ f.trigger = 3 ∧ f.phase = 3 ∧ f.since = s.clock)
        ∧ t.relay.slots = []
      ∧ t.modes.mode = s.modes.mode ∧ Replied x (Reply.plain .done) t))
  ∧ (∀ (c : Nat) (x y : Ctx) (s : State), s.ctx? c = some x → x.opcode = 0x49 → x.phase = .draining → y ∈ s.net.ctxs → y.id < c →
      exec (.dormantDrained c) s = .next s)
  ∧ (∀ (f : Flush) (s : State), s.modes.flush = some f → f.trigger = 3 → Gives .dormantFlushComplete s (fun t => t.modes.mode = .dormant
      ∧ t.supply.mainOn = false ∧ t.supply.armed = false ∧ t.modes.flush = none ∧ t.cipher.kek = none ∧ t.store.recs = s.store.recs
      ∧ t.modes.markFound = some true))
  ∧ (∀ (e : Nat) (f : Flush) (s : State), s.modes.flush = some f → f.waltz = true → f.phase ≠ 5 →
      Gives (.lastWaltzPhaseEnd e true) s (fun t =>
      (∃ g, t.modes.flush = some g ∧ g.phase = f.phase + 1 ∧ g.energyCj = f.energyCj + e) ∧ t.supply.mainOn = s.supply.mainOn
          ∧ t.store.recs = s.store.recs))
  ∧ (∀ (e : Nat) (f : Flush) (s : State), s.modes.flush = some f → f.waltz = true → f.phase = 5 →
      Gives (.lastWaltzPhaseEnd e true) s (fun t =>
      t.modes.mode = .dormant ∧ t.supply.mainOn = false ∧ t.modes.markFound = some true ∧ t.holdup.runs = s.holdup.runs + 1))
  ∧ (∀ (e : Nat) (f : Flush) (s : State), s.modes.flush = some f → f.waltz = true → f.phase ≤ 5 →
      Gives (.lastWaltzPhaseEnd e false) s (fun t =>
      t.modes.mode = .dormant ∧ t.supply.mainOn = false ∧ t.modes.markFound = some false))
  ∧ (∀ (n : Nat) (s : State), s.modes.mode = .sanitising → s.modes.sanitising = true → s.waltzing = false →
      Gives (.sanitiseEraseComplete n) s (fun t =>
      t.modes.mode = (if onlyOperator s.modes.freezeCauses then .serving else .frozen) ∧ t.modes.sanitising = false
      ∧ t.store.recs = [] ∧ t.store.entries = [] ∧ t.relay.map = none ∧ t.relay.pairs = []
      ∧ t.store.stamps = s.store.stamps))

/-- COMMIT_CLAIM and PROGRAM_COMPLETE (R162, R170, R200, R201, R202, R299, R302, R379): a granted read sends the reply its lookup fixed and
holds the locations it read; a granted write takes the keyspace's next stamp, is what the directory then has for its key, and ends with its
stamp; a completed program leaves its command to its claim, a failed one is counted. -/
def Obligations.CommitsAndPrograms : Prop :=
  let quiet (s : State) : Prop := NoneWaits s ∧ ∀ r ∈ s.relay.slots, r.waiting = true ∨ r.ended.isSome = true ∨ r.sends ≠ 1
  let ready (c : Nat) (x : Ctx) (s : State) : Prop := s.ctx? c = some x ∧ x.phase = .ready ∧ x.committed = false ∧ quiet s
  (∀ (c : Nat) (x : Ctx) (s : State), ready c x s → x.opcode = 0x01 ∨ x.opcode = 0x0C ∨ x.opcode = 0x0D →
      s.replyRoom x x.reply.body.length = true →
    Gives (.commitClaim c) s (fun t => Replied x x.reply t ∧ t.store.recs = s.store.recs ∧ t.store.entries = s.store.entries
      ∧ ∀ p ∈ x.recs, (s.net.nextId, p.1) ∈ t.store.holds))
  ∧ (∀ (c : Nat) (x : Ctx) (s : State), ready c x s → x.opcode = 0x08 → s.replyRoom x (s.scanReply x).body.length = true →
    Gives (.commitClaim c) s (fun t => Replied x (s.scanReply x) t ∧ t.store.entries = s.store.entries))
  ∧ (∀ (c : Nat) (x : Ctx) (place : Place) (es : List Entry) (s : State), ready c x s → x.opcode = 0x02 ∨ x.opcode = 0x04 →
      x.relayed = false → x.pre = none →
    s.writePlace x = some (place, es) → s.relay.slots = [] →
    s.coh.quiet (match place with | .bucket n => n | .stash => bucket1 x.fp) = true → s.qRoom (qBank x.fp) = true →
    s.dirtyFull (match place with | .bucket n => n / 8192 | .stash => 65536) = false → Gives (.commitClaim c) s (fun t =>
      let stamp := getKey s.store.stamps x.keyspace 0 + 1
      Replied x (Reply.withA .done stamp) t ∧ getKey t.store.stamps x.keyspace 0 = stamp
      ∧ ∃ e ∈ t.store.entries, e.keyspace = x.keyspace ∧ e.fp = x.fp ∧ e.key = x.key ∧ e.newest.stamp = stamp
          ∧ e.newest.tomb = decide (x.opcode = 0x04)))
  ∧ (∀ (c : Nat) (x : Ctx) (s : State), ready c x s → isDataWrite x.opcode = true → s.writePlace x = none →
      Gives (.commitClaim c) s (fun t =>
      Replied x (Reply.withA .noSpace 3) t ∧ t.store.recs = s.store.recs ∧ t.store.entries = s.store.entries))
  ∧ (∀ (c slot : Nat) (x : Ctx) (s : State), ready c x s → x.opcode = 0x09 → x.slotRes = some slot → Gives (.commitClaim c) s (fun t =>
      ∃ v ∈ t.sieves.list, v.slot = slot ∧ v.keyspace = x.keyspace ∧ v.batches = [] ∧ v.ended = false ∧ v.visited = 0
        ∧ Replied x { Reply.withA .done v.handle with paramB := BitVec.ofNat 64 (s.bytesStored x.keyspace) } t))
  ∧ (∀ (c : Nat) (x : Ctx) (k : Keyspace) (s : State), s.ctx? c = some x → x.phase = .programming → x.relayed = false →
      s.keyspace? x.keyspace = some k → k.chain = none →
    s.relay.slots = [] → NoneWaits s → (∀ y ∈ s.net.ctxs, y.phase ≠ .relayWait ∧ (y.id = c → y = x)) →
        Gives (.programComplete c true) s (fun t =>
      (∃ y, t.ctx? c = some y ∧ y.phase = .ready ∧ y.cells = 0) ∧ t.store.entries = s.store.entries))
  ∧ (∀ (c : Nat) (x : Ctx) (s : State), s.ctx? c = some x → x.phase = .programming → s.group? x.newGroup = none →
      s.keyspace? x.keyspace = none → NoneWaits s →
    Gives (.programComplete c false) s (fun t => t.counts.programFails = s.counts.programFails + 1 ∧ t.store.entries = s.store.entries))

/-- Sieves at work (R273, R275, R278, R282, R284): a visit takes the next key in fingerprint order and counts it; after MAX_MATCHES
entries or the last key the batch closes as the last; an old batch closes; an idle sieve ends. -/
def Obligations.SieveWork : Prop :=
  let runs (n : Nat) (v : Sieve) (s : State) : Prop := s.sieves.list.find? (·.slot == n) = some v ∧ v.lost = [] ∧ v.ended = false
      ∧ v.batches.length < 2
    ∧ s.power.st = 0 ∧ s.modes.mode.service = true ∧ s.thermal.stage = 0 ∧ 0 ≤ v.tokens ∧ 0 ≤ s.sieves.tokens
  (∀ (n : Nat) (v : Sieve) (e : Entry) (s : State), runs n v s → v.full = false → s.nextKey v = some e →
      Gives (.sieveVisit n) s (fun t => ∃ w ∈ t.sieves.list, w.slot = n
    ∧ w.visited = v.visited + 1 ∧ w.cursor = e.fp.toNat + 1 ∧ t.store = s.store))
  ∧ (∀ (n : Nat) (v : Sieve) (s : State), runs n v s → v.full = true ∨ s.nextKey v = none →
      Gives (.sieveVisit n) s (fun t => ∃ w ∈ t.sieves.list, w.slot = n
    ∧ w.ended = true ∧ w.filling = [] ∧ ∃ b, w.batches = v.batches ++ [b] ∧ b.last = true ∧ b.num = v.nextNum))
  ∧ (∀ (n : Nat) (v : Sieve) (s : State), s.sieves.list.find? (·.slot == n) = some v → v.filling ≠ [] → v.batches.length < 2 →
    v.full = false → v.firstAt + ms (s.var 0x0504) ≤ s.clock → Gives (.sieveBatchAge n) s (fun t => ∃ w ∈ t.sieves.list, w.slot = n ∧ w.filling = []
        ∧ w.ended = v.ended
      ∧ ∃ b, w.batches = v.batches ++ [b] ∧ b.last = false ∧ b.num = v.nextNum))
  ∧ (∀ (n : Nat) (v : Sieve) (s : State), s.sieves.list.find? (·.slot == n) = some v → v.lastNext + sec (s.var 0x0505) ≤ s.clock →
    Gives (.sieveIdle n) s (fun t => (∀ w ∈ t.sieves.list, w.slot ≠ n) ∧ (∃ w ∈ s.sieves.list, w.slot = n
        ∧ getKey t.sieves.gens n 0 = (w.gen + 1) % 2 ^ 25)))
  ∧ (∀ (n : Nat) (v : Sieve) (s : State), s.sieves.list.find? (·.slot == n) = some v → s.clock < v.lastNext + sec (s.var 0x0505) →
      exec (.sieveIdle n) s = .next s)

/-- Forwards (R380, R381, R382, R383, R386, R388): a BACKOFF is waited for and then resent with the same sequence number; the chain's
timeout faults a forward, which makes its successor behind; the last DONE frees the slot; a resync that finds nothing to send is done. -/
def Obligations.Forwards : Prop :=
  (∀ (n us' : Nat) (credit : BitVec 16) (r : RelaySlot) (s : State), s.relay.slots.find? (·.id == n) = some r → r.waiting = false →
      Gives (.relayForwardAnswer n (.backoff us' credit)) s (fun t =>
    (t.relay.slots.find? (·.id == n)) = some { r with backoff := some (s.clock + 1000 * us'), acked := true } ∧ Keeps [.relay] s t))
  ∧ (∀ (n h : Nat) (r : RelaySlot) (p : Nat × Addr) (s : State), s.relay.slots.find? (·.id == n) = some r → r.backoff = some h →
      h ≤ s.clock →
    s.route r.dest.addr = some p → Gives (.relayBackoffResend n) s (fun t => ∃ q, t.relay.slots.find? (·.id == n) = some q
        ∧ q.backoff = none ∧ q.seq = r.seq
      ∧ q.session = r.session ∧ q.sends = 1 ∧ q.acked = false ∧ q.ended.isSome = true ∧ q.sentAt = r.sentAt))
  ∧ (∀ (n since : Nat) (r : RelaySlot) (s : State), s.relay.slots.find? (·.id == n) = some r → r.sentAt = some since →
      s.clock < since + ms r.timeout →
    exec (.relayTimeout n) s = .next s)
  ∧ (∀ (n since : Nat) (r : RelaySlot) (s : State), s.relay.slots = [r] → r.id = n → r.sentAt = some since → since + ms r.timeout ≤ s.clock →
      r.succs = [r.dest] → r.hop = 1 →
    r.kind = .live → r.marker = 0 → r.ctx = none → r.posted = false → r.opcode = 0x02 → (∀ y ∈ s.net.ctxs, y.phase ≠ .relayWait
        ∧ y.phase ≠ .waiting) → s.pair? r.keyspace r.dest = none →
    Gives (.relayTimeout n) s (fun t => t.relay.slots = [] ∧ t.counts.relayFaults = s.counts.relayFaults + 1
      ∧ ∃ p ∈ t.relay.pairs, p.keyspace = r.keyspace ∧ p.succ = r.dest ∧ p.behind = true ∧ p.point = r.stamp))
  ∧ (∀ (n : Nat) (credit : BitVec 16) (r : RelaySlot) (s : State), s.relay.slots = [r] → r.id = n → r.waiting = false → r.hop = r.succs.length → r.kind = .live →
      r.ctx = none →
    (∀ y ∈ s.net.ctxs, y.phase ≠ .relayWait ∧ y.phase ≠ .waiting) → Gives (.relayForwardAnswer n (.status 0 credit)) s (fun t => t.relay.slots = []
      ∧ t.relay.pairs = s.relay.pairs ∧ t.counts.relayFaults = s.counts.relayFaults))
  ∧ (∀ (k m : Nat) (p : Pair) (s : State),
      s.relay.pairs.find? (fun p => p.keyspace == k && p.succ.moduleId == m && !p.running && (p.behind || p.seeding)) = some p →
    s.modes.mode.service = true → p.seeding = false → p.behind = true → p.since + ms (s.var 0x0902) ≤ s.clock → p.discards = [] →
        p.redo = none →
    (∀ e ∈ s.store.entries, e.keyspace ≠ p.keyspace) → s.relay.slots = [] → s.thermal.stage < 2 → 0 < s.var 0x0904 → NoneWaits s →
    Gives (.resyncStart k m) s (fun t => (∀ q ∈ t.relay.pairs, ¬(q.keyspace = p.keyspace ∧ q.succ = p.succ))
        ∧ t.logs.nextEv = s.logs.nextEv + 1))
  ∧ (∀ (k m : Nat) (p : Pair) (s : State),
      s.relay.pairs.find? (fun p => p.keyspace == k && p.succ.moduleId == m && !p.running && (p.behind || p.seeding)) = some p →
    p.behind = true → s.clock < p.since + ms (s.var 0x0902) → exec (.resyncStart k m) s = .next s)
  ∧ (∀ s : State, Gives .resyncStateSave s (fun t => t.relay.stored = s.relay.pairs ∧ t.relay.pairs = s.relay.pairs ∧ Keeps [.relay] s t))

/-- Power states (R415, R417, R418, R430): the idle timers take an idle module in Serving down one state at a time, and P3 waits for every
dirty chunk; an exit ends after its latency, in P0 where foreground activity asked for it. In P2 an idle DRAM channel refreshes itself. -/
def Obligations.PowerStates : Prop :=
  (∀ (n : Nat) (s : State), s.mayIdle n = true → n < 3 → Gives (.idleTimer n) s (fun t => t.power.st = n ∧ t.power.stSince = s.clock
      ∧ t.power.exiting = none
    ∧ Keeps [.power, .dbg] s t))
  ∧ (∀ s : State, s.mayIdle 3 = true → s.store.dirty = [] → Gives (.idleTimer 3) s (fun t => t.power.st = 3 ∧ t.power.refreshed = 0xFFFF
      ∧ t.store.mapLog = 0
    ∧ (∀ g ∈ t.store.groups, g.parity = false)))
  ∧ (∀ s : State, s.mayIdle 3 = true → s.store.dirty ≠ [] → Gives (.idleTimer 3) s (fun t => t.power.st = s.power.st
      ∧ t.power.preparing = true))
  ∧ (∀ (n : Nat) (s : State), s.mayIdle n = false → exec (.idleTimer n) s = .next s)
  ∧ (∀ (n : Nat) (s : State), s.mayIdle n = true → s.modes.mode = .serving ∧ s.power.st + 1 = n ∧ n ≤ s.var 0x0B01 ∧ s.foregroundNow = false
    ∧ s.power.lastFg + s.idleTime n ≤ s.clock)
  ∧ (∀ (st t0 : Nat) (s : State), s.power.exiting = some (st, t0) → s.clock < t0 + exitLatency st → exec .powerExitComplete s = .next s)
  ∧ (∀ (st t0 : Nat) (s : State), s.power.exiting = some (st, t0) → t0 + exitLatency st ≤ s.clock → t0 ≤ s.power.lastFg →
      Gives .powerExitComplete s (fun t =>
    t.power.st = 0 ∧ t.power.exiting = none ∧ t.power.stSince = s.clock ∧ t.power.refreshed = 0))
  ∧ exitLatency 1 = 3000 ∧ exitLatency 2 = 250000 ∧ exitLatency 3 = 6000000
  ∧ (∀ (n : Nat) (s : State), n < 16 → s.power.st = 2 → s.power.exiting = none →
      Gives (.dramSelfRefresh n) s (fun t => t.power.refreshed.getLsbD n = true
    ∧ (∀ m, m ≠ n → t.power.refreshed.getLsbD m = s.power.refreshed.getLsbD m) ∧ Keeps [.power] s t))
  ∧ (∀ (n : Nat) (s : State), s.power.st ≠ 2 → exec (.dramSelfRefresh n) s = .next s)

/-- Lines between slices and homes (R240–R243): a request that nothing opposes fills its slice from DRAM and is recorded in the filter; a
request for writing snoops the holders; a line given up lands at its home; a slice answers a snoop by what it holds, and the last answer
completes the waiting transaction. A version number names a line's contents (the model's own). -/
def Obligations.LineTransfers : Prop :=
  let has (slice bucket : Nat) (st : LineState) (v : Nat) (t : State) : Prop := ∃ l ∈ t.coh.lines, l.slice = slice ∧ l.bucket = bucket
      ∧ l.st = st ∧ l.ver = v
  let idle (bucket : Nat) (s : State) : Prop := s.coh.txs = [] ∧ (∀ r ∈ s.coh.repairs, r.1 ≠ bucket)
      ∧ (s.coh.filter.filter (fun g => homeOf g.1 == homeOf bucket)).length < 8192
  (∀ (a b : Nat) (s : State), a < 16 → idle b s → s.coh.line? a b = none → (s.coh.holders b).2 = none → Gives (.readS a b) s (fun t =>
      has a b .s (s.coh.dramVer b) t ∧ t.coh.holders b = (a :: (s.coh.holders b).1.filter (· != a), none) ∧ t.coh.txs = []
          ∧ Keeps [.coh] s t))
  ∧ (∀ (a b : Nat) (s : State), a < 16 → idle b s → s.coh.line? a b = none → s.coh.holders b = ([], none) → Gives (.readE a b) s (fun t =>
      has a b .e (s.coh.dramVer b) t ∧ t.coh.holders b = ([a], some a) ∧ t.coh.txs = [] ∧ Keeps [.coh] s t))
  ∧ (∀ (a b h : Nat) (o : Option Nat) (s : State), a < 16 → h ≠ a → idle b s → s.coh.line? a b = none → s.coh.holders b = ([h], o) →
      Gives (.readE a b) s (fun t =>
      t.coh.snooped = s.coh.snooped ++ [(h, b, true)] ∧ has a b .wantE 0 t ∧ t.coh.holders b = ([h], o)
      ∧ (∃ x, t.coh.txs = [x] ∧ x.bucket = b ∧ x.slice = a ∧ x.excl = true ∧ x.active = true ∧ x.snoops = [h]) ∧ Keeps [.coh] s t))
  ∧ (∀ (a b : Nat) (l : Line) (s : State), s.coh.line? a b = some l → l.st = .m → (∀ w ∈ s.coh.flying, ¬(w.1 = a ∧ w.2.1 = b)) →
      Gives (.writeBack a b) s (fun t =>
      t.coh.line? a b = none ∧ t.coh.flying = s.coh.flying ++ [(a, b, some l.ver)] ∧ Keeps [.coh] s t))
  ∧ (∀ (a b v : Nat) (s : State), s.coh.flying = [(a, b, some v)] → s.coh.txs = [] → Gives (.writeBack a b) s (fun t =>
      t.coh.flying = [] ∧ t.coh.dramVer b = v ∧ a ∉ (t.coh.holders b).1 ∧ Keeps [.coh] s t))
  ∧ (∀ (a b : Nat) (l : Line) (s : State), s.coh.line? a b = some l → l.st = .e → (∀ w ∈ s.coh.flying, ¬(w.1 = a ∧ w.2.1 = b)) →
      Gives (.writeBackClean a b) s (fun t =>
      t.coh.line? a b = none ∧ t.coh.flying = s.coh.flying ++ [(a, b, none)] ∧ Keeps [.coh] s t))
  ∧ (∀ (a b : Nat) (s : State), s.coh.flying = [(a, b, none)] → s.coh.txs = [] → Gives (.writeBackClean a b) s (fun t =>
      t.coh.flying = [] ∧ t.coh.dram = s.coh.dram ∧ a ∉ (t.coh.holders b).1 ∧ Keeps [.coh] s t))
  ∧ (∀ (a b : Nat) (l : Line) (s : State), s.coh.line? a b = some l → l.st = .s → (a, b) ∉ s.coh.evicts → Gives (.evict a b) s (fun t =>
      t.coh.line? a b = none ∧ t.coh.evicts = s.coh.evicts ++ [(a, b)] ∧ Keeps [.coh] s t))
  ∧ (∀ (a b : Nat) (s : State), (a, b) ∈ s.coh.evicts → Gives (.evict a b) s (fun t => (a, b) ∉ t.coh.evicts ∧ a ∉ (t.coh.holders b).1
      ∧ Keeps [.coh] s t))
  ∧ (∀ (a b : Nat) (l : Line) (s : State), (a, b, true) ∈ s.coh.snooped → s.coh.line? a b = some l → l.st = .s ∨ l.st = .e →
      Gives (.snoopInv a b) s (fun t =>
      t.coh.line? a b = none ∧ t.coh.answers = s.coh.answers ++ [(a, b, some none)] ∧ Keeps [.coh] s t))
  ∧ (∀ (a b : Nat) (l : Line) (s : State), (a, b, true) ∈ s.coh.snooped → s.coh.line? a b = some l → l.st = .m →
      Gives (.snoopInv a b) s (fun t =>
      t.coh.line? a b = none ∧ t.coh.answers = s.coh.answers ++ [(a, b, some (some l.ver))] ∧ Keeps [.coh] s t))
  ∧ (∀ (a b : Nat) (s : State), (a, b, true) ∈ s.coh.snooped → s.coh.line? a b = none → Gives (.snoopInv a b) s (fun t =>
      t.coh.answers = s.coh.answers ++ [(a, b, none)] ∧ t.coh.lines = s.coh.lines ∧ Keeps [.coh] s t))
  ∧ (∀ (a b : Nat) (l : Line) (s : State), (a, b, false) ∈ s.coh.snooped → s.coh.line? a b = some l → l.st = .m →
      Gives (.snoopFetch a b) s (fun t =>
      has a b .s l.ver t ∧ t.coh.answers = s.coh.answers ++ [(a, b, some (some l.ver))] ∧ Keeps [.coh] s t))
  ∧ (∀ (a b : Nat) (x : HomeTx) (s : State), (a, b, some none) ∈ s.coh.answers → s.coh.txs = [x] → x.bucket = b → x.active = true →
      x.snoops = [a] → x.owner = none →
    x.slice ≠ a → x.slice < 16 → x.excl = true → Gives (.presentClean a b) s (fun t =>
      has x.slice b .e (s.coh.dramVer b) t ∧ t.coh.holders b = ([x.slice], some x.slice) ∧ t.coh.txs = [] ∧ Keeps [.coh] s t))
  ∧ (∀ (a b v : Nat) (x : HomeTx) (s : State), s.coh.answers = [(a, b, some (some v))] → s.coh.txs = [x] → x.bucket = b → x.active = true →
      x.snoops = [a] → x.owner = none →
    x.slice ≠ a → x.slice < 16 → Gives (.presentData a b) s (fun t =>
      has x.slice b (if x.excl then .e else .s) v t ∧ t.coh.dramVer b = v ∧ t.coh.txs = [] ∧ Keeps [.coh] s t))
  ∧ (∀ (a b : Nat) (x : HomeTx) (s : State), (a, b, none) ∈ s.coh.answers → s.coh.txs = [x] → x.bucket = b → x.active = true →
      x.snoops = [a] →
    (s.coh.holders b).2 = some a → Gives (.notPresent a b) s (fun t =>
      t.coh.txs = [{ x with snoops := [], owner := some a }] ∧ t.coh.holders b = s.coh.holders b ∧ Keeps [.coh] s t))

/-- Work in the background (R249, R255, R256, R260, R261, R296, R300, R307, R308, R311, R316, R358): queued Quince updates are written with
their shadows and a row that differs from its shadow is reloaded; log pages and checkpoints are written; idle stripes close; heat halves; an
owner short of space collects; an emptied group is erased; patrol and the re-key sweep go on record by record. -/
def Obligations.BackgroundWork : Prop :=
  (∀ (b : Nat) (u : QUpdate) (s : State), s.quince.updates.find? (·.bank == b) = some u →
      Gives (.quinceUpdate b) s (fun t => t.quince.updates = s.quince.updates.erase u
      ∧ (∃ r ∈ t.quince.rows, r.bank = u.bank ∧ r.row = u.row ∧ r.ways = u.ways ∧ r.shadow = u.ways) ∧ Keeps [.quince] s t))
  ∧ (∀ (b r w p : Nat) (x : Bool) (s : State), s.supply.mainOn = true → b < 4 → r < 4096 → Gives (.quinceSweep b r (.way w x p)) s (fun t =>
      (∀ q ∈ t.quince.rows, q.bank = b → q.row = r → q.ways = q.shadow) ∧ t.counts.quinceReloads = s.counts.quinceReloads + 1
          ∧ t.store.entries = s.store.entries))
  ∧ (∀ (b r : Nat) (s : State), (∀ q ∈ s.quince.rows, q.bank = b → q.row = r → q.ways = q.shadow) →
      exec (.quinceSweep b r .none) s = .next s)
  ∧ (∀ (b r w : Nat) (s : State), s.supply.mainOn = true → b < 4 → r < 4096 → (∀ e ∈ s.store.entries, e.pinned = false) →
      Gives (.quinceSweep b r (.shadowUncorrectable w)) s (fun t =>
      (∀ q ∈ t.quince.rows, ¬(q.bank = b ∧ q.row = r)) ∧ t.counts.quinceReloads = s.counts.quinceReloads + 1))
  ∧ (∀ (x : Bool) (s : State), s.supply.mainOn = true → (if x then s.store.logB else s.store.logA).buffer ≠ [] →
    (if x then s.store.logB else s.store.logA).lastAt + us (s.var 0x0407) ≤ s.clock → Gives (.logFlush x) s (fun t =>
      (if x then t.store.logB else t.store.logA).buffer = []
          ∧ (if x then t.store.logB else t.store.logA).medium = (if x then s.store.logB else s.store.logA).medium
        ++ (if x then s.store.logB else s.store.logA).buffer ∧ (if x then t.store.logA = s.store.logA else t.store.logB = s.store.logB)
            ∧ Keeps [.logA, .logB] s t))
  ∧ (∀ (d : Nat × Nat) (ds : List (Nat × Nat)) (s : State), s.store.dirty = d :: ds → s.supply.mainOn = true → s.waltzing = false →
      Gives .checkpointWrite s (fun t =>
      (∀ x ∈ t.store.dirty, x.1 ≠ d.1) ∧ (∃ i ∈ t.store.images, i.chunk = d.1 ∧ i.lsnA = s.store.logA.nextLsn
          ∧ i.lsnB = s.store.logB.nextLsn
        ∧ i.entries = s.store.entries.filter (fun e => e.chunk == d.1)) ∧ Keeps [.dirty, .images] s t))
  ∧ (∀ (n : Nat) (g : Group) (s : State), s.group? n = some g → g.isOpen = true → g.parity = true → g.parityAt + ms 10 ≤ s.clock →
      Gives (.stripeIdleClose n) s (fun t =>
      t.group? n = some { g with written := 30 * ceilDiv g.written 30, parity := false } ∧ Keeps [.groups] s t))
  ∧ (∀ s : State, Gives .heatHalving s (fun t => (∀ h ∈ t.store.heat, 0 < h.2 ∧ ∃ k ∈ s.store.heat, k.1 = h.1 ∧ h.2 = k.2 / 2)
      ∧ (∀ k ∈ s.store.heat, 2 ≤ k.2 → (k.1, k.2 / 2) ∈ t.store.heat) ∧ Keeps [.heat] s t))
  ∧ (∀ s : State, s.backgroundRuns = false → exec .gcTick s = .next s)
  ∧ (∀ (o : Nat) (g : Group) (s : State), s.backgroundRuns = true → s.modes.mode = .serving → s.capacityOwners = [o] →
      s.store.groups = [g] → s.store.recs = [] → g.owner = o →
    g.isOpen = false → g.slc = false → g.collecting = false → g.wear = none → g.secure = none → g.refresh = none →
        s.wearSpread o ≤ 3 * s.var 0x060E → s.freeBp o ≤ 100 * s.var 0x0602 →
    NoneWaits s → Gives .gcTick s (fun t => (∃ h ∈ t.store.groups, h.num = g.num ∧ h.collecting = true) ∧ (t.owners.length ≤ o
        ∨ (t.owner o).gc = 3)))
  ∧ (∀ (n : Nat) (g : Group) (s : State), s.group? n = some g → s.supply.mainOn = true → s.waltzing = false → s.erasable g = true →
      s.net.ctxs = [] → s.store.eraseSets = [] →
    Gives (.eraseComplete n []) s (fun t => t.group? n = none ∧ (∀ r ∈ t.store.recs, r.group ≠ n)
        ∧ getKey t.store.gens n 0 = (getKey s.store.gens n 0 + 1) % 256
      ∧ t.counts.eraseFails = s.counts.eraseFails))
  ∧ (∀ (n p : Nat) (f : PatrolFinding) (g : Group) (s : State), s.backgroundRuns = true → s.power.st < 2 → s.group? n = some g →
      s.qualifies f = false → f.lastPage = false →
    NoneWaits s → exec (.patrolStep n p f) s = .next s.watch)
  ∧ (∀ (n p : Nat) (f : PatrolFinding) (g : Group) (s : State), s.backgroundRuns = true → s.power.st < 2 → s.group? n = some g →
      s.qualifies f = true → f.lastPage = false → p < g.written →
    s.pageRecs n p = [] → p ∉ g.patrolled → 4 * (g.patrolled.length + 1) ≤ groupSlots g.slc → NoneWaits s →
        Gives (.patrolStep n p f) s (fun t =>
      t.group? n = some { g with patrolled := g.patrolled ++ [p] } ∧ t.counts.patrolMoves = s.counts.patrolMoves + 1))
  ∧ (∀ (n p : Nat) (f : PatrolFinding) (s : State), s.backgroundRuns = true → 2 ≤ s.power.st →
      s.clock < s.store.patrolAt + sec (86400 * s.var 0x060C) →
    exec (.patrolStep n p f) s = .next s)
  ∧ (∀ (n loc : Nat) (w : Sweep) (r : Rec) (s : State), (s.page n).sweep = some w → s.rec? loc = some r → s.backgroundRuns = true →
      s.thermal.stage ≠ 2 →
    (s.page n).cur.st = .loaded → (s.page n).prev.st = .loaded → s.sweepWants (s.page n) loc = true →
        (s.takeSlots (s.ksOwner r.keyspace) false false true r.length).isSome = true →
    (s.enterMove .rekey loc).holdsLock (.move .rekey loc) = true → NoneWaits s → Gives (.rekeySweepStep n loc false) s (fun t =>
      (t.page n).sweep = none ∨ ∃ v, (t.page n).sweep = some v ∧ v.inPlace = w.inPlace ++ [loc] ∧ v.resealed = w.resealed))
  ∧ (∀ (n loc : Nat) (x : Bool) (s : State), (s.page n).sweep = none → exec (.rekeySweepStep n loc x) s = .next s)

/-- Parts that fail or wear out (R57, R58, R59, R71, R95, R314, R321): a spare takes the role while its class has one; with none left a
foreground class or a die freezes the module, and the trunk runs narrower. -/
def Obligations.SparesTakeOver : Prop :=
  let quiet (s : State) : Prop := NoneWaits s ∧ ∀ r ∈ s.relay.slots, r.waiting = true ∨ r.ended.isSome = true ∨ r.sends ≠ 1
  (∀ (c p k : Nat) (s : State), s.supply.mainOn = true → c < 32 → p < 16 → (c, p) ∉ s.spares.deadDies → s.diesLeft c ≠ 0 →
      Gives (.dieRetire c p k) s (fun t =>
      t.spares.dieMap = ((c, p), 18 - s.diesLeft c) :: s.spares.dieMap ∧ ((c, p), s.clock) ∈ t.spares.rebuilding
          ∧ t.spares.deadDies = s.spares.deadDies
      ∧ t.counts.diesRetired = s.counts.diesRetired + 1 ∧ t.modes = s.modes))
  ∧ (∀ (c p k : Nat) (s : State), s.supply.mainOn = true → c < 32 → p < 16 → (c, p) ∉ s.spares.deadDies → s.diesLeft c = 0 →
      s.modes.mode = .serving ∨ s.modes.mode = .shadowing →
    Gives (.dieRetire c p k) s (fun t => t.spares.deadDies = s.spares.deadDies ++ [(c, p)] ∧ t.modes.mode = .frozen
        ∧ t.modes.frozenFrom = some s.modes.mode
      ∧ t.modes.freezeCauses = s.modes.freezeCauses ||| FreezeCause.spareDie.word))
  ∧ (∀ (c p k : Nat) (s : State), (c, p) ∈ s.spares.deadDies → exec (.dieRetire c p k) s = .next s)
  ∧ (∀ (c p : Nat) (r : (Nat × Nat) × Nat) (s : State), s.spares.rebuilding.find? (fun r => r.1 == (c, p)) = some r →
      s.supply.mainOn = true → Gives (.rebuildDone c p) s (fun t =>
      (∀ q ∈ t.spares.rebuilding, q.1 ≠ (c, p)) ∧ t.logs.nextEv = s.logs.nextEv + 1 ∧ Keeps [.spares, .logs, .dbg] s t))
  ∧ (∀ (h d : Nat) (s : State), s.supply.mainOn = true → (h, d) ∉ s.spares.trunkSpares → Gives (.trunkLinkFail h d) s (fun t =>
      (h, d) ∈ t.spares.trunkSpares ∧ t.spares.trunkShort = s.spares.trunkShort))
  ∧ (∀ (h d : Nat) (s : State), s.supply.mainOn = true → (h, d) ∈ s.spares.trunkSpares → Gives (.trunkLinkFail h d) s (fun t =>
      t.spares.trunkShort = s.spares.trunkShort ++ [(h, d)] ∧ Keeps [.spares] s t))
  ∧ (∀ (n b role sp : Nat) (c : Nat × Nat × Nat × List Nat) (s : State), s.supply.mainOn = true → s.roleOf n = some role →
      classOf role = some c → (s.sparesOf c).head? = some sp →
    Gives (.islandRetire n b) s (fun t => t.holder role = sp ∧ sp ∉ t.spares.unused ∧ t.spares.retired = s.spares.retired ++ [s.holder role]
      ∧ t.counts.islandsRetired = s.counts.islandsRetired + 1))
  ∧ (∀ (n b role : Nat) (s : State), s.supply.mainOn = true → s.roleOf n = some role → classOf role = none →
      Gives (.islandRetire n b) s (fun t =>
      (∀ q ∈ t.spares.ceCounts, q.1 ≠ (n, b)) ∧ t.holder role = s.holder role ∧ t.spares.retired = s.spares.retired
          ∧ t.counts.islandsRetired = s.counts.islandsRetired))
  ∧ (∀ (n role sp : Nat) (c : Nat × Nat × Nat × List Nat) (s : State), s.supply.mainOn = true → n ∉ s.spares.retired → n ≤ 262 →
      s.roleOf n = some role → role ≤ 41 →
    classOf role = some c → (s.sparesOf c).head? = some sp → s.fw.act ≠ 5 → quiet s →
        Gives (.islandFail n []) s (fun t => t.holder role = sp ∧ sp ∉ t.spares.unused
      ∧ t.spares.retired = s.spares.retired ++ [s.holder role] ∧ t.counts.islandsFailed = s.counts.islandsFailed + 1))
  ∧ (∀ (n role : Nat) (c : Nat × Nat × Nat × List Nat) (s : State), s.supply.mainOn = true → n ∉ s.spares.retired → n ≤ 262 →
      s.roleOf n = some role → role ≤ 41 →
    classOf role = some c → (s.sparesOf c).head? = none → s.fw.act ≠ 5 → s.modes.mode = .serving ∨ s.modes.mode = .shadowing →
        Gives (.islandFail n []) s (fun t =>
      role ∈ t.spares.lostRoles ∧ t.modes.mode = .frozen ∧ t.modes.freezeCauses = s.modes.freezeCauses ||| FreezeCause.spareIsland.word))
  ∧ (∀ (n : Nat) (s : State), s.supply.mainOn = true → n ∉ s.spares.retired → n ≤ 262 → s.roleOf n = none → s.fw.act ≠ 5 →
      Gives (.islandFail n []) s (fun t =>
      n ∉ t.spares.unused ∧ t.spares.retired = s.spares.retired ++ [n] ∧ t.modes = s.modes))
  ∧ (∀ (n : Nat) (held : List Nat) (s : State), s.supply.mainOn = false → n ≠ 243 → exec (.islandFail n held) s = .next s)

/-- Memory errors and the progress monitor (R93, R405, R407, R408, R409, R410, R412): a buffer cell's command ends DEVICE_FAULT and policy A
halts the channel where policy B marks the bus; a unit no slice holds waits for its repair, which spares its row; a code trap is recorded
and reloaded, a second within 1 s fails the island; corrections are counted and decay; an overrun command ends. -/
def Obligations.MemoryErrors : Prop :=
  let quiet (s : State) : Prop := NoneWaits s ∧ ∀ r ∈ s.relay.slots, r.waiting = true ∨ r.ended.isSome = true ∨ r.sends ≠ 1
  (∀ (n q a r c : Nat) (f : Bool) (x : Ctx) (s : State), s.supply.mainOn = true → s.ctx? c = some x → x.committed = false → quiet s →
      Gives (.ueFound n q a r f (.bufferCell c)) s (fun t =>
      Replied x (Reply.plain .deviceFault) t))
  ∧ (∀ (n q a r c : Nat) (f : Bool) (s : State), s.supply.mainOn = true → s.ctx? c = none → quiet s →
      Gives (.ueFound n q a r f (.bufferCell c)) s (fun t =>
      t.counts.lastUeIsland = n ∧ t.counts.sramUe = s.counts.sramUe + 1 ∧ t.counts.dramUe = s.counts.dramUe
      ∧ t.counts.dmaHalts = s.counts.dmaHalts + (if s.policyB q then 0 else 1)
          ∧ t.counts.busErrors = s.counts.busErrors + (if s.policyB q then 1 else 0)
      ∧ t.logs.nextEv = s.logs.nextEv + 1))
  ∧ (∀ (n q a r u : Nat) (f : Bool) (s : State), s.supply.mainOn = true → s.sliceHolds u = false → quiet s →
      Gives (.ueFound n q a r f (.directory u none)) s (fun t =>
      t.coh.repairs = s.coh.repairs ++ [(u, n - 213, r)] ∧ t.counts.dramUe = s.counts.dramUe + 1 ∧ t.store.entries = s.store.entries))
  ∧ (∀ (n q a r loc : Nat) (f : Bool) (s : State), s.supply.mainOn = true → s.rowsUsedOn (n - 213) < 511 → quiet s →
      Gives (.ueFound n q a r f (.valueCache loc)) s (fun t =>
      loc ∉ t.store.cache ∧ (n - 213, r) ∈ t.spares.sparedRows ∧ t.rowsUsedOn (n - 213) = s.rowsUsedOn (n - 213) + 1
          ∧ t.counts.repairs = s.counts.repairs + 1 ∧ t.modes = s.modes))
  ∧ (∀ (u : Nat) (r : Nat × Nat × Nat) (s : State), s.coh.repairs.find? (·.1 == u) = some r → s.rowsUsedOn r.2.1 < 511 → s.coh.txs = [] →
      NoneWaits s → Gives (.repairComplete u true) s (fun t =>
      (r.2.1, r.2.2) ∈ t.spares.sparedRows ∧ t.counts.repairs = s.counts.repairs + 1 ∧ ∀ q ∈ t.coh.repairs, q.1 ≠ u))
  ∧ (∀ (n a : Nat) (held : List Nat) (s : State), s.supply.mainOn = true → n ∉ s.spares.retired → n ≤ 262 → n ≠ 243 → (n < 233 ∨ 242 < n) →
      s.fw.act ≠ 5 →
    (∀ x ∈ s.spares.traps, x.1 = (n, a) → x.2 + sec 1 ≤ s.clock) →
        Gives (.codeTrap n a held) s (fun t => t.counts.codeTraps = s.counts.codeTraps + 1 ∧ t.counts.sramUe = s.counts.sramUe + 1
      ∧ ((n, a), s.clock) ∈ t.spares.traps ∧ getKey t.spares.trapped n 0 = s.clock ∧ t.spares.retired = s.spares.retired ∧ t.net = s.net))
  ∧ (∀ (n a h : Nat) (s : State), s.supply.mainOn = true → n ∉ s.spares.retired → n ≤ 262 → n ≠ 243 → (n < 233 ∨ 242 < n) → s.fw.act ≠ 5 →
    ((n, a), h) ∈ s.spares.traps → s.clock < h + sec 1 → s.roleOf n = none → Gives (.codeTrap n a []) s (fun t => n ∈ t.spares.retired))
  ∧ (∀ (n : Nat) (s : State), Gives (.codeBankReloaded n) s (fun t => (∀ x ∈ t.spares.trapped, x.1 ≠ n) ∧ Keeps [.spares] s t))
  ∧ (∀ (sram : List (Nat × Nat × Nat)) (s : State), s.supply.mainOn = true → (∀ c ∈ s.spares.ceRows, c.2 < s.var 0x0A03) →
      Gives (.ceDecay sram []) s (fun t =>
      t.counts.sramCorrected = s.counts.sramCorrected + (sram.map (·.2.2)).sum
          ∧ t.spares.ceCounts = decayed (sram.foldl addCount s.spares.ceCounts)
      ∧ t.spares.ceRows = decayed s.spares.ceRows ∧ t.spares.sparedRows = s.spares.sparedRows))
  ∧ (∀ (ch row k : Nat) (s : State), s.supply.mainOn = true → s.spares.ceRows = [] → s.var 0x0A03 ≤ k → s.rowsUsedOn ch < 511 →
      Gives (.ceDecay [] [(ch, row, k)]) s (fun t =>
      t.spares.sparedRows = s.spares.sparedRows ++ [(ch, row)] ∧ t.rowsUsedOn ch = s.rowsUsedOn ch + 1
          ∧ t.counts.dramCorrected = s.counts.dramCorrected + k))
  ∧ (∀ (n : Nat) (x : Ctx) (s : State), s.supply.mainOn = true →
      s.net.ctxs.filter (fun x => s.holder (monitorRole x) == n && sec 4 ≤ s.workOf x) = [x] → s.ctx? x.id = some x →
    x.committed = false → s.fw.act ≠ 5 → quiet s → Gives (.progressScan n) s (fun t => Replied x (Reply.plain .deviceFault) t))
  ∧ (∀ (n : Nat) (s : State), (∀ x ∈ s.net.ctxs, s.workOf x < sec 4) → exec (.progressScan n) s = .next s)

/-- Heat and the hold-up bank (R40, R419, R420, R426, R427, R428, R430): sensors at a limit raise the throttle stage and a stage is left
THROTTLE_HYST degrees below; each minute is counted; a bank test passes at 12 J and freezes the module below that; the spare section takes a
failed one's place once. -/
def Obligations.HeatAndHoldUp : Prop :=
  let reads (r : List Int) (k : Nat) : Prop := ∃ l ∈ stageLimits, (if k ≤ 1 then l.2.1 else l.2.2) ≤ r.getD l.1 0
  (∀ (r : List Int) (s : State), s.supply.mainOn = true → r.length = 10 → s.sb.failed = [] → s.thermal.stage = 0 → reads r 2 →
      Gives (.thermalSample r) s (fun t =>
      t.thermal.stage = 2 ∧ t.thermal.readings = r ∧ t.modes = s.modes))
  ∧ (∀ (r : List Int) (s : State), s.supply.mainOn = true → r.length = 10 → s.sb.failed = [] → s.thermal.stage = 0 → reads r 1 →
      ¬ reads r 2 → Gives (.thermalSample r) s (fun t =>
      t.thermal.stage = 1 ∧ t.thermal.readings = r ∧ t.logs.nextEv = s.logs.nextEv + 1))
  ∧ (∀ (r : List Int) (s : State), s.supply.mainOn = true → r.length = 10 → s.sb.failed = [] → s.thermal.stage = 0 → ¬ reads r 1 →
      ¬ reads r 2 → Gives (.thermalSample r) s (fun t =>
      t.thermal.stage = 0 ∧ t.thermal.readings = r ∧ t.logs.nextEv = s.logs.nextEv))
  ∧ (∀ (r : List Int) (s : State), s.supply.mainOn = true → r.length = 10 → s.sb.failed = [] → s.thermal.stage = 1 → ¬ reads r 2 →
      (∀ l ∈ stageLimits, r.getD l.1 0 ≤ l.2.1 - (s.var 0x0B07 : Int)) →
    Gives (.thermalSample r) s (fun t => t.thermal.stage = 0))
  ∧ (∀ s : State, s.supply.mainOn = true → Gives .temperatureHistorySample s (fun t => t.thermal.minutes = s.thermal.minutes + 1
      ∧ t.thermal.readings = s.thermal.readings
      ∧ t.thermal.stage = s.thermal.stage ∧ Keeps [.thermal] s t))
  ∧ (∀ s : State, s.supply.mainOn = false → exec .temperatureHistorySample s = .next s)
  ∧ (∀ s : State, s.holdup.lastTestAt + sec (86400 * s.var 0x0B05) ≤ s.clock → s.modes.mode.service = true → s.holdup.testing = none →
      Gives .holdupTestStart s (fun t =>
      t.holdup.testing = some s.clock ∧ t.holdup.charged = s.holdup.charged ∧ Keeps [.holdup] s t))
  ∧ (∀ s : State, s.holdup.interrupted = false → s.clock < s.holdup.lastTestAt + sec (86400 * s.var 0x0B05) →
      exec .holdupTestStart s = .next s)
  ∧ (∀ (r : BankTest) (h : Nat) (s : State), s.holdup.testing = some h → testFailed r = [] → 1200 ≤ r.energyCj →
      Gives (.holdupTest r) s (fun t =>
      t.holdup.testing = none ∧ t.holdup.lastPassed = true ∧ t.holdup.charged = true ∧ t.holdup.lastTestAt = s.clock
          ∧ t.holdup.energyCj = r.energyCj ∧ t.modes = s.modes))
  ∧ (∀ (r : BankTest) (h : Nat) (s : State), s.holdup.testing = some h → testFailed r = [] → r.energyCj < 1200 → s.modes.mode = .serving
      ∨ s.modes.mode = .shadowing →
    Gives (.holdupTest r) s (fun t => t.holdup.lastPassed = false ∧ t.holdup.charged = false ∧ t.modes.mode = .frozen
      ∧ t.modes.freezeCauses = s.modes.freezeCauses ||| FreezeCause.holdup.word))
  ∧ (∀ (r : BankTest) (s : State), s.holdup.testing = none → exec (.holdupTest r) s = .next s)
  ∧ (∀ (n : Nat) (s : State), n < 7 → s.supply.mainOn = true → s.holdup.failed = 0 → s.holdup.spareInUse = false →
      Gives (.sectionFail n) s (fun t =>
      t.holdup.spareInUse = true ∧ t.holdup.failed = BitVec.ofNat 8 (2 ^ n) ∧ t.modes = s.modes))
  ∧ (∀ (n : Nat) (s : State), n < 7 → s.supply.mainOn = true → s.holdup.failed.getLsbD n = false → s.holdup.spareInUse = true →
      s.modes.mode = .serving ∨ s.modes.mode = .shadowing →
    Gives (.sectionFail n) s (fun t => t.holdup.failed = s.holdup.failed ||| BitVec.ofNat 8 (2 ^ n) ∧ t.modes.mode = .frozen
        ∧ t.modes.freezeCauses = s.modes.freezeCauses ||| FreezeCause.holdup.word))
  ∧ (∀ (n : Nat) (s : State), s.holdup.failed.getLsbD n = true → s.supply.mainOn = true →
      Gives (.sectionFail n) s (fun t => t.holdup = s.holdup ∧ t.modes = s.modes))

/-- Staging and confirming firmware (R193, R195, R439, R440, R443, R444, R445, R448): a chunk is taken at the offset reached, idle staging
is dropped, the read-back slot is staged or invalid, activation begins with a staged image, and confirmation makes the running image the
confirmed one. -/
def Obligations.FirmwareStaging : Prop :=
  let asks (c op : Nat) (x : Ctx) (s : State) : Prop := s.admin? c op = some x ∧ s.modeStops x = none
  let chunk (x : Ctx) : Prop := x.keyLen = 0 ∧ x.flagsWithin 0 = true ∧ 1 ≤ x.valLen ∧ x.valLen ≤ 16777216 ∧ x.paramA.toNat < 2 ^ 32
      ∧ x.paramB = 0
  (∀ (c : Nat) (x : Ctx) (s : State), asks c 0x40 x s → chunk x → s.fw.awaitSince = none → s.fw.act < 3 → s.fw.programming = none →
      x.paramA = 0 → 0 < x.body.length →
    x.body.length < 256 → Gives (.fwStage c) s (fun t => t.fw.staging = some x.body ∧ t.fw.stagedAt = s.clock ∧ t.fw.act = 1
        ∧ Replied x (Reply.withA .done x.body.length) t))
  ∧ (∀ (c : Nat) (x : Ctx) (b : Bytes) (s : State), asks c 0x40 x s → chunk x → s.fw.awaitSince = none → s.fw.act < 3 →
      s.fw.programming = none → s.fw.staging = some b →
    x.paramA.toNat ≠ 0 → x.paramA.toNat ≠ b.length → Gives (.fwStage c) s (fun t => t.fw = s.fw
        ∧ Replied x (Reply.withA .badLength b.length) t))
  ∧ (∀ (c h : Nat) (x : Ctx) (s : State), asks c 0x40 x s → chunk x → s.fw.awaitSince = some h → Gives (.fwStage c) s (fun t =>
      t.fw = s.fw ∧ Replied x (Reply.withA .notReady s.confirmLeft) t))
  ∧ (∀ (b : Bytes) (s : State), s.fw.staging = some b → s.fw.programming = none → s.fw.stagedAt + sec (s.var 0x0C04) ≤ s.clock →
      Gives .fwStageIdle s (fun t =>
      t.fw.staging = none ∧ t.fw.slot0 = s.fw.slot0 ∧ t.fw.slot1 = s.fw.slot1 ∧ Keeps [.fw] s t))
  ∧ (∀ (b : Bytes) (s : State), s.fw.staging = some b → s.clock < s.fw.stagedAt + sec (s.var 0x0C04) → exec .fwStageIdle s = .next s)
  ∧ (∀ (h : Nat) (f : FwSlot) (ok : Bool) (s : State), s.fw.programming = some (h, f) → s.fw.active < 2 →
      Gives (.slotProgramDone ok) s (fun t =>
      t.fwSlot (1 - s.fw.active) = { f with st := if ok then 1 else 3 } ∧ t.fwSlot s.fw.active = s.fwSlot s.fw.active
          ∧ t.fw.programming = none ∧ t.fw.act = 0))
  ∧ (∀ (c : Nat) (x : Ctx) (s : State), asks c 0x41 x s → x.only 1 0 false false = true → s.fw.awaitSince = none → s.fw.act < 3 →
      (s.fwSlot (1 - s.fw.active)).st ≠ 1 →
    Gives (.fwActivate c) s (fun t => t.fw = s.fw ∧ Replied x (Reply.plain .notFound) t))
  ∧ (∀ (c : Nat) (x : Ctx) (s : State), asks c 0x41 x s → x.only 1 0 false false = true → s.fw.awaitSince = none → s.fw.act < 3 →
      s.fw.programming = none →
    (s.fwSlot (1 - s.fw.active)).st = 1 → (s.fwSlot (1 - s.fw.active)).sound = true → Gives (.fwActivate c) s (fun t =>
      let r := x.flags.getLsbD 0 || (s.fwSlot (1 - s.fw.active)).parts.contains 2 || (s.fwSlot (1 - s.fw.active)).settings != (s.fwSlot s.fw.active).settings
        || (s.fwSlot (1 - s.fw.active)).full || s.spares.standbyLost
      t.fw.act = 3 ∧ t.fw.byRestart = r ∧ t.fw.restarting = r ∧ t.fw.active = s.fw.active ∧ t.fw.activations = s.fw.activations + 1
          ∧ Replied x (Reply.withA .done (b1 r)) t))
  ∧ (∀ (c h : Nat) (x : Ctx) (s : State), asks c 0x42 x s → x.only 0 0 false false = true → s.fw.awaitSince = some h → s.fw.active < 2 →
      Gives (.fwConfirm c) s (fun t =>
      t.fw.confirmed = s.fw.active ∧ t.fw.floor = max s.fw.floor (s.fwSlot s.fw.active).floor ∧ t.fw.awaitSince = none ∧ t.fw.act = 0
      ∧ (t.fwSlot s.fw.active).st = 4 ∧ (t.fwSlot (1 - s.fw.active)).st = 2 ∧ t.nor.older = none ∧ Replied x (Reply.plain .done) t))
  ∧ (∀ (c : Nat) (x : Ctx) (s : State), asks c 0x42 x s → x.only 0 0 false false = true → s.fw.awaitSince = none →
      Gives (.fwConfirm c) s (fun t =>
      t.fw = s.fw ∧ Replied x (Reply.plain .alreadyDone) t))
  ∧ (∀ (c : Nat) (x : Ctx) (b : Bytes) (s : State), asks c 0x43 x s → x.only 0 0 false false = true → s.fw.act < 3 →
      s.fw.programming = none → s.fw.staging = some b →
    Gives (.fwAbort c) s (fun t => t.fw.staging = none ∧ t.fw.act = 0 ∧ Replied x (Reply.plain .done) t))
  ∧ (∀ (c : Nat) (x : Ctx) (s : State), asks c 0x43 x s → x.only 0 0 false false = true → 3 ≤ s.fw.act → s.fw.act ≠ 7 →
      Gives (.fwAbort c) s (fun t =>
      t.fw.act = 7 ∧ t.fw.fallback = 3 ∧ t.fw.awaitSince = none ∧ Replied x (Reply.plain .done) t))
  ∧ (∀ (c : Nat) (x : Ctx) (s : State), asks c 0x43 x s → x.only 0 0 false false = true → s.fw.act = 7 →
      Gives (.fwAbort c) s (fun t => t.fw = s.fw ∧ Replied x (Reply.plain .notFound) t))

/-- Activation, handover and fallback (R441, R442, R444, R445, R447, R448, R449): the standby boots and copies, the complexes change roles,
the islands reload one by one, the new image is tested and confirmed or left again, and a restart activation boots it on one start. -/
def Obligations.FirmwareHandover : Prop :=
  let hands (s : State) : Prop := s.fw.byRestart = false ∧ (s.fw.act = 3 ∨ (s.fw.act = 7 ∧ s.fw.active ≠ s.fw.confirmed))
  (∀ s : State, hands s → s.fw.copying = false → s.fw.freeze = none →
      exec .standbyBooted s = .next { s with fw := { s.fw with copying := true } })
  ∧ (∀ s : State, hands s → s.fw.copying = true → s.fw.freeze = none →
      exec .bulkCopyDone s = .next { s with fw := { s.fw with freeze := some s.clock } })
  ∧ (∀ s : State, ¬ hands s → exec .standbyBooted s = .next s ∧ exec .bulkCopyDone s = .next s ∧ exec .handoverDone s = .next s)
  ∧ (∀ (h : Nat) (s : State), hands s → s.fw.freeze = some h → s.fw.act = 3 → s.fw.confirmed < 2 →
      (s.fwSlot (1 - s.fw.confirmed)).reloads ≠ [] → Gives .handoverDone s (fun t =>
      t.fw.active = 1 - s.fw.confirmed ∧ t.fw.act = 4 ∧ t.fw.complexB = !s.fw.complexB ∧ t.fw.standbyOld = true ∧ t.fw.freeze = none
      ∧ t.fw.reload = (s.fwSlot (1 - s.fw.confirmed)).reloads ∧ (t.fwSlot (1 - s.fw.confirmed)).st = 5 ∧ (t.fwSlot s.fw.confirmed).st = 2))
  ∧ (∀ (h : Nat) (s : State), hands s → s.fw.freeze = some h → s.fw.act = 3 → s.fw.confirmed < 2 →
      (s.fwSlot (1 - s.fw.confirmed)).reloads = [] → Gives .handoverDone s (fun t =>
      t.fw.act = 5 ∧ t.fw.awaitSince = some s.clock ∧ t.fw.selftestS = s.var 0x0C02))
  ∧ (∀ (h : Nat) (s : State), hands s → s.fw.freeze = some h → s.fw.act = 7 → Gives .handoverDone s (fun t =>
      t.fw.active = s.fw.confirmed ∧ t.fw.complexB = !s.fw.complexB ∧ t.fw.standbyOld = false ∧ t.fw.act = 7 ∧ Keeps [.fw] s t))
  ∧ (∀ (n role a : Nat) (rest : List Nat) (s : State), s.fw.reload = role :: a :: rest → s.fw.act = 4 → n = s.loadTarget role →
      s.fw.lastReload + ms (s.var 0x0C03) ≤ s.clock → role < 181 →
    Gives (.islandReload n true) s (fun t => t.fw.reload = a :: rest ∧ t.fw.reloaded = s.fw.reloaded + 1 ∧ t.fw.lastReload = s.clock
        ∧ t.holder role = n))
  ∧ (∀ (n role : Nat) (rest : List Nat) (x : Bool) (s : State), s.fw.reload = role :: rest → s.clock < s.fw.lastReload + ms (s.var 0x0C03) →
      exec (.islandReload n x) s = .next s)
  ∧ (∀ (h : Nat) (s : State), s.fw.awaitSince = some h → s.fw.act = 5 → h + sec s.fw.selftestS ≤ s.clock → s.var 0x0C01 ≠ 1 →
      Gives (.selftestEnd true) s (fun t =>
      t.fw.act = 6 ∧ t.fw.selftested = true ∧ t.fw.awaitSince = some h ∧ Keeps [.fw] s t))
  ∧ (∀ (h : Nat) (s : State), s.fw.awaitSince = some h → s.fw.act = 5 → Gives (.selftestEnd false) s (fun t => t.fw.act = 7
      ∧ t.fw.fallback = 2 ∧ t.fw.awaitSince = none))
  ∧ (∀ (h : Nat) (s : State), s.fw.awaitSince = some h → h + ms 600000 ≤ s.clock →
      Gives .confirmationWindowExpire s (fun t => t.fw.act = 7 ∧ t.fw.fallback = 1 ∧ t.fw.awaitSince = none))
  ∧ (∀ (h : Nat) (s : State), s.fw.awaitSince = some h → s.clock < h + ms 600000 → exec .confirmationWindowExpire s = .next s)
  ∧ (∀ s : State, s.fw.restarting = true → s.modes.flush = none → s.net.ctxs = [] → s.supply.mainOn = true →
      Gives .restartActivation s (fun t =>
      (∃ f, t.modes.flush = some f ∧ f.trigger = 0 ∧ f.phase = 3) ∧ t.relay.slots = [] ∧ t.fw = s.fw))
  ∧ (∀ (f : Flush) (s : State), s.modes.flush = some f → f.trigger = 0 → s.fw.confirmed < 2 →
      Gives .activationFlushComplete s (fun t => t.modes.mode = .filling ∧ t.supply.mainOn = true
      ∧ t.fw.active = (if s.fw.act = 3 then 1 - s.fw.confirmed else s.fw.confirmed) ∧ t.fw.bootNew = false ∧ t.fw.restarting = false))
  ∧ (∀ s : State, s.fw.act = 7 → s.fw.restarting = false → s.fw.reload = [] → s.fw.copying = false → s.fw.freeze = none →
      s.fw.active = s.fw.confirmed → s.fw.confirmed < 2 →
    s.modes.mode.service = true → Gives .fallbackDone s (fun t => t.fw.act = 0 ∧ (t.fwSlot s.fw.confirmed).st = 4
        ∧ (t.fwSlot (1 - s.fw.confirmed)).st = 3
      ∧ t.fw.lastReason = s.fw.fallback ∧ t.fw.fallbacks = s.fw.fallbacks + 1))
  ∧ (∀ (x : Bool) (s : State), s.fw.act = 3 → s.fw.byRestart = false → Gives (.standbyFail x) s (fun t => t.fw.act = 0
      ∧ t.fw.lastReason = 5 ∧ t.fw.slot0 = s.fw.slot0 ∧ t.fw.slot1 = s.fw.slot1
      ∧ t.spares.standbyLost = (s.spares.standbyLost || !x)))

/-- The SMBus sideband (R454, R455, R456, R458, R459, R460, R461, R462, R463): a write whose PEC is refused sets PEC_ERROR and changes
nothing else, registers take their writes whole, GO starts the command of the mailbox, its reply is read in blocks, and the KEK is taken
only under the conditions of R351. -/
def Obligations.Sideband : Prop :=
  let on (s : State) (p : Pec) : Prop := s.supply.auxInRange = true ∧ s.pecRefused p = false
  (∀ (code : Nat) (b : Bytes) (p : Pec) (s : State), s.supply.auxInRange = true → s.pecRefused p = true →
    exec (.sbRegisterWrite code b p) s = .next { s with sb := { s.sb with pecError := true } }
        ∧ exec (.mbData b p) s = .next { s with sb := { s.sb with pecError := true } }
    ∧ exec (.mbAbort p) s = .next { s with sb := { s.sb with pecError := true } }
        ∧ exec (.kek b p) s = .next { s with sb := { s.sb with pecError := true } })
  ∧ (∀ (a : Nat) (b : Bytes) (p : Pec) (s : State), on s p →
      exec (.sbRegisterWrite 2 (bytesOfNat 2 a) p) s = .next { s with sb := { s.sb with alertStatus := s.sb.alertStatus &&& ~~~(BitVec.ofNat 16 a) } }
    ∧ exec (.sbRegisterWrite 3 (bytesOfNat 2 a) p) s = .next { s with sb := { s.sb with alertMask := BitVec.ofNat 16 a &&& 0x07FF } }
    ∧ exec (.sbRegisterWrite 0x12 (bytesOfNat 2 a) p) s = .next { s with sb := { s.sb with mbOffset := a % 2 ^ 16 } }
    ∧ (s.sb.mb = .busy → exec (.sbRegisterWrite 0x13 (bytesOfNat 2 a) p) s = .next { s with sb := { s.sb with whileBusy := true } })
    ∧ (s.sb.mb ≠ .busy → a ≤ 4096 → exec (.sbRegisterWrite 0x13 (bytesOfNat 2 a) p) s = .next { s with sb := { s.sb with mbLen := a } })
    ∧ (b.length ≠ 2 → b.length ≠ 3 → ∀ code, exec (.sbRegisterWrite code b p) s = .next s))
  ∧ (∀ (b : Bytes) (p : Pec) (s : State), on s p → s.sb.mb = .busy →
      exec (.mbData b p) s = .next { s with sb := { s.sb with whileBusy := true } })
  ∧ (∀ (b : Bytes) (p : Pec) (s : State), on s p → s.sb.mb ≠ .busy → 1 ≤ b.length → b.length ≤ 255 → s.sb.mbOffset + b.length ≤ 4096 →
      Gives (.mbData b p) s (fun t =>
      t.sb.mbOffset = s.sb.mbOffset + b.length ∧ (∀ i, i < b.length → t.sb.request.getD (s.sb.mbOffset + i) 0 = b.getD i 0)
      ∧ (∀ i, i < 4096 → (i < s.sb.mbOffset ∨ s.sb.mbOffset + b.length ≤ i) → t.sb.request.getD i 0 = s.sb.request.getD i 0)
          ∧ Keeps [.sb] s t))
  ∧ (∀ (p : Pec) (s : State), on s p → s.sb.mb ≠ .busy → mbChecks s.mbRequest = false → Gives (.go p) s (fun t => t.sb.mb = .noReply
      ∧ t.sb.reason = 1 ∧ t.net.ctxs = s.net.ctxs))
  ∧ (∀ (p : Pec) (s : State), on s p → s.sb.mb ≠ .busy → mbChecks s.mbRequest = true → s.waltzing = true →
      Gives (.go p) s (fun t => t.sb.mb = .noReply ∧ t.sb.reason = 2 ∧ t.net.ctxs = s.net.ctxs))
  ∧ (∀ (p : Pec) (s : State), on s p → s.sb.mb ≠ .busy → mbChecks s.mbRequest = true → s.waltzing = false →
      s.mbStops (parseHeader s.mbRequest) (s.mbRequest.drop 40) = none → s.ctx? s.net.nextId = none →
    Gives (.go p) s (fun t => t.sb.mb = .busy ∧ t.sb.whileBusy = false ∧ t.sb.pecError = false ∧ ∃ x, t.ctx? s.net.nextId = some x
        ∧ x.opcode = (parseHeader s.mbRequest).opcode
      ∧ x.mailbox = true ∧ x.phase = .complete ∧ x.session = none))
  ∧ (∀ (x : Ctx) (p : Pec) (s : State), on s p → s.net.ctxs.find? (·.mailbox) = some x → x.abortable = true → s.ctx? x.id = some x →
      NoneWaits s → Gives (.mbAbort p) s (fun t =>
      Replied x (Reply.plain .aborted) t))
  ∧ (∀ (x : Ctx) (p : Pec) (s : State), on s p → s.net.ctxs.find? (·.mailbox) = some x → x.abortable = false →
      exec (.mbAbort p) s = .next s)
  ∧ (∀ s : State, s.supply.auxInRange = true → s.sb.mb = .ready → s.sb.reply.length ≤ s.sb.readOff + 254 → s.sb.delivered = false →
      Gives .mbReply s (fun t =>
      t.sb.lastRead = [(0 : BitVec 8)] ++ s.sb.reply.drop s.sb.readOff ∧ t.sb.readOff = 0 ∧ t.sb.delivered = true ∧ t.sb.mb = .ready
      ∧ t.sb.alertStatus = s.sb.alertStatus &&& ~~~(1#16) ∧ Keeps [.sb] s t))
  ∧ (∀ s : State, s.supply.auxInRange = true → s.sb.mb = .ready → s.sb.readOff + 254 < s.sb.reply.length → Gives .mbReply s (fun t =>
      (t.sb.lastRead.drop 1) = (s.sb.reply.drop s.sb.readOff).take 254 ∧ t.sb.readOff = s.sb.readOff + 254
          ∧ t.sb.alertStatus = s.sb.alertStatus ∧ Keeps [.sb] s t))
  ∧ (∀ (b : Bytes) (p : Pec) (s : State), on s p → s.modes.mode.service = true → s.cipher.kek = none → s.supply.conditions = [] →
    (b.length = 32 →
        exec (.kek b p) s = .next { s with cipher := { s.cipher with kek := some (BitVec.ofNat 256 (natOfBytes b)) }, sb := { s.sb with kekRefused := false } })
    ∧ (b.length ≠ 32 → exec (.kek b p) s = .next { s with sb := { s.sb with kekRefused := true } }))
  ∧ (∀ (b : Bytes) (p : Pec) (s : State), on s p → (s.modes.mode.service = false ∨ s.cipher.kek ≠ none ∨ s.supply.conditions ≠ []) →
    exec (.kek b p) s = .next { s with sb := { s.sb with kekRefused := true } })
  ∧ (∀ s : State, s.supply.auxInRange = true → Gives .alertResponse s (fun t => t.sb.arAnswered = s.alertLow
      ∧ t.sb.alertStatus = s.sb.alertStatus ∧ Keeps [.sb] s t))
  ∧ (∀ s : State, s.supply.auxInRange = true → Gives .smbusTimeout s (fun t => t.sb.lastRead = [] ∧ t.sb.request = s.sb.request
      ∧ Keeps [.sb] s t))

/-- The on-module segment, the console and the trace (R421, R464, R465, R466, R468): a device that cannot be recovered is failed and retried
every 60 s, the failed capacitor monitor freezes the module, console lines are answered, and a traced island places its SYNC record. -/
def Obligations.SegmentConsoleTrace : Prop :=
  (∀ (d : Nat) (s : State), s.supply.auxInRange = true → d ≤ 12 → d ≠ 2 → d ≠ 10 → s.sb.failed.any (·.1 == d) = false →
      Gives (.segmentPoll d false) s (fun t =>
      ∃ u : State, u.sb.failed = s.sb.failed ++ [(d, s.clock)] ∧ u.sb.alertStatus.getLsbD Alert.segmentFault.bit = true
          ∧ u.logs.nextEv = s.logs.nextEv + 1
        ∧ Keeps [.sb, .logs, .dbg] s u ∧ t = (if s.supply.mainOn && d < 10 then u.throttle.watch else u)))
  ∧ (∀ s : State, s.supply.auxInRange = true → s.sb.failed.any (·.1 == 10) = false → (s.modes.mode = .serving ∨ s.modes.mode = .shadowing) →
      Gives (.segmentPoll 10 false) s (fun t =>
      t.modes.mode = .frozen ∧ t.modes.frozenFrom = some s.modes.mode
          ∧ t.modes.freezeCauses = s.modes.freezeCauses ||| FreezeCause.holdup.word ∧ t.holdup.lastPassed = false))
  ∧ (∀ (d : Nat) (x : Bool) (s : State), (x = true ∨ s.sb.failed.any (·.1 == d) = true ∨ s.supply.auxInRange = false) →
      exec (.segmentPoll d x) s = .next s)
  ∧ (∀ (d h : Nat) (x : Bool) (s : State), s.sb.failed.find? (·.1 == d) = some (d, h) → s.clock < h + sec 60 →
      exec (.segmentRetry d x) s = .next s)
  ∧ (∀ (d h : Nat) (s : State), s.supply.auxInRange = true → s.sb.failed.find? (·.1 == d) = some (d, h) → h + sec 60 ≤ s.clock →
      Gives (.segmentRetry d true) s (fun t =>
      ∃ u : State, u.sb.failed = s.sb.failed.filter (·.1 != d) ∧ u.sb.alertStatus.getLsbD Alert.segmentFault.bit = true
          ∧ u.logs.nextEv = s.logs.nextEv + 1
        ∧ Keeps [.sb, .logs, .dbg] s u ∧ t = (if s.supply.mainOn then u.throttle.watch else u)))
  ∧ (∀ (d h : Nat) (s : State), s.supply.auxInRange = true → s.sb.failed.find? (·.1 == d) = some (d, h) → h + sec 60 ≤ s.clock →
      Gives (.segmentRetry d false) s (fun t =>
      t.sb.failed.find? (·.1 == d) = some (d, s.clock) ∧ t.sb.failed.map (·.1) = s.sb.failed.map (·.1) ∧ Keeps [.sb] s t))
  ∧ (∀ (line : Bytes) (s : State), exec (.consoleLine line true) s = .next s)
  ∧ (∀ (line : Bytes) (s : State), s.supply.auxInRange = true → (80 < line.length ∨ (line ≠ ascii "id" ∧ line ≠ ascii "status"
      ∧ line.take 7 ≠ ascii "events ")) →
    exec (.consoleLine line false) s = .next (s.console (ascii "?")))
  ∧ (∀ s : State, s.supply.auxInRange = true →
      exec (.consoleLine (ascii "status") false) s = .next (s.console (ascii ("mode " ++ s.modes.mode.name))))
  ∧ (∀ (n : Nat) (s : State), s.supply.mainOn = true → s.traced n = true → 246 ∉ s.spares.lostRoles → Gives (.traceSync n) s (fun t =>
      getKey t.dbg.lastSync n 0 = s.clock ∧ ∃ r ∈ t.dbg.trace, r.kind = 5 ∧ r.island = n ∧ r.time = s.time % 2 ^ 48))
  ∧ (∀ (n : Nat) (s : State), (s.supply.mainOn = false ∨ s.traced n = false) → exec (.traceSync n) s = .next s)

/-- A step is the command in front of the queue: with `c` in front, a step is what `c` does to the state whose queue is the rest; with
nothing queued, one nanosecond of the clock passes (DESIGN CHOICE, log entry 2). -/
def Obligations.StepRunsFront : Prop :=
  (∀ (c : Instr) (s : State), step { s with pending := c :: s.pending } = exec c s)
  ∧ (∀ (c : Instr) (q : List Instr) (s : State), s.pending = c :: q → step s = exec c { s with pending := q })
  ∧ (∀ s : State, s.pending = [] → step s = .next { s with clock := s.clock + 1 })

/-- Right after reset the module is in Dormant with its main supply off, no alarm condition, no command, session, record or key, every
configuration variable at its default, ALERT_MASK with every cause unmasked and the mailbox empty (R33, R43, R192, R415, R456, R462). The
state of a module that was never started is the model's reading of "At reset" (log entry 15). -/
def Obligations.ResetState : Prop :=
  State.reset.modes.mode = .dormant ∧ State.reset.supply.mainOn = false ∧ State.reset.supply.conditions = [] ∧ State.reset.net.ctxs = []
      ∧ State.reset.net.sessions = []
  ∧ State.reset.store.entries = [] ∧ State.reset.cipher.pages = [] ∧ State.reset.cipher.kek = none ∧ State.reset.power.st = 0
      ∧ State.reset.pending = []
  ∧ State.reset.sb.alertStatus = 0 ∧ State.reset.sb.alertMask = 0x07FF ∧ State.reset.sb.mb = .empty ∧ State.reset.modes.freezeCauses = 0
  ∧ (∀ (id : Nat) (d : VarDesc), varDesc id = some d → State.reset.var id = d.dflt)

/-- The state after reset satisfies the invariant that every step keeps. -/
def Obligations.ResetInvariant : Prop := Inv State.reset

/-- Every step from a good state answers a good state (R85, R188, R190, R385, R415, R418): the power state is P0 to P3, and P0 outside
Serving; an exit in progress leaves the power state the module is in; the module's time is not negative; and the event log and the
late-fault journal hold their newest records, each with its own index, within their capacities. -/
def Obligations.StepKeepsInvariant : Prop := ∀ s t : State, Inv s → step s = .next t → Inv t

/-- What no command takes back (R190, R385): the queue and the clock stay, the frames that have left stay sent in their order, and the
numbers of contexts, log records and journal entries only go on; and a step takes one command from the queue or one nanosecond from the
clock. -/
def Obligations.HistoryOnlyGrows : Prop :=
  (∀ (c : Instr) (s t : State), exec c s = .next t → t.pending = s.pending ∧ t.clock = s.clock ∧ s.net.sent <+: t.net.sent
      ∧ s.net.nextId ≤ t.net.nextId
    ∧ s.logs.nextEv ≤ t.logs.nextEv ∧ s.logs.nextJn ≤ t.logs.nextJn ∧ s.rnd ≤ t.rnd)
  ∧ (∀ s t : State, step s = .next t → t.pending = s.pending.tail ∧ t.clock = s.clock + (if s.pending = [] then 1 else 0)
      ∧ s.net.sent <+: t.net.sent
    ∧ s.logs.nextEv ≤ t.logs.nextEv ∧ s.logs.nextJn ≤ t.logs.nextJn)

/-- The frame of every command: nothing stops it, in no state and with no operand, and it changes only the parts of the state that
`Instr.writes` lists for it; every other part is as it was. -/
def Obligations.Frames : Prop := ∀ (c : Instr) (s : State), Gives c s (fun t => Keeps (Instr.writes c) s t)

/-- A CONFIG_GET or a CONFIG_SET for an ID that no chapter defines is answered BAD_LENGTH and leaves all settings unchanged (R15). -/
def Obligations.UndefinedVariable : Prop :=
  let refused (i : Instr) (x : Ctx) (s : State) : Prop := Gives i s (fun t => Replied x (Reply.plain .badLength) t ∧ t.vars = s.vars
      ∧ t.nor = s.nor
    ∧ Keeps [.ports, .sessions, .ctxs, .nextId, .kept, .held, .sent, .locks, .keyspaces,
        .quince, .pages, .pipes, .queue, .relay, .power, .sb] s t)
  ∀ (c : Nat) (x : Ctx) (s : State), s.modeStops x = none → (2 ^ 16 ≤ x.paramA.toNat ∨ varDesc x.paramA.toNat = none) →
    (s.admin? c 0x3C = some x → refused (.configGet c) x s) ∧ (s.admin? c 0x3D = some x → s.settingsBusy = false →
        refused (.configSet c) x s)

/-- A CONFIG_SET with a value outside its variable's range is answered BAD_LENGTH and changes nothing (R69). -/
def Obligations.ValueOutOfRange : Prop :=
  ∀ (c v : Nat) (x : Ctx) (d : VarDesc) (s : State), s.admin? c 0x3D = some x → s.settingsBusy = false → s.modeStops x = none →
      x.varNamed = some d →
    d.modes.contains s.modes.mode = true → (x.paramA.toNat / 256 = 0x0D → x.mailbox = true) → x.varValue d = some v → ¬ ((d.lo ≤ v
        ∧ v ≤ d.hi) ∨ (d.zero = true ∧ v = 0)) →
    Gives (.configSet c) s (fun t => Replied x (Reply.plain .badLength) t ∧ t.vars = s.vars ∧ t.marks = s.marks ∧ t.nor = s.nor
      ∧ Keeps [.ports, .sessions, .ctxs, .nextId, .kept, .held, .sent, .locks, .keyspaces,
          .quince, .pages, .pipes, .queue, .relay, .power, .sb] s t)

/-- A CONFIG_SET in a mode that its variable's "Writable in" column does not list is answered WRONG_MODE and changes nothing, whatever
variable and value (R70). -/
def Obligations.ModeNotListed : Prop :=
  ∀ (c : Nat) (x : Ctx) (d : VarDesc) (s : State), s.admin? c 0x3D = some x → s.settingsBusy = false → s.modeStops x = none →
      x.varNamed = some d →
    d.modes.contains s.modes.mode = false →
    Gives (.configSet c) s (fun t => Replied x (Reply.plain .wrongMode) t ∧ t.vars = s.vars ∧ t.marks = s.marks ∧ t.nor = s.nor
      ∧ Keeps [.ports, .sessions, .ctxs, .nextId, .kept, .held, .sent, .locks, .keyspaces,
          .quince, .pages, .pipes, .queue, .relay, .power, .sb] s t)
end

