-- ==== Sys2Proof/Laws/Keeps.lean ====
section
/-! SUPPORT. The relation `Keeps`: which parts of the state an operation may change. -/

set_option Elab.async false

namespace Sys2Proof.Machine

/-- Every part of the first list is in the second. -/
def Part.sub (a b : List Part) : Bool := a.all (fun p => b.contains p)

theorem Part.mem_of_sub {a ws : List Part} {p : Part} (h : Part.sub a ws = true) (m : a.contains p = true) : p ∈ ws := by
  simp only [Part.sub, List.all_eq_true, List.contains_iff_mem] at *
  exact h p m

theorem Part.sub_trans {a b ws : List Part} (h : Part.sub b ws = true) (k : Part.sub a b = true) : Part.sub a ws = true := by
  simp only [Part.sub, List.all_eq_true, List.contains_iff_mem] at *
  exact fun p hp => h p (k p hp)

theorem Keeps.refl (ws : List Part) (s : State) : Keeps ws s s := by
  intro p _
  cases p <;> rfl

theorem Same.trans {s t u : State} {p : Part} (h : Same s t p) (k : Same t u p) : Same s u p := by
  cases p <;> exact Eq.trans k h

theorem Keeps.trans {ws : List Part} {s t u : State} (h : Keeps ws s t) (k : Keeps ws t u) : Keeps ws s u :=
  fun p hp => (h p hp).trans (k p hp)

theorem Keeps.mono {a b : List Part} {s t : State} (h : Keeps a s t) (k : Part.sub a b = true) : Keeps b s t :=
  fun p hp => h p (fun m => hp (Part.mem_of_sub k (List.contains_iff_mem.2 m)))

theorem Keeps.ite {ws : List Part} {s t u : State} {c : Prop} [Decidable c] (h : Keeps ws s t) (k : Keeps ws s u) :
    Keeps ws s (if c then t else u) := by
  split
  · exact h
  · exact k

theorem Keeps.foldl {α : Type} {ws : List Part} {s t : State} {f : State → α → State} {l : List α} (h : Keeps ws s t)
    (hf : ∀ u a, Keeps ws s u → Keeps ws s (f u a)) : Keeps ws s (l.foldl f t) := by
  induction l generalizing t with
  | nil => exact h
  | cons a l ih => exact ih (hf t a h)

/-- A record update keeps what it does not name. -/
theorem Keeps.mk_of {ws : List Part} {s u : State}
    {pending clock rnd supply modes spares counts ports net vars marks logs owners store coh quince cipher sieves relay power thermal holdup fw sb dbg nor}
    (hpending : pending = u.pending) (h : Keeps ws s u)
    (hclock : clock = u.clock ∨ .clock ∈ ws := by
      first | with_reducible exact .inl rfl | exact .inr (Part.mem_of_sub (by assumption) (by decide)))
    (hrnd : rnd = u.rnd ∨ .rnd ∈ ws := by
      first | with_reducible exact .inl rfl | exact .inr (Part.mem_of_sub (by assumption) (by decide)))
    (hsupply : supply = u.supply ∨ .supply ∈ ws := by
      first | exact .inr (Part.mem_of_sub (by assumption) (by decide)) | with_reducible exact .inl rfl)
    (hmodes : modes = u.modes ∨ .modes ∈ ws := by
      first | exact .inr (Part.mem_of_sub (by assumption) (by decide)) | with_reducible exact .inl rfl)
    (hspares : spares = u.spares ∨ .spares ∈ ws := by
      first | exact .inr (Part.mem_of_sub (by assumption) (by decide)) | with_reducible exact .inl rfl)
    (hcounts : counts = u.counts ∨ .counts ∈ ws := by
      first | exact .inr (Part.mem_of_sub (by assumption) (by decide)) | with_reducible exact .inl rfl)
    (hports : ports = u.ports ∨ .ports ∈ ws := by
      first | exact .inr (Part.mem_of_sub (by assumption) (by decide)) | with_reducible exact .inl rfl)
    (hsessions : net.sessions = u.net.sessions ∨ .sessions ∈ ws := by
      first | with_reducible exact .inl rfl | exact .inr (Part.mem_of_sub (by assumption) (by decide)))
    (hclosed : net.closed = u.net.closed ∨ .closed ∈ ws := by
      first | with_reducible exact .inl rfl | exact .inr (Part.mem_of_sub (by assumption) (by decide)))
    (hctxs : net.ctxs = u.net.ctxs ∨ .ctxs ∈ ws := by
      first | with_reducible exact .inl rfl | exact .inr (Part.mem_of_sub (by assumption) (by decide)))
    (hnextId : net.nextId = u.net.nextId ∨ .nextId ∈ ws := by
      first | with_reducible exact .inl rfl | exact .inr (Part.mem_of_sub (by assumption) (by decide)))
    (hkept : net.kept = u.net.kept ∨ .kept ∈ ws := by
      first | with_reducible exact .inl rfl | exact .inr (Part.mem_of_sub (by assumption) (by decide)))
    (hheld : net.held = u.net.held ∨ .held ∈ ws := by
      first | with_reducible exact .inl rfl | exact .inr (Part.mem_of_sub (by assumption) (by decide)))
    (hsent : net.sent = u.net.sent ∨ .sent ∈ ws := by
      first | with_reducible exact .inl rfl | exact .inr (Part.mem_of_sub (by assumption) (by decide)))
    (hlocks : net.locks = u.net.locks ∨ .locks ∈ ws := by
      first | with_reducible exact .inl rfl | exact .inr (Part.mem_of_sub (by assumption) (by decide)))
    (hvars : vars = u.vars ∨ .vars ∈ ws := by
      first | with_reducible exact .inl rfl | exact .inr (Part.mem_of_sub (by assumption) (by decide)))
    (hmarks : marks = u.marks ∨ .marks ∈ ws := by
      first | with_reducible exact .inl rfl | exact .inr (Part.mem_of_sub (by assumption) (by decide)))
    (hlogs : logs = u.logs ∨ .logs ∈ ws := by
      first | exact .inr (Part.mem_of_sub (by assumption) (by decide)) | with_reducible exact .inl rfl)
    (howners : owners = u.owners ∨ .owners ∈ ws := by
      first | with_reducible exact .inl rfl | exact .inr (Part.mem_of_sub (by assumption) (by decide)))
    (hkeyspaces : store.keyspaces = u.store.keyspaces ∨ .keyspaces ∈ ws := by
      first | with_reducible exact .inl rfl | exact .inr (Part.mem_of_sub (by assumption) (by decide)))
    (hstamps : store.stamps = u.store.stamps ∨ .stamps ∈ ws := by
      first | with_reducible exact .inl rfl | exact .inr (Part.mem_of_sub (by assumption) (by decide)))
    (hentries : store.entries = u.store.entries ∨ .entries ∈ ws := by
      first | with_reducible exact .inl rfl | exact .inr (Part.mem_of_sub (by assumption) (by decide)))
    (hrecs : store.recs = u.store.recs ∨ .recs ∈ ws := by
      first | with_reducible exact .inl rfl | exact .inr (Part.mem_of_sub (by assumption) (by decide)))
    (hgroups : store.groups = u.store.groups ∨ .groups ∈ ws := by
      first | with_reducible exact .inl rfl | exact .inr (Part.mem_of_sub (by assumption) (by decide)))
    (hextents : store.extents = u.store.extents ∨ .extents ∈ ws := by
      first | with_reducible exact .inl rfl | exact .inr (Part.mem_of_sub (by assumption) (by decide)))
    (hfineNext : store.fineNext = u.store.fineNext ∨ .fineNext ∈ ws := by
      first | with_reducible exact .inl rfl | exact .inr (Part.mem_of_sub (by assumption) (by decide)))
    (hwear : store.wear = u.store.wear ∨ .wear ∈ ws := by
      first | exact .inr (Part.mem_of_sub (by assumption) (by decide)) | with_reducible exact .inl rfl)
    (hgens : store.gens = u.store.gens ∨ .gens ∈ ws := by
      first | exact .inr (Part.mem_of_sub (by assumption) (by decide)) | with_reducible exact .inl rfl)
    (heraseSets : store.eraseSets = u.store.eraseSets ∨ .eraseSets ∈ ws := by
      first | with_reducible exact .inl rfl | exact .inr (Part.mem_of_sub (by assumption) (by decide)))
    (hstale : store.stale = u.store.stale ∨ .stale ∈ ws := by
      first | with_reducible exact .inl rfl | exact .inr (Part.mem_of_sub (by assumption) (by decide)))
    (hheat : store.heat = u.store.heat ∨ .heat ∈ ws := by
      first | exact .inr (Part.mem_of_sub (by assumption) (by decide)) | with_reducible exact .inl rfl)
    (hcache : store.cache = u.store.cache ∨ .cache ∈ ws := by
      first | exact .inr (Part.mem_of_sub (by assumption) (by decide)) | with_reducible exact .inl rfl)
    (hholds : store.holds = u.store.holds ∨ .holds ∈ ws := by
      first | with_reducible exact .inl rfl | exact .inr (Part.mem_of_sub (by assumption) (by decide)))
    (hlogA : store.logA = u.store.logA ∨ .logA ∈ ws := by
      first | with_reducible exact .inl rfl | exact .inr (Part.mem_of_sub (by assumption) (by decide)))
    (hlogB : store.logB = u.store.logB ∨ .logB ∈ ws := by
      first | with_reducible exact .inl rfl | exact .inr (Part.mem_of_sub (by assumption) (by decide)))
    (hmapLog : store.mapLog = u.store.mapLog ∨ .mapLog ∈ ws := by
      first | with_reducible exact .inl rfl | exact .inr (Part.mem_of_sub (by assumption) (by decide)))
    (hdirty : store.dirty = u.store.dirty ∨ .dirty ∈ ws := by
      first | with_reducible exact .inl rfl | exact .inr (Part.mem_of_sub (by assumption) (by decide)))
    (himages : store.images = u.store.images ∨ .images ∈ ws := by
      first | exact .inr (Part.mem_of_sub (by assumption) (by decide)) | with_reducible exact .inl rfl)
    (hpatrolAt : store.patrolAt = u.store.patrolAt ∨ .patrolAt ∈ ws := by
      first | with_reducible exact .inl rfl | exact .inr (Part.mem_of_sub (by assumption) (by decide)))
    (hpatrolMoved : store.patrolMoved = u.store.patrolMoved ∨ .patrolMoved ∈ ws := by
      first | with_reducible exact .inl rfl | exact .inr (Part.mem_of_sub (by assumption) (by decide)))
    (hcycleHours : store.cycleHours = u.store.cycleHours ∨ .cycleHours ∈ ws := by
      first | with_reducible exact .inl rfl | exact .inr (Part.mem_of_sub (by assumption) (by decide)))
    (hcoh : coh = u.coh ∨ .coh ∈ ws := by
      first | exact .inr (Part.mem_of_sub (by assumption) (by decide)) | with_reducible exact .inl rfl)
    (hquince : quince = u.quince ∨ .quince ∈ ws := by
      first | exact .inr (Part.mem_of_sub (by assumption) (by decide)) | with_reducible exact .inl rfl)
    (hpages : cipher.pages = u.cipher.pages ∨ .pages ∈ ws := by
      first | with_reducible exact .inl rfl | exact .inr (Part.mem_of_sub (by assumption) (by decide)))
    (hkek : cipher.kek = u.cipher.kek ∨ .kek ∈ ws := by
      first | with_reducible exact .inl rfl | exact .inr (Part.mem_of_sub (by assumption) (by decide)))
    (hpipes : cipher.pipes = u.cipher.pipes ∨ .pipes ∈ ws := by
      first | with_reducible exact .inl rfl | exact .inr (Part.mem_of_sub (by assumption) (by decide)))
    (hqueue : cipher.queue = u.cipher.queue ∨ .queue ∈ ws := by
      first | with_reducible exact .inl rfl | exact .inr (Part.mem_of_sub (by assumption) (by decide)))
    (hsieves : sieves = u.sieves ∨ .sieves ∈ ws := by
      first | exact .inr (Part.mem_of_sub (by assumption) (by decide)) | with_reducible exact .inl rfl)
    (hrelay : relay = u.relay ∨ .relay ∈ ws := by
      first | exact .inr (Part.mem_of_sub (by assumption) (by decide)) | with_reducible exact .inl rfl)
    (hpower : power = u.power ∨ .power ∈ ws := by
      first | exact .inr (Part.mem_of_sub (by assumption) (by decide)) | with_reducible exact .inl rfl)
    (hthermal : thermal = u.thermal ∨ .thermal ∈ ws := by
      first | exact .inr (Part.mem_of_sub (by assumption) (by decide)) | with_reducible exact .inl rfl)
    (hholdup : holdup = u.holdup ∨ .holdup ∈ ws := by
      first | exact .inr (Part.mem_of_sub (by assumption) (by decide)) | with_reducible exact .inl rfl)
    (hfw : fw = u.fw ∨ .fw ∈ ws := by
      first | exact .inr (Part.mem_of_sub (by assumption) (by decide)) | with_reducible exact .inl rfl)
    (hsb : sb = u.sb ∨ .sb ∈ ws := by
      first | with_reducible exact .inl rfl | exact .inr (Part.mem_of_sub (by assumption) (by decide)))
    (hdebug : dbg = u.dbg ∨ .dbg ∈ ws := by
      first | exact .inr (Part.mem_of_sub (by assumption) (by decide)) | with_reducible exact .inl rfl)
    (hnor : nor = u.nor ∨ .nor ∈ ws := by
      first | with_reducible exact .inl rfl | exact .inr (Part.mem_of_sub (by assumption) (by decide))) :
    Keeps ws s (State.mk pending clock rnd supply modes spares counts ports net vars marks logs owners store coh quince cipher sieves relay power thermal holdup fw sb dbg nor) := by
  intro p hp
  cases p with
  | pending => exact hpending.trans (h .pending hp)
  | clock => exact (hclock.resolve_right hp).trans (h .clock hp)
  | rnd => exact (hrnd.resolve_right hp).trans (h .rnd hp)
  | supply => exact (hsupply.resolve_right hp).trans (h .supply hp)
  | modes => exact (hmodes.resolve_right hp).trans (h .modes hp)
  | spares => exact (hspares.resolve_right hp).trans (h .spares hp)
  | counts => exact (hcounts.resolve_right hp).trans (h .counts hp)
  | ports => exact (hports.resolve_right hp).trans (h .ports hp)
  | sessions => exact (hsessions.resolve_right hp).trans (h .sessions hp)
  | closed => exact (hclosed.resolve_right hp).trans (h .closed hp)
  | ctxs => exact (hctxs.resolve_right hp).trans (h .ctxs hp)
  | nextId => exact (hnextId.resolve_right hp).trans (h .nextId hp)
  | kept => exact (hkept.resolve_right hp).trans (h .kept hp)
  | held => exact (hheld.resolve_right hp).trans (h .held hp)
  | sent => exact (hsent.resolve_right hp).trans (h .sent hp)
  | locks => exact (hlocks.resolve_right hp).trans (h .locks hp)
  | vars => exact (hvars.resolve_right hp).trans (h .vars hp)
  | marks => exact (hmarks.resolve_right hp).trans (h .marks hp)
  | logs => exact (hlogs.resolve_right hp).trans (h .logs hp)
  | owners => exact (howners.resolve_right hp).trans (h .owners hp)
  | keyspaces => exact (hkeyspaces.resolve_right hp).trans (h .keyspaces hp)
  | stamps => exact (hstamps.resolve_right hp).trans (h .stamps hp)
  | entries => exact (hentries.resolve_right hp).trans (h .entries hp)
  | recs => exact (hrecs.resolve_right hp).trans (h .recs hp)
  | groups => exact (hgroups.resolve_right hp).trans (h .groups hp)
  | extents => exact (hextents.resolve_right hp).trans (h .extents hp)
  | fineNext => exact (hfineNext.resolve_right hp).trans (h .fineNext hp)
  | wear => exact (hwear.resolve_right hp).trans (h .wear hp)
  | gens => exact (hgens.resolve_right hp).trans (h .gens hp)
  | eraseSets => exact (heraseSets.resolve_right hp).trans (h .eraseSets hp)
  | stale => exact (hstale.resolve_right hp).trans (h .stale hp)
  | heat => exact (hheat.resolve_right hp).trans (h .heat hp)
  | cache => exact (hcache.resolve_right hp).trans (h .cache hp)
  | holds => exact (hholds.resolve_right hp).trans (h .holds hp)
  | logA => exact (hlogA.resolve_right hp).trans (h .logA hp)
  | logB => exact (hlogB.resolve_right hp).trans (h .logB hp)
  | mapLog => exact (hmapLog.resolve_right hp).trans (h .mapLog hp)
  | dirty => exact (hdirty.resolve_right hp).trans (h .dirty hp)
  | images => exact (himages.resolve_right hp).trans (h .images hp)
  | patrolAt => exact (hpatrolAt.resolve_right hp).trans (h .patrolAt hp)
  | patrolMoved => exact (hpatrolMoved.resolve_right hp).trans (h .patrolMoved hp)
  | cycleHours => exact (hcycleHours.resolve_right hp).trans (h .cycleHours hp)
  | coh => exact (hcoh.resolve_right hp).trans (h .coh hp)
  | quince => exact (hquince.resolve_right hp).trans (h .quince hp)
  | pages => exact (hpages.resolve_right hp).trans (h .pages hp)
  | kek => exact (hkek.resolve_right hp).trans (h .kek hp)
  | pipes => exact (hpipes.resolve_right hp).trans (h .pipes hp)
  | queue => exact (hqueue.resolve_right hp).trans (h .queue hp)
  | sieves => exact (hsieves.resolve_right hp).trans (h .sieves hp)
  | relay => exact (hrelay.resolve_right hp).trans (h .relay hp)
  | power => exact (hpower.resolve_right hp).trans (h .power hp)
  | thermal => exact (hthermal.resolve_right hp).trans (h .thermal hp)
  | holdup => exact (hholdup.resolve_right hp).trans (h .holdup hp)
  | fw => exact (hfw.resolve_right hp).trans (h .fw hp)
  | sb => exact (hsb.resolve_right hp).trans (h .sb hp)
  | dbg => exact (hdebug.resolve_right hp).trans (h .dbg hp)
  | nor => exact (hnor.resolve_right hp).trans (h .nor hp)

/-- The transport side is the same when each of its parts is. -/
theorem Keeps.net {ws : List Part} {s t : State} (h : Keeps ws s t)
    (hp : [.sessions, .closed, .ctxs, .nextId, .kept, .held, .sent, .locks].all
      (fun p => !ws.contains p) = true) : t.net = s.net := by
  simp only [List.all_cons, List.all_nil, Bool.and_true, Bool.and_eq_true, Bool.not_eq_true', List.contains_eq_mem, decide_eq_false_iff_not] at hp
  obtain ⟨h0, h1, h2, h3, h4, h5, h6, h7⟩ := hp
  have k0 := h .sessions h0
  have k1 := h .closed h1
  have k2 := h .ctxs h2
  have k3 := h .nextId h3
  have k4 := h .kept h4
  have k5 := h .held h5
  have k6 := h .sent h6
  have k7 := h .locks h7
  cases ht : t.net
  cases hs : s.net
  simp_all only [Same]

/-- The store is the same when each of its parts is. -/
theorem Keeps.store {ws : List Part} {s t : State} (h : Keeps ws s t)
    (hp : [.keyspaces, .stamps, .entries, .recs, .groups, .extents, .fineNext, .wear, .gens, .eraseSets, .stale, .heat,
      .cache, .holds, .logA, .logB, .mapLog, .dirty, .images, .patrolAt, .patrolMoved, .cycleHours].all
      (fun p => !ws.contains p) = true) : t.store = s.store := by
  simp only [List.all_cons, List.all_nil, Bool.and_true, Bool.and_eq_true, Bool.not_eq_true', List.contains_eq_mem, decide_eq_false_iff_not] at hp
  obtain ⟨h0, h1, h2, h3, h4, h5, h6, h7, h8, h9, h10, h11, h12, h13, h14, h15, h16, h17, h18, h19, h20, h21⟩ := hp
  have k0 := h .keyspaces h0
  have k1 := h .stamps h1
  have k2 := h .entries h2
  have k3 := h .recs h3
  have k4 := h .groups h4
  have k5 := h .extents h5
  have k6 := h .fineNext h6
  have k7 := h .wear h7
  have k8 := h .gens h8
  have k9 := h .eraseSets h9
  have k10 := h .stale h10
  have k11 := h .heat h11
  have k12 := h .cache h12
  have k13 := h .holds h13
  have k14 := h .logA h14
  have k15 := h .logB h15
  have k16 := h .mapLog h16
  have k17 := h .dirty h17
  have k18 := h .images h18
  have k19 := h .patrolAt h19
  have k20 := h .patrolMoved h20
  have k21 := h .cycleHours h21
  cases ht : t.store
  cases hs : s.store
  simp_all only [Same]

/-- The cipher engine is the same when each of its parts is. -/
theorem Keeps.cipher {ws : List Part} {s t : State} (h : Keeps ws s t)
    (hp : [.pages, .kek, .pipes, .queue].all
      (fun p => !ws.contains p) = true) : t.cipher = s.cipher := by
  simp only [List.all_cons, List.all_nil, Bool.and_true, Bool.and_eq_true, Bool.not_eq_true', List.contains_eq_mem, decide_eq_false_iff_not] at hp
  obtain ⟨h0, h1, h2, h3⟩ := hp
  have k0 := h .pages h0
  have k1 := h .kek h1
  have k2 := h .pipes h2
  have k3 := h .queue h3
  cases ht : t.cipher
  cases hs : s.cipher
  simp_all only [Same]

/-- A next state of the outcome keeps everything but those parts. -/
def KeepsO (ws : List Part) (s : State) (o : Host.Outcome State Fault Refusal) : Prop := ∀ t, o = .next t → Keeps ws s t

theorem KeepsO.next {ws : List Part} {s t : State} (h : Keeps ws s t) : KeepsO ws s (.next t) :=
  fun _ e => by injection e with e; exact e ▸ h

theorem KeepsO.ite {ws : List Part} {s : State} {c : Prop} [Decidable c] {o p : Host.Outcome State Fault Refusal}
    (h : KeepsO ws s o) (k : KeepsO ws s p) : KeepsO ws s (if c then o else p) := by
  split
  · exact h
  · exact k

end Sys2Proof.Machine
end

