-- ==== Sys2Proof/Laws/KeepsFlags.lean ====
section
/-! SUPPORT. Which parts of the state each operation of Machine/Flags.lean may change. -/

set_option Elab.async false

namespace Sys2Proof.Machine

theorem alert_keeps {ws : List Part} {s₀ s : State} (h₀ : Keeps ws s₀ s) (a : Alert)
    (hw : Part.sub [.sb] ws = true) : Keeps ws s₀ (State.alert s a) := by
  unfold State.alert
  try dsimp only
  repeat' first
    | with_reducible assumption
    | split
    | (refine Keeps.mk_of rfl ?_; first | with_reducible assumption)

theorem portEvent_keeps {ws : List Part} {s₀ s : State} (h₀ : Keeps ws s₀ s) (portB : Bool) (e : PortEvent)
    (hw : Part.sub [.ports, .sb] ws = true) : Keeps ws s₀ (State.portEvent s portB e) := by
  unfold State.portEvent
  try dsimp only
  repeat' first
    | with_reducible assumption
    | with_reducible apply Keeps.ite
    | with_reducible apply alert_keeps
    | with_reducible exact Part.sub_trans hw (by decide)
    | split
    | (refine Keeps.mk_of rfl ?_; first | with_reducible assumption | with_reducible apply Keeps.ite | with_reducible apply alert_keeps | with_reducible exact Part.sub_trans hw (by decide))

theorem clearPortEvents_keeps {ws : List Part} {s₀ s : State} (h₀ : Keeps ws s₀ s) (portB : Bool) (w : BitVec 16)
    (hw : Part.sub [.ports] ws = true) : Keeps ws s₀ (State.clearPortEvents s portB w) := by
  unfold State.clearPortEvents
  try dsimp only
  repeat' first
    | with_reducible assumption
    | with_reducible apply Keeps.ite
    | split
    | (refine Keeps.mk_of rfl ?_; first | with_reducible assumption | with_reducible apply Keeps.ite)

end Sys2Proof.Machine
end

