-- ==== Sys2Proof/Laws/KeepsQuinceRow.lean ====
section
/-! SUPPORT. Which parts of the state each operation of Machine/QuinceRow.lean may change. -/

set_option Elab.async false

namespace Sys2Proof.Machine

theorem qUpdate_keeps {ws : List Part} {s₀ s : State} (h₀ : Keeps ws s₀ s) (bank row : Nat) (ways : List Way)
    (hw : Part.sub [.quince] ws = true) : Keeps ws s₀ (State.qUpdate s bank row ways) := by
  unfold State.qUpdate
  try dsimp only
  repeat' first
    | with_reducible assumption
    | split
    | (refine Keeps.mk_of rfl ?_; first | with_reducible assumption)

theorem qTentative_keeps {ws : List Part} {s₀ s : State} (h₀ : Keeps ws s₀ s) (fp : BitVec 128) (priority : Nat) (pin : Bool)
    (hw : Part.sub [.quince] ws = true) : Keeps ws s₀ (State.qTentative s fp priority pin) := by
  unfold State.qTentative
  try dsimp only
  repeat' first
    | with_reducible assumption
    | with_reducible apply Keeps.ite
    | with_reducible apply qUpdate_keeps
    | with_reducible exact Part.sub_trans hw (by decide)
    | split
    | (refine Keeps.mk_of rfl ?_; first | with_reducible assumption | with_reducible apply Keeps.ite | with_reducible apply qUpdate_keeps | with_reducible exact Part.sub_trans hw (by decide))

theorem qWithdraw_keeps {ws : List Part} {s₀ s : State} (h₀ : Keeps ws s₀ s) (fp : BitVec 128) (priority : Nat)
    (hw : Part.sub [.quince] ws = true) : Keeps ws s₀ (State.qWithdraw s fp priority) := by
  unfold State.qWithdraw
  try dsimp only
  repeat' first
    | with_reducible assumption
    | with_reducible apply qUpdate_keeps
    | with_reducible exact Part.sub_trans hw (by decide)
    | split
    | (refine Keeps.mk_of rfl ?_; first | with_reducible assumption | with_reducible apply qUpdate_keeps | with_reducible exact Part.sub_trans hw (by decide))

theorem qCommit_keeps {ws : List Part} {s₀ s : State} (h₀ : Keeps ws s₀ s) (fp : BitVec 128) (tentative : Nat) (final : Option Way)
    (hw : Part.sub [.quince] ws = true) : Keeps ws s₀ (State.qCommit s fp tentative final) := by
  unfold State.qCommit
  try dsimp only
  repeat' first
    | with_reducible assumption
    | with_reducible apply qUpdate_keeps
    | with_reducible exact Part.sub_trans hw (by decide)
    | split
    | (refine Keeps.mk_of rfl ?_; first | with_reducible assumption | with_reducible apply qUpdate_keeps | with_reducible exact Part.sub_trans hw (by decide))

theorem qEnter_keeps {ws : List Part} {s₀ s : State} (h₀ : Keeps ws s₀ s) (w : Way)
    (hw : Part.sub [.quince] ws = true) : Keeps ws s₀ (State.qEnter s w) := by
  unfold State.qEnter
  try dsimp only
  repeat' first
    | with_reducible assumption
    | with_reducible apply qUpdate_keeps
    | with_reducible exact Part.sub_trans hw (by decide)
    | split
    | (refine Keeps.mk_of rfl ?_; first | with_reducible assumption | with_reducible apply qUpdate_keeps | with_reducible exact Part.sub_trans hw (by decide))

end Sys2Proof.Machine
end

