-- ==== Sys2Proof/Laws/KeepsOps.lean ====
section
/-! SUPPORT. Which parts of the state each operation of Machine/Ops.lean may change. -/

set_option Elab.async false

namespace Sys2Proof.Machine

theorem drawn_keeps {ws : List Part} {s₀ s : State} (h₀ : Keeps ws s₀ s) 
    (hw : Part.sub [.rnd] ws = true) : Keeps ws s₀ (State.drawn s) := by
  unfold State.drawn
  try dsimp only
  repeat' first
    | with_reducible assumption
    | split
    | (refine Keeps.mk_of rfl ?_; first | with_reducible assumption)

theorem withCtxs_keeps {ws : List Part} {s₀ s : State} (h₀ : Keeps ws s₀ s) (cs : List Ctx)
    (hw : Part.sub [.ctxs] ws = true) : Keeps ws s₀ (State.withCtxs s cs) := by
  unfold State.withCtxs
  try dsimp only
  repeat' first
    | with_reducible assumption
    | split
    | (refine Keeps.mk_of rfl ?_; first | with_reducible assumption)

theorem updCtx_keeps {ws : List Part} {s₀ s : State} (h₀ : Keeps ws s₀ s) (c : Nat) (f : Ctx → Ctx)
    (hw : Part.sub [.ctxs] ws = true) : Keeps ws s₀ (State.updCtx s c f) := by
  unfold State.updCtx
  try dsimp only
  repeat' first
    | with_reducible assumption
    | with_reducible apply withCtxs_keeps
    | with_reducible exact Part.sub_trans hw (by decide)
    | split
    | (refine Keeps.mk_of rfl ?_; first | with_reducible assumption | with_reducible apply withCtxs_keeps | with_reducible exact Part.sub_trans hw (by decide))

theorem updSession_keeps {ws : List Part} {s₀ s : State} (h₀ : Keeps ws s₀ s) (n : Nat) (f : Session → Session)
    (hw : Part.sub [.sessions] ws = true) : Keeps ws s₀ (State.updSession s n f) := by
  unfold State.updSession
  try dsimp only
  repeat' first
    | with_reducible assumption
    | split
    | (refine Keeps.mk_of rfl ?_; first | with_reducible assumption)

theorem updKeyspace_keeps {ws : List Part} {s₀ s : State} (h₀ : Keeps ws s₀ s) (k : Nat) (f : Keyspace → Keyspace)
    (hw : Part.sub [.keyspaces] ws = true) : Keeps ws s₀ (State.updKeyspace s k f) := by
  unfold State.updKeyspace
  try dsimp only
  repeat' first
    | with_reducible assumption
    | split
    | (refine Keeps.mk_of rfl ?_; first | with_reducible assumption)

theorem updOwner_keeps {ws : List Part} {s₀ s : State} (h₀ : Keeps ws s₀ s) (o : Nat) (f : Owner → Owner)
    (hw : Part.sub [.owners] ws = true) : Keeps ws s₀ (State.updOwner s o f) := by
  unfold State.updOwner
  try dsimp only
  repeat' first
    | with_reducible assumption
    | split
    | (refine Keeps.mk_of rfl ?_; first | with_reducible assumption)

theorem updLink_keeps {ws : List Part} {s₀ s : State} (h₀ : Keeps ws s₀ s) (n : Nat) (f : Link → Link)
    (hw : Part.sub [.ports] ws = true) : Keeps ws s₀ (State.updLink s n f) := by
  unfold State.updLink
  try dsimp only
  repeat' first
    | with_reducible assumption
    | split
    | (refine Keeps.mk_of rfl ?_; first | with_reducible assumption)

theorem setCage_keeps {ws : List Part} {s₀ s : State} (h₀ : Keeps ws s₀ s) (portB : Bool) (c : Cage)
    (hw : Part.sub [.ports] ws = true) : Keeps ws s₀ (State.setCage s portB c) := by
  unfold State.setCage
  try dsimp only
  repeat' first
    | with_reducible assumption
    | with_reducible apply Keeps.ite
    | split
    | (refine Keeps.mk_of rfl ?_; first | with_reducible assumption | with_reducible apply Keeps.ite)

theorem console_keeps {ws : List Part} {s₀ s : State} (h₀ : Keeps ws s₀ s) (line : Bytes)
    (hw : Part.sub [.dbg] ws = true) : Keeps ws s₀ (State.console s line) := by
  unfold State.console
  try dsimp only
  repeat' first
    | with_reducible assumption
    | with_reducible apply Keeps.ite
    | split
    | (refine Keeps.mk_of rfl ?_; first | with_reducible assumption | with_reducible apply Keeps.ite)

theorem trace_keeps {ws : List Part} {s₀ s : State} (h₀ : Keeps ws s₀ s) (kind island : Nat) (wake : Bool) (payload : BitVec 64)
    (hw : Part.sub [.dbg] ws = true) : Keeps ws s₀ (State.trace s kind island wake payload) := by
  unfold State.trace
  try dsimp only
  repeat' first
    | with_reducible assumption
    | with_reducible apply Keeps.ite
    | split
    | (refine Keeps.mk_of rfl ?_; first | with_reducible assumption | with_reducible apply Keeps.ite)

theorem logEvent_keeps {ws : List Part} {s₀ s : State} (h₀ : Keeps ws s₀ s) (code : Nat) (body : Bytes)
    (hw : Part.sub [.logs, .dbg] ws = true) : Keeps ws s₀ (State.logEvent s code body) := by
  unfold State.logEvent
  try dsimp only
  repeat' first
    | with_reducible assumption
    | with_reducible apply console_keeps
    | with_reducible apply trace_keeps
    | with_reducible exact Part.sub_trans hw (by decide)
    | split
    | (refine Keeps.mk_of rfl ?_; first | with_reducible assumption | with_reducible apply console_keeps | with_reducible apply trace_keeps | with_reducible exact Part.sub_trans hw (by decide))

theorem startExit_keeps {ws : List Part} {s₀ s : State} (h₀ : Keeps ws s₀ s) 
    (hw : Part.sub [.power] ws = true) : Keeps ws s₀ (State.startExit s) := by
  unfold State.startExit
  try dsimp only
  repeat' first
    | with_reducible assumption
    | with_reducible apply Keeps.ite
    | split
    | (refine Keeps.mk_of rfl ?_; first | with_reducible assumption | with_reducible apply Keeps.ite)

theorem wake_keeps {ws : List Part} {s₀ s : State} (h₀ : Keeps ws s₀ s) 
    (hw : Part.sub [.power] ws = true) : Keeps ws s₀ (State.wake s) := by
  unfold State.wake
  try dsimp only
  repeat' first
    | with_reducible assumption
    | with_reducible apply startExit_keeps
    | with_reducible exact Part.sub_trans hw (by decide)
    | split
    | (refine Keeps.mk_of rfl ?_; first | with_reducible assumption | with_reducible apply startExit_keeps | with_reducible exact Part.sub_trans hw (by decide))

theorem foreground_keeps {ws : List Part} {s₀ s : State} (h₀ : Keeps ws s₀ s) 
    (hw : Part.sub [.power] ws = true) : Keeps ws s₀ (State.foreground s) := by
  unfold State.foreground
  try dsimp only
  repeat' first
    | with_reducible assumption
    | split
    | (refine Keeps.mk_of rfl ?_; first | with_reducible assumption)

theorem deepen_keeps {ws : List Part} {s₀ s : State} (h₀ : Keeps ws s₀ s) (n : Nat)
    (hw : Part.sub [.power, .dbg] ws = true) : Keeps ws s₀ (State.deepen s n) := by
  unfold State.deepen
  try dsimp only
  repeat' first
    | with_reducible assumption
    | with_reducible apply Keeps.ite
    | (with_reducible refine Keeps.foldl ?_ (fun _ _ _ => ?_))
    | with_reducible apply trace_keeps
    | with_reducible exact Part.sub_trans hw (by decide)
    | split
    | (refine Keeps.mk_of rfl ?_; first | with_reducible assumption | with_reducible apply Keeps.ite | (with_reducible refine Keeps.foldl ?_ (fun _ _ _ => ?_)) | with_reducible apply trace_keeps | with_reducible exact Part.sub_trans hw (by decide))

theorem shallower_keeps {ws : List Part} {s₀ s : State} (h₀ : Keeps ws s₀ s) (n : Nat)
    (hw : Part.sub [.rnd, .power, .dbg] ws = true) : Keeps ws s₀ (State.shallower s n) := by
  unfold State.shallower
  try dsimp only
  repeat' first
    | with_reducible assumption
    | with_reducible apply Keeps.ite
    | (with_reducible refine Keeps.foldl ?_ (fun _ _ _ => ?_))
    | with_reducible apply drawn_keeps
    | with_reducible apply trace_keeps
    | with_reducible exact Part.sub_trans hw (by decide)
    | split
    | (refine Keeps.mk_of rfl ?_; first | with_reducible assumption | with_reducible apply Keeps.ite | (with_reducible refine Keeps.foldl ?_ (fun _ _ _ => ?_)) | with_reducible apply drawn_keeps | with_reducible apply trace_keeps | with_reducible exact Part.sub_trans hw (by decide))

theorem settleScan_keeps {ws : List Part} {s₀ s : State} (h₀ : Keeps ws s₀ s) 
    (hw : Part.sub [.sieves] ws = true) : Keeps ws s₀ (State.settleScan s) := by
  unfold State.settleScan
  try dsimp only
  repeat' first
    | with_reducible assumption
    | split
    | (refine Keeps.mk_of rfl ?_; first | with_reducible assumption)

theorem digestEvent_keeps {ws : List Part} {s₀ s : State} (h₀ : Keeps ws s₀ s) (ks place op : Nat) (fp : BitVec 128)
    (hw : Part.sub [.counts, .logs, .dbg] ws = true) : Keeps ws s₀ (State.digestEvent s ks place op fp) := by
  unfold State.digestEvent
  try dsimp only
  repeat' first
    | with_reducible assumption
    | with_reducible apply logEvent_keeps
    | with_reducible exact Part.sub_trans hw (by decide)
    | split
    | (refine Keeps.mk_of rfl ?_; first | with_reducible assumption | with_reducible apply logEvent_keeps | with_reducible exact Part.sub_trans hw (by decide))

theorem journalLate_keeps {ws : List Part} {s₀ s : State} (h₀ : Keeps ws s₀ s) (f : LateFault)
    (hw : Part.sub [.counts, .logs, .keyspaces] ws = true) : Keeps ws s₀ (State.journalLate s f) := by
  unfold State.journalLate
  try dsimp only
  repeat' first
    | with_reducible assumption
    | with_reducible apply Keeps.ite
    | with_reducible apply updKeyspace_keeps
    | with_reducible exact Part.sub_trans hw (by decide)
    | split
    | (refine Keeps.mk_of rfl ?_; first | with_reducible assumption | with_reducible apply Keeps.ite | with_reducible apply updKeyspace_keeps | with_reducible exact Part.sub_trans hw (by decide))

theorem sendingEnded_keeps {ws : List Part} {s₀ s : State} (h₀ : Keeps ws s₀ s) (id : Option Nat)
    (hw : Part.sub [.kept] ws = true) : Keeps ws s₀ (State.sendingEnded s id) := by
  unfold State.sendingEnded
  try dsimp only
  repeat' first
    | with_reducible assumption
    | split
    | (refine Keeps.mk_of rfl ?_; first | with_reducible assumption)

theorem push_keeps {ws : List Part} {s₀ s : State} (h₀ : Keeps ws s₀ s) (h : Held)
    (hw : Part.sub [.ports, .kept, .held, .sent] ws = true) : Keeps ws s₀ (State.push s h) := by
  unfold State.push
  try dsimp only
  repeat' first
    | with_reducible assumption
    | with_reducible apply Keeps.ite
    | with_reducible apply sendingEnded_keeps
    | with_reducible exact Part.sub_trans hw (by decide)
    | split
    | (refine Keeps.mk_of rfl ?_; first | with_reducible assumption | with_reducible apply Keeps.ite | with_reducible apply sendingEnded_keeps | with_reducible exact Part.sub_trans hw (by decide))

theorem drainHeld_keeps {ws : List Part} {s₀ s : State} (h₀ : Keeps ws s₀ s) 
    (hw : Part.sub [.ports, .kept, .held, .sent] ws = true) : Keeps ws s₀ (State.drainHeld s) := by
  unfold State.drainHeld
  try dsimp only
  repeat' first
    | with_reducible assumption
    | (with_reducible refine Keeps.foldl ?_ (fun _ _ _ => ?_))
    | with_reducible apply push_keeps
    | with_reducible exact Part.sub_trans hw (by decide)
    | split
    | (refine Keeps.mk_of rfl ?_; first | with_reducible assumption | (with_reducible refine Keeps.foldl ?_ (fun _ _ _ => ?_)) | with_reducible apply push_keeps | with_reducible exact Part.sub_trans hw (by decide))

theorem sendFrame_keeps {ws : List Part} {s₀ s : State} (h₀ : Keeps ws s₀ s) (p : Path) (pcp : Nat) (kept : Option Nat) (what : Content)
    (hw : Part.sub [.ports, .nextId, .kept, .held, .sent] ws = true) : Keeps ws s₀ (State.sendFrame s p pcp kept what) := by
  unfold State.sendFrame
  try dsimp only
  repeat' first
    | with_reducible assumption
    | with_reducible apply push_keeps
    | with_reducible exact Part.sub_trans hw (by decide)
    | split
    | (refine Keeps.mk_of rfl ?_; first | with_reducible assumption | with_reducible apply push_keeps | with_reducible exact Part.sub_trans hw (by decide))

theorem sendOnce_keeps {ws : List Part} {s₀ s : State} (h₀ : Keeps ws s₀ s) (p : Path) (sess : Option Nat) (m : Msg)
    (hw : Part.sub [.ports, .nextId, .kept, .held, .sent] ws = true) : Keeps ws s₀ (State.sendOnce s p sess m) := by
  unfold State.sendOnce
  try dsimp only
  repeat' first
    | with_reducible assumption
    | with_reducible apply sendFrame_keeps
    | with_reducible exact Part.sub_trans hw (by decide)
    | split
    | (refine Keeps.mk_of rfl ?_; first | with_reducible assumption | with_reducible apply sendFrame_keeps | with_reducible exact Part.sub_trans hw (by decide))

theorem sendKept_keeps {ws : List Part} {s₀ s : State} (h₀ : Keeps ws s₀ s) (p : Path) (sess owner : Nat) (late : Option LateFault) (m : Msg)
    (hw : Part.sub [.ports, .nextId, .kept, .held, .sent] ws = true) : Keeps ws s₀ (State.sendKept s p sess owner late m) := by
  unfold State.sendKept
  try dsimp only
  repeat' first
    | with_reducible assumption
    | with_reducible apply sendFrame_keeps
    | with_reducible exact Part.sub_trans hw (by decide)
    | split
    | (refine Keeps.mk_of rfl ?_; first | with_reducible assumption | with_reducible apply sendFrame_keeps | with_reducible exact Part.sub_trans hw (by decide))

theorem emitNotice_keeps {ws : List Part} {s₀ s : State} (h₀ : Keeps ws s₀ s) (x : Session) (n : Notice)
    (hw : Part.sub [.ports, .sessions, .nextId, .kept, .held, .sent] ws = true) : Keeps ws s₀ (State.emitNotice s x n) := by
  unfold State.emitNotice
  try dsimp only
  repeat' first
    | with_reducible assumption
    | with_reducible apply sendKept_keeps
    | with_reducible apply updSession_keeps
    | with_reducible exact Part.sub_trans hw (by decide)
    | split
    | (refine Keeps.mk_of rfl ?_; first | with_reducible assumption | with_reducible apply sendKept_keeps | with_reducible apply updSession_keeps | with_reducible exact Part.sub_trans hw (by decide))

theorem notify_keeps {ws : List Part} {s₀ s : State} (h₀ : Keeps ws s₀ s) (sess : Nat) (n : Notice)
    (hw : Part.sub [.counts, .ports, .sessions, .nextId, .kept, .held, .sent, .logs, .keyspaces] ws = true) : Keeps ws s₀ (State.notify s sess n) := by
  unfold State.notify
  try dsimp only
  repeat' first
    | with_reducible assumption
    | with_reducible apply Keeps.ite
    | with_reducible apply emitNotice_keeps
    | with_reducible apply journalLate_keeps
    | with_reducible apply updSession_keeps
    | with_reducible exact Part.sub_trans hw (by decide)
    | split
    | (refine Keeps.mk_of rfl ?_; first | with_reducible assumption | with_reducible apply Keeps.ite | with_reducible apply emitNotice_keeps | with_reducible apply journalLate_keeps | with_reducible apply updSession_keeps | with_reducible exact Part.sub_trans hw (by decide))

theorem pumpNotices_keeps {ws : List Part} {s₀ s : State} (h : Keeps ws s₀ s) (fuel sess : Nat) (hw : Part.sub [.ports, .sessions, .nextId, .kept, .held, .sent] ws = true) :
    Keeps ws s₀ (State.pumpNotices fuel s sess) := by
  induction fuel generalizing s with
  | zero => exact h
  | succ n ih =>
    unfold State.pumpNotices
    try dsimp only
    repeat' first
      | with_reducible assumption
      | with_reducible apply ih
      | with_reducible apply emitNotice_keeps
      | with_reducible apply updSession_keeps
      | with_reducible exact Part.sub_trans hw (by decide)
      | split

theorem broadcast_keeps {ws : List Part} {s₀ s : State} (h₀ : Keeps ws s₀ s) (k : NoticeKind) (keyspace : Nat) (a b : BitVec 64) (value : Bytes)
    (hw : Part.sub [.counts, .ports, .sessions, .nextId, .kept, .held, .sent, .logs, .keyspaces, .power] ws = true) : Keeps ws s₀ (State.broadcast s k keyspace a b value) := by
  unfold State.broadcast
  try dsimp only
  repeat' first
    | with_reducible assumption
    | with_reducible apply Keeps.ite
    | (with_reducible refine Keeps.foldl ?_ (fun _ _ _ => ?_))
    | with_reducible apply notify_keeps
    | with_reducible apply startExit_keeps
    | with_reducible exact Part.sub_trans hw (by decide)
    | split
    | (refine Keeps.mk_of rfl ?_; first | with_reducible assumption | with_reducible apply Keeps.ite | (with_reducible refine Keeps.foldl ?_ (fun _ _ _ => ?_)) | with_reducible apply notify_keeps | with_reducible apply startExit_keeps | with_reducible exact Part.sub_trans hw (by decide))

theorem toPhase_keeps {ws : List Part} {s₀ s : State} (h₀ : Keeps ws s₀ s) (c : Nat) (p : Phase)
    (hw : Part.sub [.ctxs] ws = true) : Keeps ws s₀ (State.toPhase s c p) := by
  unfold State.toPhase
  try dsimp only
  repeat' first
    | with_reducible assumption
    | with_reducible apply updCtx_keeps
    | with_reducible exact Part.sub_trans hw (by decide)
    | split
    | (refine Keeps.mk_of rfl ?_; first | with_reducible assumption | with_reducible apply updCtx_keeps | with_reducible exact Part.sub_trans hw (by decide))

theorem lockEnter_keeps {ws : List Part} {s₀ s : State} (h₀ : Keeps ws s₀ s) (keyspace : Nat) (fp : BitVec 128) (w : LockRec)
    (hw : Part.sub [.locks] ws = true) : Keeps ws s₀ (State.lockEnter s keyspace fp w) := by
  unfold State.lockEnter
  try dsimp only
  repeat' first
    | with_reducible assumption
    | with_reducible apply Keeps.ite
    | split
    | (refine Keeps.mk_of rfl ?_; first | with_reducible assumption | with_reducible apply Keeps.ite)

theorem lockLeave_keeps {ws : List Part} {s₀ s : State} (h₀ : Keeps ws s₀ s) (op : LockOp)
    (hw : Part.sub [.locks] ws = true) : Keeps ws s₀ (State.lockLeave s op) := by
  unfold State.lockLeave
  try dsimp only
  repeat' first
    | with_reducible assumption
    | with_reducible apply Keeps.ite
    | split
    | (refine Keeps.mk_of rfl ?_; first | with_reducible assumption | with_reducible apply Keeps.ite)

theorem releaseCmd_keeps {ws : List Part} {s₀ s : State} (h₀ : Keeps ws s₀ s) (x : Ctx)
    (hw : Part.sub [.sessions, .locks, .keyspaces, .quince, .pages, .pipes, .queue, .relay] ws = true) : Keeps ws s₀ (State.releaseCmd s x) := by
  unfold State.releaseCmd
  try dsimp only
  repeat' first
    | with_reducible assumption
    | with_reducible apply Keeps.ite
    | with_reducible apply lockLeave_keeps
    | with_reducible apply qWithdraw_keeps
    | with_reducible apply updKeyspace_keeps
    | with_reducible apply updSession_keeps
    | with_reducible exact Part.sub_trans hw (by decide)
    | split
    | (refine Keeps.mk_of rfl ?_; first | with_reducible assumption | with_reducible apply Keeps.ite | with_reducible apply lockLeave_keeps | with_reducible apply qWithdraw_keeps | with_reducible apply updKeyspace_keeps | with_reducible apply updSession_keeps | with_reducible exact Part.sub_trans hw (by decide))

theorem sendReply_keeps {ws : List Part} {s₀ s : State} (h₀ : Keeps ws s₀ s) (x : Ctx) (r : Reply)
    (hw : Part.sub [.ports, .nextId, .kept, .held, .sent, .sb] ws = true) : Keeps ws s₀ (State.sendReply s x r) := by
  unfold State.sendReply
  try dsimp only
  repeat' first
    | with_reducible assumption
    | with_reducible apply Keeps.ite
    | with_reducible apply alert_keeps
    | with_reducible apply sendKept_keeps
    | with_reducible apply sendOnce_keeps
    | with_reducible exact Part.sub_trans hw (by decide)
    | split
    | (refine Keeps.mk_of rfl ?_; first | with_reducible assumption | with_reducible apply Keeps.ite | with_reducible apply alert_keeps | with_reducible apply sendKept_keeps | with_reducible apply sendOnce_keeps | with_reducible exact Part.sub_trans hw (by decide))

theorem recordStatus_keeps {ws : List Part} {s₀ s : State} (h₀ : Keeps ws s₀ s) (x : Ctx) (r : Reply)
    (hw : Part.sub [.sessions] ws = true) : Keeps ws s₀ (State.recordStatus s x r) := by
  unfold State.recordStatus
  try dsimp only
  repeat' first
    | with_reducible assumption
    | with_reducible apply Keeps.ite
    | with_reducible apply updSession_keeps
    | with_reducible exact Part.sub_trans hw (by decide)
    | split
    | (refine Keeps.mk_of rfl ?_; first | with_reducible assumption | with_reducible apply Keeps.ite | with_reducible apply updSession_keeps | with_reducible exact Part.sub_trans hw (by decide))

theorem endCmd_keeps {ws : List Part} {s₀ s : State} (h₀ : Keeps ws s₀ s) (c : Nat) (r : Reply)
    (hw : Part.sub [.ports, .sessions, .ctxs, .nextId, .kept, .held, .sent, .locks, .keyspaces, .quince, .pages, .pipes, .queue, .relay, .power, .sb] ws = true) : Keeps ws s₀ (State.endCmd s c r) := by
  unfold State.endCmd
  try dsimp only
  repeat' first
    | with_reducible assumption
    | with_reducible apply foreground_keeps
    | with_reducible apply recordStatus_keeps
    | with_reducible apply releaseCmd_keeps
    | with_reducible apply sendReply_keeps
    | with_reducible apply withCtxs_keeps
    | with_reducible exact Part.sub_trans hw (by decide)
    | split
    | (refine Keeps.mk_of rfl ?_; first | with_reducible assumption | with_reducible apply foreground_keeps | with_reducible apply recordStatus_keeps | with_reducible apply releaseCmd_keeps | with_reducible apply sendReply_keeps | with_reducible apply withCtxs_keeps | with_reducible exact Part.sub_trans hw (by decide))

theorem endStatus_keeps {ws : List Part} {s₀ s : State} (h₀ : Keeps ws s₀ s) (c : Nat) (st : Status)
    (hw : Part.sub [.ports, .sessions, .ctxs, .nextId, .kept, .held, .sent, .locks, .keyspaces, .quince, .pages, .pipes, .queue, .relay, .power, .sb] ws = true) : Keeps ws s₀ (State.endStatus s c st) := by
  unfold State.endStatus
  try dsimp only
  repeat' first
    | with_reducible assumption
    | with_reducible apply endCmd_keeps
    | with_reducible exact Part.sub_trans hw (by decide)
    | split
    | (refine Keeps.mk_of rfl ?_; first | with_reducible assumption | with_reducible apply endCmd_keeps | with_reducible exact Part.sub_trans hw (by decide))

end Sys2Proof.Machine
end

