-- ==== Sys2Proof/Laws/KeepsPorts.lean ====
section
/-! SUPPORT. Which parts of the state each operation of Machine/Ports.lean may change. -/

set_option Elab.async false

namespace Sys2Proof.Machine

theorem startAttempts_keeps {ws : List Part} {s₀ s : State} (h₀ : Keeps ws s₀ s) (portB : Bool)
    (hw : Part.sub [.ports] ws = true) : Keeps ws s₀ (State.startAttempts s portB) := by
  unfold State.startAttempts
  try dsimp only
  repeat' first
    | with_reducible assumption
    | with_reducible apply Keeps.ite
    | (with_reducible refine Keeps.foldl ?_ (fun _ _ _ => ?_))
    | with_reducible apply updLink_keeps
    | with_reducible exact Part.sub_trans hw (by decide)
    | split
    | (refine Keeps.mk_of rfl ?_; first | with_reducible assumption | with_reducible apply Keeps.ite | (with_reducible refine Keeps.foldl ?_ (fun _ _ _ => ?_)) | with_reducible apply updLink_keeps | with_reducible exact Part.sub_trans hw (by decide))

theorem announce_keeps {ws : List Part} {s₀ s : State} (h₀ : Keeps ws s₀ s) (link : Nat)
    (hw : Part.sub [.ports, .nextId, .kept, .held, .sent] ws = true) : Keeps ws s₀ (State.announce s link) := by
  unfold State.announce
  try dsimp only
  repeat' first
    | with_reducible assumption
    | (with_reducible refine Keeps.foldl ?_ (fun _ _ _ => ?_))
    | with_reducible apply sendFrame_keeps
    | with_reducible exact Part.sub_trans hw (by decide)
    | split
    | (refine Keeps.mk_of rfl ?_; first | with_reducible assumption | (with_reducible refine Keeps.foldl ?_ (fun _ _ _ => ?_)) | with_reducible apply sendFrame_keeps | with_reducible exact Part.sub_trans hw (by decide))

theorem takeDown_keeps {ws : List Part} {s₀ s : State} (h₀ : Keeps ws s₀ s) (link : Nat) (failing : BitVec 8)
    (hw : Part.sub [.ports, .sb] ws = true) : Keeps ws s₀ (State.takeDown s link failing) := by
  unfold State.takeDown
  try dsimp only
  repeat' first
    | with_reducible assumption
    | with_reducible apply Keeps.ite
    | with_reducible apply portEvent_keeps
    | with_reducible apply updLink_keeps
    | with_reducible exact Part.sub_trans hw (by decide)
    | split
    | (refine Keeps.mk_of rfl ?_; first | with_reducible assumption | with_reducible apply Keeps.ite | with_reducible apply portEvent_keeps | with_reducible apply updLink_keeps | with_reducible exact Part.sub_trans hw (by decide))

theorem failOver_keeps {ws : List Part} {s₀ s : State} (h₀ : Keeps ws s₀ s) (link carrier : Nat)
    (hw : Part.sub [.ports, .nextId, .kept, .held, .sent, .sb] ws = true) : Keeps ws s₀ (State.failOver s link carrier) := by
  unfold State.failOver
  try dsimp only
  repeat' first
    | with_reducible assumption
    | with_reducible apply Keeps.ite
    | (with_reducible refine Keeps.foldl ?_ (fun _ _ _ => ?_))
    | with_reducible apply announce_keeps
    | with_reducible apply drainHeld_keeps
    | with_reducible apply portEvent_keeps
    | with_reducible apply updLink_keeps
    | with_reducible exact Part.sub_trans hw (by decide)
    | split
    | (refine Keeps.mk_of rfl ?_; first | with_reducible assumption | with_reducible apply Keeps.ite | (with_reducible refine Keeps.foldl ?_ (fun _ _ _ => ?_)) | with_reducible apply announce_keeps | with_reducible apply drainHeld_keeps | with_reducible apply portEvent_keeps | with_reducible apply updLink_keeps | with_reducible exact Part.sub_trans hw (by decide))

theorem execLinkUp_keeps {s : State} (link : Nat) :
    KeepsO [.ports, .nextId, .kept, .held, .sent, .sb] s (execLinkUp link s) := by
  have h₀ := Keeps.refl [.ports, .nextId, .kept, .held, .sent, .sb] s
  have hw : Part.sub [.ports, .nextId, .kept, .held, .sent, .sb] [.ports, .nextId, .kept, .held, .sent, .sb] = true := by decide
  unfold execLinkUp
  try dsimp only
  repeat' first
    | with_reducible assumption
    | with_reducible apply KeepsO.next
    | with_reducible apply KeepsO.ite
    | with_reducible apply Keeps.ite
    | (with_reducible refine Keeps.foldl ?_ (fun _ _ _ => ?_))
    | with_reducible apply announce_keeps
    | with_reducible apply drainHeld_keeps
    | with_reducible apply failOver_keeps
    | with_reducible apply portEvent_keeps
    | with_reducible apply updLink_keeps
    | with_reducible exact Part.sub_trans hw (by decide)
    | split
    | (refine Keeps.mk_of rfl ?_; first | with_reducible assumption | with_reducible apply KeepsO.next | with_reducible apply KeepsO.ite | with_reducible apply Keeps.ite | (with_reducible refine Keeps.foldl ?_ (fun _ _ _ => ?_)) | with_reducible apply announce_keeps | with_reducible apply drainHeld_keeps | with_reducible apply failOver_keeps | with_reducible apply portEvent_keeps | with_reducible apply updLink_keeps | with_reducible exact Part.sub_trans hw (by decide))

theorem execLinkDown_keeps {s : State} (link : Nat) (failing : BitVec 8) :
    KeepsO [.ports, .sb] s (execLinkDown link failing s) := by
  have h₀ := Keeps.refl [.ports, .sb] s
  have hw : Part.sub [.ports, .sb] [.ports, .sb] = true := by decide
  unfold execLinkDown
  try dsimp only
  repeat' first
    | with_reducible assumption
    | with_reducible apply KeepsO.next
    | with_reducible apply KeepsO.ite
    | with_reducible apply takeDown_keeps
    | with_reducible exact Part.sub_trans hw (by decide)
    | split
    | (refine Keeps.mk_of rfl ?_; first | with_reducible assumption | with_reducible apply KeepsO.next | with_reducible apply KeepsO.ite | with_reducible apply takeDown_keeps | with_reducible exact Part.sub_trans hw (by decide))

theorem execSignalReturn_keeps {s : State} (link : Nat) :
    KeepsO [.ports] s (execSignalReturn link s) := by
  have h₀ := Keeps.refl [.ports] s
  have hw : Part.sub [.ports] [.ports] = true := by decide
  unfold execSignalReturn
  try dsimp only
  repeat' first
    | with_reducible assumption
    | with_reducible apply KeepsO.next
    | with_reducible apply KeepsO.ite
    | with_reducible apply Keeps.ite
    | with_reducible apply updLink_keeps
    | with_reducible exact Part.sub_trans hw (by decide)
    | split
    | (refine Keeps.mk_of rfl ?_; first | with_reducible assumption | with_reducible apply KeepsO.next | with_reducible apply KeepsO.ite | with_reducible apply Keeps.ite | with_reducible apply updLink_keeps | with_reducible exact Part.sub_trans hw (by decide))

theorem execLinkAttemptTimeout_keeps {s : State} (link : Nat) (failing : BitVec 8) :
    KeepsO [.ports] s (execLinkAttemptTimeout link failing s) := by
  have h₀ := Keeps.refl [.ports] s
  have hw : Part.sub [.ports] [.ports] = true := by decide
  unfold execLinkAttemptTimeout
  try dsimp only
  repeat' first
    | with_reducible assumption
    | with_reducible apply KeepsO.next
    | with_reducible apply KeepsO.ite
    | with_reducible apply Keeps.ite
    | with_reducible apply updLink_keeps
    | with_reducible exact Part.sub_trans hw (by decide)
    | split
    | (refine Keeps.mk_of rfl ?_; first | with_reducible assumption | with_reducible apply KeepsO.next | with_reducible apply KeepsO.ite | with_reducible apply Keeps.ite | with_reducible apply updLink_keeps | with_reducible exact Part.sub_trans hw (by decide))

theorem execFailoverHold_keeps {s : State} (link : Nat) :
    KeepsO [.ports, .nextId, .kept, .held, .sent, .sb] s (execFailoverHold link s) := by
  have h₀ := Keeps.refl [.ports, .nextId, .kept, .held, .sent, .sb] s
  have hw : Part.sub [.ports, .nextId, .kept, .held, .sent, .sb] [.ports, .nextId, .kept, .held, .sent, .sb] = true := by decide
  unfold execFailoverHold
  try dsimp only
  repeat' first
    | with_reducible assumption
    | with_reducible apply KeepsO.next
    | with_reducible apply KeepsO.ite
    | with_reducible apply Keeps.ite
    | with_reducible apply failOver_keeps
    | with_reducible apply updLink_keeps
    | with_reducible exact Part.sub_trans hw (by decide)
    | split
    | (refine Keeps.mk_of rfl ?_; first | with_reducible assumption | with_reducible apply KeepsO.next | with_reducible apply KeepsO.ite | with_reducible apply Keeps.ite | with_reducible apply failOver_keeps | with_reducible apply updLink_keeps | with_reducible exact Part.sub_trans hw (by decide))

theorem execFailoverBack_keeps {s : State} (link : Nat) :
    KeepsO [.ports, .nextId, .kept, .held, .sent, .sb] s (execFailoverBack link s) := by
  have h₀ := Keeps.refl [.ports, .nextId, .kept, .held, .sent, .sb] s
  have hw : Part.sub [.ports, .nextId, .kept, .held, .sent, .sb] [.ports, .nextId, .kept, .held, .sent, .sb] = true := by decide
  unfold execFailoverBack
  try dsimp only
  repeat' first
    | with_reducible assumption
    | with_reducible apply KeepsO.next
    | with_reducible apply KeepsO.ite
    | with_reducible apply Keeps.ite
    | with_reducible apply announce_keeps
    | with_reducible apply drainHeld_keeps
    | with_reducible apply portEvent_keeps
    | with_reducible apply updLink_keeps
    | with_reducible exact Part.sub_trans hw (by decide)
    | split
    | (refine Keeps.mk_of rfl ?_; first | with_reducible assumption | with_reducible apply KeepsO.next | with_reducible apply KeepsO.ite | with_reducible apply Keeps.ite | with_reducible apply announce_keeps | with_reducible apply drainHeld_keeps | with_reducible apply portEvent_keeps | with_reducible apply updLink_keeps | with_reducible exact Part.sub_trans hw (by decide))

theorem execEgressFrameTimeout_keeps {s : State} (frame : Nat) :
    KeepsO [.kept, .held] s (execEgressFrameTimeout frame s) := by
  have h₀ := Keeps.refl [.kept, .held] s
  have hw : Part.sub [.kept, .held] [.kept, .held] = true := by decide
  unfold execEgressFrameTimeout
  try dsimp only
  repeat' first
    | with_reducible assumption
    | with_reducible apply KeepsO.next
    | with_reducible apply KeepsO.ite
    | with_reducible apply Keeps.ite
    | with_reducible apply sendingEnded_keeps
    | with_reducible exact Part.sub_trans hw (by decide)
    | split
    | (refine Keeps.mk_of rfl ?_; first | with_reducible assumption | with_reducible apply KeepsO.next | with_reducible apply KeepsO.ite | with_reducible apply Keeps.ite | with_reducible apply sendingEnded_keeps | with_reducible exact Part.sub_trans hw (by decide))

theorem pause_keeps {ws : List Part} {s₀ s : State} (h₀ : Keeps ws s₀ s) (link prio quanta : Nat)
    (hw : Part.sub [.ports, .kept, .held, .sent] ws = true) : Keeps ws s₀ (State.pause s link prio quanta) := by
  unfold State.pause
  try dsimp only
  repeat' first
    | with_reducible assumption
    | with_reducible apply Keeps.ite
    | with_reducible apply drainHeld_keeps
    | with_reducible apply updLink_keeps
    | with_reducible exact Part.sub_trans hw (by decide)
    | split
    | (refine Keeps.mk_of rfl ?_; first | with_reducible assumption | with_reducible apply Keeps.ite | with_reducible apply drainHeld_keeps | with_reducible apply updLink_keeps | with_reducible exact Part.sub_trans hw (by decide))

theorem execPauseQuantaExpire_keeps {s : State} (link prio : Nat) :
    KeepsO [.ports, .kept, .held, .sent] s (execPauseQuantaExpire link prio s) := by
  have h₀ := Keeps.refl [.ports, .kept, .held, .sent] s
  have hw : Part.sub [.ports, .kept, .held, .sent] [.ports, .kept, .held, .sent] = true := by decide
  unfold execPauseQuantaExpire
  try dsimp only
  repeat' first
    | with_reducible assumption
    | with_reducible apply KeepsO.next
    | with_reducible apply KeepsO.ite
    | with_reducible apply Keeps.ite
    | with_reducible apply drainHeld_keeps
    | with_reducible apply updLink_keeps
    | with_reducible exact Part.sub_trans hw (by decide)
    | split
    | (refine Keeps.mk_of rfl ?_; first | with_reducible assumption | with_reducible apply KeepsO.next | with_reducible apply KeepsO.ite | with_reducible apply Keeps.ite | with_reducible apply drainHeld_keeps | with_reducible apply updLink_keeps | with_reducible exact Part.sub_trans hw (by decide))

theorem execPauseWatchdog_keeps {s : State} (link prio : Nat) :
    KeepsO [.ports, .kept, .held, .sent, .sb] s (execPauseWatchdog link prio s) := by
  have h₀ := Keeps.refl [.ports, .kept, .held, .sent, .sb] s
  have hw : Part.sub [.ports, .kept, .held, .sent, .sb] [.ports, .kept, .held, .sent, .sb] = true := by decide
  unfold execPauseWatchdog
  try dsimp only
  repeat' first
    | with_reducible assumption
    | with_reducible apply KeepsO.next
    | with_reducible apply KeepsO.ite
    | with_reducible apply Keeps.ite
    | with_reducible apply drainHeld_keeps
    | with_reducible apply portEvent_keeps
    | with_reducible apply updLink_keeps
    | with_reducible exact Part.sub_trans hw (by decide)
    | split
    | (refine Keeps.mk_of rfl ?_; first | with_reducible assumption | with_reducible apply KeepsO.next | with_reducible apply KeepsO.ite | with_reducible apply Keeps.ite | with_reducible apply drainHeld_keeps | with_reducible apply portEvent_keeps | with_reducible apply updLink_keeps | with_reducible exact Part.sub_trans hw (by decide))

theorem execPauseWatchdogHoldoffEnd_keeps {s : State} (link prio : Nat) :
    KeepsO [.ports] s (execPauseWatchdogHoldoffEnd link prio s) := by
  have h₀ := Keeps.refl [.ports] s
  have hw : Part.sub [.ports] [.ports] = true := by decide
  unfold execPauseWatchdogHoldoffEnd
  try dsimp only
  repeat' first
    | with_reducible assumption
    | with_reducible apply KeepsO.next
    | with_reducible apply KeepsO.ite
    | with_reducible apply updLink_keeps
    | with_reducible exact Part.sub_trans hw (by decide)
    | split
    | (refine Keeps.mk_of rfl ?_; first | with_reducible assumption | with_reducible apply KeepsO.next | with_reducible apply KeepsO.ite | with_reducible apply updLink_keeps | with_reducible exact Part.sub_trans hw (by decide))

theorem execNeighbourAgeOut_keeps {s : State} (portB : Bool) (addr : Addr) :
    KeepsO [.ports] s (execNeighbourAgeOut portB addr s) := by
  have h₀ := Keeps.refl [.ports] s
  have hw : Part.sub [.ports] [.ports] = true := by decide
  unfold execNeighbourAgeOut
  try dsimp only
  repeat' first
    | with_reducible assumption
    | with_reducible apply KeepsO.next
    | with_reducible apply KeepsO.ite
    | split
    | (refine Keeps.mk_of rfl ?_; first | with_reducible assumption | with_reducible apply KeepsO.next | with_reducible apply KeepsO.ite)

theorem refusePlugIn_keeps {ws : List Part} {s₀ s : State} (h₀ : Keeps ws s₀ s) (portB : Bool) (reason : Nat)
    (hw : Part.sub [.ports, .sb] ws = true) : Keeps ws s₀ (State.refusePlugIn s portB reason) := by
  unfold State.refusePlugIn
  try dsimp only
  repeat' first
    | with_reducible assumption
    | (with_reducible refine Keeps.foldl ?_ (fun _ _ _ => ?_))
    | with_reducible apply portEvent_keeps
    | with_reducible apply setCage_keeps
    | with_reducible apply takeDown_keeps
    | with_reducible apply updLink_keeps
    | with_reducible exact Part.sub_trans hw (by decide)
    | split
    | (refine Keeps.mk_of rfl ?_; first | with_reducible assumption | (with_reducible refine Keeps.foldl ?_ (fun _ _ _ => ?_)) | with_reducible apply portEvent_keeps | with_reducible apply setCage_keeps | with_reducible apply takeDown_keeps | with_reducible apply updLink_keeps | with_reducible exact Part.sub_trans hw (by decide))

theorem judgePlugIn_keeps {ws : List Part} {s₀ s : State} (h₀ : Keeps ws s₀ s) (portB : Bool)
    (hw : Part.sub [.ports, .sb] ws = true) : Keeps ws s₀ (State.judgePlugIn s portB) := by
  unfold State.judgePlugIn
  try dsimp only
  repeat' first
    | with_reducible assumption
    | with_reducible apply Keeps.ite
    | with_reducible apply refusePlugIn_keeps
    | with_reducible apply setCage_keeps
    | with_reducible apply startAttempts_keeps
    | with_reducible exact Part.sub_trans hw (by decide)
    | split
    | (refine Keeps.mk_of rfl ?_; first | with_reducible assumption | with_reducible apply Keeps.ite | with_reducible apply refusePlugIn_keeps | with_reducible apply setCage_keeps | with_reducible apply startAttempts_keeps | with_reducible exact Part.sub_trans hw (by decide))

theorem execPlugInInsert_keeps {s : State} (portB : Bool) (cmis : Cmis) :
    KeepsO [.ports, .sb] s (execPlugInInsert portB cmis s) := by
  have h₀ := Keeps.refl [.ports, .sb] s
  have hw : Part.sub [.ports, .sb] [.ports, .sb] = true := by decide
  unfold execPlugInInsert
  try dsimp only
  repeat' first
    | with_reducible assumption
    | with_reducible apply KeepsO.next
    | with_reducible apply KeepsO.ite
    | with_reducible apply Keeps.ite
    | with_reducible apply judgePlugIn_keeps
    | with_reducible apply setCage_keeps
    | with_reducible exact Part.sub_trans hw (by decide)
    | split
    | (refine Keeps.mk_of rfl ?_; first | with_reducible assumption | with_reducible apply KeepsO.next | with_reducible apply KeepsO.ite | with_reducible apply Keeps.ite | with_reducible apply judgePlugIn_keeps | with_reducible apply setCage_keeps | with_reducible exact Part.sub_trans hw (by decide))

theorem execCmisReadyTimeout_keeps {s : State} (portB : Bool) :
    KeepsO [.ports, .sb] s (execCmisReadyTimeout portB s) := by
  have h₀ := Keeps.refl [.ports, .sb] s
  have hw : Part.sub [.ports, .sb] [.ports, .sb] = true := by decide
  unfold execCmisReadyTimeout
  try dsimp only
  repeat' first
    | with_reducible assumption
    | with_reducible apply KeepsO.next
    | with_reducible apply KeepsO.ite
    | with_reducible apply Keeps.ite
    | with_reducible apply refusePlugIn_keeps
    | with_reducible exact Part.sub_trans hw (by decide)
    | split
    | (refine Keeps.mk_of rfl ?_; first | with_reducible assumption | with_reducible apply KeepsO.next | with_reducible apply KeepsO.ite | with_reducible apply Keeps.ite | with_reducible apply refusePlugIn_keeps | with_reducible exact Part.sub_trans hw (by decide))

theorem execPlugInRemove_keeps {s : State} (portB : Bool) :
    KeepsO [.ports, .sb] s (execPlugInRemove portB s) := by
  have h₀ := Keeps.refl [.ports, .sb] s
  have hw : Part.sub [.ports, .sb] [.ports, .sb] = true := by decide
  unfold execPlugInRemove
  try dsimp only
  repeat' first
    | with_reducible assumption
    | with_reducible apply KeepsO.next
    | with_reducible apply KeepsO.ite
    | with_reducible apply Keeps.ite
    | (with_reducible refine Keeps.foldl ?_ (fun _ _ _ => ?_))
    | with_reducible apply setCage_keeps
    | with_reducible apply takeDown_keeps
    | with_reducible apply updLink_keeps
    | with_reducible exact Part.sub_trans hw (by decide)
    | split
    | (refine Keeps.mk_of rfl ?_; first | with_reducible assumption | with_reducible apply KeepsO.next | with_reducible apply KeepsO.ite | with_reducible apply Keeps.ite | (with_reducible refine Keeps.foldl ?_ (fun _ _ _ => ?_)) | with_reducible apply setCage_keeps | with_reducible apply takeDown_keeps | with_reducible apply updLink_keeps | with_reducible exact Part.sub_trans hw (by decide))

theorem execCmisPoll_keeps {s : State} (portB : Bool) (cmis : Cmis) :
    KeepsO [.ports, .sb] s (execCmisPoll portB cmis s) := by
  have h₀ := Keeps.refl [.ports, .sb] s
  have hw : Part.sub [.ports, .sb] [.ports, .sb] = true := by decide
  unfold execCmisPoll
  try dsimp only
  repeat' first
    | with_reducible assumption
    | with_reducible apply KeepsO.next
    | with_reducible apply KeepsO.ite
    | with_reducible apply Keeps.ite
    | with_reducible apply judgePlugIn_keeps
    | with_reducible apply refusePlugIn_keeps
    | with_reducible apply setCage_keeps
    | with_reducible exact Part.sub_trans hw (by decide)
    | split
    | (refine Keeps.mk_of rfl ?_; first | with_reducible assumption | with_reducible apply KeepsO.next | with_reducible apply KeepsO.ite | with_reducible apply Keeps.ite | with_reducible apply judgePlugIn_keeps | with_reducible apply refusePlugIn_keeps | with_reducible apply setCage_keeps | with_reducible exact Part.sub_trans hw (by decide))

theorem retrainPort_keeps {ws : List Part} {s₀ s : State} (h₀ : Keeps ws s₀ s) (portB : Bool) (fmt : Nat)
    (hw : Part.sub [.ports, .sb] ws = true) : Keeps ws s₀ (State.retrainPort s portB fmt) := by
  unfold State.retrainPort
  try dsimp only
  repeat' first
    | with_reducible assumption
    | with_reducible apply Keeps.ite
    | (with_reducible refine Keeps.foldl ?_ (fun _ _ _ => ?_))
    | with_reducible apply judgePlugIn_keeps
    | with_reducible apply setCage_keeps
    | with_reducible apply startAttempts_keeps
    | with_reducible apply takeDown_keeps
    | with_reducible apply updLink_keeps
    | with_reducible exact Part.sub_trans hw (by decide)
    | split
    | (refine Keeps.mk_of rfl ?_; first | with_reducible assumption | with_reducible apply Keeps.ite | (with_reducible refine Keeps.foldl ?_ (fun _ _ _ => ?_)) | with_reducible apply judgePlugIn_keeps | with_reducible apply setCage_keeps | with_reducible apply startAttempts_keeps | with_reducible apply takeDown_keeps | with_reducible apply updLink_keeps | with_reducible exact Part.sub_trans hw (by decide))

end Sys2Proof.Machine
end

