-- ==== Sys2Proof/Laws/KeepsStore.lean ====
section
/-! SUPPORT. Which parts of the state each operation of Machine/Store.lean may change. -/

set_option Elab.async false

namespace Sys2Proof.Machine

theorem updGroup_keeps {ws : List Part} {s₀ s : State} (h₀ : Keeps ws s₀ s) (n : Nat) (f : Group → Group)
    (hw : Part.sub [.groups] ws = true) : Keeps ws s₀ (State.updGroup s n f) := by
  unfold State.updGroup
  try dsimp only
  repeat' first
    | with_reducible assumption
    | split
    | (refine Keeps.mk_of rfl ?_; first | with_reducible assumption)

theorem closeGroup_keeps {ws : List Part} {s₀ s : State} (h₀ : Keeps ws s₀ s) (n : Nat)
    (hw : Part.sub [.groups] ws = true) : Keeps ws s₀ (State.closeGroup s n) := by
  unfold State.closeGroup
  try dsimp only
  repeat' first
    | with_reducible assumption
    | with_reducible apply updGroup_keeps
    | with_reducible exact Part.sub_trans hw (by decide)
    | split
    | (refine Keeps.mk_of rfl ?_; first | with_reducible assumption | with_reducible apply updGroup_keeps | with_reducible exact Part.sub_trans hw (by decide))

theorem openGroup_keeps {ws : List Part} {s₀ s t : State} (h : Keeps ws s₀ s) {o : Nat} {slc fine gc : Bool} (e : s.openGroup o slc fine gc = some t)
    (hw : Part.sub [.groups, .extents, .fineNext, .mapLog] ws = true) : Keeps ws s₀ t := by
  unfold State.openGroup at e
  dsimp only at e
  split at e
  · cases e
  · split at e
    · cases e
    · injection e with e
      subst e
      refine Keeps.mk_of rfl ?_
      exact Keeps.foldl h (fun _ _ hu => closeGroup_keeps hu _ (Part.sub_trans hw (by decide)))

theorem takeSlots_keeps {ws : List Part} {s₀ s t : State} (h : Keeps ws s₀ s) {o : Nat} {slc fine gc : Bool} {len : Nat} {g : Group} {a l : Nat}
    (e : s.takeSlots o slc fine gc len = some (t, g, a, l)) (hw : Part.sub [.counts, .groups, .extents, .fineNext, .mapLog] ws = true) : Keeps ws s₀ t := by
  unfold State.takeSlots at e
  dsimp only at e
  split at e
  · cases e
  · rename_i u hu
    have hk : Keeps ws s₀ u := by
      split at hu
      · injection hu with hu
        exact hu ▸ h
      · exact openGroup_keeps h hu (Part.sub_trans hw (by decide))
    split at e
    · cases e
    · injection e with e
      injection e with e _
      subst e
      refine Keeps.mk_of rfl ?_
      exact updGroup_keeps hk _ _ (Part.sub_trans hw (by decide))

theorem heatUp_keeps {ws : List Part} {s₀ s : State} (h₀ : Keeps ws s₀ s) (fp : BitVec 128)
    (hw : Part.sub [.heat] ws = true) : Keeps ws s₀ (State.heatUp s fp) := by
  unfold State.heatUp
  try dsimp only
  repeat' first
    | with_reducible assumption
    | split
    | (refine Keeps.mk_of rfl ?_; first | with_reducible assumption)

theorem dirLog_keeps {ws : List Part} {s₀ s : State} (h₀ : Keeps ws s₀ s) (r : LogRec)
    (hw : Part.sub [.logA, .logB] ws = true) : Keeps ws s₀ (State.dirLog s r) := by
  unfold State.dirLog
  try dsimp only
  repeat' first
    | with_reducible assumption
    | with_reducible apply Keeps.ite
    | split
    | (refine Keeps.mk_of rfl ?_; first | with_reducible assumption | with_reducible apply Keeps.ite)

theorem dirtyChunk_keeps {ws : List Part} {s₀ s : State} (h₀ : Keeps ws s₀ s) (e : Entry)
    (hw : Part.sub [.dirty] ws = true) : Keeps ws s₀ (State.dirtyChunk s e) := by
  unfold State.dirtyChunk
  try dsimp only
  repeat' first
    | with_reducible assumption
    | with_reducible apply Keeps.ite
    | split
    | (refine Keeps.mk_of rfl ?_; first | with_reducible assumption | with_reducible apply Keeps.ite)

theorem markStale_keeps {ws : List Part} {s₀ s : State} (h₀ : Keeps ws s₀ s) (rs : List Rec)
    (hw : Part.sub [.stale] ws = true) : Keeps ws s₀ (State.markStale s rs) := by
  unfold State.markStale
  try dsimp only
  repeat' first
    | with_reducible assumption
    | split
    | (refine Keeps.mk_of rfl ?_; first | with_reducible assumption)

theorem setEntry_keeps {ws : List Part} {s₀ s : State} (h₀ : Keeps ws s₀ s) (e : Entry)
    (hw : Part.sub [.entries, .dirty] ws = true) : Keeps ws s₀ (State.setEntry s e) := by
  unfold State.setEntry
  try dsimp only
  repeat' first
    | with_reducible assumption
    | with_reducible apply Keeps.ite
    | with_reducible apply dirtyChunk_keeps
    | with_reducible exact Part.sub_trans hw (by decide)
    | split
    | (refine Keeps.mk_of rfl ?_; first | with_reducible assumption | with_reducible apply Keeps.ite | with_reducible apply dirtyChunk_keeps | with_reducible exact Part.sub_trans hw (by decide))

theorem removeEntry_keeps {ws : List Part} {s₀ s : State} (h₀ : Keeps ws s₀ s) (e : Entry)
    (hw : Part.sub [.entries, .dirty] ws = true) : Keeps ws s₀ (State.removeEntry s e) := by
  unfold State.removeEntry
  try dsimp only
  repeat' first
    | with_reducible assumption
    | with_reducible apply dirtyChunk_keeps
    | with_reducible exact Part.sub_trans hw (by decide)
    | split
    | (refine Keeps.mk_of rfl ?_; first | with_reducible assumption | with_reducible apply dirtyChunk_keeps | with_reducible exact Part.sub_trans hw (by decide))

theorem cachePut_keeps {ws : List Part} {s₀ s : State} (h₀ : Keeps ws s₀ s) (r : Rec)
    (hw : Part.sub [.cache] ws = true) : Keeps ws s₀ (State.cachePut s r) := by
  unfold State.cachePut
  try dsimp only
  repeat' first
    | with_reducible assumption
    | with_reducible apply Keeps.ite
    | split
    | (refine Keeps.mk_of rfl ?_; first | with_reducible assumption | with_reducible apply Keeps.ite)

theorem cacheDrop_keeps {ws : List Part} {s₀ s : State} (h₀ : Keeps ws s₀ s) (p : Nat → Bool)
    (hw : Part.sub [.cache] ws = true) : Keeps ws s₀ (State.cacheDrop s p) := by
  unfold State.cacheDrop
  try dsimp only
  repeat' first
    | with_reducible assumption
    | split
    | (refine Keeps.mk_of rfl ?_; first | with_reducible assumption)

theorem remapLoc_keeps {ws : List Part} {s₀ s : State} (h₀ : Keeps ws s₀ s) (old new : Nat)
    (hw : Part.sub [.entries] ws = true) : Keeps ws s₀ (State.remapLoc s old new) := by
  unfold State.remapLoc
  try dsimp only
  repeat' first
    | with_reducible assumption
    | with_reducible apply Keeps.ite
    | split
    | (refine Keeps.mk_of rfl ?_; first | with_reducible assumption | with_reducible apply Keeps.ite)

theorem relocate_keeps {ws : List Part} {s₀ s : State} (h₀ : Keeps ws s₀ s) (loc : Nat) (reseal : Rec → Rec)
    (hw : Part.sub [.counts, .entries, .recs, .groups, .extents, .fineNext, .stale, .cache, .logA, .logB, .mapLog, .dirty] ws = true) : Keeps ws s₀ (State.relocate s loc reseal) := by
  unfold State.relocate
  try dsimp only
  repeat' first
    | with_reducible assumption
    | with_reducible apply Keeps.ite
    | with_reducible apply cacheDrop_keeps
    | with_reducible apply dirLog_keeps
    | with_reducible apply dirtyChunk_keeps
    | with_reducible apply markStale_keeps
    | with_reducible apply remapLoc_keeps
    | (refine takeSlots_keeps ?_ (by assumption) (Part.sub_trans hw (by decide)))
    | with_reducible exact Part.sub_trans hw (by decide)
    | split
    | (refine Keeps.mk_of rfl ?_; first | with_reducible assumption | with_reducible apply Keeps.ite | with_reducible apply cacheDrop_keeps | with_reducible apply dirLog_keeps | with_reducible apply dirtyChunk_keeps | with_reducible apply markStale_keeps | with_reducible apply remapLoc_keeps | (refine takeSlots_keeps ?_ (by assumption) (Part.sub_trans hw (by decide))) | with_reducible exact Part.sub_trans hw (by decide))

theorem mediaErrorEvent_keeps {ws : List Part} {s₀ s : State} (h₀ : Keeps ws s₀ s) (r : Rec)
    (hw : Part.sub [.counts, .logs, .dbg] ws = true) : Keeps ws s₀ (State.mediaErrorEvent s r) := by
  unfold State.mediaErrorEvent
  try dsimp only
  repeat' first
    | with_reducible assumption
    | with_reducible apply logEvent_keeps
    | with_reducible exact Part.sub_trans hw (by decide)
    | split
    | (refine Keeps.mk_of rfl ?_; first | with_reducible assumption | with_reducible apply logEvent_keeps | with_reducible exact Part.sub_trans hw (by decide))

theorem markRefresh_keeps {ws : List Part} {s₀ s : State} (h₀ : Keeps ws s₀ s) (n : Nat)
    (hw : Part.sub [.groups] ws = true) : Keeps ws s₀ (State.markRefresh s n) := by
  unfold State.markRefresh
  try dsimp only
  repeat' first
    | with_reducible assumption
    | with_reducible apply updGroup_keeps
    | with_reducible exact Part.sub_trans hw (by decide)
    | split
    | (refine Keeps.mk_of rfl ?_; first | with_reducible assumption | with_reducible apply updGroup_keeps | with_reducible exact Part.sub_trans hw (by decide))

theorem readRec_keeps {ws : List Part} {s₀ s : State} (h : Keeps ws s₀ s) (r : Rec) (o : ReadOutcome) (hw : Part.sub [.counts, .logs, .groups, .dbg] ws = true) :
    Keeps ws s₀ (State.readRec s r o).2 := by
  unfold State.readRec
  dsimp only
  repeat' first
    | with_reducible assumption
    | with_reducible apply mediaErrorEvent_keeps
    | with_reducible apply markRefresh_keeps
    | with_reducible exact Part.sub_trans hw (by decide)
    | (refine Keeps.mk_of rfl ?_; first | with_reducible assumption | with_reducible apply markRefresh_keeps)
    | split

theorem poisonRec_keeps {ws : List Part} {s₀ s : State} (h₀ : Keeps ws s₀ s) (loc : Nat)
    (hw : Part.sub [.recs] ws = true) : Keeps ws s₀ (State.poisonRec s loc) := by
  unfold State.poisonRec
  try dsimp only
  repeat' first
    | with_reducible assumption
    | split
    | (refine Keeps.mk_of rfl ?_; first | with_reducible assumption)

end Sys2Proof.Machine
end

