-- ==== Sys2Proof/Laws/KeepsModes.lean ====
section
/-! SUPPORT. Which parts of the state each operation of Machine/Modes.lean may change. -/

set_option Elab.async false

namespace Sys2Proof.Machine

theorem saveSettings_keeps {ws : List Part} {s₀ s : State} (h₀ : Keeps ws s₀ s) 
    (hw : Part.sub [.nor] ws = true) : Keeps ws s₀ (State.saveSettings s) := by
  unfold State.saveSettings
  try dsimp only
  repeat' first
    | with_reducible assumption
    | split
    | (refine Keeps.mk_of rfl ?_; first | with_reducible assumption)

theorem endAll_keeps {ws : List Part} {s₀ s : State} (h₀ : Keeps ws s₀ s) (p : Ctx → Bool) (st : Status)
    (hw : Part.sub [.ports, .sessions, .ctxs, .nextId, .kept, .held, .sent, .locks, .keyspaces, .quince, .pages, .pipes, .queue, .relay, .power, .sb] ws = true) : Keeps ws s₀ (State.endAll s p st) := by
  unfold State.endAll
  try dsimp only
  repeat' first
    | with_reducible assumption
    | (with_reducible refine Keeps.foldl ?_ (fun _ _ _ => ?_))
    | with_reducible apply endStatus_keeps
    | with_reducible exact Part.sub_trans hw (by decide)
    | split
    | (refine Keeps.mk_of rfl ?_; first | with_reducible assumption | (with_reducible refine Keeps.foldl ?_ (fun _ _ _ => ?_)) | with_reducible apply endStatus_keeps | with_reducible exact Part.sub_trans hw (by decide))

theorem closeSieves_keeps {ws : List Part} {s₀ s : State} (h₀ : Keeps ws s₀ s) (p : Sieve → Bool) (reason : Nat)
    (hw : Part.sub [.logs, .sieves, .dbg] ws = true) : Keeps ws s₀ (State.closeSieves s p reason) := by
  unfold State.closeSieves
  try dsimp only
  repeat' first
    | with_reducible assumption
    | with_reducible apply Keeps.ite
    | (with_reducible refine Keeps.foldl ?_ (fun _ _ _ => ?_))
    | with_reducible apply logEvent_keeps
    | with_reducible exact Part.sub_trans hw (by decide)
    | split
    | (refine Keeps.mk_of rfl ?_; first | with_reducible assumption | with_reducible apply Keeps.ite | (with_reducible refine Keeps.foldl ?_ (fun _ _ _ => ?_)) | with_reducible apply logEvent_keeps | with_reducible exact Part.sub_trans hw (by decide))

theorem endForMode_keeps {ws : List Part} {s₀ s : State} (h₀ : Keeps ws s₀ s) (new : Mode)
    (hw : Part.sub [.ports, .sessions, .ctxs, .nextId, .kept, .held, .sent, .locks, .logs, .keyspaces, .quince, .pages, .pipes, .queue, .sieves, .relay, .power, .sb, .dbg] ws = true) : Keeps ws s₀ (State.endForMode s new) := by
  unfold State.endForMode
  try dsimp only
  repeat' first
    | with_reducible assumption
    | with_reducible apply closeSieves_keeps
    | with_reducible apply endAll_keeps
    | with_reducible exact Part.sub_trans hw (by decide)
    | split
    | (refine Keeps.mk_of rfl ?_; first | with_reducible assumption | with_reducible apply closeSieves_keeps | with_reducible apply endAll_keeps | with_reducible exact Part.sub_trans hw (by decide))

theorem changeMode_keeps {ws : List Part} {s₀ s : State} (h₀ : Keeps ws s₀ s) (new : Mode)
    (hw : Part.sub [.rnd, .modes, .counts, .ports, .sessions, .ctxs, .nextId, .kept, .held, .sent, .locks, .logs, .keyspaces, .quince, .pages, .pipes, .queue, .sieves, .relay, .power, .sb, .dbg] ws = true) : Keeps ws s₀ (State.changeMode s new) := by
  unfold State.changeMode
  try dsimp only
  repeat' first
    | with_reducible assumption
    | with_reducible apply Keeps.ite
    | with_reducible apply alert_keeps
    | with_reducible apply broadcast_keeps
    | with_reducible apply console_keeps
    | with_reducible apply endForMode_keeps
    | with_reducible apply shallower_keeps
    | with_reducible exact Part.sub_trans hw (by decide)
    | split
    | (refine Keeps.mk_of rfl ?_; first | with_reducible assumption | with_reducible apply Keeps.ite | with_reducible apply alert_keeps | with_reducible apply broadcast_keeps | with_reducible apply console_keeps | with_reducible apply endForMode_keeps | with_reducible apply shallower_keeps | with_reducible exact Part.sub_trans hw (by decide))

theorem freeze_keeps {ws : List Part} {s₀ s : State} (h₀ : Keeps ws s₀ s) (f : FreezeCause)
    (hw : Part.sub [.rnd, .modes, .counts, .ports, .sessions, .ctxs, .nextId, .kept, .held, .sent, .locks, .logs, .keyspaces, .quince, .pages, .pipes, .queue, .sieves, .relay, .power, .sb, .dbg, .nor] ws = true) : Keeps ws s₀ (State.freeze s f) := by
  unfold State.freeze
  try dsimp only
  repeat' first
    | with_reducible assumption
    | with_reducible apply Keeps.ite
    | with_reducible apply changeMode_keeps
    | with_reducible apply saveSettings_keeps
    | with_reducible exact Part.sub_trans hw (by decide)
    | split
    | (refine Keeps.mk_of rfl ?_; first | with_reducible assumption | with_reducible apply Keeps.ite | with_reducible apply changeMode_keeps | with_reducible apply saveSettings_keeps | with_reducible exact Part.sub_trans hw (by decide))

theorem spareNotice_keeps {ws : List Part} {s₀ s : State} (h₀ : Keeps ws s₀ s) (cls index : Nat)
    (hw : Part.sub [.counts, .ports, .sessions, .nextId, .kept, .held, .sent, .logs, .keyspaces, .power, .sb] ws = true) : Keeps ws s₀ (State.spareNotice s cls index) := by
  unfold State.spareNotice
  try dsimp only
  repeat' first
    | with_reducible assumption
    | with_reducible apply alert_keeps
    | with_reducible apply broadcast_keeps
    | with_reducible exact Part.sub_trans hw (by decide)
    | split
    | (refine Keeps.mk_of rfl ?_; first | with_reducible assumption | with_reducible apply alert_keeps | with_reducible apply broadcast_keeps | with_reducible exact Part.sub_trans hw (by decide))

theorem retireBlock_keeps {ws : List Part} {s₀ s : State} (h₀ : Keeps ws s₀ s) (channel position : Nat) (g : Group) (cause : Nat)
    (hw : Part.sub [.rnd, .modes, .spares, .counts, .ports, .sessions, .ctxs, .nextId, .kept, .held, .sent, .locks, .logs, .keyspaces, .groups, .quince, .pages, .pipes, .queue, .sieves, .relay, .power, .sb, .dbg, .nor] ws = true) : Keeps ws s₀ (State.retireBlock s channel position g cause) := by
  unfold State.retireBlock
  try dsimp only
  repeat' first
    | with_reducible assumption
    | with_reducible apply Keeps.ite
    | with_reducible apply freeze_keeps
    | with_reducible apply logEvent_keeps
    | with_reducible apply markRefresh_keeps
    | with_reducible exact Part.sub_trans hw (by decide)
    | split
    | (refine Keeps.mk_of rfl ?_; first | with_reducible assumption | with_reducible apply Keeps.ite | with_reducible apply freeze_keeps | with_reducible apply logEvent_keeps | with_reducible apply markRefresh_keeps | with_reducible exact Part.sub_trans hw (by decide))

end Sys2Proof.Machine
end

