-- ==== Sys2Proof/Laws/KeepsCipher.lean ====
section
/-! SUPPORT. Which parts of the state each operation of Machine/Cipher.lean may change. -/

set_option Elab.async false

namespace Sys2Proof.Machine

theorem setPage_keeps {ws : List Part} {s₀ s : State} (h₀ : Keeps ws s₀ s) (p : KeyPage)
    (hw : Part.sub [.pages] ws = true) : Keeps ws s₀ (State.setPage s p) := by
  unfold State.setPage
  try dsimp only
  repeat' first
    | with_reducible assumption
    | split
    | (refine Keeps.mk_of rfl ?_; first | with_reducible assumption)

theorem keyUsage_keeps {ws : List Part} {s₀ s : State} (h₀ : Keeps ws s₀ s) (p : KeyPage) (event : Nat)
    (hw : Part.sub [.counts, .ports, .sessions, .nextId, .kept, .held, .sent, .logs, .keyspaces, .power] ws = true) : Keeps ws s₀ (State.keyUsage s p event) := by
  unfold State.keyUsage
  try dsimp only
  repeat' first
    | with_reducible assumption
    | with_reducible apply broadcast_keeps
    | with_reducible exact Part.sub_trans hw (by decide)
    | split
    | (refine Keeps.mk_of rfl ?_; first | with_reducible assumption | with_reducible apply broadcast_keeps | with_reducible exact Part.sub_trans hw (by decide))

theorem keyEvents_keeps {ws : List Part} {s₀ s : State} (h₀ : Keeps ws s₀ s) (n : Nat)
    (hw : Part.sub [.counts, .ports, .sessions, .nextId, .kept, .held, .sent, .logs, .keyspaces, .pages, .power] ws = true) : Keeps ws s₀ (State.keyEvents s n) := by
  unfold State.keyEvents
  try dsimp only
  repeat' first
    | with_reducible assumption
    | with_reducible apply Keeps.ite
    | with_reducible apply keyUsage_keeps
    | with_reducible apply setPage_keeps
    | with_reducible exact Part.sub_trans hw (by decide)
    | split
    | (refine Keeps.mk_of rfl ?_; first | with_reducible assumption | with_reducible apply Keeps.ite | with_reducible apply keyUsage_keeps | with_reducible apply setPage_keeps | with_reducible exact Part.sub_trans hw (by decide))

theorem reserveUse_keeps {ws : List Part} {s₀ s : State} (h₀ : Keeps ws s₀ s) (n : Nat)
    (hw : Part.sub [.counts, .ports, .sessions, .nextId, .kept, .held, .sent, .logs, .keyspaces, .pages, .power] ws = true) : Keeps ws s₀ (State.reserveUse s n) := by
  unfold State.reserveUse
  try dsimp only
  repeat' first
    | with_reducible assumption
    | with_reducible apply keyEvents_keeps
    | with_reducible apply setPage_keeps
    | with_reducible exact Part.sub_trans hw (by decide)
    | split
    | (refine Keeps.mk_of rfl ?_; first | with_reducible assumption | with_reducible apply keyEvents_keeps | with_reducible apply setPage_keeps | with_reducible exact Part.sub_trans hw (by decide))

theorem eraseKeys_keeps {ws : List Part} {s₀ s : State} (h₀ : Keeps ws s₀ s) 
    (hw : Part.sub [.pages, .kek] ws = true) : Keeps ws s₀ (State.eraseKeys s) := by
  unfold State.eraseKeys
  try dsimp only
  repeat' first
    | with_reducible assumption
    | with_reducible apply Keeps.ite
    | split
    | (refine Keeps.mk_of rfl ?_; first | with_reducible assumption | with_reducible apply Keeps.ite)

theorem clearPage_keeps {ws : List Part} {s₀ s : State} (h₀ : Keeps ws s₀ s) (n cause : Nat)
    (hw : Part.sub [.logs, .pages, .dbg] ws = true) : Keeps ws s₀ (State.clearPage s n cause) := by
  unfold State.clearPage
  try dsimp only
  repeat' first
    | with_reducible assumption
    | with_reducible apply logEvent_keeps
    | with_reducible exact Part.sub_trans hw (by decide)
    | split
    | (refine Keeps.mk_of rfl ?_; first | with_reducible assumption | with_reducible apply logEvent_keeps | with_reducible exact Part.sub_trans hw (by decide))

theorem sweepEnd_keeps {ws : List Part} {s₀ s : State} (h₀ : Keeps ws s₀ s) (n : Nat)
    (hw : Part.sub [.counts, .ports, .sessions, .nextId, .kept, .held, .sent, .logs, .keyspaces, .pages, .power, .dbg] ws = true) : Keeps ws s₀ (State.sweepEnd s n) := by
  unfold State.sweepEnd
  try dsimp only
  repeat' first
    | with_reducible assumption
    | with_reducible apply Keeps.ite
    | with_reducible apply keyUsage_keeps
    | with_reducible apply logEvent_keeps
    | with_reducible apply setPage_keeps
    | with_reducible exact Part.sub_trans hw (by decide)
    | split
    | (refine Keeps.mk_of rfl ?_; first | with_reducible assumption | with_reducible apply Keeps.ite | with_reducible apply keyUsage_keeps | with_reducible apply logEvent_keeps | with_reducible apply setPage_keeps | with_reducible exact Part.sub_trans hw (by decide))

theorem setPipe_keeps {ws : List Part} {s₀ s : State} (h₀ : Keeps ws s₀ s) (p : Pipe)
    (hw : Part.sub [.pipes] ws = true) : Keeps ws s₀ (State.setPipe s p) := by
  unfold State.setPipe
  try dsimp only
  repeat' first
    | with_reducible assumption
    | split
    | (refine Keeps.mk_of rfl ?_; first | with_reducible assumption)

theorem takeUse_keeps {ws : List Part} {s₀ s : State} (h₀ : Keeps ws s₀ s) (j : JobOf)
    (hw : Part.sub [.counts, .ports, .sessions, .ctxs, .nextId, .kept, .held, .sent, .logs, .keyspaces, .pages, .power] ws = true) : Keeps ws s₀ (State.takeUse s j) := by
  unfold State.takeUse
  try dsimp only
  repeat' first
    | with_reducible assumption
    | with_reducible apply Keeps.ite
    | with_reducible apply keyEvents_keeps
    | with_reducible apply setPage_keeps
    | with_reducible apply updCtx_keeps
    | with_reducible exact Part.sub_trans hw (by decide)
    | split
    | (refine Keeps.mk_of rfl ?_; first | with_reducible assumption | with_reducible apply Keeps.ite | with_reducible apply keyEvents_keeps | with_reducible apply setPage_keeps | with_reducible apply updCtx_keeps | with_reducible exact Part.sub_trans hw (by decide))

theorem startJob_keeps {ws : List Part} {s₀ s : State} (h₀ : Keeps ws s₀ s) (p : Pipe) (j : Job)
    (hw : Part.sub [.counts, .ports, .sessions, .ctxs, .nextId, .kept, .held, .sent, .logs, .keyspaces, .pages, .pipes, .power] ws = true) : Keeps ws s₀ (State.startJob s p j) := by
  unfold State.startJob
  try dsimp only
  repeat' first
    | with_reducible assumption
    | with_reducible apply setPipe_keeps
    | with_reducible apply takeUse_keeps
    | with_reducible exact Part.sub_trans hw (by decide)
    | split
    | (refine Keeps.mk_of rfl ?_; first | with_reducible assumption | with_reducible apply setPipe_keeps | with_reducible apply takeUse_keeps | with_reducible exact Part.sub_trans hw (by decide))

theorem jobArrive_keeps {ws : List Part} {s₀ s : State} (h₀ : Keeps ws s₀ s) (j : Job)
    (hw : Part.sub [.counts, .ports, .sessions, .ctxs, .nextId, .kept, .held, .sent, .logs, .keyspaces, .pages, .pipes, .queue, .power] ws = true) : Keeps ws s₀ (State.jobArrive s j) := by
  unfold State.jobArrive
  try dsimp only
  repeat' first
    | with_reducible assumption
    | with_reducible apply Keeps.ite
    | with_reducible apply startJob_keeps
    | with_reducible exact Part.sub_trans hw (by decide)
    | split
    | (refine Keeps.mk_of rfl ?_; first | with_reducible assumption | with_reducible apply Keeps.ite | with_reducible apply startJob_keeps | with_reducible exact Part.sub_trans hw (by decide))

theorem nextJob_keeps {ws : List Part} {s₀ s : State} (h₀ : Keeps ws s₀ s) (n : Nat)
    (hw : Part.sub [.counts, .ports, .sessions, .ctxs, .nextId, .kept, .held, .sent, .logs, .keyspaces, .pages, .pipes, .queue, .power] ws = true) : Keeps ws s₀ (State.nextJob s n) := by
  unfold State.nextJob
  try dsimp only
  repeat' first
    | with_reducible assumption
    | with_reducible apply Keeps.ite
    | (with_reducible refine Keeps.foldl ?_ (fun _ _ _ => ?_))
    | with_reducible apply startJob_keeps
    | with_reducible exact Part.sub_trans hw (by decide)
    | split
    | (refine Keeps.mk_of rfl ?_; first | with_reducible assumption | with_reducible apply Keeps.ite | (with_reducible refine Keeps.foldl ?_ (fun _ _ _ => ?_)) | with_reducible apply startJob_keeps | with_reducible exact Part.sub_trans hw (by decide))

theorem execCipherUrgencyRaise_keeps {s : State} (job : JobOf) :
    KeepsO [.counts, .ports, .sessions, .ctxs, .nextId, .kept, .held, .sent, .logs, .keyspaces, .pages, .pipes, .queue, .power] s (execCipherUrgencyRaise job s) := by
  have h₀ := Keeps.refl [.counts, .ports, .sessions, .ctxs, .nextId, .kept, .held, .sent, .logs, .keyspaces, .pages, .pipes, .queue, .power] s
  have hw : Part.sub [.counts, .ports, .sessions, .ctxs, .nextId, .kept, .held, .sent, .logs, .keyspaces, .pages, .pipes, .queue, .power] [.counts, .ports, .sessions, .ctxs, .nextId, .kept, .held, .sent, .logs, .keyspaces, .pages, .pipes, .queue, .power] = true := by decide
  unfold execCipherUrgencyRaise
  try dsimp only
  repeat' first
    | with_reducible assumption
    | with_reducible apply KeepsO.next
    | with_reducible apply KeepsO.ite
    | with_reducible apply jobArrive_keeps
    | with_reducible exact Part.sub_trans hw (by decide)
    | split
    | (refine Keeps.mk_of rfl ?_; first | with_reducible assumption | with_reducible apply KeepsO.next | with_reducible apply KeepsO.ite | with_reducible apply jobArrive_keeps | with_reducible exact Part.sub_trans hw (by decide))

end Sys2Proof.Machine
end

