-- ==== Sys2Proof/Laws/KeepsMarks.lean ====
section
/-! SUPPORT. Which parts of the state each operation of Machine/Marks.lean may change. -/

set_option Elab.async false

namespace Sys2Proof.Machine

theorem markNotice_keeps {ws : List Part} {s₀ s : State} (h₀ : Keeps ws s₀ s) (k n : Nat)
    (hw : Part.sub [.counts, .ports, .sessions, .nextId, .kept, .held, .sent, .marks, .logs, .keyspaces, .power] ws = true) : Keeps ws s₀ (State.markNotice s k n) := by
  unfold State.markNotice
  try dsimp only
  repeat' first
    | with_reducible assumption
    | with_reducible apply broadcast_keeps
    | with_reducible exact Part.sub_trans hw (by decide)
    | split
    | (refine Keeps.mk_of rfl ?_; first | with_reducible assumption | with_reducible apply broadcast_keeps | with_reducible exact Part.sub_trans hw (by decide))

theorem watchOne_keeps {ws : List Part} {s₀ s : State} (h₀ : Keeps ws s₀ s) (k : Nat)
    (hw : Part.sub [.counts, .ports, .sessions, .nextId, .kept, .held, .sent, .marks, .logs, .keyspaces, .power, .sb] ws = true) : Keeps ws s₀ (State.watchOne s k) := by
  unfold State.watchOne
  try dsimp only
  repeat' first
    | with_reducible assumption
    | with_reducible apply Keeps.ite
    | with_reducible apply alert_keeps
    | with_reducible apply markNotice_keeps
    | with_reducible exact Part.sub_trans hw (by decide)
    | split
    | (refine Keeps.mk_of rfl ?_; first | with_reducible assumption | with_reducible apply Keeps.ite | with_reducible apply alert_keeps | with_reducible apply markNotice_keeps | with_reducible exact Part.sub_trans hw (by decide))

theorem watch_keeps {ws : List Part} {s₀ s : State} (h₀ : Keeps ws s₀ s) 
    (hw : Part.sub [.counts, .ports, .sessions, .nextId, .kept, .held, .sent, .marks, .logs, .keyspaces, .power, .sb] ws = true) : Keeps ws s₀ (State.watch s) := by
  unfold State.watch
  try dsimp only
  repeat' first
    | with_reducible assumption
    | (with_reducible refine Keeps.foldl ?_ (fun _ _ _ => ?_))
    | with_reducible apply watchOne_keeps
    | with_reducible exact Part.sub_trans hw (by decide)
    | split
    | (refine Keeps.mk_of rfl ?_; first | with_reducible assumption | (with_reducible refine Keeps.foldl ?_ (fun _ _ _ => ?_)) | with_reducible apply watchOne_keeps | with_reducible exact Part.sub_trans hw (by decide))

theorem startMarks_keeps {ws : List Part} {s₀ s : State} (h₀ : Keeps ws s₀ s) 
    (hw : Part.sub [.marks] ws = true) : Keeps ws s₀ (State.startMarks s) := by
  unfold State.startMarks
  try dsimp only
  repeat' first
    | with_reducible assumption
    | split
    | (refine Keeps.mk_of rfl ?_; first | with_reducible assumption)

theorem execWatermarkHoldoffEnd_keeps {s : State} (wm : Nat) :
    KeepsO [.counts, .ports, .sessions, .nextId, .kept, .held, .sent, .marks, .logs, .keyspaces, .power] s (execWatermarkHoldoffEnd wm s) := by
  have h₀ := Keeps.refl [.counts, .ports, .sessions, .nextId, .kept, .held, .sent, .marks, .logs, .keyspaces, .power] s
  have hw : Part.sub [.counts, .ports, .sessions, .nextId, .kept, .held, .sent, .marks, .logs, .keyspaces, .power] [.counts, .ports, .sessions, .nextId, .kept, .held, .sent, .marks, .logs, .keyspaces, .power] = true := by decide
  unfold execWatermarkHoldoffEnd
  try dsimp only
  repeat' first
    | with_reducible assumption
    | with_reducible apply KeepsO.next
    | with_reducible apply KeepsO.ite
    | with_reducible apply Keeps.ite
    | with_reducible apply markNotice_keeps
    | with_reducible exact Part.sub_trans hw (by decide)
    | split
    | (refine Keeps.mk_of rfl ?_; first | with_reducible assumption | with_reducible apply KeepsO.next | with_reducible apply KeepsO.ite | with_reducible apply Keeps.ite | with_reducible apply markNotice_keeps | with_reducible exact Part.sub_trans hw (by decide))

end Sys2Proof.Machine
end

