-- ==== Sys2Proof/Laws/KeepsTransport.lean ====
section
/-! SUPPORT. Which parts of the state each operation of Machine/Transport.lean may change. -/

set_option Elab.async false

namespace Sys2Proof.Machine

theorem discard_keeps {ws : List Part} {s₀ s : State} (h₀ : Keeps ws s₀ s) 
    (hw : Part.sub [.counts] ws = true) : Keeps ws s₀ (State.discard s) := by
  unfold State.discard
  try dsimp only
  repeat' first
    | with_reducible assumption
    | split
    | (refine Keeps.mk_of rfl ?_; first | with_reducible assumption)

theorem answer_keeps {ws : List Part} {s₀ s : State} (h₀ : Keeps ws s₀ s) (p : Path) (sess : Option Nat) (h : Header) (st : Status) (noSession : Bool) (a b : BitVec 64)
    (hw : Part.sub [.ports, .nextId, .kept, .held, .sent] ws = true) : Keeps ws s₀ (State.answer s p sess h st noSession a b) := by
  unfold State.answer
  try dsimp only
  repeat' first
    | with_reducible assumption
    | with_reducible apply sendOnce_keeps
    | with_reducible exact Part.sub_trans hw (by decide)
    | split
    | (refine Keeps.mk_of rfl ?_; first | with_reducible assumption | with_reducible apply sendOnce_keeps | with_reducible exact Part.sub_trans hw (by decide))

theorem refuseBackoff_keeps {ws : List Part} {s₀ s : State} (h₀ : Keeps ws s₀ s) (p : Path) (x : Session) (h : Header)
    (hw : Part.sub [.ports, .sessions, .nextId, .kept, .held, .sent] ws = true) : Keeps ws s₀ (State.refuseBackoff s p x h) := by
  unfold State.refuseBackoff
  try dsimp only
  repeat' first
    | with_reducible assumption
    | with_reducible apply Keeps.ite
    | with_reducible apply answer_keeps
    | with_reducible apply updSession_keeps
    | with_reducible exact Part.sub_trans hw (by decide)
    | split
    | (refine Keeps.mk_of rfl ?_; first | with_reducible assumption | with_reducible apply Keeps.ite | with_reducible apply answer_keeps | with_reducible apply updSession_keeps | with_reducible exact Part.sub_trans hw (by decide))

theorem sendAck_keeps {ws : List Part} {s₀ s : State} (h₀ : Keeps ws s₀ s) (p : Path) (x : Ctx)
    (hw : Part.sub [.ports, .nextId, .kept, .held, .sent] ws = true) : Keeps ws s₀ (State.sendAck s p x) := by
  unfold State.sendAck
  try dsimp only
  repeat' first
    | with_reducible assumption
    | with_reducible apply sendFrame_keeps
    | with_reducible exact Part.sub_trans hw (by decide)
    | split
    | (refine Keeps.mk_of rfl ?_; first | with_reducible assumption | with_reducible apply sendFrame_keeps | with_reducible exact Part.sub_trans hw (by decide))

theorem complete_keeps {ws : List Part} {s₀ s : State} (h₀ : Keeps ws s₀ s) (x : Ctx)
    (hw : Part.sub [.ports, .sessions, .ctxs, .nextId, .kept, .held, .sent, .locks, .keyspaces, .quince, .pages, .pipes, .queue, .relay, .power, .sb] ws = true) : Keeps ws s₀ (State.complete s x) := by
  unfold State.complete
  try dsimp only
  repeat' first
    | with_reducible assumption
    | with_reducible apply Keeps.ite
    | with_reducible apply endStatus_keeps
    | with_reducible apply updCtx_keeps
    | with_reducible apply updSession_keeps
    | with_reducible exact Part.sub_trans hw (by decide)
    | split
    | (refine Keeps.mk_of rfl ?_; first | with_reducible assumption | with_reducible apply Keeps.ite | with_reducible apply endStatus_keeps | with_reducible apply updCtx_keeps | with_reducible apply updSession_keeps | with_reducible exact Part.sub_trans hw (by decide))

theorem place_keeps {ws : List Part} {s₀ s : State} (h₀ : Keeps ws s₀ s) (c : Nat) (p : Path) (h : Header) (data : Bytes)
    (hw : Part.sub [.ports, .sessions, .ctxs, .nextId, .kept, .held, .sent, .locks, .keyspaces, .quince, .pages, .pipes, .queue, .relay, .power, .sb] ws = true) : Keeps ws s₀ (State.place s c p h data) := by
  unfold State.place
  try dsimp only
  repeat' first
    | with_reducible assumption
    | with_reducible apply Keeps.ite
    | with_reducible apply complete_keeps
    | with_reducible apply endStatus_keeps
    | with_reducible apply sendAck_keeps
    | with_reducible apply updCtx_keeps
    | with_reducible exact Part.sub_trans hw (by decide)
    | split
    | (refine Keeps.mk_of rfl ?_; first | with_reducible assumption | with_reducible apply Keeps.ite | with_reducible apply complete_keeps | with_reducible apply endStatus_keeps | with_reducible apply sendAck_keeps | with_reducible apply updCtx_keeps | with_reducible exact Part.sub_trans hw (by decide))

theorem openAssembly_keeps {ws : List Part} {s₀ s : State} (h₀ : Keeps ws s₀ s) (p : Path) (h : Header) (data : Bytes) (x : Session) (reexec : Bool)
    (hw : Part.sub [.ports, .sessions, .ctxs, .nextId, .kept, .held, .sent, .locks, .owners, .keyspaces, .quince, .pages, .pipes, .queue, .relay, .power, .sb] ws = true) : Keeps ws s₀ (State.openAssembly s p h data x reexec) := by
  unfold State.openAssembly
  try dsimp only
  repeat' first
    | with_reducible assumption
    | with_reducible apply Keeps.ite
    | with_reducible apply endStatus_keeps
    | with_reducible apply place_keeps
    | with_reducible apply updOwner_keeps
    | with_reducible exact Part.sub_trans hw (by decide)
    | split
    | (refine Keeps.mk_of rfl ?_; first | with_reducible assumption | with_reducible apply Keeps.ite | with_reducible apply endStatus_keeps | with_reducible apply place_keeps | with_reducible apply updOwner_keeps | with_reducible exact Part.sub_trans hw (by decide))

theorem decideDuplicate_keeps {ws : List Part} {s₀ s : State} (h₀ : Keeps ws s₀ s) (p : Path) (h : Header) (data : Bytes) (x : Session) (e : ReplayEntry)
    (hw : Part.sub [.ports, .sessions, .ctxs, .nextId, .kept, .held, .sent, .locks, .owners, .keyspaces, .quince, .pages, .pipes, .queue, .relay, .power, .sb] ws = true) : Keeps ws s₀ (State.decideDuplicate s p h data x e) := by
  unfold State.decideDuplicate
  try dsimp only
  repeat' first
    | with_reducible assumption
    | with_reducible apply Keeps.ite
    | with_reducible apply answer_keeps
    | with_reducible apply openAssembly_keeps
    | with_reducible apply place_keeps
    | with_reducible apply refuseBackoff_keeps
    | with_reducible exact Part.sub_trans hw (by decide)
    | split
    | (refine Keeps.mk_of rfl ?_; first | with_reducible assumption | with_reducible apply Keeps.ite | with_reducible apply answer_keeps | with_reducible apply openAssembly_keeps | with_reducible apply place_keeps | with_reducible apply refuseBackoff_keeps | with_reducible exact Part.sub_trans hw (by decide))

theorem decideNew_keeps {ws : List Part} {s₀ s : State} (h₀ : Keeps ws s₀ s) (p : Path) (h : Header) (data : Bytes) (x : Session)
    (hw : Part.sub [.ports, .sessions, .ctxs, .nextId, .kept, .held, .sent, .locks, .owners, .keyspaces, .quince, .pages, .pipes, .queue, .relay, .power, .sb] ws = true) : Keeps ws s₀ (State.decideNew s p h data x) := by
  unfold State.decideNew
  try dsimp only
  repeat' first
    | with_reducible assumption
    | with_reducible apply Keeps.ite
    | with_reducible apply answer_keeps
    | with_reducible apply openAssembly_keeps
    | with_reducible apply refuseBackoff_keeps
    | with_reducible apply updSession_keeps
    | with_reducible exact Part.sub_trans hw (by decide)
    | split
    | (refine Keeps.mk_of rfl ?_; first | with_reducible assumption | with_reducible apply Keeps.ite | with_reducible apply answer_keeps | with_reducible apply openAssembly_keeps | with_reducible apply refuseBackoff_keeps | with_reducible apply updSession_keeps | with_reducible exact Part.sub_trans hw (by decide))

theorem decide_keeps {ws : List Part} {s₀ s : State} (h₀ : Keeps ws s₀ s) (p : Path) (h : Header) (data : Bytes)
    (hw : Part.sub [.ports, .sessions, .ctxs, .nextId, .kept, .held, .sent, .locks, .owners, .keyspaces, .quince, .pages, .pipes, .queue, .relay, .power, .sb] ws = true) : Keeps ws s₀ (State.decide s p h data) := by
  unfold State.decide
  try dsimp only
  repeat' first
    | with_reducible assumption
    | with_reducible apply Keeps.ite
    | with_reducible apply answer_keeps
    | with_reducible apply decideDuplicate_keeps
    | with_reducible apply decideNew_keeps
    | with_reducible apply updSession_keeps
    | with_reducible exact Part.sub_trans hw (by decide)
    | split
    | (refine Keeps.mk_of rfl ?_; first | with_reducible assumption | with_reducible apply Keeps.ite | with_reducible apply answer_keeps | with_reducible apply decideDuplicate_keeps | with_reducible apply decideNew_keeps | with_reducible apply updSession_keeps | with_reducible exact Part.sub_trans hw (by decide))

theorem openRequest_keeps {ws : List Part} {s₀ s : State} (h₀ : Keeps ws s₀ s) (p : Path) (h : Header)
    (hw : Part.sub [.ports, .sessions, .ctxs, .nextId, .kept, .held, .sent, .locks, .keyspaces, .quince, .pages, .pipes, .queue, .relay, .power, .sb] ws = true) : Keeps ws s₀ (State.openRequest s p h) := by
  unfold State.openRequest
  try dsimp only
  repeat' first
    | with_reducible assumption
    | with_reducible apply Keeps.ite
    | with_reducible apply complete_keeps
    | with_reducible exact Part.sub_trans hw (by decide)
    | split
    | (refine Keeps.mk_of rfl ?_; first | with_reducible assumption | with_reducible apply Keeps.ite | with_reducible apply complete_keeps | with_reducible exact Part.sub_trans hw (by decide))

theorem dropKept_keeps {ws : List Part} {s₀ s : State} (h₀ : Keeps ws s₀ s) (id : Nat)
    (hw : Part.sub [.kept, .held, .holds, .power] ws = true) : Keeps ws s₀ (State.dropKept s id) := by
  unfold State.dropKept
  try dsimp only
  repeat' first
    | with_reducible assumption
    | with_reducible apply foreground_keeps
    | with_reducible exact Part.sub_trans hw (by decide)
    | split
    | (refine Keeps.mk_of rfl ?_; first | with_reducible assumption | with_reducible apply foreground_keeps | with_reducible exact Part.sub_trans hw (by decide))

theorem ackArrives_keeps {ws : List Part} {s₀ s : State} (h₀ : Keeps ws s₀ s) (a : AckInfo)
    (hw : Part.sub [.counts, .ports, .sessions, .nextId, .kept, .held, .sent, .holds, .power] ws = true) : Keeps ws s₀ (State.ackArrives s a) := by
  unfold State.ackArrives
  try dsimp only
  repeat' first
    | with_reducible assumption
    | with_reducible apply Keeps.ite
    | with_reducible apply discard_keeps
    | with_reducible apply dropKept_keeps
    | with_reducible apply pumpNotices_keeps
    | with_reducible exact Part.sub_trans hw (by decide)
    | split
    | (refine Keeps.mk_of rfl ?_; first | with_reducible assumption | with_reducible apply Keeps.ite | with_reducible apply discard_keeps | with_reducible apply dropKept_keeps | with_reducible apply pumpNotices_keeps | with_reducible exact Part.sub_trans hw (by decide))

theorem execTransportAck_keeps {s : State} (ack : AckInfo) :
    KeepsO [.counts, .ports, .sessions, .nextId, .kept, .held, .sent, .marks, .logs, .keyspaces, .holds, .power, .sb] s (execTransportAck ack s) := by
  have h₀ := Keeps.refl [.counts, .ports, .sessions, .nextId, .kept, .held, .sent, .marks, .logs, .keyspaces, .holds, .power, .sb] s
  have hw : Part.sub [.counts, .ports, .sessions, .nextId, .kept, .held, .sent, .marks, .logs, .keyspaces, .holds, .power, .sb] [.counts, .ports, .sessions, .nextId, .kept, .held, .sent, .marks, .logs, .keyspaces, .holds, .power, .sb] = true := by decide
  unfold execTransportAck
  try dsimp only
  repeat' first
    | with_reducible assumption
    | with_reducible apply KeepsO.next
    | with_reducible apply KeepsO.ite
    | with_reducible apply ackArrives_keeps
    | with_reducible apply watch_keeps
    | with_reducible exact Part.sub_trans hw (by decide)
    | split
    | (refine Keeps.mk_of rfl ?_; first | with_reducible assumption | with_reducible apply KeepsO.next | with_reducible apply KeepsO.ite | with_reducible apply ackArrives_keeps | with_reducible apply watch_keeps | with_reducible exact Part.sub_trans hw (by decide))

theorem retransmitKept_keeps {ws : List Part} {s₀ s : State} (h₀ : Keeps ws s₀ s) (msg : Nat)
    (hw : Part.sub [.ports, .nextId, .kept, .held, .sent] ws = true) : Keeps ws s₀ (State.retransmitKept s msg) := by
  unfold State.retransmitKept
  try dsimp only
  repeat' first
    | with_reducible assumption
    | with_reducible apply Keeps.ite
    | with_reducible apply sendFrame_keeps
    | with_reducible exact Part.sub_trans hw (by decide)
    | split
    | (refine Keeps.mk_of rfl ?_; first | with_reducible assumption | with_reducible apply Keeps.ite | with_reducible apply sendFrame_keeps | with_reducible exact Part.sub_trans hw (by decide))

theorem keptUnanswered_keeps {ws : List Part} {s₀ s : State} (h₀ : Keeps ws s₀ s) (msg : Nat)
    (hw : Part.sub [.counts, .ports, .sessions, .nextId, .kept, .held, .sent, .logs, .keyspaces, .holds, .power] ws = true) : Keeps ws s₀ (State.keptUnanswered s msg) := by
  unfold State.keptUnanswered
  try dsimp only
  repeat' first
    | with_reducible assumption
    | with_reducible apply Keeps.ite
    | with_reducible apply dropKept_keeps
    | with_reducible apply journalLate_keeps
    | with_reducible apply pumpNotices_keeps
    | with_reducible exact Part.sub_trans hw (by decide)
    | split
    | (refine Keeps.mk_of rfl ?_; first | with_reducible assumption | with_reducible apply Keeps.ite | with_reducible apply dropKept_keeps | with_reducible apply journalLate_keeps | with_reducible apply pumpNotices_keeps | with_reducible exact Part.sub_trans hw (by decide))

theorem execAssemblyTimeout_keeps {s : State} (c : Nat) :
    KeepsO [.ports, .sessions, .ctxs, .nextId, .kept, .held, .sent, .locks, .keyspaces, .quince, .pages, .pipes, .queue, .relay, .power, .sb] s (execAssemblyTimeout c s) := by
  have h₀ := Keeps.refl [.ports, .sessions, .ctxs, .nextId, .kept, .held, .sent, .locks, .keyspaces, .quince, .pages, .pipes, .queue, .relay, .power, .sb] s
  have hw : Part.sub [.ports, .sessions, .ctxs, .nextId, .kept, .held, .sent, .locks, .keyspaces, .quince, .pages, .pipes, .queue, .relay, .power, .sb] [.ports, .sessions, .ctxs, .nextId, .kept, .held, .sent, .locks, .keyspaces, .quince, .pages, .pipes, .queue, .relay, .power, .sb] = true := by decide
  unfold execAssemblyTimeout
  try dsimp only
  repeat' first
    | with_reducible assumption
    | with_reducible apply KeepsO.next
    | with_reducible apply KeepsO.ite
    | with_reducible apply Keeps.ite
    | with_reducible apply endStatus_keeps
    | with_reducible exact Part.sub_trans hw (by decide)
    | split
    | (refine Keeps.mk_of rfl ?_; first | with_reducible assumption | with_reducible apply KeepsO.next | with_reducible apply KeepsO.ite | with_reducible apply Keeps.ite | with_reducible apply endStatus_keeps | with_reducible exact Part.sub_trans hw (by decide))

theorem execAckCoalesceExpire_keeps {s : State} (c : Nat) :
    KeepsO [.ports, .ctxs, .nextId, .kept, .held, .sent] s (execAckCoalesceExpire c s) := by
  have h₀ := Keeps.refl [.ports, .ctxs, .nextId, .kept, .held, .sent] s
  have hw : Part.sub [.ports, .ctxs, .nextId, .kept, .held, .sent] [.ports, .ctxs, .nextId, .kept, .held, .sent] = true := by decide
  unfold execAckCoalesceExpire
  try dsimp only
  repeat' first
    | with_reducible assumption
    | with_reducible apply KeepsO.next
    | with_reducible apply KeepsO.ite
    | with_reducible apply Keeps.ite
    | with_reducible apply sendAck_keeps
    | with_reducible apply updCtx_keeps
    | with_reducible exact Part.sub_trans hw (by decide)
    | split
    | (refine Keeps.mk_of rfl ?_; first | with_reducible assumption | with_reducible apply KeepsO.next | with_reducible apply KeepsO.ite | with_reducible apply Keeps.ite | with_reducible apply sendAck_keeps | with_reducible apply updCtx_keeps | with_reducible exact Part.sub_trans hw (by decide))

theorem freeSession_keeps {ws : List Part} {s₀ s : State} (h₀ : Keeps ws s₀ s) (n : Nat)
    (hw : Part.sub [.counts, .sessions, .closed, .logs, .keyspaces] ws = true) : Keeps ws s₀ (State.freeSession s n) := by
  unfold State.freeSession
  try dsimp only
  repeat' first
    | with_reducible assumption
    | (with_reducible refine Keeps.foldl ?_ (fun _ _ _ => ?_))
    | with_reducible apply journalLate_keeps
    | with_reducible exact Part.sub_trans hw (by decide)
    | split
    | (refine Keeps.mk_of rfl ?_; first | with_reducible assumption | (with_reducible refine Keeps.foldl ?_ (fun _ _ _ => ?_)) | with_reducible apply journalLate_keeps | with_reducible exact Part.sub_trans hw (by decide))

theorem execSessionIdle_keeps {s : State} (session : Nat) :
    KeepsO [.counts, .sessions, .closed, .logs, .keyspaces] s (execSessionIdle session s) := by
  have h₀ := Keeps.refl [.counts, .sessions, .closed, .logs, .keyspaces] s
  have hw : Part.sub [.counts, .sessions, .closed, .logs, .keyspaces] [.counts, .sessions, .closed, .logs, .keyspaces] = true := by decide
  unfold execSessionIdle
  try dsimp only
  repeat' first
    | with_reducible assumption
    | with_reducible apply KeepsO.next
    | with_reducible apply KeepsO.ite
    | with_reducible apply Keeps.ite
    | with_reducible apply freeSession_keeps
    | with_reducible exact Part.sub_trans hw (by decide)
    | split
    | (refine Keeps.mk_of rfl ?_; first | with_reducible assumption | with_reducible apply KeepsO.next | with_reducible apply KeepsO.ite | with_reducible apply Keeps.ite | with_reducible apply freeSession_keeps | with_reducible exact Part.sub_trans hw (by decide))

theorem execSessionFree_keeps {s : State} (session : Nat) :
    KeepsO [.counts, .sessions, .closed, .logs, .keyspaces] s (execSessionFree session s) := by
  have h₀ := Keeps.refl [.counts, .sessions, .closed, .logs, .keyspaces] s
  have hw : Part.sub [.counts, .sessions, .closed, .logs, .keyspaces] [.counts, .sessions, .closed, .logs, .keyspaces] = true := by decide
  unfold execSessionFree
  try dsimp only
  repeat' first
    | with_reducible assumption
    | with_reducible apply KeepsO.next
    | with_reducible apply KeepsO.ite
    | with_reducible apply Keeps.ite
    | with_reducible apply freeSession_keeps
    | with_reducible exact Part.sub_trans hw (by decide)
    | split
    | (refine Keeps.mk_of rfl ?_; first | with_reducible assumption | with_reducible apply KeepsO.next | with_reducible apply KeepsO.ite | with_reducible apply Keeps.ite | with_reducible apply freeSession_keeps | with_reducible exact Part.sub_trans hw (by decide))

theorem claimed_keeps {ws : List Part} {s₀ s : State} (h₀ : Keeps ws s₀ s) (link : Nat) (a : Addr) (mac : Nat)
    (hw : Part.sub [.ports, .sb] ws = true) : Keeps ws s₀ (State.claimed s link a mac) := by
  unfold State.claimed
  try dsimp only
  repeat' first
    | with_reducible assumption
    | with_reducible apply Keeps.ite
    | with_reducible apply portEvent_keeps
    | with_reducible exact Part.sub_trans hw (by decide)
    | split
    | (refine Keeps.mk_of rfl ?_; first | with_reducible assumption | with_reducible apply Keeps.ite | with_reducible apply portEvent_keeps | with_reducible exact Part.sub_trans hw (by decide))

theorem arpNd_keeps {ws : List Part} {s₀ s : State} (h₀ : Keeps ws s₀ s) (link mac : Nat) (x0 : ArpNd)
    (hw : Part.sub [.ports, .nextId, .kept, .held, .sent, .sb] ws = true) : Keeps ws s₀ (State.arpNd s link mac x0) := by
  unfold State.arpNd
  try dsimp only
  repeat' first
    | with_reducible assumption
    | with_reducible apply Keeps.ite
    | with_reducible apply claimed_keeps
    | with_reducible apply sendFrame_keeps
    | with_reducible exact Part.sub_trans hw (by decide)
    | split
    | (refine Keeps.mk_of rfl ?_; first | with_reducible assumption | with_reducible apply Keeps.ite | with_reducible apply claimed_keeps | with_reducible apply sendFrame_keeps | with_reducible exact Part.sub_trans hw (by decide))

theorem icmp_keeps {ws : List Part} {s₀ s : State} (h₀ : Keeps ws s₀ s) (link mac : Nat) (src dst : Addr) (x0 : Icmp)
    (hw : Part.sub [.ports, .nextId, .kept, .held, .sent, .sb] ws = true) : Keeps ws s₀ (State.icmp s link mac src dst x0) := by
  unfold State.icmp
  try dsimp only
  repeat' first
    | with_reducible assumption
    | with_reducible apply arpNd_keeps
    | with_reducible apply sendFrame_keeps
    | with_reducible exact Part.sub_trans hw (by decide)
    | split
    | (refine Keeps.mk_of rfl ?_; first | with_reducible assumption | with_reducible apply arpNd_keeps | with_reducible apply sendFrame_keeps | with_reducible exact Part.sub_trans hw (by decide))

theorem takeCredit_keeps {ws : List Part} {s₀ s : State} (h₀ : Keeps ws s₀ s) (p : Initiator → Bool) (credit : BitVec 16)
    (hw : Part.sub [.relay] ws = true) : Keeps ws s₀ (State.takeCredit s p credit) := by
  unfold State.takeCredit
  try dsimp only
  repeat' first
    | with_reducible assumption
    | split
    | (refine Keeps.mk_of rfl ?_; first | with_reducible assumption)

theorem forwardAcked_keeps {ws : List Part} {s₀ s : State} (h₀ : Keeps ws s₀ s) (sess : Nat) (q : BitVec 32)
    (hw : Part.sub [.relay] ws = true) : Keeps ws s₀ (State.forwardAcked s sess q) := by
  unfold State.forwardAcked
  try dsimp only
  repeat' first
    | with_reducible assumption
    | split
    | (refine Keeps.mk_of rfl ?_; first | with_reducible assumption)

theorem gkp_keeps {ws : List Part} {s₀ s : State} (h₀ : Keeps ws s₀ s) (p : Path) (payload : Bytes)
    (hw : Part.sub [.counts, .ports, .sessions, .ctxs, .nextId, .kept, .held, .sent, .locks, .owners, .keyspaces, .holds, .quince, .pages, .pipes, .queue, .relay, .power, .sb] ws = true) : Keeps ws s₀ (State.gkp s p payload) := by
  unfold State.gkp
  try dsimp only
  repeat' first
    | with_reducible assumption
    | with_reducible apply Keeps.ite
    | with_reducible apply ackArrives_keeps
    | with_reducible apply decide_keeps
    | with_reducible apply discard_keeps
    | with_reducible apply forwardAcked_keeps
    | with_reducible apply openRequest_keeps
    | with_reducible apply sendFrame_keeps
    | with_reducible apply updSession_keeps
    | with_reducible exact Part.sub_trans hw (by decide)
    | with_reducible apply takeCredit_keeps
    | split
    | (refine Keeps.mk_of rfl ?_; first | with_reducible assumption | with_reducible apply takeCredit_keeps | with_reducible apply Keeps.ite | with_reducible apply ackArrives_keeps | with_reducible apply decide_keeps | with_reducible apply discard_keeps | with_reducible apply forwardAcked_keeps | with_reducible apply openRequest_keeps | with_reducible apply sendFrame_keeps | with_reducible apply updSession_keeps | with_reducible exact Part.sub_trans hw (by decide))

theorem ipPayload_keeps {ws : List Part} {s₀ s : State} (h₀ : Keeps ws s₀ s) (link : Nat) (f : Frame) (v6 : Bool) (src dst : Addr) (x0 : IpPayload)
    (hw : Part.sub [.counts, .ports, .sessions, .ctxs, .nextId, .kept, .held, .sent, .locks, .owners, .keyspaces, .holds, .quince, .pages, .pipes, .queue, .relay, .power, .sb] ws = true) : Keeps ws s₀ (State.ipPayload s link f v6 src dst x0) := by
  unfold State.ipPayload
  try dsimp only
  repeat' first
    | with_reducible assumption
    | with_reducible apply Keeps.ite
    | with_reducible apply gkp_keeps
    | with_reducible apply icmp_keeps
    | with_reducible apply portEvent_keeps
    | with_reducible exact Part.sub_trans hw (by decide)
    | split
    | (refine Keeps.mk_of rfl ?_; first | with_reducible assumption | with_reducible apply Keeps.ite | with_reducible apply gkp_keeps | with_reducible apply icmp_keeps | with_reducible apply portEvent_keeps | with_reducible exact Part.sub_trans hw (by decide))

theorem pauseFrame_keeps {ws : List Part} {s₀ s : State} (h₀ : Keeps ws s₀ s) (link quanta : Nat)
    (hw : Part.sub [.ports, .kept, .held, .sent] ws = true) : Keeps ws s₀ (State.pauseFrame s link quanta) := by
  unfold State.pauseFrame
  try dsimp only
  repeat' first
    | with_reducible assumption
    | with_reducible apply Keeps.ite
    | with_reducible apply pause_keeps
    | with_reducible exact Part.sub_trans hw (by decide)
    | split
    | (refine Keeps.mk_of rfl ?_; first | with_reducible assumption | with_reducible apply Keeps.ite | with_reducible apply pause_keeps | with_reducible exact Part.sub_trans hw (by decide))

theorem pfcFrame_keeps {ws : List Part} {s₀ s : State} (h₀ : Keeps ws s₀ s) (link : Nat) (enable : BitVec 8) (quanta : List Nat)
    (hw : Part.sub [.ports, .kept, .held, .sent] ws = true) : Keeps ws s₀ (State.pfcFrame s link enable quanta) := by
  unfold State.pfcFrame
  try dsimp only
  repeat' first
    | with_reducible assumption
    | with_reducible apply Keeps.ite
    | (with_reducible refine Keeps.foldl ?_ (fun _ _ _ => ?_))
    | with_reducible apply pause_keeps
    | with_reducible exact Part.sub_trans hw (by decide)
    | split
    | (refine Keeps.mk_of rfl ?_; first | with_reducible assumption | with_reducible apply Keeps.ite | (with_reducible refine Keeps.foldl ?_ (fun _ _ _ => ?_)) | with_reducible apply pause_keeps | with_reducible exact Part.sub_trans hw (by decide))

theorem frameL3_keeps {ws : List Part} {s₀ s : State} (h₀ : Keeps ws s₀ s) (link : Nat) (f : Frame)
    (hw : Part.sub [.counts, .ports, .sessions, .ctxs, .nextId, .kept, .held, .sent, .locks, .owners, .keyspaces, .holds, .quince, .pages, .pipes, .queue, .relay, .power, .sb] ws = true) : Keeps ws s₀ (State.frameL3 s link f) := by
  unfold State.frameL3
  try dsimp only
  repeat' first
    | with_reducible assumption
    | with_reducible apply Keeps.ite
    | with_reducible apply arpNd_keeps
    | with_reducible apply icmp_keeps
    | with_reducible apply ipPayload_keeps
    | with_reducible apply pause_keeps
    | with_reducible apply pauseFrame_keeps
    | with_reducible apply pfcFrame_keeps
    | with_reducible apply portEvent_keeps
    | with_reducible apply wake_keeps
    | with_reducible exact Part.sub_trans hw (by decide)
    | split
    | (refine Keeps.mk_of rfl ?_; first | with_reducible assumption | with_reducible apply Keeps.ite | with_reducible apply arpNd_keeps | with_reducible apply icmp_keeps | with_reducible apply ipPayload_keeps | with_reducible apply pause_keeps | with_reducible apply pauseFrame_keeps | with_reducible apply pfcFrame_keeps | with_reducible apply portEvent_keeps | with_reducible apply wake_keeps | with_reducible exact Part.sub_trans hw (by decide))

theorem execFrameReceive_keeps {s : State} (link : Nat) (frame : Frame) :
    KeepsO [.counts, .ports, .sessions, .ctxs, .nextId, .kept, .held, .sent, .locks, .marks, .logs, .owners, .keyspaces, .holds, .quince, .pages, .pipes, .queue, .relay, .power, .sb] s (execFrameReceive link frame s) := by
  have h₀ := Keeps.refl [.counts, .ports, .sessions, .ctxs, .nextId, .kept, .held, .sent, .locks, .marks, .logs, .owners, .keyspaces, .holds, .quince, .pages, .pipes, .queue, .relay, .power, .sb] s
  have hw : Part.sub [.counts, .ports, .sessions, .ctxs, .nextId, .kept, .held, .sent, .locks, .marks, .logs, .owners, .keyspaces, .holds, .quince, .pages, .pipes, .queue, .relay, .power, .sb] [.counts, .ports, .sessions, .ctxs, .nextId, .kept, .held, .sent, .locks, .marks, .logs, .owners, .keyspaces, .holds, .quince, .pages, .pipes, .queue, .relay, .power, .sb] = true := by decide
  unfold execFrameReceive
  try dsimp only
  repeat' first
    | with_reducible assumption
    | with_reducible apply KeepsO.next
    | with_reducible apply KeepsO.ite
    | with_reducible apply Keeps.ite
    | with_reducible apply frameL3_keeps
    | with_reducible apply portEvent_keeps
    | with_reducible apply watch_keeps
    | with_reducible exact Part.sub_trans hw (by decide)
    | split
    | (refine Keeps.mk_of rfl ?_; first | with_reducible assumption | with_reducible apply KeepsO.next | with_reducible apply KeepsO.ite | with_reducible apply Keeps.ite | with_reducible apply frameL3_keeps | with_reducible apply portEvent_keeps | with_reducible apply watch_keeps | with_reducible exact Part.sub_trans hw (by decide))

end Sys2Proof.Machine
end

