-- ==== Sys2Proof/Laws/KeepsCoherence.lean ====
section
/-! SUPPORT. Which parts of the state each operation of Machine/Coherence.lean may change. -/

set_option Elab.async false

namespace Sys2Proof.Machine

theorem homes_keeps {ws : List Part} {s₀ s : State} (h₀ : Keeps ws s₀ s) (c : Coherence)
    (hw : Part.sub [.coh] ws = true) : Keeps ws s₀ (State.homes s c) := by
  unfold State.homes
  try dsimp only
  repeat' first
    | with_reducible assumption
    | split
    | (refine Keeps.mk_of rfl ?_; first | with_reducible assumption)

theorem cohWrite_keeps {ws : List Part} {s₀ s : State} (h₀ : Keeps ws s₀ s) (slice bucket : Nat)
    (hw : Part.sub [.coh] ws = true) : Keeps ws s₀ (State.cohWrite s slice bucket) := by
  unfold State.cohWrite
  try dsimp only
  repeat' first
    | with_reducible assumption
    | (with_reducible refine Keeps.foldl ?_ (fun _ _ _ => ?_))
    | split
    | (refine Keeps.mk_of rfl ?_; first | with_reducible assumption | (with_reducible refine Keeps.foldl ?_ (fun _ _ _ => ?_)))

theorem request_keeps {ws : List Part} {s₀ s : State} (h₀ : Keeps ws s₀ s) (slice bucket : Nat) (excl : Bool)
    (hw : Part.sub [.coh] ws = true) : Keeps ws s₀ (State.request s slice bucket excl) := by
  unfold State.request
  try dsimp only
  repeat' first
    | with_reducible assumption
    | with_reducible apply Keeps.ite
    | with_reducible apply homes_keeps
    | with_reducible exact Part.sub_trans hw (by decide)
    | split
    | (refine Keeps.mk_of rfl ?_; first | with_reducible assumption | with_reducible apply Keeps.ite | with_reducible apply homes_keeps | with_reducible exact Part.sub_trans hw (by decide))

theorem execReadS_keeps {s : State} (slice bucket : Nat) :
    KeepsO [.coh] s (execReadS slice bucket s) := by
  have h₀ := Keeps.refl [.coh] s
  have hw : Part.sub [.coh] [.coh] = true := by decide
  unfold execReadS
  try dsimp only
  repeat' first
    | with_reducible assumption
    | with_reducible apply KeepsO.next
    | with_reducible apply KeepsO.ite
    | with_reducible apply request_keeps
    | with_reducible exact Part.sub_trans hw (by decide)
    | split
    | (refine Keeps.mk_of rfl ?_; first | with_reducible assumption | with_reducible apply KeepsO.next | with_reducible apply KeepsO.ite | with_reducible apply request_keeps | with_reducible exact Part.sub_trans hw (by decide))

theorem execReadE_keeps {s : State} (slice bucket : Nat) :
    KeepsO [.coh] s (execReadE slice bucket s) := by
  have h₀ := Keeps.refl [.coh] s
  have hw : Part.sub [.coh] [.coh] = true := by decide
  unfold execReadE
  try dsimp only
  repeat' first
    | with_reducible assumption
    | with_reducible apply KeepsO.next
    | with_reducible apply KeepsO.ite
    | with_reducible apply request_keeps
    | with_reducible exact Part.sub_trans hw (by decide)
    | split
    | (refine Keeps.mk_of rfl ?_; first | with_reducible assumption | with_reducible apply KeepsO.next | with_reducible apply KeepsO.ite | with_reducible apply request_keeps | with_reducible exact Part.sub_trans hw (by decide))

theorem landBack_keeps {ws : List Part} {s₀ s : State} (h₀ : Keeps ws s₀ s) (w : Nat × Nat × Option Nat)
    (hw : Part.sub [.coh] ws = true) : Keeps ws s₀ (State.landBack s w) := by
  unfold State.landBack
  try dsimp only
  repeat' first
    | with_reducible assumption
    | with_reducible apply Keeps.ite
    | with_reducible apply homes_keeps
    | with_reducible exact Part.sub_trans hw (by decide)
    | split
    | (refine Keeps.mk_of rfl ?_; first | with_reducible assumption | with_reducible apply Keeps.ite | with_reducible apply homes_keeps | with_reducible exact Part.sub_trans hw (by decide))

theorem execWriteBack_keeps {s : State} (slice bucket : Nat) :
    KeepsO [.coh] s (execWriteBack slice bucket s) := by
  have h₀ := Keeps.refl [.coh] s
  have hw : Part.sub [.coh] [.coh] = true := by decide
  unfold execWriteBack
  try dsimp only
  repeat' first
    | with_reducible assumption
    | with_reducible apply KeepsO.next
    | with_reducible apply KeepsO.ite
    | with_reducible apply Keeps.ite
    | with_reducible apply landBack_keeps
    | with_reducible exact Part.sub_trans hw (by decide)
    | split
    | (refine Keeps.mk_of rfl ?_; first | with_reducible assumption | with_reducible apply KeepsO.next | with_reducible apply KeepsO.ite | with_reducible apply Keeps.ite | with_reducible apply landBack_keeps | with_reducible exact Part.sub_trans hw (by decide))

theorem execWriteBackClean_keeps {s : State} (slice bucket : Nat) :
    KeepsO [.coh] s (execWriteBackClean slice bucket s) := by
  have h₀ := Keeps.refl [.coh] s
  have hw : Part.sub [.coh] [.coh] = true := by decide
  unfold execWriteBackClean
  try dsimp only
  repeat' first
    | with_reducible assumption
    | with_reducible apply KeepsO.next
    | with_reducible apply KeepsO.ite
    | with_reducible apply Keeps.ite
    | with_reducible apply landBack_keeps
    | with_reducible exact Part.sub_trans hw (by decide)
    | split
    | (refine Keeps.mk_of rfl ?_; first | with_reducible assumption | with_reducible apply KeepsO.next | with_reducible apply KeepsO.ite | with_reducible apply Keeps.ite | with_reducible apply landBack_keeps | with_reducible exact Part.sub_trans hw (by decide))

theorem execEvict_keeps {s : State} (slice bucket : Nat) :
    KeepsO [.coh] s (execEvict slice bucket s) := by
  have h₀ := Keeps.refl [.coh] s
  have hw : Part.sub [.coh] [.coh] = true := by decide
  unfold execEvict
  try dsimp only
  repeat' first
    | with_reducible assumption
    | with_reducible apply KeepsO.next
    | with_reducible apply KeepsO.ite
    | with_reducible apply Keeps.ite
    | split
    | (refine Keeps.mk_of rfl ?_; first | with_reducible assumption | with_reducible apply KeepsO.next | with_reducible apply KeepsO.ite | with_reducible apply Keeps.ite)

theorem snoop_keeps {ws : List Part} {s₀ s : State} (h₀ : Keeps ws s₀ s) (slice bucket : Nat) (inv : Bool)
    (hw : Part.sub [.coh] ws = true) : Keeps ws s₀ (State.snoop s slice bucket inv) := by
  unfold State.snoop
  try dsimp only
  repeat' first
    | with_reducible assumption
    | with_reducible apply Keeps.ite
    | split
    | (refine Keeps.mk_of rfl ?_; first | with_reducible assumption | with_reducible apply Keeps.ite)

theorem execSnoopInv_keeps {s : State} (slice bucket : Nat) :
    KeepsO [.coh] s (execSnoopInv slice bucket s) := by
  have h₀ := Keeps.refl [.coh] s
  have hw : Part.sub [.coh] [.coh] = true := by decide
  unfold execSnoopInv
  try dsimp only
  repeat' first
    | with_reducible assumption
    | with_reducible apply KeepsO.next
    | with_reducible apply KeepsO.ite
    | with_reducible apply snoop_keeps
    | with_reducible exact Part.sub_trans hw (by decide)
    | split
    | (refine Keeps.mk_of rfl ?_; first | with_reducible assumption | with_reducible apply KeepsO.next | with_reducible apply KeepsO.ite | with_reducible apply snoop_keeps | with_reducible exact Part.sub_trans hw (by decide))

theorem execSnoopFetch_keeps {s : State} (slice bucket : Nat) :
    KeepsO [.coh] s (execSnoopFetch slice bucket s) := by
  have h₀ := Keeps.refl [.coh] s
  have hw : Part.sub [.coh] [.coh] = true := by decide
  unfold execSnoopFetch
  try dsimp only
  repeat' first
    | with_reducible assumption
    | with_reducible apply KeepsO.next
    | with_reducible apply KeepsO.ite
    | with_reducible apply snoop_keeps
    | with_reducible exact Part.sub_trans hw (by decide)
    | split
    | (refine Keeps.mk_of rfl ?_; first | with_reducible assumption | with_reducible apply KeepsO.next | with_reducible apply KeepsO.ite | with_reducible apply snoop_keeps | with_reducible exact Part.sub_trans hw (by decide))

theorem snoopAnswer_keeps {ws : List Part} {s₀ s : State} (h₀ : Keeps ws s₀ s) (a : Nat × Nat × Option (Option Nat))
    (hw : Part.sub [.coh] ws = true) : Keeps ws s₀ (State.snoopAnswer s a) := by
  unfold State.snoopAnswer
  try dsimp only
  repeat' first
    | with_reducible assumption
    | with_reducible apply Keeps.ite
    | with_reducible apply homes_keeps
    | with_reducible exact Part.sub_trans hw (by decide)
    | split
    | (refine Keeps.mk_of rfl ?_; first | with_reducible assumption | with_reducible apply Keeps.ite | with_reducible apply homes_keeps | with_reducible exact Part.sub_trans hw (by decide))

theorem execPresentClean_keeps {s : State} (slice bucket : Nat) :
    KeepsO [.coh] s (execPresentClean slice bucket s) := by
  have h₀ := Keeps.refl [.coh] s
  have hw : Part.sub [.coh] [.coh] = true := by decide
  unfold execPresentClean
  try dsimp only
  repeat' first
    | with_reducible assumption
    | with_reducible apply KeepsO.next
    | with_reducible apply KeepsO.ite
    | with_reducible apply snoopAnswer_keeps
    | with_reducible exact Part.sub_trans hw (by decide)
    | split
    | (refine Keeps.mk_of rfl ?_; first | with_reducible assumption | with_reducible apply KeepsO.next | with_reducible apply KeepsO.ite | with_reducible apply snoopAnswer_keeps | with_reducible exact Part.sub_trans hw (by decide))

theorem execPresentData_keeps {s : State} (slice bucket : Nat) :
    KeepsO [.coh] s (execPresentData slice bucket s) := by
  have h₀ := Keeps.refl [.coh] s
  have hw : Part.sub [.coh] [.coh] = true := by decide
  unfold execPresentData
  try dsimp only
  repeat' first
    | with_reducible assumption
    | with_reducible apply KeepsO.next
    | with_reducible apply KeepsO.ite
    | with_reducible apply snoopAnswer_keeps
    | with_reducible exact Part.sub_trans hw (by decide)
    | split
    | (refine Keeps.mk_of rfl ?_; first | with_reducible assumption | with_reducible apply KeepsO.next | with_reducible apply KeepsO.ite | with_reducible apply snoopAnswer_keeps | with_reducible exact Part.sub_trans hw (by decide))

theorem execNotPresent_keeps {s : State} (slice bucket : Nat) :
    KeepsO [.coh] s (execNotPresent slice bucket s) := by
  have h₀ := Keeps.refl [.coh] s
  have hw : Part.sub [.coh] [.coh] = true := by decide
  unfold execNotPresent
  try dsimp only
  repeat' first
    | with_reducible assumption
    | with_reducible apply KeepsO.next
    | with_reducible apply KeepsO.ite
    | with_reducible apply snoopAnswer_keeps
    | with_reducible exact Part.sub_trans hw (by decide)
    | split
    | (refine Keeps.mk_of rfl ?_; first | with_reducible assumption | with_reducible apply KeepsO.next | with_reducible apply KeepsO.ite | with_reducible apply snoopAnswer_keeps | with_reducible exact Part.sub_trans hw (by decide))

end Sys2Proof.Machine
end

