-- ==== Sys2Proof/Laws/KeepsPath.lean ====
section
/-! SUPPORT. Which parts of the state each operation of Machine/Path.lean may change. -/

set_option Elab.async false

namespace Sys2Proof.Machine

theorem decideReply_keeps {ws : List Part} {s₀ s : State} (h₀ : Keeps ws s₀ s) (c : Nat) (r : Reply)
    (hw : Part.sub [.ctxs] ws = true) : Keeps ws s₀ (State.decideReply s c r) := by
  unfold State.decideReply
  try dsimp only
  repeat' first
    | with_reducible assumption
    | with_reducible apply updCtx_keeps
    | with_reducible exact Part.sub_trans hw (by decide)
    | split
    | (refine Keeps.mk_of rfl ?_; first | with_reducible assumption | with_reducible apply updCtx_keeps | with_reducible exact Part.sub_trans hw (by decide))

theorem noteLookup_keeps {ws : List Part} {s₀ s : State} (h₀ : Keeps ws s₀ s) (ks : Nat) (fp : BitVec 128) (e : Option Entry)
    (hw : Part.sub [.quince] ws = true) : Keeps ws s₀ (State.noteLookup s ks fp e) := by
  unfold State.noteLookup
  try dsimp only
  repeat' first
    | with_reducible assumption
    | with_reducible apply Keeps.ite
    | with_reducible apply qEnter_keeps
    | with_reducible exact Part.sub_trans hw (by decide)
    | split
    | (refine Keeps.mk_of rfl ?_; first | with_reducible assumption | with_reducible apply Keeps.ite | with_reducible apply qEnter_keeps | with_reducible exact Part.sub_trans hw (by decide))

theorem grantGet_keeps {ws : List Part} {s₀ s : State} (h₀ : Keeps ws s₀ s) (x : Ctx)
    (hw : Part.sub [.ctxs] ws = true) : Keeps ws s₀ (State.grantGet s x) := by
  unfold State.grantGet
  try dsimp only
  repeat' first
    | with_reducible assumption
    | with_reducible apply Keeps.ite
    | (with_reducible refine Keeps.foldl ?_ (fun _ _ _ => ?_))
    | with_reducible apply decideReply_keeps
    | with_reducible apply updCtx_keeps
    | with_reducible exact Part.sub_trans hw (by decide)
    | split
    | (refine Keeps.mk_of rfl ?_; first | with_reducible assumption | with_reducible apply Keeps.ite | (with_reducible refine Keeps.foldl ?_ (fun _ _ _ => ?_)) | with_reducible apply decideReply_keeps | with_reducible apply updCtx_keeps | with_reducible exact Part.sub_trans hw (by decide))

theorem grantHead_keeps {ws : List Part} {s₀ s : State} (h₀ : Keeps ws s₀ s) (x : Ctx)
    (hw : Part.sub [.ctxs] ws = true) : Keeps ws s₀ (State.grantHead s x) := by
  unfold State.grantHead
  try dsimp only
  repeat' first
    | with_reducible assumption
    | with_reducible apply Keeps.ite
    | with_reducible apply decideReply_keeps
    | with_reducible exact Part.sub_trans hw (by decide)
    | split
    | (refine Keeps.mk_of rfl ?_; first | with_reducible assumption | with_reducible apply Keeps.ite | with_reducible apply decideReply_keeps | with_reducible exact Part.sub_trans hw (by decide))

theorem grantVersions_keeps {ws : List Part} {s₀ s : State} (h₀ : Keeps ws s₀ s) (x : Ctx)
    (hw : Part.sub [.ctxs] ws = true) : Keeps ws s₀ (State.grantVersions s x) := by
  unfold State.grantVersions
  try dsimp only
  repeat' first
    | with_reducible assumption
    | with_reducible apply Keeps.ite
    | with_reducible apply decideReply_keeps
    | with_reducible apply updCtx_keeps
    | with_reducible exact Part.sub_trans hw (by decide)
    | split
    | (refine Keeps.mk_of rfl ?_; first | with_reducible assumption | with_reducible apply Keeps.ite | with_reducible apply decideReply_keeps | with_reducible apply updCtx_keeps | with_reducible exact Part.sub_trans hw (by decide))

theorem program_keeps {ws : List Part} {s₀ s : State} (h : Keeps ws s₀ s) (x : Ctx) (k : Keyspace) (hw : Part.sub [.counts, .ctxs, .owners, .groups, .extents, .fineNext, .mapLog] ws = true) :
    Keeps ws s₀ (State.program s x k) := by
  unfold State.program
  dsimp only
  split
  · exact toPhase_keeps h _ _ (Part.sub_trans hw (by decide))
  · rename_i t g a l e
    have ht : Keeps ws s₀ t := by
      split at e
      · rename_i e'
        injection e with e
        subst e
        exact takeSlots_keeps h e' (Part.sub_trans hw (by decide))
      · split at e
        · exact takeSlots_keeps h e (Part.sub_trans hw (by decide))
        · cases e
    exact updCtx_keeps (updOwner_keeps ht _ _ (Part.sub_trans hw (by decide))) _ _ (Part.sub_trans hw (by decide))

theorem proceed_keeps {ws : List Part} {s₀ s : State} (h₀ : Keeps ws s₀ s) (x : Ctx)
    (hw : Part.sub [.counts, .ports, .sessions, .ctxs, .nextId, .kept, .held, .sent, .locks, .owners, .keyspaces, .groups, .extents, .fineNext, .mapLog, .quince, .pages, .pipes, .queue, .relay, .power, .sb] ws = true) : Keeps ws s₀ (State.proceed s x) := by
  unfold State.proceed
  try dsimp only
  repeat' first
    | with_reducible assumption
    | with_reducible apply Keeps.ite
    | with_reducible apply endCmd_keeps
    | with_reducible apply endStatus_keeps
    | with_reducible apply program_keeps
    | with_reducible apply toPhase_keeps
    | with_reducible exact Part.sub_trans hw (by decide)
    | split
    | (refine Keeps.mk_of rfl ?_; first | with_reducible assumption | with_reducible apply Keeps.ite | with_reducible apply endCmd_keeps | with_reducible apply endStatus_keeps | with_reducible apply program_keeps | with_reducible apply toPhase_keeps | with_reducible exact Part.sub_trans hw (by decide))

theorem grantWrite_keeps {ws : List Part} {s₀ s : State} (h₀ : Keeps ws s₀ s) (x : Ctx)
    (hw : Part.sub [.counts, .ports, .sessions, .ctxs, .nextId, .kept, .held, .sent, .locks, .logs, .owners, .keyspaces, .groups, .extents, .fineNext, .heat, .mapLog, .quince, .pages, .pipes, .queue, .relay, .power, .sb, .dbg] ws = true) : Keeps ws s₀ (State.grantWrite s x) := by
  unfold State.grantWrite
  try dsimp only
  repeat' first
    | with_reducible assumption
    | with_reducible apply Keeps.ite
    | with_reducible apply endCmd_keeps
    | with_reducible apply endStatus_keeps
    | with_reducible apply heatUp_keeps
    | with_reducible apply logEvent_keeps
    | with_reducible apply proceed_keeps
    | with_reducible apply qTentative_keeps
    | with_reducible apply updCtx_keeps
    | with_reducible exact Part.sub_trans hw (by decide)
    | split
    | (refine Keeps.mk_of rfl ?_; first | with_reducible assumption | with_reducible apply Keeps.ite | with_reducible apply endCmd_keeps | with_reducible apply endStatus_keeps | with_reducible apply heatUp_keeps | with_reducible apply logEvent_keeps | with_reducible apply proceed_keeps | with_reducible apply qTentative_keeps | with_reducible apply updCtx_keeps | with_reducible exact Part.sub_trans hw (by decide))

theorem granted_keeps {ws : List Part} {s₀ s : State} (h₀ : Keeps ws s₀ s) (x : Ctx)
    (hw : Part.sub [.counts, .ports, .sessions, .ctxs, .nextId, .kept, .held, .sent, .locks, .logs, .owners, .keyspaces, .groups, .extents, .fineNext, .heat, .mapLog, .quince, .pages, .pipes, .queue, .relay, .power, .sb, .dbg] ws = true) : Keeps ws s₀ (State.granted s x) := by
  unfold State.granted
  try dsimp only
  repeat' first
    | with_reducible assumption
    | with_reducible apply Keeps.ite
    | with_reducible apply grantGet_keeps
    | with_reducible apply grantHead_keeps
    | with_reducible apply grantVersions_keeps
    | with_reducible apply grantWrite_keeps
    | with_reducible apply noteLookup_keeps
    | with_reducible exact Part.sub_trans hw (by decide)
    | split
    | (refine Keeps.mk_of rfl ?_; first | with_reducible assumption | with_reducible apply Keeps.ite | with_reducible apply grantGet_keeps | with_reducible apply grantHead_keeps | with_reducible apply grantVersions_keeps | with_reducible apply grantWrite_keeps | with_reducible apply noteLookup_keeps | with_reducible exact Part.sub_trans hw (by decide))

theorem settleN_keeps {ws : List Part} {s₀ s : State} (h : Keeps ws s₀ s) (fuel : Nat) (hw : Part.sub [.counts, .ports, .sessions, .ctxs, .nextId, .kept, .held, .sent, .locks, .logs, .owners, .keyspaces, .groups, .extents, .fineNext, .heat, .mapLog, .quince, .pages, .pipes, .queue, .relay, .power, .sb, .dbg] ws = true) :
    Keeps ws s₀ (State.settleN fuel s) := by
  induction fuel generalizing s with
  | zero => exact h
  | succ n ih =>
    unfold State.settleN
    split
    · exact ih (granted_keeps h _ (Part.sub_trans hw (by decide)))
    · exact h

theorem settle_keeps {ws : List Part} {s₀ s : State} (h₀ : Keeps ws s₀ s) 
    (hw : Part.sub [.counts, .ports, .sessions, .ctxs, .nextId, .kept, .held, .sent, .locks, .marks, .logs, .owners, .keyspaces, .groups, .extents, .fineNext, .heat, .mapLog, .quince, .pages, .pipes, .queue, .relay, .power, .sb, .dbg] ws = true) : Keeps ws s₀ (State.settle s) := by
  unfold State.settle
  try dsimp only
  repeat' first
    | with_reducible assumption
    | with_reducible apply settleN_keeps
    | with_reducible apply watch_keeps
    | with_reducible exact Part.sub_trans hw (by decide)
    | split
    | (refine Keeps.mk_of rfl ?_; first | with_reducible assumption | with_reducible apply settleN_keeps | with_reducible apply watch_keeps | with_reducible exact Part.sub_trans hw (by decide))

theorem retrySpace_keeps {ws : List Part} {s₀ s : State} (h₀ : Keeps ws s₀ s) 
    (hw : Part.sub [.counts, .ports, .sessions, .ctxs, .nextId, .kept, .held, .sent, .locks, .owners, .keyspaces, .groups, .extents, .fineNext, .mapLog, .quince, .pages, .pipes, .queue, .relay, .power, .sb] ws = true) : Keeps ws s₀ (State.retrySpace s) := by
  unfold State.retrySpace
  try dsimp only
  repeat' first
    | with_reducible assumption
    | (with_reducible refine Keeps.foldl ?_ (fun _ _ _ => ?_))
    | with_reducible apply proceed_keeps
    | with_reducible exact Part.sub_trans hw (by decide)
    | split
    | (refine Keeps.mk_of rfl ?_; first | with_reducible assumption | (with_reducible refine Keeps.foldl ?_ (fun _ _ _ => ?_)) | with_reducible apply proceed_keeps | with_reducible exact Part.sub_trans hw (by decide))

theorem finishRead_keeps {ws : List Part} {s₀ s : State} (h₀ : Keeps ws s₀ s) (x : Ctx)
    (hw : Part.sub [.counts, .ctxs, .logs, .cache, .dbg] ws = true) : Keeps ws s₀ (State.finishRead s x) := by
  unfold State.finishRead
  try dsimp only
  repeat' first
    | with_reducible assumption
    | with_reducible apply Keeps.ite
    | (with_reducible refine Keeps.foldl ?_ (fun _ _ _ => ?_))
    | with_reducible apply cachePut_keeps
    | with_reducible apply decideReply_keeps
    | with_reducible apply digestEvent_keeps
    | with_reducible apply updCtx_keeps
    | with_reducible exact Part.sub_trans hw (by decide)
    | split
    | (refine Keeps.mk_of rfl ?_; first | with_reducible assumption | with_reducible apply Keeps.ite | (with_reducible refine Keeps.foldl ?_ (fun _ _ _ => ?_)) | with_reducible apply cachePut_keeps | with_reducible apply decideReply_keeps | with_reducible apply digestEvent_keeps | with_reducible apply updCtx_keeps | with_reducible exact Part.sub_trans hw (by decide))

theorem readAll_keeps {ws : List Part} {s₀ s : State} (h : Keeps ws s₀ s) (x : Ctx) (o : ReadOutcome) (hw : Part.sub [.counts, .logs, .recs, .groups, .dbg] ws = true) :
    Keeps ws s₀ (State.readAll s x o).2 := by
  unfold State.readAll
  have key : ∀ (l : List (Nat × Nat × Nat)) (a : Bool × State), Keeps ws s₀ a.2 → Keeps ws s₀ (l.foldl (fun a p =>
      match a.2.rec? p.1 with
      | none => a
      | some r =>
        let q := a.2.readRec r o
        (a.1 && q.1, if q.1 then q.2 else q.2.poisonRec p.1)) a).2 := by
    intro l
    induction l with
    | nil => exact fun a ha => ha
    | cons p l ih =>
      intro a ha
      rw [List.foldl_cons]
      apply ih
      split
      · exact ha
      · dsimp only
        split
        · exact readRec_keeps ha _ _ (Part.sub_trans hw (by decide))
        · exact poisonRec_keeps (readRec_keeps ha _ _ (Part.sub_trans hw (by decide))) _ (Part.sub_trans hw (by decide))
  exact key _ _ h

theorem execPageReadComplete_keeps {s : State} (c : Nat) (outcome : ReadOutcome) :
    KeepsO [.counts, .ports, .sessions, .ctxs, .nextId, .kept, .held, .sent, .locks, .logs, .owners, .keyspaces, .recs, .groups, .extents, .fineNext, .heat, .cache, .mapLog, .quince, .pages, .pipes, .queue, .relay, .power, .sb, .dbg] s (execPageReadComplete c outcome s) := by
  have h₀ := Keeps.refl [.counts, .ports, .sessions, .ctxs, .nextId, .kept, .held, .sent, .locks, .logs, .owners, .keyspaces, .recs, .groups, .extents, .fineNext, .heat, .cache, .mapLog, .quince, .pages, .pipes, .queue, .relay, .power, .sb, .dbg] s
  have hw : Part.sub [.counts, .ports, .sessions, .ctxs, .nextId, .kept, .held, .sent, .locks, .logs, .owners, .keyspaces, .recs, .groups, .extents, .fineNext, .heat, .cache, .mapLog, .quince, .pages, .pipes, .queue, .relay, .power, .sb, .dbg] [.counts, .ports, .sessions, .ctxs, .nextId, .kept, .held, .sent, .locks, .logs, .owners, .keyspaces, .recs, .groups, .extents, .fineNext, .heat, .cache, .mapLog, .quince, .pages, .pipes, .queue, .relay, .power, .sb, .dbg] = true := by decide
  unfold execPageReadComplete
  try dsimp only
  repeat' first
    | with_reducible assumption
    | with_reducible apply KeepsO.next
    | with_reducible apply KeepsO.ite
    | with_reducible apply Keeps.ite
    | with_reducible apply decideReply_keeps
    | with_reducible apply finishRead_keeps
    | with_reducible apply granted_keeps
    | with_reducible apply readAll_keeps
    | with_reducible apply toPhase_keeps
    | with_reducible apply updCtx_keeps
    | with_reducible apply updOwner_keeps
    | with_reducible exact Part.sub_trans hw (by decide)
    | split
    | (refine Keeps.mk_of rfl ?_; first | with_reducible assumption | with_reducible apply KeepsO.next | with_reducible apply KeepsO.ite | with_reducible apply Keeps.ite | with_reducible apply decideReply_keeps | with_reducible apply finishRead_keeps | with_reducible apply granted_keeps | with_reducible apply readAll_keeps | with_reducible apply toPhase_keeps | with_reducible apply updCtx_keeps | with_reducible apply updOwner_keeps | with_reducible exact Part.sub_trans hw (by decide))

theorem sealWrite_keeps {ws : List Part} {s₀ s : State} (h₀ : Keeps ws s₀ s) (x : Ctx)
    (hw : Part.sub [.counts, .ports, .sessions, .ctxs, .nextId, .kept, .held, .sent, .locks, .owners, .keyspaces, .groups, .extents, .fineNext, .mapLog, .quince, .pages, .pipes, .queue, .relay, .power, .sb] ws = true) : Keeps ws s₀ (State.sealWrite s x) := by
  unfold State.sealWrite
  try dsimp only
  repeat' first
    | with_reducible assumption
    | with_reducible apply endStatus_keeps
    | with_reducible apply program_keeps
    | with_reducible apply updCtx_keeps
    | with_reducible exact Part.sub_trans hw (by decide)
    | split
    | (refine Keeps.mk_of rfl ?_; first | with_reducible assumption | with_reducible apply endStatus_keeps | with_reducible apply program_keeps | with_reducible apply updCtx_keeps | with_reducible exact Part.sub_trans hw (by decide))

theorem execCipherJobArrive_keeps {s : State} (job : JobOf) :
    KeepsO [.counts, .ports, .sessions, .ctxs, .nextId, .kept, .held, .sent, .marks, .logs, .keyspaces, .pages, .pipes, .queue, .power, .sb] s (execCipherJobArrive job s) := by
  have h₀ := Keeps.refl [.counts, .ports, .sessions, .ctxs, .nextId, .kept, .held, .sent, .marks, .logs, .keyspaces, .pages, .pipes, .queue, .power, .sb] s
  have hw : Part.sub [.counts, .ports, .sessions, .ctxs, .nextId, .kept, .held, .sent, .marks, .logs, .keyspaces, .pages, .pipes, .queue, .power, .sb] [.counts, .ports, .sessions, .ctxs, .nextId, .kept, .held, .sent, .marks, .logs, .keyspaces, .pages, .pipes, .queue, .power, .sb] = true := by decide
  unfold execCipherJobArrive
  try dsimp only
  repeat' first
    | with_reducible assumption
    | with_reducible apply KeepsO.next
    | with_reducible apply KeepsO.ite
    | with_reducible apply Keeps.ite
    | with_reducible apply jobArrive_keeps
    | with_reducible apply watch_keeps
    | with_reducible exact Part.sub_trans hw (by decide)
    | split
    | (refine Keeps.mk_of rfl ?_; first | with_reducible assumption | with_reducible apply KeepsO.next | with_reducible apply KeepsO.ite | with_reducible apply Keeps.ite | with_reducible apply jobArrive_keeps | with_reducible apply watch_keeps | with_reducible exact Part.sub_trans hw (by decide))

theorem execCipherJobEnd_keeps {s : State} (pipe : Nat) :
    KeepsO [.counts, .ports, .sessions, .ctxs, .nextId, .kept, .held, .sent, .locks, .marks, .logs, .owners, .keyspaces, .groups, .extents, .fineNext, .heat, .cache, .mapLog, .quince, .pages, .pipes, .queue, .relay, .power, .sb, .dbg] s (execCipherJobEnd pipe s) := by
  have h₀ := Keeps.refl [.counts, .ports, .sessions, .ctxs, .nextId, .kept, .held, .sent, .locks, .marks, .logs, .owners, .keyspaces, .groups, .extents, .fineNext, .heat, .cache, .mapLog, .quince, .pages, .pipes, .queue, .relay, .power, .sb, .dbg] s
  have hw : Part.sub [.counts, .ports, .sessions, .ctxs, .nextId, .kept, .held, .sent, .locks, .marks, .logs, .owners, .keyspaces, .groups, .extents, .fineNext, .heat, .cache, .mapLog, .quince, .pages, .pipes, .queue, .relay, .power, .sb, .dbg] [.counts, .ports, .sessions, .ctxs, .nextId, .kept, .held, .sent, .locks, .marks, .logs, .owners, .keyspaces, .groups, .extents, .fineNext, .heat, .cache, .mapLog, .quince, .pages, .pipes, .queue, .relay, .power, .sb, .dbg] = true := by decide
  unfold execCipherJobEnd
  try dsimp only
  repeat' first
    | with_reducible assumption
    | with_reducible apply KeepsO.next
    | with_reducible apply KeepsO.ite
    | with_reducible apply Keeps.ite
    | with_reducible apply finishRead_keeps
    | with_reducible apply granted_keeps
    | with_reducible apply nextJob_keeps
    | with_reducible apply sealWrite_keeps
    | with_reducible apply setPipe_keeps
    | with_reducible apply settle_keeps
    | with_reducible exact Part.sub_trans hw (by decide)
    | split
    | (refine Keeps.mk_of rfl ?_; first | with_reducible assumption | with_reducible apply KeepsO.next | with_reducible apply KeepsO.ite | with_reducible apply Keeps.ite | with_reducible apply finishRead_keeps | with_reducible apply granted_keeps | with_reducible apply nextJob_keeps | with_reducible apply sealWrite_keeps | with_reducible apply setPipe_keeps | with_reducible apply settle_keeps | with_reducible exact Part.sub_trans hw (by decide))

theorem dequeue_keeps {ws : List Part} {s₀ s : State} (h₀ : Keeps ws s₀ s) (x : Ctx)
    (hw : Part.sub [.sessions] ws = true) : Keeps ws s₀ (State.dequeue s x) := by
  unfold State.dequeue
  try dsimp only
  repeat' first
    | with_reducible assumption
    | with_reducible apply updSession_keeps
    | with_reducible exact Part.sub_trans hw (by decide)
    | split
    | (refine Keeps.mk_of rfl ?_; first | with_reducible assumption | with_reducible apply updSession_keeps | with_reducible exact Part.sub_trans hw (by decide))

theorem enterMove_keeps {ws : List Part} {s₀ s : State} (h₀ : Keeps ws s₀ s) (kind : MoveKind) (loc : Nat)
    (hw : Part.sub [.locks] ws = true) : Keeps ws s₀ (State.enterMove s kind loc) := by
  unfold State.enterMove
  try dsimp only
  repeat' first
    | with_reducible assumption
    | with_reducible apply Keeps.ite
    | with_reducible apply lockEnter_keeps
    | with_reducible exact Part.sub_trans hw (by decide)
    | split
    | (refine Keeps.mk_of rfl ?_; first | with_reducible assumption | with_reducible apply Keeps.ite | with_reducible apply lockEnter_keeps | with_reducible exact Part.sub_trans hw (by decide))

theorem finishMove_keeps {ws : List Part} {s₀ s : State} (h₀ : Keeps ws s₀ s) (kind : MoveKind) (loc : Nat)
    (hw : Part.sub [.counts, .locks, .entries, .recs, .groups, .extents, .fineNext, .stale, .cache, .logA, .logB, .mapLog, .dirty] ws = true) : Keeps ws s₀ (State.finishMove s kind loc) := by
  unfold State.finishMove
  try dsimp only
  repeat' first
    | with_reducible assumption
    | with_reducible apply Keeps.ite
    | with_reducible apply lockLeave_keeps
    | with_reducible apply relocate_keeps
    | with_reducible exact Part.sub_trans hw (by decide)
    | split
    | (refine Keeps.mk_of rfl ?_; first | with_reducible assumption | with_reducible apply Keeps.ite | with_reducible apply lockLeave_keeps | with_reducible apply relocate_keeps | with_reducible exact Part.sub_trans hw (by decide))

theorem moveNow_keeps {ws : List Part} {s₀ s : State} (h₀ : Keeps ws s₀ s) (kind : MoveKind) (loc : Nat)
    (hw : Part.sub [.counts, .locks, .entries, .recs, .groups, .extents, .fineNext, .stale, .cache, .logA, .logB, .mapLog, .dirty] ws = true) : Keeps ws s₀ (State.moveNow s kind loc) := by
  unfold State.moveNow
  try dsimp only
  repeat' first
    | with_reducible assumption
    | with_reducible apply Keeps.ite
    | with_reducible apply enterMove_keeps
    | with_reducible apply finishMove_keeps
    | with_reducible exact Part.sub_trans hw (by decide)
    | split
    | (refine Keeps.mk_of rfl ?_; first | with_reducible assumption | with_reducible apply Keeps.ite | with_reducible apply enterMove_keeps | with_reducible apply finishMove_keeps | with_reducible exact Part.sub_trans hw (by decide))

theorem execRangeLockEnter_keeps {s : State} (op : LockOp) :
    KeepsO [.counts, .ports, .sessions, .ctxs, .nextId, .kept, .held, .sent, .locks, .marks, .logs, .owners, .keyspaces, .groups, .extents, .fineNext, .heat, .mapLog, .quince, .pages, .pipes, .queue, .relay, .power, .sb, .dbg] s (execRangeLockEnter op s) := by
  have h₀ := Keeps.refl [.counts, .ports, .sessions, .ctxs, .nextId, .kept, .held, .sent, .locks, .marks, .logs, .owners, .keyspaces, .groups, .extents, .fineNext, .heat, .mapLog, .quince, .pages, .pipes, .queue, .relay, .power, .sb, .dbg] s
  have hw : Part.sub [.counts, .ports, .sessions, .ctxs, .nextId, .kept, .held, .sent, .locks, .marks, .logs, .owners, .keyspaces, .groups, .extents, .fineNext, .heat, .mapLog, .quince, .pages, .pipes, .queue, .relay, .power, .sb, .dbg] [.counts, .ports, .sessions, .ctxs, .nextId, .kept, .held, .sent, .locks, .marks, .logs, .owners, .keyspaces, .groups, .extents, .fineNext, .heat, .mapLog, .quince, .pages, .pipes, .queue, .relay, .power, .sb, .dbg] = true := by decide
  unfold execRangeLockEnter
  try dsimp only
  repeat' first
    | with_reducible assumption
    | with_reducible apply KeepsO.next
    | with_reducible apply KeepsO.ite
    | with_reducible apply Keeps.ite
    | with_reducible apply dequeue_keeps
    | with_reducible apply enterMove_keeps
    | with_reducible apply lockEnter_keeps
    | with_reducible apply settle_keeps
    | with_reducible apply toPhase_keeps
    | with_reducible exact Part.sub_trans hw (by decide)
    | split
    | (refine Keeps.mk_of rfl ?_; first | with_reducible assumption | with_reducible apply KeepsO.next | with_reducible apply KeepsO.ite | with_reducible apply Keeps.ite | with_reducible apply dequeue_keeps | with_reducible apply enterMove_keeps | with_reducible apply lockEnter_keeps | with_reducible apply settle_keeps | with_reducible apply toPhase_keeps | with_reducible exact Part.sub_trans hw (by decide))

theorem execRangeLockLeave_keeps {s : State} (op : LockOp) :
    KeepsO [.counts, .ports, .sessions, .ctxs, .nextId, .kept, .held, .sent, .locks, .marks, .logs, .owners, .keyspaces, .entries, .recs, .groups, .extents, .fineNext, .stale, .heat, .cache, .logA, .logB, .mapLog, .dirty, .quince, .pages, .pipes, .queue, .relay, .power, .sb, .dbg] s (execRangeLockLeave op s) := by
  have h₀ := Keeps.refl [.counts, .ports, .sessions, .ctxs, .nextId, .kept, .held, .sent, .locks, .marks, .logs, .owners, .keyspaces, .entries, .recs, .groups, .extents, .fineNext, .stale, .heat, .cache, .logA, .logB, .mapLog, .dirty, .quince, .pages, .pipes, .queue, .relay, .power, .sb, .dbg] s
  have hw : Part.sub [.counts, .ports, .sessions, .ctxs, .nextId, .kept, .held, .sent, .locks, .marks, .logs, .owners, .keyspaces, .entries, .recs, .groups, .extents, .fineNext, .stale, .heat, .cache, .logA, .logB, .mapLog, .dirty, .quince, .pages, .pipes, .queue, .relay, .power, .sb, .dbg] [.counts, .ports, .sessions, .ctxs, .nextId, .kept, .held, .sent, .locks, .marks, .logs, .owners, .keyspaces, .entries, .recs, .groups, .extents, .fineNext, .stale, .heat, .cache, .logA, .logB, .mapLog, .dirty, .quince, .pages, .pipes, .queue, .relay, .power, .sb, .dbg] = true := by decide
  unfold execRangeLockLeave
  try dsimp only
  repeat' first
    | with_reducible assumption
    | with_reducible apply KeepsO.next
    | with_reducible apply KeepsO.ite
    | with_reducible apply Keeps.ite
    | with_reducible apply finishMove_keeps
    | with_reducible apply lockLeave_keeps
    | with_reducible apply settle_keeps
    | with_reducible exact Part.sub_trans hw (by decide)
    | split
    | (refine Keeps.mk_of rfl ?_; first | with_reducible assumption | with_reducible apply KeepsO.next | with_reducible apply KeepsO.ite | with_reducible apply Keeps.ite | with_reducible apply finishMove_keeps | with_reducible apply lockLeave_keeps | with_reducible apply settle_keeps | with_reducible exact Part.sub_trans hw (by decide))

end Sys2Proof.Machine
end

