-- ==== Sys2Proof/Laws/KeepsRelay.lean ====
section
/-! SUPPORT. Which parts of the state each operation of Machine/Relay.lean may change. -/

set_option Elab.async false

namespace Sys2Proof.Machine

theorem grantSlots_keeps {ws : List Part} {s₀ s : State} (h₀ : Keeps ws s₀ s) 
    (hw : Part.sub [.ctxs, .nextId, .relay] ws = true) : Keeps ws s₀ (State.grantSlots s) := by
  unfold State.grantSlots
  try dsimp only
  repeat' first
    | with_reducible assumption
    | with_reducible apply Keeps.ite
    | (with_reducible refine Keeps.foldl ?_ (fun _ _ _ => ?_))
    | with_reducible apply toPhase_keeps
    | with_reducible exact Part.sub_trans hw (by decide)
    | split
    | (refine Keeps.mk_of rfl ?_; first | with_reducible assumption | with_reducible apply Keeps.ite | (with_reducible refine Keeps.foldl ?_ (fun _ _ _ => ?_)) | with_reducible apply toPhase_keeps | with_reducible exact Part.sub_trans hw (by decide))

theorem updSlot_keeps {ws : List Part} {s₀ s : State} (h₀ : Keeps ws s₀ s) (id : Nat) (f : RelaySlot → RelaySlot)
    (hw : Part.sub [.relay] ws = true) : Keeps ws s₀ (State.updSlot s id f) := by
  unfold State.updSlot
  try dsimp only
  repeat' first
    | with_reducible assumption
    | split
    | (refine Keeps.mk_of rfl ?_; first | with_reducible assumption)

theorem initiatorFor_keeps {ws : List Part} {s₀ s : State} (h : Keeps ws s₀ s) (u : Succ) (hw : Part.sub [.rnd, .relay] ws = true) :
    Keeps ws s₀ (State.initiatorFor s u).2 := by
  unfold State.initiatorFor
  split
  · exact h
  · dsimp only
    refine Keeps.mk_of rfl ?_
    exact drawn_keeps (drawn_keeps h (Part.sub_trans hw (by decide))) (Part.sub_trans hw (by decide))

theorem putForward_keeps {ws : List Part} {s₀ s : State} (h₀ : Keeps ws s₀ s) (r : RelaySlot) (route : Nat × Addr)
    (hw : Part.sub [.ports, .nextId, .kept, .held, .sent, .relay] ws = true) : Keeps ws s₀ (State.putForward s r route) := by
  unfold State.putForward
  try dsimp only
  repeat' first
    | with_reducible assumption
    | with_reducible apply sendFrame_keeps
    | with_reducible apply updSlot_keeps
    | with_reducible exact Part.sub_trans hw (by decide)
    | split
    | (refine Keeps.mk_of rfl ?_; first | with_reducible assumption | with_reducible apply sendFrame_keeps | with_reducible apply updSlot_keeps | with_reducible exact Part.sub_trans hw (by decide))

theorem trySend_keeps {ws : List Part} {s₀ s : State} (h₀ : Keeps ws s₀ s) (id : Nat)
    (hw : Part.sub [.rnd, .ports, .nextId, .kept, .held, .sent, .relay] ws = true) : Keeps ws s₀ (State.trySend s id) := by
  unfold State.trySend
  try dsimp only
  repeat' first
    | with_reducible assumption
    | with_reducible apply Keeps.ite
    | with_reducible apply initiatorFor_keeps
    | with_reducible apply putForward_keeps
    | with_reducible apply updSlot_keeps
    | with_reducible exact Part.sub_trans hw (by decide)
    | split
    | (refine Keeps.mk_of rfl ?_; first | with_reducible assumption | with_reducible apply Keeps.ite | with_reducible apply initiatorFor_keeps | with_reducible apply putForward_keeps | with_reducible apply updSlot_keeps | with_reducible exact Part.sub_trans hw (by decide))

theorem pumpSlots_keeps {ws : List Part} {s₀ s : State} (h₀ : Keeps ws s₀ s) 
    (hw : Part.sub [.rnd, .ports, .ctxs, .nextId, .kept, .held, .sent, .relay] ws = true) : Keeps ws s₀ (State.pumpSlots s) := by
  unfold State.pumpSlots
  try dsimp only
  repeat' first
    | with_reducible assumption
    | (with_reducible refine Keeps.foldl ?_ (fun _ _ _ => ?_))
    | with_reducible apply grantSlots_keeps
    | with_reducible apply trySend_keeps
    | with_reducible exact Part.sub_trans hw (by decide)
    | split
    | (refine Keeps.mk_of rfl ?_; first | with_reducible assumption | (with_reducible refine Keeps.foldl ?_ (fun _ _ _ => ?_)) | with_reducible apply grantSlots_keeps | with_reducible apply trySend_keeps | with_reducible exact Part.sub_trans hw (by decide))

theorem activateSlot_keeps {ws : List Part} {s₀ s : State} (h₀ : Keeps ws s₀ s) (c loc stamp : Nat) (seg : Option Seg)
    (hw : Part.sub [.rnd, .ports, .ctxs, .nextId, .kept, .held, .sent, .holds, .relay] ws = true) : Keeps ws s₀ (State.activateSlot s c loc stamp seg) := by
  unfold State.activateSlot
  try dsimp only
  repeat' first
    | with_reducible assumption
    | with_reducible apply pumpSlots_keeps
    | with_reducible exact Part.sub_trans hw (by decide)
    | split
    | (refine Keeps.mk_of rfl ?_; first | with_reducible assumption | with_reducible apply pumpSlots_keeps | with_reducible exact Part.sub_trans hw (by decide))

theorem dropSlot_keeps {ws : List Part} {s₀ s : State} (h₀ : Keeps ws s₀ s) (id : Nat)
    (hw : Part.sub [.holds, .relay] ws = true) : Keeps ws s₀ (State.dropSlot s id) := by
  unfold State.dropSlot
  try dsimp only
  repeat' first
    | with_reducible assumption
    | split
    | (refine Keeps.mk_of rfl ?_; first | with_reducible assumption)

theorem setPair_keeps {ws : List Part} {s₀ s : State} (h₀ : Keeps ws s₀ s) (p : Pair)
    (hw : Part.sub [.relay] ws = true) : Keeps ws s₀ (State.setPair s p) := by
  unfold State.setPair
  try dsimp only
  repeat' first
    | with_reducible assumption
    | split
    | (refine Keeps.mk_of rfl ?_; first | with_reducible assumption)

theorem makeBehind_keeps {ws : List Part} {s₀ s : State} (h₀ : Keeps ws s₀ s) (r : RelaySlot) (u : Succ) (hop : Nat)
    (hw : Part.sub [.counts, .logs, .relay, .dbg] ws = true) : Keeps ws s₀ (State.makeBehind s r u hop) := by
  unfold State.makeBehind
  try dsimp only
  repeat' first
    | with_reducible assumption
    | with_reducible apply Keeps.ite
    | with_reducible apply logEvent_keeps
    | with_reducible apply setPair_keeps
    | with_reducible exact Part.sub_trans hw (by decide)
    | split
    | (refine Keeps.mk_of rfl ?_; first | with_reducible assumption | with_reducible apply Keeps.ite | with_reducible apply logEvent_keeps | with_reducible apply setPair_keeps | with_reducible exact Part.sub_trans hw (by decide))

theorem lateFault_keeps {ws : List Part} {s₀ s : State} (h₀ : Keeps ws s₀ s) (r : RelaySlot) (u : Succ) (reason : Nat)
    (hw : Part.sub [.counts, .ports, .sessions, .nextId, .kept, .held, .sent, .logs, .keyspaces] ws = true) : Keeps ws s₀ (State.lateFault s r u reason) := by
  unfold State.lateFault
  try dsimp only
  repeat' first
    | with_reducible assumption
    | with_reducible apply Keeps.ite
    | with_reducible apply journalLate_keeps
    | with_reducible apply notify_keeps
    | with_reducible exact Part.sub_trans hw (by decide)
    | split
    | (refine Keeps.mk_of rfl ?_; first | with_reducible assumption | with_reducible apply Keeps.ite | with_reducible apply journalLate_keeps | with_reducible apply notify_keeps | with_reducible exact Part.sub_trans hw (by decide))

theorem relayFault_keeps {ws : List Part} {s₀ s : State} (h₀ : Keeps ws s₀ s) (r : RelaySlot) (reason : Nat)
    (hw : Part.sub [.rnd, .counts, .ports, .sessions, .ctxs, .nextId, .kept, .held, .sent, .locks, .logs, .keyspaces, .holds, .quince, .pages, .pipes, .queue, .relay, .power, .sb, .dbg] ws = true) : Keeps ws s₀ (State.relayFault s r reason) := by
  unfold State.relayFault
  try dsimp only
  repeat' first
    | with_reducible assumption
    | with_reducible apply Keeps.ite
    | (with_reducible refine Keeps.foldl ?_ (fun _ _ _ => ?_))
    | with_reducible apply alert_keeps
    | with_reducible apply broadcast_keeps
    | with_reducible apply dropSlot_keeps
    | with_reducible apply endCmd_keeps
    | with_reducible apply lateFault_keeps
    | with_reducible apply logEvent_keeps
    | with_reducible apply makeBehind_keeps
    | with_reducible apply pumpSlots_keeps
    | with_reducible exact Part.sub_trans hw (by decide)
    | split
    | (refine Keeps.mk_of rfl ?_; first | with_reducible assumption | with_reducible apply Keeps.ite | (with_reducible refine Keeps.foldl ?_ (fun _ _ _ => ?_)) | with_reducible apply alert_keeps | with_reducible apply broadcast_keeps | with_reducible apply dropSlot_keeps | with_reducible apply endCmd_keeps | with_reducible apply lateFault_keeps | with_reducible apply logEvent_keeps | with_reducible apply makeBehind_keeps | with_reducible apply pumpSlots_keeps | with_reducible exact Part.sub_trans hw (by decide))

theorem failStuck_keeps {ws : List Part} {s₀ s : State} (h : Keeps ws s₀ s) (fuel : Nat) (hw : Part.sub [.rnd, .counts, .ports, .sessions, .ctxs, .nextId, .kept, .held, .sent, .locks, .logs, .keyspaces, .holds, .quince, .pages, .pipes, .queue, .relay, .power, .sb, .dbg] ws = true) :
    Keeps ws s₀ (State.failStuck fuel s) := by
  induction fuel generalizing s with
  | zero => exact h
  | succ n ih =>
    unfold State.failStuck
    split
    · exact ih (relayFault_keeps h _ _ (Part.sub_trans hw (by decide)))
    · exact h

theorem relaySettle_keeps {ws : List Part} {s₀ s : State} (h₀ : Keeps ws s₀ s) 
    (hw : Part.sub [.rnd, .counts, .ports, .sessions, .ctxs, .nextId, .kept, .held, .sent, .locks, .marks, .logs, .owners, .keyspaces, .groups, .extents, .fineNext, .heat, .holds, .mapLog, .quince, .pages, .pipes, .queue, .relay, .power, .sb, .dbg] ws = true) : Keeps ws s₀ (State.relaySettle s) := by
  unfold State.relaySettle
  try dsimp only
  repeat' first
    | with_reducible assumption
    | with_reducible apply failStuck_keeps
    | with_reducible apply settle_keeps
    | with_reducible exact Part.sub_trans hw (by decide)
    | split
    | (refine Keeps.mk_of rfl ?_; first | with_reducible assumption | with_reducible apply failStuck_keeps | with_reducible apply settle_keeps | with_reducible exact Part.sub_trans hw (by decide))

theorem pairSlot_keeps {ws : List Part} {s₀ s : State} (h₀ : Keeps ws s₀ s) (p : Pair) (opcode loc stamp marker : Nat) (key : Bytes) (fp : BitVec 128) (seg : Option Seg)
    (hw : Part.sub [.rnd, .ports, .nextId, .kept, .held, .sent, .holds, .relay] ws = true) : Keeps ws s₀ (State.pairSlot s p opcode loc stamp marker key fp seg) := by
  unfold State.pairSlot
  try dsimp only
  repeat' first
    | with_reducible assumption
    | with_reducible apply Keeps.ite
    | with_reducible apply trySend_keeps
    | with_reducible exact Part.sub_trans hw (by decide)
    | split
    | (refine Keeps.mk_of rfl ?_; first | with_reducible assumption | with_reducible apply Keeps.ite | with_reducible apply trySend_keeps | with_reducible exact Part.sub_trans hw (by decide))

theorem pairNext_keeps {ws : List Part} {s₀ s : State} (h₀ : Keeps ws s₀ s) (p : Pair)
    (hw : Part.sub [.rnd, .ports, .nextId, .kept, .held, .sent, .logs, .holds, .relay, .dbg] ws = true) : Keeps ws s₀ (State.pairNext s p) := by
  unfold State.pairNext
  try dsimp only
  repeat' first
    | with_reducible assumption
    | with_reducible apply Keeps.ite
    | with_reducible apply logEvent_keeps
    | with_reducible apply pairSlot_keeps
    | with_reducible apply setPair_keeps
    | with_reducible exact Part.sub_trans hw (by decide)
    | split
    | (refine Keeps.mk_of rfl ?_; first | with_reducible assumption | with_reducible apply Keeps.ite | with_reducible apply logEvent_keeps | with_reducible apply pairSlot_keeps | with_reducible apply setPair_keeps | with_reducible exact Part.sub_trans hw (by decide))

theorem pairRun_keeps {ws : List Part} {s₀ s : State} (h : Keeps ws s₀ s) (fuel ks : Nat) (u : Succ) (hw : Part.sub [.rnd, .ports, .nextId, .kept, .held, .sent, .logs, .holds, .relay, .dbg] ws = true) :
    Keeps ws s₀ (State.pairRun fuel s ks u) := by
  induction fuel generalizing s with
  | zero => exact h
  | succ n ih =>
    unfold State.pairRun
    repeat' first
      | with_reducible assumption
      | with_reducible apply ih
      | with_reducible apply pairNext_keeps
      | with_reducible exact Part.sub_trans hw (by decide)
      | split

theorem startPair_keeps {ws : List Part} {s₀ s : State} (h₀ : Keeps ws s₀ s) (p : Pair)
    (hw : Part.sub [.rnd, .counts, .ports, .sessions, .ctxs, .nextId, .kept, .held, .sent, .locks, .marks, .logs, .owners, .keyspaces, .groups, .extents, .fineNext, .heat, .holds, .mapLog, .quince, .pages, .pipes, .queue, .relay, .power, .sb, .dbg] ws = true) : Keeps ws s₀ (State.startPair s p) := by
  unfold State.startPair
  try dsimp only
  repeat' first
    | with_reducible assumption
    | with_reducible apply Keeps.ite
    | with_reducible apply pairRun_keeps
    | with_reducible apply pairSlot_keeps
    | with_reducible apply relaySettle_keeps
    | with_reducible apply setPair_keeps
    | with_reducible exact Part.sub_trans hw (by decide)
    | split
    | (refine Keeps.mk_of rfl ?_; first | with_reducible assumption | with_reducible apply Keeps.ite | with_reducible apply pairRun_keeps | with_reducible apply pairSlot_keeps | with_reducible apply relaySettle_keeps | with_reducible apply setPair_keeps | with_reducible exact Part.sub_trans hw (by decide))

theorem execResyncStart_keeps {s : State} (keyspace successor : Nat) :
    KeepsO [.rnd, .counts, .ports, .sessions, .ctxs, .nextId, .kept, .held, .sent, .locks, .marks, .logs, .owners, .keyspaces, .groups, .extents, .fineNext, .heat, .holds, .mapLog, .quince, .pages, .pipes, .queue, .relay, .power, .sb, .dbg] s (execResyncStart keyspace successor s) := by
  have h₀ := Keeps.refl [.rnd, .counts, .ports, .sessions, .ctxs, .nextId, .kept, .held, .sent, .locks, .marks, .logs, .owners, .keyspaces, .groups, .extents, .fineNext, .heat, .holds, .mapLog, .quince, .pages, .pipes, .queue, .relay, .power, .sb, .dbg] s
  have hw : Part.sub [.rnd, .counts, .ports, .sessions, .ctxs, .nextId, .kept, .held, .sent, .locks, .marks, .logs, .owners, .keyspaces, .groups, .extents, .fineNext, .heat, .holds, .mapLog, .quince, .pages, .pipes, .queue, .relay, .power, .sb, .dbg] [.rnd, .counts, .ports, .sessions, .ctxs, .nextId, .kept, .held, .sent, .locks, .marks, .logs, .owners, .keyspaces, .groups, .extents, .fineNext, .heat, .holds, .mapLog, .quince, .pages, .pipes, .queue, .relay, .power, .sb, .dbg] = true := by decide
  unfold execResyncStart
  try dsimp only
  repeat' first
    | with_reducible assumption
    | with_reducible apply KeepsO.next
    | with_reducible apply KeepsO.ite
    | with_reducible apply Keeps.ite
    | with_reducible apply startPair_keeps
    | with_reducible exact Part.sub_trans hw (by decide)
    | split
    | (refine Keeps.mk_of rfl ?_; first | with_reducible assumption | with_reducible apply KeepsO.next | with_reducible apply KeepsO.ite | with_reducible apply Keeps.ite | with_reducible apply startPair_keeps | with_reducible exact Part.sub_trans hw (by decide))

theorem execResyncStateSave_keeps {s : State}  :
    KeepsO [.relay] s (execResyncStateSave s) := by
  have h₀ := Keeps.refl [.relay] s
  have hw : Part.sub [.relay] [.relay] = true := by decide
  unfold execResyncStateSave
  try dsimp only
  repeat' first
    | with_reducible assumption
    | with_reducible apply KeepsO.next
    | with_reducible apply KeepsO.ite
    | split
    | (refine Keeps.mk_of rfl ?_; first | with_reducible assumption | with_reducible apply KeepsO.next | with_reducible apply KeepsO.ite)

theorem slotDone_keeps {ws : List Part} {s₀ s : State} (h₀ : Keeps ws s₀ s) (r : RelaySlot)
    (hw : Part.sub [.rnd, .ports, .sessions, .ctxs, .nextId, .kept, .held, .sent, .locks, .logs, .keyspaces, .holds, .quince, .pages, .pipes, .queue, .relay, .power, .sb, .dbg] ws = true) : Keeps ws s₀ (State.slotDone s r) := by
  unfold State.slotDone
  try dsimp only
  repeat' first
    | with_reducible assumption
    | with_reducible apply Keeps.ite
    | with_reducible apply dropSlot_keeps
    | with_reducible apply endCmd_keeps
    | with_reducible apply logEvent_keeps
    | with_reducible apply pairRun_keeps
    | with_reducible apply pumpSlots_keeps
    | with_reducible exact Part.sub_trans hw (by decide)
    | split
    | (refine Keeps.mk_of rfl ?_; first | with_reducible assumption | with_reducible apply Keeps.ite | with_reducible apply dropSlot_keeps | with_reducible apply endCmd_keeps | with_reducible apply logEvent_keeps | with_reducible apply pairRun_keeps | with_reducible apply pumpSlots_keeps | with_reducible exact Part.sub_trans hw (by decide))

theorem execRelayForwardAnswer_keeps {s : State} (slot : Nat) (answer : ForwardAnswer) :
    KeepsO [.rnd, .counts, .ports, .sessions, .ctxs, .nextId, .kept, .held, .sent, .locks, .marks, .logs, .owners, .keyspaces, .groups, .extents, .fineNext, .heat, .holds, .mapLog, .quince, .pages, .pipes, .queue, .relay, .power, .sb, .dbg] s (execRelayForwardAnswer slot answer s) := by
  have h₀ := Keeps.refl [.rnd, .counts, .ports, .sessions, .ctxs, .nextId, .kept, .held, .sent, .locks, .marks, .logs, .owners, .keyspaces, .groups, .extents, .fineNext, .heat, .holds, .mapLog, .quince, .pages, .pipes, .queue, .relay, .power, .sb, .dbg] s
  have hw : Part.sub [.rnd, .counts, .ports, .sessions, .ctxs, .nextId, .kept, .held, .sent, .locks, .marks, .logs, .owners, .keyspaces, .groups, .extents, .fineNext, .heat, .holds, .mapLog, .quince, .pages, .pipes, .queue, .relay, .power, .sb, .dbg] [.rnd, .counts, .ports, .sessions, .ctxs, .nextId, .kept, .held, .sent, .locks, .marks, .logs, .owners, .keyspaces, .groups, .extents, .fineNext, .heat, .holds, .mapLog, .quince, .pages, .pipes, .queue, .relay, .power, .sb, .dbg] = true := by decide
  unfold execRelayForwardAnswer
  try dsimp only
  repeat' first
    | with_reducible assumption
    | with_reducible apply KeepsO.next
    | with_reducible apply KeepsO.ite
    | with_reducible apply Keeps.ite
    | with_reducible apply pumpSlots_keeps
    | with_reducible apply relayFault_keeps
    | with_reducible apply relaySettle_keeps
    | with_reducible apply slotDone_keeps
    | with_reducible apply trySend_keeps
    | with_reducible apply updSlot_keeps
    | with_reducible exact Part.sub_trans hw (by decide)
    | with_reducible apply takeCredit_keeps
    | split
    | (refine Keeps.mk_of rfl ?_; first | with_reducible assumption | with_reducible apply takeCredit_keeps | with_reducible apply KeepsO.next | with_reducible apply KeepsO.ite | with_reducible apply Keeps.ite | with_reducible apply pumpSlots_keeps | with_reducible apply relayFault_keeps | with_reducible apply relaySettle_keeps | with_reducible apply slotDone_keeps | with_reducible apply trySend_keeps | with_reducible apply updSlot_keeps | with_reducible exact Part.sub_trans hw (by decide))

theorem execRelayBackoffResend_keeps {s : State} (slot : Nat) :
    KeepsO [.rnd, .counts, .ports, .sessions, .ctxs, .nextId, .kept, .held, .sent, .locks, .marks, .logs, .owners, .keyspaces, .groups, .extents, .fineNext, .heat, .holds, .mapLog, .quince, .pages, .pipes, .queue, .relay, .power, .sb, .dbg] s (execRelayBackoffResend slot s) := by
  have h₀ := Keeps.refl [.rnd, .counts, .ports, .sessions, .ctxs, .nextId, .kept, .held, .sent, .locks, .marks, .logs, .owners, .keyspaces, .groups, .extents, .fineNext, .heat, .holds, .mapLog, .quince, .pages, .pipes, .queue, .relay, .power, .sb, .dbg] s
  have hw : Part.sub [.rnd, .counts, .ports, .sessions, .ctxs, .nextId, .kept, .held, .sent, .locks, .marks, .logs, .owners, .keyspaces, .groups, .extents, .fineNext, .heat, .holds, .mapLog, .quince, .pages, .pipes, .queue, .relay, .power, .sb, .dbg] [.rnd, .counts, .ports, .sessions, .ctxs, .nextId, .kept, .held, .sent, .locks, .marks, .logs, .owners, .keyspaces, .groups, .extents, .fineNext, .heat, .holds, .mapLog, .quince, .pages, .pipes, .queue, .relay, .power, .sb, .dbg] = true := by decide
  unfold execRelayBackoffResend
  try dsimp only
  repeat' first
    | with_reducible assumption
    | with_reducible apply KeepsO.next
    | with_reducible apply KeepsO.ite
    | with_reducible apply Keeps.ite
    | with_reducible apply putForward_keeps
    | with_reducible apply relayFault_keeps
    | with_reducible apply relaySettle_keeps
    | with_reducible apply updSlot_keeps
    | with_reducible exact Part.sub_trans hw (by decide)
    | split
    | (refine Keeps.mk_of rfl ?_; first | with_reducible assumption | with_reducible apply KeepsO.next | with_reducible apply KeepsO.ite | with_reducible apply Keeps.ite | with_reducible apply putForward_keeps | with_reducible apply relayFault_keeps | with_reducible apply relaySettle_keeps | with_reducible apply updSlot_keeps | with_reducible exact Part.sub_trans hw (by decide))

theorem execRelayTimeout_keeps {s : State} (slot : Nat) :
    KeepsO [.rnd, .counts, .ports, .sessions, .ctxs, .nextId, .kept, .held, .sent, .locks, .marks, .logs, .owners, .keyspaces, .groups, .extents, .fineNext, .heat, .holds, .mapLog, .quince, .pages, .pipes, .queue, .relay, .power, .sb, .dbg] s (execRelayTimeout slot s) := by
  have h₀ := Keeps.refl [.rnd, .counts, .ports, .sessions, .ctxs, .nextId, .kept, .held, .sent, .locks, .marks, .logs, .owners, .keyspaces, .groups, .extents, .fineNext, .heat, .holds, .mapLog, .quince, .pages, .pipes, .queue, .relay, .power, .sb, .dbg] s
  have hw : Part.sub [.rnd, .counts, .ports, .sessions, .ctxs, .nextId, .kept, .held, .sent, .locks, .marks, .logs, .owners, .keyspaces, .groups, .extents, .fineNext, .heat, .holds, .mapLog, .quince, .pages, .pipes, .queue, .relay, .power, .sb, .dbg] [.rnd, .counts, .ports, .sessions, .ctxs, .nextId, .kept, .held, .sent, .locks, .marks, .logs, .owners, .keyspaces, .groups, .extents, .fineNext, .heat, .holds, .mapLog, .quince, .pages, .pipes, .queue, .relay, .power, .sb, .dbg] = true := by decide
  unfold execRelayTimeout
  try dsimp only
  repeat' first
    | with_reducible assumption
    | with_reducible apply KeepsO.next
    | with_reducible apply KeepsO.ite
    | with_reducible apply Keeps.ite
    | with_reducible apply relayFault_keeps
    | with_reducible apply relaySettle_keeps
    | with_reducible exact Part.sub_trans hw (by decide)
    | split
    | (refine Keeps.mk_of rfl ?_; first | with_reducible assumption | with_reducible apply KeepsO.next | with_reducible apply KeepsO.ite | with_reducible apply Keeps.ite | with_reducible apply relayFault_keeps | with_reducible apply relaySettle_keeps | with_reducible exact Part.sub_trans hw (by decide))

theorem retransmitForward_keeps {ws : List Part} {s₀ s : State} (h₀ : Keeps ws s₀ s) (r : RelaySlot)
    (hw : Part.sub [.ports, .nextId, .kept, .held, .sent, .relay] ws = true) : Keeps ws s₀ (State.retransmitForward s r) := by
  unfold State.retransmitForward
  try dsimp only
  repeat' first
    | with_reducible assumption
    | with_reducible apply Keeps.ite
    | with_reducible apply putForward_keeps
    | with_reducible apply updSlot_keeps
    | with_reducible exact Part.sub_trans hw (by decide)
    | split
    | (refine Keeps.mk_of rfl ?_; first | with_reducible assumption | with_reducible apply Keeps.ite | with_reducible apply putForward_keeps | with_reducible apply updSlot_keeps | with_reducible exact Part.sub_trans hw (by decide))

theorem execRetransmit_keeps {s : State} (msg : Nat) :
    KeepsO [.ports, .nextId, .kept, .held, .sent, .relay] s (execRetransmit msg s) := by
  have h₀ := Keeps.refl [.ports, .nextId, .kept, .held, .sent, .relay] s
  have hw : Part.sub [.ports, .nextId, .kept, .held, .sent, .relay] [.ports, .nextId, .kept, .held, .sent, .relay] = true := by decide
  unfold execRetransmit
  try dsimp only
  repeat' first
    | with_reducible assumption
    | with_reducible apply KeepsO.next
    | with_reducible apply KeepsO.ite
    | with_reducible apply retransmitForward_keeps
    | with_reducible apply retransmitKept_keeps
    | with_reducible exact Part.sub_trans hw (by decide)
    | split
    | (refine Keeps.mk_of rfl ?_; first | with_reducible assumption | with_reducible apply KeepsO.next | with_reducible apply KeepsO.ite | with_reducible apply retransmitForward_keeps | with_reducible apply retransmitKept_keeps | with_reducible exact Part.sub_trans hw (by decide))

theorem execMessageUnanswered_keeps {s : State} (msg : Nat) :
    KeepsO [.rnd, .counts, .ports, .sessions, .ctxs, .nextId, .kept, .held, .sent, .locks, .marks, .logs, .owners, .keyspaces, .groups, .extents, .fineNext, .heat, .holds, .mapLog, .quince, .pages, .pipes, .queue, .relay, .power, .sb, .dbg] s (execMessageUnanswered msg s) := by
  have h₀ := Keeps.refl [.rnd, .counts, .ports, .sessions, .ctxs, .nextId, .kept, .held, .sent, .locks, .marks, .logs, .owners, .keyspaces, .groups, .extents, .fineNext, .heat, .holds, .mapLog, .quince, .pages, .pipes, .queue, .relay, .power, .sb, .dbg] s
  have hw : Part.sub [.rnd, .counts, .ports, .sessions, .ctxs, .nextId, .kept, .held, .sent, .locks, .marks, .logs, .owners, .keyspaces, .groups, .extents, .fineNext, .heat, .holds, .mapLog, .quince, .pages, .pipes, .queue, .relay, .power, .sb, .dbg] [.rnd, .counts, .ports, .sessions, .ctxs, .nextId, .kept, .held, .sent, .locks, .marks, .logs, .owners, .keyspaces, .groups, .extents, .fineNext, .heat, .holds, .mapLog, .quince, .pages, .pipes, .queue, .relay, .power, .sb, .dbg] = true := by decide
  unfold execMessageUnanswered
  try dsimp only
  repeat' first
    | with_reducible assumption
    | with_reducible apply KeepsO.next
    | with_reducible apply KeepsO.ite
    | with_reducible apply Keeps.ite
    | with_reducible apply keptUnanswered_keeps
    | with_reducible apply relayFault_keeps
    | with_reducible apply relaySettle_keeps
    | with_reducible exact Part.sub_trans hw (by decide)
    | split
    | (refine Keeps.mk_of rfl ?_; first | with_reducible assumption | with_reducible apply KeepsO.next | with_reducible apply KeepsO.ite | with_reducible apply Keeps.ite | with_reducible apply keptUnanswered_keeps | with_reducible apply relayFault_keeps | with_reducible apply relaySettle_keeps | with_reducible exact Part.sub_trans hw (by decide))

end Sys2Proof.Machine
end

