-- ==== Sys2Proof/Laws/KeepsSieve.lean ====
section
/-! SUPPORT. Which parts of the state each operation of Machine/Sieve.lean may change. -/

set_option Elab.async false

namespace Sys2Proof.Machine

theorem updSieve_keeps {ws : List Part} {s₀ s : State} (h₀ : Keeps ws s₀ s) (slot : Nat) (f : Sieve → Sieve)
    (hw : Part.sub [.sieves] ws = true) : Keeps ws s₀ (State.updSieve s slot f) := by
  unfold State.updSieve
  try dsimp only
  repeat' first
    | with_reducible assumption
    | split
    | (refine Keeps.mk_of rfl ?_; first | with_reducible assumption)

theorem execSieveVisit_keeps {s : State} (slot : Nat) :
    KeepsO [.counts, .logs, .sieves, .dbg] s (execSieveVisit slot s) := by
  have h₀ := Keeps.refl [.counts, .logs, .sieves, .dbg] s
  have hw : Part.sub [.counts, .logs, .sieves, .dbg] [.counts, .logs, .sieves, .dbg] = true := by decide
  unfold execSieveVisit
  try dsimp only
  repeat' first
    | with_reducible assumption
    | with_reducible apply KeepsO.next
    | with_reducible apply KeepsO.ite
    | with_reducible apply Keeps.ite
    | (with_reducible refine Keeps.foldl ?_ (fun _ _ _ => ?_))
    | with_reducible apply digestEvent_keeps
    | with_reducible apply updSieve_keeps
    | with_reducible exact Part.sub_trans hw (by decide)
    | split
    | (refine Keeps.mk_of rfl ?_; first | with_reducible assumption | with_reducible apply KeepsO.next | with_reducible apply KeepsO.ite | with_reducible apply Keeps.ite | (with_reducible refine Keeps.foldl ?_ (fun _ _ _ => ?_)) | with_reducible apply digestEvent_keeps | with_reducible apply updSieve_keeps | with_reducible exact Part.sub_trans hw (by decide))

theorem execSieveBatchAge_keeps {s : State} (slot : Nat) :
    KeepsO [.sieves] s (execSieveBatchAge slot s) := by
  have h₀ := Keeps.refl [.sieves] s
  have hw : Part.sub [.sieves] [.sieves] = true := by decide
  unfold execSieveBatchAge
  try dsimp only
  repeat' first
    | with_reducible assumption
    | with_reducible apply KeepsO.next
    | with_reducible apply KeepsO.ite
    | with_reducible apply Keeps.ite
    | with_reducible apply updSieve_keeps
    | with_reducible exact Part.sub_trans hw (by decide)
    | split
    | (refine Keeps.mk_of rfl ?_; first | with_reducible assumption | with_reducible apply KeepsO.next | with_reducible apply KeepsO.ite | with_reducible apply Keeps.ite | with_reducible apply updSieve_keeps | with_reducible exact Part.sub_trans hw (by decide))

theorem execSieveIdle_keeps {s : State} (slot : Nat) :
    KeepsO [.logs, .sieves, .dbg] s (execSieveIdle slot s) := by
  have h₀ := Keeps.refl [.logs, .sieves, .dbg] s
  have hw : Part.sub [.logs, .sieves, .dbg] [.logs, .sieves, .dbg] = true := by decide
  unfold execSieveIdle
  try dsimp only
  repeat' first
    | with_reducible assumption
    | with_reducible apply KeepsO.next
    | with_reducible apply KeepsO.ite
    | with_reducible apply Keeps.ite
    | with_reducible apply closeSieves_keeps
    | with_reducible exact Part.sub_trans hw (by decide)
    | split
    | (refine Keeps.mk_of rfl ?_; first | with_reducible assumption | with_reducible apply KeepsO.next | with_reducible apply KeepsO.ite | with_reducible apply Keeps.ite | with_reducible apply closeSieves_keeps | with_reducible exact Part.sub_trans hw (by decide))

theorem commitSieveOpen_keeps {ws : List Part} {s₀ s : State} (h₀ : Keeps ws s₀ s) (x : Ctx)
    (hw : Part.sub [.ports, .sessions, .ctxs, .nextId, .kept, .held, .sent, .locks, .keyspaces, .quince, .pages, .pipes, .queue, .sieves, .relay, .power, .sb] ws = true) : Keeps ws s₀ (State.commitSieveOpen s x) := by
  unfold State.commitSieveOpen
  try dsimp only
  repeat' first
    | with_reducible assumption
    | with_reducible apply Keeps.ite
    | with_reducible apply endCmd_keeps
    | with_reducible apply endStatus_keeps
    | with_reducible exact Part.sub_trans hw (by decide)
    | split
    | (refine Keeps.mk_of rfl ?_; first | with_reducible assumption | with_reducible apply Keeps.ite | with_reducible apply endCmd_keeps | with_reducible apply endStatus_keeps | with_reducible exact Part.sub_trans hw (by decide))

theorem commitSieveNext_keeps {ws : List Part} {s₀ s : State} (h₀ : Keeps ws s₀ s) (x : Ctx)
    (hw : Part.sub [.rnd, .ports, .sessions, .ctxs, .nextId, .kept, .held, .sent, .locks, .keyspaces, .quince, .pages, .pipes, .queue, .sieves, .relay, .power, .sb] ws = true) : Keeps ws s₀ (State.commitSieveNext s x) := by
  unfold State.commitSieveNext
  try dsimp only
  repeat' first
    | with_reducible assumption
    | with_reducible apply Keeps.ite
    | with_reducible apply drawn_keeps
    | with_reducible apply endCmd_keeps
    | with_reducible apply endStatus_keeps
    | with_reducible apply updSieve_keeps
    | with_reducible exact Part.sub_trans hw (by decide)
    | split
    | (refine Keeps.mk_of rfl ?_; first | with_reducible assumption | with_reducible apply Keeps.ite | with_reducible apply drawn_keeps | with_reducible apply endCmd_keeps | with_reducible apply endStatus_keeps | with_reducible apply updSieve_keeps | with_reducible exact Part.sub_trans hw (by decide))

theorem commitSieveClose_keeps {ws : List Part} {s₀ s : State} (h₀ : Keeps ws s₀ s) (x : Ctx)
    (hw : Part.sub [.ports, .sessions, .ctxs, .nextId, .kept, .held, .sent, .locks, .logs, .keyspaces, .quince, .pages, .pipes, .queue, .sieves, .relay, .power, .sb, .dbg] ws = true) : Keeps ws s₀ (State.commitSieveClose s x) := by
  unfold State.commitSieveClose
  try dsimp only
  repeat' first
    | with_reducible assumption
    | with_reducible apply closeSieves_keeps
    | with_reducible apply endStatus_keeps
    | with_reducible exact Part.sub_trans hw (by decide)
    | split
    | (refine Keeps.mk_of rfl ?_; first | with_reducible assumption | with_reducible apply closeSieves_keeps | with_reducible apply endStatus_keeps | with_reducible exact Part.sub_trans hw (by decide))

end Sys2Proof.Machine
end

