-- ==== Sys2Proof/Laws/KeepsShaper.lean ====
section
/-! SUPPORT. Which parts of the state each operation of Machine/Shaper.lean may change. -/

set_option Elab.async false

namespace Sys2Proof.Machine

theorem onKsShaper_keeps {ws : List Part} {s₀ s : State} (h₀ : Keeps ws s₀ s) (ks : Nat) (f : Shaper → Shaper)
    (hw : Part.sub [.keyspaces] ws = true) : Keeps ws s₀ (State.onKsShaper s ks f) := by
  unfold State.onKsShaper
  try dsimp only
  repeat' first
    | with_reducible assumption
    | with_reducible apply Keeps.ite
    | with_reducible apply updKeyspace_keeps
    | with_reducible exact Part.sub_trans hw (by decide)
    | split
    | (refine Keeps.mk_of rfl ?_; first | with_reducible assumption | with_reducible apply Keeps.ite | with_reducible apply updKeyspace_keeps | with_reducible exact Part.sub_trans hw (by decide))

theorem onOwnerShaper_keeps {ws : List Part} {s₀ s : State} (h₀ : Keeps ws s₀ s) (o : Nat) (f : Shaper → Shaper)
    (hw : Part.sub [.owners] ws = true) : Keeps ws s₀ (State.onOwnerShaper s o f) := by
  unfold State.onOwnerShaper
  try dsimp only
  repeat' first
    | with_reducible assumption
    | with_reducible apply updOwner_keeps
    | with_reducible exact Part.sub_trans hw (by decide)
    | split
    | (refine Keeps.mk_of rfl ?_; first | with_reducible assumption | with_reducible apply updOwner_keeps | with_reducible exact Part.sub_trans hw (by decide))

theorem chargeReply_keeps {ws : List Part} {s₀ s : State} (h₀ : Keeps ws s₀ s) (x : Ctx) (bytes : Nat)
    (hw : Part.sub [.owners, .keyspaces] ws = true) : Keeps ws s₀ (State.chargeReply s x bytes) := by
  unfold State.chargeReply
  try dsimp only
  repeat' first
    | with_reducible assumption
    | with_reducible apply onKsShaper_keeps
    | with_reducible apply onOwnerShaper_keeps
    | with_reducible exact Part.sub_trans hw (by decide)
    | split
    | (refine Keeps.mk_of rfl ?_; first | with_reducible assumption | with_reducible apply onKsShaper_keeps | with_reducible apply onOwnerShaper_keeps | with_reducible exact Part.sub_trans hw (by decide))

theorem takeKsTokens_keeps {ws : List Part} {s₀ s : State} (h₀ : Keeps ws s₀ s) (x : Ctx)
    (hw : Part.sub [.ctxs, .keyspaces] ws = true) : Keeps ws s₀ (State.takeKsTokens s x) := by
  unfold State.takeKsTokens
  try dsimp only
  repeat' first
    | with_reducible assumption
    | with_reducible apply Keeps.ite
    | with_reducible apply onKsShaper_keeps
    | with_reducible apply updCtx_keeps
    | with_reducible exact Part.sub_trans hw (by decide)
    | split
    | (refine Keeps.mk_of rfl ?_; first | with_reducible assumption | with_reducible apply Keeps.ite | with_reducible apply onKsShaper_keeps | with_reducible apply updCtx_keeps | with_reducible exact Part.sub_trans hw (by decide))

theorem shaped_keeps {ws : List Part} {s₀ s : State} (h₀ : Keeps ws s₀ s) (x : Ctx)
    (hw : Part.sub [.sessions, .ctxs] ws = true) : Keeps ws s₀ (State.shaped s x) := by
  unfold State.shaped
  try dsimp only
  repeat' first
    | with_reducible assumption
    | with_reducible apply Keeps.ite
    | with_reducible apply dequeue_keeps
    | with_reducible apply toPhase_keeps
    | with_reducible exact Part.sub_trans hw (by decide)
    | split
    | (refine Keeps.mk_of rfl ?_; first | with_reducible assumption | with_reducible apply Keeps.ite | with_reducible apply dequeue_keeps | with_reducible apply toPhase_keeps | with_reducible exact Part.sub_trans hw (by decide))

theorem takeOwnerTokens_keeps {ws : List Part} {s₀ s : State} (h₀ : Keeps ws s₀ s) (x : Ctx)
    (hw : Part.sub [.sessions, .ctxs, .owners] ws = true) : Keeps ws s₀ (State.takeOwnerTokens s x) := by
  unfold State.takeOwnerTokens
  try dsimp only
  repeat' first
    | with_reducible assumption
    | with_reducible apply Keeps.ite
    | with_reducible apply onOwnerShaper_keeps
    | with_reducible apply shaped_keeps
    | with_reducible exact Part.sub_trans hw (by decide)
    | split
    | (refine Keeps.mk_of rfl ?_; first | with_reducible assumption | with_reducible apply Keeps.ite | with_reducible apply onOwnerShaper_keeps | with_reducible apply shaped_keeps | with_reducible exact Part.sub_trans hw (by decide))

theorem execShaperAdmit_keeps {s : State} (c : Nat) :
    KeepsO [.sessions, .ctxs, .owners, .keyspaces] s (execShaperAdmit c s) := by
  have h₀ := Keeps.refl [.sessions, .ctxs, .owners, .keyspaces] s
  have hw : Part.sub [.sessions, .ctxs, .owners, .keyspaces] [.sessions, .ctxs, .owners, .keyspaces] = true := by decide
  unfold execShaperAdmit
  try dsimp only
  repeat' first
    | with_reducible assumption
    | with_reducible apply KeepsO.next
    | with_reducible apply KeepsO.ite
    | with_reducible apply Keeps.ite
    | with_reducible apply shaped_keeps
    | with_reducible apply takeKsTokens_keeps
    | with_reducible apply takeOwnerTokens_keeps
    | with_reducible exact Part.sub_trans hw (by decide)
    | split
    | (refine Keeps.mk_of rfl ?_; first | with_reducible assumption | with_reducible apply KeepsO.next | with_reducible apply KeepsO.ite | with_reducible apply Keeps.ite | with_reducible apply shaped_keeps | with_reducible apply takeKsTokens_keeps | with_reducible apply takeOwnerTokens_keeps | with_reducible exact Part.sub_trans hw (by decide))

end Sys2Proof.Machine
end

