-- ==== Sys2Proof/Laws/KeepsCommit.lean ====
section
/-! SUPPORT. Which parts of the state each operation of Machine/Commit.lean may change. -/

set_option Elab.async false

namespace Sys2Proof.Machine

theorem placeHolds_keeps {ws : List Part} {s₀ s : State} (h₀ : Keeps ws s₀ s) (x : Ctx)
    (hw : Part.sub [.holds] ws = true) : Keeps ws s₀ (State.placeHolds s x) := by
  unfold State.placeHolds
  try dsimp only
  repeat' first
    | with_reducible assumption
    | split
    | (refine Keeps.mk_of rfl ?_; first | with_reducible assumption)

theorem commitRead_keeps {ws : List Part} {s₀ s : State} (h₀ : Keeps ws s₀ s) (x : Ctx) (r : Reply)
    (hw : Part.sub [.ports, .sessions, .ctxs, .nextId, .kept, .held, .sent, .locks, .owners, .keyspaces, .holds, .quince, .pages, .pipes, .queue, .relay, .power, .sb] ws = true) : Keeps ws s₀ (State.commitRead s x r) := by
  unfold State.commitRead
  try dsimp only
  repeat' first
    | with_reducible assumption
    | with_reducible apply Keeps.ite
    | with_reducible apply chargeReply_keeps
    | with_reducible apply endCmd_keeps
    | with_reducible apply placeHolds_keeps
    | with_reducible apply updCtx_keeps
    | with_reducible exact Part.sub_trans hw (by decide)
    | split
    | (refine Keeps.mk_of rfl ?_; first | with_reducible assumption | with_reducible apply Keeps.ite | with_reducible apply chargeReply_keeps | with_reducible apply endCmd_keeps | with_reducible apply placeHolds_keeps | with_reducible apply updCtx_keeps | with_reducible exact Part.sub_trans hw (by decide))

theorem eraseDone_keeps {ws : List Part} {s₀ s : State} (h₀ : Keeps ws s₀ s) (e : EraseSet)
    (hw : Part.sub [.counts, .ports, .sessions, .nextId, .kept, .held, .sent, .logs, .keyspaces] ws = true) : Keeps ws s₀ (State.eraseDone s e) := by
  unfold State.eraseDone
  try dsimp only
  repeat' first
    | with_reducible assumption
    | with_reducible apply notify_keeps
    | with_reducible exact Part.sub_trans hw (by decide)
    | split
    | (refine Keeps.mk_of rfl ?_; first | with_reducible assumption | with_reducible apply notify_keeps | with_reducible exact Part.sub_trans hw (by decide))

theorem eraseSetsDone_keeps {ws : List Part} {s₀ s : State} (h₀ : Keeps ws s₀ s) 
    (hw : Part.sub [.counts, .ports, .sessions, .nextId, .kept, .held, .sent, .logs, .keyspaces, .eraseSets] ws = true) : Keeps ws s₀ (State.eraseSetsDone s) := by
  unfold State.eraseSetsDone
  try dsimp only
  repeat' first
    | with_reducible assumption
    | (with_reducible refine Keeps.foldl ?_ (fun _ _ _ => ?_))
    | with_reducible apply eraseDone_keeps
    | with_reducible exact Part.sub_trans hw (by decide)
    | split
    | (refine Keeps.mk_of rfl ?_; first | with_reducible assumption | (with_reducible refine Keeps.foldl ?_ (fun _ _ _ => ?_)) | with_reducible apply eraseDone_keeps | with_reducible exact Part.sub_trans hw (by decide))

theorem formEraseSet_keeps {ws : List Part} {s₀ s : State} (h₀ : Keeps ws s₀ s) (ks stamp : Nat) (session : Option Nat) (key : Bytes) (groups : List Nat)
    (hw : Part.sub [.counts, .ports, .sessions, .nextId, .kept, .held, .sent, .logs, .keyspaces, .groups, .eraseSets] ws = true) : Keeps ws s₀ (State.formEraseSet s ks stamp session key groups) := by
  unfold State.formEraseSet
  try dsimp only
  repeat' first
    | with_reducible assumption
    | with_reducible apply Keeps.ite
    | (with_reducible refine Keeps.foldl ?_ (fun _ _ _ => ?_))
    | with_reducible apply closeGroup_keeps
    | with_reducible apply eraseSetsDone_keeps
    | with_reducible apply updGroup_keeps
    | with_reducible exact Part.sub_trans hw (by decide)
    | split
    | (refine Keeps.mk_of rfl ?_; first | with_reducible assumption | with_reducible apply Keeps.ite | (with_reducible refine Keeps.foldl ?_ (fun _ _ _ => ?_)) | with_reducible apply closeGroup_keeps | with_reducible apply eraseSetsDone_keeps | with_reducible apply updGroup_keeps | with_reducible exact Part.sub_trans hw (by decide))

theorem commitReplace_keeps {ws : List Part} {s₀ s : State} (h₀ : Keeps ws s₀ s) (x : Ctx) (r : Rec) (place : Place) (entries : List Entry)
    (hw : Part.sub [.counts, .ports, .sessions, .nextId, .kept, .held, .sent, .logs, .keyspaces, .entries, .recs, .groups, .eraseSets, .stale, .cache, .logA, .logB, .dirty, .quince, .dbg] ws = true) : Keeps ws s₀ (State.commitReplace s x r place entries) := by
  unfold State.commitReplace
  try dsimp only
  repeat' first
    | with_reducible assumption
    | with_reducible apply Keeps.ite
    | with_reducible apply cacheDrop_keeps
    | with_reducible apply cachePut_keeps
    | with_reducible apply dirLog_keeps
    | with_reducible apply formEraseSet_keeps
    | with_reducible apply logEvent_keeps
    | with_reducible apply markStale_keeps
    | with_reducible apply qCommit_keeps
    | with_reducible apply removeEntry_keeps
    | with_reducible apply setEntry_keeps
    | with_reducible exact Part.sub_trans hw (by decide)
    | split
    | (refine Keeps.mk_of rfl ?_; first | with_reducible assumption | with_reducible apply Keeps.ite | with_reducible apply cacheDrop_keeps | with_reducible apply cachePut_keeps | with_reducible apply dirLog_keeps | with_reducible apply formEraseSet_keeps | with_reducible apply logEvent_keeps | with_reducible apply markStale_keeps | with_reducible apply qCommit_keeps | with_reducible apply removeEntry_keeps | with_reducible apply setEntry_keeps | with_reducible exact Part.sub_trans hw (by decide))

theorem commitDiverge_keeps {ws : List Part} {s₀ s : State} (h₀ : Keeps ws s₀ s) (x : Ctx) (r : Rec)
    (hw : Part.sub [.counts, .logs, .entries, .recs, .logA, .logB, .dirty, .quince, .dbg] ws = true) : Keeps ws s₀ (State.commitDiverge s x r) := by
  unfold State.commitDiverge
  try dsimp only
  repeat' first
    | with_reducible assumption
    | with_reducible apply Keeps.ite
    | with_reducible apply dirLog_keeps
    | with_reducible apply logEvent_keeps
    | with_reducible apply qEnter_keeps
    | with_reducible apply qWithdraw_keeps
    | with_reducible apply setEntry_keeps
    | with_reducible exact Part.sub_trans hw (by decide)
    | split
    | (refine Keeps.mk_of rfl ?_; first | with_reducible assumption | with_reducible apply Keeps.ite | with_reducible apply dirLog_keeps | with_reducible apply logEvent_keeps | with_reducible apply qEnter_keeps | with_reducible apply qWithdraw_keeps | with_reducible apply setEntry_keeps | with_reducible exact Part.sub_trans hw (by decide))

theorem afterCommit_keeps {ws : List Part} {s₀ s : State} (h₀ : Keeps ws s₀ s) (x : Ctx) (r : Rec)
    (hw : Part.sub [.rnd, .ports, .sessions, .ctxs, .nextId, .kept, .held, .sent, .locks, .keyspaces, .holds, .quince, .pages, .pipes, .queue, .relay, .power, .sb] ws = true) : Keeps ws s₀ (State.afterCommit s x r) := by
  unfold State.afterCommit
  try dsimp only
  repeat' first
    | with_reducible assumption
    | with_reducible apply Keeps.ite
    | with_reducible apply activateSlot_keeps
    | with_reducible apply endCmd_keeps
    | with_reducible apply lockLeave_keeps
    | with_reducible apply toPhase_keeps
    | with_reducible apply updCtx_keeps
    | with_reducible exact Part.sub_trans hw (by decide)
    | split
    | (refine Keeps.mk_of rfl ?_; first | with_reducible assumption | with_reducible apply Keeps.ite | with_reducible apply activateSlot_keeps | with_reducible apply endCmd_keeps | with_reducible apply lockLeave_keeps | with_reducible apply toPhase_keeps | with_reducible apply updCtx_keeps | with_reducible exact Part.sub_trans hw (by decide))

theorem commitWrite_keeps {ws : List Part} {s₀ s : State} (h₀ : Keeps ws s₀ s) (x : Ctx) (place : Place) (entries : List Entry)
    (hw : Part.sub [.rnd, .counts, .ports, .sessions, .ctxs, .nextId, .kept, .held, .sent, .locks, .logs, .keyspaces, .stamps, .entries, .recs, .groups, .eraseSets, .stale, .cache, .holds, .logA, .logB, .dirty, .coh, .quince, .pages, .pipes, .queue, .relay, .power, .sb, .dbg] ws = true) : Keeps ws s₀ (State.commitWrite s x place entries) := by
  unfold State.commitWrite
  try dsimp only
  repeat' first
    | with_reducible assumption
    | with_reducible apply Keeps.ite
    | with_reducible apply afterCommit_keeps
    | with_reducible apply cohWrite_keeps
    | with_reducible apply commitDiverge_keeps
    | with_reducible apply commitReplace_keeps
    | with_reducible exact Part.sub_trans hw (by decide)
    | split
    | (refine Keeps.mk_of rfl ?_; first | with_reducible assumption | with_reducible apply Keeps.ite | with_reducible apply afterCommit_keeps | with_reducible apply cohWrite_keeps | with_reducible apply commitDiverge_keeps | with_reducible apply commitReplace_keeps | with_reducible exact Part.sub_trans hw (by decide))

theorem claimWrite_keeps {ws : List Part} {s₀ s : State} (h₀ : Keeps ws s₀ s) (x : Ctx)
    (hw : Part.sub [.rnd, .counts, .ports, .sessions, .ctxs, .nextId, .kept, .held, .sent, .locks, .logs, .keyspaces, .stamps, .entries, .recs, .groups, .eraseSets, .stale, .cache, .holds, .logA, .logB, .dirty, .coh, .quince, .pages, .pipes, .queue, .relay, .power, .sb, .dbg] ws = true) : Keeps ws s₀ (State.claimWrite s x) := by
  unfold State.claimWrite
  try dsimp only
  repeat' first
    | with_reducible assumption
    | with_reducible apply Keeps.ite
    | (with_reducible refine Keeps.foldl ?_ (fun _ _ _ => ?_))
    | with_reducible apply commitWrite_keeps
    | with_reducible apply dirtyChunk_keeps
    | with_reducible apply endCmd_keeps
    | with_reducible apply logEvent_keeps
    | with_reducible exact Part.sub_trans hw (by decide)
    | split
    | (refine Keeps.mk_of rfl ?_; first | with_reducible assumption | with_reducible apply Keeps.ite | (with_reducible refine Keeps.foldl ?_ (fun _ _ _ => ?_)) | with_reducible apply commitWrite_keeps | with_reducible apply dirtyChunk_keeps | with_reducible apply endCmd_keeps | with_reducible apply logEvent_keeps | with_reducible exact Part.sub_trans hw (by decide))

theorem execCommitClaim_keeps {s : State} (c : Nat) :
    KeepsO [.rnd, .counts, .ports, .sessions, .ctxs, .nextId, .kept, .held, .sent, .locks, .marks, .logs, .owners, .keyspaces, .stamps, .entries, .recs, .groups, .extents, .fineNext, .eraseSets, .stale, .heat, .cache, .holds, .logA, .logB, .mapLog, .dirty, .coh, .quince, .pages, .pipes, .queue, .sieves, .relay, .power, .sb, .dbg] s (execCommitClaim c s) := by
  have h₀ := Keeps.refl [.rnd, .counts, .ports, .sessions, .ctxs, .nextId, .kept, .held, .sent, .locks, .marks, .logs, .owners, .keyspaces, .stamps, .entries, .recs, .groups, .extents, .fineNext, .eraseSets, .stale, .heat, .cache, .holds, .logA, .logB, .mapLog, .dirty, .coh, .quince, .pages, .pipes, .queue, .sieves, .relay, .power, .sb, .dbg] s
  have hw : Part.sub [.rnd, .counts, .ports, .sessions, .ctxs, .nextId, .kept, .held, .sent, .locks, .marks, .logs, .owners, .keyspaces, .stamps, .entries, .recs, .groups, .extents, .fineNext, .eraseSets, .stale, .heat, .cache, .holds, .logA, .logB, .mapLog, .dirty, .coh, .quince, .pages, .pipes, .queue, .sieves, .relay, .power, .sb, .dbg] [.rnd, .counts, .ports, .sessions, .ctxs, .nextId, .kept, .held, .sent, .locks, .marks, .logs, .owners, .keyspaces, .stamps, .entries, .recs, .groups, .extents, .fineNext, .eraseSets, .stale, .heat, .cache, .holds, .logA, .logB, .mapLog, .dirty, .coh, .quince, .pages, .pipes, .queue, .sieves, .relay, .power, .sb, .dbg] = true := by decide
  unfold execCommitClaim
  try dsimp only
  repeat' first
    | with_reducible assumption
    | with_reducible apply KeepsO.next
    | with_reducible apply KeepsO.ite
    | with_reducible apply Keeps.ite
    | with_reducible apply claimWrite_keeps
    | with_reducible apply commitRead_keeps
    | with_reducible apply commitSieveClose_keeps
    | with_reducible apply commitSieveNext_keeps
    | with_reducible apply commitSieveOpen_keeps
    | with_reducible apply relaySettle_keeps
    | with_reducible apply settle_keeps
    | with_reducible exact Part.sub_trans hw (by decide)
    | split
    | (refine Keeps.mk_of rfl ?_; first | with_reducible assumption | with_reducible apply KeepsO.next | with_reducible apply KeepsO.ite | with_reducible apply Keeps.ite | with_reducible apply claimWrite_keeps | with_reducible apply commitRead_keeps | with_reducible apply commitSieveClose_keeps | with_reducible apply commitSieveNext_keeps | with_reducible apply commitSieveOpen_keeps | with_reducible apply relaySettle_keeps | with_reducible apply settle_keeps | with_reducible exact Part.sub_trans hw (by decide))

theorem programFailed_keeps {ws : List Part} {s₀ s : State} (h₀ : Keeps ws s₀ s) (x : Ctx)
    (hw : Part.sub [.rnd, .modes, .spares, .counts, .ports, .sessions, .ctxs, .nextId, .kept, .held, .sent, .locks, .logs, .owners, .keyspaces, .groups, .extents, .fineNext, .mapLog, .quince, .pages, .pipes, .queue, .sieves, .relay, .power, .sb, .dbg, .nor] ws = true) : Keeps ws s₀ (State.programFailed s x) := by
  unfold State.programFailed
  try dsimp only
  repeat' first
    | with_reducible assumption
    | with_reducible apply program_keeps
    | with_reducible apply retireBlock_keeps
    | with_reducible exact Part.sub_trans hw (by decide)
    | split
    | (refine Keeps.mk_of rfl ?_; first | with_reducible assumption | with_reducible apply program_keeps | with_reducible apply retireBlock_keeps | with_reducible exact Part.sub_trans hw (by decide))

theorem execProgramComplete_keeps {s : State} (c : Nat) (ok : Bool) :
    KeepsO [.rnd, .modes, .spares, .counts, .ports, .sessions, .ctxs, .nextId, .kept, .held, .sent, .locks, .marks, .logs, .owners, .keyspaces, .groups, .extents, .fineNext, .heat, .holds, .mapLog, .quince, .pages, .pipes, .queue, .sieves, .relay, .power, .sb, .dbg, .nor] s (execProgramComplete c ok s) := by
  have h₀ := Keeps.refl [.rnd, .modes, .spares, .counts, .ports, .sessions, .ctxs, .nextId, .kept, .held, .sent, .locks, .marks, .logs, .owners, .keyspaces, .groups, .extents, .fineNext, .heat, .holds, .mapLog, .quince, .pages, .pipes, .queue, .sieves, .relay, .power, .sb, .dbg, .nor] s
  have hw : Part.sub [.rnd, .modes, .spares, .counts, .ports, .sessions, .ctxs, .nextId, .kept, .held, .sent, .locks, .marks, .logs, .owners, .keyspaces, .groups, .extents, .fineNext, .heat, .holds, .mapLog, .quince, .pages, .pipes, .queue, .sieves, .relay, .power, .sb, .dbg, .nor] [.rnd, .modes, .spares, .counts, .ports, .sessions, .ctxs, .nextId, .kept, .held, .sent, .locks, .marks, .logs, .owners, .keyspaces, .groups, .extents, .fineNext, .heat, .holds, .mapLog, .quince, .pages, .pipes, .queue, .sieves, .relay, .power, .sb, .dbg, .nor] = true := by decide
  unfold execProgramComplete
  try dsimp only
  repeat' first
    | with_reducible assumption
    | with_reducible apply KeepsO.next
    | with_reducible apply KeepsO.ite
    | with_reducible apply Keeps.ite
    | with_reducible apply programFailed_keeps
    | with_reducible apply pumpSlots_keeps
    | with_reducible apply relaySettle_keeps
    | with_reducible apply settle_keeps
    | with_reducible apply toPhase_keeps
    | with_reducible apply updCtx_keeps
    | with_reducible exact Part.sub_trans hw (by decide)
    | split
    | (refine Keeps.mk_of rfl ?_; first | with_reducible assumption | with_reducible apply KeepsO.next | with_reducible apply KeepsO.ite | with_reducible apply Keeps.ite | with_reducible apply programFailed_keeps | with_reducible apply pumpSlots_keeps | with_reducible apply relaySettle_keeps | with_reducible apply settle_keeps | with_reducible apply toPhase_keeps | with_reducible apply updCtx_keeps | with_reducible exact Part.sub_trans hw (by decide))

end Sys2Proof.Machine
end

