-- ==== Sys2Proof/Laws/KeepsData.lean ====
section
/-! SUPPORT. Which parts of the state each operation of Machine/Data.lean may change. -/

set_option Elab.async false

namespace Sys2Proof.Machine

theorem toShaper_keeps {ws : List Part} {s₀ s : State} (h₀ : Keeps ws s₀ s) (x : Ctx)
    (hw : Part.sub [.ctxs] ws = true) : Keeps ws s₀ (State.toShaper s x) := by
  unfold State.toShaper
  try dsimp only
  repeat' first
    | with_reducible assumption
    | with_reducible apply toPhase_keeps
    | with_reducible exact Part.sub_trans hw (by decide)
    | split
    | (refine Keeps.mk_of rfl ?_; first | with_reducible assumption | with_reducible apply toPhase_keeps | with_reducible exact Part.sub_trans hw (by decide))

theorem checked_keeps {ws : List Part} {s₀ s : State} (h₀ : Keeps ws s₀ s) (x : Ctx) (limits place keys : Bool)
    (hw : Part.sub [.ports, .sessions, .ctxs, .nextId, .kept, .held, .sent, .locks, .keyspaces, .quince, .pages, .pipes, .queue, .relay, .power, .sb] ws = true) : Keeps ws s₀ (State.checked s x limits place keys) := by
  unfold State.checked
  try dsimp only
  repeat' first
    | with_reducible assumption
    | with_reducible apply endCmd_keeps
    | with_reducible apply toShaper_keeps
    | with_reducible exact Part.sub_trans hw (by decide)
    | split
    | (refine Keeps.mk_of rfl ?_; first | with_reducible assumption | with_reducible apply endCmd_keeps | with_reducible apply toShaper_keeps | with_reducible exact Part.sub_trans hw (by decide))

theorem writeConditions_keeps {ws : List Part} {s₀ s : State} (h₀ : Keeps ws s₀ s) (x : Ctx)
    (hw : Part.sub [.counts, .ports, .sessions, .ctxs, .nextId, .kept, .held, .sent, .locks, .keyspaces, .quince, .pages, .pipes, .queue, .relay, .power, .sb] ws = true) : Keeps ws s₀ (State.writeConditions s x) := by
  unfold State.writeConditions
  try dsimp only
  repeat' first
    | with_reducible assumption
    | with_reducible apply Keeps.ite
    | with_reducible apply endStatus_keeps
    | with_reducible apply toShaper_keeps
    | with_reducible exact Part.sub_trans hw (by decide)
    | split
    | (refine Keeps.mk_of rfl ?_; first | with_reducible assumption | with_reducible apply Keeps.ite | with_reducible apply endStatus_keeps | with_reducible apply toShaper_keeps | with_reducible exact Part.sub_trans hw (by decide))

theorem checkedWrite_keeps {ws : List Part} {s₀ s : State} (h₀ : Keeps ws s₀ s) (x : Ctx)
    (hw : Part.sub [.counts, .ports, .sessions, .ctxs, .nextId, .kept, .held, .sent, .locks, .logs, .keyspaces, .quince, .pages, .pipes, .queue, .relay, .power, .sb] ws = true) : Keeps ws s₀ (State.checkedWrite s x) := by
  unfold State.checkedWrite
  try dsimp only
  repeat' first
    | with_reducible assumption
    | with_reducible apply endCmd_keeps
    | with_reducible apply reserveUse_keeps
    | with_reducible apply updCtx_keeps
    | with_reducible apply writeConditions_keeps
    | with_reducible exact Part.sub_trans hw (by decide)
    | split
    | (refine Keeps.mk_of rfl ?_; first | with_reducible assumption | with_reducible apply endCmd_keeps | with_reducible apply reserveUse_keeps | with_reducible apply updCtx_keeps | with_reducible apply writeConditions_keeps | with_reducible exact Part.sub_trans hw (by decide))

theorem writeRow_keeps {ws : List Part} {s₀ s : State} (h₀ : Keeps ws s₀ s) (c op : Nat)
    (hw : Part.sub [.counts, .ports, .sessions, .ctxs, .nextId, .kept, .held, .sent, .locks, .marks, .logs, .owners, .keyspaces, .groups, .extents, .fineNext, .heat, .mapLog, .quince, .pages, .pipes, .queue, .relay, .power, .sb, .dbg] ws = true) : Keeps ws s₀ (State.writeRow s c op) := by
  unfold State.writeRow
  try dsimp only
  repeat' first
    | with_reducible assumption
    | with_reducible apply Keeps.ite
    | with_reducible apply checkedWrite_keeps
    | with_reducible apply settle_keeps
    | with_reducible exact Part.sub_trans hw (by decide)
    | split
    | (refine Keeps.mk_of rfl ?_; first | with_reducible assumption | with_reducible apply Keeps.ite | with_reducible apply checkedWrite_keeps | with_reducible apply settle_keeps | with_reducible exact Part.sub_trans hw (by decide))

theorem execGet_keeps {s : State} (c : Nat) :
    KeepsO [.counts, .ports, .sessions, .ctxs, .nextId, .kept, .held, .sent, .locks, .marks, .logs, .owners, .keyspaces, .groups, .extents, .fineNext, .heat, .mapLog, .quince, .pages, .pipes, .queue, .relay, .power, .sb, .dbg] s (execGet c s) := by
  have h₀ := Keeps.refl [.counts, .ports, .sessions, .ctxs, .nextId, .kept, .held, .sent, .locks, .marks, .logs, .owners, .keyspaces, .groups, .extents, .fineNext, .heat, .mapLog, .quince, .pages, .pipes, .queue, .relay, .power, .sb, .dbg] s
  have hw : Part.sub [.counts, .ports, .sessions, .ctxs, .nextId, .kept, .held, .sent, .locks, .marks, .logs, .owners, .keyspaces, .groups, .extents, .fineNext, .heat, .mapLog, .quince, .pages, .pipes, .queue, .relay, .power, .sb, .dbg] [.counts, .ports, .sessions, .ctxs, .nextId, .kept, .held, .sent, .locks, .marks, .logs, .owners, .keyspaces, .groups, .extents, .fineNext, .heat, .mapLog, .quince, .pages, .pipes, .queue, .relay, .power, .sb, .dbg] = true := by decide
  unfold execGet
  try dsimp only
  repeat' first
    | with_reducible assumption
    | with_reducible apply KeepsO.next
    | with_reducible apply KeepsO.ite
    | with_reducible apply checked_keeps
    | with_reducible apply settle_keeps
    | with_reducible exact Part.sub_trans hw (by decide)
    | split
    | (refine Keeps.mk_of rfl ?_; first | with_reducible assumption | with_reducible apply KeepsO.next | with_reducible apply KeepsO.ite | with_reducible apply checked_keeps | with_reducible apply settle_keeps | with_reducible exact Part.sub_trans hw (by decide))

theorem execPut_keeps {s : State} (c : Nat) :
    KeepsO [.counts, .ports, .sessions, .ctxs, .nextId, .kept, .held, .sent, .locks, .marks, .logs, .owners, .keyspaces, .groups, .extents, .fineNext, .heat, .mapLog, .quince, .pages, .pipes, .queue, .relay, .power, .sb, .dbg] s (execPut c s) := by
  have h₀ := Keeps.refl [.counts, .ports, .sessions, .ctxs, .nextId, .kept, .held, .sent, .locks, .marks, .logs, .owners, .keyspaces, .groups, .extents, .fineNext, .heat, .mapLog, .quince, .pages, .pipes, .queue, .relay, .power, .sb, .dbg] s
  have hw : Part.sub [.counts, .ports, .sessions, .ctxs, .nextId, .kept, .held, .sent, .locks, .marks, .logs, .owners, .keyspaces, .groups, .extents, .fineNext, .heat, .mapLog, .quince, .pages, .pipes, .queue, .relay, .power, .sb, .dbg] [.counts, .ports, .sessions, .ctxs, .nextId, .kept, .held, .sent, .locks, .marks, .logs, .owners, .keyspaces, .groups, .extents, .fineNext, .heat, .mapLog, .quince, .pages, .pipes, .queue, .relay, .power, .sb, .dbg] = true := by decide
  unfold execPut
  try dsimp only
  repeat' first
    | with_reducible assumption
    | with_reducible apply KeepsO.next
    | with_reducible apply KeepsO.ite
    | with_reducible apply writeRow_keeps
    | with_reducible exact Part.sub_trans hw (by decide)
    | split
    | (refine Keeps.mk_of rfl ?_; first | with_reducible assumption | with_reducible apply KeepsO.next | with_reducible apply KeepsO.ite | with_reducible apply writeRow_keeps | with_reducible exact Part.sub_trans hw (by decide))

theorem execPutPosted_keeps {s : State} (c : Nat) :
    KeepsO [.counts, .ports, .sessions, .ctxs, .nextId, .kept, .held, .sent, .locks, .marks, .logs, .owners, .keyspaces, .groups, .extents, .fineNext, .heat, .mapLog, .quince, .pages, .pipes, .queue, .relay, .power, .sb, .dbg] s (execPutPosted c s) := by
  have h₀ := Keeps.refl [.counts, .ports, .sessions, .ctxs, .nextId, .kept, .held, .sent, .locks, .marks, .logs, .owners, .keyspaces, .groups, .extents, .fineNext, .heat, .mapLog, .quince, .pages, .pipes, .queue, .relay, .power, .sb, .dbg] s
  have hw : Part.sub [.counts, .ports, .sessions, .ctxs, .nextId, .kept, .held, .sent, .locks, .marks, .logs, .owners, .keyspaces, .groups, .extents, .fineNext, .heat, .mapLog, .quince, .pages, .pipes, .queue, .relay, .power, .sb, .dbg] [.counts, .ports, .sessions, .ctxs, .nextId, .kept, .held, .sent, .locks, .marks, .logs, .owners, .keyspaces, .groups, .extents, .fineNext, .heat, .mapLog, .quince, .pages, .pipes, .queue, .relay, .power, .sb, .dbg] = true := by decide
  unfold execPutPosted
  try dsimp only
  repeat' first
    | with_reducible assumption
    | with_reducible apply KeepsO.next
    | with_reducible apply KeepsO.ite
    | with_reducible apply writeRow_keeps
    | with_reducible exact Part.sub_trans hw (by decide)
    | split
    | (refine Keeps.mk_of rfl ?_; first | with_reducible assumption | with_reducible apply KeepsO.next | with_reducible apply KeepsO.ite | with_reducible apply writeRow_keeps | with_reducible exact Part.sub_trans hw (by decide))

theorem execDelete_keeps {s : State} (c : Nat) :
    KeepsO [.counts, .ports, .sessions, .ctxs, .nextId, .kept, .held, .sent, .locks, .marks, .logs, .owners, .keyspaces, .groups, .extents, .fineNext, .heat, .mapLog, .quince, .pages, .pipes, .queue, .relay, .power, .sb, .dbg] s (execDelete c s) := by
  have h₀ := Keeps.refl [.counts, .ports, .sessions, .ctxs, .nextId, .kept, .held, .sent, .locks, .marks, .logs, .owners, .keyspaces, .groups, .extents, .fineNext, .heat, .mapLog, .quince, .pages, .pipes, .queue, .relay, .power, .sb, .dbg] s
  have hw : Part.sub [.counts, .ports, .sessions, .ctxs, .nextId, .kept, .held, .sent, .locks, .marks, .logs, .owners, .keyspaces, .groups, .extents, .fineNext, .heat, .mapLog, .quince, .pages, .pipes, .queue, .relay, .power, .sb, .dbg] [.counts, .ports, .sessions, .ctxs, .nextId, .kept, .held, .sent, .locks, .marks, .logs, .owners, .keyspaces, .groups, .extents, .fineNext, .heat, .mapLog, .quince, .pages, .pipes, .queue, .relay, .power, .sb, .dbg] = true := by decide
  unfold execDelete
  try dsimp only
  repeat' first
    | with_reducible assumption
    | with_reducible apply KeepsO.next
    | with_reducible apply KeepsO.ite
    | with_reducible apply writeRow_keeps
    | with_reducible exact Part.sub_trans hw (by decide)
    | split
    | (refine Keeps.mk_of rfl ?_; first | with_reducible assumption | with_reducible apply KeepsO.next | with_reducible apply KeepsO.ite | with_reducible apply writeRow_keeps | with_reducible exact Part.sub_trans hw (by decide))

theorem execAppendSegment_keeps {s : State} (c : Nat) :
    KeepsO [.counts, .ports, .sessions, .ctxs, .nextId, .kept, .held, .sent, .locks, .marks, .logs, .owners, .keyspaces, .groups, .extents, .fineNext, .heat, .mapLog, .quince, .pages, .pipes, .queue, .relay, .power, .sb, .dbg] s (execAppendSegment c s) := by
  have h₀ := Keeps.refl [.counts, .ports, .sessions, .ctxs, .nextId, .kept, .held, .sent, .locks, .marks, .logs, .owners, .keyspaces, .groups, .extents, .fineNext, .heat, .mapLog, .quince, .pages, .pipes, .queue, .relay, .power, .sb, .dbg] s
  have hw : Part.sub [.counts, .ports, .sessions, .ctxs, .nextId, .kept, .held, .sent, .locks, .marks, .logs, .owners, .keyspaces, .groups, .extents, .fineNext, .heat, .mapLog, .quince, .pages, .pipes, .queue, .relay, .power, .sb, .dbg] [.counts, .ports, .sessions, .ctxs, .nextId, .kept, .held, .sent, .locks, .marks, .logs, .owners, .keyspaces, .groups, .extents, .fineNext, .heat, .mapLog, .quince, .pages, .pipes, .queue, .relay, .power, .sb, .dbg] = true := by decide
  unfold execAppendSegment
  try dsimp only
  repeat' first
    | with_reducible assumption
    | with_reducible apply KeepsO.next
    | with_reducible apply KeepsO.ite
    | with_reducible apply writeRow_keeps
    | with_reducible exact Part.sub_trans hw (by decide)
    | split
    | (refine Keeps.mk_of rfl ?_; first | with_reducible assumption | with_reducible apply KeepsO.next | with_reducible apply KeepsO.ite | with_reducible apply writeRow_keeps | with_reducible exact Part.sub_trans hw (by decide))

theorem execDiscard_keeps {s : State} (c : Nat) :
    KeepsO [.counts, .ports, .sessions, .ctxs, .nextId, .kept, .held, .sent, .locks, .marks, .logs, .owners, .keyspaces, .groups, .extents, .fineNext, .heat, .mapLog, .quince, .pages, .pipes, .queue, .relay, .power, .sb, .dbg] s (execDiscard c s) := by
  have h₀ := Keeps.refl [.counts, .ports, .sessions, .ctxs, .nextId, .kept, .held, .sent, .locks, .marks, .logs, .owners, .keyspaces, .groups, .extents, .fineNext, .heat, .mapLog, .quince, .pages, .pipes, .queue, .relay, .power, .sb, .dbg] s
  have hw : Part.sub [.counts, .ports, .sessions, .ctxs, .nextId, .kept, .held, .sent, .locks, .marks, .logs, .owners, .keyspaces, .groups, .extents, .fineNext, .heat, .mapLog, .quince, .pages, .pipes, .queue, .relay, .power, .sb, .dbg] [.counts, .ports, .sessions, .ctxs, .nextId, .kept, .held, .sent, .locks, .marks, .logs, .owners, .keyspaces, .groups, .extents, .fineNext, .heat, .mapLog, .quince, .pages, .pipes, .queue, .relay, .power, .sb, .dbg] = true := by decide
  unfold execDiscard
  try dsimp only
  repeat' first
    | with_reducible assumption
    | with_reducible apply KeepsO.next
    | with_reducible apply KeepsO.ite
    | with_reducible apply writeRow_keeps
    | with_reducible exact Part.sub_trans hw (by decide)
    | split
    | (refine Keeps.mk_of rfl ?_; first | with_reducible assumption | with_reducible apply KeepsO.next | with_reducible apply KeepsO.ite | with_reducible apply writeRow_keeps | with_reducible exact Part.sub_trans hw (by decide))

theorem execSecureDiscard_keeps {s : State} (c : Nat) :
    KeepsO [.counts, .ports, .sessions, .ctxs, .nextId, .kept, .held, .sent, .locks, .marks, .logs, .owners, .keyspaces, .groups, .extents, .fineNext, .heat, .mapLog, .quince, .pages, .pipes, .queue, .relay, .power, .sb, .dbg] s (execSecureDiscard c s) := by
  have h₀ := Keeps.refl [.counts, .ports, .sessions, .ctxs, .nextId, .kept, .held, .sent, .locks, .marks, .logs, .owners, .keyspaces, .groups, .extents, .fineNext, .heat, .mapLog, .quince, .pages, .pipes, .queue, .relay, .power, .sb, .dbg] s
  have hw : Part.sub [.counts, .ports, .sessions, .ctxs, .nextId, .kept, .held, .sent, .locks, .marks, .logs, .owners, .keyspaces, .groups, .extents, .fineNext, .heat, .mapLog, .quince, .pages, .pipes, .queue, .relay, .power, .sb, .dbg] [.counts, .ports, .sessions, .ctxs, .nextId, .kept, .held, .sent, .locks, .marks, .logs, .owners, .keyspaces, .groups, .extents, .fineNext, .heat, .mapLog, .quince, .pages, .pipes, .queue, .relay, .power, .sb, .dbg] = true := by decide
  unfold execSecureDiscard
  try dsimp only
  repeat' first
    | with_reducible assumption
    | with_reducible apply KeepsO.next
    | with_reducible apply KeepsO.ite
    | with_reducible apply writeRow_keeps
    | with_reducible exact Part.sub_trans hw (by decide)
    | split
    | (refine Keeps.mk_of rfl ?_; first | with_reducible assumption | with_reducible apply KeepsO.next | with_reducible apply KeepsO.ite | with_reducible apply writeRow_keeps | with_reducible exact Part.sub_trans hw (by decide))

theorem execScanKeys_keeps {s : State} (c : Nat) :
    KeepsO [.counts, .ports, .sessions, .ctxs, .nextId, .kept, .held, .sent, .locks, .marks, .logs, .owners, .keyspaces, .groups, .extents, .fineNext, .heat, .mapLog, .quince, .pages, .pipes, .queue, .relay, .power, .sb, .dbg] s (execScanKeys c s) := by
  have h₀ := Keeps.refl [.counts, .ports, .sessions, .ctxs, .nextId, .kept, .held, .sent, .locks, .marks, .logs, .owners, .keyspaces, .groups, .extents, .fineNext, .heat, .mapLog, .quince, .pages, .pipes, .queue, .relay, .power, .sb, .dbg] s
  have hw : Part.sub [.counts, .ports, .sessions, .ctxs, .nextId, .kept, .held, .sent, .locks, .marks, .logs, .owners, .keyspaces, .groups, .extents, .fineNext, .heat, .mapLog, .quince, .pages, .pipes, .queue, .relay, .power, .sb, .dbg] [.counts, .ports, .sessions, .ctxs, .nextId, .kept, .held, .sent, .locks, .marks, .logs, .owners, .keyspaces, .groups, .extents, .fineNext, .heat, .mapLog, .quince, .pages, .pipes, .queue, .relay, .power, .sb, .dbg] = true := by decide
  unfold execScanKeys
  try dsimp only
  repeat' first
    | with_reducible assumption
    | with_reducible apply KeepsO.next
    | with_reducible apply KeepsO.ite
    | with_reducible apply checked_keeps
    | with_reducible apply settle_keeps
    | with_reducible exact Part.sub_trans hw (by decide)
    | split
    | (refine Keeps.mk_of rfl ?_; first | with_reducible assumption | with_reducible apply KeepsO.next | with_reducible apply KeepsO.ite | with_reducible apply checked_keeps | with_reducible apply settle_keeps | with_reducible exact Part.sub_trans hw (by decide))

theorem execHead_keeps {s : State} (c : Nat) :
    KeepsO [.counts, .ports, .sessions, .ctxs, .nextId, .kept, .held, .sent, .locks, .marks, .logs, .owners, .keyspaces, .groups, .extents, .fineNext, .heat, .mapLog, .quince, .pages, .pipes, .queue, .relay, .power, .sb, .dbg] s (execHead c s) := by
  have h₀ := Keeps.refl [.counts, .ports, .sessions, .ctxs, .nextId, .kept, .held, .sent, .locks, .marks, .logs, .owners, .keyspaces, .groups, .extents, .fineNext, .heat, .mapLog, .quince, .pages, .pipes, .queue, .relay, .power, .sb, .dbg] s
  have hw : Part.sub [.counts, .ports, .sessions, .ctxs, .nextId, .kept, .held, .sent, .locks, .marks, .logs, .owners, .keyspaces, .groups, .extents, .fineNext, .heat, .mapLog, .quince, .pages, .pipes, .queue, .relay, .power, .sb, .dbg] [.counts, .ports, .sessions, .ctxs, .nextId, .kept, .held, .sent, .locks, .marks, .logs, .owners, .keyspaces, .groups, .extents, .fineNext, .heat, .mapLog, .quince, .pages, .pipes, .queue, .relay, .power, .sb, .dbg] = true := by decide
  unfold execHead
  try dsimp only
  repeat' first
    | with_reducible assumption
    | with_reducible apply KeepsO.next
    | with_reducible apply KeepsO.ite
    | with_reducible apply checked_keeps
    | with_reducible apply settle_keeps
    | with_reducible exact Part.sub_trans hw (by decide)
    | split
    | (refine Keeps.mk_of rfl ?_; first | with_reducible assumption | with_reducible apply KeepsO.next | with_reducible apply KeepsO.ite | with_reducible apply checked_keeps | with_reducible apply settle_keeps | with_reducible exact Part.sub_trans hw (by decide))

theorem execVersionsNext_keeps {s : State} (c : Nat) :
    KeepsO [.counts, .ports, .sessions, .ctxs, .nextId, .kept, .held, .sent, .locks, .marks, .logs, .owners, .keyspaces, .groups, .extents, .fineNext, .heat, .mapLog, .quince, .pages, .pipes, .queue, .relay, .power, .sb, .dbg] s (execVersionsNext c s) := by
  have h₀ := Keeps.refl [.counts, .ports, .sessions, .ctxs, .nextId, .kept, .held, .sent, .locks, .marks, .logs, .owners, .keyspaces, .groups, .extents, .fineNext, .heat, .mapLog, .quince, .pages, .pipes, .queue, .relay, .power, .sb, .dbg] s
  have hw : Part.sub [.counts, .ports, .sessions, .ctxs, .nextId, .kept, .held, .sent, .locks, .marks, .logs, .owners, .keyspaces, .groups, .extents, .fineNext, .heat, .mapLog, .quince, .pages, .pipes, .queue, .relay, .power, .sb, .dbg] [.counts, .ports, .sessions, .ctxs, .nextId, .kept, .held, .sent, .locks, .marks, .logs, .owners, .keyspaces, .groups, .extents, .fineNext, .heat, .mapLog, .quince, .pages, .pipes, .queue, .relay, .power, .sb, .dbg] = true := by decide
  unfold execVersionsNext
  try dsimp only
  repeat' first
    | with_reducible assumption
    | with_reducible apply KeepsO.next
    | with_reducible apply KeepsO.ite
    | with_reducible apply checked_keeps
    | with_reducible apply settle_keeps
    | with_reducible exact Part.sub_trans hw (by decide)
    | split
    | (refine Keeps.mk_of rfl ?_; first | with_reducible assumption | with_reducible apply KeepsO.next | with_reducible apply KeepsO.ite | with_reducible apply checked_keeps | with_reducible apply settle_keeps | with_reducible exact Part.sub_trans hw (by decide))

theorem execSieveOpen_keeps {s : State} (c : Nat) :
    KeepsO [.counts, .ports, .sessions, .ctxs, .nextId, .kept, .held, .sent, .locks, .marks, .logs, .owners, .keyspaces, .groups, .extents, .fineNext, .heat, .mapLog, .quince, .pages, .pipes, .queue, .relay, .power, .sb, .dbg] s (execSieveOpen c s) := by
  have h₀ := Keeps.refl [.counts, .ports, .sessions, .ctxs, .nextId, .kept, .held, .sent, .locks, .marks, .logs, .owners, .keyspaces, .groups, .extents, .fineNext, .heat, .mapLog, .quince, .pages, .pipes, .queue, .relay, .power, .sb, .dbg] s
  have hw : Part.sub [.counts, .ports, .sessions, .ctxs, .nextId, .kept, .held, .sent, .locks, .marks, .logs, .owners, .keyspaces, .groups, .extents, .fineNext, .heat, .mapLog, .quince, .pages, .pipes, .queue, .relay, .power, .sb, .dbg] [.counts, .ports, .sessions, .ctxs, .nextId, .kept, .held, .sent, .locks, .marks, .logs, .owners, .keyspaces, .groups, .extents, .fineNext, .heat, .mapLog, .quince, .pages, .pipes, .queue, .relay, .power, .sb, .dbg] = true := by decide
  unfold execSieveOpen
  try dsimp only
  repeat' first
    | with_reducible assumption
    | with_reducible apply KeepsO.next
    | with_reducible apply KeepsO.ite
    | with_reducible apply checked_keeps
    | with_reducible apply settle_keeps
    | with_reducible exact Part.sub_trans hw (by decide)
    | split
    | (refine Keeps.mk_of rfl ?_; first | with_reducible assumption | with_reducible apply KeepsO.next | with_reducible apply KeepsO.ite | with_reducible apply checked_keeps | with_reducible apply settle_keeps | with_reducible exact Part.sub_trans hw (by decide))

theorem execSieveNext_keeps {s : State} (c : Nat) :
    KeepsO [.counts, .ports, .sessions, .ctxs, .nextId, .kept, .held, .sent, .locks, .marks, .logs, .owners, .keyspaces, .groups, .extents, .fineNext, .heat, .mapLog, .quince, .pages, .pipes, .queue, .relay, .power, .sb, .dbg] s (execSieveNext c s) := by
  have h₀ := Keeps.refl [.counts, .ports, .sessions, .ctxs, .nextId, .kept, .held, .sent, .locks, .marks, .logs, .owners, .keyspaces, .groups, .extents, .fineNext, .heat, .mapLog, .quince, .pages, .pipes, .queue, .relay, .power, .sb, .dbg] s
  have hw : Part.sub [.counts, .ports, .sessions, .ctxs, .nextId, .kept, .held, .sent, .locks, .marks, .logs, .owners, .keyspaces, .groups, .extents, .fineNext, .heat, .mapLog, .quince, .pages, .pipes, .queue, .relay, .power, .sb, .dbg] [.counts, .ports, .sessions, .ctxs, .nextId, .kept, .held, .sent, .locks, .marks, .logs, .owners, .keyspaces, .groups, .extents, .fineNext, .heat, .mapLog, .quince, .pages, .pipes, .queue, .relay, .power, .sb, .dbg] = true := by decide
  unfold execSieveNext
  try dsimp only
  repeat' first
    | with_reducible assumption
    | with_reducible apply KeepsO.next
    | with_reducible apply KeepsO.ite
    | with_reducible apply checked_keeps
    | with_reducible apply settle_keeps
    | with_reducible exact Part.sub_trans hw (by decide)
    | split
    | (refine Keeps.mk_of rfl ?_; first | with_reducible assumption | with_reducible apply KeepsO.next | with_reducible apply KeepsO.ite | with_reducible apply checked_keeps | with_reducible apply settle_keeps | with_reducible exact Part.sub_trans hw (by decide))

theorem execSieveClose_keeps {s : State} (c : Nat) :
    KeepsO [.counts, .ports, .sessions, .ctxs, .nextId, .kept, .held, .sent, .locks, .marks, .logs, .owners, .keyspaces, .groups, .extents, .fineNext, .heat, .mapLog, .quince, .pages, .pipes, .queue, .relay, .power, .sb, .dbg] s (execSieveClose c s) := by
  have h₀ := Keeps.refl [.counts, .ports, .sessions, .ctxs, .nextId, .kept, .held, .sent, .locks, .marks, .logs, .owners, .keyspaces, .groups, .extents, .fineNext, .heat, .mapLog, .quince, .pages, .pipes, .queue, .relay, .power, .sb, .dbg] s
  have hw : Part.sub [.counts, .ports, .sessions, .ctxs, .nextId, .kept, .held, .sent, .locks, .marks, .logs, .owners, .keyspaces, .groups, .extents, .fineNext, .heat, .mapLog, .quince, .pages, .pipes, .queue, .relay, .power, .sb, .dbg] [.counts, .ports, .sessions, .ctxs, .nextId, .kept, .held, .sent, .locks, .marks, .logs, .owners, .keyspaces, .groups, .extents, .fineNext, .heat, .mapLog, .quince, .pages, .pipes, .queue, .relay, .power, .sb, .dbg] = true := by decide
  unfold execSieveClose
  try dsimp only
  repeat' first
    | with_reducible assumption
    | with_reducible apply KeepsO.next
    | with_reducible apply KeepsO.ite
    | with_reducible apply checked_keeps
    | with_reducible apply settle_keeps
    | with_reducible exact Part.sub_trans hw (by decide)
    | split
    | (refine Keeps.mk_of rfl ?_; first | with_reducible assumption | with_reducible apply KeepsO.next | with_reducible apply KeepsO.ite | with_reducible apply checked_keeps | with_reducible apply settle_keeps | with_reducible exact Part.sub_trans hw (by decide))

theorem execAbort_keeps {s : State} (c : Nat) :
    KeepsO [.counts, .ports, .sessions, .ctxs, .nextId, .kept, .held, .sent, .locks, .marks, .logs, .owners, .keyspaces, .groups, .extents, .fineNext, .heat, .mapLog, .quince, .pages, .pipes, .queue, .relay, .power, .sb, .dbg] s (execAbort c s) := by
  have h₀ := Keeps.refl [.counts, .ports, .sessions, .ctxs, .nextId, .kept, .held, .sent, .locks, .marks, .logs, .owners, .keyspaces, .groups, .extents, .fineNext, .heat, .mapLog, .quince, .pages, .pipes, .queue, .relay, .power, .sb, .dbg] s
  have hw : Part.sub [.counts, .ports, .sessions, .ctxs, .nextId, .kept, .held, .sent, .locks, .marks, .logs, .owners, .keyspaces, .groups, .extents, .fineNext, .heat, .mapLog, .quince, .pages, .pipes, .queue, .relay, .power, .sb, .dbg] [.counts, .ports, .sessions, .ctxs, .nextId, .kept, .held, .sent, .locks, .marks, .logs, .owners, .keyspaces, .groups, .extents, .fineNext, .heat, .mapLog, .quince, .pages, .pipes, .queue, .relay, .power, .sb, .dbg] = true := by decide
  unfold execAbort
  try dsimp only
  repeat' first
    | with_reducible assumption
    | with_reducible apply KeepsO.next
    | with_reducible apply KeepsO.ite
    | with_reducible apply Keeps.ite
    | with_reducible apply endCmd_keeps
    | with_reducible apply endStatus_keeps
    | with_reducible apply settle_keeps
    | with_reducible exact Part.sub_trans hw (by decide)
    | split
    | (refine Keeps.mk_of rfl ?_; first | with_reducible assumption | with_reducible apply KeepsO.next | with_reducible apply KeepsO.ite | with_reducible apply Keeps.ite | with_reducible apply endCmd_keeps | with_reducible apply endStatus_keeps | with_reducible apply settle_keeps | with_reducible exact Part.sub_trans hw (by decide))

theorem toSettings_keeps {ws : List Part} {s₀ s : State} (h₀ : Keeps ws s₀ s) (c : Nat) (ch : Change) (r : Reply)
    (hw : Part.sub [.ctxs] ws = true) : Keeps ws s₀ (State.toSettings s c ch r) := by
  unfold State.toSettings
  try dsimp only
  repeat' first
    | with_reducible assumption
    | with_reducible apply updCtx_keeps
    | with_reducible exact Part.sub_trans hw (by decide)
    | split
    | (refine Keeps.mk_of rfl ?_; first | with_reducible assumption | with_reducible apply updCtx_keeps | with_reducible exact Part.sub_trans hw (by decide))

theorem execRelayedWrite_keeps {s : State} (c : Nat) :
    KeepsO [.counts, .ports, .sessions, .ctxs, .nextId, .kept, .held, .sent, .locks, .marks, .logs, .owners, .keyspaces, .groups, .extents, .fineNext, .heat, .mapLog, .quince, .pages, .pipes, .queue, .relay, .power, .sb, .dbg] s (execRelayedWrite c s) := by
  have h₀ := Keeps.refl [.counts, .ports, .sessions, .ctxs, .nextId, .kept, .held, .sent, .locks, .marks, .logs, .owners, .keyspaces, .groups, .extents, .fineNext, .heat, .mapLog, .quince, .pages, .pipes, .queue, .relay, .power, .sb, .dbg] s
  have hw : Part.sub [.counts, .ports, .sessions, .ctxs, .nextId, .kept, .held, .sent, .locks, .marks, .logs, .owners, .keyspaces, .groups, .extents, .fineNext, .heat, .mapLog, .quince, .pages, .pipes, .queue, .relay, .power, .sb, .dbg] [.counts, .ports, .sessions, .ctxs, .nextId, .kept, .held, .sent, .locks, .marks, .logs, .owners, .keyspaces, .groups, .extents, .fineNext, .heat, .mapLog, .quince, .pages, .pipes, .queue, .relay, .power, .sb, .dbg] = true := by decide
  unfold execRelayedWrite
  try dsimp only
  repeat' first
    | with_reducible assumption
    | with_reducible apply KeepsO.next
    | with_reducible apply KeepsO.ite
    | with_reducible apply Keeps.ite
    | with_reducible apply checkedWrite_keeps
    | with_reducible apply digestEvent_keeps
    | with_reducible apply endStatus_keeps
    | with_reducible apply settle_keeps
    | with_reducible exact Part.sub_trans hw (by decide)
    | split
    | (refine Keeps.mk_of rfl ?_; first | with_reducible assumption | with_reducible apply KeepsO.next | with_reducible apply KeepsO.ite | with_reducible apply Keeps.ite | with_reducible apply checkedWrite_keeps | with_reducible apply digestEvent_keeps | with_reducible apply endStatus_keeps | with_reducible apply settle_keeps | with_reducible exact Part.sub_trans hw (by decide))

theorem execSeedBegin_keeps {s : State} (c : Nat) :
    KeepsO [.rnd, .counts, .ports, .sessions, .ctxs, .nextId, .kept, .held, .sent, .locks, .marks, .logs, .owners, .keyspaces, .groups, .extents, .fineNext, .heat, .mapLog, .quince, .pages, .pipes, .queue, .relay, .power, .sb, .dbg, .nor] s (execSeedBegin c s) := by
  have h₀ := Keeps.refl [.rnd, .counts, .ports, .sessions, .ctxs, .nextId, .kept, .held, .sent, .locks, .marks, .logs, .owners, .keyspaces, .groups, .extents, .fineNext, .heat, .mapLog, .quince, .pages, .pipes, .queue, .relay, .power, .sb, .dbg, .nor] s
  have hw : Part.sub [.rnd, .counts, .ports, .sessions, .ctxs, .nextId, .kept, .held, .sent, .locks, .marks, .logs, .owners, .keyspaces, .groups, .extents, .fineNext, .heat, .mapLog, .quince, .pages, .pipes, .queue, .relay, .power, .sb, .dbg, .nor] [.rnd, .counts, .ports, .sessions, .ctxs, .nextId, .kept, .held, .sent, .locks, .marks, .logs, .owners, .keyspaces, .groups, .extents, .fineNext, .heat, .mapLog, .quince, .pages, .pipes, .queue, .relay, .power, .sb, .dbg, .nor] = true := by decide
  unfold execSeedBegin
  try dsimp only
  repeat' first
    | with_reducible assumption
    | with_reducible apply KeepsO.next
    | with_reducible apply KeepsO.ite
    | with_reducible apply Keeps.ite
    | with_reducible apply dequeue_keeps
    | with_reducible apply drawn_keeps
    | with_reducible apply endStatus_keeps
    | with_reducible apply saveSettings_keeps
    | with_reducible apply settle_keeps
    | with_reducible apply toSettings_keeps
    | with_reducible apply updKeyspace_keeps
    | with_reducible exact Part.sub_trans hw (by decide)
    | split
    | (refine Keeps.mk_of rfl ?_; first | with_reducible assumption | with_reducible apply KeepsO.next | with_reducible apply KeepsO.ite | with_reducible apply Keeps.ite | with_reducible apply dequeue_keeps | with_reducible apply drawn_keeps | with_reducible apply endStatus_keeps | with_reducible apply saveSettings_keeps | with_reducible apply settle_keeps | with_reducible apply toSettings_keeps | with_reducible apply updKeyspace_keeps | with_reducible exact Part.sub_trans hw (by decide))

theorem execSeedEnd_keeps {s : State} (c : Nat) :
    KeepsO [.counts, .ports, .sessions, .ctxs, .nextId, .kept, .held, .sent, .locks, .marks, .logs, .owners, .keyspaces, .groups, .extents, .fineNext, .heat, .mapLog, .quince, .pages, .pipes, .queue, .relay, .power, .sb, .dbg, .nor] s (execSeedEnd c s) := by
  have h₀ := Keeps.refl [.counts, .ports, .sessions, .ctxs, .nextId, .kept, .held, .sent, .locks, .marks, .logs, .owners, .keyspaces, .groups, .extents, .fineNext, .heat, .mapLog, .quince, .pages, .pipes, .queue, .relay, .power, .sb, .dbg, .nor] s
  have hw : Part.sub [.counts, .ports, .sessions, .ctxs, .nextId, .kept, .held, .sent, .locks, .marks, .logs, .owners, .keyspaces, .groups, .extents, .fineNext, .heat, .mapLog, .quince, .pages, .pipes, .queue, .relay, .power, .sb, .dbg, .nor] [.counts, .ports, .sessions, .ctxs, .nextId, .kept, .held, .sent, .locks, .marks, .logs, .owners, .keyspaces, .groups, .extents, .fineNext, .heat, .mapLog, .quince, .pages, .pipes, .queue, .relay, .power, .sb, .dbg, .nor] = true := by decide
  unfold execSeedEnd
  try dsimp only
  repeat' first
    | with_reducible assumption
    | with_reducible apply KeepsO.next
    | with_reducible apply KeepsO.ite
    | with_reducible apply Keeps.ite
    | with_reducible apply endStatus_keeps
    | with_reducible apply saveSettings_keeps
    | with_reducible apply settle_keeps
    | with_reducible apply updKeyspace_keeps
    | with_reducible exact Part.sub_trans hw (by decide)
    | split
    | (refine Keeps.mk_of rfl ?_; first | with_reducible assumption | with_reducible apply KeepsO.next | with_reducible apply KeepsO.ite | with_reducible apply Keeps.ite | with_reducible apply endStatus_keeps | with_reducible apply saveSettings_keeps | with_reducible apply settle_keeps | with_reducible apply updKeyspace_keeps | with_reducible exact Part.sub_trans hw (by decide))

end Sys2Proof.Machine
end

