-- ==== Sys2Proof/Laws/KeepsSessions.lean ====
section
/-! SUPPORT. Which parts of the state each operation of Machine/Sessions.lean may change. -/

set_option Elab.async false

namespace Sys2Proof.Machine

theorem answerOpen_keeps {ws : List Part} {s₀ s : State} (h₀ : Keeps ws s₀ s) (x : Ctx) (r : Reply)
    (hw : Part.sub [.ports, .sessions, .ctxs, .nextId, .kept, .held, .sent, .locks, .keyspaces, .quince, .pages, .pipes, .queue, .relay, .power, .sb] ws = true) : Keeps ws s₀ (State.answerOpen s x r) := by
  unfold State.answerOpen
  try dsimp only
  repeat' first
    | with_reducible assumption
    | with_reducible apply endCmd_keeps
    | with_reducible exact Part.sub_trans hw (by decide)
    | split
    | (refine Keeps.mk_of rfl ?_; first | with_reducible assumption | with_reducible apply endCmd_keeps | with_reducible exact Part.sub_trans hw (by decide))

theorem replayOpen_keeps {ws : List Part} {s₀ s : State} (h₀ : Keeps ws s₀ s) (x : Ctx) (y : Session)
    (hw : Part.sub [.counts, .ports, .sessions, .ctxs, .nextId, .kept, .held, .sent, .locks, .logs, .owners, .keyspaces, .groups, .extents, .fineNext, .heat, .mapLog, .quince, .pages, .pipes, .queue, .relay, .power, .sb, .dbg] ws = true) : Keeps ws s₀ (State.replayOpen s x y) := by
  unfold State.replayOpen
  try dsimp only
  repeat' first
    | with_reducible assumption
    | with_reducible apply granted_keeps
    | with_reducible apply sendOnce_keeps
    | with_reducible apply withCtxs_keeps
    | with_reducible exact Part.sub_trans hw (by decide)
    | split
    | (refine Keeps.mk_of rfl ?_; first | with_reducible assumption | with_reducible apply granted_keeps | with_reducible apply sendOnce_keeps | with_reducible apply withCtxs_keeps | with_reducible exact Part.sub_trans hw (by decide))

theorem openRoom_keeps {ws : List Part} {s₀ s t : State} (h : Keeps ws s₀ s) {o : Nat} {a : Option Nat} (e : s.openRoom o = (t, a))
    (hw : Part.sub [.counts, .sessions, .closed, .logs, .keyspaces] ws = true) : Keeps ws s₀ t := by
  unfold State.openRoom at e
  dsimp only at e
  repeat' split at e
  all_goals
    injection e with e _
    subst e
    first
      | exact h
      | exact freeSession_keeps h _ (Part.sub_trans hw (by decide))

theorem openSession_keeps {ws : List Part} {s₀ s : State} (h₀ : Keeps ws s₀ s) (x : Ctx) (n : Nat)
    (hw : Part.sub [.rnd, .ports, .sessions, .ctxs, .nextId, .kept, .held, .sent, .locks, .keyspaces, .quince, .pages, .pipes, .queue, .relay, .power, .sb] ws = true) : Keeps ws s₀ (State.openSession s x n) := by
  unfold State.openSession
  try dsimp only
  repeat' first
    | with_reducible assumption
    | with_reducible apply Keeps.ite
    | with_reducible apply drawn_keeps
    | with_reducible apply endCmd_keeps
    | with_reducible apply updCtx_keeps
    | with_reducible exact Part.sub_trans hw (by decide)
    | split
    | (refine Keeps.mk_of rfl ?_; first | with_reducible assumption | with_reducible apply Keeps.ite | with_reducible apply drawn_keeps | with_reducible apply endCmd_keeps | with_reducible apply updCtx_keeps | with_reducible exact Part.sub_trans hw (by decide))

theorem execSessionOpen_keeps {s : State} (c : Nat) :
    KeepsO [.rnd, .counts, .ports, .sessions, .closed, .ctxs, .nextId, .kept, .held, .sent, .locks, .logs, .owners, .keyspaces, .groups, .extents, .fineNext, .heat, .mapLog, .quince, .pages, .pipes, .queue, .relay, .power, .sb, .dbg] s (execSessionOpen c s) := by
  have h₀ := Keeps.refl [.rnd, .counts, .ports, .sessions, .closed, .ctxs, .nextId, .kept, .held, .sent, .locks, .logs, .owners, .keyspaces, .groups, .extents, .fineNext, .heat, .mapLog, .quince, .pages, .pipes, .queue, .relay, .power, .sb, .dbg] s
  have hw : Part.sub [.rnd, .counts, .ports, .sessions, .closed, .ctxs, .nextId, .kept, .held, .sent, .locks, .logs, .owners, .keyspaces, .groups, .extents, .fineNext, .heat, .mapLog, .quince, .pages, .pipes, .queue, .relay, .power, .sb, .dbg] [.rnd, .counts, .ports, .sessions, .closed, .ctxs, .nextId, .kept, .held, .sent, .locks, .logs, .owners, .keyspaces, .groups, .extents, .fineNext, .heat, .mapLog, .quince, .pages, .pipes, .queue, .relay, .power, .sb, .dbg] = true := by decide
  unfold execSessionOpen
  try dsimp only
  repeat' first
    | with_reducible assumption
    | with_reducible apply KeepsO.next
    | with_reducible apply KeepsO.ite
    | with_reducible apply Keeps.ite
    | with_reducible apply answerOpen_keeps
    | (refine openRoom_keeps ?_ (by assumption) (Part.sub_trans hw (by decide)))
    | with_reducible apply openSession_keeps
    | with_reducible apply replayOpen_keeps
    | with_reducible exact Part.sub_trans hw (by decide)
    | split
    | (refine Keeps.mk_of rfl ?_; first | with_reducible assumption | with_reducible apply KeepsO.next | with_reducible apply KeepsO.ite | with_reducible apply Keeps.ite | with_reducible apply answerOpen_keeps | (refine openRoom_keeps ?_ (by assumption) (Part.sub_trans hw (by decide))) | with_reducible apply openSession_keeps | with_reducible apply replayOpen_keeps | with_reducible exact Part.sub_trans hw (by decide))

theorem execSessionClose_keeps {s : State} (c : Nat) :
    KeepsO [.ports, .sessions, .ctxs, .nextId, .kept, .held, .sent, .locks, .keyspaces, .quince, .pages, .pipes, .queue, .relay, .power, .sb] s (execSessionClose c s) := by
  have h₀ := Keeps.refl [.ports, .sessions, .ctxs, .nextId, .kept, .held, .sent, .locks, .keyspaces, .quince, .pages, .pipes, .queue, .relay, .power, .sb] s
  have hw : Part.sub [.ports, .sessions, .ctxs, .nextId, .kept, .held, .sent, .locks, .keyspaces, .quince, .pages, .pipes, .queue, .relay, .power, .sb] [.ports, .sessions, .ctxs, .nextId, .kept, .held, .sent, .locks, .keyspaces, .quince, .pages, .pipes, .queue, .relay, .power, .sb] = true := by decide
  unfold execSessionClose
  try dsimp only
  repeat' first
    | with_reducible assumption
    | with_reducible apply KeepsO.next
    | with_reducible apply KeepsO.ite
    | with_reducible apply Keeps.ite
    | with_reducible apply endStatus_keeps
    | with_reducible apply toPhase_keeps
    | with_reducible apply updSession_keeps
    | with_reducible exact Part.sub_trans hw (by decide)
    | split
    | (refine Keeps.mk_of rfl ?_; first | with_reducible assumption | with_reducible apply KeepsO.next | with_reducible apply KeepsO.ite | with_reducible apply Keeps.ite | with_reducible apply endStatus_keeps | with_reducible apply toPhase_keeps | with_reducible apply updSession_keeps | with_reducible exact Part.sub_trans hw (by decide))

theorem execSessionCloseDrained_keeps {s : State} (c : Nat) :
    KeepsO [.ports, .sessions, .ctxs, .nextId, .kept, .held, .sent, .locks, .keyspaces, .quince, .pages, .pipes, .queue, .relay, .power, .sb] s (execSessionCloseDrained c s) := by
  have h₀ := Keeps.refl [.ports, .sessions, .ctxs, .nextId, .kept, .held, .sent, .locks, .keyspaces, .quince, .pages, .pipes, .queue, .relay, .power, .sb] s
  have hw : Part.sub [.ports, .sessions, .ctxs, .nextId, .kept, .held, .sent, .locks, .keyspaces, .quince, .pages, .pipes, .queue, .relay, .power, .sb] [.ports, .sessions, .ctxs, .nextId, .kept, .held, .sent, .locks, .keyspaces, .quince, .pages, .pipes, .queue, .relay, .power, .sb] = true := by decide
  unfold execSessionCloseDrained
  try dsimp only
  repeat' first
    | with_reducible assumption
    | with_reducible apply KeepsO.next
    | with_reducible apply KeepsO.ite
    | with_reducible apply Keeps.ite
    | with_reducible apply endStatus_keeps
    | with_reducible apply updSession_keeps
    | with_reducible exact Part.sub_trans hw (by decide)
    | split
    | (refine Keeps.mk_of rfl ?_; first | with_reducible assumption | with_reducible apply KeepsO.next | with_reducible apply KeepsO.ite | with_reducible apply Keeps.ite | with_reducible apply endStatus_keeps | with_reducible apply updSession_keeps | with_reducible exact Part.sub_trans hw (by decide))

theorem setWindow_keeps {ws : List Part} {s₀ s : State} (h₀ : Keeps ws s₀ s) (n w : Nat)
    (hw : Part.sub [.sessions] ws = true) : Keeps ws s₀ (State.setWindow s n w) := by
  unfold State.setWindow
  try dsimp only
  repeat' first
    | with_reducible assumption
    | with_reducible apply updSession_keeps
    | with_reducible exact Part.sub_trans hw (by decide)
    | split
    | (refine Keeps.mk_of rfl ?_; first | with_reducible assumption | with_reducible apply updSession_keeps | with_reducible exact Part.sub_trans hw (by decide))

theorem shrinkLargest_keeps {ws : List Part} {s₀ s : State} (h : Keeps ws s₀ s) (floor fuel excess : Nat) (hw : Part.sub [.sessions] ws = true) :
    Keeps ws s₀ (State.shrinkLargest s floor fuel excess) := by
  induction fuel generalizing s excess with
  | zero => unfold State.shrinkLargest; exact h
  | succ n ih =>
    unfold State.shrinkLargest
    split
    · exact h
    · exact h
    · rename_i fuel hf _
      have hf : fuel = n := (Nat.succ.inj hf).symm
      subst hf
      dsimp only
      split
      · exact h
      · split
        · exact h
        · exact ih (setWindow_keeps h _ _ (Part.sub_trans hw (by decide))) _

theorem shrinkCommons_keeps {ws : List Part} {s₀ s : State} (h₀ : Keeps ws s₀ s) 
    (hw : Part.sub [.sessions] ws = true) : Keeps ws s₀ (State.shrinkCommons s) := by
  unfold State.shrinkCommons
  try dsimp only
  repeat' first
    | with_reducible assumption
    | with_reducible apply shrinkLargest_keeps
    | with_reducible exact Part.sub_trans hw (by decide)
    | split
    | (refine Keeps.mk_of rfl ?_; first | with_reducible assumption | with_reducible apply shrinkLargest_keeps | with_reducible exact Part.sub_trans hw (by decide))

theorem growWindows_keeps {ws : List Part} {s₀ s : State} (h₀ : Keeps ws s₀ s) (o cap : Nat)
    (hw : Part.sub [.sessions] ws = true) : Keeps ws s₀ (State.growWindows s o cap) := by
  unfold State.growWindows
  try dsimp only
  repeat' first
    | with_reducible assumption
    | with_reducible apply Keeps.ite
    | (with_reducible refine Keeps.foldl ?_ (fun _ _ _ => ?_))
    | with_reducible apply setWindow_keeps
    | with_reducible exact Part.sub_trans hw (by decide)
    | split
    | (refine Keeps.mk_of rfl ?_; first | with_reducible assumption | with_reducible apply Keeps.ite | (with_reducible refine Keeps.foldl ?_ (fun _ _ _ => ?_)) | with_reducible apply setWindow_keeps | with_reducible exact Part.sub_trans hw (by decide))

theorem rebalance_keeps {ws : List Part} {s₀ s : State} (h₀ : Keeps ws s₀ s) (o : Nat)
    (hw : Part.sub [.sessions] ws = true) : Keeps ws s₀ (State.rebalance s o) := by
  unfold State.rebalance
  try dsimp only
  repeat' first
    | with_reducible assumption
    | with_reducible apply Keeps.ite
    | (with_reducible refine Keeps.foldl ?_ (fun _ _ _ => ?_))
    | with_reducible apply growWindows_keeps
    | with_reducible apply setWindow_keeps
    | with_reducible apply shrinkCommons_keeps
    | with_reducible exact Part.sub_trans hw (by decide)
    | split
    | (refine Keeps.mk_of rfl ?_; first | with_reducible assumption | with_reducible apply Keeps.ite | (with_reducible refine Keeps.foldl ?_ (fun _ _ _ => ?_)) | with_reducible apply growWindows_keeps | with_reducible apply setWindow_keeps | with_reducible apply shrinkCommons_keeps | with_reducible exact Part.sub_trans hw (by decide))

theorem execWindowRebalance_keeps {s : State}  :
    KeepsO [.sessions] s (execWindowRebalance s) := by
  have h₀ := Keeps.refl [.sessions] s
  have hw : Part.sub [.sessions] [.sessions] = true := by decide
  unfold execWindowRebalance
  try dsimp only
  repeat' first
    | with_reducible assumption
    | with_reducible apply KeepsO.next
    | with_reducible apply KeepsO.ite
    | (with_reducible refine Keeps.foldl ?_ (fun _ _ _ => ?_))
    | with_reducible apply rebalance_keeps
    | with_reducible exact Part.sub_trans hw (by decide)
    | split
    | (refine Keeps.mk_of rfl ?_; first | with_reducible assumption | with_reducible apply KeepsO.next | with_reducible apply KeepsO.ite | (with_reducible refine Keeps.foldl ?_ (fun _ _ _ => ?_)) | with_reducible apply rebalance_keeps | with_reducible exact Part.sub_trans hw (by decide))

theorem execEcho_keeps {s : State} (c : Nat) :
    KeepsO [.ports, .sessions, .ctxs, .nextId, .kept, .held, .sent, .locks, .keyspaces, .quince, .pages, .pipes, .queue, .relay, .power, .sb] s (execEcho c s) := by
  have h₀ := Keeps.refl [.ports, .sessions, .ctxs, .nextId, .kept, .held, .sent, .locks, .keyspaces, .quince, .pages, .pipes, .queue, .relay, .power, .sb] s
  have hw : Part.sub [.ports, .sessions, .ctxs, .nextId, .kept, .held, .sent, .locks, .keyspaces, .quince, .pages, .pipes, .queue, .relay, .power, .sb] [.ports, .sessions, .ctxs, .nextId, .kept, .held, .sent, .locks, .keyspaces, .quince, .pages, .pipes, .queue, .relay, .power, .sb] = true := by decide
  unfold execEcho
  try dsimp only
  repeat' first
    | with_reducible assumption
    | with_reducible apply KeepsO.next
    | with_reducible apply KeepsO.ite
    | with_reducible apply Keeps.ite
    | with_reducible apply endCmd_keeps
    | with_reducible apply endStatus_keeps
    | with_reducible exact Part.sub_trans hw (by decide)
    | split
    | (refine Keeps.mk_of rfl ?_; first | with_reducible assumption | with_reducible apply KeepsO.next | with_reducible apply KeepsO.ite | with_reducible apply Keeps.ite | with_reducible apply endCmd_keeps | with_reducible apply endStatus_keeps | with_reducible exact Part.sub_trans hw (by decide))

end Sys2Proof.Machine
end

