-- ==== Sys2Proof/Laws/KeepsFence.lean ====
section
/-! SUPPORT. Which parts of the state each operation of Machine/Fence.lean may change. -/

set_option Elab.async false

namespace Sys2Proof.Machine

theorem passSet_keeps {ws : List Part} {s₀ s : State} (h₀ : Keeps ws s₀ s) (t : Nat)
    (hw : Part.sub [.owners] ws = true) : Keeps ws s₀ (State.passSet s t) := by
  unfold State.passSet
  try dsimp only
  repeat' first
    | with_reducible assumption
    | with_reducible apply Keeps.ite
    | with_reducible apply updOwner_keeps
    | with_reducible exact Part.sub_trans hw (by decide)
    | split
    | (refine Keeps.mk_of rfl ?_; first | with_reducible assumption | with_reducible apply Keeps.ite | with_reducible apply updOwner_keeps | with_reducible exact Part.sub_trans hw (by decide))

theorem passSets_keeps {ws : List Part} {s₀ s : State} (h₀ : Keeps ws s₀ s) 
    (hw : Part.sub [.owners] ws = true) : Keeps ws s₀ (State.passSets s) := by
  unfold State.passSets
  try dsimp only
  repeat' first
    | with_reducible assumption
    | (with_reducible refine Keeps.foldl ?_ (fun _ _ _ => ?_))
    | with_reducible apply passSet_keeps
    | with_reducible exact Part.sub_trans hw (by decide)
    | split
    | (refine Keeps.mk_of rfl ?_; first | with_reducible assumption | (with_reducible refine Keeps.foldl ?_ (fun _ _ _ => ?_)) | with_reducible apply passSet_keeps | with_reducible exact Part.sub_trans hw (by decide))

theorem movePipes_keeps {ws : List Part} {s₀ s : State} (h₀ : Keeps ws s₀ s) (f n : Nat)
    (hw : Part.sub [.counts, .ports, .sessions, .ctxs, .nextId, .kept, .held, .sent, .logs, .keyspaces, .pages, .pipes, .queue, .power] ws = true) : Keeps ws s₀ (State.movePipes s f n) := by
  unfold State.movePipes
  try dsimp only
  repeat' first
    | with_reducible assumption
    | with_reducible apply Keeps.ite
    | (with_reducible refine Keeps.foldl ?_ (fun _ _ _ => ?_))
    | with_reducible apply nextJob_keeps
    | with_reducible exact Part.sub_trans hw (by decide)
    | split
    | (refine Keeps.mk_of rfl ?_; first | with_reducible assumption | with_reducible apply Keeps.ite | (with_reducible refine Keeps.foldl ?_ (fun _ _ _ => ?_)) | with_reducible apply nextJob_keeps | with_reducible exact Part.sub_trans hw (by decide))

theorem setFence_keeps {ws : List Part} {s₀ s : State} (h₀ : Keeps ws s₀ s) (f sess cells pipes dies : Nat)
    (hw : Part.sub [.counts, .ports, .sessions, .ctxs, .nextId, .kept, .held, .sent, .locks, .logs, .owners, .keyspaces, .groups, .extents, .fineNext, .mapLog, .quince, .pages, .pipes, .queue, .relay, .power, .sb] ws = true) : Keeps ws s₀ (State.setFence s f sess cells pipes dies) := by
  unfold State.setFence
  try dsimp only
  repeat' first
    | with_reducible assumption
    | (with_reducible refine Keeps.foldl ?_ (fun _ _ _ => ?_))
    | with_reducible apply closeGroup_keeps
    | with_reducible apply movePipes_keeps
    | with_reducible apply passSets_keeps
    | with_reducible apply retrySpace_keeps
    | with_reducible apply updOwner_keeps
    | with_reducible exact Part.sub_trans hw (by decide)
    | split
    | (refine Keeps.mk_of rfl ?_; first | with_reducible assumption | (with_reducible refine Keeps.foldl ?_ (fun _ _ _ => ?_)) | with_reducible apply closeGroup_keeps | with_reducible apply movePipes_keeps | with_reducible apply passSets_keeps | with_reducible apply retrySpace_keeps | with_reducible apply updOwner_keeps | with_reducible exact Part.sub_trans hw (by decide))

end Sys2Proof.Machine
end

