-- ==== Sys2Proof/Laws/KeepsAdmin.lean ====
section
/-! SUPPORT. Which parts of the state each operation of Machine/Admin.lean may change. -/

set_option Elab.async false

namespace Sys2Proof.Machine

theorem adminRow_keeps {ws : List Part} {s₀ s : State} (h : Keeps ws s₀ s) (c op : Nat) (settings : Bool) (limits : Ctx → Bool) {run : Ctx → State}
    (hr : ∀ x, Keeps ws s₀ (run x)) (hw : Part.sub [.ports, .sessions, .ctxs, .nextId, .kept, .held, .sent, .locks, .keyspaces, .quince, .pages, .pipes, .queue, .relay, .power, .sb] ws = true) : Keeps ws s₀ (State.adminRow s c op settings limits run) := by
  unfold State.adminRow
  repeat' first
    | with_reducible assumption
    | with_reducible apply endStatus_keeps
    | with_reducible exact Part.sub_trans hw (by decide)
    | exact hr _
    | split

theorem change_keeps {ws : List Part} {s₀ s : State} (h₀ : Keeps ws s₀ s) (x : Ctx) (ch : Change) (r : Reply)
    (hw : Part.sub [.ports, .sessions, .ctxs, .nextId, .kept, .held, .sent, .locks, .keyspaces, .quince, .pages, .pipes, .queue, .relay, .power, .sb] ws = true) : Keeps ws s₀ (State.change s x ch r) := by
  unfold State.change
  try dsimp only
  repeat' first
    | with_reducible assumption
    | with_reducible apply endCmd_keeps
    | with_reducible apply toSettings_keeps
    | with_reducible exact Part.sub_trans hw (by decide)
    | split
    | (refine Keeps.mk_of rfl ?_; first | with_reducible assumption | with_reducible apply endCmd_keeps | with_reducible apply toSettings_keeps | with_reducible exact Part.sub_trans hw (by decide))

theorem unlockSeen_keeps {ws : List Part} {s₀ s : State} (h₀ : Keeps ws s₀ s) 
    (hw : Part.sub [.supply] ws = true) : Keeps ws s₀ (State.unlockSeen s) := by
  unfold State.unlockSeen
  try dsimp only
  repeat' first
    | with_reducible assumption
    | with_reducible apply Keeps.ite
    | split
    | (refine Keeps.mk_of rfl ?_; first | with_reducible assumption | with_reducible apply Keeps.ite)

theorem execKeyspaceCreate_keeps {s : State} (c : Nat) :
    KeepsO [.rnd, .ports, .sessions, .ctxs, .nextId, .kept, .held, .sent, .locks, .keyspaces, .quince, .pages, .pipes, .queue, .relay, .power, .sb] s (execKeyspaceCreate c s) := by
  have h₀ := Keeps.refl [.rnd, .ports, .sessions, .ctxs, .nextId, .kept, .held, .sent, .locks, .keyspaces, .quince, .pages, .pipes, .queue, .relay, .power, .sb] s
  have hw : Part.sub [.rnd, .ports, .sessions, .ctxs, .nextId, .kept, .held, .sent, .locks, .keyspaces, .quince, .pages, .pipes, .queue, .relay, .power, .sb] [.rnd, .ports, .sessions, .ctxs, .nextId, .kept, .held, .sent, .locks, .keyspaces, .quince, .pages, .pipes, .queue, .relay, .power, .sb] = true := by decide
  unfold execKeyspaceCreate
  try dsimp only
  repeat' first
    | with_reducible assumption
    | with_reducible apply KeepsO.next
    | with_reducible apply KeepsO.ite
    | (with_reducible refine adminRow_keeps ?_ _ _ _ _ (fun _ => ?_) (Part.sub_trans hw (by decide)); try dsimp only)
    | dsimp only
    | with_reducible apply change_keeps
    | with_reducible apply drawn_keeps
    | with_reducible apply endStatus_keeps
    | with_reducible exact Part.sub_trans hw (by decide)
    | split
    | (refine Keeps.mk_of rfl ?_; first | with_reducible assumption | with_reducible apply KeepsO.next | with_reducible apply KeepsO.ite | (with_reducible refine adminRow_keeps ?_ _ _ _ _ (fun _ => ?_) (Part.sub_trans hw (by decide)); try dsimp only) | dsimp only | with_reducible apply change_keeps | with_reducible apply drawn_keeps | with_reducible apply endStatus_keeps | with_reducible exact Part.sub_trans hw (by decide))

theorem execKeyspaceDelete_keeps {s : State} (c : Nat) :
    KeepsO [.ports, .sessions, .ctxs, .nextId, .kept, .held, .sent, .locks, .logs, .keyspaces, .quince, .pages, .pipes, .queue, .sieves, .relay, .power, .sb, .dbg] s (execKeyspaceDelete c s) := by
  have h₀ := Keeps.refl [.ports, .sessions, .ctxs, .nextId, .kept, .held, .sent, .locks, .logs, .keyspaces, .quince, .pages, .pipes, .queue, .sieves, .relay, .power, .sb, .dbg] s
  have hw : Part.sub [.ports, .sessions, .ctxs, .nextId, .kept, .held, .sent, .locks, .logs, .keyspaces, .quince, .pages, .pipes, .queue, .sieves, .relay, .power, .sb, .dbg] [.ports, .sessions, .ctxs, .nextId, .kept, .held, .sent, .locks, .logs, .keyspaces, .quince, .pages, .pipes, .queue, .sieves, .relay, .power, .sb, .dbg] = true := by decide
  unfold execKeyspaceDelete
  try dsimp only
  repeat' first
    | with_reducible assumption
    | with_reducible apply KeepsO.next
    | with_reducible apply KeepsO.ite
    | with_reducible apply Keeps.ite
    | (with_reducible refine adminRow_keeps ?_ _ _ _ _ (fun _ => ?_) (Part.sub_trans hw (by decide)); try dsimp only)
    | dsimp only
    | with_reducible apply closeSieves_keeps
    | with_reducible apply endCmd_keeps
    | with_reducible apply endStatus_keeps
    | with_reducible apply toPhase_keeps
    | with_reducible apply updKeyspace_keeps
    | with_reducible exact Part.sub_trans hw (by decide)
    | split
    | (refine Keeps.mk_of rfl ?_; first | with_reducible assumption | with_reducible apply KeepsO.next | with_reducible apply KeepsO.ite | with_reducible apply Keeps.ite | (with_reducible refine adminRow_keeps ?_ _ _ _ _ (fun _ => ?_) (Part.sub_trans hw (by decide)); try dsimp only) | dsimp only | with_reducible apply closeSieves_keeps | with_reducible apply endCmd_keeps | with_reducible apply endStatus_keeps | with_reducible apply toPhase_keeps | with_reducible apply updKeyspace_keeps | with_reducible exact Part.sub_trans hw (by decide))

theorem dropPairs_keeps {ws : List Part} {s₀ s : State} (h₀ : Keeps ws s₀ s) (ks : Nat) (gone : Succ → Bool)
    (hw : Part.sub [.relay] ws = true) : Keeps ws s₀ (State.dropPairs s ks gone) := by
  unfold State.dropPairs
  try dsimp only
  repeat' first
    | with_reducible assumption
    | split
    | (refine Keeps.mk_of rfl ?_; first | with_reducible assumption)

theorem deleteKeyspace_keeps {ws : List Part} {s₀ s : State} (h₀ : Keeps ws s₀ s) (k : Keyspace)
    (hw : Part.sub [.supply, .logs, .keyspaces, .entries, .stale, .logA, .logB, .dirty, .quince, .pages, .sieves, .relay, .dbg] ws = true) : Keeps ws s₀ (State.deleteKeyspace s k) := by
  unfold State.deleteKeyspace
  try dsimp only
  repeat' first
    | with_reducible assumption
    | with_reducible apply Keeps.ite
    | (with_reducible refine Keeps.foldl ?_ (fun _ _ _ => ?_))
    | with_reducible apply clearPage_keeps
    | with_reducible apply closeSieves_keeps
    | with_reducible apply dirLog_keeps
    | with_reducible apply dropPairs_keeps
    | with_reducible apply markStale_keeps
    | with_reducible apply qUpdate_keeps
    | with_reducible apply removeEntry_keeps
    | with_reducible apply unlockSeen_keeps
    | with_reducible exact Part.sub_trans hw (by decide)
    | split
    | (refine Keeps.mk_of rfl ?_; first | with_reducible assumption | with_reducible apply Keeps.ite | (with_reducible refine Keeps.foldl ?_ (fun _ _ _ => ?_)) | with_reducible apply clearPage_keeps | with_reducible apply closeSieves_keeps | with_reducible apply dirLog_keeps | with_reducible apply dropPairs_keeps | with_reducible apply markStale_keeps | with_reducible apply qUpdate_keeps | with_reducible apply removeEntry_keeps | with_reducible apply unlockSeen_keeps | with_reducible exact Part.sub_trans hw (by decide))

theorem execKeyspaceDeleteDrained_keeps {s : State} (c : Nat) :
    KeepsO [.rnd, .supply, .counts, .ports, .sessions, .ctxs, .nextId, .kept, .held, .sent, .locks, .marks, .logs, .owners, .keyspaces, .entries, .groups, .extents, .fineNext, .eraseSets, .stale, .heat, .cache, .holds, .logA, .logB, .mapLog, .dirty, .quince, .pages, .pipes, .queue, .sieves, .relay, .power, .sb, .dbg, .nor] s (execKeyspaceDeleteDrained c s) := by
  have h₀ := Keeps.refl [.rnd, .supply, .counts, .ports, .sessions, .ctxs, .nextId, .kept, .held, .sent, .locks, .marks, .logs, .owners, .keyspaces, .entries, .groups, .extents, .fineNext, .eraseSets, .stale, .heat, .cache, .holds, .logA, .logB, .mapLog, .dirty, .quince, .pages, .pipes, .queue, .sieves, .relay, .power, .sb, .dbg, .nor] s
  have hw : Part.sub [.rnd, .supply, .counts, .ports, .sessions, .ctxs, .nextId, .kept, .held, .sent, .locks, .marks, .logs, .owners, .keyspaces, .entries, .groups, .extents, .fineNext, .eraseSets, .stale, .heat, .cache, .holds, .logA, .logB, .mapLog, .dirty, .quince, .pages, .pipes, .queue, .sieves, .relay, .power, .sb, .dbg, .nor] [.rnd, .supply, .counts, .ports, .sessions, .ctxs, .nextId, .kept, .held, .sent, .locks, .marks, .logs, .owners, .keyspaces, .entries, .groups, .extents, .fineNext, .eraseSets, .stale, .heat, .cache, .holds, .logA, .logB, .mapLog, .dirty, .quince, .pages, .pipes, .queue, .sieves, .relay, .power, .sb, .dbg, .nor] = true := by decide
  unfold execKeyspaceDeleteDrained
  try dsimp only
  repeat' first
    | with_reducible assumption
    | with_reducible apply KeepsO.next
    | with_reducible apply KeepsO.ite
    | with_reducible apply Keeps.ite
    | with_reducible apply cacheDrop_keeps
    | with_reducible apply deleteKeyspace_keeps
    | with_reducible apply endStatus_keeps
    | with_reducible apply formEraseSet_keeps
    | with_reducible apply relaySettle_keeps
    | with_reducible apply retrySpace_keeps
    | with_reducible apply saveSettings_keeps
    | with_reducible apply updCtx_keeps
    | with_reducible exact Part.sub_trans hw (by decide)
    | split
    | (refine Keeps.mk_of rfl ?_; first | with_reducible assumption | with_reducible apply KeepsO.next | with_reducible apply KeepsO.ite | with_reducible apply Keeps.ite | with_reducible apply cacheDrop_keeps | with_reducible apply deleteKeyspace_keeps | with_reducible apply endStatus_keeps | with_reducible apply formEraseSet_keeps | with_reducible apply relaySettle_keeps | with_reducible apply retrySpace_keeps | with_reducible apply saveSettings_keeps | with_reducible apply updCtx_keeps | with_reducible exact Part.sub_trans hw (by decide))

theorem execKeyspaceQuery_keeps {s : State} (c : Nat) :
    KeepsO [.ports, .sessions, .ctxs, .nextId, .kept, .held, .sent, .locks, .keyspaces, .quince, .pages, .pipes, .queue, .relay, .power, .sb] s (execKeyspaceQuery c s) := by
  have h₀ := Keeps.refl [.ports, .sessions, .ctxs, .nextId, .kept, .held, .sent, .locks, .keyspaces, .quince, .pages, .pipes, .queue, .relay, .power, .sb] s
  have hw : Part.sub [.ports, .sessions, .ctxs, .nextId, .kept, .held, .sent, .locks, .keyspaces, .quince, .pages, .pipes, .queue, .relay, .power, .sb] [.ports, .sessions, .ctxs, .nextId, .kept, .held, .sent, .locks, .keyspaces, .quince, .pages, .pipes, .queue, .relay, .power, .sb] = true := by decide
  unfold execKeyspaceQuery
  try dsimp only
  repeat' first
    | with_reducible assumption
    | with_reducible apply KeepsO.next
    | with_reducible apply KeepsO.ite
    | with_reducible apply Keeps.ite
    | (with_reducible refine adminRow_keeps ?_ _ _ _ _ (fun _ => ?_) (Part.sub_trans hw (by decide)); try dsimp only)
    | dsimp only
    | with_reducible apply endCmd_keeps
    | with_reducible apply endStatus_keeps
    | with_reducible apply updKeyspace_keeps
    | with_reducible exact Part.sub_trans hw (by decide)
    | split
    | (refine Keeps.mk_of rfl ?_; first | with_reducible assumption | with_reducible apply KeepsO.next | with_reducible apply KeepsO.ite | with_reducible apply Keeps.ite | (with_reducible refine adminRow_keeps ?_ _ _ _ _ (fun _ => ?_) (Part.sub_trans hw (by decide)); try dsimp only) | dsimp only | with_reducible apply endCmd_keeps | with_reducible apply endStatus_keeps | with_reducible apply updKeyspace_keeps | with_reducible exact Part.sub_trans hw (by decide))

theorem loadKey_keeps {ws : List Part} {s₀ s : State} (h₀ : Keeps ws s₀ s) (n : Nat) (previous : Bool) (key : BitVec 256)
    (hw : Part.sub [.rnd, .supply, .logs, .pages, .dbg] ws = true) : Keeps ws s₀ (State.loadKey s n previous key) := by
  unfold State.loadKey
  try dsimp only
  repeat' first
    | with_reducible assumption
    | with_reducible apply Keeps.ite
    | with_reducible apply drawn_keeps
    | with_reducible apply logEvent_keeps
    | with_reducible apply setPage_keeps
    | with_reducible apply unlockSeen_keeps
    | with_reducible exact Part.sub_trans hw (by decide)
    | split
    | (refine Keeps.mk_of rfl ?_; first | with_reducible assumption | with_reducible apply Keeps.ite | with_reducible apply drawn_keeps | with_reducible apply logEvent_keeps | with_reducible apply setPage_keeps | with_reducible apply unlockSeen_keeps | with_reducible exact Part.sub_trans hw (by decide))

theorem execKeyLoad_keeps {s : State} (c : Nat) :
    KeepsO [.rnd, .supply, .ports, .sessions, .ctxs, .nextId, .kept, .held, .sent, .locks, .logs, .keyspaces, .quince, .pages, .pipes, .queue, .relay, .power, .sb, .dbg] s (execKeyLoad c s) := by
  have h₀ := Keeps.refl [.rnd, .supply, .ports, .sessions, .ctxs, .nextId, .kept, .held, .sent, .locks, .logs, .keyspaces, .quince, .pages, .pipes, .queue, .relay, .power, .sb, .dbg] s
  have hw : Part.sub [.rnd, .supply, .ports, .sessions, .ctxs, .nextId, .kept, .held, .sent, .locks, .logs, .keyspaces, .quince, .pages, .pipes, .queue, .relay, .power, .sb, .dbg] [.rnd, .supply, .ports, .sessions, .ctxs, .nextId, .kept, .held, .sent, .locks, .logs, .keyspaces, .quince, .pages, .pipes, .queue, .relay, .power, .sb, .dbg] = true := by decide
  unfold execKeyLoad
  try dsimp only
  repeat' first
    | with_reducible assumption
    | with_reducible apply KeepsO.next
    | with_reducible apply KeepsO.ite
    | with_reducible apply Keeps.ite
    | (with_reducible refine adminRow_keeps ?_ _ _ _ _ (fun _ => ?_) (Part.sub_trans hw (by decide)); try dsimp only)
    | dsimp only
    | with_reducible apply change_keeps
    | with_reducible apply endCmd_keeps
    | with_reducible apply endStatus_keeps
    | with_reducible apply loadKey_keeps
    | with_reducible exact Part.sub_trans hw (by decide)
    | split
    | (refine Keeps.mk_of rfl ?_; first | with_reducible assumption | with_reducible apply KeepsO.next | with_reducible apply KeepsO.ite | with_reducible apply Keeps.ite | (with_reducible refine adminRow_keeps ?_ _ _ _ _ (fun _ => ?_) (Part.sub_trans hw (by decide)); try dsimp only) | dsimp only | with_reducible apply change_keeps | with_reducible apply endCmd_keeps | with_reducible apply endStatus_keeps | with_reducible apply loadKey_keeps | with_reducible exact Part.sub_trans hw (by decide))

theorem execKeyRetire_keeps {s : State} (c : Nat) :
    KeepsO [.ports, .sessions, .ctxs, .nextId, .kept, .held, .sent, .locks, .keyspaces, .quince, .pages, .pipes, .queue, .relay, .power, .sb] s (execKeyRetire c s) := by
  have h₀ := Keeps.refl [.ports, .sessions, .ctxs, .nextId, .kept, .held, .sent, .locks, .keyspaces, .quince, .pages, .pipes, .queue, .relay, .power, .sb] s
  have hw : Part.sub [.ports, .sessions, .ctxs, .nextId, .kept, .held, .sent, .locks, .keyspaces, .quince, .pages, .pipes, .queue, .relay, .power, .sb] [.ports, .sessions, .ctxs, .nextId, .kept, .held, .sent, .locks, .keyspaces, .quince, .pages, .pipes, .queue, .relay, .power, .sb] = true := by decide
  unfold execKeyRetire
  try dsimp only
  repeat' first
    | with_reducible assumption
    | with_reducible apply KeepsO.next
    | with_reducible apply KeepsO.ite
    | with_reducible apply Keeps.ite
    | (with_reducible refine adminRow_keeps ?_ _ _ _ _ (fun _ => ?_) (Part.sub_trans hw (by decide)); try dsimp only)
    | dsimp only
    | with_reducible apply change_keeps
    | with_reducible apply endCmd_keeps
    | with_reducible apply endStatus_keeps
    | with_reducible exact Part.sub_trans hw (by decide)
    | split
    | (refine Keeps.mk_of rfl ?_; first | with_reducible assumption | with_reducible apply KeepsO.next | with_reducible apply KeepsO.ite | with_reducible apply Keeps.ite | (with_reducible refine adminRow_keeps ?_ _ _ _ _ (fun _ => ?_) (Part.sub_trans hw (by decide)); try dsimp only) | dsimp only | with_reducible apply change_keeps | with_reducible apply endCmd_keeps | with_reducible apply endStatus_keeps | with_reducible exact Part.sub_trans hw (by decide))

theorem retireKey_keeps {ws : List Part} {s₀ s : State} (h₀ : Keeps ws s₀ s) (n : Nat) (key : BitVec 256)
    (hw : Part.sub [.rnd, .counts, .ports, .sessions, .nextId, .kept, .held, .sent, .logs, .keyspaces, .pages, .power, .dbg] ws = true) : Keeps ws s₀ (State.retireKey s n key) := by
  unfold State.retireKey
  try dsimp only
  repeat' first
    | with_reducible assumption
    | with_reducible apply Keeps.ite
    | with_reducible apply drawn_keeps
    | with_reducible apply keyEvents_keeps
    | with_reducible apply logEvent_keeps
    | with_reducible apply setPage_keeps
    | with_reducible apply sweepEnd_keeps
    | with_reducible exact Part.sub_trans hw (by decide)
    | split
    | (refine Keeps.mk_of rfl ?_; first | with_reducible assumption | with_reducible apply Keeps.ite | with_reducible apply drawn_keeps | with_reducible apply keyEvents_keeps | with_reducible apply logEvent_keeps | with_reducible apply setPage_keeps | with_reducible apply sweepEnd_keeps | with_reducible exact Part.sub_trans hw (by decide))

theorem execFenceSet_keeps {s : State} (c : Nat) :
    KeepsO [.ports, .sessions, .ctxs, .nextId, .kept, .held, .sent, .locks, .keyspaces, .quince, .pages, .pipes, .queue, .relay, .power, .sb] s (execFenceSet c s) := by
  have h₀ := Keeps.refl [.ports, .sessions, .ctxs, .nextId, .kept, .held, .sent, .locks, .keyspaces, .quince, .pages, .pipes, .queue, .relay, .power, .sb] s
  have hw : Part.sub [.ports, .sessions, .ctxs, .nextId, .kept, .held, .sent, .locks, .keyspaces, .quince, .pages, .pipes, .queue, .relay, .power, .sb] [.ports, .sessions, .ctxs, .nextId, .kept, .held, .sent, .locks, .keyspaces, .quince, .pages, .pipes, .queue, .relay, .power, .sb] = true := by decide
  unfold execFenceSet
  try dsimp only
  repeat' first
    | with_reducible assumption
    | with_reducible apply KeepsO.next
    | with_reducible apply KeepsO.ite
    | (with_reducible refine adminRow_keeps ?_ _ _ _ _ (fun _ => ?_) (Part.sub_trans hw (by decide)); try dsimp only)
    | dsimp only
    | with_reducible apply change_keeps
    | with_reducible apply endCmd_keeps
    | with_reducible exact Part.sub_trans hw (by decide)
    | split
    | (refine Keeps.mk_of rfl ?_; first | with_reducible assumption | with_reducible apply KeepsO.next | with_reducible apply KeepsO.ite | (with_reducible refine adminRow_keeps ?_ _ _ _ _ (fun _ => ?_) (Part.sub_trans hw (by decide)); try dsimp only) | dsimp only | with_reducible apply change_keeps | with_reducible apply endCmd_keeps | with_reducible exact Part.sub_trans hw (by decide))

theorem setShaper_keeps {ws : List Part} {s₀ s : State} (h₀ : Keeps ws s₀ s) (fence : Bool) (n : Nat) (h : Option Shaper)
    (hw : Part.sub [.owners, .keyspaces] ws = true) : Keeps ws s₀ (State.setShaper s fence n h) := by
  unfold State.setShaper
  try dsimp only
  repeat' first
    | with_reducible assumption
    | with_reducible apply Keeps.ite
    | with_reducible apply updKeyspace_keeps
    | with_reducible apply updOwner_keeps
    | with_reducible exact Part.sub_trans hw (by decide)
    | split
    | (refine Keeps.mk_of rfl ?_; first | with_reducible assumption | with_reducible apply Keeps.ite | with_reducible apply updKeyspace_keeps | with_reducible apply updOwner_keeps | with_reducible exact Part.sub_trans hw (by decide))

theorem execShaperSet_keeps {s : State} (c : Nat) :
    KeepsO [.ports, .sessions, .ctxs, .nextId, .kept, .held, .sent, .locks, .keyspaces, .quince, .pages, .pipes, .queue, .relay, .power, .sb] s (execShaperSet c s) := by
  have h₀ := Keeps.refl [.ports, .sessions, .ctxs, .nextId, .kept, .held, .sent, .locks, .keyspaces, .quince, .pages, .pipes, .queue, .relay, .power, .sb] s
  have hw : Part.sub [.ports, .sessions, .ctxs, .nextId, .kept, .held, .sent, .locks, .keyspaces, .quince, .pages, .pipes, .queue, .relay, .power, .sb] [.ports, .sessions, .ctxs, .nextId, .kept, .held, .sent, .locks, .keyspaces, .quince, .pages, .pipes, .queue, .relay, .power, .sb] = true := by decide
  unfold execShaperSet
  try dsimp only
  repeat' first
    | with_reducible assumption
    | with_reducible apply KeepsO.next
    | with_reducible apply KeepsO.ite
    | with_reducible apply Keeps.ite
    | (with_reducible refine adminRow_keeps ?_ _ _ _ _ (fun _ => ?_) (Part.sub_trans hw (by decide)); try dsimp only)
    | dsimp only
    | with_reducible apply change_keeps
    | with_reducible apply endStatus_keeps
    | with_reducible exact Part.sub_trans hw (by decide)
    | split
    | (refine Keeps.mk_of rfl ?_; first | with_reducible assumption | with_reducible apply KeepsO.next | with_reducible apply KeepsO.ite | with_reducible apply Keeps.ite | (with_reducible refine adminRow_keeps ?_ _ _ _ _ (fun _ => ?_) (Part.sub_trans hw (by decide)); try dsimp only) | dsimp only | with_reducible apply change_keeps | with_reducible apply endStatus_keeps | with_reducible exact Part.sub_trans hw (by decide))

theorem execPowerPolicy_keeps {s : State} (c : Nat) :
    KeepsO [.ports, .sessions, .ctxs, .nextId, .kept, .held, .sent, .locks, .keyspaces, .quince, .pages, .pipes, .queue, .relay, .power, .sb] s (execPowerPolicy c s) := by
  have h₀ := Keeps.refl [.ports, .sessions, .ctxs, .nextId, .kept, .held, .sent, .locks, .keyspaces, .quince, .pages, .pipes, .queue, .relay, .power, .sb] s
  have hw : Part.sub [.ports, .sessions, .ctxs, .nextId, .kept, .held, .sent, .locks, .keyspaces, .quince, .pages, .pipes, .queue, .relay, .power, .sb] [.ports, .sessions, .ctxs, .nextId, .kept, .held, .sent, .locks, .keyspaces, .quince, .pages, .pipes, .queue, .relay, .power, .sb] = true := by decide
  unfold execPowerPolicy
  try dsimp only
  repeat' first
    | with_reducible assumption
    | with_reducible apply KeepsO.next
    | with_reducible apply KeepsO.ite
    | (with_reducible refine adminRow_keeps ?_ _ _ _ _ (fun _ => ?_) (Part.sub_trans hw (by decide)); try dsimp only)
    | dsimp only
    | with_reducible apply change_keeps
    | with_reducible exact Part.sub_trans hw (by decide)
    | split
    | (refine Keeps.mk_of rfl ?_; first | with_reducible assumption | with_reducible apply KeepsO.next | with_reducible apply KeepsO.ite | (with_reducible refine adminRow_keeps ?_ _ _ _ _ (fun _ => ?_) (Part.sub_trans hw (by decide)); try dsimp only) | dsimp only | with_reducible apply change_keeps | with_reducible exact Part.sub_trans hw (by decide))

theorem clampPower_keeps {ws : List Part} {s₀ s : State} (h₀ : Keeps ws s₀ s) 
    (hw : Part.sub [.power] ws = true) : Keeps ws s₀ (State.clampPower s) := by
  unfold State.clampPower
  try dsimp only
  repeat' first
    | with_reducible assumption
    | with_reducible apply Keeps.ite
    | split
    | (refine Keeps.mk_of rfl ?_; first | with_reducible assumption | with_reducible apply Keeps.ite)

theorem execRelaySet_keeps {s : State} (c : Nat) :
    KeepsO [.rnd, .counts, .ports, .sessions, .ctxs, .nextId, .kept, .held, .sent, .locks, .logs, .keyspaces, .holds, .quince, .pages, .pipes, .queue, .relay, .power, .sb, .dbg] s (execRelaySet c s) := by
  have h₀ := Keeps.refl [.rnd, .counts, .ports, .sessions, .ctxs, .nextId, .kept, .held, .sent, .locks, .logs, .keyspaces, .holds, .quince, .pages, .pipes, .queue, .relay, .power, .sb, .dbg] s
  have hw : Part.sub [.rnd, .counts, .ports, .sessions, .ctxs, .nextId, .kept, .held, .sent, .locks, .logs, .keyspaces, .holds, .quince, .pages, .pipes, .queue, .relay, .power, .sb, .dbg] [.rnd, .counts, .ports, .sessions, .ctxs, .nextId, .kept, .held, .sent, .locks, .logs, .keyspaces, .holds, .quince, .pages, .pipes, .queue, .relay, .power, .sb, .dbg] = true := by decide
  unfold execRelaySet
  try dsimp only
  repeat' first
    | with_reducible assumption
    | with_reducible apply KeepsO.next
    | with_reducible apply KeepsO.ite
    | with_reducible apply Keeps.ite
    | (with_reducible refine adminRow_keeps ?_ _ _ _ _ (fun _ => ?_) (Part.sub_trans hw (by decide)); try dsimp only)
    | dsimp only
    | with_reducible apply change_keeps
    | with_reducible apply endCmd_keeps
    | with_reducible apply endStatus_keeps
    | with_reducible apply relayFault_keeps
    | with_reducible exact Part.sub_trans hw (by decide)
    | split
    | (refine Keeps.mk_of rfl ?_; first | with_reducible assumption | with_reducible apply KeepsO.next | with_reducible apply KeepsO.ite | with_reducible apply Keeps.ite | (with_reducible refine adminRow_keeps ?_ _ _ _ _ (fun _ => ?_) (Part.sub_trans hw (by decide)); try dsimp only) | dsimp only | with_reducible apply change_keeps | with_reducible apply endCmd_keeps | with_reducible apply endStatus_keeps | with_reducible apply relayFault_keeps | with_reducible exact Part.sub_trans hw (by decide))

theorem setChain_keeps {ws : List Part} {s₀ s : State} (h₀ : Keeps ws s₀ s) (ks : Nat) (chain : Option Chain)
    (hw : Part.sub [.rnd, .counts, .ports, .sessions, .ctxs, .nextId, .kept, .held, .sent, .locks, .marks, .logs, .owners, .keyspaces, .groups, .extents, .fineNext, .heat, .holds, .mapLog, .quince, .pages, .pipes, .queue, .relay, .power, .sb, .dbg] ws = true) : Keeps ws s₀ (State.setChain s ks chain) := by
  unfold State.setChain
  try dsimp only
  repeat' first
    | with_reducible assumption
    | (with_reducible refine Keeps.foldl ?_ (fun _ _ _ => ?_))
    | with_reducible apply dropPairs_keeps
    | with_reducible apply startPair_keeps
    | with_reducible apply updKeyspace_keeps
    | with_reducible exact Part.sub_trans hw (by decide)
    | split
    | (refine Keeps.mk_of rfl ?_; first | with_reducible assumption | (with_reducible refine Keeps.foldl ?_ (fun _ _ _ => ?_)) | with_reducible apply dropPairs_keeps | with_reducible apply startPair_keeps | with_reducible apply updKeyspace_keeps | with_reducible exact Part.sub_trans hw (by decide))

theorem execOrchardMapLoad_keeps {s : State} (c : Nat) :
    KeepsO [.ports, .sessions, .ctxs, .nextId, .kept, .held, .sent, .locks, .keyspaces, .quince, .pages, .pipes, .queue, .relay, .power, .sb] s (execOrchardMapLoad c s) := by
  have h₀ := Keeps.refl [.ports, .sessions, .ctxs, .nextId, .kept, .held, .sent, .locks, .keyspaces, .quince, .pages, .pipes, .queue, .relay, .power, .sb] s
  have hw : Part.sub [.ports, .sessions, .ctxs, .nextId, .kept, .held, .sent, .locks, .keyspaces, .quince, .pages, .pipes, .queue, .relay, .power, .sb] [.ports, .sessions, .ctxs, .nextId, .kept, .held, .sent, .locks, .keyspaces, .quince, .pages, .pipes, .queue, .relay, .power, .sb] = true := by decide
  unfold execOrchardMapLoad
  try dsimp only
  repeat' first
    | with_reducible assumption
    | with_reducible apply KeepsO.next
    | with_reducible apply KeepsO.ite
    | with_reducible apply Keeps.ite
    | (with_reducible refine adminRow_keeps ?_ _ _ _ _ (fun _ => ?_) (Part.sub_trans hw (by decide)); try dsimp only)
    | dsimp only
    | with_reducible apply change_keeps
    | with_reducible apply endStatus_keeps
    | with_reducible exact Part.sub_trans hw (by decide)
    | split
    | (refine Keeps.mk_of rfl ?_; first | with_reducible assumption | with_reducible apply KeepsO.next | with_reducible apply KeepsO.ite | with_reducible apply Keeps.ite | (with_reducible refine adminRow_keeps ?_ _ _ _ _ (fun _ => ?_) (Part.sub_trans hw (by decide)); try dsimp only) | dsimp only | with_reducible apply change_keeps | with_reducible apply endStatus_keeps | with_reducible exact Part.sub_trans hw (by decide))

theorem seedGained_keeps {ws : List Part} {s₀ s : State} (h₀ : Keeps ws s₀ s) (m : OrchardMap) (old : Option OrchardMap) (k : Keyspace)
    (hw : Part.sub [.rnd, .counts, .ports, .sessions, .ctxs, .nextId, .kept, .held, .sent, .locks, .marks, .logs, .owners, .keyspaces, .groups, .extents, .fineNext, .heat, .holds, .mapLog, .quince, .pages, .pipes, .queue, .relay, .power, .sb, .dbg] ws = true) : Keeps ws s₀ (State.seedGained s m old k) := by
  unfold State.seedGained
  try dsimp only
  repeat' first
    | with_reducible assumption
    | with_reducible apply Keeps.ite
    | (with_reducible refine Keeps.foldl ?_ (fun _ _ _ => ?_))
    | with_reducible apply setPair_keeps
    | with_reducible apply startPair_keeps
    | with_reducible exact Part.sub_trans hw (by decide)
    | split
    | (refine Keeps.mk_of rfl ?_; first | with_reducible assumption | with_reducible apply Keeps.ite | (with_reducible refine Keeps.foldl ?_ (fun _ _ _ => ?_)) | with_reducible apply setPair_keeps | with_reducible apply startPair_keeps | with_reducible exact Part.sub_trans hw (by decide))

theorem setMap_keeps {ws : List Part} {s₀ s : State} (h₀ : Keeps ws s₀ s) (m : OrchardMap)
    (hw : Part.sub [.rnd, .counts, .ports, .sessions, .ctxs, .nextId, .kept, .held, .sent, .locks, .marks, .logs, .owners, .keyspaces, .groups, .extents, .fineNext, .heat, .holds, .mapLog, .quince, .pages, .pipes, .queue, .relay, .power, .sb, .dbg] ws = true) : Keeps ws s₀ (State.setMap s m) := by
  unfold State.setMap
  try dsimp only
  repeat' first
    | with_reducible assumption
    | with_reducible apply Keeps.ite
    | (with_reducible refine Keeps.foldl ?_ (fun _ _ _ => ?_))
    | with_reducible apply broadcast_keeps
    | with_reducible apply dropPairs_keeps
    | with_reducible apply seedGained_keeps
    | with_reducible exact Part.sub_trans hw (by decide)
    | split
    | (refine Keeps.mk_of rfl ?_; first | with_reducible assumption | with_reducible apply Keeps.ite | (with_reducible refine Keeps.foldl ?_ (fun _ _ _ => ?_)) | with_reducible apply broadcast_keeps | with_reducible apply dropPairs_keeps | with_reducible apply seedGained_keeps | with_reducible exact Part.sub_trans hw (by decide))

theorem execPromote_keeps {s : State} (c : Nat) :
    KeepsO [.rnd, .modes, .counts, .ports, .sessions, .ctxs, .nextId, .kept, .held, .sent, .locks, .marks, .logs, .owners, .keyspaces, .groups, .extents, .fineNext, .heat, .mapLog, .quince, .pages, .pipes, .queue, .sieves, .relay, .power, .sb, .dbg] s (execPromote c s) := by
  have h₀ := Keeps.refl [.rnd, .modes, .counts, .ports, .sessions, .ctxs, .nextId, .kept, .held, .sent, .locks, .marks, .logs, .owners, .keyspaces, .groups, .extents, .fineNext, .heat, .mapLog, .quince, .pages, .pipes, .queue, .sieves, .relay, .power, .sb, .dbg] s
  have hw : Part.sub [.rnd, .modes, .counts, .ports, .sessions, .ctxs, .nextId, .kept, .held, .sent, .locks, .marks, .logs, .owners, .keyspaces, .groups, .extents, .fineNext, .heat, .mapLog, .quince, .pages, .pipes, .queue, .sieves, .relay, .power, .sb, .dbg] [.rnd, .modes, .counts, .ports, .sessions, .ctxs, .nextId, .kept, .held, .sent, .locks, .marks, .logs, .owners, .keyspaces, .groups, .extents, .fineNext, .heat, .mapLog, .quince, .pages, .pipes, .queue, .sieves, .relay, .power, .sb, .dbg] = true := by decide
  unfold execPromote
  try dsimp only
  repeat' first
    | with_reducible assumption
    | with_reducible apply KeepsO.next
    | with_reducible apply KeepsO.ite
    | with_reducible apply Keeps.ite
    | (with_reducible refine adminRow_keeps ?_ _ _ _ _ (fun _ => ?_) (Part.sub_trans hw (by decide)); try dsimp only)
    | dsimp only
    | with_reducible apply changeMode_keeps
    | with_reducible apply endCmd_keeps
    | with_reducible apply logEvent_keeps
    | with_reducible apply settle_keeps
    | with_reducible exact Part.sub_trans hw (by decide)
    | split
    | (refine Keeps.mk_of rfl ?_; first | with_reducible assumption | with_reducible apply KeepsO.next | with_reducible apply KeepsO.ite | with_reducible apply Keeps.ite | (with_reducible refine adminRow_keeps ?_ _ _ _ _ (fun _ => ?_) (Part.sub_trans hw (by decide)); try dsimp only) | dsimp only | with_reducible apply changeMode_keeps | with_reducible apply endCmd_keeps | with_reducible apply logEvent_keeps | with_reducible apply settle_keeps | with_reducible exact Part.sub_trans hw (by decide))

end Sys2Proof.Machine
end

