-- ==== Sys2Proof/Laws/KeepsSettings.lean ====
section
/-! SUPPORT. Which parts of the state each operation of Machine/Settings.lean may change. -/

set_option Elab.async false

namespace Sys2Proof.Machine

theorem execConfigGet_keeps {s : State} (c : Nat) :
    KeepsO [.ports, .sessions, .ctxs, .nextId, .kept, .held, .sent, .locks, .keyspaces, .quince, .pages, .pipes, .queue, .relay, .power, .sb] s (execConfigGet c s) := by
  have h₀ := Keeps.refl [.ports, .sessions, .ctxs, .nextId, .kept, .held, .sent, .locks, .keyspaces, .quince, .pages, .pipes, .queue, .relay, .power, .sb] s
  have hw : Part.sub [.ports, .sessions, .ctxs, .nextId, .kept, .held, .sent, .locks, .keyspaces, .quince, .pages, .pipes, .queue, .relay, .power, .sb] [.ports, .sessions, .ctxs, .nextId, .kept, .held, .sent, .locks, .keyspaces, .quince, .pages, .pipes, .queue, .relay, .power, .sb] = true := by decide
  unfold execConfigGet
  try dsimp only
  repeat' first
    | with_reducible assumption
    | with_reducible apply KeepsO.next
    | with_reducible apply KeepsO.ite
    | with_reducible apply Keeps.ite
    | (with_reducible refine adminRow_keeps ?_ _ _ _ _ (fun _ => ?_) (Part.sub_trans hw (by decide)); try dsimp only)
    | dsimp only
    | with_reducible apply endCmd_keeps
    | with_reducible apply endStatus_keeps
    | with_reducible exact Part.sub_trans hw (by decide)
    | split
    | (refine Keeps.mk_of rfl ?_; first | with_reducible assumption | with_reducible apply KeepsO.next | with_reducible apply KeepsO.ite | with_reducible apply Keeps.ite | (with_reducible refine adminRow_keeps ?_ _ _ _ _ (fun _ => ?_) (Part.sub_trans hw (by decide)); try dsimp only) | dsimp only | with_reducible apply endCmd_keeps | with_reducible apply endStatus_keeps | with_reducible exact Part.sub_trans hw (by decide))

theorem writeStatusVar_keeps {ws : List Part} {s₀ s : State} (h₀ : Keeps ws s₀ s) (id v : Nat)
    (hw : Part.sub [.ports, .marks] ws = true) : Keeps ws s₀ (State.writeStatusVar s id v) := by
  unfold State.writeStatusVar
  try dsimp only
  repeat' first
    | with_reducible assumption
    | with_reducible apply Keeps.ite
    | with_reducible apply clearPortEvents_keeps
    | with_reducible exact Part.sub_trans hw (by decide)
    | split
    | (refine Keeps.mk_of rfl ?_; first | with_reducible assumption | with_reducible apply Keeps.ite | with_reducible apply clearPortEvents_keeps | with_reducible exact Part.sub_trans hw (by decide))

theorem execConfigSet_keeps {s : State} (c : Nat) :
    KeepsO [.ports, .sessions, .ctxs, .nextId, .kept, .held, .sent, .locks, .marks, .keyspaces, .quince, .pages, .pipes, .queue, .relay, .power, .sb] s (execConfigSet c s) := by
  have h₀ := Keeps.refl [.ports, .sessions, .ctxs, .nextId, .kept, .held, .sent, .locks, .marks, .keyspaces, .quince, .pages, .pipes, .queue, .relay, .power, .sb] s
  have hw : Part.sub [.ports, .sessions, .ctxs, .nextId, .kept, .held, .sent, .locks, .marks, .keyspaces, .quince, .pages, .pipes, .queue, .relay, .power, .sb] [.ports, .sessions, .ctxs, .nextId, .kept, .held, .sent, .locks, .marks, .keyspaces, .quince, .pages, .pipes, .queue, .relay, .power, .sb] = true := by decide
  unfold execConfigSet
  try dsimp only
  repeat' first
    | with_reducible assumption
    | with_reducible apply KeepsO.next
    | with_reducible apply KeepsO.ite
    | with_reducible apply Keeps.ite
    | (with_reducible refine adminRow_keeps ?_ _ _ _ _ (fun _ => ?_) (Part.sub_trans hw (by decide)); try dsimp only)
    | dsimp only
    | with_reducible apply change_keeps
    | with_reducible apply endCmd_keeps
    | with_reducible apply endStatus_keeps
    | with_reducible apply writeStatusVar_keeps
    | with_reducible exact Part.sub_trans hw (by decide)
    | split
    | (refine Keeps.mk_of rfl ?_; first | with_reducible assumption | with_reducible apply KeepsO.next | with_reducible apply KeepsO.ite | with_reducible apply Keeps.ite | (with_reducible refine adminRow_keeps ?_ _ _ _ _ (fun _ => ?_) (Part.sub_trans hw (by decide)); try dsimp only) | dsimp only | with_reducible apply change_keeps | with_reducible apply endCmd_keeps | with_reducible apply endStatus_keeps | with_reducible apply writeStatusVar_keeps | with_reducible exact Part.sub_trans hw (by decide))

theorem startTest_keeps {ws : List Part} {s₀ s : State} (h₀ : Keeps ws s₀ s) 
    (hw : Part.sub [.holdup] ws = true) : Keeps ws s₀ (State.startTest s) := by
  unfold State.startTest
  try dsimp only
  repeat' first
    | with_reducible assumption
    | with_reducible apply Keeps.ite
    | split
    | (refine Keeps.mk_of rfl ?_; first | with_reducible assumption | with_reducible apply Keeps.ite)

theorem execHoldupTestNow_keeps {s : State} (c : Nat) :
    KeepsO [.ports, .sessions, .ctxs, .nextId, .kept, .held, .sent, .locks, .keyspaces, .quince, .pages, .pipes, .queue, .relay, .power, .holdup, .sb] s (execHoldupTestNow c s) := by
  have h₀ := Keeps.refl [.ports, .sessions, .ctxs, .nextId, .kept, .held, .sent, .locks, .keyspaces, .quince, .pages, .pipes, .queue, .relay, .power, .holdup, .sb] s
  have hw : Part.sub [.ports, .sessions, .ctxs, .nextId, .kept, .held, .sent, .locks, .keyspaces, .quince, .pages, .pipes, .queue, .relay, .power, .holdup, .sb] [.ports, .sessions, .ctxs, .nextId, .kept, .held, .sent, .locks, .keyspaces, .quince, .pages, .pipes, .queue, .relay, .power, .holdup, .sb] = true := by decide
  unfold execHoldupTestNow
  try dsimp only
  repeat' first
    | with_reducible assumption
    | with_reducible apply KeepsO.next
    | with_reducible apply KeepsO.ite
    | with_reducible apply Keeps.ite
    | (with_reducible refine adminRow_keeps ?_ _ _ _ _ (fun _ => ?_) (Part.sub_trans hw (by decide)); try dsimp only)
    | dsimp only
    | with_reducible apply endCmd_keeps
    | with_reducible apply startTest_keeps
    | with_reducible exact Part.sub_trans hw (by decide)
    | split
    | (refine Keeps.mk_of rfl ?_; first | with_reducible assumption | with_reducible apply KeepsO.next | with_reducible apply KeepsO.ite | with_reducible apply Keeps.ite | (with_reducible refine adminRow_keeps ?_ _ _ _ _ (fun _ => ?_) (Part.sub_trans hw (by decide)); try dsimp only) | dsimp only | with_reducible apply endCmd_keeps | with_reducible apply startTest_keeps | with_reducible exact Part.sub_trans hw (by decide))

theorem setConfig_keeps {ws : List Part} {s₀ s : State} (h₀ : Keeps ws s₀ s) (id v : Nat)
    (hw : Part.sub [.ports, .vars, .cache, .sieves, .power, .sb] ws = true) : Keeps ws s₀ (State.setConfig s id v) := by
  unfold State.setConfig
  try dsimp only
  repeat' first
    | with_reducible assumption
    | with_reducible apply Keeps.ite
    | with_reducible apply clampPower_keeps
    | with_reducible apply retrainPort_keeps
    | with_reducible exact Part.sub_trans hw (by decide)
    | with_reducible apply settleScan_keeps
    | with_reducible apply cacheDrop_keeps
    | split
    | (refine Keeps.mk_of rfl ?_; first | with_reducible assumption | with_reducible apply cacheDrop_keeps | with_reducible apply settleScan_keeps | with_reducible apply Keeps.ite | with_reducible apply clampPower_keeps | with_reducible apply retrainPort_keeps | with_reducible exact Part.sub_trans hw (by decide))

theorem applyChange_keeps {ws : List Part} {s₀ s : State} (h₀ : Keeps ws s₀ s) (x0 : Change)
    (hw : Part.sub [.rnd, .supply, .counts, .ports, .sessions, .ctxs, .nextId, .kept, .held, .sent, .locks, .vars, .marks, .logs, .owners, .keyspaces, .groups, .extents, .fineNext, .heat, .cache, .holds, .mapLog, .quince, .pages, .pipes, .queue, .sieves, .relay, .power, .sb, .dbg] ws = true) : Keeps ws s₀ (State.applyChange s x0) := by
  unfold State.applyChange
  try dsimp only
  repeat' first
    | with_reducible assumption
    | with_reducible apply Keeps.ite
    | with_reducible apply clampPower_keeps
    | with_reducible apply loadKey_keeps
    | with_reducible apply retireKey_keeps
    | with_reducible apply setChain_keeps
    | with_reducible apply setConfig_keeps
    | with_reducible apply setFence_keeps
    | with_reducible apply setMap_keeps
    | with_reducible apply setShaper_keeps
    | with_reducible exact Part.sub_trans hw (by decide)
    | split
    | (refine Keeps.mk_of rfl ?_; first | with_reducible assumption | with_reducible apply Keeps.ite | with_reducible apply clampPower_keeps | with_reducible apply loadKey_keeps | with_reducible apply retireKey_keeps | with_reducible apply setChain_keeps | with_reducible apply setConfig_keeps | with_reducible apply setFence_keeps | with_reducible apply setMap_keeps | with_reducible apply setShaper_keeps | with_reducible exact Part.sub_trans hw (by decide))

theorem execSettingsWriteDone_keeps {s : State} (c : Nat) :
    KeepsO [.rnd, .supply, .counts, .ports, .sessions, .ctxs, .nextId, .kept, .held, .sent, .locks, .vars, .marks, .logs, .owners, .keyspaces, .groups, .extents, .fineNext, .heat, .cache, .holds, .mapLog, .quince, .pages, .pipes, .queue, .sieves, .relay, .power, .sb, .dbg, .nor] s (execSettingsWriteDone c s) := by
  have h₀ := Keeps.refl [.rnd, .supply, .counts, .ports, .sessions, .ctxs, .nextId, .kept, .held, .sent, .locks, .vars, .marks, .logs, .owners, .keyspaces, .groups, .extents, .fineNext, .heat, .cache, .holds, .mapLog, .quince, .pages, .pipes, .queue, .sieves, .relay, .power, .sb, .dbg, .nor] s
  have hw : Part.sub [.rnd, .supply, .counts, .ports, .sessions, .ctxs, .nextId, .kept, .held, .sent, .locks, .vars, .marks, .logs, .owners, .keyspaces, .groups, .extents, .fineNext, .heat, .cache, .holds, .mapLog, .quince, .pages, .pipes, .queue, .sieves, .relay, .power, .sb, .dbg, .nor] [.rnd, .supply, .counts, .ports, .sessions, .ctxs, .nextId, .kept, .held, .sent, .locks, .vars, .marks, .logs, .owners, .keyspaces, .groups, .extents, .fineNext, .heat, .cache, .holds, .mapLog, .quince, .pages, .pipes, .queue, .sieves, .relay, .power, .sb, .dbg, .nor] = true := by decide
  unfold execSettingsWriteDone
  try dsimp only
  repeat' first
    | with_reducible assumption
    | with_reducible apply KeepsO.next
    | with_reducible apply KeepsO.ite
    | with_reducible apply Keeps.ite
    | with_reducible apply applyChange_keeps
    | with_reducible apply change_keeps
    | with_reducible apply endCmd_keeps
    | with_reducible apply relaySettle_keeps
    | with_reducible apply saveSettings_keeps
    | with_reducible exact Part.sub_trans hw (by decide)
    | split
    | (refine Keeps.mk_of rfl ?_; first | with_reducible assumption | with_reducible apply KeepsO.next | with_reducible apply KeepsO.ite | with_reducible apply Keeps.ite | with_reducible apply applyChange_keeps | with_reducible apply change_keeps | with_reducible apply endCmd_keeps | with_reducible apply relaySettle_keeps | with_reducible apply saveSettings_keeps | with_reducible exact Part.sub_trans hw (by decide))

end Sys2Proof.Machine
end

