-- ==== Sys2Proof/Laws/KeepsHealth.lean ====
section
/-! SUPPORT. Which parts of the state each operation of Machine/Health.lean may change. -/

set_option Elab.async false

namespace Sys2Proof.Machine

theorem execHealthRead_keeps {s : State} (c : Nat) :
    KeepsO [.ports, .sessions, .ctxs, .nextId, .kept, .held, .sent, .locks, .keyspaces, .quince, .pages, .pipes, .queue, .relay, .power, .sb] s (execHealthRead c s) := by
  have h₀ := Keeps.refl [.ports, .sessions, .ctxs, .nextId, .kept, .held, .sent, .locks, .keyspaces, .quince, .pages, .pipes, .queue, .relay, .power, .sb] s
  have hw : Part.sub [.ports, .sessions, .ctxs, .nextId, .kept, .held, .sent, .locks, .keyspaces, .quince, .pages, .pipes, .queue, .relay, .power, .sb] [.ports, .sessions, .ctxs, .nextId, .kept, .held, .sent, .locks, .keyspaces, .quince, .pages, .pipes, .queue, .relay, .power, .sb] = true := by decide
  unfold execHealthRead
  try dsimp only
  repeat' first
    | with_reducible assumption
    | with_reducible apply KeepsO.next
    | with_reducible apply KeepsO.ite
    | (with_reducible refine adminRow_keeps ?_ _ _ _ _ (fun _ => ?_) (Part.sub_trans hw (by decide)); try dsimp only)
    | dsimp only
    | with_reducible apply endCmd_keeps
    | with_reducible apply endStatus_keeps
    | with_reducible exact Part.sub_trans hw (by decide)
    | split
    | (refine Keeps.mk_of rfl ?_; first | with_reducible assumption | with_reducible apply KeepsO.next | with_reducible apply KeepsO.ite | (with_reducible refine adminRow_keeps ?_ _ _ _ _ (fun _ => ?_) (Part.sub_trans hw (by decide)); try dsimp only) | dsimp only | with_reducible apply endCmd_keeps | with_reducible apply endStatus_keeps | with_reducible exact Part.sub_trans hw (by decide))

theorem execIdentify_keeps {s : State} (c : Nat) :
    KeepsO [.ports, .sessions, .ctxs, .nextId, .kept, .held, .sent, .locks, .keyspaces, .quince, .pages, .pipes, .queue, .relay, .power, .sb] s (execIdentify c s) := by
  have h₀ := Keeps.refl [.ports, .sessions, .ctxs, .nextId, .kept, .held, .sent, .locks, .keyspaces, .quince, .pages, .pipes, .queue, .relay, .power, .sb] s
  have hw : Part.sub [.ports, .sessions, .ctxs, .nextId, .kept, .held, .sent, .locks, .keyspaces, .quince, .pages, .pipes, .queue, .relay, .power, .sb] [.ports, .sessions, .ctxs, .nextId, .kept, .held, .sent, .locks, .keyspaces, .quince, .pages, .pipes, .queue, .relay, .power, .sb] = true := by decide
  unfold execIdentify
  try dsimp only
  repeat' first
    | with_reducible assumption
    | with_reducible apply KeepsO.next
    | with_reducible apply KeepsO.ite
    | (with_reducible refine adminRow_keeps ?_ _ _ _ _ (fun _ => ?_) (Part.sub_trans hw (by decide)); try dsimp only)
    | dsimp only
    | with_reducible apply endCmd_keeps
    | with_reducible exact Part.sub_trans hw (by decide)
    | split
    | (refine Keeps.mk_of rfl ?_; first | with_reducible assumption | with_reducible apply KeepsO.next | with_reducible apply KeepsO.ite | (with_reducible refine adminRow_keeps ?_ _ _ _ _ (fun _ => ?_) (Part.sub_trans hw (by decide)); try dsimp only) | dsimp only | with_reducible apply endCmd_keeps | with_reducible exact Part.sub_trans hw (by decide))

theorem execLogRead_keeps {s : State} (c : Nat) :
    KeepsO [.ports, .sessions, .ctxs, .nextId, .kept, .held, .sent, .locks, .keyspaces, .quince, .pages, .pipes, .queue, .relay, .power, .sb] s (execLogRead c s) := by
  have h₀ := Keeps.refl [.ports, .sessions, .ctxs, .nextId, .kept, .held, .sent, .locks, .keyspaces, .quince, .pages, .pipes, .queue, .relay, .power, .sb] s
  have hw : Part.sub [.ports, .sessions, .ctxs, .nextId, .kept, .held, .sent, .locks, .keyspaces, .quince, .pages, .pipes, .queue, .relay, .power, .sb] [.ports, .sessions, .ctxs, .nextId, .kept, .held, .sent, .locks, .keyspaces, .quince, .pages, .pipes, .queue, .relay, .power, .sb] = true := by decide
  unfold execLogRead
  try dsimp only
  repeat' first
    | with_reducible assumption
    | with_reducible apply KeepsO.next
    | with_reducible apply KeepsO.ite
    | with_reducible apply Keeps.ite
    | (with_reducible refine adminRow_keeps ?_ _ _ _ _ (fun _ => ?_) (Part.sub_trans hw (by decide)); try dsimp only)
    | dsimp only
    | with_reducible apply endCmd_keeps
    | with_reducible exact Part.sub_trans hw (by decide)
    | split
    | (refine Keeps.mk_of rfl ?_; first | with_reducible assumption | with_reducible apply KeepsO.next | with_reducible apply KeepsO.ite | with_reducible apply Keeps.ite | (with_reducible refine adminRow_keeps ?_ _ _ _ _ (fun _ => ?_) (Part.sub_trans hw (by decide)); try dsimp only) | dsimp only | with_reducible apply endCmd_keeps | with_reducible exact Part.sub_trans hw (by decide))

end Sys2Proof.Machine
end

