-- ==== Sys2Proof/Laws/KeepsTurnoff.lean ====
section
/-! SUPPORT. Which parts of the state each operation of Machine/Turnoff.lean may change. -/

set_option Elab.async false

namespace Sys2Proof.Machine

theorem updFwSlot_keeps {ws : List Part} {s₀ s : State} (h₀ : Keeps ws s₀ s) (n : Nat) (f : FwSlot → FwSlot)
    (hw : Part.sub [.fw] ws = true) : Keeps ws s₀ (State.updFwSlot s n f) := by
  unfold State.updFwSlot
  try dsimp only
  repeat' first
    | with_reducible assumption
    | with_reducible apply Keeps.ite
    | split
    | (refine Keeps.mk_of rfl ?_; first | with_reducible assumption | with_reducible apply Keeps.ite)

theorem fwState_keeps {ws : List Part} {s₀ s : State} (h₀ : Keeps ws s₀ s) (st reason version : Nat)
    (hw : Part.sub [.counts, .ports, .sessions, .nextId, .kept, .held, .sent, .logs, .keyspaces, .power, .sb, .dbg] ws = true) : Keeps ws s₀ (State.fwState s st reason version) := by
  unfold State.fwState
  try dsimp only
  repeat' first
    | with_reducible assumption
    | with_reducible apply Keeps.ite
    | with_reducible apply alert_keeps
    | with_reducible apply broadcast_keeps
    | with_reducible apply logEvent_keeps
    | with_reducible exact Part.sub_trans hw (by decide)
    | split
    | (refine Keeps.mk_of rfl ?_; first | with_reducible assumption | with_reducible apply Keeps.ite | with_reducible apply alert_keeps | with_reducible apply broadcast_keeps | with_reducible apply logEvent_keeps | with_reducible exact Part.sub_trans hw (by decide))

theorem fwLoss_keeps {ws : List Part} {s₀ s : State} (h₀ : Keeps ws s₀ s) (reason : Nat)
    (hw : Part.sub [.fw] ws = true) : Keeps ws s₀ (State.fwLoss s reason) := by
  unfold State.fwLoss
  try dsimp only
  repeat' first
    | with_reducible assumption
    | with_reducible apply Keeps.ite
    | split
    | (refine Keeps.mk_of rfl ?_; first | with_reducible assumption | with_reducible apply Keeps.ite)

theorem bootImage_keeps {ws : List Part} {s₀ s : State} (h₀ : Keeps ws s₀ s) 
    (hw : Part.sub [.fw] ws = true) : Keeps ws s₀ (State.bootImage s) := by
  unfold State.bootImage
  try dsimp only
  repeat' first
    | with_reducible assumption
    | with_reducible apply Keeps.ite
    | split
    | (refine Keeps.mk_of rfl ?_; first | with_reducible assumption | with_reducible apply Keeps.ite)

theorem awaitConfirm_keeps {ws : List Part} {s₀ s : State} (h₀ : Keeps ws s₀ s) 
    (hw : Part.sub [.counts, .ports, .sessions, .nextId, .kept, .held, .sent, .logs, .keyspaces, .power, .fw, .sb, .dbg] ws = true) : Keeps ws s₀ (State.awaitConfirm s) := by
  unfold State.awaitConfirm
  try dsimp only
  repeat' first
    | with_reducible assumption
    | with_reducible apply fwState_keeps
    | with_reducible exact Part.sub_trans hw (by decide)
    | split
    | (refine Keeps.mk_of rfl ?_; first | with_reducible assumption | with_reducible apply fwState_keeps | with_reducible exact Part.sub_trans hw (by decide))

theorem fwAfterFilling_keeps {ws : List Part} {s₀ s : State} (h₀ : Keeps ws s₀ s) 
    (hw : Part.sub [.counts, .ports, .sessions, .nextId, .kept, .held, .sent, .logs, .keyspaces, .power, .fw, .sb, .dbg] ws = true) : Keeps ws s₀ (State.fwAfterFilling s) := by
  unfold State.fwAfterFilling
  try dsimp only
  repeat' first
    | with_reducible assumption
    | with_reducible apply Keeps.ite
    | with_reducible apply awaitConfirm_keeps
    | with_reducible apply fwState_keeps
    | with_reducible apply updFwSlot_keeps
    | with_reducible exact Part.sub_trans hw (by decide)
    | split
    | (refine Keeps.mk_of rfl ?_; first | with_reducible assumption | with_reducible apply Keeps.ite | with_reducible apply awaitConfirm_keeps | with_reducible apply fwState_keeps | with_reducible apply updFwSlot_keeps | with_reducible exact Part.sub_trans hw (by decide))

theorem abandonForwards_keeps {ws : List Part} {s₀ s : State} (h₀ : Keeps ws s₀ s) 
    (hw : Part.sub [.counts, .logs, .relay, .dbg] ws = true) : Keeps ws s₀ (State.abandonForwards s) := by
  unfold State.abandonForwards
  try dsimp only
  repeat' first
    | with_reducible assumption
    | (with_reducible refine Keeps.foldl ?_ (fun _ _ _ => ?_))
    | with_reducible apply makeBehind_keeps
    | with_reducible exact Part.sub_trans hw (by decide)
    | split
    | (refine Keeps.mk_of rfl ?_; first | with_reducible assumption | (with_reducible refine Keeps.foldl ?_ (fun _ _ _ => ?_)) | with_reducible apply makeBehind_keeps | with_reducible exact Part.sub_trans hw (by decide))

theorem keepPairs_keeps {ws : List Part} {s₀ s : State} (h₀ : Keeps ws s₀ s) (flushed : Bool)
    (hw : Part.sub [.relay] ws = true) : Keeps ws s₀ (State.keepPairs s flushed) := by
  unfold State.keepPairs
  try dsimp only
  repeat' first
    | with_reducible assumption
    | with_reducible apply Keeps.ite
    | split
    | (refine Keeps.mk_of rfl ?_; first | with_reducible assumption | with_reducible apply Keeps.ite)

theorem dropAll_keeps {ws : List Part} {s₀ s : State} (h₀ : Keeps ws s₀ s) (reason : Nat)
    (hw : Part.sub [.counts, .sessions, .closed, .ctxs, .kept, .held, .locks, .logs, .keyspaces, .eraseSets, .holds, .pages, .pipes, .queue, .sieves, .relay, .sb, .dbg] ws = true) : Keeps ws s₀ (State.dropAll s reason) := by
  unfold State.dropAll
  try dsimp only
  repeat' first
    | with_reducible assumption
    | with_reducible apply Keeps.ite
    | (with_reducible refine Keeps.foldl ?_ (fun _ _ _ => ?_))
    | with_reducible apply abandonForwards_keeps
    | with_reducible apply closeSieves_keeps
    | with_reducible apply journalLate_keeps
    | with_reducible exact Part.sub_trans hw (by decide)
    | split
    | (refine Keeps.mk_of rfl ?_; first | with_reducible assumption | with_reducible apply Keeps.ite | (with_reducible refine Keeps.foldl ?_ (fun _ _ _ => ?_)) | with_reducible apply abandonForwards_keeps | with_reducible apply closeSieves_keeps | with_reducible apply journalLate_keeps | with_reducible exact Part.sub_trans hw (by decide))

theorem linksOff_keeps {ws : List Part} {s₀ s : State} (h₀ : Keeps ws s₀ s) 
    (hw : Part.sub [.ports, .held] ws = true) : Keeps ws s₀ (State.linksOff s) := by
  unfold State.linksOff
  try dsimp only
  repeat' first
    | with_reducible assumption
    | split
    | (refine Keeps.mk_of rfl ?_; first | with_reducible assumption)

theorem flushLogs_keeps {ws : List Part} {s₀ s : State} (h₀ : Keeps ws s₀ s) 
    (hw : Part.sub [.logA, .logB, .mapLog] ws = true) : Keeps ws s₀ (State.flushLogs s) := by
  unfold State.flushLogs
  try dsimp only
  repeat' first
    | with_reducible assumption
    | split
    | (refine Keeps.mk_of rfl ?_; first | with_reducible assumption)

theorem closeParity_keeps {ws : List Part} {s₀ s : State} (h₀ : Keeps ws s₀ s) 
    (hw : Part.sub [.groups] ws = true) : Keeps ws s₀ (State.closeParity s) := by
  unfold State.closeParity
  try dsimp only
  repeat' first
    | with_reducible assumption
    | split
    | (refine Keeps.mk_of rfl ?_; first | with_reducible assumption)

theorem writeChunk_keeps {ws : List Part} {s₀ s : State} (h₀ : Keeps ws s₀ s) (chunk : Nat)
    (hw : Part.sub [.dirty, .images] ws = true) : Keeps ws s₀ (State.writeChunk s chunk) := by
  unfold State.writeChunk
  try dsimp only
  repeat' first
    | with_reducible assumption
    | split
    | (refine Keeps.mk_of rfl ?_; first | with_reducible assumption)

theorem writeChunks_keeps {ws : List Part} {s₀ s : State} (h₀ : Keeps ws s₀ s) 
    (hw : Part.sub [.dirty, .images] ws = true) : Keeps ws s₀ (State.writeChunks s) := by
  unfold State.writeChunks
  try dsimp only
  repeat' first
    | with_reducible assumption
    | (with_reducible refine Keeps.foldl ?_ (fun _ _ _ => ?_))
    | with_reducible apply writeChunk_keeps
    | with_reducible exact Part.sub_trans hw (by decide)
    | split
    | (refine Keeps.mk_of rfl ?_; first | with_reducible assumption | (with_reducible refine Keeps.foldl ?_ (fun _ _ _ => ?_)) | with_reducible apply writeChunk_keeps | with_reducible exact Part.sub_trans hw (by decide))

theorem mainOff_keeps {ws : List Part} {s₀ s : State} (h₀ : Keeps ws s₀ s) 
    (hw : Part.sub [.supply, .modes, .spares, .counts, .ports, .sessions, .closed, .ctxs, .kept, .held, .locks, .logs, .keyspaces, .entries, .groups, .eraseSets, .heat, .cache, .holds, .logA, .logB, .coh, .quince, .pages, .kek, .pipes, .queue, .sieves, .relay, .power, .thermal, .holdup, .fw, .sb, .dbg] ws = true) : Keeps ws s₀ (State.mainOff s) := by
  unfold State.mainOff
  try dsimp only
  repeat' first
    | with_reducible assumption
    | with_reducible apply Keeps.ite
    | with_reducible apply closeParity_keeps
    | with_reducible apply dropAll_keeps
    | with_reducible apply eraseKeys_keeps
    | with_reducible apply linksOff_keeps
    | with_reducible exact Part.sub_trans hw (by decide)
    | split
    | (refine Keeps.mk_of rfl ?_; first | with_reducible assumption | with_reducible apply Keeps.ite | with_reducible apply closeParity_keeps | with_reducible apply dropAll_keeps | with_reducible apply eraseKeys_keeps | with_reducible apply linksOff_keeps | with_reducible exact Part.sub_trans hw (by decide))

theorem clearCounts_keeps {ws : List Part} {s₀ s : State} (h₀ : Keeps ws s₀ s) 
    (hw : Part.sub [.counts, .ports, .power] ws = true) : Keeps ws s₀ (State.clearCounts s) := by
  unfold State.clearCounts
  try dsimp only
  repeat' first
    | with_reducible assumption
    | split
    | (refine Keeps.mk_of rfl ?_; first | with_reducible assumption)

theorem beginFilling_keeps {ws : List Part} {s₀ s : State} (h₀ : Keeps ws s₀ s) 
    (hw : Part.sub [.rnd, .supply, .modes, .counts, .ports, .sessions, .ctxs, .nextId, .kept, .held, .sent, .locks, .logs, .keyspaces, .quince, .pages, .pipes, .queue, .sieves, .relay, .power, .fw, .sb, .dbg] ws = true) : Keeps ws s₀ (State.beginFilling s) := by
  unfold State.beginFilling
  try dsimp only
  repeat' first
    | with_reducible assumption
    | with_reducible apply bootImage_keeps
    | with_reducible apply changeMode_keeps
    | with_reducible apply clearCounts_keeps
    | with_reducible apply console_keeps
    | with_reducible exact Part.sub_trans hw (by decide)
    | split
    | (refine Keeps.mk_of rfl ?_; first | with_reducible assumption | with_reducible apply bootImage_keeps | with_reducible apply changeMode_keeps | with_reducible apply clearCounts_keeps | with_reducible apply console_keeps | with_reducible exact Part.sub_trans hw (by decide))

theorem toDormant_keeps {ws : List Part} {s₀ s : State} (h₀ : Keeps ws s₀ s) 
    (hw : Part.sub [.rnd, .supply, .modes, .spares, .counts, .ports, .sessions, .closed, .ctxs, .nextId, .kept, .held, .sent, .locks, .logs, .keyspaces, .entries, .groups, .eraseSets, .heat, .cache, .holds, .logA, .logB, .coh, .quince, .pages, .kek, .pipes, .queue, .sieves, .relay, .power, .thermal, .holdup, .fw, .sb, .dbg] ws = true) : Keeps ws s₀ (State.toDormant s) := by
  unfold State.toDormant
  try dsimp only
  repeat' first
    | with_reducible assumption
    | with_reducible apply changeMode_keeps
    | with_reducible apply keepPairs_keeps
    | with_reducible apply mainOff_keeps
    | with_reducible exact Part.sub_trans hw (by decide)
    | split
    | (refine Keeps.mk_of rfl ?_; first | with_reducible assumption | with_reducible apply changeMode_keeps | with_reducible apply keepPairs_keeps | with_reducible apply mainOff_keeps | with_reducible exact Part.sub_trans hw (by decide))

theorem startFault_keeps {ws : List Part} {s₀ s : State} (h₀ : Keeps ws s₀ s) (cause island : Nat)
    (hw : Part.sub [.rnd, .supply, .modes, .spares, .counts, .ports, .sessions, .closed, .ctxs, .nextId, .kept, .held, .sent, .locks, .logs, .keyspaces, .entries, .groups, .eraseSets, .heat, .cache, .holds, .logA, .logB, .coh, .quince, .pages, .kek, .pipes, .queue, .sieves, .relay, .power, .thermal, .holdup, .fw, .sb, .dbg] ws = true) : Keeps ws s₀ (State.startFault s cause island) := by
  unfold State.startFault
  try dsimp only
  repeat' first
    | with_reducible assumption
    | with_reducible apply alert_keeps
    | with_reducible apply fwLoss_keeps
    | with_reducible apply toDormant_keeps
    | with_reducible exact Part.sub_trans hw (by decide)
    | split
    | (refine Keeps.mk_of rfl ?_; first | with_reducible assumption | with_reducible apply alert_keeps | with_reducible apply fwLoss_keeps | with_reducible apply toDormant_keeps | with_reducible exact Part.sub_trans hw (by decide))

theorem recordMode_keeps {ws : List Part} {s₀ s : State} (h₀ : Keeps ws s₀ s) 
    (hw : Part.sub [.modes] ws = true) : Keeps ws s₀ (State.recordMode s) := by
  unfold State.recordMode
  try dsimp only
  repeat' first
    | with_reducible assumption
    | split
    | (refine Keeps.mk_of rfl ?_; first | with_reducible assumption)

theorem startWaltz_keeps {ws : List Part} {s₀ s : State} (h₀ : Keeps ws s₀ s) (trigger : Nat)
    (hw : Part.sub [.modes, .counts, .ports, .sessions, .closed, .ctxs, .kept, .held, .locks, .logs, .keyspaces, .eraseSets, .holds, .pages, .pipes, .queue, .sieves, .relay, .power, .holdup, .fw, .sb, .dbg] ws = true) : Keeps ws s₀ (State.startWaltz s trigger) := by
  unfold State.startWaltz
  try dsimp only
  repeat' first
    | with_reducible assumption
    | with_reducible apply Keeps.ite
    | with_reducible apply dropAll_keeps
    | with_reducible apply fwLoss_keeps
    | with_reducible apply linksOff_keeps
    | with_reducible exact Part.sub_trans hw (by decide)
    | split
    | (refine Keeps.mk_of rfl ?_; first | with_reducible assumption | with_reducible apply Keeps.ite | with_reducible apply dropAll_keeps | with_reducible apply fwLoss_keeps | with_reducible apply linksOff_keeps | with_reducible exact Part.sub_trans hw (by decide))

theorem phaseDone_keeps {ws : List Part} {s₀ s : State} (h : Keeps ws s₀ s) (f : Flush) (hw : Part.sub [.groups, .logA, .logB, .mapLog, .dirty, .images, .relay, .nor] ws = true) :
    Keeps ws s₀ (State.phaseDone s f).1 := by
  unfold State.phaseDone
  dsimp only
  repeat' first
    | with_reducible assumption
    | with_reducible apply saveSettings_keeps
    | with_reducible apply keepPairs_keeps
    | with_reducible apply closeParity_keeps
    | with_reducible apply flushLogs_keeps
    | with_reducible apply writeChunks_keeps
    | with_reducible exact Part.sub_trans hw (by decide)
    | split

theorem finishFlush_keeps {ws : List Part} {s₀ s : State} (h₀ : Keeps ws s₀ s) (f : Flush) (last : Nat)
    (hw : Part.sub [.rnd, .supply, .modes, .spares, .counts, .ports, .sessions, .closed, .ctxs, .nextId, .kept, .held, .sent, .locks, .logs, .keyspaces, .entries, .groups, .eraseSets, .heat, .cache, .holds, .logA, .logB, .coh, .quince, .pages, .kek, .pipes, .queue, .sieves, .relay, .power, .thermal, .holdup, .fw, .sb, .dbg, .nor] ws = true) : Keeps ws s₀ (State.finishFlush s f last) := by
  unfold State.finishFlush
  try dsimp only
  repeat' first
    | with_reducible assumption
    | with_reducible apply Keeps.ite
    | with_reducible apply changeMode_keeps
    | with_reducible apply keepPairs_keeps
    | with_reducible apply mainOff_keeps
    | with_reducible apply recordMode_keeps
    | with_reducible apply saveSettings_keeps
    | with_reducible exact Part.sub_trans hw (by decide)
    | split
    | (refine Keeps.mk_of rfl ?_; first | with_reducible assumption | with_reducible apply Keeps.ite | with_reducible apply changeMode_keeps | with_reducible apply keepPairs_keeps | with_reducible apply mainOff_keeps | with_reducible apply recordMode_keeps | with_reducible apply saveSettings_keeps | with_reducible exact Part.sub_trans hw (by decide))

theorem restore_keeps {ws : List Part} {s₀ s : State} (h₀ : Keeps ws s₀ s) (b : Settings)
    (hw : Part.sub [.modes, .ports, .vars, .owners, .keyspaces, .pages, .relay, .holdup] ws = true) : Keeps ws s₀ (State.restore s b) := by
  unfold State.restore
  try dsimp only
  repeat' first
    | with_reducible assumption
    | split
    | (refine Keeps.mk_of rfl ?_; first | with_reducible assumption)

theorem formatRead_keeps {ws : List Part} {s₀ s : State} (h₀ : Keeps ws s₀ s) 
    (hw : Part.sub [.modes] ws = true) : Keeps ws s₀ (State.formatRead s) := by
  unfold State.formatRead
  try dsimp only
  repeat' first
    | with_reducible assumption
    | split
    | (refine Keeps.mk_of rfl ?_; first | with_reducible assumption)

theorem readSettings_keeps {ws : List Part} {s₀ s : State} (h₀ : Keeps ws s₀ s) 
    (hw : Part.sub [.rnd, .modes, .counts, .ports, .sessions, .ctxs, .nextId, .kept, .held, .sent, .locks, .vars, .logs, .owners, .keyspaces, .quince, .pages, .pipes, .queue, .sieves, .relay, .power, .holdup, .sb, .dbg, .nor] ws = true) : Keeps ws s₀ (State.readSettings s) := by
  unfold State.readSettings
  try dsimp only
  repeat' first
    | with_reducible assumption
    | with_reducible apply Keeps.ite
    | with_reducible apply formatRead_keeps
    | with_reducible apply freeze_keeps
    | with_reducible apply restore_keeps
    | with_reducible apply saveSettings_keeps
    | with_reducible exact Part.sub_trans hw (by decide)
    | split
    | (refine Keeps.mk_of rfl ?_; first | with_reducible assumption | with_reducible apply Keeps.ite | with_reducible apply formatRead_keeps | with_reducible apply freeze_keeps | with_reducible apply restore_keeps | with_reducible apply saveSettings_keeps | with_reducible exact Part.sub_trans hw (by decide))

end Sys2Proof.Machine
end

