-- ==== Sys2Proof/Laws/KeepsStartup.lean ====
section
/-! SUPPORT. Which parts of the state each operation of Machine/Startup.lean may change. -/

set_option Elab.async false

namespace Sys2Proof.Machine

theorem sampleStraps_keeps {ws : List Part} {s₀ s : State} (h₀ : Keeps ws s₀ s) (straps : Straps)
    (hw : Part.sub [.supply, .modes] ws = true) : Keeps ws s₀ (State.sampleStraps s straps) := by
  unfold State.sampleStraps
  try dsimp only
  repeat' first
    | with_reducible assumption
    | with_reducible apply Keeps.ite
    | split
    | (refine Keeps.mk_of rfl ?_; first | with_reducible assumption | with_reducible apply Keeps.ite)

theorem execP3v3AuxInRange_keeps {s : State} (straps : Straps) :
    KeepsO [.supply, .modes, .sb] s (execP3v3AuxInRange straps s) := by
  have h₀ := Keeps.refl [.supply, .modes, .sb] s
  have hw : Part.sub [.supply, .modes, .sb] [.supply, .modes, .sb] = true := by decide
  unfold execP3v3AuxInRange
  try dsimp only
  repeat' first
    | with_reducible assumption
    | with_reducible apply KeepsO.next
    | with_reducible apply KeepsO.ite
    | with_reducible apply Keeps.ite
    | with_reducible apply sampleStraps_keeps
    | with_reducible exact Part.sub_trans hw (by decide)
    | split
    | (refine Keeps.mk_of rfl ?_; first | with_reducible assumption | with_reducible apply KeepsO.next | with_reducible apply KeepsO.ite | with_reducible apply Keeps.ite | with_reducible apply sampleStraps_keeps | with_reducible exact Part.sub_trans hw (by decide))

theorem execPwrEnWatchStart_keeps {s : State}  :
    KeepsO [.supply] s (execPwrEnWatchStart s) := by
  have h₀ := Keeps.refl [.supply] s
  have hw : Part.sub [.supply] [.supply] = true := by decide
  unfold execPwrEnWatchStart
  try dsimp only
  repeat' first
    | with_reducible assumption
    | with_reducible apply KeepsO.next
    | with_reducible apply KeepsO.ite
    | with_reducible apply Keeps.ite
    | split
    | (refine Keeps.mk_of rfl ?_; first | with_reducible assumption | with_reducible apply KeepsO.next | with_reducible apply KeepsO.ite | with_reducible apply Keeps.ite)

theorem execPwrEnRise_keeps {s : State} (straps : Straps) :
    KeepsO [.rnd, .supply, .modes, .counts, .ports, .sessions, .ctxs, .nextId, .kept, .held, .sent, .locks, .logs, .keyspaces, .quince, .pages, .pipes, .queue, .sieves, .relay, .power, .fw, .sb, .dbg] s (execPwrEnRise straps s) := by
  have h₀ := Keeps.refl [.rnd, .supply, .modes, .counts, .ports, .sessions, .ctxs, .nextId, .kept, .held, .sent, .locks, .logs, .keyspaces, .quince, .pages, .pipes, .queue, .sieves, .relay, .power, .fw, .sb, .dbg] s
  have hw : Part.sub [.rnd, .supply, .modes, .counts, .ports, .sessions, .ctxs, .nextId, .kept, .held, .sent, .locks, .logs, .keyspaces, .quince, .pages, .pipes, .queue, .sieves, .relay, .power, .fw, .sb, .dbg] [.rnd, .supply, .modes, .counts, .ports, .sessions, .ctxs, .nextId, .kept, .held, .sent, .locks, .logs, .keyspaces, .quince, .pages, .pipes, .queue, .sieves, .relay, .power, .fw, .sb, .dbg] = true := by decide
  unfold execPwrEnRise
  try dsimp only
  repeat' first
    | with_reducible assumption
    | with_reducible apply KeepsO.next
    | with_reducible apply KeepsO.ite
    | with_reducible apply Keeps.ite
    | with_reducible apply beginFilling_keeps
    | with_reducible apply sampleStraps_keeps
    | with_reducible exact Part.sub_trans hw (by decide)
    | split
    | (refine Keeps.mk_of rfl ?_; first | with_reducible assumption | with_reducible apply KeepsO.next | with_reducible apply KeepsO.ite | with_reducible apply Keeps.ite | with_reducible apply beginFilling_keeps | with_reducible apply sampleStraps_keeps | with_reducible exact Part.sub_trans hw (by decide))

theorem execP12vInRange_keeps {s : State}  :
    KeepsO [.rnd, .supply, .modes, .counts, .ports, .sessions, .ctxs, .nextId, .kept, .held, .sent, .locks, .logs, .keyspaces, .quince, .pages, .pipes, .queue, .sieves, .relay, .power, .fw, .sb, .dbg] s (execP12vInRange s) := by
  have h₀ := Keeps.refl [.rnd, .supply, .modes, .counts, .ports, .sessions, .ctxs, .nextId, .kept, .held, .sent, .locks, .logs, .keyspaces, .quince, .pages, .pipes, .queue, .sieves, .relay, .power, .fw, .sb, .dbg] s
  have hw : Part.sub [.rnd, .supply, .modes, .counts, .ports, .sessions, .ctxs, .nextId, .kept, .held, .sent, .locks, .logs, .keyspaces, .quince, .pages, .pipes, .queue, .sieves, .relay, .power, .fw, .sb, .dbg] [.rnd, .supply, .modes, .counts, .ports, .sessions, .ctxs, .nextId, .kept, .held, .sent, .locks, .logs, .keyspaces, .quince, .pages, .pipes, .queue, .sieves, .relay, .power, .fw, .sb, .dbg] = true := by decide
  unfold execP12vInRange
  try dsimp only
  repeat' first
    | with_reducible assumption
    | with_reducible apply KeepsO.next
    | with_reducible apply KeepsO.ite
    | with_reducible apply Keeps.ite
    | with_reducible apply beginFilling_keeps
    | with_reducible exact Part.sub_trans hw (by decide)
    | split
    | (refine Keeps.mk_of rfl ?_; first | with_reducible assumption | with_reducible apply KeepsO.next | with_reducible apply KeepsO.ite | with_reducible apply Keeps.ite | with_reducible apply beginFilling_keeps | with_reducible exact Part.sub_trans hw (by decide))

theorem supplyLost_keeps {ws : List Part} {s₀ s : State} (h₀ : Keeps ws s₀ s) (trigger : Nat)
    (hw : Part.sub [.rnd, .supply, .modes, .spares, .counts, .ports, .sessions, .closed, .ctxs, .nextId, .kept, .held, .sent, .locks, .logs, .keyspaces, .entries, .groups, .eraseSets, .heat, .cache, .holds, .logA, .logB, .coh, .quince, .pages, .kek, .pipes, .queue, .sieves, .relay, .power, .thermal, .holdup, .fw, .sb, .dbg] ws = true) : Keeps ws s₀ (State.supplyLost s trigger) := by
  unfold State.supplyLost
  try dsimp only
  repeat' first
    | with_reducible assumption
    | with_reducible apply Keeps.ite
    | with_reducible apply fwLoss_keeps
    | with_reducible apply startWaltz_keeps
    | with_reducible apply toDormant_keeps
    | with_reducible exact Part.sub_trans hw (by decide)
    | split
    | (refine Keeps.mk_of rfl ?_; first | with_reducible assumption | with_reducible apply Keeps.ite | with_reducible apply fwLoss_keeps | with_reducible apply startWaltz_keeps | with_reducible apply toDormant_keeps | with_reducible exact Part.sub_trans hw (by decide))

theorem execPwrEnFall_keeps {s : State}  :
    KeepsO [.rnd, .supply, .modes, .spares, .counts, .ports, .sessions, .closed, .ctxs, .nextId, .kept, .held, .sent, .locks, .logs, .keyspaces, .entries, .groups, .eraseSets, .heat, .cache, .holds, .logA, .logB, .coh, .quince, .pages, .kek, .pipes, .queue, .sieves, .relay, .power, .thermal, .holdup, .fw, .sb, .dbg] s (execPwrEnFall s) := by
  have h₀ := Keeps.refl [.rnd, .supply, .modes, .spares, .counts, .ports, .sessions, .closed, .ctxs, .nextId, .kept, .held, .sent, .locks, .logs, .keyspaces, .entries, .groups, .eraseSets, .heat, .cache, .holds, .logA, .logB, .coh, .quince, .pages, .kek, .pipes, .queue, .sieves, .relay, .power, .thermal, .holdup, .fw, .sb, .dbg] s
  have hw : Part.sub [.rnd, .supply, .modes, .spares, .counts, .ports, .sessions, .closed, .ctxs, .nextId, .kept, .held, .sent, .locks, .logs, .keyspaces, .entries, .groups, .eraseSets, .heat, .cache, .holds, .logA, .logB, .coh, .quince, .pages, .kek, .pipes, .queue, .sieves, .relay, .power, .thermal, .holdup, .fw, .sb, .dbg] [.rnd, .supply, .modes, .spares, .counts, .ports, .sessions, .closed, .ctxs, .nextId, .kept, .held, .sent, .locks, .logs, .keyspaces, .entries, .groups, .eraseSets, .heat, .cache, .holds, .logA, .logB, .coh, .quince, .pages, .kek, .pipes, .queue, .sieves, .relay, .power, .thermal, .holdup, .fw, .sb, .dbg] = true := by decide
  unfold execPwrEnFall
  try dsimp only
  repeat' first
    | with_reducible assumption
    | with_reducible apply KeepsO.next
    | with_reducible apply KeepsO.ite
    | with_reducible apply Keeps.ite
    | with_reducible apply supplyLost_keeps
    | with_reducible exact Part.sub_trans hw (by decide)
    | split
    | (refine Keeps.mk_of rfl ?_; first | with_reducible assumption | with_reducible apply KeepsO.next | with_reducible apply KeepsO.ite | with_reducible apply Keeps.ite | with_reducible apply supplyLost_keeps | with_reducible exact Part.sub_trans hw (by decide))

theorem execP12vLoss_keeps {s : State} (removed : Bool) :
    KeepsO [.rnd, .supply, .modes, .spares, .counts, .ports, .sessions, .closed, .ctxs, .nextId, .kept, .held, .sent, .locks, .logs, .keyspaces, .entries, .groups, .eraseSets, .heat, .cache, .holds, .logA, .logB, .coh, .quince, .pages, .kek, .pipes, .queue, .sieves, .relay, .power, .thermal, .holdup, .fw, .sb, .dbg] s (execP12vLoss removed s) := by
  have h₀ := Keeps.refl [.rnd, .supply, .modes, .spares, .counts, .ports, .sessions, .closed, .ctxs, .nextId, .kept, .held, .sent, .locks, .logs, .keyspaces, .entries, .groups, .eraseSets, .heat, .cache, .holds, .logA, .logB, .coh, .quince, .pages, .kek, .pipes, .queue, .sieves, .relay, .power, .thermal, .holdup, .fw, .sb, .dbg] s
  have hw : Part.sub [.rnd, .supply, .modes, .spares, .counts, .ports, .sessions, .closed, .ctxs, .nextId, .kept, .held, .sent, .locks, .logs, .keyspaces, .entries, .groups, .eraseSets, .heat, .cache, .holds, .logA, .logB, .coh, .quince, .pages, .kek, .pipes, .queue, .sieves, .relay, .power, .thermal, .holdup, .fw, .sb, .dbg] [.rnd, .supply, .modes, .spares, .counts, .ports, .sessions, .closed, .ctxs, .nextId, .kept, .held, .sent, .locks, .logs, .keyspaces, .entries, .groups, .eraseSets, .heat, .cache, .holds, .logA, .logB, .coh, .quince, .pages, .kek, .pipes, .queue, .sieves, .relay, .power, .thermal, .holdup, .fw, .sb, .dbg] = true := by decide
  unfold execP12vLoss
  try dsimp only
  repeat' first
    | with_reducible assumption
    | with_reducible apply KeepsO.next
    | with_reducible apply KeepsO.ite
    | with_reducible apply supplyLost_keeps
    | with_reducible exact Part.sub_trans hw (by decide)
    | split
    | (refine Keeps.mk_of rfl ?_; first | with_reducible assumption | with_reducible apply KeepsO.next | with_reducible apply KeepsO.ite | with_reducible apply supplyLost_keeps | with_reducible exact Part.sub_trans hw (by decide))

theorem replay_keeps {ws : List Part} {s₀ s : State} (h₀ : Keeps ws s₀ s) (sideB : Bool) (r : LogRec)
    (hw : Part.sub [.rnd, .entries] ws = true) : Keeps ws s₀ (State.replay sideB s r) := by
  unfold State.replay
  try dsimp only
  repeat' first
    | with_reducible assumption
    | with_reducible apply Keeps.ite
    | split
    | (refine Keeps.mk_of rfl ?_; first | with_reducible assumption | with_reducible apply Keeps.ite)

theorem enterFound_keeps {ws : List Part} {s₀ s : State} (h₀ : Keeps ws s₀ s) (loc : Nat)
    (hw : Part.sub [.rnd, .entries, .logA, .logB, .dirty] ws = true) : Keeps ws s₀ (State.enterFound s loc) := by
  unfold State.enterFound
  try dsimp only
  repeat' first
    | with_reducible assumption
    | with_reducible apply Keeps.ite
    | with_reducible apply dirLog_keeps
    | with_reducible apply dirtyChunk_keeps
    | with_reducible apply replay_keeps
    | with_reducible exact Part.sub_trans hw (by decide)
    | split
    | (refine Keeps.mk_of rfl ?_; first | with_reducible assumption | with_reducible apply Keeps.ite | with_reducible apply dirLog_keeps | with_reducible apply dirtyChunk_keeps | with_reducible apply replay_keeps | with_reducible exact Part.sub_trans hw (by decide))

theorem enterAll_keeps {ws : List Part} {s₀ s : State} (h : Keeps ws s₀ s) (locs : List Nat) (hw : Part.sub [.rnd, .entries, .logA, .logB, .dirty] ws = true) :
    Keeps ws s₀ (State.enterAll s locs).1 := by
  unfold State.enterAll
  have key : ∀ (l : List Nat) (a : State × Nat), Keeps ws s₀ a.1 → Keeps ws s₀ (l.foldl (fun a l =>
      let t := a.1.enterFound l; (t, a.2 + b1 (t.isMapped l && !a.1.isMapped l))) a).1 := by
    intro l
    induction l with
    | nil => exact fun a ha => ha
    | cons p l ih =>
      intro a ha
      rw [List.foldl_cons]
      exact ih _ (enterFound_keeps ha _ (Part.sub_trans hw (by decide)))
  exact key _ _ h

theorem enterWays_keeps {ws : List Part} {s₀ s : State} (h₀ : Keeps ws s₀ s) (e : Entry)
    (hw : Part.sub [.quince] ws = true) : Keeps ws s₀ (State.enterWays s e) := by
  unfold State.enterWays
  try dsimp only
  repeat' first
    | with_reducible assumption
    | (with_reducible refine Keeps.foldl ?_ (fun _ _ _ => ?_))
    | with_reducible apply qEnter_keeps
    | with_reducible exact Part.sub_trans hw (by decide)
    | split
    | (refine Keeps.mk_of rfl ?_; first | with_reducible assumption | (with_reducible refine Keeps.foldl ?_ (fun _ _ _ => ?_)) | with_reducible apply qEnter_keeps | with_reducible exact Part.sub_trans hw (by decide))

theorem drainQuince_keeps {ws : List Part} {s₀ s : State} (h₀ : Keeps ws s₀ s) 
    (hw : Part.sub [.quince] ws = true) : Keeps ws s₀ (State.drainQuince s) := by
  unfold State.drainQuince
  try dsimp only
  repeat' first
    | with_reducible assumption
    | (with_reducible refine Keeps.foldl ?_ (fun _ _ _ => ?_))
    | split
    | (refine Keeps.mk_of rfl ?_; first | with_reducible assumption | (with_reducible refine Keeps.foldl ?_ (fun _ _ _ => ?_)))

theorem replayLogs_keeps {ws : List Part} {s₀ s : State} (h₀ : Keeps ws s₀ s) (lost : List LostPage)
    (hw : Part.sub [.rnd, .entries, .logA, .logB] ws = true) : Keeps ws s₀ (State.replayLogs s lost) := by
  unfold State.replayLogs
  try dsimp only
  repeat' first
    | with_reducible assumption
    | (with_reducible refine Keeps.foldl ?_ (fun _ _ _ => ?_))
    | with_reducible apply replay_keeps
    | with_reducible exact Part.sub_trans hw (by decide)
    | split
    | (refine Keeps.mk_of rfl ?_; first | with_reducible assumption | (with_reducible refine Keeps.foldl ?_ (fun _ _ _ => ?_)) | with_reducible apply replay_keeps | with_reducible exact Part.sub_trans hw (by decide))

theorem lostPages_keeps {ws : List Part} {s₀ s : State} (h₀ : Keeps ws s₀ s) (lost : List LostPage)
    (hw : Part.sub [.rnd, .logs, .entries, .logA, .logB, .dirty, .dbg] ws = true) : Keeps ws s₀ (State.lostPages s lost) := by
  unfold State.lostPages
  try dsimp only
  repeat' first
    | with_reducible assumption
    | with_reducible apply Keeps.ite
    | (with_reducible refine Keeps.foldl ?_ (fun _ _ _ => ?_))
    | with_reducible apply enterAll_keeps
    | with_reducible apply logEvent_keeps
    | with_reducible exact Part.sub_trans hw (by decide)
    | split
    | (refine Keeps.mk_of rfl ?_; first | with_reducible assumption | with_reducible apply Keeps.ite | (with_reducible refine Keeps.foldl ?_ (fun _ _ _ => ?_)) | with_reducible apply enterAll_keeps | with_reducible apply logEvent_keeps | with_reducible exact Part.sub_trans hw (by decide))

theorem findMark_keeps {ws : List Part} {s₀ s : State} (h₀ : Keeps ws s₀ s) (found : List Nat)
    (hw : Part.sub [.rnd, .modes, .counts, .ports, .sessions, .ctxs, .nextId, .kept, .held, .sent, .locks, .logs, .keyspaces, .entries, .logA, .logB, .dirty, .quince, .pages, .pipes, .queue, .sieves, .relay, .power, .sb, .dbg, .nor] ws = true) : Keeps ws s₀ (State.findMark s found) := by
  unfold State.findMark
  try dsimp only
  repeat' first
    | with_reducible assumption
    | with_reducible apply Keeps.ite
    | with_reducible apply enterAll_keeps
    | with_reducible apply freeze_keeps
    | with_reducible apply logEvent_keeps
    | with_reducible exact Part.sub_trans hw (by decide)
    | split
    | (refine Keeps.mk_of rfl ?_; first | with_reducible assumption | with_reducible apply Keeps.ite | with_reducible apply enterAll_keeps | with_reducible apply freeze_keeps | with_reducible apply logEvent_keeps | with_reducible exact Part.sub_trans hw (by decide))

theorem stepDone_keeps {ws : List Part} {s₀ s : State} (h₀ : Keeps ws s₀ s) (n : Nat)
    (hw : Part.sub [.modes, .dbg] ws = true) : Keeps ws s₀ (State.stepDone s n) := by
  unfold State.stepDone
  try dsimp only
  repeat' first
    | with_reducible assumption
    | with_reducible apply Keeps.ite
    | with_reducible apply console_keeps
    | with_reducible exact Part.sub_trans hw (by decide)
    | split
    | (refine Keeps.mk_of rfl ?_; first | with_reducible assumption | with_reducible apply Keeps.ite | with_reducible apply console_keeps | with_reducible exact Part.sub_trans hw (by decide))

theorem execMainRailsInRange_keeps {s : State}  :
    KeepsO [.modes, .dbg] s (execMainRailsInRange s) := by
  have h₀ := Keeps.refl [.modes, .dbg] s
  have hw : Part.sub [.modes, .dbg] [.modes, .dbg] = true := by decide
  unfold execMainRailsInRange
  try dsimp only
  repeat' first
    | with_reducible assumption
    | with_reducible apply KeepsO.next
    | with_reducible apply KeepsO.ite
    | with_reducible apply Keeps.ite
    | with_reducible apply stepDone_keeps
    | with_reducible exact Part.sub_trans hw (by decide)
    | split
    | (refine Keeps.mk_of rfl ?_; first | with_reducible assumption | with_reducible apply KeepsO.next | with_reducible apply KeepsO.ite | with_reducible apply Keeps.ite | with_reducible apply stepDone_keeps | with_reducible exact Part.sub_trans hw (by decide))

theorem execSramFillComplete_keeps {s : State}  :
    KeepsO [.modes, .dbg] s (execSramFillComplete s) := by
  have h₀ := Keeps.refl [.modes, .dbg] s
  have hw : Part.sub [.modes, .dbg] [.modes, .dbg] = true := by decide
  unfold execSramFillComplete
  try dsimp only
  repeat' first
    | with_reducible assumption
    | with_reducible apply KeepsO.next
    | with_reducible apply KeepsO.ite
    | with_reducible apply Keeps.ite
    | with_reducible apply stepDone_keeps
    | with_reducible exact Part.sub_trans hw (by decide)
    | split
    | (refine Keeps.mk_of rfl ?_; first | with_reducible assumption | with_reducible apply KeepsO.next | with_reducible apply KeepsO.ite | with_reducible apply Keeps.ite | with_reducible apply stepDone_keeps | with_reducible exact Part.sub_trans hw (by decide))

theorem execDramTrainingComplete_keeps {s : State}  :
    KeepsO [.modes, .dbg] s (execDramTrainingComplete s) := by
  have h₀ := Keeps.refl [.modes, .dbg] s
  have hw : Part.sub [.modes, .dbg] [.modes, .dbg] = true := by decide
  unfold execDramTrainingComplete
  try dsimp only
  repeat' first
    | with_reducible assumption
    | with_reducible apply KeepsO.next
    | with_reducible apply KeepsO.ite
    | with_reducible apply Keeps.ite
    | with_reducible apply stepDone_keeps
    | with_reducible exact Part.sub_trans hw (by decide)
    | split
    | (refine Keeps.mk_of rfl ?_; first | with_reducible assumption | with_reducible apply KeepsO.next | with_reducible apply KeepsO.ite | with_reducible apply Keeps.ite | with_reducible apply stepDone_keeps | with_reducible exact Part.sub_trans hw (by decide))

theorem execDramFillComplete_keeps {s : State}  :
    KeepsO [.modes, .spares, .dbg] s (execDramFillComplete s) := by
  have h₀ := Keeps.refl [.modes, .spares, .dbg] s
  have hw : Part.sub [.modes, .spares, .dbg] [.modes, .spares, .dbg] = true := by decide
  unfold execDramFillComplete
  try dsimp only
  repeat' first
    | with_reducible assumption
    | with_reducible apply KeepsO.next
    | with_reducible apply KeepsO.ite
    | with_reducible apply Keeps.ite
    | with_reducible apply stepDone_keeps
    | with_reducible exact Part.sub_trans hw (by decide)
    | split
    | (refine Keeps.mk_of rfl ?_; first | with_reducible assumption | with_reducible apply KeepsO.next | with_reducible apply KeepsO.ite | with_reducible apply Keeps.ite | with_reducible apply stepDone_keeps | with_reducible exact Part.sub_trans hw (by decide))

theorem execConfirmedImageRead_keeps {s : State}  :
    KeepsO [.modes, .dbg] s (execConfirmedImageRead s) := by
  have h₀ := Keeps.refl [.modes, .dbg] s
  have hw : Part.sub [.modes, .dbg] [.modes, .dbg] = true := by decide
  unfold execConfirmedImageRead
  try dsimp only
  repeat' first
    | with_reducible assumption
    | with_reducible apply KeepsO.next
    | with_reducible apply KeepsO.ite
    | with_reducible apply Keeps.ite
    | with_reducible apply stepDone_keeps
    | with_reducible exact Part.sub_trans hw (by decide)
    | split
    | (refine Keeps.mk_of rfl ?_; first | with_reducible assumption | with_reducible apply KeepsO.next | with_reducible apply KeepsO.ite | with_reducible apply Keeps.ite | with_reducible apply stepDone_keeps | with_reducible exact Part.sub_trans hw (by decide))

theorem execIslandCodeLoaded_keeps {s : State}  :
    KeepsO [.modes, .ports, .sb, .dbg] s (execIslandCodeLoaded s) := by
  have h₀ := Keeps.refl [.modes, .ports, .sb, .dbg] s
  have hw : Part.sub [.modes, .ports, .sb, .dbg] [.modes, .ports, .sb, .dbg] = true := by decide
  unfold execIslandCodeLoaded
  try dsimp only
  repeat' first
    | with_reducible assumption
    | with_reducible apply KeepsO.next
    | with_reducible apply KeepsO.ite
    | with_reducible apply Keeps.ite
    | with_reducible apply judgePlugIn_keeps
    | with_reducible apply setCage_keeps
    | with_reducible apply startAttempts_keeps
    | with_reducible apply stepDone_keeps
    | with_reducible exact Part.sub_trans hw (by decide)
    | split
    | (refine Keeps.mk_of rfl ?_; first | with_reducible assumption | with_reducible apply KeepsO.next | with_reducible apply KeepsO.ite | with_reducible apply Keeps.ite | with_reducible apply judgePlugIn_keeps | with_reducible apply setCage_keeps | with_reducible apply startAttempts_keeps | with_reducible apply stepDone_keeps | with_reducible exact Part.sub_trans hw (by decide))

theorem execSettingsMigrated_keeps {s : State}  :
    KeepsO [.rnd, .modes, .counts, .ports, .sessions, .ctxs, .nextId, .kept, .held, .sent, .locks, .vars, .logs, .owners, .keyspaces, .quince, .pages, .pipes, .queue, .sieves, .relay, .power, .holdup, .sb, .dbg, .nor] s (execSettingsMigrated s) := by
  have h₀ := Keeps.refl [.rnd, .modes, .counts, .ports, .sessions, .ctxs, .nextId, .kept, .held, .sent, .locks, .vars, .logs, .owners, .keyspaces, .quince, .pages, .pipes, .queue, .sieves, .relay, .power, .holdup, .sb, .dbg, .nor] s
  have hw : Part.sub [.rnd, .modes, .counts, .ports, .sessions, .ctxs, .nextId, .kept, .held, .sent, .locks, .vars, .logs, .owners, .keyspaces, .quince, .pages, .pipes, .queue, .sieves, .relay, .power, .holdup, .sb, .dbg, .nor] [.rnd, .modes, .counts, .ports, .sessions, .ctxs, .nextId, .kept, .held, .sent, .locks, .vars, .logs, .owners, .keyspaces, .quince, .pages, .pipes, .queue, .sieves, .relay, .power, .holdup, .sb, .dbg, .nor] = true := by decide
  unfold execSettingsMigrated
  try dsimp only
  repeat' first
    | with_reducible assumption
    | with_reducible apply KeepsO.next
    | with_reducible apply KeepsO.ite
    | with_reducible apply Keeps.ite
    | with_reducible apply readSettings_keeps
    | with_reducible apply stepDone_keeps
    | with_reducible exact Part.sub_trans hw (by decide)
    | split
    | (refine Keeps.mk_of rfl ?_; first | with_reducible assumption | with_reducible apply KeepsO.next | with_reducible apply KeepsO.ite | with_reducible apply Keeps.ite | with_reducible apply readSettings_keeps | with_reducible apply stepDone_keeps | with_reducible exact Part.sub_trans hw (by decide))

theorem execDirectoryRecovered_keeps {s : State} (lost : List LostPage) (found : List Nat) :
    KeepsO [.rnd, .modes, .counts, .ports, .sessions, .ctxs, .nextId, .kept, .held, .sent, .locks, .logs, .keyspaces, .entries, .logA, .logB, .dirty, .quince, .pages, .pipes, .queue, .sieves, .relay, .power, .sb, .dbg, .nor] s (execDirectoryRecovered lost found s) := by
  have h₀ := Keeps.refl [.rnd, .modes, .counts, .ports, .sessions, .ctxs, .nextId, .kept, .held, .sent, .locks, .logs, .keyspaces, .entries, .logA, .logB, .dirty, .quince, .pages, .pipes, .queue, .sieves, .relay, .power, .sb, .dbg, .nor] s
  have hw : Part.sub [.rnd, .modes, .counts, .ports, .sessions, .ctxs, .nextId, .kept, .held, .sent, .locks, .logs, .keyspaces, .entries, .logA, .logB, .dirty, .quince, .pages, .pipes, .queue, .sieves, .relay, .power, .sb, .dbg, .nor] [.rnd, .modes, .counts, .ports, .sessions, .ctxs, .nextId, .kept, .held, .sent, .locks, .logs, .keyspaces, .entries, .logA, .logB, .dirty, .quince, .pages, .pipes, .queue, .sieves, .relay, .power, .sb, .dbg, .nor] = true := by decide
  unfold execDirectoryRecovered
  try dsimp only
  repeat' first
    | with_reducible assumption
    | with_reducible apply KeepsO.next
    | with_reducible apply KeepsO.ite
    | with_reducible apply Keeps.ite
    | (with_reducible refine Keeps.foldl ?_ (fun _ _ _ => ?_))
    | with_reducible apply drainQuince_keeps
    | with_reducible apply enterWays_keeps
    | with_reducible apply findMark_keeps
    | with_reducible apply lostPages_keeps
    | with_reducible apply replayLogs_keeps
    | with_reducible apply stepDone_keeps
    | with_reducible exact Part.sub_trans hw (by decide)
    | split
    | (refine Keeps.mk_of rfl ?_; first | with_reducible assumption | with_reducible apply KeepsO.next | with_reducible apply KeepsO.ite | with_reducible apply Keeps.ite | (with_reducible refine Keeps.foldl ?_ (fun _ _ _ => ?_)) | with_reducible apply drainQuince_keeps | with_reducible apply enterWays_keeps | with_reducible apply findMark_keeps | with_reducible apply lostPages_keeps | with_reducible apply replayLogs_keeps | with_reducible apply stepDone_keeps | with_reducible exact Part.sub_trans hw (by decide))

theorem keysErasedEvent_keeps {ws : List Part} {s₀ s : State} (h₀ : Keeps ws s₀ s) (causes : BitVec 8) (mode : Nat)
    (hw : Part.sub [.logs, .dbg] ws = true) : Keeps ws s₀ (State.keysErasedEvent s causes mode) := by
  unfold State.keysErasedEvent
  try dsimp only
  repeat' first
    | with_reducible assumption
    | with_reducible apply logEvent_keeps
    | with_reducible exact Part.sub_trans hw (by decide)
    | split
    | (refine Keeps.mk_of rfl ?_; first | with_reducible assumption | with_reducible apply logEvent_keeps | with_reducible exact Part.sub_trans hw (by decide))

theorem execFillingComplete_keeps {s : State} (bankCharged : Bool) :
    KeepsO [.rnd, .supply, .modes, .counts, .ports, .sessions, .ctxs, .nextId, .kept, .held, .sent, .locks, .marks, .logs, .keyspaces, .quince, .pages, .pipes, .queue, .sieves, .relay, .power, .holdup, .fw, .sb, .dbg, .nor] s (execFillingComplete bankCharged s) := by
  have h₀ := Keeps.refl [.rnd, .supply, .modes, .counts, .ports, .sessions, .ctxs, .nextId, .kept, .held, .sent, .locks, .marks, .logs, .keyspaces, .quince, .pages, .pipes, .queue, .sieves, .relay, .power, .holdup, .fw, .sb, .dbg, .nor] s
  have hw : Part.sub [.rnd, .supply, .modes, .counts, .ports, .sessions, .ctxs, .nextId, .kept, .held, .sent, .locks, .marks, .logs, .keyspaces, .quince, .pages, .pipes, .queue, .sieves, .relay, .power, .holdup, .fw, .sb, .dbg, .nor] [.rnd, .supply, .modes, .counts, .ports, .sessions, .ctxs, .nextId, .kept, .held, .sent, .locks, .marks, .logs, .keyspaces, .quince, .pages, .pipes, .queue, .sieves, .relay, .power, .holdup, .fw, .sb, .dbg, .nor] = true := by decide
  unfold execFillingComplete
  try dsimp only
  repeat' first
    | with_reducible assumption
    | with_reducible apply KeepsO.next
    | with_reducible apply KeepsO.ite
    | with_reducible apply Keeps.ite
    | (with_reducible refine Keeps.foldl ?_ (fun _ _ _ => ?_))
    | with_reducible apply changeMode_keeps
    | with_reducible apply fwAfterFilling_keeps
    | with_reducible apply keysErasedEvent_keeps
    | with_reducible apply saveSettings_keeps
    | with_reducible apply startMarks_keeps
    | with_reducible apply stepDone_keeps
    | with_reducible exact Part.sub_trans hw (by decide)
    | split
    | (refine Keeps.mk_of rfl ?_; first | with_reducible assumption | with_reducible apply KeepsO.next | with_reducible apply KeepsO.ite | with_reducible apply Keeps.ite | (with_reducible refine Keeps.foldl ?_ (fun _ _ _ => ?_)) | with_reducible apply changeMode_keeps | with_reducible apply fwAfterFilling_keeps | with_reducible apply keysErasedEvent_keeps | with_reducible apply saveSettings_keeps | with_reducible apply startMarks_keeps | with_reducible apply stepDone_keeps | with_reducible exact Part.sub_trans hw (by decide))

theorem execFillingTimeout_keeps {s : State}  :
    KeepsO [.rnd, .supply, .modes, .spares, .counts, .ports, .sessions, .closed, .ctxs, .nextId, .kept, .held, .sent, .locks, .logs, .keyspaces, .entries, .groups, .eraseSets, .heat, .cache, .holds, .logA, .logB, .coh, .quince, .pages, .kek, .pipes, .queue, .sieves, .relay, .power, .thermal, .holdup, .fw, .sb, .dbg] s (execFillingTimeout s) := by
  have h₀ := Keeps.refl [.rnd, .supply, .modes, .spares, .counts, .ports, .sessions, .closed, .ctxs, .nextId, .kept, .held, .sent, .locks, .logs, .keyspaces, .entries, .groups, .eraseSets, .heat, .cache, .holds, .logA, .logB, .coh, .quince, .pages, .kek, .pipes, .queue, .sieves, .relay, .power, .thermal, .holdup, .fw, .sb, .dbg] s
  have hw : Part.sub [.rnd, .supply, .modes, .spares, .counts, .ports, .sessions, .closed, .ctxs, .nextId, .kept, .held, .sent, .locks, .logs, .keyspaces, .entries, .groups, .eraseSets, .heat, .cache, .holds, .logA, .logB, .coh, .quince, .pages, .kek, .pipes, .queue, .sieves, .relay, .power, .thermal, .holdup, .fw, .sb, .dbg] [.rnd, .supply, .modes, .spares, .counts, .ports, .sessions, .closed, .ctxs, .nextId, .kept, .held, .sent, .locks, .logs, .keyspaces, .entries, .groups, .eraseSets, .heat, .cache, .holds, .logA, .logB, .coh, .quince, .pages, .kek, .pipes, .queue, .sieves, .relay, .power, .thermal, .holdup, .fw, .sb, .dbg] = true := by decide
  unfold execFillingTimeout
  try dsimp only
  repeat' first
    | with_reducible assumption
    | with_reducible apply KeepsO.next
    | with_reducible apply KeepsO.ite
    | with_reducible apply Keeps.ite
    | with_reducible apply startFault_keeps
    | with_reducible exact Part.sub_trans hw (by decide)
    | split
    | (refine Keeps.mk_of rfl ?_; first | with_reducible assumption | with_reducible apply KeepsO.next | with_reducible apply KeepsO.ite | with_reducible apply Keeps.ite | with_reducible apply startFault_keeps | with_reducible exact Part.sub_trans hw (by decide))

theorem restart_keeps {ws : List Part} {s₀ s : State} (h₀ : Keeps ws s₀ s) (island reason : Nat)
    (hw : Part.sub [.rnd, .supply, .modes, .spares, .counts, .ports, .sessions, .closed, .ctxs, .nextId, .kept, .held, .sent, .locks, .logs, .keyspaces, .entries, .groups, .eraseSets, .heat, .cache, .holds, .logA, .logB, .mapLog, .coh, .quince, .pages, .kek, .pipes, .queue, .sieves, .relay, .power, .thermal, .holdup, .fw, .sb, .dbg, .nor] ws = true) : Keeps ws s₀ (State.restart s island reason) := by
  unfold State.restart
  try dsimp only
  repeat' first
    | with_reducible assumption
    | with_reducible apply Keeps.ite
    | with_reducible apply changeMode_keeps
    | with_reducible apply dropAll_keeps
    | with_reducible apply flushLogs_keeps
    | with_reducible apply fwLoss_keeps
    | with_reducible apply keepPairs_keeps
    | with_reducible apply mainOff_keeps
    | with_reducible apply recordMode_keeps
    | with_reducible apply saveSettings_keeps
    | with_reducible apply startFault_keeps
    | with_reducible exact Part.sub_trans hw (by decide)
    | split
    | (refine Keeps.mk_of rfl ?_; first | with_reducible assumption | with_reducible apply Keeps.ite | with_reducible apply changeMode_keeps | with_reducible apply dropAll_keeps | with_reducible apply flushLogs_keeps | with_reducible apply fwLoss_keeps | with_reducible apply keepPairs_keeps | with_reducible apply mainOff_keeps | with_reducible apply recordMode_keeps | with_reducible apply saveSettings_keeps | with_reducible apply startFault_keeps | with_reducible exact Part.sub_trans hw (by decide))

theorem execRestart_keeps {s : State} (island : Nat) :
    KeepsO [.rnd, .supply, .modes, .spares, .counts, .ports, .sessions, .closed, .ctxs, .nextId, .kept, .held, .sent, .locks, .logs, .keyspaces, .entries, .groups, .eraseSets, .heat, .cache, .holds, .logA, .logB, .mapLog, .coh, .quince, .pages, .kek, .pipes, .queue, .sieves, .relay, .power, .thermal, .holdup, .fw, .sb, .dbg, .nor] s (execRestart island s) := by
  have h₀ := Keeps.refl [.rnd, .supply, .modes, .spares, .counts, .ports, .sessions, .closed, .ctxs, .nextId, .kept, .held, .sent, .locks, .logs, .keyspaces, .entries, .groups, .eraseSets, .heat, .cache, .holds, .logA, .logB, .mapLog, .coh, .quince, .pages, .kek, .pipes, .queue, .sieves, .relay, .power, .thermal, .holdup, .fw, .sb, .dbg, .nor] s
  have hw : Part.sub [.rnd, .supply, .modes, .spares, .counts, .ports, .sessions, .closed, .ctxs, .nextId, .kept, .held, .sent, .locks, .logs, .keyspaces, .entries, .groups, .eraseSets, .heat, .cache, .holds, .logA, .logB, .mapLog, .coh, .quince, .pages, .kek, .pipes, .queue, .sieves, .relay, .power, .thermal, .holdup, .fw, .sb, .dbg, .nor] [.rnd, .supply, .modes, .spares, .counts, .ports, .sessions, .closed, .ctxs, .nextId, .kept, .held, .sent, .locks, .logs, .keyspaces, .entries, .groups, .eraseSets, .heat, .cache, .holds, .logA, .logB, .mapLog, .coh, .quince, .pages, .kek, .pipes, .queue, .sieves, .relay, .power, .thermal, .holdup, .fw, .sb, .dbg, .nor] = true := by decide
  unfold execRestart
  try dsimp only
  repeat' first
    | with_reducible assumption
    | with_reducible apply KeepsO.next
    | with_reducible apply KeepsO.ite
    | with_reducible apply restart_keeps
    | with_reducible exact Part.sub_trans hw (by decide)
    | split
    | (refine Keeps.mk_of rfl ?_; first | with_reducible assumption | with_reducible apply KeepsO.next | with_reducible apply KeepsO.ite | with_reducible apply restart_keeps | with_reducible exact Part.sub_trans hw (by decide))

theorem execMainSupplyReenable_keeps {s : State}  :
    KeepsO [.rnd, .supply, .modes, .counts, .ports, .sessions, .ctxs, .nextId, .kept, .held, .sent, .locks, .logs, .keyspaces, .quince, .pages, .pipes, .queue, .sieves, .relay, .power, .fw, .sb, .dbg] s (execMainSupplyReenable s) := by
  have h₀ := Keeps.refl [.rnd, .supply, .modes, .counts, .ports, .sessions, .ctxs, .nextId, .kept, .held, .sent, .locks, .logs, .keyspaces, .quince, .pages, .pipes, .queue, .sieves, .relay, .power, .fw, .sb, .dbg] s
  have hw : Part.sub [.rnd, .supply, .modes, .counts, .ports, .sessions, .ctxs, .nextId, .kept, .held, .sent, .locks, .logs, .keyspaces, .quince, .pages, .pipes, .queue, .sieves, .relay, .power, .fw, .sb, .dbg] [.rnd, .supply, .modes, .counts, .ports, .sessions, .ctxs, .nextId, .kept, .held, .sent, .locks, .logs, .keyspaces, .quince, .pages, .pipes, .queue, .sieves, .relay, .power, .fw, .sb, .dbg] = true := by decide
  unfold execMainSupplyReenable
  try dsimp only
  repeat' first
    | with_reducible assumption
    | with_reducible apply KeepsO.next
    | with_reducible apply KeepsO.ite
    | with_reducible apply Keeps.ite
    | with_reducible apply beginFilling_keeps
    | with_reducible exact Part.sub_trans hw (by decide)
    | split
    | (refine Keeps.mk_of rfl ?_; first | with_reducible assumption | with_reducible apply KeepsO.next | with_reducible apply KeepsO.ite | with_reducible apply Keeps.ite | with_reducible apply beginFilling_keeps | with_reducible exact Part.sub_trans hw (by decide))

end Sys2Proof.Machine
end

