-- ==== Sys2Proof/Laws/KeepsAlarm.lean ====
section
/-! SUPPORT. Which parts of the state each operation of Machine/Alarm.lean may change. -/

set_option Elab.async false

namespace Sys2Proof.Machine

theorem eraseForAlarm_keeps {ws : List Part} {s₀ s : State} (h₀ : Keeps ws s₀ s) (causes : BitVec 8)
    (hw : Part.sub [.counts, .ports, .sessions, .ctxs, .nextId, .kept, .held, .sent, .locks, .logs, .keyspaces, .quince, .pages, .kek, .pipes, .queue, .sieves, .relay, .power, .sb, .dbg] ws = true) : Keeps ws s₀ (State.eraseForAlarm s causes) := by
  unfold State.eraseForAlarm
  try dsimp only
  repeat' first
    | with_reducible assumption
    | with_reducible apply alert_keeps
    | with_reducible apply broadcast_keeps
    | with_reducible apply closeSieves_keeps
    | with_reducible apply endAll_keeps
    | with_reducible apply eraseKeys_keeps
    | with_reducible apply keysErasedEvent_keeps
    | with_reducible apply wake_keeps
    | with_reducible exact Part.sub_trans hw (by decide)
    | split
    | (refine Keeps.mk_of rfl ?_; first | with_reducible assumption | with_reducible apply alert_keeps | with_reducible apply broadcast_keeps | with_reducible apply closeSieves_keeps | with_reducible apply endAll_keeps | with_reducible apply eraseKeys_keeps | with_reducible apply keysErasedEvent_keeps | with_reducible apply wake_keeps | with_reducible exact Part.sub_trans hw (by decide))

theorem raiseAlarm_keeps {ws : List Part} {s₀ s : State} (h₀ : Keeps ws s₀ s) (src : AlarmSource)
    (hw : Part.sub [.supply, .counts, .ports, .sessions, .ctxs, .nextId, .kept, .held, .sent, .locks, .logs, .keyspaces, .quince, .pages, .kek, .pipes, .queue, .sieves, .relay, .power, .sb, .dbg] ws = true) : Keeps ws s₀ (State.raiseAlarm s src) := by
  unfold State.raiseAlarm
  try dsimp only
  repeat' first
    | with_reducible assumption
    | with_reducible apply Keeps.ite
    | with_reducible apply eraseForAlarm_keeps
    | with_reducible exact Part.sub_trans hw (by decide)
    | split
    | (refine Keeps.mk_of rfl ?_; first | with_reducible assumption | with_reducible apply Keeps.ite | with_reducible apply eraseForAlarm_keeps | with_reducible exact Part.sub_trans hw (by decide))

theorem execAlarm_keeps {s : State} (src : AlarmSource) :
    KeepsO [.supply, .counts, .ports, .sessions, .ctxs, .nextId, .kept, .held, .sent, .locks, .marks, .logs, .owners, .keyspaces, .groups, .extents, .fineNext, .heat, .mapLog, .quince, .pages, .kek, .pipes, .queue, .sieves, .relay, .power, .sb, .dbg] s (execAlarm src s) := by
  have h₀ := Keeps.refl [.supply, .counts, .ports, .sessions, .ctxs, .nextId, .kept, .held, .sent, .locks, .marks, .logs, .owners, .keyspaces, .groups, .extents, .fineNext, .heat, .mapLog, .quince, .pages, .kek, .pipes, .queue, .sieves, .relay, .power, .sb, .dbg] s
  have hw : Part.sub [.supply, .counts, .ports, .sessions, .ctxs, .nextId, .kept, .held, .sent, .locks, .marks, .logs, .owners, .keyspaces, .groups, .extents, .fineNext, .heat, .mapLog, .quince, .pages, .kek, .pipes, .queue, .sieves, .relay, .power, .sb, .dbg] [.supply, .counts, .ports, .sessions, .ctxs, .nextId, .kept, .held, .sent, .locks, .marks, .logs, .owners, .keyspaces, .groups, .extents, .fineNext, .heat, .mapLog, .quince, .pages, .kek, .pipes, .queue, .sieves, .relay, .power, .sb, .dbg] = true := by decide
  unfold execAlarm
  try dsimp only
  repeat' first
    | with_reducible assumption
    | with_reducible apply KeepsO.next
    | with_reducible apply KeepsO.ite
    | with_reducible apply Keeps.ite
    | with_reducible apply raiseAlarm_keeps
    | with_reducible apply settle_keeps
    | with_reducible exact Part.sub_trans hw (by decide)
    | split
    | (refine Keeps.mk_of rfl ?_; first | with_reducible assumption | with_reducible apply KeepsO.next | with_reducible apply KeepsO.ite | with_reducible apply Keeps.ite | with_reducible apply raiseAlarm_keeps | with_reducible apply settle_keeps | with_reducible exact Part.sub_trans hw (by decide))

theorem execAlarmConditionEnd_keeps {s : State} (src : AlarmSource) :
    KeepsO [.supply] s (execAlarmConditionEnd src s) := by
  have h₀ := Keeps.refl [.supply] s
  have hw : Part.sub [.supply] [.supply] = true := by decide
  unfold execAlarmConditionEnd
  try dsimp only
  repeat' first
    | with_reducible assumption
    | with_reducible apply KeepsO.next
    | with_reducible apply KeepsO.ite
    | split
    | (refine Keeps.mk_of rfl ?_; first | with_reducible assumption | with_reducible apply KeepsO.next | with_reducible apply KeepsO.ite)

theorem execP3v3AuxLoss_keeps {s : State}  :
    KeepsO [.rnd, .supply, .modes, .spares, .counts, .ports, .sessions, .closed, .ctxs, .nextId, .kept, .held, .sent, .locks, .logs, .keyspaces, .entries, .groups, .eraseSets, .heat, .cache, .holds, .logA, .logB, .coh, .quince, .pages, .kek, .pipes, .queue, .sieves, .relay, .power, .thermal, .holdup, .fw, .sb, .dbg] s (execP3v3AuxLoss s) := by
  have h₀ := Keeps.refl [.rnd, .supply, .modes, .spares, .counts, .ports, .sessions, .closed, .ctxs, .nextId, .kept, .held, .sent, .locks, .logs, .keyspaces, .entries, .groups, .eraseSets, .heat, .cache, .holds, .logA, .logB, .coh, .quince, .pages, .kek, .pipes, .queue, .sieves, .relay, .power, .thermal, .holdup, .fw, .sb, .dbg] s
  have hw : Part.sub [.rnd, .supply, .modes, .spares, .counts, .ports, .sessions, .closed, .ctxs, .nextId, .kept, .held, .sent, .locks, .logs, .keyspaces, .entries, .groups, .eraseSets, .heat, .cache, .holds, .logA, .logB, .coh, .quince, .pages, .kek, .pipes, .queue, .sieves, .relay, .power, .thermal, .holdup, .fw, .sb, .dbg] [.rnd, .supply, .modes, .spares, .counts, .ports, .sessions, .closed, .ctxs, .nextId, .kept, .held, .sent, .locks, .logs, .keyspaces, .entries, .groups, .eraseSets, .heat, .cache, .holds, .logA, .logB, .coh, .quince, .pages, .kek, .pipes, .queue, .sieves, .relay, .power, .thermal, .holdup, .fw, .sb, .dbg] = true := by decide
  unfold execP3v3AuxLoss
  try dsimp only
  repeat' first
    | with_reducible assumption
    | with_reducible apply KeepsO.next
    | with_reducible apply KeepsO.ite
    | with_reducible apply Keeps.ite
    | with_reducible apply raiseAlarm_keeps
    | with_reducible apply supplyLost_keeps
    | with_reducible exact Part.sub_trans hw (by decide)
    | split
    | (refine Keeps.mk_of rfl ?_; first | with_reducible assumption | with_reducible apply KeepsO.next | with_reducible apply KeepsO.ite | with_reducible apply Keeps.ite | with_reducible apply raiseAlarm_keeps | with_reducible apply supplyLost_keeps | with_reducible exact Part.sub_trans hw (by decide))

end Sys2Proof.Machine
end

