-- ==== Sys2Proof/Laws/KeepsLifecycle.lean ====
section
/-! SUPPORT. Which parts of the state each operation of Machine/Lifecycle.lean may change. -/

set_option Elab.async false

namespace Sys2Proof.Machine

theorem notReadyGuess_keeps {ws : List Part} {s₀ s : State} (h₀ : Keeps ws s₀ s) (c : Nat)
    (hw : Part.sub [.rnd, .ports, .sessions, .ctxs, .nextId, .kept, .held, .sent, .locks, .keyspaces, .quince, .pages, .pipes, .queue, .relay, .power, .sb] ws = true) : Keeps ws s₀ (State.notReadyGuess s c) := by
  unfold State.notReadyGuess
  try dsimp only
  repeat' first
    | with_reducible assumption
    | with_reducible apply drawn_keeps
    | with_reducible apply endCmd_keeps
    | with_reducible exact Part.sub_trans hw (by decide)
    | split
    | (refine Keeps.mk_of rfl ?_; first | with_reducible assumption | with_reducible apply drawn_keeps | with_reducible apply endCmd_keeps | with_reducible exact Part.sub_trans hw (by decide))

theorem unfreeze_keeps {ws : List Part} {s₀ s : State} (h₀ : Keeps ws s₀ s) (m : Mode)
    (hw : Part.sub [.rnd, .modes, .counts, .ports, .sessions, .ctxs, .nextId, .kept, .held, .sent, .locks, .logs, .keyspaces, .quince, .pages, .pipes, .queue, .sieves, .relay, .power, .sb, .dbg, .nor] ws = true) : Keeps ws s₀ (State.unfreeze s m) := by
  unfold State.unfreeze
  try dsimp only
  repeat' first
    | with_reducible assumption
    | with_reducible apply changeMode_keeps
    | with_reducible apply saveSettings_keeps
    | with_reducible exact Part.sub_trans hw (by decide)
    | split
    | (refine Keeps.mk_of rfl ?_; first | with_reducible assumption | with_reducible apply changeMode_keeps | with_reducible apply saveSettings_keeps | with_reducible exact Part.sub_trans hw (by decide))

theorem setMode_keeps {ws : List Part} {s₀ s : State} (h₀ : Keeps ws s₀ s) (x : Ctx) (target : Mode)
    (hw : Part.sub [.rnd, .supply, .modes, .counts, .ports, .sessions, .ctxs, .nextId, .kept, .held, .sent, .locks, .marks, .logs, .owners, .keyspaces, .groups, .extents, .fineNext, .heat, .mapLog, .quince, .pages, .pipes, .queue, .sieves, .relay, .power, .fw, .sb, .dbg, .nor] ws = true) : Keeps ws s₀ (State.setMode s x target) := by
  unfold State.setMode
  try dsimp only
  repeat' first
    | with_reducible assumption
    | with_reducible apply Keeps.ite
    | with_reducible apply beginFilling_keeps
    | with_reducible apply changeMode_keeps
    | with_reducible apply endStatus_keeps
    | with_reducible apply freeze_keeps
    | with_reducible apply saveSettings_keeps
    | with_reducible apply settle_keeps
    | with_reducible apply toPhase_keeps
    | with_reducible apply unfreeze_keeps
    | with_reducible exact Part.sub_trans hw (by decide)
    | split
    | (refine Keeps.mk_of rfl ?_; first | with_reducible assumption | with_reducible apply Keeps.ite | with_reducible apply beginFilling_keeps | with_reducible apply changeMode_keeps | with_reducible apply endStatus_keeps | with_reducible apply freeze_keeps | with_reducible apply saveSettings_keeps | with_reducible apply settle_keeps | with_reducible apply toPhase_keeps | with_reducible apply unfreeze_keeps | with_reducible exact Part.sub_trans hw (by decide))

theorem execModeSet_keeps {s : State} (c : Nat) :
    KeepsO [.rnd, .supply, .modes, .counts, .ports, .sessions, .ctxs, .nextId, .kept, .held, .sent, .locks, .marks, .logs, .owners, .keyspaces, .groups, .extents, .fineNext, .heat, .mapLog, .quince, .pages, .pipes, .queue, .sieves, .relay, .power, .fw, .sb, .dbg, .nor] s (execModeSet c s) := by
  have h₀ := Keeps.refl [.rnd, .supply, .modes, .counts, .ports, .sessions, .ctxs, .nextId, .kept, .held, .sent, .locks, .marks, .logs, .owners, .keyspaces, .groups, .extents, .fineNext, .heat, .mapLog, .quince, .pages, .pipes, .queue, .sieves, .relay, .power, .fw, .sb, .dbg, .nor] s
  have hw : Part.sub [.rnd, .supply, .modes, .counts, .ports, .sessions, .ctxs, .nextId, .kept, .held, .sent, .locks, .marks, .logs, .owners, .keyspaces, .groups, .extents, .fineNext, .heat, .mapLog, .quince, .pages, .pipes, .queue, .sieves, .relay, .power, .fw, .sb, .dbg, .nor] [.rnd, .supply, .modes, .counts, .ports, .sessions, .ctxs, .nextId, .kept, .held, .sent, .locks, .marks, .logs, .owners, .keyspaces, .groups, .extents, .fineNext, .heat, .mapLog, .quince, .pages, .pipes, .queue, .sieves, .relay, .power, .fw, .sb, .dbg, .nor] = true := by decide
  unfold execModeSet
  try dsimp only
  repeat' first
    | with_reducible assumption
    | with_reducible apply KeepsO.next
    | with_reducible apply KeepsO.ite
    | with_reducible apply Keeps.ite
    | (with_reducible refine adminRow_keeps ?_ _ _ _ _ (fun _ => ?_) (Part.sub_trans hw (by decide)); try dsimp only)
    | dsimp only
    | with_reducible apply endStatus_keeps
    | with_reducible apply notReadyGuess_keeps
    | with_reducible apply setMode_keeps
    | with_reducible exact Part.sub_trans hw (by decide)
    | split
    | (refine Keeps.mk_of rfl ?_; first | with_reducible assumption | with_reducible apply KeepsO.next | with_reducible apply KeepsO.ite | with_reducible apply Keeps.ite | (with_reducible refine adminRow_keeps ?_ _ _ _ _ (fun _ => ?_) (Part.sub_trans hw (by decide)); try dsimp only) | dsimp only | with_reducible apply endStatus_keeps | with_reducible apply notReadyGuess_keeps | with_reducible apply setMode_keeps | with_reducible exact Part.sub_trans hw (by decide))

theorem execDormantDrained_keeps {s : State} (c : Nat) :
    KeepsO [.modes, .counts, .ports, .sessions, .ctxs, .nextId, .kept, .held, .sent, .locks, .logs, .keyspaces, .quince, .pages, .pipes, .queue, .relay, .power, .sb, .dbg] s (execDormantDrained c s) := by
  have h₀ := Keeps.refl [.modes, .counts, .ports, .sessions, .ctxs, .nextId, .kept, .held, .sent, .locks, .logs, .keyspaces, .quince, .pages, .pipes, .queue, .relay, .power, .sb, .dbg] s
  have hw : Part.sub [.modes, .counts, .ports, .sessions, .ctxs, .nextId, .kept, .held, .sent, .locks, .logs, .keyspaces, .quince, .pages, .pipes, .queue, .relay, .power, .sb, .dbg] [.modes, .counts, .ports, .sessions, .ctxs, .nextId, .kept, .held, .sent, .locks, .logs, .keyspaces, .quince, .pages, .pipes, .queue, .relay, .power, .sb, .dbg] = true := by decide
  unfold execDormantDrained
  try dsimp only
  repeat' first
    | with_reducible assumption
    | with_reducible apply KeepsO.next
    | with_reducible apply KeepsO.ite
    | with_reducible apply Keeps.ite
    | with_reducible apply abandonForwards_keeps
    | with_reducible apply endStatus_keeps
    | with_reducible exact Part.sub_trans hw (by decide)
    | split
    | (refine Keeps.mk_of rfl ?_; first | with_reducible assumption | with_reducible apply KeepsO.next | with_reducible apply KeepsO.ite | with_reducible apply Keeps.ite | with_reducible apply abandonForwards_keeps | with_reducible apply endStatus_keeps | with_reducible exact Part.sub_trans hw (by decide))

theorem flushAll_keeps {ws : List Part} {s₀ s : State} (h : Keeps ws s₀ s) (f : Flush) (hw : Part.sub [.groups, .logA, .logB, .mapLog, .dirty, .images, .relay, .nor] ws = true) :
    Keeps ws s₀ (State.flushAll s f).1 := by
  unfold State.flushAll
  exact phaseDone_keeps (phaseDone_keeps h _ (Part.sub_trans hw (by decide))) _ (Part.sub_trans hw (by decide))

theorem execDormantFlushComplete_keeps {s : State}  :
    KeepsO [.rnd, .supply, .modes, .spares, .counts, .ports, .sessions, .closed, .ctxs, .nextId, .kept, .held, .sent, .locks, .logs, .keyspaces, .entries, .groups, .eraseSets, .heat, .cache, .holds, .logA, .logB, .mapLog, .dirty, .images, .coh, .quince, .pages, .kek, .pipes, .queue, .sieves, .relay, .power, .thermal, .holdup, .fw, .sb, .dbg, .nor] s (execDormantFlushComplete s) := by
  have h₀ := Keeps.refl [.rnd, .supply, .modes, .spares, .counts, .ports, .sessions, .closed, .ctxs, .nextId, .kept, .held, .sent, .locks, .logs, .keyspaces, .entries, .groups, .eraseSets, .heat, .cache, .holds, .logA, .logB, .mapLog, .dirty, .images, .coh, .quince, .pages, .kek, .pipes, .queue, .sieves, .relay, .power, .thermal, .holdup, .fw, .sb, .dbg, .nor] s
  have hw : Part.sub [.rnd, .supply, .modes, .spares, .counts, .ports, .sessions, .closed, .ctxs, .nextId, .kept, .held, .sent, .locks, .logs, .keyspaces, .entries, .groups, .eraseSets, .heat, .cache, .holds, .logA, .logB, .mapLog, .dirty, .images, .coh, .quince, .pages, .kek, .pipes, .queue, .sieves, .relay, .power, .thermal, .holdup, .fw, .sb, .dbg, .nor] [.rnd, .supply, .modes, .spares, .counts, .ports, .sessions, .closed, .ctxs, .nextId, .kept, .held, .sent, .locks, .logs, .keyspaces, .entries, .groups, .eraseSets, .heat, .cache, .holds, .logA, .logB, .mapLog, .dirty, .images, .coh, .quince, .pages, .kek, .pipes, .queue, .sieves, .relay, .power, .thermal, .holdup, .fw, .sb, .dbg, .nor] = true := by decide
  unfold execDormantFlushComplete
  try dsimp only
  repeat' first
    | with_reducible assumption
    | with_reducible apply KeepsO.next
    | with_reducible apply KeepsO.ite
    | with_reducible apply Keeps.ite
    | with_reducible apply finishFlush_keeps
    | with_reducible apply flushAll_keeps
    | with_reducible exact Part.sub_trans hw (by decide)
    | split
    | (refine Keeps.mk_of rfl ?_; first | with_reducible assumption | with_reducible apply KeepsO.next | with_reducible apply KeepsO.ite | with_reducible apply Keeps.ite | with_reducible apply finishFlush_keeps | with_reducible apply flushAll_keeps | with_reducible exact Part.sub_trans hw (by decide))

theorem execLastWaltzPhaseEnd_keeps {s : State} (energyCj : Nat) (ok : Bool) :
    KeepsO [.rnd, .supply, .modes, .spares, .counts, .ports, .sessions, .closed, .ctxs, .nextId, .kept, .held, .sent, .locks, .logs, .keyspaces, .entries, .groups, .eraseSets, .heat, .cache, .holds, .logA, .logB, .mapLog, .dirty, .images, .coh, .quince, .pages, .kek, .pipes, .queue, .sieves, .relay, .power, .thermal, .holdup, .fw, .sb, .dbg, .nor] s (execLastWaltzPhaseEnd energyCj ok s) := by
  have h₀ := Keeps.refl [.rnd, .supply, .modes, .spares, .counts, .ports, .sessions, .closed, .ctxs, .nextId, .kept, .held, .sent, .locks, .logs, .keyspaces, .entries, .groups, .eraseSets, .heat, .cache, .holds, .logA, .logB, .mapLog, .dirty, .images, .coh, .quince, .pages, .kek, .pipes, .queue, .sieves, .relay, .power, .thermal, .holdup, .fw, .sb, .dbg, .nor] s
  have hw : Part.sub [.rnd, .supply, .modes, .spares, .counts, .ports, .sessions, .closed, .ctxs, .nextId, .kept, .held, .sent, .locks, .logs, .keyspaces, .entries, .groups, .eraseSets, .heat, .cache, .holds, .logA, .logB, .mapLog, .dirty, .images, .coh, .quince, .pages, .kek, .pipes, .queue, .sieves, .relay, .power, .thermal, .holdup, .fw, .sb, .dbg, .nor] [.rnd, .supply, .modes, .spares, .counts, .ports, .sessions, .closed, .ctxs, .nextId, .kept, .held, .sent, .locks, .logs, .keyspaces, .entries, .groups, .eraseSets, .heat, .cache, .holds, .logA, .logB, .mapLog, .dirty, .images, .coh, .quince, .pages, .kek, .pipes, .queue, .sieves, .relay, .power, .thermal, .holdup, .fw, .sb, .dbg, .nor] = true := by decide
  unfold execLastWaltzPhaseEnd
  try dsimp only
  repeat' first
    | with_reducible assumption
    | with_reducible apply KeepsO.next
    | with_reducible apply KeepsO.ite
    | with_reducible apply Keeps.ite
    | with_reducible apply finishFlush_keeps
    | with_reducible apply phaseDone_keeps
    | with_reducible exact Part.sub_trans hw (by decide)
    | split
    | (refine Keeps.mk_of rfl ?_; first | with_reducible assumption | with_reducible apply KeepsO.next | with_reducible apply KeepsO.ite | with_reducible apply Keeps.ite | with_reducible apply finishFlush_keeps | with_reducible apply phaseDone_keeps | with_reducible exact Part.sub_trans hw (by decide))

theorem endRelaying_keeps {ws : List Part} {s₀ s : State} (h₀ : Keeps ws s₀ s) 
    (hw : Part.sub [.rnd, .counts, .ports, .sessions, .ctxs, .nextId, .kept, .held, .sent, .locks, .logs, .keyspaces, .holds, .quince, .pages, .pipes, .queue, .relay, .power, .sb, .dbg] ws = true) : Keeps ws s₀ (State.endRelaying s) := by
  unfold State.endRelaying
  try dsimp only
  repeat' first
    | with_reducible assumption
    | (with_reducible refine Keeps.foldl ?_ (fun _ _ _ => ?_))
    | with_reducible apply endCmd_keeps
    | with_reducible apply relayFault_keeps
    | with_reducible exact Part.sub_trans hw (by decide)
    | split
    | (refine Keeps.mk_of rfl ?_; first | with_reducible assumption | (with_reducible refine Keeps.foldl ?_ (fun _ _ _ => ?_)) | with_reducible apply endCmd_keeps | with_reducible apply relayFault_keeps | with_reducible exact Part.sub_trans hw (by decide))

theorem enterSanitising_keeps {ws : List Part} {s₀ s : State} (h₀ : Keeps ws s₀ s) (reset : Bool)
    (hw : Part.sub [.rnd, .supply, .modes, .counts, .ports, .sessions, .ctxs, .nextId, .kept, .held, .sent, .locks, .logs, .keyspaces, .holds, .quince, .pages, .kek, .pipes, .queue, .sieves, .relay, .power, .sb, .dbg, .nor] ws = true) : Keeps ws s₀ (State.enterSanitising s reset) := by
  unfold State.enterSanitising
  try dsimp only
  repeat' first
    | with_reducible assumption
    | (with_reducible refine Keeps.foldl ?_ (fun _ _ _ => ?_))
    | with_reducible apply abandonForwards_keeps
    | with_reducible apply changeMode_keeps
    | with_reducible apply clearPage_keeps
    | with_reducible apply endRelaying_keeps
    | with_reducible apply eraseKeys_keeps
    | with_reducible apply saveSettings_keeps
    | with_reducible apply unlockSeen_keeps
    | with_reducible exact Part.sub_trans hw (by decide)
    | split
    | (refine Keeps.mk_of rfl ?_; first | with_reducible assumption | (with_reducible refine Keeps.foldl ?_ (fun _ _ _ => ?_)) | with_reducible apply abandonForwards_keeps | with_reducible apply changeMode_keeps | with_reducible apply clearPage_keeps | with_reducible apply endRelaying_keeps | with_reducible apply eraseKeys_keeps | with_reducible apply saveSettings_keeps | with_reducible apply unlockSeen_keeps | with_reducible exact Part.sub_trans hw (by decide))

theorem execSanitise_keeps {s : State} (c : Nat) :
    KeepsO [.rnd, .supply, .modes, .counts, .ports, .sessions, .ctxs, .nextId, .kept, .held, .sent, .locks, .marks, .logs, .owners, .keyspaces, .groups, .extents, .fineNext, .heat, .holds, .mapLog, .quince, .pages, .kek, .pipes, .queue, .sieves, .relay, .power, .sb, .dbg, .nor] s (execSanitise c s) := by
  have h₀ := Keeps.refl [.rnd, .supply, .modes, .counts, .ports, .sessions, .ctxs, .nextId, .kept, .held, .sent, .locks, .marks, .logs, .owners, .keyspaces, .groups, .extents, .fineNext, .heat, .holds, .mapLog, .quince, .pages, .kek, .pipes, .queue, .sieves, .relay, .power, .sb, .dbg, .nor] s
  have hw : Part.sub [.rnd, .supply, .modes, .counts, .ports, .sessions, .ctxs, .nextId, .kept, .held, .sent, .locks, .marks, .logs, .owners, .keyspaces, .groups, .extents, .fineNext, .heat, .holds, .mapLog, .quince, .pages, .kek, .pipes, .queue, .sieves, .relay, .power, .sb, .dbg, .nor] [.rnd, .supply, .modes, .counts, .ports, .sessions, .ctxs, .nextId, .kept, .held, .sent, .locks, .marks, .logs, .owners, .keyspaces, .groups, .extents, .fineNext, .heat, .holds, .mapLog, .quince, .pages, .kek, .pipes, .queue, .sieves, .relay, .power, .sb, .dbg, .nor] = true := by decide
  unfold execSanitise
  try dsimp only
  repeat' first
    | with_reducible assumption
    | with_reducible apply KeepsO.next
    | with_reducible apply KeepsO.ite
    | with_reducible apply Keeps.ite
    | (with_reducible refine adminRow_keeps ?_ _ _ _ _ (fun _ => ?_) (Part.sub_trans hw (by decide)); try dsimp only)
    | dsimp only
    | with_reducible apply endStatus_keeps
    | with_reducible apply enterSanitising_keeps
    | with_reducible apply notReadyGuess_keeps
    | with_reducible apply settle_keeps
    | with_reducible exact Part.sub_trans hw (by decide)
    | split
    | (refine Keeps.mk_of rfl ?_; first | with_reducible assumption | with_reducible apply KeepsO.next | with_reducible apply KeepsO.ite | with_reducible apply Keeps.ite | (with_reducible refine adminRow_keeps ?_ _ _ _ _ (fun _ => ?_) (Part.sub_trans hw (by decide)); try dsimp only) | dsimp only | with_reducible apply endStatus_keeps | with_reducible apply enterSanitising_keeps | with_reducible apply notReadyGuess_keeps | with_reducible apply settle_keeps | with_reducible exact Part.sub_trans hw (by decide))

theorem resetVars_keeps {ws : List Part} {s₀ s : State} (h₀ : Keeps ws s₀ s) 
    (hw : Part.sub [.ports, .vars, .sb] ws = true) : Keeps ws s₀ (State.resetVars s) := by
  unfold State.resetVars
  try dsimp only
  repeat' first
    | with_reducible assumption
    | with_reducible apply Keeps.ite
    | with_reducible apply retrainPort_keeps
    | with_reducible exact Part.sub_trans hw (by decide)
    | split
    | (refine Keeps.mk_of rfl ?_; first | with_reducible assumption | with_reducible apply Keeps.ite | with_reducible apply retrainPort_keeps | with_reducible exact Part.sub_trans hw (by decide))

theorem wipe_keeps {ws : List Part} {s₀ s : State} (h₀ : Keeps ws s₀ s) (refused : Nat)
    (hw : Part.sub [.modes, .counts, .ports, .sessions, .ctxs, .nextId, .kept, .held, .sent, .logs, .owners, .keyspaces, .entries, .recs, .groups, .extents, .fineNext, .wear, .gens, .eraseSets, .stale, .heat, .cache, .holds, .logA, .logB, .mapLog, .dirty, .images, .coh, .quince, .pipes, .relay] ws = true) : Keeps ws s₀ (State.wipe s refused) := by
  unfold State.wipe
  try dsimp only
  repeat' first
    | with_reducible assumption
    | with_reducible apply Keeps.ite
    | (with_reducible refine Keeps.foldl ?_ (fun _ _ _ => ?_))
    | with_reducible apply eraseDone_keeps
    | with_reducible exact Part.sub_trans hw (by decide)
    | split
    | (refine Keeps.mk_of rfl ?_; first | with_reducible assumption | with_reducible apply Keeps.ite | (with_reducible refine Keeps.foldl ?_ (fun _ _ _ => ?_)) | with_reducible apply eraseDone_keeps | with_reducible exact Part.sub_trans hw (by decide))

theorem execSanitiseEraseComplete_keeps {s : State} (refused : Nat) :
    KeepsO [.rnd, .modes, .counts, .ports, .sessions, .ctxs, .nextId, .kept, .held, .sent, .locks, .vars, .marks, .logs, .owners, .keyspaces, .entries, .recs, .groups, .extents, .fineNext, .wear, .gens, .eraseSets, .stale, .heat, .cache, .holds, .logA, .logB, .mapLog, .dirty, .images, .coh, .quince, .pages, .pipes, .queue, .sieves, .relay, .power, .sb, .dbg, .nor] s (execSanitiseEraseComplete refused s) := by
  have h₀ := Keeps.refl [.rnd, .modes, .counts, .ports, .sessions, .ctxs, .nextId, .kept, .held, .sent, .locks, .vars, .marks, .logs, .owners, .keyspaces, .entries, .recs, .groups, .extents, .fineNext, .wear, .gens, .eraseSets, .stale, .heat, .cache, .holds, .logA, .logB, .mapLog, .dirty, .images, .coh, .quince, .pages, .pipes, .queue, .sieves, .relay, .power, .sb, .dbg, .nor] s
  have hw : Part.sub [.rnd, .modes, .counts, .ports, .sessions, .ctxs, .nextId, .kept, .held, .sent, .locks, .vars, .marks, .logs, .owners, .keyspaces, .entries, .recs, .groups, .extents, .fineNext, .wear, .gens, .eraseSets, .stale, .heat, .cache, .holds, .logA, .logB, .mapLog, .dirty, .images, .coh, .quince, .pages, .pipes, .queue, .sieves, .relay, .power, .sb, .dbg, .nor] [.rnd, .modes, .counts, .ports, .sessions, .ctxs, .nextId, .kept, .held, .sent, .locks, .vars, .marks, .logs, .owners, .keyspaces, .entries, .recs, .groups, .extents, .fineNext, .wear, .gens, .eraseSets, .stale, .heat, .cache, .holds, .logA, .logB, .mapLog, .dirty, .images, .coh, .quince, .pages, .pipes, .queue, .sieves, .relay, .power, .sb, .dbg, .nor] = true := by decide
  unfold execSanitiseEraseComplete
  try dsimp only
  repeat' first
    | with_reducible assumption
    | with_reducible apply KeepsO.next
    | with_reducible apply KeepsO.ite
    | with_reducible apply Keeps.ite
    | with_reducible apply changeMode_keeps
    | with_reducible apply resetVars_keeps
    | with_reducible apply saveSettings_keeps
    | with_reducible apply watch_keeps
    | with_reducible apply wipe_keeps
    | with_reducible exact Part.sub_trans hw (by decide)
    | split
    | (refine Keeps.mk_of rfl ?_; first | with_reducible assumption | with_reducible apply KeepsO.next | with_reducible apply KeepsO.ite | with_reducible apply Keeps.ite | with_reducible apply changeMode_keeps | with_reducible apply resetVars_keeps | with_reducible apply saveSettings_keeps | with_reducible apply watch_keeps | with_reducible apply wipe_keeps | with_reducible exact Part.sub_trans hw (by decide))

end Sys2Proof.Machine
end

