-- ==== Sys2Proof/Laws/KeepsPackage.lean ====
section
/-! SUPPORT. Which parts of the state each operation of Machine/Package.lean may change. -/

set_option Elab.async false

namespace Sys2Proof.Machine

theorem stageFails_keeps {ws : List Part} {s₀ s : State} (h₀ : Keeps ws s₀ s) (c : Nat) (st : Status)
    (hw : Part.sub [.ports, .sessions, .ctxs, .nextId, .kept, .held, .sent, .locks, .keyspaces, .quince, .pages, .pipes, .queue, .relay, .power, .fw, .sb] ws = true) : Keeps ws s₀ (State.stageFails s c st) := by
  unfold State.stageFails
  try dsimp only
  repeat' first
    | with_reducible assumption
    | with_reducible apply endStatus_keeps
    | with_reducible exact Part.sub_trans hw (by decide)
    | split
    | (refine Keeps.mk_of rfl ?_; first | with_reducible assumption | with_reducible apply endStatus_keeps | with_reducible exact Part.sub_trans hw (by decide))

theorem updInactive_keeps {ws : List Part} {s₀ s : State} (h₀ : Keeps ws s₀ s) (f : FwSlot → FwSlot)
    (hw : Part.sub [.fw] ws = true) : Keeps ws s₀ (State.updInactive s f) := by
  unfold State.updInactive
  try dsimp only
  repeat' first
    | with_reducible assumption
    | with_reducible apply updFwSlot_keeps
    | with_reducible exact Part.sub_trans hw (by decide)
    | split
    | (refine Keeps.mk_of rfl ?_; first | with_reducible assumption | with_reducible apply updFwSlot_keeps | with_reducible exact Part.sub_trans hw (by decide))

theorem stageChunk_keeps {ws : List Part} {s₀ s : State} (h₀ : Keeps ws s₀ s) (x : Ctx) (before : Bytes)
    (hw : Part.sub [.ports, .sessions, .ctxs, .nextId, .kept, .held, .sent, .locks, .keyspaces, .quince, .pages, .pipes, .queue, .relay, .power, .fw, .sb] ws = true) : Keeps ws s₀ (State.stageChunk s x before) := by
  unfold State.stageChunk
  try dsimp only
  repeat' first
    | with_reducible assumption
    | with_reducible apply Keeps.ite
    | with_reducible apply endCmd_keeps
    | with_reducible apply stageFails_keeps
    | with_reducible apply updInactive_keeps
    | with_reducible exact Part.sub_trans hw (by decide)
    | split
    | (refine Keeps.mk_of rfl ?_; first | with_reducible assumption | with_reducible apply Keeps.ite | with_reducible apply endCmd_keeps | with_reducible apply stageFails_keeps | with_reducible apply updInactive_keeps | with_reducible exact Part.sub_trans hw (by decide))

theorem execFwStage_keeps {s : State} (c : Nat) :
    KeepsO [.rnd, .ports, .sessions, .ctxs, .nextId, .kept, .held, .sent, .locks, .keyspaces, .quince, .pages, .pipes, .queue, .relay, .power, .fw, .sb] s (execFwStage c s) := by
  have h₀ := Keeps.refl [.rnd, .ports, .sessions, .ctxs, .nextId, .kept, .held, .sent, .locks, .keyspaces, .quince, .pages, .pipes, .queue, .relay, .power, .fw, .sb] s
  have hw : Part.sub [.rnd, .ports, .sessions, .ctxs, .nextId, .kept, .held, .sent, .locks, .keyspaces, .quince, .pages, .pipes, .queue, .relay, .power, .fw, .sb] [.rnd, .ports, .sessions, .ctxs, .nextId, .kept, .held, .sent, .locks, .keyspaces, .quince, .pages, .pipes, .queue, .relay, .power, .fw, .sb] = true := by decide
  unfold execFwStage
  try dsimp only
  repeat' first
    | with_reducible assumption
    | with_reducible apply KeepsO.next
    | with_reducible apply KeepsO.ite
    | with_reducible apply Keeps.ite
    | (with_reducible refine adminRow_keeps ?_ _ _ _ _ (fun _ => ?_) (Part.sub_trans hw (by decide)); try dsimp only)
    | dsimp only
    | with_reducible apply endCmd_keeps
    | with_reducible apply notReadyGuess_keeps
    | with_reducible apply stageChunk_keeps
    | with_reducible exact Part.sub_trans hw (by decide)
    | split
    | (refine Keeps.mk_of rfl ?_; first | with_reducible assumption | with_reducible apply KeepsO.next | with_reducible apply KeepsO.ite | with_reducible apply Keeps.ite | (with_reducible refine adminRow_keeps ?_ _ _ _ _ (fun _ => ?_) (Part.sub_trans hw (by decide)); try dsimp only) | dsimp only | with_reducible apply endCmd_keeps | with_reducible apply notReadyGuess_keeps | with_reducible apply stageChunk_keeps | with_reducible exact Part.sub_trans hw (by decide))

theorem execFwStageIdle_keeps {s : State}  :
    KeepsO [.fw] s (execFwStageIdle s) := by
  have h₀ := Keeps.refl [.fw] s
  have hw : Part.sub [.fw] [.fw] = true := by decide
  unfold execFwStageIdle
  try dsimp only
  repeat' first
    | with_reducible assumption
    | with_reducible apply KeepsO.next
    | with_reducible apply KeepsO.ite
    | with_reducible apply Keeps.ite
    | split
    | (refine Keeps.mk_of rfl ?_; first | with_reducible assumption | with_reducible apply KeepsO.next | with_reducible apply KeepsO.ite | with_reducible apply Keeps.ite)

theorem execSlotProgramDone_keeps {s : State} (readBackOk : Bool) :
    KeepsO [.counts, .ports, .sessions, .nextId, .kept, .held, .sent, .logs, .keyspaces, .power, .fw, .sb, .dbg] s (execSlotProgramDone readBackOk s) := by
  have h₀ := Keeps.refl [.counts, .ports, .sessions, .nextId, .kept, .held, .sent, .logs, .keyspaces, .power, .fw, .sb, .dbg] s
  have hw : Part.sub [.counts, .ports, .sessions, .nextId, .kept, .held, .sent, .logs, .keyspaces, .power, .fw, .sb, .dbg] [.counts, .ports, .sessions, .nextId, .kept, .held, .sent, .logs, .keyspaces, .power, .fw, .sb, .dbg] = true := by decide
  unfold execSlotProgramDone
  try dsimp only
  repeat' first
    | with_reducible assumption
    | with_reducible apply KeepsO.next
    | with_reducible apply KeepsO.ite
    | with_reducible apply Keeps.ite
    | with_reducible apply fwState_keeps
    | with_reducible apply updInactive_keeps
    | with_reducible exact Part.sub_trans hw (by decide)
    | split
    | (refine Keeps.mk_of rfl ?_; first | with_reducible assumption | with_reducible apply KeepsO.next | with_reducible apply KeepsO.ite | with_reducible apply Keeps.ite | with_reducible apply fwState_keeps | with_reducible apply updInactive_keeps | with_reducible exact Part.sub_trans hw (by decide))

end Sys2Proof.Machine
end

