-- ==== Sys2Proof/Laws/KeepsFirmware.lean ====
section
/-! SUPPORT. Which parts of the state each operation of Machine/Firmware.lean may change. -/

set_option Elab.async false

namespace Sys2Proof.Machine

theorem rotateRole_keeps {ws : List Part} {s₀ s : State} (h₀ : Keeps ws s₀ s) (role : Nat)
    (hw : Part.sub [.spares] ws = true) : Keeps ws s₀ (State.rotateRole s role) := by
  unfold State.rotateRole
  try dsimp only
  repeat' first
    | with_reducible assumption
    | with_reducible apply Keeps.ite
    | split
    | (refine Keeps.mk_of rfl ?_; first | with_reducible assumption | with_reducible apply Keeps.ite)

theorem startFallback_keeps {ws : List Part} {s₀ s : State} (h₀ : Keeps ws s₀ s) (reason : Nat)
    (hw : Part.sub [.counts, .ports, .sessions, .nextId, .kept, .held, .sent, .logs, .keyspaces, .power, .fw, .sb, .dbg] ws = true) : Keeps ws s₀ (State.startFallback s reason) := by
  unfold State.startFallback
  try dsimp only
  repeat' first
    | with_reducible assumption
    | with_reducible apply Keeps.ite
    | with_reducible apply fwState_keeps
    | with_reducible exact Part.sub_trans hw (by decide)
    | split
    | (refine Keeps.mk_of rfl ?_; first | with_reducible assumption | with_reducible apply Keeps.ite | with_reducible apply fwState_keeps | with_reducible exact Part.sub_trans hw (by decide))

theorem execFallbackDone_keeps {s : State}  :
    KeepsO [.rnd, .modes, .counts, .ports, .sessions, .ctxs, .nextId, .kept, .held, .sent, .locks, .logs, .keyspaces, .quince, .pages, .pipes, .queue, .sieves, .relay, .power, .fw, .sb, .dbg, .nor] s (execFallbackDone s) := by
  have h₀ := Keeps.refl [.rnd, .modes, .counts, .ports, .sessions, .ctxs, .nextId, .kept, .held, .sent, .locks, .logs, .keyspaces, .quince, .pages, .pipes, .queue, .sieves, .relay, .power, .fw, .sb, .dbg, .nor] s
  have hw : Part.sub [.rnd, .modes, .counts, .ports, .sessions, .ctxs, .nextId, .kept, .held, .sent, .locks, .logs, .keyspaces, .quince, .pages, .pipes, .queue, .sieves, .relay, .power, .fw, .sb, .dbg, .nor] [.rnd, .modes, .counts, .ports, .sessions, .ctxs, .nextId, .kept, .held, .sent, .locks, .logs, .keyspaces, .quince, .pages, .pipes, .queue, .sieves, .relay, .power, .fw, .sb, .dbg, .nor] = true := by decide
  unfold execFallbackDone
  try dsimp only
  repeat' first
    | with_reducible assumption
    | with_reducible apply KeepsO.next
    | with_reducible apply KeepsO.ite
    | with_reducible apply Keeps.ite
    | with_reducible apply freeze_keeps
    | with_reducible apply fwState_keeps
    | with_reducible apply updFwSlot_keeps
    | with_reducible exact Part.sub_trans hw (by decide)
    | split
    | (refine Keeps.mk_of rfl ?_; first | with_reducible assumption | with_reducible apply KeepsO.next | with_reducible apply KeepsO.ite | with_reducible apply Keeps.ite | with_reducible apply freeze_keeps | with_reducible apply fwState_keeps | with_reducible apply updFwSlot_keeps | with_reducible exact Part.sub_trans hw (by decide))

theorem execFwActivate_keeps {s : State} (c : Nat) :
    KeepsO [.rnd, .ports, .sessions, .ctxs, .nextId, .kept, .held, .sent, .locks, .keyspaces, .quince, .pages, .pipes, .queue, .relay, .power, .fw, .sb] s (execFwActivate c s) := by
  have h₀ := Keeps.refl [.rnd, .ports, .sessions, .ctxs, .nextId, .kept, .held, .sent, .locks, .keyspaces, .quince, .pages, .pipes, .queue, .relay, .power, .fw, .sb] s
  have hw : Part.sub [.rnd, .ports, .sessions, .ctxs, .nextId, .kept, .held, .sent, .locks, .keyspaces, .quince, .pages, .pipes, .queue, .relay, .power, .fw, .sb] [.rnd, .ports, .sessions, .ctxs, .nextId, .kept, .held, .sent, .locks, .keyspaces, .quince, .pages, .pipes, .queue, .relay, .power, .fw, .sb] = true := by decide
  unfold execFwActivate
  try dsimp only
  repeat' first
    | with_reducible assumption
    | with_reducible apply KeepsO.next
    | with_reducible apply KeepsO.ite
    | with_reducible apply Keeps.ite
    | (with_reducible refine adminRow_keeps ?_ _ _ _ _ (fun _ => ?_) (Part.sub_trans hw (by decide)); try dsimp only)
    | dsimp only
    | with_reducible apply endCmd_keeps
    | with_reducible apply endStatus_keeps
    | with_reducible apply notReadyGuess_keeps
    | with_reducible apply updInactive_keeps
    | with_reducible exact Part.sub_trans hw (by decide)
    | split
    | (refine Keeps.mk_of rfl ?_; first | with_reducible assumption | with_reducible apply KeepsO.next | with_reducible apply KeepsO.ite | with_reducible apply Keeps.ite | (with_reducible refine adminRow_keeps ?_ _ _ _ _ (fun _ => ?_) (Part.sub_trans hw (by decide)); try dsimp only) | dsimp only | with_reducible apply endCmd_keeps | with_reducible apply endStatus_keeps | with_reducible apply notReadyGuess_keeps | with_reducible apply updInactive_keeps | with_reducible exact Part.sub_trans hw (by decide))

theorem execStandbyBooted_keeps {s : State}  :
    KeepsO [.rnd, .modes, .counts, .ports, .sessions, .ctxs, .nextId, .kept, .held, .sent, .locks, .logs, .keyspaces, .quince, .pages, .pipes, .queue, .sieves, .relay, .power, .fw, .sb, .dbg, .nor] s (execStandbyBooted s) := by
  have h₀ := Keeps.refl [.rnd, .modes, .counts, .ports, .sessions, .ctxs, .nextId, .kept, .held, .sent, .locks, .logs, .keyspaces, .quince, .pages, .pipes, .queue, .sieves, .relay, .power, .fw, .sb, .dbg, .nor] s
  have hw : Part.sub [.rnd, .modes, .counts, .ports, .sessions, .ctxs, .nextId, .kept, .held, .sent, .locks, .logs, .keyspaces, .quince, .pages, .pipes, .queue, .sieves, .relay, .power, .fw, .sb, .dbg, .nor] [.rnd, .modes, .counts, .ports, .sessions, .ctxs, .nextId, .kept, .held, .sent, .locks, .logs, .keyspaces, .quince, .pages, .pipes, .queue, .sieves, .relay, .power, .fw, .sb, .dbg, .nor] = true := by decide
  unfold execStandbyBooted
  try dsimp only
  repeat' first
    | with_reducible assumption
    | with_reducible apply KeepsO.next
    | with_reducible apply KeepsO.ite
    | with_reducible apply Keeps.ite
    | with_reducible apply freeze_keeps
    | with_reducible exact Part.sub_trans hw (by decide)
    | split
    | (refine Keeps.mk_of rfl ?_; first | with_reducible assumption | with_reducible apply KeepsO.next | with_reducible apply KeepsO.ite | with_reducible apply Keeps.ite | with_reducible apply freeze_keeps | with_reducible exact Part.sub_trans hw (by decide))

theorem execBulkCopyDone_keeps {s : State}  :
    KeepsO [.rnd, .modes, .counts, .ports, .sessions, .ctxs, .nextId, .kept, .held, .sent, .locks, .logs, .keyspaces, .quince, .pages, .pipes, .queue, .sieves, .relay, .power, .fw, .sb, .dbg, .nor] s (execBulkCopyDone s) := by
  have h₀ := Keeps.refl [.rnd, .modes, .counts, .ports, .sessions, .ctxs, .nextId, .kept, .held, .sent, .locks, .logs, .keyspaces, .quince, .pages, .pipes, .queue, .sieves, .relay, .power, .fw, .sb, .dbg, .nor] s
  have hw : Part.sub [.rnd, .modes, .counts, .ports, .sessions, .ctxs, .nextId, .kept, .held, .sent, .locks, .logs, .keyspaces, .quince, .pages, .pipes, .queue, .sieves, .relay, .power, .fw, .sb, .dbg, .nor] [.rnd, .modes, .counts, .ports, .sessions, .ctxs, .nextId, .kept, .held, .sent, .locks, .logs, .keyspaces, .quince, .pages, .pipes, .queue, .sieves, .relay, .power, .fw, .sb, .dbg, .nor] = true := by decide
  unfold execBulkCopyDone
  try dsimp only
  repeat' first
    | with_reducible assumption
    | with_reducible apply KeepsO.next
    | with_reducible apply KeepsO.ite
    | with_reducible apply Keeps.ite
    | with_reducible apply freeze_keeps
    | with_reducible exact Part.sub_trans hw (by decide)
    | split
    | (refine Keeps.mk_of rfl ?_; first | with_reducible assumption | with_reducible apply KeepsO.next | with_reducible apply KeepsO.ite | with_reducible apply Keeps.ite | with_reducible apply freeze_keeps | with_reducible exact Part.sub_trans hw (by decide))

theorem reloadEnd_keeps {ws : List Part} {s₀ s : State} (h₀ : Keeps ws s₀ s) 
    (hw : Part.sub [.counts, .ports, .sessions, .nextId, .kept, .held, .sent, .logs, .keyspaces, .power, .fw, .sb, .dbg] ws = true) : Keeps ws s₀ (State.reloadEnd s) := by
  unfold State.reloadEnd
  try dsimp only
  repeat' first
    | with_reducible assumption
    | with_reducible apply Keeps.ite
    | with_reducible apply awaitConfirm_keeps
    | with_reducible exact Part.sub_trans hw (by decide)
    | split
    | (refine Keeps.mk_of rfl ?_; first | with_reducible assumption | with_reducible apply Keeps.ite | with_reducible apply awaitConfirm_keeps | with_reducible exact Part.sub_trans hw (by decide))

theorem execHandoverDone_keeps {s : State}  :
    KeepsO [.rnd, .modes, .counts, .ports, .sessions, .ctxs, .nextId, .kept, .held, .sent, .locks, .logs, .keyspaces, .quince, .pages, .pipes, .queue, .sieves, .relay, .power, .fw, .sb, .dbg, .nor] s (execHandoverDone s) := by
  have h₀ := Keeps.refl [.rnd, .modes, .counts, .ports, .sessions, .ctxs, .nextId, .kept, .held, .sent, .locks, .logs, .keyspaces, .quince, .pages, .pipes, .queue, .sieves, .relay, .power, .fw, .sb, .dbg, .nor] s
  have hw : Part.sub [.rnd, .modes, .counts, .ports, .sessions, .ctxs, .nextId, .kept, .held, .sent, .locks, .logs, .keyspaces, .quince, .pages, .pipes, .queue, .sieves, .relay, .power, .fw, .sb, .dbg, .nor] [.rnd, .modes, .counts, .ports, .sessions, .ctxs, .nextId, .kept, .held, .sent, .locks, .logs, .keyspaces, .quince, .pages, .pipes, .queue, .sieves, .relay, .power, .fw, .sb, .dbg, .nor] = true := by decide
  unfold execHandoverDone
  try dsimp only
  repeat' first
    | with_reducible assumption
    | with_reducible apply KeepsO.next
    | with_reducible apply KeepsO.ite
    | with_reducible apply Keeps.ite
    | with_reducible apply freeze_keeps
    | with_reducible apply fwState_keeps
    | with_reducible apply reloadEnd_keeps
    | with_reducible apply updFwSlot_keeps
    | with_reducible exact Part.sub_trans hw (by decide)
    | split
    | (refine Keeps.mk_of rfl ?_; first | with_reducible assumption | with_reducible apply KeepsO.next | with_reducible apply KeepsO.ite | with_reducible apply Keeps.ite | with_reducible apply freeze_keeps | with_reducible apply fwState_keeps | with_reducible apply reloadEnd_keeps | with_reducible apply updFwSlot_keeps | with_reducible exact Part.sub_trans hw (by decide))

theorem confirmImage_keeps {ws : List Part} {s₀ s : State} (h₀ : Keeps ws s₀ s) 
    (hw : Part.sub [.counts, .ports, .sessions, .nextId, .kept, .held, .sent, .logs, .keyspaces, .power, .fw, .sb, .dbg, .nor] ws = true) : Keeps ws s₀ (State.confirmImage s) := by
  unfold State.confirmImage
  try dsimp only
  repeat' first
    | with_reducible assumption
    | with_reducible apply fwState_keeps
    | with_reducible apply updFwSlot_keeps
    | with_reducible exact Part.sub_trans hw (by decide)
    | split
    | (refine Keeps.mk_of rfl ?_; first | with_reducible assumption | with_reducible apply fwState_keeps | with_reducible apply updFwSlot_keeps | with_reducible exact Part.sub_trans hw (by decide))

theorem execFwConfirm_keeps {s : State} (c : Nat) :
    KeepsO [.counts, .ports, .sessions, .ctxs, .nextId, .kept, .held, .sent, .locks, .logs, .keyspaces, .quince, .pages, .pipes, .queue, .relay, .power, .fw, .sb, .dbg, .nor] s (execFwConfirm c s) := by
  have h₀ := Keeps.refl [.counts, .ports, .sessions, .ctxs, .nextId, .kept, .held, .sent, .locks, .logs, .keyspaces, .quince, .pages, .pipes, .queue, .relay, .power, .fw, .sb, .dbg, .nor] s
  have hw : Part.sub [.counts, .ports, .sessions, .ctxs, .nextId, .kept, .held, .sent, .locks, .logs, .keyspaces, .quince, .pages, .pipes, .queue, .relay, .power, .fw, .sb, .dbg, .nor] [.counts, .ports, .sessions, .ctxs, .nextId, .kept, .held, .sent, .locks, .logs, .keyspaces, .quince, .pages, .pipes, .queue, .relay, .power, .fw, .sb, .dbg, .nor] = true := by decide
  unfold execFwConfirm
  try dsimp only
  repeat' first
    | with_reducible assumption
    | with_reducible apply KeepsO.next
    | with_reducible apply KeepsO.ite
    | with_reducible apply Keeps.ite
    | (with_reducible refine adminRow_keeps ?_ _ _ _ _ (fun _ => ?_) (Part.sub_trans hw (by decide)); try dsimp only)
    | dsimp only
    | with_reducible apply confirmImage_keeps
    | with_reducible apply endStatus_keeps
    | with_reducible exact Part.sub_trans hw (by decide)
    | split
    | (refine Keeps.mk_of rfl ?_; first | with_reducible assumption | with_reducible apply KeepsO.next | with_reducible apply KeepsO.ite | with_reducible apply Keeps.ite | (with_reducible refine adminRow_keeps ?_ _ _ _ _ (fun _ => ?_) (Part.sub_trans hw (by decide)); try dsimp only) | dsimp only | with_reducible apply confirmImage_keeps | with_reducible apply endStatus_keeps | with_reducible exact Part.sub_trans hw (by decide))

theorem execSelftestEnd_keeps {s : State} (passed : Bool) :
    KeepsO [.counts, .ports, .sessions, .nextId, .kept, .held, .sent, .logs, .keyspaces, .power, .fw, .sb, .dbg, .nor] s (execSelftestEnd passed s) := by
  have h₀ := Keeps.refl [.counts, .ports, .sessions, .nextId, .kept, .held, .sent, .logs, .keyspaces, .power, .fw, .sb, .dbg, .nor] s
  have hw : Part.sub [.counts, .ports, .sessions, .nextId, .kept, .held, .sent, .logs, .keyspaces, .power, .fw, .sb, .dbg, .nor] [.counts, .ports, .sessions, .nextId, .kept, .held, .sent, .logs, .keyspaces, .power, .fw, .sb, .dbg, .nor] = true := by decide
  unfold execSelftestEnd
  try dsimp only
  repeat' first
    | with_reducible assumption
    | with_reducible apply KeepsO.next
    | with_reducible apply KeepsO.ite
    | with_reducible apply Keeps.ite
    | with_reducible apply confirmImage_keeps
    | with_reducible apply startFallback_keeps
    | with_reducible exact Part.sub_trans hw (by decide)
    | split
    | (refine Keeps.mk_of rfl ?_; first | with_reducible assumption | with_reducible apply KeepsO.next | with_reducible apply KeepsO.ite | with_reducible apply Keeps.ite | with_reducible apply confirmImage_keeps | with_reducible apply startFallback_keeps | with_reducible exact Part.sub_trans hw (by decide))

theorem execConfirmationWindowExpire_keeps {s : State}  :
    KeepsO [.counts, .ports, .sessions, .nextId, .kept, .held, .sent, .logs, .keyspaces, .power, .fw, .sb, .dbg] s (execConfirmationWindowExpire s) := by
  have h₀ := Keeps.refl [.counts, .ports, .sessions, .nextId, .kept, .held, .sent, .logs, .keyspaces, .power, .fw, .sb, .dbg] s
  have hw : Part.sub [.counts, .ports, .sessions, .nextId, .kept, .held, .sent, .logs, .keyspaces, .power, .fw, .sb, .dbg] [.counts, .ports, .sessions, .nextId, .kept, .held, .sent, .logs, .keyspaces, .power, .fw, .sb, .dbg] = true := by decide
  unfold execConfirmationWindowExpire
  try dsimp only
  repeat' first
    | with_reducible assumption
    | with_reducible apply KeepsO.next
    | with_reducible apply KeepsO.ite
    | with_reducible apply Keeps.ite
    | with_reducible apply startFallback_keeps
    | with_reducible exact Part.sub_trans hw (by decide)
    | split
    | (refine Keeps.mk_of rfl ?_; first | with_reducible assumption | with_reducible apply KeepsO.next | with_reducible apply KeepsO.ite | with_reducible apply Keeps.ite | with_reducible apply startFallback_keeps | with_reducible exact Part.sub_trans hw (by decide))

theorem execFwAbort_keeps {s : State} (c : Nat) :
    KeepsO [.counts, .ports, .sessions, .ctxs, .nextId, .kept, .held, .sent, .locks, .logs, .keyspaces, .quince, .pages, .pipes, .queue, .relay, .power, .fw, .sb, .dbg] s (execFwAbort c s) := by
  have h₀ := Keeps.refl [.counts, .ports, .sessions, .ctxs, .nextId, .kept, .held, .sent, .locks, .logs, .keyspaces, .quince, .pages, .pipes, .queue, .relay, .power, .fw, .sb, .dbg] s
  have hw : Part.sub [.counts, .ports, .sessions, .ctxs, .nextId, .kept, .held, .sent, .locks, .logs, .keyspaces, .quince, .pages, .pipes, .queue, .relay, .power, .fw, .sb, .dbg] [.counts, .ports, .sessions, .ctxs, .nextId, .kept, .held, .sent, .locks, .logs, .keyspaces, .quince, .pages, .pipes, .queue, .relay, .power, .fw, .sb, .dbg] = true := by decide
  unfold execFwAbort
  try dsimp only
  repeat' first
    | with_reducible assumption
    | with_reducible apply KeepsO.next
    | with_reducible apply KeepsO.ite
    | with_reducible apply Keeps.ite
    | (with_reducible refine adminRow_keeps ?_ _ _ _ _ (fun _ => ?_) (Part.sub_trans hw (by decide)); try dsimp only)
    | dsimp only
    | with_reducible apply endStatus_keeps
    | with_reducible apply startFallback_keeps
    | with_reducible apply updInactive_keeps
    | with_reducible exact Part.sub_trans hw (by decide)
    | split
    | (refine Keeps.mk_of rfl ?_; first | with_reducible assumption | with_reducible apply KeepsO.next | with_reducible apply KeepsO.ite | with_reducible apply Keeps.ite | (with_reducible refine adminRow_keeps ?_ _ _ _ _ (fun _ => ?_) (Part.sub_trans hw (by decide)); try dsimp only) | dsimp only | with_reducible apply endStatus_keeps | with_reducible apply startFallback_keeps | with_reducible apply updInactive_keeps | with_reducible exact Part.sub_trans hw (by decide))

theorem execRestartActivation_keeps {s : State}  :
    KeepsO [.modes, .counts, .logs, .relay, .dbg] s (execRestartActivation s) := by
  have h₀ := Keeps.refl [.modes, .counts, .logs, .relay, .dbg] s
  have hw : Part.sub [.modes, .counts, .logs, .relay, .dbg] [.modes, .counts, .logs, .relay, .dbg] = true := by decide
  unfold execRestartActivation
  try dsimp only
  repeat' first
    | with_reducible assumption
    | with_reducible apply KeepsO.next
    | with_reducible apply KeepsO.ite
    | with_reducible apply Keeps.ite
    | with_reducible apply abandonForwards_keeps
    | with_reducible exact Part.sub_trans hw (by decide)
    | split
    | (refine Keeps.mk_of rfl ?_; first | with_reducible assumption | with_reducible apply KeepsO.next | with_reducible apply KeepsO.ite | with_reducible apply Keeps.ite | with_reducible apply abandonForwards_keeps | with_reducible exact Part.sub_trans hw (by decide))

theorem execActivationFlushComplete_keeps {s : State}  :
    KeepsO [.rnd, .supply, .modes, .spares, .counts, .ports, .sessions, .closed, .ctxs, .nextId, .kept, .held, .sent, .locks, .logs, .keyspaces, .entries, .groups, .eraseSets, .heat, .cache, .holds, .logA, .logB, .mapLog, .dirty, .images, .coh, .quince, .pages, .kek, .pipes, .queue, .sieves, .relay, .power, .thermal, .holdup, .fw, .sb, .dbg, .nor] s (execActivationFlushComplete s) := by
  have h₀ := Keeps.refl [.rnd, .supply, .modes, .spares, .counts, .ports, .sessions, .closed, .ctxs, .nextId, .kept, .held, .sent, .locks, .logs, .keyspaces, .entries, .groups, .eraseSets, .heat, .cache, .holds, .logA, .logB, .mapLog, .dirty, .images, .coh, .quince, .pages, .kek, .pipes, .queue, .sieves, .relay, .power, .thermal, .holdup, .fw, .sb, .dbg, .nor] s
  have hw : Part.sub [.rnd, .supply, .modes, .spares, .counts, .ports, .sessions, .closed, .ctxs, .nextId, .kept, .held, .sent, .locks, .logs, .keyspaces, .entries, .groups, .eraseSets, .heat, .cache, .holds, .logA, .logB, .mapLog, .dirty, .images, .coh, .quince, .pages, .kek, .pipes, .queue, .sieves, .relay, .power, .thermal, .holdup, .fw, .sb, .dbg, .nor] [.rnd, .supply, .modes, .spares, .counts, .ports, .sessions, .closed, .ctxs, .nextId, .kept, .held, .sent, .locks, .logs, .keyspaces, .entries, .groups, .eraseSets, .heat, .cache, .holds, .logA, .logB, .mapLog, .dirty, .images, .coh, .quince, .pages, .kek, .pipes, .queue, .sieves, .relay, .power, .thermal, .holdup, .fw, .sb, .dbg, .nor] = true := by decide
  unfold execActivationFlushComplete
  try dsimp only
  repeat' first
    | with_reducible assumption
    | with_reducible apply KeepsO.next
    | with_reducible apply KeepsO.ite
    | with_reducible apply Keeps.ite
    | with_reducible apply beginFilling_keeps
    | with_reducible apply changeMode_keeps
    | with_reducible apply flushAll_keeps
    | with_reducible apply mainOff_keeps
    | with_reducible apply recordMode_keeps
    | with_reducible apply saveSettings_keeps
    | with_reducible exact Part.sub_trans hw (by decide)
    | split
    | (refine Keeps.mk_of rfl ?_; first | with_reducible assumption | with_reducible apply KeepsO.next | with_reducible apply KeepsO.ite | with_reducible apply Keeps.ite | with_reducible apply beginFilling_keeps | with_reducible apply changeMode_keeps | with_reducible apply flushAll_keeps | with_reducible apply mainOff_keeps | with_reducible apply recordMode_keeps | with_reducible apply saveSettings_keeps | with_reducible exact Part.sub_trans hw (by decide))

theorem abandonActivation_keeps {ws : List Part} {s₀ s : State} (h₀ : Keeps ws s₀ s) 
    (hw : Part.sub [.counts, .ports, .sessions, .nextId, .kept, .held, .sent, .logs, .keyspaces, .power, .fw, .sb, .dbg] ws = true) : Keeps ws s₀ (State.abandonActivation s) := by
  unfold State.abandonActivation
  try dsimp only
  repeat' first
    | with_reducible assumption
    | with_reducible apply fwState_keeps
    | with_reducible exact Part.sub_trans hw (by decide)
    | split
    | (refine Keeps.mk_of rfl ?_; first | with_reducible assumption | with_reducible apply fwState_keeps | with_reducible exact Part.sub_trans hw (by decide))

theorem execStandbyFail_keeps {s : State} (restartable : Bool) :
    KeepsO [.spares, .counts, .ports, .sessions, .nextId, .kept, .held, .sent, .marks, .logs, .keyspaces, .power, .fw, .sb, .dbg] s (execStandbyFail restartable s) := by
  have h₀ := Keeps.refl [.spares, .counts, .ports, .sessions, .nextId, .kept, .held, .sent, .marks, .logs, .keyspaces, .power, .fw, .sb, .dbg] s
  have hw : Part.sub [.spares, .counts, .ports, .sessions, .nextId, .kept, .held, .sent, .marks, .logs, .keyspaces, .power, .fw, .sb, .dbg] [.spares, .counts, .ports, .sessions, .nextId, .kept, .held, .sent, .marks, .logs, .keyspaces, .power, .fw, .sb, .dbg] = true := by decide
  unfold execStandbyFail
  try dsimp only
  repeat' first
    | with_reducible assumption
    | with_reducible apply KeepsO.next
    | with_reducible apply KeepsO.ite
    | with_reducible apply Keeps.ite
    | with_reducible apply abandonActivation_keeps
    | with_reducible apply watch_keeps
    | with_reducible exact Part.sub_trans hw (by decide)
    | split
    | (refine Keeps.mk_of rfl ?_; first | with_reducible assumption | with_reducible apply KeepsO.next | with_reducible apply KeepsO.ite | with_reducible apply Keeps.ite | with_reducible apply abandonActivation_keeps | with_reducible apply watch_keeps | with_reducible exact Part.sub_trans hw (by decide))

end Sys2Proof.Machine
end

