-- ==== Sys2Proof/Laws/KeepsIntegrity.lean ====
section
/-! SUPPORT. Which parts of the state each operation of Machine/Integrity.lean may change. -/

set_option Elab.async false

namespace Sys2Proof.Machine

theorem deviceEnd_keeps {ws : List Part} {s₀ s : State} (h₀ : Keeps ws s₀ s) (c : Nat)
    (hw : Part.sub [.ports, .sessions, .ctxs, .nextId, .kept, .held, .sent, .locks, .keyspaces, .quince, .pages, .pipes, .queue, .relay, .power, .sb] ws = true) : Keeps ws s₀ (State.deviceEnd s c) := by
  unfold State.deviceEnd
  try dsimp only
  repeat' first
    | with_reducible assumption
    | with_reducible apply Keeps.ite
    | with_reducible apply endCmd_keeps
    | with_reducible apply endStatus_keeps
    | with_reducible exact Part.sub_trans hw (by decide)
    | split
    | (refine Keeps.mk_of rfl ?_; first | with_reducible assumption | with_reducible apply Keeps.ite | with_reducible apply endCmd_keeps | with_reducible apply endStatus_keeps | with_reducible exact Part.sub_trans hw (by decide))

theorem selftestFault_keeps {ws : List Part} {s₀ s : State} (h₀ : Keeps ws s₀ s) 
    (hw : Part.sub [.counts, .ports, .sessions, .nextId, .kept, .held, .sent, .logs, .keyspaces, .power, .fw, .sb, .dbg] ws = true) : Keeps ws s₀ (State.selftestFault s) := by
  unfold State.selftestFault
  try dsimp only
  repeat' first
    | with_reducible assumption
    | with_reducible apply Keeps.ite
    | with_reducible apply startFallback_keeps
    | with_reducible exact Part.sub_trans hw (by decide)
    | split
    | (refine Keeps.mk_of rfl ?_; first | with_reducible assumption | with_reducible apply Keeps.ite | with_reducible apply startFallback_keeps | with_reducible exact Part.sub_trans hw (by decide))

theorem bringIn_keeps {ws : List Part} {s₀ s : State} (h₀ : Keeps ws s₀ s) (role cls spare : Nat)
    (hw : Part.sub [.spares, .counts, .ports, .sessions, .nextId, .kept, .held, .sent, .logs, .keyspaces, .power, .sb] ws = true) : Keeps ws s₀ (State.bringIn s role cls spare) := by
  unfold State.bringIn
  try dsimp only
  repeat' first
    | with_reducible assumption
    | with_reducible apply spareNotice_keeps
    | with_reducible exact Part.sub_trans hw (by decide)
    | split
    | (refine Keeps.mk_of rfl ?_; first | with_reducible assumption | with_reducible apply spareNotice_keeps | with_reducible exact Part.sub_trans hw (by decide))

theorem loseRole_keeps {ws : List Part} {s₀ s : State} (h₀ : Keeps ws s₀ s) (role : Nat)
    (hw : Part.sub [.spares] ws = true) : Keeps ws s₀ (State.loseRole s role) := by
  unfold State.loseRole
  try dsimp only
  repeat' first
    | with_reducible assumption
    | split
    | (refine Keeps.mk_of rfl ?_; first | with_reducible assumption)

theorem losePipe_keeps {ws : List Part} {s₀ s : State} (h₀ : Keeps ws s₀ s) (n : Nat)
    (hw : Part.sub [.counts, .ports, .sessions, .ctxs, .nextId, .kept, .held, .sent, .logs, .keyspaces, .pages, .pipes, .queue, .power] ws = true) : Keeps ws s₀ (State.losePipe s n) := by
  unfold State.losePipe
  try dsimp only
  repeat' first
    | with_reducible assumption
    | with_reducible apply Keeps.ite
    | (with_reducible refine Keeps.foldl ?_ (fun _ _ _ => ?_))
    | with_reducible apply jobArrive_keeps
    | with_reducible apply movePipes_keeps
    | with_reducible exact Part.sub_trans hw (by decide)
    | split
    | (refine Keeps.mk_of rfl ?_; first | with_reducible assumption | with_reducible apply Keeps.ite | (with_reducible refine Keeps.foldl ?_ (fun _ _ _ => ?_)) | with_reducible apply jobArrive_keeps | with_reducible apply movePipes_keeps | with_reducible exact Part.sub_trans hw (by decide))

theorem failPipe_keeps {ws : List Part} {s₀ s : State} (h₀ : Keeps ws s₀ s) (n : Nat)
    (hw : Part.sub [.counts, .ports, .sessions, .ctxs, .nextId, .kept, .held, .sent, .locks, .logs, .keyspaces, .quince, .pages, .pipes, .queue, .relay, .power, .sb] ws = true) : Keeps ws s₀ (State.failPipe s n) := by
  unfold State.failPipe
  try dsimp only
  repeat' first
    | with_reducible assumption
    | (with_reducible refine Keeps.foldl ?_ (fun _ _ _ => ?_))
    | with_reducible apply deviceEnd_keeps
    | with_reducible apply jobArrive_keeps
    | with_reducible apply setPipe_keeps
    | with_reducible exact Part.sub_trans hw (by decide)
    | split
    | (refine Keeps.mk_of rfl ?_; first | with_reducible assumption | (with_reducible refine Keeps.foldl ?_ (fun _ _ _ => ?_)) | with_reducible apply deviceEnd_keeps | with_reducible apply jobArrive_keeps | with_reducible apply setPipe_keeps | with_reducible exact Part.sub_trans hw (by decide))

theorem failSlice_keeps {ws : List Part} {s₀ s : State} (h₀ : Keeps ws s₀ s) (slice : Nat)
    (hw : Part.sub [.coh] ws = true) : Keeps ws s₀ (State.failSlice s slice) := by
  unfold State.failSlice
  try dsimp only
  repeat' first
    | with_reducible assumption
    | (with_reducible refine Keeps.foldl ?_ (fun _ _ _ => ?_))
    | with_reducible apply homes_keeps
    | with_reducible exact Part.sub_trans hw (by decide)
    | split
    | (refine Keeps.mk_of rfl ?_; first | with_reducible assumption | (with_reducible refine Keeps.foldl ?_ (fun _ _ _ => ?_)) | with_reducible apply homes_keeps | with_reducible exact Part.sub_trans hw (by decide))

theorem failBank_keeps {ws : List Part} {s₀ s : State} (h₀ : Keeps ws s₀ s) (bank : Nat)
    (hw : Part.sub [.quince] ws = true) : Keeps ws s₀ (State.failBank s bank) := by
  unfold State.failBank
  try dsimp only
  repeat' first
    | with_reducible assumption
    | (with_reducible refine Keeps.foldl ?_ (fun _ _ _ => ?_))
    | with_reducible apply enterWays_keeps
    | with_reducible exact Part.sub_trans hw (by decide)
    | split
    | (refine Keeps.mk_of rfl ?_; first | with_reducible assumption | (with_reducible refine Keeps.foldl ?_ (fun _ _ _ => ?_)) | with_reducible apply enterWays_keeps | with_reducible exact Part.sub_trans hw (by decide))

theorem failWork_keeps {ws : List Part} {s₀ s : State} (h₀ : Keeps ws s₀ s) (role : Nat)
    (hw : Part.sub [.counts, .ports, .sessions, .ctxs, .nextId, .kept, .held, .sent, .locks, .logs, .keyspaces, .coh, .quince, .pages, .pipes, .queue, .relay, .power, .sb] ws = true) : Keeps ws s₀ (State.failWork s role) := by
  unfold State.failWork
  try dsimp only
  repeat' first
    | with_reducible assumption
    | with_reducible apply Keeps.ite
    | with_reducible apply failBank_keeps
    | with_reducible apply failPipe_keeps
    | with_reducible apply failSlice_keeps
    | with_reducible exact Part.sub_trans hw (by decide)
    | split
    | (refine Keeps.mk_of rfl ?_; first | with_reducible assumption | with_reducible apply Keeps.ite | with_reducible apply failBank_keeps | with_reducible apply failPipe_keeps | with_reducible apply failSlice_keeps | with_reducible exact Part.sub_trans hw (by decide))

theorem noSpare_keeps {ws : List Part} {s₀ s : State} (h₀ : Keeps ws s₀ s) (cls role : Nat)
    (hw : Part.sub [.rnd, .modes, .spares, .counts, .ports, .sessions, .ctxs, .nextId, .kept, .held, .sent, .locks, .logs, .keyspaces, .quince, .pages, .pipes, .queue, .sieves, .relay, .power, .sb, .dbg, .nor] ws = true) : Keeps ws s₀ (State.noSpare s cls role) := by
  unfold State.noSpare
  try dsimp only
  repeat' first
    | with_reducible assumption
    | with_reducible apply Keeps.ite
    | with_reducible apply freeze_keeps
    | with_reducible apply losePipe_keeps
    | with_reducible apply loseRole_keeps
    | with_reducible exact Part.sub_trans hw (by decide)
    | split
    | (refine Keeps.mk_of rfl ?_; first | with_reducible assumption | with_reducible apply Keeps.ite | with_reducible apply freeze_keeps | with_reducible apply losePipe_keeps | with_reducible apply loseRole_keeps | with_reducible exact Part.sub_trans hw (by decide))

theorem failClass_keeps {ws : List Part} {s₀ s : State} (h₀ : Keeps ws s₀ s) (c : Nat × Nat × Nat × List Nat) (role : Nat)
    (hw : Part.sub [.rnd, .modes, .spares, .counts, .ports, .sessions, .ctxs, .nextId, .kept, .held, .sent, .locks, .logs, .keyspaces, .coh, .quince, .pages, .pipes, .queue, .sieves, .relay, .power, .sb, .dbg, .nor] ws = true) : Keeps ws s₀ (State.failClass s c role) := by
  unfold State.failClass
  try dsimp only
  repeat' first
    | with_reducible assumption
    | with_reducible apply bringIn_keeps
    | with_reducible apply failWork_keeps
    | with_reducible apply noSpare_keeps
    | with_reducible exact Part.sub_trans hw (by decide)
    | split
    | (refine Keeps.mk_of rfl ?_; first | with_reducible assumption | with_reducible apply bringIn_keeps | with_reducible apply failWork_keeps | with_reducible apply noSpare_keeps | with_reducible exact Part.sub_trans hw (by decide))

theorem failLinks_keeps {ws : List Part} {s₀ s : State} (h₀ : Keeps ws s₀ s) (role : Nat)
    (hw : Part.sub [.ports, .sb] ws = true) : Keeps ws s₀ (State.failLinks s role) := by
  unfold State.failLinks
  try dsimp only
  repeat' first
    | with_reducible assumption
    | with_reducible apply Keeps.ite
    | (with_reducible refine Keeps.foldl ?_ (fun _ _ _ => ?_))
    | with_reducible apply takeDown_keeps
    | with_reducible exact Part.sub_trans hw (by decide)
    | split
    | (refine Keeps.mk_of rfl ?_; first | with_reducible assumption | with_reducible apply Keeps.ite | (with_reducible refine Keeps.foldl ?_ (fun _ _ _ => ?_)) | with_reducible apply takeDown_keeps | with_reducible exact Part.sub_trans hw (by decide))

theorem failRelay_keeps {ws : List Part} {s₀ s : State} (h₀ : Keeps ws s₀ s) (role : Nat)
    (hw : Part.sub [.rnd, .counts, .ports, .sessions, .ctxs, .nextId, .kept, .held, .sent, .locks, .logs, .keyspaces, .holds, .quince, .pages, .pipes, .queue, .relay, .power, .sb, .dbg] ws = true) : Keeps ws s₀ (State.failRelay s role) := by
  unfold State.failRelay
  try dsimp only
  repeat' first
    | with_reducible assumption
    | (with_reducible refine Keeps.foldl ?_ (fun _ _ _ => ?_))
    | with_reducible apply relayFault_keeps
    | with_reducible exact Part.sub_trans hw (by decide)
    | split
    | (refine Keeps.mk_of rfl ?_; first | with_reducible assumption | (with_reducible refine Keeps.foldl ?_ (fun _ _ _ => ?_)) | with_reducible apply relayFault_keeps | with_reducible exact Part.sub_trans hw (by decide))

theorem failChannel_keeps {ws : List Part} {s₀ s : State} (h₀ : Keeps ws s₀ s) (ch : Nat)
    (hw : Part.sub [.spares] ws = true) : Keeps ws s₀ (State.failChannel s ch) := by
  unfold State.failChannel
  try dsimp only
  repeat' first
    | with_reducible assumption
    | split
    | (refine Keeps.mk_of rfl ?_; first | with_reducible assumption)

theorem activeFails_keeps {ws : List Part} {s₀ s : State} (h₀ : Keeps ws s₀ s) (island : Nat)
    (hw : Part.sub [.rnd, .supply, .modes, .spares, .counts, .ports, .sessions, .closed, .ctxs, .nextId, .kept, .held, .sent, .locks, .logs, .keyspaces, .entries, .groups, .eraseSets, .heat, .cache, .holds, .logA, .logB, .mapLog, .coh, .quince, .pages, .kek, .pipes, .queue, .sieves, .relay, .power, .thermal, .holdup, .fw, .sb, .dbg, .nor] ws = true) : Keeps ws s₀ (State.activeFails s island) := by
  unfold State.activeFails
  try dsimp only
  repeat' first
    | with_reducible assumption
    | with_reducible apply Keeps.ite
    | with_reducible apply restart_keeps
    | with_reducible exact Part.sub_trans hw (by decide)
    | split
    | (refine Keeps.mk_of rfl ?_; first | with_reducible assumption | with_reducible apply Keeps.ite | with_reducible apply restart_keeps | with_reducible exact Part.sub_trans hw (by decide))

theorem standbyFails_keeps {ws : List Part} {s₀ s : State} (h : Keeps ws s₀ s) (restartable : Bool) (hw : Part.sub [.spares, .counts, .ports, .sessions, .nextId, .kept, .held, .sent, .marks, .logs, .keyspaces, .power, .fw, .sb, .dbg] ws = true) :
    Keeps ws s₀ (State.standbyFails s restartable) := by
  unfold State.standbyFails
  split
  · exact h.trans ((execStandbyFail_keeps restartable _ ‹_›).mono hw)
  · exact h

theorem failSingle_keeps {ws : List Part} {s₀ s : State} (h₀ : Keeps ws s₀ s) (role : Nat)
    (hw : Part.sub [.rnd, .supply, .modes, .spares, .counts, .ports, .sessions, .closed, .ctxs, .nextId, .kept, .held, .sent, .locks, .marks, .logs, .keyspaces, .entries, .groups, .eraseSets, .heat, .cache, .holds, .logA, .logB, .mapLog, .coh, .quince, .pages, .kek, .pipes, .queue, .sieves, .relay, .power, .thermal, .holdup, .fw, .sb, .dbg, .nor] ws = true) : Keeps ws s₀ (State.failSingle s role) := by
  unfold State.failSingle
  try dsimp only
  repeat' first
    | with_reducible assumption
    | with_reducible apply Keeps.ite
    | with_reducible apply activeFails_keeps
    | with_reducible apply failChannel_keeps
    | with_reducible apply failLinks_keeps
    | with_reducible apply failRelay_keeps
    | with_reducible apply flushLogs_keeps
    | with_reducible apply loseRole_keeps
    | with_reducible apply restart_keeps
    | with_reducible apply standbyFails_keeps
    | with_reducible apply startFault_keeps
    | with_reducible exact Part.sub_trans hw (by decide)
    | split
    | (refine Keeps.mk_of rfl ?_; first | with_reducible assumption | with_reducible apply Keeps.ite | with_reducible apply activeFails_keeps | with_reducible apply failChannel_keeps | with_reducible apply failLinks_keeps | with_reducible apply failRelay_keeps | with_reducible apply flushLogs_keeps | with_reducible apply loseRole_keeps | with_reducible apply restart_keeps | with_reducible apply standbyFails_keeps | with_reducible apply startFault_keeps | with_reducible exact Part.sub_trans hw (by decide))

theorem failIsland_keeps {ws : List Part} {s₀ s : State} (h₀ : Keeps ws s₀ s) (island : Nat) (held : List Nat)
    (hw : Part.sub [.rnd, .supply, .modes, .spares, .counts, .ports, .sessions, .closed, .ctxs, .nextId, .kept, .held, .sent, .locks, .marks, .logs, .keyspaces, .entries, .groups, .eraseSets, .heat, .cache, .holds, .logA, .logB, .mapLog, .coh, .quince, .pages, .kek, .pipes, .queue, .sieves, .relay, .power, .thermal, .holdup, .fw, .sb, .dbg, .nor] ws = true) : Keeps ws s₀ (State.failIsland s island held) := by
  unfold State.failIsland
  try dsimp only
  repeat' first
    | with_reducible assumption
    | with_reducible apply Keeps.ite
    | (with_reducible refine Keeps.foldl ?_ (fun _ _ _ => ?_))
    | with_reducible apply deviceEnd_keeps
    | with_reducible apply failClass_keeps
    | with_reducible apply failSingle_keeps
    | with_reducible exact Part.sub_trans hw (by decide)
    | split
    | (refine Keeps.mk_of rfl ?_; first | with_reducible assumption | with_reducible apply Keeps.ite | (with_reducible refine Keeps.foldl ?_ (fun _ _ _ => ?_)) | with_reducible apply deviceEnd_keeps | with_reducible apply failClass_keeps | with_reducible apply failSingle_keeps | with_reducible exact Part.sub_trans hw (by decide))

theorem execIslandFail_keeps {s : State} (island : Nat) (held : List Nat) :
    KeepsO [.rnd, .supply, .modes, .spares, .counts, .ports, .sessions, .closed, .ctxs, .nextId, .kept, .held, .sent, .locks, .marks, .logs, .owners, .keyspaces, .entries, .groups, .extents, .fineNext, .eraseSets, .heat, .cache, .holds, .logA, .logB, .mapLog, .coh, .quince, .pages, .kek, .pipes, .queue, .sieves, .relay, .power, .thermal, .holdup, .fw, .sb, .dbg, .nor] s (execIslandFail island held s) := by
  have h₀ := Keeps.refl [.rnd, .supply, .modes, .spares, .counts, .ports, .sessions, .closed, .ctxs, .nextId, .kept, .held, .sent, .locks, .marks, .logs, .owners, .keyspaces, .entries, .groups, .extents, .fineNext, .eraseSets, .heat, .cache, .holds, .logA, .logB, .mapLog, .coh, .quince, .pages, .kek, .pipes, .queue, .sieves, .relay, .power, .thermal, .holdup, .fw, .sb, .dbg, .nor] s
  have hw : Part.sub [.rnd, .supply, .modes, .spares, .counts, .ports, .sessions, .closed, .ctxs, .nextId, .kept, .held, .sent, .locks, .marks, .logs, .owners, .keyspaces, .entries, .groups, .extents, .fineNext, .eraseSets, .heat, .cache, .holds, .logA, .logB, .mapLog, .coh, .quince, .pages, .kek, .pipes, .queue, .sieves, .relay, .power, .thermal, .holdup, .fw, .sb, .dbg, .nor] [.rnd, .supply, .modes, .spares, .counts, .ports, .sessions, .closed, .ctxs, .nextId, .kept, .held, .sent, .locks, .marks, .logs, .owners, .keyspaces, .entries, .groups, .extents, .fineNext, .eraseSets, .heat, .cache, .holds, .logA, .logB, .mapLog, .coh, .quince, .pages, .kek, .pipes, .queue, .sieves, .relay, .power, .thermal, .holdup, .fw, .sb, .dbg, .nor] = true := by decide
  unfold execIslandFail
  try dsimp only
  repeat' first
    | with_reducible assumption
    | with_reducible apply KeepsO.next
    | with_reducible apply KeepsO.ite
    | with_reducible apply Keeps.ite
    | with_reducible apply failIsland_keeps
    | with_reducible apply relaySettle_keeps
    | with_reducible apply selftestFault_keeps
    | with_reducible exact Part.sub_trans hw (by decide)
    | split
    | (refine Keeps.mk_of rfl ?_; first | with_reducible assumption | with_reducible apply KeepsO.next | with_reducible apply KeepsO.ite | with_reducible apply Keeps.ite | with_reducible apply failIsland_keeps | with_reducible apply relaySettle_keeps | with_reducible apply selftestFault_keeps | with_reducible exact Part.sub_trans hw (by decide))

theorem execIslandRetire_keeps {s : State} (island bank : Nat) :
    KeepsO [.spares, .counts, .ports, .sessions, .nextId, .kept, .held, .sent, .marks, .logs, .keyspaces, .power, .sb, .dbg] s (execIslandRetire island bank s) := by
  have h₀ := Keeps.refl [.spares, .counts, .ports, .sessions, .nextId, .kept, .held, .sent, .marks, .logs, .keyspaces, .power, .sb, .dbg] s
  have hw : Part.sub [.spares, .counts, .ports, .sessions, .nextId, .kept, .held, .sent, .marks, .logs, .keyspaces, .power, .sb, .dbg] [.spares, .counts, .ports, .sessions, .nextId, .kept, .held, .sent, .marks, .logs, .keyspaces, .power, .sb, .dbg] = true := by decide
  unfold execIslandRetire
  try dsimp only
  repeat' first
    | with_reducible assumption
    | with_reducible apply KeepsO.next
    | with_reducible apply KeepsO.ite
    | with_reducible apply Keeps.ite
    | with_reducible apply bringIn_keeps
    | with_reducible apply logEvent_keeps
    | with_reducible apply watch_keeps
    | with_reducible exact Part.sub_trans hw (by decide)
    | split
    | (refine Keeps.mk_of rfl ?_; first | with_reducible assumption | with_reducible apply KeepsO.next | with_reducible apply KeepsO.ite | with_reducible apply Keeps.ite | with_reducible apply bringIn_keeps | with_reducible apply logEvent_keeps | with_reducible apply watch_keeps | with_reducible exact Part.sub_trans hw (by decide))

theorem execTrunkLinkFail_keeps {s : State} (hub dir : Nat) :
    KeepsO [.spares, .counts, .ports, .sessions, .nextId, .kept, .held, .sent, .marks, .logs, .keyspaces, .power, .sb] s (execTrunkLinkFail hub dir s) := by
  have h₀ := Keeps.refl [.spares, .counts, .ports, .sessions, .nextId, .kept, .held, .sent, .marks, .logs, .keyspaces, .power, .sb] s
  have hw : Part.sub [.spares, .counts, .ports, .sessions, .nextId, .kept, .held, .sent, .marks, .logs, .keyspaces, .power, .sb] [.spares, .counts, .ports, .sessions, .nextId, .kept, .held, .sent, .marks, .logs, .keyspaces, .power, .sb] = true := by decide
  unfold execTrunkLinkFail
  try dsimp only
  repeat' first
    | with_reducible assumption
    | with_reducible apply KeepsO.next
    | with_reducible apply KeepsO.ite
    | with_reducible apply Keeps.ite
    | with_reducible apply watch_keeps
    | with_reducible exact Part.sub_trans hw (by decide)
    | split
    | (refine Keeps.mk_of rfl ?_; first | with_reducible assumption | with_reducible apply KeepsO.next | with_reducible apply KeepsO.ite | with_reducible apply Keeps.ite | with_reducible apply watch_keeps | with_reducible exact Part.sub_trans hw (by decide))

theorem spareRow_keeps {ws : List Part} {s₀ s : State} (h₀ : Keeps ws s₀ s) (ch row cause : Nat)
    (hw : Part.sub [.rnd, .modes, .spares, .counts, .ports, .sessions, .ctxs, .nextId, .kept, .held, .sent, .locks, .logs, .keyspaces, .quince, .pages, .pipes, .queue, .sieves, .relay, .power, .sb, .dbg, .nor] ws = true) : Keeps ws s₀ (State.spareRow s ch row cause) := by
  unfold State.spareRow
  try dsimp only
  repeat' first
    | with_reducible assumption
    | with_reducible apply Keeps.ite
    | with_reducible apply freeze_keeps
    | with_reducible apply logEvent_keeps
    | with_reducible exact Part.sub_trans hw (by decide)
    | split
    | (refine Keeps.mk_of rfl ?_; first | with_reducible assumption | with_reducible apply Keeps.ite | with_reducible apply freeze_keeps | with_reducible apply logEvent_keeps | with_reducible exact Part.sub_trans hw (by decide))

theorem execCeDecay_keeps {s : State} (sram dram : List (Nat × Nat × Nat)) :
    KeepsO [.rnd, .modes, .spares, .counts, .ports, .sessions, .ctxs, .nextId, .kept, .held, .sent, .locks, .marks, .logs, .keyspaces, .quince, .pages, .pipes, .queue, .sieves, .relay, .power, .sb, .dbg, .nor] s (execCeDecay sram dram s) := by
  have h₀ := Keeps.refl [.rnd, .modes, .spares, .counts, .ports, .sessions, .ctxs, .nextId, .kept, .held, .sent, .locks, .marks, .logs, .keyspaces, .quince, .pages, .pipes, .queue, .sieves, .relay, .power, .sb, .dbg, .nor] s
  have hw : Part.sub [.rnd, .modes, .spares, .counts, .ports, .sessions, .ctxs, .nextId, .kept, .held, .sent, .locks, .marks, .logs, .keyspaces, .quince, .pages, .pipes, .queue, .sieves, .relay, .power, .sb, .dbg, .nor] [.rnd, .modes, .spares, .counts, .ports, .sessions, .ctxs, .nextId, .kept, .held, .sent, .locks, .marks, .logs, .keyspaces, .quince, .pages, .pipes, .queue, .sieves, .relay, .power, .sb, .dbg, .nor] = true := by decide
  unfold execCeDecay
  try dsimp only
  repeat' first
    | with_reducible assumption
    | with_reducible apply KeepsO.next
    | with_reducible apply KeepsO.ite
    | with_reducible apply Keeps.ite
    | (with_reducible refine Keeps.foldl ?_ (fun _ _ _ => ?_))
    | with_reducible apply spareRow_keeps
    | with_reducible apply watch_keeps
    | with_reducible exact Part.sub_trans hw (by decide)
    | split
    | (refine Keeps.mk_of rfl ?_; first | with_reducible assumption | with_reducible apply KeepsO.next | with_reducible apply KeepsO.ite | with_reducible apply Keeps.ite | (with_reducible refine Keeps.foldl ?_ (fun _ _ _ => ?_)) | with_reducible apply spareRow_keeps | with_reducible apply watch_keeps | with_reducible exact Part.sub_trans hw (by decide))

theorem ueRecord_keeps {ws : List Part} {s₀ s : State} (h₀ : Keeps ws s₀ s) (island memory outcome addr : Nat) (b sram : Bool)
    (hw : Part.sub [.counts, .logs, .dbg] ws = true) : Keeps ws s₀ (State.ueRecord s island memory outcome addr b sram) := by
  unfold State.ueRecord
  try dsimp only
  repeat' first
    | with_reducible assumption
    | with_reducible apply logEvent_keeps
    | with_reducible exact Part.sub_trans hw (by decide)
    | split
    | (refine Keeps.mk_of rfl ?_; first | with_reducible assumption | with_reducible apply logEvent_keeps | with_reducible exact Part.sub_trans hw (by decide))

theorem repaired_keeps {ws : List Part} {s₀ s : State} (h₀ : Keeps ws s₀ s) 
    (hw : Part.sub [.counts] ws = true) : Keeps ws s₀ (State.repaired s) := by
  unfold State.repaired
  try dsimp only
  repeat' first
    | with_reducible assumption
    | split
    | (refine Keeps.mk_of rfl ?_; first | with_reducible assumption)

theorem ueEffect_keeps {ws : List Part} {s₀ s : State} (h₀ : Keeps ws s₀ s) (island row : Nat) (b : Bool) (x0 : UeWhere)
    (hw : Part.sub [.rnd, .supply, .modes, .spares, .counts, .ports, .sessions, .closed, .ctxs, .nextId, .kept, .held, .sent, .locks, .marks, .logs, .keyspaces, .entries, .groups, .eraseSets, .heat, .cache, .holds, .logA, .logB, .mapLog, .coh, .quince, .pages, .kek, .pipes, .queue, .sieves, .relay, .power, .thermal, .holdup, .fw, .sb, .dbg, .nor] ws = true) : Keeps ws s₀ (State.ueEffect s island row b x0) := by
  unfold State.ueEffect
  try dsimp only
  repeat' first
    | with_reducible assumption
    | with_reducible apply Keeps.ite
    | (with_reducible refine Keeps.foldl ?_ (fun _ _ _ => ?_))
    | with_reducible apply cacheDrop_keeps
    | with_reducible apply deviceEnd_keeps
    | with_reducible apply failIsland_keeps
    | with_reducible apply repaired_keeps
    | with_reducible apply selftestFault_keeps
    | with_reducible apply spareRow_keeps
    | with_reducible apply updSieve_keeps
    | with_reducible exact Part.sub_trans hw (by decide)
    | split
    | (refine Keeps.mk_of rfl ?_; first | with_reducible assumption | with_reducible apply Keeps.ite | (with_reducible refine Keeps.foldl ?_ (fun _ _ _ => ?_)) | with_reducible apply cacheDrop_keeps | with_reducible apply deviceEnd_keeps | with_reducible apply failIsland_keeps | with_reducible apply repaired_keeps | with_reducible apply selftestFault_keeps | with_reducible apply spareRow_keeps | with_reducible apply updSieve_keeps | with_reducible exact Part.sub_trans hw (by decide))

theorem execUeFound_keeps {s : State} (island asker addr row : Nat) (flit : Bool) (site : UeWhere) :
    KeepsO [.rnd, .supply, .modes, .spares, .counts, .ports, .sessions, .closed, .ctxs, .nextId, .kept, .held, .sent, .locks, .marks, .logs, .owners, .keyspaces, .entries, .groups, .extents, .fineNext, .eraseSets, .heat, .cache, .holds, .logA, .logB, .mapLog, .coh, .quince, .pages, .kek, .pipes, .queue, .sieves, .relay, .power, .thermal, .holdup, .fw, .sb, .dbg, .nor] s (execUeFound island asker addr row flit site s) := by
  have h₀ := Keeps.refl [.rnd, .supply, .modes, .spares, .counts, .ports, .sessions, .closed, .ctxs, .nextId, .kept, .held, .sent, .locks, .marks, .logs, .owners, .keyspaces, .entries, .groups, .extents, .fineNext, .eraseSets, .heat, .cache, .holds, .logA, .logB, .mapLog, .coh, .quince, .pages, .kek, .pipes, .queue, .sieves, .relay, .power, .thermal, .holdup, .fw, .sb, .dbg, .nor] s
  have hw : Part.sub [.rnd, .supply, .modes, .spares, .counts, .ports, .sessions, .closed, .ctxs, .nextId, .kept, .held, .sent, .locks, .marks, .logs, .owners, .keyspaces, .entries, .groups, .extents, .fineNext, .eraseSets, .heat, .cache, .holds, .logA, .logB, .mapLog, .coh, .quince, .pages, .kek, .pipes, .queue, .sieves, .relay, .power, .thermal, .holdup, .fw, .sb, .dbg, .nor] [.rnd, .supply, .modes, .spares, .counts, .ports, .sessions, .closed, .ctxs, .nextId, .kept, .held, .sent, .locks, .marks, .logs, .owners, .keyspaces, .entries, .groups, .extents, .fineNext, .eraseSets, .heat, .cache, .holds, .logA, .logB, .mapLog, .coh, .quince, .pages, .kek, .pipes, .queue, .sieves, .relay, .power, .thermal, .holdup, .fw, .sb, .dbg, .nor] = true := by decide
  unfold execUeFound
  try dsimp only
  repeat' first
    | with_reducible assumption
    | with_reducible apply KeepsO.next
    | with_reducible apply KeepsO.ite
    | with_reducible apply Keeps.ite
    | with_reducible apply relaySettle_keeps
    | with_reducible apply ueEffect_keeps
    | with_reducible apply ueRecord_keeps
    | with_reducible exact Part.sub_trans hw (by decide)
    | split
    | (refine Keeps.mk_of rfl ?_; first | with_reducible assumption | with_reducible apply KeepsO.next | with_reducible apply KeepsO.ite | with_reducible apply Keeps.ite | with_reducible apply relaySettle_keeps | with_reducible apply ueEffect_keeps | with_reducible apply ueRecord_keeps | with_reducible exact Part.sub_trans hw (by decide))

theorem execRepairComplete_keeps {s : State} (unit : Nat) (readable : Bool) :
    KeepsO [.rnd, .supply, .modes, .spares, .counts, .ports, .sessions, .closed, .ctxs, .nextId, .kept, .held, .sent, .locks, .marks, .logs, .owners, .keyspaces, .entries, .groups, .extents, .fineNext, .eraseSets, .heat, .cache, .holds, .logA, .logB, .mapLog, .coh, .quince, .pages, .kek, .pipes, .queue, .sieves, .relay, .power, .thermal, .holdup, .fw, .sb, .dbg, .nor] s (execRepairComplete unit readable s) := by
  have h₀ := Keeps.refl [.rnd, .supply, .modes, .spares, .counts, .ports, .sessions, .closed, .ctxs, .nextId, .kept, .held, .sent, .locks, .marks, .logs, .owners, .keyspaces, .entries, .groups, .extents, .fineNext, .eraseSets, .heat, .cache, .holds, .logA, .logB, .mapLog, .coh, .quince, .pages, .kek, .pipes, .queue, .sieves, .relay, .power, .thermal, .holdup, .fw, .sb, .dbg, .nor] s
  have hw : Part.sub [.rnd, .supply, .modes, .spares, .counts, .ports, .sessions, .closed, .ctxs, .nextId, .kept, .held, .sent, .locks, .marks, .logs, .owners, .keyspaces, .entries, .groups, .extents, .fineNext, .eraseSets, .heat, .cache, .holds, .logA, .logB, .mapLog, .coh, .quince, .pages, .kek, .pipes, .queue, .sieves, .relay, .power, .thermal, .holdup, .fw, .sb, .dbg, .nor] [.rnd, .supply, .modes, .spares, .counts, .ports, .sessions, .closed, .ctxs, .nextId, .kept, .held, .sent, .locks, .marks, .logs, .owners, .keyspaces, .entries, .groups, .extents, .fineNext, .eraseSets, .heat, .cache, .holds, .logA, .logB, .mapLog, .coh, .quince, .pages, .kek, .pipes, .queue, .sieves, .relay, .power, .thermal, .holdup, .fw, .sb, .dbg, .nor] = true := by decide
  unfold execRepairComplete
  try dsimp only
  repeat' first
    | with_reducible assumption
    | with_reducible apply KeepsO.next
    | with_reducible apply KeepsO.ite
    | with_reducible apply Keeps.ite
    | with_reducible apply homes_keeps
    | with_reducible apply repaired_keeps
    | with_reducible apply restart_keeps
    | with_reducible apply settle_keeps
    | with_reducible apply spareRow_keeps
    | with_reducible exact Part.sub_trans hw (by decide)
    | split
    | (refine Keeps.mk_of rfl ?_; first | with_reducible assumption | with_reducible apply KeepsO.next | with_reducible apply KeepsO.ite | with_reducible apply Keeps.ite | with_reducible apply homes_keeps | with_reducible apply repaired_keeps | with_reducible apply restart_keeps | with_reducible apply settle_keeps | with_reducible apply spareRow_keeps | with_reducible exact Part.sub_trans hw (by decide))

theorem execCodeTrap_keeps {s : State} (island addr : Nat) (held : List Nat) :
    KeepsO [.rnd, .supply, .modes, .spares, .counts, .ports, .sessions, .closed, .ctxs, .nextId, .kept, .held, .sent, .locks, .marks, .logs, .owners, .keyspaces, .entries, .groups, .extents, .fineNext, .eraseSets, .heat, .cache, .holds, .logA, .logB, .mapLog, .coh, .quince, .pages, .kek, .pipes, .queue, .sieves, .relay, .power, .thermal, .holdup, .fw, .sb, .dbg, .nor] s (execCodeTrap island addr held s) := by
  have h₀ := Keeps.refl [.rnd, .supply, .modes, .spares, .counts, .ports, .sessions, .closed, .ctxs, .nextId, .kept, .held, .sent, .locks, .marks, .logs, .owners, .keyspaces, .entries, .groups, .extents, .fineNext, .eraseSets, .heat, .cache, .holds, .logA, .logB, .mapLog, .coh, .quince, .pages, .kek, .pipes, .queue, .sieves, .relay, .power, .thermal, .holdup, .fw, .sb, .dbg, .nor] s
  have hw : Part.sub [.rnd, .supply, .modes, .spares, .counts, .ports, .sessions, .closed, .ctxs, .nextId, .kept, .held, .sent, .locks, .marks, .logs, .owners, .keyspaces, .entries, .groups, .extents, .fineNext, .eraseSets, .heat, .cache, .holds, .logA, .logB, .mapLog, .coh, .quince, .pages, .kek, .pipes, .queue, .sieves, .relay, .power, .thermal, .holdup, .fw, .sb, .dbg, .nor] [.rnd, .supply, .modes, .spares, .counts, .ports, .sessions, .closed, .ctxs, .nextId, .kept, .held, .sent, .locks, .marks, .logs, .owners, .keyspaces, .entries, .groups, .extents, .fineNext, .eraseSets, .heat, .cache, .holds, .logA, .logB, .mapLog, .coh, .quince, .pages, .kek, .pipes, .queue, .sieves, .relay, .power, .thermal, .holdup, .fw, .sb, .dbg, .nor] = true := by decide
  unfold execCodeTrap
  try dsimp only
  repeat' first
    | with_reducible assumption
    | with_reducible apply KeepsO.next
    | with_reducible apply KeepsO.ite
    | with_reducible apply Keeps.ite
    | with_reducible apply activeFails_keeps
    | with_reducible apply failIsland_keeps
    | with_reducible apply relaySettle_keeps
    | with_reducible apply restart_keeps
    | with_reducible apply selftestFault_keeps
    | with_reducible apply standbyFails_keeps
    | with_reducible apply ueRecord_keeps
    | with_reducible exact Part.sub_trans hw (by decide)
    | split
    | (refine Keeps.mk_of rfl ?_; first | with_reducible assumption | with_reducible apply KeepsO.next | with_reducible apply KeepsO.ite | with_reducible apply Keeps.ite | with_reducible apply activeFails_keeps | with_reducible apply failIsland_keeps | with_reducible apply relaySettle_keeps | with_reducible apply restart_keeps | with_reducible apply selftestFault_keeps | with_reducible apply standbyFails_keeps | with_reducible apply ueRecord_keeps | with_reducible exact Part.sub_trans hw (by decide))

theorem execCodeBankReloaded_keeps {s : State} (island : Nat) :
    KeepsO [.spares] s (execCodeBankReloaded island s) := by
  have h₀ := Keeps.refl [.spares] s
  have hw : Part.sub [.spares] [.spares] = true := by decide
  unfold execCodeBankReloaded
  try dsimp only
  repeat' first
    | with_reducible assumption
    | with_reducible apply KeepsO.next
    | with_reducible apply KeepsO.ite
    | split
    | (refine Keeps.mk_of rfl ?_; first | with_reducible assumption | with_reducible apply KeepsO.next | with_reducible apply KeepsO.ite)

theorem overrun_keeps {ws : List Part} {s₀ s : State} (h₀ : Keeps ws s₀ s) (island : Nat) (x : Ctx)
    (hw : Part.sub [.counts, .ports, .sessions, .ctxs, .nextId, .kept, .held, .sent, .locks, .logs, .keyspaces, .quince, .pages, .pipes, .queue, .relay, .power, .sb, .dbg] ws = true) : Keeps ws s₀ (State.overrun s island x) := by
  unfold State.overrun
  try dsimp only
  repeat' first
    | with_reducible assumption
    | with_reducible apply deviceEnd_keeps
    | with_reducible apply logEvent_keeps
    | with_reducible exact Part.sub_trans hw (by decide)
    | split
    | (refine Keeps.mk_of rfl ?_; first | with_reducible assumption | with_reducible apply deviceEnd_keeps | with_reducible apply logEvent_keeps | with_reducible exact Part.sub_trans hw (by decide))

theorem execProgressScan_keeps {s : State} (island : Nat) :
    KeepsO [.rnd, .counts, .ports, .sessions, .ctxs, .nextId, .kept, .held, .sent, .locks, .marks, .logs, .owners, .keyspaces, .groups, .extents, .fineNext, .heat, .holds, .mapLog, .quince, .pages, .pipes, .queue, .relay, .power, .fw, .sb, .dbg] s (execProgressScan island s) := by
  have h₀ := Keeps.refl [.rnd, .counts, .ports, .sessions, .ctxs, .nextId, .kept, .held, .sent, .locks, .marks, .logs, .owners, .keyspaces, .groups, .extents, .fineNext, .heat, .holds, .mapLog, .quince, .pages, .pipes, .queue, .relay, .power, .fw, .sb, .dbg] s
  have hw : Part.sub [.rnd, .counts, .ports, .sessions, .ctxs, .nextId, .kept, .held, .sent, .locks, .marks, .logs, .owners, .keyspaces, .groups, .extents, .fineNext, .heat, .holds, .mapLog, .quince, .pages, .pipes, .queue, .relay, .power, .fw, .sb, .dbg] [.rnd, .counts, .ports, .sessions, .ctxs, .nextId, .kept, .held, .sent, .locks, .marks, .logs, .owners, .keyspaces, .groups, .extents, .fineNext, .heat, .holds, .mapLog, .quince, .pages, .pipes, .queue, .relay, .power, .fw, .sb, .dbg] = true := by decide
  unfold execProgressScan
  try dsimp only
  repeat' first
    | with_reducible assumption
    | with_reducible apply KeepsO.next
    | with_reducible apply KeepsO.ite
    | with_reducible apply Keeps.ite
    | (with_reducible refine Keeps.foldl ?_ (fun _ _ _ => ?_))
    | with_reducible apply overrun_keeps
    | with_reducible apply relaySettle_keeps
    | with_reducible apply selftestFault_keeps
    | with_reducible exact Part.sub_trans hw (by decide)
    | split
    | (refine Keeps.mk_of rfl ?_; first | with_reducible assumption | with_reducible apply KeepsO.next | with_reducible apply KeepsO.ite | with_reducible apply Keeps.ite | (with_reducible refine Keeps.foldl ?_ (fun _ _ _ => ?_)) | with_reducible apply overrun_keeps | with_reducible apply relaySettle_keeps | with_reducible apply selftestFault_keeps | with_reducible exact Part.sub_trans hw (by decide))

theorem execIslandReload_keeps {s : State} (island : Nat) (ok : Bool) :
    KeepsO [.rnd, .supply, .modes, .spares, .counts, .ports, .sessions, .closed, .ctxs, .nextId, .kept, .held, .sent, .locks, .marks, .logs, .owners, .keyspaces, .entries, .groups, .extents, .fineNext, .eraseSets, .heat, .cache, .holds, .logA, .logB, .mapLog, .coh, .quince, .pages, .kek, .pipes, .queue, .sieves, .relay, .power, .thermal, .holdup, .fw, .sb, .dbg, .nor] s (execIslandReload island ok s) := by
  have h₀ := Keeps.refl [.rnd, .supply, .modes, .spares, .counts, .ports, .sessions, .closed, .ctxs, .nextId, .kept, .held, .sent, .locks, .marks, .logs, .owners, .keyspaces, .entries, .groups, .extents, .fineNext, .eraseSets, .heat, .cache, .holds, .logA, .logB, .mapLog, .coh, .quince, .pages, .kek, .pipes, .queue, .sieves, .relay, .power, .thermal, .holdup, .fw, .sb, .dbg, .nor] s
  have hw : Part.sub [.rnd, .supply, .modes, .spares, .counts, .ports, .sessions, .closed, .ctxs, .nextId, .kept, .held, .sent, .locks, .marks, .logs, .owners, .keyspaces, .entries, .groups, .extents, .fineNext, .eraseSets, .heat, .cache, .holds, .logA, .logB, .mapLog, .coh, .quince, .pages, .kek, .pipes, .queue, .sieves, .relay, .power, .thermal, .holdup, .fw, .sb, .dbg, .nor] [.rnd, .supply, .modes, .spares, .counts, .ports, .sessions, .closed, .ctxs, .nextId, .kept, .held, .sent, .locks, .marks, .logs, .owners, .keyspaces, .entries, .groups, .extents, .fineNext, .eraseSets, .heat, .cache, .holds, .logA, .logB, .mapLog, .coh, .quince, .pages, .kek, .pipes, .queue, .sieves, .relay, .power, .thermal, .holdup, .fw, .sb, .dbg, .nor] = true := by decide
  unfold execIslandReload
  try dsimp only
  repeat' first
    | with_reducible assumption
    | with_reducible apply KeepsO.next
    | with_reducible apply KeepsO.ite
    | with_reducible apply Keeps.ite
    | with_reducible apply failIsland_keeps
    | with_reducible apply relaySettle_keeps
    | with_reducible apply reloadEnd_keeps
    | with_reducible apply rotateRole_keeps
    | with_reducible apply startFallback_keeps
    | with_reducible exact Part.sub_trans hw (by decide)
    | split
    | (refine Keeps.mk_of rfl ?_; first | with_reducible assumption | with_reducible apply KeepsO.next | with_reducible apply KeepsO.ite | with_reducible apply Keeps.ite | with_reducible apply failIsland_keeps | with_reducible apply relaySettle_keeps | with_reducible apply reloadEnd_keeps | with_reducible apply rotateRole_keeps | with_reducible apply startFallback_keeps | with_reducible exact Part.sub_trans hw (by decide))

end Sys2Proof.Machine
end

