-- ==== Sys2Proof/Laws/KeepsPower.lean ====
section
/-! SUPPORT. Which parts of the state each operation of Machine/Power.lean may change. -/

set_option Elab.async false

namespace Sys2Proof.Machine

theorem execIdleTimer_keeps {s : State} (target : Nat) :
    KeepsO [.groups, .logA, .logB, .mapLog, .power, .dbg] s (execIdleTimer target s) := by
  have h₀ := Keeps.refl [.groups, .logA, .logB, .mapLog, .power, .dbg] s
  have hw : Part.sub [.groups, .logA, .logB, .mapLog, .power, .dbg] [.groups, .logA, .logB, .mapLog, .power, .dbg] = true := by decide
  unfold execIdleTimer
  try dsimp only
  repeat' first
    | with_reducible assumption
    | with_reducible apply KeepsO.next
    | with_reducible apply KeepsO.ite
    | with_reducible apply Keeps.ite
    | with_reducible apply closeParity_keeps
    | with_reducible apply deepen_keeps
    | with_reducible apply flushLogs_keeps
    | with_reducible exact Part.sub_trans hw (by decide)
    | split
    | (refine Keeps.mk_of rfl ?_; first | with_reducible assumption | with_reducible apply KeepsO.next | with_reducible apply KeepsO.ite | with_reducible apply Keeps.ite | with_reducible apply closeParity_keeps | with_reducible apply deepen_keeps | with_reducible apply flushLogs_keeps | with_reducible exact Part.sub_trans hw (by decide))

theorem execPowerExitComplete_keeps {s : State}  :
    KeepsO [.rnd, .power, .dbg] s (execPowerExitComplete s) := by
  have h₀ := Keeps.refl [.rnd, .power, .dbg] s
  have hw : Part.sub [.rnd, .power, .dbg] [.rnd, .power, .dbg] = true := by decide
  unfold execPowerExitComplete
  try dsimp only
  repeat' first
    | with_reducible assumption
    | with_reducible apply KeepsO.next
    | with_reducible apply KeepsO.ite
    | with_reducible apply Keeps.ite
    | with_reducible apply shallower_keeps
    | with_reducible exact Part.sub_trans hw (by decide)
    | split
    | (refine Keeps.mk_of rfl ?_; first | with_reducible assumption | with_reducible apply KeepsO.next | with_reducible apply KeepsO.ite | with_reducible apply Keeps.ite | with_reducible apply shallower_keeps | with_reducible exact Part.sub_trans hw (by decide))

theorem execDramSelfRefresh_keeps {s : State} (channel : Nat) :
    KeepsO [.power] s (execDramSelfRefresh channel s) := by
  have h₀ := Keeps.refl [.power] s
  have hw : Part.sub [.power] [.power] = true := by decide
  unfold execDramSelfRefresh
  try dsimp only
  repeat' first
    | with_reducible assumption
    | with_reducible apply KeepsO.next
    | with_reducible apply KeepsO.ite
    | with_reducible apply Keeps.ite
    | split
    | (refine Keeps.mk_of rfl ?_; first | with_reducible assumption | with_reducible apply KeepsO.next | with_reducible apply KeepsO.ite | with_reducible apply Keeps.ite)

theorem throttle_keeps {ws : List Part} {s₀ s : State} (h₀ : Keeps ws s₀ s) 
    (hw : Part.sub [.rnd, .counts, .ports, .sessions, .ctxs, .nextId, .kept, .held, .sent, .locks, .marks, .logs, .owners, .keyspaces, .groups, .extents, .fineNext, .heat, .holds, .mapLog, .quince, .pages, .pipes, .queue, .sieves, .relay, .power, .thermal, .sb, .dbg] ws = true) : Keeps ws s₀ (State.throttle s) := by
  unfold State.throttle
  try dsimp only
  repeat' first
    | with_reducible assumption
    | with_reducible apply Keeps.ite
    | (with_reducible refine Keeps.foldl ?_ (fun _ _ _ => ?_))
    | with_reducible apply alert_keeps
    | with_reducible apply logEvent_keeps
    | with_reducible apply pairRun_keeps
    | with_reducible apply relaySettle_keeps
    | with_reducible apply startExit_keeps
    | with_reducible exact Part.sub_trans hw (by decide)
    | with_reducible apply settleScan_keeps
    | split
    | (refine Keeps.mk_of rfl ?_; first | with_reducible assumption | with_reducible apply settleScan_keeps | with_reducible apply Keeps.ite | (with_reducible refine Keeps.foldl ?_ (fun _ _ _ => ?_)) | with_reducible apply alert_keeps | with_reducible apply logEvent_keeps | with_reducible apply pairRun_keeps | with_reducible apply relaySettle_keeps | with_reducible apply startExit_keeps | with_reducible exact Part.sub_trans hw (by decide))

theorem execThermalSample_keeps {s : State} (readings : List Int) :
    KeepsO [.rnd, .counts, .ports, .sessions, .ctxs, .nextId, .kept, .held, .sent, .locks, .marks, .logs, .owners, .keyspaces, .groups, .extents, .fineNext, .heat, .holds, .mapLog, .quince, .pages, .pipes, .queue, .sieves, .relay, .power, .thermal, .sb, .dbg] s (execThermalSample readings s) := by
  have h₀ := Keeps.refl [.rnd, .counts, .ports, .sessions, .ctxs, .nextId, .kept, .held, .sent, .locks, .marks, .logs, .owners, .keyspaces, .groups, .extents, .fineNext, .heat, .holds, .mapLog, .quince, .pages, .pipes, .queue, .sieves, .relay, .power, .thermal, .sb, .dbg] s
  have hw : Part.sub [.rnd, .counts, .ports, .sessions, .ctxs, .nextId, .kept, .held, .sent, .locks, .marks, .logs, .owners, .keyspaces, .groups, .extents, .fineNext, .heat, .holds, .mapLog, .quince, .pages, .pipes, .queue, .sieves, .relay, .power, .thermal, .sb, .dbg] [.rnd, .counts, .ports, .sessions, .ctxs, .nextId, .kept, .held, .sent, .locks, .marks, .logs, .owners, .keyspaces, .groups, .extents, .fineNext, .heat, .holds, .mapLog, .quince, .pages, .pipes, .queue, .sieves, .relay, .power, .thermal, .sb, .dbg] = true := by decide
  unfold execThermalSample
  try dsimp only
  repeat' first
    | with_reducible assumption
    | with_reducible apply KeepsO.next
    | with_reducible apply KeepsO.ite
    | with_reducible apply Keeps.ite
    | with_reducible apply throttle_keeps
    | with_reducible apply watch_keeps
    | with_reducible exact Part.sub_trans hw (by decide)
    | split
    | (refine Keeps.mk_of rfl ?_; first | with_reducible assumption | with_reducible apply KeepsO.next | with_reducible apply KeepsO.ite | with_reducible apply Keeps.ite | with_reducible apply throttle_keeps | with_reducible apply watch_keeps | with_reducible exact Part.sub_trans hw (by decide))

theorem execTemperatureHistorySample_keeps {s : State}  :
    KeepsO [.thermal] s (execTemperatureHistorySample s) := by
  have h₀ := Keeps.refl [.thermal] s
  have hw : Part.sub [.thermal] [.thermal] = true := by decide
  unfold execTemperatureHistorySample
  try dsimp only
  repeat' first
    | with_reducible assumption
    | with_reducible apply KeepsO.next
    | with_reducible apply KeepsO.ite
    | with_reducible apply Keeps.ite
    | (with_reducible refine Keeps.foldl ?_ (fun _ _ _ => ?_))
    | split
    | (refine Keeps.mk_of rfl ?_; first | with_reducible assumption | with_reducible apply KeepsO.next | with_reducible apply KeepsO.ite | with_reducible apply Keeps.ite | (with_reducible refine Keeps.foldl ?_ (fun _ _ _ => ?_)))

theorem failSection_keeps {ws : List Part} {s₀ s : State} (h₀ : Keeps ws s₀ s) (i : Nat)
    (hw : Part.sub [.rnd, .modes, .counts, .ports, .sessions, .ctxs, .nextId, .kept, .held, .sent, .locks, .logs, .keyspaces, .quince, .pages, .pipes, .queue, .sieves, .relay, .power, .holdup, .sb, .dbg, .nor] ws = true) : Keeps ws s₀ (State.failSection s i) := by
  unfold State.failSection
  try dsimp only
  repeat' first
    | with_reducible assumption
    | with_reducible apply Keeps.ite
    | with_reducible apply freeze_keeps
    | with_reducible apply spareNotice_keeps
    | with_reducible exact Part.sub_trans hw (by decide)
    | split
    | (refine Keeps.mk_of rfl ?_; first | with_reducible assumption | with_reducible apply Keeps.ite | with_reducible apply freeze_keeps | with_reducible apply spareNotice_keeps | with_reducible exact Part.sub_trans hw (by decide))

theorem execSectionFail_keeps {s : State} (sectionNo : Nat) :
    KeepsO [.rnd, .modes, .counts, .ports, .sessions, .ctxs, .nextId, .kept, .held, .sent, .locks, .marks, .logs, .keyspaces, .quince, .pages, .pipes, .queue, .sieves, .relay, .power, .holdup, .sb, .dbg, .nor] s (execSectionFail sectionNo s) := by
  have h₀ := Keeps.refl [.rnd, .modes, .counts, .ports, .sessions, .ctxs, .nextId, .kept, .held, .sent, .locks, .marks, .logs, .keyspaces, .quince, .pages, .pipes, .queue, .sieves, .relay, .power, .holdup, .sb, .dbg, .nor] s
  have hw : Part.sub [.rnd, .modes, .counts, .ports, .sessions, .ctxs, .nextId, .kept, .held, .sent, .locks, .marks, .logs, .keyspaces, .quince, .pages, .pipes, .queue, .sieves, .relay, .power, .holdup, .sb, .dbg, .nor] [.rnd, .modes, .counts, .ports, .sessions, .ctxs, .nextId, .kept, .held, .sent, .locks, .marks, .logs, .keyspaces, .quince, .pages, .pipes, .queue, .sieves, .relay, .power, .holdup, .sb, .dbg, .nor] = true := by decide
  unfold execSectionFail
  try dsimp only
  repeat' first
    | with_reducible assumption
    | with_reducible apply KeepsO.next
    | with_reducible apply KeepsO.ite
    | with_reducible apply Keeps.ite
    | with_reducible apply failSection_keeps
    | with_reducible apply watch_keeps
    | with_reducible exact Part.sub_trans hw (by decide)
    | split
    | (refine Keeps.mk_of rfl ?_; first | with_reducible assumption | with_reducible apply KeepsO.next | with_reducible apply KeepsO.ite | with_reducible apply Keeps.ite | with_reducible apply failSection_keeps | with_reducible apply watch_keeps | with_reducible exact Part.sub_trans hw (by decide))

theorem execHoldupTestStart_keeps {s : State}  :
    KeepsO [.holdup] s (execHoldupTestStart s) := by
  have h₀ := Keeps.refl [.holdup] s
  have hw : Part.sub [.holdup] [.holdup] = true := by decide
  unfold execHoldupTestStart
  try dsimp only
  repeat' first
    | with_reducible assumption
    | with_reducible apply KeepsO.next
    | with_reducible apply KeepsO.ite
    | with_reducible apply Keeps.ite
    | with_reducible apply startTest_keeps
    | with_reducible exact Part.sub_trans hw (by decide)
    | split
    | (refine Keeps.mk_of rfl ?_; first | with_reducible assumption | with_reducible apply KeepsO.next | with_reducible apply KeepsO.ite | with_reducible apply Keeps.ite | with_reducible apply startTest_keeps | with_reducible exact Part.sub_trans hw (by decide))

theorem execHoldupTest_keeps {s : State} (result : BankTest) :
    KeepsO [.rnd, .modes, .counts, .ports, .sessions, .ctxs, .nextId, .kept, .held, .sent, .locks, .marks, .logs, .keyspaces, .quince, .pages, .pipes, .queue, .sieves, .relay, .power, .holdup, .sb, .dbg, .nor] s (execHoldupTest result s) := by
  have h₀ := Keeps.refl [.rnd, .modes, .counts, .ports, .sessions, .ctxs, .nextId, .kept, .held, .sent, .locks, .marks, .logs, .keyspaces, .quince, .pages, .pipes, .queue, .sieves, .relay, .power, .holdup, .sb, .dbg, .nor] s
  have hw : Part.sub [.rnd, .modes, .counts, .ports, .sessions, .ctxs, .nextId, .kept, .held, .sent, .locks, .marks, .logs, .keyspaces, .quince, .pages, .pipes, .queue, .sieves, .relay, .power, .holdup, .sb, .dbg, .nor] [.rnd, .modes, .counts, .ports, .sessions, .ctxs, .nextId, .kept, .held, .sent, .locks, .marks, .logs, .keyspaces, .quince, .pages, .pipes, .queue, .sieves, .relay, .power, .holdup, .sb, .dbg, .nor] = true := by decide
  unfold execHoldupTest
  try dsimp only
  repeat' first
    | with_reducible assumption
    | with_reducible apply KeepsO.next
    | with_reducible apply KeepsO.ite
    | with_reducible apply Keeps.ite
    | (with_reducible refine Keeps.foldl ?_ (fun _ _ _ => ?_))
    | with_reducible apply failSection_keeps
    | with_reducible apply freeze_keeps
    | with_reducible apply logEvent_keeps
    | with_reducible apply saveSettings_keeps
    | with_reducible apply watch_keeps
    | with_reducible exact Part.sub_trans hw (by decide)
    | split
    | (refine Keeps.mk_of rfl ?_; first | with_reducible assumption | with_reducible apply KeepsO.next | with_reducible apply KeepsO.ite | with_reducible apply Keeps.ite | (with_reducible refine Keeps.foldl ?_ (fun _ _ _ => ?_)) | with_reducible apply failSection_keeps | with_reducible apply freeze_keeps | with_reducible apply logEvent_keeps | with_reducible apply saveSettings_keeps | with_reducible apply watch_keeps | with_reducible exact Part.sub_trans hw (by decide))

end Sys2Proof.Machine
end

