-- ==== Sys2Proof/Laws/KeepsMedia.lean ====
section
/-! SUPPORT. Which parts of the state each operation of Machine/Media.lean may change. -/

set_option Elab.async false

namespace Sys2Proof.Machine

theorem execQuinceUpdate_keeps {s : State} (bank : Nat) :
    KeepsO [.quince] s (execQuinceUpdate bank s) := by
  have h₀ := Keeps.refl [.quince] s
  have hw : Part.sub [.quince] [.quince] = true := by decide
  unfold execQuinceUpdate
  try dsimp only
  repeat' first
    | with_reducible assumption
    | with_reducible apply KeepsO.next
    | with_reducible apply KeepsO.ite
    | split
    | (refine Keeps.mk_of rfl ?_; first | with_reducible assumption | with_reducible apply KeepsO.next | with_reducible apply KeepsO.ite)

theorem rowReload_keeps {ws : List Part} {s₀ s : State} (h₀ : Keeps ws s₀ s) (bank row : Nat) (cleared : Bool)
    (hw : Part.sub [.counts, .logs, .dbg] ws = true) : Keeps ws s₀ (State.rowReload s bank row cleared) := by
  unfold State.rowReload
  try dsimp only
  repeat' first
    | with_reducible assumption
    | with_reducible apply logEvent_keeps
    | with_reducible exact Part.sub_trans hw (by decide)
    | split
    | (refine Keeps.mk_of rfl ?_; first | with_reducible assumption | with_reducible apply logEvent_keeps | with_reducible exact Part.sub_trans hw (by decide))

theorem execQuinceSweep_keeps {s : State} (bank row : Nat) (upset : Upset) :
    KeepsO [.counts, .logs, .quince, .dbg] s (execQuinceSweep bank row upset s) := by
  have h₀ := Keeps.refl [.counts, .logs, .quince, .dbg] s
  have hw : Part.sub [.counts, .logs, .quince, .dbg] [.counts, .logs, .quince, .dbg] = true := by decide
  unfold execQuinceSweep
  try dsimp only
  repeat' first
    | with_reducible assumption
    | with_reducible apply KeepsO.next
    | with_reducible apply KeepsO.ite
    | with_reducible apply Keeps.ite
    | (with_reducible refine Keeps.foldl ?_ (fun _ _ _ => ?_))
    | with_reducible apply enterWays_keeps
    | with_reducible apply rowReload_keeps
    | with_reducible exact Part.sub_trans hw (by decide)
    | split
    | (refine Keeps.mk_of rfl ?_; first | with_reducible assumption | with_reducible apply KeepsO.next | with_reducible apply KeepsO.ite | with_reducible apply Keeps.ite | (with_reducible refine Keeps.foldl ?_ (fun _ _ _ => ?_)) | with_reducible apply enterWays_keeps | with_reducible apply rowReload_keeps | with_reducible exact Part.sub_trans hw (by decide))

theorem execLogFlush_keeps {s : State} (logB : Bool) :
    KeepsO [.logA, .logB] s (execLogFlush logB s) := by
  have h₀ := Keeps.refl [.logA, .logB] s
  have hw : Part.sub [.logA, .logB] [.logA, .logB] = true := by decide
  unfold execLogFlush
  try dsimp only
  repeat' first
    | with_reducible assumption
    | with_reducible apply KeepsO.next
    | with_reducible apply KeepsO.ite
    | with_reducible apply Keeps.ite
    | split
    | (refine Keeps.mk_of rfl ?_; first | with_reducible assumption | with_reducible apply KeepsO.next | with_reducible apply KeepsO.ite | with_reducible apply Keeps.ite)

theorem execCheckpointWrite_keeps {s : State}  :
    KeepsO [.dirty, .images] s (execCheckpointWrite s) := by
  have h₀ := Keeps.refl [.dirty, .images] s
  have hw : Part.sub [.dirty, .images] [.dirty, .images] = true := by decide
  unfold execCheckpointWrite
  try dsimp only
  repeat' first
    | with_reducible assumption
    | with_reducible apply KeepsO.next
    | with_reducible apply KeepsO.ite
    | with_reducible apply Keeps.ite
    | with_reducible apply writeChunk_keeps
    | with_reducible exact Part.sub_trans hw (by decide)
    | split
    | (refine Keeps.mk_of rfl ?_; first | with_reducible assumption | with_reducible apply KeepsO.next | with_reducible apply KeepsO.ite | with_reducible apply Keeps.ite | with_reducible apply writeChunk_keeps | with_reducible exact Part.sub_trans hw (by decide))

theorem execStripeIdleClose_keeps {s : State} (group : Nat) :
    KeepsO [.groups] s (execStripeIdleClose group s) := by
  have h₀ := Keeps.refl [.groups] s
  have hw : Part.sub [.groups] [.groups] = true := by decide
  unfold execStripeIdleClose
  try dsimp only
  repeat' first
    | with_reducible assumption
    | with_reducible apply KeepsO.next
    | with_reducible apply KeepsO.ite
    | with_reducible apply Keeps.ite
    | with_reducible apply updGroup_keeps
    | with_reducible exact Part.sub_trans hw (by decide)
    | split
    | (refine Keeps.mk_of rfl ?_; first | with_reducible assumption | with_reducible apply KeepsO.next | with_reducible apply KeepsO.ite | with_reducible apply Keeps.ite | with_reducible apply updGroup_keeps | with_reducible exact Part.sub_trans hw (by decide))

theorem execHeatHalving_keeps {s : State}  :
    KeepsO [.heat] s (execHeatHalving s) := by
  have h₀ := Keeps.refl [.heat] s
  have hw : Part.sub [.heat] [.heat] = true := by decide
  unfold execHeatHalving
  try dsimp only
  repeat' first
    | with_reducible assumption
    | with_reducible apply KeepsO.next
    | with_reducible apply KeepsO.ite
    | split
    | (refine Keeps.mk_of rfl ?_; first | with_reducible assumption | with_reducible apply KeepsO.next | with_reducible apply KeepsO.ite)

theorem markWear_keeps {ws : List Part} {s₀ s : State} (h₀ : Keeps ws s₀ s) (o : Nat)
    (hw : Part.sub [.groups] ws = true) : Keeps ws s₀ (State.markWear s o) := by
  unfold State.markWear
  try dsimp only
  repeat' first
    | with_reducible assumption
    | with_reducible apply Keeps.ite
    | with_reducible apply updGroup_keeps
    | with_reducible exact Part.sub_trans hw (by decide)
    | split
    | (refine Keeps.mk_of rfl ?_; first | with_reducible assumption | with_reducible apply Keeps.ite | with_reducible apply updGroup_keeps | with_reducible exact Part.sub_trans hw (by decide))

theorem collect_keeps {ws : List Part} {s₀ s : State} (h₀ : Keeps ws s₀ s) (g : Group)
    (hw : Part.sub [.groups] ws = true) : Keeps ws s₀ (State.collect s g) := by
  unfold State.collect
  try dsimp only
  repeat' first
    | with_reducible assumption
    | with_reducible apply Keeps.ite
    | with_reducible apply closeGroup_keeps
    | with_reducible apply updGroup_keeps
    | with_reducible exact Part.sub_trans hw (by decide)
    | split
    | (refine Keeps.mk_of rfl ?_; first | with_reducible assumption | with_reducible apply Keeps.ite | with_reducible apply closeGroup_keeps | with_reducible apply updGroup_keeps | with_reducible exact Part.sub_trans hw (by decide))

theorem gcOwner_keeps {ws : List Part} {s₀ s : State} (h₀ : Keeps ws s₀ s) (o : Nat)
    (hw : Part.sub [.owners, .groups] ws = true) : Keeps ws s₀ (State.gcOwner s o) := by
  unfold State.gcOwner
  try dsimp only
  repeat' first
    | with_reducible assumption
    | with_reducible apply Keeps.ite
    | with_reducible apply collect_keeps
    | with_reducible apply markWear_keeps
    | with_reducible apply updOwner_keeps
    | with_reducible exact Part.sub_trans hw (by decide)
    | split
    | (refine Keeps.mk_of rfl ?_; first | with_reducible assumption | with_reducible apply Keeps.ite | with_reducible apply collect_keeps | with_reducible apply markWear_keeps | with_reducible apply updOwner_keeps | with_reducible exact Part.sub_trans hw (by decide))

theorem foldOwner_keeps {ws : List Part} {s₀ s : State} (h₀ : Keeps ws s₀ s) (o : Nat)
    (hw : Part.sub [.groups] ws = true) : Keeps ws s₀ (State.foldOwner s o) := by
  unfold State.foldOwner
  try dsimp only
  repeat' first
    | with_reducible assumption
    | with_reducible apply Keeps.ite
    | with_reducible apply collect_keeps
    | with_reducible exact Part.sub_trans hw (by decide)
    | split
    | (refine Keeps.mk_of rfl ?_; first | with_reducible assumption | with_reducible apply Keeps.ite | with_reducible apply collect_keeps | with_reducible exact Part.sub_trans hw (by decide))

theorem moveOne_keeps {ws : List Part} {s₀ s : State} (h₀ : Keeps ws s₀ s) (n : Nat)
    (hw : Part.sub [.counts, .locks, .entries, .recs, .groups, .extents, .fineNext, .stale, .cache, .logA, .logB, .mapLog, .dirty] ws = true) : Keeps ws s₀ (State.moveOne s n) := by
  unfold State.moveOne
  try dsimp only
  repeat' first
    | with_reducible assumption
    | with_reducible apply Keeps.ite
    | with_reducible apply collect_keeps
    | with_reducible apply moveNow_keeps
    | with_reducible exact Part.sub_trans hw (by decide)
    | split
    | (refine Keeps.mk_of rfl ?_; first | with_reducible assumption | with_reducible apply Keeps.ite | with_reducible apply collect_keeps | with_reducible apply moveNow_keeps | with_reducible exact Part.sub_trans hw (by decide))

theorem execGcTick_keeps {s : State}  :
    KeepsO [.counts, .ports, .sessions, .ctxs, .nextId, .kept, .held, .sent, .locks, .marks, .logs, .owners, .keyspaces, .entries, .recs, .groups, .extents, .fineNext, .stale, .heat, .cache, .logA, .logB, .mapLog, .dirty, .quince, .pages, .pipes, .queue, .relay, .power, .sb, .dbg] s (execGcTick s) := by
  have h₀ := Keeps.refl [.counts, .ports, .sessions, .ctxs, .nextId, .kept, .held, .sent, .locks, .marks, .logs, .owners, .keyspaces, .entries, .recs, .groups, .extents, .fineNext, .stale, .heat, .cache, .logA, .logB, .mapLog, .dirty, .quince, .pages, .pipes, .queue, .relay, .power, .sb, .dbg] s
  have hw : Part.sub [.counts, .ports, .sessions, .ctxs, .nextId, .kept, .held, .sent, .locks, .marks, .logs, .owners, .keyspaces, .entries, .recs, .groups, .extents, .fineNext, .stale, .heat, .cache, .logA, .logB, .mapLog, .dirty, .quince, .pages, .pipes, .queue, .relay, .power, .sb, .dbg] [.counts, .ports, .sessions, .ctxs, .nextId, .kept, .held, .sent, .locks, .marks, .logs, .owners, .keyspaces, .entries, .recs, .groups, .extents, .fineNext, .stale, .heat, .cache, .logA, .logB, .mapLog, .dirty, .quince, .pages, .pipes, .queue, .relay, .power, .sb, .dbg] = true := by decide
  unfold execGcTick
  try dsimp only
  repeat' first
    | with_reducible assumption
    | with_reducible apply KeepsO.next
    | with_reducible apply KeepsO.ite
    | with_reducible apply Keeps.ite
    | (with_reducible refine Keeps.foldl ?_ (fun _ _ _ => ?_))
    | with_reducible apply foldOwner_keeps
    | with_reducible apply gcOwner_keeps
    | with_reducible apply moveOne_keeps
    | with_reducible apply settle_keeps
    | with_reducible exact Part.sub_trans hw (by decide)
    | split
    | (refine Keeps.mk_of rfl ?_; first | with_reducible assumption | with_reducible apply KeepsO.next | with_reducible apply KeepsO.ite | with_reducible apply Keeps.ite | (with_reducible refine Keeps.foldl ?_ (fun _ _ _ => ?_)) | with_reducible apply foldOwner_keeps | with_reducible apply gcOwner_keeps | with_reducible apply moveOne_keeps | with_reducible apply settle_keeps | with_reducible exact Part.sub_trans hw (by decide))

theorem eraseGroup_keeps {ws : List Part} {s₀ s : State} (h₀ : Keeps ws s₀ s) (g : Group)
    (hw : Part.sub [.recs, .groups, .wear, .gens, .eraseSets, .stale, .cache, .mapLog] ws = true) : Keeps ws s₀ (State.eraseGroup s g) := by
  unfold State.eraseGroup
  try dsimp only
  repeat' first
    | with_reducible assumption
    | with_reducible apply Keeps.ite
    | with_reducible apply cacheDrop_keeps
    | with_reducible exact Part.sub_trans hw (by decide)
    | split
    | (refine Keeps.mk_of rfl ?_; first | with_reducible assumption | with_reducible apply Keeps.ite | with_reducible apply cacheDrop_keeps | with_reducible exact Part.sub_trans hw (by decide))

theorem execEraseComplete_keeps {s : State} (group : Nat) (failed : List (Nat × Nat)) :
    KeepsO [.rnd, .modes, .spares, .counts, .ports, .sessions, .ctxs, .nextId, .kept, .held, .sent, .locks, .marks, .logs, .owners, .keyspaces, .recs, .groups, .extents, .fineNext, .wear, .gens, .eraseSets, .stale, .heat, .cache, .mapLog, .quince, .pages, .pipes, .queue, .sieves, .relay, .power, .sb, .dbg, .nor] s (execEraseComplete group failed s) := by
  have h₀ := Keeps.refl [.rnd, .modes, .spares, .counts, .ports, .sessions, .ctxs, .nextId, .kept, .held, .sent, .locks, .marks, .logs, .owners, .keyspaces, .recs, .groups, .extents, .fineNext, .wear, .gens, .eraseSets, .stale, .heat, .cache, .mapLog, .quince, .pages, .pipes, .queue, .sieves, .relay, .power, .sb, .dbg, .nor] s
  have hw : Part.sub [.rnd, .modes, .spares, .counts, .ports, .sessions, .ctxs, .nextId, .kept, .held, .sent, .locks, .marks, .logs, .owners, .keyspaces, .recs, .groups, .extents, .fineNext, .wear, .gens, .eraseSets, .stale, .heat, .cache, .mapLog, .quince, .pages, .pipes, .queue, .sieves, .relay, .power, .sb, .dbg, .nor] [.rnd, .modes, .spares, .counts, .ports, .sessions, .ctxs, .nextId, .kept, .held, .sent, .locks, .marks, .logs, .owners, .keyspaces, .recs, .groups, .extents, .fineNext, .wear, .gens, .eraseSets, .stale, .heat, .cache, .mapLog, .quince, .pages, .pipes, .queue, .sieves, .relay, .power, .sb, .dbg, .nor] = true := by decide
  unfold execEraseComplete
  try dsimp only
  repeat' first
    | with_reducible assumption
    | with_reducible apply KeepsO.next
    | with_reducible apply KeepsO.ite
    | with_reducible apply Keeps.ite
    | (with_reducible refine Keeps.foldl ?_ (fun _ _ _ => ?_))
    | with_reducible apply eraseGroup_keeps
    | with_reducible apply eraseSetsDone_keeps
    | with_reducible apply passSets_keeps
    | with_reducible apply retireBlock_keeps
    | with_reducible apply retrySpace_keeps
    | with_reducible apply settle_keeps
    | with_reducible exact Part.sub_trans hw (by decide)
    | split
    | (refine Keeps.mk_of rfl ?_; first | with_reducible assumption | with_reducible apply KeepsO.next | with_reducible apply KeepsO.ite | with_reducible apply Keeps.ite | (with_reducible refine Keeps.foldl ?_ (fun _ _ _ => ?_)) | with_reducible apply eraseGroup_keeps | with_reducible apply eraseSetsDone_keeps | with_reducible apply passSets_keeps | with_reducible apply retireBlock_keeps | with_reducible apply retrySpace_keeps | with_reducible apply settle_keeps | with_reducible exact Part.sub_trans hw (by decide))

theorem patrolMove_keeps {ws : List Part} {s₀ s : State} (h₀ : Keeps ws s₀ s) (g : Group) (page : Nat) (o : ReadOutcome)
    (hw : Part.sub [.counts, .locks, .logs, .entries, .recs, .groups, .extents, .fineNext, .stale, .cache, .logA, .logB, .mapLog, .dirty, .patrolMoved, .dbg] ws = true) : Keeps ws s₀ (State.patrolMove s g page o) := by
  unfold State.patrolMove
  try dsimp only
  repeat' first
    | with_reducible assumption
    | with_reducible apply Keeps.ite
    | (with_reducible refine Keeps.foldl ?_ (fun _ _ _ => ?_))
    | with_reducible apply markRefresh_keeps
    | with_reducible apply moveNow_keeps
    | with_reducible apply poisonRec_keeps
    | with_reducible apply readRec_keeps
    | with_reducible apply updGroup_keeps
    | with_reducible exact Part.sub_trans hw (by decide)
    | split
    | (refine Keeps.mk_of rfl ?_; first | with_reducible assumption | with_reducible apply Keeps.ite | (with_reducible refine Keeps.foldl ?_ (fun _ _ _ => ?_)) | with_reducible apply markRefresh_keeps | with_reducible apply moveNow_keeps | with_reducible apply poisonRec_keeps | with_reducible apply readRec_keeps | with_reducible apply updGroup_keeps | with_reducible exact Part.sub_trans hw (by decide))

theorem patrolEnd_keeps {ws : List Part} {s₀ s : State} (h₀ : Keeps ws s₀ s) 
    (hw : Part.sub [.logs, .groups, .patrolAt, .patrolMoved, .cycleHours, .dbg] ws = true) : Keeps ws s₀ (State.patrolEnd s) := by
  unfold State.patrolEnd
  try dsimp only
  repeat' first
    | with_reducible assumption
    | with_reducible apply logEvent_keeps
    | with_reducible exact Part.sub_trans hw (by decide)
    | split
    | (refine Keeps.mk_of rfl ?_; first | with_reducible assumption | with_reducible apply logEvent_keeps | with_reducible exact Part.sub_trans hw (by decide))

theorem execPatrolStep_keeps {s : State} (group page : Nat) (finding : PatrolFinding) :
    KeepsO [.counts, .ports, .sessions, .ctxs, .nextId, .kept, .held, .sent, .locks, .marks, .logs, .owners, .keyspaces, .entries, .recs, .groups, .extents, .fineNext, .stale, .heat, .cache, .logA, .logB, .mapLog, .dirty, .patrolAt, .patrolMoved, .cycleHours, .quince, .pages, .pipes, .queue, .relay, .power, .sb, .dbg] s (execPatrolStep group page finding s) := by
  have h₀ := Keeps.refl [.counts, .ports, .sessions, .ctxs, .nextId, .kept, .held, .sent, .locks, .marks, .logs, .owners, .keyspaces, .entries, .recs, .groups, .extents, .fineNext, .stale, .heat, .cache, .logA, .logB, .mapLog, .dirty, .patrolAt, .patrolMoved, .cycleHours, .quince, .pages, .pipes, .queue, .relay, .power, .sb, .dbg] s
  have hw : Part.sub [.counts, .ports, .sessions, .ctxs, .nextId, .kept, .held, .sent, .locks, .marks, .logs, .owners, .keyspaces, .entries, .recs, .groups, .extents, .fineNext, .stale, .heat, .cache, .logA, .logB, .mapLog, .dirty, .patrolAt, .patrolMoved, .cycleHours, .quince, .pages, .pipes, .queue, .relay, .power, .sb, .dbg] [.counts, .ports, .sessions, .ctxs, .nextId, .kept, .held, .sent, .locks, .marks, .logs, .owners, .keyspaces, .entries, .recs, .groups, .extents, .fineNext, .stale, .heat, .cache, .logA, .logB, .mapLog, .dirty, .patrolAt, .patrolMoved, .cycleHours, .quince, .pages, .pipes, .queue, .relay, .power, .sb, .dbg] = true := by decide
  unfold execPatrolStep
  try dsimp only
  repeat' first
    | with_reducible assumption
    | with_reducible apply KeepsO.next
    | with_reducible apply KeepsO.ite
    | with_reducible apply Keeps.ite
    | with_reducible apply patrolEnd_keeps
    | with_reducible apply patrolMove_keeps
    | with_reducible apply settle_keeps
    | with_reducible apply startExit_keeps
    | with_reducible exact Part.sub_trans hw (by decide)
    | split
    | (refine Keeps.mk_of rfl ?_; first | with_reducible assumption | with_reducible apply KeepsO.next | with_reducible apply KeepsO.ite | with_reducible apply Keeps.ite | with_reducible apply patrolEnd_keeps | with_reducible apply patrolMove_keeps | with_reducible apply settle_keeps | with_reducible apply startExit_keeps | with_reducible exact Part.sub_trans hw (by decide))

theorem reseal_keeps {ws : List Part} {s₀ s : State} (h₀ : Keeps ws s₀ s) (p : KeyPage) (w : Sweep) (r : Rec) (readable : Bool)
    (hw : Part.sub [.counts, .ports, .sessions, .nextId, .kept, .held, .sent, .logs, .keyspaces, .entries, .recs, .groups, .extents, .fineNext, .stale, .cache, .logA, .logB, .mapLog, .dirty, .pages, .power] ws = true) : Keeps ws s₀ (State.reseal s p w r readable) := by
  unfold State.reseal
  try dsimp only
  repeat' first
    | with_reducible assumption
    | with_reducible apply keyEvents_keeps
    | with_reducible apply relocate_keeps
    | with_reducible apply setPage_keeps
    | with_reducible exact Part.sub_trans hw (by decide)
    | split
    | (refine Keeps.mk_of rfl ?_; first | with_reducible assumption | with_reducible apply keyEvents_keeps | with_reducible apply relocate_keeps | with_reducible apply setPage_keeps | with_reducible exact Part.sub_trans hw (by decide))

theorem execRekeySweepStep_keeps {s : State} (page loc : Nat) (readable : Bool) :
    KeepsO [.counts, .ports, .sessions, .ctxs, .nextId, .kept, .held, .sent, .locks, .marks, .logs, .owners, .keyspaces, .entries, .recs, .groups, .extents, .fineNext, .stale, .heat, .cache, .logA, .logB, .mapLog, .dirty, .quince, .pages, .pipes, .queue, .relay, .power, .sb, .dbg] s (execRekeySweepStep page loc readable s) := by
  have h₀ := Keeps.refl [.counts, .ports, .sessions, .ctxs, .nextId, .kept, .held, .sent, .locks, .marks, .logs, .owners, .keyspaces, .entries, .recs, .groups, .extents, .fineNext, .stale, .heat, .cache, .logA, .logB, .mapLog, .dirty, .quince, .pages, .pipes, .queue, .relay, .power, .sb, .dbg] s
  have hw : Part.sub [.counts, .ports, .sessions, .ctxs, .nextId, .kept, .held, .sent, .locks, .marks, .logs, .owners, .keyspaces, .entries, .recs, .groups, .extents, .fineNext, .stale, .heat, .cache, .logA, .logB, .mapLog, .dirty, .quince, .pages, .pipes, .queue, .relay, .power, .sb, .dbg] [.counts, .ports, .sessions, .ctxs, .nextId, .kept, .held, .sent, .locks, .marks, .logs, .owners, .keyspaces, .entries, .recs, .groups, .extents, .fineNext, .stale, .heat, .cache, .logA, .logB, .mapLog, .dirty, .quince, .pages, .pipes, .queue, .relay, .power, .sb, .dbg] = true := by decide
  unfold execRekeySweepStep
  try dsimp only
  repeat' first
    | with_reducible assumption
    | with_reducible apply KeepsO.next
    | with_reducible apply KeepsO.ite
    | with_reducible apply Keeps.ite
    | with_reducible apply enterMove_keeps
    | with_reducible apply lockLeave_keeps
    | with_reducible apply reseal_keeps
    | with_reducible apply settle_keeps
    | with_reducible apply sweepEnd_keeps
    | (refine takeSlots_keeps ?_ (by assumption) (Part.sub_trans hw (by decide)))
    | with_reducible exact Part.sub_trans hw (by decide)
    | split
    | (refine Keeps.mk_of rfl ?_; first | with_reducible assumption | with_reducible apply KeepsO.next | with_reducible apply KeepsO.ite | with_reducible apply Keeps.ite | with_reducible apply enterMove_keeps | with_reducible apply lockLeave_keeps | with_reducible apply reseal_keeps | with_reducible apply settle_keeps | with_reducible apply sweepEnd_keeps | (refine takeSlots_keeps ?_ (by assumption) (Part.sub_trans hw (by decide))) | with_reducible exact Part.sub_trans hw (by decide))

theorem execDieRetire_keeps {s : State} (channel position cause : Nat) :
    KeepsO [.rnd, .modes, .spares, .counts, .ports, .sessions, .ctxs, .nextId, .kept, .held, .sent, .locks, .marks, .logs, .keyspaces, .quince, .pages, .pipes, .queue, .sieves, .relay, .power, .sb, .dbg, .nor] s (execDieRetire channel position cause s) := by
  have h₀ := Keeps.refl [.rnd, .modes, .spares, .counts, .ports, .sessions, .ctxs, .nextId, .kept, .held, .sent, .locks, .marks, .logs, .keyspaces, .quince, .pages, .pipes, .queue, .sieves, .relay, .power, .sb, .dbg, .nor] s
  have hw : Part.sub [.rnd, .modes, .spares, .counts, .ports, .sessions, .ctxs, .nextId, .kept, .held, .sent, .locks, .marks, .logs, .keyspaces, .quince, .pages, .pipes, .queue, .sieves, .relay, .power, .sb, .dbg, .nor] [.rnd, .modes, .spares, .counts, .ports, .sessions, .ctxs, .nextId, .kept, .held, .sent, .locks, .marks, .logs, .keyspaces, .quince, .pages, .pipes, .queue, .sieves, .relay, .power, .sb, .dbg, .nor] = true := by decide
  unfold execDieRetire
  try dsimp only
  repeat' first
    | with_reducible assumption
    | with_reducible apply KeepsO.next
    | with_reducible apply KeepsO.ite
    | with_reducible apply Keeps.ite
    | with_reducible apply freeze_keeps
    | with_reducible apply logEvent_keeps
    | with_reducible apply spareNotice_keeps
    | with_reducible apply watch_keeps
    | with_reducible exact Part.sub_trans hw (by decide)
    | split
    | (refine Keeps.mk_of rfl ?_; first | with_reducible assumption | with_reducible apply KeepsO.next | with_reducible apply KeepsO.ite | with_reducible apply Keeps.ite | with_reducible apply freeze_keeps | with_reducible apply logEvent_keeps | with_reducible apply spareNotice_keeps | with_reducible apply watch_keeps | with_reducible exact Part.sub_trans hw (by decide))

theorem execRebuildDone_keeps {s : State} (channel position : Nat) :
    KeepsO [.spares, .logs, .dbg] s (execRebuildDone channel position s) := by
  have h₀ := Keeps.refl [.spares, .logs, .dbg] s
  have hw : Part.sub [.spares, .logs, .dbg] [.spares, .logs, .dbg] = true := by decide
  unfold execRebuildDone
  try dsimp only
  repeat' first
    | with_reducible assumption
    | with_reducible apply KeepsO.next
    | with_reducible apply KeepsO.ite
    | with_reducible apply Keeps.ite
    | with_reducible apply logEvent_keeps
    | with_reducible exact Part.sub_trans hw (by decide)
    | split
    | (refine Keeps.mk_of rfl ?_; first | with_reducible assumption | with_reducible apply KeepsO.next | with_reducible apply KeepsO.ite | with_reducible apply Keeps.ite | with_reducible apply logEvent_keeps | with_reducible exact Part.sub_trans hw (by decide))

end Sys2Proof.Machine
end

