-- ==== Sys2Proof/Laws/KeepsSideband.lean ====
section
/-! SUPPORT. Which parts of the state each operation of Machine/Sideband.lean may change. -/

set_option Elab.async false

namespace Sys2Proof.Machine

theorem pecFail_keeps {ws : List Part} {s₀ s : State} (h₀ : Keeps ws s₀ s) 
    (hw : Part.sub [.sb] ws = true) : Keeps ws s₀ (State.pecFail s) := by
  unfold State.pecFail
  try dsimp only
  repeat' first
    | with_reducible assumption
    | split
    | (refine Keeps.mk_of rfl ?_; first | with_reducible assumption)

theorem busyWrite_keeps {ws : List Part} {s₀ s : State} (h₀ : Keeps ws s₀ s) 
    (hw : Part.sub [.sb] ws = true) : Keeps ws s₀ (State.busyWrite s) := by
  unfold State.busyWrite
  try dsimp only
  repeat' first
    | with_reducible assumption
    | split
    | (refine Keeps.mk_of rfl ?_; first | with_reducible assumption)

theorem sbWrite_keeps {ws : List Part} {s₀ s : State} (h : Keeps ws s₀ s) (p : Pec) {f : State → State} (hf : ∀ t, Keeps ws s₀ t → Keeps ws s₀ (f t))
    (hw : Part.sub [.sb] ws = true) : Keeps ws s₀ (State.sbWrite s p f) := by
  unfold State.sbWrite
  split
  · exact h
  · split
    · exact pecFail_keeps h (Part.sub_trans hw (by decide))
    · exact hf _ h

theorem writeReg_keeps {ws : List Part} {s₀ s : State} (h₀ : Keeps ws s₀ s) (code v : Nat)
    (hw : Part.sub [.ports, .marks, .sb] ws = true) : Keeps ws s₀ (State.writeReg s code v) := by
  unfold State.writeReg
  try dsimp only
  repeat' first
    | with_reducible assumption
    | with_reducible apply Keeps.ite
    | with_reducible apply busyWrite_keeps
    | with_reducible apply clearPortEvents_keeps
    | with_reducible exact Part.sub_trans hw (by decide)
    | split
    | (refine Keeps.mk_of rfl ?_; first | with_reducible assumption | with_reducible apply Keeps.ite | with_reducible apply busyWrite_keeps | with_reducible apply clearPortEvents_keeps | with_reducible exact Part.sub_trans hw (by decide))

theorem execSbRegisterWrite_keeps {s : State} (code : Nat) (bytes : Bytes) (pec : Pec) :
    KeepsO [.ports, .marks, .sb] s (execSbRegisterWrite code bytes pec s) := by
  have h₀ := Keeps.refl [.ports, .marks, .sb] s
  have hw : Part.sub [.ports, .marks, .sb] [.ports, .marks, .sb] = true := by decide
  unfold execSbRegisterWrite
  try dsimp only
  repeat' first
    | with_reducible assumption
    | with_reducible apply KeepsO.next
    | with_reducible apply KeepsO.ite
    | with_reducible apply Keeps.ite
    | (with_reducible refine sbWrite_keeps ?_ _ (fun _ _ => ?_) (Part.sub_trans hw (by decide)); try dsimp only)
    | with_reducible apply writeReg_keeps
    | with_reducible exact Part.sub_trans hw (by decide)
    | split
    | (refine Keeps.mk_of rfl ?_; first | with_reducible assumption | with_reducible apply KeepsO.next | with_reducible apply KeepsO.ite | with_reducible apply Keeps.ite | (with_reducible refine sbWrite_keeps ?_ _ (fun _ _ => ?_) (Part.sub_trans hw (by decide)); try dsimp only) | with_reducible apply writeReg_keeps | with_reducible exact Part.sub_trans hw (by decide))

theorem mbStore_keeps {ws : List Part} {s₀ s : State} (h₀ : Keeps ws s₀ s) (bytes : Bytes)
    (hw : Part.sub [.sb] ws = true) : Keeps ws s₀ (State.mbStore s bytes) := by
  unfold State.mbStore
  try dsimp only
  repeat' first
    | with_reducible assumption
    | with_reducible apply Keeps.ite
    | with_reducible apply busyWrite_keeps
    | with_reducible exact Part.sub_trans hw (by decide)
    | split
    | (refine Keeps.mk_of rfl ?_; first | with_reducible assumption | with_reducible apply Keeps.ite | with_reducible apply busyWrite_keeps | with_reducible exact Part.sub_trans hw (by decide))

theorem execMbData_keeps {s : State} (bytes : Bytes) (pec : Pec) :
    KeepsO [.sb] s (execMbData bytes pec s) := by
  have h₀ := Keeps.refl [.sb] s
  have hw : Part.sub [.sb] [.sb] = true := by decide
  unfold execMbData
  try dsimp only
  repeat' first
    | with_reducible assumption
    | with_reducible apply KeepsO.next
    | with_reducible apply KeepsO.ite
    | with_reducible apply mbStore_keeps
    | (with_reducible refine sbWrite_keeps ?_ _ (fun _ _ => ?_) (Part.sub_trans hw (by decide)); try dsimp only)
    | with_reducible exact Part.sub_trans hw (by decide)
    | split
    | (refine Keeps.mk_of rfl ?_; first | with_reducible assumption | with_reducible apply KeepsO.next | with_reducible apply KeepsO.ite | with_reducible apply mbStore_keeps | (with_reducible refine sbWrite_keeps ?_ _ (fun _ _ => ?_) (Part.sub_trans hw (by decide)); try dsimp only) | with_reducible exact Part.sub_trans hw (by decide))

theorem mbAccept_keeps {ws : List Part} {s₀ s : State} (h₀ : Keeps ws s₀ s) (h : Header) (body : Bytes)
    (hw : Part.sub [.ports, .sessions, .ctxs, .nextId, .kept, .held, .sent, .locks, .keyspaces, .quince, .pages, .pipes, .queue, .relay, .power, .sb] ws = true) : Keeps ws s₀ (State.mbAccept s h body) := by
  unfold State.mbAccept
  try dsimp only
  repeat' first
    | with_reducible assumption
    | with_reducible apply endCmd_keeps
    | with_reducible apply wake_keeps
    | with_reducible exact Part.sub_trans hw (by decide)
    | split
    | (refine Keeps.mk_of rfl ?_; first | with_reducible assumption | with_reducible apply endCmd_keeps | with_reducible apply wake_keeps | with_reducible exact Part.sub_trans hw (by decide))

theorem mbGo_keeps {ws : List Part} {s₀ s : State} (h₀ : Keeps ws s₀ s) 
    (hw : Part.sub [.ports, .sessions, .ctxs, .nextId, .kept, .held, .sent, .locks, .keyspaces, .quince, .pages, .pipes, .queue, .relay, .power, .sb] ws = true) : Keeps ws s₀ (State.mbGo s) := by
  unfold State.mbGo
  try dsimp only
  repeat' first
    | with_reducible assumption
    | with_reducible apply Keeps.ite
    | with_reducible apply busyWrite_keeps
    | with_reducible apply mbAccept_keeps
    | with_reducible exact Part.sub_trans hw (by decide)
    | split
    | (refine Keeps.mk_of rfl ?_; first | with_reducible assumption | with_reducible apply Keeps.ite | with_reducible apply busyWrite_keeps | with_reducible apply mbAccept_keeps | with_reducible exact Part.sub_trans hw (by decide))

theorem execGo_keeps {s : State} (pec : Pec) :
    KeepsO [.counts, .ports, .sessions, .ctxs, .nextId, .kept, .held, .sent, .locks, .marks, .logs, .keyspaces, .quince, .pages, .pipes, .queue, .relay, .power, .sb] s (execGo pec s) := by
  have h₀ := Keeps.refl [.counts, .ports, .sessions, .ctxs, .nextId, .kept, .held, .sent, .locks, .marks, .logs, .keyspaces, .quince, .pages, .pipes, .queue, .relay, .power, .sb] s
  have hw : Part.sub [.counts, .ports, .sessions, .ctxs, .nextId, .kept, .held, .sent, .locks, .marks, .logs, .keyspaces, .quince, .pages, .pipes, .queue, .relay, .power, .sb] [.counts, .ports, .sessions, .ctxs, .nextId, .kept, .held, .sent, .locks, .marks, .logs, .keyspaces, .quince, .pages, .pipes, .queue, .relay, .power, .sb] = true := by decide
  unfold execGo
  try dsimp only
  repeat' first
    | with_reducible assumption
    | with_reducible apply KeepsO.next
    | with_reducible apply KeepsO.ite
    | with_reducible apply mbGo_keeps
    | (with_reducible refine sbWrite_keeps ?_ _ (fun _ _ => ?_) (Part.sub_trans hw (by decide)); try dsimp only)
    | with_reducible apply watch_keeps
    | with_reducible exact Part.sub_trans hw (by decide)
    | split
    | (refine Keeps.mk_of rfl ?_; first | with_reducible assumption | with_reducible apply KeepsO.next | with_reducible apply KeepsO.ite | with_reducible apply mbGo_keeps | (with_reducible refine sbWrite_keeps ?_ _ (fun _ _ => ?_) (Part.sub_trans hw (by decide)); try dsimp only) | with_reducible apply watch_keeps | with_reducible exact Part.sub_trans hw (by decide))

theorem mbAbortCmd_keeps {ws : List Part} {s₀ s : State} (h₀ : Keeps ws s₀ s) 
    (hw : Part.sub [.counts, .ports, .sessions, .ctxs, .nextId, .kept, .held, .sent, .locks, .marks, .logs, .owners, .keyspaces, .groups, .extents, .fineNext, .heat, .mapLog, .quince, .pages, .pipes, .queue, .relay, .power, .sb, .dbg] ws = true) : Keeps ws s₀ (State.mbAbortCmd s) := by
  unfold State.mbAbortCmd
  try dsimp only
  repeat' first
    | with_reducible assumption
    | with_reducible apply Keeps.ite
    | with_reducible apply endStatus_keeps
    | with_reducible apply settle_keeps
    | with_reducible apply watch_keeps
    | with_reducible exact Part.sub_trans hw (by decide)
    | split
    | (refine Keeps.mk_of rfl ?_; first | with_reducible assumption | with_reducible apply Keeps.ite | with_reducible apply endStatus_keeps | with_reducible apply settle_keeps | with_reducible apply watch_keeps | with_reducible exact Part.sub_trans hw (by decide))

theorem execMbAbort_keeps {s : State} (pec : Pec) :
    KeepsO [.counts, .ports, .sessions, .ctxs, .nextId, .kept, .held, .sent, .locks, .marks, .logs, .owners, .keyspaces, .groups, .extents, .fineNext, .heat, .mapLog, .quince, .pages, .pipes, .queue, .relay, .power, .sb, .dbg] s (execMbAbort pec s) := by
  have h₀ := Keeps.refl [.counts, .ports, .sessions, .ctxs, .nextId, .kept, .held, .sent, .locks, .marks, .logs, .owners, .keyspaces, .groups, .extents, .fineNext, .heat, .mapLog, .quince, .pages, .pipes, .queue, .relay, .power, .sb, .dbg] s
  have hw : Part.sub [.counts, .ports, .sessions, .ctxs, .nextId, .kept, .held, .sent, .locks, .marks, .logs, .owners, .keyspaces, .groups, .extents, .fineNext, .heat, .mapLog, .quince, .pages, .pipes, .queue, .relay, .power, .sb, .dbg] [.counts, .ports, .sessions, .ctxs, .nextId, .kept, .held, .sent, .locks, .marks, .logs, .owners, .keyspaces, .groups, .extents, .fineNext, .heat, .mapLog, .quince, .pages, .pipes, .queue, .relay, .power, .sb, .dbg] = true := by decide
  unfold execMbAbort
  try dsimp only
  repeat' first
    | with_reducible assumption
    | with_reducible apply KeepsO.next
    | with_reducible apply KeepsO.ite
    | with_reducible apply mbAbortCmd_keeps
    | (with_reducible refine sbWrite_keeps ?_ _ (fun _ _ => ?_) (Part.sub_trans hw (by decide)); try dsimp only)
    | with_reducible exact Part.sub_trans hw (by decide)
    | split
    | (refine Keeps.mk_of rfl ?_; first | with_reducible assumption | with_reducible apply KeepsO.next | with_reducible apply KeepsO.ite | with_reducible apply mbAbortCmd_keeps | (with_reducible refine sbWrite_keeps ?_ _ (fun _ _ => ?_) (Part.sub_trans hw (by decide)); try dsimp only) | with_reducible exact Part.sub_trans hw (by decide))

theorem execMbReply_keeps {s : State}  :
    KeepsO [.sb] s (execMbReply s) := by
  have h₀ := Keeps.refl [.sb] s
  have hw : Part.sub [.sb] [.sb] = true := by decide
  unfold execMbReply
  try dsimp only
  repeat' first
    | with_reducible assumption
    | with_reducible apply KeepsO.next
    | with_reducible apply KeepsO.ite
    | with_reducible apply Keeps.ite
    | split
    | (refine Keeps.mk_of rfl ?_; first | with_reducible assumption | with_reducible apply KeepsO.next | with_reducible apply KeepsO.ite | with_reducible apply Keeps.ite)

theorem kekWrite_keeps {ws : List Part} {s₀ s : State} (h₀ : Keeps ws s₀ s) (bytes : Bytes)
    (hw : Part.sub [.kek, .sb] ws = true) : Keeps ws s₀ (State.kekWrite s bytes) := by
  unfold State.kekWrite
  try dsimp only
  repeat' first
    | with_reducible assumption
    | with_reducible apply Keeps.ite
    | split
    | (refine Keeps.mk_of rfl ?_; first | with_reducible assumption | with_reducible apply Keeps.ite)

theorem execKek_keeps {s : State} (bytes : Bytes) (pec : Pec) :
    KeepsO [.kek, .sb] s (execKek bytes pec s) := by
  have h₀ := Keeps.refl [.kek, .sb] s
  have hw : Part.sub [.kek, .sb] [.kek, .sb] = true := by decide
  unfold execKek
  try dsimp only
  repeat' first
    | with_reducible assumption
    | with_reducible apply KeepsO.next
    | with_reducible apply KeepsO.ite
    | with_reducible apply kekWrite_keeps
    | (with_reducible refine sbWrite_keeps ?_ _ (fun _ _ => ?_) (Part.sub_trans hw (by decide)); try dsimp only)
    | with_reducible exact Part.sub_trans hw (by decide)
    | split
    | (refine Keeps.mk_of rfl ?_; first | with_reducible assumption | with_reducible apply KeepsO.next | with_reducible apply KeepsO.ite | with_reducible apply kekWrite_keeps | (with_reducible refine sbWrite_keeps ?_ _ (fun _ _ => ?_) (Part.sub_trans hw (by decide)); try dsimp only) | with_reducible exact Part.sub_trans hw (by decide))

theorem execAlertResponse_keeps {s : State}  :
    KeepsO [.sb] s (execAlertResponse s) := by
  have h₀ := Keeps.refl [.sb] s
  have hw : Part.sub [.sb] [.sb] = true := by decide
  unfold execAlertResponse
  try dsimp only
  repeat' first
    | with_reducible assumption
    | with_reducible apply KeepsO.next
    | with_reducible apply KeepsO.ite
    | with_reducible apply Keeps.ite
    | split
    | (refine Keeps.mk_of rfl ?_; first | with_reducible assumption | with_reducible apply KeepsO.next | with_reducible apply KeepsO.ite | with_reducible apply Keeps.ite)

theorem execSmbusTimeout_keeps {s : State}  :
    KeepsO [.sb] s (execSmbusTimeout s) := by
  have h₀ := Keeps.refl [.sb] s
  have hw : Part.sub [.sb] [.sb] = true := by decide
  unfold execSmbusTimeout
  try dsimp only
  repeat' first
    | with_reducible assumption
    | with_reducible apply KeepsO.next
    | with_reducible apply KeepsO.ite
    | with_reducible apply Keeps.ite
    | split
    | (refine Keeps.mk_of rfl ?_; first | with_reducible assumption | with_reducible apply KeepsO.next | with_reducible apply KeepsO.ite | with_reducible apply Keeps.ite)

theorem segmentEvent_keeps {ws : List Part} {s₀ s : State} (h₀ : Keeps ws s₀ s) (d : Nat) (failed : Bool)
    (hw : Part.sub [.logs, .sb, .dbg] ws = true) : Keeps ws s₀ (State.segmentEvent s d failed) := by
  unfold State.segmentEvent
  try dsimp only
  repeat' first
    | with_reducible assumption
    | with_reducible apply alert_keeps
    | with_reducible apply logEvent_keeps
    | with_reducible exact Part.sub_trans hw (by decide)
    | split
    | (refine Keeps.mk_of rfl ?_; first | with_reducible assumption | with_reducible apply alert_keeps | with_reducible apply logEvent_keeps | with_reducible exact Part.sub_trans hw (by decide))

theorem segmentSensors_keeps {ws : List Part} {s₀ s : State} (h₀ : Keeps ws s₀ s) 
    (hw : Part.sub [.rnd, .counts, .ports, .sessions, .ctxs, .nextId, .kept, .held, .sent, .locks, .marks, .logs, .owners, .keyspaces, .groups, .extents, .fineNext, .heat, .holds, .mapLog, .quince, .pages, .pipes, .queue, .sieves, .relay, .power, .thermal, .sb, .dbg] ws = true) : Keeps ws s₀ (State.segmentSensors s) := by
  unfold State.segmentSensors
  try dsimp only
  repeat' first
    | with_reducible assumption
    | with_reducible apply Keeps.ite
    | with_reducible apply throttle_keeps
    | with_reducible apply watch_keeps
    | with_reducible exact Part.sub_trans hw (by decide)
    | split
    | (refine Keeps.mk_of rfl ?_; first | with_reducible assumption | with_reducible apply Keeps.ite | with_reducible apply throttle_keeps | with_reducible apply watch_keeps | with_reducible exact Part.sub_trans hw (by decide))

theorem segmentFail_keeps {ws : List Part} {s₀ s : State} (h₀ : Keeps ws s₀ s) (d : Nat)
    (hw : Part.sub [.rnd, .modes, .counts, .ports, .sessions, .ctxs, .nextId, .kept, .held, .sent, .locks, .marks, .logs, .owners, .keyspaces, .groups, .extents, .fineNext, .heat, .holds, .mapLog, .quince, .pages, .pipes, .queue, .sieves, .relay, .power, .thermal, .holdup, .sb, .dbg, .nor] ws = true) : Keeps ws s₀ (State.segmentFail s d) := by
  unfold State.segmentFail
  try dsimp only
  repeat' first
    | with_reducible assumption
    | with_reducible apply Keeps.ite
    | with_reducible apply freeze_keeps
    | with_reducible apply segmentEvent_keeps
    | with_reducible apply segmentSensors_keeps
    | with_reducible exact Part.sub_trans hw (by decide)
    | split
    | (refine Keeps.mk_of rfl ?_; first | with_reducible assumption | with_reducible apply Keeps.ite | with_reducible apply freeze_keeps | with_reducible apply segmentEvent_keeps | with_reducible apply segmentSensors_keeps | with_reducible exact Part.sub_trans hw (by decide))

theorem segmentRecover_keeps {ws : List Part} {s₀ s : State} (h₀ : Keeps ws s₀ s) (d : Nat)
    (hw : Part.sub [.rnd, .counts, .ports, .sessions, .ctxs, .nextId, .kept, .held, .sent, .locks, .marks, .logs, .owners, .keyspaces, .groups, .extents, .fineNext, .heat, .holds, .mapLog, .quince, .pages, .pipes, .queue, .sieves, .relay, .power, .thermal, .sb, .dbg] ws = true) : Keeps ws s₀ (State.segmentRecover s d) := by
  unfold State.segmentRecover
  try dsimp only
  repeat' first
    | with_reducible assumption
    | with_reducible apply segmentEvent_keeps
    | with_reducible apply segmentSensors_keeps
    | with_reducible exact Part.sub_trans hw (by decide)
    | split
    | (refine Keeps.mk_of rfl ?_; first | with_reducible assumption | with_reducible apply segmentEvent_keeps | with_reducible apply segmentSensors_keeps | with_reducible exact Part.sub_trans hw (by decide))

theorem execSegmentPoll_keeps {s : State} (device : Nat) (answers : Bool) :
    KeepsO [.rnd, .modes, .counts, .ports, .sessions, .ctxs, .nextId, .kept, .held, .sent, .locks, .marks, .logs, .owners, .keyspaces, .groups, .extents, .fineNext, .heat, .holds, .mapLog, .quince, .pages, .pipes, .queue, .sieves, .relay, .power, .thermal, .holdup, .sb, .dbg, .nor] s (execSegmentPoll device answers s) := by
  have h₀ := Keeps.refl [.rnd, .modes, .counts, .ports, .sessions, .ctxs, .nextId, .kept, .held, .sent, .locks, .marks, .logs, .owners, .keyspaces, .groups, .extents, .fineNext, .heat, .holds, .mapLog, .quince, .pages, .pipes, .queue, .sieves, .relay, .power, .thermal, .holdup, .sb, .dbg, .nor] s
  have hw : Part.sub [.rnd, .modes, .counts, .ports, .sessions, .ctxs, .nextId, .kept, .held, .sent, .locks, .marks, .logs, .owners, .keyspaces, .groups, .extents, .fineNext, .heat, .holds, .mapLog, .quince, .pages, .pipes, .queue, .sieves, .relay, .power, .thermal, .holdup, .sb, .dbg, .nor] [.rnd, .modes, .counts, .ports, .sessions, .ctxs, .nextId, .kept, .held, .sent, .locks, .marks, .logs, .owners, .keyspaces, .groups, .extents, .fineNext, .heat, .holds, .mapLog, .quince, .pages, .pipes, .queue, .sieves, .relay, .power, .thermal, .holdup, .sb, .dbg, .nor] = true := by decide
  unfold execSegmentPoll
  try dsimp only
  repeat' first
    | with_reducible assumption
    | with_reducible apply KeepsO.next
    | with_reducible apply KeepsO.ite
    | with_reducible apply Keeps.ite
    | with_reducible apply segmentFail_keeps
    | with_reducible exact Part.sub_trans hw (by decide)
    | split
    | (refine Keeps.mk_of rfl ?_; first | with_reducible assumption | with_reducible apply KeepsO.next | with_reducible apply KeepsO.ite | with_reducible apply Keeps.ite | with_reducible apply segmentFail_keeps | with_reducible exact Part.sub_trans hw (by decide))

theorem execSegmentRetry_keeps {s : State} (device : Nat) (answers : Bool) :
    KeepsO [.rnd, .counts, .ports, .sessions, .ctxs, .nextId, .kept, .held, .sent, .locks, .marks, .logs, .owners, .keyspaces, .groups, .extents, .fineNext, .heat, .holds, .mapLog, .quince, .pages, .pipes, .queue, .sieves, .relay, .power, .thermal, .sb, .dbg] s (execSegmentRetry device answers s) := by
  have h₀ := Keeps.refl [.rnd, .counts, .ports, .sessions, .ctxs, .nextId, .kept, .held, .sent, .locks, .marks, .logs, .owners, .keyspaces, .groups, .extents, .fineNext, .heat, .holds, .mapLog, .quince, .pages, .pipes, .queue, .sieves, .relay, .power, .thermal, .sb, .dbg] s
  have hw : Part.sub [.rnd, .counts, .ports, .sessions, .ctxs, .nextId, .kept, .held, .sent, .locks, .marks, .logs, .owners, .keyspaces, .groups, .extents, .fineNext, .heat, .holds, .mapLog, .quince, .pages, .pipes, .queue, .sieves, .relay, .power, .thermal, .sb, .dbg] [.rnd, .counts, .ports, .sessions, .ctxs, .nextId, .kept, .held, .sent, .locks, .marks, .logs, .owners, .keyspaces, .groups, .extents, .fineNext, .heat, .holds, .mapLog, .quince, .pages, .pipes, .queue, .sieves, .relay, .power, .thermal, .sb, .dbg] = true := by decide
  unfold execSegmentRetry
  try dsimp only
  repeat' first
    | with_reducible assumption
    | with_reducible apply KeepsO.next
    | with_reducible apply KeepsO.ite
    | with_reducible apply Keeps.ite
    | with_reducible apply segmentRecover_keeps
    | with_reducible exact Part.sub_trans hw (by decide)
    | split
    | (refine Keeps.mk_of rfl ?_; first | with_reducible assumption | with_reducible apply KeepsO.next | with_reducible apply KeepsO.ite | with_reducible apply Keeps.ite | with_reducible apply segmentRecover_keeps | with_reducible exact Part.sub_trans hw (by decide))

theorem execConsoleLine_keeps {s : State} (line : Bytes) (framingError : Bool) :
    KeepsO [.dbg] s (execConsoleLine line framingError s) := by
  have h₀ := Keeps.refl [.dbg] s
  have hw : Part.sub [.dbg] [.dbg] = true := by decide
  unfold execConsoleLine
  try dsimp only
  repeat' first
    | with_reducible assumption
    | with_reducible apply KeepsO.next
    | with_reducible apply KeepsO.ite
    | with_reducible apply Keeps.ite
    | (with_reducible refine Keeps.foldl ?_ (fun _ _ _ => ?_))
    | with_reducible apply console_keeps
    | with_reducible exact Part.sub_trans hw (by decide)
    | split
    | (refine Keeps.mk_of rfl ?_; first | with_reducible assumption | with_reducible apply KeepsO.next | with_reducible apply KeepsO.ite | with_reducible apply Keeps.ite | (with_reducible refine Keeps.foldl ?_ (fun _ _ _ => ?_)) | with_reducible apply console_keeps | with_reducible exact Part.sub_trans hw (by decide))

theorem execTraceSync_keeps {s : State} (island : Nat) :
    KeepsO [.rnd, .dbg] s (execTraceSync island s) := by
  have h₀ := Keeps.refl [.rnd, .dbg] s
  have hw : Part.sub [.rnd, .dbg] [.rnd, .dbg] = true := by decide
  unfold execTraceSync
  try dsimp only
  repeat' first
    | with_reducible assumption
    | with_reducible apply KeepsO.next
    | with_reducible apply KeepsO.ite
    | with_reducible apply Keeps.ite
    | with_reducible apply drawn_keeps
    | with_reducible apply trace_keeps
    | with_reducible exact Part.sub_trans hw (by decide)
    | split
    | (refine Keeps.mk_of rfl ?_; first | with_reducible assumption | with_reducible apply KeepsO.next | with_reducible apply KeepsO.ite | with_reducible apply Keeps.ite | with_reducible apply drawn_keeps | with_reducible apply trace_keeps | with_reducible exact Part.sub_trans hw (by decide))

end Sys2Proof.Machine
end

