-- ==== Sys2Proof/Laws/KeepsExec.lean ====
section
/-! SUPPORT. Each command changes only the parts that `Instr.writes` gives it. -/

set_option Elab.async false

namespace Sys2Proof.Machine

theorem exec_keeps (i : Instr) (s : State) : KeepsO (Instr.writes i) s (exec i s) := by
  cases i with
  | p3v3AuxInRange straps => exact execP3v3AuxInRange_keeps straps
  | pwrEnWatchStart => exact execPwrEnWatchStart_keeps
  | p3v3AuxLoss => exact execP3v3AuxLoss_keeps
  | pwrEnRise straps => exact execPwrEnRise_keeps straps
  | pwrEnFall => exact execPwrEnFall_keeps
  | p12vInRange => exact execP12vInRange_keeps
  | p12vLoss removed => exact execP12vLoss_keeps removed
  | alarm src => exact execAlarm_keeps src
  | mainRailsInRange => exact execMainRailsInRange_keeps
  | sramFillComplete => exact execSramFillComplete_keeps
  | dramTrainingComplete => exact execDramTrainingComplete_keeps
  | dramFillComplete => exact execDramFillComplete_keeps
  | confirmedImageRead => exact execConfirmedImageRead_keeps
  | islandCodeLoaded => exact execIslandCodeLoaded_keeps
  | settingsMigrated => exact execSettingsMigrated_keeps
  | directoryRecovered lost found => exact execDirectoryRecovered_keeps lost found
  | fillingComplete bankCharged => exact execFillingComplete_keeps bankCharged
  | fillingTimeout => exact execFillingTimeout_keeps
  | restart island => exact execRestart_keeps island
  | mainSupplyReenable => exact execMainSupplyReenable_keeps
  | plugInInsert portB cmis => exact execPlugInInsert_keeps portB cmis
  | cmisReadyTimeout portB => exact execCmisReadyTimeout_keeps portB
  | plugInRemove portB => exact execPlugInRemove_keeps portB
  | cmisPoll portB cmis => exact execCmisPoll_keeps portB cmis
  | linkUp link => exact execLinkUp_keeps link
  | linkDown link failing => exact execLinkDown_keeps link failing
  | linkAttemptTimeout link failing => exact execLinkAttemptTimeout_keeps link failing
  | failoverHold link => exact execFailoverHold_keeps link
  | failoverBack link => exact execFailoverBack_keeps link
  | egressFrameTimeout frame => exact execEgressFrameTimeout_keeps frame
  | frameReceive link frame => exact execFrameReceive_keeps link frame
  | pauseQuantaExpire link prio => exact execPauseQuantaExpire_keeps link prio
  | pauseWatchdog link prio => exact execPauseWatchdog_keeps link prio
  | pauseWatchdogHoldoffEnd link prio => exact execPauseWatchdogHoldoffEnd_keeps link prio
  | neighbourAgeOut portB addr => exact execNeighbourAgeOut_keeps portB addr
  | assemblyTimeout c => exact execAssemblyTimeout_keeps c
  | ackCoalesceExpire c => exact execAckCoalesceExpire_keeps c
  | transportAck ack => exact execTransportAck_keeps ack
  | retransmit msg => exact execRetransmit_keeps msg
  | messageUnanswered msg => exact execMessageUnanswered_keeps msg
  | sessionIdle session => exact execSessionIdle_keeps session
  | sessionFree session => exact execSessionFree_keeps session
  | windowRebalance => exact execWindowRebalance_keeps
  | watermarkHoldoffEnd wm => exact execWatermarkHoldoffEnd_keeps wm
  | get c => exact execGet_keeps c
  | put c => exact execPut_keeps c
  | putPosted c => exact execPutPosted_keeps c
  | delete c => exact execDelete_keeps c
  | appendSegment c => exact execAppendSegment_keeps c
  | discard c => exact execDiscard_keeps c
  | secureDiscard c => exact execSecureDiscard_keeps c
  | scanKeys c => exact execScanKeys_keeps c
  | abort c => exact execAbort_keeps c
  | head c => exact execHead_keeps c
  | versionsNext c => exact execVersionsNext_keeps c
  | sieveOpen c => exact execSieveOpen_keeps c
  | sieveNext c => exact execSieveNext_keeps c
  | sieveClose c => exact execSieveClose_keeps c
  | sessionOpen c => exact execSessionOpen_keeps c
  | sessionClose c => exact execSessionClose_keeps c
  | echo c => exact execEcho_keeps c
  | keyspaceCreate c => exact execKeyspaceCreate_keeps c
  | keyspaceDelete c => exact execKeyspaceDelete_keeps c
  | keyspaceQuery c => exact execKeyspaceQuery_keeps c
  | keyLoad c => exact execKeyLoad_keeps c
  | keyRetire c => exact execKeyRetire_keeps c
  | fenceSet c => exact execFenceSet_keeps c
  | shaperSet c => exact execShaperSet_keeps c
  | powerPolicy c => exact execPowerPolicy_keeps c
  | relaySet c => exact execRelaySet_keeps c
  | orchardMapLoad c => exact execOrchardMapLoad_keeps c
  | promote c => exact execPromote_keeps c
  | healthRead c => exact execHealthRead_keeps c
  | identify c => exact execIdentify_keeps c
  | logRead c => exact execLogRead_keeps c
  | configGet c => exact execConfigGet_keeps c
  | configSet c => exact execConfigSet_keeps c
  | holdupTestNow c => exact execHoldupTestNow_keeps c
  | fwStage c => exact execFwStage_keeps c
  | fwActivate c => exact execFwActivate_keeps c
  | fwConfirm c => exact execFwConfirm_keeps c
  | fwAbort c => exact execFwAbort_keeps c
  | sanitise c => exact execSanitise_keeps c
  | modeSet c => exact execModeSet_keeps c
  | relayedWrite c => exact execRelayedWrite_keeps c
  | seedBegin c => exact execSeedBegin_keeps c
  | seedEnd c => exact execSeedEnd_keeps c
  | shaperAdmit c => exact execShaperAdmit_keeps c
  | rangeLockEnter op => exact execRangeLockEnter_keeps op
  | rangeLockLeave op => exact execRangeLockLeave_keeps op
  | quinceUpdate bank => exact execQuinceUpdate_keeps bank
  | quinceSweep bank row upset => exact execQuinceSweep_keeps bank row upset
  | readS slice bucket => exact execReadS_keeps slice bucket
  | readE slice bucket => exact execReadE_keeps slice bucket
  | writeBack slice bucket => exact execWriteBack_keeps slice bucket
  | writeBackClean slice bucket => exact execWriteBackClean_keeps slice bucket
  | evict slice bucket => exact execEvict_keeps slice bucket
  | snoopInv slice bucket => exact execSnoopInv_keeps slice bucket
  | snoopFetch slice bucket => exact execSnoopFetch_keeps slice bucket
  | presentClean slice bucket => exact execPresentClean_keeps slice bucket
  | presentData slice bucket => exact execPresentData_keeps slice bucket
  | notPresent slice bucket => exact execNotPresent_keeps slice bucket
  | cipherJobArrive job => exact execCipherJobArrive_keeps job
  | cipherJobEnd pipe => exact execCipherJobEnd_keeps pipe
  | cipherUrgencyRaise job => exact execCipherUrgencyRaise_keeps job
  | pageReadComplete c outcome => exact execPageReadComplete_keeps c outcome
  | programComplete c ok => exact execProgramComplete_keeps c ok
  | eraseComplete group failed => exact execEraseComplete_keeps group failed
  | commitClaim c => exact execCommitClaim_keeps c
  | sessionCloseDrained c => exact execSessionCloseDrained_keeps c
  | keyspaceDeleteDrained c => exact execKeyspaceDeleteDrained_keeps c
  | dormantDrained c => exact execDormantDrained_keeps c
  | dormantFlushComplete => exact execDormantFlushComplete_keeps
  | settingsWriteDone c => exact execSettingsWriteDone_keeps c
  | logFlush logB => exact execLogFlush_keeps logB
  | checkpointWrite => exact execCheckpointWrite_keeps
  | stripeIdleClose group => exact execStripeIdleClose_keeps group
  | gcTick => exact execGcTick_keeps
  | heatHalving => exact execHeatHalving_keeps
  | patrolStep group page finding => exact execPatrolStep_keeps group page finding
  | rekeySweepStep page loc readable => exact execRekeySweepStep_keeps page loc readable
  | dieRetire channel position cause => exact execDieRetire_keeps channel position cause
  | rebuildDone channel position => exact execRebuildDone_keeps channel position
  | islandRetire island bank => exact execIslandRetire_keeps island bank
  | islandFail island held => exact execIslandFail_keeps island held
  | trunkLinkFail hub dir => exact execTrunkLinkFail_keeps hub dir
  | ueFound island asker addr row flit site => exact execUeFound_keeps island asker addr row flit site
  | repairComplete bucket readable => exact execRepairComplete_keeps bucket readable
  | codeTrap island addr held => exact execCodeTrap_keeps island addr held
  | codeBankReloaded island => exact execCodeBankReloaded_keeps island
  | ceDecay sram dram => exact execCeDecay_keeps sram dram
  | progressScan island => exact execProgressScan_keeps island
  | sieveVisit slot => exact execSieveVisit_keeps slot
  | sieveBatchAge slot => exact execSieveBatchAge_keeps slot
  | sieveIdle slot => exact execSieveIdle_keeps slot
  | relayForwardAnswer slot answer => exact execRelayForwardAnswer_keeps slot answer
  | relayTimeout slot => exact execRelayTimeout_keeps slot
  | resyncStart keyspace successor => exact execResyncStart_keeps keyspace successor
  | resyncStateSave => exact execResyncStateSave_keeps
  | idleTimer target => exact execIdleTimer_keeps target
  | powerExitComplete => exact execPowerExitComplete_keeps
  | thermalSample readings => exact execThermalSample_keeps readings
  | temperatureHistorySample => exact execTemperatureHistorySample_keeps
  | lastWaltzPhaseEnd energyCj ok => exact execLastWaltzPhaseEnd_keeps energyCj ok
  | holdupTestStart => exact execHoldupTestStart_keeps
  | holdupTest result => exact execHoldupTest_keeps result
  | sectionFail sectionNo => exact execSectionFail_keeps sectionNo
  | sanitiseEraseComplete refused => exact execSanitiseEraseComplete_keeps refused
  | fwStageIdle => exact execFwStageIdle_keeps
  | slotProgramDone readBackOk => exact execSlotProgramDone_keeps readBackOk
  | standbyBooted => exact execStandbyBooted_keeps
  | handoverDone => exact execHandoverDone_keeps
  | islandReload island ok => exact execIslandReload_keeps island ok
  | selftestEnd passed => exact execSelftestEnd_keeps passed
  | confirmationWindowExpire => exact execConfirmationWindowExpire_keeps
  | restartActivation => exact execRestartActivation_keeps
  | fallbackDone => exact execFallbackDone_keeps
  | standbyFail restartable => exact execStandbyFail_keeps restartable
  | mbData bytes pec => exact execMbData_keeps bytes pec
  | go pec => exact execGo_keeps pec
  | mbAbort pec => exact execMbAbort_keeps pec
  | mbReply => exact execMbReply_keeps
  | kek bytes pec => exact execKek_keeps bytes pec
  | sbRegisterWrite code bytes pec => exact execSbRegisterWrite_keeps code bytes pec
  | alertResponse => exact execAlertResponse_keeps
  | smbusTimeout => exact execSmbusTimeout_keeps
  | segmentPoll device answers => exact execSegmentPoll_keeps device answers
  | segmentRetry device answers => exact execSegmentRetry_keeps device answers
  | consoleLine line framingError => exact execConsoleLine_keeps line framingError
  | traceSync island => exact execTraceSync_keeps island
  | alarmConditionEnd src => exact execAlarmConditionEnd_keeps src
  | signalReturn link => exact execSignalReturn_keeps link
  | relayBackoffResend slot => exact execRelayBackoffResend_keeps slot
  | bulkCopyDone => exact execBulkCopyDone_keeps
  | activationFlushComplete => exact execActivationFlushComplete_keeps
  | dramSelfRefresh channel => exact execDramSelfRefresh_keeps channel

end Sys2Proof.Machine
end

