-- ==== Sys2Proof/Laws/State.lean ====
section
/-! SUPPORT. The fields of the state after each plain update of `Machine/`: the field it writes, and every other field as it was. -/

set_option Elab.async false

namespace Sys2Proof.Machine

/-! ### `State.drawn` -/

@[simp] theorem drawn_pending (s : State) : (s.drawn).pending = s.pending := rfl
@[simp] theorem drawn_clock (s : State) : (s.drawn).clock = s.clock := rfl
@[simp] theorem drawn_rnd (s : State) : (s.drawn).rnd = s.rnd + 1 := rfl
@[simp] theorem drawn_supply (s : State) : (s.drawn).supply = s.supply := rfl
@[simp] theorem drawn_modes (s : State) : (s.drawn).modes = s.modes := rfl
@[simp] theorem drawn_spares (s : State) : (s.drawn).spares = s.spares := rfl
@[simp] theorem drawn_counts (s : State) : (s.drawn).counts = s.counts := rfl
@[simp] theorem drawn_ports (s : State) : (s.drawn).ports = s.ports := rfl
@[simp] theorem drawn_net (s : State) : (s.drawn).net = s.net := rfl
@[simp] theorem drawn_vars (s : State) : (s.drawn).vars = s.vars := rfl
@[simp] theorem drawn_marks (s : State) : (s.drawn).marks = s.marks := rfl
@[simp] theorem drawn_logs (s : State) : (s.drawn).logs = s.logs := rfl
@[simp] theorem drawn_owners (s : State) : (s.drawn).owners = s.owners := rfl
@[simp] theorem drawn_store (s : State) : (s.drawn).store = s.store := rfl
@[simp] theorem drawn_coh (s : State) : (s.drawn).coh = s.coh := rfl
@[simp] theorem drawn_quince (s : State) : (s.drawn).quince = s.quince := rfl
@[simp] theorem drawn_cipher (s : State) : (s.drawn).cipher = s.cipher := rfl
@[simp] theorem drawn_sieves (s : State) : (s.drawn).sieves = s.sieves := rfl
@[simp] theorem drawn_relay (s : State) : (s.drawn).relay = s.relay := rfl
@[simp] theorem drawn_power (s : State) : (s.drawn).power = s.power := rfl
@[simp] theorem drawn_thermal (s : State) : (s.drawn).thermal = s.thermal := rfl
@[simp] theorem drawn_holdup (s : State) : (s.drawn).holdup = s.holdup := rfl
@[simp] theorem drawn_fw (s : State) : (s.drawn).fw = s.fw := rfl
@[simp] theorem drawn_sb (s : State) : (s.drawn).sb = s.sb := rfl
@[simp] theorem drawn_debug (s : State) : (s.drawn).dbg = s.dbg := rfl
@[simp] theorem drawn_nor (s : State) : (s.drawn).nor = s.nor := rfl

/-! ### `State.withCtxs` -/

@[simp] theorem withCtxs_pending (s : State) (cs : List Ctx) : (s.withCtxs cs).pending = s.pending := rfl
@[simp] theorem withCtxs_clock (s : State) (cs : List Ctx) : (s.withCtxs cs).clock = s.clock := rfl
@[simp] theorem withCtxs_rnd (s : State) (cs : List Ctx) : (s.withCtxs cs).rnd = s.rnd := rfl
@[simp] theorem withCtxs_supply (s : State) (cs : List Ctx) : (s.withCtxs cs).supply = s.supply := rfl
@[simp] theorem withCtxs_modes (s : State) (cs : List Ctx) : (s.withCtxs cs).modes = s.modes := rfl
@[simp] theorem withCtxs_spares (s : State) (cs : List Ctx) : (s.withCtxs cs).spares = s.spares := rfl
@[simp] theorem withCtxs_counts (s : State) (cs : List Ctx) : (s.withCtxs cs).counts = s.counts := rfl
@[simp] theorem withCtxs_ports (s : State) (cs : List Ctx) : (s.withCtxs cs).ports = s.ports := rfl
@[simp] theorem withCtxs_net (s : State) (cs : List Ctx) : (s.withCtxs cs).net = { s.net with ctxs := cs } := rfl
@[simp] theorem withCtxs_vars (s : State) (cs : List Ctx) : (s.withCtxs cs).vars = s.vars := rfl
@[simp] theorem withCtxs_marks (s : State) (cs : List Ctx) : (s.withCtxs cs).marks = s.marks := rfl
@[simp] theorem withCtxs_logs (s : State) (cs : List Ctx) : (s.withCtxs cs).logs = s.logs := rfl
@[simp] theorem withCtxs_owners (s : State) (cs : List Ctx) : (s.withCtxs cs).owners = s.owners := rfl
@[simp] theorem withCtxs_store (s : State) (cs : List Ctx) : (s.withCtxs cs).store = s.store := rfl
@[simp] theorem withCtxs_coh (s : State) (cs : List Ctx) : (s.withCtxs cs).coh = s.coh := rfl
@[simp] theorem withCtxs_quince (s : State) (cs : List Ctx) : (s.withCtxs cs).quince = s.quince := rfl
@[simp] theorem withCtxs_cipher (s : State) (cs : List Ctx) : (s.withCtxs cs).cipher = s.cipher := rfl
@[simp] theorem withCtxs_sieves (s : State) (cs : List Ctx) : (s.withCtxs cs).sieves = s.sieves := rfl
@[simp] theorem withCtxs_relay (s : State) (cs : List Ctx) : (s.withCtxs cs).relay = s.relay := rfl
@[simp] theorem withCtxs_power (s : State) (cs : List Ctx) : (s.withCtxs cs).power = s.power := rfl
@[simp] theorem withCtxs_thermal (s : State) (cs : List Ctx) : (s.withCtxs cs).thermal = s.thermal := rfl
@[simp] theorem withCtxs_holdup (s : State) (cs : List Ctx) : (s.withCtxs cs).holdup = s.holdup := rfl
@[simp] theorem withCtxs_fw (s : State) (cs : List Ctx) : (s.withCtxs cs).fw = s.fw := rfl
@[simp] theorem withCtxs_sb (s : State) (cs : List Ctx) : (s.withCtxs cs).sb = s.sb := rfl
@[simp] theorem withCtxs_debug (s : State) (cs : List Ctx) : (s.withCtxs cs).dbg = s.dbg := rfl
@[simp] theorem withCtxs_nor (s : State) (cs : List Ctx) : (s.withCtxs cs).nor = s.nor := rfl

/-! ### `State.updSession` -/

@[simp] theorem updSession_pending (s : State) (n : Nat) (f : Session → Session) : (s.updSession n f).pending = s.pending := rfl
@[simp] theorem updSession_clock (s : State) (n : Nat) (f : Session → Session) : (s.updSession n f).clock = s.clock := rfl
@[simp] theorem updSession_rnd (s : State) (n : Nat) (f : Session → Session) : (s.updSession n f).rnd = s.rnd := rfl
@[simp] theorem updSession_supply (s : State) (n : Nat) (f : Session → Session) : (s.updSession n f).supply = s.supply := rfl
@[simp] theorem updSession_modes (s : State) (n : Nat) (f : Session → Session) : (s.updSession n f).modes = s.modes := rfl
@[simp] theorem updSession_spares (s : State) (n : Nat) (f : Session → Session) : (s.updSession n f).spares = s.spares := rfl
@[simp] theorem updSession_counts (s : State) (n : Nat) (f : Session → Session) : (s.updSession n f).counts = s.counts := rfl
@[simp] theorem updSession_ports (s : State) (n : Nat) (f : Session → Session) : (s.updSession n f).ports = s.ports := rfl
@[simp] theorem updSession_net (s : State) (n : Nat) (f : Session → Session) : (s.updSession n f).net = { s.net with sessions := upd (·.num == n) f s.net.sessions } := rfl
@[simp] theorem updSession_vars (s : State) (n : Nat) (f : Session → Session) : (s.updSession n f).vars = s.vars := rfl
@[simp] theorem updSession_marks (s : State) (n : Nat) (f : Session → Session) : (s.updSession n f).marks = s.marks := rfl
@[simp] theorem updSession_logs (s : State) (n : Nat) (f : Session → Session) : (s.updSession n f).logs = s.logs := rfl
@[simp] theorem updSession_owners (s : State) (n : Nat) (f : Session → Session) : (s.updSession n f).owners = s.owners := rfl
@[simp] theorem updSession_store (s : State) (n : Nat) (f : Session → Session) : (s.updSession n f).store = s.store := rfl
@[simp] theorem updSession_coh (s : State) (n : Nat) (f : Session → Session) : (s.updSession n f).coh = s.coh := rfl
@[simp] theorem updSession_quince (s : State) (n : Nat) (f : Session → Session) : (s.updSession n f).quince = s.quince := rfl
@[simp] theorem updSession_cipher (s : State) (n : Nat) (f : Session → Session) : (s.updSession n f).cipher = s.cipher := rfl
@[simp] theorem updSession_sieves (s : State) (n : Nat) (f : Session → Session) : (s.updSession n f).sieves = s.sieves := rfl
@[simp] theorem updSession_relay (s : State) (n : Nat) (f : Session → Session) : (s.updSession n f).relay = s.relay := rfl
@[simp] theorem updSession_power (s : State) (n : Nat) (f : Session → Session) : (s.updSession n f).power = s.power := rfl
@[simp] theorem updSession_thermal (s : State) (n : Nat) (f : Session → Session) : (s.updSession n f).thermal = s.thermal := rfl
@[simp] theorem updSession_holdup (s : State) (n : Nat) (f : Session → Session) : (s.updSession n f).holdup = s.holdup := rfl
@[simp] theorem updSession_fw (s : State) (n : Nat) (f : Session → Session) : (s.updSession n f).fw = s.fw := rfl
@[simp] theorem updSession_sb (s : State) (n : Nat) (f : Session → Session) : (s.updSession n f).sb = s.sb := rfl
@[simp] theorem updSession_debug (s : State) (n : Nat) (f : Session → Session) : (s.updSession n f).dbg = s.dbg := rfl
@[simp] theorem updSession_nor (s : State) (n : Nat) (f : Session → Session) : (s.updSession n f).nor = s.nor := rfl

/-! ### `State.updKeyspace` -/

@[simp] theorem updKeyspace_pending (s : State) (k : Nat) (f : Keyspace → Keyspace) : (s.updKeyspace k f).pending = s.pending := rfl
@[simp] theorem updKeyspace_clock (s : State) (k : Nat) (f : Keyspace → Keyspace) : (s.updKeyspace k f).clock = s.clock := rfl
@[simp] theorem updKeyspace_rnd (s : State) (k : Nat) (f : Keyspace → Keyspace) : (s.updKeyspace k f).rnd = s.rnd := rfl
@[simp] theorem updKeyspace_supply (s : State) (k : Nat) (f : Keyspace → Keyspace) : (s.updKeyspace k f).supply = s.supply := rfl
@[simp] theorem updKeyspace_modes (s : State) (k : Nat) (f : Keyspace → Keyspace) : (s.updKeyspace k f).modes = s.modes := rfl
@[simp] theorem updKeyspace_spares (s : State) (k : Nat) (f : Keyspace → Keyspace) : (s.updKeyspace k f).spares = s.spares := rfl
@[simp] theorem updKeyspace_counts (s : State) (k : Nat) (f : Keyspace → Keyspace) : (s.updKeyspace k f).counts = s.counts := rfl
@[simp] theorem updKeyspace_ports (s : State) (k : Nat) (f : Keyspace → Keyspace) : (s.updKeyspace k f).ports = s.ports := rfl
@[simp] theorem updKeyspace_net (s : State) (k : Nat) (f : Keyspace → Keyspace) : (s.updKeyspace k f).net = s.net := rfl
@[simp] theorem updKeyspace_vars (s : State) (k : Nat) (f : Keyspace → Keyspace) : (s.updKeyspace k f).vars = s.vars := rfl
@[simp] theorem updKeyspace_marks (s : State) (k : Nat) (f : Keyspace → Keyspace) : (s.updKeyspace k f).marks = s.marks := rfl
@[simp] theorem updKeyspace_logs (s : State) (k : Nat) (f : Keyspace → Keyspace) : (s.updKeyspace k f).logs = s.logs := rfl
@[simp] theorem updKeyspace_owners (s : State) (k : Nat) (f : Keyspace → Keyspace) : (s.updKeyspace k f).owners = s.owners := rfl
@[simp] theorem updKeyspace_store (s : State) (k : Nat) (f : Keyspace → Keyspace) : (s.updKeyspace k f).store = { s.store with keyspaces := upd (·.id == k) f s.store.keyspaces } := rfl
@[simp] theorem updKeyspace_coh (s : State) (k : Nat) (f : Keyspace → Keyspace) : (s.updKeyspace k f).coh = s.coh := rfl
@[simp] theorem updKeyspace_quince (s : State) (k : Nat) (f : Keyspace → Keyspace) : (s.updKeyspace k f).quince = s.quince := rfl
@[simp] theorem updKeyspace_cipher (s : State) (k : Nat) (f : Keyspace → Keyspace) : (s.updKeyspace k f).cipher = s.cipher := rfl
@[simp] theorem updKeyspace_sieves (s : State) (k : Nat) (f : Keyspace → Keyspace) : (s.updKeyspace k f).sieves = s.sieves := rfl
@[simp] theorem updKeyspace_relay (s : State) (k : Nat) (f : Keyspace → Keyspace) : (s.updKeyspace k f).relay = s.relay := rfl
@[simp] theorem updKeyspace_power (s : State) (k : Nat) (f : Keyspace → Keyspace) : (s.updKeyspace k f).power = s.power := rfl
@[simp] theorem updKeyspace_thermal (s : State) (k : Nat) (f : Keyspace → Keyspace) : (s.updKeyspace k f).thermal = s.thermal := rfl
@[simp] theorem updKeyspace_holdup (s : State) (k : Nat) (f : Keyspace → Keyspace) : (s.updKeyspace k f).holdup = s.holdup := rfl
@[simp] theorem updKeyspace_fw (s : State) (k : Nat) (f : Keyspace → Keyspace) : (s.updKeyspace k f).fw = s.fw := rfl
@[simp] theorem updKeyspace_sb (s : State) (k : Nat) (f : Keyspace → Keyspace) : (s.updKeyspace k f).sb = s.sb := rfl
@[simp] theorem updKeyspace_debug (s : State) (k : Nat) (f : Keyspace → Keyspace) : (s.updKeyspace k f).dbg = s.dbg := rfl
@[simp] theorem updKeyspace_nor (s : State) (k : Nat) (f : Keyspace → Keyspace) : (s.updKeyspace k f).nor = s.nor := rfl

/-! ### `State.updOwner` -/

@[simp] theorem updOwner_pending (s : State) (o : Nat) (f : Owner → Owner) : (s.updOwner o f).pending = s.pending := rfl
@[simp] theorem updOwner_clock (s : State) (o : Nat) (f : Owner → Owner) : (s.updOwner o f).clock = s.clock := rfl
@[simp] theorem updOwner_rnd (s : State) (o : Nat) (f : Owner → Owner) : (s.updOwner o f).rnd = s.rnd := rfl
@[simp] theorem updOwner_supply (s : State) (o : Nat) (f : Owner → Owner) : (s.updOwner o f).supply = s.supply := rfl
@[simp] theorem updOwner_modes (s : State) (o : Nat) (f : Owner → Owner) : (s.updOwner o f).modes = s.modes := rfl
@[simp] theorem updOwner_spares (s : State) (o : Nat) (f : Owner → Owner) : (s.updOwner o f).spares = s.spares := rfl
@[simp] theorem updOwner_counts (s : State) (o : Nat) (f : Owner → Owner) : (s.updOwner o f).counts = s.counts := rfl
@[simp] theorem updOwner_ports (s : State) (o : Nat) (f : Owner → Owner) : (s.updOwner o f).ports = s.ports := rfl
@[simp] theorem updOwner_net (s : State) (o : Nat) (f : Owner → Owner) : (s.updOwner o f).net = s.net := rfl
@[simp] theorem updOwner_vars (s : State) (o : Nat) (f : Owner → Owner) : (s.updOwner o f).vars = s.vars := rfl
@[simp] theorem updOwner_marks (s : State) (o : Nat) (f : Owner → Owner) : (s.updOwner o f).marks = s.marks := rfl
@[simp] theorem updOwner_logs (s : State) (o : Nat) (f : Owner → Owner) : (s.updOwner o f).logs = s.logs := rfl
@[simp] theorem updOwner_owners (s : State) (o : Nat) (f : Owner → Owner) : (s.updOwner o f).owners = s.owners.set o (f (s.owner o)) := rfl
@[simp] theorem updOwner_store (s : State) (o : Nat) (f : Owner → Owner) : (s.updOwner o f).store = s.store := rfl
@[simp] theorem updOwner_coh (s : State) (o : Nat) (f : Owner → Owner) : (s.updOwner o f).coh = s.coh := rfl
@[simp] theorem updOwner_quince (s : State) (o : Nat) (f : Owner → Owner) : (s.updOwner o f).quince = s.quince := rfl
@[simp] theorem updOwner_cipher (s : State) (o : Nat) (f : Owner → Owner) : (s.updOwner o f).cipher = s.cipher := rfl
@[simp] theorem updOwner_sieves (s : State) (o : Nat) (f : Owner → Owner) : (s.updOwner o f).sieves = s.sieves := rfl
@[simp] theorem updOwner_relay (s : State) (o : Nat) (f : Owner → Owner) : (s.updOwner o f).relay = s.relay := rfl
@[simp] theorem updOwner_power (s : State) (o : Nat) (f : Owner → Owner) : (s.updOwner o f).power = s.power := rfl
@[simp] theorem updOwner_thermal (s : State) (o : Nat) (f : Owner → Owner) : (s.updOwner o f).thermal = s.thermal := rfl
@[simp] theorem updOwner_holdup (s : State) (o : Nat) (f : Owner → Owner) : (s.updOwner o f).holdup = s.holdup := rfl
@[simp] theorem updOwner_fw (s : State) (o : Nat) (f : Owner → Owner) : (s.updOwner o f).fw = s.fw := rfl
@[simp] theorem updOwner_sb (s : State) (o : Nat) (f : Owner → Owner) : (s.updOwner o f).sb = s.sb := rfl
@[simp] theorem updOwner_debug (s : State) (o : Nat) (f : Owner → Owner) : (s.updOwner o f).dbg = s.dbg := rfl
@[simp] theorem updOwner_nor (s : State) (o : Nat) (f : Owner → Owner) : (s.updOwner o f).nor = s.nor := rfl

/-! ### `State.updLink` -/

@[simp] theorem updLink_pending (s : State) (n : Nat) (f : Link → Link) : (s.updLink n f).pending = s.pending := rfl
@[simp] theorem updLink_clock (s : State) (n : Nat) (f : Link → Link) : (s.updLink n f).clock = s.clock := rfl
@[simp] theorem updLink_rnd (s : State) (n : Nat) (f : Link → Link) : (s.updLink n f).rnd = s.rnd := rfl
@[simp] theorem updLink_supply (s : State) (n : Nat) (f : Link → Link) : (s.updLink n f).supply = s.supply := rfl
@[simp] theorem updLink_modes (s : State) (n : Nat) (f : Link → Link) : (s.updLink n f).modes = s.modes := rfl
@[simp] theorem updLink_spares (s : State) (n : Nat) (f : Link → Link) : (s.updLink n f).spares = s.spares := rfl
@[simp] theorem updLink_counts (s : State) (n : Nat) (f : Link → Link) : (s.updLink n f).counts = s.counts := rfl
@[simp] theorem updLink_ports (s : State) (n : Nat) (f : Link → Link) : (s.updLink n f).ports = { s.ports with links := s.ports.links.set n (f (s.link n)) } := rfl
@[simp] theorem updLink_net (s : State) (n : Nat) (f : Link → Link) : (s.updLink n f).net = s.net := rfl
@[simp] theorem updLink_vars (s : State) (n : Nat) (f : Link → Link) : (s.updLink n f).vars = s.vars := rfl
@[simp] theorem updLink_marks (s : State) (n : Nat) (f : Link → Link) : (s.updLink n f).marks = s.marks := rfl
@[simp] theorem updLink_logs (s : State) (n : Nat) (f : Link → Link) : (s.updLink n f).logs = s.logs := rfl
@[simp] theorem updLink_owners (s : State) (n : Nat) (f : Link → Link) : (s.updLink n f).owners = s.owners := rfl
@[simp] theorem updLink_store (s : State) (n : Nat) (f : Link → Link) : (s.updLink n f).store = s.store := rfl
@[simp] theorem updLink_coh (s : State) (n : Nat) (f : Link → Link) : (s.updLink n f).coh = s.coh := rfl
@[simp] theorem updLink_quince (s : State) (n : Nat) (f : Link → Link) : (s.updLink n f).quince = s.quince := rfl
@[simp] theorem updLink_cipher (s : State) (n : Nat) (f : Link → Link) : (s.updLink n f).cipher = s.cipher := rfl
@[simp] theorem updLink_sieves (s : State) (n : Nat) (f : Link → Link) : (s.updLink n f).sieves = s.sieves := rfl
@[simp] theorem updLink_relay (s : State) (n : Nat) (f : Link → Link) : (s.updLink n f).relay = s.relay := rfl
@[simp] theorem updLink_power (s : State) (n : Nat) (f : Link → Link) : (s.updLink n f).power = s.power := rfl
@[simp] theorem updLink_thermal (s : State) (n : Nat) (f : Link → Link) : (s.updLink n f).thermal = s.thermal := rfl
@[simp] theorem updLink_holdup (s : State) (n : Nat) (f : Link → Link) : (s.updLink n f).holdup = s.holdup := rfl
@[simp] theorem updLink_fw (s : State) (n : Nat) (f : Link → Link) : (s.updLink n f).fw = s.fw := rfl
@[simp] theorem updLink_sb (s : State) (n : Nat) (f : Link → Link) : (s.updLink n f).sb = s.sb := rfl
@[simp] theorem updLink_debug (s : State) (n : Nat) (f : Link → Link) : (s.updLink n f).dbg = s.dbg := rfl
@[simp] theorem updLink_nor (s : State) (n : Nat) (f : Link → Link) : (s.updLink n f).nor = s.nor := rfl

/-! ### `State.foreground` -/

@[simp] theorem foreground_pending (s : State) : (s.foreground).pending = s.pending := rfl
@[simp] theorem foreground_clock (s : State) : (s.foreground).clock = s.clock := rfl
@[simp] theorem foreground_rnd (s : State) : (s.foreground).rnd = s.rnd := rfl
@[simp] theorem foreground_supply (s : State) : (s.foreground).supply = s.supply := rfl
@[simp] theorem foreground_modes (s : State) : (s.foreground).modes = s.modes := rfl
@[simp] theorem foreground_spares (s : State) : (s.foreground).spares = s.spares := rfl
@[simp] theorem foreground_counts (s : State) : (s.foreground).counts = s.counts := rfl
@[simp] theorem foreground_ports (s : State) : (s.foreground).ports = s.ports := rfl
@[simp] theorem foreground_net (s : State) : (s.foreground).net = s.net := rfl
@[simp] theorem foreground_vars (s : State) : (s.foreground).vars = s.vars := rfl
@[simp] theorem foreground_marks (s : State) : (s.foreground).marks = s.marks := rfl
@[simp] theorem foreground_logs (s : State) : (s.foreground).logs = s.logs := rfl
@[simp] theorem foreground_owners (s : State) : (s.foreground).owners = s.owners := rfl
@[simp] theorem foreground_store (s : State) : (s.foreground).store = s.store := rfl
@[simp] theorem foreground_coh (s : State) : (s.foreground).coh = s.coh := rfl
@[simp] theorem foreground_quince (s : State) : (s.foreground).quince = s.quince := rfl
@[simp] theorem foreground_cipher (s : State) : (s.foreground).cipher = s.cipher := rfl
@[simp] theorem foreground_sieves (s : State) : (s.foreground).sieves = s.sieves := rfl
@[simp] theorem foreground_relay (s : State) : (s.foreground).relay = s.relay := rfl
@[simp] theorem foreground_power (s : State) : (s.foreground).power = { s.power with lastFg := s.clock } := rfl
@[simp] theorem foreground_thermal (s : State) : (s.foreground).thermal = s.thermal := rfl
@[simp] theorem foreground_holdup (s : State) : (s.foreground).holdup = s.holdup := rfl
@[simp] theorem foreground_fw (s : State) : (s.foreground).fw = s.fw := rfl
@[simp] theorem foreground_sb (s : State) : (s.foreground).sb = s.sb := rfl
@[simp] theorem foreground_debug (s : State) : (s.foreground).dbg = s.dbg := rfl
@[simp] theorem foreground_nor (s : State) : (s.foreground).nor = s.nor := rfl

/-! ### `State.alert` -/

@[simp] theorem alert_pending (s : State) (a : Alert) : (s.alert a).pending = s.pending := rfl
@[simp] theorem alert_clock (s : State) (a : Alert) : (s.alert a).clock = s.clock := rfl
@[simp] theorem alert_rnd (s : State) (a : Alert) : (s.alert a).rnd = s.rnd := rfl
@[simp] theorem alert_supply (s : State) (a : Alert) : (s.alert a).supply = s.supply := rfl
@[simp] theorem alert_modes (s : State) (a : Alert) : (s.alert a).modes = s.modes := rfl
@[simp] theorem alert_spares (s : State) (a : Alert) : (s.alert a).spares = s.spares := rfl
@[simp] theorem alert_counts (s : State) (a : Alert) : (s.alert a).counts = s.counts := rfl
@[simp] theorem alert_ports (s : State) (a : Alert) : (s.alert a).ports = s.ports := rfl
@[simp] theorem alert_net (s : State) (a : Alert) : (s.alert a).net = s.net := rfl
@[simp] theorem alert_vars (s : State) (a : Alert) : (s.alert a).vars = s.vars := rfl
@[simp] theorem alert_marks (s : State) (a : Alert) : (s.alert a).marks = s.marks := rfl
@[simp] theorem alert_logs (s : State) (a : Alert) : (s.alert a).logs = s.logs := rfl
@[simp] theorem alert_owners (s : State) (a : Alert) : (s.alert a).owners = s.owners := rfl
@[simp] theorem alert_store (s : State) (a : Alert) : (s.alert a).store = s.store := rfl
@[simp] theorem alert_coh (s : State) (a : Alert) : (s.alert a).coh = s.coh := rfl
@[simp] theorem alert_quince (s : State) (a : Alert) : (s.alert a).quince = s.quince := rfl
@[simp] theorem alert_cipher (s : State) (a : Alert) : (s.alert a).cipher = s.cipher := rfl
@[simp] theorem alert_sieves (s : State) (a : Alert) : (s.alert a).sieves = s.sieves := rfl
@[simp] theorem alert_relay (s : State) (a : Alert) : (s.alert a).relay = s.relay := rfl
@[simp] theorem alert_power (s : State) (a : Alert) : (s.alert a).power = s.power := rfl
@[simp] theorem alert_thermal (s : State) (a : Alert) : (s.alert a).thermal = s.thermal := rfl
@[simp] theorem alert_holdup (s : State) (a : Alert) : (s.alert a).holdup = s.holdup := rfl
@[simp] theorem alert_fw (s : State) (a : Alert) : (s.alert a).fw = s.fw := rfl
theorem alert_sb (s : State) (a : Alert) : (s.alert a).sb = { s.sb with alertStatus := s.sb.alertStatus ||| BitVec.ofNat 16 (2 ^ a.bit) } := rfl
@[simp] theorem alert_debug (s : State) (a : Alert) : (s.alert a).dbg = s.dbg := rfl
@[simp] theorem alert_nor (s : State) (a : Alert) : (s.alert a).nor = s.nor := rfl

/-! ### `State.updSlot` -/

@[simp] theorem updSlot_pending (s : State) (id : Nat) (f : RelaySlot → RelaySlot) : (s.updSlot id f).pending = s.pending := rfl
@[simp] theorem updSlot_clock (s : State) (id : Nat) (f : RelaySlot → RelaySlot) : (s.updSlot id f).clock = s.clock := rfl
@[simp] theorem updSlot_rnd (s : State) (id : Nat) (f : RelaySlot → RelaySlot) : (s.updSlot id f).rnd = s.rnd := rfl
@[simp] theorem updSlot_supply (s : State) (id : Nat) (f : RelaySlot → RelaySlot) : (s.updSlot id f).supply = s.supply := rfl
@[simp] theorem updSlot_modes (s : State) (id : Nat) (f : RelaySlot → RelaySlot) : (s.updSlot id f).modes = s.modes := rfl
@[simp] theorem updSlot_spares (s : State) (id : Nat) (f : RelaySlot → RelaySlot) : (s.updSlot id f).spares = s.spares := rfl
@[simp] theorem updSlot_counts (s : State) (id : Nat) (f : RelaySlot → RelaySlot) : (s.updSlot id f).counts = s.counts := rfl
@[simp] theorem updSlot_ports (s : State) (id : Nat) (f : RelaySlot → RelaySlot) : (s.updSlot id f).ports = s.ports := rfl
@[simp] theorem updSlot_net (s : State) (id : Nat) (f : RelaySlot → RelaySlot) : (s.updSlot id f).net = s.net := rfl
@[simp] theorem updSlot_vars (s : State) (id : Nat) (f : RelaySlot → RelaySlot) : (s.updSlot id f).vars = s.vars := rfl
@[simp] theorem updSlot_marks (s : State) (id : Nat) (f : RelaySlot → RelaySlot) : (s.updSlot id f).marks = s.marks := rfl
@[simp] theorem updSlot_logs (s : State) (id : Nat) (f : RelaySlot → RelaySlot) : (s.updSlot id f).logs = s.logs := rfl
@[simp] theorem updSlot_owners (s : State) (id : Nat) (f : RelaySlot → RelaySlot) : (s.updSlot id f).owners = s.owners := rfl
@[simp] theorem updSlot_store (s : State) (id : Nat) (f : RelaySlot → RelaySlot) : (s.updSlot id f).store = s.store := rfl
@[simp] theorem updSlot_coh (s : State) (id : Nat) (f : RelaySlot → RelaySlot) : (s.updSlot id f).coh = s.coh := rfl
@[simp] theorem updSlot_quince (s : State) (id : Nat) (f : RelaySlot → RelaySlot) : (s.updSlot id f).quince = s.quince := rfl
@[simp] theorem updSlot_cipher (s : State) (id : Nat) (f : RelaySlot → RelaySlot) : (s.updSlot id f).cipher = s.cipher := rfl
@[simp] theorem updSlot_sieves (s : State) (id : Nat) (f : RelaySlot → RelaySlot) : (s.updSlot id f).sieves = s.sieves := rfl
@[simp] theorem updSlot_relay (s : State) (id : Nat) (f : RelaySlot → RelaySlot) : (s.updSlot id f).relay = { s.relay with slots := upd (·.id == id) f s.relay.slots } := rfl
@[simp] theorem updSlot_power (s : State) (id : Nat) (f : RelaySlot → RelaySlot) : (s.updSlot id f).power = s.power := rfl
@[simp] theorem updSlot_thermal (s : State) (id : Nat) (f : RelaySlot → RelaySlot) : (s.updSlot id f).thermal = s.thermal := rfl
@[simp] theorem updSlot_holdup (s : State) (id : Nat) (f : RelaySlot → RelaySlot) : (s.updSlot id f).holdup = s.holdup := rfl
@[simp] theorem updSlot_fw (s : State) (id : Nat) (f : RelaySlot → RelaySlot) : (s.updSlot id f).fw = s.fw := rfl
@[simp] theorem updSlot_sb (s : State) (id : Nat) (f : RelaySlot → RelaySlot) : (s.updSlot id f).sb = s.sb := rfl
@[simp] theorem updSlot_debug (s : State) (id : Nat) (f : RelaySlot → RelaySlot) : (s.updSlot id f).dbg = s.dbg := rfl
@[simp] theorem updSlot_nor (s : State) (id : Nat) (f : RelaySlot → RelaySlot) : (s.updSlot id f).nor = s.nor := rfl

/-! ### `State.setPair` -/

@[simp] theorem setPair_pending (s : State) (p : Pair) : (s.setPair p).pending = s.pending := rfl
@[simp] theorem setPair_clock (s : State) (p : Pair) : (s.setPair p).clock = s.clock := rfl
@[simp] theorem setPair_rnd (s : State) (p : Pair) : (s.setPair p).rnd = s.rnd := rfl
@[simp] theorem setPair_supply (s : State) (p : Pair) : (s.setPair p).supply = s.supply := rfl
@[simp] theorem setPair_modes (s : State) (p : Pair) : (s.setPair p).modes = s.modes := rfl
@[simp] theorem setPair_spares (s : State) (p : Pair) : (s.setPair p).spares = s.spares := rfl
@[simp] theorem setPair_counts (s : State) (p : Pair) : (s.setPair p).counts = s.counts := rfl
@[simp] theorem setPair_ports (s : State) (p : Pair) : (s.setPair p).ports = s.ports := rfl
@[simp] theorem setPair_net (s : State) (p : Pair) : (s.setPair p).net = s.net := rfl
@[simp] theorem setPair_vars (s : State) (p : Pair) : (s.setPair p).vars = s.vars := rfl
@[simp] theorem setPair_marks (s : State) (p : Pair) : (s.setPair p).marks = s.marks := rfl
@[simp] theorem setPair_logs (s : State) (p : Pair) : (s.setPair p).logs = s.logs := rfl
@[simp] theorem setPair_owners (s : State) (p : Pair) : (s.setPair p).owners = s.owners := rfl
@[simp] theorem setPair_store (s : State) (p : Pair) : (s.setPair p).store = s.store := rfl
@[simp] theorem setPair_coh (s : State) (p : Pair) : (s.setPair p).coh = s.coh := rfl
@[simp] theorem setPair_quince (s : State) (p : Pair) : (s.setPair p).quince = s.quince := rfl
@[simp] theorem setPair_cipher (s : State) (p : Pair) : (s.setPair p).cipher = s.cipher := rfl
@[simp] theorem setPair_sieves (s : State) (p : Pair) : (s.setPair p).sieves = s.sieves := rfl
@[simp] theorem setPair_relay (s : State) (p : Pair) : (s.setPair p).relay = { s.relay with pairs := p :: s.relay.pairs.filter (fun q => !(q.keyspace == p.keyspace && q.succ == p.succ)) } := rfl
@[simp] theorem setPair_power (s : State) (p : Pair) : (s.setPair p).power = s.power := rfl
@[simp] theorem setPair_thermal (s : State) (p : Pair) : (s.setPair p).thermal = s.thermal := rfl
@[simp] theorem setPair_holdup (s : State) (p : Pair) : (s.setPair p).holdup = s.holdup := rfl
@[simp] theorem setPair_fw (s : State) (p : Pair) : (s.setPair p).fw = s.fw := rfl
@[simp] theorem setPair_sb (s : State) (p : Pair) : (s.setPair p).sb = s.sb := rfl
@[simp] theorem setPair_debug (s : State) (p : Pair) : (s.setPair p).dbg = s.dbg := rfl
@[simp] theorem setPair_nor (s : State) (p : Pair) : (s.setPair p).nor = s.nor := rfl

/-! ### `State.updGroup` -/

@[simp] theorem updGroup_pending (s : State) (n : Nat) (f : Group → Group) : (s.updGroup n f).pending = s.pending := rfl
@[simp] theorem updGroup_clock (s : State) (n : Nat) (f : Group → Group) : (s.updGroup n f).clock = s.clock := rfl
@[simp] theorem updGroup_rnd (s : State) (n : Nat) (f : Group → Group) : (s.updGroup n f).rnd = s.rnd := rfl
@[simp] theorem updGroup_supply (s : State) (n : Nat) (f : Group → Group) : (s.updGroup n f).supply = s.supply := rfl
@[simp] theorem updGroup_modes (s : State) (n : Nat) (f : Group → Group) : (s.updGroup n f).modes = s.modes := rfl
@[simp] theorem updGroup_spares (s : State) (n : Nat) (f : Group → Group) : (s.updGroup n f).spares = s.spares := rfl
@[simp] theorem updGroup_counts (s : State) (n : Nat) (f : Group → Group) : (s.updGroup n f).counts = s.counts := rfl
@[simp] theorem updGroup_ports (s : State) (n : Nat) (f : Group → Group) : (s.updGroup n f).ports = s.ports := rfl
@[simp] theorem updGroup_net (s : State) (n : Nat) (f : Group → Group) : (s.updGroup n f).net = s.net := rfl
@[simp] theorem updGroup_vars (s : State) (n : Nat) (f : Group → Group) : (s.updGroup n f).vars = s.vars := rfl
@[simp] theorem updGroup_marks (s : State) (n : Nat) (f : Group → Group) : (s.updGroup n f).marks = s.marks := rfl
@[simp] theorem updGroup_logs (s : State) (n : Nat) (f : Group → Group) : (s.updGroup n f).logs = s.logs := rfl
@[simp] theorem updGroup_owners (s : State) (n : Nat) (f : Group → Group) : (s.updGroup n f).owners = s.owners := rfl
@[simp] theorem updGroup_store (s : State) (n : Nat) (f : Group → Group) : (s.updGroup n f).store = { s.store with groups := upd (·.num == n) f s.store.groups } := rfl
@[simp] theorem updGroup_coh (s : State) (n : Nat) (f : Group → Group) : (s.updGroup n f).coh = s.coh := rfl
@[simp] theorem updGroup_quince (s : State) (n : Nat) (f : Group → Group) : (s.updGroup n f).quince = s.quince := rfl
@[simp] theorem updGroup_cipher (s : State) (n : Nat) (f : Group → Group) : (s.updGroup n f).cipher = s.cipher := rfl
@[simp] theorem updGroup_sieves (s : State) (n : Nat) (f : Group → Group) : (s.updGroup n f).sieves = s.sieves := rfl
@[simp] theorem updGroup_relay (s : State) (n : Nat) (f : Group → Group) : (s.updGroup n f).relay = s.relay := rfl
@[simp] theorem updGroup_power (s : State) (n : Nat) (f : Group → Group) : (s.updGroup n f).power = s.power := rfl
@[simp] theorem updGroup_thermal (s : State) (n : Nat) (f : Group → Group) : (s.updGroup n f).thermal = s.thermal := rfl
@[simp] theorem updGroup_holdup (s : State) (n : Nat) (f : Group → Group) : (s.updGroup n f).holdup = s.holdup := rfl
@[simp] theorem updGroup_fw (s : State) (n : Nat) (f : Group → Group) : (s.updGroup n f).fw = s.fw := rfl
@[simp] theorem updGroup_sb (s : State) (n : Nat) (f : Group → Group) : (s.updGroup n f).sb = s.sb := rfl
@[simp] theorem updGroup_debug (s : State) (n : Nat) (f : Group → Group) : (s.updGroup n f).dbg = s.dbg := rfl
@[simp] theorem updGroup_nor (s : State) (n : Nat) (f : Group → Group) : (s.updGroup n f).nor = s.nor := rfl

/-! ### `State.setPage` -/

@[simp] theorem setPage_pending (s : State) (p : KeyPage) : (s.setPage p).pending = s.pending := rfl
@[simp] theorem setPage_clock (s : State) (p : KeyPage) : (s.setPage p).clock = s.clock := rfl
@[simp] theorem setPage_rnd (s : State) (p : KeyPage) : (s.setPage p).rnd = s.rnd := rfl
@[simp] theorem setPage_supply (s : State) (p : KeyPage) : (s.setPage p).supply = s.supply := rfl
@[simp] theorem setPage_modes (s : State) (p : KeyPage) : (s.setPage p).modes = s.modes := rfl
@[simp] theorem setPage_spares (s : State) (p : KeyPage) : (s.setPage p).spares = s.spares := rfl
@[simp] theorem setPage_counts (s : State) (p : KeyPage) : (s.setPage p).counts = s.counts := rfl
@[simp] theorem setPage_ports (s : State) (p : KeyPage) : (s.setPage p).ports = s.ports := rfl
@[simp] theorem setPage_net (s : State) (p : KeyPage) : (s.setPage p).net = s.net := rfl
@[simp] theorem setPage_vars (s : State) (p : KeyPage) : (s.setPage p).vars = s.vars := rfl
@[simp] theorem setPage_marks (s : State) (p : KeyPage) : (s.setPage p).marks = s.marks := rfl
@[simp] theorem setPage_logs (s : State) (p : KeyPage) : (s.setPage p).logs = s.logs := rfl
@[simp] theorem setPage_owners (s : State) (p : KeyPage) : (s.setPage p).owners = s.owners := rfl
@[simp] theorem setPage_store (s : State) (p : KeyPage) : (s.setPage p).store = s.store := rfl
@[simp] theorem setPage_coh (s : State) (p : KeyPage) : (s.setPage p).coh = s.coh := rfl
@[simp] theorem setPage_quince (s : State) (p : KeyPage) : (s.setPage p).quince = s.quince := rfl
@[simp] theorem setPage_cipher (s : State) (p : KeyPage) : (s.setPage p).cipher = { s.cipher with pages := p :: s.cipher.pages.filter (fun q => q.n != p.n) } := rfl
@[simp] theorem setPage_sieves (s : State) (p : KeyPage) : (s.setPage p).sieves = s.sieves := rfl
@[simp] theorem setPage_relay (s : State) (p : KeyPage) : (s.setPage p).relay = s.relay := rfl
@[simp] theorem setPage_power (s : State) (p : KeyPage) : (s.setPage p).power = s.power := rfl
@[simp] theorem setPage_thermal (s : State) (p : KeyPage) : (s.setPage p).thermal = s.thermal := rfl
@[simp] theorem setPage_holdup (s : State) (p : KeyPage) : (s.setPage p).holdup = s.holdup := rfl
@[simp] theorem setPage_fw (s : State) (p : KeyPage) : (s.setPage p).fw = s.fw := rfl
@[simp] theorem setPage_sb (s : State) (p : KeyPage) : (s.setPage p).sb = s.sb := rfl
@[simp] theorem setPage_debug (s : State) (p : KeyPage) : (s.setPage p).dbg = s.dbg := rfl
@[simp] theorem setPage_nor (s : State) (p : KeyPage) : (s.setPage p).nor = s.nor := rfl

/-! ### `State.setPipe` -/

@[simp] theorem setPipe_pending (s : State) (p : Pipe) : (s.setPipe p).pending = s.pending := rfl
@[simp] theorem setPipe_clock (s : State) (p : Pipe) : (s.setPipe p).clock = s.clock := rfl
@[simp] theorem setPipe_rnd (s : State) (p : Pipe) : (s.setPipe p).rnd = s.rnd := rfl
@[simp] theorem setPipe_supply (s : State) (p : Pipe) : (s.setPipe p).supply = s.supply := rfl
@[simp] theorem setPipe_modes (s : State) (p : Pipe) : (s.setPipe p).modes = s.modes := rfl
@[simp] theorem setPipe_spares (s : State) (p : Pipe) : (s.setPipe p).spares = s.spares := rfl
@[simp] theorem setPipe_counts (s : State) (p : Pipe) : (s.setPipe p).counts = s.counts := rfl
@[simp] theorem setPipe_ports (s : State) (p : Pipe) : (s.setPipe p).ports = s.ports := rfl
@[simp] theorem setPipe_net (s : State) (p : Pipe) : (s.setPipe p).net = s.net := rfl
@[simp] theorem setPipe_vars (s : State) (p : Pipe) : (s.setPipe p).vars = s.vars := rfl
@[simp] theorem setPipe_marks (s : State) (p : Pipe) : (s.setPipe p).marks = s.marks := rfl
@[simp] theorem setPipe_logs (s : State) (p : Pipe) : (s.setPipe p).logs = s.logs := rfl
@[simp] theorem setPipe_owners (s : State) (p : Pipe) : (s.setPipe p).owners = s.owners := rfl
@[simp] theorem setPipe_store (s : State) (p : Pipe) : (s.setPipe p).store = s.store := rfl
@[simp] theorem setPipe_coh (s : State) (p : Pipe) : (s.setPipe p).coh = s.coh := rfl
@[simp] theorem setPipe_quince (s : State) (p : Pipe) : (s.setPipe p).quince = s.quince := rfl
@[simp] theorem setPipe_cipher (s : State) (p : Pipe) : (s.setPipe p).cipher = { s.cipher with pipes := upd (·.n == p.n) (fun _ => p) s.cipher.pipes } := rfl
@[simp] theorem setPipe_sieves (s : State) (p : Pipe) : (s.setPipe p).sieves = s.sieves := rfl
@[simp] theorem setPipe_relay (s : State) (p : Pipe) : (s.setPipe p).relay = s.relay := rfl
@[simp] theorem setPipe_power (s : State) (p : Pipe) : (s.setPipe p).power = s.power := rfl
@[simp] theorem setPipe_thermal (s : State) (p : Pipe) : (s.setPipe p).thermal = s.thermal := rfl
@[simp] theorem setPipe_holdup (s : State) (p : Pipe) : (s.setPipe p).holdup = s.holdup := rfl
@[simp] theorem setPipe_fw (s : State) (p : Pipe) : (s.setPipe p).fw = s.fw := rfl
@[simp] theorem setPipe_sb (s : State) (p : Pipe) : (s.setPipe p).sb = s.sb := rfl
@[simp] theorem setPipe_debug (s : State) (p : Pipe) : (s.setPipe p).dbg = s.dbg := rfl
@[simp] theorem setPipe_nor (s : State) (p : Pipe) : (s.setPipe p).nor = s.nor := rfl

/-! ### `State.updSieve` -/

@[simp] theorem updSieve_pending (s : State) (slot : Nat) (f : Sieve → Sieve) : (s.updSieve slot f).pending = s.pending := rfl
@[simp] theorem updSieve_clock (s : State) (slot : Nat) (f : Sieve → Sieve) : (s.updSieve slot f).clock = s.clock := rfl
@[simp] theorem updSieve_rnd (s : State) (slot : Nat) (f : Sieve → Sieve) : (s.updSieve slot f).rnd = s.rnd := rfl
@[simp] theorem updSieve_supply (s : State) (slot : Nat) (f : Sieve → Sieve) : (s.updSieve slot f).supply = s.supply := rfl
@[simp] theorem updSieve_modes (s : State) (slot : Nat) (f : Sieve → Sieve) : (s.updSieve slot f).modes = s.modes := rfl
@[simp] theorem updSieve_spares (s : State) (slot : Nat) (f : Sieve → Sieve) : (s.updSieve slot f).spares = s.spares := rfl
@[simp] theorem updSieve_counts (s : State) (slot : Nat) (f : Sieve → Sieve) : (s.updSieve slot f).counts = s.counts := rfl
@[simp] theorem updSieve_ports (s : State) (slot : Nat) (f : Sieve → Sieve) : (s.updSieve slot f).ports = s.ports := rfl
@[simp] theorem updSieve_net (s : State) (slot : Nat) (f : Sieve → Sieve) : (s.updSieve slot f).net = s.net := rfl
@[simp] theorem updSieve_vars (s : State) (slot : Nat) (f : Sieve → Sieve) : (s.updSieve slot f).vars = s.vars := rfl
@[simp] theorem updSieve_marks (s : State) (slot : Nat) (f : Sieve → Sieve) : (s.updSieve slot f).marks = s.marks := rfl
@[simp] theorem updSieve_logs (s : State) (slot : Nat) (f : Sieve → Sieve) : (s.updSieve slot f).logs = s.logs := rfl
@[simp] theorem updSieve_owners (s : State) (slot : Nat) (f : Sieve → Sieve) : (s.updSieve slot f).owners = s.owners := rfl
@[simp] theorem updSieve_store (s : State) (slot : Nat) (f : Sieve → Sieve) : (s.updSieve slot f).store = s.store := rfl
@[simp] theorem updSieve_coh (s : State) (slot : Nat) (f : Sieve → Sieve) : (s.updSieve slot f).coh = s.coh := rfl
@[simp] theorem updSieve_quince (s : State) (slot : Nat) (f : Sieve → Sieve) : (s.updSieve slot f).quince = s.quince := rfl
@[simp] theorem updSieve_cipher (s : State) (slot : Nat) (f : Sieve → Sieve) : (s.updSieve slot f).cipher = s.cipher := rfl
@[simp] theorem updSieve_sieves (s : State) (slot : Nat) (f : Sieve → Sieve) : (s.updSieve slot f).sieves = { s.sieves with list := upd (·.slot == slot) f s.sieves.list } := rfl
@[simp] theorem updSieve_relay (s : State) (slot : Nat) (f : Sieve → Sieve) : (s.updSieve slot f).relay = s.relay := rfl
@[simp] theorem updSieve_power (s : State) (slot : Nat) (f : Sieve → Sieve) : (s.updSieve slot f).power = s.power := rfl
@[simp] theorem updSieve_thermal (s : State) (slot : Nat) (f : Sieve → Sieve) : (s.updSieve slot f).thermal = s.thermal := rfl
@[simp] theorem updSieve_holdup (s : State) (slot : Nat) (f : Sieve → Sieve) : (s.updSieve slot f).holdup = s.holdup := rfl
@[simp] theorem updSieve_fw (s : State) (slot : Nat) (f : Sieve → Sieve) : (s.updSieve slot f).fw = s.fw := rfl
@[simp] theorem updSieve_sb (s : State) (slot : Nat) (f : Sieve → Sieve) : (s.updSieve slot f).sb = s.sb := rfl
@[simp] theorem updSieve_debug (s : State) (slot : Nat) (f : Sieve → Sieve) : (s.updSieve slot f).dbg = s.dbg := rfl
@[simp] theorem updSieve_nor (s : State) (slot : Nat) (f : Sieve → Sieve) : (s.updSieve slot f).nor = s.nor := rfl

end Sys2Proof.Machine
end

