-- ==== Sys2Proof/Laws/Fields.lean ====
section
/-! SUPPORT. What single operations leave as it was, part by part: one lemma for the parts an operation may change (`…_frame`) and, of the
parts it does not, those that later proofs rewrite with. -/

set_option Elab.async false

namespace Sys2Proof.Machine

theorem alert_frame (s : State) (a : Alert) : Keeps [.sb] s ((State.alert s a)) :=
  alert_keeps (Keeps.refl _ _) a rfl

theorem qUpdate_frame (s : State) (bank row : Nat) (ways : List Way) : Keeps [.quince] s ((State.qUpdate s bank row ways)) :=
  qUpdate_keeps (Keeps.refl _ _) bank row ways rfl

@[simp] theorem qUpdate_store (s : State) (bank row : Nat) (ways : List Way) : ((State.qUpdate s bank row ways)).store = s.store :=
  Keeps.store (qUpdate_frame s bank row ways) (by decide)

@[simp] theorem qUpdate_relay (s : State) (bank row : Nat) (ways : List Way) : ((State.qUpdate s bank row ways)).relay = s.relay :=
  qUpdate_frame s bank row ways .relay (by decide)

theorem qWithdraw_frame (s : State) (fp : BitVec 128) (priority : Nat) : Keeps [.quince] s ((State.qWithdraw s fp priority)) :=
  qWithdraw_keeps (Keeps.refl _ _) fp priority rfl

@[simp] theorem qWithdraw_net (s : State) (fp : BitVec 128) (priority : Nat) : ((State.qWithdraw s fp priority)).net = s.net :=
  Keeps.net (qWithdraw_frame s fp priority) (by decide)

@[simp] theorem qWithdraw_store (s : State) (fp : BitVec 128) (priority : Nat) : ((State.qWithdraw s fp priority)).store = s.store :=
  Keeps.store (qWithdraw_frame s fp priority) (by decide)

@[simp] theorem qWithdraw_cipher (s : State) (fp : BitVec 128) (priority : Nat) : ((State.qWithdraw s fp priority)).cipher = s.cipher :=
  Keeps.cipher (qWithdraw_frame s fp priority) (by decide)

@[simp] theorem qWithdraw_pending (s : State) (fp : BitVec 128) (priority : Nat) : ((State.qWithdraw s fp priority)).pending = s.pending :=
  qWithdraw_frame s fp priority .pending (by decide)

@[simp] theorem qWithdraw_clock (s : State) (fp : BitVec 128) (priority : Nat) : ((State.qWithdraw s fp priority)).clock = s.clock :=
  qWithdraw_frame s fp priority .clock (by decide)

@[simp] theorem qWithdraw_rnd (s : State) (fp : BitVec 128) (priority : Nat) : ((State.qWithdraw s fp priority)).rnd = s.rnd :=
  qWithdraw_frame s fp priority .rnd (by decide)

@[simp] theorem qWithdraw_supply (s : State) (fp : BitVec 128) (priority : Nat) : ((State.qWithdraw s fp priority)).supply = s.supply :=
  qWithdraw_frame s fp priority .supply (by decide)

@[simp] theorem qWithdraw_modes (s : State) (fp : BitVec 128) (priority : Nat) : ((State.qWithdraw s fp priority)).modes = s.modes :=
  qWithdraw_frame s fp priority .modes (by decide)

@[simp] theorem qWithdraw_spares (s : State) (fp : BitVec 128) (priority : Nat) : ((State.qWithdraw s fp priority)).spares = s.spares :=
  qWithdraw_frame s fp priority .spares (by decide)

@[simp] theorem qWithdraw_counts (s : State) (fp : BitVec 128) (priority : Nat) : ((State.qWithdraw s fp priority)).counts = s.counts :=
  qWithdraw_frame s fp priority .counts (by decide)

@[simp] theorem qWithdraw_ports (s : State) (fp : BitVec 128) (priority : Nat) : ((State.qWithdraw s fp priority)).ports = s.ports :=
  qWithdraw_frame s fp priority .ports (by decide)

@[simp] theorem qWithdraw_vars (s : State) (fp : BitVec 128) (priority : Nat) : ((State.qWithdraw s fp priority)).vars = s.vars :=
  qWithdraw_frame s fp priority .vars (by decide)

@[simp] theorem qWithdraw_marks (s : State) (fp : BitVec 128) (priority : Nat) : ((State.qWithdraw s fp priority)).marks = s.marks :=
  qWithdraw_frame s fp priority .marks (by decide)

@[simp] theorem qWithdraw_logs (s : State) (fp : BitVec 128) (priority : Nat) : ((State.qWithdraw s fp priority)).logs = s.logs :=
  qWithdraw_frame s fp priority .logs (by decide)

@[simp] theorem qWithdraw_owners (s : State) (fp : BitVec 128) (priority : Nat) : ((State.qWithdraw s fp priority)).owners = s.owners :=
  qWithdraw_frame s fp priority .owners (by decide)

@[simp] theorem qWithdraw_coh (s : State) (fp : BitVec 128) (priority : Nat) : ((State.qWithdraw s fp priority)).coh = s.coh :=
  qWithdraw_frame s fp priority .coh (by decide)

@[simp] theorem qWithdraw_sieves (s : State) (fp : BitVec 128) (priority : Nat) : ((State.qWithdraw s fp priority)).sieves = s.sieves :=
  qWithdraw_frame s fp priority .sieves (by decide)

@[simp] theorem qWithdraw_relay (s : State) (fp : BitVec 128) (priority : Nat) : ((State.qWithdraw s fp priority)).relay = s.relay :=
  qWithdraw_frame s fp priority .relay (by decide)

@[simp] theorem qWithdraw_power (s : State) (fp : BitVec 128) (priority : Nat) : ((State.qWithdraw s fp priority)).power = s.power :=
  qWithdraw_frame s fp priority .power (by decide)

@[simp] theorem qWithdraw_thermal (s : State) (fp : BitVec 128) (priority : Nat) : ((State.qWithdraw s fp priority)).thermal = s.thermal :=
  qWithdraw_frame s fp priority .thermal (by decide)

@[simp] theorem qWithdraw_holdup (s : State) (fp : BitVec 128) (priority : Nat) : ((State.qWithdraw s fp priority)).holdup = s.holdup :=
  qWithdraw_frame s fp priority .holdup (by decide)

@[simp] theorem qWithdraw_fw (s : State) (fp : BitVec 128) (priority : Nat) : ((State.qWithdraw s fp priority)).fw = s.fw :=
  qWithdraw_frame s fp priority .fw (by decide)

@[simp] theorem qWithdraw_sb (s : State) (fp : BitVec 128) (priority : Nat) : ((State.qWithdraw s fp priority)).sb = s.sb :=
  qWithdraw_frame s fp priority .sb (by decide)

@[simp] theorem qWithdraw_debug (s : State) (fp : BitVec 128) (priority : Nat) : ((State.qWithdraw s fp priority)).dbg = s.dbg :=
  qWithdraw_frame s fp priority .dbg (by decide)

@[simp] theorem qWithdraw_nor (s : State) (fp : BitVec 128) (priority : Nat) : ((State.qWithdraw s fp priority)).nor = s.nor :=
  qWithdraw_frame s fp priority .nor (by decide)

theorem qCommit_frame (s : State) (fp : BitVec 128) (tentative : Nat) (final : Option Way) : Keeps [.quince] s ((State.qCommit s fp tentative final)) :=
  qCommit_keeps (Keeps.refl _ _) fp tentative final rfl

@[simp] theorem qCommit_net (s : State) (fp : BitVec 128) (tentative : Nat) (final : Option Way) : ((State.qCommit s fp tentative final)).net = s.net :=
  Keeps.net (qCommit_frame s fp tentative final) (by decide)

@[simp] theorem qCommit_store (s : State) (fp : BitVec 128) (tentative : Nat) (final : Option Way) : ((State.qCommit s fp tentative final)).store = s.store :=
  Keeps.store (qCommit_frame s fp tentative final) (by decide)

@[simp] theorem qCommit_cipher (s : State) (fp : BitVec 128) (tentative : Nat) (final : Option Way) : ((State.qCommit s fp tentative final)).cipher = s.cipher :=
  Keeps.cipher (qCommit_frame s fp tentative final) (by decide)

@[simp] theorem qCommit_pending (s : State) (fp : BitVec 128) (tentative : Nat) (final : Option Way) : ((State.qCommit s fp tentative final)).pending = s.pending :=
  qCommit_frame s fp tentative final .pending (by decide)

@[simp] theorem qCommit_clock (s : State) (fp : BitVec 128) (tentative : Nat) (final : Option Way) : ((State.qCommit s fp tentative final)).clock = s.clock :=
  qCommit_frame s fp tentative final .clock (by decide)

@[simp] theorem qCommit_rnd (s : State) (fp : BitVec 128) (tentative : Nat) (final : Option Way) : ((State.qCommit s fp tentative final)).rnd = s.rnd :=
  qCommit_frame s fp tentative final .rnd (by decide)

@[simp] theorem qCommit_supply (s : State) (fp : BitVec 128) (tentative : Nat) (final : Option Way) : ((State.qCommit s fp tentative final)).supply = s.supply :=
  qCommit_frame s fp tentative final .supply (by decide)

@[simp] theorem qCommit_modes (s : State) (fp : BitVec 128) (tentative : Nat) (final : Option Way) : ((State.qCommit s fp tentative final)).modes = s.modes :=
  qCommit_frame s fp tentative final .modes (by decide)

@[simp] theorem qCommit_spares (s : State) (fp : BitVec 128) (tentative : Nat) (final : Option Way) : ((State.qCommit s fp tentative final)).spares = s.spares :=
  qCommit_frame s fp tentative final .spares (by decide)

@[simp] theorem qCommit_counts (s : State) (fp : BitVec 128) (tentative : Nat) (final : Option Way) : ((State.qCommit s fp tentative final)).counts = s.counts :=
  qCommit_frame s fp tentative final .counts (by decide)

@[simp] theorem qCommit_ports (s : State) (fp : BitVec 128) (tentative : Nat) (final : Option Way) : ((State.qCommit s fp tentative final)).ports = s.ports :=
  qCommit_frame s fp tentative final .ports (by decide)

@[simp] theorem qCommit_vars (s : State) (fp : BitVec 128) (tentative : Nat) (final : Option Way) : ((State.qCommit s fp tentative final)).vars = s.vars :=
  qCommit_frame s fp tentative final .vars (by decide)

@[simp] theorem qCommit_marks (s : State) (fp : BitVec 128) (tentative : Nat) (final : Option Way) : ((State.qCommit s fp tentative final)).marks = s.marks :=
  qCommit_frame s fp tentative final .marks (by decide)

@[simp] theorem qCommit_logs (s : State) (fp : BitVec 128) (tentative : Nat) (final : Option Way) : ((State.qCommit s fp tentative final)).logs = s.logs :=
  qCommit_frame s fp tentative final .logs (by decide)

@[simp] theorem qCommit_owners (s : State) (fp : BitVec 128) (tentative : Nat) (final : Option Way) : ((State.qCommit s fp tentative final)).owners = s.owners :=
  qCommit_frame s fp tentative final .owners (by decide)

@[simp] theorem qCommit_coh (s : State) (fp : BitVec 128) (tentative : Nat) (final : Option Way) : ((State.qCommit s fp tentative final)).coh = s.coh :=
  qCommit_frame s fp tentative final .coh (by decide)

@[simp] theorem qCommit_sieves (s : State) (fp : BitVec 128) (tentative : Nat) (final : Option Way) : ((State.qCommit s fp tentative final)).sieves = s.sieves :=
  qCommit_frame s fp tentative final .sieves (by decide)

@[simp] theorem qCommit_relay (s : State) (fp : BitVec 128) (tentative : Nat) (final : Option Way) : ((State.qCommit s fp tentative final)).relay = s.relay :=
  qCommit_frame s fp tentative final .relay (by decide)

@[simp] theorem qCommit_power (s : State) (fp : BitVec 128) (tentative : Nat) (final : Option Way) : ((State.qCommit s fp tentative final)).power = s.power :=
  qCommit_frame s fp tentative final .power (by decide)

@[simp] theorem qCommit_thermal (s : State) (fp : BitVec 128) (tentative : Nat) (final : Option Way) : ((State.qCommit s fp tentative final)).thermal = s.thermal :=
  qCommit_frame s fp tentative final .thermal (by decide)

@[simp] theorem qCommit_holdup (s : State) (fp : BitVec 128) (tentative : Nat) (final : Option Way) : ((State.qCommit s fp tentative final)).holdup = s.holdup :=
  qCommit_frame s fp tentative final .holdup (by decide)

@[simp] theorem qCommit_fw (s : State) (fp : BitVec 128) (tentative : Nat) (final : Option Way) : ((State.qCommit s fp tentative final)).fw = s.fw :=
  qCommit_frame s fp tentative final .fw (by decide)

@[simp] theorem qCommit_sb (s : State) (fp : BitVec 128) (tentative : Nat) (final : Option Way) : ((State.qCommit s fp tentative final)).sb = s.sb :=
  qCommit_frame s fp tentative final .sb (by decide)

@[simp] theorem qCommit_debug (s : State) (fp : BitVec 128) (tentative : Nat) (final : Option Way) : ((State.qCommit s fp tentative final)).dbg = s.dbg :=
  qCommit_frame s fp tentative final .dbg (by decide)

@[simp] theorem qCommit_nor (s : State) (fp : BitVec 128) (tentative : Nat) (final : Option Way) : ((State.qCommit s fp tentative final)).nor = s.nor :=
  qCommit_frame s fp tentative final .nor (by decide)

theorem drawn_frame (s : State) : Keeps [.rnd] s ((State.drawn s)) :=
  drawn_keeps (Keeps.refl _ _) rfl

theorem updCtx_frame (s : State) (c : Nat) (f : Ctx → Ctx) : Keeps [.ctxs] s ((State.updCtx s c f)) :=
  updCtx_keeps (Keeps.refl _ _) c f rfl

theorem updSession_frame (s : State) (n : Nat) (f : Session → Session) : Keeps [.sessions] s ((State.updSession s n f)) :=
  updSession_keeps (Keeps.refl _ _) n f rfl

theorem updKeyspace_frame (s : State) (k : Nat) (f : Keyspace → Keyspace) : Keeps [.keyspaces] s ((State.updKeyspace s k f)) :=
  updKeyspace_keeps (Keeps.refl _ _) k f rfl

theorem updOwner_frame (s : State) (o : Nat) (f : Owner → Owner) : Keeps [.owners] s ((State.updOwner s o f)) :=
  updOwner_keeps (Keeps.refl _ _) o f rfl

theorem updLink_frame (s : State) (n : Nat) (f : Link → Link) : Keeps [.ports] s ((State.updLink s n f)) :=
  updLink_keeps (Keeps.refl _ _) n f rfl

theorem setCage_frame (s : State) (portB : Bool) (c : Cage) : Keeps [.ports] s ((State.setCage s portB c)) :=
  setCage_keeps (Keeps.refl _ _) portB c rfl

@[simp] theorem setCage_clock (s : State) (portB : Bool) (c : Cage) : ((State.setCage s portB c)).clock = s.clock :=
  setCage_frame s portB c .clock (by decide)

@[simp] theorem setCage_supply (s : State) (portB : Bool) (c : Cage) : ((State.setCage s portB c)).supply = s.supply :=
  setCage_frame s portB c .supply (by decide)

@[simp] theorem setCage_modes (s : State) (portB : Bool) (c : Cage) : ((State.setCage s portB c)).modes = s.modes :=
  setCage_frame s portB c .modes (by decide)

theorem console_frame (s : State) (line : Bytes) : Keeps [.dbg] s ((State.console s line)) :=
  console_keeps (Keeps.refl _ _) line rfl

@[simp] theorem console_net (s : State) (line : Bytes) : ((State.console s line)).net = s.net :=
  Keeps.net (console_frame s line) (by decide)

@[simp] theorem console_store (s : State) (line : Bytes) : ((State.console s line)).store = s.store :=
  Keeps.store (console_frame s line) (by decide)

@[simp] theorem console_cipher (s : State) (line : Bytes) : ((State.console s line)).cipher = s.cipher :=
  Keeps.cipher (console_frame s line) (by decide)

@[simp] theorem console_pending (s : State) (line : Bytes) : ((State.console s line)).pending = s.pending :=
  console_frame s line .pending (by decide)

@[simp] theorem console_clock (s : State) (line : Bytes) : ((State.console s line)).clock = s.clock :=
  console_frame s line .clock (by decide)

@[simp] theorem console_rnd (s : State) (line : Bytes) : ((State.console s line)).rnd = s.rnd :=
  console_frame s line .rnd (by decide)

@[simp] theorem console_supply (s : State) (line : Bytes) : ((State.console s line)).supply = s.supply :=
  console_frame s line .supply (by decide)

@[simp] theorem console_modes (s : State) (line : Bytes) : ((State.console s line)).modes = s.modes :=
  console_frame s line .modes (by decide)

@[simp] theorem console_spares (s : State) (line : Bytes) : ((State.console s line)).spares = s.spares :=
  console_frame s line .spares (by decide)

@[simp] theorem console_counts (s : State) (line : Bytes) : ((State.console s line)).counts = s.counts :=
  console_frame s line .counts (by decide)

@[simp] theorem console_ports (s : State) (line : Bytes) : ((State.console s line)).ports = s.ports :=
  console_frame s line .ports (by decide)

@[simp] theorem console_vars (s : State) (line : Bytes) : ((State.console s line)).vars = s.vars :=
  console_frame s line .vars (by decide)

@[simp] theorem console_marks (s : State) (line : Bytes) : ((State.console s line)).marks = s.marks :=
  console_frame s line .marks (by decide)

@[simp] theorem console_logs (s : State) (line : Bytes) : ((State.console s line)).logs = s.logs :=
  console_frame s line .logs (by decide)

@[simp] theorem console_owners (s : State) (line : Bytes) : ((State.console s line)).owners = s.owners :=
  console_frame s line .owners (by decide)

@[simp] theorem console_coh (s : State) (line : Bytes) : ((State.console s line)).coh = s.coh :=
  console_frame s line .coh (by decide)

@[simp] theorem console_quince (s : State) (line : Bytes) : ((State.console s line)).quince = s.quince :=
  console_frame s line .quince (by decide)

@[simp] theorem console_sieves (s : State) (line : Bytes) : ((State.console s line)).sieves = s.sieves :=
  console_frame s line .sieves (by decide)

@[simp] theorem console_relay (s : State) (line : Bytes) : ((State.console s line)).relay = s.relay :=
  console_frame s line .relay (by decide)

@[simp] theorem console_power (s : State) (line : Bytes) : ((State.console s line)).power = s.power :=
  console_frame s line .power (by decide)

@[simp] theorem console_thermal (s : State) (line : Bytes) : ((State.console s line)).thermal = s.thermal :=
  console_frame s line .thermal (by decide)

@[simp] theorem console_holdup (s : State) (line : Bytes) : ((State.console s line)).holdup = s.holdup :=
  console_frame s line .holdup (by decide)

@[simp] theorem console_fw (s : State) (line : Bytes) : ((State.console s line)).fw = s.fw :=
  console_frame s line .fw (by decide)

@[simp] theorem console_sb (s : State) (line : Bytes) : ((State.console s line)).sb = s.sb :=
  console_frame s line .sb (by decide)

@[simp] theorem console_nor (s : State) (line : Bytes) : ((State.console s line)).nor = s.nor :=
  console_frame s line .nor (by decide)

theorem trace_frame (s : State) (kind island : Nat) (wake : Bool) (payload : BitVec 64) : Keeps [.dbg] s ((State.trace s kind island wake payload)) :=
  trace_keeps (Keeps.refl _ _) kind island wake payload rfl

@[simp] theorem trace_logs (s : State) (kind island : Nat) (wake : Bool) (payload : BitVec 64) : ((State.trace s kind island wake payload)).logs = s.logs :=
  trace_frame s kind island wake payload .logs (by decide)

@[simp] theorem trace_power (s : State) (kind island : Nat) (wake : Bool) (payload : BitVec 64) : ((State.trace s kind island wake payload)).power = s.power :=
  trace_frame s kind island wake payload .power (by decide)

theorem logEvent_frame (s : State) (code : Nat) (body : Bytes) : Keeps [.logs, .dbg] s ((State.logEvent s code body)) :=
  logEvent_keeps (Keeps.refl _ _) code body rfl

@[simp] theorem logEvent_net (s : State) (code : Nat) (body : Bytes) : ((State.logEvent s code body)).net = s.net :=
  Keeps.net (logEvent_frame s code body) (by decide)

@[simp] theorem logEvent_store (s : State) (code : Nat) (body : Bytes) : ((State.logEvent s code body)).store = s.store :=
  Keeps.store (logEvent_frame s code body) (by decide)

@[simp] theorem logEvent_cipher (s : State) (code : Nat) (body : Bytes) : ((State.logEvent s code body)).cipher = s.cipher :=
  Keeps.cipher (logEvent_frame s code body) (by decide)

@[simp] theorem logEvent_modes (s : State) (code : Nat) (body : Bytes) : ((State.logEvent s code body)).modes = s.modes :=
  logEvent_frame s code body .modes (by decide)

@[simp] theorem logEvent_spares (s : State) (code : Nat) (body : Bytes) : ((State.logEvent s code body)).spares = s.spares :=
  logEvent_frame s code body .spares (by decide)

@[simp] theorem logEvent_counts (s : State) (code : Nat) (body : Bytes) : ((State.logEvent s code body)).counts = s.counts :=
  logEvent_frame s code body .counts (by decide)

@[simp] theorem logEvent_sieves (s : State) (code : Nat) (body : Bytes) : ((State.logEvent s code body)).sieves = s.sieves :=
  logEvent_frame s code body .sieves (by decide)

@[simp] theorem logEvent_thermal (s : State) (code : Nat) (body : Bytes) : ((State.logEvent s code body)).thermal = s.thermal :=
  logEvent_frame s code body .thermal (by decide)

@[simp] theorem logEvent_holdup (s : State) (code : Nat) (body : Bytes) : ((State.logEvent s code body)).holdup = s.holdup :=
  logEvent_frame s code body .holdup (by decide)

@[simp] theorem logEvent_sb (s : State) (code : Nat) (body : Bytes) : ((State.logEvent s code body)).sb = s.sb :=
  logEvent_frame s code body .sb (by decide)

theorem startExit_frame (s : State) : Keeps [.power] s ((State.startExit s)) :=
  startExit_keeps (Keeps.refl _ _) rfl

@[simp] theorem startExit_net (s : State) : ((State.startExit s)).net = s.net :=
  Keeps.net (startExit_frame s) (by decide)

@[simp] theorem startExit_store (s : State) : ((State.startExit s)).store = s.store :=
  Keeps.store (startExit_frame s) (by decide)

@[simp] theorem startExit_modes (s : State) : ((State.startExit s)).modes = s.modes :=
  startExit_frame s .modes (by decide)

@[simp] theorem startExit_ports (s : State) : ((State.startExit s)).ports = s.ports :=
  startExit_frame s .ports (by decide)

@[simp] theorem startExit_thermal (s : State) : ((State.startExit s)).thermal = s.thermal :=
  startExit_frame s .thermal (by decide)

@[simp] theorem startExit_sb (s : State) : ((State.startExit s)).sb = s.sb :=
  startExit_frame s .sb (by decide)

theorem wake_frame (s : State) : Keeps [.power] s ((State.wake s)) :=
  wake_keeps (Keeps.refl _ _) rfl

@[simp] theorem wake_net (s : State) : ((State.wake s)).net = s.net :=
  Keeps.net (wake_frame s) (by decide)

@[simp] theorem wake_cipher (s : State) : ((State.wake s)).cipher = s.cipher :=
  Keeps.cipher (wake_frame s) (by decide)

@[simp] theorem wake_ports (s : State) : ((State.wake s)).ports = s.ports :=
  wake_frame s .ports (by decide)

@[simp] theorem wake_sb (s : State) : ((State.wake s)).sb = s.sb :=
  wake_frame s .sb (by decide)

theorem deepen_frame (s : State) (n : Nat) : Keeps [.power, .dbg] s ((State.deepen s n)) :=
  deepen_keeps (Keeps.refl _ _) n rfl

@[simp] theorem deepen_store (s : State) (n : Nat) : ((State.deepen s n)).store = s.store :=
  Keeps.store (deepen_frame s n) (by decide)

theorem shallower_frame (s : State) (n : Nat) : Keeps [.rnd, .power, .dbg] s ((State.shallower s n)) :=
  shallower_keeps (Keeps.refl _ _) n rfl

@[simp] theorem shallower_net (s : State) (n : Nat) : ((State.shallower s n)).net = s.net :=
  Keeps.net (shallower_frame s n) (by decide)

@[simp] theorem shallower_modes (s : State) (n : Nat) : ((State.shallower s n)).modes = s.modes :=
  shallower_frame s n .modes (by decide)

@[simp] theorem shallower_relay (s : State) (n : Nat) : ((State.shallower s n)).relay = s.relay :=
  shallower_frame s n .relay (by decide)

theorem digestEvent_frame (s : State) (ks place op : Nat) (fp : BitVec 128) : Keeps [.counts, .logs, .dbg] s ((State.digestEvent s ks place op fp)) :=
  digestEvent_keeps (Keeps.refl _ _) ks place op fp rfl

@[simp] theorem digestEvent_store (s : State) (ks place op : Nat) (fp : BitVec 128) : ((State.digestEvent s ks place op fp)).store = s.store :=
  Keeps.store (digestEvent_frame s ks place op fp) (by decide)

@[simp] theorem digestEvent_sieves (s : State) (ks place op : Nat) (fp : BitVec 128) : ((State.digestEvent s ks place op fp)).sieves = s.sieves :=
  digestEvent_frame s ks place op fp .sieves (by decide)

theorem journalLate_frame (s : State) (f : LateFault) : Keeps [.counts, .logs, .keyspaces] s ((State.journalLate s f)) :=
  journalLate_keeps (Keeps.refl _ _) f rfl

@[simp] theorem journalLate_ports (s : State) (f : LateFault) : ((State.journalLate s f)).ports = s.ports :=
  journalLate_frame s f .ports (by decide)

theorem sendingEnded_frame (s : State) (id : Option Nat) : Keeps [.kept] s ((State.sendingEnded s id)) :=
  sendingEnded_keeps (Keeps.refl _ _) id rfl

@[simp] theorem sendingEnded_ports (s : State) (id : Option Nat) : ((State.sendingEnded s id)).ports = s.ports :=
  sendingEnded_frame s id .ports (by decide)

theorem sendFrame_frame (s : State) (p : Path) (pcp : Nat) (kept : Option Nat) (what : Content) : Keeps [.ports, .nextId, .kept, .held, .sent] s ((State.sendFrame s p pcp kept what)) :=
  sendFrame_keeps (Keeps.refl _ _) p pcp kept what rfl

@[simp] theorem sendFrame_store (s : State) (p : Path) (pcp : Nat) (kept : Option Nat) (what : Content) : ((State.sendFrame s p pcp kept what)).store = s.store :=
  Keeps.store (sendFrame_frame s p pcp kept what) (by decide)

@[simp] theorem sendFrame_cipher (s : State) (p : Path) (pcp : Nat) (kept : Option Nat) (what : Content) : ((State.sendFrame s p pcp kept what)).cipher = s.cipher :=
  Keeps.cipher (sendFrame_frame s p pcp kept what) (by decide)

@[simp] theorem sendFrame_pending (s : State) (p : Path) (pcp : Nat) (kept : Option Nat) (what : Content) : ((State.sendFrame s p pcp kept what)).pending = s.pending :=
  sendFrame_frame s p pcp kept what .pending (by decide)

@[simp] theorem sendFrame_clock (s : State) (p : Path) (pcp : Nat) (kept : Option Nat) (what : Content) : ((State.sendFrame s p pcp kept what)).clock = s.clock :=
  sendFrame_frame s p pcp kept what .clock (by decide)

@[simp] theorem sendFrame_rnd (s : State) (p : Path) (pcp : Nat) (kept : Option Nat) (what : Content) : ((State.sendFrame s p pcp kept what)).rnd = s.rnd :=
  sendFrame_frame s p pcp kept what .rnd (by decide)

@[simp] theorem sendFrame_supply (s : State) (p : Path) (pcp : Nat) (kept : Option Nat) (what : Content) : ((State.sendFrame s p pcp kept what)).supply = s.supply :=
  sendFrame_frame s p pcp kept what .supply (by decide)

@[simp] theorem sendFrame_modes (s : State) (p : Path) (pcp : Nat) (kept : Option Nat) (what : Content) : ((State.sendFrame s p pcp kept what)).modes = s.modes :=
  sendFrame_frame s p pcp kept what .modes (by decide)

@[simp] theorem sendFrame_spares (s : State) (p : Path) (pcp : Nat) (kept : Option Nat) (what : Content) : ((State.sendFrame s p pcp kept what)).spares = s.spares :=
  sendFrame_frame s p pcp kept what .spares (by decide)

@[simp] theorem sendFrame_counts (s : State) (p : Path) (pcp : Nat) (kept : Option Nat) (what : Content) : ((State.sendFrame s p pcp kept what)).counts = s.counts :=
  sendFrame_frame s p pcp kept what .counts (by decide)

@[simp] theorem sendFrame_sessions (s : State) (p : Path) (pcp : Nat) (kept : Option Nat) (what : Content) : ((State.sendFrame s p pcp kept what)).net.sessions = s.net.sessions :=
  sendFrame_frame s p pcp kept what .sessions (by decide)

@[simp] theorem sendFrame_closed (s : State) (p : Path) (pcp : Nat) (kept : Option Nat) (what : Content) : ((State.sendFrame s p pcp kept what)).net.closed = s.net.closed :=
  sendFrame_frame s p pcp kept what .closed (by decide)

@[simp] theorem sendFrame_ctxs (s : State) (p : Path) (pcp : Nat) (kept : Option Nat) (what : Content) : ((State.sendFrame s p pcp kept what)).net.ctxs = s.net.ctxs :=
  sendFrame_frame s p pcp kept what .ctxs (by decide)

@[simp] theorem sendFrame_locks (s : State) (p : Path) (pcp : Nat) (kept : Option Nat) (what : Content) : ((State.sendFrame s p pcp kept what)).net.locks = s.net.locks :=
  sendFrame_frame s p pcp kept what .locks (by decide)

@[simp] theorem sendFrame_vars (s : State) (p : Path) (pcp : Nat) (kept : Option Nat) (what : Content) : ((State.sendFrame s p pcp kept what)).vars = s.vars :=
  sendFrame_frame s p pcp kept what .vars (by decide)

@[simp] theorem sendFrame_marks (s : State) (p : Path) (pcp : Nat) (kept : Option Nat) (what : Content) : ((State.sendFrame s p pcp kept what)).marks = s.marks :=
  sendFrame_frame s p pcp kept what .marks (by decide)

@[simp] theorem sendFrame_logs (s : State) (p : Path) (pcp : Nat) (kept : Option Nat) (what : Content) : ((State.sendFrame s p pcp kept what)).logs = s.logs :=
  sendFrame_frame s p pcp kept what .logs (by decide)

@[simp] theorem sendFrame_owners (s : State) (p : Path) (pcp : Nat) (kept : Option Nat) (what : Content) : ((State.sendFrame s p pcp kept what)).owners = s.owners :=
  sendFrame_frame s p pcp kept what .owners (by decide)

@[simp] theorem sendFrame_coh (s : State) (p : Path) (pcp : Nat) (kept : Option Nat) (what : Content) : ((State.sendFrame s p pcp kept what)).coh = s.coh :=
  sendFrame_frame s p pcp kept what .coh (by decide)

@[simp] theorem sendFrame_quince (s : State) (p : Path) (pcp : Nat) (kept : Option Nat) (what : Content) : ((State.sendFrame s p pcp kept what)).quince = s.quince :=
  sendFrame_frame s p pcp kept what .quince (by decide)

@[simp] theorem sendFrame_sieves (s : State) (p : Path) (pcp : Nat) (kept : Option Nat) (what : Content) : ((State.sendFrame s p pcp kept what)).sieves = s.sieves :=
  sendFrame_frame s p pcp kept what .sieves (by decide)

@[simp] theorem sendFrame_relay (s : State) (p : Path) (pcp : Nat) (kept : Option Nat) (what : Content) : ((State.sendFrame s p pcp kept what)).relay = s.relay :=
  sendFrame_frame s p pcp kept what .relay (by decide)

@[simp] theorem sendFrame_power (s : State) (p : Path) (pcp : Nat) (kept : Option Nat) (what : Content) : ((State.sendFrame s p pcp kept what)).power = s.power :=
  sendFrame_frame s p pcp kept what .power (by decide)

@[simp] theorem sendFrame_thermal (s : State) (p : Path) (pcp : Nat) (kept : Option Nat) (what : Content) : ((State.sendFrame s p pcp kept what)).thermal = s.thermal :=
  sendFrame_frame s p pcp kept what .thermal (by decide)

@[simp] theorem sendFrame_holdup (s : State) (p : Path) (pcp : Nat) (kept : Option Nat) (what : Content) : ((State.sendFrame s p pcp kept what)).holdup = s.holdup :=
  sendFrame_frame s p pcp kept what .holdup (by decide)

@[simp] theorem sendFrame_fw (s : State) (p : Path) (pcp : Nat) (kept : Option Nat) (what : Content) : ((State.sendFrame s p pcp kept what)).fw = s.fw :=
  sendFrame_frame s p pcp kept what .fw (by decide)

@[simp] theorem sendFrame_sb (s : State) (p : Path) (pcp : Nat) (kept : Option Nat) (what : Content) : ((State.sendFrame s p pcp kept what)).sb = s.sb :=
  sendFrame_frame s p pcp kept what .sb (by decide)

@[simp] theorem sendFrame_debug (s : State) (p : Path) (pcp : Nat) (kept : Option Nat) (what : Content) : ((State.sendFrame s p pcp kept what)).dbg = s.dbg :=
  sendFrame_frame s p pcp kept what .dbg (by decide)

@[simp] theorem sendFrame_nor (s : State) (p : Path) (pcp : Nat) (kept : Option Nat) (what : Content) : ((State.sendFrame s p pcp kept what)).nor = s.nor :=
  sendFrame_frame s p pcp kept what .nor (by decide)

theorem sendKept_frame (s : State) (p : Path) (sess owner : Nat) (late : Option LateFault) (m : Msg) : Keeps [.ports, .nextId, .kept, .held, .sent] s ((State.sendKept s p sess owner late m)) :=
  sendKept_keeps (Keeps.refl _ _) p sess owner late m rfl

@[simp] theorem sendKept_store (s : State) (p : Path) (sess owner : Nat) (late : Option LateFault) (m : Msg) : ((State.sendKept s p sess owner late m)).store = s.store :=
  Keeps.store (sendKept_frame s p sess owner late m) (by decide)

theorem emitNotice_frame (s : State) (x : Session) (n : Notice) : Keeps [.ports, .sessions, .nextId, .kept, .held, .sent] s ((State.emitNotice s x n)) :=
  emitNotice_keeps (Keeps.refl _ _) x n rfl

theorem broadcast_frame (s : State) (k : NoticeKind) (keyspace : Nat) (a b : BitVec 64) (value : Bytes) : Keeps [.counts, .ports, .sessions, .nextId, .kept, .held, .sent, .logs, .keyspaces, .power] s ((State.broadcast s k keyspace a b value)) :=
  broadcast_keeps (Keeps.refl _ _) k keyspace a b value rfl

@[simp] theorem broadcast_cipher (s : State) (k : NoticeKind) (keyspace : Nat) (a b : BitVec 64) (value : Bytes) : ((State.broadcast s k keyspace a b value)).cipher = s.cipher :=
  Keeps.cipher (broadcast_frame s k keyspace a b value) (by decide)

@[simp] theorem broadcast_pending (s : State) (k : NoticeKind) (keyspace : Nat) (a b : BitVec 64) (value : Bytes) : ((State.broadcast s k keyspace a b value)).pending = s.pending :=
  broadcast_frame s k keyspace a b value .pending (by decide)

@[simp] theorem broadcast_clock (s : State) (k : NoticeKind) (keyspace : Nat) (a b : BitVec 64) (value : Bytes) : ((State.broadcast s k keyspace a b value)).clock = s.clock :=
  broadcast_frame s k keyspace a b value .clock (by decide)

@[simp] theorem broadcast_rnd (s : State) (k : NoticeKind) (keyspace : Nat) (a b : BitVec 64) (value : Bytes) : ((State.broadcast s k keyspace a b value)).rnd = s.rnd :=
  broadcast_frame s k keyspace a b value .rnd (by decide)

@[simp] theorem broadcast_supply (s : State) (k : NoticeKind) (keyspace : Nat) (a b : BitVec 64) (value : Bytes) : ((State.broadcast s k keyspace a b value)).supply = s.supply :=
  broadcast_frame s k keyspace a b value .supply (by decide)

@[simp] theorem broadcast_modes (s : State) (k : NoticeKind) (keyspace : Nat) (a b : BitVec 64) (value : Bytes) : ((State.broadcast s k keyspace a b value)).modes = s.modes :=
  broadcast_frame s k keyspace a b value .modes (by decide)

@[simp] theorem broadcast_spares (s : State) (k : NoticeKind) (keyspace : Nat) (a b : BitVec 64) (value : Bytes) : ((State.broadcast s k keyspace a b value)).spares = s.spares :=
  broadcast_frame s k keyspace a b value .spares (by decide)

@[simp] theorem broadcast_ctxs (s : State) (k : NoticeKind) (keyspace : Nat) (a b : BitVec 64) (value : Bytes) : ((State.broadcast s k keyspace a b value)).net.ctxs = s.net.ctxs :=
  broadcast_frame s k keyspace a b value .ctxs (by decide)

@[simp] theorem broadcast_vars (s : State) (k : NoticeKind) (keyspace : Nat) (a b : BitVec 64) (value : Bytes) : ((State.broadcast s k keyspace a b value)).vars = s.vars :=
  broadcast_frame s k keyspace a b value .vars (by decide)

@[simp] theorem broadcast_marks (s : State) (k : NoticeKind) (keyspace : Nat) (a b : BitVec 64) (value : Bytes) : ((State.broadcast s k keyspace a b value)).marks = s.marks :=
  broadcast_frame s k keyspace a b value .marks (by decide)

@[simp] theorem broadcast_owners (s : State) (k : NoticeKind) (keyspace : Nat) (a b : BitVec 64) (value : Bytes) : ((State.broadcast s k keyspace a b value)).owners = s.owners :=
  broadcast_frame s k keyspace a b value .owners (by decide)

@[simp] theorem broadcast_coh (s : State) (k : NoticeKind) (keyspace : Nat) (a b : BitVec 64) (value : Bytes) : ((State.broadcast s k keyspace a b value)).coh = s.coh :=
  broadcast_frame s k keyspace a b value .coh (by decide)

@[simp] theorem broadcast_quince (s : State) (k : NoticeKind) (keyspace : Nat) (a b : BitVec 64) (value : Bytes) : ((State.broadcast s k keyspace a b value)).quince = s.quince :=
  broadcast_frame s k keyspace a b value .quince (by decide)

@[simp] theorem broadcast_sieves (s : State) (k : NoticeKind) (keyspace : Nat) (a b : BitVec 64) (value : Bytes) : ((State.broadcast s k keyspace a b value)).sieves = s.sieves :=
  broadcast_frame s k keyspace a b value .sieves (by decide)

@[simp] theorem broadcast_relay (s : State) (k : NoticeKind) (keyspace : Nat) (a b : BitVec 64) (value : Bytes) : ((State.broadcast s k keyspace a b value)).relay = s.relay :=
  broadcast_frame s k keyspace a b value .relay (by decide)

@[simp] theorem broadcast_thermal (s : State) (k : NoticeKind) (keyspace : Nat) (a b : BitVec 64) (value : Bytes) : ((State.broadcast s k keyspace a b value)).thermal = s.thermal :=
  broadcast_frame s k keyspace a b value .thermal (by decide)

@[simp] theorem broadcast_holdup (s : State) (k : NoticeKind) (keyspace : Nat) (a b : BitVec 64) (value : Bytes) : ((State.broadcast s k keyspace a b value)).holdup = s.holdup :=
  broadcast_frame s k keyspace a b value .holdup (by decide)

@[simp] theorem broadcast_fw (s : State) (k : NoticeKind) (keyspace : Nat) (a b : BitVec 64) (value : Bytes) : ((State.broadcast s k keyspace a b value)).fw = s.fw :=
  broadcast_frame s k keyspace a b value .fw (by decide)

@[simp] theorem broadcast_sb (s : State) (k : NoticeKind) (keyspace : Nat) (a b : BitVec 64) (value : Bytes) : ((State.broadcast s k keyspace a b value)).sb = s.sb :=
  broadcast_frame s k keyspace a b value .sb (by decide)

@[simp] theorem broadcast_nor (s : State) (k : NoticeKind) (keyspace : Nat) (a b : BitVec 64) (value : Bytes) : ((State.broadcast s k keyspace a b value)).nor = s.nor :=
  broadcast_frame s k keyspace a b value .nor (by decide)

theorem toPhase_frame (s : State) (c : Nat) (p : Phase) : Keeps [.ctxs] s ((State.toPhase s c p)) :=
  toPhase_keeps (Keeps.refl _ _) c p rfl

@[simp] theorem toPhase_store (s : State) (c : Nat) (p : Phase) : ((State.toPhase s c p)).store = s.store :=
  Keeps.store (toPhase_frame s c p) (by decide)

@[simp] theorem toPhase_sessions (s : State) (c : Nat) (p : Phase) : ((State.toPhase s c p)).net.sessions = s.net.sessions :=
  toPhase_frame s c p .sessions (by decide)

@[simp] theorem toPhase_locks (s : State) (c : Nat) (p : Phase) : ((State.toPhase s c p)).net.locks = s.net.locks :=
  toPhase_frame s c p .locks (by decide)

@[simp] theorem toPhase_owners (s : State) (c : Nat) (p : Phase) : ((State.toPhase s c p)).owners = s.owners :=
  toPhase_frame s c p .owners (by decide)

theorem lockEnter_frame (s : State) (keyspace : Nat) (fp : BitVec 128) (w : LockRec) : Keeps [.locks] s ((State.lockEnter s keyspace fp w)) :=
  lockEnter_keeps (Keeps.refl _ _) keyspace fp w rfl

@[simp] theorem lockEnter_store (s : State) (keyspace : Nat) (fp : BitVec 128) (w : LockRec) : ((State.lockEnter s keyspace fp w)).store = s.store :=
  Keeps.store (lockEnter_frame s keyspace fp w) (by decide)

@[simp] theorem lockEnter_sessions (s : State) (keyspace : Nat) (fp : BitVec 128) (w : LockRec) : ((State.lockEnter s keyspace fp w)).net.sessions = s.net.sessions :=
  lockEnter_frame s keyspace fp w .sessions (by decide)

theorem lockLeave_frame (s : State) (op : LockOp) : Keeps [.locks] s ((State.lockLeave s op)) :=
  lockLeave_keeps (Keeps.refl _ _) op rfl

@[simp] theorem lockLeave_store (s : State) (op : LockOp) : ((State.lockLeave s op)).store = s.store :=
  Keeps.store (lockLeave_frame s op) (by decide)

@[simp] theorem lockLeave_cipher (s : State) (op : LockOp) : ((State.lockLeave s op)).cipher = s.cipher :=
  Keeps.cipher (lockLeave_frame s op) (by decide)

@[simp] theorem lockLeave_pending (s : State) (op : LockOp) : ((State.lockLeave s op)).pending = s.pending :=
  lockLeave_frame s op .pending (by decide)

@[simp] theorem lockLeave_clock (s : State) (op : LockOp) : ((State.lockLeave s op)).clock = s.clock :=
  lockLeave_frame s op .clock (by decide)

@[simp] theorem lockLeave_rnd (s : State) (op : LockOp) : ((State.lockLeave s op)).rnd = s.rnd :=
  lockLeave_frame s op .rnd (by decide)

@[simp] theorem lockLeave_supply (s : State) (op : LockOp) : ((State.lockLeave s op)).supply = s.supply :=
  lockLeave_frame s op .supply (by decide)

@[simp] theorem lockLeave_modes (s : State) (op : LockOp) : ((State.lockLeave s op)).modes = s.modes :=
  lockLeave_frame s op .modes (by decide)

@[simp] theorem lockLeave_spares (s : State) (op : LockOp) : ((State.lockLeave s op)).spares = s.spares :=
  lockLeave_frame s op .spares (by decide)

@[simp] theorem lockLeave_counts (s : State) (op : LockOp) : ((State.lockLeave s op)).counts = s.counts :=
  lockLeave_frame s op .counts (by decide)

@[simp] theorem lockLeave_ports (s : State) (op : LockOp) : ((State.lockLeave s op)).ports = s.ports :=
  lockLeave_frame s op .ports (by decide)

@[simp] theorem lockLeave_sessions (s : State) (op : LockOp) : ((State.lockLeave s op)).net.sessions = s.net.sessions :=
  lockLeave_frame s op .sessions (by decide)

@[simp] theorem lockLeave_vars (s : State) (op : LockOp) : ((State.lockLeave s op)).vars = s.vars :=
  lockLeave_frame s op .vars (by decide)

@[simp] theorem lockLeave_marks (s : State) (op : LockOp) : ((State.lockLeave s op)).marks = s.marks :=
  lockLeave_frame s op .marks (by decide)

@[simp] theorem lockLeave_logs (s : State) (op : LockOp) : ((State.lockLeave s op)).logs = s.logs :=
  lockLeave_frame s op .logs (by decide)

@[simp] theorem lockLeave_owners (s : State) (op : LockOp) : ((State.lockLeave s op)).owners = s.owners :=
  lockLeave_frame s op .owners (by decide)

@[simp] theorem lockLeave_coh (s : State) (op : LockOp) : ((State.lockLeave s op)).coh = s.coh :=
  lockLeave_frame s op .coh (by decide)

@[simp] theorem lockLeave_quince (s : State) (op : LockOp) : ((State.lockLeave s op)).quince = s.quince :=
  lockLeave_frame s op .quince (by decide)

@[simp] theorem lockLeave_sieves (s : State) (op : LockOp) : ((State.lockLeave s op)).sieves = s.sieves :=
  lockLeave_frame s op .sieves (by decide)

@[simp] theorem lockLeave_relay (s : State) (op : LockOp) : ((State.lockLeave s op)).relay = s.relay :=
  lockLeave_frame s op .relay (by decide)

@[simp] theorem lockLeave_power (s : State) (op : LockOp) : ((State.lockLeave s op)).power = s.power :=
  lockLeave_frame s op .power (by decide)

@[simp] theorem lockLeave_thermal (s : State) (op : LockOp) : ((State.lockLeave s op)).thermal = s.thermal :=
  lockLeave_frame s op .thermal (by decide)

@[simp] theorem lockLeave_holdup (s : State) (op : LockOp) : ((State.lockLeave s op)).holdup = s.holdup :=
  lockLeave_frame s op .holdup (by decide)

@[simp] theorem lockLeave_fw (s : State) (op : LockOp) : ((State.lockLeave s op)).fw = s.fw :=
  lockLeave_frame s op .fw (by decide)

@[simp] theorem lockLeave_sb (s : State) (op : LockOp) : ((State.lockLeave s op)).sb = s.sb :=
  lockLeave_frame s op .sb (by decide)

@[simp] theorem lockLeave_debug (s : State) (op : LockOp) : ((State.lockLeave s op)).dbg = s.dbg :=
  lockLeave_frame s op .dbg (by decide)

@[simp] theorem lockLeave_nor (s : State) (op : LockOp) : ((State.lockLeave s op)).nor = s.nor :=
  lockLeave_frame s op .nor (by decide)

theorem releaseCmd_frame (s : State) (x : Ctx) : Keeps [.sessions, .locks, .keyspaces, .quince, .pages, .pipes, .queue, .relay] s ((State.releaseCmd s x)) :=
  releaseCmd_keeps (Keeps.refl _ _) x rfl

theorem sendReply_frame (s : State) (x : Ctx) (r : Reply) : Keeps [.ports, .nextId, .kept, .held, .sent, .sb] s ((State.sendReply s x r)) :=
  sendReply_keeps (Keeps.refl _ _) x r rfl

@[simp] theorem sendReply_store (s : State) (x : Ctx) (r : Reply) : ((State.sendReply s x r)).store = s.store :=
  Keeps.store (sendReply_frame s x r) (by decide)

@[simp] theorem sendReply_cipher (s : State) (x : Ctx) (r : Reply) : ((State.sendReply s x r)).cipher = s.cipher :=
  Keeps.cipher (sendReply_frame s x r) (by decide)

@[simp] theorem sendReply_sessions (s : State) (x : Ctx) (r : Reply) : ((State.sendReply s x r)).net.sessions = s.net.sessions :=
  sendReply_frame s x r .sessions (by decide)

@[simp] theorem sendReply_relay (s : State) (x : Ctx) (r : Reply) : ((State.sendReply s x r)).relay = s.relay :=
  sendReply_frame s x r .relay (by decide)

theorem recordStatus_frame (s : State) (x : Ctx) (r : Reply) : Keeps [.sessions] s ((State.recordStatus s x r)) :=
  recordStatus_keeps (Keeps.refl _ _) x r rfl

@[simp] theorem recordStatus_store (s : State) (x : Ctx) (r : Reply) : ((State.recordStatus s x r)).store = s.store :=
  Keeps.store (recordStatus_frame s x r) (by decide)

@[simp] theorem recordStatus_cipher (s : State) (x : Ctx) (r : Reply) : ((State.recordStatus s x r)).cipher = s.cipher :=
  Keeps.cipher (recordStatus_frame s x r) (by decide)

@[simp] theorem recordStatus_relay (s : State) (x : Ctx) (r : Reply) : ((State.recordStatus s x r)).relay = s.relay :=
  recordStatus_frame s x r .relay (by decide)

theorem endCmd_frame (s : State) (c : Nat) (r : Reply) : Keeps [.ports, .sessions, .ctxs, .nextId, .kept, .held, .sent, .locks, .keyspaces, .quince, .pages, .pipes, .queue, .relay, .power, .sb] s ((State.endCmd s c r)) :=
  endCmd_keeps (Keeps.refl _ _) c r rfl

@[simp] theorem endCmd_modes (s : State) (c : Nat) (r : Reply) : ((State.endCmd s c r)).modes = s.modes :=
  endCmd_frame s c r .modes (by decide)

@[simp] theorem endCmd_counts (s : State) (c : Nat) (r : Reply) : ((State.endCmd s c r)).counts = s.counts :=
  endCmd_frame s c r .counts (by decide)

@[simp] theorem endCmd_vars (s : State) (c : Nat) (r : Reply) : ((State.endCmd s c r)).vars = s.vars :=
  endCmd_frame s c r .vars (by decide)

@[simp] theorem endCmd_marks (s : State) (c : Nat) (r : Reply) : ((State.endCmd s c r)).marks = s.marks :=
  endCmd_frame s c r .marks (by decide)

@[simp] theorem endCmd_logs (s : State) (c : Nat) (r : Reply) : ((State.endCmd s c r)).logs = s.logs :=
  endCmd_frame s c r .logs (by decide)

@[simp] theorem endCmd_stamps (s : State) (c : Nat) (r : Reply) : ((State.endCmd s c r)).store.stamps = s.store.stamps :=
  endCmd_frame s c r .stamps (by decide)

@[simp] theorem endCmd_entries (s : State) (c : Nat) (r : Reply) : ((State.endCmd s c r)).store.entries = s.store.entries :=
  endCmd_frame s c r .entries (by decide)

@[simp] theorem endCmd_recs (s : State) (c : Nat) (r : Reply) : ((State.endCmd s c r)).store.recs = s.store.recs :=
  endCmd_frame s c r .recs (by decide)

@[simp] theorem endCmd_holds (s : State) (c : Nat) (r : Reply) : ((State.endCmd s c r)).store.holds = s.store.holds :=
  endCmd_frame s c r .holds (by decide)

@[simp] theorem endCmd_kek (s : State) (c : Nat) (r : Reply) : ((State.endCmd s c r)).cipher.kek = s.cipher.kek :=
  endCmd_frame s c r .kek (by decide)

@[simp] theorem endCmd_sieves (s : State) (c : Nat) (r : Reply) : ((State.endCmd s c r)).sieves = s.sieves :=
  endCmd_frame s c r .sieves (by decide)

@[simp] theorem endCmd_holdup (s : State) (c : Nat) (r : Reply) : ((State.endCmd s c r)).holdup = s.holdup :=
  endCmd_frame s c r .holdup (by decide)

@[simp] theorem endCmd_fw (s : State) (c : Nat) (r : Reply) : ((State.endCmd s c r)).fw = s.fw :=
  endCmd_frame s c r .fw (by decide)

@[simp] theorem endCmd_nor (s : State) (c : Nat) (r : Reply) : ((State.endCmd s c r)).nor = s.nor :=
  endCmd_frame s c r .nor (by decide)

theorem endStatus_frame (s : State) (c : Nat) (st : Status) : Keeps [.ports, .sessions, .ctxs, .nextId, .kept, .held, .sent, .locks, .keyspaces, .quince, .pages, .pipes, .queue, .relay, .power, .sb] s ((State.endStatus s c st)) :=
  endStatus_keeps (Keeps.refl _ _) c st rfl

@[simp] theorem endStatus_modes (s : State) (c : Nat) (st : Status) : ((State.endStatus s c st)).modes = s.modes :=
  endStatus_frame s c st .modes (by decide)

@[simp] theorem endStatus_fw (s : State) (c : Nat) (st : Status) : ((State.endStatus s c st)).fw = s.fw :=
  endStatus_frame s c st .fw (by decide)

@[simp] theorem endStatus_nor (s : State) (c : Nat) (st : Status) : ((State.endStatus s c st)).nor = s.nor :=
  endStatus_frame s c st .nor (by decide)

theorem startAttempts_frame (s : State) (portB : Bool) : Keeps [.ports] s ((State.startAttempts s portB)) :=
  startAttempts_keeps (Keeps.refl _ _) portB rfl

@[simp] theorem startAttempts_modes (s : State) (portB : Bool) : ((State.startAttempts s portB)).modes = s.modes :=
  startAttempts_frame s portB .modes (by decide)

theorem takeDown_frame (s : State) (link : Nat) (failing : BitVec 8) : Keeps [.ports, .sb] s ((State.takeDown s link failing)) :=
  takeDown_keeps (Keeps.refl _ _) link failing rfl

theorem judgePlugIn_frame (s : State) (portB : Bool) : Keeps [.ports, .sb] s ((State.judgePlugIn s portB)) :=
  judgePlugIn_keeps (Keeps.refl _ _) portB rfl

@[simp] theorem judgePlugIn_modes (s : State) (portB : Bool) : ((State.judgePlugIn s portB)).modes = s.modes :=
  judgePlugIn_frame s portB .modes (by decide)

theorem dirLog_frame (s : State) (r : LogRec) : Keeps [.logA, .logB] s ((State.dirLog s r)) :=
  dirLog_keeps (Keeps.refl _ _) r rfl

@[simp] theorem dirLog_net (s : State) (r : LogRec) : ((State.dirLog s r)).net = s.net :=
  Keeps.net (dirLog_frame s r) (by decide)

@[simp] theorem dirLog_cipher (s : State) (r : LogRec) : ((State.dirLog s r)).cipher = s.cipher :=
  Keeps.cipher (dirLog_frame s r) (by decide)

@[simp] theorem dirLog_pending (s : State) (r : LogRec) : ((State.dirLog s r)).pending = s.pending :=
  dirLog_frame s r .pending (by decide)

@[simp] theorem dirLog_clock (s : State) (r : LogRec) : ((State.dirLog s r)).clock = s.clock :=
  dirLog_frame s r .clock (by decide)

@[simp] theorem dirLog_rnd (s : State) (r : LogRec) : ((State.dirLog s r)).rnd = s.rnd :=
  dirLog_frame s r .rnd (by decide)

@[simp] theorem dirLog_supply (s : State) (r : LogRec) : ((State.dirLog s r)).supply = s.supply :=
  dirLog_frame s r .supply (by decide)

@[simp] theorem dirLog_modes (s : State) (r : LogRec) : ((State.dirLog s r)).modes = s.modes :=
  dirLog_frame s r .modes (by decide)

@[simp] theorem dirLog_spares (s : State) (r : LogRec) : ((State.dirLog s r)).spares = s.spares :=
  dirLog_frame s r .spares (by decide)

@[simp] theorem dirLog_counts (s : State) (r : LogRec) : ((State.dirLog s r)).counts = s.counts :=
  dirLog_frame s r .counts (by decide)

@[simp] theorem dirLog_ports (s : State) (r : LogRec) : ((State.dirLog s r)).ports = s.ports :=
  dirLog_frame s r .ports (by decide)

@[simp] theorem dirLog_vars (s : State) (r : LogRec) : ((State.dirLog s r)).vars = s.vars :=
  dirLog_frame s r .vars (by decide)

@[simp] theorem dirLog_marks (s : State) (r : LogRec) : ((State.dirLog s r)).marks = s.marks :=
  dirLog_frame s r .marks (by decide)

@[simp] theorem dirLog_logs (s : State) (r : LogRec) : ((State.dirLog s r)).logs = s.logs :=
  dirLog_frame s r .logs (by decide)

@[simp] theorem dirLog_owners (s : State) (r : LogRec) : ((State.dirLog s r)).owners = s.owners :=
  dirLog_frame s r .owners (by decide)

@[simp] theorem dirLog_keyspaces (s : State) (r : LogRec) : ((State.dirLog s r)).store.keyspaces = s.store.keyspaces :=
  dirLog_frame s r .keyspaces (by decide)

@[simp] theorem dirLog_stamps (s : State) (r : LogRec) : ((State.dirLog s r)).store.stamps = s.store.stamps :=
  dirLog_frame s r .stamps (by decide)

@[simp] theorem dirLog_entries (s : State) (r : LogRec) : ((State.dirLog s r)).store.entries = s.store.entries :=
  dirLog_frame s r .entries (by decide)

@[simp] theorem dirLog_recs (s : State) (r : LogRec) : ((State.dirLog s r)).store.recs = s.store.recs :=
  dirLog_frame s r .recs (by decide)

@[simp] theorem dirLog_groups (s : State) (r : LogRec) : ((State.dirLog s r)).store.groups = s.store.groups :=
  dirLog_frame s r .groups (by decide)

@[simp] theorem dirLog_extents (s : State) (r : LogRec) : ((State.dirLog s r)).store.extents = s.store.extents :=
  dirLog_frame s r .extents (by decide)

@[simp] theorem dirLog_fineNext (s : State) (r : LogRec) : ((State.dirLog s r)).store.fineNext = s.store.fineNext :=
  dirLog_frame s r .fineNext (by decide)

@[simp] theorem dirLog_wear (s : State) (r : LogRec) : ((State.dirLog s r)).store.wear = s.store.wear :=
  dirLog_frame s r .wear (by decide)

@[simp] theorem dirLog_gens (s : State) (r : LogRec) : ((State.dirLog s r)).store.gens = s.store.gens :=
  dirLog_frame s r .gens (by decide)

@[simp] theorem dirLog_eraseSets (s : State) (r : LogRec) : ((State.dirLog s r)).store.eraseSets = s.store.eraseSets :=
  dirLog_frame s r .eraseSets (by decide)

@[simp] theorem dirLog_stale (s : State) (r : LogRec) : ((State.dirLog s r)).store.stale = s.store.stale :=
  dirLog_frame s r .stale (by decide)

@[simp] theorem dirLog_heat (s : State) (r : LogRec) : ((State.dirLog s r)).store.heat = s.store.heat :=
  dirLog_frame s r .heat (by decide)

@[simp] theorem dirLog_cache (s : State) (r : LogRec) : ((State.dirLog s r)).store.cache = s.store.cache :=
  dirLog_frame s r .cache (by decide)

@[simp] theorem dirLog_holds (s : State) (r : LogRec) : ((State.dirLog s r)).store.holds = s.store.holds :=
  dirLog_frame s r .holds (by decide)

@[simp] theorem dirLog_mapLog (s : State) (r : LogRec) : ((State.dirLog s r)).store.mapLog = s.store.mapLog :=
  dirLog_frame s r .mapLog (by decide)

@[simp] theorem dirLog_dirty (s : State) (r : LogRec) : ((State.dirLog s r)).store.dirty = s.store.dirty :=
  dirLog_frame s r .dirty (by decide)

@[simp] theorem dirLog_images (s : State) (r : LogRec) : ((State.dirLog s r)).store.images = s.store.images :=
  dirLog_frame s r .images (by decide)

@[simp] theorem dirLog_patrolAt (s : State) (r : LogRec) : ((State.dirLog s r)).store.patrolAt = s.store.patrolAt :=
  dirLog_frame s r .patrolAt (by decide)

@[simp] theorem dirLog_patrolMoved (s : State) (r : LogRec) : ((State.dirLog s r)).store.patrolMoved = s.store.patrolMoved :=
  dirLog_frame s r .patrolMoved (by decide)

@[simp] theorem dirLog_cycleHours (s : State) (r : LogRec) : ((State.dirLog s r)).store.cycleHours = s.store.cycleHours :=
  dirLog_frame s r .cycleHours (by decide)

@[simp] theorem dirLog_coh (s : State) (r : LogRec) : ((State.dirLog s r)).coh = s.coh :=
  dirLog_frame s r .coh (by decide)

@[simp] theorem dirLog_quince (s : State) (r : LogRec) : ((State.dirLog s r)).quince = s.quince :=
  dirLog_frame s r .quince (by decide)

@[simp] theorem dirLog_sieves (s : State) (r : LogRec) : ((State.dirLog s r)).sieves = s.sieves :=
  dirLog_frame s r .sieves (by decide)

@[simp] theorem dirLog_relay (s : State) (r : LogRec) : ((State.dirLog s r)).relay = s.relay :=
  dirLog_frame s r .relay (by decide)

@[simp] theorem dirLog_power (s : State) (r : LogRec) : ((State.dirLog s r)).power = s.power :=
  dirLog_frame s r .power (by decide)

@[simp] theorem dirLog_thermal (s : State) (r : LogRec) : ((State.dirLog s r)).thermal = s.thermal :=
  dirLog_frame s r .thermal (by decide)

@[simp] theorem dirLog_holdup (s : State) (r : LogRec) : ((State.dirLog s r)).holdup = s.holdup :=
  dirLog_frame s r .holdup (by decide)

@[simp] theorem dirLog_fw (s : State) (r : LogRec) : ((State.dirLog s r)).fw = s.fw :=
  dirLog_frame s r .fw (by decide)

@[simp] theorem dirLog_sb (s : State) (r : LogRec) : ((State.dirLog s r)).sb = s.sb :=
  dirLog_frame s r .sb (by decide)

@[simp] theorem dirLog_debug (s : State) (r : LogRec) : ((State.dirLog s r)).dbg = s.dbg :=
  dirLog_frame s r .dbg (by decide)

@[simp] theorem dirLog_nor (s : State) (r : LogRec) : ((State.dirLog s r)).nor = s.nor :=
  dirLog_frame s r .nor (by decide)

theorem dirtyChunk_frame (s : State) (e : Entry) : Keeps [.dirty] s ((State.dirtyChunk s e)) :=
  dirtyChunk_keeps (Keeps.refl _ _) e rfl

@[simp] theorem dirtyChunk_entries (s : State) (e : Entry) : ((State.dirtyChunk s e)).store.entries = s.store.entries :=
  dirtyChunk_frame s e .entries (by decide)

@[simp] theorem dirtyChunk_recs (s : State) (e : Entry) : ((State.dirtyChunk s e)).store.recs = s.store.recs :=
  dirtyChunk_frame s e .recs (by decide)

theorem markStale_frame (s : State) (rs : List Rec) : Keeps [.stale] s ((State.markStale s rs)) :=
  markStale_keeps (Keeps.refl _ _) rs rfl

@[simp] theorem markStale_keyspaces (s : State) (rs : List Rec) : ((State.markStale s rs)).store.keyspaces = s.store.keyspaces :=
  markStale_frame s rs .keyspaces (by decide)

@[simp] theorem markStale_relay (s : State) (rs : List Rec) : ((State.markStale s rs)).relay = s.relay :=
  markStale_frame s rs .relay (by decide)

theorem setEntry_frame (s : State) (e : Entry) : Keeps [.entries, .dirty] s ((State.setEntry s e)) :=
  setEntry_keeps (Keeps.refl _ _) e rfl

@[simp] theorem setEntry_net (s : State) (e : Entry) : ((State.setEntry s e)).net = s.net :=
  Keeps.net (setEntry_frame s e) (by decide)

@[simp] theorem setEntry_cipher (s : State) (e : Entry) : ((State.setEntry s e)).cipher = s.cipher :=
  Keeps.cipher (setEntry_frame s e) (by decide)

@[simp] theorem setEntry_pending (s : State) (e : Entry) : ((State.setEntry s e)).pending = s.pending :=
  setEntry_frame s e .pending (by decide)

@[simp] theorem setEntry_clock (s : State) (e : Entry) : ((State.setEntry s e)).clock = s.clock :=
  setEntry_frame s e .clock (by decide)

@[simp] theorem setEntry_rnd (s : State) (e : Entry) : ((State.setEntry s e)).rnd = s.rnd :=
  setEntry_frame s e .rnd (by decide)

@[simp] theorem setEntry_supply (s : State) (e : Entry) : ((State.setEntry s e)).supply = s.supply :=
  setEntry_frame s e .supply (by decide)

@[simp] theorem setEntry_modes (s : State) (e : Entry) : ((State.setEntry s e)).modes = s.modes :=
  setEntry_frame s e .modes (by decide)

@[simp] theorem setEntry_spares (s : State) (e : Entry) : ((State.setEntry s e)).spares = s.spares :=
  setEntry_frame s e .spares (by decide)

@[simp] theorem setEntry_counts (s : State) (e : Entry) : ((State.setEntry s e)).counts = s.counts :=
  setEntry_frame s e .counts (by decide)

@[simp] theorem setEntry_ports (s : State) (e : Entry) : ((State.setEntry s e)).ports = s.ports :=
  setEntry_frame s e .ports (by decide)

@[simp] theorem setEntry_vars (s : State) (e : Entry) : ((State.setEntry s e)).vars = s.vars :=
  setEntry_frame s e .vars (by decide)

@[simp] theorem setEntry_marks (s : State) (e : Entry) : ((State.setEntry s e)).marks = s.marks :=
  setEntry_frame s e .marks (by decide)

@[simp] theorem setEntry_logs (s : State) (e : Entry) : ((State.setEntry s e)).logs = s.logs :=
  setEntry_frame s e .logs (by decide)

@[simp] theorem setEntry_owners (s : State) (e : Entry) : ((State.setEntry s e)).owners = s.owners :=
  setEntry_frame s e .owners (by decide)

@[simp] theorem setEntry_keyspaces (s : State) (e : Entry) : ((State.setEntry s e)).store.keyspaces = s.store.keyspaces :=
  setEntry_frame s e .keyspaces (by decide)

@[simp] theorem setEntry_stamps (s : State) (e : Entry) : ((State.setEntry s e)).store.stamps = s.store.stamps :=
  setEntry_frame s e .stamps (by decide)

@[simp] theorem setEntry_recs (s : State) (e : Entry) : ((State.setEntry s e)).store.recs = s.store.recs :=
  setEntry_frame s e .recs (by decide)

@[simp] theorem setEntry_groups (s : State) (e : Entry) : ((State.setEntry s e)).store.groups = s.store.groups :=
  setEntry_frame s e .groups (by decide)

@[simp] theorem setEntry_extents (s : State) (e : Entry) : ((State.setEntry s e)).store.extents = s.store.extents :=
  setEntry_frame s e .extents (by decide)

@[simp] theorem setEntry_fineNext (s : State) (e : Entry) : ((State.setEntry s e)).store.fineNext = s.store.fineNext :=
  setEntry_frame s e .fineNext (by decide)

@[simp] theorem setEntry_wear (s : State) (e : Entry) : ((State.setEntry s e)).store.wear = s.store.wear :=
  setEntry_frame s e .wear (by decide)

@[simp] theorem setEntry_gens (s : State) (e : Entry) : ((State.setEntry s e)).store.gens = s.store.gens :=
  setEntry_frame s e .gens (by decide)

@[simp] theorem setEntry_eraseSets (s : State) (e : Entry) : ((State.setEntry s e)).store.eraseSets = s.store.eraseSets :=
  setEntry_frame s e .eraseSets (by decide)

@[simp] theorem setEntry_stale (s : State) (e : Entry) : ((State.setEntry s e)).store.stale = s.store.stale :=
  setEntry_frame s e .stale (by decide)

@[simp] theorem setEntry_heat (s : State) (e : Entry) : ((State.setEntry s e)).store.heat = s.store.heat :=
  setEntry_frame s e .heat (by decide)

@[simp] theorem setEntry_cache (s : State) (e : Entry) : ((State.setEntry s e)).store.cache = s.store.cache :=
  setEntry_frame s e .cache (by decide)

@[simp] theorem setEntry_holds (s : State) (e : Entry) : ((State.setEntry s e)).store.holds = s.store.holds :=
  setEntry_frame s e .holds (by decide)

@[simp] theorem setEntry_mapLog (s : State) (e : Entry) : ((State.setEntry s e)).store.mapLog = s.store.mapLog :=
  setEntry_frame s e .mapLog (by decide)

@[simp] theorem setEntry_images (s : State) (e : Entry) : ((State.setEntry s e)).store.images = s.store.images :=
  setEntry_frame s e .images (by decide)

@[simp] theorem setEntry_patrolAt (s : State) (e : Entry) : ((State.setEntry s e)).store.patrolAt = s.store.patrolAt :=
  setEntry_frame s e .patrolAt (by decide)

@[simp] theorem setEntry_patrolMoved (s : State) (e : Entry) : ((State.setEntry s e)).store.patrolMoved = s.store.patrolMoved :=
  setEntry_frame s e .patrolMoved (by decide)

@[simp] theorem setEntry_cycleHours (s : State) (e : Entry) : ((State.setEntry s e)).store.cycleHours = s.store.cycleHours :=
  setEntry_frame s e .cycleHours (by decide)

@[simp] theorem setEntry_coh (s : State) (e : Entry) : ((State.setEntry s e)).coh = s.coh :=
  setEntry_frame s e .coh (by decide)

@[simp] theorem setEntry_sieves (s : State) (e : Entry) : ((State.setEntry s e)).sieves = s.sieves :=
  setEntry_frame s e .sieves (by decide)

@[simp] theorem setEntry_relay (s : State) (e : Entry) : ((State.setEntry s e)).relay = s.relay :=
  setEntry_frame s e .relay (by decide)

@[simp] theorem setEntry_power (s : State) (e : Entry) : ((State.setEntry s e)).power = s.power :=
  setEntry_frame s e .power (by decide)

@[simp] theorem setEntry_thermal (s : State) (e : Entry) : ((State.setEntry s e)).thermal = s.thermal :=
  setEntry_frame s e .thermal (by decide)

@[simp] theorem setEntry_holdup (s : State) (e : Entry) : ((State.setEntry s e)).holdup = s.holdup :=
  setEntry_frame s e .holdup (by decide)

@[simp] theorem setEntry_fw (s : State) (e : Entry) : ((State.setEntry s e)).fw = s.fw :=
  setEntry_frame s e .fw (by decide)

@[simp] theorem setEntry_sb (s : State) (e : Entry) : ((State.setEntry s e)).sb = s.sb :=
  setEntry_frame s e .sb (by decide)

@[simp] theorem setEntry_debug (s : State) (e : Entry) : ((State.setEntry s e)).dbg = s.dbg :=
  setEntry_frame s e .dbg (by decide)

@[simp] theorem setEntry_nor (s : State) (e : Entry) : ((State.setEntry s e)).nor = s.nor :=
  setEntry_frame s e .nor (by decide)

theorem removeEntry_frame (s : State) (e : Entry) : Keeps [.entries, .dirty] s ((State.removeEntry s e)) :=
  removeEntry_keeps (Keeps.refl _ _) e rfl

@[simp] theorem removeEntry_keyspaces (s : State) (e : Entry) : ((State.removeEntry s e)).store.keyspaces = s.store.keyspaces :=
  removeEntry_frame s e .keyspaces (by decide)

@[simp] theorem removeEntry_relay (s : State) (e : Entry) : ((State.removeEntry s e)).relay = s.relay :=
  removeEntry_frame s e .relay (by decide)

theorem cachePut_frame (s : State) (r : Rec) : Keeps [.cache] s ((State.cachePut s r)) :=
  cachePut_keeps (Keeps.refl _ _) r rfl

@[simp] theorem cachePut_net (s : State) (r : Rec) : ((State.cachePut s r)).net = s.net :=
  Keeps.net (cachePut_frame s r) (by decide)

@[simp] theorem cachePut_entries (s : State) (r : Rec) : ((State.cachePut s r)).store.entries = s.store.entries :=
  cachePut_frame s r .entries (by decide)

theorem cacheDrop_frame (s : State) (p : Nat → Bool) : Keeps [.cache] s ((State.cacheDrop s p)) :=
  cacheDrop_keeps (Keeps.refl _ _) p rfl

@[simp] theorem cacheDrop_spares (s : State) (p : Nat → Bool) : ((State.cacheDrop s p)).spares = s.spares :=
  cacheDrop_frame s p .spares (by decide)

theorem relocate_frame (s : State) (loc : Nat) (reseal : Rec → Rec) : Keeps [.counts, .entries, .recs, .groups, .extents, .fineNext, .stale, .cache, .logA, .logB, .mapLog, .dirty] s ((State.relocate s loc reseal)) :=
  relocate_keeps (Keeps.refl _ _) loc reseal rfl

@[simp] theorem relocate_net (s : State) (loc : Nat) (reseal : Rec → Rec) : ((State.relocate s loc reseal)).net = s.net :=
  Keeps.net (relocate_frame s loc reseal) (by decide)

theorem mediaErrorEvent_frame (s : State) (r : Rec) : Keeps [.counts, .logs, .dbg] s ((State.mediaErrorEvent s r)) :=
  mediaErrorEvent_keeps (Keeps.refl _ _) r rfl

@[simp] theorem mediaErrorEvent_net (s : State) (r : Rec) : ((State.mediaErrorEvent s r)).net = s.net :=
  Keeps.net (mediaErrorEvent_frame s r) (by decide)

theorem poisonRec_frame (s : State) (loc : Nat) : Keeps [.recs] s ((State.poisonRec s loc)) :=
  poisonRec_keeps (Keeps.refl _ _) loc rfl

@[simp] theorem poisonRec_net (s : State) (loc : Nat) : ((State.poisonRec s loc)).net = s.net :=
  Keeps.net (poisonRec_frame s loc) (by decide)

@[simp] theorem poisonRec_counts (s : State) (loc : Nat) : ((State.poisonRec s loc)).counts = s.counts :=
  poisonRec_frame s loc .counts (by decide)

theorem saveSettings_frame (s : State) : Keeps [.nor] s ((State.saveSettings s)) :=
  saveSettings_keeps (Keeps.refl _ _) rfl

@[simp] theorem saveSettings_net (s : State) : ((State.saveSettings s)).net = s.net :=
  Keeps.net (saveSettings_frame s) (by decide)

@[simp] theorem saveSettings_store (s : State) : ((State.saveSettings s)).store = s.store :=
  Keeps.store (saveSettings_frame s) (by decide)

@[simp] theorem saveSettings_cipher (s : State) : ((State.saveSettings s)).cipher = s.cipher :=
  Keeps.cipher (saveSettings_frame s) (by decide)

@[simp] theorem saveSettings_supply (s : State) : ((State.saveSettings s)).supply = s.supply :=
  saveSettings_frame s .supply (by decide)

@[simp] theorem saveSettings_modes (s : State) : ((State.saveSettings s)).modes = s.modes :=
  saveSettings_frame s .modes (by decide)

@[simp] theorem saveSettings_holdup (s : State) : ((State.saveSettings s)).holdup = s.holdup :=
  saveSettings_frame s .holdup (by decide)

theorem endAll_frame (s : State) (p : Ctx → Bool) (st : Status) : Keeps [.ports, .sessions, .ctxs, .nextId, .kept, .held, .sent, .locks, .keyspaces, .quince, .pages, .pipes, .queue, .relay, .power, .sb] s ((State.endAll s p st)) :=
  endAll_keeps (Keeps.refl _ _) p st rfl

@[simp] theorem endAll_pending (s : State) (p : Ctx → Bool) (st : Status) : ((State.endAll s p st)).pending = s.pending :=
  endAll_frame s p st .pending (by decide)

@[simp] theorem endAll_clock (s : State) (p : Ctx → Bool) (st : Status) : ((State.endAll s p st)).clock = s.clock :=
  endAll_frame s p st .clock (by decide)

@[simp] theorem endAll_rnd (s : State) (p : Ctx → Bool) (st : Status) : ((State.endAll s p st)).rnd = s.rnd :=
  endAll_frame s p st .rnd (by decide)

@[simp] theorem endAll_supply (s : State) (p : Ctx → Bool) (st : Status) : ((State.endAll s p st)).supply = s.supply :=
  endAll_frame s p st .supply (by decide)

@[simp] theorem endAll_modes (s : State) (p : Ctx → Bool) (st : Status) : ((State.endAll s p st)).modes = s.modes :=
  endAll_frame s p st .modes (by decide)

@[simp] theorem endAll_spares (s : State) (p : Ctx → Bool) (st : Status) : ((State.endAll s p st)).spares = s.spares :=
  endAll_frame s p st .spares (by decide)

@[simp] theorem endAll_vars (s : State) (p : Ctx → Bool) (st : Status) : ((State.endAll s p st)).vars = s.vars :=
  endAll_frame s p st .vars (by decide)

@[simp] theorem endAll_marks (s : State) (p : Ctx → Bool) (st : Status) : ((State.endAll s p st)).marks = s.marks :=
  endAll_frame s p st .marks (by decide)

@[simp] theorem endAll_owners (s : State) (p : Ctx → Bool) (st : Status) : ((State.endAll s p st)).owners = s.owners :=
  endAll_frame s p st .owners (by decide)

@[simp] theorem endAll_coh (s : State) (p : Ctx → Bool) (st : Status) : ((State.endAll s p st)).coh = s.coh :=
  endAll_frame s p st .coh (by decide)

@[simp] theorem endAll_kek (s : State) (p : Ctx → Bool) (st : Status) : ((State.endAll s p st)).cipher.kek = s.cipher.kek :=
  endAll_frame s p st .kek (by decide)

@[simp] theorem endAll_thermal (s : State) (p : Ctx → Bool) (st : Status) : ((State.endAll s p st)).thermal = s.thermal :=
  endAll_frame s p st .thermal (by decide)

@[simp] theorem endAll_holdup (s : State) (p : Ctx → Bool) (st : Status) : ((State.endAll s p st)).holdup = s.holdup :=
  endAll_frame s p st .holdup (by decide)

@[simp] theorem endAll_fw (s : State) (p : Ctx → Bool) (st : Status) : ((State.endAll s p st)).fw = s.fw :=
  endAll_frame s p st .fw (by decide)

@[simp] theorem endAll_nor (s : State) (p : Ctx → Bool) (st : Status) : ((State.endAll s p st)).nor = s.nor :=
  endAll_frame s p st .nor (by decide)

theorem closeSieves_frame (s : State) (p : Sieve → Bool) (reason : Nat) : Keeps [.logs, .sieves, .dbg] s ((State.closeSieves s p reason)) :=
  closeSieves_keeps (Keeps.refl _ _) p reason rfl

@[simp] theorem closeSieves_net (s : State) (p : Sieve → Bool) (reason : Nat) : ((State.closeSieves s p reason)).net = s.net :=
  Keeps.net (closeSieves_frame s p reason) (by decide)

@[simp] theorem closeSieves_store (s : State) (p : Sieve → Bool) (reason : Nat) : ((State.closeSieves s p reason)).store = s.store :=
  Keeps.store (closeSieves_frame s p reason) (by decide)

@[simp] theorem closeSieves_cipher (s : State) (p : Sieve → Bool) (reason : Nat) : ((State.closeSieves s p reason)).cipher = s.cipher :=
  Keeps.cipher (closeSieves_frame s p reason) (by decide)

@[simp] theorem closeSieves_pending (s : State) (p : Sieve → Bool) (reason : Nat) : ((State.closeSieves s p reason)).pending = s.pending :=
  closeSieves_frame s p reason .pending (by decide)

@[simp] theorem closeSieves_clock (s : State) (p : Sieve → Bool) (reason : Nat) : ((State.closeSieves s p reason)).clock = s.clock :=
  closeSieves_frame s p reason .clock (by decide)

@[simp] theorem closeSieves_rnd (s : State) (p : Sieve → Bool) (reason : Nat) : ((State.closeSieves s p reason)).rnd = s.rnd :=
  closeSieves_frame s p reason .rnd (by decide)

@[simp] theorem closeSieves_supply (s : State) (p : Sieve → Bool) (reason : Nat) : ((State.closeSieves s p reason)).supply = s.supply :=
  closeSieves_frame s p reason .supply (by decide)

@[simp] theorem closeSieves_modes (s : State) (p : Sieve → Bool) (reason : Nat) : ((State.closeSieves s p reason)).modes = s.modes :=
  closeSieves_frame s p reason .modes (by decide)

@[simp] theorem closeSieves_spares (s : State) (p : Sieve → Bool) (reason : Nat) : ((State.closeSieves s p reason)).spares = s.spares :=
  closeSieves_frame s p reason .spares (by decide)

@[simp] theorem closeSieves_vars (s : State) (p : Sieve → Bool) (reason : Nat) : ((State.closeSieves s p reason)).vars = s.vars :=
  closeSieves_frame s p reason .vars (by decide)

@[simp] theorem closeSieves_marks (s : State) (p : Sieve → Bool) (reason : Nat) : ((State.closeSieves s p reason)).marks = s.marks :=
  closeSieves_frame s p reason .marks (by decide)

@[simp] theorem closeSieves_owners (s : State) (p : Sieve → Bool) (reason : Nat) : ((State.closeSieves s p reason)).owners = s.owners :=
  closeSieves_frame s p reason .owners (by decide)

@[simp] theorem closeSieves_coh (s : State) (p : Sieve → Bool) (reason : Nat) : ((State.closeSieves s p reason)).coh = s.coh :=
  closeSieves_frame s p reason .coh (by decide)

@[simp] theorem closeSieves_quince (s : State) (p : Sieve → Bool) (reason : Nat) : ((State.closeSieves s p reason)).quince = s.quince :=
  closeSieves_frame s p reason .quince (by decide)

@[simp] theorem closeSieves_relay (s : State) (p : Sieve → Bool) (reason : Nat) : ((State.closeSieves s p reason)).relay = s.relay :=
  closeSieves_frame s p reason .relay (by decide)

@[simp] theorem closeSieves_thermal (s : State) (p : Sieve → Bool) (reason : Nat) : ((State.closeSieves s p reason)).thermal = s.thermal :=
  closeSieves_frame s p reason .thermal (by decide)

@[simp] theorem closeSieves_holdup (s : State) (p : Sieve → Bool) (reason : Nat) : ((State.closeSieves s p reason)).holdup = s.holdup :=
  closeSieves_frame s p reason .holdup (by decide)

@[simp] theorem closeSieves_fw (s : State) (p : Sieve → Bool) (reason : Nat) : ((State.closeSieves s p reason)).fw = s.fw :=
  closeSieves_frame s p reason .fw (by decide)

@[simp] theorem closeSieves_sb (s : State) (p : Sieve → Bool) (reason : Nat) : ((State.closeSieves s p reason)).sb = s.sb :=
  closeSieves_frame s p reason .sb (by decide)

@[simp] theorem closeSieves_nor (s : State) (p : Sieve → Bool) (reason : Nat) : ((State.closeSieves s p reason)).nor = s.nor :=
  closeSieves_frame s p reason .nor (by decide)

theorem endForMode_frame (s : State) (new : Mode) : Keeps [.ports, .sessions, .ctxs, .nextId, .kept, .held, .sent, .locks, .logs, .keyspaces, .quince, .pages, .pipes, .queue, .sieves, .relay, .power, .sb, .dbg] s ((State.endForMode s new)) :=
  endForMode_keeps (Keeps.refl _ _) new rfl

@[simp] theorem endForMode_modes (s : State) (new : Mode) : ((State.endForMode s new)).modes = s.modes :=
  endForMode_frame s new .modes (by decide)

theorem changeMode_frame (s : State) (new : Mode) : Keeps [.rnd, .modes, .counts, .ports, .sessions, .ctxs, .nextId, .kept, .held, .sent, .locks, .logs, .keyspaces, .quince, .pages, .pipes, .queue, .sieves, .relay, .power, .sb, .dbg] s ((State.changeMode s new)) :=
  changeMode_keeps (Keeps.refl _ _) new rfl

@[simp] theorem changeMode_pending (s : State) (new : Mode) : ((State.changeMode s new)).pending = s.pending :=
  changeMode_frame s new .pending (by decide)

@[simp] theorem changeMode_clock (s : State) (new : Mode) : ((State.changeMode s new)).clock = s.clock :=
  changeMode_frame s new .clock (by decide)

@[simp] theorem changeMode_supply (s : State) (new : Mode) : ((State.changeMode s new)).supply = s.supply :=
  changeMode_frame s new .supply (by decide)

@[simp] theorem changeMode_spares (s : State) (new : Mode) : ((State.changeMode s new)).spares = s.spares :=
  changeMode_frame s new .spares (by decide)

@[simp] theorem changeMode_vars (s : State) (new : Mode) : ((State.changeMode s new)).vars = s.vars :=
  changeMode_frame s new .vars (by decide)

@[simp] theorem changeMode_marks (s : State) (new : Mode) : ((State.changeMode s new)).marks = s.marks :=
  changeMode_frame s new .marks (by decide)

@[simp] theorem changeMode_owners (s : State) (new : Mode) : ((State.changeMode s new)).owners = s.owners :=
  changeMode_frame s new .owners (by decide)

@[simp] theorem changeMode_logA (s : State) (new : Mode) : ((State.changeMode s new)).store.logA = s.store.logA :=
  changeMode_frame s new .logA (by decide)

@[simp] theorem changeMode_logB (s : State) (new : Mode) : ((State.changeMode s new)).store.logB = s.store.logB :=
  changeMode_frame s new .logB (by decide)

@[simp] theorem changeMode_coh (s : State) (new : Mode) : ((State.changeMode s new)).coh = s.coh :=
  changeMode_frame s new .coh (by decide)

@[simp] theorem changeMode_kek (s : State) (new : Mode) : ((State.changeMode s new)).cipher.kek = s.cipher.kek :=
  changeMode_frame s new .kek (by decide)

@[simp] theorem changeMode_thermal (s : State) (new : Mode) : ((State.changeMode s new)).thermal = s.thermal :=
  changeMode_frame s new .thermal (by decide)

@[simp] theorem changeMode_holdup (s : State) (new : Mode) : ((State.changeMode s new)).holdup = s.holdup :=
  changeMode_frame s new .holdup (by decide)

@[simp] theorem changeMode_fw (s : State) (new : Mode) : ((State.changeMode s new)).fw = s.fw :=
  changeMode_frame s new .fw (by decide)

@[simp] theorem changeMode_nor (s : State) (new : Mode) : ((State.changeMode s new)).nor = s.nor :=
  changeMode_frame s new .nor (by decide)

theorem freeze_frame (s : State) (f : FreezeCause) : Keeps [.rnd, .modes, .counts, .ports, .sessions, .ctxs, .nextId, .kept, .held, .sent, .locks, .logs, .keyspaces, .quince, .pages, .pipes, .queue, .sieves, .relay, .power, .sb, .dbg, .nor] s ((State.freeze s f)) :=
  freeze_keeps (Keeps.refl _ _) f rfl

@[simp] theorem freeze_holdup (s : State) (f : FreezeCause) : ((State.freeze s f)).holdup = s.holdup :=
  freeze_frame s f .holdup (by decide)

theorem setPage_frame (s : State) (p : KeyPage) : Keeps [.pages] s ((State.setPage s p)) :=
  setPage_keeps (Keeps.refl _ _) p rfl

theorem keyUsage_frame (s : State) (p : KeyPage) (event : Nat) : Keeps [.counts, .ports, .sessions, .nextId, .kept, .held, .sent, .logs, .keyspaces, .power] s ((State.keyUsage s p event)) :=
  keyUsage_keeps (Keeps.refl _ _) p event rfl

@[simp] theorem keyUsage_cipher (s : State) (p : KeyPage) (event : Nat) : ((State.keyUsage s p event)).cipher = s.cipher :=
  Keeps.cipher (keyUsage_frame s p event) (by decide)

theorem reserveUse_frame (s : State) (n : Nat) : Keeps [.counts, .ports, .sessions, .nextId, .kept, .held, .sent, .logs, .keyspaces, .pages, .power] s ((State.reserveUse s n)) :=
  reserveUse_keeps (Keeps.refl _ _) n rfl

@[simp] theorem reserveUse_ctxs (s : State) (n : Nat) : ((State.reserveUse s n)).net.ctxs = s.net.ctxs :=
  reserveUse_frame s n .ctxs (by decide)

theorem eraseKeys_frame (s : State) : Keeps [.pages, .kek] s ((State.eraseKeys s)) :=
  eraseKeys_keeps (Keeps.refl _ _) rfl

@[simp] theorem eraseKeys_net (s : State) : ((State.eraseKeys s)).net = s.net :=
  Keeps.net (eraseKeys_frame s) (by decide)

@[simp] theorem eraseKeys_store (s : State) : ((State.eraseKeys s)).store = s.store :=
  Keeps.store (eraseKeys_frame s) (by decide)

@[simp] theorem eraseKeys_pending (s : State) : ((State.eraseKeys s)).pending = s.pending :=
  eraseKeys_frame s .pending (by decide)

@[simp] theorem eraseKeys_clock (s : State) : ((State.eraseKeys s)).clock = s.clock :=
  eraseKeys_frame s .clock (by decide)

@[simp] theorem eraseKeys_rnd (s : State) : ((State.eraseKeys s)).rnd = s.rnd :=
  eraseKeys_frame s .rnd (by decide)

@[simp] theorem eraseKeys_supply (s : State) : ((State.eraseKeys s)).supply = s.supply :=
  eraseKeys_frame s .supply (by decide)

@[simp] theorem eraseKeys_modes (s : State) : ((State.eraseKeys s)).modes = s.modes :=
  eraseKeys_frame s .modes (by decide)

@[simp] theorem eraseKeys_spares (s : State) : ((State.eraseKeys s)).spares = s.spares :=
  eraseKeys_frame s .spares (by decide)

@[simp] theorem eraseKeys_counts (s : State) : ((State.eraseKeys s)).counts = s.counts :=
  eraseKeys_frame s .counts (by decide)

@[simp] theorem eraseKeys_ports (s : State) : ((State.eraseKeys s)).ports = s.ports :=
  eraseKeys_frame s .ports (by decide)

@[simp] theorem eraseKeys_vars (s : State) : ((State.eraseKeys s)).vars = s.vars :=
  eraseKeys_frame s .vars (by decide)

@[simp] theorem eraseKeys_marks (s : State) : ((State.eraseKeys s)).marks = s.marks :=
  eraseKeys_frame s .marks (by decide)

@[simp] theorem eraseKeys_logs (s : State) : ((State.eraseKeys s)).logs = s.logs :=
  eraseKeys_frame s .logs (by decide)

@[simp] theorem eraseKeys_owners (s : State) : ((State.eraseKeys s)).owners = s.owners :=
  eraseKeys_frame s .owners (by decide)

@[simp] theorem eraseKeys_coh (s : State) : ((State.eraseKeys s)).coh = s.coh :=
  eraseKeys_frame s .coh (by decide)

@[simp] theorem eraseKeys_quince (s : State) : ((State.eraseKeys s)).quince = s.quince :=
  eraseKeys_frame s .quince (by decide)

@[simp] theorem eraseKeys_pipes (s : State) : ((State.eraseKeys s)).cipher.pipes = s.cipher.pipes :=
  eraseKeys_frame s .pipes (by decide)

@[simp] theorem eraseKeys_sieves (s : State) : ((State.eraseKeys s)).sieves = s.sieves :=
  eraseKeys_frame s .sieves (by decide)

@[simp] theorem eraseKeys_relay (s : State) : ((State.eraseKeys s)).relay = s.relay :=
  eraseKeys_frame s .relay (by decide)

@[simp] theorem eraseKeys_power (s : State) : ((State.eraseKeys s)).power = s.power :=
  eraseKeys_frame s .power (by decide)

@[simp] theorem eraseKeys_thermal (s : State) : ((State.eraseKeys s)).thermal = s.thermal :=
  eraseKeys_frame s .thermal (by decide)

@[simp] theorem eraseKeys_holdup (s : State) : ((State.eraseKeys s)).holdup = s.holdup :=
  eraseKeys_frame s .holdup (by decide)

@[simp] theorem eraseKeys_fw (s : State) : ((State.eraseKeys s)).fw = s.fw :=
  eraseKeys_frame s .fw (by decide)

@[simp] theorem eraseKeys_sb (s : State) : ((State.eraseKeys s)).sb = s.sb :=
  eraseKeys_frame s .sb (by decide)

@[simp] theorem eraseKeys_debug (s : State) : ((State.eraseKeys s)).dbg = s.dbg :=
  eraseKeys_frame s .dbg (by decide)

@[simp] theorem eraseKeys_nor (s : State) : ((State.eraseKeys s)).nor = s.nor :=
  eraseKeys_frame s .nor (by decide)

theorem clearPage_frame (s : State) (n cause : Nat) : Keeps [.logs, .pages, .dbg] s ((State.clearPage s n cause)) :=
  clearPage_keeps (Keeps.refl _ _) n cause rfl

@[simp] theorem clearPage_store (s : State) (n cause : Nat) : ((State.clearPage s n cause)).store = s.store :=
  Keeps.store (clearPage_frame s n cause) (by decide)

@[simp] theorem clearPage_relay (s : State) (n cause : Nat) : ((State.clearPage s n cause)).relay = s.relay :=
  clearPage_frame s n cause .relay (by decide)

theorem sweepEnd_frame (s : State) (n : Nat) : Keeps [.counts, .ports, .sessions, .nextId, .kept, .held, .sent, .logs, .keyspaces, .pages, .power, .dbg] s ((State.sweepEnd s n)) :=
  sweepEnd_keeps (Keeps.refl _ _) n rfl

theorem markNotice_frame (s : State) (k n : Nat) : Keeps [.counts, .ports, .sessions, .nextId, .kept, .held, .sent, .marks, .logs, .keyspaces, .power] s ((State.markNotice s k n)) :=
  markNotice_keeps (Keeps.refl _ _) k n rfl

@[simp] theorem markNotice_sb (s : State) (k n : Nat) : ((State.markNotice s k n)).sb = s.sb :=
  markNotice_frame s k n .sb (by decide)

theorem watch_frame (s : State) : Keeps [.counts, .ports, .sessions, .nextId, .kept, .held, .sent, .marks, .logs, .keyspaces, .power, .sb] s ((State.watch s)) :=
  watch_keeps (Keeps.refl _ _) rfl

@[simp] theorem watch_cipher (s : State) : ((State.watch s)).cipher = s.cipher :=
  Keeps.cipher (watch_frame s) (by decide)

@[simp] theorem watch_modes (s : State) : ((State.watch s)).modes = s.modes :=
  watch_frame s .modes (by decide)

@[simp] theorem watch_ctxs (s : State) : ((State.watch s)).net.ctxs = s.net.ctxs :=
  watch_frame s .ctxs (by decide)

@[simp] theorem watch_vars (s : State) : ((State.watch s)).vars = s.vars :=
  watch_frame s .vars (by decide)

@[simp] theorem watch_stamps (s : State) : ((State.watch s)).store.stamps = s.store.stamps :=
  watch_frame s .stamps (by decide)

@[simp] theorem watch_entries (s : State) : ((State.watch s)).store.entries = s.store.entries :=
  watch_frame s .entries (by decide)

@[simp] theorem watch_recs (s : State) : ((State.watch s)).store.recs = s.store.recs :=
  watch_frame s .recs (by decide)

@[simp] theorem watch_holds (s : State) : ((State.watch s)).store.holds = s.store.holds :=
  watch_frame s .holds (by decide)

@[simp] theorem watch_sieves (s : State) : ((State.watch s)).sieves = s.sieves :=
  watch_frame s .sieves (by decide)

@[simp] theorem watch_relay (s : State) : ((State.watch s)).relay = s.relay :=
  watch_frame s .relay (by decide)

@[simp] theorem watch_nor (s : State) : ((State.watch s)).nor = s.nor :=
  watch_frame s .nor (by decide)

theorem startMarks_frame (s : State) : Keeps [.marks] s ((State.startMarks s)) :=
  startMarks_keeps (Keeps.refl _ _) rfl

@[simp] theorem startMarks_supply (s : State) : ((State.startMarks s)).supply = s.supply :=
  startMarks_frame s .supply (by decide)

@[simp] theorem startMarks_modes (s : State) : ((State.startMarks s)).modes = s.modes :=
  startMarks_frame s .modes (by decide)

@[simp] theorem startMarks_holdup (s : State) : ((State.startMarks s)).holdup = s.holdup :=
  startMarks_frame s .holdup (by decide)

theorem cohWrite_frame (s : State) (slice bucket : Nat) : Keeps [.coh] s ((State.cohWrite s slice bucket)) :=
  cohWrite_keeps (Keeps.refl _ _) slice bucket rfl

@[simp] theorem cohWrite_net (s : State) (slice bucket : Nat) : ((State.cohWrite s slice bucket)).net = s.net :=
  Keeps.net (cohWrite_frame s slice bucket) (by decide)

@[simp] theorem cohWrite_store (s : State) (slice bucket : Nat) : ((State.cohWrite s slice bucket)).store = s.store :=
  Keeps.store (cohWrite_frame s slice bucket) (by decide)

@[simp] theorem cohWrite_relay (s : State) (slice bucket : Nat) : ((State.cohWrite s slice bucket)).relay = s.relay :=
  cohWrite_frame s slice bucket .relay (by decide)

theorem noteLookup_frame (s : State) (ks : Nat) (fp : BitVec 128) (e : Option Entry) : Keeps [.quince] s ((State.noteLookup s ks fp e)) :=
  noteLookup_keeps (Keeps.refl _ _) ks fp e rfl

@[simp] theorem noteLookup_net (s : State) (ks : Nat) (fp : BitVec 128) (e : Option Entry) : ((State.noteLookup s ks fp e)).net = s.net :=
  Keeps.net (noteLookup_frame s ks fp e) (by decide)

theorem program_frame (s : State) (x : Ctx) (k : Keyspace) : Keeps [.counts, .ctxs, .owners, .groups, .extents, .fineNext, .mapLog] s ((State.program s x k)) :=
  program_keeps (Keeps.refl _ _) x k rfl

@[simp] theorem program_cipher (s : State) (x : Ctx) (k : Keyspace) : ((State.program s x k)).cipher = s.cipher :=
  Keeps.cipher (program_frame s x k) (by decide)

theorem settle_frame (s : State) : Keeps [.counts, .ports, .sessions, .ctxs, .nextId, .kept, .held, .sent, .locks, .marks, .logs, .owners, .keyspaces, .groups, .extents, .fineNext, .heat, .mapLog, .quince, .pages, .pipes, .queue, .relay, .power, .sb, .dbg] s ((State.settle s)) :=
  settle_keeps (Keeps.refl _ _) rfl

@[simp] theorem settle_supply (s : State) : ((State.settle s)).supply = s.supply :=
  settle_frame s .supply (by decide)

@[simp] theorem settle_modes (s : State) : ((State.settle s)).modes = s.modes :=
  settle_frame s .modes (by decide)

@[simp] theorem settle_kek (s : State) : ((State.settle s)).cipher.kek = s.cipher.kek :=
  settle_frame s .kek (by decide)

theorem dequeue_frame (s : State) (x : Ctx) : Keeps [.sessions] s ((State.dequeue s x)) :=
  dequeue_keeps (Keeps.refl _ _) x rfl

@[simp] theorem dequeue_store (s : State) (x : Ctx) : ((State.dequeue s x)).store = s.store :=
  Keeps.store (dequeue_frame s x) (by decide)

@[simp] theorem dequeue_clock (s : State) (x : Ctx) : ((State.dequeue s x)).clock = s.clock :=
  dequeue_frame s x .clock (by decide)

@[simp] theorem dequeue_ctxs (s : State) (x : Ctx) : ((State.dequeue s x)).net.ctxs = s.net.ctxs :=
  dequeue_frame s x .ctxs (by decide)

@[simp] theorem dequeue_locks (s : State) (x : Ctx) : ((State.dequeue s x)).net.locks = s.net.locks :=
  dequeue_frame s x .locks (by decide)

@[simp] theorem dequeue_owners (s : State) (x : Ctx) : ((State.dequeue s x)).owners = s.owners :=
  dequeue_frame s x .owners (by decide)

theorem enterMove_frame (s : State) (kind : MoveKind) (loc : Nat) : Keeps [.locks] s ((State.enterMove s kind loc)) :=
  enterMove_keeps (Keeps.refl _ _) kind loc rfl

theorem updSlot_frame (s : State) (id : Nat) (f : RelaySlot → RelaySlot) : Keeps [.relay] s ((State.updSlot s id f)) :=
  updSlot_keeps (Keeps.refl _ _) id f rfl

theorem relaySettle_frame (s : State) : Keeps [.rnd, .counts, .ports, .sessions, .ctxs, .nextId, .kept, .held, .sent, .locks, .marks, .logs, .owners, .keyspaces, .groups, .extents, .fineNext, .heat, .holds, .mapLog, .quince, .pages, .pipes, .queue, .relay, .power, .sb, .dbg] s ((State.relaySettle s)) :=
  relaySettle_keeps (Keeps.refl _ _) rfl

@[simp] theorem relaySettle_modes (s : State) : ((State.relaySettle s)).modes = s.modes :=
  relaySettle_frame s .modes (by decide)

@[simp] theorem relaySettle_spares (s : State) : ((State.relaySettle s)).spares = s.spares :=
  relaySettle_frame s .spares (by decide)

theorem chargeReply_frame (s : State) (x : Ctx) (bytes : Nat) : Keeps [.owners, .keyspaces] s ((State.chargeReply s x bytes)) :=
  chargeReply_keeps (Keeps.refl _ _) x bytes rfl

theorem eraseDone_frame (s : State) (e : EraseSet) : Keeps [.counts, .ports, .sessions, .nextId, .kept, .held, .sent, .logs, .keyspaces] s ((State.eraseDone s e)) :=
  eraseDone_keeps (Keeps.refl _ _) e rfl

@[simp] theorem eraseDone_modes (s : State) (e : EraseSet) : ((State.eraseDone s e)).modes = s.modes :=
  eraseDone_frame s e .modes (by decide)

@[simp] theorem eraseDone_stamps (s : State) (e : EraseSet) : ((State.eraseDone s e)).store.stamps = s.store.stamps :=
  eraseDone_frame s e .stamps (by decide)

theorem commitReplace_frame (s : State) (x : Ctx) (r : Rec) (place : Place) (entries : List Entry) : Keeps [.counts, .ports, .sessions, .nextId, .kept, .held, .sent, .logs, .keyspaces, .entries, .recs, .groups, .eraseSets, .stale, .cache, .logA, .logB, .dirty, .quince, .dbg] s ((State.commitReplace s x r place entries)) :=
  commitReplace_keeps (Keeps.refl _ _) x r place entries rfl

@[simp] theorem commitReplace_ctxs (s : State) (x : Ctx) (r : Rec) (place : Place) (entries : List Entry) : ((State.commitReplace s x r place entries)).net.ctxs = s.net.ctxs :=
  commitReplace_frame s x r place entries .ctxs (by decide)

@[simp] theorem commitReplace_stamps (s : State) (x : Ctx) (r : Rec) (place : Place) (entries : List Entry) : ((State.commitReplace s x r place entries)).store.stamps = s.store.stamps :=
  commitReplace_frame s x r place entries .stamps (by decide)

@[simp] theorem commitReplace_relay (s : State) (x : Ctx) (r : Rec) (place : Place) (entries : List Entry) : ((State.commitReplace s x r place entries)).relay = s.relay :=
  commitReplace_frame s x r place entries .relay (by decide)

theorem setWindow_frame (s : State) (n w : Nat) : Keeps [.sessions] s ((State.setWindow s n w)) :=
  setWindow_keeps (Keeps.refl _ _) n w rfl

theorem passSets_frame (s : State) : Keeps [.owners] s ((State.passSets s)) :=
  passSets_keeps (Keeps.refl _ _) rfl

theorem unlockSeen_frame (s : State) : Keeps [.supply] s ((State.unlockSeen s)) :=
  unlockSeen_keeps (Keeps.refl _ _) rfl

@[simp] theorem unlockSeen_store (s : State) : ((State.unlockSeen s)).store = s.store :=
  Keeps.store (unlockSeen_frame s) (by decide)

@[simp] theorem unlockSeen_cipher (s : State) : ((State.unlockSeen s)).cipher = s.cipher :=
  Keeps.cipher (unlockSeen_frame s) (by decide)

@[simp] theorem unlockSeen_modes (s : State) : ((State.unlockSeen s)).modes = s.modes :=
  unlockSeen_frame s .modes (by decide)

@[simp] theorem unlockSeen_relay (s : State) : ((State.unlockSeen s)).relay = s.relay :=
  unlockSeen_frame s .relay (by decide)

theorem deleteKeyspace_frame (s : State) (k : Keyspace) : Keeps [.supply, .logs, .keyspaces, .entries, .stale, .logA, .logB, .dirty, .quince, .pages, .sieves, .relay, .dbg] s ((State.deleteKeyspace s k)) :=
  deleteKeyspace_keeps (Keeps.refl _ _) k rfl

@[simp] theorem deleteKeyspace_net (s : State) (k : Keyspace) : ((State.deleteKeyspace s k)).net = s.net :=
  Keeps.net (deleteKeyspace_frame s k) (by decide)

@[simp] theorem deleteKeyspace_pending (s : State) (k : Keyspace) : ((State.deleteKeyspace s k)).pending = s.pending :=
  deleteKeyspace_frame s k .pending (by decide)

@[simp] theorem deleteKeyspace_clock (s : State) (k : Keyspace) : ((State.deleteKeyspace s k)).clock = s.clock :=
  deleteKeyspace_frame s k .clock (by decide)

@[simp] theorem deleteKeyspace_rnd (s : State) (k : Keyspace) : ((State.deleteKeyspace s k)).rnd = s.rnd :=
  deleteKeyspace_frame s k .rnd (by decide)

@[simp] theorem deleteKeyspace_modes (s : State) (k : Keyspace) : ((State.deleteKeyspace s k)).modes = s.modes :=
  deleteKeyspace_frame s k .modes (by decide)

@[simp] theorem deleteKeyspace_spares (s : State) (k : Keyspace) : ((State.deleteKeyspace s k)).spares = s.spares :=
  deleteKeyspace_frame s k .spares (by decide)

@[simp] theorem deleteKeyspace_counts (s : State) (k : Keyspace) : ((State.deleteKeyspace s k)).counts = s.counts :=
  deleteKeyspace_frame s k .counts (by decide)

@[simp] theorem deleteKeyspace_ports (s : State) (k : Keyspace) : ((State.deleteKeyspace s k)).ports = s.ports :=
  deleteKeyspace_frame s k .ports (by decide)

@[simp] theorem deleteKeyspace_vars (s : State) (k : Keyspace) : ((State.deleteKeyspace s k)).vars = s.vars :=
  deleteKeyspace_frame s k .vars (by decide)

@[simp] theorem deleteKeyspace_marks (s : State) (k : Keyspace) : ((State.deleteKeyspace s k)).marks = s.marks :=
  deleteKeyspace_frame s k .marks (by decide)

@[simp] theorem deleteKeyspace_owners (s : State) (k : Keyspace) : ((State.deleteKeyspace s k)).owners = s.owners :=
  deleteKeyspace_frame s k .owners (by decide)

@[simp] theorem deleteKeyspace_stamps (s : State) (k : Keyspace) : ((State.deleteKeyspace s k)).store.stamps = s.store.stamps :=
  deleteKeyspace_frame s k .stamps (by decide)

@[simp] theorem deleteKeyspace_coh (s : State) (k : Keyspace) : ((State.deleteKeyspace s k)).coh = s.coh :=
  deleteKeyspace_frame s k .coh (by decide)

@[simp] theorem deleteKeyspace_power (s : State) (k : Keyspace) : ((State.deleteKeyspace s k)).power = s.power :=
  deleteKeyspace_frame s k .power (by decide)

@[simp] theorem deleteKeyspace_thermal (s : State) (k : Keyspace) : ((State.deleteKeyspace s k)).thermal = s.thermal :=
  deleteKeyspace_frame s k .thermal (by decide)

@[simp] theorem deleteKeyspace_holdup (s : State) (k : Keyspace) : ((State.deleteKeyspace s k)).holdup = s.holdup :=
  deleteKeyspace_frame s k .holdup (by decide)

@[simp] theorem deleteKeyspace_fw (s : State) (k : Keyspace) : ((State.deleteKeyspace s k)).fw = s.fw :=
  deleteKeyspace_frame s k .fw (by decide)

@[simp] theorem deleteKeyspace_sb (s : State) (k : Keyspace) : ((State.deleteKeyspace s k)).sb = s.sb :=
  deleteKeyspace_frame s k .sb (by decide)

@[simp] theorem deleteKeyspace_nor (s : State) (k : Keyspace) : ((State.deleteKeyspace s k)).nor = s.nor :=
  deleteKeyspace_frame s k .nor (by decide)

theorem loadKey_frame (s : State) (n : Nat) (previous : Bool) (key : BitVec 256) : Keeps [.rnd, .supply, .logs, .pages, .dbg] s ((State.loadKey s n previous key)) :=
  loadKey_keeps (Keeps.refl _ _) n previous key rfl

@[simp] theorem loadKey_net (s : State) (n : Nat) (previous : Bool) (key : BitVec 256) : ((State.loadKey s n previous key)).net = s.net :=
  Keeps.net (loadKey_frame s n previous key) (by decide)

@[simp] theorem loadKey_relay (s : State) (n : Nat) (previous : Bool) (key : BitVec 256) : ((State.loadKey s n previous key)).relay = s.relay :=
  loadKey_frame s n previous key .relay (by decide)

@[simp] theorem loadKey_nor (s : State) (n : Nat) (previous : Bool) (key : BitVec 256) : ((State.loadKey s n previous key)).nor = s.nor :=
  loadKey_frame s n previous key .nor (by decide)

theorem retireKey_frame (s : State) (n : Nat) (key : BitVec 256) : Keeps [.rnd, .counts, .ports, .sessions, .nextId, .kept, .held, .sent, .logs, .keyspaces, .pages, .power, .dbg] s ((State.retireKey s n key)) :=
  retireKey_keeps (Keeps.refl _ _) n key rfl

@[simp] theorem retireKey_ctxs (s : State) (n : Nat) (key : BitVec 256) : ((State.retireKey s n key)).net.ctxs = s.net.ctxs :=
  retireKey_frame s n key .ctxs (by decide)

@[simp] theorem retireKey_relay (s : State) (n : Nat) (key : BitVec 256) : ((State.retireKey s n key)).relay = s.relay :=
  retireKey_frame s n key .relay (by decide)

theorem clampPower_frame (s : State) : Keeps [.power] s ((State.clampPower s)) :=
  clampPower_keeps (Keeps.refl _ _) rfl

theorem startTest_frame (s : State) : Keeps [.holdup] s ((State.startTest s)) :=
  startTest_keeps (Keeps.refl _ _) rfl

@[simp] theorem startTest_nor (s : State) : ((State.startTest s)).nor = s.nor :=
  startTest_frame s .nor (by decide)

theorem updFwSlot_frame (s : State) (n : Nat) (f : FwSlot → FwSlot) : Keeps [.fw] s ((State.updFwSlot s n f)) :=
  updFwSlot_keeps (Keeps.refl _ _) n f rfl

@[simp] theorem updFwSlot_net (s : State) (n : Nat) (f : FwSlot → FwSlot) : ((State.updFwSlot s n f)).net = s.net :=
  Keeps.net (updFwSlot_frame s n f) (by decide)

@[simp] theorem updFwSlot_store (s : State) (n : Nat) (f : FwSlot → FwSlot) : ((State.updFwSlot s n f)).store = s.store :=
  Keeps.store (updFwSlot_frame s n f) (by decide)

@[simp] theorem updFwSlot_cipher (s : State) (n : Nat) (f : FwSlot → FwSlot) : ((State.updFwSlot s n f)).cipher = s.cipher :=
  Keeps.cipher (updFwSlot_frame s n f) (by decide)

@[simp] theorem updFwSlot_pending (s : State) (n : Nat) (f : FwSlot → FwSlot) : ((State.updFwSlot s n f)).pending = s.pending :=
  updFwSlot_frame s n f .pending (by decide)

@[simp] theorem updFwSlot_clock (s : State) (n : Nat) (f : FwSlot → FwSlot) : ((State.updFwSlot s n f)).clock = s.clock :=
  updFwSlot_frame s n f .clock (by decide)

@[simp] theorem updFwSlot_rnd (s : State) (n : Nat) (f : FwSlot → FwSlot) : ((State.updFwSlot s n f)).rnd = s.rnd :=
  updFwSlot_frame s n f .rnd (by decide)

@[simp] theorem updFwSlot_supply (s : State) (n : Nat) (f : FwSlot → FwSlot) : ((State.updFwSlot s n f)).supply = s.supply :=
  updFwSlot_frame s n f .supply (by decide)

@[simp] theorem updFwSlot_modes (s : State) (n : Nat) (f : FwSlot → FwSlot) : ((State.updFwSlot s n f)).modes = s.modes :=
  updFwSlot_frame s n f .modes (by decide)

@[simp] theorem updFwSlot_spares (s : State) (n : Nat) (f : FwSlot → FwSlot) : ((State.updFwSlot s n f)).spares = s.spares :=
  updFwSlot_frame s n f .spares (by decide)

@[simp] theorem updFwSlot_counts (s : State) (n : Nat) (f : FwSlot → FwSlot) : ((State.updFwSlot s n f)).counts = s.counts :=
  updFwSlot_frame s n f .counts (by decide)

@[simp] theorem updFwSlot_ports (s : State) (n : Nat) (f : FwSlot → FwSlot) : ((State.updFwSlot s n f)).ports = s.ports :=
  updFwSlot_frame s n f .ports (by decide)

@[simp] theorem updFwSlot_vars (s : State) (n : Nat) (f : FwSlot → FwSlot) : ((State.updFwSlot s n f)).vars = s.vars :=
  updFwSlot_frame s n f .vars (by decide)

@[simp] theorem updFwSlot_marks (s : State) (n : Nat) (f : FwSlot → FwSlot) : ((State.updFwSlot s n f)).marks = s.marks :=
  updFwSlot_frame s n f .marks (by decide)

@[simp] theorem updFwSlot_logs (s : State) (n : Nat) (f : FwSlot → FwSlot) : ((State.updFwSlot s n f)).logs = s.logs :=
  updFwSlot_frame s n f .logs (by decide)

@[simp] theorem updFwSlot_owners (s : State) (n : Nat) (f : FwSlot → FwSlot) : ((State.updFwSlot s n f)).owners = s.owners :=
  updFwSlot_frame s n f .owners (by decide)

@[simp] theorem updFwSlot_coh (s : State) (n : Nat) (f : FwSlot → FwSlot) : ((State.updFwSlot s n f)).coh = s.coh :=
  updFwSlot_frame s n f .coh (by decide)

@[simp] theorem updFwSlot_quince (s : State) (n : Nat) (f : FwSlot → FwSlot) : ((State.updFwSlot s n f)).quince = s.quince :=
  updFwSlot_frame s n f .quince (by decide)

@[simp] theorem updFwSlot_sieves (s : State) (n : Nat) (f : FwSlot → FwSlot) : ((State.updFwSlot s n f)).sieves = s.sieves :=
  updFwSlot_frame s n f .sieves (by decide)

@[simp] theorem updFwSlot_relay (s : State) (n : Nat) (f : FwSlot → FwSlot) : ((State.updFwSlot s n f)).relay = s.relay :=
  updFwSlot_frame s n f .relay (by decide)

@[simp] theorem updFwSlot_power (s : State) (n : Nat) (f : FwSlot → FwSlot) : ((State.updFwSlot s n f)).power = s.power :=
  updFwSlot_frame s n f .power (by decide)

@[simp] theorem updFwSlot_thermal (s : State) (n : Nat) (f : FwSlot → FwSlot) : ((State.updFwSlot s n f)).thermal = s.thermal :=
  updFwSlot_frame s n f .thermal (by decide)

@[simp] theorem updFwSlot_holdup (s : State) (n : Nat) (f : FwSlot → FwSlot) : ((State.updFwSlot s n f)).holdup = s.holdup :=
  updFwSlot_frame s n f .holdup (by decide)

@[simp] theorem updFwSlot_sb (s : State) (n : Nat) (f : FwSlot → FwSlot) : ((State.updFwSlot s n f)).sb = s.sb :=
  updFwSlot_frame s n f .sb (by decide)

@[simp] theorem updFwSlot_debug (s : State) (n : Nat) (f : FwSlot → FwSlot) : ((State.updFwSlot s n f)).dbg = s.dbg :=
  updFwSlot_frame s n f .dbg (by decide)

@[simp] theorem updFwSlot_nor (s : State) (n : Nat) (f : FwSlot → FwSlot) : ((State.updFwSlot s n f)).nor = s.nor :=
  updFwSlot_frame s n f .nor (by decide)

theorem fwState_frame (s : State) (st reason version : Nat) : Keeps [.counts, .ports, .sessions, .nextId, .kept, .held, .sent, .logs, .keyspaces, .power, .sb, .dbg] s ((State.fwState s st reason version)) :=
  fwState_keeps (Keeps.refl _ _) st reason version rfl

@[simp] theorem fwState_spares (s : State) (st reason version : Nat) : ((State.fwState s st reason version)).spares = s.spares :=
  fwState_frame s st reason version .spares (by decide)

@[simp] theorem fwState_ctxs (s : State) (st reason version : Nat) : ((State.fwState s st reason version)).net.ctxs = s.net.ctxs :=
  fwState_frame s st reason version .ctxs (by decide)

@[simp] theorem fwState_fw (s : State) (st reason version : Nat) : ((State.fwState s st reason version)).fw = s.fw :=
  fwState_frame s st reason version .fw (by decide)

@[simp] theorem fwState_nor (s : State) (st reason version : Nat) : ((State.fwState s st reason version)).nor = s.nor :=
  fwState_frame s st reason version .nor (by decide)

theorem fwLoss_frame (s : State) (reason : Nat) : Keeps [.fw] s ((State.fwLoss s reason)) :=
  fwLoss_keeps (Keeps.refl _ _) reason rfl

@[simp] theorem fwLoss_net (s : State) (reason : Nat) : ((State.fwLoss s reason)).net = s.net :=
  Keeps.net (fwLoss_frame s reason) (by decide)

@[simp] theorem fwLoss_pending (s : State) (reason : Nat) : ((State.fwLoss s reason)).pending = s.pending :=
  fwLoss_frame s reason .pending (by decide)

@[simp] theorem fwLoss_clock (s : State) (reason : Nat) : ((State.fwLoss s reason)).clock = s.clock :=
  fwLoss_frame s reason .clock (by decide)

@[simp] theorem fwLoss_rnd (s : State) (reason : Nat) : ((State.fwLoss s reason)).rnd = s.rnd :=
  fwLoss_frame s reason .rnd (by decide)

@[simp] theorem fwLoss_supply (s : State) (reason : Nat) : ((State.fwLoss s reason)).supply = s.supply :=
  fwLoss_frame s reason .supply (by decide)

@[simp] theorem fwLoss_modes (s : State) (reason : Nat) : ((State.fwLoss s reason)).modes = s.modes :=
  fwLoss_frame s reason .modes (by decide)

@[simp] theorem fwLoss_spares (s : State) (reason : Nat) : ((State.fwLoss s reason)).spares = s.spares :=
  fwLoss_frame s reason .spares (by decide)

@[simp] theorem fwLoss_ports (s : State) (reason : Nat) : ((State.fwLoss s reason)).ports = s.ports :=
  fwLoss_frame s reason .ports (by decide)

@[simp] theorem fwLoss_vars (s : State) (reason : Nat) : ((State.fwLoss s reason)).vars = s.vars :=
  fwLoss_frame s reason .vars (by decide)

@[simp] theorem fwLoss_marks (s : State) (reason : Nat) : ((State.fwLoss s reason)).marks = s.marks :=
  fwLoss_frame s reason .marks (by decide)

@[simp] theorem fwLoss_owners (s : State) (reason : Nat) : ((State.fwLoss s reason)).owners = s.owners :=
  fwLoss_frame s reason .owners (by decide)

@[simp] theorem fwLoss_coh (s : State) (reason : Nat) : ((State.fwLoss s reason)).coh = s.coh :=
  fwLoss_frame s reason .coh (by decide)

@[simp] theorem fwLoss_quince (s : State) (reason : Nat) : ((State.fwLoss s reason)).quince = s.quince :=
  fwLoss_frame s reason .quince (by decide)

@[simp] theorem fwLoss_power (s : State) (reason : Nat) : ((State.fwLoss s reason)).power = s.power :=
  fwLoss_frame s reason .power (by decide)

@[simp] theorem fwLoss_thermal (s : State) (reason : Nat) : ((State.fwLoss s reason)).thermal = s.thermal :=
  fwLoss_frame s reason .thermal (by decide)

@[simp] theorem fwLoss_holdup (s : State) (reason : Nat) : ((State.fwLoss s reason)).holdup = s.holdup :=
  fwLoss_frame s reason .holdup (by decide)

@[simp] theorem fwLoss_nor (s : State) (reason : Nat) : ((State.fwLoss s reason)).nor = s.nor :=
  fwLoss_frame s reason .nor (by decide)

theorem bootImage_frame (s : State) : Keeps [.fw] s ((State.bootImage s)) :=
  bootImage_keeps (Keeps.refl _ _) rfl

@[simp] theorem bootImage_net (s : State) : ((State.bootImage s)).net = s.net :=
  Keeps.net (bootImage_frame s) (by decide)

@[simp] theorem bootImage_store (s : State) : ((State.bootImage s)).store = s.store :=
  Keeps.store (bootImage_frame s) (by decide)

@[simp] theorem bootImage_cipher (s : State) : ((State.bootImage s)).cipher = s.cipher :=
  Keeps.cipher (bootImage_frame s) (by decide)

@[simp] theorem bootImage_pending (s : State) : ((State.bootImage s)).pending = s.pending :=
  bootImage_frame s .pending (by decide)

@[simp] theorem bootImage_clock (s : State) : ((State.bootImage s)).clock = s.clock :=
  bootImage_frame s .clock (by decide)

@[simp] theorem bootImage_rnd (s : State) : ((State.bootImage s)).rnd = s.rnd :=
  bootImage_frame s .rnd (by decide)

@[simp] theorem bootImage_supply (s : State) : ((State.bootImage s)).supply = s.supply :=
  bootImage_frame s .supply (by decide)

@[simp] theorem bootImage_modes (s : State) : ((State.bootImage s)).modes = s.modes :=
  bootImage_frame s .modes (by decide)

@[simp] theorem bootImage_spares (s : State) : ((State.bootImage s)).spares = s.spares :=
  bootImage_frame s .spares (by decide)

@[simp] theorem bootImage_counts (s : State) : ((State.bootImage s)).counts = s.counts :=
  bootImage_frame s .counts (by decide)

@[simp] theorem bootImage_ports (s : State) : ((State.bootImage s)).ports = s.ports :=
  bootImage_frame s .ports (by decide)

@[simp] theorem bootImage_vars (s : State) : ((State.bootImage s)).vars = s.vars :=
  bootImage_frame s .vars (by decide)

@[simp] theorem bootImage_marks (s : State) : ((State.bootImage s)).marks = s.marks :=
  bootImage_frame s .marks (by decide)

@[simp] theorem bootImage_logs (s : State) : ((State.bootImage s)).logs = s.logs :=
  bootImage_frame s .logs (by decide)

@[simp] theorem bootImage_owners (s : State) : ((State.bootImage s)).owners = s.owners :=
  bootImage_frame s .owners (by decide)

@[simp] theorem bootImage_coh (s : State) : ((State.bootImage s)).coh = s.coh :=
  bootImage_frame s .coh (by decide)

@[simp] theorem bootImage_quince (s : State) : ((State.bootImage s)).quince = s.quince :=
  bootImage_frame s .quince (by decide)

@[simp] theorem bootImage_sieves (s : State) : ((State.bootImage s)).sieves = s.sieves :=
  bootImage_frame s .sieves (by decide)

@[simp] theorem bootImage_relay (s : State) : ((State.bootImage s)).relay = s.relay :=
  bootImage_frame s .relay (by decide)

@[simp] theorem bootImage_power (s : State) : ((State.bootImage s)).power = s.power :=
  bootImage_frame s .power (by decide)

@[simp] theorem bootImage_thermal (s : State) : ((State.bootImage s)).thermal = s.thermal :=
  bootImage_frame s .thermal (by decide)

@[simp] theorem bootImage_holdup (s : State) : ((State.bootImage s)).holdup = s.holdup :=
  bootImage_frame s .holdup (by decide)

@[simp] theorem bootImage_sb (s : State) : ((State.bootImage s)).sb = s.sb :=
  bootImage_frame s .sb (by decide)

@[simp] theorem bootImage_debug (s : State) : ((State.bootImage s)).dbg = s.dbg :=
  bootImage_frame s .dbg (by decide)

@[simp] theorem bootImage_nor (s : State) : ((State.bootImage s)).nor = s.nor :=
  bootImage_frame s .nor (by decide)

theorem fwAfterFilling_frame (s : State) : Keeps [.counts, .ports, .sessions, .nextId, .kept, .held, .sent, .logs, .keyspaces, .power, .fw, .sb, .dbg] s ((State.fwAfterFilling s)) :=
  fwAfterFilling_keeps (Keeps.refl _ _) rfl

@[simp] theorem fwAfterFilling_supply (s : State) : ((State.fwAfterFilling s)).supply = s.supply :=
  fwAfterFilling_frame s .supply (by decide)

@[simp] theorem fwAfterFilling_modes (s : State) : ((State.fwAfterFilling s)).modes = s.modes :=
  fwAfterFilling_frame s .modes (by decide)

@[simp] theorem fwAfterFilling_holdup (s : State) : ((State.fwAfterFilling s)).holdup = s.holdup :=
  fwAfterFilling_frame s .holdup (by decide)

theorem abandonForwards_frame (s : State) : Keeps [.counts, .logs, .relay, .dbg] s ((State.abandonForwards s)) :=
  abandonForwards_keeps (Keeps.refl _ _) rfl

theorem keepPairs_frame (s : State) (flushed : Bool) : Keeps [.relay] s ((State.keepPairs s flushed)) :=
  keepPairs_keeps (Keeps.refl _ _) flushed rfl

@[simp] theorem keepPairs_pending (s : State) (flushed : Bool) : ((State.keepPairs s flushed)).pending = s.pending :=
  keepPairs_frame s flushed .pending (by decide)

@[simp] theorem keepPairs_clock (s : State) (flushed : Bool) : ((State.keepPairs s flushed)).clock = s.clock :=
  keepPairs_frame s flushed .clock (by decide)

@[simp] theorem keepPairs_rnd (s : State) (flushed : Bool) : ((State.keepPairs s flushed)).rnd = s.rnd :=
  keepPairs_frame s flushed .rnd (by decide)

@[simp] theorem keepPairs_supply (s : State) (flushed : Bool) : ((State.keepPairs s flushed)).supply = s.supply :=
  keepPairs_frame s flushed .supply (by decide)

@[simp] theorem keepPairs_modes (s : State) (flushed : Bool) : ((State.keepPairs s flushed)).modes = s.modes :=
  keepPairs_frame s flushed .modes (by decide)

@[simp] theorem keepPairs_spares (s : State) (flushed : Bool) : ((State.keepPairs s flushed)).spares = s.spares :=
  keepPairs_frame s flushed .spares (by decide)

@[simp] theorem keepPairs_vars (s : State) (flushed : Bool) : ((State.keepPairs s flushed)).vars = s.vars :=
  keepPairs_frame s flushed .vars (by decide)

@[simp] theorem keepPairs_marks (s : State) (flushed : Bool) : ((State.keepPairs s flushed)).marks = s.marks :=
  keepPairs_frame s flushed .marks (by decide)

@[simp] theorem keepPairs_owners (s : State) (flushed : Bool) : ((State.keepPairs s flushed)).owners = s.owners :=
  keepPairs_frame s flushed .owners (by decide)

@[simp] theorem keepPairs_coh (s : State) (flushed : Bool) : ((State.keepPairs s flushed)).coh = s.coh :=
  keepPairs_frame s flushed .coh (by decide)

@[simp] theorem keepPairs_quince (s : State) (flushed : Bool) : ((State.keepPairs s flushed)).quince = s.quince :=
  keepPairs_frame s flushed .quince (by decide)

@[simp] theorem keepPairs_power (s : State) (flushed : Bool) : ((State.keepPairs s flushed)).power = s.power :=
  keepPairs_frame s flushed .power (by decide)

@[simp] theorem keepPairs_thermal (s : State) (flushed : Bool) : ((State.keepPairs s flushed)).thermal = s.thermal :=
  keepPairs_frame s flushed .thermal (by decide)

@[simp] theorem keepPairs_holdup (s : State) (flushed : Bool) : ((State.keepPairs s flushed)).holdup = s.holdup :=
  keepPairs_frame s flushed .holdup (by decide)

@[simp] theorem keepPairs_fw (s : State) (flushed : Bool) : ((State.keepPairs s flushed)).fw = s.fw :=
  keepPairs_frame s flushed .fw (by decide)

@[simp] theorem keepPairs_nor (s : State) (flushed : Bool) : ((State.keepPairs s flushed)).nor = s.nor :=
  keepPairs_frame s flushed .nor (by decide)

theorem dropAll_frame (s : State) (reason : Nat) : Keeps [.counts, .sessions, .closed, .ctxs, .kept, .held, .locks, .logs, .keyspaces, .eraseSets, .holds, .pages, .pipes, .queue, .sieves, .relay, .sb, .dbg] s ((State.dropAll s reason)) :=
  dropAll_keeps (Keeps.refl _ _) reason rfl

@[simp] theorem dropAll_pending (s : State) (reason : Nat) : ((State.dropAll s reason)).pending = s.pending :=
  dropAll_frame s reason .pending (by decide)

@[simp] theorem dropAll_clock (s : State) (reason : Nat) : ((State.dropAll s reason)).clock = s.clock :=
  dropAll_frame s reason .clock (by decide)

@[simp] theorem dropAll_rnd (s : State) (reason : Nat) : ((State.dropAll s reason)).rnd = s.rnd :=
  dropAll_frame s reason .rnd (by decide)

@[simp] theorem dropAll_supply (s : State) (reason : Nat) : ((State.dropAll s reason)).supply = s.supply :=
  dropAll_frame s reason .supply (by decide)

@[simp] theorem dropAll_modes (s : State) (reason : Nat) : ((State.dropAll s reason)).modes = s.modes :=
  dropAll_frame s reason .modes (by decide)

@[simp] theorem dropAll_spares (s : State) (reason : Nat) : ((State.dropAll s reason)).spares = s.spares :=
  dropAll_frame s reason .spares (by decide)

@[simp] theorem dropAll_ports (s : State) (reason : Nat) : ((State.dropAll s reason)).ports = s.ports :=
  dropAll_frame s reason .ports (by decide)

@[simp] theorem dropAll_nextId (s : State) (reason : Nat) : ((State.dropAll s reason)).net.nextId = s.net.nextId :=
  dropAll_frame s reason .nextId (by decide)

@[simp] theorem dropAll_sent (s : State) (reason : Nat) : ((State.dropAll s reason)).net.sent = s.net.sent :=
  dropAll_frame s reason .sent (by decide)

@[simp] theorem dropAll_vars (s : State) (reason : Nat) : ((State.dropAll s reason)).vars = s.vars :=
  dropAll_frame s reason .vars (by decide)

@[simp] theorem dropAll_marks (s : State) (reason : Nat) : ((State.dropAll s reason)).marks = s.marks :=
  dropAll_frame s reason .marks (by decide)

@[simp] theorem dropAll_owners (s : State) (reason : Nat) : ((State.dropAll s reason)).owners = s.owners :=
  dropAll_frame s reason .owners (by decide)

@[simp] theorem dropAll_coh (s : State) (reason : Nat) : ((State.dropAll s reason)).coh = s.coh :=
  dropAll_frame s reason .coh (by decide)

@[simp] theorem dropAll_quince (s : State) (reason : Nat) : ((State.dropAll s reason)).quince = s.quince :=
  dropAll_frame s reason .quince (by decide)

@[simp] theorem dropAll_power (s : State) (reason : Nat) : ((State.dropAll s reason)).power = s.power :=
  dropAll_frame s reason .power (by decide)

@[simp] theorem dropAll_thermal (s : State) (reason : Nat) : ((State.dropAll s reason)).thermal = s.thermal :=
  dropAll_frame s reason .thermal (by decide)

@[simp] theorem dropAll_holdup (s : State) (reason : Nat) : ((State.dropAll s reason)).holdup = s.holdup :=
  dropAll_frame s reason .holdup (by decide)

@[simp] theorem dropAll_fw (s : State) (reason : Nat) : ((State.dropAll s reason)).fw = s.fw :=
  dropAll_frame s reason .fw (by decide)

@[simp] theorem dropAll_nor (s : State) (reason : Nat) : ((State.dropAll s reason)).nor = s.nor :=
  dropAll_frame s reason .nor (by decide)

theorem linksOff_frame (s : State) : Keeps [.ports, .held] s ((State.linksOff s)) :=
  linksOff_keeps (Keeps.refl _ _) rfl

@[simp] theorem linksOff_store (s : State) : ((State.linksOff s)).store = s.store :=
  Keeps.store (linksOff_frame s) (by decide)

@[simp] theorem linksOff_cipher (s : State) : ((State.linksOff s)).cipher = s.cipher :=
  Keeps.cipher (linksOff_frame s) (by decide)

@[simp] theorem linksOff_pending (s : State) : ((State.linksOff s)).pending = s.pending :=
  linksOff_frame s .pending (by decide)

@[simp] theorem linksOff_clock (s : State) : ((State.linksOff s)).clock = s.clock :=
  linksOff_frame s .clock (by decide)

@[simp] theorem linksOff_rnd (s : State) : ((State.linksOff s)).rnd = s.rnd :=
  linksOff_frame s .rnd (by decide)

@[simp] theorem linksOff_supply (s : State) : ((State.linksOff s)).supply = s.supply :=
  linksOff_frame s .supply (by decide)

@[simp] theorem linksOff_modes (s : State) : ((State.linksOff s)).modes = s.modes :=
  linksOff_frame s .modes (by decide)

@[simp] theorem linksOff_spares (s : State) : ((State.linksOff s)).spares = s.spares :=
  linksOff_frame s .spares (by decide)

@[simp] theorem linksOff_counts (s : State) : ((State.linksOff s)).counts = s.counts :=
  linksOff_frame s .counts (by decide)

@[simp] theorem linksOff_sessions (s : State) : ((State.linksOff s)).net.sessions = s.net.sessions :=
  linksOff_frame s .sessions (by decide)

@[simp] theorem linksOff_vars (s : State) : ((State.linksOff s)).vars = s.vars :=
  linksOff_frame s .vars (by decide)

@[simp] theorem linksOff_marks (s : State) : ((State.linksOff s)).marks = s.marks :=
  linksOff_frame s .marks (by decide)

@[simp] theorem linksOff_logs (s : State) : ((State.linksOff s)).logs = s.logs :=
  linksOff_frame s .logs (by decide)

@[simp] theorem linksOff_owners (s : State) : ((State.linksOff s)).owners = s.owners :=
  linksOff_frame s .owners (by decide)

@[simp] theorem linksOff_coh (s : State) : ((State.linksOff s)).coh = s.coh :=
  linksOff_frame s .coh (by decide)

@[simp] theorem linksOff_quince (s : State) : ((State.linksOff s)).quince = s.quince :=
  linksOff_frame s .quince (by decide)

@[simp] theorem linksOff_sieves (s : State) : ((State.linksOff s)).sieves = s.sieves :=
  linksOff_frame s .sieves (by decide)

@[simp] theorem linksOff_relay (s : State) : ((State.linksOff s)).relay = s.relay :=
  linksOff_frame s .relay (by decide)

@[simp] theorem linksOff_power (s : State) : ((State.linksOff s)).power = s.power :=
  linksOff_frame s .power (by decide)

@[simp] theorem linksOff_thermal (s : State) : ((State.linksOff s)).thermal = s.thermal :=
  linksOff_frame s .thermal (by decide)

@[simp] theorem linksOff_holdup (s : State) : ((State.linksOff s)).holdup = s.holdup :=
  linksOff_frame s .holdup (by decide)

@[simp] theorem linksOff_fw (s : State) : ((State.linksOff s)).fw = s.fw :=
  linksOff_frame s .fw (by decide)

@[simp] theorem linksOff_sb (s : State) : ((State.linksOff s)).sb = s.sb :=
  linksOff_frame s .sb (by decide)

@[simp] theorem linksOff_debug (s : State) : ((State.linksOff s)).dbg = s.dbg :=
  linksOff_frame s .dbg (by decide)

@[simp] theorem linksOff_nor (s : State) : ((State.linksOff s)).nor = s.nor :=
  linksOff_frame s .nor (by decide)

theorem flushLogs_frame (s : State) : Keeps [.logA, .logB, .mapLog] s ((State.flushLogs s)) :=
  flushLogs_keeps (Keeps.refl _ _) rfl

@[simp] theorem flushLogs_pending (s : State) : ((State.flushLogs s)).pending = s.pending :=
  flushLogs_frame s .pending (by decide)

@[simp] theorem flushLogs_clock (s : State) : ((State.flushLogs s)).clock = s.clock :=
  flushLogs_frame s .clock (by decide)

@[simp] theorem flushLogs_rnd (s : State) : ((State.flushLogs s)).rnd = s.rnd :=
  flushLogs_frame s .rnd (by decide)

@[simp] theorem flushLogs_supply (s : State) : ((State.flushLogs s)).supply = s.supply :=
  flushLogs_frame s .supply (by decide)

@[simp] theorem flushLogs_modes (s : State) : ((State.flushLogs s)).modes = s.modes :=
  flushLogs_frame s .modes (by decide)

@[simp] theorem flushLogs_spares (s : State) : ((State.flushLogs s)).spares = s.spares :=
  flushLogs_frame s .spares (by decide)

@[simp] theorem flushLogs_vars (s : State) : ((State.flushLogs s)).vars = s.vars :=
  flushLogs_frame s .vars (by decide)

@[simp] theorem flushLogs_marks (s : State) : ((State.flushLogs s)).marks = s.marks :=
  flushLogs_frame s .marks (by decide)

@[simp] theorem flushLogs_owners (s : State) : ((State.flushLogs s)).owners = s.owners :=
  flushLogs_frame s .owners (by decide)

@[simp] theorem flushLogs_coh (s : State) : ((State.flushLogs s)).coh = s.coh :=
  flushLogs_frame s .coh (by decide)

@[simp] theorem flushLogs_quince (s : State) : ((State.flushLogs s)).quince = s.quince :=
  flushLogs_frame s .quince (by decide)

@[simp] theorem flushLogs_power (s : State) : ((State.flushLogs s)).power = s.power :=
  flushLogs_frame s .power (by decide)

@[simp] theorem flushLogs_thermal (s : State) : ((State.flushLogs s)).thermal = s.thermal :=
  flushLogs_frame s .thermal (by decide)

@[simp] theorem flushLogs_holdup (s : State) : ((State.flushLogs s)).holdup = s.holdup :=
  flushLogs_frame s .holdup (by decide)

@[simp] theorem flushLogs_fw (s : State) : ((State.flushLogs s)).fw = s.fw :=
  flushLogs_frame s .fw (by decide)

@[simp] theorem flushLogs_nor (s : State) : ((State.flushLogs s)).nor = s.nor :=
  flushLogs_frame s .nor (by decide)

theorem closeParity_frame (s : State) : Keeps [.groups] s ((State.closeParity s)) :=
  closeParity_keeps (Keeps.refl _ _) rfl

@[simp] theorem closeParity_net (s : State) : ((State.closeParity s)).net = s.net :=
  Keeps.net (closeParity_frame s) (by decide)

@[simp] theorem closeParity_cipher (s : State) : ((State.closeParity s)).cipher = s.cipher :=
  Keeps.cipher (closeParity_frame s) (by decide)

@[simp] theorem closeParity_supply (s : State) : ((State.closeParity s)).supply = s.supply :=
  closeParity_frame s .supply (by decide)

@[simp] theorem closeParity_modes (s : State) : ((State.closeParity s)).modes = s.modes :=
  closeParity_frame s .modes (by decide)

theorem writeChunk_frame (s : State) (chunk : Nat) : Keeps [.dirty, .images] s ((State.writeChunk s chunk)) :=
  writeChunk_keeps (Keeps.refl _ _) chunk rfl

theorem writeChunks_frame (s : State) : Keeps [.dirty, .images] s ((State.writeChunks s)) :=
  writeChunks_keeps (Keeps.refl _ _) rfl

theorem mainOff_frame (s : State) : Keeps [.supply, .modes, .spares, .counts, .ports, .sessions, .closed, .ctxs, .kept, .held, .locks, .logs, .keyspaces, .entries, .groups, .eraseSets, .heat, .cache, .holds, .logA, .logB, .coh, .quince, .pages, .kek, .pipes, .queue, .sieves, .relay, .power, .thermal, .holdup, .fw, .sb, .dbg] s ((State.mainOff s)) :=
  mainOff_keeps (Keeps.refl _ _) rfl

@[simp] theorem mainOff_pending (s : State) : ((State.mainOff s)).pending = s.pending :=
  mainOff_frame s .pending (by decide)

@[simp] theorem mainOff_clock (s : State) : ((State.mainOff s)).clock = s.clock :=
  mainOff_frame s .clock (by decide)

@[simp] theorem mainOff_vars (s : State) : ((State.mainOff s)).vars = s.vars :=
  mainOff_frame s .vars (by decide)

@[simp] theorem mainOff_marks (s : State) : ((State.mainOff s)).marks = s.marks :=
  mainOff_frame s .marks (by decide)

@[simp] theorem mainOff_owners (s : State) : ((State.mainOff s)).owners = s.owners :=
  mainOff_frame s .owners (by decide)

@[simp] theorem mainOff_nor (s : State) : ((State.mainOff s)).nor = s.nor :=
  mainOff_frame s .nor (by decide)

theorem clearCounts_frame (s : State) : Keeps [.counts, .ports, .power] s ((State.clearCounts s)) :=
  clearCounts_keeps (Keeps.refl _ _) rfl

@[simp] theorem clearCounts_net (s : State) : ((State.clearCounts s)).net = s.net :=
  Keeps.net (clearCounts_frame s) (by decide)

@[simp] theorem clearCounts_store (s : State) : ((State.clearCounts s)).store = s.store :=
  Keeps.store (clearCounts_frame s) (by decide)

@[simp] theorem clearCounts_cipher (s : State) : ((State.clearCounts s)).cipher = s.cipher :=
  Keeps.cipher (clearCounts_frame s) (by decide)

@[simp] theorem clearCounts_pending (s : State) : ((State.clearCounts s)).pending = s.pending :=
  clearCounts_frame s .pending (by decide)

@[simp] theorem clearCounts_clock (s : State) : ((State.clearCounts s)).clock = s.clock :=
  clearCounts_frame s .clock (by decide)

@[simp] theorem clearCounts_rnd (s : State) : ((State.clearCounts s)).rnd = s.rnd :=
  clearCounts_frame s .rnd (by decide)

@[simp] theorem clearCounts_supply (s : State) : ((State.clearCounts s)).supply = s.supply :=
  clearCounts_frame s .supply (by decide)

@[simp] theorem clearCounts_modes (s : State) : ((State.clearCounts s)).modes = s.modes :=
  clearCounts_frame s .modes (by decide)

@[simp] theorem clearCounts_spares (s : State) : ((State.clearCounts s)).spares = s.spares :=
  clearCounts_frame s .spares (by decide)

@[simp] theorem clearCounts_vars (s : State) : ((State.clearCounts s)).vars = s.vars :=
  clearCounts_frame s .vars (by decide)

@[simp] theorem clearCounts_marks (s : State) : ((State.clearCounts s)).marks = s.marks :=
  clearCounts_frame s .marks (by decide)

@[simp] theorem clearCounts_logs (s : State) : ((State.clearCounts s)).logs = s.logs :=
  clearCounts_frame s .logs (by decide)

@[simp] theorem clearCounts_owners (s : State) : ((State.clearCounts s)).owners = s.owners :=
  clearCounts_frame s .owners (by decide)

@[simp] theorem clearCounts_coh (s : State) : ((State.clearCounts s)).coh = s.coh :=
  clearCounts_frame s .coh (by decide)

@[simp] theorem clearCounts_quince (s : State) : ((State.clearCounts s)).quince = s.quince :=
  clearCounts_frame s .quince (by decide)

@[simp] theorem clearCounts_sieves (s : State) : ((State.clearCounts s)).sieves = s.sieves :=
  clearCounts_frame s .sieves (by decide)

@[simp] theorem clearCounts_relay (s : State) : ((State.clearCounts s)).relay = s.relay :=
  clearCounts_frame s .relay (by decide)

@[simp] theorem clearCounts_thermal (s : State) : ((State.clearCounts s)).thermal = s.thermal :=
  clearCounts_frame s .thermal (by decide)

@[simp] theorem clearCounts_holdup (s : State) : ((State.clearCounts s)).holdup = s.holdup :=
  clearCounts_frame s .holdup (by decide)

@[simp] theorem clearCounts_sb (s : State) : ((State.clearCounts s)).sb = s.sb :=
  clearCounts_frame s .sb (by decide)

@[simp] theorem clearCounts_debug (s : State) : ((State.clearCounts s)).dbg = s.dbg :=
  clearCounts_frame s .dbg (by decide)

@[simp] theorem clearCounts_nor (s : State) : ((State.clearCounts s)).nor = s.nor :=
  clearCounts_frame s .nor (by decide)

theorem toDormant_frame (s : State) : Keeps [.rnd, .supply, .modes, .spares, .counts, .ports, .sessions, .closed, .ctxs, .nextId, .kept, .held, .sent, .locks, .logs, .keyspaces, .entries, .groups, .eraseSets, .heat, .cache, .holds, .logA, .logB, .coh, .quince, .pages, .kek, .pipes, .queue, .sieves, .relay, .power, .thermal, .holdup, .fw, .sb, .dbg] s ((State.toDormant s)) :=
  toDormant_keeps (Keeps.refl _ _) rfl

@[simp] theorem toDormant_pending (s : State) : ((State.toDormant s)).pending = s.pending :=
  toDormant_frame s .pending (by decide)

@[simp] theorem toDormant_clock (s : State) : ((State.toDormant s)).clock = s.clock :=
  toDormant_frame s .clock (by decide)

@[simp] theorem toDormant_vars (s : State) : ((State.toDormant s)).vars = s.vars :=
  toDormant_frame s .vars (by decide)

@[simp] theorem toDormant_marks (s : State) : ((State.toDormant s)).marks = s.marks :=
  toDormant_frame s .marks (by decide)

@[simp] theorem toDormant_owners (s : State) : ((State.toDormant s)).owners = s.owners :=
  toDormant_frame s .owners (by decide)

@[simp] theorem toDormant_nor (s : State) : ((State.toDormant s)).nor = s.nor :=
  toDormant_frame s .nor (by decide)

theorem recordMode_frame (s : State) : Keeps [.modes] s ((State.recordMode s)) :=
  recordMode_keeps (Keeps.refl _ _) rfl

@[simp] theorem recordMode_pending (s : State) : ((State.recordMode s)).pending = s.pending :=
  recordMode_frame s .pending (by decide)

@[simp] theorem recordMode_clock (s : State) : ((State.recordMode s)).clock = s.clock :=
  recordMode_frame s .clock (by decide)

@[simp] theorem recordMode_rnd (s : State) : ((State.recordMode s)).rnd = s.rnd :=
  recordMode_frame s .rnd (by decide)

@[simp] theorem recordMode_supply (s : State) : ((State.recordMode s)).supply = s.supply :=
  recordMode_frame s .supply (by decide)

@[simp] theorem recordMode_spares (s : State) : ((State.recordMode s)).spares = s.spares :=
  recordMode_frame s .spares (by decide)

@[simp] theorem recordMode_vars (s : State) : ((State.recordMode s)).vars = s.vars :=
  recordMode_frame s .vars (by decide)

@[simp] theorem recordMode_marks (s : State) : ((State.recordMode s)).marks = s.marks :=
  recordMode_frame s .marks (by decide)

@[simp] theorem recordMode_owners (s : State) : ((State.recordMode s)).owners = s.owners :=
  recordMode_frame s .owners (by decide)

@[simp] theorem recordMode_coh (s : State) : ((State.recordMode s)).coh = s.coh :=
  recordMode_frame s .coh (by decide)

@[simp] theorem recordMode_quince (s : State) : ((State.recordMode s)).quince = s.quince :=
  recordMode_frame s .quince (by decide)

@[simp] theorem recordMode_power (s : State) : ((State.recordMode s)).power = s.power :=
  recordMode_frame s .power (by decide)

@[simp] theorem recordMode_thermal (s : State) : ((State.recordMode s)).thermal = s.thermal :=
  recordMode_frame s .thermal (by decide)

@[simp] theorem recordMode_holdup (s : State) : ((State.recordMode s)).holdup = s.holdup :=
  recordMode_frame s .holdup (by decide)

@[simp] theorem recordMode_fw (s : State) : ((State.recordMode s)).fw = s.fw :=
  recordMode_frame s .fw (by decide)

@[simp] theorem recordMode_nor (s : State) : ((State.recordMode s)).nor = s.nor :=
  recordMode_frame s .nor (by decide)

theorem startWaltz_frame (s : State) (trigger : Nat) : Keeps [.modes, .counts, .ports, .sessions, .closed, .ctxs, .kept, .held, .locks, .logs, .keyspaces, .eraseSets, .holds, .pages, .pipes, .queue, .sieves, .relay, .power, .holdup, .fw, .sb, .dbg] s ((State.startWaltz s trigger)) :=
  startWaltz_keeps (Keeps.refl _ _) trigger rfl

@[simp] theorem startWaltz_pending (s : State) (trigger : Nat) : ((State.startWaltz s trigger)).pending = s.pending :=
  startWaltz_frame s trigger .pending (by decide)

@[simp] theorem startWaltz_clock (s : State) (trigger : Nat) : ((State.startWaltz s trigger)).clock = s.clock :=
  startWaltz_frame s trigger .clock (by decide)

@[simp] theorem startWaltz_rnd (s : State) (trigger : Nat) : ((State.startWaltz s trigger)).rnd = s.rnd :=
  startWaltz_frame s trigger .rnd (by decide)

@[simp] theorem startWaltz_supply (s : State) (trigger : Nat) : ((State.startWaltz s trigger)).supply = s.supply :=
  startWaltz_frame s trigger .supply (by decide)

@[simp] theorem startWaltz_spares (s : State) (trigger : Nat) : ((State.startWaltz s trigger)).spares = s.spares :=
  startWaltz_frame s trigger .spares (by decide)

@[simp] theorem startWaltz_vars (s : State) (trigger : Nat) : ((State.startWaltz s trigger)).vars = s.vars :=
  startWaltz_frame s trigger .vars (by decide)

@[simp] theorem startWaltz_marks (s : State) (trigger : Nat) : ((State.startWaltz s trigger)).marks = s.marks :=
  startWaltz_frame s trigger .marks (by decide)

@[simp] theorem startWaltz_owners (s : State) (trigger : Nat) : ((State.startWaltz s trigger)).owners = s.owners :=
  startWaltz_frame s trigger .owners (by decide)

@[simp] theorem startWaltz_coh (s : State) (trigger : Nat) : ((State.startWaltz s trigger)).coh = s.coh :=
  startWaltz_frame s trigger .coh (by decide)

@[simp] theorem startWaltz_quince (s : State) (trigger : Nat) : ((State.startWaltz s trigger)).quince = s.quince :=
  startWaltz_frame s trigger .quince (by decide)

@[simp] theorem startWaltz_thermal (s : State) (trigger : Nat) : ((State.startWaltz s trigger)).thermal = s.thermal :=
  startWaltz_frame s trigger .thermal (by decide)

@[simp] theorem startWaltz_nor (s : State) (trigger : Nat) : ((State.startWaltz s trigger)).nor = s.nor :=
  startWaltz_frame s trigger .nor (by decide)

theorem enterAll_frame (s : State) (locs : List Nat) : Keeps [.rnd, .entries, .logA, .logB, .dirty] s ((State.enterAll s locs).1) :=
  enterAll_keeps (Keeps.refl _ _) locs rfl

@[simp] theorem enterAll_modes (s : State) (locs : List Nat) : ((State.enterAll s locs).1).modes = s.modes :=
  enterAll_frame s locs .modes (by decide)

theorem enterWays_frame (s : State) (e : Entry) : Keeps [.quince] s ((State.enterWays s e)) :=
  enterWays_keeps (Keeps.refl _ _) e rfl

@[simp] theorem enterWays_store (s : State) (e : Entry) : ((State.enterWays s e)).store = s.store :=
  Keeps.store (enterWays_frame s e) (by decide)

@[simp] theorem enterWays_modes (s : State) (e : Entry) : ((State.enterWays s e)).modes = s.modes :=
  enterWays_frame s e .modes (by decide)

theorem drainQuince_frame (s : State) : Keeps [.quince] s ((State.drainQuince s)) :=
  drainQuince_keeps (Keeps.refl _ _) rfl

@[simp] theorem drainQuince_net (s : State) : ((State.drainQuince s)).net = s.net :=
  Keeps.net (drainQuince_frame s) (by decide)

@[simp] theorem drainQuince_store (s : State) : ((State.drainQuince s)).store = s.store :=
  Keeps.store (drainQuince_frame s) (by decide)

@[simp] theorem drainQuince_cipher (s : State) : ((State.drainQuince s)).cipher = s.cipher :=
  Keeps.cipher (drainQuince_frame s) (by decide)

@[simp] theorem drainQuince_pending (s : State) : ((State.drainQuince s)).pending = s.pending :=
  drainQuince_frame s .pending (by decide)

@[simp] theorem drainQuince_clock (s : State) : ((State.drainQuince s)).clock = s.clock :=
  drainQuince_frame s .clock (by decide)

@[simp] theorem drainQuince_rnd (s : State) : ((State.drainQuince s)).rnd = s.rnd :=
  drainQuince_frame s .rnd (by decide)

@[simp] theorem drainQuince_supply (s : State) : ((State.drainQuince s)).supply = s.supply :=
  drainQuince_frame s .supply (by decide)

@[simp] theorem drainQuince_modes (s : State) : ((State.drainQuince s)).modes = s.modes :=
  drainQuince_frame s .modes (by decide)

@[simp] theorem drainQuince_spares (s : State) : ((State.drainQuince s)).spares = s.spares :=
  drainQuince_frame s .spares (by decide)

@[simp] theorem drainQuince_counts (s : State) : ((State.drainQuince s)).counts = s.counts :=
  drainQuince_frame s .counts (by decide)

@[simp] theorem drainQuince_ports (s : State) : ((State.drainQuince s)).ports = s.ports :=
  drainQuince_frame s .ports (by decide)

@[simp] theorem drainQuince_vars (s : State) : ((State.drainQuince s)).vars = s.vars :=
  drainQuince_frame s .vars (by decide)

@[simp] theorem drainQuince_marks (s : State) : ((State.drainQuince s)).marks = s.marks :=
  drainQuince_frame s .marks (by decide)

@[simp] theorem drainQuince_logs (s : State) : ((State.drainQuince s)).logs = s.logs :=
  drainQuince_frame s .logs (by decide)

@[simp] theorem drainQuince_owners (s : State) : ((State.drainQuince s)).owners = s.owners :=
  drainQuince_frame s .owners (by decide)

@[simp] theorem drainQuince_coh (s : State) : ((State.drainQuince s)).coh = s.coh :=
  drainQuince_frame s .coh (by decide)

@[simp] theorem drainQuince_sieves (s : State) : ((State.drainQuince s)).sieves = s.sieves :=
  drainQuince_frame s .sieves (by decide)

@[simp] theorem drainQuince_relay (s : State) : ((State.drainQuince s)).relay = s.relay :=
  drainQuince_frame s .relay (by decide)

@[simp] theorem drainQuince_power (s : State) : ((State.drainQuince s)).power = s.power :=
  drainQuince_frame s .power (by decide)

@[simp] theorem drainQuince_thermal (s : State) : ((State.drainQuince s)).thermal = s.thermal :=
  drainQuince_frame s .thermal (by decide)

@[simp] theorem drainQuince_holdup (s : State) : ((State.drainQuince s)).holdup = s.holdup :=
  drainQuince_frame s .holdup (by decide)

@[simp] theorem drainQuince_fw (s : State) : ((State.drainQuince s)).fw = s.fw :=
  drainQuince_frame s .fw (by decide)

@[simp] theorem drainQuince_sb (s : State) : ((State.drainQuince s)).sb = s.sb :=
  drainQuince_frame s .sb (by decide)

@[simp] theorem drainQuince_debug (s : State) : ((State.drainQuince s)).dbg = s.dbg :=
  drainQuince_frame s .dbg (by decide)

@[simp] theorem drainQuince_nor (s : State) : ((State.drainQuince s)).nor = s.nor :=
  drainQuince_frame s .nor (by decide)

theorem replayLogs_frame (s : State) (lost : List LostPage) : Keeps [.rnd, .entries, .logA, .logB] s ((State.replayLogs s lost)) :=
  replayLogs_keeps (Keeps.refl _ _) lost rfl

@[simp] theorem replayLogs_modes (s : State) (lost : List LostPage) : ((State.replayLogs s lost)).modes = s.modes :=
  replayLogs_frame s lost .modes (by decide)

@[simp] theorem replayLogs_recs (s : State) (lost : List LostPage) : ((State.replayLogs s lost)).store.recs = s.store.recs :=
  replayLogs_frame s lost .recs (by decide)

theorem lostPages_frame (s : State) (lost : List LostPage) : Keeps [.rnd, .logs, .entries, .logA, .logB, .dirty, .dbg] s ((State.lostPages s lost)) :=
  lostPages_keeps (Keeps.refl _ _) lost rfl

@[simp] theorem lostPages_modes (s : State) (lost : List LostPage) : ((State.lostPages s lost)).modes = s.modes :=
  lostPages_frame s lost .modes (by decide)

@[simp] theorem lostPages_recs (s : State) (lost : List LostPage) : ((State.lostPages s lost)).store.recs = s.store.recs :=
  lostPages_frame s lost .recs (by decide)

theorem findMark_frame (s : State) (found : List Nat) : Keeps [.rnd, .modes, .counts, .ports, .sessions, .ctxs, .nextId, .kept, .held, .sent, .locks, .logs, .keyspaces, .entries, .logA, .logB, .dirty, .quince, .pages, .pipes, .queue, .sieves, .relay, .power, .sb, .dbg, .nor] s ((State.findMark s found)) :=
  findMark_keeps (Keeps.refl _ _) found rfl

@[simp] theorem findMark_recs (s : State) (found : List Nat) : ((State.findMark s found)).store.recs = s.store.recs :=
  findMark_frame s found .recs (by decide)

theorem stepDone_frame (s : State) (n : Nat) : Keeps [.modes, .dbg] s ((State.stepDone s n)) :=
  stepDone_keeps (Keeps.refl _ _) n rfl

@[simp] theorem stepDone_supply (s : State) (n : Nat) : ((State.stepDone s n)).supply = s.supply :=
  stepDone_frame s n .supply (by decide)

theorem keysErasedEvent_frame (s : State) (causes : BitVec 8) (mode : Nat) : Keeps [.logs, .dbg] s ((State.keysErasedEvent s causes mode)) :=
  keysErasedEvent_keeps (Keeps.refl _ _) causes mode rfl

@[simp] theorem keysErasedEvent_net (s : State) (causes : BitVec 8) (mode : Nat) : ((State.keysErasedEvent s causes mode)).net = s.net :=
  Keeps.net (keysErasedEvent_frame s causes mode) (by decide)

@[simp] theorem keysErasedEvent_store (s : State) (causes : BitVec 8) (mode : Nat) : ((State.keysErasedEvent s causes mode)).store = s.store :=
  Keeps.store (keysErasedEvent_frame s causes mode) (by decide)

@[simp] theorem keysErasedEvent_cipher (s : State) (causes : BitVec 8) (mode : Nat) : ((State.keysErasedEvent s causes mode)).cipher = s.cipher :=
  Keeps.cipher (keysErasedEvent_frame s causes mode) (by decide)

@[simp] theorem keysErasedEvent_pending (s : State) (causes : BitVec 8) (mode : Nat) : ((State.keysErasedEvent s causes mode)).pending = s.pending :=
  keysErasedEvent_frame s causes mode .pending (by decide)

@[simp] theorem keysErasedEvent_clock (s : State) (causes : BitVec 8) (mode : Nat) : ((State.keysErasedEvent s causes mode)).clock = s.clock :=
  keysErasedEvent_frame s causes mode .clock (by decide)

@[simp] theorem keysErasedEvent_rnd (s : State) (causes : BitVec 8) (mode : Nat) : ((State.keysErasedEvent s causes mode)).rnd = s.rnd :=
  keysErasedEvent_frame s causes mode .rnd (by decide)

@[simp] theorem keysErasedEvent_supply (s : State) (causes : BitVec 8) (mode : Nat) : ((State.keysErasedEvent s causes mode)).supply = s.supply :=
  keysErasedEvent_frame s causes mode .supply (by decide)

@[simp] theorem keysErasedEvent_modes (s : State) (causes : BitVec 8) (mode : Nat) : ((State.keysErasedEvent s causes mode)).modes = s.modes :=
  keysErasedEvent_frame s causes mode .modes (by decide)

@[simp] theorem keysErasedEvent_spares (s : State) (causes : BitVec 8) (mode : Nat) : ((State.keysErasedEvent s causes mode)).spares = s.spares :=
  keysErasedEvent_frame s causes mode .spares (by decide)

@[simp] theorem keysErasedEvent_counts (s : State) (causes : BitVec 8) (mode : Nat) : ((State.keysErasedEvent s causes mode)).counts = s.counts :=
  keysErasedEvent_frame s causes mode .counts (by decide)

@[simp] theorem keysErasedEvent_ports (s : State) (causes : BitVec 8) (mode : Nat) : ((State.keysErasedEvent s causes mode)).ports = s.ports :=
  keysErasedEvent_frame s causes mode .ports (by decide)

@[simp] theorem keysErasedEvent_vars (s : State) (causes : BitVec 8) (mode : Nat) : ((State.keysErasedEvent s causes mode)).vars = s.vars :=
  keysErasedEvent_frame s causes mode .vars (by decide)

@[simp] theorem keysErasedEvent_marks (s : State) (causes : BitVec 8) (mode : Nat) : ((State.keysErasedEvent s causes mode)).marks = s.marks :=
  keysErasedEvent_frame s causes mode .marks (by decide)

@[simp] theorem keysErasedEvent_owners (s : State) (causes : BitVec 8) (mode : Nat) : ((State.keysErasedEvent s causes mode)).owners = s.owners :=
  keysErasedEvent_frame s causes mode .owners (by decide)

@[simp] theorem keysErasedEvent_coh (s : State) (causes : BitVec 8) (mode : Nat) : ((State.keysErasedEvent s causes mode)).coh = s.coh :=
  keysErasedEvent_frame s causes mode .coh (by decide)

@[simp] theorem keysErasedEvent_quince (s : State) (causes : BitVec 8) (mode : Nat) : ((State.keysErasedEvent s causes mode)).quince = s.quince :=
  keysErasedEvent_frame s causes mode .quince (by decide)

@[simp] theorem keysErasedEvent_sieves (s : State) (causes : BitVec 8) (mode : Nat) : ((State.keysErasedEvent s causes mode)).sieves = s.sieves :=
  keysErasedEvent_frame s causes mode .sieves (by decide)

@[simp] theorem keysErasedEvent_relay (s : State) (causes : BitVec 8) (mode : Nat) : ((State.keysErasedEvent s causes mode)).relay = s.relay :=
  keysErasedEvent_frame s causes mode .relay (by decide)

@[simp] theorem keysErasedEvent_power (s : State) (causes : BitVec 8) (mode : Nat) : ((State.keysErasedEvent s causes mode)).power = s.power :=
  keysErasedEvent_frame s causes mode .power (by decide)

@[simp] theorem keysErasedEvent_thermal (s : State) (causes : BitVec 8) (mode : Nat) : ((State.keysErasedEvent s causes mode)).thermal = s.thermal :=
  keysErasedEvent_frame s causes mode .thermal (by decide)

@[simp] theorem keysErasedEvent_holdup (s : State) (causes : BitVec 8) (mode : Nat) : ((State.keysErasedEvent s causes mode)).holdup = s.holdup :=
  keysErasedEvent_frame s causes mode .holdup (by decide)

@[simp] theorem keysErasedEvent_fw (s : State) (causes : BitVec 8) (mode : Nat) : ((State.keysErasedEvent s causes mode)).fw = s.fw :=
  keysErasedEvent_frame s causes mode .fw (by decide)

@[simp] theorem keysErasedEvent_sb (s : State) (causes : BitVec 8) (mode : Nat) : ((State.keysErasedEvent s causes mode)).sb = s.sb :=
  keysErasedEvent_frame s causes mode .sb (by decide)

@[simp] theorem keysErasedEvent_nor (s : State) (causes : BitVec 8) (mode : Nat) : ((State.keysErasedEvent s causes mode)).nor = s.nor :=
  keysErasedEvent_frame s causes mode .nor (by decide)

theorem eraseForAlarm_frame (s : State) (causes : BitVec 8) : Keeps [.counts, .ports, .sessions, .ctxs, .nextId, .kept, .held, .sent, .locks, .logs, .keyspaces, .quince, .pages, .kek, .pipes, .queue, .sieves, .relay, .power, .sb, .dbg] s ((State.eraseForAlarm s causes)) :=
  eraseForAlarm_keeps (Keeps.refl _ _) causes rfl

@[simp] theorem eraseForAlarm_supply (s : State) (causes : BitVec 8) : ((State.eraseForAlarm s causes)).supply = s.supply :=
  eraseForAlarm_frame s causes .supply (by decide)

theorem flushAll_frame (s : State) (f : Flush) : Keeps [.groups, .logA, .logB, .mapLog, .dirty, .images, .relay, .nor] s ((State.flushAll s f).1) :=
  flushAll_keeps (Keeps.refl _ _) f rfl

theorem endRelaying_frame (s : State) : Keeps [.rnd, .counts, .ports, .sessions, .ctxs, .nextId, .kept, .held, .sent, .locks, .logs, .keyspaces, .holds, .quince, .pages, .pipes, .queue, .relay, .power, .sb, .dbg] s ((State.endRelaying s)) :=
  endRelaying_keeps (Keeps.refl _ _) rfl

theorem resetVars_frame (s : State) : Keeps [.ports, .vars, .sb] s ((State.resetVars s)) :=
  resetVars_keeps (Keeps.refl _ _) rfl

theorem startFallback_frame (s : State) (reason : Nat) : Keeps [.counts, .ports, .sessions, .nextId, .kept, .held, .sent, .logs, .keyspaces, .power, .fw, .sb, .dbg] s ((State.startFallback s reason)) :=
  startFallback_keeps (Keeps.refl _ _) reason rfl

theorem ueRecord_frame (s : State) (island memory outcome addr : Nat) (b sram : Bool) : Keeps [.counts, .logs, .dbg] s ((State.ueRecord s island memory outcome addr b sram)) :=
  ueRecord_keeps (Keeps.refl _ _) island memory outcome addr b sram rfl

@[simp] theorem ueRecord_net (s : State) (island memory outcome addr : Nat) (b sram : Bool) : ((State.ueRecord s island memory outcome addr b sram)).net = s.net :=
  Keeps.net (ueRecord_frame s island memory outcome addr b sram) (by decide)

theorem rowReload_frame (s : State) (bank row : Nat) (cleared : Bool) : Keeps [.counts, .logs, .dbg] s ((State.rowReload s bank row cleared)) :=
  rowReload_keeps (Keeps.refl _ _) bank row cleared rfl

@[simp] theorem rowReload_store (s : State) (bank row : Nat) (cleared : Bool) : ((State.rowReload s bank row cleared)).store = s.store :=
  Keeps.store (rowReload_frame s bank row cleared) (by decide)

@[simp] theorem rowReload_quince (s : State) (bank row : Nat) (cleared : Bool) : ((State.rowReload s bank row cleared)).quince = s.quince :=
  rowReload_frame s bank row cleared .quince (by decide)

end Sys2Proof.Machine
end

