-- ==== Sys2Proof/Laws/Replies.lean ====
section
/-! SUPPORT. Replies, sessions and the commands that end at once. -/

set_option Elab.async false

set_option linter.unusedSimpArgs false

namespace Sys2Proof.Machine

theorem gives_of {i : Instr} {s t : State} {p : State → Prop} (h : exec i s = .next t) (hp : p t) : Gives i s p := ⟨t, h, hp⟩

theorem changeMode_same (s : State) : s.changeMode s.modes.mode = s := by
  unfold State.changeMode; simp

@[simp] theorem changeMode_modes' (s : State) (m : Mode) : (s.changeMode m).modes = { s.modes with mode := m } := by
  by_cases h : s.modes.mode = m
  · subst h; rw [changeMode_same]
  · unfold State.changeMode
    have hm := endForMode_modes s m
    generalize s.endForMode m = u at hm
    rw [if_neg (by simpa using h)]
    simp only [console_modes, alert_modes, broadcast_modes]
    repeat' split
    all_goals simp_all

@[simp] theorem beginFilling_modes' (s : State) : s.beginFilling.modes = { s.modes with mode := .filling, fillStart := s.clock, timeBase := s.clock, startStep := 1, starts := s.modes.starts + 1, startFault := false, restartAt := none } := by
  unfold State.beginFilling
  simp

@[simp] theorem beginFilling_supply' (s : State) : s.beginFilling.supply = { s.supply with mainOn := true, erasedLocked := false } := by
  unfold State.beginFilling
  simp

/-- What is sent or held stays so. -/
structure Out (s t : State) : Prop where
  sent : s.net.sent ⊆ t.net.sent
  held : s.net.held ⊆ t.net.held

theorem Out.refl (s : State) : Out s s := ⟨fun _ h => h, fun _ h => h⟩

theorem Out.trans {s t u : State} (h : Out s t) (k : Out t u) : Out s u := ⟨fun _ x => k.1 (h.1 x), fun _ x => k.2 (h.2 x)⟩

theorem Out.of {s t : State} (h : Keeps (Part.allBut [.sent, .held]) s t) : Out s t := by
  have h1 : t.net.sent = s.net.sent := h .sent (by decide)
  have h2 : t.net.held = s.net.held := h .held (by decide)
  exact ⟨by rw [h1]; exact fun _ h => h, by rw [h2]; exact fun _ h => h⟩

theorem Out.leaves {s t : State} {m : Msg} (h : Out s t) (k : Leaves m s) : Leaves m t := by
  obtain ⟨c, g, k⟩ := k
  refine ⟨c, g, ?_⟩
  rcases k with ⟨f, hf, e⟩ | ⟨f, hf, e⟩
  · exact .inl ⟨f, h.1 hf, e⟩
  · exact .inr ⟨f, h.2 hf, e⟩

theorem push_out (s : State) (h : Held) : Out s (s.push h) := by
  unfold State.push; dsimp only; split
  · exact ⟨fun _ x => by simp [State.sendingEnded]; exact .inl x, fun _ x => by simpa [State.sendingEnded] using x⟩
  · exact ⟨fun _ x => x, fun _ x => by simp; exact .inl x⟩

theorem push_in (s : State) (h : Held) : (∃ f ∈ (s.push h).net.sent, f.what = h.what) ∨ ∃ g ∈ (s.push h).net.held, g.what = h.what := by
  unfold State.push; dsimp only; split
  · exact .inl ⟨{ link := s.carrier h.link, dest := h.dest, pcp := h.prio, tag := s.frameTag (s.carrier h.link) h.prio, dscp := s.var 0x010C, what := h.what }, by simp [State.sendingEnded], rfl⟩
  · exact .inr ⟨h, by simp, rfl⟩

theorem sendFrame_out (s : State) (p : Path) (pcp : Nat) (k : Option Nat) (w : Content) : Out s (s.sendFrame p pcp k w) :=
  Out.trans (t := { s with net := { s.net with nextId := s.net.nextId + 1 } }) ⟨fun _ h => h, fun _ h => h⟩ (push_out _ _)

theorem sendOnce_out (s : State) (p : Path) (x : Option Nat) (m : Msg) : Out s (s.sendOnce p x m) := sendFrame_out _ _ _ _ _

theorem sendKept_out (s : State) (p : Path) (x o : Nat) (l : Option LateFault) (m : Msg) : Out s (s.sendKept p x o l m) := by
  unfold State.sendKept; dsimp only
  refine Out.trans ?_ (sendFrame_out _ _ _ _ _)
  exact ⟨fun _ h => h, fun _ h => h⟩

theorem sendOnce_leaves (s : State) (p : Path) (x : Option Nat) (m : Msg) : Leaves m (s.sendOnce p x m) := by
  unfold State.sendOnce State.sendFrame; dsimp only
  exact ⟨_, _, push_in _ _⟩

theorem sendKept_leaves (s : State) (p : Path) (x o : Nat) (l : Option LateFault) (m : Msg) : Leaves m (s.sendKept p x o l m) := by
  unfold State.sendKept State.sendFrame; dsimp only
  exact ⟨_, _, push_in _ _⟩

theorem emitNotice_out (s : State) (x : Session) (n : Notice) : Out s (s.emitNotice x n) := by
  unfold State.emitNotice; dsimp only
  refine Out.trans ?_ (sendKept_out _ _ _ _ _ _)
  exact ⟨fun _ h => h, fun _ h => h⟩

theorem journalLate_out (s : State) (f : LateFault) : Out s (s.journalLate f) := Out.of ((journalLate_frame s f).mono (by decide))

theorem notify_out (s : State) (x : Nat) (n : Notice) : Out s (s.notify x n) := by
  unfold State.notify; repeat' split
  all_goals first | exact Out.refl _ | exact journalLate_out _ _ | exact emitNotice_out _ _ _ | exact ⟨fun _ h => h, fun _ h => h⟩

theorem foldl_out {β : Type} (f : State → β → State) (hf : ∀ s b, Out s (f s b)) (l : List β) (s : State) : Out s (l.foldl f s) := by
  induction l generalizing s with
  | nil => exact Out.refl _
  | cons b l ih => exact (hf s b).trans (ih _)

theorem startExit_out (s : State) : Out s s.startExit := Out.of ((startExit_frame s).mono (by decide))

theorem broadcast_out (s : State) (k : NoticeKind) (ks : Nat) (a b : BitVec 64) (v : Bytes) : Out s (s.broadcast k ks a b v) := by
  unfold State.broadcast; dsimp only
  refine Out.trans ?_ (foldl_out _ (fun s x => notify_out _ _ _) _ _)
  split
  · exact startExit_out _
  · exact Out.refl _

theorem markNotice_out (s : State) (k n : Nat) : Out s (s.markNotice k n) := by
  unfold State.markNotice; dsimp only
  refine Out.trans ?_ (broadcast_out _ _ _ _ _ _)
  exact ⟨fun _ h => h, fun _ h => h⟩

theorem watchOne_out (s : State) (k : Nat) : Out s (s.watchOne k) := by
  unfold State.watchOne; dsimp only
  repeat' split
  · exact ⟨fun _ h => h, fun _ h => h⟩
  · exact Out.trans (t := ({ s with marks := s.marks.set k { s.mark k with level := true, up := true } } : State).alert .watermark) ⟨fun _ h => h, fun _ h => h⟩ (markNotice_out _ _ _)
  · exact ⟨fun _ h => h, fun _ h => h⟩
  · exact Out.refl _

theorem watch_out (s : State) : Out s s.watch := by
  unfold State.watch; split
  · exact Out.refl _
  · exact Out.refl _
  · exact foldl_out _ watchOne_out _ _

/-- The mailbox's reply is not touched by watermarks. -/
def MbSame (s t : State) : Prop := t.sb.mb = s.sb.mb ∧ t.sb.reply = s.sb.reply ∧ t.sb.readOff = s.sb.readOff

theorem MbSame.trans {s t u : State} (h : MbSame s t) (k : MbSame t u) : MbSame s u := ⟨k.1.trans h.1, k.2.1.trans h.2.1, k.2.2.trans h.2.2⟩

theorem MbSame.of {s t : State} (h : Keeps (Part.allBut [.sb]) s t) : MbSame s t := by
  have h1 : t.sb = s.sb := h .sb (by decide)
  exact ⟨by rw [h1], by rw [h1], by rw [h1]⟩

theorem watchOne_mb (s : State) (k : Nat) : MbSame s (s.watchOne k) := by
  unfold State.watchOne; dsimp only
  repeat' split
  · exact ⟨rfl, rfl, rfl⟩
  · exact MbSame.trans (t := ({ s with marks := s.marks.set k { s.mark k with level := true, up := true } } : State).alert .watermark) ⟨rfl, rfl, rfl⟩ (MbSame.of ((markNotice_frame _ _ _).mono (by decide)))
  · exact ⟨rfl, rfl, rfl⟩
  · exact ⟨rfl, rfl, rfl⟩

theorem watch_mb (s : State) : MbSame s s.watch := by
  unfold State.watch; split
  · exact ⟨rfl, rfl, rfl⟩
  · exact ⟨rfl, rfl, rfl⟩
  · have : ∀ (l : List Nat) (s : State), MbSame s (l.foldl State.watchOne s) := by
      intro l; induction l with
      | nil => exact fun _ => ⟨rfl, rfl, rfl⟩
      | cons b l ih => exact fun s => (watchOne_mb s b).trans (ih _)
    exact this _ _

theorem Replied.watch {x : Ctx} {r : Reply} {s : State} (h : Replied x r s) : Replied x r s.watch := by
  obtain ⟨h1, h2⟩ := h
  refine ⟨by unfold State.ctx? at h1 ⊢; rw [watch_ctxs]; exact h1, ?_⟩
  split
  · rename_i hm; rw [if_pos hm] at h2
    have := watch_mb s
    exact ⟨this.1.trans h2.1, this.2.1.trans h2.2.1, this.2.2.trans h2.2.2⟩
  · rename_i hm; rw [if_neg hm] at h2
    exact (watch_out s).leaves h2

theorem settle_quiet {s : State} (h : NoneWaits s) : s.settle = s.watch := by
  unfold State.settle
  have : s.settleN (s.net.ctxs.length + 1) = s := by
    unfold State.settleN
    have hf : s.net.ctxs.find? (fun x => x.phase == .waiting && s.holdsLock (.cmd x.id) && !s.repairing x.fp) = none := by
      rw [List.find?_eq_none]; intro y hy; have := h y hy; simp [this]
    rw [hf]
  rw [this]

theorem NoneWaits.sub {s t : State} (h : NoneWaits s) (k : ∀ y ∈ t.net.ctxs, y ∈ s.net.ctxs) : NoneWaits t := fun y hy => h y (k y hy)

theorem Replied.settle {x : Ctx} {r : Reply} {s : State} (h : Replied x r s) (k : NoneWaits s) : Replied x r s.settle := by
  rw [settle_quiet k]; exact h.watch

theorem ctx?_id {s : State} {c : Nat} {x : Ctx} (h : s.ctx? c = some x) : x.id = c := by
  unfold State.ctx? at h; simpa using List.find?_some h

theorem ctx?_mem {s : State} {c : Nat} {x : Ctx} (h : s.ctx? c = some x) : x ∈ s.net.ctxs := by
  unfold State.ctx? at h; exact List.mem_of_find?_eq_some h

theorem foreground_out (s : State) : Out s s.foreground := ⟨fun _ h => h, fun _ h => h⟩

theorem endCmd_replied {s : State} {c : Nat} {x : Ctx} (r : Reply) (h : s.ctx? c = some x) : Replied x r (s.endCmd c r) := by
  have hid := ctx?_id h
  unfold State.endCmd; rw [h]; dsimp only
  generalize (s.releaseCmd x).recordStatus x r = s1
  refine ⟨?_, ?_⟩
  · unfold State.ctx? State.foreground State.withCtxs
    rw [List.find?_eq_none]; intro y hy
    simp at hy; rw [hid]; simp [hy.2]
  · unfold State.sendReply
    cases hm : x.mailbox
    · simp only [hm, Bool.false_eq_true, if_false]
      have hw : ∀ u : State, Leaves (x.message r) u → Leaves (x.message r) (u.withCtxs (s.net.ctxs.filter (fun y => y.id != c))).foreground :=
        fun u hu => hu
      apply hw
      repeat' split
      all_goals first | exact sendOnce_leaves _ _ _ _ | exact sendKept_leaves _ _ _ _ _ _
    · simp only [if_true]
      exact ⟨rfl, rfl, rfl⟩

theorem endCmd_ctxs {s : State} {c : Nat} (r : Reply) : (s.endCmd c r).net.ctxs = s.net.ctxs.filter (fun y => y.id != c) := by
  unfold State.endCmd
  cases h : s.ctx? c with
  | none =>
    symm; rw [List.filter_eq_self]; intro y hy
    unfold State.ctx? at h; rw [List.find?_eq_none] at h; have := h y hy; simp at this; simp [this]
  | some x => rfl

theorem NoneWaits.endCmd {s : State} (h : NoneWaits s) (c : Nat) (r : Reply) : NoneWaits (s.endCmd c r) :=
  h.sub (by intro y hy; rw [endCmd_ctxs] at hy; exact (List.mem_filter.mp hy).1)

theorem endCmd_settle_replied {s : State} {c : Nat} {x : Ctx} (r : Reply) (h : s.ctx? c = some x) (k : NoneWaits s) : Replied x r (s.endCmd c r).settle :=
  (endCmd_replied r h).settle (k.endCmd c r)

theorem watch_ctx? (s : State) (c : Nat) : s.watch.ctx? c = s.ctx? c := by unfold State.ctx?; rw [watch_ctxs]

theorem ctx?_updCtx {s : State} {c : Nat} {x : Ctx} {f : Ctx → Ctx} (h : s.ctx? c = some x) (hf : (f x).id = x.id) :
    (s.updCtx c f).ctx? c = some (f x) := by
  have hid := ctx?_id h
  unfold State.ctx? at h ⊢; unfold State.updCtx State.withCtxs upd; dsimp only
  generalize s.net.ctxs = l at h
  induction l with
  | nil => cases h
  | cons a l ih =>
    rw [List.find?_cons] at h
    split at h
    · rename_i he
      cases h
      simp only [List.map_cons, he, if_true, List.find?_cons]
      simp [hf, hid]
    · rename_i he
      simp only [List.map_cons, List.find?_cons]
      simp only [he, Bool.false_eq_true, if_false]
      exact ih h

@[simp] theorem enter_id (x : Ctx) (p : Phase) (n : Nat) : (x.enter p n).id = x.id := by
  unfold Ctx.enter; (repeat' split) <;> rfl

@[simp] theorem enter_phase (x : Ctx) (p : Phase) (n : Nat) : (x.enter p n).phase = p := by
  unfold Ctx.enter; (repeat' split) <;> rfl

theorem ctx?_toPhase {s : State} {c : Nat} {x : Ctx} (p : Phase) (h : s.ctx? c = some x) : (s.toPhase c p).ctx? c = some (x.enter p s.clock) :=
  ctx?_updCtx h (enter_id _ _ _)

theorem NoneWaits.updCtx {s : State} (h : NoneWaits s) (c : Nat) (f : Ctx → Ctx) (hf : ∀ x, (f x).phase ≠ .waiting) : NoneWaits (s.updCtx c f) := by
  intro y hy
  unfold State.updCtx State.withCtxs upd at hy; dsimp only at hy
  rw [List.mem_map] at hy
  obtain ⟨z, hz, rfl⟩ := hy
  split
  · exact hf z
  · exact h z hz

theorem fresh_ctx {s : State} {c op : Nat} {x : Ctx} (h : s.fresh? c op = some x) : s.ctx? c = some x ∧ x.opcode = op ∧ x.phase = .complete ∧ s.power.st = 0 := by
  unfold State.fresh? at h
  cases hc : s.ctx? c with
  | none => rw [hc] at h; cases h
  | some y =>
    rw [hc] at h; simp only [Option.bind_some] at h
    split at h
    · rename_i hh; cases h; simp at hh; exact ⟨rfl, hh.1.2, hh.1.1, hh.2⟩
    · cases h

theorem session?_num {s : State} {n : Nat} {y : Session} (h : s.session? n = some y) : y.num = n := by
  unfold State.session? at h; simpa using List.find?_some h

theorem find?_upd {α : Type} (p : α → Bool) (f : α → α) (hf : ∀ a, p (f a) = p a) (l : List α) : (upd p f l).find? p = (l.find? p).map f := by
  unfold upd
  induction l with
  | nil => rfl
  | cons a l ih =>
    simp only [List.map_cons, List.find?_cons]
    cases h : p a
    · simp only [h, Bool.false_eq_true, if_false]; exact ih
    · simp [h, hf]

theorem session?_upd {s : State} {n : Nat} {f : Session → Session} (hf : ∀ y, (f y).num = y.num) : (s.updSession n f).session? n = (s.session? n).map f := by
  unfold State.updSession State.session?; dsimp only
  exact find?_upd _ _ (fun a => by rw [hf]) _

theorem session?_of {s t : State} (h : t.net.sessions = s.net.sessions) (n : Nat) : t.session? n = s.session? n := by unfold State.session?; rw [h]

theorem NoneWaits.toPhase {s : State} (h : NoneWaits s) (c : Nat) {p : Phase} (hp : p ≠ .waiting) : NoneWaits (s.toPhase c p) :=
  h.updCtx c _ (fun x => by simpa using hp)

/-- Sessions up to their notice state. -/
def SessLike (y z : Session) : Prop := z = { y with notices := z.notices, waitingSd := z.waitingSd, lost := z.lost, nextNotice := z.nextNotice }

theorem releaseCmd_sessions (s : State) (x : Ctx) (n : Nat) (h : x.session = some n) : (s.releaseCmd x).net.sessions = upd (·.num == n) (fun y => { y with queue := y.queue.filter (· != x.id) }) s.net.sessions := by
  unfold State.releaseCmd; rw [h]
  dsimp only
  (repeat' split) <;> simp [State.updSession, State.updKeyspace]

theorem releaseCmd_sessions_none (s : State) (x : Ctx) (h : x.session = none) : (s.releaseCmd x).net.sessions = s.net.sessions := by
  unfold State.releaseCmd; rw [h]
  dsimp only
  (repeat' split) <;> simp [State.updSession, State.updKeyspace]

theorem record_num (x : Session) (q : BitVec 32) (st : Status) (a : BitVec 64) (r : Bool) : (x.record q st a r).num = x.num := by
  unfold Session.record
  have h : ∀ y : Session, y.advance.num = y.num := fun y => by unfold Session.advance; rfl
  rw [h]

theorem endCmd_session? {s : State} {c n : Nat} {x : Ctx} (r : Reply) (h : s.ctx? c = some x) (hn : x.session = some n) :
    (s.endCmd c r).session? n = (s.session? n).map (fun y => if x.reexec then { y with queue := y.queue.filter (· != x.id) } else
      ({ y with queue := y.queue.filter (· != x.id) } : Session).record x.seq r.status r.paramA (x.phase != .assembling && isReexecutable x.opcode (x.flags.getLsbD 0))) := by
  unfold State.endCmd; rw [h]; dsimp only
  have e1 : ∀ (u : State) cs, (u.withCtxs cs).foreground.session? n = u.session? n := fun _ _ => rfl
  rw [e1, session?_of (Machine.sendReply_sessions _ _ _)]
  unfold State.recordStatus; rw [hn]; dsimp only
  have e2 : (s.releaseCmd x).session? n = (s.session? n).map (fun y => { y with queue := y.queue.filter (· != x.id) }) := by
    unfold State.session?; rw [releaseCmd_sessions s x n hn]
    exact find?_upd (fun y : Session => y.num == n) (fun y => { y with queue := y.queue.filter (· != x.id) }) (fun a => rfl) _
  split
  · rename_i hr; rw [e2]
  · rename_i hr; rw [session?_upd (fun y => record_num _ _ _ _ _), e2]; simp only [hr, Bool.false_eq_true, if_false, Option.map_map, Function.comp_def]

theorem freeNumber_spec {s : State} {n : Nat} (h : s.freeNumber = some n) : n < 131072 ∧ s.session? n = none ∧ ∀ p ∈ s.net.closed, p.1 = n → p.2 + 1000000000 ≤ s.clock := by
  unfold State.freeNumber at h
  dsimp only at h
  have h1 := List.find?_some h
  have h2 := List.mem_of_find?_eq_some h
  rw [List.mem_map] at h2
  obtain ⟨i, -, rfl⟩ := h2
  simp at h1
  refine ⟨Nat.mod_lt _ (by decide), ?_, ?_⟩
  · unfold State.session?; rw [List.find?_eq_none]; intro y hy; simpa using h1.1 y hy
  · intro p hp hpn
    have := h1.2; unfold State.restsNumber at this
    simp at this
    have := this p.1 p.2 hp hpn
    simpa [sec] using this

theorem session?_append {s : State} {n : Nat} {y : Session} (h : s.session? n = none) (hy : y.num = n) : (s.net.sessions ++ [y]).find? (·.num == n) = some y := by
  unfold State.session? at h
  rw [List.find?_append, h]; simp [hy]

theorem baseFrom_none {x : Session} {n : Nat} {b : BitVec 32} (h : x.entry? b = none) : x.baseFrom n b = b := by
  cases n <;> simp [Session.baseFrom, h]

theorem releaseCmd_out (s : State) (x : Ctx) : Out s (s.releaseCmd x) := Out.of ((releaseCmd_frame s x).mono (by decide))

theorem recordStatus_out (s : State) (x : Ctx) (r : Reply) : Out s (s.recordStatus x r) := Out.of ((recordStatus_frame s x r).mono (by decide))

theorem sendReply_out (s : State) (x : Ctx) (r : Reply) : Out s (s.sendReply x r) := by
  unfold State.sendReply; dsimp only
  repeat' split
  all_goals first | exact sendOnce_out _ _ _ _ | exact sendKept_out _ _ _ _ _ _ | exact ⟨fun _ h => h, fun _ h => h⟩

theorem endCmd_out (s : State) (c : Nat) (r : Reply) : Out s (s.endCmd c r) := by
  unfold State.endCmd; split
  · exact Out.refl _
  · exact ((releaseCmd_out _ _).trans (recordStatus_out _ _ _)).trans ((sendReply_out _ _ _).trans ⟨fun _ h => h, fun _ h => h⟩)

theorem endCmd_ctx? {s : State} {c d : Nat} (r : Reply) (h : d ≠ c) : (s.endCmd c r).ctx? d = s.ctx? d := by
  unfold State.ctx?; rw [endCmd_ctxs]
  generalize s.net.ctxs = l
  induction l with
  | nil => rfl
  | cons a l ih =>
    rw [List.filter_cons]
    by_cases ha : a.id = d
    · have : a.id ≠ c := fun e => h (ha.symm.trans e)
      simp [ha, h]
    · by_cases hc : a.id = c
      · have hcd : ¬ c = d := fun e => h e.symm
        simp [hc, hcd]; simpa using ih
      · simp [ha, hc]; simpa using ih

theorem Replied.endCmd {x : Ctx} {r : Reply} {s : State} (h : Replied x r s) (hm : x.mailbox = false) (c : Nat) (r' : Reply) : Replied x r (s.endCmd c r') := by
  obtain ⟨h1, h2⟩ := h
  rw [hm] at h2
  refine ⟨?_, ?_⟩
  · by_cases e : x.id = c
    · unfold State.ctx? at h1 ⊢; rw [endCmd_ctxs]; rw [List.find?_eq_none] at h1 ⊢
      intro y hy; exact h1 y (List.mem_filter.mp hy).1
    · rw [endCmd_ctx? r' e]; exact h1
  · rw [hm]; exact (endCmd_out s c r').leaves h2

theorem flagsWithin_zero {x : Ctx} {m : BitVec 8} (h : x.flags = 0) : x.flagsWithin m = true := by unfold Ctx.flagsWithin; rw [h]; simp

theorem setWindow_sessions (s : State) (y : Session) (n w : Nat) (h : s.net.sessions = [y]) (hn : y.num = n) :
    (s.setWindow n w).net.sessions = [({ y with window := w } : Session).advance] := by
  unfold State.setWindow State.updSession upd; dsimp only; rw [h]; simp [hn]

theorem advance_basic (y : Session) : y.advance.num = y.num ∧ y.advance.fence = y.fence ∧ y.advance.window = y.window ∧ y.advance.request = y.request ∧ y.advance.lastHeard = y.lastHeard := ⟨rfl, rfl, rfl, rfl, rfl⟩

theorem rebalance_other (s : State) (o : Nat) (y : Session) (h : s.net.sessions = [y]) (hf : y.fence = 0) (ho : o ≠ 0) : s.rebalance o = s := by
  have hp : s.poolSessions o = [] := by unfold State.poolSessions; rw [h]; simp [hf]; omega
  unfold State.rebalance; dsimp only
  rw [hp]
  have ht : s.poolTight o = false := by unfold State.poolTight; rw [hp]; simp
  have : (o == 0) = false := by simpa using ho
  simp only [List.foldl_nil, this, Bool.false_eq_true, if_false, ht]
  unfold State.growWindows; rw [hp]; rfl

theorem ownTarget_eq (s : State) (y : Session) (hg : ∀ o, (s.owner o).gc ≠ 3) : s.ownTarget y = if s.idleSession y.num && decide (y.lastHeard + ms (s.var 0x0304) ≤ s.clock) then 1 else y.request := by
  unfold State.ownTarget; dsimp only
  have : (List.range 9).filterMap (fun o => s.throttleTarget o y) = [] := by
    rw [List.filterMap_eq_nil_iff]; intro o _
    unfold State.throttleTarget; dsimp only; rw [if_neg]; simp; intro h; exact absurd h (hg o)
  rw [this]; rfl

theorem keeps_setWindow (s : State) (n w : Nat) : Keeps [.sessions] s (s.setWindow n w) := setWindow_frame s n w

theorem ownTarget_setWindow (s : State) (n w : Nat) (y z : Session) (h1 : z.num = y.num) (h2 : z.request = y.request) (h3 : z.lastHeard = y.lastHeard) (hg : ∀ o, (s.owner o).gc ≠ 3) :
    (s.setWindow n w).ownTarget z = s.ownTarget y := by
  rw [ownTarget_eq s y hg, ownTarget_eq (s.setWindow n w) z (fun o => hg o), h1, h2, h3]; rfl

theorem rebalance_one (s : State) (y : Session) (h : s.net.sessions = [y]) (hf : y.fence = 0) (hw : y.window ≤ 32) (hu : s.capacityUnits = 0) (hi : s.internalContexts = 0)
    (hg : ∀ o, (s.owner o).gc ≠ 3) (tg : Nat) (ht : s.ownTarget y = tg) (h32 : tg ≤ 32) :
    ∃ z, (s.rebalance 0).net.sessions = [z] ∧ z.window = tg ∧ z.fence = 0 ∧ Keeps [.sessions] s (s.rebalance 0) := by
  -- a state with one session of window w is neither tight nor in excess
  have calm : ∀ (u : State) (v : Session), u.net.sessions = [v] → v.fence = 0 → v.window ≤ 32 → u.capacityUnits = 0 → u.internalContexts = 0 →
      u.windowExcess = 0 ∧ u.poolTight 0 = false ∧ 131041 ≤ u.poolAvail 0 := by
    intro u v h1 h2 h3 h4 h5
    have a1 : u.poolOpen 0 = 1 := by unfold State.poolOpen; rw [h1]; simp [h2]
    have a2 : u.poolWindows 0 = v.window := by unfold State.poolWindows; rw [h1]; simp [h2]
    have a3 : u.poolAvail 0 ≥ 131041 := by unfold State.poolAvail State.poolContexts State.poolEntries; rw [a1, a2, h4, h5]; simp; omega
    refine ⟨?_, ?_, a3⟩
    · unfold State.windowExcess State.poolContexts State.poolEntries; rw [a1, a2, h4, h5]; simp; omega
    · unfold State.poolTight; have : (u.poolAvail 0 == 0) = false := by simp; omega
      rw [this]; rfl
  have shrink0 : ∀ (u : State), u.windowExcess = 0 → u.shrinkCommons = u := by
    intro u hu
    have e : ∀ (v : State) f n, v.shrinkLargest f n 0 = v := by intro v f n; cases n <;> rfl
    unfold State.shrinkCommons; dsimp only; rw [hu, e, hu, e]
  have hp : s.poolSessions 0 = [y] := by unfold State.poolSessions; rw [h]; simp [hf]
  unfold State.rebalance; dsimp only
  rw [hp]; simp only [List.foldl_cons, List.foldl_nil, ht, BEq.rfl, if_true]
  by_cases hlt : tg < y.window
  · simp only [if_pos hlt]
    have e1 := setWindow_sessions s y y.num tg h rfl
    generalize hz : ({ y with window := tg } : Session).advance = z at e1
    have z1 : z.window = tg := by rw [← hz]; rfl
    have z2 : z.fence = 0 := by rw [← hz]; exact hf
    have z3 : z.num = y.num := by rw [← hz]; rfl
    have ht2 : (s.setWindow y.num tg).ownTarget z = tg := by rw [ownTarget_setWindow s _ _ y z z3 (by rw [← hz]; rfl) (by rw [← hz]; rfl) hg, ht]
    have c1 := calm _ z e1 z2 (by omega) (show (s.setWindow y.num tg).capacityUnits = 0 from hu) (show (s.setWindow y.num tg).internalContexts = 0 from hi)
    rw [shrink0 _ c1.1, c1.2.1]; simp only [Bool.false_eq_true, if_false]
    have hp2 : (s.setWindow y.num tg).poolSessions 0 = [z] := by unfold State.poolSessions; rw [e1]; simp [z2]
    unfold State.growWindows; rw [hp2]; simp only [List.foldl_cons, List.foldl_nil, ht2]
    rw [if_neg (by omega)]
    exact ⟨z, e1, z1, z2, keeps_setWindow _ _ _⟩
  · simp only [if_neg hlt]
    have c1 := calm s y h hf hw hu hi
    rw [shrink0 _ c1.1, c1.2.1]; simp only [Bool.false_eq_true, if_false]
    unfold State.growWindows; rw [hp]; simp only [List.foldl_cons, List.foldl_nil, ht]
    by_cases hlt2 : y.window < min 32 tg
    · rw [if_pos hlt2]
      have e1 := setWindow_sessions s y y.num (y.window + min (min 32 tg - y.window) (s.poolAvail 0)) h rfl
      refine ⟨_, e1, ?_, hf, keeps_setWindow _ _ _⟩
      rw [(advance_basic _).2.2.1]; dsimp only; omega
    · rw [if_neg hlt2]
      exact ⟨y, h, by omega, hf, Keeps.refl _ _⟩

theorem rebalance_rest (s u : State) (z : Session) (h : u.net.sessions = [z]) (hf : z.fence = 0) : (List.range' 1 8).foldl State.rebalance u = u := by
  have : ∀ l : List Nat, (∀ o ∈ l, o ≠ 0) → l.foldl State.rebalance u = u := by
    intro l; induction l with
    | nil => intro _; rfl
    | cons a l ih => intro hl; rw [List.foldl_cons, rebalance_other u a z h hf (hl a (by simp))]; exact ih (fun o ho => hl o (by simp [ho]))
  exact this _ (by decide)

end Sys2Proof.Machine
end

