-- ==== Sys2Proof/Laws/Starting.lean ====
section
/-! SUPPORT. Starts, the modes they end in, and what ends them. -/

set_option Elab.async false

set_option linter.unusedSimpArgs false

namespace Sys2Proof.Machine

theorem freeze_modes_filling (s : State) (f : FreezeCause) (h : s.modes.mode = .filling) : (s.freeze f).modes = { s.modes with freezeCauses := s.modes.freezeCauses ||| f.word } := by
  unfold State.freeze; simp [h]

theorem startMarks_x (s : State) : True := trivial

theorem foldl_keysErased {l : List (BitVec 8 × Nat)} (s : State) : (l.foldl (fun t a => t.keysErasedEvent a.1 a.2) s).modes = s.modes ∧ (l.foldl (fun t a => t.keysErasedEvent a.1 a.2) s).holdup = s.holdup ∧ (l.foldl (fun t a => t.keysErasedEvent a.1 a.2) s).supply = s.supply := by
  induction l generalizing s with
  | nil => simp
  | cons a l ih => simp [ih]

theorem onlyOp (w : BitVec 8) : onlyOperator w = true ↔ w &&& 0xBF#8 = 0#8 := by
  unfold onlyOperator; simp [FreezeCause.word, FreezeCause.bit]

@[simp] theorem mainOff_modes' (s : State) : s.mainOff.modes = { s.modes with flush := none } := by unfold State.mainOff; simp

@[simp] theorem mainOff_supply' (s : State) : s.mainOff.supply = { s.supply with mainOn := false, conditions := s.supply.conditions.filter (· != .supply) } := by unfold State.mainOff; simp

@[simp] theorem toDormant_modes' (s : State) : s.toDormant.modes = { s.modes with flush := none, mode := .dormant } := by unfold State.toDormant; simp

@[simp] theorem toDormant_supply' (s : State) : s.toDormant.supply = { s.supply with mainOn := false, conditions := s.supply.conditions.filter (· != .supply) } := by unfold State.toDormant; simp

@[simp] theorem startFault_modes' (s : State) (c i : Nat) : (s.startFault c i).modes = { s.modes with flush := none, mode := .dormant, startFault := true, startCause := c, startFaults := s.modes.startFaults + 1, faultIsland := i, restartFault := none, restartAt := none, markFound := none } := by unfold State.startFault; simp

@[simp] theorem startFault_supply' (s : State) (c i : Nat) : (s.startFault c i).supply = { s.supply with mainOn := false, conditions := s.supply.conditions.filter (· != .supply), armed := false } := by unfold State.startFault; simp

@[simp] theorem recordMode_modes_of (s : State) (h : s.modes.mode = .serving ∨ s.modes.mode = .shadowing ∨ s.modes.mode = .frozen) : s.recordMode.modes = { s.modes with recorded := some s.modes.mode } := by
  unfold State.recordMode; rcases h with h | h | h <;> simp [h]

theorem broadcast_none (s : State) (k : NoticeKind) (ks : Nat) (a b : BitVec 64) (v : Bytes) (h : s.net.sessions = []) :
    (s.broadcast k ks a b v).net = s.net := by
  unfold State.broadcast
  dsimp only
  rw [h]
  dsimp only [List.filter, List.foldl]
  split <;> simp

theorem changeMode_dormant_net (s : State) (h : s.net.sessions = []) : (s.changeMode .dormant).net = s.net := by
  by_cases hd : s.modes.mode = .dormant
  · rw [← hd, changeMode_same]
  · unfold State.changeMode
    dsimp only
    rw [if_neg (by simpa using hd)]
    simp only [State.endForMode, console_net, alert_net]
    rw [broadcast_none]
    · (repeat' split) <;> simp_all
    · (repeat' split) <;> simp_all

theorem dropAll_net (s : State) (r : Nat) : (s.dropAll r).net.sessions = [] ∧ (s.dropAll r).net.ctxs = [] ∧ (s.dropAll r).net.held = [] := by
  unfold State.dropAll; simp

theorem mainOff_net (s : State) : s.mainOff.net.sessions = [] := by
  unfold State.mainOff; simp [dropAll_net]

theorem startWaltz_begun (s : State) (n : Nat) (h : s.modes.flush = none) : 
   (s.startWaltz n).modes = { s.modes with flush := some { trigger := n, phase := 1, since := s.clock, energyCj := 0, dirtyMiB := 0 } } ∧ (s.startWaltz n).net.sessions = [] ∧ (s.startWaltz n).net.ctxs = [] ∧ (s.startWaltz n).net.held = [] ∧ (∀ l ∈ (s.startWaltz n).ports.links, l.up = false) ∧ (s.startWaltz n).power.st = 0 := by
  unfold State.startWaltz
  have hw : s.waltzing = false := by simp [State.waltzing, h]
  simp [hw, h, State.linksOff, dropAll_net]
  intro a b; rfl

theorem endAll_nil (s : State) (p : Ctx → Bool) (st : Status) (h : s.net.ctxs = []) : s.endAll p st = s := by
  unfold State.endAll; rw [h]; rfl

theorem alertBits (s : State) (a : Alert) (k : Nat) (h : s.sb.alertStatus.getLsbD k = true) : (s.alert a).sb.alertStatus.getLsbD k = true := by
  unfold State.alert; simp [h]

theorem watchOne_bits (s : State) (w k : Nat) (h : s.sb.alertStatus.getLsbD k = true) : (s.watchOne w).sb.alertStatus.getLsbD k = true := by
  unfold State.watchOne; dsimp only
  split
  · split
    · exact alertBits _ _ _ h
    · simp; exact alertBits _ _ _ h
  · split <;> exact h

theorem watch_bits (s : State) (k : Nat) (h : s.sb.alertStatus.getLsbD k = true) : s.watch.sb.alertStatus.getLsbD k = true := by
  unfold State.watch
  split <;> try exact h
  have : ∀ (l : List Nat) (u : State), u.sb.alertStatus.getLsbD k = true → (l.foldl State.watchOne u).sb.alertStatus.getLsbD k = true := by
    intro l; induction l with
    | nil => exact fun _ h => h
    | cons a l ih => exact fun u hu => ih _ (watchOne_bits u a k hu)
  exact this _ _ h

theorem settle_nil (s : State) (h : s.net.ctxs = []) : s.settle = s.watch := by
  unfold State.settle
  rw [h]
  simp only [List.length_nil, State.settleN, h, List.find?_nil]

end Sys2Proof.Machine
end

