-- ==== Sys2Proof/Laws/Links.lean ====
section
/-! SUPPORT. Links, cages and frames. -/

set_option Elab.async false

set_option linter.unusedSimpArgs false

namespace Sys2Proof.Machine

theorem link_updLink (s : State) (n m : Nat) (f : Link → Link) : (s.updLink n f).link m = if m = n ∧ n < s.ports.links.length then f (s.link n) else s.link m := by
  unfold State.updLink State.link
  dsimp only
  rw [List.getD_eq_getElem?_getD, List.getElem?_set]
  by_cases h : n = m
  · subst h
    by_cases h2 : n < s.ports.links.length
    · simp [h2]
    · simp [h2]
  · rw [if_neg h, if_neg (fun hh => h hh.1.symm), List.getD_eq_getElem?_getD]

theorem link_lt {s : State} {n : Nat} (h : s.link n ≠ Link.off) : n < s.ports.links.length := by
  rcases Nat.lt_or_ge n s.ports.links.length with h2 | h2
  · exact h2
  · exfalso; apply h; unfold State.link; simp [List.getElem?_eq_none h2]

theorem link_up_lt {s : State} {n : Nat} (h : (s.link n).up = true) : n < s.ports.links.length := link_lt (fun e => by rw [e] at h; cases h)

theorem link_att_lt {s : State} {n a : Nat} (h : (s.link n).attempt = some a) : n < s.ports.links.length := link_lt (fun e => by rw [e] at h; cases h)

theorem link_of_links {s t : State} (h : t.ports.links = s.ports.links) (m : Nat) : t.link m = s.link m := by unfold State.link; rw [h]

@[simp] theorem alert_link (s : State) (a : Alert) (m : Nat) : (s.alert a).link m = s.link m := rfl

@[simp] theorem portEvent_link (s : State) (b : Bool) (e : PortEvent) (m : Nat) : (s.portEvent b e).link m = s.link m := by
  unfold State.portEvent State.link; dsimp only; cases b <;> simp only [Bool.false_eq_true, if_false, if_true] <;> split <;> rfl

theorem portEvent_bit (s : State) (b : Bool) (e : PortEvent) : (if b then (s.portEvent b e).ports.eventsB else (s.portEvent b e).ports.eventsA).getLsbD e.bit = true := by
  unfold State.portEvent; dsimp only; cases b <;> simp only [Bool.false_eq_true, if_false, if_true] <;> split <;> cases e <;> simp [State.alert, PortEvent.bit]

theorem portEvent_bit' (s : State) (n : Nat) (e : PortEvent) : (if n < 4 then (s.portEvent (isPortB n) e).ports.eventsA else (s.portEvent (isPortB n) e).ports.eventsB).getLsbD e.bit = true := by
  have := portEvent_bit s (isPortB n) e
  by_cases h : n < 4
  · have hb : isPortB n = false := by unfold isPortB; simp; omega
    rw [hb] at this ⊢; simpa [h] using this
  · have hb : isPortB n = true := by unfold isPortB; simp; omega
    rw [hb] at this ⊢; simpa [h] using this

theorem portEvent_ports (s : State) (b : Bool) (e : PortEvent) : (s.portEvent b e).ports.locked = s.ports.locked ∧ (s.portEvent b e).ports.failing = s.ports.failing ∧ (s.portEvent b e).ports.links = s.ports.links ∧ (s.portEvent b e).ports.cageA = s.ports.cageA ∧ (s.portEvent b e).ports.cageB = s.ports.cageB := by
  unfold State.portEvent; dsimp only; cases b <;> simp only [Bool.false_eq_true, if_false, if_true] <;> split <;> simp [State.alert]

theorem takeDown_link (s : State) (n m : Nat) (f : BitVec 8) : (s.takeDown n f).link m = if m = n ∧ (s.link n).up = true then { s.link n with up := false, degraded := false, lanes := s.fullLanes n, downAt := some s.clock, attempt := none, failed := 0, pauses := [], holdoff := [] } else s.link m := by
  unfold State.takeDown
  by_cases hu : (s.link n).up = true
  · simp only [hu, if_true, portEvent_link]
    refine Eq.trans (link_of_links (s := s.updLink n (fun k => { k with up := false, degraded := false, lanes := s.fullLanes n, downAt := some s.clock, attempt := none, failed := 0, pauses := [], holdoff := [] })) rfl m) ?_
    rw [link_updLink]
    simp [link_up_lt hu]
  · simp [hu]

theorem pauses_lt {s : State} {n : Nat} {p : Nat × Nat × Nat} (h : p ∈ (s.link n).pauses) : n < s.ports.links.length := link_lt (fun e => by rw [e] at h; simp [Link.off] at h)

@[simp] theorem push_links (s : State) (h : Held) : (s.push h).ports.links = s.ports.links := by
  unfold State.push; dsimp only; split
  · simp; split <;> rfl
  · rfl

theorem foldl_push_links (l : List Held) (s : State) : (l.foldl State.push s).ports.links = s.ports.links := by
  induction l generalizing s with
  | nil => rfl
  | cons a l ih => rw [List.foldl_cons, ih, push_links]

@[simp] theorem drainHeld_links (s : State) : s.drainHeld.ports.links = s.ports.links := by
  unfold State.drainHeld; rw [foldl_push_links]

@[simp] theorem sendFrame_links (s : State) (p : Path) (pcp : Nat) (k : Option Nat) (w : Content) : (s.sendFrame p pcp k w).ports.links = s.ports.links := by
  unfold State.sendFrame; simp

@[simp] theorem announce_links (s : State) (n : Nat) : (s.announce n).ports.links = s.ports.links := by
  unfold State.announce
  generalize s.ownAddrs n = l
  induction l generalizing s with
  | nil => rfl
  | cons a l ih => rw [List.foldl_cons, ih, sendFrame_links]

@[simp] theorem drainHeld_link (s : State) (m : Nat) : s.drainHeld.link m = s.link m := link_of_links (drainHeld_links s) m

@[simp] theorem announce_link (s : State) (n m : Nat) : (s.announce n).link m = s.link m := link_of_links (announce_links s n) m
-- other parts of ports

structure PortsRest (s t : State) : Prop where
  a : t.ports.eventsA = s.ports.eventsA
  b : t.ports.eventsB = s.ports.eventsB
  l : t.ports.locked = s.ports.locked
  f : t.ports.failing = s.ports.failing
  k : t.ports.links = s.ports.links

theorem push_rest (s : State) (h : Held) : PortsRest s (s.push h) := by
  unfold State.push; dsimp only; split
  · rw [show ∀ (u : State) i, (u.sendingEnded i) = u.sendingEnded i from fun _ _ => rfl]
    by_cases hb : isPortB (s.carrier h.link) = true <;> constructor <;> simp [State.sendingEnded, hb]
  · exact ⟨rfl, rfl, rfl, rfl, rfl⟩

theorem PortsRest.trans {s t u : State} (h : PortsRest s t) (k : PortsRest t u) : PortsRest s u := ⟨k.a.trans h.a, k.b.trans h.b, k.l.trans h.l, k.f.trans h.f, k.k.trans h.k⟩

theorem drainHeld_rest (s : State) : PortsRest s s.drainHeld := by
  unfold State.drainHeld
  have : ∀ (l : List Held) (u : State), PortsRest u (l.foldl State.push u) := by
    intro l; induction l with
    | nil => exact fun _ => ⟨rfl, rfl, rfl, rfl, rfl⟩
    | cons a l ih => exact fun u => (push_rest u a).trans (ih _)
  exact PortsRest.trans (t := { s with net := { s.net with held := [] } }) ⟨rfl, rfl, rfl, rfl, rfl⟩ (this _ _)

theorem sendFrame_rest (s : State) (p : Path) (pcp : Nat) (k : Option Nat) (w : Content) : PortsRest s (s.sendFrame p pcp k w) := by
  unfold State.sendFrame; exact PortsRest.trans (t := { s with net := { s.net with nextId := s.net.nextId + 1 } }) ⟨rfl, rfl, rfl, rfl, rfl⟩ (push_rest _ _)

theorem announce_rest (s : State) (n : Nat) : PortsRest s (s.announce n) := by
  unfold State.announce
  generalize s.ownAddrs n = l
  induction l generalizing s with
  | nil => exact ⟨rfl, rfl, rfl, rfl, rfl⟩
  | cons a l ih => exact (sendFrame_rest s _ _ _ _).trans (ih _)

theorem foldl_upd_link (c : Nat) (l : List Nat) (s : State) (n : Nat) (hn : n ∈ l) (hl : n < s.ports.links.length) :
   ∀ g : Nat → Link → Link, (∀ k, g n (g n k) = g n k) → (l.foldl (fun t m => t.updLink m (g m)) s).link n = g n (s.link n) := by
  intro g hg
  induction l generalizing s with
  | nil => simp at hn
  | cons a l ih =>
    rw [List.foldl_cons]
    by_cases ha : a = n
    · subst ha
      by_cases hin : a ∈ l
      · rw [ih _ hin (by unfold State.updLink; simpa using hl), link_updLink]; simp [hl, hg]
      · have : ∀ (l : List Nat) (u : State), a ∉ l → (l.foldl (fun t m => t.updLink m (g m)) u).link a = u.link a := by
          intro l; induction l with
          | nil => simp
          | cons b l ih2 => 
            intro u hu
            simp at hu
            rw [List.foldl_cons, ih2 _ hu.2, link_updLink, if_neg (fun h => hu.1 h.1)]
        rw [this _ _ hin, link_updLink]; simp [hl]
    · have hin : n ∈ l := by simpa [Ne.symm ha] using hn
      rw [ih _ hin (by unfold State.updLink; simpa using hl), link_updLink, if_neg (fun h => ha h.1.symm)]

theorem announces_rest (l : List Nat) (s : State) : PortsRest s (l.foldl (fun t n => t.announce n) s) := by
  induction l generalizing s with
  | nil => exact ⟨rfl, rfl, rfl, rfl, rfl⟩
  | cons a l ih => exact (announce_rest s a).trans (ih _)

theorem event_rest {s t : State} (h : PortsRest s t) (n k : Nat) (e : (if n < 4 then s.ports.eventsA else s.ports.eventsB).getLsbD k = true) : (if n < 4 then t.ports.eventsA else t.ports.eventsB).getLsbD k = true := by rw [h.a, h.b]; exact e

theorem foldl_none (l : List (Nat × Nat × Nat)) : True := trivial

theorem cage_setCage (s : State) (b : Bool) (c : Cage) : (s.setCage b c).cage b = c := by unfold State.setCage State.cage; cases b <;> simp

theorem cage_of_ports {s t : State} (hA : t.ports.cageA = s.ports.cageA) (hB : t.ports.cageB = s.ports.cageB) (b : Bool) : t.cage b = s.cage b := by unfold State.cage; rw [hA, hB]

@[simp] theorem updLink_cage (s : State) (n : Nat) (f : Link → Link) (b : Bool) : (s.updLink n f).cage b = s.cage b := rfl

@[simp] theorem portEvent_cage (s : State) (p : Bool) (e : PortEvent) (b : Bool) : (s.portEvent p e).cage b = s.cage b := cage_of_ports (portEvent_ports s p e).2.2.2.1 (portEvent_ports s p e).2.2.2.2 b

@[simp] theorem takeDown_cage (s : State) (n : Nat) (f : BitVec 8) (b : Bool) : (s.takeDown n f).cage b = s.cage b := by
  unfold State.takeDown; dsimp only; split
  · rw [portEvent_cage]; rfl
  · rfl

def downAll (s : State) (l : List Nat) : State := l.foldl (fun t l => (t.takeDown l 0).updLink l (fun k => { k with attempt := none })) s

@[simp] theorem downAll_cage (l : List Nat) (s : State) (b : Bool) : (downAll s l).cage b = s.cage b := by
  unfold downAll
  induction l generalizing s with
  | nil => rfl
  | cons a l ih => rw [List.foldl_cons, ih]; simp

theorem downAll_up (l : List Nat) (s : State) : ∀ m, (m ∈ l ∨ (s.link m).up = false) → ((downAll s l).link m).up = false := by
  unfold downAll
  induction l generalizing s with
  | nil => intro m h; simpa using h
  | cons a l ih =>
    intro m h
    rw [List.foldl_cons]
    apply ih
    by_cases hm : m ∈ l
    · exact .inl hm
    · right
      rw [link_updLink]
      by_cases hma : m = a
      · subst hma
        by_cases hu : (s.link m).up = true
        · split <;> simp [takeDown_link, hu]
        · split <;> simp_all [takeDown_link]
      · rw [if_neg (fun h => hma h.1), takeDown_link, if_neg (fun h => hma h.1)]
        rcases h with h | h
        · simp [hma, hm] at h
        · exact h

theorem refusePlugIn_eq (s : State) (b : Bool) (r : Nat) : s.refusePlugIn b r = (downAll (s.setCage b { s.cage b with accepted := false, refuse := r, lowPower := true }) (portLinks b)).portEvent b .cmisFault := rfl

theorem foldl_inv {α β γ : Type} (P : α → γ) (f : α → β → α) (hf : ∀ a b, P (f a b) = P a) (l : List β) (a : α) : P (l.foldl f a) = P a := by
  induction l generalizing a with
  | nil => rfl
  | cons b l ih => rw [List.foldl_cons, ih, hf]

@[simp] theorem startAttempts_cage (s : State) (p b : Bool) : (s.startAttempts p).cage b = s.cage b := by
  unfold State.startAttempts
  split
  · exact foldl_inv (fun u : State => u.cage b) _ (fun u a => by split <;> simp) _ _
  · rfl

theorem mtu_ports (s : State) (p : Ports) (n : Nat) : State.mtu { s with ports := p } n = s.mtu n := rfl

theorem act_keeps (s : State) (n : Nat) : Keeps [.ports, .sb] s { s with ports := if isPortB n = true then { s.ports with activeB := s.clock } else { s.ports with activeA := s.clock } } := by (intro p hp; cases p <;> first | (exfalso; exact hp (by decide)) | rfl | (simp [Same]; done))

theorem event_more (s : State) (n : Nat) (b : Bool) (e : PortEvent) (k : Nat) (h : (if n < 4 then s.ports.eventsA else s.ports.eventsB).getLsbD k = true) : (if n < 4 then (s.portEvent b e).ports.eventsA else (s.portEvent b e).ports.eventsB).getLsbD k = true := by
  have hA : (s.portEvent b e).ports.eventsA = if b then s.ports.eventsA else s.ports.eventsA ||| BitVec.ofNat 16 (2 ^ e.bit) := by
    unfold State.portEvent; dsimp only; cases b <;> simp only [Bool.false_eq_true, if_false, if_true] <;> split <;> rfl
  have hB : (s.portEvent b e).ports.eventsB = if b then s.ports.eventsB ||| BitVec.ofNat 16 (2 ^ e.bit) else s.ports.eventsB := by
    unfold State.portEvent; dsimp only; cases b <;> simp only [Bool.false_eq_true, if_false, if_true] <;> split <;> rfl
  rw [hA, hB]
  by_cases hn : n < 4
  · rw [if_pos hn] at h ⊢; cases b <;> simp [h]
  · rw [if_neg hn] at h ⊢; cases b <;> simp [h]

theorem wake_link (s : State) (m : Nat) : s.wake.link m = s.link m := link_of_links (by simp) m

theorem mem_sent_push (s : State) (h : Held) (hu : (s.link (s.carrier h.link)).up = true) (hp : s.isPaused (s.carrier h.link) h.prio = false) :
    { link := s.carrier h.link, dest := h.dest, pcp := h.prio, tag := s.frameTag (s.carrier h.link) h.prio, dscp := s.var 0x010C, what := h.what : Sent } ∈ (s.push h).net.sent := by
  unfold State.push; simp [hu, hp, State.sendingEnded]

theorem sent_mono {s t : State} (h : After s t) {f : Sent} (hf : f ∈ s.net.sent) : f ∈ t.net.sent := h.sent.subset hf

theorem mem_sent_frame (s : State) (p : Path) (pcp : Nat) (k : Option Nat) (w : Content) (hu : (s.link (s.carrier p.link)).up = true) (hp : s.isPaused (s.carrier p.link) pcp = false) :
    { link := s.carrier p.link, dest := p.src, pcp := pcp, tag := s.frameTag (s.carrier p.link) pcp, dscp := s.var 0x010C, what := w : Sent } ∈ (s.sendFrame p pcp k w).net.sent := by
  unfold State.sendFrame
  exact mem_sent_push { s with net := { s.net with nextId := s.net.nextId + 1 } } _ hu hp

@[simp] theorem sendOnce_links (s : State) (p : Path) (x : Option Nat) (m : Msg) : (s.sendOnce p x m).ports.links = s.ports.links := by unfold State.sendOnce; simp

@[simp] theorem sendKept_links (s : State) (p : Path) (x o : Nat) (l : Option LateFault) (m : Msg) : (s.sendKept p x o l m).ports.links = s.ports.links := by unfold State.sendKept; simp

@[simp] theorem emitNotice_links (s : State) (x : Session) (n : Notice) : (s.emitNotice x n).ports.links = s.ports.links := by unfold State.emitNotice; simp

@[simp] theorem notify_links (s : State) (x : Nat) (n : Notice) : (s.notify x n).ports.links = s.ports.links := by
  unfold State.notify; (repeat' split) <;> simp

@[simp] theorem broadcast_links (s : State) (k : NoticeKind) (ks : Nat) (a b : BitVec 64) (v : Bytes) : (s.broadcast k ks a b v).ports.links = s.ports.links := by
  unfold State.broadcast; dsimp only
  rw [foldl_inv (fun u : State => u.ports.links) _ (fun u a => by simp)]
  split <;> simp

@[simp] theorem watchOne_links (s : State) (k : Nat) : (s.watchOne k).ports.links = s.ports.links := by
  unfold State.watchOne State.markNotice; dsimp only; (repeat' split) <;> simp

@[simp] theorem watch_links (s : State) : s.watch.ports.links = s.ports.links := by
  unfold State.watch; split <;> try rfl
  exact foldl_inv (fun u : State => u.ports.links) _ (fun u a => by simp) _ _

end Sys2Proof.Machine
end

