-- ==== Sys2Proof/Laws/Messages.lean ====
section
/-! SUPPORT. Messages that are kept, and merged crossings. -/

set_option Elab.async false

set_option linter.unusedSimpArgs false

namespace Sys2Proof.Machine

def KeptNew (s t : State) : Prop := s.net.nextId ≤ t.net.nextId ∧ ∀ j ∈ t.net.kept, s.net.nextId ≤ j.id ∨ ∃ i ∈ s.net.kept, i.id = j.id

theorem KeptNew.refl (s : State) : KeptNew s s := ⟨Nat.le_refl _, fun j hj => .inr ⟨j, hj, rfl⟩⟩

theorem KeptNew.trans {s t u : State} (h : KeptNew s t) (k : KeptNew t u) : KeptNew s u := by
  refine ⟨Nat.le_trans h.1 k.1, fun j hj => ?_⟩
  rcases k.2 j hj with a | ⟨i, hi, e⟩
  · exact .inl (Nat.le_trans h.1 a)
  · rcases h.2 i hi with a | ⟨m, hm, e2⟩
    · exact .inl (e ▸ a)
    · exact .inr ⟨m, hm, e2.trans e⟩

theorem KeptNew.of {s t : State} (h1 : t.net.kept = s.net.kept) (h2 : t.net.nextId = s.net.nextId) : KeptNew s t := by
  refine ⟨by omega, fun j hj => .inr ⟨j, h1 ▸ hj, rfl⟩⟩

theorem push_kept (s : State) (h : Held) : KeptNew s (s.push h) := by
  unfold State.push; dsimp only; split
  · refine ⟨Nat.le_refl _, fun j hj => ?_⟩
    unfold State.sendingEnded upd at hj; dsimp only at hj
    rw [List.mem_map] at hj; obtain ⟨i, hi, rfl⟩ := hj
    exact .inr ⟨i, hi, by split <;> rfl⟩
  · exact KeptNew.refl _

theorem sendFrame_kept' (s : State) (p : Path) (pcp : Nat) (k : Option Nat) (w : Content) : KeptNew s (s.sendFrame p pcp k w) := by
  unfold State.sendFrame; dsimp only
  refine KeptNew.trans (t := { s with net := { s.net with nextId := s.net.nextId + 1 } }) ⟨Nat.le_succ _, fun j hj => .inr ⟨j, hj, rfl⟩⟩ (push_kept _ _)

theorem sendKept_kept (s : State) (p : Path) (x o : Nat) (l : Option LateFault) (m : Msg) : KeptNew s (s.sendKept p x o l m) := by
  unfold State.sendKept; dsimp only
  refine KeptNew.trans ?_ (sendFrame_kept' _ _ _ _ _)
  refine ⟨Nat.le_succ _, fun j hj => ?_⟩
  rcases List.mem_append.mp hj with a | a
  · exact .inr ⟨j, a, rfl⟩
  · simp at a; subst a; exact .inl (Nat.le_refl _)

theorem emitNotice_kept (s : State) (x : Session) (n : Notice) : KeptNew s (s.emitNotice x n) := by
  unfold State.emitNotice; dsimp only
  exact KeptNew.trans (t := s.updSession x.num (fun y => { y with nextNotice := y.nextNotice + 1, lost := false })) (KeptNew.of rfl rfl) (sendKept_kept _ _ _ _ _ _)

theorem pumpNotices_kept (n : Nat) (s : State) (x : Nat) : KeptNew s (State.pumpNotices n s x) := by
  induction n generalizing s with
  | zero => exact KeptNew.refl _
  | succ n ih =>
    unfold State.pumpNotices
    repeat' split
    all_goals first | exact KeptNew.refl _ | skip
    dsimp only
    refine KeptNew.trans ?_ (ih _)
    refine KeptNew.trans ?_ (emitNotice_kept _ _ _)
    exact KeptNew.of rfl rfl

theorem notify_kept (s : State) (x : Nat) (n : Notice) : KeptNew s (s.notify x n) := by
  unfold State.notify; repeat' split
  all_goals first | exact KeptNew.refl _ | exact emitNotice_kept _ _ _ | exact KeptNew.of rfl rfl

theorem foldl_kept {β : Type} (f : State → β → State) (hf : ∀ s b, KeptNew s (f s b)) (l : List β) (s : State) : KeptNew s (l.foldl f s) := by
  induction l generalizing s with
  | nil => exact KeptNew.refl _
  | cons b l ih => exact (hf s b).trans (ih _)

theorem broadcast_kept' (s : State) (k : NoticeKind) (ks : Nat) (a b : BitVec 64) (v : Bytes) : KeptNew s (s.broadcast k ks a b v) := by
  unfold State.broadcast; dsimp only
  refine KeptNew.trans ?_ (foldl_kept _ (fun s x => notify_kept _ _ _) _ _)
  split
  · exact KeptNew.of (by simp) (by simp)
  · exact KeptNew.refl _

theorem markNotice_kept' (s : State) (k n : Nat) : KeptNew s (s.markNotice k n) := by
  unfold State.markNotice; dsimp only
  refine KeptNew.trans ?_ (broadcast_kept' _ _ _ _ _ _)
  exact KeptNew.of rfl rfl

theorem watchOne_kept' (s : State) (k : Nat) : KeptNew s (s.watchOne k) := by
  unfold State.watchOne; dsimp only
  repeat' split
  · exact KeptNew.of rfl rfl
  · exact KeptNew.trans (t := ({ s with marks := s.marks.set k { s.mark k with level := true, up := true } } : State).alert .watermark) (KeptNew.of rfl rfl) (markNotice_kept' _ _ _)
  · exact KeptNew.of rfl rfl
  · exact KeptNew.refl _

theorem watch_kept' (s : State) : KeptNew s s.watch := by
  unfold State.watch; split
  · exact KeptNew.refl _
  · exact KeptNew.refl _
  · exact foldl_kept _ watchOne_kept' _ _

theorem pumpNotices_frame (n : Nat) (s : State) (x : Nat) : Keeps [.ports, .sessions, .nextId, .kept, .held, .sent] s (State.pumpNotices n s x) :=
  pumpNotices_keeps (Keeps.refl _ _) _ _ (by decide)

theorem dropKept_gone {s t : State} {id : Nat} (h : KeptNew (s.dropKept id) t) (hid : id < s.net.nextId) : ∀ j ∈ t.net.kept, j.id ≠ id := by
  intro j hj e
  rcases h.2 j hj with a | ⟨i, hi, e2⟩
  · have : s.net.nextId ≤ j.id := a
    omega
  · unfold State.dropKept State.foreground at hi; dsimp only at hi
    have := (List.mem_filter.mp hi).2; rw [e2, e] at this; simp at this

theorem slot_none {s : State} {id : Nat} (h : ∀ r ∈ s.relay.slots, r.id ≠ id) : s.relay.slots.find? (fun r => r.id == id) = none := by
  rw [List.find?_eq_none]; intro r hr; simpa using h r hr

theorem markNotice_marks_eq (s : State) (k n : Nat) : (s.markNotice k n).marks = s.marks.set k { s.mark k with sentAt := some s.clock, merged := 0 } := by
  unfold State.markNotice; exact broadcast_marks _ _ _ _ _ _

theorem exec_holdoff (k : Nat) (s : State) (h1 : 1 ≤ k) (h6 : k ≤ 6) (hg : 0 < (s.mark (k - 1)).merged) (hh : s.markHeldOff (s.mark (k - 1)) = false) :
    execWatermarkHoldoffEnd k s = .next (s.markNotice (k - 1) (s.mark (k - 1)).merged) := by
  unfold execWatermarkHoldoffEnd; dsimp only
  have : k < 7 := by omega
  have : 0 < k := h1
  rw [if_pos]; simp [*]

end Sys2Proof.Machine
end

