-- ==== Sys2Proof/Laws/Admission.lean ====
section
/-! SUPPORT. Commands up to their shaper. -/

set_option Elab.async false

set_option linter.unusedSimpArgs false

namespace Sys2Proof.Machine

/-- what watermarks leave alone, keyspaces included -/
theorem emitNotice_ks (s : State) (x : Session) (n : Notice) : (s.emitNotice x n).store.keyspaces = s.store.keyspaces := by
  unfold State.emitNotice; dsimp only; simp

theorem notify_ks (s : State) (x : Nat) (n : Notice) (h : n.late = none) : (s.notify x n).store.keyspaces = s.store.keyspaces := by
  unfold State.notify; rw [h]; (repeat' split) <;> first | rfl | (exact emitNotice_ks _ _ _) | simp_all

theorem foldl_ks {β : Type} (f : State → β → State) (hf : ∀ s b, (f s b).store.keyspaces = s.store.keyspaces) (l : List β) (s : State) : (l.foldl f s).store.keyspaces = s.store.keyspaces := by
  induction l generalizing s with
  | nil => rfl
  | cons b l ih => rw [List.foldl_cons, ih, hf]

theorem broadcast_ks (s : State) (k : NoticeKind) (ks : Nat) (a b : BitVec 64) (v : Bytes) : (s.broadcast k ks a b v).store.keyspaces = s.store.keyspaces := by
  unfold State.broadcast; dsimp only
  rw [foldl_ks _ (fun s x => notify_ks _ _ _ rfl)]
  split <;> simp

theorem markNotice_ks (s : State) (k n : Nat) : (s.markNotice k n).store.keyspaces = s.store.keyspaces := by
  unfold State.markNotice; exact broadcast_ks _ _ _ _ _ _

theorem watchOne_ks (s : State) (k : Nat) : (s.watchOne k).store.keyspaces = s.store.keyspaces := by
  unfold State.watchOne; dsimp only
  (repeat' split) <;> first | rfl | (rw [markNotice_ks]; rfl)

theorem watch_ks (s : State) : s.watch.store.keyspaces = s.store.keyspaces := by
  unfold State.watch; split
  · rfl
  · rfl
  · exact foldl_ks _ watchOne_ks _ _

theorem watch_keyspace? (s : State) (k : Nat) : s.watch.keyspace? k = s.keyspace? k := by unfold State.keyspace?; rw [watch_ks]

theorem watch_pages (s : State) : s.watch.cipher.pages = s.cipher.pages := watch_frame s .pages (by decide)

theorem watch_page (s : State) (n : Nat) : s.watch.page n = s.page n := by unfold State.page; rw [watch_pages]

theorem checked_refused {s : State} {x : Ctx} {c : Nat} {l p k : Bool} {r : Reply} (hc : s.ctx? c = some x) (hw : NoneWaits s) (h : s.refusal x l p k = some r) : Replied x r (s.checked x l p k).settle := by
  unfold State.checked; rw [h]; dsimp only; rw [ctx?_id hc]; exact endCmd_settle_replied r hc hw

theorem checked_passed {s : State} {x : Ctx} {c : Nat} {l p k : Bool} (hc : s.ctx? c = some x) (hw : NoneWaits s) (h : s.refusal x l p k = none) :
    (∃ y, (s.checked x l p k).settle.ctx? c = some y ∧ y.phase = .shaping ∧ y.id = c) ∧ (s.checked x l p k).settle.store.entries = s.store.entries ∧ (s.checked x l p k).settle.store.recs = s.store.recs := by
  unfold State.checked; rw [h]; dsimp only; unfold State.toShaper; rw [ctx?_id hc]
  rw [settle_quiet (NoneWaits.toPhase hw c (by decide)), watch_ctx?, ctx?_toPhase _ hc]
  refine ⟨⟨_, rfl, enter_phase _ _ _, ?_⟩, by simp, by simp⟩
  rw [enter_id]; exact ctx?_id hc

theorem read_row {s : State} {x : Ctx} {c : Nat} {i : Instr} {l p k : Bool} (hc : s.ctx? c = some x) (hw : NoneWaits s) (hr : x.relayed = false) (hwv : x.writesValue = false)
    (he : exec i s = .next (s.checked x l p k).settle) :
    (∀ st, s.modeStops x = some st → Gives i s (Replied x (Reply.plain st)))
    ∧ (s.modeStops x = none → l = false → Gives i s (Replied x (Reply.plain .badLength)))
    ∧ (s.modeStops x = none → l = true →
        (s.ksMissing x = true → Gives i s (Replied x (Reply.plain .badKeyspace)))
        ∧ (s.ksMissing x = false →
            (∀ r, p = true → s.misplaced x (isKeyRead x.opcode) = some r → Gives i s (Replied x r))
            ∧ (p = false ∨ s.misplaced x (isKeyRead x.opcode) = none →
                (k = true → s.ksLocked x.keyspace = true → Gives i s (Replied x (Reply.plain .keyspaceLocked)))
                ∧ (k = false ∨ s.ksLocked x.keyspace = false → Gives i s (fun t =>
                    (∃ y, t.ctx? c = some y ∧ y.phase = .shaping ∧ y.id = c) ∧ t.store.entries = s.store.entries ∧ t.store.recs = s.store.recs))))) := by
  have hx : s.keyExhausted x = false := by unfold State.keyExhausted State.usesKey; rw [hwv]; rfl
  refine ⟨?_, ?_, ?_⟩
  · intro st h
    exact gives_of he (checked_refused hc hw (by unfold State.refusal; rw [h]))
  · intro h hl
    exact gives_of he (checked_refused hc hw (by unfold State.refusal; rw [h, hl]; rfl))
  · intro h hl
    refine ⟨?_, ?_⟩
    · intro hm
      exact gives_of he (checked_refused hc hw (by unfold State.refusal; rw [h, hl, hm]; rfl))
    · intro hm
      refine ⟨?_, ?_⟩
      · intro r hp hmp
        exact gives_of he (checked_refused hc hw (by unfold State.refusal; rw [h, hl, hm, hp, hr]; simp [hmp]))
      · intro hp
        have hp' : (if p && !x.relayed then s.misplaced x (isKeyRead x.opcode) else none) = none := by
          rcases hp with h | h
          · rw [h]; rfl
          · rw [h]; simp
        refine ⟨?_, ?_⟩
        · intro hk hkl
          exact gives_of he (checked_refused hc hw (by unfold State.refusal; rw [h, hl, hm, hp', hk, hkl]; rfl))
        · intro hk
          have hk' : (k && s.ksLocked x.keyspace) = false := by rcases hk with h | h <;> rw [h] <;> simp
          exact gives_of he (checked_passed hc hw (by unfold State.refusal; rw [h, hl, hm, hp']; simp [hk', hx]))

theorem not_write {x : Ctx} (h : isDataWrite x.opcode = false) : x.relayed = false ∧ x.writesValue = false := by
  constructor
  · unfold Ctx.relayed relayedFlag; rw [h]; rfl
  · unfold isDataWrite at h; unfold Ctx.writesValue; revert h; generalize x.opcode = o; intro h; simp at h ⊢; omega

theorem foldl_frame {β : Type} {ws : List Part} (f : State → β → State) (hf : ∀ s b, Keeps ws s (f s b)) (l : List β) (s : State) : Keeps ws s (l.foldl f s) := by
  induction l generalizing s with
  | nil => exact Keeps.refl _ _
  | cons b l ih => exact (hf s b).trans (ih _)

abbrev noteParts : List Part := [.ports, .sessions, .nextId, .kept, .held, .sent, .power]

theorem notify_keeps0 (s : State) (x : Nat) (n : Notice) (h : n.late = none) : Keeps noteParts s (s.notify x n) := by
  unfold State.notify; rw [h]; (repeat' split) <;> first | exact Keeps.refl _ _ | exact (emitNotice_frame _ _ _).mono (by decide) | exact (updSession_frame _ _ _).mono (by decide) | simp_all

theorem broadcast_keeps0 (s : State) (k : NoticeKind) (ks : Nat) (a b : BitVec 64) (v : Bytes) : Keeps noteParts s (s.broadcast k ks a b v) := by
  unfold State.broadcast; dsimp only
  refine Keeps.trans ?_ (foldl_frame _ (fun s x => notify_keeps0 _ _ _ rfl) _ _)
  split
  · exact (startExit_frame s).mono (by decide)
  · exact Keeps.refl _ _

theorem keyEvents_keeps0 (s : State) (n : Nat) : Keeps (.pages :: noteParts) s (s.keyEvents n) := by
  have sp : ∀ (u : State) q, Keeps (.pages :: noteParts) u (u.setPage q) := fun u q => (setPage_frame u q).mono (by decide)
  have ku : ∀ (u : State) p e, Keeps (.pages :: noteParts) u (u.keyUsage p e) := fun u p e => (broadcast_keeps0 _ _ _ _ _ _).mono (by decide)
  unfold State.keyEvents; dsimp only
  generalize hs1 : (if (!(s.page n).warnSent && decide (s.var 0x0801 ≤ (s.page n).taken)) = true then _ else s : State) = s1
  have h1 : Keeps (.pages :: noteParts) s s1 := by
    rw [← hs1]; split
    · exact (sp _ _).trans (ku _ _ _)
    · exact Keeps.refl _ _
  refine h1.trans ?_
  split
  · exact (sp _ _).trans (ku _ _ _)
  · exact Keeps.refl _ _

theorem reserveUse_keeps0 (s : State) (n : Nat) : Keeps (.pages :: noteParts) s (s.reserveUse n) := by
  unfold State.reserveUse; dsimp only
  have sp : ∀ q, Keeps (.pages :: noteParts) s (s.setPage q) := fun q => (setPage_frame s q).mono (by decide)
  exact (sp _).trans (keyEvents_keeps0 _ n)

theorem keyEvents_page (s : State) (n m : Nat) : ((s.keyEvents n).page m).reserved = (s.page m).reserved := by
  have sp : ∀ (u : State) (q : KeyPage), q.reserved = (u.page q.n).reserved → ((u.setPage q).page m).reserved = (u.page m).reserved := by
    intro u q hq
    unfold State.setPage State.page; dsimp only
    by_cases h : q.n = m
    · subst h; simp [hq]; rfl
    · rw [List.find?_cons]; simp only [show (q.n == m) = false by simpa using h]
      congr 2
      generalize u.cipher.pages = l
      induction l with
      | nil => rfl
      | cons a l ih =>
        rw [List.filter_cons]
        by_cases ha : a.n = q.n
        · have : ¬ q.n = m := h
          simp [ha, this, h]; simpa [List.find?_cons, ha, h] using ih
        · simp only [show (a.n != q.n) = true by simpa using ha, if_true, List.find?_cons]
          rw [ih]
  have pn : ∀ (u : State) k, (u.page k).n = k := by
    intro u k; unfold State.page
    cases h : u.cipher.pages.find? (·.n == k) with
    | none => rfl
    | some q => have := List.find?_some h; simpa using this
  have ku : ∀ (u : State) (p : KeyPage) e, (u.keyUsage p e).page m = u.page m := by
    intro u p e; unfold State.page; simp
  unfold State.keyEvents; dsimp only
  generalize hs1 : (if (!(s.page n).warnSent && decide (s.var 0x0801 ≤ (s.page n).taken)) = true then _ else s : State) = s1
  have h1 : (s1.page m).reserved = (s.page m).reserved := by
    rw [← hs1]; split
    · rw [ku]; exact sp s _ (by show _ = (s.page (s.page n).n).reserved; rw [pn])
    · rfl
  split
  · rw [ku, sp s1 _ (by show _ = (s1.page (s1.page n).n).reserved; rw [pn]), h1]
  · exact h1

theorem page_n (u : State) (k : Nat) : (u.page k).n = k := by
  unfold State.page
  cases h : u.cipher.pages.find? (·.n == k) with
  | none => rfl
  | some q => have := List.find?_some h; simpa using this

theorem setPage_page (u : State) (q : KeyPage) : (u.setPage q).page q.n = q := by
  unfold State.setPage State.page; simp

theorem reserveUse_page (s : State) (n : Nat) : ((s.reserveUse n).page n).reserved = (s.page n).reserved + 1 := by
  unfold State.reserveUse; dsimp only; rw [keyEvents_page]
  have := setPage_page s { s.page n with reserved := (s.page n).reserved + 1 }
  rw [show ({ s.page n with reserved := (s.page n).reserved + 1 } : KeyPage).n = n from page_n s n] at this
  rw [this]

theorem Replied.msg {x y : Ctx} {r : Reply} {t : State} (h : Replied y r t) (h1 : y.id = x.id) (h2 : y.mailbox = x.mailbox) (h3 : ∀ r, y.message r = x.message r) : Replied x r t := by
  unfold Replied at h ⊢; rw [h1, h2, h3] at h; exact h

theorem refusal_writes {s : State} {x : Ctx} {l k : Bool} (hr : isKeyRead x.opcode = false) : s.refusal x l true k = match s.modeStops x with
    | some st => some (Reply.plain st)
    | none => if !l then some (Reply.plain .badLength) else if s.ksMissing x then some (Reply.plain .badKeyspace)
      else match (if !x.relayed then s.misplaced x false else none) with
        | some r => some r
        | none => if k && s.ksLocked x.keyspace then some (Reply.plain .keyspaceLocked) else if s.keyExhausted x then some (Reply.plain .keyExhausted) else none := by
  unfold State.refusal; rw [hr]; simp only [Bool.true_and] <;> rfl

/-- The state of a write that has passed the checks of R155. -/
def reservedState (s : State) (x : Ctx) : State := match s.usesKey x, s.keyspace? x.keyspace with
      | true, some k => (s.reserveUse k.keyPage).updCtx x.id (fun y => { y with keyUse := true })
      | _, _ => s

theorem reserved_ctx {s : State} {x : Ctx} {c : Nat} (hc : s.ctx? c = some x) (hw : NoneWaits s) :
    ∃ (y : Ctx), (reservedState s x).ctx? c = some y ∧ y.keyUse = (s.usesKey x || x.keyUse) ∧ y.id = c ∧ y.mailbox = x.mailbox ∧ (∀ r, y.message r = x.message r)
      ∧ NoneWaits (reservedState s x) ∧ Keeps (.ctxs :: .pages :: noteParts) s (reservedState s x)
      ∧ (∀ k, s.keyspace? x.keyspace = some k → ((reservedState s x).page k.keyPage).reserved = (s.page k.keyPage).reserved + b1 (s.usesKey x)) := by
  have hid := ctx?_id hc
  unfold reservedState
  by_cases hu : s.usesKey x = true
  · have hk : ∃ k, s.keyspace? x.keyspace = some k := by
      unfold State.usesKey at hu; cases h : s.keyspace? x.keyspace with
      | none => rw [h] at hu; simp at hu
      | some k => exact ⟨k, rfl⟩
    obtain ⟨k, hk⟩ := hk
    have hcx : (s.reserveUse k.keyPage).ctx? x.id = some x := by rw [hid]; unfold State.ctx?; rw [show (s.reserveUse k.keyPage).net.ctxs = s.net.ctxs by simp]; exact hc
    refine ⟨{ x with keyUse := true }, ?_⟩
    rw [hu, hk]; dsimp only
    refine ⟨?_, by simp, hid, rfl, fun _ => rfl, ?_, ?_, ?_⟩
    · have := ctx?_updCtx (f := fun y => { y with keyUse := true }) hcx rfl
      rw [hid] at this ⊢; exact this
    · intro y hy
      unfold State.updCtx State.withCtxs upd at hy; dsimp only at hy
      rw [List.mem_map] at hy
      obtain ⟨z, hz, rfl⟩ := hy
      rw [show (s.reserveUse k.keyPage).net.ctxs = s.net.ctxs by simp] at hz
      split <;> exact hw z hz
    · exact ((reserveUse_keeps0 s k.keyPage).mono (by decide)).trans ((updCtx_frame _ _ _).mono (by decide))
    · intro k' h; cases h
      show ((s.reserveUse k.keyPage).page k.keyPage).reserved = _
      rw [reserveUse_page]; rfl
  · have hu' : s.usesKey x = false := by simpa using hu
    refine ⟨x, ?_⟩
    rw [hu']
    exact ⟨hc, by simp, hid, rfl, fun _ => rfl, hw, Keeps.refl _ _, fun _ _ => rfl⟩

theorem foldl_inv' {β γ : Type} {P : State → γ} (f : State → β → State) (hf : ∀ a b, P (f a b) = P a) (l : List β) (a : State) : P (l.foldl f a) = P a := by
  induction l generalizing a with
  | nil => rfl
  | cons b l ih => rw [List.foldl_cons, ih, hf]

theorem watch_digestMis (s : State) : s.watch.counts = s.counts := by
  unfold State.watch; split
  · rfl
  · rfl
  · have h1 : ∀ (u : State) k, (u.watchOne k).counts = u.counts := by
      intro u k; unfold State.watchOne State.markNotice; dsimp only
      (repeat' split) <;> first | rfl | exact (broadcast_keeps0 _ _ _ _ _ _) .counts (by decide)
    exact foldl_inv' _ h1 _ _

theorem watch_keeps0 (s : State) : Keeps (.marks :: .sb :: noteParts) s s.watch := by
  unfold State.watch; split
  · exact Keeps.refl _ _
  · exact Keeps.refl _ _
  · refine foldl_frame _ (fun u k => ?_) _ _
    unfold State.watchOne State.markNotice; dsimp only
    repeat' split
    · (intro p hp; cases p <;> first | (exfalso; exact hp (by decide)) | rfl | (simp [Same]; done))
    · refine Keeps.trans ?_ ((broadcast_keeps0 _ _ _ _ _ _).mono (by decide))
      (intro p hp; cases p <;> first | (exfalso; exact hp (by decide)) | rfl | (simp [Same]; done))
    · (intro p hp; cases p <;> first | (exfalso; exact hp (by decide)) | rfl | (simp [Same]; done))
    · exact Keeps.refl _ _

theorem watch_logs0 (s : State) : s.watch.logs = s.logs := watch_keeps0 s .logs (by decide)

/-- The three outcomes of a write that has passed the checks of R155. -/
theorem write_conditions {s : State} {x : Ctx} {c : Nat} {i : Instr} (hc : s.ctx? c = some x) (hw : NoneWaits s)
    (he : exec i s = .next (State.writeConditions (reservedState s x) x).settle) :
    let bare := x.writesValue && !x.flags.getLsbD 0 && (s.keyspace? x.keyspace).any (·.requireDigest)
    let wrong := x.writesValue && x.flags.getLsbD 0 && crc64 x.body != x.paramB
    (bare = true → Gives i s (Replied x (Reply.plain .badLength)))
    ∧ (bare = false → wrong = true → Gives i s (fun t => Replied x (Reply.plain .digestMismatch) t ∧ t.counts.digestMis = s.counts.digestMis + 1))
    ∧ (bare = false → wrong = false → Gives i s (fun t =>
    (∃ y, t.ctx? c = some y ∧ y.phase = .shaping ∧ y.keyUse = (s.usesKey x || x.keyUse)) ∧ t.store.entries = s.store.entries ∧ t.store.recs = s.store.recs
    ∧ ∀ k, s.keyspace? x.keyspace = some k → (t.page k.keyPage).reserved = (s.page k.keyPage).reserved + b1 (s.usesKey x))) := by
  intro bare wrong
  obtain ⟨y, h1, h2, h3, h4, h5, h6, h7, h8⟩ := reserved_ctx hc hw
  generalize reservedState s x = s1 at *
  have hks : s1.keyspace? x.keyspace = s.keyspace? x.keyspace := by unfold State.keyspace?; rw [h7 .keyspaces (by decide)]
  have hid := ctx?_id hc
  have hcond : ∀ b w, bare = b → wrong = w → State.writeConditions s1 x = if b then s1.endStatus x.id .badLength else if w then
      ({ s1 with counts := { s1.counts with digestMis := s1.counts.digestMis + 1 } } : State).endStatus x.id .digestMismatch else s1.toShaper x := by
    intro b w hb hw; unfold State.writeConditions; rw [hks]; rw [← hb, ← hw]
  refine ⟨?_, ?_, ?_⟩
  · intro hb
    rw [hcond _ _ hb rfl] at he
    simp only [if_true] at he
    refine gives_of he ?_
    rw [hid]
    exact Replied.msg (endCmd_settle_replied _ h1 h6) (h3.trans hid.symm) h4 h5
  · intro hb hwr
    rw [hcond _ _ hb hwr] at he
    simp only [Bool.false_eq_true, if_false, if_true] at he
    generalize hs2 : ({ s1 with counts := { s1.counts with digestMis := s1.counts.digestMis + 1 } } : State) = s2 at he
    have g1 : s2.ctx? c = some y := by rw [← hs2]; exact h1
    have g2 : NoneWaits s2 := by rw [← hs2]; exact h6
    have g3 : s2.counts.digestMis = s.counts.digestMis + 1 := by rw [← hs2, show s.counts = s1.counts from (h7 .counts (by decide)).symm]
    refine gives_of he ⟨?_, ?_⟩
    · rw [hid]
      exact Replied.msg (endCmd_settle_replied _ g1 g2) (h3.trans hid.symm) h4 h5
    · unfold State.endStatus
      rw [settle_quiet (NoneWaits.endCmd g2 _ _), watch_digestMis, endCmd_counts]; exact g3
  · intro hb hwr
    rw [hcond _ _ hb hwr] at he
    simp only [Bool.false_eq_true, if_false] at he
    have hq := settle_quiet (NoneWaits.toPhase h6 x.id (p := .shaping) (by decide))
    refine gives_of he ?_
    unfold State.toShaper; rw [hq]
    refine ⟨⟨y.enter .shaping s1.clock, ?_, enter_phase _ _ _, ?_⟩, ?_, ?_, ?_⟩
    · rw [watch_ctx?, hid]; exact ctx?_toPhase _ h1
    · rw [← h2]; unfold Ctx.enter; (repeat' split) <;> rfl
    · simp; exact h7 .entries (by decide)
    · simp; exact h7 .recs (by decide)
    · intro k hk; rw [watch_page, ← h8 k hk]; rfl

theorem checkedWrite_refused {s : State} {x : Ctx} {c : Nat} {r : Reply} (hc : s.ctx? c = some x) (hw : NoneWaits s) (h : s.refusal x (writeLimits x) true x.writesValue = some r) :
    Replied x r (s.checkedWrite x).settle := by
  unfold State.checkedWrite; rw [h]; dsimp only; rw [ctx?_id hc]; exact endCmd_settle_replied r hc hw

theorem checkedWrite_passed {s : State} {x : Ctx} (h : s.refusal x (writeLimits x) true x.writesValue = none) :
    s.checkedWrite x = State.writeConditions (reservedState s x) x := by
  unfold State.checkedWrite; rw [h]; rfl

theorem writeRow_eq {s : State} {c op : Nat} {x : Ctx} (hf : s.fresh? c op = some x) (hr : x.relayed = false) : s.writeRow c op = (s.checkedWrite x).settle := by
  unfold State.writeRow; rw [hf]; dsimp only; rw [hr]; rfl

theorem keyRead_write {x : Ctx} {op : Nat} (h : x.opcode = op) (ho : op ∈ [0x02, 0x03, 0x04, 0x05, 0x06, 0x07]) : isKeyRead x.opcode = false := by
  rw [h]; revert op; intro op; simp only [List.mem_cons, List.not_mem_nil, or_false]; rintro _ (rfl | rfl | rfl | rfl | rfl | rfl) <;> decide

theorem endCmd_ks {s : State} {c : Nat} {x : Ctx} (r : Reply) (h : s.ctx? c = some x) (ho : x.opcode ≠ 0x21) : (s.endCmd c r).store.keyspaces = s.store.keyspaces := by
  unfold State.endCmd; rw [h]; dsimp only
  have e1 : ∀ (u : State) cs, (u.withCtxs cs).foreground.store.keyspaces = u.store.keyspaces := fun _ _ => rfl
  rw [e1, sendReply_store, recordStatus_store]
  unfold State.releaseCmd; dsimp only
  rw [if_neg (by simp [ho])]
  (repeat' split) <;> simp [State.updSession]

theorem keyspace?_upd {s : State} {n : Nat} {f : Keyspace → Keyspace} (hf : ∀ y, (f y).id = y.id) : (s.updKeyspace n f).keyspace? n = (s.keyspace? n).map f := by
  unfold State.updKeyspace State.keyspace?; dsimp only
  exact find?_upd _ _ (fun a => by rw [hf]) _

theorem keyspace?_id {s : State} {n : Nat} {k : Keyspace} (h : s.keyspace? n = some k) : k.id = n := by
  unfold State.keyspace? at h; simpa using List.find?_some h

theorem marker_fresh {s : State} {c k : Nat} {x : Ctx} {p : Prefix} (h : s.marker? c k = some (x, p)) : s.fresh? c 0x06 = some x := by
  unfold State.marker? at h
  cases hf : s.fresh? c 0x06 with
  | none => rw [hf] at h; cases h
  | some y =>
    rw [hf] at h; simp only [Option.bind_some] at h
    split at h
    · split at h
      · cases h; rfl
      · cases h
    · cases h

theorem saved_seed {s : State} {c n : Nat} {x : Ctx} {k : Keyspace} {b : Bool} {f : Keyspace → Keyspace} (hf : ∀ y, (f y).id = y.id) (hb : ∀ y, (f y).partialSeed = b)
    (hc : s.ctx? c = some x) (ho : x.opcode = 0x06) (hk : s.keyspace? n = some k) (hw : NoneWaits s) :
    let t := (((s.updKeyspace n f).saveSettings).endStatus c .done).settle
    Replied x (Reply.plain .done) t ∧ (t.keyspace? n).map (·.partialSeed) = some b
      ∧ ∃ q, t.nor.blockA = some q ∧ t.nor.blockB = some q ∧ (q.keyspaces.find? (·.id == n)).map (·.partialSeed) = some b := by
  intro t
  have hn : ∃ q, ((s.updKeyspace n f).saveSettings).nor.blockA = some q ∧ ((s.updKeyspace n f).saveSettings).nor.blockB = some q ∧ (q.keyspaces.find? (·.id == n)).map (·.partialSeed) = some b := by
    refine ⟨(s.updKeyspace n f).settings, rfl, rfl, ?_⟩
    have := keyspace?_upd (s := s) (n := n) (f := f) hf
    unfold State.keyspace? at this hk
    show (List.find? (·.id == n) (s.updKeyspace n f).store.keyspaces).map _ = _
    rw [this, hk]; simp [hb]
  have hks : ((s.updKeyspace n f).saveSettings).keyspace? n = some (f k) := by
    have := keyspace?_upd (s := s) (n := n) (f := f) hf
    rw [hk] at this; exact this
  have hc1 : ((s.updKeyspace n f).saveSettings).ctx? c = some x := hc
  have hw1 : NoneWaits ((s.updKeyspace n f).saveSettings) := hw
  simp only [t]
  generalize (s.updKeyspace n f).saveSettings = s1 at *
  refine ⟨endCmd_settle_replied _ hc1 hw1, ?_, ?_⟩
  · unfold State.endStatus
    rw [settle_quiet (NoneWaits.endCmd hw1 _ _), watch_keyspace?]
    unfold State.keyspace? at hks ⊢
    rw [endCmd_ks _ hc1 (by rw [ho]; decide), hks]; simp [hb]
  · unfold State.endStatus
    rw [settle_quiet (NoneWaits.endCmd hw1 _ _), watch_nor, endCmd_nor]; exact hn

theorem attrs_of {s : State} {n a q : Nat} {b : Bool} (h : a < 2 ^ 13) : (s.newKeyspace n a q b).attrs = a := by
  unfold State.newKeyspace Keyspace.attrs bits bit b1; dsimp only
  simp only [beq_iff_eq]
  (repeat' split) <;> omega

theorem createStatus_lt {s : State} {n a : Nat} (h : s.createStatus n a = none) : a < 2 ^ 13 := by
  unfold State.createStatus at h; dsimp only at h
  split at h
  · cases h
  · rename_i hh; simp at hh; omega

end Sys2Proof.Machine
end

