-- ==== Sys2Proof/Laws/After.lean ====
section
/-! SUPPORT. The relation `After`: reflexive, transitive, and decided by a few parts of the state. -/

set_option Elab.async false

namespace Sys2Proof.Machine

/-- `PowerOk` as a property of the parts of the state it looks at. -/
def PowerK (p : Power) (m : ModeState) (clock : Nat) : Prop :=
  p.st ≤ 3 ∧ (m.mode ≠ .serving → p.st = 0) ∧ (∀ e, p.exiting = some e → e.1 = p.st) ∧ m.timeBase ≤ clock

theorem powerOk_iff (s : State) : PowerOk s ↔ PowerK s.power s.modes s.clock := Iff.rfl

theorem logsOk_iff (s : State) :
    LogsOk s ↔ LogOk 65536 s.logs.events s.logs.nextEv ∧ LogOk 4096 s.logs.journal s.logs.nextJn := Iff.rfl

/-- The parts of a state that `After` looks at. -/
structure AfterKey where
  pending  : List Instr
  clock    : Nat
  rnd      : Nat
  sent     : List Sent
  nextId   : Nat
  events   : List LogEntry
  nextEv   : Nat
  journal  : List LogEntry
  nextJn   : Nat
  mode     : Mode
  timeBase : Nat
  st       : Nat
  exiting  : Option (Nat × Nat)

/-- The key of a state. -/
def State.afterKey (s : State) : AfterKey :=
  ⟨s.pending, s.clock, s.rnd, s.net.sent, s.net.nextId, s.logs.events, s.logs.nextEv, s.logs.journal, s.logs.nextJn, s.modes.mode,
    s.modes.timeBase, s.power.st, s.power.exiting⟩

/-- `After` as a property of the key. -/
def AfterK (s : State) (k : AfterKey) : Prop := ∀ t : State, t.afterKey = k → After s t

theorem After.refl (s : State) : After s s :=
  ⟨rfl, rfl, Nat.le_refl _, List.prefix_rfl, Nat.le_refl _, Nat.le_refl _, Nat.le_refl _, id, id⟩

theorem After.trans {s t u : State} (h : After s t) (k : After t u) : After s u :=
  ⟨k.pending.trans h.pending, k.clock.trans h.clock, Nat.le_trans h.rnd k.rnd, h.sent.trans k.sent, Nat.le_trans h.nextId k.nextId,
    Nat.le_trans h.nextEv k.nextEv, Nat.le_trans h.nextJn k.nextJn, fun p => k.power (h.power p), fun p => k.logs (h.logs p)⟩

theorem After.congr {s t u : State} (h : After s t) (e : u.afterKey = t.afterKey) : After s u := by
  simp only [State.afterKey, AfterKey.mk.injEq] at e
  obtain ⟨h1, h2, h3, h4, h5, h6, h7, h8, h9, h10, h11, h12, h13⟩ := e
  refine ⟨h1.trans h.pending, h2.trans h.clock, ?_, ?_, ?_, ?_, ?_, fun p => ?_, fun p => ?_⟩
  · exact h3 ▸ h.rnd
  · exact h4 ▸ h.sent
  · exact h5 ▸ h.nextId
  · exact h7 ▸ h.nextEv
  · exact h9 ▸ h.nextJn
  · have := h.power p
    simp only [PowerOk] at this ⊢
    rw [h2, h10, h11, h12, h13]
    exact this
  · have := h.logs p
    simp only [LogsOk] at this ⊢
    rw [h6, h7, h8, h9]
    exact this

theorem AfterK.of {s t : State} (h : After s t) :
    AfterK s ⟨t.pending, t.clock, t.rnd, t.net.sent, t.net.nextId, t.logs.events, t.logs.nextEv, t.logs.journal, t.logs.nextJn,
      t.modes.mode, t.modes.timeBase, t.power.st, t.power.exiting⟩ := fun _ e => h.congr e

/-- A state given by its fields is judged by its key. -/
theorem After.mk_of {s : State} {pending clock rnd supply modes spares counts ports net vars marks logs owners store coh quince cipher sieves relay power thermal holdup fw sb dbg nor}
    (h : AfterK s ⟨pending, clock, rnd, net.sent, net.nextId, logs.events, logs.nextEv, logs.journal, logs.nextJn, modes.mode,
      modes.timeBase, power.st, power.exiting⟩) :
    After s (State.mk pending clock rnd supply modes spares counts ports net vars marks logs owners store coh quince cipher sieves relay power thermal holdup fw sb dbg nor) := h _ rfl

theorem After.ite {s t u : State} {c : Prop} [Decidable c] (h : After s t) (k : After s u) : After s (if c then t else u) := by
  split
  · exact h
  · exact k

theorem After.foldl {α : Type} {s t : State} {f : State → α → State} {l : List α} (h : After s t)
    (hf : ∀ u a, After s u → After s (f u a)) : After s (l.foldl f t) := by
  induction l generalizing t with
  | nil => exact h
  | cons a l ih => exact ih (hf t a h)

/-- A next state of the outcome is one after `s`. -/
def AfterO (s : State) (o : Host.Outcome State Fault Refusal) : Prop := ∀ t, o = .next t → After s t

theorem AfterO.next {s t : State} (h : After s t) : AfterO s (.next t) := fun _ e => by injection e with e; exact e ▸ h

theorem AfterO.ite {s : State} {c : Prop} [Decidable c] {o p : Host.Outcome State Fault Refusal} (h : AfterO s o) (k : AfterO s p) :
    AfterO s (if c then o else p) := by
  split
  · exact h
  · exact k

end Sys2Proof.Machine
end

