-- ==== Sys2Proof/Laws/AfterFlags.lean ====
section
/-! SUPPORT. Every operation of Machine/Flags.lean leaves a state after the one it is given. -/

set_option Elab.async false

namespace Sys2Proof.Machine

theorem alert_after {s₀ s : State} (h₀ : After s₀ s) (a : Alert) : After s₀ (State.alert s a) := by
  unfold State.alert
  try dsimp only
  repeat' first
    | with_reducible assumption
    | with_reducible apply After.ite
    | (with_reducible refine After.foldl ?_ (fun _ _ _ => ?_))
    | split
    | (with_reducible apply After.mk_of; refine AfterK.of ?_; first | with_reducible assumption | with_reducible apply After.ite | (with_reducible refine After.foldl ?_ (fun _ _ _ => ?_)))

theorem portEvent_after {s₀ s : State} (h₀ : After s₀ s) (portB : Bool) (e : PortEvent) : After s₀ (State.portEvent s portB e) := by
  unfold State.portEvent
  try dsimp only
  repeat' first
    | with_reducible assumption
    | with_reducible apply After.ite
    | (with_reducible refine After.foldl ?_ (fun _ _ _ => ?_))
    | with_reducible apply alert_after
    | split
    | (with_reducible apply After.mk_of; refine AfterK.of ?_; first | with_reducible assumption | with_reducible apply After.ite | (with_reducible refine After.foldl ?_ (fun _ _ _ => ?_)) | with_reducible apply alert_after)

theorem clearPortEvents_after {s₀ s : State} (h₀ : After s₀ s) (portB : Bool) (w : BitVec 16) : After s₀ (State.clearPortEvents s portB w) := by
  unfold State.clearPortEvents
  try dsimp only
  repeat' first
    | with_reducible assumption
    | with_reducible apply After.ite
    | (with_reducible refine After.foldl ?_ (fun _ _ _ => ?_))
    | split
    | (with_reducible apply After.mk_of; refine AfterK.of ?_; first | with_reducible assumption | with_reducible apply After.ite | (with_reducible refine After.foldl ?_ (fun _ _ _ => ?_)))

end Sys2Proof.Machine
end

