-- ==== Sys2Proof/Laws/AfterQuinceRow.lean ====
section
/-! SUPPORT. Every operation of Machine/QuinceRow.lean leaves a state after the one it is given. -/

set_option Elab.async false

namespace Sys2Proof.Machine

theorem qUpdate_after {s₀ s : State} (h₀ : After s₀ s) (bank row : Nat) (ways : List Way) : After s₀ (State.qUpdate s bank row ways) := by
  unfold State.qUpdate
  try dsimp only
  repeat' first
    | with_reducible assumption
    | with_reducible apply After.ite
    | (with_reducible refine After.foldl ?_ (fun _ _ _ => ?_))
    | split
    | (with_reducible apply After.mk_of; refine AfterK.of ?_; first | with_reducible assumption | with_reducible apply After.ite | (with_reducible refine After.foldl ?_ (fun _ _ _ => ?_)))

theorem qTentative_after {s₀ s : State} (h₀ : After s₀ s) (fp : BitVec 128) (priority : Nat) (pin : Bool) : After s₀ (State.qTentative s fp priority pin) := by
  unfold State.qTentative
  try dsimp only
  repeat' first
    | with_reducible assumption
    | with_reducible apply After.ite
    | (with_reducible refine After.foldl ?_ (fun _ _ _ => ?_))
    | with_reducible apply qUpdate_after
    | split
    | (with_reducible apply After.mk_of; refine AfterK.of ?_; first | with_reducible assumption | with_reducible apply After.ite | (with_reducible refine After.foldl ?_ (fun _ _ _ => ?_)) | with_reducible apply qUpdate_after)

theorem qWithdraw_after {s₀ s : State} (h₀ : After s₀ s) (fp : BitVec 128) (priority : Nat) : After s₀ (State.qWithdraw s fp priority) := by
  unfold State.qWithdraw
  try dsimp only
  repeat' first
    | with_reducible assumption
    | with_reducible apply After.ite
    | (with_reducible refine After.foldl ?_ (fun _ _ _ => ?_))
    | with_reducible apply qUpdate_after
    | split
    | (with_reducible apply After.mk_of; refine AfterK.of ?_; first | with_reducible assumption | with_reducible apply After.ite | (with_reducible refine After.foldl ?_ (fun _ _ _ => ?_)) | with_reducible apply qUpdate_after)

theorem qCommit_after {s₀ s : State} (h₀ : After s₀ s) (fp : BitVec 128) (tentative : Nat) (final : Option Way) : After s₀ (State.qCommit s fp tentative final) := by
  unfold State.qCommit
  try dsimp only
  repeat' first
    | with_reducible assumption
    | with_reducible apply After.ite
    | (with_reducible refine After.foldl ?_ (fun _ _ _ => ?_))
    | with_reducible apply qUpdate_after
    | split
    | (with_reducible apply After.mk_of; refine AfterK.of ?_; first | with_reducible assumption | with_reducible apply After.ite | (with_reducible refine After.foldl ?_ (fun _ _ _ => ?_)) | with_reducible apply qUpdate_after)

theorem qEnter_after {s₀ s : State} (h₀ : After s₀ s) (w : Way) : After s₀ (State.qEnter s w) := by
  unfold State.qEnter
  try dsimp only
  repeat' first
    | with_reducible assumption
    | with_reducible apply After.ite
    | (with_reducible refine After.foldl ?_ (fun _ _ _ => ?_))
    | with_reducible apply qUpdate_after
    | split
    | (with_reducible apply After.mk_of; refine AfterK.of ?_; first | with_reducible assumption | with_reducible apply After.ite | (with_reducible refine After.foldl ?_ (fun _ _ _ => ?_)) | with_reducible apply qUpdate_after)

end Sys2Proof.Machine
end

