-- ==== Sys2Proof/Laws/AfterOps.lean ====
section
/-! SUPPORT. Every operation of Machine/Ops.lean leaves a state after the one it is given. -/

set_option Elab.async false

namespace Sys2Proof.Machine

theorem drawn_after {s₀ s : State} (h : After s₀ s) : After s₀ (State.drawn s) :=
  h.trans ⟨rfl, rfl, Nat.le_succ _, List.prefix_rfl, Nat.le_refl _, Nat.le_refl _, Nat.le_refl _, id, id⟩

theorem withCtxs_after {s₀ s : State} (h₀ : After s₀ s) (cs : List Ctx) : After s₀ (State.withCtxs s cs) := by
  unfold State.withCtxs
  try dsimp only
  repeat' first
    | with_reducible assumption
    | with_reducible apply After.ite
    | (with_reducible refine After.foldl ?_ (fun _ _ _ => ?_))
    | split
    | (with_reducible apply After.mk_of; refine AfterK.of ?_; first | with_reducible assumption | with_reducible apply After.ite | (with_reducible refine After.foldl ?_ (fun _ _ _ => ?_)))

theorem updCtx_after {s₀ s : State} (h₀ : After s₀ s) (c : Nat) (f : Ctx → Ctx) : After s₀ (State.updCtx s c f) := by
  unfold State.updCtx
  try dsimp only
  repeat' first
    | with_reducible assumption
    | with_reducible apply After.ite
    | (with_reducible refine After.foldl ?_ (fun _ _ _ => ?_))
    | with_reducible apply withCtxs_after
    | split
    | (with_reducible apply After.mk_of; refine AfterK.of ?_; first | with_reducible assumption | with_reducible apply After.ite | (with_reducible refine After.foldl ?_ (fun _ _ _ => ?_)) | with_reducible apply withCtxs_after)

theorem updSession_after {s₀ s : State} (h₀ : After s₀ s) (n : Nat) (f : Session → Session) : After s₀ (State.updSession s n f) := by
  unfold State.updSession
  try dsimp only
  repeat' first
    | with_reducible assumption
    | with_reducible apply After.ite
    | (with_reducible refine After.foldl ?_ (fun _ _ _ => ?_))
    | split
    | (with_reducible apply After.mk_of; refine AfterK.of ?_; first | with_reducible assumption | with_reducible apply After.ite | (with_reducible refine After.foldl ?_ (fun _ _ _ => ?_)))

theorem updKeyspace_after {s₀ s : State} (h₀ : After s₀ s) (k : Nat) (f : Keyspace → Keyspace) : After s₀ (State.updKeyspace s k f) := by
  unfold State.updKeyspace
  try dsimp only
  repeat' first
    | with_reducible assumption
    | with_reducible apply After.ite
    | (with_reducible refine After.foldl ?_ (fun _ _ _ => ?_))
    | split
    | (with_reducible apply After.mk_of; refine AfterK.of ?_; first | with_reducible assumption | with_reducible apply After.ite | (with_reducible refine After.foldl ?_ (fun _ _ _ => ?_)))

theorem updOwner_after {s₀ s : State} (h₀ : After s₀ s) (o : Nat) (f : Owner → Owner) : After s₀ (State.updOwner s o f) := by
  unfold State.updOwner
  try dsimp only
  repeat' first
    | with_reducible assumption
    | with_reducible apply After.ite
    | (with_reducible refine After.foldl ?_ (fun _ _ _ => ?_))
    | split
    | (with_reducible apply After.mk_of; refine AfterK.of ?_; first | with_reducible assumption | with_reducible apply After.ite | (with_reducible refine After.foldl ?_ (fun _ _ _ => ?_)))

theorem updLink_after {s₀ s : State} (h₀ : After s₀ s) (n : Nat) (f : Link → Link) : After s₀ (State.updLink s n f) := by
  unfold State.updLink
  try dsimp only
  repeat' first
    | with_reducible assumption
    | with_reducible apply After.ite
    | (with_reducible refine After.foldl ?_ (fun _ _ _ => ?_))
    | split
    | (with_reducible apply After.mk_of; refine AfterK.of ?_; first | with_reducible assumption | with_reducible apply After.ite | (with_reducible refine After.foldl ?_ (fun _ _ _ => ?_)))

theorem setCage_after {s₀ s : State} (h₀ : After s₀ s) (portB : Bool) (c : Cage) : After s₀ (State.setCage s portB c) := by
  unfold State.setCage
  try dsimp only
  repeat' first
    | with_reducible assumption
    | with_reducible apply After.ite
    | (with_reducible refine After.foldl ?_ (fun _ _ _ => ?_))
    | split
    | (with_reducible apply After.mk_of; refine AfterK.of ?_; first | with_reducible assumption | with_reducible apply After.ite | (with_reducible refine After.foldl ?_ (fun _ _ _ => ?_)))

theorem console_after {s₀ s : State} (h₀ : After s₀ s) (line : Bytes) : After s₀ (State.console s line) := by
  unfold State.console
  try dsimp only
  repeat' first
    | with_reducible assumption
    | with_reducible apply After.ite
    | (with_reducible refine After.foldl ?_ (fun _ _ _ => ?_))
    | split
    | (with_reducible apply After.mk_of; refine AfterK.of ?_; first | with_reducible assumption | with_reducible apply After.ite | (with_reducible refine After.foldl ?_ (fun _ _ _ => ?_)))

theorem trace_after {s₀ s : State} (h₀ : After s₀ s) (kind island : Nat) (wake : Bool) (payload : BitVec 64) : After s₀ (State.trace s kind island wake payload) := by
  unfold State.trace
  try dsimp only
  repeat' first
    | with_reducible assumption
    | with_reducible apply After.ite
    | (with_reducible refine After.foldl ?_ (fun _ _ _ => ?_))
    | split
    | (with_reducible apply After.mk_of; refine AfterK.of ?_; first | with_reducible assumption | with_reducible apply After.ite | (with_reducible refine After.foldl ?_ (fun _ _ _ => ?_)))

/-- A log that takes one more record, of the next index, stays one of `LogOk`. -/
theorem LogOk.push {cap next : Nat} {log : List LogEntry} {e : LogEntry} (h : LogOk cap log next) (he : e.index = next) :
    LogOk cap ((log ++ [e]).drop (log.length + 1 - cap)) (next + 1) := by
  obtain ⟨h1, h2, h3⟩ := h
  refine ⟨by simp; omega, by simp; omega, fun i f hf => ?_⟩
  simp only [List.getElem?_drop, List.length_drop, List.length_append, List.length_cons, List.length_nil] at hf ⊢
  by_cases hl : log.length + 1 - cap + i < log.length
  · rw [List.getElem?_append_left hl] at hf
    rw [h3 _ _ hf]
    omega
  · rw [List.getElem?_append_right (by omega)] at hf
    have : log.length + 1 - cap + i - log.length = 0 := by
      have := (List.getElem?_eq_some_iff.1 hf).1
      simp at this
      omega
    rw [this] at hf
    simp at hf
    subst hf
    rw [he]
    omega

theorem setLogs_after {s₀ s : State} (h : After s₀ s) (l : Logs) (c : Counts) (h1 : s.logs.nextEv ≤ l.nextEv) (h2 : s.logs.nextJn ≤ l.nextJn)
    (h3 : LogOk 65536 s.logs.events s.logs.nextEv → LogOk 65536 l.events l.nextEv)
    (h4 : LogOk 4096 s.logs.journal s.logs.nextJn → LogOk 4096 l.journal l.nextJn) : After s₀ { s with logs := l, counts := c } :=
  h.trans ⟨rfl, rfl, Nat.le_refl _, List.prefix_rfl, Nat.le_refl _, h1, h2, id, fun p => ⟨h3 p.1, h4 p.2⟩⟩

theorem logEvent_after {s₀ s : State} (h : After s₀ s) (code : Nat) (body : Bytes) : After s₀ (State.logEvent s code body) := by
  unfold State.logEvent
  dsimp only
  apply trace_after
  apply console_after
  apply setLogs_after h
  · exact Nat.le_succ _
  · exact Nat.le_refl _
  · intro p
    dsimp only
    have := @LogOk.push 65536 s.logs.nextEv s.logs.events
      { index := s.logs.nextEv, start := s.modes.starts, code := code, time := s.time, body := body } p rfl
    exact this
  · exact id

theorem startExit_after {s₀ s : State} (h : After s₀ s) : After s₀ (State.startExit s) := by
  unfold State.startExit
  split
  · refine h.trans ⟨rfl, rfl, Nat.le_refl _, List.prefix_rfl, Nat.le_refl _, Nat.le_refl _, Nat.le_refl _, fun p => ?_, id⟩
    obtain ⟨p1, p2, p3, p4⟩ := p
    exact ⟨p1, p2, fun e he => by simp at he; exact he ▸ rfl, p4⟩
  · exact h

/-- The module goes to P0. -/
theorem powerZero_after {s₀ s t : State} (h : After s₀ s) (hk : t.afterKey = { s.afterKey with st := 0, exiting := none }) : After s₀ t := by
  have q : After s₀ { s with power := { s.power with st := 0, exiting := none } } :=
    h.trans ⟨rfl, rfl, Nat.le_refl _, List.prefix_rfl, Nat.le_refl _, Nat.le_refl _, Nat.le_refl _,
      fun p => ⟨by simp, fun _ => rfl, fun e he => by simp at he, p.2.2.2⟩, id⟩
  exact q.congr hk

/-- The time base restarts. -/
theorem timeBase_after {s₀ s t : State} (h : After s₀ s) (hk : t.afterKey = { s.afterKey with timeBase := s.clock }) : After s₀ t := by
  have q : After s₀ { s with modes := { s.modes with timeBase := s.clock } } :=
    h.trans ⟨rfl, rfl, Nat.le_refl _, List.prefix_rfl, Nat.le_refl _, Nat.le_refl _, Nat.le_refl _,
      fun p => ⟨p.1, p.2.1, p.2.2.1, Nat.le_refl _⟩, id⟩
  exact q.congr hk

theorem wake_after {s₀ s : State} (h₀ : After s₀ s)  : After s₀ (State.wake s) := by
  unfold State.wake
  try dsimp only
  repeat' first
    | with_reducible assumption
    | with_reducible apply After.ite
    | (with_reducible refine After.foldl ?_ (fun _ _ _ => ?_))
    | with_reducible apply startExit_after
    | split
    | (with_reducible apply After.mk_of; refine AfterK.of ?_; first | with_reducible assumption | with_reducible apply After.ite | (with_reducible refine After.foldl ?_ (fun _ _ _ => ?_)) | with_reducible apply startExit_after)

theorem foreground_after {s₀ s : State} (h₀ : After s₀ s)  : After s₀ (State.foreground s) := by
  unfold State.foreground
  try dsimp only
  repeat' first
    | with_reducible assumption
    | with_reducible apply After.ite
    | (with_reducible refine After.foldl ?_ (fun _ _ _ => ?_))
    | split
    | (with_reducible apply After.mk_of; refine AfterK.of ?_; first | with_reducible assumption | with_reducible apply After.ite | (with_reducible refine After.foldl ?_ (fun _ _ _ => ?_)))

theorem gatedTrace_after {s₀ s : State} (h : After s₀ s) (k n : Nat) (w : Bool) (l : List Nat) :
    After s₀ (l.foldl (fun t i => t.trace k i w (BitVec.ofNat 64 n)) s) :=
  After.foldl h (fun _ _ hu => trace_after hu _ _ _ _)

theorem trace_modes (s : State) (k i : Nat) (w : Bool) (v : BitVec 64) : (s.trace k i w v).modes = s.modes := by
  unfold State.trace
  split <;> rfl

theorem gatedTrace_modes (s : State) (k n : Nat) (w : Bool) (l : List Nat) :
    (l.foldl (fun t i => t.trace k i w (BitVec.ofNat 64 n)) s).modes = s.modes := by
  induction l generalizing s with
  | nil => rfl
  | cons a l ih => rw [List.foldl_cons, ih, trace_modes]

theorem deepen_after {s₀ s : State} (h : After s₀ s) (n : Nat) (hn : n ≤ 3) (hm : s.modes.mode = .serving) : After s₀ (State.deepen s n) := by
  unfold State.deepen
  dsimp only
  have hk : After s₀ (s.gatedIslands.foldl (fun t i => t.trace 4 i false (BitVec.ofNat 64 n)) s) := gatedTrace_after h 4 n false _
  have hmode := gatedTrace_modes s 4 n false s.gatedIslands
  generalize s.gatedIslands.foldl (fun t i => t.trace 4 i false (BitVec.ofNat 64 n)) s = u at hk hmode ⊢
  have key : ∀ p : Power, p.st = n → p.exiting = none → ∀ d : Debug, After s₀ { u with power := p, dbg := d } := by
    intro p hp he d
    refine hk.trans ⟨rfl, rfl, Nat.le_refl _, List.prefix_rfl, Nat.le_refl _, Nat.le_refl _, Nat.le_refl _, fun q => ?_, id⟩
    obtain ⟨q1, q2, q3, q4⟩ := q
    refine ⟨by simpa [hp] using hn, fun hne => ?_, fun e hee => ?_, q4⟩
    · exact absurd (show u.modes.mode = .serving by rw [hmode]; exact hm) hne
    · simp [he] at hee
  split
  · exact key _ rfl rfl _
  · exact key _ rfl rfl _

theorem drawnTrace_after {s₀ s : State} (h : After s₀ s) (l : List Nat) :
    After s₀ (l.foldl (fun t i =>
    (t.trace 5 i true (BitVec.ofNat 64 (t.time / 2 ^ 48 % 2 ^ 15 * 2 ^ 49 + Config.estimate t.rnd % 2 ^ 49))).drawn) s) :=
  After.foldl h (fun _ _ hu => drawn_after (trace_after hu _ _ _ _))

/-- A move to a state allowed in the mode keeps `PowerOk`, whatever the power state was. -/
theorem shallower_from {s₀ s : State} (n : Nat) (hp : s.pending = s₀.pending) (hc : s.clock = s₀.clock) (hr : s₀.rnd ≤ s.rnd)
    (hs : s₀.net.sent <+: s.net.sent) (hi : s₀.net.nextId ≤ s.net.nextId) (he : s₀.logs.nextEv ≤ s.logs.nextEv)
    (hj : s₀.logs.nextJn ≤ s.logs.nextJn) (hn : PowerOk s₀ → n ≤ 3 ∧ (s.modes.mode ≠ .serving → n = 0) ∧ s.modes.timeBase ≤ s.clock)
    (hl : LogsOk s₀ → LogsOk s) : After s₀ (State.shallower s n) := by
  unfold State.shallower
  dsimp only
  have key : After s₀ { s with power := s.power.move n s.clock, dbg := { s.dbg with trace := s.dbg.area ++ s.dbg.trace, area := [] } } :=
    ⟨hp, hc, hr, hs, hi, he, hj, fun q => ⟨(hn q).1, (hn q).2.1, fun e hee => by simp [Power.move] at hee, (hn q).2.2⟩, hl⟩
  split
  · exact drawnTrace_after key _
  · exact key

theorem shallower_after {s₀ s : State} (h : After s₀ s) (n : Nat) (hn : PowerOk s → n ≤ s.power.st) : After s₀ (State.shallower s n) := by
  refine shallower_from n h.pending h.clock h.rnd h.sent h.nextId h.nextEv h.nextJn (fun p => ?_) h.logs
  have q := h.power p
  have := hn q
  obtain ⟨q1, q2, q3, q4⟩ := q
  exact ⟨by omega, fun hm => by have := q2 hm; omega, q4⟩

theorem settleScan_after {s₀ s : State} (h₀ : After s₀ s)  : After s₀ (State.settleScan s) := by
  unfold State.settleScan
  try dsimp only
  repeat' first
    | with_reducible assumption
    | split
    | (with_reducible apply After.mk_of; refine AfterK.of ?_; first | with_reducible assumption)

theorem digestEvent_after {s₀ s : State} (h₀ : After s₀ s) (ks place op : Nat) (fp : BitVec 128) : After s₀ (State.digestEvent s ks place op fp) := by
  unfold State.digestEvent
  try dsimp only
  repeat' first
    | with_reducible assumption
    | with_reducible apply After.ite
    | (with_reducible refine After.foldl ?_ (fun _ _ _ => ?_))
    | with_reducible apply logEvent_after
    | split
    | (with_reducible apply After.mk_of; refine AfterK.of ?_; first | with_reducible assumption | with_reducible apply After.ite | (with_reducible refine After.foldl ?_ (fun _ _ _ => ?_)) | with_reducible apply logEvent_after)

theorem journalLate_after {s₀ s : State} (h : After s₀ s) (f : LateFault) : After s₀ (State.journalLate s f) := by
  unfold State.journalLate
  dsimp only
  apply updKeyspace_after
  apply setLogs_after h
  · exact Nat.le_refl _
  · exact Nat.le_succ _
  · exact id
  · intro p
    dsimp only
    generalize hb : pack _ = b
    have := @LogOk.push 4096 s.logs.nextJn s.logs.journal
      { index := s.logs.nextJn, start := s.modes.starts, code := 0x0901, time := s.time, body := b } p rfl
    exact this

theorem sendingEnded_after {s₀ s : State} (h₀ : After s₀ s) (id : Option Nat) : After s₀ (State.sendingEnded s id) := by
  unfold State.sendingEnded
  try dsimp only
  repeat' first
    | with_reducible assumption
    | with_reducible apply After.ite
    | (with_reducible refine After.foldl ?_ (fun _ _ _ => ?_))
    | split
    | (with_reducible apply After.mk_of; refine AfterK.of ?_; first | with_reducible assumption | with_reducible apply After.ite | (with_reducible refine After.foldl ?_ (fun _ _ _ => ?_)))

theorem push_after {s₀ s : State} (h : After s₀ s) (x : Held) : After s₀ (State.push s x) := by
  unfold State.push
  dsimp only
  split
  · apply sendingEnded_after
    refine h.trans ⟨rfl, rfl, Nat.le_refl _, ⟨_, rfl⟩, Nat.le_refl _, Nat.le_refl _, Nat.le_refl _, id, id⟩
  · apply After.mk_of
    exact AfterK.of h

theorem drainHeld_after {s₀ s : State} (h₀ : After s₀ s)  : After s₀ (State.drainHeld s) := by
  unfold State.drainHeld
  try dsimp only
  repeat' first
    | with_reducible assumption
    | with_reducible apply After.ite
    | (with_reducible refine After.foldl ?_ (fun _ _ _ => ?_))
    | with_reducible apply push_after
    | split
    | (with_reducible apply After.mk_of; refine AfterK.of ?_; first | with_reducible assumption | with_reducible apply After.ite | (with_reducible refine After.foldl ?_ (fun _ _ _ => ?_)) | with_reducible apply push_after)

/-- A context, message or slot number is taken. -/
theorem nextId_after {s₀ s t : State} (h : After s₀ s) (hk : t.afterKey = { s.afterKey with nextId := s.net.nextId + 1 }) : After s₀ t := by
  have k : After s₀ { s with net := { s.net with nextId := s.net.nextId + 1 } } :=
    h.trans ⟨rfl, rfl, Nat.le_refl _, List.prefix_rfl, Nat.le_succ _, Nat.le_refl _, Nat.le_refl _, id, id⟩
  exact k.congr hk

/-- Draws are taken. -/
theorem rnd_after {s₀ s t : State} {k : Nat} (h : After s₀ s) (hk : t.afterKey = { s.afterKey with rnd := s.rnd + k }) : After s₀ t := by
  have q : After s₀ { s with rnd := s.rnd + k } :=
    h.trans ⟨rfl, rfl, Nat.le_add_right _ _, List.prefix_rfl, Nat.le_refl _, Nat.le_refl _, Nat.le_refl _, id, id⟩
  exact q.congr hk

theorem sendFrame_after {s₀ s : State} (h : After s₀ s) (p : Path) (pcp : Nat) (kept : Option Nat) (what : Content) :
    After s₀ (State.sendFrame s p pcp kept what) := by
  unfold State.sendFrame
  exact push_after (nextId_after h rfl) _

theorem sendOnce_after {s₀ s : State} (h₀ : After s₀ s) (p : Path) (sess : Option Nat) (m : Msg) : After s₀ (State.sendOnce s p sess m) := by
  unfold State.sendOnce
  try dsimp only
  repeat' first
    | with_reducible assumption
    | with_reducible apply After.ite
    | (with_reducible refine After.foldl ?_ (fun _ _ _ => ?_))
    | with_reducible apply sendFrame_after
    | split
    | (with_reducible apply After.mk_of; refine AfterK.of ?_; first | with_reducible assumption | with_reducible apply After.ite | (with_reducible refine After.foldl ?_ (fun _ _ _ => ?_)) | with_reducible apply sendFrame_after)

theorem sendKept_after {s₀ s : State} (h : After s₀ s) (p : Path) (sess owner : Nat) (late : Option LateFault) (m : Msg) :
    After s₀ (State.sendKept s p sess owner late m) := by
  unfold State.sendKept
  exact sendFrame_after (nextId_after h rfl) _ _ _ _

theorem emitNotice_after {s₀ s : State} (h₀ : After s₀ s) (x : Session) (n : Notice) : After s₀ (State.emitNotice s x n) := by
  unfold State.emitNotice
  try dsimp only
  repeat' first
    | with_reducible assumption
    | with_reducible apply After.ite
    | (with_reducible refine After.foldl ?_ (fun _ _ _ => ?_))
    | with_reducible apply sendKept_after
    | with_reducible apply updSession_after
    | split
    | (with_reducible apply After.mk_of; refine AfterK.of ?_; first | with_reducible assumption | with_reducible apply After.ite | (with_reducible refine After.foldl ?_ (fun _ _ _ => ?_)) | with_reducible apply sendKept_after | with_reducible apply updSession_after)

theorem notify_after {s₀ s : State} (h₀ : After s₀ s) (sess : Nat) (n : Notice) : After s₀ (State.notify s sess n) := by
  unfold State.notify
  try dsimp only
  repeat' first
    | with_reducible assumption
    | with_reducible apply After.ite
    | (with_reducible refine After.foldl ?_ (fun _ _ _ => ?_))
    | with_reducible apply emitNotice_after
    | with_reducible apply journalLate_after
    | with_reducible apply updSession_after
    | split
    | (with_reducible apply After.mk_of; refine AfterK.of ?_; first | with_reducible assumption | with_reducible apply After.ite | (with_reducible refine After.foldl ?_ (fun _ _ _ => ?_)) | with_reducible apply emitNotice_after | with_reducible apply journalLate_after | with_reducible apply updSession_after)

theorem pumpNotices_after {s₀ s : State} (h : After s₀ s) (fuel sess : Nat) : After s₀ (State.pumpNotices fuel s sess) := by
  induction fuel generalizing s with
  | zero => exact h
  | succ n ih =>
    unfold State.pumpNotices
    try dsimp only
    repeat' first
      | with_reducible assumption
      | with_reducible apply ih
      | with_reducible apply emitNotice_after
      | with_reducible apply updSession_after
      | split

theorem broadcast_after {s₀ s : State} (h₀ : After s₀ s) (k : NoticeKind) (keyspace : Nat) (a b : BitVec 64) (value : Bytes) : After s₀ (State.broadcast s k keyspace a b value) := by
  unfold State.broadcast
  try dsimp only
  repeat' first
    | with_reducible assumption
    | with_reducible apply After.ite
    | (with_reducible refine After.foldl ?_ (fun _ _ _ => ?_))
    | with_reducible apply notify_after
    | with_reducible apply startExit_after
    | split
    | (with_reducible apply After.mk_of; refine AfterK.of ?_; first | with_reducible assumption | with_reducible apply After.ite | (with_reducible refine After.foldl ?_ (fun _ _ _ => ?_)) | with_reducible apply notify_after | with_reducible apply startExit_after)

theorem toPhase_after {s₀ s : State} (h₀ : After s₀ s) (c : Nat) (p : Phase) : After s₀ (State.toPhase s c p) := by
  unfold State.toPhase
  try dsimp only
  repeat' first
    | with_reducible assumption
    | with_reducible apply After.ite
    | (with_reducible refine After.foldl ?_ (fun _ _ _ => ?_))
    | with_reducible apply updCtx_after
    | split
    | (with_reducible apply After.mk_of; refine AfterK.of ?_; first | with_reducible assumption | with_reducible apply After.ite | (with_reducible refine After.foldl ?_ (fun _ _ _ => ?_)) | with_reducible apply updCtx_after)

theorem lockEnter_after {s₀ s : State} (h₀ : After s₀ s) (keyspace : Nat) (fp : BitVec 128) (w : LockRec) : After s₀ (State.lockEnter s keyspace fp w) := by
  unfold State.lockEnter
  try dsimp only
  repeat' first
    | with_reducible assumption
    | with_reducible apply After.ite
    | (with_reducible refine After.foldl ?_ (fun _ _ _ => ?_))
    | split
    | (with_reducible apply After.mk_of; refine AfterK.of ?_; first | with_reducible assumption | with_reducible apply After.ite | (with_reducible refine After.foldl ?_ (fun _ _ _ => ?_)))

theorem lockLeave_after {s₀ s : State} (h₀ : After s₀ s) (op : LockOp) : After s₀ (State.lockLeave s op) := by
  unfold State.lockLeave
  try dsimp only
  repeat' first
    | with_reducible assumption
    | with_reducible apply After.ite
    | (with_reducible refine After.foldl ?_ (fun _ _ _ => ?_))
    | split
    | (with_reducible apply After.mk_of; refine AfterK.of ?_; first | with_reducible assumption | with_reducible apply After.ite | (with_reducible refine After.foldl ?_ (fun _ _ _ => ?_)))

theorem releaseCmd_after {s₀ s : State} (h₀ : After s₀ s) (x : Ctx) : After s₀ (State.releaseCmd s x) := by
  unfold State.releaseCmd
  try dsimp only
  repeat' first
    | with_reducible assumption
    | with_reducible apply After.ite
    | (with_reducible refine After.foldl ?_ (fun _ _ _ => ?_))
    | with_reducible apply lockLeave_after
    | with_reducible apply qWithdraw_after
    | with_reducible apply updKeyspace_after
    | with_reducible apply updSession_after
    | split
    | (with_reducible apply After.mk_of; refine AfterK.of ?_; first | with_reducible assumption | with_reducible apply After.ite | (with_reducible refine After.foldl ?_ (fun _ _ _ => ?_)) | with_reducible apply lockLeave_after | with_reducible apply qWithdraw_after | with_reducible apply updKeyspace_after | with_reducible apply updSession_after)

theorem sendReply_after {s₀ s : State} (h₀ : After s₀ s) (x : Ctx) (r : Reply) : After s₀ (State.sendReply s x r) := by
  unfold State.sendReply
  try dsimp only
  repeat' first
    | with_reducible assumption
    | with_reducible apply After.ite
    | (with_reducible refine After.foldl ?_ (fun _ _ _ => ?_))
    | with_reducible apply alert_after
    | with_reducible apply sendKept_after
    | with_reducible apply sendOnce_after
    | split
    | (with_reducible apply After.mk_of; refine AfterK.of ?_; first | with_reducible assumption | with_reducible apply After.ite | (with_reducible refine After.foldl ?_ (fun _ _ _ => ?_)) | with_reducible apply alert_after | with_reducible apply sendKept_after | with_reducible apply sendOnce_after)

theorem recordStatus_after {s₀ s : State} (h₀ : After s₀ s) (x : Ctx) (r : Reply) : After s₀ (State.recordStatus s x r) := by
  unfold State.recordStatus
  try dsimp only
  repeat' first
    | with_reducible assumption
    | with_reducible apply After.ite
    | (with_reducible refine After.foldl ?_ (fun _ _ _ => ?_))
    | with_reducible apply updSession_after
    | split
    | (with_reducible apply After.mk_of; refine AfterK.of ?_; first | with_reducible assumption | with_reducible apply After.ite | (with_reducible refine After.foldl ?_ (fun _ _ _ => ?_)) | with_reducible apply updSession_after)

theorem endCmd_after {s₀ s : State} (h₀ : After s₀ s) (c : Nat) (r : Reply) : After s₀ (State.endCmd s c r) := by
  unfold State.endCmd
  try dsimp only
  repeat' first
    | with_reducible assumption
    | with_reducible apply After.ite
    | (with_reducible refine After.foldl ?_ (fun _ _ _ => ?_))
    | with_reducible apply foreground_after
    | with_reducible apply recordStatus_after
    | with_reducible apply releaseCmd_after
    | with_reducible apply sendReply_after
    | with_reducible apply withCtxs_after
    | split
    | (with_reducible apply After.mk_of; refine AfterK.of ?_; first | with_reducible assumption | with_reducible apply After.ite | (with_reducible refine After.foldl ?_ (fun _ _ _ => ?_)) | with_reducible apply foreground_after | with_reducible apply recordStatus_after | with_reducible apply releaseCmd_after | with_reducible apply sendReply_after | with_reducible apply withCtxs_after)

theorem endStatus_after {s₀ s : State} (h₀ : After s₀ s) (c : Nat) (st : Status) : After s₀ (State.endStatus s c st) := by
  unfold State.endStatus
  try dsimp only
  repeat' first
    | with_reducible assumption
    | with_reducible apply After.ite
    | (with_reducible refine After.foldl ?_ (fun _ _ _ => ?_))
    | with_reducible apply endCmd_after
    | split
    | (with_reducible apply After.mk_of; refine AfterK.of ?_; first | with_reducible assumption | with_reducible apply After.ite | (with_reducible refine After.foldl ?_ (fun _ _ _ => ?_)) | with_reducible apply endCmd_after)

end Sys2Proof.Machine
end

