-- ==== Sys2Proof/Laws/AfterPorts.lean ====
section
/-! SUPPORT. Every operation of Machine/Ports.lean leaves a state after the one it is given. -/

set_option Elab.async false

namespace Sys2Proof.Machine

theorem startAttempts_after {s₀ s : State} (h₀ : After s₀ s) (portB : Bool) : After s₀ (State.startAttempts s portB) := by
  unfold State.startAttempts
  try dsimp only
  repeat' first
    | with_reducible assumption
    | with_reducible apply After.ite
    | (with_reducible refine After.foldl ?_ (fun _ _ _ => ?_))
    | with_reducible apply updLink_after
    | split
    | (with_reducible apply After.mk_of; refine AfterK.of ?_; first | with_reducible assumption | with_reducible apply After.ite | (with_reducible refine After.foldl ?_ (fun _ _ _ => ?_)) | with_reducible apply updLink_after)

theorem announce_after {s₀ s : State} (h₀ : After s₀ s) (link : Nat) : After s₀ (State.announce s link) := by
  unfold State.announce
  try dsimp only
  repeat' first
    | with_reducible assumption
    | with_reducible apply After.ite
    | (with_reducible refine After.foldl ?_ (fun _ _ _ => ?_))
    | with_reducible apply sendFrame_after
    | split
    | (with_reducible apply After.mk_of; refine AfterK.of ?_; first | with_reducible assumption | with_reducible apply After.ite | (with_reducible refine After.foldl ?_ (fun _ _ _ => ?_)) | with_reducible apply sendFrame_after)

theorem takeDown_after {s₀ s : State} (h₀ : After s₀ s) (link : Nat) (failing : BitVec 8) : After s₀ (State.takeDown s link failing) := by
  unfold State.takeDown
  try dsimp only
  repeat' first
    | with_reducible assumption
    | with_reducible apply After.ite
    | (with_reducible refine After.foldl ?_ (fun _ _ _ => ?_))
    | with_reducible apply portEvent_after
    | with_reducible apply updLink_after
    | split
    | (with_reducible apply After.mk_of; refine AfterK.of ?_; first | with_reducible assumption | with_reducible apply After.ite | (with_reducible refine After.foldl ?_ (fun _ _ _ => ?_)) | with_reducible apply portEvent_after | with_reducible apply updLink_after)

theorem failOver_after {s₀ s : State} (h₀ : After s₀ s) (link carrier : Nat) : After s₀ (State.failOver s link carrier) := by
  unfold State.failOver
  try dsimp only
  repeat' first
    | with_reducible assumption
    | with_reducible apply After.ite
    | (with_reducible refine After.foldl ?_ (fun _ _ _ => ?_))
    | with_reducible apply announce_after
    | with_reducible apply drainHeld_after
    | with_reducible apply portEvent_after
    | with_reducible apply updLink_after
    | split
    | (with_reducible apply After.mk_of; refine AfterK.of ?_; first | with_reducible assumption | with_reducible apply After.ite | (with_reducible refine After.foldl ?_ (fun _ _ _ => ?_)) | with_reducible apply announce_after | with_reducible apply drainHeld_after | with_reducible apply portEvent_after | with_reducible apply updLink_after)

theorem execLinkUp_after {s : State} (link : Nat) : AfterO s (execLinkUp link s) := by
  have h0 := After.refl s
  unfold execLinkUp
  try dsimp only
  repeat' first
    | with_reducible assumption
    | with_reducible apply AfterO.next
    | with_reducible apply AfterO.ite
    | with_reducible apply After.ite
    | (with_reducible refine After.foldl ?_ (fun _ _ _ => ?_))
    | with_reducible apply announce_after
    | with_reducible apply drainHeld_after
    | with_reducible apply failOver_after
    | with_reducible apply portEvent_after
    | with_reducible apply updLink_after
    | split
    | (with_reducible apply After.mk_of; refine AfterK.of ?_; first | with_reducible assumption | with_reducible apply AfterO.next | with_reducible apply AfterO.ite | with_reducible apply After.ite | (with_reducible refine After.foldl ?_ (fun _ _ _ => ?_)) | with_reducible apply announce_after | with_reducible apply drainHeld_after | with_reducible apply failOver_after | with_reducible apply portEvent_after | with_reducible apply updLink_after)

theorem execLinkDown_after {s : State} (link : Nat) (failing : BitVec 8) : AfterO s (execLinkDown link failing s) := by
  have h0 := After.refl s
  unfold execLinkDown
  try dsimp only
  repeat' first
    | with_reducible assumption
    | with_reducible apply AfterO.next
    | with_reducible apply AfterO.ite
    | with_reducible apply After.ite
    | (with_reducible refine After.foldl ?_ (fun _ _ _ => ?_))
    | with_reducible apply takeDown_after
    | split
    | (with_reducible apply After.mk_of; refine AfterK.of ?_; first | with_reducible assumption | with_reducible apply AfterO.next | with_reducible apply AfterO.ite | with_reducible apply After.ite | (with_reducible refine After.foldl ?_ (fun _ _ _ => ?_)) | with_reducible apply takeDown_after)

theorem execSignalReturn_after {s : State} (link : Nat) : AfterO s (execSignalReturn link s) := by
  have h0 := After.refl s
  unfold execSignalReturn
  try dsimp only
  repeat' first
    | with_reducible assumption
    | with_reducible apply AfterO.next
    | with_reducible apply AfterO.ite
    | with_reducible apply After.ite
    | (with_reducible refine After.foldl ?_ (fun _ _ _ => ?_))
    | with_reducible apply updLink_after
    | split
    | (with_reducible apply After.mk_of; refine AfterK.of ?_; first | with_reducible assumption | with_reducible apply AfterO.next | with_reducible apply AfterO.ite | with_reducible apply After.ite | (with_reducible refine After.foldl ?_ (fun _ _ _ => ?_)) | with_reducible apply updLink_after)

theorem execLinkAttemptTimeout_after {s : State} (link : Nat) (failing : BitVec 8) : AfterO s (execLinkAttemptTimeout link failing s) := by
  have h0 := After.refl s
  unfold execLinkAttemptTimeout
  try dsimp only
  repeat' first
    | with_reducible assumption
    | with_reducible apply AfterO.next
    | with_reducible apply AfterO.ite
    | with_reducible apply After.ite
    | (with_reducible refine After.foldl ?_ (fun _ _ _ => ?_))
    | with_reducible apply updLink_after
    | split
    | (with_reducible apply After.mk_of; refine AfterK.of ?_; first | with_reducible assumption | with_reducible apply AfterO.next | with_reducible apply AfterO.ite | with_reducible apply After.ite | (with_reducible refine After.foldl ?_ (fun _ _ _ => ?_)) | with_reducible apply updLink_after)

theorem execFailoverHold_after {s : State} (link : Nat) : AfterO s (execFailoverHold link s) := by
  have h0 := After.refl s
  unfold execFailoverHold
  try dsimp only
  repeat' first
    | with_reducible assumption
    | with_reducible apply AfterO.next
    | with_reducible apply AfterO.ite
    | with_reducible apply After.ite
    | (with_reducible refine After.foldl ?_ (fun _ _ _ => ?_))
    | with_reducible apply failOver_after
    | with_reducible apply updLink_after
    | split
    | (with_reducible apply After.mk_of; refine AfterK.of ?_; first | with_reducible assumption | with_reducible apply AfterO.next | with_reducible apply AfterO.ite | with_reducible apply After.ite | (with_reducible refine After.foldl ?_ (fun _ _ _ => ?_)) | with_reducible apply failOver_after | with_reducible apply updLink_after)

theorem execFailoverBack_after {s : State} (link : Nat) : AfterO s (execFailoverBack link s) := by
  have h0 := After.refl s
  unfold execFailoverBack
  try dsimp only
  repeat' first
    | with_reducible assumption
    | with_reducible apply AfterO.next
    | with_reducible apply AfterO.ite
    | with_reducible apply After.ite
    | (with_reducible refine After.foldl ?_ (fun _ _ _ => ?_))
    | with_reducible apply announce_after
    | with_reducible apply drainHeld_after
    | with_reducible apply portEvent_after
    | with_reducible apply updLink_after
    | split
    | (with_reducible apply After.mk_of; refine AfterK.of ?_; first | with_reducible assumption | with_reducible apply AfterO.next | with_reducible apply AfterO.ite | with_reducible apply After.ite | (with_reducible refine After.foldl ?_ (fun _ _ _ => ?_)) | with_reducible apply announce_after | with_reducible apply drainHeld_after | with_reducible apply portEvent_after | with_reducible apply updLink_after)

theorem execEgressFrameTimeout_after {s : State} (frame : Nat) : AfterO s (execEgressFrameTimeout frame s) := by
  have h0 := After.refl s
  unfold execEgressFrameTimeout
  try dsimp only
  repeat' first
    | with_reducible assumption
    | with_reducible apply AfterO.next
    | with_reducible apply AfterO.ite
    | with_reducible apply After.ite
    | (with_reducible refine After.foldl ?_ (fun _ _ _ => ?_))
    | with_reducible apply sendingEnded_after
    | split
    | (with_reducible apply After.mk_of; refine AfterK.of ?_; first | with_reducible assumption | with_reducible apply AfterO.next | with_reducible apply AfterO.ite | with_reducible apply After.ite | (with_reducible refine After.foldl ?_ (fun _ _ _ => ?_)) | with_reducible apply sendingEnded_after)

theorem pause_after {s₀ s : State} (h₀ : After s₀ s) (link prio quanta : Nat) : After s₀ (State.pause s link prio quanta) := by
  unfold State.pause
  try dsimp only
  repeat' first
    | with_reducible assumption
    | with_reducible apply After.ite
    | (with_reducible refine After.foldl ?_ (fun _ _ _ => ?_))
    | with_reducible apply drainHeld_after
    | with_reducible apply updLink_after
    | split
    | (with_reducible apply After.mk_of; refine AfterK.of ?_; first | with_reducible assumption | with_reducible apply After.ite | (with_reducible refine After.foldl ?_ (fun _ _ _ => ?_)) | with_reducible apply drainHeld_after | with_reducible apply updLink_after)

theorem execPauseQuantaExpire_after {s : State} (link prio : Nat) : AfterO s (execPauseQuantaExpire link prio s) := by
  have h0 := After.refl s
  unfold execPauseQuantaExpire
  try dsimp only
  repeat' first
    | with_reducible assumption
    | with_reducible apply AfterO.next
    | with_reducible apply AfterO.ite
    | with_reducible apply After.ite
    | (with_reducible refine After.foldl ?_ (fun _ _ _ => ?_))
    | with_reducible apply drainHeld_after
    | with_reducible apply updLink_after
    | split
    | (with_reducible apply After.mk_of; refine AfterK.of ?_; first | with_reducible assumption | with_reducible apply AfterO.next | with_reducible apply AfterO.ite | with_reducible apply After.ite | (with_reducible refine After.foldl ?_ (fun _ _ _ => ?_)) | with_reducible apply drainHeld_after | with_reducible apply updLink_after)

theorem execPauseWatchdog_after {s : State} (link prio : Nat) : AfterO s (execPauseWatchdog link prio s) := by
  have h0 := After.refl s
  unfold execPauseWatchdog
  try dsimp only
  repeat' first
    | with_reducible assumption
    | with_reducible apply AfterO.next
    | with_reducible apply AfterO.ite
    | with_reducible apply After.ite
    | (with_reducible refine After.foldl ?_ (fun _ _ _ => ?_))
    | with_reducible apply drainHeld_after
    | with_reducible apply portEvent_after
    | with_reducible apply updLink_after
    | split
    | (with_reducible apply After.mk_of; refine AfterK.of ?_; first | with_reducible assumption | with_reducible apply AfterO.next | with_reducible apply AfterO.ite | with_reducible apply After.ite | (with_reducible refine After.foldl ?_ (fun _ _ _ => ?_)) | with_reducible apply drainHeld_after | with_reducible apply portEvent_after | with_reducible apply updLink_after)

theorem execPauseWatchdogHoldoffEnd_after {s : State} (link prio : Nat) : AfterO s (execPauseWatchdogHoldoffEnd link prio s) := by
  have h0 := After.refl s
  unfold execPauseWatchdogHoldoffEnd
  try dsimp only
  repeat' first
    | with_reducible assumption
    | with_reducible apply AfterO.next
    | with_reducible apply AfterO.ite
    | with_reducible apply After.ite
    | (with_reducible refine After.foldl ?_ (fun _ _ _ => ?_))
    | with_reducible apply updLink_after
    | split
    | (with_reducible apply After.mk_of; refine AfterK.of ?_; first | with_reducible assumption | with_reducible apply AfterO.next | with_reducible apply AfterO.ite | with_reducible apply After.ite | (with_reducible refine After.foldl ?_ (fun _ _ _ => ?_)) | with_reducible apply updLink_after)

theorem execNeighbourAgeOut_after {s : State} (portB : Bool) (addr : Addr) : AfterO s (execNeighbourAgeOut portB addr s) := by
  have h0 := After.refl s
  unfold execNeighbourAgeOut
  try dsimp only
  repeat' first
    | with_reducible assumption
    | with_reducible apply AfterO.next
    | with_reducible apply AfterO.ite
    | with_reducible apply After.ite
    | (with_reducible refine After.foldl ?_ (fun _ _ _ => ?_))
    | split
    | (with_reducible apply After.mk_of; refine AfterK.of ?_; first | with_reducible assumption | with_reducible apply AfterO.next | with_reducible apply AfterO.ite | with_reducible apply After.ite | (with_reducible refine After.foldl ?_ (fun _ _ _ => ?_)))

theorem refusePlugIn_after {s₀ s : State} (h₀ : After s₀ s) (portB : Bool) (reason : Nat) : After s₀ (State.refusePlugIn s portB reason) := by
  unfold State.refusePlugIn
  try dsimp only
  repeat' first
    | with_reducible assumption
    | with_reducible apply After.ite
    | (with_reducible refine After.foldl ?_ (fun _ _ _ => ?_))
    | with_reducible apply portEvent_after
    | with_reducible apply setCage_after
    | with_reducible apply takeDown_after
    | with_reducible apply updLink_after
    | split
    | (with_reducible apply After.mk_of; refine AfterK.of ?_; first | with_reducible assumption | with_reducible apply After.ite | (with_reducible refine After.foldl ?_ (fun _ _ _ => ?_)) | with_reducible apply portEvent_after | with_reducible apply setCage_after | with_reducible apply takeDown_after | with_reducible apply updLink_after)

theorem judgePlugIn_after {s₀ s : State} (h₀ : After s₀ s) (portB : Bool) : After s₀ (State.judgePlugIn s portB) := by
  unfold State.judgePlugIn
  try dsimp only
  repeat' first
    | with_reducible assumption
    | with_reducible apply After.ite
    | (with_reducible refine After.foldl ?_ (fun _ _ _ => ?_))
    | with_reducible apply refusePlugIn_after
    | with_reducible apply setCage_after
    | with_reducible apply startAttempts_after
    | split
    | (with_reducible apply After.mk_of; refine AfterK.of ?_; first | with_reducible assumption | with_reducible apply After.ite | (with_reducible refine After.foldl ?_ (fun _ _ _ => ?_)) | with_reducible apply refusePlugIn_after | with_reducible apply setCage_after | with_reducible apply startAttempts_after)

theorem execPlugInInsert_after {s : State} (portB : Bool) (cmis : Cmis) : AfterO s (execPlugInInsert portB cmis s) := by
  have h0 := After.refl s
  unfold execPlugInInsert
  try dsimp only
  repeat' first
    | with_reducible assumption
    | with_reducible apply AfterO.next
    | with_reducible apply AfterO.ite
    | with_reducible apply After.ite
    | (with_reducible refine After.foldl ?_ (fun _ _ _ => ?_))
    | with_reducible apply judgePlugIn_after
    | with_reducible apply setCage_after
    | split
    | (with_reducible apply After.mk_of; refine AfterK.of ?_; first | with_reducible assumption | with_reducible apply AfterO.next | with_reducible apply AfterO.ite | with_reducible apply After.ite | (with_reducible refine After.foldl ?_ (fun _ _ _ => ?_)) | with_reducible apply judgePlugIn_after | with_reducible apply setCage_after)

theorem execCmisReadyTimeout_after {s : State} (portB : Bool) : AfterO s (execCmisReadyTimeout portB s) := by
  have h0 := After.refl s
  unfold execCmisReadyTimeout
  try dsimp only
  repeat' first
    | with_reducible assumption
    | with_reducible apply AfterO.next
    | with_reducible apply AfterO.ite
    | with_reducible apply After.ite
    | (with_reducible refine After.foldl ?_ (fun _ _ _ => ?_))
    | with_reducible apply refusePlugIn_after
    | split
    | (with_reducible apply After.mk_of; refine AfterK.of ?_; first | with_reducible assumption | with_reducible apply AfterO.next | with_reducible apply AfterO.ite | with_reducible apply After.ite | (with_reducible refine After.foldl ?_ (fun _ _ _ => ?_)) | with_reducible apply refusePlugIn_after)

theorem execPlugInRemove_after {s : State} (portB : Bool) : AfterO s (execPlugInRemove portB s) := by
  have h0 := After.refl s
  unfold execPlugInRemove
  try dsimp only
  repeat' first
    | with_reducible assumption
    | with_reducible apply AfterO.next
    | with_reducible apply AfterO.ite
    | with_reducible apply After.ite
    | (with_reducible refine After.foldl ?_ (fun _ _ _ => ?_))
    | with_reducible apply setCage_after
    | with_reducible apply takeDown_after
    | with_reducible apply updLink_after
    | split
    | (with_reducible apply After.mk_of; refine AfterK.of ?_; first | with_reducible assumption | with_reducible apply AfterO.next | with_reducible apply AfterO.ite | with_reducible apply After.ite | (with_reducible refine After.foldl ?_ (fun _ _ _ => ?_)) | with_reducible apply setCage_after | with_reducible apply takeDown_after | with_reducible apply updLink_after)

theorem execCmisPoll_after {s : State} (portB : Bool) (cmis : Cmis) : AfterO s (execCmisPoll portB cmis s) := by
  have h0 := After.refl s
  unfold execCmisPoll
  try dsimp only
  repeat' first
    | with_reducible assumption
    | with_reducible apply AfterO.next
    | with_reducible apply AfterO.ite
    | with_reducible apply After.ite
    | (with_reducible refine After.foldl ?_ (fun _ _ _ => ?_))
    | with_reducible apply judgePlugIn_after
    | with_reducible apply refusePlugIn_after
    | with_reducible apply setCage_after
    | split
    | (with_reducible apply After.mk_of; refine AfterK.of ?_; first | with_reducible assumption | with_reducible apply AfterO.next | with_reducible apply AfterO.ite | with_reducible apply After.ite | (with_reducible refine After.foldl ?_ (fun _ _ _ => ?_)) | with_reducible apply judgePlugIn_after | with_reducible apply refusePlugIn_after | with_reducible apply setCage_after)

theorem retrainPort_after {s₀ s : State} (h₀ : After s₀ s) (portB : Bool) (fmt : Nat) : After s₀ (State.retrainPort s portB fmt) := by
  unfold State.retrainPort
  try dsimp only
  repeat' first
    | with_reducible assumption
    | with_reducible apply After.ite
    | (with_reducible refine After.foldl ?_ (fun _ _ _ => ?_))
    | with_reducible apply judgePlugIn_after
    | with_reducible apply setCage_after
    | with_reducible apply startAttempts_after
    | with_reducible apply takeDown_after
    | with_reducible apply updLink_after
    | split
    | (with_reducible apply After.mk_of; refine AfterK.of ?_; first | with_reducible assumption | with_reducible apply After.ite | (with_reducible refine After.foldl ?_ (fun _ _ _ => ?_)) | with_reducible apply judgePlugIn_after | with_reducible apply setCage_after | with_reducible apply startAttempts_after | with_reducible apply takeDown_after | with_reducible apply updLink_after)

end Sys2Proof.Machine
end

