-- ==== Sys2Proof/Laws/AfterStore.lean ====
section
/-! SUPPORT. Every operation of Machine/Store.lean leaves a state after the one it is given. -/

set_option Elab.async false

namespace Sys2Proof.Machine

theorem updGroup_after {s₀ s : State} (h₀ : After s₀ s) (n : Nat) (f : Group → Group) : After s₀ (State.updGroup s n f) := by
  unfold State.updGroup
  try dsimp only
  repeat' first
    | with_reducible assumption
    | with_reducible apply After.ite
    | (with_reducible refine After.foldl ?_ (fun _ _ _ => ?_))
    | split
    | (with_reducible apply After.mk_of; refine AfterK.of ?_; first | with_reducible assumption | with_reducible apply After.ite | (with_reducible refine After.foldl ?_ (fun _ _ _ => ?_)))

theorem closeGroup_after {s₀ s : State} (h₀ : After s₀ s) (n : Nat) : After s₀ (State.closeGroup s n) := by
  unfold State.closeGroup
  try dsimp only
  repeat' first
    | with_reducible assumption
    | with_reducible apply After.ite
    | (with_reducible refine After.foldl ?_ (fun _ _ _ => ?_))
    | with_reducible apply updGroup_after
    | split
    | (with_reducible apply After.mk_of; refine AfterK.of ?_; first | with_reducible assumption | with_reducible apply After.ite | (with_reducible refine After.foldl ?_ (fun _ _ _ => ?_)) | with_reducible apply updGroup_after)

theorem openGroup_after {s₀ s t : State} (h : After s₀ s) {o : Nat} {slc fine gc : Bool} (e : s.openGroup o slc fine gc = some t) :
    After s₀ t := by
  unfold State.openGroup at e
  dsimp only at e
  split at e
  · cases e
  · split at e
    · cases e
    · injection e with e
      subst e
      apply After.mk_of
      refine AfterK.of ?_
      exact After.foldl h (fun _ _ hu => closeGroup_after hu _)

theorem takeSlots_after {s₀ s t : State} (h : After s₀ s) {o : Nat} {slc fine gc : Bool} {len : Nat} {g : Group} {a l : Nat}
    (e : s.takeSlots o slc fine gc len = some (t, g, a, l)) : After s₀ t := by
  unfold State.takeSlots at e
  dsimp only at e
  split at e
  · cases e
  · rename_i u hu
    have hk : After s₀ u := by
      split at hu
      · injection hu with hu
        exact hu ▸ h
      · exact openGroup_after h hu
    split at e
    · cases e
    · injection e with e
      injection e with e _
      subst e
      apply After.mk_of
      refine AfterK.of ?_
      exact updGroup_after hk _ _

theorem heatUp_after {s₀ s : State} (h₀ : After s₀ s) (fp : BitVec 128) : After s₀ (State.heatUp s fp) := by
  unfold State.heatUp
  try dsimp only
  repeat' first
    | with_reducible assumption
    | with_reducible apply After.ite
    | (with_reducible refine After.foldl ?_ (fun _ _ _ => ?_))
    | split
    | (with_reducible apply After.mk_of; refine AfterK.of ?_; first | with_reducible assumption | with_reducible apply After.ite | (with_reducible refine After.foldl ?_ (fun _ _ _ => ?_)))

theorem dirLog_after {s₀ s : State} (h₀ : After s₀ s) (r : LogRec) : After s₀ (State.dirLog s r) := by
  unfold State.dirLog
  try dsimp only
  repeat' first
    | with_reducible assumption
    | with_reducible apply After.ite
    | (with_reducible refine After.foldl ?_ (fun _ _ _ => ?_))
    | split
    | (with_reducible apply After.mk_of; refine AfterK.of ?_; first | with_reducible assumption | with_reducible apply After.ite | (with_reducible refine After.foldl ?_ (fun _ _ _ => ?_)))

theorem dirtyChunk_after {s₀ s : State} (h₀ : After s₀ s) (e : Entry) : After s₀ (State.dirtyChunk s e) := by
  unfold State.dirtyChunk
  try dsimp only
  repeat' first
    | with_reducible assumption
    | with_reducible apply After.ite
    | (with_reducible refine After.foldl ?_ (fun _ _ _ => ?_))
    | split
    | (with_reducible apply After.mk_of; refine AfterK.of ?_; first | with_reducible assumption | with_reducible apply After.ite | (with_reducible refine After.foldl ?_ (fun _ _ _ => ?_)))

theorem markStale_after {s₀ s : State} (h₀ : After s₀ s) (rs : List Rec) : After s₀ (State.markStale s rs) := by
  unfold State.markStale
  try dsimp only
  repeat' first
    | with_reducible assumption
    | with_reducible apply After.ite
    | (with_reducible refine After.foldl ?_ (fun _ _ _ => ?_))
    | split
    | (with_reducible apply After.mk_of; refine AfterK.of ?_; first | with_reducible assumption | with_reducible apply After.ite | (with_reducible refine After.foldl ?_ (fun _ _ _ => ?_)))

theorem setEntry_after {s₀ s : State} (h₀ : After s₀ s) (e : Entry) : After s₀ (State.setEntry s e) := by
  unfold State.setEntry
  try dsimp only
  repeat' first
    | with_reducible assumption
    | with_reducible apply After.ite
    | (with_reducible refine After.foldl ?_ (fun _ _ _ => ?_))
    | with_reducible apply dirtyChunk_after
    | split
    | (with_reducible apply After.mk_of; refine AfterK.of ?_; first | with_reducible assumption | with_reducible apply After.ite | (with_reducible refine After.foldl ?_ (fun _ _ _ => ?_)) | with_reducible apply dirtyChunk_after)

theorem removeEntry_after {s₀ s : State} (h₀ : After s₀ s) (e : Entry) : After s₀ (State.removeEntry s e) := by
  unfold State.removeEntry
  try dsimp only
  repeat' first
    | with_reducible assumption
    | with_reducible apply After.ite
    | (with_reducible refine After.foldl ?_ (fun _ _ _ => ?_))
    | with_reducible apply dirtyChunk_after
    | split
    | (with_reducible apply After.mk_of; refine AfterK.of ?_; first | with_reducible assumption | with_reducible apply After.ite | (with_reducible refine After.foldl ?_ (fun _ _ _ => ?_)) | with_reducible apply dirtyChunk_after)

theorem cachePut_after {s₀ s : State} (h₀ : After s₀ s) (r : Rec) : After s₀ (State.cachePut s r) := by
  unfold State.cachePut
  try dsimp only
  repeat' first
    | with_reducible assumption
    | with_reducible apply After.ite
    | (with_reducible refine After.foldl ?_ (fun _ _ _ => ?_))
    | split
    | (with_reducible apply After.mk_of; refine AfterK.of ?_; first | with_reducible assumption | with_reducible apply After.ite | (with_reducible refine After.foldl ?_ (fun _ _ _ => ?_)))

theorem cacheDrop_after {s₀ s : State} (h₀ : After s₀ s) (p : Nat → Bool) : After s₀ (State.cacheDrop s p) := by
  unfold State.cacheDrop
  try dsimp only
  repeat' first
    | with_reducible assumption
    | with_reducible apply After.ite
    | (with_reducible refine After.foldl ?_ (fun _ _ _ => ?_))
    | split
    | (with_reducible apply After.mk_of; refine AfterK.of ?_; first | with_reducible assumption | with_reducible apply After.ite | (with_reducible refine After.foldl ?_ (fun _ _ _ => ?_)))

theorem remapLoc_after {s₀ s : State} (h₀ : After s₀ s) (old new : Nat) : After s₀ (State.remapLoc s old new) := by
  unfold State.remapLoc
  try dsimp only
  repeat' first
    | with_reducible assumption
    | with_reducible apply After.ite
    | (with_reducible refine After.foldl ?_ (fun _ _ _ => ?_))
    | split
    | (with_reducible apply After.mk_of; refine AfterK.of ?_; first | with_reducible assumption | with_reducible apply After.ite | (with_reducible refine After.foldl ?_ (fun _ _ _ => ?_)))

theorem relocate_after {s₀ s : State} (h₀ : After s₀ s) (loc : Nat) (reseal : Rec → Rec) : After s₀ (State.relocate s loc reseal) := by
  unfold State.relocate
  try dsimp only
  repeat' first
    | with_reducible assumption
    | with_reducible apply After.ite
    | (with_reducible refine After.foldl ?_ (fun _ _ _ => ?_))
    | with_reducible apply cacheDrop_after
    | with_reducible apply dirLog_after
    | with_reducible apply dirtyChunk_after
    | with_reducible apply markStale_after
    | with_reducible apply remapLoc_after
    | (refine takeSlots_after ?_ (by assumption))
    | split
    | (with_reducible apply After.mk_of; refine AfterK.of ?_; first | with_reducible assumption | with_reducible apply After.ite | (with_reducible refine After.foldl ?_ (fun _ _ _ => ?_)) | with_reducible apply cacheDrop_after | with_reducible apply dirLog_after | with_reducible apply dirtyChunk_after | with_reducible apply markStale_after | with_reducible apply remapLoc_after | (refine takeSlots_after ?_ (by assumption)))

theorem mediaErrorEvent_after {s₀ s : State} (h₀ : After s₀ s) (r : Rec) : After s₀ (State.mediaErrorEvent s r) := by
  unfold State.mediaErrorEvent
  try dsimp only
  repeat' first
    | with_reducible assumption
    | with_reducible apply After.ite
    | (with_reducible refine After.foldl ?_ (fun _ _ _ => ?_))
    | with_reducible apply logEvent_after
    | split
    | (with_reducible apply After.mk_of; refine AfterK.of ?_; first | with_reducible assumption | with_reducible apply After.ite | (with_reducible refine After.foldl ?_ (fun _ _ _ => ?_)) | with_reducible apply logEvent_after)

theorem markRefresh_after {s₀ s : State} (h₀ : After s₀ s) (n : Nat) : After s₀ (State.markRefresh s n) := by
  unfold State.markRefresh
  try dsimp only
  repeat' first
    | with_reducible assumption
    | with_reducible apply After.ite
    | (with_reducible refine After.foldl ?_ (fun _ _ _ => ?_))
    | with_reducible apply updGroup_after
    | split
    | (with_reducible apply After.mk_of; refine AfterK.of ?_; first | with_reducible assumption | with_reducible apply After.ite | (with_reducible refine After.foldl ?_ (fun _ _ _ => ?_)) | with_reducible apply updGroup_after)

theorem readRec_after {s₀ s : State} (h : After s₀ s) (r : Rec) (o : ReadOutcome) : After s₀ (State.readRec s r o).2 := by
  unfold State.readRec
  dsimp only
  repeat' first
    | with_reducible assumption
    | with_reducible apply mediaErrorEvent_after
    | with_reducible apply markRefresh_after
    | (with_reducible apply After.mk_of; refine AfterK.of ?_; first | with_reducible assumption | with_reducible apply markRefresh_after)
    | split

theorem poisonRec_after {s₀ s : State} (h₀ : After s₀ s) (loc : Nat) : After s₀ (State.poisonRec s loc) := by
  unfold State.poisonRec
  try dsimp only
  repeat' first
    | with_reducible assumption
    | with_reducible apply After.ite
    | (with_reducible refine After.foldl ?_ (fun _ _ _ => ?_))
    | split
    | (with_reducible apply After.mk_of; refine AfterK.of ?_; first | with_reducible assumption | with_reducible apply After.ite | (with_reducible refine After.foldl ?_ (fun _ _ _ => ?_)))

end Sys2Proof.Machine
end

