-- ==== Sys2Proof/Laws/AfterModes.lean ====
section
/-! SUPPORT. Every operation of Machine/Modes.lean leaves a state after the one it is given. -/

set_option Elab.async false

namespace Sys2Proof.Machine

theorem saveSettings_after {s₀ s : State} (h₀ : After s₀ s)  : After s₀ (State.saveSettings s) := by
  unfold State.saveSettings
  try dsimp only
  repeat' first
    | with_reducible assumption
    | with_reducible apply After.ite
    | (with_reducible refine After.foldl ?_ (fun _ _ _ => ?_))
    | split
    | (with_reducible apply After.mk_of; refine AfterK.of ?_; first | with_reducible assumption | with_reducible apply After.ite | (with_reducible refine After.foldl ?_ (fun _ _ _ => ?_)))

theorem endAll_after {s₀ s : State} (h₀ : After s₀ s) (p : Ctx → Bool) (st : Status) : After s₀ (State.endAll s p st) := by
  unfold State.endAll
  try dsimp only
  repeat' first
    | with_reducible assumption
    | with_reducible apply After.ite
    | (with_reducible refine After.foldl ?_ (fun _ _ _ => ?_))
    | with_reducible apply endStatus_after
    | split
    | (with_reducible apply After.mk_of; refine AfterK.of ?_; first | with_reducible assumption | with_reducible apply After.ite | (with_reducible refine After.foldl ?_ (fun _ _ _ => ?_)) | with_reducible apply endStatus_after)

theorem closeSieves_after {s₀ s : State} (h₀ : After s₀ s) (p : Sieve → Bool) (reason : Nat) : After s₀ (State.closeSieves s p reason) := by
  unfold State.closeSieves
  try dsimp only
  repeat' first
    | with_reducible assumption
    | with_reducible apply After.ite
    | (with_reducible refine After.foldl ?_ (fun _ _ _ => ?_))
    | with_reducible apply logEvent_after
    | split
    | (with_reducible apply After.mk_of; refine AfterK.of ?_; first | with_reducible assumption | with_reducible apply After.ite | (with_reducible refine After.foldl ?_ (fun _ _ _ => ?_)) | with_reducible apply logEvent_after)

theorem endForMode_after {s₀ s : State} (h₀ : After s₀ s) (new : Mode) : After s₀ (State.endForMode s new) := by
  unfold State.endForMode
  try dsimp only
  repeat' first
    | with_reducible assumption
    | with_reducible apply After.ite
    | (with_reducible refine After.foldl ?_ (fun _ _ _ => ?_))
    | with_reducible apply closeSieves_after
    | with_reducible apply endAll_after
    | split
    | (with_reducible apply After.mk_of; refine AfterK.of ?_; first | with_reducible assumption | with_reducible apply After.ite | (with_reducible refine After.foldl ?_ (fun _ _ _ => ?_)) | with_reducible apply closeSieves_after | with_reducible apply endAll_after)

theorem changeMode_after {s₀ s : State} (h : After s₀ s) (new : Mode) : After s₀ (State.changeMode s new) := by
  unfold State.changeMode
  dsimp only
  split
  · exact h
  · have h1 := endForMode_after h new
    generalize s.endForMode new = u at h1 ⊢
    apply console_after
    apply alert_after
    apply broadcast_after
    cases hn : (new == Mode.serving) with
    | true =>
      have hs : new = .serving := by simpa using hn
      have hb : (new != Mode.serving) = false := by simp [bne, hn]
      simp only [hb, Bool.false_and, Bool.false_eq_true, if_false, if_true]
      refine ⟨h1.pending, h1.clock, h1.rnd, h1.sent, h1.nextId, h1.nextEv, h1.nextJn, fun p => ?_, h1.logs⟩
      have q := h1.power p
      rw [powerOk_iff] at q ⊢
      exact ⟨q.1, fun hne => absurd hs hne, q.2.2.1, q.2.2.2⟩
    | false =>
      have hb : (new != Mode.serving) = true := by simp [bne, hn]
      simp only [hb, Bool.true_and, Bool.false_eq_true, if_false]
      split
      · refine shallower_from 0 h1.pending h1.clock h1.rnd h1.sent h1.nextId h1.nextEv h1.nextJn (fun p => ?_) h1.logs
        exact ⟨by omega, fun _ => rfl, (h1.power p).2.2.2⟩
      · rename_i hc
        have hz : u.power.st = 0 := by simpa using hc
        refine ⟨h1.pending, h1.clock, h1.rnd, h1.sent, h1.nextId, h1.nextEv, h1.nextJn, fun p => ?_, h1.logs⟩
        have q := h1.power p
        rw [powerOk_iff] at q ⊢
        exact ⟨q.1, fun _ => hz, fun e he => by simp at he, q.2.2.2⟩

theorem freeze_after {s₀ s : State} (h₀ : After s₀ s) (f : FreezeCause) : After s₀ (State.freeze s f) := by
  unfold State.freeze
  try dsimp only
  repeat' first
    | with_reducible assumption
    | with_reducible apply After.ite
    | (with_reducible refine After.foldl ?_ (fun _ _ _ => ?_))
    | with_reducible apply changeMode_after
    | with_reducible apply saveSettings_after
    | split
    | (with_reducible apply After.mk_of; refine AfterK.of ?_; first | with_reducible assumption | with_reducible apply After.ite | (with_reducible refine After.foldl ?_ (fun _ _ _ => ?_)) | with_reducible apply changeMode_after | with_reducible apply saveSettings_after)

theorem spareNotice_after {s₀ s : State} (h₀ : After s₀ s) (cls index : Nat) : After s₀ (State.spareNotice s cls index) := by
  unfold State.spareNotice
  try dsimp only
  repeat' first
    | with_reducible assumption
    | with_reducible apply After.ite
    | (with_reducible refine After.foldl ?_ (fun _ _ _ => ?_))
    | with_reducible apply alert_after
    | with_reducible apply broadcast_after
    | split
    | (with_reducible apply After.mk_of; refine AfterK.of ?_; first | with_reducible assumption | with_reducible apply After.ite | (with_reducible refine After.foldl ?_ (fun _ _ _ => ?_)) | with_reducible apply alert_after | with_reducible apply broadcast_after)

theorem retireBlock_after {s₀ s : State} (h₀ : After s₀ s) (channel position : Nat) (g : Group) (cause : Nat) : After s₀ (State.retireBlock s channel position g cause) := by
  unfold State.retireBlock
  try dsimp only
  repeat' first
    | with_reducible assumption
    | with_reducible apply After.ite
    | (with_reducible refine After.foldl ?_ (fun _ _ _ => ?_))
    | with_reducible apply freeze_after
    | with_reducible apply logEvent_after
    | with_reducible apply markRefresh_after
    | split
    | (with_reducible apply After.mk_of; refine AfterK.of ?_; first | with_reducible assumption | with_reducible apply After.ite | (with_reducible refine After.foldl ?_ (fun _ _ _ => ?_)) | with_reducible apply freeze_after | with_reducible apply logEvent_after | with_reducible apply markRefresh_after)

end Sys2Proof.Machine
end

