-- ==== Sys2Proof/Laws/AfterCipher.lean ====
section
/-! SUPPORT. Every operation of Machine/Cipher.lean leaves a state after the one it is given. -/

set_option Elab.async false

namespace Sys2Proof.Machine

theorem setPage_after {s₀ s : State} (h₀ : After s₀ s) (p : KeyPage) : After s₀ (State.setPage s p) := by
  unfold State.setPage
  try dsimp only
  repeat' first
    | with_reducible assumption
    | with_reducible apply After.ite
    | (with_reducible refine After.foldl ?_ (fun _ _ _ => ?_))
    | split
    | (with_reducible apply After.mk_of; refine AfterK.of ?_; first | with_reducible assumption | with_reducible apply After.ite | (with_reducible refine After.foldl ?_ (fun _ _ _ => ?_)))

theorem keyUsage_after {s₀ s : State} (h₀ : After s₀ s) (p : KeyPage) (event : Nat) : After s₀ (State.keyUsage s p event) := by
  unfold State.keyUsage
  try dsimp only
  repeat' first
    | with_reducible assumption
    | with_reducible apply After.ite
    | (with_reducible refine After.foldl ?_ (fun _ _ _ => ?_))
    | with_reducible apply broadcast_after
    | split
    | (with_reducible apply After.mk_of; refine AfterK.of ?_; first | with_reducible assumption | with_reducible apply After.ite | (with_reducible refine After.foldl ?_ (fun _ _ _ => ?_)) | with_reducible apply broadcast_after)

theorem keyEvents_after {s₀ s : State} (h₀ : After s₀ s) (n : Nat) : After s₀ (State.keyEvents s n) := by
  unfold State.keyEvents
  try dsimp only
  repeat' first
    | with_reducible assumption
    | with_reducible apply After.ite
    | (with_reducible refine After.foldl ?_ (fun _ _ _ => ?_))
    | with_reducible apply keyUsage_after
    | with_reducible apply setPage_after
    | split
    | (with_reducible apply After.mk_of; refine AfterK.of ?_; first | with_reducible assumption | with_reducible apply After.ite | (with_reducible refine After.foldl ?_ (fun _ _ _ => ?_)) | with_reducible apply keyUsage_after | with_reducible apply setPage_after)

theorem reserveUse_after {s₀ s : State} (h₀ : After s₀ s) (n : Nat) : After s₀ (State.reserveUse s n) := by
  unfold State.reserveUse
  try dsimp only
  repeat' first
    | with_reducible assumption
    | with_reducible apply After.ite
    | (with_reducible refine After.foldl ?_ (fun _ _ _ => ?_))
    | with_reducible apply keyEvents_after
    | with_reducible apply setPage_after
    | split
    | (with_reducible apply After.mk_of; refine AfterK.of ?_; first | with_reducible assumption | with_reducible apply After.ite | (with_reducible refine After.foldl ?_ (fun _ _ _ => ?_)) | with_reducible apply keyEvents_after | with_reducible apply setPage_after)

theorem eraseKeys_after {s₀ s : State} (h₀ : After s₀ s)  : After s₀ (State.eraseKeys s) := by
  unfold State.eraseKeys
  try dsimp only
  repeat' first
    | with_reducible assumption
    | with_reducible apply After.ite
    | (with_reducible refine After.foldl ?_ (fun _ _ _ => ?_))
    | split
    | (with_reducible apply After.mk_of; refine AfterK.of ?_; first | with_reducible assumption | with_reducible apply After.ite | (with_reducible refine After.foldl ?_ (fun _ _ _ => ?_)))

theorem clearPage_after {s₀ s : State} (h₀ : After s₀ s) (n cause : Nat) : After s₀ (State.clearPage s n cause) := by
  unfold State.clearPage
  try dsimp only
  repeat' first
    | with_reducible assumption
    | with_reducible apply After.ite
    | (with_reducible refine After.foldl ?_ (fun _ _ _ => ?_))
    | with_reducible apply logEvent_after
    | split
    | (with_reducible apply After.mk_of; refine AfterK.of ?_; first | with_reducible assumption | with_reducible apply After.ite | (with_reducible refine After.foldl ?_ (fun _ _ _ => ?_)) | with_reducible apply logEvent_after)

theorem sweepEnd_after {s₀ s : State} (h₀ : After s₀ s) (n : Nat) : After s₀ (State.sweepEnd s n) := by
  unfold State.sweepEnd
  try dsimp only
  repeat' first
    | with_reducible assumption
    | with_reducible apply After.ite
    | (with_reducible refine After.foldl ?_ (fun _ _ _ => ?_))
    | with_reducible apply keyUsage_after
    | with_reducible apply logEvent_after
    | with_reducible apply setPage_after
    | split
    | (with_reducible apply After.mk_of; refine AfterK.of ?_; first | with_reducible assumption | with_reducible apply After.ite | (with_reducible refine After.foldl ?_ (fun _ _ _ => ?_)) | with_reducible apply keyUsage_after | with_reducible apply logEvent_after | with_reducible apply setPage_after)

theorem setPipe_after {s₀ s : State} (h₀ : After s₀ s) (p : Pipe) : After s₀ (State.setPipe s p) := by
  unfold State.setPipe
  try dsimp only
  repeat' first
    | with_reducible assumption
    | with_reducible apply After.ite
    | (with_reducible refine After.foldl ?_ (fun _ _ _ => ?_))
    | split
    | (with_reducible apply After.mk_of; refine AfterK.of ?_; first | with_reducible assumption | with_reducible apply After.ite | (with_reducible refine After.foldl ?_ (fun _ _ _ => ?_)))

theorem takeUse_after {s₀ s : State} (h₀ : After s₀ s) (j : JobOf) : After s₀ (State.takeUse s j) := by
  unfold State.takeUse
  try dsimp only
  repeat' first
    | with_reducible assumption
    | with_reducible apply After.ite
    | (with_reducible refine After.foldl ?_ (fun _ _ _ => ?_))
    | with_reducible apply keyEvents_after
    | with_reducible apply setPage_after
    | with_reducible apply updCtx_after
    | split
    | (with_reducible apply After.mk_of; refine AfterK.of ?_; first | with_reducible assumption | with_reducible apply After.ite | (with_reducible refine After.foldl ?_ (fun _ _ _ => ?_)) | with_reducible apply keyEvents_after | with_reducible apply setPage_after | with_reducible apply updCtx_after)

theorem startJob_after {s₀ s : State} (h₀ : After s₀ s) (p : Pipe) (j : Job) : After s₀ (State.startJob s p j) := by
  unfold State.startJob
  try dsimp only
  repeat' first
    | with_reducible assumption
    | with_reducible apply After.ite
    | (with_reducible refine After.foldl ?_ (fun _ _ _ => ?_))
    | with_reducible apply setPipe_after
    | with_reducible apply takeUse_after
    | split
    | (with_reducible apply After.mk_of; refine AfterK.of ?_; first | with_reducible assumption | with_reducible apply After.ite | (with_reducible refine After.foldl ?_ (fun _ _ _ => ?_)) | with_reducible apply setPipe_after | with_reducible apply takeUse_after)

theorem jobArrive_after {s₀ s : State} (h₀ : After s₀ s) (j : Job) : After s₀ (State.jobArrive s j) := by
  unfold State.jobArrive
  try dsimp only
  repeat' first
    | with_reducible assumption
    | with_reducible apply After.ite
    | (with_reducible refine After.foldl ?_ (fun _ _ _ => ?_))
    | with_reducible apply startJob_after
    | split
    | (with_reducible apply After.mk_of; refine AfterK.of ?_; first | with_reducible assumption | with_reducible apply After.ite | (with_reducible refine After.foldl ?_ (fun _ _ _ => ?_)) | with_reducible apply startJob_after)

theorem nextJob_after {s₀ s : State} (h₀ : After s₀ s) (n : Nat) : After s₀ (State.nextJob s n) := by
  unfold State.nextJob
  try dsimp only
  repeat' first
    | with_reducible assumption
    | with_reducible apply After.ite
    | (with_reducible refine After.foldl ?_ (fun _ _ _ => ?_))
    | with_reducible apply startJob_after
    | split
    | (with_reducible apply After.mk_of; refine AfterK.of ?_; first | with_reducible assumption | with_reducible apply After.ite | (with_reducible refine After.foldl ?_ (fun _ _ _ => ?_)) | with_reducible apply startJob_after)

theorem execCipherUrgencyRaise_after {s : State} (job : JobOf) : AfterO s (execCipherUrgencyRaise job s) := by
  have h0 := After.refl s
  unfold execCipherUrgencyRaise
  try dsimp only
  repeat' first
    | with_reducible assumption
    | with_reducible apply AfterO.next
    | with_reducible apply AfterO.ite
    | with_reducible apply After.ite
    | (with_reducible refine After.foldl ?_ (fun _ _ _ => ?_))
    | with_reducible apply jobArrive_after
    | split
    | (with_reducible apply After.mk_of; refine AfterK.of ?_; first | with_reducible assumption | with_reducible apply AfterO.next | with_reducible apply AfterO.ite | with_reducible apply After.ite | (with_reducible refine After.foldl ?_ (fun _ _ _ => ?_)) | with_reducible apply jobArrive_after)

end Sys2Proof.Machine
end

