-- ==== Sys2Proof/Laws/AfterMarks.lean ====
section
/-! SUPPORT. Every operation of Machine/Marks.lean leaves a state after the one it is given. -/

set_option Elab.async false

namespace Sys2Proof.Machine

theorem markNotice_after {s₀ s : State} (h₀ : After s₀ s) (k n : Nat) : After s₀ (State.markNotice s k n) := by
  unfold State.markNotice
  try dsimp only
  repeat' first
    | with_reducible assumption
    | with_reducible apply After.ite
    | (with_reducible refine After.foldl ?_ (fun _ _ _ => ?_))
    | with_reducible apply broadcast_after
    | split
    | (with_reducible apply After.mk_of; refine AfterK.of ?_; first | with_reducible assumption | with_reducible apply After.ite | (with_reducible refine After.foldl ?_ (fun _ _ _ => ?_)) | with_reducible apply broadcast_after)

theorem watchOne_after {s₀ s : State} (h₀ : After s₀ s) (k : Nat) : After s₀ (State.watchOne s k) := by
  unfold State.watchOne
  try dsimp only
  repeat' first
    | with_reducible assumption
    | with_reducible apply After.ite
    | (with_reducible refine After.foldl ?_ (fun _ _ _ => ?_))
    | with_reducible apply alert_after
    | with_reducible apply markNotice_after
    | split
    | (with_reducible apply After.mk_of; refine AfterK.of ?_; first | with_reducible assumption | with_reducible apply After.ite | (with_reducible refine After.foldl ?_ (fun _ _ _ => ?_)) | with_reducible apply alert_after | with_reducible apply markNotice_after)

theorem watch_after {s₀ s : State} (h₀ : After s₀ s)  : After s₀ (State.watch s) := by
  unfold State.watch
  try dsimp only
  repeat' first
    | with_reducible assumption
    | with_reducible apply After.ite
    | (with_reducible refine After.foldl ?_ (fun _ _ _ => ?_))
    | with_reducible apply watchOne_after
    | split
    | (with_reducible apply After.mk_of; refine AfterK.of ?_; first | with_reducible assumption | with_reducible apply After.ite | (with_reducible refine After.foldl ?_ (fun _ _ _ => ?_)) | with_reducible apply watchOne_after)

theorem startMarks_after {s₀ s : State} (h₀ : After s₀ s)  : After s₀ (State.startMarks s) := by
  unfold State.startMarks
  try dsimp only
  repeat' first
    | with_reducible assumption
    | with_reducible apply After.ite
    | (with_reducible refine After.foldl ?_ (fun _ _ _ => ?_))
    | split
    | (with_reducible apply After.mk_of; refine AfterK.of ?_; first | with_reducible assumption | with_reducible apply After.ite | (with_reducible refine After.foldl ?_ (fun _ _ _ => ?_)))

theorem execWatermarkHoldoffEnd_after {s : State} (wm : Nat) : AfterO s (execWatermarkHoldoffEnd wm s) := by
  have h0 := After.refl s
  unfold execWatermarkHoldoffEnd
  try dsimp only
  repeat' first
    | with_reducible assumption
    | with_reducible apply AfterO.next
    | with_reducible apply AfterO.ite
    | with_reducible apply After.ite
    | (with_reducible refine After.foldl ?_ (fun _ _ _ => ?_))
    | with_reducible apply markNotice_after
    | split
    | (with_reducible apply After.mk_of; refine AfterK.of ?_; first | with_reducible assumption | with_reducible apply AfterO.next | with_reducible apply AfterO.ite | with_reducible apply After.ite | (with_reducible refine After.foldl ?_ (fun _ _ _ => ?_)) | with_reducible apply markNotice_after)

end Sys2Proof.Machine
end

