-- ==== Sys2Proof/Laws/AfterTransport.lean ====
section
/-! SUPPORT. Every operation of Machine/Transport.lean leaves a state after the one it is given. -/

set_option Elab.async false

namespace Sys2Proof.Machine

theorem discard_after {s₀ s : State} (h₀ : After s₀ s)  : After s₀ (State.discard s) := by
  unfold State.discard
  try dsimp only
  repeat' first
    | with_reducible assumption
    | with_reducible apply After.ite
    | (with_reducible refine After.foldl ?_ (fun _ _ _ => ?_))
    | split
    | (with_reducible apply After.mk_of; refine AfterK.of ?_; first | with_reducible assumption | with_reducible apply After.ite | (with_reducible refine After.foldl ?_ (fun _ _ _ => ?_)))

theorem answer_after {s₀ s : State} (h₀ : After s₀ s) (p : Path) (sess : Option Nat) (h : Header) (st : Status) (noSession : Bool) (a b : BitVec 64) : After s₀ (State.answer s p sess h st noSession a b) := by
  unfold State.answer
  try dsimp only
  repeat' first
    | with_reducible assumption
    | with_reducible apply After.ite
    | (with_reducible refine After.foldl ?_ (fun _ _ _ => ?_))
    | with_reducible apply sendOnce_after
    | split
    | (with_reducible apply After.mk_of; refine AfterK.of ?_; first | with_reducible assumption | with_reducible apply After.ite | (with_reducible refine After.foldl ?_ (fun _ _ _ => ?_)) | with_reducible apply sendOnce_after)

theorem refuseBackoff_after {s₀ s : State} (h₀ : After s₀ s) (p : Path) (x : Session) (h : Header) : After s₀ (State.refuseBackoff s p x h) := by
  unfold State.refuseBackoff
  try dsimp only
  repeat' first
    | with_reducible assumption
    | with_reducible apply After.ite
    | (with_reducible refine After.foldl ?_ (fun _ _ _ => ?_))
    | with_reducible apply answer_after
    | with_reducible apply updSession_after
    | split
    | (with_reducible apply After.mk_of; refine AfterK.of ?_; first | with_reducible assumption | with_reducible apply After.ite | (with_reducible refine After.foldl ?_ (fun _ _ _ => ?_)) | with_reducible apply answer_after | with_reducible apply updSession_after)

theorem sendAck_after {s₀ s : State} (h₀ : After s₀ s) (p : Path) (x : Ctx) : After s₀ (State.sendAck s p x) := by
  unfold State.sendAck
  try dsimp only
  repeat' first
    | with_reducible assumption
    | with_reducible apply After.ite
    | (with_reducible refine After.foldl ?_ (fun _ _ _ => ?_))
    | with_reducible apply sendFrame_after
    | split
    | (with_reducible apply After.mk_of; refine AfterK.of ?_; first | with_reducible assumption | with_reducible apply After.ite | (with_reducible refine After.foldl ?_ (fun _ _ _ => ?_)) | with_reducible apply sendFrame_after)

theorem complete_after {s₀ s : State} (h₀ : After s₀ s) (x : Ctx) : After s₀ (State.complete s x) := by
  unfold State.complete
  try dsimp only
  repeat' first
    | with_reducible assumption
    | with_reducible apply After.ite
    | (with_reducible refine After.foldl ?_ (fun _ _ _ => ?_))
    | with_reducible apply endStatus_after
    | with_reducible apply updCtx_after
    | with_reducible apply updSession_after
    | split
    | (with_reducible apply After.mk_of; refine AfterK.of ?_; first | with_reducible assumption | with_reducible apply After.ite | (with_reducible refine After.foldl ?_ (fun _ _ _ => ?_)) | with_reducible apply endStatus_after | with_reducible apply updCtx_after | with_reducible apply updSession_after)

theorem place_after {s₀ s : State} (h₀ : After s₀ s) (c : Nat) (p : Path) (h : Header) (data : Bytes) : After s₀ (State.place s c p h data) := by
  unfold State.place
  try dsimp only
  repeat' first
    | with_reducible assumption
    | with_reducible apply After.ite
    | (with_reducible refine After.foldl ?_ (fun _ _ _ => ?_))
    | with_reducible apply complete_after
    | with_reducible apply endStatus_after
    | with_reducible apply sendAck_after
    | with_reducible apply updCtx_after
    | split
    | (with_reducible apply After.mk_of; refine AfterK.of ?_; first | with_reducible assumption | with_reducible apply After.ite | (with_reducible refine After.foldl ?_ (fun _ _ _ => ?_)) | with_reducible apply complete_after | with_reducible apply endStatus_after | with_reducible apply sendAck_after | with_reducible apply updCtx_after)

theorem openAssembly_after {s₀ s : State} (h₀ : After s₀ s) (p : Path) (h : Header) (data : Bytes) (x : Session) (reexec : Bool) : After s₀ (State.openAssembly s p h data x reexec) := by
  unfold State.openAssembly
  try dsimp only
  repeat' first
    | with_reducible assumption
    | with_reducible apply After.ite
    | (with_reducible refine After.foldl ?_ (fun _ _ _ => ?_))
    | with_reducible apply endStatus_after
    | with_reducible apply place_after
    | with_reducible apply updOwner_after
    | (refine nextId_after ?_ (by rfl); first | with_reducible assumption | with_reducible apply After.ite | (with_reducible refine After.foldl ?_ (fun _ _ _ => ?_)) | with_reducible apply endStatus_after | with_reducible apply place_after | with_reducible apply updOwner_after)
    | split
    | (with_reducible apply After.mk_of; refine AfterK.of ?_; first | with_reducible assumption | with_reducible apply After.ite | (with_reducible refine After.foldl ?_ (fun _ _ _ => ?_)) | with_reducible apply endStatus_after | with_reducible apply place_after | with_reducible apply updOwner_after | (refine nextId_after ?_ (by rfl); first | with_reducible assumption | with_reducible apply After.ite | (with_reducible refine After.foldl ?_ (fun _ _ _ => ?_)) | with_reducible apply endStatus_after | with_reducible apply place_after | with_reducible apply updOwner_after))

theorem decideDuplicate_after {s₀ s : State} (h₀ : After s₀ s) (p : Path) (h : Header) (data : Bytes) (x : Session) (e : ReplayEntry) : After s₀ (State.decideDuplicate s p h data x e) := by
  unfold State.decideDuplicate
  try dsimp only
  repeat' first
    | with_reducible assumption
    | with_reducible apply After.ite
    | (with_reducible refine After.foldl ?_ (fun _ _ _ => ?_))
    | with_reducible apply answer_after
    | with_reducible apply openAssembly_after
    | with_reducible apply place_after
    | with_reducible apply refuseBackoff_after
    | split
    | (with_reducible apply After.mk_of; refine AfterK.of ?_; first | with_reducible assumption | with_reducible apply After.ite | (with_reducible refine After.foldl ?_ (fun _ _ _ => ?_)) | with_reducible apply answer_after | with_reducible apply openAssembly_after | with_reducible apply place_after | with_reducible apply refuseBackoff_after)

theorem decideNew_after {s₀ s : State} (h₀ : After s₀ s) (p : Path) (h : Header) (data : Bytes) (x : Session) : After s₀ (State.decideNew s p h data x) := by
  unfold State.decideNew
  try dsimp only
  repeat' first
    | with_reducible assumption
    | with_reducible apply After.ite
    | (with_reducible refine After.foldl ?_ (fun _ _ _ => ?_))
    | with_reducible apply answer_after
    | with_reducible apply openAssembly_after
    | with_reducible apply refuseBackoff_after
    | with_reducible apply updSession_after
    | split
    | (with_reducible apply After.mk_of; refine AfterK.of ?_; first | with_reducible assumption | with_reducible apply After.ite | (with_reducible refine After.foldl ?_ (fun _ _ _ => ?_)) | with_reducible apply answer_after | with_reducible apply openAssembly_after | with_reducible apply refuseBackoff_after | with_reducible apply updSession_after)

theorem decide_after {s₀ s : State} (h₀ : After s₀ s) (p : Path) (h : Header) (data : Bytes) : After s₀ (State.decide s p h data) := by
  unfold State.decide
  try dsimp only
  repeat' first
    | with_reducible assumption
    | with_reducible apply After.ite
    | (with_reducible refine After.foldl ?_ (fun _ _ _ => ?_))
    | with_reducible apply answer_after
    | with_reducible apply decideDuplicate_after
    | with_reducible apply decideNew_after
    | with_reducible apply updSession_after
    | split
    | (with_reducible apply After.mk_of; refine AfterK.of ?_; first | with_reducible assumption | with_reducible apply After.ite | (with_reducible refine After.foldl ?_ (fun _ _ _ => ?_)) | with_reducible apply answer_after | with_reducible apply decideDuplicate_after | with_reducible apply decideNew_after | with_reducible apply updSession_after)

theorem openRequest_after {s₀ s : State} (h₀ : After s₀ s) (p : Path) (h : Header) : After s₀ (State.openRequest s p h) := by
  unfold State.openRequest
  try dsimp only
  repeat' first
    | with_reducible assumption
    | with_reducible apply After.ite
    | (with_reducible refine After.foldl ?_ (fun _ _ _ => ?_))
    | with_reducible apply complete_after
    | (refine nextId_after ?_ (by rfl); first | with_reducible assumption | with_reducible apply After.ite | (with_reducible refine After.foldl ?_ (fun _ _ _ => ?_)) | with_reducible apply complete_after)
    | split
    | (with_reducible apply After.mk_of; refine AfterK.of ?_; first | with_reducible assumption | with_reducible apply After.ite | (with_reducible refine After.foldl ?_ (fun _ _ _ => ?_)) | with_reducible apply complete_after | (refine nextId_after ?_ (by rfl); first | with_reducible assumption | with_reducible apply After.ite | (with_reducible refine After.foldl ?_ (fun _ _ _ => ?_)) | with_reducible apply complete_after))

theorem dropKept_after {s₀ s : State} (h₀ : After s₀ s) (id : Nat) : After s₀ (State.dropKept s id) := by
  unfold State.dropKept
  try dsimp only
  repeat' first
    | with_reducible assumption
    | with_reducible apply After.ite
    | (with_reducible refine After.foldl ?_ (fun _ _ _ => ?_))
    | with_reducible apply foreground_after
    | split
    | (with_reducible apply After.mk_of; refine AfterK.of ?_; first | with_reducible assumption | with_reducible apply After.ite | (with_reducible refine After.foldl ?_ (fun _ _ _ => ?_)) | with_reducible apply foreground_after)

theorem ackArrives_after {s₀ s : State} (h₀ : After s₀ s) (a : AckInfo) : After s₀ (State.ackArrives s a) := by
  unfold State.ackArrives
  try dsimp only
  repeat' first
    | with_reducible assumption
    | with_reducible apply After.ite
    | (with_reducible refine After.foldl ?_ (fun _ _ _ => ?_))
    | with_reducible apply discard_after
    | with_reducible apply dropKept_after
    | with_reducible apply pumpNotices_after
    | split
    | (with_reducible apply After.mk_of; refine AfterK.of ?_; first | with_reducible assumption | with_reducible apply After.ite | (with_reducible refine After.foldl ?_ (fun _ _ _ => ?_)) | with_reducible apply discard_after | with_reducible apply dropKept_after | with_reducible apply pumpNotices_after)

theorem execTransportAck_after {s : State} (ack : AckInfo) : AfterO s (execTransportAck ack s) := by
  have h0 := After.refl s
  unfold execTransportAck
  try dsimp only
  repeat' first
    | with_reducible assumption
    | with_reducible apply AfterO.next
    | with_reducible apply AfterO.ite
    | with_reducible apply After.ite
    | (with_reducible refine After.foldl ?_ (fun _ _ _ => ?_))
    | with_reducible apply ackArrives_after
    | with_reducible apply watch_after
    | split
    | (with_reducible apply After.mk_of; refine AfterK.of ?_; first | with_reducible assumption | with_reducible apply AfterO.next | with_reducible apply AfterO.ite | with_reducible apply After.ite | (with_reducible refine After.foldl ?_ (fun _ _ _ => ?_)) | with_reducible apply ackArrives_after | with_reducible apply watch_after)

theorem retransmitKept_after {s₀ s : State} (h₀ : After s₀ s) (msg : Nat) : After s₀ (State.retransmitKept s msg) := by
  unfold State.retransmitKept
  try dsimp only
  repeat' first
    | with_reducible assumption
    | with_reducible apply After.ite
    | (with_reducible refine After.foldl ?_ (fun _ _ _ => ?_))
    | with_reducible apply sendFrame_after
    | split
    | (with_reducible apply After.mk_of; refine AfterK.of ?_; first | with_reducible assumption | with_reducible apply After.ite | (with_reducible refine After.foldl ?_ (fun _ _ _ => ?_)) | with_reducible apply sendFrame_after)

theorem keptUnanswered_after {s₀ s : State} (h₀ : After s₀ s) (msg : Nat) : After s₀ (State.keptUnanswered s msg) := by
  unfold State.keptUnanswered
  try dsimp only
  repeat' first
    | with_reducible assumption
    | with_reducible apply After.ite
    | (with_reducible refine After.foldl ?_ (fun _ _ _ => ?_))
    | with_reducible apply dropKept_after
    | with_reducible apply journalLate_after
    | with_reducible apply pumpNotices_after
    | split
    | (with_reducible apply After.mk_of; refine AfterK.of ?_; first | with_reducible assumption | with_reducible apply After.ite | (with_reducible refine After.foldl ?_ (fun _ _ _ => ?_)) | with_reducible apply dropKept_after | with_reducible apply journalLate_after | with_reducible apply pumpNotices_after)

theorem execAssemblyTimeout_after {s : State} (c : Nat) : AfterO s (execAssemblyTimeout c s) := by
  have h0 := After.refl s
  unfold execAssemblyTimeout
  try dsimp only
  repeat' first
    | with_reducible assumption
    | with_reducible apply AfterO.next
    | with_reducible apply AfterO.ite
    | with_reducible apply After.ite
    | (with_reducible refine After.foldl ?_ (fun _ _ _ => ?_))
    | with_reducible apply endStatus_after
    | split
    | (with_reducible apply After.mk_of; refine AfterK.of ?_; first | with_reducible assumption | with_reducible apply AfterO.next | with_reducible apply AfterO.ite | with_reducible apply After.ite | (with_reducible refine After.foldl ?_ (fun _ _ _ => ?_)) | with_reducible apply endStatus_after)

theorem execAckCoalesceExpire_after {s : State} (c : Nat) : AfterO s (execAckCoalesceExpire c s) := by
  have h0 := After.refl s
  unfold execAckCoalesceExpire
  try dsimp only
  repeat' first
    | with_reducible assumption
    | with_reducible apply AfterO.next
    | with_reducible apply AfterO.ite
    | with_reducible apply After.ite
    | (with_reducible refine After.foldl ?_ (fun _ _ _ => ?_))
    | with_reducible apply sendAck_after
    | with_reducible apply updCtx_after
    | split
    | (with_reducible apply After.mk_of; refine AfterK.of ?_; first | with_reducible assumption | with_reducible apply AfterO.next | with_reducible apply AfterO.ite | with_reducible apply After.ite | (with_reducible refine After.foldl ?_ (fun _ _ _ => ?_)) | with_reducible apply sendAck_after | with_reducible apply updCtx_after)

theorem freeSession_after {s₀ s : State} (h₀ : After s₀ s) (n : Nat) : After s₀ (State.freeSession s n) := by
  unfold State.freeSession
  try dsimp only
  repeat' first
    | with_reducible assumption
    | with_reducible apply After.ite
    | (with_reducible refine After.foldl ?_ (fun _ _ _ => ?_))
    | with_reducible apply journalLate_after
    | split
    | (with_reducible apply After.mk_of; refine AfterK.of ?_; first | with_reducible assumption | with_reducible apply After.ite | (with_reducible refine After.foldl ?_ (fun _ _ _ => ?_)) | with_reducible apply journalLate_after)

theorem execSessionIdle_after {s : State} (session : Nat) : AfterO s (execSessionIdle session s) := by
  have h0 := After.refl s
  unfold execSessionIdle
  try dsimp only
  repeat' first
    | with_reducible assumption
    | with_reducible apply AfterO.next
    | with_reducible apply AfterO.ite
    | with_reducible apply After.ite
    | (with_reducible refine After.foldl ?_ (fun _ _ _ => ?_))
    | with_reducible apply freeSession_after
    | split
    | (with_reducible apply After.mk_of; refine AfterK.of ?_; first | with_reducible assumption | with_reducible apply AfterO.next | with_reducible apply AfterO.ite | with_reducible apply After.ite | (with_reducible refine After.foldl ?_ (fun _ _ _ => ?_)) | with_reducible apply freeSession_after)

theorem execSessionFree_after {s : State} (session : Nat) : AfterO s (execSessionFree session s) := by
  have h0 := After.refl s
  unfold execSessionFree
  try dsimp only
  repeat' first
    | with_reducible assumption
    | with_reducible apply AfterO.next
    | with_reducible apply AfterO.ite
    | with_reducible apply After.ite
    | (with_reducible refine After.foldl ?_ (fun _ _ _ => ?_))
    | with_reducible apply freeSession_after
    | split
    | (with_reducible apply After.mk_of; refine AfterK.of ?_; first | with_reducible assumption | with_reducible apply AfterO.next | with_reducible apply AfterO.ite | with_reducible apply After.ite | (with_reducible refine After.foldl ?_ (fun _ _ _ => ?_)) | with_reducible apply freeSession_after)

theorem claimed_after {s₀ s : State} (h₀ : After s₀ s) (link : Nat) (a : Addr) (mac : Nat) : After s₀ (State.claimed s link a mac) := by
  unfold State.claimed
  try dsimp only
  repeat' first
    | with_reducible assumption
    | with_reducible apply After.ite
    | (with_reducible refine After.foldl ?_ (fun _ _ _ => ?_))
    | with_reducible apply portEvent_after
    | split
    | (with_reducible apply After.mk_of; refine AfterK.of ?_; first | with_reducible assumption | with_reducible apply After.ite | (with_reducible refine After.foldl ?_ (fun _ _ _ => ?_)) | with_reducible apply portEvent_after)

theorem arpNd_after {s₀ s : State} (h₀ : After s₀ s) (link mac : Nat) (x0 : ArpNd) : After s₀ (State.arpNd s link mac x0) := by
  unfold State.arpNd
  try dsimp only
  repeat' first
    | with_reducible assumption
    | with_reducible apply After.ite
    | (with_reducible refine After.foldl ?_ (fun _ _ _ => ?_))
    | with_reducible apply claimed_after
    | with_reducible apply sendFrame_after
    | split
    | (with_reducible apply After.mk_of; refine AfterK.of ?_; first | with_reducible assumption | with_reducible apply After.ite | (with_reducible refine After.foldl ?_ (fun _ _ _ => ?_)) | with_reducible apply claimed_after | with_reducible apply sendFrame_after)

theorem icmp_after {s₀ s : State} (h₀ : After s₀ s) (link mac : Nat) (src dst : Addr) (x0 : Icmp) : After s₀ (State.icmp s link mac src dst x0) := by
  unfold State.icmp
  try dsimp only
  repeat' first
    | with_reducible assumption
    | with_reducible apply After.ite
    | (with_reducible refine After.foldl ?_ (fun _ _ _ => ?_))
    | with_reducible apply arpNd_after
    | with_reducible apply sendFrame_after
    | split
    | (with_reducible apply After.mk_of; refine AfterK.of ?_; first | with_reducible assumption | with_reducible apply After.ite | (with_reducible refine After.foldl ?_ (fun _ _ _ => ?_)) | with_reducible apply arpNd_after | with_reducible apply sendFrame_after)

theorem takeCredit_after {s₀ s : State} (h₀ : After s₀ s) (p : Initiator → Bool) (credit : BitVec 16) : After s₀ (State.takeCredit s p credit) := by
  unfold State.takeCredit
  try dsimp only
  repeat' first
    | with_reducible assumption
    | split
    | (with_reducible apply After.mk_of; refine AfterK.of ?_; first | with_reducible assumption)

theorem forwardAcked_after {s₀ s : State} (h₀ : After s₀ s) (sess : Nat) (q : BitVec 32) : After s₀ (State.forwardAcked s sess q) := by
  unfold State.forwardAcked
  try dsimp only
  repeat' first
    | with_reducible assumption
    | with_reducible apply After.ite
    | (with_reducible refine After.foldl ?_ (fun _ _ _ => ?_))
    | split
    | (with_reducible apply After.mk_of; refine AfterK.of ?_; first | with_reducible assumption | with_reducible apply After.ite | (with_reducible refine After.foldl ?_ (fun _ _ _ => ?_)))

theorem gkp_after {s₀ s : State} (h₀ : After s₀ s) (p : Path) (payload : Bytes) : After s₀ (State.gkp s p payload) := by
  unfold State.gkp
  try dsimp only
  repeat' first
    | with_reducible assumption
    | with_reducible apply After.ite
    | (with_reducible refine After.foldl ?_ (fun _ _ _ => ?_))
    | with_reducible apply ackArrives_after
    | with_reducible apply decide_after
    | with_reducible apply discard_after
    | with_reducible apply forwardAcked_after
    | with_reducible apply openRequest_after
    | with_reducible apply sendFrame_after
    | with_reducible apply updSession_after
    | with_reducible apply takeCredit_after
    | split
    | (with_reducible apply After.mk_of; refine AfterK.of ?_; first | with_reducible assumption | with_reducible apply takeCredit_after | with_reducible apply After.ite | (with_reducible refine After.foldl ?_ (fun _ _ _ => ?_)) | with_reducible apply ackArrives_after | with_reducible apply decide_after | with_reducible apply discard_after | with_reducible apply forwardAcked_after | with_reducible apply openRequest_after | with_reducible apply sendFrame_after | with_reducible apply updSession_after)

theorem ipPayload_after {s₀ s : State} (h₀ : After s₀ s) (link : Nat) (f : Frame) (v6 : Bool) (src dst : Addr) (x0 : IpPayload) : After s₀ (State.ipPayload s link f v6 src dst x0) := by
  unfold State.ipPayload
  try dsimp only
  repeat' first
    | with_reducible assumption
    | with_reducible apply After.ite
    | (with_reducible refine After.foldl ?_ (fun _ _ _ => ?_))
    | with_reducible apply gkp_after
    | with_reducible apply icmp_after
    | with_reducible apply portEvent_after
    | split
    | (with_reducible apply After.mk_of; refine AfterK.of ?_; first | with_reducible assumption | with_reducible apply After.ite | (with_reducible refine After.foldl ?_ (fun _ _ _ => ?_)) | with_reducible apply gkp_after | with_reducible apply icmp_after | with_reducible apply portEvent_after)

theorem pauseFrame_after {s₀ s : State} (h₀ : After s₀ s) (link quanta : Nat) : After s₀ (State.pauseFrame s link quanta) := by
  unfold State.pauseFrame
  try dsimp only
  repeat' first
    | with_reducible assumption
    | with_reducible apply After.ite
    | (with_reducible refine After.foldl ?_ (fun _ _ _ => ?_))
    | with_reducible apply pause_after
    | split
    | (with_reducible apply After.mk_of; refine AfterK.of ?_; first | with_reducible assumption | with_reducible apply After.ite | (with_reducible refine After.foldl ?_ (fun _ _ _ => ?_)) | with_reducible apply pause_after)

theorem pfcFrame_after {s₀ s : State} (h₀ : After s₀ s) (link : Nat) (enable : BitVec 8) (quanta : List Nat) : After s₀ (State.pfcFrame s link enable quanta) := by
  unfold State.pfcFrame
  try dsimp only
  repeat' first
    | with_reducible assumption
    | with_reducible apply After.ite
    | (with_reducible refine After.foldl ?_ (fun _ _ _ => ?_))
    | with_reducible apply pause_after
    | split
    | (with_reducible apply After.mk_of; refine AfterK.of ?_; first | with_reducible assumption | with_reducible apply After.ite | (with_reducible refine After.foldl ?_ (fun _ _ _ => ?_)) | with_reducible apply pause_after)

theorem frameL3_after {s₀ s : State} (h₀ : After s₀ s) (link : Nat) (f : Frame) : After s₀ (State.frameL3 s link f) := by
  unfold State.frameL3
  try dsimp only
  repeat' first
    | with_reducible assumption
    | with_reducible apply After.ite
    | (with_reducible refine After.foldl ?_ (fun _ _ _ => ?_))
    | with_reducible apply arpNd_after
    | with_reducible apply icmp_after
    | with_reducible apply ipPayload_after
    | with_reducible apply pause_after
    | with_reducible apply pauseFrame_after
    | with_reducible apply pfcFrame_after
    | with_reducible apply portEvent_after
    | with_reducible apply wake_after
    | split
    | (with_reducible apply After.mk_of; refine AfterK.of ?_; first | with_reducible assumption | with_reducible apply After.ite | (with_reducible refine After.foldl ?_ (fun _ _ _ => ?_)) | with_reducible apply arpNd_after | with_reducible apply icmp_after | with_reducible apply ipPayload_after | with_reducible apply pause_after | with_reducible apply pauseFrame_after | with_reducible apply pfcFrame_after | with_reducible apply portEvent_after | with_reducible apply wake_after)

theorem execFrameReceive_after {s : State} (link : Nat) (frame : Frame) : AfterO s (execFrameReceive link frame s) := by
  have h0 := After.refl s
  unfold execFrameReceive
  try dsimp only
  repeat' first
    | with_reducible assumption
    | with_reducible apply AfterO.next
    | with_reducible apply AfterO.ite
    | with_reducible apply After.ite
    | (with_reducible refine After.foldl ?_ (fun _ _ _ => ?_))
    | with_reducible apply frameL3_after
    | with_reducible apply portEvent_after
    | with_reducible apply watch_after
    | split
    | (with_reducible apply After.mk_of; refine AfterK.of ?_; first | with_reducible assumption | with_reducible apply AfterO.next | with_reducible apply AfterO.ite | with_reducible apply After.ite | (with_reducible refine After.foldl ?_ (fun _ _ _ => ?_)) | with_reducible apply frameL3_after | with_reducible apply portEvent_after | with_reducible apply watch_after)

end Sys2Proof.Machine
end

