-- ==== Sys2Proof/Laws/AfterCoherence.lean ====
section
/-! SUPPORT. Every operation of Machine/Coherence.lean leaves a state after the one it is given. -/

set_option Elab.async false

namespace Sys2Proof.Machine

theorem homes_after {s₀ s : State} (h₀ : After s₀ s) (c : Coherence) : After s₀ (State.homes s c) := by
  unfold State.homes
  try dsimp only
  repeat' first
    | with_reducible assumption
    | with_reducible apply After.ite
    | (with_reducible refine After.foldl ?_ (fun _ _ _ => ?_))
    | split
    | (with_reducible apply After.mk_of; refine AfterK.of ?_; first | with_reducible assumption | with_reducible apply After.ite | (with_reducible refine After.foldl ?_ (fun _ _ _ => ?_)))

theorem cohWrite_after {s₀ s : State} (h₀ : After s₀ s) (slice bucket : Nat) : After s₀ (State.cohWrite s slice bucket) := by
  unfold State.cohWrite
  try dsimp only
  repeat' first
    | with_reducible assumption
    | with_reducible apply After.ite
    | (with_reducible refine After.foldl ?_ (fun _ _ _ => ?_))
    | split
    | (with_reducible apply After.mk_of; refine AfterK.of ?_; first | with_reducible assumption | with_reducible apply After.ite | (with_reducible refine After.foldl ?_ (fun _ _ _ => ?_)))

theorem request_after {s₀ s : State} (h₀ : After s₀ s) (slice bucket : Nat) (excl : Bool) : After s₀ (State.request s slice bucket excl) := by
  unfold State.request
  try dsimp only
  repeat' first
    | with_reducible assumption
    | with_reducible apply After.ite
    | (with_reducible refine After.foldl ?_ (fun _ _ _ => ?_))
    | with_reducible apply homes_after
    | split
    | (with_reducible apply After.mk_of; refine AfterK.of ?_; first | with_reducible assumption | with_reducible apply After.ite | (with_reducible refine After.foldl ?_ (fun _ _ _ => ?_)) | with_reducible apply homes_after)

theorem execReadS_after {s : State} (slice bucket : Nat) : AfterO s (execReadS slice bucket s) := by
  have h0 := After.refl s
  unfold execReadS
  try dsimp only
  repeat' first
    | with_reducible assumption
    | with_reducible apply AfterO.next
    | with_reducible apply AfterO.ite
    | with_reducible apply After.ite
    | (with_reducible refine After.foldl ?_ (fun _ _ _ => ?_))
    | with_reducible apply request_after
    | split
    | (with_reducible apply After.mk_of; refine AfterK.of ?_; first | with_reducible assumption | with_reducible apply AfterO.next | with_reducible apply AfterO.ite | with_reducible apply After.ite | (with_reducible refine After.foldl ?_ (fun _ _ _ => ?_)) | with_reducible apply request_after)

theorem execReadE_after {s : State} (slice bucket : Nat) : AfterO s (execReadE slice bucket s) := by
  have h0 := After.refl s
  unfold execReadE
  try dsimp only
  repeat' first
    | with_reducible assumption
    | with_reducible apply AfterO.next
    | with_reducible apply AfterO.ite
    | with_reducible apply After.ite
    | (with_reducible refine After.foldl ?_ (fun _ _ _ => ?_))
    | with_reducible apply request_after
    | split
    | (with_reducible apply After.mk_of; refine AfterK.of ?_; first | with_reducible assumption | with_reducible apply AfterO.next | with_reducible apply AfterO.ite | with_reducible apply After.ite | (with_reducible refine After.foldl ?_ (fun _ _ _ => ?_)) | with_reducible apply request_after)

theorem landBack_after {s₀ s : State} (h₀ : After s₀ s) (w : Nat × Nat × Option Nat) : After s₀ (State.landBack s w) := by
  unfold State.landBack
  try dsimp only
  repeat' first
    | with_reducible assumption
    | with_reducible apply After.ite
    | (with_reducible refine After.foldl ?_ (fun _ _ _ => ?_))
    | with_reducible apply homes_after
    | split
    | (with_reducible apply After.mk_of; refine AfterK.of ?_; first | with_reducible assumption | with_reducible apply After.ite | (with_reducible refine After.foldl ?_ (fun _ _ _ => ?_)) | with_reducible apply homes_after)

theorem execWriteBack_after {s : State} (slice bucket : Nat) : AfterO s (execWriteBack slice bucket s) := by
  have h0 := After.refl s
  unfold execWriteBack
  try dsimp only
  repeat' first
    | with_reducible assumption
    | with_reducible apply AfterO.next
    | with_reducible apply AfterO.ite
    | with_reducible apply After.ite
    | (with_reducible refine After.foldl ?_ (fun _ _ _ => ?_))
    | with_reducible apply landBack_after
    | split
    | (with_reducible apply After.mk_of; refine AfterK.of ?_; first | with_reducible assumption | with_reducible apply AfterO.next | with_reducible apply AfterO.ite | with_reducible apply After.ite | (with_reducible refine After.foldl ?_ (fun _ _ _ => ?_)) | with_reducible apply landBack_after)

theorem execWriteBackClean_after {s : State} (slice bucket : Nat) : AfterO s (execWriteBackClean slice bucket s) := by
  have h0 := After.refl s
  unfold execWriteBackClean
  try dsimp only
  repeat' first
    | with_reducible assumption
    | with_reducible apply AfterO.next
    | with_reducible apply AfterO.ite
    | with_reducible apply After.ite
    | (with_reducible refine After.foldl ?_ (fun _ _ _ => ?_))
    | with_reducible apply landBack_after
    | split
    | (with_reducible apply After.mk_of; refine AfterK.of ?_; first | with_reducible assumption | with_reducible apply AfterO.next | with_reducible apply AfterO.ite | with_reducible apply After.ite | (with_reducible refine After.foldl ?_ (fun _ _ _ => ?_)) | with_reducible apply landBack_after)

theorem execEvict_after {s : State} (slice bucket : Nat) : AfterO s (execEvict slice bucket s) := by
  have h0 := After.refl s
  unfold execEvict
  try dsimp only
  repeat' first
    | with_reducible assumption
    | with_reducible apply AfterO.next
    | with_reducible apply AfterO.ite
    | with_reducible apply After.ite
    | (with_reducible refine After.foldl ?_ (fun _ _ _ => ?_))
    | split
    | (with_reducible apply After.mk_of; refine AfterK.of ?_; first | with_reducible assumption | with_reducible apply AfterO.next | with_reducible apply AfterO.ite | with_reducible apply After.ite | (with_reducible refine After.foldl ?_ (fun _ _ _ => ?_)))

theorem snoop_after {s₀ s : State} (h₀ : After s₀ s) (slice bucket : Nat) (inv : Bool) : After s₀ (State.snoop s slice bucket inv) := by
  unfold State.snoop
  try dsimp only
  repeat' first
    | with_reducible assumption
    | with_reducible apply After.ite
    | (with_reducible refine After.foldl ?_ (fun _ _ _ => ?_))
    | split
    | (with_reducible apply After.mk_of; refine AfterK.of ?_; first | with_reducible assumption | with_reducible apply After.ite | (with_reducible refine After.foldl ?_ (fun _ _ _ => ?_)))

theorem execSnoopInv_after {s : State} (slice bucket : Nat) : AfterO s (execSnoopInv slice bucket s) := by
  have h0 := After.refl s
  unfold execSnoopInv
  try dsimp only
  repeat' first
    | with_reducible assumption
    | with_reducible apply AfterO.next
    | with_reducible apply AfterO.ite
    | with_reducible apply After.ite
    | (with_reducible refine After.foldl ?_ (fun _ _ _ => ?_))
    | with_reducible apply snoop_after
    | split
    | (with_reducible apply After.mk_of; refine AfterK.of ?_; first | with_reducible assumption | with_reducible apply AfterO.next | with_reducible apply AfterO.ite | with_reducible apply After.ite | (with_reducible refine After.foldl ?_ (fun _ _ _ => ?_)) | with_reducible apply snoop_after)

theorem execSnoopFetch_after {s : State} (slice bucket : Nat) : AfterO s (execSnoopFetch slice bucket s) := by
  have h0 := After.refl s
  unfold execSnoopFetch
  try dsimp only
  repeat' first
    | with_reducible assumption
    | with_reducible apply AfterO.next
    | with_reducible apply AfterO.ite
    | with_reducible apply After.ite
    | (with_reducible refine After.foldl ?_ (fun _ _ _ => ?_))
    | with_reducible apply snoop_after
    | split
    | (with_reducible apply After.mk_of; refine AfterK.of ?_; first | with_reducible assumption | with_reducible apply AfterO.next | with_reducible apply AfterO.ite | with_reducible apply After.ite | (with_reducible refine After.foldl ?_ (fun _ _ _ => ?_)) | with_reducible apply snoop_after)

theorem snoopAnswer_after {s₀ s : State} (h₀ : After s₀ s) (a : Nat × Nat × Option (Option Nat)) : After s₀ (State.snoopAnswer s a) := by
  unfold State.snoopAnswer
  try dsimp only
  repeat' first
    | with_reducible assumption
    | with_reducible apply After.ite
    | (with_reducible refine After.foldl ?_ (fun _ _ _ => ?_))
    | with_reducible apply homes_after
    | split
    | (with_reducible apply After.mk_of; refine AfterK.of ?_; first | with_reducible assumption | with_reducible apply After.ite | (with_reducible refine After.foldl ?_ (fun _ _ _ => ?_)) | with_reducible apply homes_after)

theorem execPresentClean_after {s : State} (slice bucket : Nat) : AfterO s (execPresentClean slice bucket s) := by
  have h0 := After.refl s
  unfold execPresentClean
  try dsimp only
  repeat' first
    | with_reducible assumption
    | with_reducible apply AfterO.next
    | with_reducible apply AfterO.ite
    | with_reducible apply After.ite
    | (with_reducible refine After.foldl ?_ (fun _ _ _ => ?_))
    | with_reducible apply snoopAnswer_after
    | split
    | (with_reducible apply After.mk_of; refine AfterK.of ?_; first | with_reducible assumption | with_reducible apply AfterO.next | with_reducible apply AfterO.ite | with_reducible apply After.ite | (with_reducible refine After.foldl ?_ (fun _ _ _ => ?_)) | with_reducible apply snoopAnswer_after)

theorem execPresentData_after {s : State} (slice bucket : Nat) : AfterO s (execPresentData slice bucket s) := by
  have h0 := After.refl s
  unfold execPresentData
  try dsimp only
  repeat' first
    | with_reducible assumption
    | with_reducible apply AfterO.next
    | with_reducible apply AfterO.ite
    | with_reducible apply After.ite
    | (with_reducible refine After.foldl ?_ (fun _ _ _ => ?_))
    | with_reducible apply snoopAnswer_after
    | split
    | (with_reducible apply After.mk_of; refine AfterK.of ?_; first | with_reducible assumption | with_reducible apply AfterO.next | with_reducible apply AfterO.ite | with_reducible apply After.ite | (with_reducible refine After.foldl ?_ (fun _ _ _ => ?_)) | with_reducible apply snoopAnswer_after)

theorem execNotPresent_after {s : State} (slice bucket : Nat) : AfterO s (execNotPresent slice bucket s) := by
  have h0 := After.refl s
  unfold execNotPresent
  try dsimp only
  repeat' first
    | with_reducible assumption
    | with_reducible apply AfterO.next
    | with_reducible apply AfterO.ite
    | with_reducible apply After.ite
    | (with_reducible refine After.foldl ?_ (fun _ _ _ => ?_))
    | with_reducible apply snoopAnswer_after
    | split
    | (with_reducible apply After.mk_of; refine AfterK.of ?_; first | with_reducible assumption | with_reducible apply AfterO.next | with_reducible apply AfterO.ite | with_reducible apply After.ite | (with_reducible refine After.foldl ?_ (fun _ _ _ => ?_)) | with_reducible apply snoopAnswer_after)

end Sys2Proof.Machine
end

