-- ==== Sys2Proof/Laws/AfterPath.lean ====
section
/-! SUPPORT. Every operation of Machine/Path.lean leaves a state after the one it is given. -/

set_option Elab.async false

namespace Sys2Proof.Machine

theorem decideReply_after {s₀ s : State} (h₀ : After s₀ s) (c : Nat) (r : Reply) : After s₀ (State.decideReply s c r) := by
  unfold State.decideReply
  try dsimp only
  repeat' first
    | with_reducible assumption
    | with_reducible apply After.ite
    | (with_reducible refine After.foldl ?_ (fun _ _ _ => ?_))
    | with_reducible apply updCtx_after
    | split
    | (with_reducible apply After.mk_of; refine AfterK.of ?_; first | with_reducible assumption | with_reducible apply After.ite | (with_reducible refine After.foldl ?_ (fun _ _ _ => ?_)) | with_reducible apply updCtx_after)

theorem noteLookup_after {s₀ s : State} (h₀ : After s₀ s) (ks : Nat) (fp : BitVec 128) (e : Option Entry) : After s₀ (State.noteLookup s ks fp e) := by
  unfold State.noteLookup
  try dsimp only
  repeat' first
    | with_reducible assumption
    | with_reducible apply After.ite
    | (with_reducible refine After.foldl ?_ (fun _ _ _ => ?_))
    | with_reducible apply qEnter_after
    | split
    | (with_reducible apply After.mk_of; refine AfterK.of ?_; first | with_reducible assumption | with_reducible apply After.ite | (with_reducible refine After.foldl ?_ (fun _ _ _ => ?_)) | with_reducible apply qEnter_after)

theorem grantGet_after {s₀ s : State} (h₀ : After s₀ s) (x : Ctx) : After s₀ (State.grantGet s x) := by
  unfold State.grantGet
  try dsimp only
  repeat' first
    | with_reducible assumption
    | with_reducible apply After.ite
    | (with_reducible refine After.foldl ?_ (fun _ _ _ => ?_))
    | with_reducible apply decideReply_after
    | with_reducible apply updCtx_after
    | split
    | (with_reducible apply After.mk_of; refine AfterK.of ?_; first | with_reducible assumption | with_reducible apply After.ite | (with_reducible refine After.foldl ?_ (fun _ _ _ => ?_)) | with_reducible apply decideReply_after | with_reducible apply updCtx_after)

theorem grantHead_after {s₀ s : State} (h₀ : After s₀ s) (x : Ctx) : After s₀ (State.grantHead s x) := by
  unfold State.grantHead
  try dsimp only
  repeat' first
    | with_reducible assumption
    | with_reducible apply After.ite
    | (with_reducible refine After.foldl ?_ (fun _ _ _ => ?_))
    | with_reducible apply decideReply_after
    | split
    | (with_reducible apply After.mk_of; refine AfterK.of ?_; first | with_reducible assumption | with_reducible apply After.ite | (with_reducible refine After.foldl ?_ (fun _ _ _ => ?_)) | with_reducible apply decideReply_after)

theorem grantVersions_after {s₀ s : State} (h₀ : After s₀ s) (x : Ctx) : After s₀ (State.grantVersions s x) := by
  unfold State.grantVersions
  try dsimp only
  repeat' first
    | with_reducible assumption
    | with_reducible apply After.ite
    | (with_reducible refine After.foldl ?_ (fun _ _ _ => ?_))
    | with_reducible apply decideReply_after
    | with_reducible apply updCtx_after
    | split
    | (with_reducible apply After.mk_of; refine AfterK.of ?_; first | with_reducible assumption | with_reducible apply After.ite | (with_reducible refine After.foldl ?_ (fun _ _ _ => ?_)) | with_reducible apply decideReply_after | with_reducible apply updCtx_after)

theorem program_after {s₀ s : State} (h : After s₀ s) (x : Ctx) (k : Keyspace) : After s₀ (State.program s x k) := by
  unfold State.program
  dsimp only
  split
  · exact toPhase_after h _ _
  · rename_i t g a l e
    have ht : After s₀ t := by
      split at e
      · rename_i e'
        injection e with e
        subst e
        exact takeSlots_after h e'
      · split at e
        · exact takeSlots_after h e
        · cases e
    exact updCtx_after (updOwner_after ht _ _) _ _

theorem proceed_after {s₀ s : State} (h₀ : After s₀ s) (x : Ctx) : After s₀ (State.proceed s x) := by
  unfold State.proceed
  try dsimp only
  repeat' first
    | with_reducible assumption
    | with_reducible apply After.ite
    | (with_reducible refine After.foldl ?_ (fun _ _ _ => ?_))
    | with_reducible apply endCmd_after
    | with_reducible apply endStatus_after
    | with_reducible apply program_after
    | with_reducible apply toPhase_after
    | split
    | (with_reducible apply After.mk_of; refine AfterK.of ?_; first | with_reducible assumption | with_reducible apply After.ite | (with_reducible refine After.foldl ?_ (fun _ _ _ => ?_)) | with_reducible apply endCmd_after | with_reducible apply endStatus_after | with_reducible apply program_after | with_reducible apply toPhase_after)

theorem grantWrite_after {s₀ s : State} (h₀ : After s₀ s) (x : Ctx) : After s₀ (State.grantWrite s x) := by
  unfold State.grantWrite
  try dsimp only
  repeat' first
    | with_reducible assumption
    | with_reducible apply After.ite
    | (with_reducible refine After.foldl ?_ (fun _ _ _ => ?_))
    | with_reducible apply endCmd_after
    | with_reducible apply endStatus_after
    | with_reducible apply heatUp_after
    | with_reducible apply logEvent_after
    | with_reducible apply proceed_after
    | with_reducible apply qTentative_after
    | with_reducible apply updCtx_after
    | split
    | (with_reducible apply After.mk_of; refine AfterK.of ?_; first | with_reducible assumption | with_reducible apply After.ite | (with_reducible refine After.foldl ?_ (fun _ _ _ => ?_)) | with_reducible apply endCmd_after | with_reducible apply endStatus_after | with_reducible apply heatUp_after | with_reducible apply logEvent_after | with_reducible apply proceed_after | with_reducible apply qTentative_after | with_reducible apply updCtx_after)

theorem granted_after {s₀ s : State} (h₀ : After s₀ s) (x : Ctx) : After s₀ (State.granted s x) := by
  unfold State.granted
  try dsimp only
  repeat' first
    | with_reducible assumption
    | with_reducible apply After.ite
    | (with_reducible refine After.foldl ?_ (fun _ _ _ => ?_))
    | with_reducible apply grantGet_after
    | with_reducible apply grantHead_after
    | with_reducible apply grantVersions_after
    | with_reducible apply grantWrite_after
    | with_reducible apply noteLookup_after
    | split
    | (with_reducible apply After.mk_of; refine AfterK.of ?_; first | with_reducible assumption | with_reducible apply After.ite | (with_reducible refine After.foldl ?_ (fun _ _ _ => ?_)) | with_reducible apply grantGet_after | with_reducible apply grantHead_after | with_reducible apply grantVersions_after | with_reducible apply grantWrite_after | with_reducible apply noteLookup_after)

theorem settleN_after {s₀ s : State} (h : After s₀ s) (fuel : Nat) : After s₀ (State.settleN fuel s) := by
  induction fuel generalizing s with
  | zero => exact h
  | succ n ih =>
    unfold State.settleN
    split
    · exact ih (granted_after h _)
    · exact h

theorem settle_after {s₀ s : State} (h₀ : After s₀ s)  : After s₀ (State.settle s) := by
  unfold State.settle
  try dsimp only
  repeat' first
    | with_reducible assumption
    | with_reducible apply After.ite
    | (with_reducible refine After.foldl ?_ (fun _ _ _ => ?_))
    | with_reducible apply settleN_after
    | with_reducible apply watch_after
    | split
    | (with_reducible apply After.mk_of; refine AfterK.of ?_; first | with_reducible assumption | with_reducible apply After.ite | (with_reducible refine After.foldl ?_ (fun _ _ _ => ?_)) | with_reducible apply settleN_after | with_reducible apply watch_after)

theorem retrySpace_after {s₀ s : State} (h₀ : After s₀ s)  : After s₀ (State.retrySpace s) := by
  unfold State.retrySpace
  try dsimp only
  repeat' first
    | with_reducible assumption
    | with_reducible apply After.ite
    | (with_reducible refine After.foldl ?_ (fun _ _ _ => ?_))
    | with_reducible apply proceed_after
    | split
    | (with_reducible apply After.mk_of; refine AfterK.of ?_; first | with_reducible assumption | with_reducible apply After.ite | (with_reducible refine After.foldl ?_ (fun _ _ _ => ?_)) | with_reducible apply proceed_after)

theorem finishRead_after {s₀ s : State} (h₀ : After s₀ s) (x : Ctx) : After s₀ (State.finishRead s x) := by
  unfold State.finishRead
  try dsimp only
  repeat' first
    | with_reducible assumption
    | with_reducible apply After.ite
    | (with_reducible refine After.foldl ?_ (fun _ _ _ => ?_))
    | with_reducible apply cachePut_after
    | with_reducible apply decideReply_after
    | with_reducible apply digestEvent_after
    | with_reducible apply updCtx_after
    | split
    | (with_reducible apply After.mk_of; refine AfterK.of ?_; first | with_reducible assumption | with_reducible apply After.ite | (with_reducible refine After.foldl ?_ (fun _ _ _ => ?_)) | with_reducible apply cachePut_after | with_reducible apply decideReply_after | with_reducible apply digestEvent_after | with_reducible apply updCtx_after)

theorem readAll_after {s₀ s : State} (h : After s₀ s) (x : Ctx) (o : ReadOutcome) : After s₀ (State.readAll s x o).2 := by
  unfold State.readAll
  have key : ∀ (l : List (Nat × Nat × Nat)) (a : Bool × State), After s₀ a.2 → After s₀ (l.foldl (fun a p =>
      match a.2.rec? p.1 with
      | none => a
      | some r =>
        let q := a.2.readRec r o
        (a.1 && q.1, if q.1 then q.2 else q.2.poisonRec p.1)) a).2 := by
    intro l
    induction l with
    | nil => exact fun a ha => ha
    | cons p l ih =>
      intro a ha
      rw [List.foldl_cons]
      apply ih
      split
      · exact ha
      · dsimp only
        split
        · exact readRec_after ha _ _
        · exact poisonRec_after (readRec_after ha _ _) _
  exact key _ _ h

theorem execPageReadComplete_after {s : State} (c : Nat) (outcome : ReadOutcome) : AfterO s (execPageReadComplete c outcome s) := by
  have h0 := After.refl s
  unfold execPageReadComplete
  try dsimp only
  repeat' first
    | with_reducible assumption
    | with_reducible apply AfterO.next
    | with_reducible apply AfterO.ite
    | with_reducible apply After.ite
    | (with_reducible refine After.foldl ?_ (fun _ _ _ => ?_))
    | with_reducible apply decideReply_after
    | with_reducible apply finishRead_after
    | with_reducible apply granted_after
    | with_reducible apply readAll_after
    | with_reducible apply toPhase_after
    | with_reducible apply updCtx_after
    | with_reducible apply updOwner_after
    | split
    | (with_reducible apply After.mk_of; refine AfterK.of ?_; first | with_reducible assumption | with_reducible apply AfterO.next | with_reducible apply AfterO.ite | with_reducible apply After.ite | (with_reducible refine After.foldl ?_ (fun _ _ _ => ?_)) | with_reducible apply decideReply_after | with_reducible apply finishRead_after | with_reducible apply granted_after | with_reducible apply readAll_after | with_reducible apply toPhase_after | with_reducible apply updCtx_after | with_reducible apply updOwner_after)

theorem sealWrite_after {s₀ s : State} (h₀ : After s₀ s) (x : Ctx) : After s₀ (State.sealWrite s x) := by
  unfold State.sealWrite
  try dsimp only
  repeat' first
    | with_reducible assumption
    | with_reducible apply After.ite
    | (with_reducible refine After.foldl ?_ (fun _ _ _ => ?_))
    | with_reducible apply endStatus_after
    | with_reducible apply program_after
    | with_reducible apply updCtx_after
    | split
    | (with_reducible apply After.mk_of; refine AfterK.of ?_; first | with_reducible assumption | with_reducible apply After.ite | (with_reducible refine After.foldl ?_ (fun _ _ _ => ?_)) | with_reducible apply endStatus_after | with_reducible apply program_after | with_reducible apply updCtx_after)

theorem execCipherJobArrive_after {s : State} (job : JobOf) : AfterO s (execCipherJobArrive job s) := by
  have h0 := After.refl s
  unfold execCipherJobArrive
  try dsimp only
  repeat' first
    | with_reducible assumption
    | with_reducible apply AfterO.next
    | with_reducible apply AfterO.ite
    | with_reducible apply After.ite
    | (with_reducible refine After.foldl ?_ (fun _ _ _ => ?_))
    | with_reducible apply jobArrive_after
    | with_reducible apply watch_after
    | split
    | (with_reducible apply After.mk_of; refine AfterK.of ?_; first | with_reducible assumption | with_reducible apply AfterO.next | with_reducible apply AfterO.ite | with_reducible apply After.ite | (with_reducible refine After.foldl ?_ (fun _ _ _ => ?_)) | with_reducible apply jobArrive_after | with_reducible apply watch_after)

theorem execCipherJobEnd_after {s : State} (pipe : Nat) : AfterO s (execCipherJobEnd pipe s) := by
  have h0 := After.refl s
  unfold execCipherJobEnd
  try dsimp only
  repeat' first
    | with_reducible assumption
    | with_reducible apply AfterO.next
    | with_reducible apply AfterO.ite
    | with_reducible apply After.ite
    | (with_reducible refine After.foldl ?_ (fun _ _ _ => ?_))
    | with_reducible apply finishRead_after
    | with_reducible apply granted_after
    | with_reducible apply nextJob_after
    | with_reducible apply sealWrite_after
    | with_reducible apply setPipe_after
    | with_reducible apply settle_after
    | split
    | (with_reducible apply After.mk_of; refine AfterK.of ?_; first | with_reducible assumption | with_reducible apply AfterO.next | with_reducible apply AfterO.ite | with_reducible apply After.ite | (with_reducible refine After.foldl ?_ (fun _ _ _ => ?_)) | with_reducible apply finishRead_after | with_reducible apply granted_after | with_reducible apply nextJob_after | with_reducible apply sealWrite_after | with_reducible apply setPipe_after | with_reducible apply settle_after)

theorem dequeue_after {s₀ s : State} (h₀ : After s₀ s) (x : Ctx) : After s₀ (State.dequeue s x) := by
  unfold State.dequeue
  try dsimp only
  repeat' first
    | with_reducible assumption
    | with_reducible apply After.ite
    | (with_reducible refine After.foldl ?_ (fun _ _ _ => ?_))
    | with_reducible apply updSession_after
    | split
    | (with_reducible apply After.mk_of; refine AfterK.of ?_; first | with_reducible assumption | with_reducible apply After.ite | (with_reducible refine After.foldl ?_ (fun _ _ _ => ?_)) | with_reducible apply updSession_after)

theorem enterMove_after {s₀ s : State} (h₀ : After s₀ s) (kind : MoveKind) (loc : Nat) : After s₀ (State.enterMove s kind loc) := by
  unfold State.enterMove
  try dsimp only
  repeat' first
    | with_reducible assumption
    | with_reducible apply After.ite
    | (with_reducible refine After.foldl ?_ (fun _ _ _ => ?_))
    | with_reducible apply lockEnter_after
    | split
    | (with_reducible apply After.mk_of; refine AfterK.of ?_; first | with_reducible assumption | with_reducible apply After.ite | (with_reducible refine After.foldl ?_ (fun _ _ _ => ?_)) | with_reducible apply lockEnter_after)

theorem finishMove_after {s₀ s : State} (h₀ : After s₀ s) (kind : MoveKind) (loc : Nat) : After s₀ (State.finishMove s kind loc) := by
  unfold State.finishMove
  try dsimp only
  repeat' first
    | with_reducible assumption
    | with_reducible apply After.ite
    | (with_reducible refine After.foldl ?_ (fun _ _ _ => ?_))
    | with_reducible apply lockLeave_after
    | with_reducible apply relocate_after
    | split
    | (with_reducible apply After.mk_of; refine AfterK.of ?_; first | with_reducible assumption | with_reducible apply After.ite | (with_reducible refine After.foldl ?_ (fun _ _ _ => ?_)) | with_reducible apply lockLeave_after | with_reducible apply relocate_after)

theorem moveNow_after {s₀ s : State} (h₀ : After s₀ s) (kind : MoveKind) (loc : Nat) : After s₀ (State.moveNow s kind loc) := by
  unfold State.moveNow
  try dsimp only
  repeat' first
    | with_reducible assumption
    | with_reducible apply After.ite
    | (with_reducible refine After.foldl ?_ (fun _ _ _ => ?_))
    | with_reducible apply enterMove_after
    | with_reducible apply finishMove_after
    | split
    | (with_reducible apply After.mk_of; refine AfterK.of ?_; first | with_reducible assumption | with_reducible apply After.ite | (with_reducible refine After.foldl ?_ (fun _ _ _ => ?_)) | with_reducible apply enterMove_after | with_reducible apply finishMove_after)

theorem execRangeLockEnter_after {s : State} (op : LockOp) : AfterO s (execRangeLockEnter op s) := by
  have h0 := After.refl s
  unfold execRangeLockEnter
  try dsimp only
  repeat' first
    | with_reducible assumption
    | with_reducible apply AfterO.next
    | with_reducible apply AfterO.ite
    | with_reducible apply After.ite
    | (with_reducible refine After.foldl ?_ (fun _ _ _ => ?_))
    | with_reducible apply dequeue_after
    | with_reducible apply enterMove_after
    | with_reducible apply lockEnter_after
    | with_reducible apply settle_after
    | with_reducible apply toPhase_after
    | split
    | (with_reducible apply After.mk_of; refine AfterK.of ?_; first | with_reducible assumption | with_reducible apply AfterO.next | with_reducible apply AfterO.ite | with_reducible apply After.ite | (with_reducible refine After.foldl ?_ (fun _ _ _ => ?_)) | with_reducible apply dequeue_after | with_reducible apply enterMove_after | with_reducible apply lockEnter_after | with_reducible apply settle_after | with_reducible apply toPhase_after)

theorem execRangeLockLeave_after {s : State} (op : LockOp) : AfterO s (execRangeLockLeave op s) := by
  have h0 := After.refl s
  unfold execRangeLockLeave
  try dsimp only
  repeat' first
    | with_reducible assumption
    | with_reducible apply AfterO.next
    | with_reducible apply AfterO.ite
    | with_reducible apply After.ite
    | (with_reducible refine After.foldl ?_ (fun _ _ _ => ?_))
    | with_reducible apply finishMove_after
    | with_reducible apply lockLeave_after
    | with_reducible apply settle_after
    | split
    | (with_reducible apply After.mk_of; refine AfterK.of ?_; first | with_reducible assumption | with_reducible apply AfterO.next | with_reducible apply AfterO.ite | with_reducible apply After.ite | (with_reducible refine After.foldl ?_ (fun _ _ _ => ?_)) | with_reducible apply finishMove_after | with_reducible apply lockLeave_after | with_reducible apply settle_after)

end Sys2Proof.Machine
end

