-- ==== Sys2Proof/Laws/AfterRelay.lean ====
section
/-! SUPPORT. Every operation of Machine/Relay.lean leaves a state after the one it is given. -/

set_option Elab.async false

namespace Sys2Proof.Machine

theorem grantSlots_after {s₀ s : State} (h₀ : After s₀ s)  : After s₀ (State.grantSlots s) := by
  unfold State.grantSlots
  try dsimp only
  repeat' first
    | with_reducible assumption
    | with_reducible apply After.ite
    | (with_reducible refine After.foldl ?_ (fun _ _ _ => ?_))
    | with_reducible apply toPhase_after
    | (refine nextId_after ?_ (by rfl); first | with_reducible assumption | with_reducible apply After.ite | (with_reducible refine After.foldl ?_ (fun _ _ _ => ?_)) | with_reducible apply toPhase_after)
    | split
    | (with_reducible apply After.mk_of; refine AfterK.of ?_; first | with_reducible assumption | with_reducible apply After.ite | (with_reducible refine After.foldl ?_ (fun _ _ _ => ?_)) | with_reducible apply toPhase_after | (refine nextId_after ?_ (by rfl); first | with_reducible assumption | with_reducible apply After.ite | (with_reducible refine After.foldl ?_ (fun _ _ _ => ?_)) | with_reducible apply toPhase_after))

theorem updSlot_after {s₀ s : State} (h₀ : After s₀ s) (id : Nat) (f : RelaySlot → RelaySlot) : After s₀ (State.updSlot s id f) := by
  unfold State.updSlot
  try dsimp only
  repeat' first
    | with_reducible assumption
    | with_reducible apply After.ite
    | (with_reducible refine After.foldl ?_ (fun _ _ _ => ?_))
    | split
    | (with_reducible apply After.mk_of; refine AfterK.of ?_; first | with_reducible assumption | with_reducible apply After.ite | (with_reducible refine After.foldl ?_ (fun _ _ _ => ?_)))

theorem initiatorFor_after {s₀ s : State} (h : After s₀ s) (u : Succ) : After s₀ (State.initiatorFor s u).2 := by
  unfold State.initiatorFor
  split
  · exact h
  · dsimp only
    apply After.mk_of
    refine AfterK.of ?_
    exact drawn_after (drawn_after h)

theorem putForward_after {s₀ s : State} (h₀ : After s₀ s) (r : RelaySlot) (route : Nat × Addr) : After s₀ (State.putForward s r route) := by
  unfold State.putForward
  try dsimp only
  repeat' first
    | with_reducible assumption
    | with_reducible apply After.ite
    | (with_reducible refine After.foldl ?_ (fun _ _ _ => ?_))
    | with_reducible apply sendFrame_after
    | with_reducible apply updSlot_after
    | split
    | (with_reducible apply After.mk_of; refine AfterK.of ?_; first | with_reducible assumption | with_reducible apply After.ite | (with_reducible refine After.foldl ?_ (fun _ _ _ => ?_)) | with_reducible apply sendFrame_after | with_reducible apply updSlot_after)

theorem trySend_after {s₀ s : State} (h₀ : After s₀ s) (id : Nat) : After s₀ (State.trySend s id) := by
  unfold State.trySend
  try dsimp only
  repeat' first
    | with_reducible assumption
    | with_reducible apply After.ite
    | (with_reducible refine After.foldl ?_ (fun _ _ _ => ?_))
    | with_reducible apply initiatorFor_after
    | with_reducible apply putForward_after
    | with_reducible apply updSlot_after
    | split
    | (with_reducible apply After.mk_of; refine AfterK.of ?_; first | with_reducible assumption | with_reducible apply After.ite | (with_reducible refine After.foldl ?_ (fun _ _ _ => ?_)) | with_reducible apply initiatorFor_after | with_reducible apply putForward_after | with_reducible apply updSlot_after)

theorem pumpSlots_after {s₀ s : State} (h₀ : After s₀ s)  : After s₀ (State.pumpSlots s) := by
  unfold State.pumpSlots
  try dsimp only
  repeat' first
    | with_reducible assumption
    | with_reducible apply After.ite
    | (with_reducible refine After.foldl ?_ (fun _ _ _ => ?_))
    | with_reducible apply grantSlots_after
    | with_reducible apply trySend_after
    | split
    | (with_reducible apply After.mk_of; refine AfterK.of ?_; first | with_reducible assumption | with_reducible apply After.ite | (with_reducible refine After.foldl ?_ (fun _ _ _ => ?_)) | with_reducible apply grantSlots_after | with_reducible apply trySend_after)

theorem activateSlot_after {s₀ s : State} (h₀ : After s₀ s) (c loc stamp : Nat) (seg : Option Seg) : After s₀ (State.activateSlot s c loc stamp seg) := by
  unfold State.activateSlot
  try dsimp only
  repeat' first
    | with_reducible assumption
    | with_reducible apply After.ite
    | (with_reducible refine After.foldl ?_ (fun _ _ _ => ?_))
    | with_reducible apply pumpSlots_after
    | split
    | (with_reducible apply After.mk_of; refine AfterK.of ?_; first | with_reducible assumption | with_reducible apply After.ite | (with_reducible refine After.foldl ?_ (fun _ _ _ => ?_)) | with_reducible apply pumpSlots_after)

theorem dropSlot_after {s₀ s : State} (h₀ : After s₀ s) (id : Nat) : After s₀ (State.dropSlot s id) := by
  unfold State.dropSlot
  try dsimp only
  repeat' first
    | with_reducible assumption
    | with_reducible apply After.ite
    | (with_reducible refine After.foldl ?_ (fun _ _ _ => ?_))
    | split
    | (with_reducible apply After.mk_of; refine AfterK.of ?_; first | with_reducible assumption | with_reducible apply After.ite | (with_reducible refine After.foldl ?_ (fun _ _ _ => ?_)))

theorem setPair_after {s₀ s : State} (h₀ : After s₀ s) (p : Pair) : After s₀ (State.setPair s p) := by
  unfold State.setPair
  try dsimp only
  repeat' first
    | with_reducible assumption
    | with_reducible apply After.ite
    | (with_reducible refine After.foldl ?_ (fun _ _ _ => ?_))
    | split
    | (with_reducible apply After.mk_of; refine AfterK.of ?_; first | with_reducible assumption | with_reducible apply After.ite | (with_reducible refine After.foldl ?_ (fun _ _ _ => ?_)))

theorem makeBehind_after {s₀ s : State} (h₀ : After s₀ s) (r : RelaySlot) (u : Succ) (hop : Nat) : After s₀ (State.makeBehind s r u hop) := by
  unfold State.makeBehind
  try dsimp only
  repeat' first
    | with_reducible assumption
    | with_reducible apply After.ite
    | (with_reducible refine After.foldl ?_ (fun _ _ _ => ?_))
    | with_reducible apply logEvent_after
    | with_reducible apply setPair_after
    | split
    | (with_reducible apply After.mk_of; refine AfterK.of ?_; first | with_reducible assumption | with_reducible apply After.ite | (with_reducible refine After.foldl ?_ (fun _ _ _ => ?_)) | with_reducible apply logEvent_after | with_reducible apply setPair_after)

theorem lateFault_after {s₀ s : State} (h₀ : After s₀ s) (r : RelaySlot) (u : Succ) (reason : Nat) : After s₀ (State.lateFault s r u reason) := by
  unfold State.lateFault
  try dsimp only
  repeat' first
    | with_reducible assumption
    | with_reducible apply After.ite
    | (with_reducible refine After.foldl ?_ (fun _ _ _ => ?_))
    | with_reducible apply journalLate_after
    | with_reducible apply notify_after
    | split
    | (with_reducible apply After.mk_of; refine AfterK.of ?_; first | with_reducible assumption | with_reducible apply After.ite | (with_reducible refine After.foldl ?_ (fun _ _ _ => ?_)) | with_reducible apply journalLate_after | with_reducible apply notify_after)

theorem relayFault_after {s₀ s : State} (h₀ : After s₀ s) (r : RelaySlot) (reason : Nat) : After s₀ (State.relayFault s r reason) := by
  unfold State.relayFault
  try dsimp only
  repeat' first
    | with_reducible assumption
    | with_reducible apply After.ite
    | (with_reducible refine After.foldl ?_ (fun _ _ _ => ?_))
    | with_reducible apply alert_after
    | with_reducible apply broadcast_after
    | with_reducible apply dropSlot_after
    | with_reducible apply endCmd_after
    | with_reducible apply lateFault_after
    | with_reducible apply logEvent_after
    | with_reducible apply makeBehind_after
    | with_reducible apply pumpSlots_after
    | split
    | (with_reducible apply After.mk_of; refine AfterK.of ?_; first | with_reducible assumption | with_reducible apply After.ite | (with_reducible refine After.foldl ?_ (fun _ _ _ => ?_)) | with_reducible apply alert_after | with_reducible apply broadcast_after | with_reducible apply dropSlot_after | with_reducible apply endCmd_after | with_reducible apply lateFault_after | with_reducible apply logEvent_after | with_reducible apply makeBehind_after | with_reducible apply pumpSlots_after)

theorem failStuck_after {s₀ s : State} (h : After s₀ s) (fuel : Nat) : After s₀ (State.failStuck fuel s) := by
  induction fuel generalizing s with
  | zero => exact h
  | succ n ih =>
    unfold State.failStuck
    split
    · exact ih (relayFault_after h _ _)
    · exact h

theorem relaySettle_after {s₀ s : State} (h₀ : After s₀ s)  : After s₀ (State.relaySettle s) := by
  unfold State.relaySettle
  try dsimp only
  repeat' first
    | with_reducible assumption
    | with_reducible apply After.ite
    | (with_reducible refine After.foldl ?_ (fun _ _ _ => ?_))
    | with_reducible apply failStuck_after
    | with_reducible apply settle_after
    | split
    | (with_reducible apply After.mk_of; refine AfterK.of ?_; first | with_reducible assumption | with_reducible apply After.ite | (with_reducible refine After.foldl ?_ (fun _ _ _ => ?_)) | with_reducible apply failStuck_after | with_reducible apply settle_after)

theorem pairSlot_after {s₀ s : State} (h₀ : After s₀ s) (p : Pair) (opcode loc stamp marker : Nat) (key : Bytes) (fp : BitVec 128) (seg : Option Seg) : After s₀ (State.pairSlot s p opcode loc stamp marker key fp seg) := by
  unfold State.pairSlot
  try dsimp only
  repeat' first
    | with_reducible assumption
    | with_reducible apply After.ite
    | (with_reducible refine After.foldl ?_ (fun _ _ _ => ?_))
    | with_reducible apply trySend_after
    | (refine nextId_after ?_ (by rfl); first | with_reducible assumption | with_reducible apply After.ite | (with_reducible refine After.foldl ?_ (fun _ _ _ => ?_)) | with_reducible apply trySend_after)
    | split
    | (with_reducible apply After.mk_of; refine AfterK.of ?_; first | with_reducible assumption | with_reducible apply After.ite | (with_reducible refine After.foldl ?_ (fun _ _ _ => ?_)) | with_reducible apply trySend_after | (refine nextId_after ?_ (by rfl); first | with_reducible assumption | with_reducible apply After.ite | (with_reducible refine After.foldl ?_ (fun _ _ _ => ?_)) | with_reducible apply trySend_after))

theorem pairNext_after {s₀ s : State} (h₀ : After s₀ s) (p : Pair) : After s₀ (State.pairNext s p) := by
  unfold State.pairNext
  try dsimp only
  repeat' first
    | with_reducible assumption
    | with_reducible apply After.ite
    | (with_reducible refine After.foldl ?_ (fun _ _ _ => ?_))
    | with_reducible apply logEvent_after
    | with_reducible apply pairSlot_after
    | with_reducible apply setPair_after
    | split
    | (with_reducible apply After.mk_of; refine AfterK.of ?_; first | with_reducible assumption | with_reducible apply After.ite | (with_reducible refine After.foldl ?_ (fun _ _ _ => ?_)) | with_reducible apply logEvent_after | with_reducible apply pairSlot_after | with_reducible apply setPair_after)

theorem pairRun_after {s₀ s : State} (h : After s₀ s) (fuel ks : Nat) (u : Succ) : After s₀ (State.pairRun fuel s ks u) := by
  induction fuel generalizing s with
  | zero => exact h
  | succ n ih =>
    unfold State.pairRun
    repeat' first
      | with_reducible assumption
      | with_reducible apply ih
      | with_reducible apply pairNext_after
      | split

theorem startPair_after {s₀ s : State} (h₀ : After s₀ s) (p : Pair) : After s₀ (State.startPair s p) := by
  unfold State.startPair
  try dsimp only
  repeat' first
    | with_reducible assumption
    | with_reducible apply After.ite
    | (with_reducible refine After.foldl ?_ (fun _ _ _ => ?_))
    | with_reducible apply pairRun_after
    | with_reducible apply pairSlot_after
    | with_reducible apply relaySettle_after
    | with_reducible apply setPair_after
    | split
    | (with_reducible apply After.mk_of; refine AfterK.of ?_; first | with_reducible assumption | with_reducible apply After.ite | (with_reducible refine After.foldl ?_ (fun _ _ _ => ?_)) | with_reducible apply pairRun_after | with_reducible apply pairSlot_after | with_reducible apply relaySettle_after | with_reducible apply setPair_after)

theorem execResyncStart_after {s : State} (keyspace successor : Nat) : AfterO s (execResyncStart keyspace successor s) := by
  have h0 := After.refl s
  unfold execResyncStart
  try dsimp only
  repeat' first
    | with_reducible assumption
    | with_reducible apply AfterO.next
    | with_reducible apply AfterO.ite
    | with_reducible apply After.ite
    | (with_reducible refine After.foldl ?_ (fun _ _ _ => ?_))
    | with_reducible apply startPair_after
    | split
    | (with_reducible apply After.mk_of; refine AfterK.of ?_; first | with_reducible assumption | with_reducible apply AfterO.next | with_reducible apply AfterO.ite | with_reducible apply After.ite | (with_reducible refine After.foldl ?_ (fun _ _ _ => ?_)) | with_reducible apply startPair_after)

theorem execResyncStateSave_after {s : State}  : AfterO s (execResyncStateSave s) := by
  have h0 := After.refl s
  unfold execResyncStateSave
  try dsimp only
  repeat' first
    | with_reducible assumption
    | with_reducible apply AfterO.next
    | with_reducible apply AfterO.ite
    | with_reducible apply After.ite
    | (with_reducible refine After.foldl ?_ (fun _ _ _ => ?_))
    | split
    | (with_reducible apply After.mk_of; refine AfterK.of ?_; first | with_reducible assumption | with_reducible apply AfterO.next | with_reducible apply AfterO.ite | with_reducible apply After.ite | (with_reducible refine After.foldl ?_ (fun _ _ _ => ?_)))

theorem slotDone_after {s₀ s : State} (h₀ : After s₀ s) (r : RelaySlot) : After s₀ (State.slotDone s r) := by
  unfold State.slotDone
  try dsimp only
  repeat' first
    | with_reducible assumption
    | with_reducible apply After.ite
    | (with_reducible refine After.foldl ?_ (fun _ _ _ => ?_))
    | with_reducible apply dropSlot_after
    | with_reducible apply endCmd_after
    | with_reducible apply logEvent_after
    | with_reducible apply pairRun_after
    | with_reducible apply pumpSlots_after
    | split
    | (with_reducible apply After.mk_of; refine AfterK.of ?_; first | with_reducible assumption | with_reducible apply After.ite | (with_reducible refine After.foldl ?_ (fun _ _ _ => ?_)) | with_reducible apply dropSlot_after | with_reducible apply endCmd_after | with_reducible apply logEvent_after | with_reducible apply pairRun_after | with_reducible apply pumpSlots_after)

theorem execRelayForwardAnswer_after {s : State} (slot : Nat) (answer : ForwardAnswer) : AfterO s (execRelayForwardAnswer slot answer s) := by
  have h0 := After.refl s
  unfold execRelayForwardAnswer
  try dsimp only
  repeat' first
    | with_reducible assumption
    | with_reducible apply AfterO.next
    | with_reducible apply AfterO.ite
    | with_reducible apply After.ite
    | (with_reducible refine After.foldl ?_ (fun _ _ _ => ?_))
    | with_reducible apply pumpSlots_after
    | with_reducible apply relayFault_after
    | with_reducible apply relaySettle_after
    | with_reducible apply slotDone_after
    | with_reducible apply trySend_after
    | with_reducible apply updSlot_after
    | with_reducible apply takeCredit_after
    | split
    | (with_reducible apply After.mk_of; refine AfterK.of ?_; first | with_reducible assumption | with_reducible apply takeCredit_after | with_reducible apply AfterO.next | with_reducible apply AfterO.ite | with_reducible apply After.ite | (with_reducible refine After.foldl ?_ (fun _ _ _ => ?_)) | with_reducible apply pumpSlots_after | with_reducible apply relayFault_after | with_reducible apply relaySettle_after | with_reducible apply slotDone_after | with_reducible apply trySend_after | with_reducible apply updSlot_after)

theorem execRelayBackoffResend_after {s : State} (slot : Nat) : AfterO s (execRelayBackoffResend slot s) := by
  have h0 := After.refl s
  unfold execRelayBackoffResend
  try dsimp only
  repeat' first
    | with_reducible assumption
    | with_reducible apply AfterO.next
    | with_reducible apply AfterO.ite
    | with_reducible apply After.ite
    | (with_reducible refine After.foldl ?_ (fun _ _ _ => ?_))
    | with_reducible apply putForward_after
    | with_reducible apply relayFault_after
    | with_reducible apply relaySettle_after
    | with_reducible apply updSlot_after
    | split
    | (with_reducible apply After.mk_of; refine AfterK.of ?_; first | with_reducible assumption | with_reducible apply AfterO.next | with_reducible apply AfterO.ite | with_reducible apply After.ite | (with_reducible refine After.foldl ?_ (fun _ _ _ => ?_)) | with_reducible apply putForward_after | with_reducible apply relayFault_after | with_reducible apply relaySettle_after | with_reducible apply updSlot_after)

theorem execRelayTimeout_after {s : State} (slot : Nat) : AfterO s (execRelayTimeout slot s) := by
  have h0 := After.refl s
  unfold execRelayTimeout
  try dsimp only
  repeat' first
    | with_reducible assumption
    | with_reducible apply AfterO.next
    | with_reducible apply AfterO.ite
    | with_reducible apply After.ite
    | (with_reducible refine After.foldl ?_ (fun _ _ _ => ?_))
    | with_reducible apply relayFault_after
    | with_reducible apply relaySettle_after
    | split
    | (with_reducible apply After.mk_of; refine AfterK.of ?_; first | with_reducible assumption | with_reducible apply AfterO.next | with_reducible apply AfterO.ite | with_reducible apply After.ite | (with_reducible refine After.foldl ?_ (fun _ _ _ => ?_)) | with_reducible apply relayFault_after | with_reducible apply relaySettle_after)

theorem retransmitForward_after {s₀ s : State} (h₀ : After s₀ s) (r : RelaySlot) : After s₀ (State.retransmitForward s r) := by
  unfold State.retransmitForward
  try dsimp only
  repeat' first
    | with_reducible assumption
    | with_reducible apply After.ite
    | (with_reducible refine After.foldl ?_ (fun _ _ _ => ?_))
    | with_reducible apply putForward_after
    | with_reducible apply updSlot_after
    | split
    | (with_reducible apply After.mk_of; refine AfterK.of ?_; first | with_reducible assumption | with_reducible apply After.ite | (with_reducible refine After.foldl ?_ (fun _ _ _ => ?_)) | with_reducible apply putForward_after | with_reducible apply updSlot_after)

theorem execRetransmit_after {s : State} (msg : Nat) : AfterO s (execRetransmit msg s) := by
  have h0 := After.refl s
  unfold execRetransmit
  try dsimp only
  repeat' first
    | with_reducible assumption
    | with_reducible apply AfterO.next
    | with_reducible apply AfterO.ite
    | with_reducible apply After.ite
    | (with_reducible refine After.foldl ?_ (fun _ _ _ => ?_))
    | with_reducible apply retransmitForward_after
    | with_reducible apply retransmitKept_after
    | split
    | (with_reducible apply After.mk_of; refine AfterK.of ?_; first | with_reducible assumption | with_reducible apply AfterO.next | with_reducible apply AfterO.ite | with_reducible apply After.ite | (with_reducible refine After.foldl ?_ (fun _ _ _ => ?_)) | with_reducible apply retransmitForward_after | with_reducible apply retransmitKept_after)

theorem execMessageUnanswered_after {s : State} (msg : Nat) : AfterO s (execMessageUnanswered msg s) := by
  have h0 := After.refl s
  unfold execMessageUnanswered
  try dsimp only
  repeat' first
    | with_reducible assumption
    | with_reducible apply AfterO.next
    | with_reducible apply AfterO.ite
    | with_reducible apply After.ite
    | (with_reducible refine After.foldl ?_ (fun _ _ _ => ?_))
    | with_reducible apply keptUnanswered_after
    | with_reducible apply relayFault_after
    | with_reducible apply relaySettle_after
    | split
    | (with_reducible apply After.mk_of; refine AfterK.of ?_; first | with_reducible assumption | with_reducible apply AfterO.next | with_reducible apply AfterO.ite | with_reducible apply After.ite | (with_reducible refine After.foldl ?_ (fun _ _ _ => ?_)) | with_reducible apply keptUnanswered_after | with_reducible apply relayFault_after | with_reducible apply relaySettle_after)

end Sys2Proof.Machine
end

