-- ==== Sys2Proof/Laws/AfterSieve.lean ====
section
/-! SUPPORT. Every operation of Machine/Sieve.lean leaves a state after the one it is given. -/

set_option Elab.async false

namespace Sys2Proof.Machine

theorem updSieve_after {s₀ s : State} (h₀ : After s₀ s) (slot : Nat) (f : Sieve → Sieve) : After s₀ (State.updSieve s slot f) := by
  unfold State.updSieve
  try dsimp only
  repeat' first
    | with_reducible assumption
    | with_reducible apply After.ite
    | (with_reducible refine After.foldl ?_ (fun _ _ _ => ?_))
    | split
    | (with_reducible apply After.mk_of; refine AfterK.of ?_; first | with_reducible assumption | with_reducible apply After.ite | (with_reducible refine After.foldl ?_ (fun _ _ _ => ?_)))

theorem execSieveVisit_after {s : State} (slot : Nat) : AfterO s (execSieveVisit slot s) := by
  have h0 := After.refl s
  unfold execSieveVisit
  try dsimp only
  repeat' first
    | with_reducible assumption
    | with_reducible apply AfterO.next
    | with_reducible apply AfterO.ite
    | with_reducible apply After.ite
    | (with_reducible refine After.foldl ?_ (fun _ _ _ => ?_))
    | with_reducible apply digestEvent_after
    | with_reducible apply updSieve_after
    | split
    | (with_reducible apply After.mk_of; refine AfterK.of ?_; first | with_reducible assumption | with_reducible apply AfterO.next | with_reducible apply AfterO.ite | with_reducible apply After.ite | (with_reducible refine After.foldl ?_ (fun _ _ _ => ?_)) | with_reducible apply digestEvent_after | with_reducible apply updSieve_after)

theorem execSieveBatchAge_after {s : State} (slot : Nat) : AfterO s (execSieveBatchAge slot s) := by
  have h0 := After.refl s
  unfold execSieveBatchAge
  try dsimp only
  repeat' first
    | with_reducible assumption
    | with_reducible apply AfterO.next
    | with_reducible apply AfterO.ite
    | with_reducible apply After.ite
    | (with_reducible refine After.foldl ?_ (fun _ _ _ => ?_))
    | with_reducible apply updSieve_after
    | split
    | (with_reducible apply After.mk_of; refine AfterK.of ?_; first | with_reducible assumption | with_reducible apply AfterO.next | with_reducible apply AfterO.ite | with_reducible apply After.ite | (with_reducible refine After.foldl ?_ (fun _ _ _ => ?_)) | with_reducible apply updSieve_after)

theorem execSieveIdle_after {s : State} (slot : Nat) : AfterO s (execSieveIdle slot s) := by
  have h0 := After.refl s
  unfold execSieveIdle
  try dsimp only
  repeat' first
    | with_reducible assumption
    | with_reducible apply AfterO.next
    | with_reducible apply AfterO.ite
    | with_reducible apply After.ite
    | (with_reducible refine After.foldl ?_ (fun _ _ _ => ?_))
    | with_reducible apply closeSieves_after
    | split
    | (with_reducible apply After.mk_of; refine AfterK.of ?_; first | with_reducible assumption | with_reducible apply AfterO.next | with_reducible apply AfterO.ite | with_reducible apply After.ite | (with_reducible refine After.foldl ?_ (fun _ _ _ => ?_)) | with_reducible apply closeSieves_after)

theorem commitSieveOpen_after {s₀ s : State} (h₀ : After s₀ s) (x : Ctx) : After s₀ (State.commitSieveOpen s x) := by
  unfold State.commitSieveOpen
  try dsimp only
  repeat' first
    | with_reducible assumption
    | with_reducible apply After.ite
    | (with_reducible refine After.foldl ?_ (fun _ _ _ => ?_))
    | with_reducible apply endCmd_after
    | with_reducible apply endStatus_after
    | split
    | (with_reducible apply After.mk_of; refine AfterK.of ?_; first | with_reducible assumption | with_reducible apply After.ite | (with_reducible refine After.foldl ?_ (fun _ _ _ => ?_)) | with_reducible apply endCmd_after | with_reducible apply endStatus_after)

theorem commitSieveNext_after {s₀ s : State} (h₀ : After s₀ s) (x : Ctx) : After s₀ (State.commitSieveNext s x) := by
  unfold State.commitSieveNext
  try dsimp only
  repeat' first
    | with_reducible assumption
    | with_reducible apply After.ite
    | (with_reducible refine After.foldl ?_ (fun _ _ _ => ?_))
    | with_reducible apply drawn_after
    | with_reducible apply endCmd_after
    | with_reducible apply endStatus_after
    | with_reducible apply updSieve_after
    | (exact After.congr (drawn_after h₀) rfl)
    | split
    | (with_reducible apply After.mk_of; refine AfterK.of ?_; first | with_reducible assumption | with_reducible apply After.ite | (with_reducible refine After.foldl ?_ (fun _ _ _ => ?_)) | with_reducible apply drawn_after | with_reducible apply endCmd_after | with_reducible apply endStatus_after | with_reducible apply updSieve_after | (exact After.congr (drawn_after h₀) rfl))

theorem commitSieveClose_after {s₀ s : State} (h₀ : After s₀ s) (x : Ctx) : After s₀ (State.commitSieveClose s x) := by
  unfold State.commitSieveClose
  try dsimp only
  repeat' first
    | with_reducible assumption
    | with_reducible apply After.ite
    | (with_reducible refine After.foldl ?_ (fun _ _ _ => ?_))
    | with_reducible apply closeSieves_after
    | with_reducible apply endStatus_after
    | split
    | (with_reducible apply After.mk_of; refine AfterK.of ?_; first | with_reducible assumption | with_reducible apply After.ite | (with_reducible refine After.foldl ?_ (fun _ _ _ => ?_)) | with_reducible apply closeSieves_after | with_reducible apply endStatus_after)

end Sys2Proof.Machine
end

