-- ==== Sys2Proof/Laws/AfterShaper.lean ====
section
/-! SUPPORT. Every operation of Machine/Shaper.lean leaves a state after the one it is given. -/

set_option Elab.async false

namespace Sys2Proof.Machine

theorem onKsShaper_after {s₀ s : State} (h₀ : After s₀ s) (ks : Nat) (f : Shaper → Shaper) : After s₀ (State.onKsShaper s ks f) := by
  unfold State.onKsShaper
  try dsimp only
  repeat' first
    | with_reducible assumption
    | with_reducible apply After.ite
    | (with_reducible refine After.foldl ?_ (fun _ _ _ => ?_))
    | with_reducible apply updKeyspace_after
    | split
    | (with_reducible apply After.mk_of; refine AfterK.of ?_; first | with_reducible assumption | with_reducible apply After.ite | (with_reducible refine After.foldl ?_ (fun _ _ _ => ?_)) | with_reducible apply updKeyspace_after)

theorem onOwnerShaper_after {s₀ s : State} (h₀ : After s₀ s) (o : Nat) (f : Shaper → Shaper) : After s₀ (State.onOwnerShaper s o f) := by
  unfold State.onOwnerShaper
  try dsimp only
  repeat' first
    | with_reducible assumption
    | with_reducible apply After.ite
    | (with_reducible refine After.foldl ?_ (fun _ _ _ => ?_))
    | with_reducible apply updOwner_after
    | split
    | (with_reducible apply After.mk_of; refine AfterK.of ?_; first | with_reducible assumption | with_reducible apply After.ite | (with_reducible refine After.foldl ?_ (fun _ _ _ => ?_)) | with_reducible apply updOwner_after)

theorem chargeReply_after {s₀ s : State} (h₀ : After s₀ s) (x : Ctx) (bytes : Nat) : After s₀ (State.chargeReply s x bytes) := by
  unfold State.chargeReply
  try dsimp only
  repeat' first
    | with_reducible assumption
    | with_reducible apply After.ite
    | (with_reducible refine After.foldl ?_ (fun _ _ _ => ?_))
    | with_reducible apply onKsShaper_after
    | with_reducible apply onOwnerShaper_after
    | split
    | (with_reducible apply After.mk_of; refine AfterK.of ?_; first | with_reducible assumption | with_reducible apply After.ite | (with_reducible refine After.foldl ?_ (fun _ _ _ => ?_)) | with_reducible apply onKsShaper_after | with_reducible apply onOwnerShaper_after)

theorem takeKsTokens_after {s₀ s : State} (h₀ : After s₀ s) (x : Ctx) : After s₀ (State.takeKsTokens s x) := by
  unfold State.takeKsTokens
  try dsimp only
  repeat' first
    | with_reducible assumption
    | with_reducible apply After.ite
    | (with_reducible refine After.foldl ?_ (fun _ _ _ => ?_))
    | with_reducible apply onKsShaper_after
    | with_reducible apply updCtx_after
    | split
    | (with_reducible apply After.mk_of; refine AfterK.of ?_; first | with_reducible assumption | with_reducible apply After.ite | (with_reducible refine After.foldl ?_ (fun _ _ _ => ?_)) | with_reducible apply onKsShaper_after | with_reducible apply updCtx_after)

theorem shaped_after {s₀ s : State} (h₀ : After s₀ s) (x : Ctx) : After s₀ (State.shaped s x) := by
  unfold State.shaped
  try dsimp only
  repeat' first
    | with_reducible assumption
    | with_reducible apply After.ite
    | (with_reducible refine After.foldl ?_ (fun _ _ _ => ?_))
    | with_reducible apply dequeue_after
    | with_reducible apply toPhase_after
    | split
    | (with_reducible apply After.mk_of; refine AfterK.of ?_; first | with_reducible assumption | with_reducible apply After.ite | (with_reducible refine After.foldl ?_ (fun _ _ _ => ?_)) | with_reducible apply dequeue_after | with_reducible apply toPhase_after)

theorem takeOwnerTokens_after {s₀ s : State} (h₀ : After s₀ s) (x : Ctx) : After s₀ (State.takeOwnerTokens s x) := by
  unfold State.takeOwnerTokens
  try dsimp only
  repeat' first
    | with_reducible assumption
    | with_reducible apply After.ite
    | (with_reducible refine After.foldl ?_ (fun _ _ _ => ?_))
    | with_reducible apply onOwnerShaper_after
    | with_reducible apply shaped_after
    | split
    | (with_reducible apply After.mk_of; refine AfterK.of ?_; first | with_reducible assumption | with_reducible apply After.ite | (with_reducible refine After.foldl ?_ (fun _ _ _ => ?_)) | with_reducible apply onOwnerShaper_after | with_reducible apply shaped_after)

theorem execShaperAdmit_after {s : State} (c : Nat) : AfterO s (execShaperAdmit c s) := by
  have h0 := After.refl s
  unfold execShaperAdmit
  try dsimp only
  repeat' first
    | with_reducible assumption
    | with_reducible apply AfterO.next
    | with_reducible apply AfterO.ite
    | with_reducible apply After.ite
    | (with_reducible refine After.foldl ?_ (fun _ _ _ => ?_))
    | with_reducible apply shaped_after
    | with_reducible apply takeKsTokens_after
    | with_reducible apply takeOwnerTokens_after
    | split
    | (with_reducible apply After.mk_of; refine AfterK.of ?_; first | with_reducible assumption | with_reducible apply AfterO.next | with_reducible apply AfterO.ite | with_reducible apply After.ite | (with_reducible refine After.foldl ?_ (fun _ _ _ => ?_)) | with_reducible apply shaped_after | with_reducible apply takeKsTokens_after | with_reducible apply takeOwnerTokens_after)

end Sys2Proof.Machine
end

