-- ==== Sys2Proof/Laws/AfterCommit.lean ====
section
/-! SUPPORT. Every operation of Machine/Commit.lean leaves a state after the one it is given. -/

set_option Elab.async false

namespace Sys2Proof.Machine

theorem placeHolds_after {s₀ s : State} (h₀ : After s₀ s) (x : Ctx) : After s₀ (State.placeHolds s x) := by
  unfold State.placeHolds
  try dsimp only
  repeat' first
    | with_reducible assumption
    | with_reducible apply After.ite
    | (with_reducible refine After.foldl ?_ (fun _ _ _ => ?_))
    | (refine nextId_after ?_ (by rfl); first | with_reducible assumption | with_reducible apply After.ite | (with_reducible refine After.foldl ?_ (fun _ _ _ => ?_)))
    | split
    | (with_reducible apply After.mk_of; refine AfterK.of ?_; first | with_reducible assumption | with_reducible apply After.ite | (with_reducible refine After.foldl ?_ (fun _ _ _ => ?_)) | (refine nextId_after ?_ (by rfl); first | with_reducible assumption | with_reducible apply After.ite | (with_reducible refine After.foldl ?_ (fun _ _ _ => ?_))))

theorem commitRead_after {s₀ s : State} (h₀ : After s₀ s) (x : Ctx) (r : Reply) : After s₀ (State.commitRead s x r) := by
  unfold State.commitRead
  try dsimp only
  repeat' first
    | with_reducible assumption
    | with_reducible apply After.ite
    | (with_reducible refine After.foldl ?_ (fun _ _ _ => ?_))
    | with_reducible apply chargeReply_after
    | with_reducible apply endCmd_after
    | with_reducible apply placeHolds_after
    | with_reducible apply updCtx_after
    | split
    | (with_reducible apply After.mk_of; refine AfterK.of ?_; first | with_reducible assumption | with_reducible apply After.ite | (with_reducible refine After.foldl ?_ (fun _ _ _ => ?_)) | with_reducible apply chargeReply_after | with_reducible apply endCmd_after | with_reducible apply placeHolds_after | with_reducible apply updCtx_after)

theorem eraseDone_after {s₀ s : State} (h₀ : After s₀ s) (e : EraseSet) : After s₀ (State.eraseDone s e) := by
  unfold State.eraseDone
  try dsimp only
  repeat' first
    | with_reducible assumption
    | with_reducible apply After.ite
    | (with_reducible refine After.foldl ?_ (fun _ _ _ => ?_))
    | with_reducible apply notify_after
    | split
    | (with_reducible apply After.mk_of; refine AfterK.of ?_; first | with_reducible assumption | with_reducible apply After.ite | (with_reducible refine After.foldl ?_ (fun _ _ _ => ?_)) | with_reducible apply notify_after)

theorem eraseSetsDone_after {s₀ s : State} (h₀ : After s₀ s)  : After s₀ (State.eraseSetsDone s) := by
  unfold State.eraseSetsDone
  try dsimp only
  repeat' first
    | with_reducible assumption
    | with_reducible apply After.ite
    | (with_reducible refine After.foldl ?_ (fun _ _ _ => ?_))
    | with_reducible apply eraseDone_after
    | split
    | (with_reducible apply After.mk_of; refine AfterK.of ?_; first | with_reducible assumption | with_reducible apply After.ite | (with_reducible refine After.foldl ?_ (fun _ _ _ => ?_)) | with_reducible apply eraseDone_after)

theorem formEraseSet_after {s₀ s : State} (h₀ : After s₀ s) (ks stamp : Nat) (session : Option Nat) (key : Bytes) (groups : List Nat) : After s₀ (State.formEraseSet s ks stamp session key groups) := by
  unfold State.formEraseSet
  try dsimp only
  repeat' first
    | with_reducible assumption
    | with_reducible apply After.ite
    | (with_reducible refine After.foldl ?_ (fun _ _ _ => ?_))
    | with_reducible apply closeGroup_after
    | with_reducible apply eraseSetsDone_after
    | with_reducible apply updGroup_after
    | split
    | (with_reducible apply After.mk_of; refine AfterK.of ?_; first | with_reducible assumption | with_reducible apply After.ite | (with_reducible refine After.foldl ?_ (fun _ _ _ => ?_)) | with_reducible apply closeGroup_after | with_reducible apply eraseSetsDone_after | with_reducible apply updGroup_after)

theorem commitReplace_after {s₀ s : State} (h₀ : After s₀ s) (x : Ctx) (r : Rec) (place : Place) (entries : List Entry) : After s₀ (State.commitReplace s x r place entries) := by
  unfold State.commitReplace
  try dsimp only
  repeat' first
    | with_reducible assumption
    | with_reducible apply After.ite
    | (with_reducible refine After.foldl ?_ (fun _ _ _ => ?_))
    | with_reducible apply cacheDrop_after
    | with_reducible apply cachePut_after
    | with_reducible apply dirLog_after
    | with_reducible apply formEraseSet_after
    | with_reducible apply logEvent_after
    | with_reducible apply markStale_after
    | with_reducible apply qCommit_after
    | with_reducible apply removeEntry_after
    | with_reducible apply setEntry_after
    | split
    | (with_reducible apply After.mk_of; refine AfterK.of ?_; first | with_reducible assumption | with_reducible apply After.ite | (with_reducible refine After.foldl ?_ (fun _ _ _ => ?_)) | with_reducible apply cacheDrop_after | with_reducible apply cachePut_after | with_reducible apply dirLog_after | with_reducible apply formEraseSet_after | with_reducible apply logEvent_after | with_reducible apply markStale_after | with_reducible apply qCommit_after | with_reducible apply removeEntry_after | with_reducible apply setEntry_after)

theorem commitDiverge_after {s₀ s : State} (h₀ : After s₀ s) (x : Ctx) (r : Rec) : After s₀ (State.commitDiverge s x r) := by
  unfold State.commitDiverge
  try dsimp only
  repeat' first
    | with_reducible assumption
    | with_reducible apply After.ite
    | (with_reducible refine After.foldl ?_ (fun _ _ _ => ?_))
    | with_reducible apply dirLog_after
    | with_reducible apply logEvent_after
    | with_reducible apply qEnter_after
    | with_reducible apply qWithdraw_after
    | with_reducible apply setEntry_after
    | split
    | (with_reducible apply After.mk_of; refine AfterK.of ?_; first | with_reducible assumption | with_reducible apply After.ite | (with_reducible refine After.foldl ?_ (fun _ _ _ => ?_)) | with_reducible apply dirLog_after | with_reducible apply logEvent_after | with_reducible apply qEnter_after | with_reducible apply qWithdraw_after | with_reducible apply setEntry_after)

theorem afterCommit_after {s₀ s : State} (h₀ : After s₀ s) (x : Ctx) (r : Rec) : After s₀ (State.afterCommit s x r) := by
  unfold State.afterCommit
  try dsimp only
  repeat' first
    | with_reducible assumption
    | with_reducible apply After.ite
    | (with_reducible refine After.foldl ?_ (fun _ _ _ => ?_))
    | with_reducible apply activateSlot_after
    | with_reducible apply endCmd_after
    | with_reducible apply lockLeave_after
    | with_reducible apply toPhase_after
    | with_reducible apply updCtx_after
    | split
    | (with_reducible apply After.mk_of; refine AfterK.of ?_; first | with_reducible assumption | with_reducible apply After.ite | (with_reducible refine After.foldl ?_ (fun _ _ _ => ?_)) | with_reducible apply activateSlot_after | with_reducible apply endCmd_after | with_reducible apply lockLeave_after | with_reducible apply toPhase_after | with_reducible apply updCtx_after)

theorem commitWrite_after {s₀ s : State} (h₀ : After s₀ s) (x : Ctx) (place : Place) (entries : List Entry) : After s₀ (State.commitWrite s x place entries) := by
  unfold State.commitWrite
  try dsimp only
  repeat' first
    | with_reducible assumption
    | with_reducible apply After.ite
    | (with_reducible refine After.foldl ?_ (fun _ _ _ => ?_))
    | with_reducible apply afterCommit_after
    | with_reducible apply cohWrite_after
    | with_reducible apply commitDiverge_after
    | with_reducible apply commitReplace_after
    | split
    | (with_reducible apply After.mk_of; refine AfterK.of ?_; first | with_reducible assumption | with_reducible apply After.ite | (with_reducible refine After.foldl ?_ (fun _ _ _ => ?_)) | with_reducible apply afterCommit_after | with_reducible apply cohWrite_after | with_reducible apply commitDiverge_after | with_reducible apply commitReplace_after)

theorem claimWrite_after {s₀ s : State} (h₀ : After s₀ s) (x : Ctx) : After s₀ (State.claimWrite s x) := by
  unfold State.claimWrite
  try dsimp only
  repeat' first
    | with_reducible assumption
    | with_reducible apply After.ite
    | (with_reducible refine After.foldl ?_ (fun _ _ _ => ?_))
    | with_reducible apply commitWrite_after
    | with_reducible apply dirtyChunk_after
    | with_reducible apply endCmd_after
    | with_reducible apply logEvent_after
    | (refine rnd_after (k := 17) ?_ (by rfl); first | with_reducible assumption | with_reducible apply After.ite | (with_reducible refine After.foldl ?_ (fun _ _ _ => ?_)) | with_reducible apply commitWrite_after | with_reducible apply dirtyChunk_after | with_reducible apply endCmd_after | with_reducible apply logEvent_after)
    | split
    | (with_reducible apply After.mk_of; refine AfterK.of ?_; first | with_reducible assumption | with_reducible apply After.ite | (with_reducible refine After.foldl ?_ (fun _ _ _ => ?_)) | with_reducible apply commitWrite_after | with_reducible apply dirtyChunk_after | with_reducible apply endCmd_after | with_reducible apply logEvent_after | (refine rnd_after (k := 17) ?_ (by rfl); first | with_reducible assumption | with_reducible apply After.ite | (with_reducible refine After.foldl ?_ (fun _ _ _ => ?_)) | with_reducible apply commitWrite_after | with_reducible apply dirtyChunk_after | with_reducible apply endCmd_after | with_reducible apply logEvent_after))

theorem execCommitClaim_after {s : State} (c : Nat) : AfterO s (execCommitClaim c s) := by
  have h0 := After.refl s
  unfold execCommitClaim
  try dsimp only
  repeat' first
    | with_reducible assumption
    | with_reducible apply AfterO.next
    | with_reducible apply AfterO.ite
    | with_reducible apply After.ite
    | (with_reducible refine After.foldl ?_ (fun _ _ _ => ?_))
    | with_reducible apply claimWrite_after
    | with_reducible apply commitRead_after
    | with_reducible apply commitSieveClose_after
    | with_reducible apply commitSieveNext_after
    | with_reducible apply commitSieveOpen_after
    | with_reducible apply relaySettle_after
    | with_reducible apply settle_after
    | split
    | (with_reducible apply After.mk_of; refine AfterK.of ?_; first | with_reducible assumption | with_reducible apply AfterO.next | with_reducible apply AfterO.ite | with_reducible apply After.ite | (with_reducible refine After.foldl ?_ (fun _ _ _ => ?_)) | with_reducible apply claimWrite_after | with_reducible apply commitRead_after | with_reducible apply commitSieveClose_after | with_reducible apply commitSieveNext_after | with_reducible apply commitSieveOpen_after | with_reducible apply relaySettle_after | with_reducible apply settle_after)

theorem programFailed_after {s₀ s : State} (h₀ : After s₀ s) (x : Ctx) : After s₀ (State.programFailed s x) := by
  unfold State.programFailed
  try dsimp only
  repeat' first
    | with_reducible assumption
    | with_reducible apply After.ite
    | (with_reducible refine After.foldl ?_ (fun _ _ _ => ?_))
    | with_reducible apply program_after
    | with_reducible apply retireBlock_after
    | split
    | (with_reducible apply After.mk_of; refine AfterK.of ?_; first | with_reducible assumption | with_reducible apply After.ite | (with_reducible refine After.foldl ?_ (fun _ _ _ => ?_)) | with_reducible apply program_after | with_reducible apply retireBlock_after)

theorem execProgramComplete_after {s : State} (c : Nat) (ok : Bool) : AfterO s (execProgramComplete c ok s) := by
  have h0 := After.refl s
  unfold execProgramComplete
  try dsimp only
  repeat' first
    | with_reducible assumption
    | with_reducible apply AfterO.next
    | with_reducible apply AfterO.ite
    | with_reducible apply After.ite
    | (with_reducible refine After.foldl ?_ (fun _ _ _ => ?_))
    | with_reducible apply programFailed_after
    | with_reducible apply pumpSlots_after
    | with_reducible apply relaySettle_after
    | with_reducible apply settle_after
    | with_reducible apply toPhase_after
    | with_reducible apply updCtx_after
    | split
    | (with_reducible apply After.mk_of; refine AfterK.of ?_; first | with_reducible assumption | with_reducible apply AfterO.next | with_reducible apply AfterO.ite | with_reducible apply After.ite | (with_reducible refine After.foldl ?_ (fun _ _ _ => ?_)) | with_reducible apply programFailed_after | with_reducible apply pumpSlots_after | with_reducible apply relaySettle_after | with_reducible apply settle_after | with_reducible apply toPhase_after | with_reducible apply updCtx_after)

end Sys2Proof.Machine
end

