-- ==== Sys2Proof/Laws/AfterData.lean ====
section
/-! SUPPORT. Every operation of Machine/Data.lean leaves a state after the one it is given. -/

set_option Elab.async false

namespace Sys2Proof.Machine

theorem toShaper_after {s₀ s : State} (h₀ : After s₀ s) (x : Ctx) : After s₀ (State.toShaper s x) := by
  unfold State.toShaper
  try dsimp only
  repeat' first
    | with_reducible assumption
    | with_reducible apply After.ite
    | (with_reducible refine After.foldl ?_ (fun _ _ _ => ?_))
    | with_reducible apply toPhase_after
    | split
    | (with_reducible apply After.mk_of; refine AfterK.of ?_; first | with_reducible assumption | with_reducible apply After.ite | (with_reducible refine After.foldl ?_ (fun _ _ _ => ?_)) | with_reducible apply toPhase_after)

theorem checked_after {s₀ s : State} (h₀ : After s₀ s) (x : Ctx) (limits place keys : Bool) : After s₀ (State.checked s x limits place keys) := by
  unfold State.checked
  try dsimp only
  repeat' first
    | with_reducible assumption
    | with_reducible apply After.ite
    | (with_reducible refine After.foldl ?_ (fun _ _ _ => ?_))
    | with_reducible apply endCmd_after
    | with_reducible apply toShaper_after
    | split
    | (with_reducible apply After.mk_of; refine AfterK.of ?_; first | with_reducible assumption | with_reducible apply After.ite | (with_reducible refine After.foldl ?_ (fun _ _ _ => ?_)) | with_reducible apply endCmd_after | with_reducible apply toShaper_after)

theorem writeConditions_after {s₀ s : State} (h₀ : After s₀ s) (x : Ctx) : After s₀ (State.writeConditions s x) := by
  unfold State.writeConditions
  try dsimp only
  repeat' first
    | with_reducible assumption
    | with_reducible apply After.ite
    | (with_reducible refine After.foldl ?_ (fun _ _ _ => ?_))
    | with_reducible apply endStatus_after
    | with_reducible apply toShaper_after
    | split
    | (with_reducible apply After.mk_of; refine AfterK.of ?_; first | with_reducible assumption | with_reducible apply After.ite | (with_reducible refine After.foldl ?_ (fun _ _ _ => ?_)) | with_reducible apply endStatus_after | with_reducible apply toShaper_after)

theorem checkedWrite_after {s₀ s : State} (h₀ : After s₀ s) (x : Ctx) : After s₀ (State.checkedWrite s x) := by
  unfold State.checkedWrite
  try dsimp only
  repeat' first
    | with_reducible assumption
    | with_reducible apply After.ite
    | (with_reducible refine After.foldl ?_ (fun _ _ _ => ?_))
    | with_reducible apply endCmd_after
    | with_reducible apply reserveUse_after
    | with_reducible apply updCtx_after
    | with_reducible apply writeConditions_after
    | split
    | (with_reducible apply After.mk_of; refine AfterK.of ?_; first | with_reducible assumption | with_reducible apply After.ite | (with_reducible refine After.foldl ?_ (fun _ _ _ => ?_)) | with_reducible apply endCmd_after | with_reducible apply reserveUse_after | with_reducible apply updCtx_after | with_reducible apply writeConditions_after)

theorem writeRow_after {s₀ s : State} (h₀ : After s₀ s) (c op : Nat) : After s₀ (State.writeRow s c op) := by
  unfold State.writeRow
  try dsimp only
  repeat' first
    | with_reducible assumption
    | with_reducible apply After.ite
    | (with_reducible refine After.foldl ?_ (fun _ _ _ => ?_))
    | with_reducible apply checkedWrite_after
    | with_reducible apply settle_after
    | split
    | (with_reducible apply After.mk_of; refine AfterK.of ?_; first | with_reducible assumption | with_reducible apply After.ite | (with_reducible refine After.foldl ?_ (fun _ _ _ => ?_)) | with_reducible apply checkedWrite_after | with_reducible apply settle_after)

theorem execGet_after {s : State} (c : Nat) : AfterO s (execGet c s) := by
  have h0 := After.refl s
  unfold execGet
  try dsimp only
  repeat' first
    | with_reducible assumption
    | with_reducible apply AfterO.next
    | with_reducible apply AfterO.ite
    | with_reducible apply After.ite
    | (with_reducible refine After.foldl ?_ (fun _ _ _ => ?_))
    | with_reducible apply checked_after
    | with_reducible apply settle_after
    | split
    | (with_reducible apply After.mk_of; refine AfterK.of ?_; first | with_reducible assumption | with_reducible apply AfterO.next | with_reducible apply AfterO.ite | with_reducible apply After.ite | (with_reducible refine After.foldl ?_ (fun _ _ _ => ?_)) | with_reducible apply checked_after | with_reducible apply settle_after)

theorem execPut_after {s : State} (c : Nat) : AfterO s (execPut c s) := by
  have h0 := After.refl s
  unfold execPut
  try dsimp only
  repeat' first
    | with_reducible assumption
    | with_reducible apply AfterO.next
    | with_reducible apply AfterO.ite
    | with_reducible apply After.ite
    | (with_reducible refine After.foldl ?_ (fun _ _ _ => ?_))
    | with_reducible apply writeRow_after
    | split
    | (with_reducible apply After.mk_of; refine AfterK.of ?_; first | with_reducible assumption | with_reducible apply AfterO.next | with_reducible apply AfterO.ite | with_reducible apply After.ite | (with_reducible refine After.foldl ?_ (fun _ _ _ => ?_)) | with_reducible apply writeRow_after)

theorem execPutPosted_after {s : State} (c : Nat) : AfterO s (execPutPosted c s) := by
  have h0 := After.refl s
  unfold execPutPosted
  try dsimp only
  repeat' first
    | with_reducible assumption
    | with_reducible apply AfterO.next
    | with_reducible apply AfterO.ite
    | with_reducible apply After.ite
    | (with_reducible refine After.foldl ?_ (fun _ _ _ => ?_))
    | with_reducible apply writeRow_after
    | split
    | (with_reducible apply After.mk_of; refine AfterK.of ?_; first | with_reducible assumption | with_reducible apply AfterO.next | with_reducible apply AfterO.ite | with_reducible apply After.ite | (with_reducible refine After.foldl ?_ (fun _ _ _ => ?_)) | with_reducible apply writeRow_after)

theorem execDelete_after {s : State} (c : Nat) : AfterO s (execDelete c s) := by
  have h0 := After.refl s
  unfold execDelete
  try dsimp only
  repeat' first
    | with_reducible assumption
    | with_reducible apply AfterO.next
    | with_reducible apply AfterO.ite
    | with_reducible apply After.ite
    | (with_reducible refine After.foldl ?_ (fun _ _ _ => ?_))
    | with_reducible apply writeRow_after
    | split
    | (with_reducible apply After.mk_of; refine AfterK.of ?_; first | with_reducible assumption | with_reducible apply AfterO.next | with_reducible apply AfterO.ite | with_reducible apply After.ite | (with_reducible refine After.foldl ?_ (fun _ _ _ => ?_)) | with_reducible apply writeRow_after)

theorem execAppendSegment_after {s : State} (c : Nat) : AfterO s (execAppendSegment c s) := by
  have h0 := After.refl s
  unfold execAppendSegment
  try dsimp only
  repeat' first
    | with_reducible assumption
    | with_reducible apply AfterO.next
    | with_reducible apply AfterO.ite
    | with_reducible apply After.ite
    | (with_reducible refine After.foldl ?_ (fun _ _ _ => ?_))
    | with_reducible apply writeRow_after
    | split
    | (with_reducible apply After.mk_of; refine AfterK.of ?_; first | with_reducible assumption | with_reducible apply AfterO.next | with_reducible apply AfterO.ite | with_reducible apply After.ite | (with_reducible refine After.foldl ?_ (fun _ _ _ => ?_)) | with_reducible apply writeRow_after)

theorem execDiscard_after {s : State} (c : Nat) : AfterO s (execDiscard c s) := by
  have h0 := After.refl s
  unfold execDiscard
  try dsimp only
  repeat' first
    | with_reducible assumption
    | with_reducible apply AfterO.next
    | with_reducible apply AfterO.ite
    | with_reducible apply After.ite
    | (with_reducible refine After.foldl ?_ (fun _ _ _ => ?_))
    | with_reducible apply writeRow_after
    | split
    | (with_reducible apply After.mk_of; refine AfterK.of ?_; first | with_reducible assumption | with_reducible apply AfterO.next | with_reducible apply AfterO.ite | with_reducible apply After.ite | (with_reducible refine After.foldl ?_ (fun _ _ _ => ?_)) | with_reducible apply writeRow_after)

theorem execSecureDiscard_after {s : State} (c : Nat) : AfterO s (execSecureDiscard c s) := by
  have h0 := After.refl s
  unfold execSecureDiscard
  try dsimp only
  repeat' first
    | with_reducible assumption
    | with_reducible apply AfterO.next
    | with_reducible apply AfterO.ite
    | with_reducible apply After.ite
    | (with_reducible refine After.foldl ?_ (fun _ _ _ => ?_))
    | with_reducible apply writeRow_after
    | split
    | (with_reducible apply After.mk_of; refine AfterK.of ?_; first | with_reducible assumption | with_reducible apply AfterO.next | with_reducible apply AfterO.ite | with_reducible apply After.ite | (with_reducible refine After.foldl ?_ (fun _ _ _ => ?_)) | with_reducible apply writeRow_after)

theorem execScanKeys_after {s : State} (c : Nat) : AfterO s (execScanKeys c s) := by
  have h0 := After.refl s
  unfold execScanKeys
  try dsimp only
  repeat' first
    | with_reducible assumption
    | with_reducible apply AfterO.next
    | with_reducible apply AfterO.ite
    | with_reducible apply After.ite
    | (with_reducible refine After.foldl ?_ (fun _ _ _ => ?_))
    | with_reducible apply checked_after
    | with_reducible apply settle_after
    | split
    | (with_reducible apply After.mk_of; refine AfterK.of ?_; first | with_reducible assumption | with_reducible apply AfterO.next | with_reducible apply AfterO.ite | with_reducible apply After.ite | (with_reducible refine After.foldl ?_ (fun _ _ _ => ?_)) | with_reducible apply checked_after | with_reducible apply settle_after)

theorem execHead_after {s : State} (c : Nat) : AfterO s (execHead c s) := by
  have h0 := After.refl s
  unfold execHead
  try dsimp only
  repeat' first
    | with_reducible assumption
    | with_reducible apply AfterO.next
    | with_reducible apply AfterO.ite
    | with_reducible apply After.ite
    | (with_reducible refine After.foldl ?_ (fun _ _ _ => ?_))
    | with_reducible apply checked_after
    | with_reducible apply settle_after
    | split
    | (with_reducible apply After.mk_of; refine AfterK.of ?_; first | with_reducible assumption | with_reducible apply AfterO.next | with_reducible apply AfterO.ite | with_reducible apply After.ite | (with_reducible refine After.foldl ?_ (fun _ _ _ => ?_)) | with_reducible apply checked_after | with_reducible apply settle_after)

theorem execVersionsNext_after {s : State} (c : Nat) : AfterO s (execVersionsNext c s) := by
  have h0 := After.refl s
  unfold execVersionsNext
  try dsimp only
  repeat' first
    | with_reducible assumption
    | with_reducible apply AfterO.next
    | with_reducible apply AfterO.ite
    | with_reducible apply After.ite
    | (with_reducible refine After.foldl ?_ (fun _ _ _ => ?_))
    | with_reducible apply checked_after
    | with_reducible apply settle_after
    | split
    | (with_reducible apply After.mk_of; refine AfterK.of ?_; first | with_reducible assumption | with_reducible apply AfterO.next | with_reducible apply AfterO.ite | with_reducible apply After.ite | (with_reducible refine After.foldl ?_ (fun _ _ _ => ?_)) | with_reducible apply checked_after | with_reducible apply settle_after)

theorem execSieveOpen_after {s : State} (c : Nat) : AfterO s (execSieveOpen c s) := by
  have h0 := After.refl s
  unfold execSieveOpen
  try dsimp only
  repeat' first
    | with_reducible assumption
    | with_reducible apply AfterO.next
    | with_reducible apply AfterO.ite
    | with_reducible apply After.ite
    | (with_reducible refine After.foldl ?_ (fun _ _ _ => ?_))
    | with_reducible apply checked_after
    | with_reducible apply settle_after
    | split
    | (with_reducible apply After.mk_of; refine AfterK.of ?_; first | with_reducible assumption | with_reducible apply AfterO.next | with_reducible apply AfterO.ite | with_reducible apply After.ite | (with_reducible refine After.foldl ?_ (fun _ _ _ => ?_)) | with_reducible apply checked_after | with_reducible apply settle_after)

theorem execSieveNext_after {s : State} (c : Nat) : AfterO s (execSieveNext c s) := by
  have h0 := After.refl s
  unfold execSieveNext
  try dsimp only
  repeat' first
    | with_reducible assumption
    | with_reducible apply AfterO.next
    | with_reducible apply AfterO.ite
    | with_reducible apply After.ite
    | (with_reducible refine After.foldl ?_ (fun _ _ _ => ?_))
    | with_reducible apply checked_after
    | with_reducible apply settle_after
    | split
    | (with_reducible apply After.mk_of; refine AfterK.of ?_; first | with_reducible assumption | with_reducible apply AfterO.next | with_reducible apply AfterO.ite | with_reducible apply After.ite | (with_reducible refine After.foldl ?_ (fun _ _ _ => ?_)) | with_reducible apply checked_after | with_reducible apply settle_after)

theorem execSieveClose_after {s : State} (c : Nat) : AfterO s (execSieveClose c s) := by
  have h0 := After.refl s
  unfold execSieveClose
  try dsimp only
  repeat' first
    | with_reducible assumption
    | with_reducible apply AfterO.next
    | with_reducible apply AfterO.ite
    | with_reducible apply After.ite
    | (with_reducible refine After.foldl ?_ (fun _ _ _ => ?_))
    | with_reducible apply checked_after
    | with_reducible apply settle_after
    | split
    | (with_reducible apply After.mk_of; refine AfterK.of ?_; first | with_reducible assumption | with_reducible apply AfterO.next | with_reducible apply AfterO.ite | with_reducible apply After.ite | (with_reducible refine After.foldl ?_ (fun _ _ _ => ?_)) | with_reducible apply checked_after | with_reducible apply settle_after)

theorem execAbort_after {s : State} (c : Nat) : AfterO s (execAbort c s) := by
  have h0 := After.refl s
  unfold execAbort
  try dsimp only
  repeat' first
    | with_reducible assumption
    | with_reducible apply AfterO.next
    | with_reducible apply AfterO.ite
    | with_reducible apply After.ite
    | (with_reducible refine After.foldl ?_ (fun _ _ _ => ?_))
    | with_reducible apply endCmd_after
    | with_reducible apply endStatus_after
    | with_reducible apply settle_after
    | split
    | (with_reducible apply After.mk_of; refine AfterK.of ?_; first | with_reducible assumption | with_reducible apply AfterO.next | with_reducible apply AfterO.ite | with_reducible apply After.ite | (with_reducible refine After.foldl ?_ (fun _ _ _ => ?_)) | with_reducible apply endCmd_after | with_reducible apply endStatus_after | with_reducible apply settle_after)

theorem toSettings_after {s₀ s : State} (h₀ : After s₀ s) (c : Nat) (ch : Change) (r : Reply) : After s₀ (State.toSettings s c ch r) := by
  unfold State.toSettings
  try dsimp only
  repeat' first
    | with_reducible assumption
    | with_reducible apply After.ite
    | (with_reducible refine After.foldl ?_ (fun _ _ _ => ?_))
    | with_reducible apply updCtx_after
    | split
    | (with_reducible apply After.mk_of; refine AfterK.of ?_; first | with_reducible assumption | with_reducible apply After.ite | (with_reducible refine After.foldl ?_ (fun _ _ _ => ?_)) | with_reducible apply updCtx_after)

theorem execRelayedWrite_after {s : State} (c : Nat) : AfterO s (execRelayedWrite c s) := by
  have h0 := After.refl s
  unfold execRelayedWrite
  try dsimp only
  repeat' first
    | with_reducible assumption
    | with_reducible apply AfterO.next
    | with_reducible apply AfterO.ite
    | with_reducible apply After.ite
    | (with_reducible refine After.foldl ?_ (fun _ _ _ => ?_))
    | with_reducible apply checkedWrite_after
    | with_reducible apply digestEvent_after
    | with_reducible apply endStatus_after
    | with_reducible apply settle_after
    | split
    | (with_reducible apply After.mk_of; refine AfterK.of ?_; first | with_reducible assumption | with_reducible apply AfterO.next | with_reducible apply AfterO.ite | with_reducible apply After.ite | (with_reducible refine After.foldl ?_ (fun _ _ _ => ?_)) | with_reducible apply checkedWrite_after | with_reducible apply digestEvent_after | with_reducible apply endStatus_after | with_reducible apply settle_after)

theorem execSeedBegin_after {s : State} (c : Nat) : AfterO s (execSeedBegin c s) := by
  have h0 := After.refl s
  unfold execSeedBegin
  try dsimp only
  repeat' first
    | with_reducible assumption
    | with_reducible apply AfterO.next
    | with_reducible apply AfterO.ite
    | with_reducible apply After.ite
    | (with_reducible refine After.foldl ?_ (fun _ _ _ => ?_))
    | with_reducible apply dequeue_after
    | with_reducible apply drawn_after
    | with_reducible apply endStatus_after
    | with_reducible apply saveSettings_after
    | with_reducible apply settle_after
    | with_reducible apply toSettings_after
    | with_reducible apply updKeyspace_after
    | split
    | (with_reducible apply After.mk_of; refine AfterK.of ?_; first | with_reducible assumption | with_reducible apply AfterO.next | with_reducible apply AfterO.ite | with_reducible apply After.ite | (with_reducible refine After.foldl ?_ (fun _ _ _ => ?_)) | with_reducible apply dequeue_after | with_reducible apply drawn_after | with_reducible apply endStatus_after | with_reducible apply saveSettings_after | with_reducible apply settle_after | with_reducible apply toSettings_after | with_reducible apply updKeyspace_after)

theorem execSeedEnd_after {s : State} (c : Nat) : AfterO s (execSeedEnd c s) := by
  have h0 := After.refl s
  unfold execSeedEnd
  try dsimp only
  repeat' first
    | with_reducible assumption
    | with_reducible apply AfterO.next
    | with_reducible apply AfterO.ite
    | with_reducible apply After.ite
    | (with_reducible refine After.foldl ?_ (fun _ _ _ => ?_))
    | with_reducible apply endStatus_after
    | with_reducible apply saveSettings_after
    | with_reducible apply settle_after
    | with_reducible apply updKeyspace_after
    | split
    | (with_reducible apply After.mk_of; refine AfterK.of ?_; first | with_reducible assumption | with_reducible apply AfterO.next | with_reducible apply AfterO.ite | with_reducible apply After.ite | (with_reducible refine After.foldl ?_ (fun _ _ _ => ?_)) | with_reducible apply endStatus_after | with_reducible apply saveSettings_after | with_reducible apply settle_after | with_reducible apply updKeyspace_after)

end Sys2Proof.Machine
end

