-- ==== Sys2Proof/Laws/AfterSessions.lean ====
section
/-! SUPPORT. Every operation of Machine/Sessions.lean leaves a state after the one it is given. -/

set_option Elab.async false

namespace Sys2Proof.Machine

theorem answerOpen_after {s₀ s : State} (h₀ : After s₀ s) (x : Ctx) (r : Reply) : After s₀ (State.answerOpen s x r) := by
  unfold State.answerOpen
  try dsimp only
  repeat' first
    | with_reducible assumption
    | with_reducible apply After.ite
    | (with_reducible refine After.foldl ?_ (fun _ _ _ => ?_))
    | with_reducible apply endCmd_after
    | split
    | (with_reducible apply After.mk_of; refine AfterK.of ?_; first | with_reducible assumption | with_reducible apply After.ite | (with_reducible refine After.foldl ?_ (fun _ _ _ => ?_)) | with_reducible apply endCmd_after)

theorem replayOpen_after {s₀ s : State} (h₀ : After s₀ s) (x : Ctx) (y : Session) : After s₀ (State.replayOpen s x y) := by
  unfold State.replayOpen
  try dsimp only
  repeat' first
    | with_reducible assumption
    | with_reducible apply After.ite
    | (with_reducible refine After.foldl ?_ (fun _ _ _ => ?_))
    | with_reducible apply granted_after
    | with_reducible apply sendOnce_after
    | with_reducible apply withCtxs_after
    | split
    | (with_reducible apply After.mk_of; refine AfterK.of ?_; first | with_reducible assumption | with_reducible apply After.ite | (with_reducible refine After.foldl ?_ (fun _ _ _ => ?_)) | with_reducible apply granted_after | with_reducible apply sendOnce_after | with_reducible apply withCtxs_after)

theorem openRoom_after {s₀ s t : State} (h : After s₀ s) {o : Nat} {a : Option Nat} (e : s.openRoom o = (t, a)) : After s₀ t := by
  unfold State.openRoom at e
  dsimp only at e
  repeat' split at e
  all_goals
    injection e with e _
    subst e
    first
      | exact h
      | exact freeSession_after h _

theorem openSession_after {s₀ s : State} (h₀ : After s₀ s) (x : Ctx) (n : Nat) : After s₀ (State.openSession s x n) := by
  unfold State.openSession
  try dsimp only
  repeat' first
    | with_reducible assumption
    | with_reducible apply After.ite
    | (with_reducible refine After.foldl ?_ (fun _ _ _ => ?_))
    | with_reducible apply drawn_after
    | with_reducible apply endCmd_after
    | with_reducible apply updCtx_after
    | (exact After.congr (drawn_after h₀) rfl)
    | split
    | (with_reducible apply After.mk_of; refine AfterK.of ?_; first | with_reducible assumption | with_reducible apply After.ite | (with_reducible refine After.foldl ?_ (fun _ _ _ => ?_)) | with_reducible apply drawn_after | with_reducible apply endCmd_after | with_reducible apply updCtx_after | (exact After.congr (drawn_after h₀) rfl))

theorem execSessionOpen_after {s : State} (c : Nat) : AfterO s (execSessionOpen c s) := by
  have h0 := After.refl s
  unfold execSessionOpen
  try dsimp only
  repeat' first
    | with_reducible assumption
    | with_reducible apply AfterO.next
    | with_reducible apply AfterO.ite
    | with_reducible apply After.ite
    | (with_reducible refine After.foldl ?_ (fun _ _ _ => ?_))
    | with_reducible apply answerOpen_after
    | (refine openRoom_after ?_ (by assumption))
    | with_reducible apply openSession_after
    | with_reducible apply replayOpen_after
    | split
    | (with_reducible apply After.mk_of; refine AfterK.of ?_; first | with_reducible assumption | with_reducible apply AfterO.next | with_reducible apply AfterO.ite | with_reducible apply After.ite | (with_reducible refine After.foldl ?_ (fun _ _ _ => ?_)) | with_reducible apply answerOpen_after | (refine openRoom_after ?_ (by assumption)) | with_reducible apply openSession_after | with_reducible apply replayOpen_after)

theorem execSessionClose_after {s : State} (c : Nat) : AfterO s (execSessionClose c s) := by
  have h0 := After.refl s
  unfold execSessionClose
  try dsimp only
  repeat' first
    | with_reducible assumption
    | with_reducible apply AfterO.next
    | with_reducible apply AfterO.ite
    | with_reducible apply After.ite
    | (with_reducible refine After.foldl ?_ (fun _ _ _ => ?_))
    | with_reducible apply endStatus_after
    | with_reducible apply toPhase_after
    | with_reducible apply updSession_after
    | split
    | (with_reducible apply After.mk_of; refine AfterK.of ?_; first | with_reducible assumption | with_reducible apply AfterO.next | with_reducible apply AfterO.ite | with_reducible apply After.ite | (with_reducible refine After.foldl ?_ (fun _ _ _ => ?_)) | with_reducible apply endStatus_after | with_reducible apply toPhase_after | with_reducible apply updSession_after)

theorem execSessionCloseDrained_after {s : State} (c : Nat) : AfterO s (execSessionCloseDrained c s) := by
  have h0 := After.refl s
  unfold execSessionCloseDrained
  try dsimp only
  repeat' first
    | with_reducible assumption
    | with_reducible apply AfterO.next
    | with_reducible apply AfterO.ite
    | with_reducible apply After.ite
    | (with_reducible refine After.foldl ?_ (fun _ _ _ => ?_))
    | with_reducible apply endStatus_after
    | with_reducible apply updSession_after
    | split
    | (with_reducible apply After.mk_of; refine AfterK.of ?_; first | with_reducible assumption | with_reducible apply AfterO.next | with_reducible apply AfterO.ite | with_reducible apply After.ite | (with_reducible refine After.foldl ?_ (fun _ _ _ => ?_)) | with_reducible apply endStatus_after | with_reducible apply updSession_after)

theorem setWindow_after {s₀ s : State} (h₀ : After s₀ s) (n w : Nat) : After s₀ (State.setWindow s n w) := by
  unfold State.setWindow
  try dsimp only
  repeat' first
    | with_reducible assumption
    | with_reducible apply After.ite
    | (with_reducible refine After.foldl ?_ (fun _ _ _ => ?_))
    | with_reducible apply updSession_after
    | split
    | (with_reducible apply After.mk_of; refine AfterK.of ?_; first | with_reducible assumption | with_reducible apply After.ite | (with_reducible refine After.foldl ?_ (fun _ _ _ => ?_)) | with_reducible apply updSession_after)

theorem shrinkLargest_after {s₀ s : State} (h : After s₀ s) (floor fuel excess : Nat) : After s₀ (State.shrinkLargest s floor fuel excess) := by
  induction fuel generalizing s excess with
  | zero => unfold State.shrinkLargest; exact h
  | succ n ih =>
    unfold State.shrinkLargest
    split
    · exact h
    · exact h
    · rename_i fuel hf _
      have hf : fuel = n := (Nat.succ.inj hf).symm
      subst hf
      dsimp only
      split
      · exact h
      · split
        · exact h
        · exact ih (setWindow_after h _ _) _

theorem shrinkCommons_after {s₀ s : State} (h₀ : After s₀ s)  : After s₀ (State.shrinkCommons s) := by
  unfold State.shrinkCommons
  try dsimp only
  repeat' first
    | with_reducible assumption
    | with_reducible apply After.ite
    | (with_reducible refine After.foldl ?_ (fun _ _ _ => ?_))
    | with_reducible apply shrinkLargest_after
    | split
    | (with_reducible apply After.mk_of; refine AfterK.of ?_; first | with_reducible assumption | with_reducible apply After.ite | (with_reducible refine After.foldl ?_ (fun _ _ _ => ?_)) | with_reducible apply shrinkLargest_after)

theorem growWindows_after {s₀ s : State} (h₀ : After s₀ s) (o cap : Nat) : After s₀ (State.growWindows s o cap) := by
  unfold State.growWindows
  try dsimp only
  repeat' first
    | with_reducible assumption
    | with_reducible apply After.ite
    | (with_reducible refine After.foldl ?_ (fun _ _ _ => ?_))
    | with_reducible apply setWindow_after
    | split
    | (with_reducible apply After.mk_of; refine AfterK.of ?_; first | with_reducible assumption | with_reducible apply After.ite | (with_reducible refine After.foldl ?_ (fun _ _ _ => ?_)) | with_reducible apply setWindow_after)

theorem rebalance_after {s₀ s : State} (h₀ : After s₀ s) (o : Nat) : After s₀ (State.rebalance s o) := by
  unfold State.rebalance
  try dsimp only
  repeat' first
    | with_reducible assumption
    | with_reducible apply After.ite
    | (with_reducible refine After.foldl ?_ (fun _ _ _ => ?_))
    | with_reducible apply growWindows_after
    | with_reducible apply setWindow_after
    | with_reducible apply shrinkCommons_after
    | split
    | (with_reducible apply After.mk_of; refine AfterK.of ?_; first | with_reducible assumption | with_reducible apply After.ite | (with_reducible refine After.foldl ?_ (fun _ _ _ => ?_)) | with_reducible apply growWindows_after | with_reducible apply setWindow_after | with_reducible apply shrinkCommons_after)

theorem execWindowRebalance_after {s : State}  : AfterO s (execWindowRebalance s) := by
  have h0 := After.refl s
  unfold execWindowRebalance
  try dsimp only
  repeat' first
    | with_reducible assumption
    | with_reducible apply AfterO.next
    | with_reducible apply AfterO.ite
    | with_reducible apply After.ite
    | (with_reducible refine After.foldl ?_ (fun _ _ _ => ?_))
    | with_reducible apply rebalance_after
    | split
    | (with_reducible apply After.mk_of; refine AfterK.of ?_; first | with_reducible assumption | with_reducible apply AfterO.next | with_reducible apply AfterO.ite | with_reducible apply After.ite | (with_reducible refine After.foldl ?_ (fun _ _ _ => ?_)) | with_reducible apply rebalance_after)

theorem execEcho_after {s : State} (c : Nat) : AfterO s (execEcho c s) := by
  have h0 := After.refl s
  unfold execEcho
  try dsimp only
  repeat' first
    | with_reducible assumption
    | with_reducible apply AfterO.next
    | with_reducible apply AfterO.ite
    | with_reducible apply After.ite
    | (with_reducible refine After.foldl ?_ (fun _ _ _ => ?_))
    | with_reducible apply endCmd_after
    | with_reducible apply endStatus_after
    | split
    | (with_reducible apply After.mk_of; refine AfterK.of ?_; first | with_reducible assumption | with_reducible apply AfterO.next | with_reducible apply AfterO.ite | with_reducible apply After.ite | (with_reducible refine After.foldl ?_ (fun _ _ _ => ?_)) | with_reducible apply endCmd_after | with_reducible apply endStatus_after)

end Sys2Proof.Machine
end

