-- ==== Sys2Proof/Laws/AfterFence.lean ====
section
/-! SUPPORT. Every operation of Machine/Fence.lean leaves a state after the one it is given. -/

set_option Elab.async false

namespace Sys2Proof.Machine

theorem passSet_after {s₀ s : State} (h₀ : After s₀ s) (t : Nat) : After s₀ (State.passSet s t) := by
  unfold State.passSet
  try dsimp only
  repeat' first
    | with_reducible assumption
    | with_reducible apply After.ite
    | (with_reducible refine After.foldl ?_ (fun _ _ _ => ?_))
    | with_reducible apply updOwner_after
    | split
    | (with_reducible apply After.mk_of; refine AfterK.of ?_; first | with_reducible assumption | with_reducible apply After.ite | (with_reducible refine After.foldl ?_ (fun _ _ _ => ?_)) | with_reducible apply updOwner_after)

theorem passSets_after {s₀ s : State} (h₀ : After s₀ s)  : After s₀ (State.passSets s) := by
  unfold State.passSets
  try dsimp only
  repeat' first
    | with_reducible assumption
    | with_reducible apply After.ite
    | (with_reducible refine After.foldl ?_ (fun _ _ _ => ?_))
    | with_reducible apply passSet_after
    | split
    | (with_reducible apply After.mk_of; refine AfterK.of ?_; first | with_reducible assumption | with_reducible apply After.ite | (with_reducible refine After.foldl ?_ (fun _ _ _ => ?_)) | with_reducible apply passSet_after)

theorem movePipes_after {s₀ s : State} (h₀ : After s₀ s) (f n : Nat) : After s₀ (State.movePipes s f n) := by
  unfold State.movePipes
  try dsimp only
  repeat' first
    | with_reducible assumption
    | with_reducible apply After.ite
    | (with_reducible refine After.foldl ?_ (fun _ _ _ => ?_))
    | with_reducible apply nextJob_after
    | split
    | (with_reducible apply After.mk_of; refine AfterK.of ?_; first | with_reducible assumption | with_reducible apply After.ite | (with_reducible refine After.foldl ?_ (fun _ _ _ => ?_)) | with_reducible apply nextJob_after)

theorem setFence_after {s₀ s : State} (h₀ : After s₀ s) (f sess cells pipes dies : Nat) : After s₀ (State.setFence s f sess cells pipes dies) := by
  unfold State.setFence
  try dsimp only
  repeat' first
    | with_reducible assumption
    | with_reducible apply After.ite
    | (with_reducible refine After.foldl ?_ (fun _ _ _ => ?_))
    | with_reducible apply closeGroup_after
    | with_reducible apply movePipes_after
    | with_reducible apply passSets_after
    | with_reducible apply retrySpace_after
    | with_reducible apply updOwner_after
    | split
    | (with_reducible apply After.mk_of; refine AfterK.of ?_; first | with_reducible assumption | with_reducible apply After.ite | (with_reducible refine After.foldl ?_ (fun _ _ _ => ?_)) | with_reducible apply closeGroup_after | with_reducible apply movePipes_after | with_reducible apply passSets_after | with_reducible apply retrySpace_after | with_reducible apply updOwner_after)

end Sys2Proof.Machine
end

