-- ==== Sys2Proof/Laws/AfterAdmin.lean ====
section
/-! SUPPORT. Every operation of Machine/Admin.lean leaves a state after the one it is given. -/

set_option Elab.async false

namespace Sys2Proof.Machine

theorem adminRow_after {s₀ s : State} (h : After s₀ s) (c op : Nat) (settings : Bool) (limits : Ctx → Bool) {run : Ctx → State}
    (hr : ∀ x, After s₀ (run x)) : After s₀ (State.adminRow s c op settings limits run) := by
  unfold State.adminRow
  repeat' first
    | with_reducible assumption
    | with_reducible apply endStatus_after
    | exact hr _
    | split

theorem change_after {s₀ s : State} (h₀ : After s₀ s) (x : Ctx) (ch : Change) (r : Reply) : After s₀ (State.change s x ch r) := by
  unfold State.change
  try dsimp only
  repeat' first
    | with_reducible assumption
    | with_reducible apply After.ite
    | (with_reducible refine After.foldl ?_ (fun _ _ _ => ?_))
    | with_reducible apply endCmd_after
    | with_reducible apply toSettings_after
    | split
    | (with_reducible apply After.mk_of; refine AfterK.of ?_; first | with_reducible assumption | with_reducible apply After.ite | (with_reducible refine After.foldl ?_ (fun _ _ _ => ?_)) | with_reducible apply endCmd_after | with_reducible apply toSettings_after)

theorem unlockSeen_after {s₀ s : State} (h₀ : After s₀ s)  : After s₀ (State.unlockSeen s) := by
  unfold State.unlockSeen
  try dsimp only
  repeat' first
    | with_reducible assumption
    | with_reducible apply After.ite
    | (with_reducible refine After.foldl ?_ (fun _ _ _ => ?_))
    | split
    | (with_reducible apply After.mk_of; refine AfterK.of ?_; first | with_reducible assumption | with_reducible apply After.ite | (with_reducible refine After.foldl ?_ (fun _ _ _ => ?_)))

theorem execKeyspaceCreate_after {s : State} (c : Nat) : AfterO s (execKeyspaceCreate c s) := by
  have h0 := After.refl s
  unfold execKeyspaceCreate
  try dsimp only
  repeat' first
    | with_reducible assumption
    | with_reducible apply AfterO.next
    | with_reducible apply AfterO.ite
    | with_reducible apply After.ite
    | (with_reducible refine After.foldl ?_ (fun _ _ _ => ?_))
    | (with_reducible refine adminRow_after ?_ _ _ _ _ (fun _ => ?_); try dsimp only)
    | dsimp only
    | with_reducible apply change_after
    | with_reducible apply drawn_after
    | with_reducible apply endStatus_after
    | split
    | (with_reducible apply After.mk_of; refine AfterK.of ?_; first | with_reducible assumption | with_reducible apply AfterO.next | with_reducible apply AfterO.ite | with_reducible apply After.ite | (with_reducible refine After.foldl ?_ (fun _ _ _ => ?_)) | (with_reducible refine adminRow_after ?_ _ _ _ _ (fun _ => ?_); try dsimp only) | dsimp only | with_reducible apply change_after | with_reducible apply drawn_after | with_reducible apply endStatus_after)

theorem execKeyspaceDelete_after {s : State} (c : Nat) : AfterO s (execKeyspaceDelete c s) := by
  have h0 := After.refl s
  unfold execKeyspaceDelete
  try dsimp only
  repeat' first
    | with_reducible assumption
    | with_reducible apply AfterO.next
    | with_reducible apply AfterO.ite
    | with_reducible apply After.ite
    | (with_reducible refine After.foldl ?_ (fun _ _ _ => ?_))
    | (with_reducible refine adminRow_after ?_ _ _ _ _ (fun _ => ?_); try dsimp only)
    | dsimp only
    | with_reducible apply closeSieves_after
    | with_reducible apply endCmd_after
    | with_reducible apply endStatus_after
    | with_reducible apply toPhase_after
    | with_reducible apply updKeyspace_after
    | split
    | (with_reducible apply After.mk_of; refine AfterK.of ?_; first | with_reducible assumption | with_reducible apply AfterO.next | with_reducible apply AfterO.ite | with_reducible apply After.ite | (with_reducible refine After.foldl ?_ (fun _ _ _ => ?_)) | (with_reducible refine adminRow_after ?_ _ _ _ _ (fun _ => ?_); try dsimp only) | dsimp only | with_reducible apply closeSieves_after | with_reducible apply endCmd_after | with_reducible apply endStatus_after | with_reducible apply toPhase_after | with_reducible apply updKeyspace_after)

theorem dropPairs_after {s₀ s : State} (h₀ : After s₀ s) (ks : Nat) (gone : Succ → Bool) : After s₀ (State.dropPairs s ks gone) := by
  unfold State.dropPairs
  try dsimp only
  repeat' first
    | with_reducible assumption
    | with_reducible apply After.ite
    | (with_reducible refine After.foldl ?_ (fun _ _ _ => ?_))
    | split
    | (with_reducible apply After.mk_of; refine AfterK.of ?_; first | with_reducible assumption | with_reducible apply After.ite | (with_reducible refine After.foldl ?_ (fun _ _ _ => ?_)))

theorem deleteKeyspace_after {s₀ s : State} (h₀ : After s₀ s) (k : Keyspace) : After s₀ (State.deleteKeyspace s k) := by
  unfold State.deleteKeyspace
  try dsimp only
  repeat' first
    | with_reducible assumption
    | with_reducible apply After.ite
    | (with_reducible refine After.foldl ?_ (fun _ _ _ => ?_))
    | with_reducible apply clearPage_after
    | with_reducible apply closeSieves_after
    | with_reducible apply dirLog_after
    | with_reducible apply dropPairs_after
    | with_reducible apply markStale_after
    | with_reducible apply qUpdate_after
    | with_reducible apply removeEntry_after
    | with_reducible apply unlockSeen_after
    | split
    | (with_reducible apply After.mk_of; refine AfterK.of ?_; first | with_reducible assumption | with_reducible apply After.ite | (with_reducible refine After.foldl ?_ (fun _ _ _ => ?_)) | with_reducible apply clearPage_after | with_reducible apply closeSieves_after | with_reducible apply dirLog_after | with_reducible apply dropPairs_after | with_reducible apply markStale_after | with_reducible apply qUpdate_after | with_reducible apply removeEntry_after | with_reducible apply unlockSeen_after)

theorem execKeyspaceDeleteDrained_after {s : State} (c : Nat) : AfterO s (execKeyspaceDeleteDrained c s) := by
  have h0 := After.refl s
  unfold execKeyspaceDeleteDrained
  try dsimp only
  repeat' first
    | with_reducible assumption
    | with_reducible apply AfterO.next
    | with_reducible apply AfterO.ite
    | with_reducible apply After.ite
    | (with_reducible refine After.foldl ?_ (fun _ _ _ => ?_))
    | with_reducible apply cacheDrop_after
    | with_reducible apply deleteKeyspace_after
    | with_reducible apply endStatus_after
    | with_reducible apply formEraseSet_after
    | with_reducible apply relaySettle_after
    | with_reducible apply retrySpace_after
    | with_reducible apply saveSettings_after
    | with_reducible apply updCtx_after
    | split
    | (with_reducible apply After.mk_of; refine AfterK.of ?_; first | with_reducible assumption | with_reducible apply AfterO.next | with_reducible apply AfterO.ite | with_reducible apply After.ite | (with_reducible refine After.foldl ?_ (fun _ _ _ => ?_)) | with_reducible apply cacheDrop_after | with_reducible apply deleteKeyspace_after | with_reducible apply endStatus_after | with_reducible apply formEraseSet_after | with_reducible apply relaySettle_after | with_reducible apply retrySpace_after | with_reducible apply saveSettings_after | with_reducible apply updCtx_after)

theorem execKeyspaceQuery_after {s : State} (c : Nat) : AfterO s (execKeyspaceQuery c s) := by
  have h0 := After.refl s
  unfold execKeyspaceQuery
  try dsimp only
  repeat' first
    | with_reducible assumption
    | with_reducible apply AfterO.next
    | with_reducible apply AfterO.ite
    | with_reducible apply After.ite
    | (with_reducible refine After.foldl ?_ (fun _ _ _ => ?_))
    | (with_reducible refine adminRow_after ?_ _ _ _ _ (fun _ => ?_); try dsimp only)
    | dsimp only
    | with_reducible apply endCmd_after
    | with_reducible apply endStatus_after
    | with_reducible apply updKeyspace_after
    | split
    | (with_reducible apply After.mk_of; refine AfterK.of ?_; first | with_reducible assumption | with_reducible apply AfterO.next | with_reducible apply AfterO.ite | with_reducible apply After.ite | (with_reducible refine After.foldl ?_ (fun _ _ _ => ?_)) | (with_reducible refine adminRow_after ?_ _ _ _ _ (fun _ => ?_); try dsimp only) | dsimp only | with_reducible apply endCmd_after | with_reducible apply endStatus_after | with_reducible apply updKeyspace_after)

theorem loadKey_after {s₀ s : State} (h₀ : After s₀ s) (n : Nat) (previous : Bool) (key : BitVec 256) : After s₀ (State.loadKey s n previous key) := by
  unfold State.loadKey
  try dsimp only
  repeat' first
    | with_reducible assumption
    | with_reducible apply After.ite
    | (with_reducible refine After.foldl ?_ (fun _ _ _ => ?_))
    | with_reducible apply drawn_after
    | with_reducible apply logEvent_after
    | with_reducible apply setPage_after
    | with_reducible apply unlockSeen_after
    | (exact After.congr (drawn_after h₀) rfl)
    | split
    | (with_reducible apply After.mk_of; refine AfterK.of ?_; first | with_reducible assumption | with_reducible apply After.ite | (with_reducible refine After.foldl ?_ (fun _ _ _ => ?_)) | with_reducible apply drawn_after | with_reducible apply logEvent_after | with_reducible apply setPage_after | with_reducible apply unlockSeen_after | (exact After.congr (drawn_after h₀) rfl))

theorem execKeyLoad_after {s : State} (c : Nat) : AfterO s (execKeyLoad c s) := by
  have h0 := After.refl s
  unfold execKeyLoad
  try dsimp only
  repeat' first
    | with_reducible assumption
    | with_reducible apply AfterO.next
    | with_reducible apply AfterO.ite
    | with_reducible apply After.ite
    | (with_reducible refine After.foldl ?_ (fun _ _ _ => ?_))
    | (with_reducible refine adminRow_after ?_ _ _ _ _ (fun _ => ?_); try dsimp only)
    | dsimp only
    | with_reducible apply change_after
    | with_reducible apply endCmd_after
    | with_reducible apply endStatus_after
    | with_reducible apply loadKey_after
    | split
    | (with_reducible apply After.mk_of; refine AfterK.of ?_; first | with_reducible assumption | with_reducible apply AfterO.next | with_reducible apply AfterO.ite | with_reducible apply After.ite | (with_reducible refine After.foldl ?_ (fun _ _ _ => ?_)) | (with_reducible refine adminRow_after ?_ _ _ _ _ (fun _ => ?_); try dsimp only) | dsimp only | with_reducible apply change_after | with_reducible apply endCmd_after | with_reducible apply endStatus_after | with_reducible apply loadKey_after)

theorem execKeyRetire_after {s : State} (c : Nat) : AfterO s (execKeyRetire c s) := by
  have h0 := After.refl s
  unfold execKeyRetire
  try dsimp only
  repeat' first
    | with_reducible assumption
    | with_reducible apply AfterO.next
    | with_reducible apply AfterO.ite
    | with_reducible apply After.ite
    | (with_reducible refine After.foldl ?_ (fun _ _ _ => ?_))
    | (with_reducible refine adminRow_after ?_ _ _ _ _ (fun _ => ?_); try dsimp only)
    | dsimp only
    | with_reducible apply change_after
    | with_reducible apply endCmd_after
    | with_reducible apply endStatus_after
    | split
    | (with_reducible apply After.mk_of; refine AfterK.of ?_; first | with_reducible assumption | with_reducible apply AfterO.next | with_reducible apply AfterO.ite | with_reducible apply After.ite | (with_reducible refine After.foldl ?_ (fun _ _ _ => ?_)) | (with_reducible refine adminRow_after ?_ _ _ _ _ (fun _ => ?_); try dsimp only) | dsimp only | with_reducible apply change_after | with_reducible apply endCmd_after | with_reducible apply endStatus_after)

theorem retireKey_after {s₀ s : State} (h₀ : After s₀ s) (n : Nat) (key : BitVec 256) : After s₀ (State.retireKey s n key) := by
  unfold State.retireKey
  try dsimp only
  repeat' first
    | with_reducible assumption
    | with_reducible apply After.ite
    | (with_reducible refine After.foldl ?_ (fun _ _ _ => ?_))
    | with_reducible apply drawn_after
    | with_reducible apply keyEvents_after
    | with_reducible apply logEvent_after
    | with_reducible apply setPage_after
    | with_reducible apply sweepEnd_after
    | (exact After.congr (drawn_after h₀) rfl)
    | split
    | (with_reducible apply After.mk_of; refine AfterK.of ?_; first | with_reducible assumption | with_reducible apply After.ite | (with_reducible refine After.foldl ?_ (fun _ _ _ => ?_)) | with_reducible apply drawn_after | with_reducible apply keyEvents_after | with_reducible apply logEvent_after | with_reducible apply setPage_after | with_reducible apply sweepEnd_after | (exact After.congr (drawn_after h₀) rfl))

theorem execFenceSet_after {s : State} (c : Nat) : AfterO s (execFenceSet c s) := by
  have h0 := After.refl s
  unfold execFenceSet
  try dsimp only
  repeat' first
    | with_reducible assumption
    | with_reducible apply AfterO.next
    | with_reducible apply AfterO.ite
    | with_reducible apply After.ite
    | (with_reducible refine After.foldl ?_ (fun _ _ _ => ?_))
    | (with_reducible refine adminRow_after ?_ _ _ _ _ (fun _ => ?_); try dsimp only)
    | dsimp only
    | with_reducible apply change_after
    | with_reducible apply endCmd_after
    | split
    | (with_reducible apply After.mk_of; refine AfterK.of ?_; first | with_reducible assumption | with_reducible apply AfterO.next | with_reducible apply AfterO.ite | with_reducible apply After.ite | (with_reducible refine After.foldl ?_ (fun _ _ _ => ?_)) | (with_reducible refine adminRow_after ?_ _ _ _ _ (fun _ => ?_); try dsimp only) | dsimp only | with_reducible apply change_after | with_reducible apply endCmd_after)

theorem setShaper_after {s₀ s : State} (h₀ : After s₀ s) (fence : Bool) (n : Nat) (h : Option Shaper) : After s₀ (State.setShaper s fence n h) := by
  unfold State.setShaper
  try dsimp only
  repeat' first
    | with_reducible assumption
    | with_reducible apply After.ite
    | (with_reducible refine After.foldl ?_ (fun _ _ _ => ?_))
    | with_reducible apply updKeyspace_after
    | with_reducible apply updOwner_after
    | split
    | (with_reducible apply After.mk_of; refine AfterK.of ?_; first | with_reducible assumption | with_reducible apply After.ite | (with_reducible refine After.foldl ?_ (fun _ _ _ => ?_)) | with_reducible apply updKeyspace_after | with_reducible apply updOwner_after)

theorem execShaperSet_after {s : State} (c : Nat) : AfterO s (execShaperSet c s) := by
  have h0 := After.refl s
  unfold execShaperSet
  try dsimp only
  repeat' first
    | with_reducible assumption
    | with_reducible apply AfterO.next
    | with_reducible apply AfterO.ite
    | with_reducible apply After.ite
    | (with_reducible refine After.foldl ?_ (fun _ _ _ => ?_))
    | (with_reducible refine adminRow_after ?_ _ _ _ _ (fun _ => ?_); try dsimp only)
    | dsimp only
    | with_reducible apply change_after
    | with_reducible apply endStatus_after
    | split
    | (with_reducible apply After.mk_of; refine AfterK.of ?_; first | with_reducible assumption | with_reducible apply AfterO.next | with_reducible apply AfterO.ite | with_reducible apply After.ite | (with_reducible refine After.foldl ?_ (fun _ _ _ => ?_)) | (with_reducible refine adminRow_after ?_ _ _ _ _ (fun _ => ?_); try dsimp only) | dsimp only | with_reducible apply change_after | with_reducible apply endStatus_after)

theorem execPowerPolicy_after {s : State} (c : Nat) : AfterO s (execPowerPolicy c s) := by
  have h0 := After.refl s
  unfold execPowerPolicy
  try dsimp only
  repeat' first
    | with_reducible assumption
    | with_reducible apply AfterO.next
    | with_reducible apply AfterO.ite
    | with_reducible apply After.ite
    | (with_reducible refine After.foldl ?_ (fun _ _ _ => ?_))
    | (with_reducible refine adminRow_after ?_ _ _ _ _ (fun _ => ?_); try dsimp only)
    | dsimp only
    | with_reducible apply change_after
    | split
    | (with_reducible apply After.mk_of; refine AfterK.of ?_; first | with_reducible assumption | with_reducible apply AfterO.next | with_reducible apply AfterO.ite | with_reducible apply After.ite | (with_reducible refine After.foldl ?_ (fun _ _ _ => ?_)) | (with_reducible refine adminRow_after ?_ _ _ _ _ (fun _ => ?_); try dsimp only) | dsimp only | with_reducible apply change_after)

theorem clampPower_after {s₀ s : State} (h : After s₀ s) : After s₀ (State.clampPower s) := by
  unfold State.clampPower
  dsimp only
  split
  · exact h
  · refine h.trans ⟨rfl, rfl, Nat.le_refl _, List.prefix_rfl, Nat.le_refl _, Nat.le_refl _, Nat.le_refl _, fun p => ?_, id⟩
    rw [powerOk_iff] at p ⊢
    obtain ⟨p1, p2, p3, p4⟩ := p
    refine ⟨p1, p2, fun e he => ?_, p4⟩
    simp only [Option.some.injEq] at he
    subst he
    cases hx : s.power.exiting with
    | none => rfl
    | some a => exact p3 a hx

theorem execRelaySet_after {s : State} (c : Nat) : AfterO s (execRelaySet c s) := by
  have h0 := After.refl s
  unfold execRelaySet
  try dsimp only
  repeat' first
    | with_reducible assumption
    | with_reducible apply AfterO.next
    | with_reducible apply AfterO.ite
    | with_reducible apply After.ite
    | (with_reducible refine After.foldl ?_ (fun _ _ _ => ?_))
    | (with_reducible refine adminRow_after ?_ _ _ _ _ (fun _ => ?_); try dsimp only)
    | dsimp only
    | with_reducible apply change_after
    | with_reducible apply endCmd_after
    | with_reducible apply endStatus_after
    | with_reducible apply relayFault_after
    | split
    | (with_reducible apply After.mk_of; refine AfterK.of ?_; first | with_reducible assumption | with_reducible apply AfterO.next | with_reducible apply AfterO.ite | with_reducible apply After.ite | (with_reducible refine After.foldl ?_ (fun _ _ _ => ?_)) | (with_reducible refine adminRow_after ?_ _ _ _ _ (fun _ => ?_); try dsimp only) | dsimp only | with_reducible apply change_after | with_reducible apply endCmd_after | with_reducible apply endStatus_after | with_reducible apply relayFault_after)

theorem setChain_after {s₀ s : State} (h₀ : After s₀ s) (ks : Nat) (chain : Option Chain) : After s₀ (State.setChain s ks chain) := by
  unfold State.setChain
  try dsimp only
  repeat' first
    | with_reducible assumption
    | with_reducible apply After.ite
    | (with_reducible refine After.foldl ?_ (fun _ _ _ => ?_))
    | with_reducible apply dropPairs_after
    | with_reducible apply startPair_after
    | with_reducible apply updKeyspace_after
    | split
    | (with_reducible apply After.mk_of; refine AfterK.of ?_; first | with_reducible assumption | with_reducible apply After.ite | (with_reducible refine After.foldl ?_ (fun _ _ _ => ?_)) | with_reducible apply dropPairs_after | with_reducible apply startPair_after | with_reducible apply updKeyspace_after)

theorem execOrchardMapLoad_after {s : State} (c : Nat) : AfterO s (execOrchardMapLoad c s) := by
  have h0 := After.refl s
  unfold execOrchardMapLoad
  try dsimp only
  repeat' first
    | with_reducible assumption
    | with_reducible apply AfterO.next
    | with_reducible apply AfterO.ite
    | with_reducible apply After.ite
    | (with_reducible refine After.foldl ?_ (fun _ _ _ => ?_))
    | (with_reducible refine adminRow_after ?_ _ _ _ _ (fun _ => ?_); try dsimp only)
    | dsimp only
    | with_reducible apply change_after
    | with_reducible apply endStatus_after
    | split
    | (with_reducible apply After.mk_of; refine AfterK.of ?_; first | with_reducible assumption | with_reducible apply AfterO.next | with_reducible apply AfterO.ite | with_reducible apply After.ite | (with_reducible refine After.foldl ?_ (fun _ _ _ => ?_)) | (with_reducible refine adminRow_after ?_ _ _ _ _ (fun _ => ?_); try dsimp only) | dsimp only | with_reducible apply change_after | with_reducible apply endStatus_after)

theorem seedGained_after {s₀ s : State} (h₀ : After s₀ s) (m : OrchardMap) (old : Option OrchardMap) (k : Keyspace) : After s₀ (State.seedGained s m old k) := by
  unfold State.seedGained
  try dsimp only
  repeat' first
    | with_reducible assumption
    | with_reducible apply After.ite
    | (with_reducible refine After.foldl ?_ (fun _ _ _ => ?_))
    | with_reducible apply setPair_after
    | with_reducible apply startPair_after
    | split
    | (with_reducible apply After.mk_of; refine AfterK.of ?_; first | with_reducible assumption | with_reducible apply After.ite | (with_reducible refine After.foldl ?_ (fun _ _ _ => ?_)) | with_reducible apply setPair_after | with_reducible apply startPair_after)

theorem setMap_after {s₀ s : State} (h₀ : After s₀ s) (m : OrchardMap) : After s₀ (State.setMap s m) := by
  unfold State.setMap
  try dsimp only
  repeat' first
    | with_reducible assumption
    | with_reducible apply After.ite
    | (with_reducible refine After.foldl ?_ (fun _ _ _ => ?_))
    | with_reducible apply broadcast_after
    | with_reducible apply dropPairs_after
    | with_reducible apply seedGained_after
    | split
    | (with_reducible apply After.mk_of; refine AfterK.of ?_; first | with_reducible assumption | with_reducible apply After.ite | (with_reducible refine After.foldl ?_ (fun _ _ _ => ?_)) | with_reducible apply broadcast_after | with_reducible apply dropPairs_after | with_reducible apply seedGained_after)

theorem execPromote_after {s : State} (c : Nat) : AfterO s (execPromote c s) := by
  have h0 := After.refl s
  unfold execPromote
  try dsimp only
  repeat' first
    | with_reducible assumption
    | with_reducible apply AfterO.next
    | with_reducible apply AfterO.ite
    | with_reducible apply After.ite
    | (with_reducible refine After.foldl ?_ (fun _ _ _ => ?_))
    | (with_reducible refine adminRow_after ?_ _ _ _ _ (fun _ => ?_); try dsimp only)
    | dsimp only
    | with_reducible apply changeMode_after
    | with_reducible apply endCmd_after
    | with_reducible apply logEvent_after
    | with_reducible apply settle_after
    | split
    | (with_reducible apply After.mk_of; refine AfterK.of ?_; first | with_reducible assumption | with_reducible apply AfterO.next | with_reducible apply AfterO.ite | with_reducible apply After.ite | (with_reducible refine After.foldl ?_ (fun _ _ _ => ?_)) | (with_reducible refine adminRow_after ?_ _ _ _ _ (fun _ => ?_); try dsimp only) | dsimp only | with_reducible apply changeMode_after | with_reducible apply endCmd_after | with_reducible apply logEvent_after | with_reducible apply settle_after)

end Sys2Proof.Machine
end

