-- ==== Sys2Proof/Laws/AfterSettings.lean ====
section
/-! SUPPORT. Every operation of Machine/Settings.lean leaves a state after the one it is given. -/

set_option Elab.async false

namespace Sys2Proof.Machine

theorem execConfigGet_after {s : State} (c : Nat) : AfterO s (execConfigGet c s) := by
  have h0 := After.refl s
  unfold execConfigGet
  try dsimp only
  repeat' first
    | with_reducible assumption
    | with_reducible apply AfterO.next
    | with_reducible apply AfterO.ite
    | with_reducible apply After.ite
    | (with_reducible refine After.foldl ?_ (fun _ _ _ => ?_))
    | (with_reducible refine adminRow_after ?_ _ _ _ _ (fun _ => ?_); try dsimp only)
    | dsimp only
    | with_reducible apply endCmd_after
    | with_reducible apply endStatus_after
    | split
    | (with_reducible apply After.mk_of; refine AfterK.of ?_; first | with_reducible assumption | with_reducible apply AfterO.next | with_reducible apply AfterO.ite | with_reducible apply After.ite | (with_reducible refine After.foldl ?_ (fun _ _ _ => ?_)) | (with_reducible refine adminRow_after ?_ _ _ _ _ (fun _ => ?_); try dsimp only) | dsimp only | with_reducible apply endCmd_after | with_reducible apply endStatus_after)

theorem writeStatusVar_after {s₀ s : State} (h₀ : After s₀ s) (id v : Nat) : After s₀ (State.writeStatusVar s id v) := by
  unfold State.writeStatusVar
  try dsimp only
  repeat' first
    | with_reducible assumption
    | with_reducible apply After.ite
    | (with_reducible refine After.foldl ?_ (fun _ _ _ => ?_))
    | with_reducible apply clearPortEvents_after
    | split
    | (with_reducible apply After.mk_of; refine AfterK.of ?_; first | with_reducible assumption | with_reducible apply After.ite | (with_reducible refine After.foldl ?_ (fun _ _ _ => ?_)) | with_reducible apply clearPortEvents_after)

theorem execConfigSet_after {s : State} (c : Nat) : AfterO s (execConfigSet c s) := by
  have h0 := After.refl s
  unfold execConfigSet
  try dsimp only
  repeat' first
    | with_reducible assumption
    | with_reducible apply AfterO.next
    | with_reducible apply AfterO.ite
    | with_reducible apply After.ite
    | (with_reducible refine After.foldl ?_ (fun _ _ _ => ?_))
    | (with_reducible refine adminRow_after ?_ _ _ _ _ (fun _ => ?_); try dsimp only)
    | dsimp only
    | with_reducible apply change_after
    | with_reducible apply endCmd_after
    | with_reducible apply endStatus_after
    | with_reducible apply writeStatusVar_after
    | split
    | (with_reducible apply After.mk_of; refine AfterK.of ?_; first | with_reducible assumption | with_reducible apply AfterO.next | with_reducible apply AfterO.ite | with_reducible apply After.ite | (with_reducible refine After.foldl ?_ (fun _ _ _ => ?_)) | (with_reducible refine adminRow_after ?_ _ _ _ _ (fun _ => ?_); try dsimp only) | dsimp only | with_reducible apply change_after | with_reducible apply endCmd_after | with_reducible apply endStatus_after | with_reducible apply writeStatusVar_after)

theorem startTest_after {s₀ s : State} (h₀ : After s₀ s)  : After s₀ (State.startTest s) := by
  unfold State.startTest
  try dsimp only
  repeat' first
    | with_reducible assumption
    | with_reducible apply After.ite
    | (with_reducible refine After.foldl ?_ (fun _ _ _ => ?_))
    | split
    | (with_reducible apply After.mk_of; refine AfterK.of ?_; first | with_reducible assumption | with_reducible apply After.ite | (with_reducible refine After.foldl ?_ (fun _ _ _ => ?_)))

theorem execHoldupTestNow_after {s : State} (c : Nat) : AfterO s (execHoldupTestNow c s) := by
  have h0 := After.refl s
  unfold execHoldupTestNow
  try dsimp only
  repeat' first
    | with_reducible assumption
    | with_reducible apply AfterO.next
    | with_reducible apply AfterO.ite
    | with_reducible apply After.ite
    | (with_reducible refine After.foldl ?_ (fun _ _ _ => ?_))
    | (with_reducible refine adminRow_after ?_ _ _ _ _ (fun _ => ?_); try dsimp only)
    | dsimp only
    | with_reducible apply endCmd_after
    | with_reducible apply startTest_after
    | split
    | (with_reducible apply After.mk_of; refine AfterK.of ?_; first | with_reducible assumption | with_reducible apply AfterO.next | with_reducible apply AfterO.ite | with_reducible apply After.ite | (with_reducible refine After.foldl ?_ (fun _ _ _ => ?_)) | (with_reducible refine adminRow_after ?_ _ _ _ _ (fun _ => ?_); try dsimp only) | dsimp only | with_reducible apply endCmd_after | with_reducible apply startTest_after)

theorem setConfig_after {s₀ s : State} (h₀ : After s₀ s) (id v : Nat) : After s₀ (State.setConfig s id v) := by
  unfold State.setConfig
  try dsimp only
  repeat' first
    | with_reducible assumption
    | with_reducible apply After.ite
    | (with_reducible refine After.foldl ?_ (fun _ _ _ => ?_))
    | with_reducible apply clampPower_after
    | with_reducible apply retrainPort_after
    | with_reducible apply settleScan_after
    | with_reducible apply cacheDrop_after
    | split
    | (with_reducible apply After.mk_of; refine AfterK.of ?_; first | with_reducible assumption | with_reducible apply cacheDrop_after | with_reducible apply settleScan_after | with_reducible apply After.ite | (with_reducible refine After.foldl ?_ (fun _ _ _ => ?_)) | with_reducible apply clampPower_after | with_reducible apply retrainPort_after)

theorem applyChange_after {s₀ s : State} (h₀ : After s₀ s) (x0 : Change) : After s₀ (State.applyChange s x0) := by
  unfold State.applyChange
  try dsimp only
  repeat' first
    | with_reducible assumption
    | with_reducible apply After.ite
    | (with_reducible refine After.foldl ?_ (fun _ _ _ => ?_))
    | with_reducible apply clampPower_after
    | with_reducible apply loadKey_after
    | with_reducible apply retireKey_after
    | with_reducible apply setChain_after
    | with_reducible apply setConfig_after
    | with_reducible apply setFence_after
    | with_reducible apply setMap_after
    | with_reducible apply setShaper_after
    | split
    | (with_reducible apply After.mk_of; refine AfterK.of ?_; first | with_reducible assumption | with_reducible apply After.ite | (with_reducible refine After.foldl ?_ (fun _ _ _ => ?_)) | with_reducible apply clampPower_after | with_reducible apply loadKey_after | with_reducible apply retireKey_after | with_reducible apply setChain_after | with_reducible apply setConfig_after | with_reducible apply setFence_after | with_reducible apply setMap_after | with_reducible apply setShaper_after)

theorem execSettingsWriteDone_after {s : State} (c : Nat) : AfterO s (execSettingsWriteDone c s) := by
  have h0 := After.refl s
  unfold execSettingsWriteDone
  try dsimp only
  repeat' first
    | with_reducible assumption
    | with_reducible apply AfterO.next
    | with_reducible apply AfterO.ite
    | with_reducible apply After.ite
    | (with_reducible refine After.foldl ?_ (fun _ _ _ => ?_))
    | with_reducible apply applyChange_after
    | with_reducible apply change_after
    | with_reducible apply endCmd_after
    | with_reducible apply relaySettle_after
    | with_reducible apply saveSettings_after
    | split
    | (with_reducible apply After.mk_of; refine AfterK.of ?_; first | with_reducible assumption | with_reducible apply AfterO.next | with_reducible apply AfterO.ite | with_reducible apply After.ite | (with_reducible refine After.foldl ?_ (fun _ _ _ => ?_)) | with_reducible apply applyChange_after | with_reducible apply change_after | with_reducible apply endCmd_after | with_reducible apply relaySettle_after | with_reducible apply saveSettings_after)

end Sys2Proof.Machine
end

