-- ==== Sys2Proof/Laws/AfterHealth.lean ====
section
/-! SUPPORT. Every operation of Machine/Health.lean leaves a state after the one it is given. -/

set_option Elab.async false

namespace Sys2Proof.Machine

theorem execHealthRead_after {s : State} (c : Nat) : AfterO s (execHealthRead c s) := by
  have h0 := After.refl s
  unfold execHealthRead
  try dsimp only
  repeat' first
    | with_reducible assumption
    | with_reducible apply AfterO.next
    | with_reducible apply AfterO.ite
    | with_reducible apply After.ite
    | (with_reducible refine After.foldl ?_ (fun _ _ _ => ?_))
    | (with_reducible refine adminRow_after ?_ _ _ _ _ (fun _ => ?_); try dsimp only)
    | dsimp only
    | with_reducible apply endCmd_after
    | with_reducible apply endStatus_after
    | split
    | (with_reducible apply After.mk_of; refine AfterK.of ?_; first | with_reducible assumption | with_reducible apply AfterO.next | with_reducible apply AfterO.ite | with_reducible apply After.ite | (with_reducible refine After.foldl ?_ (fun _ _ _ => ?_)) | (with_reducible refine adminRow_after ?_ _ _ _ _ (fun _ => ?_); try dsimp only) | dsimp only | with_reducible apply endCmd_after | with_reducible apply endStatus_after)

theorem execIdentify_after {s : State} (c : Nat) : AfterO s (execIdentify c s) := by
  have h0 := After.refl s
  unfold execIdentify
  try dsimp only
  repeat' first
    | with_reducible assumption
    | with_reducible apply AfterO.next
    | with_reducible apply AfterO.ite
    | with_reducible apply After.ite
    | (with_reducible refine After.foldl ?_ (fun _ _ _ => ?_))
    | (with_reducible refine adminRow_after ?_ _ _ _ _ (fun _ => ?_); try dsimp only)
    | dsimp only
    | with_reducible apply endCmd_after
    | split
    | (with_reducible apply After.mk_of; refine AfterK.of ?_; first | with_reducible assumption | with_reducible apply AfterO.next | with_reducible apply AfterO.ite | with_reducible apply After.ite | (with_reducible refine After.foldl ?_ (fun _ _ _ => ?_)) | (with_reducible refine adminRow_after ?_ _ _ _ _ (fun _ => ?_); try dsimp only) | dsimp only | with_reducible apply endCmd_after)

theorem execLogRead_after {s : State} (c : Nat) : AfterO s (execLogRead c s) := by
  have h0 := After.refl s
  unfold execLogRead
  try dsimp only
  repeat' first
    | with_reducible assumption
    | with_reducible apply AfterO.next
    | with_reducible apply AfterO.ite
    | with_reducible apply After.ite
    | (with_reducible refine After.foldl ?_ (fun _ _ _ => ?_))
    | (with_reducible refine adminRow_after ?_ _ _ _ _ (fun _ => ?_); try dsimp only)
    | dsimp only
    | with_reducible apply endCmd_after
    | split
    | (with_reducible apply After.mk_of; refine AfterK.of ?_; first | with_reducible assumption | with_reducible apply AfterO.next | with_reducible apply AfterO.ite | with_reducible apply After.ite | (with_reducible refine After.foldl ?_ (fun _ _ _ => ?_)) | (with_reducible refine adminRow_after ?_ _ _ _ _ (fun _ => ?_); try dsimp only) | dsimp only | with_reducible apply endCmd_after)

end Sys2Proof.Machine
end

