-- ==== Sys2Proof/Laws/AfterTurnoff.lean ====
section
/-! SUPPORT. Every operation of Machine/Turnoff.lean leaves a state after the one it is given. -/

set_option Elab.async false

namespace Sys2Proof.Machine

theorem updFwSlot_after {s₀ s : State} (h₀ : After s₀ s) (n : Nat) (f : FwSlot → FwSlot) : After s₀ (State.updFwSlot s n f) := by
  unfold State.updFwSlot
  try dsimp only
  repeat' first
    | with_reducible assumption
    | with_reducible apply After.ite
    | (with_reducible refine After.foldl ?_ (fun _ _ _ => ?_))
    | split
    | (with_reducible apply After.mk_of; refine AfterK.of ?_; first | with_reducible assumption | with_reducible apply After.ite | (with_reducible refine After.foldl ?_ (fun _ _ _ => ?_)))

theorem fwState_after {s₀ s : State} (h₀ : After s₀ s) (st reason version : Nat) : After s₀ (State.fwState s st reason version) := by
  unfold State.fwState
  try dsimp only
  repeat' first
    | with_reducible assumption
    | with_reducible apply After.ite
    | (with_reducible refine After.foldl ?_ (fun _ _ _ => ?_))
    | with_reducible apply alert_after
    | with_reducible apply broadcast_after
    | with_reducible apply logEvent_after
    | split
    | (with_reducible apply After.mk_of; refine AfterK.of ?_; first | with_reducible assumption | with_reducible apply After.ite | (with_reducible refine After.foldl ?_ (fun _ _ _ => ?_)) | with_reducible apply alert_after | with_reducible apply broadcast_after | with_reducible apply logEvent_after)

theorem fwLoss_after {s₀ s : State} (h₀ : After s₀ s) (reason : Nat) : After s₀ (State.fwLoss s reason) := by
  unfold State.fwLoss
  try dsimp only
  repeat' first
    | with_reducible assumption
    | with_reducible apply After.ite
    | (with_reducible refine After.foldl ?_ (fun _ _ _ => ?_))
    | split
    | (with_reducible apply After.mk_of; refine AfterK.of ?_; first | with_reducible assumption | with_reducible apply After.ite | (with_reducible refine After.foldl ?_ (fun _ _ _ => ?_)))

theorem bootImage_after {s₀ s : State} (h₀ : After s₀ s)  : After s₀ (State.bootImage s) := by
  unfold State.bootImage
  try dsimp only
  repeat' first
    | with_reducible assumption
    | with_reducible apply After.ite
    | (with_reducible refine After.foldl ?_ (fun _ _ _ => ?_))
    | split
    | (with_reducible apply After.mk_of; refine AfterK.of ?_; first | with_reducible assumption | with_reducible apply After.ite | (with_reducible refine After.foldl ?_ (fun _ _ _ => ?_)))

theorem awaitConfirm_after {s₀ s : State} (h₀ : After s₀ s)  : After s₀ (State.awaitConfirm s) := by
  unfold State.awaitConfirm
  try dsimp only
  repeat' first
    | with_reducible assumption
    | with_reducible apply After.ite
    | (with_reducible refine After.foldl ?_ (fun _ _ _ => ?_))
    | with_reducible apply fwState_after
    | split
    | (with_reducible apply After.mk_of; refine AfterK.of ?_; first | with_reducible assumption | with_reducible apply After.ite | (with_reducible refine After.foldl ?_ (fun _ _ _ => ?_)) | with_reducible apply fwState_after)

theorem fwAfterFilling_after {s₀ s : State} (h₀ : After s₀ s)  : After s₀ (State.fwAfterFilling s) := by
  unfold State.fwAfterFilling
  try dsimp only
  repeat' first
    | with_reducible assumption
    | with_reducible apply After.ite
    | (with_reducible refine After.foldl ?_ (fun _ _ _ => ?_))
    | with_reducible apply awaitConfirm_after
    | with_reducible apply fwState_after
    | with_reducible apply updFwSlot_after
    | split
    | (with_reducible apply After.mk_of; refine AfterK.of ?_; first | with_reducible assumption | with_reducible apply After.ite | (with_reducible refine After.foldl ?_ (fun _ _ _ => ?_)) | with_reducible apply awaitConfirm_after | with_reducible apply fwState_after | with_reducible apply updFwSlot_after)

theorem abandonForwards_after {s₀ s : State} (h₀ : After s₀ s)  : After s₀ (State.abandonForwards s) := by
  unfold State.abandonForwards
  try dsimp only
  repeat' first
    | with_reducible assumption
    | with_reducible apply After.ite
    | (with_reducible refine After.foldl ?_ (fun _ _ _ => ?_))
    | with_reducible apply makeBehind_after
    | split
    | (with_reducible apply After.mk_of; refine AfterK.of ?_; first | with_reducible assumption | with_reducible apply After.ite | (with_reducible refine After.foldl ?_ (fun _ _ _ => ?_)) | with_reducible apply makeBehind_after)

theorem keepPairs_after {s₀ s : State} (h₀ : After s₀ s) (flushed : Bool) : After s₀ (State.keepPairs s flushed) := by
  unfold State.keepPairs
  try dsimp only
  repeat' first
    | with_reducible assumption
    | with_reducible apply After.ite
    | (with_reducible refine After.foldl ?_ (fun _ _ _ => ?_))
    | split
    | (with_reducible apply After.mk_of; refine AfterK.of ?_; first | with_reducible assumption | with_reducible apply After.ite | (with_reducible refine After.foldl ?_ (fun _ _ _ => ?_)))

theorem dropAll_after {s₀ s : State} (h₀ : After s₀ s) (reason : Nat) : After s₀ (State.dropAll s reason) := by
  unfold State.dropAll
  try dsimp only
  repeat' first
    | with_reducible assumption
    | with_reducible apply After.ite
    | (with_reducible refine After.foldl ?_ (fun _ _ _ => ?_))
    | with_reducible apply abandonForwards_after
    | with_reducible apply closeSieves_after
    | with_reducible apply journalLate_after
    | split
    | (with_reducible apply After.mk_of; refine AfterK.of ?_; first | with_reducible assumption | with_reducible apply After.ite | (with_reducible refine After.foldl ?_ (fun _ _ _ => ?_)) | with_reducible apply abandonForwards_after | with_reducible apply closeSieves_after | with_reducible apply journalLate_after)

theorem linksOff_after {s₀ s : State} (h₀ : After s₀ s)  : After s₀ (State.linksOff s) := by
  unfold State.linksOff
  try dsimp only
  repeat' first
    | with_reducible assumption
    | with_reducible apply After.ite
    | (with_reducible refine After.foldl ?_ (fun _ _ _ => ?_))
    | split
    | (with_reducible apply After.mk_of; refine AfterK.of ?_; first | with_reducible assumption | with_reducible apply After.ite | (with_reducible refine After.foldl ?_ (fun _ _ _ => ?_)))

theorem flushLogs_after {s₀ s : State} (h₀ : After s₀ s)  : After s₀ (State.flushLogs s) := by
  unfold State.flushLogs
  try dsimp only
  repeat' first
    | with_reducible assumption
    | with_reducible apply After.ite
    | (with_reducible refine After.foldl ?_ (fun _ _ _ => ?_))
    | with_reducible apply program_after
    | split
    | (with_reducible apply After.mk_of; refine AfterK.of ?_; first | with_reducible assumption | with_reducible apply After.ite | (with_reducible refine After.foldl ?_ (fun _ _ _ => ?_)) | with_reducible apply program_after)

theorem closeParity_after {s₀ s : State} (h₀ : After s₀ s)  : After s₀ (State.closeParity s) := by
  unfold State.closeParity
  try dsimp only
  repeat' first
    | with_reducible assumption
    | with_reducible apply After.ite
    | (with_reducible refine After.foldl ?_ (fun _ _ _ => ?_))
    | split
    | (with_reducible apply After.mk_of; refine AfterK.of ?_; first | with_reducible assumption | with_reducible apply After.ite | (with_reducible refine After.foldl ?_ (fun _ _ _ => ?_)))

theorem writeChunk_after {s₀ s : State} (h₀ : After s₀ s) (chunk : Nat) : After s₀ (State.writeChunk s chunk) := by
  unfold State.writeChunk
  try dsimp only
  repeat' first
    | with_reducible assumption
    | with_reducible apply After.ite
    | (with_reducible refine After.foldl ?_ (fun _ _ _ => ?_))
    | split
    | (with_reducible apply After.mk_of; refine AfterK.of ?_; first | with_reducible assumption | with_reducible apply After.ite | (with_reducible refine After.foldl ?_ (fun _ _ _ => ?_)))

theorem writeChunks_after {s₀ s : State} (h₀ : After s₀ s)  : After s₀ (State.writeChunks s) := by
  unfold State.writeChunks
  try dsimp only
  repeat' first
    | with_reducible assumption
    | with_reducible apply After.ite
    | (with_reducible refine After.foldl ?_ (fun _ _ _ => ?_))
    | with_reducible apply writeChunk_after
    | split
    | (with_reducible apply After.mk_of; refine AfterK.of ?_; first | with_reducible assumption | with_reducible apply After.ite | (with_reducible refine After.foldl ?_ (fun _ _ _ => ?_)) | with_reducible apply writeChunk_after)

theorem mainOff_after {s₀ s : State} (h : After s₀ s) : After s₀ (State.mainOff s) := by
  unfold State.mainOff
  exact powerZero_after (closeParity_after (eraseKeys_after (linksOff_after (dropAll_after h 2)))) rfl

theorem clearCounts_after {s₀ s : State} (h₀ : After s₀ s)  : After s₀ (State.clearCounts s) := by
  unfold State.clearCounts
  try dsimp only
  repeat' first
    | with_reducible assumption
    | with_reducible apply After.ite
    | (with_reducible refine After.foldl ?_ (fun _ _ _ => ?_))
    | split
    | (with_reducible apply After.mk_of; refine AfterK.of ?_; first | with_reducible assumption | with_reducible apply After.ite | (with_reducible refine After.foldl ?_ (fun _ _ _ => ?_)))

theorem beginFilling_after {s₀ s : State} (h : After s₀ s) : After s₀ (State.beginFilling s) := by
  unfold State.beginFilling
  exact changeMode_after (console_after (timeBase_after (bootImage_after (clearCounts_after h)) rfl) _) _

theorem toDormant_after {s₀ s : State} (h₀ : After s₀ s)  : After s₀ (State.toDormant s) := by
  unfold State.toDormant
  try dsimp only
  repeat' first
    | with_reducible assumption
    | with_reducible apply After.ite
    | (with_reducible refine After.foldl ?_ (fun _ _ _ => ?_))
    | with_reducible apply changeMode_after
    | with_reducible apply keepPairs_after
    | with_reducible apply mainOff_after
    | split
    | (with_reducible apply After.mk_of; refine AfterK.of ?_; first | with_reducible assumption | with_reducible apply After.ite | (with_reducible refine After.foldl ?_ (fun _ _ _ => ?_)) | with_reducible apply changeMode_after | with_reducible apply keepPairs_after | with_reducible apply mainOff_after)

theorem startFault_after {s₀ s : State} (h₀ : After s₀ s) (cause island : Nat) : After s₀ (State.startFault s cause island) := by
  unfold State.startFault
  try dsimp only
  repeat' first
    | with_reducible assumption
    | with_reducible apply After.ite
    | (with_reducible refine After.foldl ?_ (fun _ _ _ => ?_))
    | with_reducible apply alert_after
    | with_reducible apply fwLoss_after
    | with_reducible apply toDormant_after
    | split
    | (with_reducible apply After.mk_of; refine AfterK.of ?_; first | with_reducible assumption | with_reducible apply After.ite | (with_reducible refine After.foldl ?_ (fun _ _ _ => ?_)) | with_reducible apply alert_after | with_reducible apply fwLoss_after | with_reducible apply toDormant_after)

theorem recordMode_after {s₀ s : State} (h₀ : After s₀ s)  : After s₀ (State.recordMode s) := by
  unfold State.recordMode
  try dsimp only
  repeat' first
    | with_reducible assumption
    | with_reducible apply After.ite
    | (with_reducible refine After.foldl ?_ (fun _ _ _ => ?_))
    | split
    | (with_reducible apply After.mk_of; refine AfterK.of ?_; first | with_reducible assumption | with_reducible apply After.ite | (with_reducible refine After.foldl ?_ (fun _ _ _ => ?_)))

theorem startWaltz_after {s₀ s : State} (h : After s₀ s) (trigger : Nat) : After s₀ (State.startWaltz s trigger) := by
  unfold State.startWaltz
  split
  · exact h
  · exact powerZero_after (linksOff_after (dropAll_after (fwLoss_after h 6) 2)) rfl

theorem phaseDone_after {s₀ s : State} (h : After s₀ s) (f : Flush) : After s₀ (State.phaseDone s f).1 := by
  unfold State.phaseDone
  dsimp only
  repeat' first
    | with_reducible assumption
    | with_reducible apply saveSettings_after
    | with_reducible apply keepPairs_after
    | with_reducible apply closeParity_after
    | with_reducible apply flushLogs_after
    | with_reducible apply writeChunks_after
    | split

theorem finishFlush_after {s₀ s : State} (h₀ : After s₀ s) (f : Flush) (last : Nat) : After s₀ (State.finishFlush s f last) := by
  unfold State.finishFlush
  try dsimp only
  repeat' first
    | with_reducible assumption
    | with_reducible apply After.ite
    | (with_reducible refine After.foldl ?_ (fun _ _ _ => ?_))
    | with_reducible apply changeMode_after
    | with_reducible apply keepPairs_after
    | with_reducible apply mainOff_after
    | with_reducible apply recordMode_after
    | with_reducible apply saveSettings_after
    | split
    | (with_reducible apply After.mk_of; refine AfterK.of ?_; first | with_reducible assumption | with_reducible apply After.ite | (with_reducible refine After.foldl ?_ (fun _ _ _ => ?_)) | with_reducible apply changeMode_after | with_reducible apply keepPairs_after | with_reducible apply mainOff_after | with_reducible apply recordMode_after | with_reducible apply saveSettings_after)

theorem restore_after {s₀ s : State} (h₀ : After s₀ s) (b : Settings) : After s₀ (State.restore s b) := by
  unfold State.restore
  try dsimp only
  repeat' first
    | with_reducible assumption
    | with_reducible apply After.ite
    | (with_reducible refine After.foldl ?_ (fun _ _ _ => ?_))
    | split
    | (with_reducible apply After.mk_of; refine AfterK.of ?_; first | with_reducible assumption | with_reducible apply After.ite | (with_reducible refine After.foldl ?_ (fun _ _ _ => ?_)))

theorem formatRead_after {s₀ s : State} (h₀ : After s₀ s)  : After s₀ (State.formatRead s) := by
  unfold State.formatRead
  try dsimp only
  repeat' first
    | with_reducible assumption
    | with_reducible apply After.ite
    | (with_reducible refine After.foldl ?_ (fun _ _ _ => ?_))
    | split
    | (with_reducible apply After.mk_of; refine AfterK.of ?_; first | with_reducible assumption | with_reducible apply After.ite | (with_reducible refine After.foldl ?_ (fun _ _ _ => ?_)))

theorem readSettings_after {s₀ s : State} (h₀ : After s₀ s)  : After s₀ (State.readSettings s) := by
  unfold State.readSettings
  try dsimp only
  repeat' first
    | with_reducible assumption
    | with_reducible apply After.ite
    | (with_reducible refine After.foldl ?_ (fun _ _ _ => ?_))
    | with_reducible apply formatRead_after
    | with_reducible apply freeze_after
    | with_reducible apply restore_after
    | with_reducible apply saveSettings_after
    | split
    | (with_reducible apply After.mk_of; refine AfterK.of ?_; first | with_reducible assumption | with_reducible apply After.ite | (with_reducible refine After.foldl ?_ (fun _ _ _ => ?_)) | with_reducible apply formatRead_after | with_reducible apply freeze_after | with_reducible apply restore_after | with_reducible apply saveSettings_after)

end Sys2Proof.Machine
end

