-- ==== Sys2Proof/Laws/AfterStartup.lean ====
section
/-! SUPPORT. Every operation of Machine/Startup.lean leaves a state after the one it is given. -/

set_option Elab.async false

namespace Sys2Proof.Machine

theorem sampleStraps_after {s₀ s : State} (h₀ : After s₀ s) (straps : Straps) : After s₀ (State.sampleStraps s straps) := by
  unfold State.sampleStraps
  try dsimp only
  repeat' first
    | with_reducible assumption
    | with_reducible apply After.ite
    | (with_reducible refine After.foldl ?_ (fun _ _ _ => ?_))
    | with_reducible apply startFault_after
    | split
    | (with_reducible apply After.mk_of; refine AfterK.of ?_; first | with_reducible assumption | with_reducible apply After.ite | (with_reducible refine After.foldl ?_ (fun _ _ _ => ?_)) | with_reducible apply startFault_after)

theorem execP3v3AuxInRange_after {s : State} (straps : Straps) : AfterO s (execP3v3AuxInRange straps s) := by
  have h0 := After.refl s
  unfold execP3v3AuxInRange
  try dsimp only
  repeat' first
    | with_reducible assumption
    | with_reducible apply AfterO.next
    | with_reducible apply AfterO.ite
    | with_reducible apply After.ite
    | (with_reducible refine After.foldl ?_ (fun _ _ _ => ?_))
    | with_reducible apply sampleStraps_after
    | split
    | (with_reducible apply After.mk_of; refine AfterK.of ?_; first | with_reducible assumption | with_reducible apply AfterO.next | with_reducible apply AfterO.ite | with_reducible apply After.ite | (with_reducible refine After.foldl ?_ (fun _ _ _ => ?_)) | with_reducible apply sampleStraps_after)

theorem execPwrEnWatchStart_after {s : State}  : AfterO s (execPwrEnWatchStart s) := by
  have h0 := After.refl s
  unfold execPwrEnWatchStart
  try dsimp only
  repeat' first
    | with_reducible assumption
    | with_reducible apply AfterO.next
    | with_reducible apply AfterO.ite
    | with_reducible apply After.ite
    | (with_reducible refine After.foldl ?_ (fun _ _ _ => ?_))
    | split
    | (with_reducible apply After.mk_of; refine AfterK.of ?_; first | with_reducible assumption | with_reducible apply AfterO.next | with_reducible apply AfterO.ite | with_reducible apply After.ite | (with_reducible refine After.foldl ?_ (fun _ _ _ => ?_)))

theorem execPwrEnRise_after {s : State} (straps : Straps) : AfterO s (execPwrEnRise straps s) := by
  have h0 := After.refl s
  unfold execPwrEnRise
  try dsimp only
  repeat' first
    | with_reducible assumption
    | with_reducible apply AfterO.next
    | with_reducible apply AfterO.ite
    | with_reducible apply After.ite
    | (with_reducible refine After.foldl ?_ (fun _ _ _ => ?_))
    | with_reducible apply beginFilling_after
    | with_reducible apply sampleStraps_after
    | split
    | (with_reducible apply After.mk_of; refine AfterK.of ?_; first | with_reducible assumption | with_reducible apply AfterO.next | with_reducible apply AfterO.ite | with_reducible apply After.ite | (with_reducible refine After.foldl ?_ (fun _ _ _ => ?_)) | with_reducible apply beginFilling_after | with_reducible apply sampleStraps_after)

theorem execP12vInRange_after {s : State}  : AfterO s (execP12vInRange s) := by
  have h0 := After.refl s
  unfold execP12vInRange
  try dsimp only
  repeat' first
    | with_reducible assumption
    | with_reducible apply AfterO.next
    | with_reducible apply AfterO.ite
    | with_reducible apply After.ite
    | (with_reducible refine After.foldl ?_ (fun _ _ _ => ?_))
    | with_reducible apply beginFilling_after
    | split
    | (with_reducible apply After.mk_of; refine AfterK.of ?_; first | with_reducible assumption | with_reducible apply AfterO.next | with_reducible apply AfterO.ite | with_reducible apply After.ite | (with_reducible refine After.foldl ?_ (fun _ _ _ => ?_)) | with_reducible apply beginFilling_after)

theorem supplyLost_after {s₀ s : State} (h₀ : After s₀ s) (trigger : Nat) : After s₀ (State.supplyLost s trigger) := by
  unfold State.supplyLost
  try dsimp only
  repeat' first
    | with_reducible assumption
    | with_reducible apply After.ite
    | (with_reducible refine After.foldl ?_ (fun _ _ _ => ?_))
    | with_reducible apply fwLoss_after
    | with_reducible apply startWaltz_after
    | with_reducible apply toDormant_after
    | split
    | (with_reducible apply After.mk_of; refine AfterK.of ?_; first | with_reducible assumption | with_reducible apply After.ite | (with_reducible refine After.foldl ?_ (fun _ _ _ => ?_)) | with_reducible apply fwLoss_after | with_reducible apply startWaltz_after | with_reducible apply toDormant_after)

theorem execPwrEnFall_after {s : State}  : AfterO s (execPwrEnFall s) := by
  have h0 := After.refl s
  unfold execPwrEnFall
  try dsimp only
  repeat' first
    | with_reducible assumption
    | with_reducible apply AfterO.next
    | with_reducible apply AfterO.ite
    | with_reducible apply After.ite
    | (with_reducible refine After.foldl ?_ (fun _ _ _ => ?_))
    | with_reducible apply supplyLost_after
    | split
    | (with_reducible apply After.mk_of; refine AfterK.of ?_; first | with_reducible assumption | with_reducible apply AfterO.next | with_reducible apply AfterO.ite | with_reducible apply After.ite | (with_reducible refine After.foldl ?_ (fun _ _ _ => ?_)) | with_reducible apply supplyLost_after)

theorem execP12vLoss_after {s : State} (removed : Bool) : AfterO s (execP12vLoss removed s) := by
  have h0 := After.refl s
  unfold execP12vLoss
  try dsimp only
  repeat' first
    | with_reducible assumption
    | with_reducible apply AfterO.next
    | with_reducible apply AfterO.ite
    | with_reducible apply After.ite
    | (with_reducible refine After.foldl ?_ (fun _ _ _ => ?_))
    | with_reducible apply supplyLost_after
    | split
    | (with_reducible apply After.mk_of; refine AfterK.of ?_; first | with_reducible assumption | with_reducible apply AfterO.next | with_reducible apply AfterO.ite | with_reducible apply After.ite | (with_reducible refine After.foldl ?_ (fun _ _ _ => ?_)) | with_reducible apply supplyLost_after)

theorem replay_after {s₀ s : State} (h₀ : After s₀ s) (sideB : Bool) (r : LogRec) : After s₀ (State.replay sideB s r) := by
  unfold State.replay
  try dsimp only
  repeat' first
    | with_reducible assumption
    | with_reducible apply After.ite
    | (with_reducible refine After.foldl ?_ (fun _ _ _ => ?_))
    | (refine rnd_after (k := 17) ?_ (by rfl); first | with_reducible assumption | with_reducible apply After.ite | (with_reducible refine After.foldl ?_ (fun _ _ _ => ?_)))
    | split
    | (with_reducible apply After.mk_of; refine AfterK.of ?_; first | with_reducible assumption | with_reducible apply After.ite | (with_reducible refine After.foldl ?_ (fun _ _ _ => ?_)) | (refine rnd_after (k := 17) ?_ (by rfl); first | with_reducible assumption | with_reducible apply After.ite | (with_reducible refine After.foldl ?_ (fun _ _ _ => ?_))))

theorem enterFound_after {s₀ s : State} (h₀ : After s₀ s) (loc : Nat) : After s₀ (State.enterFound s loc) := by
  unfold State.enterFound
  try dsimp only
  repeat' first
    | with_reducible assumption
    | with_reducible apply After.ite
    | (with_reducible refine After.foldl ?_ (fun _ _ _ => ?_))
    | with_reducible apply dirLog_after
    | with_reducible apply dirtyChunk_after
    | with_reducible apply replay_after
    | split
    | (with_reducible apply After.mk_of; refine AfterK.of ?_; first | with_reducible assumption | with_reducible apply After.ite | (with_reducible refine After.foldl ?_ (fun _ _ _ => ?_)) | with_reducible apply dirLog_after | with_reducible apply dirtyChunk_after | with_reducible apply replay_after)

theorem enterAll_after {s₀ s : State} (h : After s₀ s) (locs : List Nat) : After s₀ (State.enterAll s locs).1 := by
  unfold State.enterAll
  have key : ∀ (l : List Nat) (a : State × Nat), After s₀ a.1 → After s₀ (l.foldl (fun a l =>
      let t := a.1.enterFound l; (t, a.2 + b1 (t.isMapped l && !a.1.isMapped l))) a).1 := by
    intro l
    induction l with
    | nil => exact fun a ha => ha
    | cons p l ih =>
      intro a ha
      rw [List.foldl_cons]
      exact ih _ (enterFound_after ha _)
  exact key _ _ h

theorem enterWays_after {s₀ s : State} (h₀ : After s₀ s) (e : Entry) : After s₀ (State.enterWays s e) := by
  unfold State.enterWays
  try dsimp only
  repeat' first
    | with_reducible assumption
    | with_reducible apply After.ite
    | (with_reducible refine After.foldl ?_ (fun _ _ _ => ?_))
    | with_reducible apply qEnter_after
    | split
    | (with_reducible apply After.mk_of; refine AfterK.of ?_; first | with_reducible assumption | with_reducible apply After.ite | (with_reducible refine After.foldl ?_ (fun _ _ _ => ?_)) | with_reducible apply qEnter_after)

theorem drainQuince_after {s₀ s : State} (h₀ : After s₀ s)  : After s₀ (State.drainQuince s) := by
  unfold State.drainQuince
  try dsimp only
  repeat' first
    | with_reducible assumption
    | with_reducible apply After.ite
    | (with_reducible refine After.foldl ?_ (fun _ _ _ => ?_))
    | split
    | (with_reducible apply After.mk_of; refine AfterK.of ?_; first | with_reducible assumption | with_reducible apply After.ite | (with_reducible refine After.foldl ?_ (fun _ _ _ => ?_)))

theorem replayLogs_after {s₀ s : State} (h₀ : After s₀ s) (lost : List LostPage) : After s₀ (State.replayLogs s lost) := by
  unfold State.replayLogs
  try dsimp only
  repeat' first
    | with_reducible assumption
    | with_reducible apply After.ite
    | (with_reducible refine After.foldl ?_ (fun _ _ _ => ?_))
    | with_reducible apply replay_after
    | split
    | (with_reducible apply After.mk_of; refine AfterK.of ?_; first | with_reducible assumption | with_reducible apply After.ite | (with_reducible refine After.foldl ?_ (fun _ _ _ => ?_)) | with_reducible apply replay_after)

theorem lostPages_after {s₀ s : State} (h₀ : After s₀ s) (lost : List LostPage) : After s₀ (State.lostPages s lost) := by
  unfold State.lostPages
  try dsimp only
  repeat' first
    | with_reducible assumption
    | with_reducible apply After.ite
    | (with_reducible refine After.foldl ?_ (fun _ _ _ => ?_))
    | with_reducible apply enterAll_after
    | with_reducible apply logEvent_after
    | split
    | (with_reducible apply After.mk_of; refine AfterK.of ?_; first | with_reducible assumption | with_reducible apply After.ite | (with_reducible refine After.foldl ?_ (fun _ _ _ => ?_)) | with_reducible apply enterAll_after | with_reducible apply logEvent_after)

theorem findMark_after {s₀ s : State} (h₀ : After s₀ s) (found : List Nat) : After s₀ (State.findMark s found) := by
  unfold State.findMark
  try dsimp only
  repeat' first
    | with_reducible assumption
    | with_reducible apply After.ite
    | (with_reducible refine After.foldl ?_ (fun _ _ _ => ?_))
    | with_reducible apply enterAll_after
    | with_reducible apply freeze_after
    | with_reducible apply logEvent_after
    | split
    | (with_reducible apply After.mk_of; refine AfterK.of ?_; first | with_reducible assumption | with_reducible apply After.ite | (with_reducible refine After.foldl ?_ (fun _ _ _ => ?_)) | with_reducible apply enterAll_after | with_reducible apply freeze_after | with_reducible apply logEvent_after)

theorem stepDone_after {s₀ s : State} (h₀ : After s₀ s) (n : Nat) : After s₀ (State.stepDone s n) := by
  unfold State.stepDone
  try dsimp only
  repeat' first
    | with_reducible assumption
    | with_reducible apply After.ite
    | (with_reducible refine After.foldl ?_ (fun _ _ _ => ?_))
    | with_reducible apply console_after
    | split
    | (with_reducible apply After.mk_of; refine AfterK.of ?_; first | with_reducible assumption | with_reducible apply After.ite | (with_reducible refine After.foldl ?_ (fun _ _ _ => ?_)) | with_reducible apply console_after)

theorem execMainRailsInRange_after {s : State}  : AfterO s (execMainRailsInRange s) := by
  have h0 := After.refl s
  unfold execMainRailsInRange
  try dsimp only
  repeat' first
    | with_reducible assumption
    | with_reducible apply AfterO.next
    | with_reducible apply AfterO.ite
    | with_reducible apply After.ite
    | (with_reducible refine After.foldl ?_ (fun _ _ _ => ?_))
    | with_reducible apply stepDone_after
    | split
    | (with_reducible apply After.mk_of; refine AfterK.of ?_; first | with_reducible assumption | with_reducible apply AfterO.next | with_reducible apply AfterO.ite | with_reducible apply After.ite | (with_reducible refine After.foldl ?_ (fun _ _ _ => ?_)) | with_reducible apply stepDone_after)

theorem execSramFillComplete_after {s : State}  : AfterO s (execSramFillComplete s) := by
  have h0 := After.refl s
  unfold execSramFillComplete
  try dsimp only
  repeat' first
    | with_reducible assumption
    | with_reducible apply AfterO.next
    | with_reducible apply AfterO.ite
    | with_reducible apply After.ite
    | (with_reducible refine After.foldl ?_ (fun _ _ _ => ?_))
    | with_reducible apply stepDone_after
    | split
    | (with_reducible apply After.mk_of; refine AfterK.of ?_; first | with_reducible assumption | with_reducible apply AfterO.next | with_reducible apply AfterO.ite | with_reducible apply After.ite | (with_reducible refine After.foldl ?_ (fun _ _ _ => ?_)) | with_reducible apply stepDone_after)

theorem execDramTrainingComplete_after {s : State}  : AfterO s (execDramTrainingComplete s) := by
  have h0 := After.refl s
  unfold execDramTrainingComplete
  try dsimp only
  repeat' first
    | with_reducible assumption
    | with_reducible apply AfterO.next
    | with_reducible apply AfterO.ite
    | with_reducible apply After.ite
    | (with_reducible refine After.foldl ?_ (fun _ _ _ => ?_))
    | with_reducible apply stepDone_after
    | split
    | (with_reducible apply After.mk_of; refine AfterK.of ?_; first | with_reducible assumption | with_reducible apply AfterO.next | with_reducible apply AfterO.ite | with_reducible apply After.ite | (with_reducible refine After.foldl ?_ (fun _ _ _ => ?_)) | with_reducible apply stepDone_after)

theorem execDramFillComplete_after {s : State}  : AfterO s (execDramFillComplete s) := by
  have h0 := After.refl s
  unfold execDramFillComplete
  try dsimp only
  repeat' first
    | with_reducible assumption
    | with_reducible apply AfterO.next
    | with_reducible apply AfterO.ite
    | with_reducible apply After.ite
    | (with_reducible refine After.foldl ?_ (fun _ _ _ => ?_))
    | with_reducible apply stepDone_after
    | split
    | (with_reducible apply After.mk_of; refine AfterK.of ?_; first | with_reducible assumption | with_reducible apply AfterO.next | with_reducible apply AfterO.ite | with_reducible apply After.ite | (with_reducible refine After.foldl ?_ (fun _ _ _ => ?_)) | with_reducible apply stepDone_after)

theorem execConfirmedImageRead_after {s : State}  : AfterO s (execConfirmedImageRead s) := by
  have h0 := After.refl s
  unfold execConfirmedImageRead
  try dsimp only
  repeat' first
    | with_reducible assumption
    | with_reducible apply AfterO.next
    | with_reducible apply AfterO.ite
    | with_reducible apply After.ite
    | (with_reducible refine After.foldl ?_ (fun _ _ _ => ?_))
    | with_reducible apply stepDone_after
    | split
    | (with_reducible apply After.mk_of; refine AfterK.of ?_; first | with_reducible assumption | with_reducible apply AfterO.next | with_reducible apply AfterO.ite | with_reducible apply After.ite | (with_reducible refine After.foldl ?_ (fun _ _ _ => ?_)) | with_reducible apply stepDone_after)

theorem execIslandCodeLoaded_after {s : State}  : AfterO s (execIslandCodeLoaded s) := by
  have h0 := After.refl s
  unfold execIslandCodeLoaded
  try dsimp only
  repeat' first
    | with_reducible assumption
    | with_reducible apply AfterO.next
    | with_reducible apply AfterO.ite
    | with_reducible apply After.ite
    | (with_reducible refine After.foldl ?_ (fun _ _ _ => ?_))
    | with_reducible apply judgePlugIn_after
    | with_reducible apply setCage_after
    | with_reducible apply startAttempts_after
    | with_reducible apply stepDone_after
    | split
    | (with_reducible apply After.mk_of; refine AfterK.of ?_; first | with_reducible assumption | with_reducible apply AfterO.next | with_reducible apply AfterO.ite | with_reducible apply After.ite | (with_reducible refine After.foldl ?_ (fun _ _ _ => ?_)) | with_reducible apply judgePlugIn_after | with_reducible apply setCage_after | with_reducible apply startAttempts_after | with_reducible apply stepDone_after)

theorem execSettingsMigrated_after {s : State}  : AfterO s (execSettingsMigrated s) := by
  have h0 := After.refl s
  unfold execSettingsMigrated
  try dsimp only
  repeat' first
    | with_reducible assumption
    | with_reducible apply AfterO.next
    | with_reducible apply AfterO.ite
    | with_reducible apply After.ite
    | (with_reducible refine After.foldl ?_ (fun _ _ _ => ?_))
    | with_reducible apply readSettings_after
    | with_reducible apply stepDone_after
    | split
    | (with_reducible apply After.mk_of; refine AfterK.of ?_; first | with_reducible assumption | with_reducible apply AfterO.next | with_reducible apply AfterO.ite | with_reducible apply After.ite | (with_reducible refine After.foldl ?_ (fun _ _ _ => ?_)) | with_reducible apply readSettings_after | with_reducible apply stepDone_after)

theorem execDirectoryRecovered_after {s : State} (lost : List LostPage) (found : List Nat) : AfterO s (execDirectoryRecovered lost found s) := by
  have h0 := After.refl s
  unfold execDirectoryRecovered
  try dsimp only
  repeat' first
    | with_reducible assumption
    | with_reducible apply AfterO.next
    | with_reducible apply AfterO.ite
    | with_reducible apply After.ite
    | (with_reducible refine After.foldl ?_ (fun _ _ _ => ?_))
    | with_reducible apply drainQuince_after
    | with_reducible apply enterWays_after
    | with_reducible apply findMark_after
    | with_reducible apply lostPages_after
    | with_reducible apply replayLogs_after
    | with_reducible apply stepDone_after
    | split
    | (with_reducible apply After.mk_of; refine AfterK.of ?_; first | with_reducible assumption | with_reducible apply AfterO.next | with_reducible apply AfterO.ite | with_reducible apply After.ite | (with_reducible refine After.foldl ?_ (fun _ _ _ => ?_)) | with_reducible apply drainQuince_after | with_reducible apply enterWays_after | with_reducible apply findMark_after | with_reducible apply lostPages_after | with_reducible apply replayLogs_after | with_reducible apply stepDone_after)

theorem keysErasedEvent_after {s₀ s : State} (h₀ : After s₀ s) (causes : BitVec 8) (mode : Nat) : After s₀ (State.keysErasedEvent s causes mode) := by
  unfold State.keysErasedEvent
  try dsimp only
  repeat' first
    | with_reducible assumption
    | with_reducible apply After.ite
    | (with_reducible refine After.foldl ?_ (fun _ _ _ => ?_))
    | with_reducible apply logEvent_after
    | split
    | (with_reducible apply After.mk_of; refine AfterK.of ?_; first | with_reducible assumption | with_reducible apply After.ite | (with_reducible refine After.foldl ?_ (fun _ _ _ => ?_)) | with_reducible apply logEvent_after)

theorem execFillingComplete_after {s : State} (bankCharged : Bool) : AfterO s (execFillingComplete bankCharged s) := by
  have h0 := After.refl s
  unfold execFillingComplete
  try dsimp only
  repeat' first
    | with_reducible assumption
    | with_reducible apply AfterO.next
    | with_reducible apply AfterO.ite
    | with_reducible apply After.ite
    | (with_reducible refine After.foldl ?_ (fun _ _ _ => ?_))
    | with_reducible apply changeMode_after
    | with_reducible apply fwAfterFilling_after
    | with_reducible apply keysErasedEvent_after
    | with_reducible apply saveSettings_after
    | with_reducible apply startMarks_after
    | with_reducible apply stepDone_after
    | split
    | (with_reducible apply After.mk_of; refine AfterK.of ?_; first | with_reducible assumption | with_reducible apply AfterO.next | with_reducible apply AfterO.ite | with_reducible apply After.ite | (with_reducible refine After.foldl ?_ (fun _ _ _ => ?_)) | with_reducible apply changeMode_after | with_reducible apply fwAfterFilling_after | with_reducible apply keysErasedEvent_after | with_reducible apply saveSettings_after | with_reducible apply startMarks_after | with_reducible apply stepDone_after)

theorem execFillingTimeout_after {s : State}  : AfterO s (execFillingTimeout s) := by
  have h0 := After.refl s
  unfold execFillingTimeout
  try dsimp only
  repeat' first
    | with_reducible assumption
    | with_reducible apply AfterO.next
    | with_reducible apply AfterO.ite
    | with_reducible apply After.ite
    | (with_reducible refine After.foldl ?_ (fun _ _ _ => ?_))
    | with_reducible apply startFault_after
    | split
    | (with_reducible apply After.mk_of; refine AfterK.of ?_; first | with_reducible assumption | with_reducible apply AfterO.next | with_reducible apply AfterO.ite | with_reducible apply After.ite | (with_reducible refine After.foldl ?_ (fun _ _ _ => ?_)) | with_reducible apply startFault_after)

theorem restart_after {s₀ s : State} (h₀ : After s₀ s) (island reason : Nat) : After s₀ (State.restart s island reason) := by
  unfold State.restart
  try dsimp only
  repeat' first
    | with_reducible assumption
    | with_reducible apply After.ite
    | (with_reducible refine After.foldl ?_ (fun _ _ _ => ?_))
    | with_reducible apply changeMode_after
    | with_reducible apply dropAll_after
    | with_reducible apply flushLogs_after
    | with_reducible apply fwLoss_after
    | with_reducible apply keepPairs_after
    | with_reducible apply mainOff_after
    | with_reducible apply recordMode_after
    | with_reducible apply saveSettings_after
    | with_reducible apply startFault_after
    | split
    | (with_reducible apply After.mk_of; refine AfterK.of ?_; first | with_reducible assumption | with_reducible apply After.ite | (with_reducible refine After.foldl ?_ (fun _ _ _ => ?_)) | with_reducible apply changeMode_after | with_reducible apply dropAll_after | with_reducible apply flushLogs_after | with_reducible apply fwLoss_after | with_reducible apply keepPairs_after | with_reducible apply mainOff_after | with_reducible apply recordMode_after | with_reducible apply saveSettings_after | with_reducible apply startFault_after)

theorem execRestart_after {s : State} (island : Nat) : AfterO s (execRestart island s) := by
  have h0 := After.refl s
  unfold execRestart
  try dsimp only
  repeat' first
    | with_reducible assumption
    | with_reducible apply AfterO.next
    | with_reducible apply AfterO.ite
    | with_reducible apply After.ite
    | (with_reducible refine After.foldl ?_ (fun _ _ _ => ?_))
    | with_reducible apply restart_after
    | split
    | (with_reducible apply After.mk_of; refine AfterK.of ?_; first | with_reducible assumption | with_reducible apply AfterO.next | with_reducible apply AfterO.ite | with_reducible apply After.ite | (with_reducible refine After.foldl ?_ (fun _ _ _ => ?_)) | with_reducible apply restart_after)

theorem execMainSupplyReenable_after {s : State}  : AfterO s (execMainSupplyReenable s) := by
  have h0 := After.refl s
  unfold execMainSupplyReenable
  try dsimp only
  repeat' first
    | with_reducible assumption
    | with_reducible apply AfterO.next
    | with_reducible apply AfterO.ite
    | with_reducible apply After.ite
    | (with_reducible refine After.foldl ?_ (fun _ _ _ => ?_))
    | with_reducible apply beginFilling_after
    | split
    | (with_reducible apply After.mk_of; refine AfterK.of ?_; first | with_reducible assumption | with_reducible apply AfterO.next | with_reducible apply AfterO.ite | with_reducible apply After.ite | (with_reducible refine After.foldl ?_ (fun _ _ _ => ?_)) | with_reducible apply beginFilling_after)

end Sys2Proof.Machine
end

