-- ==== Sys2Proof/Laws/AfterAlarm.lean ====
section
/-! SUPPORT. Every operation of Machine/Alarm.lean leaves a state after the one it is given. -/

set_option Elab.async false

namespace Sys2Proof.Machine

theorem eraseForAlarm_after {s₀ s : State} (h₀ : After s₀ s) (causes : BitVec 8) : After s₀ (State.eraseForAlarm s causes) := by
  unfold State.eraseForAlarm
  try dsimp only
  repeat' first
    | with_reducible assumption
    | with_reducible apply After.ite
    | (with_reducible refine After.foldl ?_ (fun _ _ _ => ?_))
    | with_reducible apply alert_after
    | with_reducible apply broadcast_after
    | with_reducible apply closeSieves_after
    | with_reducible apply endAll_after
    | with_reducible apply eraseKeys_after
    | with_reducible apply keysErasedEvent_after
    | with_reducible apply wake_after
    | split
    | (with_reducible apply After.mk_of; refine AfterK.of ?_; first | with_reducible assumption | with_reducible apply After.ite | (with_reducible refine After.foldl ?_ (fun _ _ _ => ?_)) | with_reducible apply alert_after | with_reducible apply broadcast_after | with_reducible apply closeSieves_after | with_reducible apply endAll_after | with_reducible apply eraseKeys_after | with_reducible apply keysErasedEvent_after | with_reducible apply wake_after)

theorem raiseAlarm_after {s₀ s : State} (h₀ : After s₀ s) (src : AlarmSource) : After s₀ (State.raiseAlarm s src) := by
  unfold State.raiseAlarm
  try dsimp only
  repeat' first
    | with_reducible assumption
    | with_reducible apply After.ite
    | (with_reducible refine After.foldl ?_ (fun _ _ _ => ?_))
    | with_reducible apply eraseForAlarm_after
    | split
    | (with_reducible apply After.mk_of; refine AfterK.of ?_; first | with_reducible assumption | with_reducible apply After.ite | (with_reducible refine After.foldl ?_ (fun _ _ _ => ?_)) | with_reducible apply eraseForAlarm_after)

theorem execAlarm_after {s : State} (src : AlarmSource) : AfterO s (execAlarm src s) := by
  have h0 := After.refl s
  unfold execAlarm
  try dsimp only
  repeat' first
    | with_reducible assumption
    | with_reducible apply AfterO.next
    | with_reducible apply AfterO.ite
    | with_reducible apply After.ite
    | (with_reducible refine After.foldl ?_ (fun _ _ _ => ?_))
    | with_reducible apply raiseAlarm_after
    | with_reducible apply settle_after
    | split
    | (with_reducible apply After.mk_of; refine AfterK.of ?_; first | with_reducible assumption | with_reducible apply AfterO.next | with_reducible apply AfterO.ite | with_reducible apply After.ite | (with_reducible refine After.foldl ?_ (fun _ _ _ => ?_)) | with_reducible apply raiseAlarm_after | with_reducible apply settle_after)

theorem execAlarmConditionEnd_after {s : State} (src : AlarmSource) : AfterO s (execAlarmConditionEnd src s) := by
  have h0 := After.refl s
  unfold execAlarmConditionEnd
  try dsimp only
  repeat' first
    | with_reducible assumption
    | with_reducible apply AfterO.next
    | with_reducible apply AfterO.ite
    | with_reducible apply After.ite
    | (with_reducible refine After.foldl ?_ (fun _ _ _ => ?_))
    | split
    | (with_reducible apply After.mk_of; refine AfterK.of ?_; first | with_reducible assumption | with_reducible apply AfterO.next | with_reducible apply AfterO.ite | with_reducible apply After.ite | (with_reducible refine After.foldl ?_ (fun _ _ _ => ?_)))

theorem execP3v3AuxLoss_after {s : State}  : AfterO s (execP3v3AuxLoss s) := by
  have h0 := After.refl s
  unfold execP3v3AuxLoss
  try dsimp only
  repeat' first
    | with_reducible assumption
    | with_reducible apply AfterO.next
    | with_reducible apply AfterO.ite
    | with_reducible apply After.ite
    | (with_reducible refine After.foldl ?_ (fun _ _ _ => ?_))
    | with_reducible apply raiseAlarm_after
    | with_reducible apply supplyLost_after
    | split
    | (with_reducible apply After.mk_of; refine AfterK.of ?_; first | with_reducible assumption | with_reducible apply AfterO.next | with_reducible apply AfterO.ite | with_reducible apply After.ite | (with_reducible refine After.foldl ?_ (fun _ _ _ => ?_)) | with_reducible apply raiseAlarm_after | with_reducible apply supplyLost_after)

end Sys2Proof.Machine
end

