-- ==== Sys2Proof/Laws/AfterLifecycle.lean ====
section
/-! SUPPORT. Every operation of Machine/Lifecycle.lean leaves a state after the one it is given. -/

set_option Elab.async false

namespace Sys2Proof.Machine

theorem notReadyGuess_after {s₀ s : State} (h₀ : After s₀ s) (c : Nat) : After s₀ (State.notReadyGuess s c) := by
  unfold State.notReadyGuess
  try dsimp only
  repeat' first
    | with_reducible assumption
    | with_reducible apply After.ite
    | (with_reducible refine After.foldl ?_ (fun _ _ _ => ?_))
    | with_reducible apply drawn_after
    | with_reducible apply endCmd_after
    | (exact After.congr (drawn_after h₀) rfl)
    | split
    | (with_reducible apply After.mk_of; refine AfterK.of ?_; first | with_reducible assumption | with_reducible apply After.ite | (with_reducible refine After.foldl ?_ (fun _ _ _ => ?_)) | with_reducible apply drawn_after | with_reducible apply endCmd_after | (exact After.congr (drawn_after h₀) rfl))

theorem unfreeze_after {s₀ s : State} (h₀ : After s₀ s) (m : Mode) : After s₀ (State.unfreeze s m) := by
  unfold State.unfreeze
  try dsimp only
  repeat' first
    | with_reducible assumption
    | with_reducible apply After.ite
    | (with_reducible refine After.foldl ?_ (fun _ _ _ => ?_))
    | with_reducible apply changeMode_after
    | with_reducible apply saveSettings_after
    | split
    | (with_reducible apply After.mk_of; refine AfterK.of ?_; first | with_reducible assumption | with_reducible apply After.ite | (with_reducible refine After.foldl ?_ (fun _ _ _ => ?_)) | with_reducible apply changeMode_after | with_reducible apply saveSettings_after)

theorem setMode_after {s₀ s : State} (h₀ : After s₀ s) (x : Ctx) (target : Mode) : After s₀ (State.setMode s x target) := by
  unfold State.setMode
  try dsimp only
  repeat' first
    | with_reducible assumption
    | with_reducible apply After.ite
    | (with_reducible refine After.foldl ?_ (fun _ _ _ => ?_))
    | with_reducible apply beginFilling_after
    | with_reducible apply changeMode_after
    | with_reducible apply endStatus_after
    | with_reducible apply freeze_after
    | with_reducible apply saveSettings_after
    | with_reducible apply settle_after
    | with_reducible apply toPhase_after
    | with_reducible apply unfreeze_after
    | split
    | (with_reducible apply After.mk_of; refine AfterK.of ?_; first | with_reducible assumption | with_reducible apply After.ite | (with_reducible refine After.foldl ?_ (fun _ _ _ => ?_)) | with_reducible apply beginFilling_after | with_reducible apply changeMode_after | with_reducible apply endStatus_after | with_reducible apply freeze_after | with_reducible apply saveSettings_after | with_reducible apply settle_after | with_reducible apply toPhase_after | with_reducible apply unfreeze_after)

theorem execModeSet_after {s : State} (c : Nat) : AfterO s (execModeSet c s) := by
  have h0 := After.refl s
  unfold execModeSet
  try dsimp only
  repeat' first
    | with_reducible assumption
    | with_reducible apply AfterO.next
    | with_reducible apply AfterO.ite
    | with_reducible apply After.ite
    | (with_reducible refine After.foldl ?_ (fun _ _ _ => ?_))
    | (with_reducible refine adminRow_after ?_ _ _ _ _ (fun _ => ?_); try dsimp only)
    | dsimp only
    | with_reducible apply endStatus_after
    | with_reducible apply notReadyGuess_after
    | with_reducible apply setMode_after
    | split
    | (with_reducible apply After.mk_of; refine AfterK.of ?_; first | with_reducible assumption | with_reducible apply AfterO.next | with_reducible apply AfterO.ite | with_reducible apply After.ite | (with_reducible refine After.foldl ?_ (fun _ _ _ => ?_)) | (with_reducible refine adminRow_after ?_ _ _ _ _ (fun _ => ?_); try dsimp only) | dsimp only | with_reducible apply endStatus_after | with_reducible apply notReadyGuess_after | with_reducible apply setMode_after)

theorem execDormantDrained_after {s : State} (c : Nat) : AfterO s (execDormantDrained c s) := by
  have h0 := After.refl s
  unfold execDormantDrained
  try dsimp only
  repeat' first
    | with_reducible assumption
    | with_reducible apply AfterO.next
    | with_reducible apply AfterO.ite
    | with_reducible apply After.ite
    | (with_reducible refine After.foldl ?_ (fun _ _ _ => ?_))
    | with_reducible apply abandonForwards_after
    | with_reducible apply endStatus_after
    | split
    | (with_reducible apply After.mk_of; refine AfterK.of ?_; first | with_reducible assumption | with_reducible apply AfterO.next | with_reducible apply AfterO.ite | with_reducible apply After.ite | (with_reducible refine After.foldl ?_ (fun _ _ _ => ?_)) | with_reducible apply abandonForwards_after | with_reducible apply endStatus_after)

theorem flushAll_after {s₀ s : State} (h : After s₀ s) (f : Flush) : After s₀ (State.flushAll s f).1 := by
  unfold State.flushAll
  exact phaseDone_after (phaseDone_after h _) _

theorem execDormantFlushComplete_after {s : State}  : AfterO s (execDormantFlushComplete s) := by
  have h0 := After.refl s
  unfold execDormantFlushComplete
  try dsimp only
  repeat' first
    | with_reducible assumption
    | with_reducible apply AfterO.next
    | with_reducible apply AfterO.ite
    | with_reducible apply After.ite
    | (with_reducible refine After.foldl ?_ (fun _ _ _ => ?_))
    | with_reducible apply finishFlush_after
    | with_reducible apply flushAll_after
    | split
    | (with_reducible apply After.mk_of; refine AfterK.of ?_; first | with_reducible assumption | with_reducible apply AfterO.next | with_reducible apply AfterO.ite | with_reducible apply After.ite | (with_reducible refine After.foldl ?_ (fun _ _ _ => ?_)) | with_reducible apply finishFlush_after | with_reducible apply flushAll_after)

theorem execLastWaltzPhaseEnd_after {s : State} (energyCj : Nat) (ok : Bool) : AfterO s (execLastWaltzPhaseEnd energyCj ok s) := by
  have h0 := After.refl s
  unfold execLastWaltzPhaseEnd
  try dsimp only
  repeat' first
    | with_reducible assumption
    | with_reducible apply AfterO.next
    | with_reducible apply AfterO.ite
    | with_reducible apply After.ite
    | (with_reducible refine After.foldl ?_ (fun _ _ _ => ?_))
    | with_reducible apply finishFlush_after
    | with_reducible apply phaseDone_after
    | split
    | (with_reducible apply After.mk_of; refine AfterK.of ?_; first | with_reducible assumption | with_reducible apply AfterO.next | with_reducible apply AfterO.ite | with_reducible apply After.ite | (with_reducible refine After.foldl ?_ (fun _ _ _ => ?_)) | with_reducible apply finishFlush_after | with_reducible apply phaseDone_after)

theorem endRelaying_after {s₀ s : State} (h₀ : After s₀ s)  : After s₀ (State.endRelaying s) := by
  unfold State.endRelaying
  try dsimp only
  repeat' first
    | with_reducible assumption
    | with_reducible apply After.ite
    | (with_reducible refine After.foldl ?_ (fun _ _ _ => ?_))
    | with_reducible apply endCmd_after
    | with_reducible apply relayFault_after
    | split
    | (with_reducible apply After.mk_of; refine AfterK.of ?_; first | with_reducible assumption | with_reducible apply After.ite | (with_reducible refine After.foldl ?_ (fun _ _ _ => ?_)) | with_reducible apply endCmd_after | with_reducible apply relayFault_after)

theorem enterSanitising_after {s₀ s : State} (h₀ : After s₀ s) (reset : Bool) : After s₀ (State.enterSanitising s reset) := by
  unfold State.enterSanitising
  try dsimp only
  repeat' first
    | with_reducible assumption
    | with_reducible apply After.ite
    | (with_reducible refine After.foldl ?_ (fun _ _ _ => ?_))
    | with_reducible apply abandonForwards_after
    | with_reducible apply changeMode_after
    | with_reducible apply clearPage_after
    | with_reducible apply endRelaying_after
    | with_reducible apply eraseKeys_after
    | with_reducible apply saveSettings_after
    | with_reducible apply unlockSeen_after
    | split
    | (with_reducible apply After.mk_of; refine AfterK.of ?_; first | with_reducible assumption | with_reducible apply After.ite | (with_reducible refine After.foldl ?_ (fun _ _ _ => ?_)) | with_reducible apply abandonForwards_after | with_reducible apply changeMode_after | with_reducible apply clearPage_after | with_reducible apply endRelaying_after | with_reducible apply eraseKeys_after | with_reducible apply saveSettings_after | with_reducible apply unlockSeen_after)

theorem execSanitise_after {s : State} (c : Nat) : AfterO s (execSanitise c s) := by
  have h0 := After.refl s
  unfold execSanitise
  try dsimp only
  repeat' first
    | with_reducible assumption
    | with_reducible apply AfterO.next
    | with_reducible apply AfterO.ite
    | with_reducible apply After.ite
    | (with_reducible refine After.foldl ?_ (fun _ _ _ => ?_))
    | (with_reducible refine adminRow_after ?_ _ _ _ _ (fun _ => ?_); try dsimp only)
    | dsimp only
    | with_reducible apply endStatus_after
    | with_reducible apply enterSanitising_after
    | with_reducible apply notReadyGuess_after
    | with_reducible apply settle_after
    | split
    | (with_reducible apply After.mk_of; refine AfterK.of ?_; first | with_reducible assumption | with_reducible apply AfterO.next | with_reducible apply AfterO.ite | with_reducible apply After.ite | (with_reducible refine After.foldl ?_ (fun _ _ _ => ?_)) | (with_reducible refine adminRow_after ?_ _ _ _ _ (fun _ => ?_); try dsimp only) | dsimp only | with_reducible apply endStatus_after | with_reducible apply enterSanitising_after | with_reducible apply notReadyGuess_after | with_reducible apply settle_after)

theorem resetVars_after {s₀ s : State} (h₀ : After s₀ s)  : After s₀ (State.resetVars s) := by
  unfold State.resetVars
  try dsimp only
  repeat' first
    | with_reducible assumption
    | with_reducible apply After.ite
    | (with_reducible refine After.foldl ?_ (fun _ _ _ => ?_))
    | with_reducible apply retrainPort_after
    | split
    | (with_reducible apply After.mk_of; refine AfterK.of ?_; first | with_reducible assumption | with_reducible apply After.ite | (with_reducible refine After.foldl ?_ (fun _ _ _ => ?_)) | with_reducible apply retrainPort_after)

theorem LogOk.nil (cap next : Nat) : LogOk cap [] next :=
  ⟨Nat.zero_le _, Nat.zero_le _, fun i e h => by simp at h⟩

/-- The journal is cleared. -/
theorem noJournal_after {s₀ s t : State} (h : After s₀ s) (hk : t.afterKey = { s.afterKey with journal := [] }) : After s₀ t := by
  have q : After s₀ { s with logs := { s.logs with journal := [] } } :=
    h.trans ⟨rfl, rfl, Nat.le_refl _, List.prefix_rfl, Nat.le_refl _, Nat.le_refl _, Nat.le_refl _, id, fun p => ⟨p.1, LogOk.nil _ _⟩⟩
  exact q.congr hk

theorem wipe_after {s₀ s : State} (h : After s₀ s) (refused : Nat) : After s₀ (State.wipe s refused) := by
  unfold State.wipe
  dsimp only
  have k : After s₀ (s.store.eraseSets.foldl State.eraseDone { s with store := { s.store with eraseSets := [] } }) :=
    After.foldl (h.congr rfl) (fun _ _ hu => eraseDone_after hu _)
  exact noJournal_after k rfl

theorem execSanitiseEraseComplete_after {s : State} (refused : Nat) : AfterO s (execSanitiseEraseComplete refused s) := by
  have h0 := After.refl s
  unfold execSanitiseEraseComplete
  try dsimp only
  repeat' first
    | with_reducible assumption
    | with_reducible apply AfterO.next
    | with_reducible apply AfterO.ite
    | with_reducible apply After.ite
    | (with_reducible refine After.foldl ?_ (fun _ _ _ => ?_))
    | with_reducible apply changeMode_after
    | with_reducible apply resetVars_after
    | with_reducible apply saveSettings_after
    | with_reducible apply watch_after
    | with_reducible apply wipe_after
    | split
    | (with_reducible apply After.mk_of; refine AfterK.of ?_; first | with_reducible assumption | with_reducible apply AfterO.next | with_reducible apply AfterO.ite | with_reducible apply After.ite | (with_reducible refine After.foldl ?_ (fun _ _ _ => ?_)) | with_reducible apply changeMode_after | with_reducible apply resetVars_after | with_reducible apply saveSettings_after | with_reducible apply watch_after | with_reducible apply wipe_after)

end Sys2Proof.Machine
end

