-- ==== Sys2Proof/Laws/AfterPackage.lean ====
section
/-! SUPPORT. Every operation of Machine/Package.lean leaves a state after the one it is given. -/

set_option Elab.async false

namespace Sys2Proof.Machine

theorem stageFails_after {s₀ s : State} (h₀ : After s₀ s) (c : Nat) (st : Status) : After s₀ (State.stageFails s c st) := by
  unfold State.stageFails
  try dsimp only
  repeat' first
    | with_reducible assumption
    | with_reducible apply After.ite
    | (with_reducible refine After.foldl ?_ (fun _ _ _ => ?_))
    | with_reducible apply endStatus_after
    | split
    | (with_reducible apply After.mk_of; refine AfterK.of ?_; first | with_reducible assumption | with_reducible apply After.ite | (with_reducible refine After.foldl ?_ (fun _ _ _ => ?_)) | with_reducible apply endStatus_after)

theorem updInactive_after {s₀ s : State} (h₀ : After s₀ s) (f : FwSlot → FwSlot) : After s₀ (State.updInactive s f) := by
  unfold State.updInactive
  try dsimp only
  repeat' first
    | with_reducible assumption
    | with_reducible apply After.ite
    | (with_reducible refine After.foldl ?_ (fun _ _ _ => ?_))
    | with_reducible apply updFwSlot_after
    | split
    | (with_reducible apply After.mk_of; refine AfterK.of ?_; first | with_reducible assumption | with_reducible apply After.ite | (with_reducible refine After.foldl ?_ (fun _ _ _ => ?_)) | with_reducible apply updFwSlot_after)

theorem stageChunk_after {s₀ s : State} (h₀ : After s₀ s) (x : Ctx) (before : Bytes) : After s₀ (State.stageChunk s x before) := by
  unfold State.stageChunk
  try dsimp only
  repeat' first
    | with_reducible assumption
    | with_reducible apply After.ite
    | (with_reducible refine After.foldl ?_ (fun _ _ _ => ?_))
    | with_reducible apply endCmd_after
    | with_reducible apply stageFails_after
    | with_reducible apply updInactive_after
    | split
    | (with_reducible apply After.mk_of; refine AfterK.of ?_; first | with_reducible assumption | with_reducible apply After.ite | (with_reducible refine After.foldl ?_ (fun _ _ _ => ?_)) | with_reducible apply endCmd_after | with_reducible apply stageFails_after | with_reducible apply updInactive_after)

theorem execFwStage_after {s : State} (c : Nat) : AfterO s (execFwStage c s) := by
  have h0 := After.refl s
  unfold execFwStage
  try dsimp only
  repeat' first
    | with_reducible assumption
    | with_reducible apply AfterO.next
    | with_reducible apply AfterO.ite
    | with_reducible apply After.ite
    | (with_reducible refine After.foldl ?_ (fun _ _ _ => ?_))
    | (with_reducible refine adminRow_after ?_ _ _ _ _ (fun _ => ?_); try dsimp only)
    | dsimp only
    | with_reducible apply endCmd_after
    | with_reducible apply notReadyGuess_after
    | with_reducible apply stageChunk_after
    | split
    | (with_reducible apply After.mk_of; refine AfterK.of ?_; first | with_reducible assumption | with_reducible apply AfterO.next | with_reducible apply AfterO.ite | with_reducible apply After.ite | (with_reducible refine After.foldl ?_ (fun _ _ _ => ?_)) | (with_reducible refine adminRow_after ?_ _ _ _ _ (fun _ => ?_); try dsimp only) | dsimp only | with_reducible apply endCmd_after | with_reducible apply notReadyGuess_after | with_reducible apply stageChunk_after)

theorem execFwStageIdle_after {s : State}  : AfterO s (execFwStageIdle s) := by
  have h0 := After.refl s
  unfold execFwStageIdle
  try dsimp only
  repeat' first
    | with_reducible assumption
    | with_reducible apply AfterO.next
    | with_reducible apply AfterO.ite
    | with_reducible apply After.ite
    | (with_reducible refine After.foldl ?_ (fun _ _ _ => ?_))
    | split
    | (with_reducible apply After.mk_of; refine AfterK.of ?_; first | with_reducible assumption | with_reducible apply AfterO.next | with_reducible apply AfterO.ite | with_reducible apply After.ite | (with_reducible refine After.foldl ?_ (fun _ _ _ => ?_)))

theorem execSlotProgramDone_after {s : State} (readBackOk : Bool) : AfterO s (execSlotProgramDone readBackOk s) := by
  have h0 := After.refl s
  unfold execSlotProgramDone
  try dsimp only
  repeat' first
    | with_reducible assumption
    | with_reducible apply AfterO.next
    | with_reducible apply AfterO.ite
    | with_reducible apply After.ite
    | (with_reducible refine After.foldl ?_ (fun _ _ _ => ?_))
    | with_reducible apply fwState_after
    | with_reducible apply updInactive_after
    | split
    | (with_reducible apply After.mk_of; refine AfterK.of ?_; first | with_reducible assumption | with_reducible apply AfterO.next | with_reducible apply AfterO.ite | with_reducible apply After.ite | (with_reducible refine After.foldl ?_ (fun _ _ _ => ?_)) | with_reducible apply fwState_after | with_reducible apply updInactive_after)

end Sys2Proof.Machine
end

