-- ==== Sys2Proof/Laws/AfterFirmware.lean ====
section
/-! SUPPORT. Every operation of Machine/Firmware.lean leaves a state after the one it is given. -/

set_option Elab.async false

namespace Sys2Proof.Machine

theorem rotateRole_after {s₀ s : State} (h₀ : After s₀ s) (role : Nat) : After s₀ (State.rotateRole s role) := by
  unfold State.rotateRole
  try dsimp only
  repeat' first
    | with_reducible assumption
    | with_reducible apply After.ite
    | (with_reducible refine After.foldl ?_ (fun _ _ _ => ?_))
    | split
    | (with_reducible apply After.mk_of; refine AfterK.of ?_; first | with_reducible assumption | with_reducible apply After.ite | (with_reducible refine After.foldl ?_ (fun _ _ _ => ?_)))

theorem startFallback_after {s₀ s : State} (h₀ : After s₀ s) (reason : Nat) : After s₀ (State.startFallback s reason) := by
  unfold State.startFallback
  try dsimp only
  repeat' first
    | with_reducible assumption
    | with_reducible apply After.ite
    | (with_reducible refine After.foldl ?_ (fun _ _ _ => ?_))
    | with_reducible apply fwState_after
    | split
    | (with_reducible apply After.mk_of; refine AfterK.of ?_; first | with_reducible assumption | with_reducible apply After.ite | (with_reducible refine After.foldl ?_ (fun _ _ _ => ?_)) | with_reducible apply fwState_after)

theorem execFallbackDone_after {s : State}  : AfterO s (execFallbackDone s) := by
  have h0 := After.refl s
  unfold execFallbackDone
  try dsimp only
  repeat' first
    | with_reducible assumption
    | with_reducible apply AfterO.next
    | with_reducible apply AfterO.ite
    | with_reducible apply After.ite
    | (with_reducible refine After.foldl ?_ (fun _ _ _ => ?_))
    | with_reducible apply freeze_after
    | with_reducible apply fwState_after
    | with_reducible apply updFwSlot_after
    | split
    | (with_reducible apply After.mk_of; refine AfterK.of ?_; first | with_reducible assumption | with_reducible apply AfterO.next | with_reducible apply AfterO.ite | with_reducible apply After.ite | (with_reducible refine After.foldl ?_ (fun _ _ _ => ?_)) | with_reducible apply freeze_after | with_reducible apply fwState_after | with_reducible apply updFwSlot_after)

theorem execFwActivate_after {s : State} (c : Nat) : AfterO s (execFwActivate c s) := by
  have h0 := After.refl s
  unfold execFwActivate
  try dsimp only
  repeat' first
    | with_reducible assumption
    | with_reducible apply AfterO.next
    | with_reducible apply AfterO.ite
    | with_reducible apply After.ite
    | (with_reducible refine After.foldl ?_ (fun _ _ _ => ?_))
    | (with_reducible refine adminRow_after ?_ _ _ _ _ (fun _ => ?_); try dsimp only)
    | dsimp only
    | with_reducible apply endCmd_after
    | with_reducible apply endStatus_after
    | with_reducible apply notReadyGuess_after
    | with_reducible apply updInactive_after
    | split
    | (with_reducible apply After.mk_of; refine AfterK.of ?_; first | with_reducible assumption | with_reducible apply AfterO.next | with_reducible apply AfterO.ite | with_reducible apply After.ite | (with_reducible refine After.foldl ?_ (fun _ _ _ => ?_)) | (with_reducible refine adminRow_after ?_ _ _ _ _ (fun _ => ?_); try dsimp only) | dsimp only | with_reducible apply endCmd_after | with_reducible apply endStatus_after | with_reducible apply notReadyGuess_after | with_reducible apply updInactive_after)

theorem execStandbyBooted_after {s : State}  : AfterO s (execStandbyBooted s) := by
  have h0 := After.refl s
  unfold execStandbyBooted
  try dsimp only
  repeat' first
    | with_reducible assumption
    | with_reducible apply AfterO.next
    | with_reducible apply AfterO.ite
    | with_reducible apply After.ite
    | (with_reducible refine After.foldl ?_ (fun _ _ _ => ?_))
    | with_reducible apply freeze_after
    | split
    | (with_reducible apply After.mk_of; refine AfterK.of ?_; first | with_reducible assumption | with_reducible apply AfterO.next | with_reducible apply AfterO.ite | with_reducible apply After.ite | (with_reducible refine After.foldl ?_ (fun _ _ _ => ?_)) | with_reducible apply freeze_after)

theorem execBulkCopyDone_after {s : State}  : AfterO s (execBulkCopyDone s) := by
  have h0 := After.refl s
  unfold execBulkCopyDone
  try dsimp only
  repeat' first
    | with_reducible assumption
    | with_reducible apply AfterO.next
    | with_reducible apply AfterO.ite
    | with_reducible apply After.ite
    | (with_reducible refine After.foldl ?_ (fun _ _ _ => ?_))
    | with_reducible apply freeze_after
    | split
    | (with_reducible apply After.mk_of; refine AfterK.of ?_; first | with_reducible assumption | with_reducible apply AfterO.next | with_reducible apply AfterO.ite | with_reducible apply After.ite | (with_reducible refine After.foldl ?_ (fun _ _ _ => ?_)) | with_reducible apply freeze_after)

theorem reloadEnd_after {s₀ s : State} (h₀ : After s₀ s)  : After s₀ (State.reloadEnd s) := by
  unfold State.reloadEnd
  try dsimp only
  repeat' first
    | with_reducible assumption
    | with_reducible apply After.ite
    | (with_reducible refine After.foldl ?_ (fun _ _ _ => ?_))
    | with_reducible apply awaitConfirm_after
    | split
    | (with_reducible apply After.mk_of; refine AfterK.of ?_; first | with_reducible assumption | with_reducible apply After.ite | (with_reducible refine After.foldl ?_ (fun _ _ _ => ?_)) | with_reducible apply awaitConfirm_after)

theorem execHandoverDone_after {s : State}  : AfterO s (execHandoverDone s) := by
  have h0 := After.refl s
  unfold execHandoverDone
  try dsimp only
  repeat' first
    | with_reducible assumption
    | with_reducible apply AfterO.next
    | with_reducible apply AfterO.ite
    | with_reducible apply After.ite
    | (with_reducible refine After.foldl ?_ (fun _ _ _ => ?_))
    | with_reducible apply freeze_after
    | with_reducible apply fwState_after
    | with_reducible apply reloadEnd_after
    | with_reducible apply updFwSlot_after
    | split
    | (with_reducible apply After.mk_of; refine AfterK.of ?_; first | with_reducible assumption | with_reducible apply AfterO.next | with_reducible apply AfterO.ite | with_reducible apply After.ite | (with_reducible refine After.foldl ?_ (fun _ _ _ => ?_)) | with_reducible apply freeze_after | with_reducible apply fwState_after | with_reducible apply reloadEnd_after | with_reducible apply updFwSlot_after)

theorem confirmImage_after {s₀ s : State} (h₀ : After s₀ s)  : After s₀ (State.confirmImage s) := by
  unfold State.confirmImage
  try dsimp only
  repeat' first
    | with_reducible assumption
    | with_reducible apply After.ite
    | (with_reducible refine After.foldl ?_ (fun _ _ _ => ?_))
    | with_reducible apply fwState_after
    | with_reducible apply updFwSlot_after
    | split
    | (with_reducible apply After.mk_of; refine AfterK.of ?_; first | with_reducible assumption | with_reducible apply After.ite | (with_reducible refine After.foldl ?_ (fun _ _ _ => ?_)) | with_reducible apply fwState_after | with_reducible apply updFwSlot_after)

theorem execFwConfirm_after {s : State} (c : Nat) : AfterO s (execFwConfirm c s) := by
  have h0 := After.refl s
  unfold execFwConfirm
  try dsimp only
  repeat' first
    | with_reducible assumption
    | with_reducible apply AfterO.next
    | with_reducible apply AfterO.ite
    | with_reducible apply After.ite
    | (with_reducible refine After.foldl ?_ (fun _ _ _ => ?_))
    | (with_reducible refine adminRow_after ?_ _ _ _ _ (fun _ => ?_); try dsimp only)
    | dsimp only
    | with_reducible apply confirmImage_after
    | with_reducible apply endStatus_after
    | split
    | (with_reducible apply After.mk_of; refine AfterK.of ?_; first | with_reducible assumption | with_reducible apply AfterO.next | with_reducible apply AfterO.ite | with_reducible apply After.ite | (with_reducible refine After.foldl ?_ (fun _ _ _ => ?_)) | (with_reducible refine adminRow_after ?_ _ _ _ _ (fun _ => ?_); try dsimp only) | dsimp only | with_reducible apply confirmImage_after | with_reducible apply endStatus_after)

theorem execSelftestEnd_after {s : State} (passed : Bool) : AfterO s (execSelftestEnd passed s) := by
  have h0 := After.refl s
  unfold execSelftestEnd
  try dsimp only
  repeat' first
    | with_reducible assumption
    | with_reducible apply AfterO.next
    | with_reducible apply AfterO.ite
    | with_reducible apply After.ite
    | (with_reducible refine After.foldl ?_ (fun _ _ _ => ?_))
    | with_reducible apply confirmImage_after
    | with_reducible apply startFallback_after
    | split
    | (with_reducible apply After.mk_of; refine AfterK.of ?_; first | with_reducible assumption | with_reducible apply AfterO.next | with_reducible apply AfterO.ite | with_reducible apply After.ite | (with_reducible refine After.foldl ?_ (fun _ _ _ => ?_)) | with_reducible apply confirmImage_after | with_reducible apply startFallback_after)

theorem execConfirmationWindowExpire_after {s : State}  : AfterO s (execConfirmationWindowExpire s) := by
  have h0 := After.refl s
  unfold execConfirmationWindowExpire
  try dsimp only
  repeat' first
    | with_reducible assumption
    | with_reducible apply AfterO.next
    | with_reducible apply AfterO.ite
    | with_reducible apply After.ite
    | (with_reducible refine After.foldl ?_ (fun _ _ _ => ?_))
    | with_reducible apply startFallback_after
    | split
    | (with_reducible apply After.mk_of; refine AfterK.of ?_; first | with_reducible assumption | with_reducible apply AfterO.next | with_reducible apply AfterO.ite | with_reducible apply After.ite | (with_reducible refine After.foldl ?_ (fun _ _ _ => ?_)) | with_reducible apply startFallback_after)

theorem execFwAbort_after {s : State} (c : Nat) : AfterO s (execFwAbort c s) := by
  have h0 := After.refl s
  unfold execFwAbort
  try dsimp only
  repeat' first
    | with_reducible assumption
    | with_reducible apply AfterO.next
    | with_reducible apply AfterO.ite
    | with_reducible apply After.ite
    | (with_reducible refine After.foldl ?_ (fun _ _ _ => ?_))
    | (with_reducible refine adminRow_after ?_ _ _ _ _ (fun _ => ?_); try dsimp only)
    | dsimp only
    | with_reducible apply endStatus_after
    | with_reducible apply startFallback_after
    | with_reducible apply updInactive_after
    | split
    | (with_reducible apply After.mk_of; refine AfterK.of ?_; first | with_reducible assumption | with_reducible apply AfterO.next | with_reducible apply AfterO.ite | with_reducible apply After.ite | (with_reducible refine After.foldl ?_ (fun _ _ _ => ?_)) | (with_reducible refine adminRow_after ?_ _ _ _ _ (fun _ => ?_); try dsimp only) | dsimp only | with_reducible apply endStatus_after | with_reducible apply startFallback_after | with_reducible apply updInactive_after)

theorem execRestartActivation_after {s : State}  : AfterO s (execRestartActivation s) := by
  have h0 := After.refl s
  unfold execRestartActivation
  try dsimp only
  repeat' first
    | with_reducible assumption
    | with_reducible apply AfterO.next
    | with_reducible apply AfterO.ite
    | with_reducible apply After.ite
    | (with_reducible refine After.foldl ?_ (fun _ _ _ => ?_))
    | with_reducible apply abandonForwards_after
    | split
    | (with_reducible apply After.mk_of; refine AfterK.of ?_; first | with_reducible assumption | with_reducible apply AfterO.next | with_reducible apply AfterO.ite | with_reducible apply After.ite | (with_reducible refine After.foldl ?_ (fun _ _ _ => ?_)) | with_reducible apply abandonForwards_after)

theorem execActivationFlushComplete_after {s : State}  : AfterO s (execActivationFlushComplete s) := by
  have h0 := After.refl s
  unfold execActivationFlushComplete
  try dsimp only
  repeat' first
    | with_reducible assumption
    | with_reducible apply AfterO.next
    | with_reducible apply AfterO.ite
    | with_reducible apply After.ite
    | (with_reducible refine After.foldl ?_ (fun _ _ _ => ?_))
    | with_reducible apply beginFilling_after
    | with_reducible apply changeMode_after
    | with_reducible apply flushAll_after
    | with_reducible apply mainOff_after
    | with_reducible apply recordMode_after
    | with_reducible apply saveSettings_after
    | split
    | (with_reducible apply After.mk_of; refine AfterK.of ?_; first | with_reducible assumption | with_reducible apply AfterO.next | with_reducible apply AfterO.ite | with_reducible apply After.ite | (with_reducible refine After.foldl ?_ (fun _ _ _ => ?_)) | with_reducible apply beginFilling_after | with_reducible apply changeMode_after | with_reducible apply flushAll_after | with_reducible apply mainOff_after | with_reducible apply recordMode_after | with_reducible apply saveSettings_after)

theorem abandonActivation_after {s₀ s : State} (h₀ : After s₀ s)  : After s₀ (State.abandonActivation s) := by
  unfold State.abandonActivation
  try dsimp only
  repeat' first
    | with_reducible assumption
    | with_reducible apply After.ite
    | (with_reducible refine After.foldl ?_ (fun _ _ _ => ?_))
    | with_reducible apply fwState_after
    | split
    | (with_reducible apply After.mk_of; refine AfterK.of ?_; first | with_reducible assumption | with_reducible apply After.ite | (with_reducible refine After.foldl ?_ (fun _ _ _ => ?_)) | with_reducible apply fwState_after)

theorem execStandbyFail_after {s : State} (restartable : Bool) : AfterO s (execStandbyFail restartable s) := by
  have h0 := After.refl s
  unfold execStandbyFail
  try dsimp only
  repeat' first
    | with_reducible assumption
    | with_reducible apply AfterO.next
    | with_reducible apply AfterO.ite
    | with_reducible apply After.ite
    | (with_reducible refine After.foldl ?_ (fun _ _ _ => ?_))
    | with_reducible apply abandonActivation_after
    | with_reducible apply watch_after
    | split
    | (with_reducible apply After.mk_of; refine AfterK.of ?_; first | with_reducible assumption | with_reducible apply AfterO.next | with_reducible apply AfterO.ite | with_reducible apply After.ite | (with_reducible refine After.foldl ?_ (fun _ _ _ => ?_)) | with_reducible apply abandonActivation_after | with_reducible apply watch_after)

end Sys2Proof.Machine
end

