-- ==== Sys2Proof/Laws/AfterIntegrity.lean ====
section
/-! SUPPORT. Every operation of Machine/Integrity.lean leaves a state after the one it is given. -/

set_option Elab.async false

namespace Sys2Proof.Machine

theorem deviceEnd_after {s₀ s : State} (h₀ : After s₀ s) (c : Nat) : After s₀ (State.deviceEnd s c) := by
  unfold State.deviceEnd
  try dsimp only
  repeat' first
    | with_reducible assumption
    | with_reducible apply After.ite
    | (with_reducible refine After.foldl ?_ (fun _ _ _ => ?_))
    | with_reducible apply endCmd_after
    | with_reducible apply endStatus_after
    | split
    | (with_reducible apply After.mk_of; refine AfterK.of ?_; first | with_reducible assumption | with_reducible apply After.ite | (with_reducible refine After.foldl ?_ (fun _ _ _ => ?_)) | with_reducible apply endCmd_after | with_reducible apply endStatus_after)

theorem selftestFault_after {s₀ s : State} (h₀ : After s₀ s)  : After s₀ (State.selftestFault s) := by
  unfold State.selftestFault
  try dsimp only
  repeat' first
    | with_reducible assumption
    | with_reducible apply After.ite
    | (with_reducible refine After.foldl ?_ (fun _ _ _ => ?_))
    | with_reducible apply startFallback_after
    | split
    | (with_reducible apply After.mk_of; refine AfterK.of ?_; first | with_reducible assumption | with_reducible apply After.ite | (with_reducible refine After.foldl ?_ (fun _ _ _ => ?_)) | with_reducible apply startFallback_after)

theorem bringIn_after {s₀ s : State} (h₀ : After s₀ s) (role cls spare : Nat) : After s₀ (State.bringIn s role cls spare) := by
  unfold State.bringIn
  try dsimp only
  repeat' first
    | with_reducible assumption
    | with_reducible apply After.ite
    | (with_reducible refine After.foldl ?_ (fun _ _ _ => ?_))
    | with_reducible apply spareNotice_after
    | split
    | (with_reducible apply After.mk_of; refine AfterK.of ?_; first | with_reducible assumption | with_reducible apply After.ite | (with_reducible refine After.foldl ?_ (fun _ _ _ => ?_)) | with_reducible apply spareNotice_after)

theorem loseRole_after {s₀ s : State} (h₀ : After s₀ s) (role : Nat) : After s₀ (State.loseRole s role) := by
  unfold State.loseRole
  try dsimp only
  repeat' first
    | with_reducible assumption
    | with_reducible apply After.ite
    | (with_reducible refine After.foldl ?_ (fun _ _ _ => ?_))
    | split
    | (with_reducible apply After.mk_of; refine AfterK.of ?_; first | with_reducible assumption | with_reducible apply After.ite | (with_reducible refine After.foldl ?_ (fun _ _ _ => ?_)))

theorem losePipe_after {s₀ s : State} (h₀ : After s₀ s) (n : Nat) : After s₀ (State.losePipe s n) := by
  unfold State.losePipe
  try dsimp only
  repeat' first
    | with_reducible assumption
    | with_reducible apply After.ite
    | (with_reducible refine After.foldl ?_ (fun _ _ _ => ?_))
    | with_reducible apply jobArrive_after
    | with_reducible apply movePipes_after
    | split
    | (with_reducible apply After.mk_of; refine AfterK.of ?_; first | with_reducible assumption | with_reducible apply After.ite | (with_reducible refine After.foldl ?_ (fun _ _ _ => ?_)) | with_reducible apply jobArrive_after | with_reducible apply movePipes_after)

theorem failPipe_after {s₀ s : State} (h₀ : After s₀ s) (n : Nat) : After s₀ (State.failPipe s n) := by
  unfold State.failPipe
  try dsimp only
  repeat' first
    | with_reducible assumption
    | with_reducible apply After.ite
    | (with_reducible refine After.foldl ?_ (fun _ _ _ => ?_))
    | with_reducible apply deviceEnd_after
    | with_reducible apply jobArrive_after
    | with_reducible apply setPipe_after
    | split
    | (with_reducible apply After.mk_of; refine AfterK.of ?_; first | with_reducible assumption | with_reducible apply After.ite | (with_reducible refine After.foldl ?_ (fun _ _ _ => ?_)) | with_reducible apply deviceEnd_after | with_reducible apply jobArrive_after | with_reducible apply setPipe_after)

theorem failSlice_after {s₀ s : State} (h₀ : After s₀ s) (slice : Nat) : After s₀ (State.failSlice s slice) := by
  unfold State.failSlice
  try dsimp only
  repeat' first
    | with_reducible assumption
    | with_reducible apply After.ite
    | (with_reducible refine After.foldl ?_ (fun _ _ _ => ?_))
    | with_reducible apply homes_after
    | split
    | (with_reducible apply After.mk_of; refine AfterK.of ?_; first | with_reducible assumption | with_reducible apply After.ite | (with_reducible refine After.foldl ?_ (fun _ _ _ => ?_)) | with_reducible apply homes_after)

theorem failBank_after {s₀ s : State} (h₀ : After s₀ s) (bank : Nat) : After s₀ (State.failBank s bank) := by
  unfold State.failBank
  try dsimp only
  repeat' first
    | with_reducible assumption
    | with_reducible apply After.ite
    | (with_reducible refine After.foldl ?_ (fun _ _ _ => ?_))
    | with_reducible apply enterWays_after
    | split
    | (with_reducible apply After.mk_of; refine AfterK.of ?_; first | with_reducible assumption | with_reducible apply After.ite | (with_reducible refine After.foldl ?_ (fun _ _ _ => ?_)) | with_reducible apply enterWays_after)

theorem failWork_after {s₀ s : State} (h₀ : After s₀ s) (role : Nat) : After s₀ (State.failWork s role) := by
  unfold State.failWork
  try dsimp only
  repeat' first
    | with_reducible assumption
    | with_reducible apply After.ite
    | (with_reducible refine After.foldl ?_ (fun _ _ _ => ?_))
    | with_reducible apply failBank_after
    | with_reducible apply failPipe_after
    | with_reducible apply failSlice_after
    | split
    | (with_reducible apply After.mk_of; refine AfterK.of ?_; first | with_reducible assumption | with_reducible apply After.ite | (with_reducible refine After.foldl ?_ (fun _ _ _ => ?_)) | with_reducible apply failBank_after | with_reducible apply failPipe_after | with_reducible apply failSlice_after)

theorem noSpare_after {s₀ s : State} (h₀ : After s₀ s) (cls role : Nat) : After s₀ (State.noSpare s cls role) := by
  unfold State.noSpare
  try dsimp only
  repeat' first
    | with_reducible assumption
    | with_reducible apply After.ite
    | (with_reducible refine After.foldl ?_ (fun _ _ _ => ?_))
    | with_reducible apply freeze_after
    | with_reducible apply losePipe_after
    | with_reducible apply loseRole_after
    | split
    | (with_reducible apply After.mk_of; refine AfterK.of ?_; first | with_reducible assumption | with_reducible apply After.ite | (with_reducible refine After.foldl ?_ (fun _ _ _ => ?_)) | with_reducible apply freeze_after | with_reducible apply losePipe_after | with_reducible apply loseRole_after)

theorem failClass_after {s₀ s : State} (h₀ : After s₀ s) (c : Nat × Nat × Nat × List Nat) (role : Nat) : After s₀ (State.failClass s c role) := by
  unfold State.failClass
  try dsimp only
  repeat' first
    | with_reducible assumption
    | with_reducible apply After.ite
    | (with_reducible refine After.foldl ?_ (fun _ _ _ => ?_))
    | with_reducible apply bringIn_after
    | with_reducible apply failWork_after
    | with_reducible apply noSpare_after
    | split
    | (with_reducible apply After.mk_of; refine AfterK.of ?_; first | with_reducible assumption | with_reducible apply After.ite | (with_reducible refine After.foldl ?_ (fun _ _ _ => ?_)) | with_reducible apply bringIn_after | with_reducible apply failWork_after | with_reducible apply noSpare_after)

theorem failLinks_after {s₀ s : State} (h₀ : After s₀ s) (role : Nat) : After s₀ (State.failLinks s role) := by
  unfold State.failLinks
  try dsimp only
  repeat' first
    | with_reducible assumption
    | with_reducible apply After.ite
    | (with_reducible refine After.foldl ?_ (fun _ _ _ => ?_))
    | with_reducible apply takeDown_after
    | split
    | (with_reducible apply After.mk_of; refine AfterK.of ?_; first | with_reducible assumption | with_reducible apply After.ite | (with_reducible refine After.foldl ?_ (fun _ _ _ => ?_)) | with_reducible apply takeDown_after)

theorem failRelay_after {s₀ s : State} (h₀ : After s₀ s) (role : Nat) : After s₀ (State.failRelay s role) := by
  unfold State.failRelay
  try dsimp only
  repeat' first
    | with_reducible assumption
    | with_reducible apply After.ite
    | (with_reducible refine After.foldl ?_ (fun _ _ _ => ?_))
    | with_reducible apply relayFault_after
    | split
    | (with_reducible apply After.mk_of; refine AfterK.of ?_; first | with_reducible assumption | with_reducible apply After.ite | (with_reducible refine After.foldl ?_ (fun _ _ _ => ?_)) | with_reducible apply relayFault_after)

theorem failChannel_after {s₀ s : State} (h₀ : After s₀ s) (ch : Nat) : After s₀ (State.failChannel s ch) := by
  unfold State.failChannel
  try dsimp only
  repeat' first
    | with_reducible assumption
    | with_reducible apply After.ite
    | (with_reducible refine After.foldl ?_ (fun _ _ _ => ?_))
    | split
    | (with_reducible apply After.mk_of; refine AfterK.of ?_; first | with_reducible assumption | with_reducible apply After.ite | (with_reducible refine After.foldl ?_ (fun _ _ _ => ?_)))

theorem activeFails_after {s₀ s : State} (h₀ : After s₀ s) (island : Nat) : After s₀ (State.activeFails s island) := by
  unfold State.activeFails
  try dsimp only
  repeat' first
    | with_reducible assumption
    | with_reducible apply After.ite
    | (with_reducible refine After.foldl ?_ (fun _ _ _ => ?_))
    | with_reducible apply restart_after
    | split
    | (with_reducible apply After.mk_of; refine AfterK.of ?_; first | with_reducible assumption | with_reducible apply After.ite | (with_reducible refine After.foldl ?_ (fun _ _ _ => ?_)) | with_reducible apply restart_after)

theorem standbyFails_after {s₀ s : State} (h : After s₀ s) (restartable : Bool) : After s₀ (State.standbyFails s restartable) := by
  unfold State.standbyFails
  split
  · exact h.trans (execStandbyFail_after restartable _ ‹_›)
  · exact h

theorem failSingle_after {s₀ s : State} (h₀ : After s₀ s) (role : Nat) : After s₀ (State.failSingle s role) := by
  unfold State.failSingle
  try dsimp only
  repeat' first
    | with_reducible assumption
    | with_reducible apply After.ite
    | (with_reducible refine After.foldl ?_ (fun _ _ _ => ?_))
    | with_reducible apply activeFails_after
    | with_reducible apply failChannel_after
    | with_reducible apply failLinks_after
    | with_reducible apply failRelay_after
    | with_reducible apply flushLogs_after
    | with_reducible apply loseRole_after
    | with_reducible apply restart_after
    | with_reducible apply standbyFails_after
    | with_reducible apply startFault_after
    | split
    | (with_reducible apply After.mk_of; refine AfterK.of ?_; first | with_reducible assumption | with_reducible apply After.ite | (with_reducible refine After.foldl ?_ (fun _ _ _ => ?_)) | with_reducible apply activeFails_after | with_reducible apply failChannel_after | with_reducible apply failLinks_after | with_reducible apply failRelay_after | with_reducible apply flushLogs_after | with_reducible apply loseRole_after | with_reducible apply restart_after | with_reducible apply standbyFails_after | with_reducible apply startFault_after)

theorem failIsland_after {s₀ s : State} (h₀ : After s₀ s) (island : Nat) (held : List Nat) : After s₀ (State.failIsland s island held) := by
  unfold State.failIsland
  try dsimp only
  repeat' first
    | with_reducible assumption
    | with_reducible apply After.ite
    | (with_reducible refine After.foldl ?_ (fun _ _ _ => ?_))
    | with_reducible apply deviceEnd_after
    | with_reducible apply failClass_after
    | with_reducible apply failSingle_after
    | split
    | (with_reducible apply After.mk_of; refine AfterK.of ?_; first | with_reducible assumption | with_reducible apply After.ite | (with_reducible refine After.foldl ?_ (fun _ _ _ => ?_)) | with_reducible apply deviceEnd_after | with_reducible apply failClass_after | with_reducible apply failSingle_after)

theorem execIslandFail_after {s : State} (island : Nat) (held : List Nat) : AfterO s (execIslandFail island held s) := by
  have h0 := After.refl s
  unfold execIslandFail
  try dsimp only
  repeat' first
    | with_reducible assumption
    | with_reducible apply AfterO.next
    | with_reducible apply AfterO.ite
    | with_reducible apply After.ite
    | (with_reducible refine After.foldl ?_ (fun _ _ _ => ?_))
    | with_reducible apply failIsland_after
    | with_reducible apply relaySettle_after
    | with_reducible apply selftestFault_after
    | split
    | (with_reducible apply After.mk_of; refine AfterK.of ?_; first | with_reducible assumption | with_reducible apply AfterO.next | with_reducible apply AfterO.ite | with_reducible apply After.ite | (with_reducible refine After.foldl ?_ (fun _ _ _ => ?_)) | with_reducible apply failIsland_after | with_reducible apply relaySettle_after | with_reducible apply selftestFault_after)

theorem execIslandRetire_after {s : State} (island bank : Nat) : AfterO s (execIslandRetire island bank s) := by
  have h0 := After.refl s
  unfold execIslandRetire
  try dsimp only
  repeat' first
    | with_reducible assumption
    | with_reducible apply AfterO.next
    | with_reducible apply AfterO.ite
    | with_reducible apply After.ite
    | (with_reducible refine After.foldl ?_ (fun _ _ _ => ?_))
    | with_reducible apply bringIn_after
    | with_reducible apply logEvent_after
    | with_reducible apply watch_after
    | split
    | (with_reducible apply After.mk_of; refine AfterK.of ?_; first | with_reducible assumption | with_reducible apply AfterO.next | with_reducible apply AfterO.ite | with_reducible apply After.ite | (with_reducible refine After.foldl ?_ (fun _ _ _ => ?_)) | with_reducible apply bringIn_after | with_reducible apply logEvent_after | with_reducible apply watch_after)

theorem execTrunkLinkFail_after {s : State} (hub dir : Nat) : AfterO s (execTrunkLinkFail hub dir s) := by
  have h0 := After.refl s
  unfold execTrunkLinkFail
  try dsimp only
  repeat' first
    | with_reducible assumption
    | with_reducible apply AfterO.next
    | with_reducible apply AfterO.ite
    | with_reducible apply After.ite
    | (with_reducible refine After.foldl ?_ (fun _ _ _ => ?_))
    | with_reducible apply watch_after
    | split
    | (with_reducible apply After.mk_of; refine AfterK.of ?_; first | with_reducible assumption | with_reducible apply AfterO.next | with_reducible apply AfterO.ite | with_reducible apply After.ite | (with_reducible refine After.foldl ?_ (fun _ _ _ => ?_)) | with_reducible apply watch_after)

theorem spareRow_after {s₀ s : State} (h₀ : After s₀ s) (ch row cause : Nat) : After s₀ (State.spareRow s ch row cause) := by
  unfold State.spareRow
  try dsimp only
  repeat' first
    | with_reducible assumption
    | with_reducible apply After.ite
    | (with_reducible refine After.foldl ?_ (fun _ _ _ => ?_))
    | with_reducible apply freeze_after
    | with_reducible apply logEvent_after
    | split
    | (with_reducible apply After.mk_of; refine AfterK.of ?_; first | with_reducible assumption | with_reducible apply After.ite | (with_reducible refine After.foldl ?_ (fun _ _ _ => ?_)) | with_reducible apply freeze_after | with_reducible apply logEvent_after)

theorem execCeDecay_after {s : State} (sram dram : List (Nat × Nat × Nat)) : AfterO s (execCeDecay sram dram s) := by
  have h0 := After.refl s
  unfold execCeDecay
  try dsimp only
  repeat' first
    | with_reducible assumption
    | with_reducible apply AfterO.next
    | with_reducible apply AfterO.ite
    | with_reducible apply After.ite
    | (with_reducible refine After.foldl ?_ (fun _ _ _ => ?_))
    | with_reducible apply spareRow_after
    | with_reducible apply watch_after
    | split
    | (with_reducible apply After.mk_of; refine AfterK.of ?_; first | with_reducible assumption | with_reducible apply AfterO.next | with_reducible apply AfterO.ite | with_reducible apply After.ite | (with_reducible refine After.foldl ?_ (fun _ _ _ => ?_)) | with_reducible apply spareRow_after | with_reducible apply watch_after)

theorem ueRecord_after {s₀ s : State} (h₀ : After s₀ s) (island memory outcome addr : Nat) (b sram : Bool) : After s₀ (State.ueRecord s island memory outcome addr b sram) := by
  unfold State.ueRecord
  try dsimp only
  repeat' first
    | with_reducible assumption
    | with_reducible apply After.ite
    | (with_reducible refine After.foldl ?_ (fun _ _ _ => ?_))
    | with_reducible apply logEvent_after
    | split
    | (with_reducible apply After.mk_of; refine AfterK.of ?_; first | with_reducible assumption | with_reducible apply After.ite | (with_reducible refine After.foldl ?_ (fun _ _ _ => ?_)) | with_reducible apply logEvent_after)

theorem repaired_after {s₀ s : State} (h₀ : After s₀ s)  : After s₀ (State.repaired s) := by
  unfold State.repaired
  try dsimp only
  repeat' first
    | with_reducible assumption
    | with_reducible apply After.ite
    | (with_reducible refine After.foldl ?_ (fun _ _ _ => ?_))
    | split
    | (with_reducible apply After.mk_of; refine AfterK.of ?_; first | with_reducible assumption | with_reducible apply After.ite | (with_reducible refine After.foldl ?_ (fun _ _ _ => ?_)))

theorem ueEffect_after {s₀ s : State} (h₀ : After s₀ s) (island row : Nat) (b : Bool) (x0 : UeWhere) : After s₀ (State.ueEffect s island row b x0) := by
  unfold State.ueEffect
  try dsimp only
  repeat' first
    | with_reducible assumption
    | with_reducible apply After.ite
    | (with_reducible refine After.foldl ?_ (fun _ _ _ => ?_))
    | with_reducible apply cacheDrop_after
    | with_reducible apply deviceEnd_after
    | with_reducible apply failIsland_after
    | with_reducible apply repaired_after
    | with_reducible apply selftestFault_after
    | with_reducible apply spareRow_after
    | with_reducible apply updSieve_after
    | split
    | (with_reducible apply After.mk_of; refine AfterK.of ?_; first | with_reducible assumption | with_reducible apply After.ite | (with_reducible refine After.foldl ?_ (fun _ _ _ => ?_)) | with_reducible apply cacheDrop_after | with_reducible apply deviceEnd_after | with_reducible apply failIsland_after | with_reducible apply repaired_after | with_reducible apply selftestFault_after | with_reducible apply spareRow_after | with_reducible apply updSieve_after)

theorem execUeFound_after {s : State} (island asker addr row : Nat) (flit : Bool) (site : UeWhere) : AfterO s (execUeFound island asker addr row flit site s) := by
  have h0 := After.refl s
  unfold execUeFound
  try dsimp only
  repeat' first
    | with_reducible assumption
    | with_reducible apply AfterO.next
    | with_reducible apply AfterO.ite
    | with_reducible apply After.ite
    | (with_reducible refine After.foldl ?_ (fun _ _ _ => ?_))
    | with_reducible apply relaySettle_after
    | with_reducible apply ueEffect_after
    | with_reducible apply ueRecord_after
    | split
    | (with_reducible apply After.mk_of; refine AfterK.of ?_; first | with_reducible assumption | with_reducible apply AfterO.next | with_reducible apply AfterO.ite | with_reducible apply After.ite | (with_reducible refine After.foldl ?_ (fun _ _ _ => ?_)) | with_reducible apply relaySettle_after | with_reducible apply ueEffect_after | with_reducible apply ueRecord_after)

theorem execRepairComplete_after {s : State} (unit : Nat) (readable : Bool) : AfterO s (execRepairComplete unit readable s) := by
  have h0 := After.refl s
  unfold execRepairComplete
  try dsimp only
  repeat' first
    | with_reducible assumption
    | with_reducible apply AfterO.next
    | with_reducible apply AfterO.ite
    | with_reducible apply After.ite
    | (with_reducible refine After.foldl ?_ (fun _ _ _ => ?_))
    | with_reducible apply homes_after
    | with_reducible apply repaired_after
    | with_reducible apply restart_after
    | with_reducible apply settle_after
    | with_reducible apply spareRow_after
    | split
    | (with_reducible apply After.mk_of; refine AfterK.of ?_; first | with_reducible assumption | with_reducible apply AfterO.next | with_reducible apply AfterO.ite | with_reducible apply After.ite | (with_reducible refine After.foldl ?_ (fun _ _ _ => ?_)) | with_reducible apply homes_after | with_reducible apply repaired_after | with_reducible apply restart_after | with_reducible apply settle_after | with_reducible apply spareRow_after)

theorem execCodeTrap_after {s : State} (island addr : Nat) (held : List Nat) : AfterO s (execCodeTrap island addr held s) := by
  have h0 := After.refl s
  unfold execCodeTrap
  try dsimp only
  repeat' first
    | with_reducible assumption
    | with_reducible apply AfterO.next
    | with_reducible apply AfterO.ite
    | with_reducible apply After.ite
    | (with_reducible refine After.foldl ?_ (fun _ _ _ => ?_))
    | with_reducible apply activeFails_after
    | with_reducible apply failIsland_after
    | with_reducible apply relaySettle_after
    | with_reducible apply restart_after
    | with_reducible apply selftestFault_after
    | with_reducible apply standbyFails_after
    | with_reducible apply ueRecord_after
    | split
    | (with_reducible apply After.mk_of; refine AfterK.of ?_; first | with_reducible assumption | with_reducible apply AfterO.next | with_reducible apply AfterO.ite | with_reducible apply After.ite | (with_reducible refine After.foldl ?_ (fun _ _ _ => ?_)) | with_reducible apply activeFails_after | with_reducible apply failIsland_after | with_reducible apply relaySettle_after | with_reducible apply restart_after | with_reducible apply selftestFault_after | with_reducible apply standbyFails_after | with_reducible apply ueRecord_after)

theorem execCodeBankReloaded_after {s : State} (island : Nat) : AfterO s (execCodeBankReloaded island s) := by
  have h0 := After.refl s
  unfold execCodeBankReloaded
  try dsimp only
  repeat' first
    | with_reducible assumption
    | with_reducible apply AfterO.next
    | with_reducible apply AfterO.ite
    | with_reducible apply After.ite
    | (with_reducible refine After.foldl ?_ (fun _ _ _ => ?_))
    | split
    | (with_reducible apply After.mk_of; refine AfterK.of ?_; first | with_reducible assumption | with_reducible apply AfterO.next | with_reducible apply AfterO.ite | with_reducible apply After.ite | (with_reducible refine After.foldl ?_ (fun _ _ _ => ?_)))

theorem overrun_after {s₀ s : State} (h₀ : After s₀ s) (island : Nat) (x : Ctx) : After s₀ (State.overrun s island x) := by
  unfold State.overrun
  try dsimp only
  repeat' first
    | with_reducible assumption
    | with_reducible apply After.ite
    | (with_reducible refine After.foldl ?_ (fun _ _ _ => ?_))
    | with_reducible apply deviceEnd_after
    | with_reducible apply logEvent_after
    | split
    | (with_reducible apply After.mk_of; refine AfterK.of ?_; first | with_reducible assumption | with_reducible apply After.ite | (with_reducible refine After.foldl ?_ (fun _ _ _ => ?_)) | with_reducible apply deviceEnd_after | with_reducible apply logEvent_after)

theorem execProgressScan_after {s : State} (island : Nat) : AfterO s (execProgressScan island s) := by
  have h0 := After.refl s
  unfold execProgressScan
  try dsimp only
  repeat' first
    | with_reducible assumption
    | with_reducible apply AfterO.next
    | with_reducible apply AfterO.ite
    | with_reducible apply After.ite
    | (with_reducible refine After.foldl ?_ (fun _ _ _ => ?_))
    | with_reducible apply overrun_after
    | with_reducible apply relaySettle_after
    | with_reducible apply selftestFault_after
    | split
    | (with_reducible apply After.mk_of; refine AfterK.of ?_; first | with_reducible assumption | with_reducible apply AfterO.next | with_reducible apply AfterO.ite | with_reducible apply After.ite | (with_reducible refine After.foldl ?_ (fun _ _ _ => ?_)) | with_reducible apply overrun_after | with_reducible apply relaySettle_after | with_reducible apply selftestFault_after)

theorem execIslandReload_after {s : State} (island : Nat) (ok : Bool) : AfterO s (execIslandReload island ok s) := by
  have h0 := After.refl s
  unfold execIslandReload
  try dsimp only
  repeat' first
    | with_reducible assumption
    | with_reducible apply AfterO.next
    | with_reducible apply AfterO.ite
    | with_reducible apply After.ite
    | (with_reducible refine After.foldl ?_ (fun _ _ _ => ?_))
    | with_reducible apply failIsland_after
    | with_reducible apply relaySettle_after
    | with_reducible apply reloadEnd_after
    | with_reducible apply rotateRole_after
    | with_reducible apply startFallback_after
    | split
    | (with_reducible apply After.mk_of; refine AfterK.of ?_; first | with_reducible assumption | with_reducible apply AfterO.next | with_reducible apply AfterO.ite | with_reducible apply After.ite | (with_reducible refine After.foldl ?_ (fun _ _ _ => ?_)) | with_reducible apply failIsland_after | with_reducible apply relaySettle_after | with_reducible apply reloadEnd_after | with_reducible apply rotateRole_after | with_reducible apply startFallback_after)

end Sys2Proof.Machine
end

