-- ==== Sys2Proof/Laws/AfterPower.lean ====
section
/-! SUPPORT. Every operation of Machine/Power.lean leaves a state after the one it is given. -/

set_option Elab.async false

namespace Sys2Proof.Machine

theorem mayIdle_facts {s : State} {target : Nat} (h : s.mayIdle target = true) : target ≤ 3 ∧ s.modes.mode = .serving := by
  unfold State.mayIdle at h
  simp only [Bool.and_eq_true, decide_eq_true_eq, beq_iff_eq] at h
  obtain ⟨⟨⟨⟨⟨⟨⟨⟨⟨-, h1⟩, -⟩, h2⟩, -⟩, -⟩, -⟩, -⟩, -⟩, -⟩ := h
  exact ⟨h1, h2⟩

theorem execIdleTimer_after {s : State} (target : Nat) : AfterO s (execIdleTimer target s) := by
  have h0 := After.refl s
  unfold execIdleTimer
  cases hm : s.mayIdle target with
  | false => exact AfterO.next h0
  | true =>
    obtain ⟨ht, hs⟩ := mayIdle_facts hm
    simp only [Bool.not_true, Bool.false_eq_true, if_false]
    split
    · have h1 : After s s.flushLogs.closeParity := closeParity_after (flushLogs_after h0)
      split
      · exact AfterO.next (deepen_after h1 3 (Nat.le_refl _) hs)
      · exact AfterO.next (h1.congr rfl)
    · exact AfterO.next (deepen_after h0 target ht hs)

theorem execPowerExitComplete_after {s : State} : AfterO s (execPowerExitComplete s) := by
  have h0 := After.refl s
  unfold execPowerExitComplete
  split
  · exact AfterO.next h0
  · split
    · exact AfterO.next h0
    · refine AfterO.next (shallower_after h0 _ (fun _ => ?_))
      split
      · rename_i hc
        have := beq_iff_eq.1 (Bool.and_eq_true _ _ ▸ hc).2
        omega
      · exact Nat.zero_le _

theorem execDramSelfRefresh_after {s : State} (channel : Nat) : AfterO s (execDramSelfRefresh channel s) := by
  have h0 := After.refl s
  unfold execDramSelfRefresh
  try dsimp only
  repeat' first
    | with_reducible assumption
    | with_reducible apply AfterO.next
    | with_reducible apply AfterO.ite
    | with_reducible apply After.ite
    | (with_reducible refine After.foldl ?_ (fun _ _ _ => ?_))
    | split
    | (with_reducible apply After.mk_of; refine AfterK.of ?_; first | with_reducible assumption | with_reducible apply AfterO.next | with_reducible apply AfterO.ite | with_reducible apply After.ite | (with_reducible refine After.foldl ?_ (fun _ _ _ => ?_)))

theorem throttle_after {s₀ s : State} (h₀ : After s₀ s)  : After s₀ (State.throttle s) := by
  unfold State.throttle
  try dsimp only
  repeat' first
    | with_reducible assumption
    | with_reducible apply After.ite
    | (with_reducible refine After.foldl ?_ (fun _ _ _ => ?_))
    | with_reducible apply alert_after
    | with_reducible apply logEvent_after
    | with_reducible apply pairRun_after
    | with_reducible apply relaySettle_after
    | with_reducible apply startExit_after
    | with_reducible apply settleScan_after
    | split
    | (with_reducible apply After.mk_of; refine AfterK.of ?_; first | with_reducible assumption | with_reducible apply settleScan_after | with_reducible apply After.ite | (with_reducible refine After.foldl ?_ (fun _ _ _ => ?_)) | with_reducible apply alert_after | with_reducible apply logEvent_after | with_reducible apply pairRun_after | with_reducible apply relaySettle_after | with_reducible apply startExit_after)

theorem execThermalSample_after {s : State} (readings : List Int) : AfterO s (execThermalSample readings s) := by
  have h0 := After.refl s
  unfold execThermalSample
  try dsimp only
  repeat' first
    | with_reducible assumption
    | with_reducible apply AfterO.next
    | with_reducible apply AfterO.ite
    | with_reducible apply After.ite
    | (with_reducible refine After.foldl ?_ (fun _ _ _ => ?_))
    | with_reducible apply throttle_after
    | with_reducible apply watch_after
    | split
    | (with_reducible apply After.mk_of; refine AfterK.of ?_; first | with_reducible assumption | with_reducible apply AfterO.next | with_reducible apply AfterO.ite | with_reducible apply After.ite | (with_reducible refine After.foldl ?_ (fun _ _ _ => ?_)) | with_reducible apply throttle_after | with_reducible apply watch_after)

theorem execTemperatureHistorySample_after {s : State}  : AfterO s (execTemperatureHistorySample s) := by
  have h0 := After.refl s
  unfold execTemperatureHistorySample
  try dsimp only
  repeat' first
    | with_reducible assumption
    | with_reducible apply AfterO.next
    | with_reducible apply AfterO.ite
    | with_reducible apply After.ite
    | (with_reducible refine After.foldl ?_ (fun _ _ _ => ?_))
    | split
    | (with_reducible apply After.mk_of; refine AfterK.of ?_; first | with_reducible assumption | with_reducible apply AfterO.next | with_reducible apply AfterO.ite | with_reducible apply After.ite | (with_reducible refine After.foldl ?_ (fun _ _ _ => ?_)))

theorem failSection_after {s₀ s : State} (h₀ : After s₀ s) (i : Nat) : After s₀ (State.failSection s i) := by
  unfold State.failSection
  try dsimp only
  repeat' first
    | with_reducible assumption
    | with_reducible apply After.ite
    | (with_reducible refine After.foldl ?_ (fun _ _ _ => ?_))
    | with_reducible apply freeze_after
    | with_reducible apply spareNotice_after
    | split
    | (with_reducible apply After.mk_of; refine AfterK.of ?_; first | with_reducible assumption | with_reducible apply After.ite | (with_reducible refine After.foldl ?_ (fun _ _ _ => ?_)) | with_reducible apply freeze_after | with_reducible apply spareNotice_after)

theorem execSectionFail_after {s : State} (sectionNo : Nat) : AfterO s (execSectionFail sectionNo s) := by
  have h0 := After.refl s
  unfold execSectionFail
  try dsimp only
  repeat' first
    | with_reducible assumption
    | with_reducible apply AfterO.next
    | with_reducible apply AfterO.ite
    | with_reducible apply After.ite
    | (with_reducible refine After.foldl ?_ (fun _ _ _ => ?_))
    | with_reducible apply failSection_after
    | with_reducible apply watch_after
    | split
    | (with_reducible apply After.mk_of; refine AfterK.of ?_; first | with_reducible assumption | with_reducible apply AfterO.next | with_reducible apply AfterO.ite | with_reducible apply After.ite | (with_reducible refine After.foldl ?_ (fun _ _ _ => ?_)) | with_reducible apply failSection_after | with_reducible apply watch_after)

theorem execHoldupTestStart_after {s : State}  : AfterO s (execHoldupTestStart s) := by
  have h0 := After.refl s
  unfold execHoldupTestStart
  try dsimp only
  repeat' first
    | with_reducible assumption
    | with_reducible apply AfterO.next
    | with_reducible apply AfterO.ite
    | with_reducible apply After.ite
    | (with_reducible refine After.foldl ?_ (fun _ _ _ => ?_))
    | with_reducible apply startTest_after
    | split
    | (with_reducible apply After.mk_of; refine AfterK.of ?_; first | with_reducible assumption | with_reducible apply AfterO.next | with_reducible apply AfterO.ite | with_reducible apply After.ite | (with_reducible refine After.foldl ?_ (fun _ _ _ => ?_)) | with_reducible apply startTest_after)

theorem execHoldupTest_after {s : State} (result : BankTest) : AfterO s (execHoldupTest result s) := by
  have h0 := After.refl s
  unfold execHoldupTest
  try dsimp only
  repeat' first
    | with_reducible assumption
    | with_reducible apply AfterO.next
    | with_reducible apply AfterO.ite
    | with_reducible apply After.ite
    | (with_reducible refine After.foldl ?_ (fun _ _ _ => ?_))
    | with_reducible apply failSection_after
    | with_reducible apply freeze_after
    | with_reducible apply logEvent_after
    | with_reducible apply saveSettings_after
    | with_reducible apply watch_after
    | split
    | (with_reducible apply After.mk_of; refine AfterK.of ?_; first | with_reducible assumption | with_reducible apply AfterO.next | with_reducible apply AfterO.ite | with_reducible apply After.ite | (with_reducible refine After.foldl ?_ (fun _ _ _ => ?_)) | with_reducible apply failSection_after | with_reducible apply freeze_after | with_reducible apply logEvent_after | with_reducible apply saveSettings_after | with_reducible apply watch_after)

end Sys2Proof.Machine
end

