-- ==== Sys2Proof/Laws/AfterMedia.lean ====
section
/-! SUPPORT. Every operation of Machine/Media.lean leaves a state after the one it is given. -/

set_option Elab.async false

namespace Sys2Proof.Machine

theorem execQuinceUpdate_after {s : State} (bank : Nat) : AfterO s (execQuinceUpdate bank s) := by
  have h0 := After.refl s
  unfold execQuinceUpdate
  try dsimp only
  repeat' first
    | with_reducible assumption
    | with_reducible apply AfterO.next
    | with_reducible apply AfterO.ite
    | with_reducible apply After.ite
    | (with_reducible refine After.foldl ?_ (fun _ _ _ => ?_))
    | split
    | (with_reducible apply After.mk_of; refine AfterK.of ?_; first | with_reducible assumption | with_reducible apply AfterO.next | with_reducible apply AfterO.ite | with_reducible apply After.ite | (with_reducible refine After.foldl ?_ (fun _ _ _ => ?_)))

theorem rowReload_after {s₀ s : State} (h₀ : After s₀ s) (bank row : Nat) (cleared : Bool) : After s₀ (State.rowReload s bank row cleared) := by
  unfold State.rowReload
  try dsimp only
  repeat' first
    | with_reducible assumption
    | with_reducible apply After.ite
    | (with_reducible refine After.foldl ?_ (fun _ _ _ => ?_))
    | with_reducible apply logEvent_after
    | split
    | (with_reducible apply After.mk_of; refine AfterK.of ?_; first | with_reducible assumption | with_reducible apply After.ite | (with_reducible refine After.foldl ?_ (fun _ _ _ => ?_)) | with_reducible apply logEvent_after)

theorem execQuinceSweep_after {s : State} (bank row : Nat) (upset : Upset) : AfterO s (execQuinceSweep bank row upset s) := by
  have h0 := After.refl s
  unfold execQuinceSweep
  try dsimp only
  repeat' first
    | with_reducible assumption
    | with_reducible apply AfterO.next
    | with_reducible apply AfterO.ite
    | with_reducible apply After.ite
    | (with_reducible refine After.foldl ?_ (fun _ _ _ => ?_))
    | with_reducible apply enterWays_after
    | with_reducible apply rowReload_after
    | split
    | (with_reducible apply After.mk_of; refine AfterK.of ?_; first | with_reducible assumption | with_reducible apply AfterO.next | with_reducible apply AfterO.ite | with_reducible apply After.ite | (with_reducible refine After.foldl ?_ (fun _ _ _ => ?_)) | with_reducible apply enterWays_after | with_reducible apply rowReload_after)

theorem execLogFlush_after {s : State} (logB : Bool) : AfterO s (execLogFlush logB s) := by
  have h0 := After.refl s
  unfold execLogFlush
  try dsimp only
  repeat' first
    | with_reducible assumption
    | with_reducible apply AfterO.next
    | with_reducible apply AfterO.ite
    | with_reducible apply After.ite
    | (with_reducible refine After.foldl ?_ (fun _ _ _ => ?_))
    | with_reducible apply program_after
    | split
    | (with_reducible apply After.mk_of; refine AfterK.of ?_; first | with_reducible assumption | with_reducible apply AfterO.next | with_reducible apply AfterO.ite | with_reducible apply After.ite | (with_reducible refine After.foldl ?_ (fun _ _ _ => ?_)) | with_reducible apply program_after)

theorem execCheckpointWrite_after {s : State}  : AfterO s (execCheckpointWrite s) := by
  have h0 := After.refl s
  unfold execCheckpointWrite
  try dsimp only
  repeat' first
    | with_reducible assumption
    | with_reducible apply AfterO.next
    | with_reducible apply AfterO.ite
    | with_reducible apply After.ite
    | (with_reducible refine After.foldl ?_ (fun _ _ _ => ?_))
    | with_reducible apply writeChunk_after
    | split
    | (with_reducible apply After.mk_of; refine AfterK.of ?_; first | with_reducible assumption | with_reducible apply AfterO.next | with_reducible apply AfterO.ite | with_reducible apply After.ite | (with_reducible refine After.foldl ?_ (fun _ _ _ => ?_)) | with_reducible apply writeChunk_after)

theorem execStripeIdleClose_after {s : State} (group : Nat) : AfterO s (execStripeIdleClose group s) := by
  have h0 := After.refl s
  unfold execStripeIdleClose
  try dsimp only
  repeat' first
    | with_reducible assumption
    | with_reducible apply AfterO.next
    | with_reducible apply AfterO.ite
    | with_reducible apply After.ite
    | (with_reducible refine After.foldl ?_ (fun _ _ _ => ?_))
    | with_reducible apply updGroup_after
    | split
    | (with_reducible apply After.mk_of; refine AfterK.of ?_; first | with_reducible assumption | with_reducible apply AfterO.next | with_reducible apply AfterO.ite | with_reducible apply After.ite | (with_reducible refine After.foldl ?_ (fun _ _ _ => ?_)) | with_reducible apply updGroup_after)

theorem execHeatHalving_after {s : State}  : AfterO s (execHeatHalving s) := by
  have h0 := After.refl s
  unfold execHeatHalving
  try dsimp only
  repeat' first
    | with_reducible assumption
    | with_reducible apply AfterO.next
    | with_reducible apply AfterO.ite
    | with_reducible apply After.ite
    | (with_reducible refine After.foldl ?_ (fun _ _ _ => ?_))
    | split
    | (with_reducible apply After.mk_of; refine AfterK.of ?_; first | with_reducible assumption | with_reducible apply AfterO.next | with_reducible apply AfterO.ite | with_reducible apply After.ite | (with_reducible refine After.foldl ?_ (fun _ _ _ => ?_)))

theorem markWear_after {s₀ s : State} (h₀ : After s₀ s) (o : Nat) : After s₀ (State.markWear s o) := by
  unfold State.markWear
  try dsimp only
  repeat' first
    | with_reducible assumption
    | with_reducible apply After.ite
    | (with_reducible refine After.foldl ?_ (fun _ _ _ => ?_))
    | with_reducible apply updGroup_after
    | split
    | (with_reducible apply After.mk_of; refine AfterK.of ?_; first | with_reducible assumption | with_reducible apply After.ite | (with_reducible refine After.foldl ?_ (fun _ _ _ => ?_)) | with_reducible apply updGroup_after)

theorem collect_after {s₀ s : State} (h₀ : After s₀ s) (g : Group) : After s₀ (State.collect s g) := by
  unfold State.collect
  try dsimp only
  repeat' first
    | with_reducible assumption
    | with_reducible apply After.ite
    | (with_reducible refine After.foldl ?_ (fun _ _ _ => ?_))
    | with_reducible apply closeGroup_after
    | with_reducible apply updGroup_after
    | split
    | (with_reducible apply After.mk_of; refine AfterK.of ?_; first | with_reducible assumption | with_reducible apply After.ite | (with_reducible refine After.foldl ?_ (fun _ _ _ => ?_)) | with_reducible apply closeGroup_after | with_reducible apply updGroup_after)

theorem gcOwner_after {s₀ s : State} (h₀ : After s₀ s) (o : Nat) : After s₀ (State.gcOwner s o) := by
  unfold State.gcOwner
  try dsimp only
  repeat' first
    | with_reducible assumption
    | with_reducible apply After.ite
    | (with_reducible refine After.foldl ?_ (fun _ _ _ => ?_))
    | with_reducible apply collect_after
    | with_reducible apply markWear_after
    | with_reducible apply updOwner_after
    | split
    | (with_reducible apply After.mk_of; refine AfterK.of ?_; first | with_reducible assumption | with_reducible apply After.ite | (with_reducible refine After.foldl ?_ (fun _ _ _ => ?_)) | with_reducible apply collect_after | with_reducible apply markWear_after | with_reducible apply updOwner_after)

theorem foldOwner_after {s₀ s : State} (h₀ : After s₀ s) (o : Nat) : After s₀ (State.foldOwner s o) := by
  unfold State.foldOwner
  try dsimp only
  repeat' first
    | with_reducible assumption
    | with_reducible apply After.ite
    | (with_reducible refine After.foldl ?_ (fun _ _ _ => ?_))
    | with_reducible apply collect_after
    | split
    | (with_reducible apply After.mk_of; refine AfterK.of ?_; first | with_reducible assumption | with_reducible apply After.ite | (with_reducible refine After.foldl ?_ (fun _ _ _ => ?_)) | with_reducible apply collect_after)

theorem moveOne_after {s₀ s : State} (h₀ : After s₀ s) (n : Nat) : After s₀ (State.moveOne s n) := by
  unfold State.moveOne
  try dsimp only
  repeat' first
    | with_reducible assumption
    | with_reducible apply After.ite
    | (with_reducible refine After.foldl ?_ (fun _ _ _ => ?_))
    | with_reducible apply collect_after
    | with_reducible apply moveNow_after
    | split
    | (with_reducible apply After.mk_of; refine AfterK.of ?_; first | with_reducible assumption | with_reducible apply After.ite | (with_reducible refine After.foldl ?_ (fun _ _ _ => ?_)) | with_reducible apply collect_after | with_reducible apply moveNow_after)

theorem execGcTick_after {s : State}  : AfterO s (execGcTick s) := by
  have h0 := After.refl s
  unfold execGcTick
  try dsimp only
  repeat' first
    | with_reducible assumption
    | with_reducible apply AfterO.next
    | with_reducible apply AfterO.ite
    | with_reducible apply After.ite
    | (with_reducible refine After.foldl ?_ (fun _ _ _ => ?_))
    | with_reducible apply foldOwner_after
    | with_reducible apply gcOwner_after
    | with_reducible apply moveOne_after
    | with_reducible apply settle_after
    | split
    | (with_reducible apply After.mk_of; refine AfterK.of ?_; first | with_reducible assumption | with_reducible apply AfterO.next | with_reducible apply AfterO.ite | with_reducible apply After.ite | (with_reducible refine After.foldl ?_ (fun _ _ _ => ?_)) | with_reducible apply foldOwner_after | with_reducible apply gcOwner_after | with_reducible apply moveOne_after | with_reducible apply settle_after)

theorem eraseGroup_after {s₀ s : State} (h₀ : After s₀ s) (g : Group) : After s₀ (State.eraseGroup s g) := by
  unfold State.eraseGroup
  try dsimp only
  repeat' first
    | with_reducible assumption
    | with_reducible apply After.ite
    | (with_reducible refine After.foldl ?_ (fun _ _ _ => ?_))
    | with_reducible apply cacheDrop_after
    | split
    | (with_reducible apply After.mk_of; refine AfterK.of ?_; first | with_reducible assumption | with_reducible apply After.ite | (with_reducible refine After.foldl ?_ (fun _ _ _ => ?_)) | with_reducible apply cacheDrop_after)

theorem execEraseComplete_after {s : State} (group : Nat) (failed : List (Nat × Nat)) : AfterO s (execEraseComplete group failed s) := by
  have h0 := After.refl s
  unfold execEraseComplete
  try dsimp only
  repeat' first
    | with_reducible assumption
    | with_reducible apply AfterO.next
    | with_reducible apply AfterO.ite
    | with_reducible apply After.ite
    | (with_reducible refine After.foldl ?_ (fun _ _ _ => ?_))
    | with_reducible apply eraseGroup_after
    | with_reducible apply eraseSetsDone_after
    | with_reducible apply passSets_after
    | with_reducible apply retireBlock_after
    | with_reducible apply retrySpace_after
    | with_reducible apply settle_after
    | split
    | (with_reducible apply After.mk_of; refine AfterK.of ?_; first | with_reducible assumption | with_reducible apply AfterO.next | with_reducible apply AfterO.ite | with_reducible apply After.ite | (with_reducible refine After.foldl ?_ (fun _ _ _ => ?_)) | with_reducible apply eraseGroup_after | with_reducible apply eraseSetsDone_after | with_reducible apply passSets_after | with_reducible apply retireBlock_after | with_reducible apply retrySpace_after | with_reducible apply settle_after)

theorem patrolMove_after {s₀ s : State} (h₀ : After s₀ s) (g : Group) (page : Nat) (o : ReadOutcome) : After s₀ (State.patrolMove s g page o) := by
  unfold State.patrolMove
  try dsimp only
  repeat' first
    | with_reducible assumption
    | with_reducible apply After.ite
    | (with_reducible refine After.foldl ?_ (fun _ _ _ => ?_))
    | with_reducible apply markRefresh_after
    | with_reducible apply moveNow_after
    | with_reducible apply poisonRec_after
    | with_reducible apply readRec_after
    | with_reducible apply updGroup_after
    | split
    | (with_reducible apply After.mk_of; refine AfterK.of ?_; first | with_reducible assumption | with_reducible apply After.ite | (with_reducible refine After.foldl ?_ (fun _ _ _ => ?_)) | with_reducible apply markRefresh_after | with_reducible apply moveNow_after | with_reducible apply poisonRec_after | with_reducible apply readRec_after | with_reducible apply updGroup_after)

theorem patrolEnd_after {s₀ s : State} (h₀ : After s₀ s)  : After s₀ (State.patrolEnd s) := by
  unfold State.patrolEnd
  try dsimp only
  repeat' first
    | with_reducible assumption
    | with_reducible apply After.ite
    | (with_reducible refine After.foldl ?_ (fun _ _ _ => ?_))
    | with_reducible apply logEvent_after
    | split
    | (with_reducible apply After.mk_of; refine AfterK.of ?_; first | with_reducible assumption | with_reducible apply After.ite | (with_reducible refine After.foldl ?_ (fun _ _ _ => ?_)) | with_reducible apply logEvent_after)

theorem execPatrolStep_after {s : State} (group page : Nat) (finding : PatrolFinding) : AfterO s (execPatrolStep group page finding s) := by
  have h0 := After.refl s
  unfold execPatrolStep
  try dsimp only
  repeat' first
    | with_reducible assumption
    | with_reducible apply AfterO.next
    | with_reducible apply AfterO.ite
    | with_reducible apply After.ite
    | (with_reducible refine After.foldl ?_ (fun _ _ _ => ?_))
    | with_reducible apply patrolEnd_after
    | with_reducible apply patrolMove_after
    | with_reducible apply settle_after
    | with_reducible apply startExit_after
    | split
    | (with_reducible apply After.mk_of; refine AfterK.of ?_; first | with_reducible assumption | with_reducible apply AfterO.next | with_reducible apply AfterO.ite | with_reducible apply After.ite | (with_reducible refine After.foldl ?_ (fun _ _ _ => ?_)) | with_reducible apply patrolEnd_after | with_reducible apply patrolMove_after | with_reducible apply settle_after | with_reducible apply startExit_after)

theorem reseal_after {s₀ s : State} (h₀ : After s₀ s) (p : KeyPage) (w : Sweep) (r : Rec) (readable : Bool) : After s₀ (State.reseal s p w r readable) := by
  unfold State.reseal
  try dsimp only
  repeat' first
    | with_reducible assumption
    | with_reducible apply After.ite
    | (with_reducible refine After.foldl ?_ (fun _ _ _ => ?_))
    | with_reducible apply keyEvents_after
    | with_reducible apply relocate_after
    | with_reducible apply setPage_after
    | split
    | (with_reducible apply After.mk_of; refine AfterK.of ?_; first | with_reducible assumption | with_reducible apply After.ite | (with_reducible refine After.foldl ?_ (fun _ _ _ => ?_)) | with_reducible apply keyEvents_after | with_reducible apply relocate_after | with_reducible apply setPage_after)

theorem execRekeySweepStep_after {s : State} (page loc : Nat) (readable : Bool) : AfterO s (execRekeySweepStep page loc readable s) := by
  have h0 := After.refl s
  unfold execRekeySweepStep
  try dsimp only
  repeat' first
    | with_reducible assumption
    | with_reducible apply AfterO.next
    | with_reducible apply AfterO.ite
    | with_reducible apply After.ite
    | (with_reducible refine After.foldl ?_ (fun _ _ _ => ?_))
    | with_reducible apply enterMove_after
    | with_reducible apply lockLeave_after
    | with_reducible apply reseal_after
    | with_reducible apply settle_after
    | with_reducible apply sweepEnd_after
    | (refine takeSlots_after ?_ (by assumption))
    | split
    | (with_reducible apply After.mk_of; refine AfterK.of ?_; first | with_reducible assumption | with_reducible apply AfterO.next | with_reducible apply AfterO.ite | with_reducible apply After.ite | (with_reducible refine After.foldl ?_ (fun _ _ _ => ?_)) | with_reducible apply enterMove_after | with_reducible apply lockLeave_after | with_reducible apply reseal_after | with_reducible apply settle_after | with_reducible apply sweepEnd_after | (refine takeSlots_after ?_ (by assumption)))

theorem execDieRetire_after {s : State} (channel position cause : Nat) : AfterO s (execDieRetire channel position cause s) := by
  have h0 := After.refl s
  unfold execDieRetire
  try dsimp only
  repeat' first
    | with_reducible assumption
    | with_reducible apply AfterO.next
    | with_reducible apply AfterO.ite
    | with_reducible apply After.ite
    | (with_reducible refine After.foldl ?_ (fun _ _ _ => ?_))
    | with_reducible apply freeze_after
    | with_reducible apply logEvent_after
    | with_reducible apply spareNotice_after
    | with_reducible apply watch_after
    | split
    | (with_reducible apply After.mk_of; refine AfterK.of ?_; first | with_reducible assumption | with_reducible apply AfterO.next | with_reducible apply AfterO.ite | with_reducible apply After.ite | (with_reducible refine After.foldl ?_ (fun _ _ _ => ?_)) | with_reducible apply freeze_after | with_reducible apply logEvent_after | with_reducible apply spareNotice_after | with_reducible apply watch_after)

theorem execRebuildDone_after {s : State} (channel position : Nat) : AfterO s (execRebuildDone channel position s) := by
  have h0 := After.refl s
  unfold execRebuildDone
  try dsimp only
  repeat' first
    | with_reducible assumption
    | with_reducible apply AfterO.next
    | with_reducible apply AfterO.ite
    | with_reducible apply After.ite
    | (with_reducible refine After.foldl ?_ (fun _ _ _ => ?_))
    | with_reducible apply logEvent_after
    | split
    | (with_reducible apply After.mk_of; refine AfterK.of ?_; first | with_reducible assumption | with_reducible apply AfterO.next | with_reducible apply AfterO.ite | with_reducible apply After.ite | (with_reducible refine After.foldl ?_ (fun _ _ _ => ?_)) | with_reducible apply logEvent_after)

end Sys2Proof.Machine
end

