-- ==== Sys2Proof/Laws/AfterSideband.lean ====
section
/-! SUPPORT. Every operation of Machine/Sideband.lean leaves a state after the one it is given. -/

set_option Elab.async false

namespace Sys2Proof.Machine

theorem pecFail_after {s₀ s : State} (h₀ : After s₀ s)  : After s₀ (State.pecFail s) := by
  unfold State.pecFail
  try dsimp only
  repeat' first
    | with_reducible assumption
    | with_reducible apply After.ite
    | (with_reducible refine After.foldl ?_ (fun _ _ _ => ?_))
    | split
    | (with_reducible apply After.mk_of; refine AfterK.of ?_; first | with_reducible assumption | with_reducible apply After.ite | (with_reducible refine After.foldl ?_ (fun _ _ _ => ?_)))

theorem busyWrite_after {s₀ s : State} (h₀ : After s₀ s)  : After s₀ (State.busyWrite s) := by
  unfold State.busyWrite
  try dsimp only
  repeat' first
    | with_reducible assumption
    | with_reducible apply After.ite
    | (with_reducible refine After.foldl ?_ (fun _ _ _ => ?_))
    | split
    | (with_reducible apply After.mk_of; refine AfterK.of ?_; first | with_reducible assumption | with_reducible apply After.ite | (with_reducible refine After.foldl ?_ (fun _ _ _ => ?_)))

theorem sbWrite_after {s₀ s : State} (h : After s₀ s) (p : Pec) {f : State → State} (hf : ∀ t, After s₀ t → After s₀ (f t)) :
    After s₀ (State.sbWrite s p f) := by
  unfold State.sbWrite
  split
  · exact h
  · split
    · exact pecFail_after h
    · exact hf _ h

theorem writeReg_after {s₀ s : State} (h₀ : After s₀ s) (code v : Nat) : After s₀ (State.writeReg s code v) := by
  unfold State.writeReg
  try dsimp only
  repeat' first
    | with_reducible assumption
    | with_reducible apply After.ite
    | (with_reducible refine After.foldl ?_ (fun _ _ _ => ?_))
    | with_reducible apply busyWrite_after
    | with_reducible apply clearPortEvents_after
    | split
    | (with_reducible apply After.mk_of; refine AfterK.of ?_; first | with_reducible assumption | with_reducible apply After.ite | (with_reducible refine After.foldl ?_ (fun _ _ _ => ?_)) | with_reducible apply busyWrite_after | with_reducible apply clearPortEvents_after)

theorem execSbRegisterWrite_after {s : State} (code : Nat) (bytes : Bytes) (pec : Pec) : AfterO s (execSbRegisterWrite code bytes pec s) := by
  have h0 := After.refl s
  unfold execSbRegisterWrite
  try dsimp only
  repeat' first
    | with_reducible assumption
    | with_reducible apply AfterO.next
    | with_reducible apply AfterO.ite
    | with_reducible apply After.ite
    | (with_reducible refine After.foldl ?_ (fun _ _ _ => ?_))
    | (with_reducible refine sbWrite_after ?_ _ (fun _ _ => ?_); try dsimp only)
    | with_reducible apply writeReg_after
    | split
    | (with_reducible apply After.mk_of; refine AfterK.of ?_; first | with_reducible assumption | with_reducible apply AfterO.next | with_reducible apply AfterO.ite | with_reducible apply After.ite | (with_reducible refine After.foldl ?_ (fun _ _ _ => ?_)) | (with_reducible refine sbWrite_after ?_ _ (fun _ _ => ?_); try dsimp only) | with_reducible apply writeReg_after)

theorem mbStore_after {s₀ s : State} (h₀ : After s₀ s) (bytes : Bytes) : After s₀ (State.mbStore s bytes) := by
  unfold State.mbStore
  try dsimp only
  repeat' first
    | with_reducible assumption
    | with_reducible apply After.ite
    | (with_reducible refine After.foldl ?_ (fun _ _ _ => ?_))
    | with_reducible apply busyWrite_after
    | with_reducible apply request_after
    | split
    | (with_reducible apply After.mk_of; refine AfterK.of ?_; first | with_reducible assumption | with_reducible apply After.ite | (with_reducible refine After.foldl ?_ (fun _ _ _ => ?_)) | with_reducible apply busyWrite_after | with_reducible apply request_after)

theorem execMbData_after {s : State} (bytes : Bytes) (pec : Pec) : AfterO s (execMbData bytes pec s) := by
  have h0 := After.refl s
  unfold execMbData
  try dsimp only
  repeat' first
    | with_reducible assumption
    | with_reducible apply AfterO.next
    | with_reducible apply AfterO.ite
    | with_reducible apply After.ite
    | (with_reducible refine After.foldl ?_ (fun _ _ _ => ?_))
    | with_reducible apply mbStore_after
    | (with_reducible refine sbWrite_after ?_ _ (fun _ _ => ?_); try dsimp only)
    | split
    | (with_reducible apply After.mk_of; refine AfterK.of ?_; first | with_reducible assumption | with_reducible apply AfterO.next | with_reducible apply AfterO.ite | with_reducible apply After.ite | (with_reducible refine After.foldl ?_ (fun _ _ _ => ?_)) | with_reducible apply mbStore_after | (with_reducible refine sbWrite_after ?_ _ (fun _ _ => ?_); try dsimp only))

theorem mbAccept_after {s₀ s : State} (h₀ : After s₀ s) (h : Header) (body : Bytes) : After s₀ (State.mbAccept s h body) := by
  unfold State.mbAccept
  try dsimp only
  repeat' first
    | with_reducible assumption
    | with_reducible apply After.ite
    | (with_reducible refine After.foldl ?_ (fun _ _ _ => ?_))
    | with_reducible apply endCmd_after
    | with_reducible apply wake_after
    | (refine nextId_after ?_ (by rfl); first | with_reducible assumption | with_reducible apply After.ite | (with_reducible refine After.foldl ?_ (fun _ _ _ => ?_)) | with_reducible apply endCmd_after | with_reducible apply wake_after)
    | split
    | (with_reducible apply After.mk_of; refine AfterK.of ?_; first | with_reducible assumption | with_reducible apply After.ite | (with_reducible refine After.foldl ?_ (fun _ _ _ => ?_)) | with_reducible apply endCmd_after | with_reducible apply wake_after | (refine nextId_after ?_ (by rfl); first | with_reducible assumption | with_reducible apply After.ite | (with_reducible refine After.foldl ?_ (fun _ _ _ => ?_)) | with_reducible apply endCmd_after | with_reducible apply wake_after))

theorem mbGo_after {s₀ s : State} (h₀ : After s₀ s)  : After s₀ (State.mbGo s) := by
  unfold State.mbGo
  try dsimp only
  repeat' first
    | with_reducible assumption
    | with_reducible apply After.ite
    | (with_reducible refine After.foldl ?_ (fun _ _ _ => ?_))
    | with_reducible apply busyWrite_after
    | with_reducible apply mbAccept_after
    | split
    | (with_reducible apply After.mk_of; refine AfterK.of ?_; first | with_reducible assumption | with_reducible apply After.ite | (with_reducible refine After.foldl ?_ (fun _ _ _ => ?_)) | with_reducible apply busyWrite_after | with_reducible apply mbAccept_after)

theorem execGo_after {s : State} (pec : Pec) : AfterO s (execGo pec s) := by
  have h0 := After.refl s
  unfold execGo
  try dsimp only
  repeat' first
    | with_reducible assumption
    | with_reducible apply AfterO.next
    | with_reducible apply AfterO.ite
    | with_reducible apply After.ite
    | (with_reducible refine After.foldl ?_ (fun _ _ _ => ?_))
    | with_reducible apply mbGo_after
    | (with_reducible refine sbWrite_after ?_ _ (fun _ _ => ?_); try dsimp only)
    | with_reducible apply watch_after
    | split
    | (with_reducible apply After.mk_of; refine AfterK.of ?_; first | with_reducible assumption | with_reducible apply AfterO.next | with_reducible apply AfterO.ite | with_reducible apply After.ite | (with_reducible refine After.foldl ?_ (fun _ _ _ => ?_)) | with_reducible apply mbGo_after | (with_reducible refine sbWrite_after ?_ _ (fun _ _ => ?_); try dsimp only) | with_reducible apply watch_after)

theorem mbAbortCmd_after {s₀ s : State} (h₀ : After s₀ s)  : After s₀ (State.mbAbortCmd s) := by
  unfold State.mbAbortCmd
  try dsimp only
  repeat' first
    | with_reducible assumption
    | with_reducible apply After.ite
    | (with_reducible refine After.foldl ?_ (fun _ _ _ => ?_))
    | with_reducible apply endStatus_after
    | with_reducible apply settle_after
    | with_reducible apply watch_after
    | split
    | (with_reducible apply After.mk_of; refine AfterK.of ?_; first | with_reducible assumption | with_reducible apply After.ite | (with_reducible refine After.foldl ?_ (fun _ _ _ => ?_)) | with_reducible apply endStatus_after | with_reducible apply settle_after | with_reducible apply watch_after)

theorem execMbAbort_after {s : State} (pec : Pec) : AfterO s (execMbAbort pec s) := by
  have h0 := After.refl s
  unfold execMbAbort
  try dsimp only
  repeat' first
    | with_reducible assumption
    | with_reducible apply AfterO.next
    | with_reducible apply AfterO.ite
    | with_reducible apply After.ite
    | (with_reducible refine After.foldl ?_ (fun _ _ _ => ?_))
    | with_reducible apply mbAbortCmd_after
    | (with_reducible refine sbWrite_after ?_ _ (fun _ _ => ?_); try dsimp only)
    | split
    | (with_reducible apply After.mk_of; refine AfterK.of ?_; first | with_reducible assumption | with_reducible apply AfterO.next | with_reducible apply AfterO.ite | with_reducible apply After.ite | (with_reducible refine After.foldl ?_ (fun _ _ _ => ?_)) | with_reducible apply mbAbortCmd_after | (with_reducible refine sbWrite_after ?_ _ (fun _ _ => ?_); try dsimp only))

theorem execMbReply_after {s : State}  : AfterO s (execMbReply s) := by
  have h0 := After.refl s
  unfold execMbReply
  try dsimp only
  repeat' first
    | with_reducible assumption
    | with_reducible apply AfterO.next
    | with_reducible apply AfterO.ite
    | with_reducible apply After.ite
    | (with_reducible refine After.foldl ?_ (fun _ _ _ => ?_))
    | split
    | (with_reducible apply After.mk_of; refine AfterK.of ?_; first | with_reducible assumption | with_reducible apply AfterO.next | with_reducible apply AfterO.ite | with_reducible apply After.ite | (with_reducible refine After.foldl ?_ (fun _ _ _ => ?_)))

theorem kekWrite_after {s₀ s : State} (h₀ : After s₀ s) (bytes : Bytes) : After s₀ (State.kekWrite s bytes) := by
  unfold State.kekWrite
  try dsimp only
  repeat' first
    | with_reducible assumption
    | with_reducible apply After.ite
    | (with_reducible refine After.foldl ?_ (fun _ _ _ => ?_))
    | split
    | (with_reducible apply After.mk_of; refine AfterK.of ?_; first | with_reducible assumption | with_reducible apply After.ite | (with_reducible refine After.foldl ?_ (fun _ _ _ => ?_)))

theorem execKek_after {s : State} (bytes : Bytes) (pec : Pec) : AfterO s (execKek bytes pec s) := by
  have h0 := After.refl s
  unfold execKek
  try dsimp only
  repeat' first
    | with_reducible assumption
    | with_reducible apply AfterO.next
    | with_reducible apply AfterO.ite
    | with_reducible apply After.ite
    | (with_reducible refine After.foldl ?_ (fun _ _ _ => ?_))
    | with_reducible apply kekWrite_after
    | (with_reducible refine sbWrite_after ?_ _ (fun _ _ => ?_); try dsimp only)
    | split
    | (with_reducible apply After.mk_of; refine AfterK.of ?_; first | with_reducible assumption | with_reducible apply AfterO.next | with_reducible apply AfterO.ite | with_reducible apply After.ite | (with_reducible refine After.foldl ?_ (fun _ _ _ => ?_)) | with_reducible apply kekWrite_after | (with_reducible refine sbWrite_after ?_ _ (fun _ _ => ?_); try dsimp only))

theorem execAlertResponse_after {s : State}  : AfterO s (execAlertResponse s) := by
  have h0 := After.refl s
  unfold execAlertResponse
  try dsimp only
  repeat' first
    | with_reducible assumption
    | with_reducible apply AfterO.next
    | with_reducible apply AfterO.ite
    | with_reducible apply After.ite
    | (with_reducible refine After.foldl ?_ (fun _ _ _ => ?_))
    | split
    | (with_reducible apply After.mk_of; refine AfterK.of ?_; first | with_reducible assumption | with_reducible apply AfterO.next | with_reducible apply AfterO.ite | with_reducible apply After.ite | (with_reducible refine After.foldl ?_ (fun _ _ _ => ?_)))

theorem execSmbusTimeout_after {s : State}  : AfterO s (execSmbusTimeout s) := by
  have h0 := After.refl s
  unfold execSmbusTimeout
  try dsimp only
  repeat' first
    | with_reducible assumption
    | with_reducible apply AfterO.next
    | with_reducible apply AfterO.ite
    | with_reducible apply After.ite
    | (with_reducible refine After.foldl ?_ (fun _ _ _ => ?_))
    | split
    | (with_reducible apply After.mk_of; refine AfterK.of ?_; first | with_reducible assumption | with_reducible apply AfterO.next | with_reducible apply AfterO.ite | with_reducible apply After.ite | (with_reducible refine After.foldl ?_ (fun _ _ _ => ?_)))

theorem segmentEvent_after {s₀ s : State} (h₀ : After s₀ s) (d : Nat) (failed : Bool) : After s₀ (State.segmentEvent s d failed) := by
  unfold State.segmentEvent
  try dsimp only
  repeat' first
    | with_reducible assumption
    | with_reducible apply After.ite
    | (with_reducible refine After.foldl ?_ (fun _ _ _ => ?_))
    | with_reducible apply alert_after
    | with_reducible apply logEvent_after
    | split
    | (with_reducible apply After.mk_of; refine AfterK.of ?_; first | with_reducible assumption | with_reducible apply After.ite | (with_reducible refine After.foldl ?_ (fun _ _ _ => ?_)) | with_reducible apply alert_after | with_reducible apply logEvent_after)

theorem segmentSensors_after {s₀ s : State} (h₀ : After s₀ s)  : After s₀ (State.segmentSensors s) := by
  unfold State.segmentSensors
  try dsimp only
  repeat' first
    | with_reducible assumption
    | with_reducible apply After.ite
    | (with_reducible refine After.foldl ?_ (fun _ _ _ => ?_))
    | with_reducible apply throttle_after
    | with_reducible apply watch_after
    | split
    | (with_reducible apply After.mk_of; refine AfterK.of ?_; first | with_reducible assumption | with_reducible apply After.ite | (with_reducible refine After.foldl ?_ (fun _ _ _ => ?_)) | with_reducible apply throttle_after | with_reducible apply watch_after)

theorem segmentFail_after {s₀ s : State} (h₀ : After s₀ s) (d : Nat) : After s₀ (State.segmentFail s d) := by
  unfold State.segmentFail
  try dsimp only
  repeat' first
    | with_reducible assumption
    | with_reducible apply After.ite
    | (with_reducible refine After.foldl ?_ (fun _ _ _ => ?_))
    | with_reducible apply freeze_after
    | with_reducible apply segmentEvent_after
    | with_reducible apply segmentSensors_after
    | split
    | (with_reducible apply After.mk_of; refine AfterK.of ?_; first | with_reducible assumption | with_reducible apply After.ite | (with_reducible refine After.foldl ?_ (fun _ _ _ => ?_)) | with_reducible apply freeze_after | with_reducible apply segmentEvent_after | with_reducible apply segmentSensors_after)

theorem segmentRecover_after {s₀ s : State} (h₀ : After s₀ s) (d : Nat) : After s₀ (State.segmentRecover s d) := by
  unfold State.segmentRecover
  try dsimp only
  repeat' first
    | with_reducible assumption
    | with_reducible apply After.ite
    | (with_reducible refine After.foldl ?_ (fun _ _ _ => ?_))
    | with_reducible apply segmentEvent_after
    | with_reducible apply segmentSensors_after
    | split
    | (with_reducible apply After.mk_of; refine AfterK.of ?_; first | with_reducible assumption | with_reducible apply After.ite | (with_reducible refine After.foldl ?_ (fun _ _ _ => ?_)) | with_reducible apply segmentEvent_after | with_reducible apply segmentSensors_after)

theorem execSegmentPoll_after {s : State} (device : Nat) (answers : Bool) : AfterO s (execSegmentPoll device answers s) := by
  have h0 := After.refl s
  unfold execSegmentPoll
  try dsimp only
  repeat' first
    | with_reducible assumption
    | with_reducible apply AfterO.next
    | with_reducible apply AfterO.ite
    | with_reducible apply After.ite
    | (with_reducible refine After.foldl ?_ (fun _ _ _ => ?_))
    | with_reducible apply segmentFail_after
    | split
    | (with_reducible apply After.mk_of; refine AfterK.of ?_; first | with_reducible assumption | with_reducible apply AfterO.next | with_reducible apply AfterO.ite | with_reducible apply After.ite | (with_reducible refine After.foldl ?_ (fun _ _ _ => ?_)) | with_reducible apply segmentFail_after)

theorem execSegmentRetry_after {s : State} (device : Nat) (answers : Bool) : AfterO s (execSegmentRetry device answers s) := by
  have h0 := After.refl s
  unfold execSegmentRetry
  try dsimp only
  repeat' first
    | with_reducible assumption
    | with_reducible apply AfterO.next
    | with_reducible apply AfterO.ite
    | with_reducible apply After.ite
    | (with_reducible refine After.foldl ?_ (fun _ _ _ => ?_))
    | with_reducible apply segmentRecover_after
    | split
    | (with_reducible apply After.mk_of; refine AfterK.of ?_; first | with_reducible assumption | with_reducible apply AfterO.next | with_reducible apply AfterO.ite | with_reducible apply After.ite | (with_reducible refine After.foldl ?_ (fun _ _ _ => ?_)) | with_reducible apply segmentRecover_after)

theorem execConsoleLine_after {s : State} (line : Bytes) (framingError : Bool) : AfterO s (execConsoleLine line framingError s) := by
  have h0 := After.refl s
  unfold execConsoleLine
  try dsimp only
  repeat' first
    | with_reducible assumption
    | with_reducible apply AfterO.next
    | with_reducible apply AfterO.ite
    | with_reducible apply After.ite
    | (with_reducible refine After.foldl ?_ (fun _ _ _ => ?_))
    | with_reducible apply console_after
    | split
    | (with_reducible apply After.mk_of; refine AfterK.of ?_; first | with_reducible assumption | with_reducible apply AfterO.next | with_reducible apply AfterO.ite | with_reducible apply After.ite | (with_reducible refine After.foldl ?_ (fun _ _ _ => ?_)) | with_reducible apply console_after)

theorem execTraceSync_after {s : State} (island : Nat) : AfterO s (execTraceSync island s) := by
  have h0 := After.refl s
  unfold execTraceSync
  try dsimp only
  repeat' first
    | with_reducible assumption
    | with_reducible apply AfterO.next
    | with_reducible apply AfterO.ite
    | with_reducible apply After.ite
    | (with_reducible refine After.foldl ?_ (fun _ _ _ => ?_))
    | with_reducible apply drawn_after
    | with_reducible apply trace_after
    | split
    | (with_reducible apply After.mk_of; refine AfterK.of ?_; first | with_reducible assumption | with_reducible apply AfterO.next | with_reducible apply AfterO.ite | with_reducible apply After.ite | (with_reducible refine After.foldl ?_ (fun _ _ _ => ?_)) | with_reducible apply drawn_after | with_reducible apply trace_after)

end Sys2Proof.Machine
end

