-- ==== Sys2Proof/Laws/AfterExec.lean ====
section
/-! SUPPORT. Whatever the command, the next state is one after the state it was taken in. -/

set_option Elab.async false

namespace Sys2Proof.Machine

theorem exec_after (i : Instr) (s : State) : AfterO s (exec i s) := by
  cases i with
  | p3v3AuxInRange straps => exact execP3v3AuxInRange_after straps
  | pwrEnWatchStart => exact execPwrEnWatchStart_after
  | p3v3AuxLoss => exact execP3v3AuxLoss_after
  | pwrEnRise straps => exact execPwrEnRise_after straps
  | pwrEnFall => exact execPwrEnFall_after
  | p12vInRange => exact execP12vInRange_after
  | p12vLoss removed => exact execP12vLoss_after removed
  | alarm src => exact execAlarm_after src
  | mainRailsInRange => exact execMainRailsInRange_after
  | sramFillComplete => exact execSramFillComplete_after
  | dramTrainingComplete => exact execDramTrainingComplete_after
  | dramFillComplete => exact execDramFillComplete_after
  | confirmedImageRead => exact execConfirmedImageRead_after
  | islandCodeLoaded => exact execIslandCodeLoaded_after
  | settingsMigrated => exact execSettingsMigrated_after
  | directoryRecovered lost found => exact execDirectoryRecovered_after lost found
  | fillingComplete bankCharged => exact execFillingComplete_after bankCharged
  | fillingTimeout => exact execFillingTimeout_after
  | restart island => exact execRestart_after island
  | mainSupplyReenable => exact execMainSupplyReenable_after
  | plugInInsert portB cmis => exact execPlugInInsert_after portB cmis
  | cmisReadyTimeout portB => exact execCmisReadyTimeout_after portB
  | plugInRemove portB => exact execPlugInRemove_after portB
  | cmisPoll portB cmis => exact execCmisPoll_after portB cmis
  | linkUp link => exact execLinkUp_after link
  | linkDown link failing => exact execLinkDown_after link failing
  | linkAttemptTimeout link failing => exact execLinkAttemptTimeout_after link failing
  | failoverHold link => exact execFailoverHold_after link
  | failoverBack link => exact execFailoverBack_after link
  | egressFrameTimeout frame => exact execEgressFrameTimeout_after frame
  | frameReceive link frame => exact execFrameReceive_after link frame
  | pauseQuantaExpire link prio => exact execPauseQuantaExpire_after link prio
  | pauseWatchdog link prio => exact execPauseWatchdog_after link prio
  | pauseWatchdogHoldoffEnd link prio => exact execPauseWatchdogHoldoffEnd_after link prio
  | neighbourAgeOut portB addr => exact execNeighbourAgeOut_after portB addr
  | assemblyTimeout c => exact execAssemblyTimeout_after c
  | ackCoalesceExpire c => exact execAckCoalesceExpire_after c
  | transportAck ack => exact execTransportAck_after ack
  | retransmit msg => exact execRetransmit_after msg
  | messageUnanswered msg => exact execMessageUnanswered_after msg
  | sessionIdle session => exact execSessionIdle_after session
  | sessionFree session => exact execSessionFree_after session
  | windowRebalance => exact execWindowRebalance_after
  | watermarkHoldoffEnd wm => exact execWatermarkHoldoffEnd_after wm
  | get c => exact execGet_after c
  | put c => exact execPut_after c
  | putPosted c => exact execPutPosted_after c
  | delete c => exact execDelete_after c
  | appendSegment c => exact execAppendSegment_after c
  | discard c => exact execDiscard_after c
  | secureDiscard c => exact execSecureDiscard_after c
  | scanKeys c => exact execScanKeys_after c
  | abort c => exact execAbort_after c
  | head c => exact execHead_after c
  | versionsNext c => exact execVersionsNext_after c
  | sieveOpen c => exact execSieveOpen_after c
  | sieveNext c => exact execSieveNext_after c
  | sieveClose c => exact execSieveClose_after c
  | sessionOpen c => exact execSessionOpen_after c
  | sessionClose c => exact execSessionClose_after c
  | echo c => exact execEcho_after c
  | keyspaceCreate c => exact execKeyspaceCreate_after c
  | keyspaceDelete c => exact execKeyspaceDelete_after c
  | keyspaceQuery c => exact execKeyspaceQuery_after c
  | keyLoad c => exact execKeyLoad_after c
  | keyRetire c => exact execKeyRetire_after c
  | fenceSet c => exact execFenceSet_after c
  | shaperSet c => exact execShaperSet_after c
  | powerPolicy c => exact execPowerPolicy_after c
  | relaySet c => exact execRelaySet_after c
  | orchardMapLoad c => exact execOrchardMapLoad_after c
  | promote c => exact execPromote_after c
  | healthRead c => exact execHealthRead_after c
  | identify c => exact execIdentify_after c
  | logRead c => exact execLogRead_after c
  | configGet c => exact execConfigGet_after c
  | configSet c => exact execConfigSet_after c
  | holdupTestNow c => exact execHoldupTestNow_after c
  | fwStage c => exact execFwStage_after c
  | fwActivate c => exact execFwActivate_after c
  | fwConfirm c => exact execFwConfirm_after c
  | fwAbort c => exact execFwAbort_after c
  | sanitise c => exact execSanitise_after c
  | modeSet c => exact execModeSet_after c
  | relayedWrite c => exact execRelayedWrite_after c
  | seedBegin c => exact execSeedBegin_after c
  | seedEnd c => exact execSeedEnd_after c
  | shaperAdmit c => exact execShaperAdmit_after c
  | rangeLockEnter op => exact execRangeLockEnter_after op
  | rangeLockLeave op => exact execRangeLockLeave_after op
  | quinceUpdate bank => exact execQuinceUpdate_after bank
  | quinceSweep bank row upset => exact execQuinceSweep_after bank row upset
  | readS slice bucket => exact execReadS_after slice bucket
  | readE slice bucket => exact execReadE_after slice bucket
  | writeBack slice bucket => exact execWriteBack_after slice bucket
  | writeBackClean slice bucket => exact execWriteBackClean_after slice bucket
  | evict slice bucket => exact execEvict_after slice bucket
  | snoopInv slice bucket => exact execSnoopInv_after slice bucket
  | snoopFetch slice bucket => exact execSnoopFetch_after slice bucket
  | presentClean slice bucket => exact execPresentClean_after slice bucket
  | presentData slice bucket => exact execPresentData_after slice bucket
  | notPresent slice bucket => exact execNotPresent_after slice bucket
  | cipherJobArrive job => exact execCipherJobArrive_after job
  | cipherJobEnd pipe => exact execCipherJobEnd_after pipe
  | cipherUrgencyRaise job => exact execCipherUrgencyRaise_after job
  | pageReadComplete c outcome => exact execPageReadComplete_after c outcome
  | programComplete c ok => exact execProgramComplete_after c ok
  | eraseComplete group failed => exact execEraseComplete_after group failed
  | commitClaim c => exact execCommitClaim_after c
  | sessionCloseDrained c => exact execSessionCloseDrained_after c
  | keyspaceDeleteDrained c => exact execKeyspaceDeleteDrained_after c
  | dormantDrained c => exact execDormantDrained_after c
  | dormantFlushComplete => exact execDormantFlushComplete_after
  | settingsWriteDone c => exact execSettingsWriteDone_after c
  | logFlush logB => exact execLogFlush_after logB
  | checkpointWrite => exact execCheckpointWrite_after
  | stripeIdleClose group => exact execStripeIdleClose_after group
  | gcTick => exact execGcTick_after
  | heatHalving => exact execHeatHalving_after
  | patrolStep group page finding => exact execPatrolStep_after group page finding
  | rekeySweepStep page loc readable => exact execRekeySweepStep_after page loc readable
  | dieRetire channel position cause => exact execDieRetire_after channel position cause
  | rebuildDone channel position => exact execRebuildDone_after channel position
  | islandRetire island bank => exact execIslandRetire_after island bank
  | islandFail island held => exact execIslandFail_after island held
  | trunkLinkFail hub dir => exact execTrunkLinkFail_after hub dir
  | ueFound island asker addr row flit site => exact execUeFound_after island asker addr row flit site
  | repairComplete bucket readable => exact execRepairComplete_after bucket readable
  | codeTrap island addr held => exact execCodeTrap_after island addr held
  | codeBankReloaded island => exact execCodeBankReloaded_after island
  | ceDecay sram dram => exact execCeDecay_after sram dram
  | progressScan island => exact execProgressScan_after island
  | sieveVisit slot => exact execSieveVisit_after slot
  | sieveBatchAge slot => exact execSieveBatchAge_after slot
  | sieveIdle slot => exact execSieveIdle_after slot
  | relayForwardAnswer slot answer => exact execRelayForwardAnswer_after slot answer
  | relayTimeout slot => exact execRelayTimeout_after slot
  | resyncStart keyspace successor => exact execResyncStart_after keyspace successor
  | resyncStateSave => exact execResyncStateSave_after
  | idleTimer target => exact execIdleTimer_after target
  | powerExitComplete => exact execPowerExitComplete_after
  | thermalSample readings => exact execThermalSample_after readings
  | temperatureHistorySample => exact execTemperatureHistorySample_after
  | lastWaltzPhaseEnd energyCj ok => exact execLastWaltzPhaseEnd_after energyCj ok
  | holdupTestStart => exact execHoldupTestStart_after
  | holdupTest result => exact execHoldupTest_after result
  | sectionFail sectionNo => exact execSectionFail_after sectionNo
  | sanitiseEraseComplete refused => exact execSanitiseEraseComplete_after refused
  | fwStageIdle => exact execFwStageIdle_after
  | slotProgramDone readBackOk => exact execSlotProgramDone_after readBackOk
  | standbyBooted => exact execStandbyBooted_after
  | handoverDone => exact execHandoverDone_after
  | islandReload island ok => exact execIslandReload_after island ok
  | selftestEnd passed => exact execSelftestEnd_after passed
  | confirmationWindowExpire => exact execConfirmationWindowExpire_after
  | restartActivation => exact execRestartActivation_after
  | fallbackDone => exact execFallbackDone_after
  | standbyFail restartable => exact execStandbyFail_after restartable
  | mbData bytes pec => exact execMbData_after bytes pec
  | go pec => exact execGo_after pec
  | mbAbort pec => exact execMbAbort_after pec
  | mbReply => exact execMbReply_after
  | kek bytes pec => exact execKek_after bytes pec
  | sbRegisterWrite code bytes pec => exact execSbRegisterWrite_after code bytes pec
  | alertResponse => exact execAlertResponse_after
  | smbusTimeout => exact execSmbusTimeout_after
  | segmentPoll device answers => exact execSegmentPoll_after device answers
  | segmentRetry device answers => exact execSegmentRetry_after device answers
  | consoleLine line framingError => exact execConsoleLine_after line framingError
  | traceSync island => exact execTraceSync_after island
  | alarmConditionEnd src => exact execAlarmConditionEnd_after src
  | signalReturn link => exact execSignalReturn_after link
  | relayBackoffResend slot => exact execRelayBackoffResend_after slot
  | bulkCopyDone => exact execBulkCopyDone_after
  | activationFlushComplete => exact execActivationFlushComplete_after
  | dramSelfRefresh channel => exact execDramSelfRefresh_after channel

end Sys2Proof.Machine
end

