-- ==== Sys2Proof/Laws/Work.lean ====
section
/-! SUPPORT. Shapers, range locks, reads and cipher jobs. -/

set_option Elab.async false

set_option linter.unusedSimpArgs false

namespace Sys2Proof.Machine

theorem unlimited_eq : unlimited = 2 ^ 64 - 1 := rfl

theorem shaped_ctx {s : State} {c : Nat} {x : Ctx} (hc : s.ctx? c = some x) : ∃ y, (s.shaped x).ctx? c = some y ∧ y.phase = (if x.opcode = 0x08 ∨ isSieve x.opcode = true then Phase.ready else .locking) ∧ y.ksTokens = x.ksTokens := by
  have hk : ∀ p n, (x.enter p n).ksTokens = x.ksTokens := by intro p n; unfold Ctx.enter; (repeat' split) <;> rfl
  unfold State.shaped; rw [ctx?_id hc]
  by_cases h : x.opcode = 0x08 ∨ isSieve x.opcode = true
  · rw [if_pos (by simpa using h)]
    have hc1 : (s.dequeue x).ctx? c = some x := by unfold State.ctx?; rw [show (s.dequeue x).net.ctxs = s.net.ctxs by simp]; exact hc
    exact ⟨_, ctx?_toPhase _ hc1, by simp [h], hk _ _⟩
  · rw [if_neg (by simpa using h)]
    exact ⟨_, ctx?_toPhase _ hc, by simp [h], hk _ _⟩

theorem shaped_rest (s : State) (x : Ctx) : (s.shaped x).store = s.store ∧ (s.shaped x).owners = s.owners := by
  unfold State.shaped; split <;> exact ⟨by simp, by simp⟩

theorem updKs_shaper {s : State} {n : Nat} {k : Keyspace} {h : Shaper} {f : Shaper → Shaper} (hk : s.keyspace? n = some k) (hs : k.shaper = some h) (hst : h.stopped = false) :
    ((s.onKsShaper n f).keyspace? n).bind (·.shaper) = some (f h) := by
  unfold State.onKsShaper
  rw [keyspace?_upd (f := fun k => { k with shaper := k.shaper.map (fun h => if h.stopped then h else f h) }) (fun _ => rfl), hk]; simp [hs, hst]

theorem owner_updOwner {s : State} {o : Nat} {f : Owner → Owner} (h : o < s.owners.length) : (s.updOwner o f).owner o = f (s.owner o) := by
  unfold State.updOwner State.owner; dsimp only; rw [List.getD_eq_getElem?_getD, List.getElem?_set_self h]; rfl

theorem ksOwner_of {s t : State} (h : t.store = s.store) (n : Nat) : t.ksOwner n = s.ksOwner n := by unfold State.ksOwner State.keyspace?; rw [h]

theorem accrue_fields (h : Shaper) (n : Nat) : (h.accrue n).byteRate = h.byteRate ∧ (h.accrue n).opRate = h.opRate ∧ (h.accrue n).at' = n ∧ (h.accrue n).stopped = h.stopped := ⟨rfl, rfl, rfl, rfl⟩

theorem mem_insertByAge (w v : LockRec) (l : List LockRec) : v ∈ insertByAge w l ↔ v = w ∨ v ∈ l := by
  induction l with
  | nil => simp [insertByAge]
  | cons a l ih =>
    unfold insertByAge; split
    · simp only [List.mem_cons, ih]; constructor
      · rintro (h | h | h) <;> simp [h]
      · rintro (h | h | h) <;> simp [h]
    · simp

theorem grantPass_blocked (w : LockRec) (hw : w.held = false) : ∀ (l holders done : List LockRec), w ∈ l → (∃ h ∈ holders, h.conflicts w = true) → w ∈ grantPass holders done l := by
  intro l; induction l with
  | nil => intro _ _ h; cases h
  | cons a l ih =>
    intro holders done hm hh
    unfold grantPass
    rcases List.mem_cons.mp hm with e | e
    · subst e
      rw [if_neg (by simp [hw])]; dsimp only
      have hb : (holders ++ done).any (fun h => h.conflicts w) = true := by
        rw [List.any_append]; obtain ⟨h, h1, h2⟩ := hh; simp; exact .inl ⟨h, h1, h2⟩
      rw [hb]
      have : ({ w with held := !true } : LockRec) = w := by cases w; simp at hw; simp [hw]
      rw [this]; exact List.mem_cons_self
    · split
      · exact List.mem_cons_of_mem _ (ih _ _ e hh)
      · dsimp only
        refine List.mem_cons_of_mem _ (ih _ _ e ?_)
        obtain ⟨h, h1, h2⟩ := hh
        split
        · exact ⟨h, h1, h2⟩
        · exact ⟨h, List.mem_cons_of_mem _ h1, h2⟩

theorem grantPass_op : ∀ (l holders done : List LockRec) (r : LockRec), r ∈ grantPass holders done l → ∃ q ∈ l, q.op = r.op ∧ (q.held = true → r.held = true) := by
  intro l; induction l with
  | nil => intro _ _ r h; cases h
  | cons a l ih =>
    intro holders done r h
    unfold grantPass at h
    split at h
    · rcases List.mem_cons.mp h with e | e
      · exact ⟨a, List.mem_cons_self, by rw [e], by rw [e]; exact id⟩
      · obtain ⟨q, h1, h2⟩ := ih _ _ _ e; exact ⟨q, List.mem_cons_of_mem _ h1, h2⟩
    · dsimp only at h
      rcases List.mem_cons.mp h with e | e
      · rename_i hna; exact ⟨a, List.mem_cons_self, by rw [e], fun hh => absurd hh hna⟩
      · obtain ⟨q, h1, h2⟩ := ih _ _ _ e; exact ⟨q, List.mem_cons_of_mem _ h1, h2⟩

theorem grantPass_notheld (op : LockOp) : ∀ (l holders done : List LockRec), (∀ q ∈ l, q.op = op → q.held = false ∧ ∃ h ∈ holders, h.conflicts q = true) → ∀ r ∈ grantPass holders done l, r.op = op → r.held = false := by
  intro l; induction l with
  | nil => intro _ _ _ r h; cases h
  | cons a l ih =>
    intro holders done hq r h ho
    unfold grantPass at h
    split at h
    · rename_i hh
      rcases List.mem_cons.mp h with e | e
      · subst e; exact (hq r List.mem_cons_self ho).1
      · exact ih _ _ (fun q hm => hq q (List.mem_cons_of_mem _ hm)) r e ho
    · dsimp only at h
      rcases List.mem_cons.mp h with e | e
      · subst e; have ho' : a.op = op := ho
        obtain ⟨h1, g, h2, h3⟩ := hq a List.mem_cons_self ho'
        have hb : (holders ++ done).any (fun h => h.conflicts a) = true := by rw [List.any_append]; simp; exact .inl ⟨g, h2, h3⟩
        simp [hb]
      · refine ih _ _ (fun q hm hop => ?_) r e ho
        obtain ⟨h1, g, h2, h3⟩ := hq q (List.mem_cons_of_mem _ hm) hop
        refine ⟨h1, g, ?_, h3⟩
        split
        · exact h2
        · exact List.mem_cons_of_mem _ h2

/-- The state of an operation that has entered the table and is not served yet. -/
theorem lockOf_none {s : State} {op : LockOp} (h : ∀ e ∈ s.net.locks, ∀ r ∈ e.recs, r.op = op → r.held = false) : s.holdsLock op = false := by
  unfold State.holdsLock
  cases hl : s.lockOf op with
  | none => rfl
  | some p =>
    unfold State.lockOf at hl
    obtain ⟨e, he, h2⟩ := List.exists_of_findSome?_eq_some hl
    cases hf : e.recs.find? (fun r => r.op == op) with
    | none => rw [hf] at h2; cases h2
    | some r =>
      rw [hf] at h2; simp at h2; subst h2
      have := List.find?_some hf; simp at this
      exact h e he r (List.mem_of_find?_eq_some hf) this

theorem entered_ctxs (s : State) (x : Ctx) (ks : Nat) (fp : BitVec 128) (w : LockRec) : (((s.dequeue x).toPhase x.id .waiting).lockEnter ks fp w).net.ctxs = upd (fun y => y.id == x.id) (fun y => y.enter .waiting s.clock) s.net.ctxs := by
  unfold State.lockEnter State.toPhase State.updCtx State.withCtxs; dsimp only
  rw [show (s.dequeue x).net.ctxs = s.net.ctxs by simp, show (s.dequeue x).clock = s.clock by simp]

theorem settleN_none {s : State} (n : Nat) (h : ∀ y ∈ s.net.ctxs, y.phase = .waiting → s.holdsLock (.cmd y.id) = false) : s.settleN n = s := by
  cases n with
  | zero => rfl
  | succ n =>
    unfold State.settleN
    have hf : s.net.ctxs.find? (fun x => x.phase == .waiting && s.holdsLock (.cmd x.id) && !s.repairing x.fp) = none := by
      rw [List.find?_eq_none]; intro y hy hh
      simp at hh
      rw [h y hy hh.1.1] at hh; simp at hh
    rw [hf]

def lockRecOf (c : Nat) (x : Ctx) : LockRec := { op := .cmd c, mode := x.lock.1, start := x.lock.2.1, stop := x.lock.2.2, age := x.age, held := false }

theorem exec_enter {s : State} {c : Nat} {x : Ctx} (hc : s.ctx? c = some x) (hp : x.phase = .locking) (ha : s.atHead x = true) (hr : s.lockRoom x.keyspace x.fp = true) :
    exec (.rangeLockEnter (.cmd c)) s = .next (((s.dequeue x).toPhase c .waiting).lockEnter x.keyspace x.fp (lockRecOf c x)).settle := by
  simp only [exec, execRangeLockEnter, hc]; rw [if_pos (by simp [hp, ha, hr])]; rfl

theorem find?_first {α : Type} (p : α → Bool) (a : α) : ∀ l : List α, (∀ b ∈ l, p b = true → b = a) → (∃ b ∈ l, p b = true) → l.find? p = some a := by
  intro l; induction l with
  | nil => intro _ h; obtain ⟨b, hb, _⟩ := h; cases hb
  | cons b l ih =>
    intro h1 h2
    rw [List.find?_cons]
    cases hp : p b with
    | true => simp; exact h1 b List.mem_cons_self hp
    | false =>
      simp
      refine ih (fun c hc => h1 c (List.mem_cons_of_mem _ hc)) ?_
      obtain ⟨c, hc, hpc⟩ := h2
      rcases List.mem_cons.mp hc with e | e
      · rw [e, hp] at hpc; cases hpc
      · exact ⟨c, e, hpc⟩

theorem find?_upd_enter (c n : Nat) (q : Ctx → Bool) (x : Ctx) : ∀ l : List Ctx, l.find? (fun y => y.id == c) = some x → (∀ y ∈ l, y.phase ≠ .waiting) →
    (∀ y, q y = true → y.phase = .waiting) → q (x.enter .waiting n) = true →
    (upd (fun y => y.id == c) (fun y => y.enter .waiting n) l).find? q = some (x.enter .waiting n) := by
  intro l; induction l with
  | nil => intro h; cases h
  | cons a l ih =>
    intro h hw hq hx
    unfold upd; rw [List.map_cons, List.find?_cons]
    rw [List.find?_cons] at h
    cases ha : (a.id == c) with
    | true => rw [ha] at h; simp only [Option.some.injEq] at h; subst h; simp only [ha, if_true, hx]
    | false =>
      rw [ha] at h; simp only at h
      simp only [ha, Bool.false_eq_true, if_false]
      have : q a = false := by
        cases hqa : q a with
        | false => rfl
        | true => exact absurd (hq a hqa) (hw a List.mem_cons_self)
      rw [this]
      exact ih h (fun y hy => hw y (List.mem_cons_of_mem _ hy)) hq hx

/-- An operation alone on its object: entered, granted at once, and served. -/
structure Alone (c : Nat) (x : Ctx) (s : State) : Prop where
  hc : s.ctx? c = some x
  hp : x.phase = .locking
  ha : s.atHead x = true
  hw : NoneWaits s
  hr : s.repairing x.fp = false
  h1 : ∀ e ∈ s.net.locks, ¬(e.keyspace = x.keyspace ∧ e.fp = x.fp)
  h2 : ∀ e ∈ s.net.locks, ∀ r ∈ e.recs, r.op ≠ .cmd c
  h3 : (s.net.locks.filter (fun e => lockIsland e.fp == lockIsland x.fp)).length < 16384

def entered (c : Nat) (x : Ctx) (s : State) : State := ((s.dequeue x).toPhase c .waiting).lockEnter x.keyspace x.fp (lockRecOf c x)

theorem Alone.exec {c : Nat} {x : Ctx} {s : State} (h : Alone c x s) : exec (.rangeLockEnter (.cmd c)) s = .next (entered c x s).settle :=
  exec_enter h.hc h.hp h.ha (by unfold State.lockRoom; simp [h.h3])

theorem Alone.ctxs {c : Nat} {x : Ctx} {s : State} (h : Alone c x s) : (entered c x s).net.ctxs = upd (fun y => y.id == c) (fun y => y.enter .waiting s.clock) s.net.ctxs := by
  unfold entered; rw [← ctx?_id h.hc]; exact entered_ctxs _ _ _ _ _

theorem Alone.keeps {c : Nat} {x : Ctx} {s : State} (h : Alone c x s) : Keeps [.sessions, .ctxs, .locks] s (entered c x s) := by
  unfold entered
  exact (((dequeue_frame s x).mono (by decide)).trans ((toPhase_frame _ _ _).mono (by decide))).trans ((lockEnter_frame _ _ _ _).mono (by decide))

theorem Alone.ctx {c : Nat} {x : Ctx} {s : State} (h : Alone c x s) : (entered c x s).ctx? c = some (x.enter .waiting s.clock) := by
  have := ctx?_toPhase .waiting h.hc
  unfold State.ctx? at this ⊢
  unfold State.toPhase State.updCtx State.withCtxs at this
  rw [h.ctxs]; exact this

theorem Alone.holds {c : Nat} {x : Ctx} {s : State} (h : Alone c x s) : (entered c x s).holdsLock (.cmd c) = true := by
  have hl : (entered c x s).net.locks = s.net.locks ++ [{ keyspace := x.keyspace, fp := x.fp, recs := [{ lockRecOf c x with held := true }] }] := by
    unfold entered State.lockEnter; dsimp only
    rw [show ((s.dequeue x).toPhase c .waiting).net.locks = s.net.locks by simp]
    rw [if_neg]
    · rfl
    · simp; intro e he h1 h2; exact h.h1 e he ⟨h1, h2⟩
  have : (entered c x s).lockOf (.cmd c) = some ({ keyspace := x.keyspace, fp := x.fp, recs := [{ lockRecOf c x with held := true }] }, { lockRecOf c x with held := true }) := by
    unfold State.lockOf; rw [hl, List.findSome?_append]
    have : s.net.locks.findSome? (fun e => (e.recs.find? (·.op == .cmd c)).map (fun r => (e, r))) = none := by
      rw [List.findSome?_eq_none_iff]; intro e he
      have : e.recs.find? (fun r => r.op == .cmd c) = none := by rw [List.find?_eq_none]; intro r hr; simpa using h.h2 e he r hr
      rw [this]; rfl
    rw [this]; simp [lockRecOf]
  unfold State.holdsLock; rw [this]

theorem Alone.settle {c : Nat} {x : Ctx} {s : State} (h : Alone c x s) (hn : NoneWaits ((entered c x s).granted (x.enter .waiting s.clock))) :
    (entered c x s).settle = ((entered c x s).granted (x.enter .waiting s.clock)).watch := by
  unfold State.settle
  congr 1
  conv => lhs; unfold State.settleN
  have hrp : (entered c x s).repairing x.fp = false := by
    have : (entered c x s).coh = s.coh := h.keeps .coh (by decide)
    unfold State.repairing; rw [this]; exact h.hr
  have hfp : (x.enter .waiting s.clock).fp = x.fp := by unfold Ctx.enter; (repeat' split) <;> rfl
  have hid := ctx?_id h.hc
  rw [h.ctxs, find?_upd_enter c s.clock _ x s.net.ctxs h.hc h.hw (by intro y hy; simp at hy; exact hy.1.1)]
  · dsimp only
    exact settleN_none _ (fun y hy hp => absurd hp (hn y hy))
  · rw [hfp, enter_id, hid]; simp [h.holds, hrp]

theorem enter_same (x : Ctx) (p : Phase) (n : Nat) : ∃ w r, x.enter p n = { x with phase := p, work := w, runSince := r } := by
  unfold Ctx.enter; (repeat' split)
  · exact ⟨_, _, rfl⟩
  · exact ⟨x.work, x.runSince, rfl⟩
  · exact ⟨x.work, x.runSince, rfl⟩
  · exact ⟨x.work, _, rfl⟩

/-- the state a lookup sees -/
theorem Alone.looked {c : Nat} {x : Ctx} {s : State} (h : Alone c x s) (k : Nat) (fp : BitVec 128) (e : Option Entry) : Keeps [.sessions, .ctxs, .locks, .quince] s ((entered c x s).noteLookup k fp e) :=
  (h.keeps.mono (by decide)).trans ((noteLookup_frame _ _ _ _).mono (by decide))

theorem entry?_of {s t : State} (h : t.store.entries = s.store.entries) (k : Nat) (fp : BitVec 128) (key : Bytes) : t.entry? k fp key = s.entry? k fp key := by unfold State.entry?; rw [h]

theorem rec?_of {s t : State} (h : t.store.recs = s.store.recs) (l : Nat) : t.rec? l = s.rec? l := by unfold State.rec?; rw [h]

theorem matchLength_of {s t : State} (h : t.store.recs = s.store.recs) (m : Match) : t.matchLength m = s.matchLength m := by unfold State.matchLength; simp only [rec?_of h]

theorem keyspace?_of {s t : State} (h : t.store.keyspaces = s.store.keyspaces) (n : Nat) : t.keyspace? n = s.keyspace? n := by unfold State.keyspace?; rw [h]

theorem decideReply_ctx {s : State} {c : Nat} {x : Ctx} (r : Reply) (h : s.ctx? c = some x) : ∃ y, (s.decideReply c r).ctx? c = some y ∧ y.phase = .ready ∧ y.reply = r ∧ y.outCells = x.outCells ∧ y.id = c := by
  unfold State.decideReply
  refine ⟨({ x with reply := r } : Ctx).enter .ready s.clock, ctx?_updCtx (x := x) (f := fun x : Ctx => ({ x with reply := r } : Ctx).enter .ready s.clock) h (enter_id _ _ _), by simp, ?_, ?_, ?_⟩
  · unfold Ctx.enter; (repeat' split) <;> rfl
  · unfold Ctx.enter; (repeat' split) <;> rfl
  · rw [enter_id]; show x.id = c; exact ctx?_id h

/-- After `f` has been applied to every context of number c, none waits. -/
theorem NoneWaits.after {s : State} {c : Nat} {u : State} (hw : NoneWaits s) (n : Nat) (g : Ctx → Ctx) (hg : ∀ y, (g y).phase ≠ .waiting) (hid : ∀ y : Ctx, y.id = c → (y.enter .waiting n).id = c)
    (hu : u.net.ctxs = upd (fun y => y.id == c) g (upd (fun y => y.id == c) (fun y => y.enter .waiting n) s.net.ctxs)) : NoneWaits u := by
  intro y hy
  rw [hu] at hy; unfold upd at hy; rw [List.map_map, List.mem_map] at hy
  obtain ⟨z, hz, rfl⟩ := hy
  simp only [Function.comp_apply]
  by_cases h : (z.id == c) = true
  · rw [if_pos h]; have : ((z.enter .waiting n).id == c) = true := by rw [enter_id]; exact h
    rw [if_pos this]; exact hg _
  · rw [if_neg h, if_neg h]; exact hw z hz

theorem replyCap_of {s t : State} {x : Ctx} (hm : t.vars = s.vars) (hs : ∀ n, (t.session? n).map (·.path) = (s.session? n).map (·.path)) : t.replyCap x = s.replyCap x := by
  unfold State.replyCap
  have hv : ∀ n, t.var n = s.var n := by intro n; unfold State.var; rw [hm]
  split
  · rfl
  · dsimp only
    cases x.session with
    | none => simp only [Option.bind_none]; unfold State.payload State.mtu; rw [hv]
    | some n =>
      simp only [Option.bind_some]
      have := hs n
      cases h1 : t.session? n <;> cases h2 : s.session? n <;> rw [h1, h2] at this <;> simp at this ⊢ <;> unfold State.payload State.mtu <;> simp only [hv, this]

theorem Alone.replyCap {c : Nat} {x : Ctx} {s : State} (h : Alone c x s) (k : Nat) (fp : BitVec 128) (e : Option Entry) (y : Ctx) : ((entered c x s).noteLookup k fp e).replyCap y = s.replyCap y := by
  apply replyCap_of ((h.looked k fp e) .vars (by decide))
  intro n
  rw [session?_of (s := s.dequeue x) (by simp [entered])]
  unfold State.dequeue
  cases hs : x.session with
  | none => rfl
  | some m =>
    unfold State.session? State.updSession; dsimp only
    generalize s.net.sessions = l
    unfold upd
    induction l with
    | nil => rfl
    | cons a l ih =>
      rw [List.map_cons, List.find?_cons, List.find?_cons]
      by_cases h1 : (a.num == m) = true <;> by_cases h2 : (a.num == n) = true <;> simp [h1, h2] <;> simpa using ih

theorem lockLeave_gone (s : State) (op : LockOp) : ∀ e ∈ (s.lockLeave op).net.locks, ∀ r ∈ e.recs, r.op ≠ op := by
  intro e he r hr
  unfold State.lockLeave at he; dsimp only at he
  rw [List.mem_filter, List.mem_map] at he
  obtain ⟨⟨e0, he0, rfl⟩, -⟩ := he
  by_cases h : e0.recs.any (fun r => r.op == op) = true
  · rw [if_pos h] at hr
    obtain ⟨q, hq, h1, -⟩ := grantPass_op _ _ _ r hr
    have := (List.mem_filter.mp hq).2; rw [← h1]; simpa using this
  · rw [if_neg h] at hr
    intro e; apply h; simp; exact ⟨r, hr, e⟩

theorem lockLeave_settle {s : State} (op : LockOp) (hw : NoneWaits s) : (s.lockLeave op).settle = (s.lockLeave op).watch := settle_quiet (s := s.lockLeave op) hw

theorem watch_locks' (s : State) : s.watch.net.locks = s.net.locks := watch_keeps0 s .locks (by decide)

theorem gone_watch {s : State} {op : LockOp} (h : ∀ e ∈ s.net.locks, ∀ r ∈ e.recs, r.op ≠ op) : ∀ e ∈ s.watch.net.locks, ∀ r ∈ e.recs, r.op ≠ op := by
  rw [watch_locks']; exact h

theorem relocate_rec (s : State) (loc : Nat) (r : Rec) (h : s.rec? loc = some r) :
    ∃ r' ∈ (s.relocate loc id).store.recs, r'.keyspace = r.keyspace ∧ r'.key = r.key ∧ r'.stamp = r.stamp ∧ r'.data = r.data ∧ r'.sealed = r.sealed := by
  have hin : r ∈ s.store.recs := by
    unfold State.rec? at h; split at h
    · cases h
    · exact List.mem_of_find?_eq_some h
  unfold State.relocate; rw [h]; dsimp only
  split
  · exact ⟨r, hin, rfl, rfl, rfl, rfl, rfl⟩
  · split
    · exact ⟨r, hin, rfl, rfl, rfl, rfl, rfl⟩
    · rename_i s1 g slot fresh heq
      have last : ∀ (l : List Rec) (a b c : Nat), ∃ r' ∈ l ++ [id { r with loc := a, group := b, slot := c }], r'.keyspace = r.keyspace ∧ r'.key = r.key ∧ r'.stamp = r.stamp ∧ r'.data = r.data ∧ r'.sealed = r.sealed :=
        fun l a b c => ⟨{ r with loc := a, group := b, slot := c }, by simp, rfl, rfl, rfl, rfl, rfl⟩
      split
      · exact last _ _ _ _
      · split
        · exact last _ _ _ _
        · rw [show ∀ (u : State) q, (u.dirLog q).store.recs = u.store.recs by intro u q; simp, show ∀ (u : State) q, (u.dirtyChunk q).store.recs = u.store.recs by intro u q; simp]
          exact last _ _ _ _

theorem readRec_ok (s : State) (r : Rec) (n : Nat) (h : r.poison = false) : (s.readRec r (.step n)).1 = true ∧ Keeps [.counts, .groups] s (s.readRec r (.step n)).2 := by
  constructor
  · unfold State.readRec; dsimp only; rw [h]; simp only [Bool.false_eq_true, if_false]; (repeat' split) <;> rfl
  · unfold State.readRec; dsimp only; rw [h]; simp only [Bool.false_eq_true, if_false]
    (repeat' split) <;> first | exact Keeps.refl _ _ | (intro p hp; cases p <;> first | (exfalso; exact hp (by decide)) | rfl | (simp [Same]; done))

theorem readAll_one (s : State) (x : Ctx) (o : ReadOutcome) (loc a n : Nat) (r : Rec) (hx : x.recs = [(loc, a, n)]) (hr : s.rec? loc = some r) :
    s.readAll x o = (true && (s.readRec r o).1, if (s.readRec r o).1 then (s.readRec r o).2 else (s.readRec r o).2.poisonRec loc) := by
  unfold State.readAll; rw [hx]; simp only [List.foldl_cons, List.foldl_nil, hr]

theorem cacheFold_net (l : List (Nat × Nat × Nat)) : ∀ u : State, (l.foldl (fun t p => match t.rec? p.1 with | some r => t.cachePut r | none => t) u).net = u.net := by
  induction l with
  | nil => intro u; rfl
  | cons p l ih => intro u; rw [List.foldl_cons, ih]; split <;> simp

theorem keyEvents_taken (s : State) (n m : Nat) : ((s.keyEvents n).page m).taken = (s.page m).taken := by
  have sp : ∀ (u : State) (q : KeyPage), q.taken = (u.page q.n).taken → ((u.setPage q).page m).taken = (u.page m).taken := by
    intro u q hq
    unfold State.setPage State.page; dsimp only
    by_cases h : q.n = m
    · subst h; simp [hq]; rfl
    · rw [List.find?_cons]; simp only [show (q.n == m) = false by simpa using h]
      congr 2
      generalize u.cipher.pages = l
      induction l with
      | nil => rfl
      | cons a l ih =>
        rw [List.filter_cons]
        by_cases ha : a.n = q.n
        · have : ¬ q.n = m := h
          simp [ha, this, h]; simpa [List.find?_cons, ha, h] using ih
        · simp only [show (a.n != q.n) = true by simpa using ha, if_true, List.find?_cons]
          rw [ih]
  have ku : ∀ (u : State) (p : KeyPage) e, (u.keyUsage p e).page m = u.page m := by
    intro u p e; unfold State.page; simp
  unfold State.keyEvents; dsimp only
  generalize hs1 : (if (!(s.page n).warnSent && decide (s.var 0x0801 ≤ (s.page n).taken)) = true then _ else s : State) = s1
  have h1 : (s1.page m).taken = (s.page m).taken := by
    rw [← hs1]; split
    · rw [ku]; exact sp s _ (by show _ = (s.page (s.page n).n).taken; rw [page_n])
    · rfl
  split
  · rw [ku, sp s1 _ (by show _ = (s1.page (s1.page n).n).taken; rw [page_n]), h1]
  · exact h1

theorem arrive_row {c : Nat} {x : Ctx} {s : State} (hc : s.ctx? c = some x) (hp : x.phase = .sealing) (hj : s.hasJob (.cmd c) = false) :
    exec (.cipherJobArrive (.cmd c)) s = .next (State.watch (s.jobArrive { of' := .cmd c, owner := s.pipeOwner x.keyspace, cls := 1, age := x.age, waited := 0, since := s.clock })) := by
  simp only [exec, execCipherJobArrive]; rw [if_neg (by rw [hj]; simp), hc]; dsimp only; rw [if_pos (by rw [hp]; rfl)]

theorem keyEvents_pipes' (s : State) (n : Nat) : (s.keyEvents n).cipher.pipes = s.cipher.pipes := keyEvents_keeps0 s n .pipes (by decide)

theorem wait_victim {s : State} {j : Job} (h : ∀ q ∈ s.cipher.pipes, q.owner = j.owner → ∃ r, q.running = some r ∧ j.cls ≤ r.cls) : s.victimPipe j = none := by
  unfold State.victimPipe
  rw [show (s.cipher.pipes.filter (fun p => p.owner == j.owner && p.suspended.length < 4 && p.running.any (·.cls < j.cls))) = [] from ?_]
  · rfl
  · rw [List.filter_eq_nil_iff]; intro q hq hh; simp at hh
    obtain ⟨r, h1, h2⟩ := h q hq hh.1.1
    rw [h1] at hh; simp at hh; omega

theorem wait_idle {s : State} {j : Job} (h : ∀ q ∈ s.cipher.pipes, q.owner = j.owner → ∃ r, q.running = some r ∧ j.cls ≤ r.cls) :
    s.cipher.pipes.find? (fun p => p.owner == j.owner && p.running.isNone) = none := by
  rw [List.find?_eq_none]; intro q hq hh; simp at hh
  obtain ⟨r, h1, h2⟩ := h q hq hh.1
  rw [h1] at hh; simp at hh

theorem wait_wants {s : State} {j : Job} (h : ∀ q ∈ s.cipher.pipes, q.owner = j.owner → ∃ r, q.running = some r ∧ j.cls ≤ r.cls) :
    s.cipher.pipes.any (fun p => p.owner == j.owner && p.running.any (·.cls < j.cls)) = false := by
  rw [List.any_eq_false]; intro q hq hh; simp at hh
  obtain ⟨r, h1, h2⟩ := h q hq hh.1
  rw [h1] at hh; simp at hh; omega

theorem jobArrive_wait {s : State} {j : Job} (h : ∀ q ∈ s.cipher.pipes, q.owner = j.owner → ∃ r, q.running = some r ∧ j.cls ≤ r.cls) :
    s.jobArrive j = { s with cipher := { s.cipher with queue := s.cipher.queue ++ [j] } } := by
  unfold State.jobArrive; rw [wait_idle h]; dsimp only; rw [wait_victim h]; dsimp only; rw [wait_wants h]; rfl

end Sys2Proof.Machine
end

