-- ==== Sys2Proof/Laws/Settings.lean ====
section
/-! SUPPORT. The commands that administer the module and its settings. -/

set_option Elab.async false

set_option linter.unusedSimpArgs false

namespace Sys2Proof.Machine

theorem admin_ctx {s : State} {c op : Nat} {x : Ctx} (h : s.admin? c op = some x) : s.ctx? c = some x ∧ x.opcode = op ∧ x.phase = .complete ∧ s.power.st = 0 := by
  unfold State.admin? at h; split at h
  · exact fresh_ctx h
  · cases h

theorem adminRow_run {s : State} {c op : Nat} {x : Ctx} {b : Bool} {limits : Ctx → Bool} {run : Ctx → State} (h : s.admin? c op = some x)
    (hb : b = true → s.settingsBusy = false) (hm : s.modeStops x = none) (hl : limits x = true) : s.adminRow c op b limits run = run x := by
  unfold State.adminRow; rw [h]; dsimp only
  rw [if_neg, hm]; dsimp only
  · rw [hl]; rfl
  · cases b
    · simp
    · rw [hb rfl]; simp

theorem adminRow_limits {s : State} {c op : Nat} {x : Ctx} {b : Bool} {limits : Ctx → Bool} {run : Ctx → State} (h : s.admin? c op = some x)
    (hb : b = true → s.settingsBusy = false) (hm : s.modeStops x = none) (hl : limits x = false) : s.adminRow c op b limits run = s.endStatus c .badLength := by
  unfold State.adminRow; rw [h]; dsimp only
  rw [if_neg, hm]; dsimp only
  · rw [hl]; rfl
  · cases b
    · simp
    · rw [hb rfl]; simp

theorem change_waits {s u : State} {c : Nat} {x : Ctx} (ch : Change) (r : Reply) (hc : s.ctx? c = some x) (hh : s.settingsHeld = none)
    (hu : u = s ∨ u = s.drawn) : (∃ y, (u.change x ch r).ctx? c = some y ∧ y.phase = .settings ∧ y.change = some ch ∧ y.reply = r) ∧ Keeps [.ctxs, .rnd] s (u.change x ch r) := by
  have hid := ctx?_id hc
  have h1 : u.settingsHeld = none := by rcases hu with e | e <;> rw [e] <;> exact hh
  have h2 : u.ctx? c = some x := by rcases hu with e | e <;> rw [e] <;> exact hc
  have h3 : Keeps [.ctxs, .rnd] s u := by
    rcases hu with e | e <;> rw [e]
    · exact Keeps.refl _ _
    · (intro p hp; cases p <;> first | (exfalso; exact hp (by decide)) | rfl | (simp [Same]; done))
  unfold State.change; rw [h1]; dsimp only; unfold State.toSettings
  rw [hid]
  refine ⟨⟨_, ctx?_updCtx h2 (enter_id _ _ _), enter_phase _ _ _, ?_, ?_⟩, h3.trans ?_⟩
  · unfold Ctx.enter; (repeat' split) <;> rfl
  · unfold Ctx.enter; (repeat' split) <;> rfl
  · exact (updCtx_frame _ _ _).mono (by decide)

def NoneStuck (s : State) : Prop := ∀ r ∈ s.relay.slots, r.waiting = true ∨ r.ended.isSome = true ∨ r.sends ≠ 1

theorem failStuck_quiet {s : State} (h : NoneStuck s) (n : Nat) : s.failStuck n = s := by
  cases n with
  | zero => rfl
  | succ n =>
    unfold State.failStuck
    rw [show s.relay.slots.find? (fun r => !r.waiting && r.ended.isNone && r.sends == 1) = none from ?_]
    rw [List.find?_eq_none]; intro r hr hh; simp at hh
    rcases h r hr with e | e | e
    · rw [e] at hh; simp at hh
    · rw [hh.1.2] at e; simp at e
    · exact e hh.2

theorem relaySettle_quiet {s : State} (h : NoneStuck s) (k : NoneWaits s) : s.relaySettle = s.watch := by
  unfold State.relaySettle; rw [failStuck_quiet h, settle_quiet k]

theorem releaseCmd_relay (s : State) (x : Ctx) : (∀ r ∈ (s.releaseCmd x).relay.slots, r ∈ s.relay.slots) ∧ (s.releaseCmd x).relay.pairs = s.relay.pairs ∧ (s.releaseCmd x).relay.map = s.relay.map := by
  unfold State.releaseCmd; dsimp only
  (repeat' split) <;> refine ⟨fun r hr => ?_, ?_, ?_⟩ <;> simp [State.updSession] at * <;> first | exact hr | exact hr.1

theorem endCmd_relay (s : State) (c : Nat) (r : Reply) : (∀ q ∈ (s.endCmd c r).relay.slots, q ∈ s.relay.slots) ∧ (s.endCmd c r).relay.pairs = s.relay.pairs ∧ (s.endCmd c r).relay.map = s.relay.map := by
  unfold State.endCmd; split
  · exact ⟨fun _ h => h, rfl, rfl⟩
  · rename_i x _
    dsimp only
    rw [show ∀ (u : State) cs, (u.withCtxs cs).foreground.relay = u.relay from fun _ _ => rfl, show ∀ (u : State) a b, (u.sendReply a b).relay = u.relay from fun u a b => by simp,
      show ∀ (u : State) a b, (u.recordStatus a b).relay = u.relay from fun u a b => by simp]
    exact releaseCmd_relay s x

theorem NoneStuck.sub {s t : State} (h : NoneStuck s) (k : ∀ r ∈ t.relay.slots, r ∈ s.relay.slots) : NoneStuck t := fun r hr => h r (k r hr)

def Stored (t : State) : Prop := ∃ b, t.nor.blockA = some b ∧ t.nor.blockB = some b ∧ t.nor.seqA = t.nor.seqB ∧ b.vars = t.vars ∧ b.keyspaces = t.store.keyspaces

theorem written_row {c : Nat} {ch : Change} {x : Ctx} {s : State} (hc : s.ctx? c = some x) (hp : x.phase = .settings) (hch : x.change = some ch) (ho : x.opcode ≠ 0x21)
    (hw : NoneWaits s) (hst : NoneStuck s) (hcw : s.changeWaits ch = false) (hk : ∀ y ∈ (s.applyChange ch).net.ctxs, y ∈ s.net.ctxs)
    (hx : (s.applyChange ch).ctx? c = some x)
    (hs : ∀ r ∈ (s.applyChange ch).relay.slots, r ∈ s.relay.slots) :
    Gives (.settingsWriteDone c) s (fun t => t = ((s.applyChange ch).saveSettings.endCmd c ((s.applyChange ch).saveSettings.changeReply x.reply ch)).watch
      ∧ Stored t ∧ Replied x ((s.applyChange ch).saveSettings.changeReply x.reply ch) t) := by
  generalize hs1 : s.applyChange ch = s1 at *
  refine gives_of (t := (s1.saveSettings.endCmd c (s1.saveSettings.changeReply x.reply ch)).relaySettle) ?_ ?_
  · simp only [exec, execSettingsWriteDone]; rw [hc]; dsimp only; rw [hp, hch]; dsimp only; rw [hcw, hs1]; rfl
  · have hw1 : NoneWaits s1.saveSettings := hw.sub hk
    have hst1 : NoneStuck s1.saveSettings := hst.sub hs
    have hx1 : s1.saveSettings.ctx? c = some x := hx
    rw [relaySettle_quiet (hst1.sub (endCmd_relay _ _ _).1) (hw1.endCmd _ _)]
    refine ⟨rfl, ?_, (endCmd_replied _ hx1).watch⟩
    refine ⟨s1.settings, ?_, ?_, ?_, ?_, ?_⟩
    · simp [State.saveSettings]
    · simp [State.saveSettings]
    · simp [State.saveSettings]
    · simp [State.saveSettings, State.settings]
    · rw [watch_ks, endCmd_ks _ hx1 ho]; rfl

theorem written_vars {s : State} {c : Nat} {r : Reply} : ((s.saveSettings.endCmd c r).watch).vars = s.vars := by simp [State.saveSettings]

theorem written_seq {s : State} {c : Nat} {r : Reply} : ((s.saveSettings.endCmd c r).watch).nor.seqA = max s.nor.seqA s.nor.seqB + 1 := by simp [State.saveSettings]

theorem written_ks {s : State} {c : Nat} {x : Ctx} {r : Reply} (h : s.ctx? c = some x) (ho : x.opcode ≠ 0x21) : ((s.saveSettings.endCmd c r).watch).store.keyspaces = s.store.keyspaces := by
  rw [watch_ks, endCmd_ks (s := s.saveSettings) _ h ho]; rfl

theorem varIn_set (vs : List (Nat × Nat)) (id v : Nat) : varIn (setVarIn vs id v) id = v := by
  unfold setVarIn; dsimp only
  have h : (vs.filter (fun p => p.1 != id)).find? (fun p => p.1 == id) = none := by
    rw [List.find?_eq_none]; intro p hp; have := (List.mem_filter.mp hp).2; simpa using this
  split
  · rename_i he; unfold varIn; rw [h]; dsimp only
    cases hd : varDesc id with
    | none => rw [hd] at he; simp at he
    | some d => rw [hd] at he; simp at he; exact he.symm
  · unfold varIn; simp

theorem varIn_set_ne (vs : List (Nat × Nat)) {id j : Nat} (v : Nat) (hne : j ≠ id) : varIn (setVarIn vs id v) j = varIn vs j := by
  have hf : (vs.filter (fun p => p.1 != id)).find? (fun p => p.1 == j) = vs.find? (fun p => p.1 == j) := by
    induction vs with
    | nil => rfl
    | cons a l ih =>
      by_cases ha : a.1 = id
      · rw [List.filter_cons_of_neg (by simp [ha]), ih, List.find?_cons_of_neg (by simp [ha]; exact fun e => hne e.symm)]
      · rw [List.filter_cons_of_pos (by simp [ha])]
        by_cases hj : a.1 = j
        · rw [List.find?_cons_of_pos (by simp [hj]), List.find?_cons_of_pos (by simp [hj])]
        · rw [List.find?_cons_of_neg (by simp [hj]), List.find?_cons_of_neg (by simp [hj]), ih]
  unfold setVarIn; dsimp only
  split
  · unfold varIn; rw [hf]
  · unfold varIn; rw [List.find?_cons_of_neg (by simp; exact fun e => hne e.symm), hf]

theorem setPage_page_ne (u : State) (q : KeyPage) {m : Nat} (h : q.n ≠ m) : (u.setPage q).page m = u.page m := by
  unfold State.setPage State.page; dsimp only
  rw [List.find?_cons]; simp only [show (q.n == m) = false by simpa using h]
  congr 1
  generalize u.cipher.pages = l
  induction l with
  | nil => rfl
  | cons a l ih =>
    rw [List.filter_cons]
    by_cases ha : a.n = q.n
    · simp [ha, h]; simpa using ih
    · simp only [show (a.n != q.n) = true by simpa using ha, if_true, List.find?_cons]
      rw [ih]

theorem keyUsage_page (u : State) (p : KeyPage) (e m : Nat) : (u.keyUsage p e).page m = u.page m := by unfold State.page; simp

/-- What key events leave of a page: the marks of the events sent, and nothing else. -/
theorem keyEvents_page_all (s : State) (n m : Nat) : ∃ w e, (s.keyEvents n).page m = { s.page m with warnSent := w, exhSent := e } := by
  have sp : ∀ (u : State) (q : KeyPage) a b, q = { u.page q.n with warnSent := a, exhSent := b } → ∃ w e, (u.setPage q).page m = { u.page m with warnSent := w, exhSent := e } := by
    intro u q a b hq
    by_cases h : q.n = m
    · subst h; rw [setPage_page]; exact ⟨a, b, hq⟩
    · rw [setPage_page_ne _ _ h]; exact ⟨_, _, rfl⟩
  unfold State.keyEvents; dsimp only
  generalize hs1 : (if (!(s.page n).warnSent && decide (s.var 0x0801 ≤ (s.page n).taken)) = true then _ else s : State) = s1
  have h1 : ∃ w e, s1.page m = { s.page m with warnSent := w, exhSent := e } := by
    rw [← hs1]; split
    · rw [keyUsage_page]; exact sp s _ true (s.page n).exhSent (by simp only [page_n])
    · exact ⟨_, _, rfl⟩
  split
  · rw [keyUsage_page]
    obtain ⟨w, e, h2⟩ := sp s1 { s1.page n with exhSent := true } (s1.page n).warnSent true (by simp only [page_n])
    obtain ⟨w1, e1, h3⟩ := h1
    rw [h2, h3]; exact ⟨w, e, rfl⟩
  · exact h1

theorem sweepEnd_page (s : State) (n m : Nat) : ∃ w, (s.sweepEnd n).page m = { s.page m with sweep := w } := by
  unfold State.sweepEnd; dsimp only
  split
  · exact ⟨_, rfl⟩
  · split
    · have e : ∀ (u : State) a b, (u.logEvent a b).page m = u.page m := fun u a b => by unfold State.page; simp
      rw [e, keyUsage_page]
      by_cases h : (s.page n).n = m
      · refine ⟨none, ?_⟩
        have := setPage_page s { s.page n with sweep := none }
        rw [show ({ s.page n with sweep := none } : KeyPage).n = m from h] at this
        rw [this]; rw [page_n] at h; subst h; rfl
      · exact ⟨_, setPage_page_ne s _ h⟩
    · exact ⟨_, rfl⟩

theorem endCmd_page (s : State) (c n : Nat) (r : Reply) : ∃ v, (s.endCmd c r).page n = { s.page n with reserved := v } := by
  unfold State.endCmd; split
  · exact ⟨_, rfl⟩
  · rename_i x _
    have e1 : ∀ (u : State) cs, (u.withCtxs cs).foreground.page n = u.page n := fun _ _ => rfl
    have e2 : ∀ (u : State) a b, (u.sendReply a b).page n = u.page n := fun u a b => by unfold State.page; simp
    have e3 : ∀ (u : State) a b, (u.recordStatus a b).page n = u.page n := fun u a b => by unfold State.page; simp
    dsimp only; rw [e1, e2, e3]
    unfold State.releaseCmd; dsimp only
    have hq : ∀ (u : State) a b, (u.qWithdraw a b).page n = u.page n := fun u a b => by unfold State.page; simp
    have hk : ∀ (u : State) a f, (u.updKeyspace a f).page n = u.page n := fun u a f => rfl
    have core : ∀ (u : State) (p : KeyPage → Bool), u.cipher.pages = s.cipher.pages → ∃ v, ((upd p (fun p => { p with reserved := p.reserved - 1 }) u.cipher.pages).find? (·.n == n)).getD (KeyPage.blank n) = { s.page n with reserved := v } := by
      intro u p hu
      rw [hu]; unfold State.page
      generalize s.cipher.pages = l
      unfold upd
      induction l with
      | nil => exact ⟨_, rfl⟩
      | cons a l ih =>
        rw [List.map_cons]
        by_cases ha : a.n = n
        · rw [List.find?_cons_of_pos (by split <;> simp [ha]), List.find?_cons_of_pos (by simp [ha])]
          split
          · exact ⟨_, rfl⟩
          · exact ⟨_, rfl⟩
        · rw [List.find?_cons_of_neg (by split <;> simp [ha]), List.find?_cons_of_neg (by simp [ha])]; exact ih
    (repeat' split) <;> (try simp only [hk, hq]) <;> (unfold State.page at core ⊢; dsimp only; refine core _ _ ?_; simp [State.updSession])

theorem written_page (s : State) (c n : Nat) (r : Reply) : ∃ v, ((s.saveSettings.endCmd c r).watch).page n = { s.page n with reserved := v } := by
  rw [watch_page]; exact endCmd_page s.saveSettings c n r

theorem bytesOfNat_len (n v : Nat) : (bytesOfNat n v).length = n := by
  induction n with
  | zero => rfl
  | succ n ih => show (bytesOfNat n v).length + 1 = n + 1; rw [ih]

theorem pack_len (fs : List (Nat × Nat)) : (pack fs).length = (fs.map (·.1)).sum / 8 := bytesOfNat_len _ _

theorem says_row {c : Nat} {x : Ctx} {s : State} {i : Instr} {r : Reply} (hc : s.ctx? c = some x) (he : exec i s = .next (s.endCmd c r)) :
    Gives i s (fun t => Replied x r t ∧ Keeps [.ports, .sessions, .ctxs, .nextId, .kept,
    .held, .sent, .locks, .keyspaces, .quince, .pages, .pipes, .queue, .relay, .power, .sb] s t) :=
  gives_of he ⟨endCmd_replied _ hc, endCmd_frame _ _ _⟩

theorem closeSieves_list (s : State) (p : Sieve → Bool) (r : Nat) : (s.closeSieves p r).sieves.list = s.sieves.list.filter (fun v => !p v) := by
  unfold State.closeSieves; dsimp only
  have hf : ∀ (l : List Sieve) (f : State → Sieve → State), (∀ u v, (f u v).sieves = u.sieves) → ∀ u, (l.foldl f u).sieves = u.sieves := by
    intro l f h; induction l with
    | nil => intro u; rfl
    | cons a l ih => intro u; rw [List.foldl_cons, ih, h]
  split
  · rfl
  · rw [hf _ _ (by intro u v; simp)]

theorem changeMode_mode (s : State) (m : Mode) : (s.changeMode m).modes.mode = m := by
  unfold State.changeMode; dsimp only
  split
  · rename_i h; simpa using h
  · have e : ∀ (u : State) (p : Prop) [Decidable p], (if p then u.shallower 0 else u).modes = u.modes := by intro u p _; split <;> simp
    rw [console_modes]
    rw [show ∀ u : State, (u.alert .modeChange).modes = u.modes from fun _ => rfl]
    rw [show ∀ (u : State) a b c d e, (u.broadcast a b c d e).modes = u.modes from fun u a b c d e => by simp, e]

theorem endForMode_serving (s : State) : s.endForMode .serving = s := rfl

theorem changeMode_serving (s : State) (h : s.modes.mode ≠ .serving) : ∃ a, Keeps [.modes, .sb, .dbg] (({ s with modes := { s.modes with mode := .serving } } : State).broadcast .modeChange 0 a 0 []) (s.changeMode .serving) := by
  unfold State.changeMode; dsimp only
  rw [if_neg (by simpa using h), endForMode_serving]
  simp only [beq_self_eq_true, if_true]
  rw [if_neg (by simp)]
  exact ⟨modeChangeWord s.modes.mode .serving s.modes.freezeCauses, ((alert_frame _ _).mono (by decide)).trans ((console_frame _ _).mono (by decide))⟩

theorem foldl_keep {β γ : Type} (P : State → γ) (f : State → β → State) (h : ∀ u b, P (f u b) = P u) (l : List β) (u : State) : P (l.foldl f u) = P u := by
  induction l generalizing u with
  | nil => rfl
  | cons a l ih => rw [List.foldl_cons, ih, h]

theorem deleteKeyspace_spec (s : State) (k : Keyspace) : (s.deleteKeyspace k).relay = ({ s.relay with
      pairs := s.relay.pairs.filter (fun p => !(p.keyspace == k.id && true)), slots := s.relay.slots.filter (fun r => !(r.keyspace == k.id && r.kind != .live && r.succs.all (fun _ => true))) } : Relay)
    ∧ (s.deleteKeyspace k).store.keyspaces = s.store.keyspaces.filter (fun y => y.id != k.id) := by
  unfold State.deleteKeyspace
  extract_lets es locs recs s1 s2 log s3 src s4 s5 s6
  have h2 : s2.relay = s.relay ∧ s2.store.keyspaces = s.store.keyspaces := by
    constructor
    · rw [foldl_keep (fun u : State => u.relay) _ (by intro u b; simp), foldl_keep (fun u : State => u.relay) _ (by intro u b; simp)]
    · rw [foldl_keep (fun u : State => u.store.keyspaces) _ (by intro u b; simp), foldl_keep (fun u : State => u.store.keyspaces) _ (by intro u b; simp)]
  have m : ∀ (u : State) a, (u.markStale a).relay = u.relay ∧ (u.markStale a).store.keyspaces = u.store.keyspaces := fun u a => ⟨by simp, by simp⟩
  have d : ∀ (u : State) a, (u.dirLog a).relay = u.relay ∧ (u.dirLog a).store.keyspaces = u.store.keyspaces := fun u a => ⟨by simp, by simp⟩
  have cs : ∀ (u : State) a b, (u.closeSieves a b).relay = u.relay ∧ (u.closeSieves a b).store.keyspaces = u.store.keyspaces := fun u a b => ⟨by simp, by simp⟩
  have cp : ∀ (u : State) a b, (u.clearPage a b).relay = u.relay ∧ (u.clearPage a b).store.keyspaces = u.store.keyspaces := fun u a b => ⟨by simp, by simp⟩
  have us : ∀ (u : State), u.unlockSeen.relay = u.relay ∧ u.unlockSeen.store.keyspaces = u.store.keyspaces := fun u => ⟨by simp, by simp⟩
  have h3 : s3.relay = ({ s.relay with
      pairs := s.relay.pairs.filter (fun p => !(p.keyspace == k.id && true)), slots := s.relay.slots.filter (fun r => !(r.keyspace == k.id && r.kind != .live && r.succs.all (fun _ => true))) } : Relay) ∧ s3.store.keyspaces = s.store.keyspaces := by
    simp only [s3, State.dropPairs, log]
    rw [(m _ _).1, (m _ _).2, (d _ _).1, (d _ _).2, (d _ _).1, (d _ _).2, h2.1, h2.2]; exact ⟨rfl, rfl⟩
  have h5 : s5.relay = s3.relay ∧ s5.store.keyspaces = s3.store.keyspaces.filter (fun y => y.id != k.id) := cs _ _ _
  have h6 : s6.relay = s5.relay ∧ s6.store.keyspaces = s5.store.keyspaces := by
    simp only [s6]; split
    · exact cp _ _ _
    · exact ⟨rfl, rfl⟩
  rw [(us _).1, (us _).2, h6.1, h6.2, h5.1, h5.2, h3.1, h3.2]
  exact ⟨rfl, rfl⟩

theorem endCmd_ks_committed {s : State} {c : Nat} {x : Ctx} (r : Reply) (h : s.ctx? c = some x) (ho : x.committed = true) : (s.endCmd c r).store.keyspaces = s.store.keyspaces := by
  unfold State.endCmd; rw [h]; dsimp only
  have e1 : ∀ (u : State) cs, (u.withCtxs cs).foreground.store.keyspaces = u.store.keyspaces := fun _ _ => rfl
  rw [e1, sendReply_store, recordStatus_store]
  unfold State.releaseCmd; dsimp only
  rw [if_neg (by simp [ho])]
  (repeat' split) <;> simp [State.updSession]

end Sys2Proof.Machine
end

