-- ==== Sys2Proof/Laws/Turning.lean ====
section
/-! SUPPORT. Mode changes, commits, sieves, forwards and power states. -/

set_option Elab.async false

set_option linter.unusedSimpArgs false

namespace Sys2Proof.Machine

theorem foldl_power {β : Type} (f : State → β → State) (h : ∀ u b, (f u b).power = u.power) (l : List β) (u : State) : (l.foldl f u).power = u.power := foldl_keep (fun u => u.power) f h l u

theorem deepen_power (s : State) (n : Nat) : (s.deepen n).power = { s.power.move n s.clock with refreshed := if n == 3 then 0xFFFF else s.power.refreshed } := by
  unfold State.deepen; dsimp only
  have h : (s.gatedIslands.foldl (fun t i => t.trace 4 i false (BitVec.ofNat 64 n)) s).power = s.power := foldl_power _ (by intro u b; simp) _ _
  by_cases hn : (n == 3) = true
  · rw [if_pos hn]; dsimp only; rw [h]
  · rw [if_neg hn]; dsimp only; rw [h]

theorem shallower_power (s : State) (n : Nat) : (s.shallower n).power = s.power.move n s.clock := by
  unfold State.shallower; dsimp only
  split
  · rw [foldl_power _ (by intro u b; simp)]
  · rfl

theorem find?_mem_slot {l : List Sieve} {n : Nat} {v : Sieve} (h : l.find? (·.slot == n) = some v) : v ∈ l ∧ v.slot = n := ⟨List.mem_of_find?_eq_some h, by simpa using List.find?_some h⟩

theorem mem_updSieve {s : State} {n : Nat} {v : Sieve} (h : s.sieves.list.find? (·.slot == n) = some v) (f : Sieve → Sieve) : f v ∈ (s.updSieve n f).sieves.list := by
  obtain ⟨h1, h2⟩ := find?_mem_slot h
  unfold State.updSieve upd; dsimp only; rw [List.mem_map]; exact ⟨v, h1, by rw [if_pos (by simpa using h2)]⟩

theorem add_vc (v : Sieve) (e : Bytes) (now b : Nat) : (v.add e now b).visited = v.visited ∧ (v.add e now b).cursor = v.cursor ∧ (v.add e now b).slot = v.slot := by
  unfold Sieve.add Sieve.close; dsimp only; (repeat' split) <;> exact ⟨rfl, rfl, rfl⟩

theorem visitKey_vc (s : State) (v : Sieve) (e : Entry) : (s.visitKey v e).1.visited = v.visited + 1 ∧ (s.visitKey v e).1.cursor = e.fp.toNat + 1 ∧ (s.visitKey v e).1.slot = v.slot := by
  unfold State.visitKey; dsimp only
  (repeat' split) <;> first | exact ⟨rfl, rfl, rfl⟩ | exact add_vc _ _ _ _

theorem closeLast_vc (s : State) (v : Sieve) : (s.closeLast v).visited = v.visited ∧ (s.closeLast v).cursor = v.cursor ∧ (s.closeLast v).slot = v.slot := by
  unfold State.closeLast Sieve.close; (repeat' split) <;> exact ⟨rfl, rfl, rfl⟩

theorem accrue_nonneg {t : Int} (h : 0 ≤ t) (a b : Nat) : ¬ accrueScan t a b < 0 := by
  unfold accrueScan; omega

theorem closeSieves_gens (s : State) (p : Sieve → Bool) (r : Nat) : (s.closeSieves p r).sieves.gens = (s.sieves.list.filter p).foldl (fun g v => setKey g v.slot ((v.gen + 1) % 2 ^ 25)) s.sieves.gens := by
  unfold State.closeSieves; dsimp only
  split
  · rfl
  · rw [foldl_keep (fun u : State => u.sieves.gens) _ (by intro u v; simp)]

theorem gens_last (n : Nat) : ∀ (l : List Sieve) (g : List (Nat × Nat)), (∀ w ∈ l, w.slot = n) → l ≠ [] →
    ∃ w ∈ l, getKey (l.foldl (fun g v => setKey g v.slot ((v.gen + 1) % 2 ^ 25)) g) n 0 = (w.gen + 1) % 2 ^ 25
  | [], _, _, h => absurd rfl h
  | [a], g, h, _ => ⟨a, by simp, by rw [List.foldl_cons, List.foldl_nil, h a (by simp)]; unfold getKey setKey; simp⟩
  | a :: b :: l, g, h, _ => by
    obtain ⟨w, h1, h2⟩ := gens_last n (b :: l) (setKey g a.slot ((a.gen + 1) % 2 ^ 25)) (fun w hw => h w (by simp at hw ⊢; exact .inr hw)) (by simp)
    exact ⟨w, by simp at h1 ⊢; exact .inr h1, h2⟩

theorem visit_row {n : Nat} {v : Sieve} {s : State} (hf : s.sieves.list.find? (·.slot == n) = some v) (hl : v.lost = []) (he : v.ended = false) (hb : v.batches.length < 2)
    (hp : s.power.st = 0) (hm : s.modes.mode.service = true) (ht : s.thermal.stage = 0) (h1 : 0 ≤ v.tokens) (h2 : 0 ≤ s.sieves.tokens) :
    ∃ (a : Int) (b : Nat), Gives (.sieveVisit n) s (fun t =>
      s.closeLast { (s.visitNext v).1 with tokens := a, tokensAt := b } ∈ t.sieves.list ∧ t.store = s.store) := by
  refine ⟨accrueScan v.tokens ((s.clock - v.tokensAt) * v.rate) 4194304 - 1000 * (s.visitNext v).2, s.clock, ?_⟩
  generalize hv2 : s.closeLast { (s.visitNext v).1 with tokens := accrueScan v.tokens ((s.clock - v.tokensAt) * v.rate) 4194304 - 1000 * (s.visitNext v).2, tokensAt := s.clock } = v2
  have hrow : ∃ all, exec (.sieveVisit n) s = .next (
      let s0 := (List.range (v2.digFails - v.digFails)).foldl (fun t _ => t.digestEvent v.keyspace 4 0x09 (((s.nextKey v).map (·.fp)).getD 0)) s
      let s1 := s0.updSieve n (fun _ => v2)
      { s1 with sieves := { s1.sieves with tokens := all, at' := s.clock } }) := by
    simp only [exec, execSieveVisit]; rw [hf]; dsimp only
    rw [hv2, if_neg (by rw [hl]; simp), if_neg]
    · exact ⟨_, rfl⟩
    · have h3 := accrue_nonneg h1 ((s.clock - v.tokensAt) * v.rate) 4194304
      have h4 : ¬ s.scanTokens < 0 := accrue_nonneg h2 _ _
      rw [he, hp, ht, hm]
      simp at h3 h4 ⊢; omega
  obtain ⟨all, hrow⟩ := hrow
  refine gives_of hrow ?_
  dsimp only
  have hsv : ∀ (m : Nat) k fp, ((List.range m).foldl (fun t _ => t.digestEvent k 4 0x09 fp) s).sieves = s.sieves := fun m k fp => foldl_keep (fun u : State => u.sieves) _ (by intro u b; simp) _ _
  have hst : ∀ (m : Nat) k fp, ((List.range m).foldl (fun t _ => t.digestEvent k 4 0x09 fp) s).store = s.store := fun m k fp => foldl_keep (fun u : State => u.store) _ (by intro u b; simp) _ _
  constructor
  · refine mem_updSieve (v := v) ?_ (fun _ => v2); rw [hsv]; exact hf
  · exact hst _ _ _

theorem slot_upd {s : State} {n : Nat} {r : RelaySlot} {f : RelaySlot → RelaySlot} (h : s.relay.slots.find? (·.id == n) = some r) (hf : (f r).id = r.id) :
    (s.updSlot n f).relay.slots.find? (·.id == n) = some (f r) := by
  unfold State.updSlot upd; dsimp only
  generalize s.relay.slots = l at h
  induction l with
  | nil => cases h
  | cons a l ih =>
    rw [List.map_cons]
    by_cases ha : (a.id == n) = true
    · rw [List.find?_cons_of_pos (p := fun x : RelaySlot => x.id == n) ha] at h; cases h
      rw [if_pos ha, List.find?_cons_of_pos (p := fun x : RelaySlot => x.id == n) (by rw [hf]; exact ha)]
    · rw [List.find?_cons_of_neg (p := fun x : RelaySlot => x.id == n) ha] at h
      rw [if_neg ha, List.find?_cons_of_neg (p := fun x : RelaySlot => x.id == n) ha]; exact ih h

theorem pumpSlots_empty {s : State} (h : s.relay.slots = []) (hw : ∀ y ∈ s.net.ctxs, y.phase ≠ .relayWait) : s.pumpSlots = s := by
  have hg : s.grantSlots = s := by
    unfold State.grantSlots
    rw [show s.net.ctxs.filter (fun x => x.phase == .relayWait) = [] by rw [List.filter_eq_nil_iff]; intro y hy; simpa using hw y hy]; rfl
  unfold State.pumpSlots; rw [hg]; dsimp only; rw [h]; rfl

theorem changeMode_modes (s : State) (m : Mode) : (s.changeMode m).modes = { s.modes with mode := m } := by
  unfold State.changeMode; dsimp only
  split
  · rename_i h; have := eq_of_beq h; rw [← this]
  · have e : ∀ (u : State) (p : Prop) [Decidable p], (if p then u.shallower 0 else u).modes = u.modes := by intro u p _; split <;> simp
    rw [console_modes]
    rw [show ∀ u : State, (u.alert .modeChange).modes = u.modes from fun _ => rfl]
    rw [show ∀ (u : State) a b c d e, (u.broadcast a b c d e).modes = u.modes from fun u a b c d e => by simp, e]
    dsimp only; rw [show (s.endForMode m).modes = s.modes by simp]

theorem freeze_modes (s : State) (f : FreezeCause) (h : s.modes.mode = .serving ∨ s.modes.mode = .shadowing) :
    (s.freeze f).modes = { s.modes with mode := .frozen, freezeCauses := s.modes.freezeCauses ||| f.word, frozenFrom := some s.modes.mode } := by
  unfold State.freeze; dsimp only
  rw [show ∀ u : State, u.saveSettings.modes = u.modes from fun _ => rfl]
  rw [if_pos (by rcases h with e | e <;> rw [e] <;> rfl), changeMode_modes]

theorem settle_modes' (s : State) : s.settle.modes = s.modes := by simp

theorem modeSet_row {c : Nat} {m : Mode} {x : Ctx} {s : State} (h : s.admin? c 0x49 = some x) (hm : s.modeStops x = none) (hl : x.only 0 0 true false = true)
    (hmo : modeOfCode x.paramA.toNat = some m) (hcut : s.cutIn = false) : exec (.modeSet c) s = .next (s.setMode x m) := by
  simp only [exec, execModeSet]; rw [adminRow_run h (by simp) hm (by rw [hl, hmo]; rfl)]; (try dsimp only); rw [if_neg (by rw [hcut]; simp), hmo]

theorem getKey_set {β : Type} {l : List (Nat × β)} (k : Nat) (v d : β) : getKey (setKey l k v) k d = v := by
  unfold getKey setKey; simp

theorem ctx?_of {s t : State} (h : t.net.ctxs = s.net.ctxs) (c : Nat) : t.ctx? c = s.ctx? c := by unfold State.ctx?; rw [h]

theorem message_committed (x : Ctx) (st : Nat) (rp r : Reply) : ({ x with committed := true, stamp := st, reply := rp } : Ctx).message r = x.message r := rfl

theorem commitRead_facts {c : Nat} {x : Ctx} {s : State} (r : Reply) (hc : s.ctx? c = some x) (hw : NoneWaits s) (hp : x.phase ≠ .waiting) (ho : isDataWrite x.opcode = false) :
    Replied x r (s.commitRead x r).settle ∧ (s.commitRead x r).settle.store.recs = s.store.recs ∧ (s.commitRead x r).settle.store.entries = s.store.entries
      ∧ ∀ p ∈ x.recs, (s.net.nextId, p.1) ∈ (s.commitRead x r).settle.store.holds := by
  obtain rfl := ctx?_id hc
  unfold State.commitRead; dsimp only
  generalize hs1 : (s.placeHolds x).updCtx x.id (fun y => { y with committed := true }) = s1
  have h1 : s1.ctx? x.id = some { x with committed := true } := by
    rw [← hs1]; exact ctx?_updCtx (s := s.placeHolds x) (f := fun y => { y with committed := true }) hc rfl
  have hw1 : NoneWaits s1 := by
    rw [← hs1]; intro y hy
    simp only [State.updCtx, State.withCtxs, upd, List.mem_map] at hy
    obtain ⟨z, hz, rfl⟩ := hy
    split <;> exact hw z hz
  have e1 : s1.store.recs = s.store.recs ∧ s1.store.entries = s.store.entries ∧ ∀ p ∈ x.recs, (s.net.nextId, p.1) ∈ s1.store.holds := by
    rw [← hs1]; refine ⟨rfl, rfl, ?_⟩
    intro p hp; simp [State.placeHolds, State.updCtx, State.withCtxs]; exact .inr ⟨p.2.1, p.2.2, hp⟩
  have k2 : Keeps (Part.allBut [.ctxs, .recs, .entries, .holds]) s1 (if x.opcode == 0x0D then s1 else s1.chargeReply x r.body.length) := by
    split
    · exact Keeps.refl _ _
    · exact (chargeReply_frame s1 x _).mono (by decide)
  generalize (if x.opcode == 0x0D then s1 else s1.chargeReply x r.body.length) = s2 at *
  have c2 : s2.net.ctxs = s1.net.ctxs := k2 .ctxs (by decide)
  have h2 : s2.ctx? x.id = some { x with committed := true } := by rw [ctx?_of c2]; exact h1
  have hw2 : NoneWaits s2 := by intro y hy; rw [c2] at hy; exact hw1 y hy
  have hw3 := hw2.endCmd x.id r
  refine ⟨(endCmd_settle_replied r h2 hw2 : Replied { x with committed := true } r _), ?_, ?_, ?_⟩
  · rw [settle_quiet hw3]; simp; exact Eq.trans (show s2.store.recs = s1.store.recs from k2 .recs (by decide)) e1.1
  · rw [settle_quiet hw3]; simp; exact Eq.trans (show s2.store.entries = s1.store.entries from k2 .entries (by decide)) e1.2.1
  · intro p hp; rw [settle_quiet hw3]; simp
    rw [show s2.store.holds = _ from k2 .holds (by decide)]; exact e1.2.2 p hp

theorem afterCommit_facts {c : Nat} {x : Ctx} {u : State} (r : Rec) (hc : u.ctx? c = some x) (hw : NoneWaits u) (hr : u.relay.slots = []) :
    Replied x (Reply.withA .done r.stamp) (u.afterCommit x r).relaySettle ∧ Keeps (Part.allBut [.stamps, .entries]) u (u.afterCommit x r).relaySettle := by
  obtain rfl := ctx?_id hc
  unfold State.afterCommit; dsimp only
  have hs : ((u.updCtx x.id (fun y => { y with committed := true, stamp := r.stamp, reply := commitReply r.stamp })).lockLeave (.cmd x.id)).relay.slots = [] := by
    rw [show ∀ (v : State) a, (v.lockLeave a).relay = v.relay from fun _ _ => rfl]; exact hr
  rw [hs]; simp only [List.any_nil, Bool.false_and, Bool.false_eq_true, if_false]
  generalize hs1 : (u.updCtx x.id (fun y => { y with committed := true, stamp := r.stamp, reply := commitReply r.stamp })).lockLeave (.cmd x.id) = s1 at *
  have h1 : s1.ctx? x.id = some { x with committed := true, stamp := r.stamp, reply := commitReply r.stamp } := by
    rw [← hs1]; exact ctx?_updCtx (s := u) (f := fun y => { y with committed := true, stamp := r.stamp, reply := commitReply r.stamp }) hc rfl
  have hw1 : NoneWaits s1 := by
    rw [← hs1]; intro y hy
    simp only [State.lockLeave, State.updCtx, State.withCtxs, upd, List.mem_map] at hy
    obtain ⟨z, hz, rfl⟩ := hy
    split <;> exact hw z hz
  have hn : NoneStuck (s1.endCmd x.id (commitReply r.stamp)) := by
    intro q hq; have := (endCmd_relay s1 x.id (commitReply r.stamp)).1 q hq; rw [hs] at this; cases this
  rw [relaySettle_quiet hn (hw1.endCmd _ _)]
  refine ⟨(endCmd_replied (commitReply r.stamp) h1).watch, ?_⟩
  have k1 : Keeps (Part.allBut [.stamps, .entries]) u s1 := by rw [← hs1]; intro p hp; cases p <;> first | rfl | (exact absurd (by decide) hp)
  refine k1.trans (Keeps.trans ((endCmd_frame _ _ _).mono (by decide)) ((watch_frame _).mono (by decide)))

theorem finalRec_stamp (s : State) (x : Ctx) (n : Nat) : (s.finalRec x n).stamp = n ∧ (s.finalRec x n).kind = (s.draft x).kind := by
  unfold State.finalRec; dsimp only; split
  · split <;> exact ⟨rfl, rfl⟩
  · exact ⟨rfl, rfl⟩

theorem setEntry_mem (s : State) (e : Entry) : e ∈ (s.setEntry e).store.entries := by
  unfold State.setEntry; dsimp only
  rw [show ∀ (u : State) a, (u.dirtyChunk a).store.entries = u.store.entries from fun u a => by simp]; dsimp only
  split
  · rename_i h; rw [List.any_eq_true] at h; obtain ⟨z, hz, hq⟩ := h
    unfold upd; rw [List.mem_map]; exact ⟨z, hz, by rw [if_pos hq]⟩
  · simp

theorem commitReplace_entry (s : State) (x : Ctx) (r : Rec) (place : Place) (es : List Entry) (hop : x.opcode = 0x02 ∨ x.opcode = 0x04) (hk : r.kind ≠ 4) :
    ∃ e ∈ (s.commitReplace x r place es).store.entries, e.keyspace = x.keyspace ∧ e.fp = x.fp ∧ e.key = x.key ∧ e.newest.stamp = r.stamp ∧ e.newest.tomb = decide (x.opcode = 0x04) := by
  unfold State.commitReplace; dsimp only
  rw [if_neg (by rcases hop with e | e <;> rw [e] <;> decide)]
  generalize hm : s.newMatch x r.loc r.stamp false = m
  have e1 : m.stamp = r.stamp ∧ m.tomb = decide (x.opcode = 0x04) := by
    rw [← hm]; unfold State.newMatch; rw [if_neg (by rcases hop with e | e <;> rw [e] <;> decide)]
    refine ⟨rfl, ?_⟩; exact Bool.beq_eq_decide_eq _ _
  refine ⟨{ keyspace := x.keyspace, fp := x.fp, key := x.key, newest := m, older := [], pinned := x.pin && s.pinRoom x.fp, place := place }, ?_, rfl, rfl, rfl, e1.1, e1.2⟩
  have hk' : (r.kind == 4) = false := by simpa using hk
  simp only [hk', Bool.false_eq_true, if_false, Bool.not_false, Bool.true_and]
  (repeat' split) <;> (simp [State.markStale]; exact setEntry_mem _ _)

theorem mainOff_facts (s : State) : s.mainOff.modes = { s.modes with flush := none } ∧ s.mainOff.supply.mainOn = false ∧ s.mainOff.supply.armed = s.supply.armed
    ∧ s.mainOff.cipher.kek = none ∧ s.mainOff.store.recs = s.store.recs ∧ s.mainOff.holdup.runs = s.holdup.runs := by
  unfold State.mainOff; dsimp only
  have kd := dropAll_frame s 2
  refine ⟨?_, rfl, ?_, rfl, ?_, ?_⟩
  · show ({ (s.dropAll 2).modes with flush := none } : ModeState) = _; rw [show (s.dropAll 2).modes = s.modes from kd .modes (by decide)]
  · show (s.dropAll 2).supply.armed = _; rw [show (s.dropAll 2).supply = s.supply from kd .supply (by decide)]
  · show (s.dropAll 2).store.recs = _; exact kd .recs (by decide)
  · show (s.dropAll 2).holdup.runs = _; rw [show (s.dropAll 2).holdup = s.holdup from kd .holdup (by decide)]

theorem finishFlush_facts (s : State) (f : Flush) (n : Nat) : (s.finishFlush f n).modes.mode = .dormant ∧ (s.finishFlush f n).supply.mainOn = false
    ∧ (s.finishFlush f n).supply.armed = s.supply.armed ∧ (s.finishFlush f n).modes.flush = none ∧ (s.finishFlush f n).cipher.kek = none ∧ (s.finishFlush f n).store.recs = s.store.recs
    ∧ (s.finishFlush f n).modes.markFound = some (n == 5) ∧ (s.finishFlush f n).holdup.runs = if f.waltz then s.holdup.runs + 1 else s.holdup.runs := by
  have hrm : ∃ r, s.recordMode = { s with modes := { s.modes with recorded := r } } := by
    unfold State.recordMode; split <;> exact ⟨_, rfl⟩
  obtain ⟨r, hr⟩ := hrm
  have key : ∀ u : State, u.modes.markFound = some (n == 5) → u.supply = s.supply → u.store.recs = s.store.recs → (u.holdup.runs = if f.waltz then s.holdup.runs + 1 else s.holdup.runs) →
      (u.changeMode .dormant).mainOff.saveSettings.modes.mode = .dormant ∧ (u.changeMode .dormant).mainOff.saveSettings.supply.mainOn = false
    ∧ (u.changeMode .dormant).mainOff.saveSettings.supply.armed = s.supply.armed ∧ (u.changeMode .dormant).mainOff.saveSettings.modes.flush = none ∧ (u.changeMode .dormant).mainOff.saveSettings.cipher.kek = none
    ∧ (u.changeMode .dormant).mainOff.saveSettings.store.recs = s.store.recs ∧ (u.changeMode .dormant).mainOff.saveSettings.modes.markFound = some (n == 5)
    ∧ (u.changeMode .dormant).mainOff.saveSettings.holdup.runs = if f.waltz then s.holdup.runs + 1 else s.holdup.runs := by
    intro u h1 h2 h3 h4
    have kc := changeMode_frame u .dormant
    have hm : (u.changeMode .dormant).modes = { u.modes with mode := .dormant } := changeMode_modes _ _
    have e1 : (u.changeMode .dormant).supply = u.supply := kc .supply (by decide)
    have e2 : (u.changeMode .dormant).store.recs = u.store.recs := kc .recs (by decide)
    have e3 : (u.changeMode .dormant).holdup = u.holdup := kc .holdup (by decide)
    generalize u.changeMode .dormant = v at *
    obtain ⟨m1, m2, m3, m4, m5, m6⟩ := mainOff_facts v
    have hv : v.mainOff.saveSettings.modes = v.mainOff.modes ∧ v.mainOff.saveSettings.supply = v.mainOff.supply ∧ v.mainOff.saveSettings.cipher = v.mainOff.cipher
        ∧ v.mainOff.saveSettings.store = v.mainOff.store ∧ v.mainOff.saveSettings.holdup = v.mainOff.holdup := ⟨rfl, rfl, rfl, rfl, rfl⟩
    obtain ⟨w1, w2, w3, w4, w5⟩ := hv
    rw [w1, w2, w3, w4, w5, m1, m2, m3, m4, m5, m6, hm, e1, e2, e3, h2, h3, h4]; exact ⟨rfl, rfl, rfl, rfl, rfl, rfl, h1, rfl⟩
  unfold State.finishFlush; dsimp only
  rw [hr]; dsimp only
  split
  · refine key _ rfl rfl rfl ?_
    dsimp only; split <;> rfl
  · refine key _ rfl rfl rfl ?_
    show ((if f.waltz = true then _ else _) : Holdup).runs = _
    split <;> rfl

theorem phaseDone_keeps0 (s : State) (f : Flush) : (s.phaseDone f).1.supply = s.supply ∧ (s.phaseDone f).1.store.recs = s.store.recs ∧ (s.phaseDone f).2.phase = f.phase + 1
    ∧ (s.phaseDone f).2.energyCj = f.energyCj ∧ (s.phaseDone f).1.modes = s.modes := by
  have hwc : s.writeChunks.supply = s.supply ∧ s.writeChunks.store.recs = s.store.recs ∧ s.writeChunks.modes = s.modes := by
    have := writeChunks_frame s
    exact ⟨this .supply (by decide), this .recs (by decide), this .modes (by decide)⟩
  unfold State.phaseDone; dsimp only
  (repeat' split) <;> first | exact ⟨rfl, rfl, rfl, rfl, rfl⟩ | exact ⟨hwc.1, hwc.2.1, rfl, rfl, hwc.2.2⟩

theorem endAll_relay (s : State) (p : Ctx → Bool) (st : Status) : (s.endAll p st).relay.pairs = s.relay.pairs ∧ (s.endAll p st).relay.map = s.relay.map := by
  unfold State.endAll
  exact ⟨foldl_keep (fun u : State => u.relay.pairs) _ (fun u (b : Ctx) => (endCmd_relay u b.id (Reply.plain st)).2.1) _ _, foldl_keep (fun u : State => u.relay.map) _ (fun u (b : Ctx) => (endCmd_relay u b.id (Reply.plain st)).2.2) _ _⟩

theorem endForMode_relay (s : State) (m : Mode) : (s.endForMode m).relay.pairs = s.relay.pairs ∧ (s.endForMode m).relay.map = s.relay.map := by
  unfold State.endForMode; dsimp only; split
  · exact endAll_relay _ _ _
  · exact endAll_relay _ _ _
  · rw [show ∀ (u : State) q r, (u.closeSieves q r).relay = u.relay from fun u q r => closeSieves_frame u q r .relay (by decide)]; exact endAll_relay _ _ _
  · exact ⟨rfl, rfl⟩

theorem changeMode_relay (s : State) (m : Mode) : (s.changeMode m).relay.pairs = s.relay.pairs ∧ (s.changeMode m).relay.map = s.relay.map := by
  unfold State.changeMode; dsimp only
  split
  · exact ⟨rfl, rfl⟩
  · have e : ∀ (u : State) (p : Prop) [Decidable p], (if p then u.shallower 0 else u).relay = u.relay := by intro u p _; split <;> simp
    rw [show ∀ (u : State) a l, ((u.alert a).console l).relay = u.relay from fun u a l => by simp]
    rw [show ∀ (u : State) a b c d e, (u.broadcast a b c d e).relay = u.relay from fun u a b c d e => by simp, e]
    exact endForMode_relay s m

theorem wipe_facts (s : State) (n : Nat) : (s.wipe n).modes = { s.modes with sanitisePct := 100 } ∧ (s.wipe n).store.stamps = s.store.stamps ∧ (s.wipe n).store.recs = [] ∧ (s.wipe n).store.entries = []
    ∧ (s.wipe n).relay.map = none ∧ (s.wipe n).relay.pairs = [] := by
  unfold State.wipe; dsimp only
  refine ⟨?_, ?_, rfl, rfl, rfl, rfl⟩
  · rw [foldl_keep (fun u : State => u.modes) State.eraseDone (fun u b => by simp)]
  · rw [foldl_keep (fun u : State => u.store.stamps) State.eraseDone (fun u b => by simp)]

theorem resetVars_facts (s : State) : ∀ p : Part, p ∈ [Part.modes, .stamps, .recs, .entries, .relay] → Same s s.resetVars p := by
  intro p hp
  have := resetVars_frame s
  simp at hp
  rcases hp with rfl | rfl | rfl | rfl | rfl
  · exact this .modes (by decide)
  · exact this .stamps (by decide)
  · exact this .recs (by decide)
  · exact this .entries (by decide)
  · exact this .relay (by decide)

end Sys2Proof.Machine
end

