-- ==== Sys2Proof/Laws/Lines.lean ====
section
/-! SUPPORT. Lines between slices and homes. -/

set_option Elab.async false

set_option linter.unusedSimpArgs false

namespace Sys2Proof.Machine

theorem fill_mem (c : Coherence) (a b : Nat) (x : Bool) : ∃ l ∈ (c.fill a b x).lines, l.slice = a ∧ l.bucket = b ∧ l.st = (if x then .e else .s) ∧ l.ver = c.dramVer b := by
  unfold Coherence.fill; dsimp only
  refine ⟨_, List.mem_append_right _ (List.mem_singleton.mpr rfl), rfl, rfl, ?_, ?_⟩
  · cases x <;> rfl
  · dsimp only; split
    · rfl
    · split
      · rename_i l _; unfold Coherence.giveUp; dsimp only; split <;> rfl
      · rfl

theorem giveUp_rest (c : Coherence) (l : Line) : (c.giveUp l).filter = c.filter ∧ (c.giveUp l).txs = c.txs ∧ (c.giveUp l).dram = c.dram := by
  unfold Coherence.giveUp; dsimp only; split <;> exact ⟨rfl, rfl, rfl⟩

theorem fill_rest (c : Coherence) (a b : Nat) (x : Bool) : (c.fill a b x).filter = c.filter ∧ (c.fill a b x).txs = c.txs ∧ (c.fill a b x).dram = c.dram := by
  unfold Coherence.fill; dsimp only
  split
  · exact ⟨rfl, rfl, rfl⟩
  · split
    · rename_i l _; exact giveUp_rest _ l
    · exact ⟨rfl, rfl, rfl⟩

theorem holders_set (c : Coherence) (b : Nat) (hs : List Nat) (o : Option Nat) (h : hs ≠ []) : (c.setHolders b hs o).holders b = (hs, o) := by
  unfold Coherence.setHolders Coherence.holders; dsimp only
  rw [if_neg (by simpa using h)]; simp

theorem holders_not (c : Coherence) (b a : Nat) (hs : List Nat) (o : Option Nat) (h : a ∉ hs) : a ∉ ((c.setHolders b hs o).holders b).1 := by
  by_cases e : hs = []
  · subst e; unfold Coherence.setHolders Coherence.holders; dsimp only
    simp only [List.isEmpty_nil, if_true]
    rw [List.find?_eq_none.mpr (by intro x hx; simp at hx; simpa using hx.2)]; simp
  · rw [holders_set _ _ _ _ e]; exact h

theorem holders_of {c d : Coherence} (h : c.filter = d.filter) (b : Nat) : c.holders b = d.holders b := by unfold Coherence.holders; rw [h]

theorem run_nil (n : Nat) (c : Coherence) (h : c.txs = []) : c.run n = c := by
  cases n with
  | zero => rfl
  | succ n => unfold Coherence.run Coherence.oldest; rw [h]; rfl

theorem finish_facts (c : Coherence) (x : HomeTx) (h : c.txs = [x]) (hx : x.slice < 16) : (c.finish x).txs = []
    ∧ (∃ l ∈ (c.finish x).lines, l.slice = x.slice ∧ l.bucket = x.bucket ∧ l.st = (if x.excl then .e else .s) ∧ l.ver = c.dramVer x.bucket)
    ∧ (c.finish x).dram = c.dram ∧ (c.finish x).holders x.bucket = (if x.excl then ([x.slice], some x.slice) else (x.slice :: (c.holders x.bucket).1.filter (· != x.slice), none)) := by
  unfold Coherence.finish; dsimp only
  rw [if_neg (by simp; omega)]
  split
  · rename_i he
    refine ⟨?_, ?_, ?_, ?_⟩
    · rw [(fill_rest _ _ _ _).2.1]; simp [Coherence.setHolders, h]
    · obtain ⟨l, hl, e1, e2, e3, e4⟩ := fill_mem (Coherence.setHolders { c with txs := c.txs.filter (fun u => u != x) } x.bucket [x.slice] (some x.slice)) x.slice x.bucket x.excl
      exact ⟨l, hl, e1, e2, by rw [e3, he]; rfl, e4⟩
    · rw [(fill_rest _ _ _ _).2.2]; rfl
    · rw [holders_of (fill_rest _ _ _ _).1, holders_set _ _ _ _ (by simp)]
  · rename_i he
    refine ⟨?_, ?_, ?_, ?_⟩
    · rw [(fill_rest _ _ _ _).2.1]; simp [Coherence.setHolders, h]
    · obtain ⟨l, hl, e1, e2, e3, e4⟩ := fill_mem (Coherence.setHolders { c with txs := c.txs.filter (fun u => u != x) } x.bucket (x.slice :: ((Coherence.holders { c with txs := c.txs.filter (fun u => u != x) } x.bucket).1.filter (· != x.slice))) none) x.slice x.bucket x.excl
      exact ⟨l, hl, e1, e2, by rw [e3, if_neg he], e4⟩
    · rw [(fill_rest _ _ _ _).2.2]; rfl
    · rw [holders_of (fill_rest _ _ _ _).1, holders_set _ _ _ _ (by simp)]; rfl

theorem line?_without (c d : Coherence) (a b : Nat) (h : d.lines = c.without a b) : d.line? a b = none := by
  unfold Coherence.line?; rw [h]; unfold Coherence.without
  rw [List.find?_eq_none]; intro x hx; simp at hx ⊢; intro h1 h2; rcases hx.2 with h | h; exact h h1; exact h h2

theorem coh_keeps (s : State) (c : Coherence) : Keeps [.coh] s { s with coh := c } := by intro p hp; cases p <;> first | rfl | (exact absurd (by decide) hp)

theorem run_start (n : Nat) (c : Coherence) (x : HomeTx) (h : c.txs = [x]) (ha : x.active = false) (hr : ∀ r ∈ c.repairs, r.1 ≠ x.bucket) :
    c.run (n + 1) = (c.start x).run n := by
  rw [Coherence.run, show c.txs.find? (fun t => t.active && t.snoops.isEmpty && t.owner.isNone) = none by rw [h]; simp [ha]]
  dsimp only
  have e : c.oldest = some x := by
    unfold Coherence.oldest; rw [h]
    have : c.repairs.any (fun r => r.1 == x.bucket) = false := by rw [List.any_eq_false]; intro r hr'; simpa using hr r hr'
    simp [ha, this]
  rw [e]

theorem run_finish (n : Nat) (c : Coherence) (x : HomeTx) (h : c.txs = [x]) (ha : x.active = true) (hs : x.snoops = []) (ho : x.owner = none) (hx : x.slice < 16) : c.run (n + 1) = c.finish x := by
  rw [Coherence.run, show c.txs.find? (fun t => t.active && t.snoops.isEmpty && t.owner.isNone) = some x by rw [h]; simp [ha, hs, ho]]
  dsimp only; exact run_nil _ _ (finish_facts c x h hx).1

theorem run_stuck (n : Nat) (c : Coherence) (x : HomeTx) (h : c.txs = [x]) (ha : x.active = true) (hs : x.snoops ≠ [] ∨ x.owner ≠ none) : c.run n = c := by
  cases n with
  | zero => rfl
  | succ n =>
    rw [Coherence.run, show c.txs.find? (fun t => t.active && t.snoops.isEmpty && t.owner.isNone) = none by rw [h]; simp [ha]; intro e; rcases hs with h1 | h1; exact absurd e h1; exact h1]
    dsimp only
    have e : c.oldest = none := by unfold Coherence.oldest; rw [h]; simp [ha]
    rw [e]

theorem start_facts (c : Coherence) (x : HomeTx) (h : c.txs = [x]) (hf : (c.filter.filter (fun g => homeOf g.1 == homeOf x.bucket)).length < 8192) :
    c.start x = { c with txs := [{ x with active := true, snoops := (if x.excl then (c.holders x.bucket).1.filter (· != x.slice) else (c.holders x.bucket).2.toList.filter (· != x.slice)), owner := none }],
                         snooped := c.snooped ++ (if x.excl then (c.holders x.bucket).1.filter (· != x.slice) else (c.holders x.bucket).2.toList.filter (· != x.slice)).map (fun h => (h, x.bucket, x.excl)) } := by
  unfold Coherence.start; dsimp only
  rw [if_neg (by simp; intro _ _; omega), h]; simp [upd]

theorem request_run (a b : Nat) (x : Bool) (s : State) (ha : a < 16) (h1 : s.coh.txs = []) (h4 : s.coh.line? a b = none) :
    s.request a b x = s.homes { s.coh with lines := s.coh.lines ++ [{ slice := a, bucket := b, st := if x then .wantE else .wantS, ver := 0 }], txs := [{ bucket := b, slice := a, excl := x, age := s.clock, active := false, snoops := [], owner := none }] } := by
  unfold State.request; dsimp only
  rw [h1, h4]; simp [ha]

end Sys2Proof.Machine
end

