-- ==== Sys2Proof/Laws/Background.lean ====
section
/-! SUPPORT. Work in the background. -/

set_option Elab.async false

set_option linter.unusedSimpArgs false

namespace Sys2Proof.Machine

theorem upd_same {α : Type} (p : α → Bool) (f : α → α) (hf : ∀ a, p (f a) = p a) (l : List α) (a : α) (h : l.find? p = some a) : (upd p f l).find? p = some (f a) := by
  rw [find?_upd p f hf, h]; rfl

theorem group?_upd (s : State) (n : Nat) (f : Group → Group) (g : Group) (hf : ∀ g, (f g).num = g.num) (h : s.group? n = some g) : (s.updGroup n f).group? n = some (f g) := by
  unfold State.updGroup State.group?; exact upd_same (fun x : Group => x.num == n) f (fun a => by rw [hf]) s.store.groups g h

theorem group?_of {s t : State} (h : t.store.groups = s.store.groups) (n : Nat) : t.group? n = s.group? n := by unfold State.group?; rw [h]

theorem gcFold {s u : State} {o : Nat} (h3 : s.capacityOwners = [o]) (hg : s.gcOwner o = u) (hf : u.foldOwner o = u) :
    s.capacityOwners.foldl (fun t o => (t.gcOwner o).foldOwner o) s = u := by
  rw [h3, List.foldl_cons, List.foldl_nil, hg, hf]

end Sys2Proof.Machine
end

