-- ==== Sys2Proof/Laws/Sparing.lean ====
section
/-! SUPPORT. Spares that take over. -/

set_option Elab.async false

set_option linter.unusedSimpArgs false

namespace Sys2Proof.Machine

theorem selftestFault_not {s : State} (h : s.fw.act ≠ 5) : s.selftestFault = s := by unfold State.selftestFault; rw [if_neg (by simpa using h)]

theorem spareNotice_keeps0 (s : State) (a b : Nat) : Keeps (.sb :: noteParts) s (s.spareNotice a b) := by
  unfold State.spareNotice
  exact Keeps.trans ((broadcast_keeps0 _ _ _ _ _ _).mono (by decide)) (by intro p hp; cases p <;> first | rfl | (exact absurd (by decide) hp))

theorem bringIn_facts (s : State) (role cls sp : Nat) : (s.bringIn role cls sp).holder role = sp ∧ sp ∉ (s.bringIn role cls sp).spares.unused
    ∧ (s.bringIn role cls sp).spares.retired = s.spares.retired ++ [s.holder role] ∧ (s.bringIn role cls sp).counts = s.counts ∧ (s.bringIn role cls sp).modes = s.modes
    ∧ (s.bringIn role cls sp).net.ctxs = s.net.ctxs ∧ (s.bringIn role cls sp).relay = s.relay ∧ (s.bringIn role cls sp).fw = s.fw := by
  unfold State.bringIn; dsimp only
  have k := spareNotice_keeps0 { s with spares := { s.spares with roles := setKey s.spares.roles role sp, unused := s.spares.unused.filter (· != sp), retired := s.spares.retired ++ [s.holder role] } } cls sp
  generalize State.spareNotice _ cls sp = t at *
  have h1 : t.spares = _ := k .spares (by decide)
  refine ⟨?_, ?_, ?_, k .counts (by decide), k .modes (by decide), k .ctxs (by decide), k .relay (by decide), k .fw (by decide)⟩
  · unfold State.holder; rw [h1]; exact getKey_set _ _ _
  · rw [h1]; simp
  · rw [h1]

theorem freeze_mode' (s : State) (f : FreezeCause) (h : s.modes.mode = .serving ∨ s.modes.mode = .shadowing) : (s.freeze f).modes.mode = .frozen ∧ (s.freeze f).modes.frozenFrom = some s.modes.mode
    ∧ (s.freeze f).modes.freezeCauses = s.modes.freezeCauses ||| f.word := by rw [freeze_modes s f h]; exact ⟨rfl, rfl, rfl⟩

theorem logEvent_nextEv (s : State) (a : Nat) (b : Bytes) : (s.logEvent a b).logs.nextEv = s.logs.nextEv + 1 := by
  unfold State.logEvent; dsimp only; simp

theorem sparesOf_of {s t : State} (h : t.spares = s.spares) (c : Nat × Nat × Nat × List Nat) : t.sparesOf c = s.sparesOf c := by unfold State.sparesOf; rw [h]

theorem failIsland_class {s : State} {n role : Nat} {c : Nat × Nat × Nat × List Nat} (h2 : n ∉ s.spares.retired) (h3 : n ≤ 262) (h4 : s.roleOf n = some role) (h5 : role ≤ 41) (h6 : classOf role = some c) :
    s.failIsland n [] = ({ s with counts := { s.counts with islandsFailed := s.counts.islandsFailed + 1 } } : State).failClass c role := by
  unfold State.failIsland; rw [if_neg (by simp [h2]; omega)]; simp only [List.foldl_nil]
  rw [show State.roleOf { s with counts := { s.counts with islandsFailed := s.counts.islandsFailed + 1 } } n = s.roleOf n from rfl, h4]; simp only [h6]

theorem failWork_low (u : State) {role : Nat} (h5 : role ≤ 41) : u.failWork role = u := by
  unfold State.failWork; rw [if_neg (by simp; omega), if_neg (by simp; omega), if_neg (by simp; omega)]

theorem failClass_spare {u : State} {role sp : Nat} {c : Nat × Nat × Nat × List Nat} (h5 : role ≤ 41) (h7 : (u.sparesOf c).head? = some sp) : u.failClass c role = u.bringIn role c.1 sp := by
  unfold State.failClass; dsimp only; rw [failWork_low _ h5, h7]

theorem failClass_none {u : State} {role : Nat} {c : Nat × Nat × Nat × List Nat} (h5 : role ≤ 41) (h7 : (u.sparesOf c).head? = none) (hc : c.1 ≤ 7) : u.failClass c role = (u.loseRole role).freeze .spareIsland := by
  unfold State.failClass; dsimp only; rw [failWork_low _ h5, h7]; dsimp only; unfold State.noSpare; dsimp only; rw [if_pos hc]

end Sys2Proof.Machine
end

