-- ==== Sys2Proof/Laws/Memories.lean ====
section
/-! SUPPORT. Memory errors and the progress monitor. -/

set_option Elab.async false

set_option linter.unusedSimpArgs false

namespace Sys2Proof.Machine

theorem ueRecord_counts (s : State) (n m o a : Nat) (b sr : Bool) : (s.ueRecord n m o a b sr).counts = { s.counts with lastUeIsland := n, sramUe := s.counts.sramUe + b1 sr, dramUe := s.counts.dramUe + b1 (!sr) } := by
  unfold State.ueRecord; simp

theorem ueRecord_nextEv (s : State) (n m o a : Nat) (b sr : Bool) : (s.ueRecord n m o a b sr).logs.nextEv = s.logs.nextEv + 1 := by
  unfold State.ueRecord; rw [logEvent_nextEv]

/-- What UE_FOUND records before the site is handled. -/
theorem ueFound_run (n q a r : Nat) (f : Bool) (w : UeWhere) (s : State) (hm : s.supply.mainOn = true) (hw : ∀ h, w ≠ .islandState h) :
    ∃ u : State, exec (.ueFound n q a r f w) s = .next (u.ueEffect n r (s.policyB q) w).relaySettle ∧ Keeps [.counts, .logs, .dbg] s u
      ∧ u.counts = { s.counts with lastUeIsland := n, sramUe := s.counts.sramUe + b1 (inSram w), dramUe := s.counts.dramUe + b1 (!inSram w), dmaHalts := s.counts.dmaHalts + b1 (!s.policyB q), busErrors := s.counts.busErrors + b1 (s.policyB q) }
      ∧ u.logs.nextEv = s.logs.nextEv + 1 := by
  have hs : (match w with | .islandState _ => true | _ => false) = false := by cases w <;> first | rfl | (rename_i h; exact absurd rfl (hw h))
  let s1 := s.ueRecord n (ueMemory f w) (s.ueOutcome n (s.policyB q && !(match w with | .islandState _ => true | _ => false)) w) a (s.policyB q && !(match w with | .islandState _ => true | _ => false)) (inSram w)
  have e : exec (.ueFound n q a r f w) s = .next (({ s1 with counts := { s1.counts with dmaHalts := s1.counts.dmaHalts + b1 (!s.policyB q), busErrors := s1.counts.busErrors + b1 (s.policyB q) } } : State).ueEffect n r (s.policyB q) w).relaySettle := by
    show execUeFound n q a r f w s = _
    unfold execUeFound; rw [if_neg (by rw [hm]; decide)]
    dsimp only; simp only [hs, Bool.not_false, Bool.and_true, s1]
  refine ⟨_, e, ?_, ?_, ?_⟩
  · exact Keeps.trans (t := s1) ((ueRecord_frame _ _ _ _ _ _ _).mono (by decide)) (by intro p hp; cases p <;> first | rfl | (exact absurd (by decide) hp))
  · dsimp only [s1]; rw [ueRecord_counts]
  · exact ueRecord_nextEv _ _ _ _ _ _ _

theorem spareRow_room (s : State) (ch row cause : Nat) (h : s.rowsUsedOn ch < 511) : ∃ u : State, s.spareRow ch row cause = u ∧ Keeps [.spares, .logs, .dbg] s u ∧ u.spares.sparedRows = s.spares.sparedRows ++ [(ch, row)]
    ∧ u.rowsUsedOn ch = s.rowsUsedOn ch + 1 ∧ u.spares.ceCounts = s.spares.ceCounts ∧ u.spares.retired = s.spares.retired ∧ u.spares.ceRows = s.spares.ceRows.filter (fun c => c.1 != (ch, row)) := by
  let s1 : State := { s with spares := { s.spares with rowsUsed := setKey s.spares.rowsUsed ch (s.rowsUsedOn ch + 1), sparedRows := s.spares.sparedRows ++ [(ch, row)], ceRows := s.spares.ceRows.filter (fun c => c.1 != (ch, row)) } }
  refine ⟨s1.logEvent 0x0A03 (pack [(8, ch), (24, row), (8, cause), (16, 511 - s.rowsUsedOn ch), (200, 0)]), ?_, ?_, ?_, ?_, ?_, ?_, ?_⟩
  · unfold State.spareRow; dsimp only; rw [if_neg (by omega), if_neg (by simp; omega)]
  · exact Keeps.trans (t := s1) (by intro p hp; cases p <;> first | rfl | (exact absurd (by decide) hp)) ((logEvent_frame _ _ _).mono (by decide))
  · simp [s1]
  · unfold State.rowsUsedOn; simp [s1]; exact getKey_set _ _ _
  · simp [s1]
  · simp [s1]
  · simp [s1]

theorem deviceEnd_replied {s : State} {c : Nat} {x : Ctx} (h : s.ctx? c = some x) (hc : x.committed = false) : s.deviceEnd c = s.endStatus c .deviceFault := by
  unfold State.deviceEnd; rw [h]; dsimp only; rw [if_neg (by rw [hc]; decide)]

theorem quiet_settle {u : State} {c : Nat} {x : Ctx} (r : Reply) (hc : u.ctx? c = some x) (hw : NoneWaits u) (hn : NoneStuck u) : Replied x r (u.endCmd c r).relaySettle := by
  rw [relaySettle_quiet (hn.sub (endCmd_relay u c r).1) (hw.endCmd c r)]
  exact (endCmd_replied r hc).watch

theorem codeTrap_first (n a : Nat) (held : List Nat) (s : State) (hm : s.supply.mainOn = true) (h1 : n ∉ s.spares.retired) (h2 : n ≤ 262) (h3 : n ≠ 243) (h4 : n < 233 ∨ 242 < n) (h5 : s.fw.act ≠ 5)
    (h6 : ∀ x ∈ s.spares.traps, x.1 = (n, a) → x.2 + sec 1 ≤ s.clock) : ∃ w : State, exec (.codeTrap n a held) s = .next w ∧ w.net = s.net ∧ w.counts.codeTraps = s.counts.codeTraps + 1
      ∧ w.counts.sramUe = s.counts.sramUe + 1 ∧ ((n, a), s.clock) ∈ w.spares.traps ∧ getKey w.spares.trapped n 0 = s.clock ∧ w.spares.retired = s.spares.retired := by
  have hin : s.inActive n = false := by unfold State.inActive; split <;> simp <;> omega
  have ha : s.spares.traps.any (fun t => t.1 == (n, a) && s.clock < t.2 + sec 1) = false := by
    rw [List.any_eq_false]; intro x hx; simp; intro e; exact h6 x hx e
  let s1 : State := { s with counts := { s.counts with codeTraps := s.counts.codeTraps + 1 } }
  let s2 := s1.ueRecord n 1 1 a false true
  have k2 : Keeps [.counts, .logs, .dbg] s s2 := Keeps.trans (t := s1) (by intro p hp; cases p <;> first | rfl | (exact absurd (by decide) hp)) (ueRecord_frame _ _ _ _ _ _ _)
  let s4 : State := { s2 with spares := { s2.spares with traps := ((n, a), s.clock) :: s2.spares.traps.filter (fun t => t.1 != (n, a)), trapped := setKey s2.spares.trapped n s.clock } }
  have hfw : s4.fw = s.fw := k2 .fw (by decide)
  have hst : State.inStandby { s2 with spares := { s2.spares with traps := ((n, a), s.clock) :: s2.spares.traps.filter (fun t => t.1 != (n, a)) } } n = false := by
    unfold State.inStandby; simp; omega
  have hst' : s.inStandby n = false := by unfold State.inStandby; simp; omega
  have hclk : s2.clock = s.clock := k2 .clock (by decide)
  have e : exec (.codeTrap n a held) s = .next s4 := by
    show execCodeTrap n a held s = _
    unfold execCodeTrap; rw [if_neg (by simp [hm, h1]; omega)]; dsimp only
    rw [hin, ha, show (n == 243) = false by simpa using h3, hst']
    simp only [Bool.false_or, Bool.false_eq_true, if_false, Bool.false_and]
    have : s4.selftestFault = s4 := selftestFault_not (by rw [hfw]; exact h5)
    refine Eq.trans ?_ (congrArg Host.Outcome.next this)
    simp only [s4, s2, s1] at hclk ⊢
  refine ⟨s4, e, ?_, ?_, ?_, ?_, ?_, ?_⟩
  · show s2.net = _; simp [s2, s1]
  · show s2.counts.codeTraps = _; simp only [s2]; rw [ueRecord_counts]
  · show s2.counts.sramUe = _; simp only [s2]; rw [ueRecord_counts]; rfl
  · exact List.mem_cons_self
  · exact getKey_set _ _ _
  · show s2.spares.retired = _; rw [show s2.spares = s.spares from k2 .spares (by decide)]

end Sys2Proof.Machine
end

