-- ==== Sys2Proof/Laws/Heat.lean ====
section
/-! SUPPORT. Heat and the hold-up bank. -/

set_option Elab.async false

set_option linter.unusedSimpArgs false

namespace Sys2Proof.Machine

theorem throttle_to (u : State) (n : Nat) (h : u.nextStage = n) (hn : n ≠ u.thermal.stage) (h2 : u.thermal.stage ≠ 2) : u.throttle.thermal = { u.thermal with stage := n } ∧ u.throttle.modes = u.modes
    ∧ (n ≠ 2 → u.throttle.logs.nextEv = u.logs.nextEv + 1) := by
  unfold State.throttle; dsimp only; rw [h, if_neg (by simpa using hn)]
  split
  · rename_i h3; refine ⟨?_, ?_, fun e => absurd (by simpa using h3) e⟩
    · rw [show ∀ v : State, v.startExit.thermal = v.thermal from fun v => by simp]; show (State.logEvent _ _ _).thermal = _; simp [State.settleScan]
    · rw [show ∀ v : State, v.startExit.modes = v.modes from fun v => by simp]; show (State.logEvent _ _ _).modes = _; simp [State.settleScan]
  · rw [if_neg (by simpa using h2)]
    exact ⟨by show (State.logEvent _ _ _).thermal = _; simp [State.settleScan], by show (State.logEvent _ _ _).modes = _; simp [State.settleScan], fun _ => logEvent_nextEv _ _ _⟩

theorem throttle_same (u : State) (h : u.nextStage = u.thermal.stage) : u.throttle = u := by unfold State.throttle; dsimp only; rw [if_pos (by simpa using h)]

theorem reached_iff (s : State) (r : List Int) (k : Nat) (hf : s.sb.failed = []) (hr : s.thermal.readings = r) : s.stageReached k = true ↔ ∃ l ∈ stageLimits, (if k ≤ 1 then l.2.1 else l.2.2) ≤ r.getD l.1 0 := by
  unfold State.stageReached State.stageReading limitOf
  rw [hf, hr]; simp [List.any_eq_true]

end Sys2Proof.Machine
end

