-- ==== Sys2Proof/Laws/Images.lean ====
section
/-! SUPPORT. Firmware images and handovers. -/

set_option Elab.async false

set_option linter.unusedSimpArgs false

namespace Sys2Proof.Machine

theorem asked {c op : Nat} {x : Ctx} {s : State} (h : s.admin? c op = some x) : s.ctx? c = some x ∧ x.id = c := by
  obtain ⟨hc, -⟩ := admin_ctx h; exact ⟨hc, ctx?_id hc⟩

theorem fwSlot_upd (s : State) (n : Nat) (f : FwSlot → FwSlot) (hn : n < 2) : (s.updFwSlot n f).fwSlot n = f (s.fwSlot n) ∧ (s.updFwSlot n f).fwSlot (1 - n) = s.fwSlot (1 - n) := by
  have : n = 0 ∨ n = 1 := by omega
  rcases this with rfl | rfl <;> exact ⟨rfl, rfl⟩

theorem endCmd_fw' (s : State) (c : Nat) (r : Reply) : (s.endCmd c r).fw = s.fw := by simp

theorem fwState_fw' (s : State) (a b c : Nat) : (s.fwState a b c).fw = s.fw := by simp

theorem fwSlot_of {s t : State} (h : t.fw = s.fw) (n : Nat) : t.fwSlot n = s.fwSlot n := by unfold State.fwSlot; rw [h]

theorem updFwSlot_k (s : State) (n : Nat) (f : FwSlot → FwSlot) : Keeps [.fw] s (s.updFwSlot n f) := by
  unfold State.updFwSlot; split <;> (intro p hp; cases p <;> first | rfl | (exact absurd (by decide) hp))

theorem mainOff_conf (u : State) : u.mainOff.fw.confirmed = u.fw.confirmed := by
  unfold State.mainOff; dsimp only
  rw [show (u.dropAll 2).linksOff.eraseKeys.closeParity.fw = (u.dropAll 2).fw from rfl, show (u.dropAll 2).fw = u.fw from dropAll_frame u 2 .fw (by decide)]

theorem bootImage_active (u : State) : u.bootImage.fw.active = (if u.fw.bootNew then 1 - u.fw.confirmed else u.fw.confirmed) ∧ u.bootImage.fw.bootNew = false ∧ u.bootImage.fw.restarting = false := ⟨rfl, rfl, rfl⟩

theorem bootImage_of {s t : State} (h : t.fw = s.fw) : t.bootImage.fw = s.bootImage.fw := by
  unfold State.bootImage; dsimp only; rw [fwSlot_of h, h]

theorem beginFilling_is (s : State) : ∃ (u : State) (a : Supply) (b : ModeState) (c : Sideband) (l : Bytes), u = s.clearCounts.bootImage ∧ a.mainOn = true ∧ s.beginFilling = (({ u with supply := a, modes := b, sb := c } : State).console l).changeMode .filling :=
  ⟨_, _, _, _, _, rfl, rfl, rfl⟩

theorem beginFilling_facts (s : State) : s.beginFilling.modes.mode = .filling ∧ s.beginFilling.supply.mainOn = true ∧ s.beginFilling.fw = s.bootImage.fw := by
  obtain ⟨u, a, b, c, l, h1, h2, h3⟩ := beginFilling_is s
  rw [h3]; refine ⟨changeMode_mode _ _, ?_, ?_⟩
  · rw [show ∀ u : State, (u.changeMode .filling).supply = u.supply from fun u => changeMode_frame u .filling .supply (by decide), console_supply]; exact h2
  · rw [show ∀ u : State, (u.changeMode .filling).fw = u.fw from fun u => changeMode_frame u .filling .fw (by decide), console_fw]
    show u.fw = _; rw [h1]; exact bootImage_of (s := s) (t := s.clearCounts) (clearCounts_frame s .fw (by decide))

theorem fallback_fw {s : State} (h1 : s.fw.act = 7) (h2 : s.fw.restarting = false) (h3 : s.fw.reload = []) (h4 : s.fw.copying = false) (h5 : s.fw.freeze = none) (h6 : s.fw.active = s.fw.confirmed)
    (h8 : s.modes.mode.service = true) : ∃ t : State, exec .fallbackDone s = .next t ∧ t.fw = { ((s.updFwSlot (1 - s.fw.confirmed) (fun f => { f with st := 3 })).updFwSlot s.fw.confirmed (fun f => { f with st := 4 })).fw with act := 0, fallback := 0, byRestart := false, standbyOld := false, lastReason := s.fw.fallback, fallbacks := s.fw.fallbacks + 1, doneAt := 0 } := by
  let s1 := (s.updFwSlot (1 - s.fw.confirmed) (fun f => { f with st := 3 })).updFwSlot s.fw.confirmed (fun f => { f with st := 4 })
  let s2 : State := { s1 with fw := { s1.fw with act := 0, fallback := 0, byRestart := false, standbyOld := false, lastReason := s.fw.fallback, fallbacks := s.fw.fallbacks + 1 } }
  let s3 := s2.fwState 7 s.fw.fallback s.newVersion
  refine ⟨{ s3 with fw := { s3.fw with doneAt := 0 } }, ?_, ?_⟩
  · show execFallbackDone s = _; unfold execFallbackDone; rw [if_pos (by rw [h1, h2, h3, h4, h5, h6, h8]; simp)]
  · show ({ s3.fw with doneAt := 0 } : Firmware) = _; rw [show s3.fw = s2.fw from fwState_fw' _ _ _ _]

theorem handover_act {h : Nat} {s : State} (hh : s.fw.byRestart = false ∧ (s.fw.act = 3 ∨ (s.fw.act = 7 ∧ s.fw.active ≠ s.fw.confirmed))) (hz : s.fw.freeze = some h) (ha : s.fw.act = 3) :
    ∃ s2 : State, exec .handoverDone s = .next (s2.fwState 3 0 s.newVersion).reloadEnd
      ∧ s2.fw = ((({ s with fw := { s.fw with freeze := none, copying := false, complexB := !s.fw.complexB, lastReload := s.clock, active := 1 - s.fw.confirmed, act := 4, standbyOld := true, reload := (s.fwSlot (1 - s.fw.confirmed)).reloads, reloaded := 0, reloadTotal := (s.fwSlot (1 - s.fw.confirmed)).reloads.length } } : State).updFwSlot (1 - s.fw.confirmed) (fun f => { f with st := 5 })).updFwSlot s.fw.confirmed (fun f => { f with st := 2 })).fw ∧ Keeps [.fw] s s2 := by
  let s1 : State := { s with fw := { s.fw with freeze := none, copying := false, complexB := !s.fw.complexB, lastReload := s.clock, active := 1 - s.fw.confirmed, act := 4, standbyOld := true, reload := (s.fwSlot (1 - s.fw.confirmed)).reloads, reloaded := 0, reloadTotal := (s.fwSlot (1 - s.fw.confirmed)).reloads.length } }
  refine ⟨(s1.updFwSlot (1 - s.fw.confirmed) (fun f => { f with st := 5 })).updFwSlot s.fw.confirmed (fun f => { f with st := 2 }), ?_, rfl, ?_⟩
  · simp only [exec, execHandoverDone]
    rw [if_pos (by rw [show s.handingOver = true by unfold State.handingOver; simp [hh.1, ha], hz]; rfl), if_pos (by rw [ha]; rfl)]
  · exact Keeps.trans (t := s1) (by intro p hp; cases p <;> first | rfl | (exact absurd (by decide) hp)) (Keeps.trans (updFwSlot_k s1 _ _) (updFwSlot_k _ _ _))

theorem handing_iff (s : State) : s.handingOver = true ↔ (s.fw.byRestart = false ∧ (s.fw.act = 3 ∨ (s.fw.act = 7 ∧ s.fw.active ≠ s.fw.confirmed))) := by
  unfold State.handingOver; simp

theorem awaitConfirm_fw (s : State) : s.awaitConfirm.fw = { s.fw with awaitSince := some s.clock, selftested := false, act := 5, selftestS := s.var 0x0C02 } := by
  unfold State.awaitConfirm; rw [fwState_fw']

end Sys2Proof.Machine
end

