-- ==== Sys2Proof/Laws/Mailbox.lean ====
section
/-! SUPPORT. The sideband and the on-module segment. -/

set_option Elab.async false

set_option linter.unusedSimpArgs false

namespace Sys2Proof.Machine

def SbAlert (s t : State) : Prop := ∃ a, t.sb = { s.sb with alertStatus := a }

theorem SbAlert.refl (s : State) : SbAlert s s := ⟨_, rfl⟩

theorem SbAlert.trans {s t u : State} (h : SbAlert s t) (k : SbAlert t u) : SbAlert s u := by
  obtain ⟨a, e⟩ := h; obtain ⟨b, f⟩ := k; exact ⟨b, by rw [f, e]⟩

theorem SbAlert.same {s t : State} (h : t.sb = s.sb) : SbAlert s t := ⟨s.sb.alertStatus, h⟩

theorem watchOne_sb (s : State) (k : Nat) : SbAlert s (s.watchOne k) := by
  unfold State.watchOne State.markNotice State.alert; dsimp only; split
  · split
    · exact ⟨_, rfl⟩
    · refine SbAlert.trans (t := ({ s with marks := s.marks.set k { s.mark k with level := true, up := true } } : State).alert .watermark) ⟨_, rfl⟩ (SbAlert.same ?_)
      simp [State.alert]
  · split <;> exact SbAlert.same rfl

theorem foldl_sb {β : Type} (f : State → β → State) (hf : ∀ s b, SbAlert s (f s b)) (l : List β) (s : State) : SbAlert s (l.foldl f s) := by
  induction l generalizing s with
  | nil => exact SbAlert.refl _
  | cons a l ih => exact (hf s a).trans (ih _)

theorem watch_sb (s : State) : SbAlert s s.watch := by
  unfold State.watch; split
  · exact SbAlert.refl _
  · exact SbAlert.refl _
  · exact foldl_sb _ (fun s k => watchOne_sb s k) _ _

theorem pad2 (a : Nat) : (bytesOfNat 2 a).length = 2 := by simp [bytesOfNat]

theorem nat2 (a : Nat) : natOfBytes (bytesOfNat 2 a) = a % 2 ^ 16 := by
  simp [bytesOfNat, natOfBytes, List.range_succ, List.foldl]
  omega

theorem sbWrite_on {s : State} {p : Pec} {f : State → State} (h : s.supply.auxInRange = true ∧ s.pecRefused p = false) : s.sbWrite p f = f s := by
  unfold State.sbWrite; rw [h.1, h.2]; rfl

theorem sbWrite_bad {s : State} {p : Pec} {f : State → State} (h : s.supply.auxInRange = true) (h2 : s.pecRefused p = true) : s.sbWrite p f = s.pecFail := by
  unfold State.sbWrite; rw [h, h2]; rfl

theorem storeAt_in (buf b : Bytes) (off i : Nat) (h : off + b.length ≤ 4096) (hi : i < b.length) : (storeAt buf off b).getD (off + i) 0 = b.getD i 0 := by
  unfold storeAt
  have h1 : off + i < 4096 := by omega
  have h2 : off + i < off + b.length := by omega
  simp [List.getD_eq_getElem?_getD, List.getElem?_map, List.getElem?_range h1, h2]

theorem storeAt_out (buf b : Bytes) (off i : Nat) (h1 : i < 4096) (hi : i < off ∨ off + b.length ≤ i) : (storeAt buf off b).getD i 0 = buf.getD i 0 := by
  unfold storeAt
  have h2 : ¬ (off ≤ i ∧ i < off + b.length) := by omega
  rw [List.getD_eq_getElem?_getD, List.getElem?_map, List.getElem?_range h1]
  simp only [Option.map_some, Option.getD_some]
  rw [if_neg (by simpa using h2)]

theorem mbStore_facts {s : State} {b : Bytes} (hb : s.sb.mb ≠ .busy) (h1 : 1 ≤ b.length) (h2 : b.length ≤ 255) :
    (s.mbStore b).sb.request = storeAt s.sb.request s.sb.mbOffset b ∧ (s.mbStore b).sb.mbOffset = (s.sb.mbOffset + b.length) % 2 ^ 16 ∧ Keeps [.sb] s (s.mbStore b) := by
  unfold State.mbStore
  rw [if_neg (by simpa using hb), if_pos (by simp [h1, h2])]
  generalize storeAt _ _ _ = r
  exact ⟨rfl, rfl, by intro q hq; cases q <;> first | rfl | (exact absurd (by decide) hq)⟩

theorem mbAccept_facts {s : State} {hd : Header} {body : Bytes} (h : s.mbStops hd body = none) :
    (s.mbAccept hd body).sb = { s.sb with mb := .busy, reason := 0, whileBusy := false, pecError := false, reply := [], readOff := 0, delivered := false }
    ∧ ∃ k, (s.mbAccept hd body).net.ctxs = s.net.ctxs ++ [k] ∧ k.id = s.net.nextId ∧ k.opcode = hd.opcode ∧ k.mailbox = true ∧ k.phase = .complete ∧ k.session = none := by
  unfold State.mbAccept; dsimp only; rw [h]; dsimp only
  refine ⟨by unfold State.wake; rw [startExit_sb], State.mbCtx _ hd body, by unfold State.wake; rw [startExit_net]; rfl, rfl, rfl, rfl, rfl, rfl⟩

theorem or_bit (a : BitVec 16) (k : Nat) (h : k < 16) : (a ||| BitVec.ofNat 16 (2 ^ k)).getLsbD k = true := by
  rw [BitVec.getLsbD_or, BitVec.getLsbD_ofNat, Nat.testBit_two_pow_self]
  simp [h]

theorem segmentEvent_facts (s : State) (d : Nat) (x : Bool) : (s.segmentEvent d x).sb.failed = s.sb.failed ∧ (s.segmentEvent d x).sb.alertStatus.getLsbD Alert.segmentFault.bit = true
    ∧ (s.segmentEvent d x).logs.nextEv = s.logs.nextEv + 1 ∧ Keeps [.sb, .logs, .dbg] s (s.segmentEvent d x) := by
  unfold State.segmentEvent State.alert; dsimp only
  refine ⟨by simp, or_bit _ _ (by decide), logEvent_nextEv _ _ _, ?_⟩
  have k := (logEvent_frame s 0x0D01 (pack [(8, d), (1, b1 x), (247, 0)])).mono (b := [.sb, .logs, .dbg]) (by decide)
  generalize s.logEvent _ _ = u at k ⊢
  refine Keeps.trans k ?_
  intro q hq; cases q <;> first | rfl | (exact absurd (by decide) hq)

theorem upd_find {β : Type} {l : List (Nat × β)} {d : Nat} {f : β → β} {x : Nat × β} (h : l.find? (·.1 == d) = some x) :
    (upd (·.1 == d) (fun g => (g.1, f g.2)) l).find? (·.1 == d) = some (x.1, f x.2) := by
  induction l with
  | nil => cases h
  | cons a l ih =>
    unfold upd at ih ⊢
    rw [List.map_cons]
    by_cases e : (a.1 == d) = true
    · rw [List.find?_cons_of_pos (by simpa using e)] at h; cases h
      rw [List.find?_cons_of_pos] <;> simp_all
    · rw [List.find?_cons_of_neg (by simpa using e)] at h
      rw [List.find?_cons_of_neg (by simp_all), ih h]

theorem upd_keys {β : Type} (l : List (Nat × β)) (d : Nat) (f : β → β) : (upd (·.1 == d) (fun g => (g.1, f g.2)) l).map (·.1) = l.map (·.1) := by
  unfold upd; rw [List.map_map]; apply List.map_congr_left; intro x _; dsimp only [Function.comp]; split <;> rfl

theorem last_mem {α : Type} (l : List α) (r : α) (N : Nat) (hN : 0 < N) : r ∈ (l ++ [r]).drop (l.length + 1 - N) := by
  rw [List.drop_append_of_le_length (by omega)]; simp

theorem trace_mem {s : State} {n : Nat} (k : Nat) (x : Bool) (w : BitVec 64) (h2 : s.traced n = true) (h3 : 246 ∉ s.spares.lostRoles) :
    ∃ r ∈ (s.trace k n x w).dbg.trace, r.kind = k ∧ r.island = n ∧ r.time = s.time % 2 ^ 48 := by
  unfold State.trace
  rw [if_pos (by simp [h2, h3])]
  have e : ∀ d : Nat, 0 < d → ∃ r ∈ (s.dbg.trace ++ [({ kind := k, island := n, wake := x, time := s.time % 2 ^ 48, payload := w } : TraceRec)]).drop (s.dbg.trace.length + 1 - d),
      r.kind = k ∧ r.island = n ∧ r.time = s.time % 2 ^ 48 := fun d hd => ⟨_, last_mem _ _ d hd, rfl, rfl, rfl⟩
  dsimp only
  exact e 16384 (by decide)

end Sys2Proof.Machine
end

