-- ==== Sys2Proof/Tests/Slice0.lean ====
section
/-! SUPPORT. The model's own tests: ill-formed commands refused, one per check; the standards' check values of the codes and
ciphers; single effects with values taken from the spec; and for every statement of Obligations.lean that has hypotheses, a state and
operands that meet them all (`met_…`, one conjunct per clause, in the statement's order). -/

set_option Elab.async false

set_option linter.all false

namespace Sys2Proof.Tests

open Sys2Proof.Machine

/-! ### Ill-formed commands -/

theorem test_illformed_supplies_and_ports :
    ([.plugInInsert false { (default : Cmis) with apps := [4] }, .cmisPoll true { (default : Cmis) with readyMs := 2 ^ 32 },
        .plugInInsert true { (default : Cmis) with pathMs := 2 ^ 32 }, .plugInInsert true { (default : Cmis) with maxPowerDW := 2 ^ 16 },
        .linkUp 8, .linkDown 8 0, .linkAttemptTimeout 8 0, .failoverHold 8, .failoverBack 8, .signalReturn 8,
        .restart 263] : List Instr).all (fun i => !i.wf) = true := by
  decide +kernel

theorem test_illformed_frames :
    ([.frameReceive 8 default, .frameReceive 0 { (default : Frame) with srcMac := 2 ^ 48 },
        .frameReceive 0 { (default : Frame) with l3 := .pause 65536 }, .frameReceive 0 { (default : Frame) with l3 := .pfc 0 [1] },
        .frameReceive 0 { (default : Frame) with l3 := .pfc 0 (List.replicate 8 65536) }, .neighbourAgeOut false ⟨false, 2 ^ 32⟩,
        .neighbourAgeOut false ⟨true, 2 ^ 128⟩, .pauseQuantaExpire 8 0, .pauseQuantaExpire 0 9, .pauseWatchdog 8 0, .pauseWatchdog 0 9,
        .pauseWatchdogHoldoffEnd 8 0, .pauseWatchdogHoldoffEnd 0 9, .watermarkHoldoffEnd 0,
        .watermarkHoldoffEnd 7] : List Instr).all (fun i => !i.wf) = true := by
  decide +kernel

theorem test_illformed_directory :
    ([.quinceUpdate 4, .quinceSweep 4 0 .none, .quinceSweep 0 4096 .none, .readS 16 0, .readS 0 (2 ^ 29), .readE 16 0, .writeBack 16 0,
        .writeBackClean 16 0, .evict 16 0, .snoopInv 16 0, .snoopFetch 16 0, .presentClean 16 0, .presentData 16 0,
        .notPresent 16 0] : List Instr).all (fun i => !i.wf) = true := by
  decide +kernel

theorem test_illformed_media_and_keys :
    ([.cipherJobEnd 8, .patrolStep 0 0 { (default : PatrolFinding) with corrected := 2 ^ 16 }, .rekeySweepStep 64 0 true,
        .dieRetire 32 0 0, .dieRetire 0 16 0, .dieRetire 0 0 256, .rebuildDone 32 0, .rebuildDone 0 16, .eraseComplete 0 [(32, 0)],
        .sieveVisit 128, .sieveBatchAge 128, .sieveIdle 128, .resyncStart 4096 0] : List Instr).all (fun i => !i.wf) = true := by
  decide +kernel

theorem test_illformed_integrity :
    ([.islandRetire 263 0, .islandRetire 0 64, .islandFail 263 [], .trunkLinkFail 263 0, .trunkLinkFail 0 8,
        .ueFound 263 0 0 0 true (.heat 0), .ueFound 0 263 0 0 true (.heat 0), .codeTrap 263 0 [], .codeBankReloaded 263, .ceDecay [(263,
        0, 0)] [], .ceDecay [] [(16, 0, 0)], .progressScan 263] : List Instr).all (fun i => !i.wf) = true := by
  decide +kernel

theorem test_illformed_power_and_sideband :
    ([.idleTimer 0, .idleTimer 4, .thermalSample [], .thermalSample (List.replicate 10 128), .thermalSample (List.replicate 10 (-128)),
        .holdupTest ⟨[], List.replicate 8 0, 0⟩, .holdupTest ⟨List.replicate 8 0, [], 0⟩, .sectionFail 8, .islandReload 263 true,
        .mbData [] .good, .mbData (List.replicate 256 0) .good, .sbRegisterWrite 256 [0] .good, .sbRegisterWrite 0 [] .good,
        .sbRegisterWrite 0 (List.replicate 256 0) .good, .segmentPoll 13 true, .segmentPoll 2 true, .segmentRetry 13 true,
        .segmentRetry 2 true, .consoleLine [0x80] false, .traceSync 263,
        .dramSelfRefresh 16] : List Instr).all (fun i => !i.wf) = true := by
  decide +kernel

/-- A well-formed command of each kind the checks look at. -/
theorem test_wellformed :
    ([.linkUp 7, .frameReceive 0 { (default : Frame) with l3 := .pause 65535 }, .watermarkHoldoffEnd 6, .readS 15 (2 ^ 29 - 1),
        .idleTimer 3, .segmentPoll 12 true, .mbData (List.replicate 255 0) .good, .thermalSample (List.replicate 10 85),
        .dieRetire 31 15 1, .pwrEnWatchStart] : List Instr).all Instr.wf = true := by
  decide +kernel

/-- The opcode table gives no row bits: no word spells a command. -/
theorem test_no_word_decodes : decodeTableWord 0 0 = none ∧ decodeTableWord 32 5 = none := by decide

/-! ### Codes and ciphers: the check values of the standards -/

/-- CRC-16 of R122 over "123456789". -/
theorem test_crc16 : crc16 (ascii "123456789") = 0x29B1 := by decide +kernel

/-- CRC-64 of R399 over "123456789". -/
theorem test_crc64 : crc64 (ascii "123456789") = 0x6C40DF5F0B497347 := by decide +kernel

/-- FIPS 197, figure 7: SubBytes of 0x53. -/
theorem test_sbox : sbox 0x53 = 0xED ∧ invSbox 0xED = 0x53 := by decide +kernel

/-! ### Key unwrapping (RFC 3394, 4.6), with the byte tables the kernel evaluates it by -/

def invS : Nat := 0x7d0c2155631469e126d677ba7e042b17619953833cbbebc8b0f52aae4d3be0a0ef9cc9939f7ae52d0d4ab519a97f51605fec8027591012b131c7078833a8dd1ff45acd78fec0db9a2079d2c64b3e56fc1bbe18aa0e62b76f89c5291d711af1476edf751ce837f9e28535ade72274ac9673e6b4f0cecff297eadc674f4111913a6b8a130103bdafc1020f3fca8f1e2cd00645b3b80558e4f70ad3bc8c00abd890849d8da75746155edab9edfd5048706c92b6655dcc5ca4d41698688664f6f87225d18b6d49a25b76b224d92866a12e084ec3fa420b954cee3d23c2a632947b54cbe9dec444438e3487ff2f9b8239e37cfbd7f3819ea340bf38a53630d56a0952
def by0E : Nat := 0x8d83919fb5bba9a7fdf3e1efc5cbd9d76d63717f555b49471d13010f252b393756584a446e60727c26283a341e10020cb6b8aaa48e80929cc6c8dad4fef0e2ec202e3c321816040a505e4c426866747ac0cedcd2f8f6e4eab0beaca28886949afbf5e7e9c3cddfd18b859799b3bdafa11b150709232d3f316b657779535d4f41ccc2d0def4fae8e6bcb2a0ae848a98962c22303e141a08065c52404e646a787617190b052f21333d67697b755f51434df7f9ebe5cfc1d3dd87899b95bfb1a3ad616f7d735957454b111f0d032927353b818f9d93b9b7a5abf1ffede3c9c7d5dbbab4a6a8828c9e90cac4d6d8f2fceee05a544648626c7e702a243638121c0e00
def by0B : Nat := 0xa3a8b5be8f849992fbf0ede6d7dcc1ca1318050e3f3429224b405d56676c717ad8d3cec5f4ffe2e9808b969daca7bab168637e75444f5259303b262d1c170a01555e434879726f640d061b10212a373ce5eef3f8c9c2dfd4bdb6aba0919a878c2e2538330209141f767d606b5a514c479e958883b2b9a4afc6cdd0dbeae1fcf7545f424978736e650c071a11202b363de4eff2f9c8c3ded5bcb7aaa1909b868d2f2439320308151e777c616a5b504d469f948982b3b8a5aec7ccd1daebe0fdf6a2a9b4bf8e859893faf1ece7d6ddc0cb1219040f3e3528234a415c57666d707bd9d2cfc4f5fee3e8818a979cada6bbb069627f74454e5358313a272c1d160b00
def by0D : Nat := 0x979a8d80a3aeb9b4fff2e5e8cbc6d1dc474a5d50737e69642f2235381b16010c2c21363b1815020f44495e53707d6a67fcf1e6ebc8c5d2df94998e83a0adbab7faf7e0edcec3d4d9929f8885a6abbcb12a27303d1e130409424f5855767b6c61414c5b5675786f622924333e1d10070a919c8b86a5a8bfb2f9f4e3eecdc0d7da4d40575a7974636e25283f32111c0b069d90878aa9a4b3bef5f8efe2c1ccdbd6f6fbece1c2cfd8d59e938489aaa7b0bd262b3c31121f08054e4354597a77606d202d3a3714190e034845525f7c71666bf0fdeae7c4c9ded39895828faca1b6bb9b96818cafa2b5b8f3fee9e4c7caddd04b46515c7f726568232e3934171a0d00
def by09 : Nat := 0x464f545d626b70790e071c152a233831d6dfc4cdf2fbe0e99e978c85bab3a8a17d746f6659504b42353c272e1118030aede4fff6c9c0dbd2a5acb7be8188939a3039222b141d060f78716a635c554e47a0a9b2bb848d969fe8e1faf3ccc5ded70b0219102f263d34434a5158676e757c9b928980bfb6ada4d3dac1c8f7fee5ecaaa3b8b18e879c95e2ebf0f9c6cfd4dd3a3328211e170c05727b6069565f444d9198838ab5bca7aed9d0cbc2fdf4efe60108131a252c373e49405b526d647f76dcd5cec7f8f1eae3949d868fb0b9a2ab4c455e5768617a73040d161f2029323be7eef5fcc3cad1d8afa6bdb48b829990777e656c535a41483f362d241b120900
def look (t : Nat) (b : Byte) : Byte := BitVec.ofNat 8 (t >>> (8 * b.toNat))
theorem all_bytes {P : Byte → Prop} (h : ∀ n, n < 256 → P (BitVec.ofNat 8 n)) (b : Byte) : P b := by
  have := h b.toNat b.isLt
  simpa using this
theorem byte_tables (b : Byte) : invSbox b = look invS b ∧ gmul 0x0E b = look by0E b ∧ gmul 0x0B b = look by0B b
    ∧ gmul 0x0D b = look by0D b ∧ gmul 0x09 b = look by09 b :=
  all_bytes (P := fun b => invSbox b = look invS b ∧ gmul 0x0E b = look by0E b ∧ gmul 0x0B b = look by0B b
    ∧ gmul 0x0D b = look by0D b ∧ gmul 0x09 b = look by09 b) (by decide +kernel) b

def fastMix (b : Bytes) : Bytes :=
  (List.range 16).map (fun i =>
    let col := 4 * (i / 4)
    let r := i % 4
    look by0E (byteAt b (col + r)) ^^^ look by0B (byteAt b (col + (r + 1) % 4))
      ^^^ look by0D (byteAt b (col + (r + 2) % 4)) ^^^ look by09 (byteAt b (col + (r + 3) % 4)))

def fastRounds : List Bytes → Bytes → Bytes
  | [], b => b
  | [k], b => xorBytes ((shiftRows 3 b).map (look invS)) k
  | k :: k' :: ks, b => fastRounds (k' :: ks) (fastMix (xorBytes ((shiftRows 3 b).map (look invS)) k))

theorem decryptRounds_fast : ∀ (ks : List Bytes) (b : Bytes), decryptRounds ks b = fastRounds ks b
  | [], _ => rfl
  | [k], b => by simp only [decryptRounds, fastRounds, funext fun b => (byte_tables b).1]
  | k :: k' :: ks, b => by
    rw [fastRounds, ← decryptRounds_fast (k' :: ks), decryptRounds]
    · simp only [funext fun b => (byte_tables b).1, fastMix, mixColumns, (byte_tables _).2.1, (byte_tables _).2.2.1,
        (byte_tables _).2.2.2.1, (byte_tables _).2.2.2.2]
    · simp
def kek : BitVec 256 := 0x000102030405060708090A0B0C0D0E0F101112131415161718191A1B1C1D1E1F
def wrapped : Bytes := bytesOfNat 40 0x28C9F404C4B810F4CBCCB35CFB87F8263F5786E2D80ED326CBC7F0E71A99F43BFB988B9B7A02DD21
def inner : BitVec 256 := 0x00112233445566778899AABBCCDDEEFF000102030405060708090A0B0C0D0E0F
def fastDec (ks : List Bytes) (blk : Bytes) : Bytes := match ks with
  | [] => blk
  | k :: ks => fastRounds ks (xorBytes blk k)
theorem aesDecrypt_fast (key blk : Bytes) : aesDecrypt 8 key blk = fastDec (roundKeys 8 key).reverse blk := by
  unfold aesDecrypt fastDec
  generalize (roundKeys 8 key).reverse = ks
  cases ks
  · rfl
  · exact decryptRounds_fast _ _
def fastSteps (ks : List Bytes) : Nat → Bytes → List Bytes → Bytes × List Bytes
  | 0, a, rs => (a, rs)
  | t + 1, a, rs =>
    let blk := fastDec ks (xorBytes a (bytesOfNat 8 (t + 1)) ++ rs.getD ((t + 1 + 3) % 4) [])
    fastSteps ks t (blk.take 8) (rs.set ((t + 1 + 3) % 4) (blk.drop 8))
theorem unwrapSteps_fast (kek : Bytes) : ∀ (t : Nat) (a : Bytes) (rs : List Bytes),
    unwrapSteps kek t a rs = fastSteps (roundKeys 8 kek).reverse t a rs
  | 0, _, _ => rfl
  | t + 1, a, rs => by
    simp only [unwrapSteps, unwrapStep, fastSteps, unwrapSteps_fast kek t, aesDecrypt_fast]
def keys : List Bytes := [bytesOfNat 16 0x24fc79ccbf0979e9371ac23c6d68de36, bytesOfNat 16 0x4e5a6699a9f24fe07e572baacdf8cdea,
    bytesOfNat 16 0x2541fe719bf500258813bbd55a721c0a, bytesOfNat 16 0xf01afafee7a82979d7a5644ab3afe640,
    bytesOfNat 16 0x7ccff71cbeb4fe5413e6bbf0d261a7df, bytesOfNat 16 0x45f5a66017b2d387300d4d33640a820a,
    bytesOfNat 16 0x0bdc905fc27b0948ad5245a4c1871c2f, bytesOfNat 16 0x3de23a75524775e727bf9eb45407cf39,
    bytesOfNat 16 0xc656827fc9a799176f294cec6cd5598b, bytesOfNat 16 0x6de1f1486fa54f9275f8eb5373b8518d,
    bytesOfNat 16 0xae87dff00ff11b68a68ed5fb03fc1567, bytesOfNat 16 0x1651a8cd0244beda1a5da4c10640bade,
    bytesOfNat 16 0xa573c29fa176c498a97fce93a572c09c, bytesOfNat 16 0x101112131415161718191a1b1c1d1e1f,
    bytesOfNat 16 0x000102030405060708090a0b0c0d0e0f]
theorem keys_of_kek : (roundKeys 8 (bytesOfNat 32 kek.toNat)).reverse = keys := by decide +kernel
theorem test_keyUnwrap : keyUnwrap kek wrapped = some inner := by
  rw [keyUnwrap]
  simp only [unwrapSteps_fast, keys_of_kek]
  decide +kernel

/-! ### Single effects -/

/-- R35: the straps are read as they stand when P3V3_AUX comes into range. -/
theorem test_straps : (match exec (.p3v3AuxInRange ⟨5, true, false⟩) State.reset with
    | .next t => t.supply.straps == ⟨5, true, false⟩ && t.supply.auxInRange
    | _ => false) = true := by
  decide +kernel

/-- R69: the defaults of a few variables. -/
theorem test_defaults : varIn [] 0x0101 = 1 ∧ varIn [] 0x0202 = 20 ∧ varIn [] 0x0601 = 8 ∧ varIn [] 0x0B02 = 1000
    ∧ varIn [] 0x0D01 = 0x07FF := by
  decide +kernel

/-- A step with no command waiting moves the clock on (log entry 2). -/
theorem test_step_idles : step State.reset = .next { State.reset with clock := 1 } := by rfl

/-! ### An orchard map of one module (R389) -/

/-- The first 64 bytes of an orchard map of one module. -/
def mapHead : Bytes := bytesOfNat 64 (2 ^ 504 + 2 ^ 488 + 2 ^ 480) ++ List.replicate 512 0
/-- Its one module: this one, number 0, at 0.0.0.0. -/
def mapModule : Bytes := bytesOfNat 24 (2 ^ 154) ++ bytesOfNat 8 (Config.serial 0)
/-- One placement bucket, its chain module 0 alone. -/
def mapBucket : Bytes := [0, 1, 0, 0, 0, 0, 0, 0]
/-- `n` such buckets. -/
def mapBuckets : Nat → Bytes
  | 0 => []
  | n + 1 => mapBucket ++ mapBuckets n
/-- The map. -/
def mapBody (n : Nat) : Bytes := mapHead ++ (mapModule ++ mapBuckets n)
/-- What the module reads in it. -/
def mapRead (n : Nat) : OrchardMap :=
  { epoch := 1, cover := List.replicate 512 0, self := 0, buckets := List.replicate n [0],
    modules := [{ id := 0, succ := { moduleId := 0, port := 0, addr := ⟨false, 0⟩ }, serial := Config.serial 0 % 2 ^ 64 }] }

theorem mapBuckets_length : ∀ n, (mapBuckets n).length = 8 * n
  | 0 => rfl
  | n + 1 => by rw [mapBuckets, List.length_append, mapBuckets_length n]; simp [mapBucket]; omega

theorem parseBucket_mapBuckets (n : Nat) : parseBucket [0] (mapBuckets (n + 1)) = some [0] := by
  have h : (mapBuckets (n + 1)).take 8 = mapBucket := by
    rw [mapBuckets, List.take_append_of_le_length (by decide)]; rfl
  unfold parseBucket
  rw [h]
  decide

theorem parseBuckets_mapBuckets : ∀ n, parseBuckets [0] n (mapBuckets n) = some (List.replicate n [0])
  | 0 => rfl
  | n + 1 => by
    have h : (mapBuckets (n + 1)).drop 8 = mapBuckets n := by
      rw [mapBuckets, List.drop_append_of_le_length (by decide)]; rfl
    rw [parseBuckets, parseBucket_mapBuckets, h, parseBuckets_mapBuckets n, List.replicate_succ]

theorem natOfBytes_mapModule : natOfBytes mapModule = 2 ^ 218 + Config.serial 0 % 2 ^ 64 := by
  have h : natOfBytes mapModule = List.foldl (fun a x => a * 256 + x.toNat) (2 ^ 154) (bytesOfNat 8 (Config.serial 0)) := by
    rw [natOfBytes, mapModule, List.foldl_append]; rfl
  rw [h]
  generalize Config.serial 0 = v
  simp [bytesOfNat, List.foldl]
  omega

theorem parseModules_map (n : Nat) : parseModules 1 (mapModule ++ mapBuckets n) = some (mapRead n).modules := by
  have h : (mapModule ++ mapBuckets n).take 32 = mapModule := by
    rw [List.take_append_of_le_length (Nat.le_of_eq (by simp [mapModule, bytesOfNat]))]; simp [mapModule, bytesOfNat]
  rw [parseModules, h, natOfBytes_mapModule]
  have b : Config.serial 0 % 2 ^ 64 < 2 ^ 64 := Nat.mod_lt _ (by decide)
  simp only [mapRead, parseModules]
  generalize Config.serial 0 % 2 ^ 64 = v at b
  have h1 : bits (2 ^ 218 + v) 243 240 = 0 := by simp only [bits]; omega
  have h2 : bits (2 ^ 218 + v) 215 192 = 0 := by simp only [bits]; omega
  have h3 : bits (2 ^ 218 + v) 223 216 = 4 := by simp only [bits]; omega
  have h4 : bits (2 ^ 218 + v) 191 64 = 0 := by simp only [bits]; omega
  have h5 : bits (2 ^ 218 + v) 255 244 = 0 := by simp only [bits]; omega
  have h6 : bits (2 ^ 218 + v) 239 224 = 0 := by simp only [bits]; omega
  have h7 : bits (2 ^ 218 + v) 63 0 = v := by simp only [bits]; omega
  rw [h1, h2, h3, h4, h5, h6, h7]
  rfl

theorem parseMap_mapBody {n : Nat} (h : n = 65536) : parseMap 1 (mapBody n) = some (mapRead n) := by
  have l1 : mapHead.length = 576 := by decide +kernel
  have l2 : mapModule.length = 32 := by simp [mapModule, bytesOfNat]
  have l : (mapBody n).length = 576 + 32 * 1 + 524288 := by
    have := mapBuckets_length n
    rw [mapBody, List.length_append, List.length_append, l1, l2]; omega
  have t : (mapBody n).take 64 = bytesOfNat 64 (2 ^ 504 + 2 ^ 488 + 2 ^ 480) := by
    rw [mapBody, List.take_append_of_le_length (by rw [l1]; omega)]; decide +kernel
  have d64 : ((mapBody n).drop 64).take 512 = List.replicate 512 0 := by
    rw [mapBody, List.drop_append_of_le_length (by rw [l1]; omega),
      List.take_append_of_le_length (by rw [List.length_drop, l1] <;> omega)]; decide +kernel
  have d576 : (mapBody n).drop 576 = mapModule ++ mapBuckets n := by
    rw [mapBody, ← l1]; exact List.drop_left
  have d608 : (mapBody n).drop (576 + 32 * 1) = mapBuckets n := by
    rw [← List.drop_drop, d576, Nat.mul_one, ← l2]; exact List.drop_left
  have v : natOfBytes (bytesOfNat 64 (2 ^ 504 + 2 ^ 488 + 2 ^ 480)) = 2 ^ 504 + 2 ^ 488 + 2 ^ 480 := by decide +kernel
  have b1 : bits (2 ^ 504 + 2 ^ 488 + 2 ^ 480) 511 504 = 1 := by decide +kernel
  have b2 : bits (2 ^ 504 + 2 ^ 488 + 2 ^ 480) 503 488 = 1 := by decide +kernel
  have b3 : bits (2 ^ 504 + 2 ^ 488 + 2 ^ 480) 487 480 = 1 := by decide +kernel
  have b4 : bits (2 ^ 504 + 2 ^ 488 + 2 ^ 480) 479 0 = 0 := by decide +kernel
  have pb : parseBuckets [0] 65536 (mapBuckets n) = some (List.replicate n [0]) := by rw [← h]; exact parseBuckets_mapBuckets n
  unfold parseMap
  simp only [t, d64, v, b1, b2, b3, b4, l, d576, d608, parseModules_map]
  have c : ((List.replicate 512 (0 : Byte)).getD 0 0).getLsbD 7 = false := by decide +kernel
  simp only [mapRead, List.map, pb, c]
  generalize Config.serial 0 % 2 ^ 64 = k
  have e : (k == k) = true := by simp
  simp only [List.find?, e]
  rfl

/-! ### States and commands of the witnesses -/

/-- A module that runs in Serving, with both supplies on. -/
def run : State :=
  { State.reset with supply := { State.reset.supply with auxInRange := true, watched := true, pwrEn := true, p12vOk := true, mainOn := true },
                     modes := { State.reset.modes with mode := .serving } }

/-- A command with that opcode, complete, in context 0. -/
def cmd (op : Nat) : Ctx := { (default : Ctx) with opcode := op, phase := .complete }

/-- The running module with one command, and a keyspace 1. -/
def holding (x : Ctx) : State :=
  { run with net := { run.net with ctxs := [x] }, store := { run.store with keyspaces := [{ (default : Keyspace) with id := 1 }] } }

/-- An entry that fills its bucket: nothing in it can move. -/
def fullEntry (b : Nat) : Entry := { (default : Entry) with older := List.replicate 16 default, place := .bucket b }
/-- Both buckets of the fingerprint 0, and the stash, full. -/
def fullTable (n : Nat) : List Entry := fullEntry 0 :: fullEntry 1 :: List.replicate n { (default : Entry) with place := .stash }
/-- A PUT to keyspace 1 that finds no entry. -/
def lastPut : Ctx := { cmd 0x02 with phase := .ready, keyspace := 1 }
/-- The module with that table and that command. -/
def full (n : Nat) : State := { holding lastPut with store := { (holding lastPut).store with entries := fullTable n } }

theorem no_place {n : Nat} (h : n = 65536) : (full n).writePlace lastPut = none := by
  have e : (full n).entry? lastPut.keyspace lastPut.fp lastPut.key = none := by
    rw [State.entry?, show (full n).store.entries = fullTable n from rfl, fullTable, List.find?_cons_of_neg (by decide),
      List.find?_cons_of_neg (by decide), List.find?_replicate_of_neg (by decide)]
  have u (b : Nat) : slotsUsed (fullTable n) b = slotsUsed [fullEntry 0, fullEntry 1] b := by
    rw [slotsUsed, fullTable, List.filter_cons, List.filter_cons, List.filter_replicate_of_neg (by simp), slotsUsed, List.filter_cons,
        List.filter_cons,
      List.filter_nil]
  have p : (full n).placeFor lastPut.fp = none := by
    have l : ((fullTable n).filter (·.place == .stash)).length = n := by
      rw [fullTable, List.filter_cons_of_neg (by decide), List.filter_cons_of_neg (by decide), List.filter_replicate_of_pos (by decide),
        List.length_replicate]
    have c : (fullTable n).filter (fun e => e.place == .bucket 0 && e.older.isEmpty) = [] := by
      rw [fullTable, List.filter_cons_of_neg (by decide), List.filter_cons_of_neg (by decide), List.filter_replicate_of_neg (by decide)]
    have d : displace 17 (full n).rnd 0 (fullTable n) = none := by
      rw [displace, u, if_neg (by decide), c]; rfl
    rw [State.placeFor, show (full n).store.entries = fullTable n from rfl, show bucket1 lastPut.fp = 0 from by decide,
      show bucket2 lastPut.fp = 1 from by decide]
    simp only [u, l, d]
    rw [if_neg (by decide), if_neg (by decide), if_neg (by omega)]
  rw [State.writePlace, e]
  exact p

/-! ### Witnesses -/

theorem met_AuxiliarySupply :
  (∃ (straps : Straps) (s : State), s.supply.auxInRange = false)
  ∧ (∃ (s : State), s.supply.auxInRange = true ∧ s.supply.watched = false ∧ s.supply.auxSince + 50000000 ≤ s.clock)
  ∧ (∃ (s : State), s.clock < s.supply.auxSince + 50000000)
  ∧ (∃ (s : State), s.supply.auxInRange = true ∧ s.supply.mainOn = false) :=
  ⟨⟨default, State.reset,
      by (try dsimp only [NoneWaits]); decide⟩,
    ⟨{ State.reset with clock := 50000000, supply := { State.reset.supply with auxInRange := true } },
      by (try dsimp only [NoneWaits]); decide⟩,
    ⟨{ State.reset with clock := 49999999 },
      by (try dsimp only [NoneWaits]); decide⟩,
    ⟨{ State.reset with supply := { State.reset.supply with auxInRange := true, watched := true, p12vOk := true } },
      by (try dsimp only [NoneWaits]); decide⟩⟩

theorem met_StartBegins :
  (∃ (straps : Straps) (s : State), s.modes.mode = .dormant ∧ s.supply.mainOn = false ∧ s.supply.auxInRange = true
      ∧ s.supply.watched = true ∧ s.supply.pwrEn = false ∧ s.supply.p12vOk = true ∧ s.modes.restartAt = none ∧ straps.factoryN = true
      ∧ ¬ (s.modes.startFault = true ∧ s.modes.startCause = 3))
  ∧ (∃ (s : State), s.modes.mode = .dormant ∧ s.supply.mainOn = false ∧ s.supply.auxInRange = true ∧ s.supply.watched = true
      ∧ s.supply.pwrEn = true ∧ s.supply.armed = true ∧ s.supply.straps.factoryN = true ∧ s.modes.restartAt = none)
  ∧ (∃ (s : State) (at' : Nat), s.modes.mode = .dormant ∧ s.modes.restartAt = some at' ∧ at' + 50000000 ≤ s.clock ∧ s.supply.p12vOk = true
      ∧ s.supply.auxInRange = true)
  ∧ (∃ (straps : Straps) (s : State), straps.factoryN = false ∧ s.supply.watched = true ∧ s.supply.pwrEn = false) :=
  ⟨⟨⟨0, true, true⟩, { State.reset with supply := { State.reset.supply with auxInRange := true, watched := true, p12vOk := true } },
      by (try dsimp only [NoneWaits]); decide⟩,
    ⟨{ State.reset with supply := { State.reset.supply with auxInRange := true, watched := true, p12vOk := true, pwrEn := true, armed := true } },
      by (try dsimp only [NoneWaits]); decide⟩,
    ⟨{ run with modes := { State.reset.modes with restartAt := some 0 }, clock := 50000000 }, 0,
      by (try dsimp only [NoneWaits]); decide⟩,
    ⟨⟨0, false, false⟩, { State.reset with supply := { State.reset.supply with auxInRange := true, watched := true, p12vOk := true } },
      by (try dsimp only [NoneWaits]); decide⟩⟩

theorem met_StartSteps :
  let at' (s : State) (n : Nat) : Prop := s.modes.mode = .filling ∧ s.supply.mainOn = true ∧ s.modes.startStep = n
  (∃ (s : State), at' s 1)
  ∧ (∃ (s : State), at' s 2)
  ∧ (∃ (s : State), at' s 4)
  ∧ (∃ (s : State), at' s 5)
  ∧ (∃ (s : State), at' s 6)
  ∧ (∃ (s : State), at' s 7)
  ∧ (∃ (s : State), s.supply.mainOn = false ∨ s.modes.mode ≠ .filling) :=
  ⟨⟨{ run with modes := { run.modes with mode := .filling, startStep := 1 } },
      by (try dsimp only [NoneWaits]); decide⟩,
    ⟨{ run with modes := { run.modes with mode := .filling, startStep := 2 } },
      by (try dsimp only [NoneWaits]); decide⟩,
    ⟨{ run with modes := { run.modes with mode := .filling, startStep := 4 } },
      by (try dsimp only [NoneWaits]); decide⟩,
    ⟨{ run with modes := { run.modes with mode := .filling, startStep := 5 } },
      by (try dsimp only [NoneWaits]); decide⟩,
    ⟨{ run with modes := { run.modes with mode := .filling, startStep := 6 } },
      by (try dsimp only [NoneWaits]); decide⟩,
    ⟨{ run with modes := { run.modes with mode := .filling, startStep := 7 } },
      by (try dsimp only [NoneWaits]); decide⟩,
    ⟨State.reset,
      by (try dsimp only [NoneWaits]); decide⟩⟩

theorem met_SettingsRead :
  let at8 (s : State) : Prop := s.modes.mode = .filling ∧ s.supply.mainOn = true ∧ s.modes.startStep = 8
  let block (s : State) : Option Settings := if s.nor.seqA < s.nor.seqB then s.nor.blockB else s.nor.blockA
  let image (s : State) : Nat := (if s.fw.active = 0 then s.fw.slot0 else s.fw.slot1).settings
  (∃ (s : State), at8 s ∧ block s = none)
  ∧ (∃ (s : State) (b : Settings), at8 s ∧ block s = some b ∧ b.format = image s) :=
  ⟨⟨{ run with modes := { run.modes with mode := .filling, startStep := 8 } },
      by (try dsimp only [NoneWaits]); decide⟩,
    ⟨{ { run with modes := { run.modes with mode := .filling, startStep := 8 } } with nor := { State.reset.nor with seqA := 1, blockA := some default } },
        default,
      by (try dsimp only [NoneWaits]); decide⟩⟩

theorem met_DirectoryRecovered :
  let at9 (s : State) : Prop := s.modes.mode = .filling ∧ s.supply.mainOn = true ∧ s.modes.startStep = 9
  (∃ (lost : List LostPage) (found : List Nat) (s : State), at9 s)
  ∧ (∃ (s : State), at9 s ∧ s.modes.markFound ≠ some false ∧ s.store.logA.medium = [] ∧ s.store.logB.medium = []) :=
  ⟨⟨[], [], { run with modes := { run.modes with mode := .filling, startStep := 9 } },
      by (try dsimp only [NoneWaits]); decide⟩,
    ⟨{ run with modes := { run.modes with mode := .filling, startStep := 9 } },
      by (try dsimp only [NoneWaits]); decide⟩⟩

theorem met_ModeAfterFilling :
  (∃ (charged : Bool) (s : State), s.modes.mode = .filling ∧ s.supply.mainOn = true ∧ s.modes.startStep = 10) :=
  ⟨true, { run with modes := { run.modes with mode := .filling, startStep := 10 } },
      by (try dsimp only [NoneWaits]); decide⟩

theorem met_StartAbandoned :
  (∃ (s : State), s.modes.mode = .filling ∧ s.modes.fillStart + 9000000000 ≤ s.clock)
  ∧ (∃ (s : State), s.clock < s.modes.fillStart + 9000000000)
  ∧ (∃ (island : Nat) (s : State), s.modes.mode = .filling ∧ s.supply.mainOn = true ∧ s.waltzing = false
      ∧ s.modes.restartFault = some island)
  ∧ (∃ (s : State), s.modes.mode = .filling ∧ s.supply.mainOn = true ∧ s.supply.watched = true ∧ s.supply.pwrEn = true)
  ∧ (∃ (removed : Bool) (s : State), s.modes.mode = .filling ∧ s.supply.mainOn = true) :=
  ⟨⟨{ { run with modes := { run.modes with mode := .filling, startStep := 3 } } with clock := 9000000000 },
      by (try dsimp only [NoneWaits]); decide⟩,
    ⟨run,
      by (try dsimp only [NoneWaits]); decide⟩,
    ⟨5, { run with modes := { run.modes with mode := .filling, startStep := 3, restartFault := some 5 } },
      by (try dsimp only [NoneWaits]); decide⟩,
    ⟨{ run with modes := { run.modes with mode := .filling, startStep := 3 } },
      by (try dsimp only [NoneWaits]); decide⟩,
    ⟨false, { run with modes := { run.modes with mode := .filling, startStep := 3 } },
      by (try dsimp only [NoneWaits]); decide⟩⟩

theorem met_RestartTurnsOff :
  (∃ (island : Nat) (s : State), (s.modes.mode = .serving ∨ s.modes.mode = .shadowing ∨ s.modes.mode = .frozen) ∧ s.supply.mainOn = true
      ∧ s.waltzing = false) :=
  ⟨5, run,
      by (try dsimp only [NoneWaits]); decide⟩

theorem met_LastWaltzStarts :
  let ready (s : State) : Prop := s.supply.mainOn = true ∧ s.modes.mode ≠ .filling ∧ s.modes.flush = none
  (∃ (s : State), ready s ∧ s.supply.watched = true ∧ s.supply.pwrEn = true)
  ∧ (∃ (removed : Bool) (s : State), ready s)
  ∧ (∃ (s : State), ready s ∧ s.supply.auxInRange = true ∧ AlarmSource.supply ∈ s.supply.conditions) :=
  ⟨⟨run,
      by (try dsimp only [NoneWaits]); decide⟩,
    ⟨true, run,
      by (try dsimp only [NoneWaits]); decide⟩,
    ⟨{ run with supply := { run.supply with conditions := [.supply] } },
      by (try dsimp only [NoneWaits]); decide⟩⟩

theorem met_Alarms :
  (∃ (a : AlarmSource) (s : State), (a = .tamper ∨ a = .temperature ∨ a = .clock) ∧ s.supply.auxInRange = true
      ∧ (s.modes.mode = .dormant ∨ s.modes.mode = .filling) ∧ a ∉ s.supply.conditions)
  ∧ (∃ (a : AlarmSource) (s : State), (a = .tamper ∨ a = .temperature ∨ a = .clock) ∧ s.supply.auxInRange = true ∧ s.modes.mode ≠ .dormant
      ∧ s.modes.mode ≠ .filling ∧ a ∉ s.supply.conditions)
  ∧ (∃ (a : AlarmSource) (s : State), a ∈ s.supply.conditions) :=
  ⟨⟨.tamper, { State.reset with supply := { State.reset.supply with auxInRange := true, watched := true, p12vOk := true } },
      by (try dsimp only [NoneWaits]); decide⟩,
    ⟨.tamper, run,
      by (try dsimp only [NoneWaits]); decide⟩,
    ⟨.tamper, { run with supply := { run.supply with conditions := [.tamper] } },
      by (try dsimp only [NoneWaits]); decide⟩⟩

theorem met_LinkLoss :
  (∃ (n : Nat) (failing : BitVec 8) (s : State), (s.link n).up = true)
  ∧ (∃ (n : Nat) (failing : BitVec 8) (s : State), (s.link n).up = false)
  ∧ (∃ (n : Nat) (s : State), n < s.ports.links.length ∧ n < 8 ∧ (s.link n).up = false ∧ (s.link n).attempt = none
      ∧ s.trainable (isPortB n) = true ∧ s.fullLanes n ≠ 0)
  ∧ (∃ (n since : Nat) (failing : BitVec 8) (s : State), n < 8 ∧ (s.link n).up = false ∧ (s.link n).attempt = some since
      ∧ since + s.attemptLimit (isPortB n) ≤ s.clock)
  ∧ (∃ (n since : Nat) (failing half : BitVec 8) (s : State), n < 8 ∧ (s.link n).up = false ∧ (s.link n).attempt = some since
      ∧ since + s.attemptLimit (isPortB n) ≤ s.clock ∧ 2 ≤ (s.link n).failed ∧ s.var 0x0104 = 1 ∧ (s.link n).lanes = s.fullLanes n
      ∧ s.trains (isPortB n) = true ∧ degradedHalf (s.fullLanes n) failing = some half) :=
  ⟨⟨0, 0,
      { run with clock := 0, vars := [], modes := { run.modes with startStep := 11 }, ports := { run.ports with links := [{ Link.off with up := true, lanes := 0x0F }] } },
      by (try dsimp only [NoneWaits]); decide⟩,
    ⟨0, 0, run,
      by (try dsimp only [NoneWaits]); decide⟩,
    ⟨0, { run with clock := 0, vars := [], modes := { run.modes with startStep := 11 }, ports := { run.ports with links := Link.off :: List.replicate 7 Link.off, cageA := { Cage.empty with present := true, accepted := true, lowPower := false, cmis := some { (default : Cmis) with copper := true } } } },
      by exact ⟨by decide, by decide, by decide, by decide, (by unfold State.trainable; cases isB8 <;> decide), by decide⟩⟩,
    ⟨0, 0, 0,
        { run with clock := sec 5, vars := [], modes := { run.modes with startStep := 11 }, ports := { run.ports with links := { Link.off with attempt := some 0 } :: List.replicate 7 Link.off, cageA := { Cage.empty with present := true, accepted := true, lowPower := false, cmis := some { (default : Cmis) with copper := true } } } },
      by exact ⟨by decide, by decide, by decide, (by unfold State.attemptLimit State.trains; cases isB8 <;> decide)⟩⟩,
    ⟨0, 0, 4, 3,
        { run with clock := sec 5, vars := [], modes := { run.modes with startStep := 11 }, ports := { run.ports with links := { Link.off with attempt := some 0, failed := 2, lanes := 0x0F } :: List.replicate 7 Link.off, cageA := { Cage.empty with present := true, accepted := true, lowPower := false, cmis := some { (default : Cmis) with copper := true } } } },
      by exact ⟨by decide, by decide, by decide, (by unfold State.attemptLimit State.trains; cases isB8 <;> decide), by decide, by decide,
          by decide, (by unfold State.trains; cases isB8 <;> decide), by decide⟩⟩⟩

theorem met_LinkUp :
  (∃ (n since : Nat) (s : State), n < 8 ∧ (s.link n).up = false ∧ (s.link n).attempt = some since ∧ s.trainable (isPortB n) = true
      ∧ s.fullLanes n ≠ 0 ∧ (∀ m, (s.link m).waiting = false)) :=
  ⟨0, 0,
      { run with clock := 0, vars := [], modes := { run.modes with startStep := 11 }, ports := { run.ports with links := { Link.off with attempt := some 0, lanes := 0x0F } :: List.replicate 7 Link.off, cageA := { Cage.empty with present := true, accepted := true, lowPower := false, cmis := some { (default : Cmis) with copper := true } } } },
      by exact ⟨by decide, by decide, by decide, (by unfold State.trainable; cases isB8 <;> decide), by decide,
          (by intro m; match m with | 0 | 1 | 2 | 3 | 4 | 5 | 6 | 7 => rfl | _ + 8 => rfl)⟩⟩

theorem met_Failover :
  (∃ (n since : Nat) (s : State), n < 8 ∧ s.ports.links.length = 8 ∧ s.var 0x0105 = 1 ∧ (s.link n).up = false ∧ (s.link n).movedTo = none
      ∧ (s.link n).downAt = some since ∧ since + s.var 0x0106 * 1000000 ≤ s.clock ∧ (s.link ((n + 4) % 8)).up = true)
  ∧ (∃ (n since : Nat) (s : State), n < 8 ∧ s.ports.links.length = 8 ∧ s.var 0x0105 = 1 ∧ (s.link n).up = false
      ∧ (s.link n).movedTo = none ∧ (s.link n).downAt = some since ∧ since + s.var 0x0106 * 1000000 ≤ s.clock ∧ (∀ m,
      (s.link m).up = false))
  ∧ (∃ (n since carrier : Nat) (s : State), n < 8 ∧ (s.link n).up = true ∧ (s.link n).movedTo = some carrier ∧ (s.link n).upSince = since
      ∧ since + 1000000000 ≤ s.clock)
  ∧ (∃ (h : Held) (s : State), s.net.held.find? (fun g => g.id == h.id) = some h ∧ (s.link (s.carrier h.link)).up = false
      ∧ h.queued + 1000000000 ≤ s.clock) :=
  ⟨⟨0, 0,
      { run with clock := sec 1, vars := [], modes := { run.modes with startStep := 11 }, ports := { run.ports with links := { Link.off with downAt := some 0 } :: Link.off :: Link.off :: Link.off :: { Link.off with up := true, lanes := 0x0F } :: List.replicate 3 Link.off } },
      by (try dsimp only [NoneWaits]); decide⟩,
    ⟨0, 0,
        { run with clock := sec 1, vars := [], modes := { run.modes with startStep := 11 }, ports := { run.ports with links := { Link.off with downAt := some 0 } :: List.replicate 7 Link.off } },
      by exact ⟨by decide, by decide, by decide, by decide, by decide, by decide, by decide,
          (by intro m; match m with | 0 | 1 | 2 | 3 | 4 | 5 | 6 | 7 => rfl | _ + 8 => rfl)⟩⟩,
    ⟨0, 0, 4,
        { run with clock := sec 1, vars := [], modes := { run.modes with startStep := 11 }, ports := { run.ports with links := { Link.off with up := true, movedTo := some 4 } :: List.replicate 7 Link.off } },
      by (try dsimp only [NoneWaits]); decide⟩,
    ⟨{ (default : Held) with link := 0 },
        { run with clock := sec 1, net := { run.net with held := [{ (default : Held) with link := 0 }] } },
      by (try dsimp only [NoneWaits]); decide⟩⟩

theorem met_PausesAndNeighbours :
  (∃ (n prio since until' : Nat) (s : State), (prio, since, until') ∈ (s.link n).pauses ∧ until' ≤ s.clock)
  ∧ (∃ (n prio since until' : Nat) (s : State), (prio, since, until') ∈ (s.link n).pauses ∧ s.var 0x010A ≠ 0
      ∧ since + s.var 0x010A * 1000000 ≤ s.clock) :=
  ⟨⟨0, 8, 0, 0,
      { run with clock := 0, vars := [], modes := { run.modes with startStep := 11 }, ports := { run.ports with links := [{ Link.off with pauses := [(8, 0, 0)] }] } },
      by (try dsimp only [NoneWaits]); decide⟩,
    ⟨0, 8, 0, 9,
        { run with clock := sec 10, vars := [], modes := { run.modes with startStep := 11 }, ports := { run.ports with links := [{ Link.off with pauses := [(8, 0, 9)] }] } },
      by (try dsimp only [NoneWaits]); decide⟩⟩

theorem met_PlugInModules :
  (∃ (b : Bool) (c : Cmis) (s : State), (s.cage b).present = false)
  ∧ (∃ (b : Bool) (s : State), (s.cage b).present = true ∧ (s.cage b).accepted = false ∧ (s.cage b).refuse = 0
      ∧ (s.cage b).lowPower = false
      ∧ (s.cage b).since + (match (s.cage b).cmis with | some m => if m.readyMs = 0 then 2000000000 else m.readyMs * 1000000 | none => 2000000000) ≤ s.clock)
  ∧ (∃ (b : Bool) (s : State), (s.cage b).present = true)
  ∧ (∃ (b : Bool) (c : Cmis) (s : State), (s.cage b).present = true ∧ (s.cage b).accepted = true ∧ s.supply.mainOn = true) :=
  ⟨⟨true, default, run,
      by (try dsimp only [NoneWaits]); decide⟩,
    ⟨true, { run with clock := sec 2, ports := { run.ports with cageB := { Cage.empty with present := true, lowPower := false } } },
      by (try dsimp only [NoneWaits]); decide⟩,
    ⟨false,
        { run with ports := { run.ports with cageA := { Cage.empty with present := true, accepted := true, lowPower := false, cmis := some { (default : Cmis) with copper := true } } } },
      by (try dsimp only [NoneWaits]); decide⟩,
    ⟨false, default,
        { run with ports := { run.ports with cageA := { Cage.empty with present := true, accepted := true, lowPower := false, cmis := some { (default : Cmis) with copper := true } } } },
      by (try dsimp only [NoneWaits]); decide⟩⟩

theorem met_FramesReceived :
  let up (n : Nat) (s : State) : Prop := n < 8 ∧ (s.link n).up = true
  let good (n : Nat) (f : Frame) (s : State) : Prop := n < 8 ∧ (s.link n).up = true ∧ f.fcsOk = true ∧ f.fecOk = true ∧ 64 ≤ f.length ∧
    f.length ≤ s.mtu n + 22 ∧ f.bufferFree = true
  (∃ (n : Nat) (f : Frame) (s : State), (s.link n).up = false)
  ∧ (∃ (n : Nat) (f : Frame) (s : State), up n s ∧ f.fecOk = false)
  ∧ (∃ (n : Nat) (f : Frame) (s : State), up n s ∧ f.fcsOk = false)
  ∧ (∃ (n : Nat) (f : Frame) (s : State), up n s ∧ f.fcsOk = true ∧ f.fecOk = true ∧ f.length < 64)
  ∧ (∃ (n : Nat) (f : Frame) (s : State), up n s ∧ f.fcsOk = true ∧ f.fecOk = true ∧ 64 ≤ f.length ∧ s.mtu n + 22 < f.length)
  ∧ (∃ (n : Nat) (f : Frame) (s : State), up n s ∧ f.fcsOk = true ∧ f.fecOk = true ∧ 64 ≤ f.length ∧ f.length ≤ s.mtu n + 22
      ∧ f.bufferFree = false)
  ∧ (∃ (n quanta : Nat) (f : Frame) (s : State), good n f s ∧ f.dstMac = .macControl ∧ f.l3 = .pause quanta ∧ quanta ≠ 0
      ∧ s.var (if n < 4 then 0x0107 else 0x0108) = 1 ∧ (s.link n).holdoff = [] ∧ (s.link n).pauses = [])
  ∧ (∃ (n : Nat) (a : Addr) (f : Frame) (s : State), good n f s ∧ f.dstMac = .broadcast ∧ f.l3 = .arp (.request a) ∧ f.tag = .untagged
      ∧ s.var (0x0110 + n) = 0 ∧ a ∈ s.linkAddrs n ∧ (s.link n).movedTo = none ∧ (s.link n).pauses = []) :=
  ⟨⟨0, default, run,
      by (try dsimp only [NoneWaits]); decide⟩,
    ⟨0, default,
        { run with clock := 0, vars := [], modes := { run.modes with startStep := 11 }, ports := { run.ports with links := [{ Link.off with up := true, lanes := 0x0F }] } },
      by (try dsimp only [NoneWaits]); decide⟩,
    ⟨0, default,
        { run with clock := 0, vars := [], modes := { run.modes with startStep := 11 }, ports := { run.ports with links := [{ Link.off with up := true, lanes := 0x0F }] } },
      by (try dsimp only [NoneWaits]); decide⟩,
    ⟨0, { (default : Frame) with fcsOk := true, fecOk := true, bufferFree := true, length := 63 },
        { run with clock := 0, vars := [], modes := { run.modes with startStep := 11 }, ports := { run.ports with links := [{ Link.off with up := true, lanes := 0x0F }] } },
      by (try dsimp only [NoneWaits]); decide⟩,
    ⟨0, { (default : Frame) with fcsOk := true, fecOk := true, length := 100000, bufferFree := true },
        { run with clock := 0, vars := [], modes := { run.modes with startStep := 11 }, ports := { run.ports with links := [{ Link.off with up := true, lanes := 0x0F }] } },
      by (try dsimp only [NoneWaits]); decide⟩,
    ⟨0, { (default : Frame) with fcsOk := true, fecOk := true, length := 64, bufferFree := false },
        { run with clock := 0, vars := [], modes := { run.modes with startStep := 11 }, ports := { run.ports with links := [{ Link.off with up := true, lanes := 0x0F }] } },
      by (try dsimp only [NoneWaits]); decide⟩,
    ⟨0, 1,
        { (default : Frame) with fcsOk := true, fecOk := true, length := 64, bufferFree := true, dstMac := .macControl, l3 := .pause 1 },
        { run with clock := 0, vars := [(0x0107, 1)], modes := { run.modes with startStep := 11 }, ports := { run.ports with links := [{ Link.off with up := true, lanes := 0x0F }] } },
      by (try dsimp only [NoneWaits]); decide⟩,
    ⟨0, ⟨false, 9⟩,
        { (default : Frame) with fcsOk := true, fecOk := true, length := 64, bufferFree := true, dstMac := .broadcast, l3 := .arp (.request ⟨false, 9⟩), tag := .untagged },
        { run with clock := 0, vars := [(0x0120, 9)], modes := { run.modes with startStep := 11 }, ports := { run.ports with links := [{ Link.off with up := true, lanes := 0x0F }] } },
      by (try dsimp only [NoneWaits]); decide⟩⟩

theorem met_SessionsOpenAndEnd :
  (∃ (c n : Nat) (x : Ctx) (s : State), s.fresh? c 0x10 = some x ∧ s.modeStops x = none ∧ s.openLimits x = true ∧ s.repeatOf x = none
      ∧ s.fw.restarting = false ∧ s.poolOpen (bits x.paramA.toNat 11 8) < s.poolEntries (bits x.paramA.toNat 11 8)
      ∧ s.freeNumber = some n)
  ∧ (∃ (c : Nat) (x : Ctx) (y : Session) (s : State), s.fresh? c 0x10 = some x ∧ s.modeStops x = none ∧ s.openLimits x = true
      ∧ s.repeatOf x = some y)
  ∧ (∃ (c : Nat) (x : Ctx) (s : State), s.fresh? c 0x10 = some x ∧ s.modeStops x = none ∧ s.openLimits x = true ∧ s.repeatOf x = none
      ∧ s.fw.restarting = false ∧ s.poolEntries (bits x.paramA.toNat 11 8) ≤ s.poolOpen (bits x.paramA.toNat 11 8)
      ∧ s.longestIdle (bits x.paramA.toNat 11 8) = none)
  ∧ (∃ (n : Nat) (y : Session) (s : State), s.session? n = some y ∧ y.closing = none ∧ (∀ x ∈ s.net.ctxs, x.session ≠ some n)
      ∧ (∀ k ∈ s.net.kept, k.session ≠ n) ∧ y.lastHeard + s.var 0x0203 * 1000000000 ≤ s.clock)
  ∧ (∃ (n : Nat) (y : Session) (s : State), s.session? n = some y ∧ y.closed = true ∧ (∀ x ∈ s.net.ctxs, x.session ≠ some n)
      ∧ (∀ k ∈ s.net.kept, k.session ≠ n)) :=
  ⟨⟨0, (Config.choice 0 + 0) % 131072, cmd 0x10, { run with clock := 0, net := { run.net with ctxs := [cmd 0x10] } },
      by exact ⟨by decide, by decide, by decide, by decide, by decide, by decide, rfl⟩⟩,
    ⟨0, cmd 0x10, (default : Session),
        { run with clock := 0, net := { run.net with ctxs := [cmd 0x10], sessions := [(default : Session)] } },
      by (try dsimp only [NoneWaits]); decide⟩,
    ⟨0, { cmd 0x10 with paramA := 256 },
        { run with clock := 0, net := { run.net with ctxs := [{ cmd 0x10 with paramA := 256 }, { cmd 0 with id := 1, session := some 0 }], sessions := List.replicate 512 { (default : Session) with fence := 1, used := true } }, owners := [Owner.commons, { Owner.none with sessions512 := 1 }] },
      by (try dsimp only [NoneWaits]); decide +kernel⟩,
    ⟨0, (default : Session), { run with clock := sec 1000000, net := { run.net with ctxs := [], sessions := [(default : Session)] } },
      by (try dsimp only [NoneWaits]); decide⟩,
    ⟨0, { (default : Session) with closed := true },
        { run with clock := 0, net := { run.net with ctxs := [], sessions := [{ (default : Session) with closed := true }] } },
      by (try dsimp only [NoneWaits]); decide⟩⟩

theorem met_SessionCommands :
  (∃ (c n : Nat) (x : Ctx) (y : Session) (s : State), s.fresh? c 0x11 = some x ∧ s.modeStops x = none ∧ x.keyLen = 0 ∧ x.valLen = 0
      ∧ x.flags = 0 ∧ x.paramA = 0 ∧ x.paramB = 0 ∧ x.session = some n ∧ s.session? n = some y ∧ y.closing = none)
  ∧ (∃ (c n : Nat) (x : Ctx) (s : State), s.ctx? c = some x ∧ x.session = some n ∧ x.phase = .draining ∧ x.opcode = 0x11
      ∧ (∀ y ∈ s.net.ctxs, y.session = some n → y.id = c))
  ∧ (∃ (c : Nat) (x : Ctx) (s : State), s.fresh? c 0x12 = some x ∧ s.modeStops x = none ∧ x.keyLen = 0 ∧ x.valLen ≤ 8960 ∧ x.flags = 0)
  ∧ (∃ (c n : Nat) (x y : Ctx) (s : State), s.fresh? c 0x0C = some x ∧ s.modeStops x = none ∧ x.keyLen = 0 ∧ x.valLen = 0 ∧ x.flags = 0
      ∧ x.paramA.toNat < 32 ∧ x.paramB = 0 ∧ x.paramA.toNat ≠ x.tag ∧ x.session = some n ∧ x.mailbox = false ∧ y.mailbox = false
      ∧ NoneWaits s ∧ s.net.ctxs.find? (fun z => z.session == some n && z.tag == x.paramA.toNat && z.id != c && !z.reexec) = some y
      ∧ s.ctx? y.id = some y ∧ isQueued y.opcode = true ∧ y.committed = false)
  ∧ (∃ (c n : Nat) (x y : Ctx) (s : State), s.fresh? c 0x0C = some x ∧ s.modeStops x = none ∧ x.keyLen = 0 ∧ x.valLen = 0 ∧ x.flags = 0
      ∧ x.paramA.toNat < 32 ∧ x.paramB = 0 ∧ x.paramA.toNat ≠ x.tag ∧ x.session = some n ∧ x.mailbox = false ∧ y.mailbox = false
      ∧ NoneWaits s ∧ s.net.ctxs.find? (fun z => z.session == some n && z.tag == x.paramA.toNat && z.id != c && !z.reexec) = some y
      ∧ s.ctx? y.id = some y ∧ (isQueued y.opcode = false ∨ y.committed = true))
  ∧ (∃ (c : Nat) (x : Ctx) (s : State), s.fresh? c 0x0C = some x ∧ s.modeStops x = none ∧ x.keyLen = 0 ∧ x.valLen = 0 ∧ x.flags = 0
      ∧ x.paramA.toNat < 32 ∧ x.paramB = 0 ∧ (x.paramA.toNat = x.tag ∨ x.session = none) ∧ NoneWaits s) :=
  ⟨⟨0, 0, { cmd 0x11 with session := some 0 }, (default : Session),
      { run with clock := 0, net := { run.net with ctxs := [{ cmd 0x11 with session := some 0 }], sessions := [(default : Session)] } },
      by (try dsimp only [NoneWaits]); decide⟩,
    ⟨0, 0, { cmd 0x11 with session := some 0, phase := .draining },
        { run with clock := 0, net := { run.net with ctxs := [{ cmd 0x11 with session := some 0, phase := .draining }] } },
      by (try dsimp only [NoneWaits]); decide⟩,
    ⟨0, cmd 0x12, { run with clock := 0, net := { run.net with ctxs := [cmd 0x12] } },
      by (try dsimp only [NoneWaits]); decide⟩,
    ⟨0, 0, { cmd 0x0C with session := some 0, paramA := 1 }, { cmd 0x01 with id := 1, session := some 0, tag := 1 },
        { run with clock := 0, net := { run.net with ctxs := [{ cmd 0x0C with session := some 0, paramA := 1 }, { cmd 0x01 with id := 1, session := some 0, tag := 1 }] } },
      by (try dsimp only [NoneWaits]); decide⟩,
    ⟨0, 0, { cmd 0x0C with session := some 0, paramA := 1 }, { cmd 0x12 with id := 1, session := some 0, tag := 1 },
        { run with clock := 0, net := { run.net with ctxs := [{ cmd 0x0C with session := some 0, paramA := 1 }, { cmd 0x12 with id := 1, session := some 0, tag := 1 }] } },
      by (try dsimp only [NoneWaits]); decide⟩,
    ⟨0, cmd 0x0C, { run with clock := 0, net := { run.net with ctxs := [cmd 0x0C] } },
      by (try dsimp only [NoneWaits]); decide⟩⟩

theorem met_WindowMoves :
  (∃ (y : Session) (s : State), s.net.sessions = [y] ∧ y.fence = 0 ∧ y.window ≤ 32 ∧ y.request ≤ 32 ∧ s.capacityUnits = 0
      ∧ s.internalContexts = 0 ∧ (∀ o, (s.owner o).gc ≠ 3)
      ∧ (s.idleSession y.num = false ∨ s.clock < y.lastHeard + s.var 0x0304 * 1000000))
  ∧ (∃ (y : Session) (s : State), s.net.sessions = [y] ∧ y.fence = 0 ∧ y.window ≤ 32 ∧ s.capacityUnits = 0 ∧ s.internalContexts = 0
      ∧ (∀ o, (s.owner o).gc ≠ 3) ∧ s.idleSession y.num = true ∧ y.lastHeard + s.var 0x0304 * 1000000 ≤ s.clock) :=
  ⟨⟨(default : Session), { run with clock := 0, net := { run.net with ctxs := [], sessions := [(default : Session)] } },
      by exact ⟨by decide, by decide, by decide, by decide, by decide, by decide,
          (by intro o; match o with | 0 | 1 | 2 | 3 | 4 | 5 | 6 | 7 | 8 => decide | _ + 9 => exact (by decide : Owner.none.gc ≠ 3)),
          by decide⟩⟩,
    ⟨(default : Session), { run with clock := sec 1000, net := { run.net with ctxs := [], sessions := [(default : Session)] } },
      by exact ⟨by decide, by decide, by decide, by decide, by decide,
          (by intro o; match o with | 0 | 1 | 2 | 3 | 4 | 5 | 6 | 7 | 8 => decide | _ + 9 => exact (by decide : Owner.none.gc ≠ 3)),
          by decide, by decide⟩⟩⟩

theorem met_KeptMessages :
  (∃ (c : Nat) (x : Ctx) (s : State), s.ctx? c = some x ∧ x.phase = .assembling ∧ x.admitted + 200000000 ≤ s.clock)
  ∧ (∃ (c n done : Nat) (x : Ctx) (s : State), s.ctx? c = some x ∧ x.session = some n ∧ x.completed = some done ∧ x.acked = false
      ∧ x.reexec = false ∧ s.var 0x0202 ≠ 0 ∧ done + s.var 0x0202 * 1000 ≤ s.clock)
  ∧ (∃ (a : AckInfo) (k : Kept) (s : State), s.net.kept.find? (AckInfo_names a) = some k ∧ a.ackAll = true ∧ k.id < s.net.nextId)
  ∧ (∃ (a : AckInfo) (s : State), s.net.kept.find? (AckInfo_names a) = none ∧ s.modes.mode = .dormant)
  ∧ (∃ (id ended : Nat) (k : Kept) (s : State), (∀ r ∈ s.relay.slots, r.id ≠ id) ∧ s.net.kept.find? (fun k => k.id == id) = some k
      ∧ k.ended = some ended ∧ k.sends < 8 ∧ ended + 50000 * 2 ^ (k.sends - 1) ≤ s.clock ∧ k.seg ≤ s.payload k.path)
  ∧ (∃ (id ended : Nat) (k : Kept) (s : State), (∀ r ∈ s.relay.slots, r.id ≠ id) ∧ s.net.kept.find? (fun k => k.id == id) = some k
      ∧ k.ended = some ended ∧ 8 ≤ k.sends ∧ ended + 3200000 ≤ s.clock ∧ id < s.net.nextId) :=
  ⟨⟨0, { cmd 0x01 with phase := .assembling },
      { run with clock := ms 200, net := { run.net with ctxs := [{ cmd 0x01 with phase := .assembling }] } },
      by (try dsimp only [NoneWaits]); decide⟩,
    ⟨0, 0, 0, { cmd 0x01 with session := some 0, completed := some 0 },
        { run with clock := sec 1, net := { run.net with ctxs := [{ cmd 0x01 with session := some 0, completed := some 0 }] } },
      by (try dsimp only [NoneWaits]); decide⟩,
    ⟨{ (default : AckInfo) with ackAll := true }, (default : Kept),
        { run with clock := 0, net := { run.net with ctxs := [], kept := [(default : Kept)] } },
      by (try dsimp only [NoneWaits]); decide⟩,
    ⟨default, State.reset,
      by (try dsimp only [NoneWaits]); decide⟩,
    ⟨0, 0, { (default : Kept) with ended := some 0, sends := 1 },
        { run with clock := sec 1, net := { run.net with ctxs := [], kept := [{ (default : Kept) with ended := some 0, sends := 1 }] } },
      by (try dsimp only [NoneWaits]); decide⟩,
    ⟨0, 0, { (default : Kept) with ended := some 0, sends := 8 },
        { run with clock := sec 1, net := { run.net with ctxs := [], kept := [{ (default : Kept) with ended := some 0, sends := 8 }] } },
      by (try dsimp only [NoneWaits]); decide⟩⟩

theorem met_MergedCrossings :
  (∃ (k : Nat) (m : Watermark) (at' : Nat) (s : State), 1 ≤ k ∧ k ≤ 6 ∧ s.marks.length = 6 ∧ s.marks[k - 1]? = some m ∧ 0 < m.merged
      ∧ m.sentAt = some at' ∧ at' + 1000000000 ≤ s.clock) :=
  ⟨1, { Watermark.clear with merged := 1, sentAt := some 0 }, 0,
      { run with clock := sec 1, marks := { Watermark.clear with merged := 1, sentAt := some 0 } :: List.replicate 5 Watermark.clear },
      by (try dsimp only [NoneWaits]); decide⟩

theorem met_ReadsAdmitted :
  (∃ (x : Ctx) (s : State), s.fresh? 0 0x01 = some x ∧ NoneWaits s ∧ s.modeStops x = some .wrongMode)
  ∧ (∃ (x : Ctx) (s : State), s.fresh? 0 0x01 = some x ∧ NoneWaits s ∧ s.modeStops x = none ∧ getLimits x = false)
  ∧ (∃ (x : Ctx) (s : State), s.fresh? 0 0x01 = some x ∧ NoneWaits s ∧ s.modeStops x = none ∧ getLimits x = true ∧ s.ksMissing x = true)
  ∧ (∃ (x : Ctx) (r : Reply) (s : State), s.fresh? 0 0x01 = some x ∧ NoneWaits s ∧ s.modeStops x = none ∧ getLimits x = true
      ∧ s.ksMissing x = false
      ∧ s.misplaced x true = some r)
  ∧ (∃ (x : Ctx) (s : State), s.fresh? 0 0x01 = some x ∧ NoneWaits s ∧ s.modeStops x = none ∧ getLimits x = true ∧ s.ksMissing x = false
      ∧ s.misplaced x true = none ∧ s.ksLocked x.keyspace = true)
  ∧ (∃ (x : Ctx) (s : State), s.fresh? 0 0x01 = some x ∧ NoneWaits s ∧ s.modeStops x = none ∧ getLimits x = true ∧ s.ksMissing x = false
      ∧ s.misplaced x true = none ∧ s.ksLocked x.keyspace = false) :=
  ⟨⟨cmd 0x01, { run with clock := 0, net := { run.net with ctxs := [cmd 0x01] }, modes := { run.modes with mode := .sanitising } },
      by (try dsimp only [NoneWaits]); decide⟩, ⟨cmd 0x01, { run with clock := 0, net := { run.net with ctxs := [cmd 0x01] } },
      by (try dsimp only [NoneWaits]); decide⟩,
    ⟨{ cmd 0x01 with keyLen := 1, keyspace := 1, key := [7] },
        { run with clock := 0, net := { run.net with ctxs := [{ cmd 0x01 with keyLen := 1, keyspace := 1, key := [7] }] } },
        by (try dsimp only [NoneWaits]); decide⟩, ⟨{ cmd 0x01 with keyLen := 1, keyspace := 1, key := [7] }, Reply.plain .redirect,
        { run with clock := 0, net := { run.net with ctxs := [{ cmd 0x01 with keyLen := 1, keyspace := 1, key := [7] }] }, store := { run.store with keyspaces := [{ (default : Keyspace) with id := 1 }] }, relay := { run.relay with map := some { (default : OrchardMap) with cover := List.replicate 512 0xFF, self := 4 } } },
        by (try dsimp only [NoneWaits]); decide +kernel⟩,
    ⟨{ cmd 0x01 with keyLen := 1, keyspace := 1, key := [7] },
        { run with clock := 0, net := { run.net with ctxs := [{ cmd 0x01 with keyLen := 1, keyspace := 1, key := [7] }] }, store := { run.store with keyspaces := [{ (default : Keyspace) with id := 1, encrypted := true }] } },
        by (try dsimp only [NoneWaits]); decide⟩, ⟨{ cmd 0x01 with keyLen := 1, keyspace := 1, key := [7] },
        { run with clock := 0, net := { run.net with ctxs := [{ cmd 0x01 with keyLen := 1, keyspace := 1, key := [7] }] }, store := { run.store with keyspaces := [{ (default : Keyspace) with id := 1 }] } },
        by (try dsimp only [NoneWaits]); decide⟩⟩

theorem met_WritesAdmitted :
  (∃ (c : Nat) (x : Ctx) (p : Prefix) (s : State), s.fresh? c x.opcode = some x ∧ x.relayed = true ∧ x.pre = some p ∧ p.marker = 0
      ∧ NoneWaits s ∧ s.modeStops x = none ∧ writeLimits x = true ∧ s.ksMissing x = false
      ∧ (x.writesValue = false ∨ s.ksLocked x.keyspace = false) ∧ s.keyExhausted x = false ∧ p.crc ≠ crc64 (x.key ++ x.body))
  ∧ (∃ (c : Nat) (x : Ctx) (p : Prefix) (s : State), s.fresh? c x.opcode = some x ∧ x.relayed = true ∧ x.pre = some p ∧ p.marker = 0
      ∧ NoneWaits s ∧ s.modeStops x = none ∧ writeLimits x = true ∧ s.ksMissing x = false
      ∧ (x.writesValue = false ∨ s.ksLocked x.keyspace = false) ∧ s.keyExhausted x = false ∧ p.crc = crc64 (x.key ++ x.body)) :=
  ⟨⟨0, { cmd 0x06 with flags := 0x20, keyLen := 1, keyspace := 1, pre := some { (default : Prefix) with crc := 1 } },
      { (default : Prefix) with crc := 1 },
      { run with clock := 0, net := { run.net with ctxs := [{ cmd 0x06 with flags := 0x20, keyLen := 1, keyspace := 1, pre := some { (default : Prefix) with crc := 1 } }] }, store := { run.store with keyspaces := [{ (default : Keyspace) with id := 1 }] } },
      by (try dsimp only [NoneWaits]); decide⟩,
    ⟨0, { cmd 0x06 with flags := 0x20, keyLen := 1, keyspace := 1, pre := some default }, (default : Prefix),
        { run with clock := 0, net := { run.net with ctxs := [{ cmd 0x06 with flags := 0x20, keyLen := 1, keyspace := 1, pre := some default }] }, store := { run.store with keyspaces := [{ (default : Keyspace) with id := 1 }] } },
      by (try dsimp only [NoneWaits]); decide⟩⟩

theorem met_WritesAdmitted_own :
  let ok (x : Ctx) (s : State) : Prop := s.fresh? 0 0x02 = some x ∧ x.relayed = false ∧ NoneWaits s
  let fit (x : Ctx) (s : State) : Prop := ok x s ∧ s.modeStops x = none ∧ writeLimits x = true ∧ s.ksMissing x = false
  (∃ (x : Ctx) (s : State), ok x s ∧ s.modeStops x = some .wrongMode) ∧ (∃ (x : Ctx) (s : State), ok x s ∧ s.modeStops x = none
      ∧ writeLimits x = false)
  ∧ (∃ (x : Ctx) (s : State), ok x s ∧ s.modeStops x = none ∧ writeLimits x = true ∧ s.ksMissing x = true)
  ∧ (∃ (x : Ctx) (s : State), fit x s ∧ s.misplaced x false ≠ none)
  ∧ (∃ (x : Ctx) (s : State), fit x s ∧ s.misplaced x false = none ∧ x.writesValue = true ∧ s.ksLocked x.keyspace = true)
  ∧ (∃ (x : Ctx) (s : State), fit x s ∧ s.misplaced x false = none ∧ s.ksLocked x.keyspace = false ∧ s.keyExhausted x = true)
  ∧ (∃ (x : Ctx) (s : State), fit x s ∧ s.misplaced x false = none ∧ s.ksLocked x.keyspace = false ∧ s.keyExhausted x = false
      ∧ x.flags.getLsbD 0 = false ∧ (s.keyspace? x.keyspace).any (·.requireDigest) = true)
  ∧ (∃ (x : Ctx) (s : State), fit x s ∧ s.misplaced x false = none ∧ s.ksLocked x.keyspace = false ∧ s.keyExhausted x = false
      ∧ x.flags.getLsbD 0 = true ∧ crc64 x.body ≠ x.paramB)
  ∧ (∃ (x : Ctx) (s : State), fit x s ∧ s.misplaced x false = none ∧ s.ksLocked x.keyspace = false ∧ s.keyExhausted x = false
      ∧ x.flags.getLsbD 0 = false ∧ (s.keyspace? x.keyspace).any (·.requireDigest) = false) :=
  ⟨⟨cmd 0x02, { run with clock := 0, net := { run.net with ctxs := [cmd 0x02] }, modes := { run.modes with mode := .sanitising } },
      by (try dsimp only [NoneWaits]); decide⟩,
    ⟨cmd 0x02, { run with clock := 0, net := { run.net with ctxs := [cmd 0x02] } }, by (try dsimp only [NoneWaits]); decide⟩,
    ⟨{ cmd 0x02 with keyLen := 1, keyspace := 1, key := [7] },
        { run with clock := 0, net := { run.net with ctxs := [{ cmd 0x02 with keyLen := 1, keyspace := 1, key := [7] }] } },
        by (try dsimp only [NoneWaits]); decide⟩,
    ⟨{ cmd 0x02 with keyLen := 1, keyspace := 1, key := [7] },
        { run with clock := 0, net := { run.net with ctxs := [{ cmd 0x02 with keyLen := 1, keyspace := 1, key := [7] }] }, store := { run.store with keyspaces := [{ (default : Keyspace) with id := 1 }] }, relay := { run.relay with map := some { (default : OrchardMap) with cover := List.replicate 512 0xFF, self := 4 } } },
        by (try dsimp only [NoneWaits]); decide +kernel⟩,
    ⟨{ cmd 0x02 with keyLen := 1, keyspace := 1, key := [7] },
        { run with clock := 0, net := { run.net with ctxs := [{ cmd 0x02 with keyLen := 1, keyspace := 1, key := [7] }] }, store := { run.store with keyspaces := [{ (default : Keyspace) with id := 1, encrypted := true }] } },
        by (try dsimp only [NoneWaits]); decide⟩,
    ⟨{ cmd 0x02 with keyLen := 1, keyspace := 1, key := [7] },
        { run with clock := 0, net := { run.net with ctxs := [{ cmd 0x02 with keyLen := 1, keyspace := 1, key := [7] }] }, store := { run.store with keyspaces := [{ (default : Keyspace) with id := 1, encrypted := true }] }, cipher := { run.cipher with pages := [{ KeyPage.blank 0 with cur := { KeySlot.blank with st := .loaded }, taken := 2 ^ 32 }] } },
        by (try dsimp only [NoneWaits]); decide⟩,
    ⟨{ cmd 0x02 with keyLen := 1, keyspace := 1, key := [7] },
        { run with clock := 0, net := { run.net with ctxs := [{ cmd 0x02 with keyLen := 1, keyspace := 1, key := [7] }] }, store := { run.store with keyspaces := [{ (default : Keyspace) with id := 1, requireDigest := true }] } },
        by (try dsimp only [NoneWaits]); decide⟩,
    ⟨{ cmd 0x02 with keyLen := 1, keyspace := 1, key := [7], flags := 1, paramB := 1 },
        { run with clock := 0, net := { run.net with ctxs := [{ cmd 0x02 with keyLen := 1, keyspace := 1, key := [7], flags := 1, paramB := 1 }] }, store := { run.store with keyspaces := [{ (default : Keyspace) with id := 1 }] } },
        by (try dsimp only [NoneWaits]); decide⟩,
    ⟨{ cmd 0x02 with keyLen := 1, keyspace := 1, key := [7] },
        { run with clock := 0, net := { run.net with ctxs := [{ cmd 0x02 with keyLen := 1, keyspace := 1, key := [7] }] }, store := { run.store with keyspaces := [{ (default : Keyspace) with id := 1 }] } },
        by (try dsimp only [NoneWaits]); decide⟩⟩

theorem met_SeedMarks :
  (∃ (c kind : Nat) (x : Ctx) (p : Prefix) (k : Keyspace) (s : State), (kind = 1 ∨ kind = 2) ∧ s.marker? c kind = some (x, p)
      ∧ s.modeStops x = none ∧ markerLimits x = true ∧ s.keyspace? x.keyspace = some k ∧ s.ksMissing x = false ∧ k.attrs = p.attrs.toNat
      ∧ NoneWaits s)
  ∧ (∃ (c : Nat) (x : Ctx) (p : Prefix) (s : State), s.marker? c 1 = some (x, p) ∧ s.modeStops x = none ∧ markerLimits x = true
      ∧ s.keyspace? x.keyspace = none ∧ s.createStatus x.keyspace p.attrs.toNat = none ∧ NoneWaits s) :=
  ⟨⟨0, 1, { cmd 0x06 with flags := 0x20, keyLen := 1, keyspace := 1, pre := some { (default : Prefix) with marker := 1 } },
      { (default : Prefix) with marker := 1 }, { (default : Keyspace) with id := 1 },
      { run with clock := 0, net := { run.net with ctxs := [{ cmd 0x06 with flags := 0x20, keyLen := 1, keyspace := 1, pre := some { (default : Prefix) with marker := 1 } }] }, store := { run.store with keyspaces := [{ (default : Keyspace) with id := 1 }] } },
      by (try dsimp only [NoneWaits]); decide⟩,
    ⟨0, { cmd 0x06 with flags := 0x20, keyLen := 1, keyspace := 1, pre := some { (default : Prefix) with marker := 1 } },
        { (default : Prefix) with marker := 1 },
        { run with clock := 0, net := { run.net with ctxs := [{ cmd 0x06 with flags := 0x20, keyLen := 1, keyspace := 1, pre := some { (default : Prefix) with marker := 1 } }] } },
      by (try dsimp only [NoneWaits]); decide⟩⟩

theorem met_ShaperAdmits :
  let waits (c : Nat) (x : Ctx) (s : State) : Prop := s.ctx? c = some x ∧ x.phase = .shaping ∧ s.atHead x = true
  (∃ (c : Nat) (x : Ctx) (s : State), waits c x s ∧ x.isShaped = false)
  ∧ (∃ (c : Nat) (x : Ctx) (k : Keyspace) (h : Shaper) (s : State), waits c x s ∧ x.isShaped = true ∧ x.ksTokens = false
      ∧ s.firstWaiter x = true ∧ s.keyspace? x.keyspace = some k ∧ k.shaper = some h ∧ h.stopped = false
      ∧ (h.accrue s.clock).admits = true ∧ (s.owner k.fence).shaper = none)
  ∧ (∃ (c : Nat) (x : Ctx) (k : Keyspace) (h : Shaper) (s : State), waits c x s ∧ x.isShaped = true ∧ x.ksTokens = false
      ∧ s.keyspace? x.keyspace = some k ∧ k.shaper = some h ∧ h.stopped = false
      ∧ ((h.accrue s.clock).admits = false ∨ s.firstWaiter x = false))
  ∧ (∃ (c : Nat) (x : Ctx) (h : Shaper) (s : State), waits c x s ∧ x.isShaped = true ∧ x.ksTokens = true ∧ s.firstWaiter x = true
      ∧ (s.owner (s.ksOwner x.keyspace)).shaper = some h ∧ s.ksOwner x.keyspace < s.owners.length ∧ (h.accrue s.clock).admits = true) :=
  ⟨⟨0, { cmd 0x12 with phase := .shaping },
      { run with clock := 0, net := { run.net with ctxs := [{ cmd 0x12 with phase := .shaping }] } },
      by (try dsimp only [NoneWaits]); decide⟩,
    ⟨0, { cmd 0x01 with phase := .shaping, keyspace := 1 },
        { (default : Keyspace) with id := 1, shaper := some { (default : Shaper) with byteRate := 2 ^ 64 - 1, opRate := 2 ^ 64 - 1 } },
        { (default : Shaper) with byteRate := 2 ^ 64 - 1, opRate := 2 ^ 64 - 1 },
        { run with clock := 0, net := { run.net with ctxs := [{ cmd 0x01 with phase := .shaping, keyspace := 1 }] }, store := { run.store with keyspaces := [{ (default : Keyspace) with id := 1, shaper := some { (default : Shaper) with byteRate := 2 ^ 64 - 1, opRate := 2 ^ 64 - 1 } }] } },
      by (try dsimp only [NoneWaits]); decide⟩,
    ⟨0, { cmd 0x01 with phase := .shaping, keyspace := 1 },
        { (default : Keyspace) with id := 1, shaper := some { (default : Shaper) with bytes := -1 } },
        { (default : Shaper) with bytes := -1 },
        { run with clock := 0, net := { run.net with ctxs := [{ cmd 0x01 with phase := .shaping, keyspace := 1 }] }, store := { run.store with keyspaces := [{ (default : Keyspace) with id := 1, shaper := some { (default : Shaper) with bytes := -1 } }] } },
      by (try dsimp only [NoneWaits]); decide⟩,
    ⟨0, { cmd 0x01 with phase := .shaping, keyspace := 1, ksTokens := true },
        { (default : Shaper) with byteRate := 2 ^ 64 - 1, opRate := 2 ^ 64 - 1 },
        { run with clock := 0, net := { run.net with ctxs := [{ cmd 0x01 with phase := .shaping, keyspace := 1, ksTokens := true }] }, store := { run.store with keyspaces := [{ (default : Keyspace) with id := 1 }] }, owners := [{ Owner.commons with shaper := some { (default : Shaper) with byteRate := 2 ^ 64 - 1, opRate := 2 ^ 64 - 1 } }] },
      by (try dsimp only [NoneWaits]); decide⟩⟩

theorem met_LockConflict :
  (∃ (c : Nat) (x : Ctx) (s : State), s.ctx? c = some x ∧ x.phase = .locking ∧ s.atHead x = true ∧ NoneWaits s ∧ (∃ e ∈ s.net.locks,
      e.keyspace = x.keyspace ∧ e.fp = x.fp) ∧ (∀ e ∈ s.net.locks, ∀ r ∈ e.recs, r.op ≠ .cmd c) ∧ (∀ e ∈ s.net.locks,
      e.keyspace = x.keyspace → e.fp = x.fp → ∃ h ∈ e.recs, h.held = true ∧ lockModesConflict h.mode x.lock.1 = true
      ∧ h.start < x.lock.2.2 ∧ x.lock.2.1 < h.stop)) :=
  ⟨0, { cmd 0x02 with phase := .locking, keyspace := 1 },
      { run with clock := 0, net := { run.net with ctxs := [{ cmd 0x02 with phase := .locking, keyspace := 1 }], locks := [{ (default : LockEntry) with keyspace := 1, recs := [{ (default : LockRec) with op := .cmd 9, mode := .write, stop := 2 ^ 40, held := true }] }] } },
      by (try dsimp only [NoneWaits]); decide⟩

theorem met_ReadGranted :
  let alone (c op : Nat) (x : Ctx) (s : State) : Prop := s.ctx? c = some x ∧ x.phase = .locking ∧ x.opcode = op ∧ s.atHead x = true
      ∧ NoneWaits s
    ∧ s.repairing x.fp = false ∧ (∀ e ∈ s.net.locks, ¬(e.keyspace = x.keyspace ∧ e.fp = x.fp))
        ∧ (∀ e ∈ s.net.locks, ∀ r ∈ e.recs, r.op ≠ .cmd c)
    ∧ (s.net.locks.filter (fun e => lockIsland e.fp == lockIsland x.fp)).length < 16384
  (∃ (c op : Nat) (x : Ctx) (s : State), (op = 0x01 ∨ op = 0x0D) ∧ alone c op x s ∧ (∀ e,
      s.entry? x.keyspace x.fp x.key = some e → e.newest.tomb = true))
  ∧ (∃ (c : Nat) (x : Ctx) (e : Entry) (s : State), alone c 0x0D x s ∧ s.entry? x.keyspace x.fp x.key = some e ∧ e.newest.tomb = false)
  ∧ (∃ (c : Nat) (x : Ctx) (e : Entry) (s : State), alone c 0x01 x s ∧ s.entry? x.keyspace x.fp x.key = some e ∧ e.newest.tomb = false
      ∧ s.matchLength e.newest < x.offset)
  ∧ (∃ (c : Nat) (x : Ctx) (e : Entry) (s : State), alone c 0x01 x s ∧ s.entry? x.keyspace x.fp x.key = some e ∧ e.newest.tomb = false
      ∧ e.newest.segs = none ∧ x.offset ≤ s.matchLength e.newest
      ∧ min (min (if x.valLen = 2 ^ 32 - 1 then s.matchLength e.newest - x.offset else x.valLen) (s.matchLength e.newest - x.offset)) (s.replyCap x) ≠ 0) :=
  ⟨⟨0, 1, { cmd 0x01 with phase := .locking, keyspace := 1 },
      { run with clock := 0, net := { run.net with ctxs := [{ cmd 0x01 with phase := .locking, keyspace := 1 }] } },
      by exact ⟨by decide, ⟨by decide, by decide, by decide, by decide, (by dsimp only [NoneWaits]; decide), by decide, by decide,
          by decide, by decide⟩, (by intro e h; cases h)⟩⟩,
    ⟨0, { cmd 0x0D with phase := .locking, keyspace := 1 }, { (default : Entry) with keyspace := 1 },
        { run with clock := 0, net := { run.net with ctxs := [{ cmd 0x0D with phase := .locking, keyspace := 1 }] }, store := { run.store with entries := [{ (default : Entry) with keyspace := 1 }] } },
      by (try dsimp only [NoneWaits]); decide⟩,
    ⟨0, { cmd 0x01 with phase := .locking, keyspace := 1, paramA := 5 },
        { (default : Entry) with keyspace := 1, newest := { (default : Match) with loc := 1 } },
        { run with clock := 0, net := { run.net with ctxs := [{ cmd 0x01 with phase := .locking, keyspace := 1, paramA := 5 }] }, store := { run.store with entries := [{ (default : Entry) with keyspace := 1, newest := { (default : Match) with loc := 1 } }], recs := [{ (default : Rec) with loc := 1, valLen := 4 }] } },
      by (try dsimp only [NoneWaits]); decide⟩,
    ⟨0, { cmd 0x01 with phase := .locking, keyspace := 1, valLen := 4, mailbox := true },
        { (default : Entry) with keyspace := 1, newest := { (default : Match) with loc := 1 } },
        { run with clock := 0, net := { run.net with ctxs := [{ cmd 0x01 with phase := .locking, keyspace := 1, valLen := 4, mailbox := true }] }, store := { run.store with entries := [{ (default : Entry) with keyspace := 1, newest := { (default : Match) with loc := 1 } }], recs := [{ (default : Rec) with loc := 1, valLen := 4 }] } },
      by (try dsimp only [NoneWaits]); decide⟩⟩

theorem met_WriteConditionsAtGrant :
  (∃ (c : Nat) (x : Ctx) (k : Keyspace) (s : State), s.ctx? c = some x ∧ x.phase = .locking ∧ s.atHead x = true ∧ NoneWaits s
      ∧ s.repairing x.fp = false ∧ (∀ e ∈ s.net.locks, ¬(e.keyspace = x.keyspace ∧ e.fp = x.fp)) ∧ (∀ e ∈ s.net.locks, ∀ r ∈ e.recs,
      r.op ≠ .cmd c) ∧ (s.net.locks.filter (fun e => lockIsland e.fp == lockIsland x.fp)).length < 16384 ∧ s.keyspace? x.keyspace = some k
      ∧ x.relayed = false ∧ x.pre = none ∧ s.collides k.id x.fp x.key = false) :=
  ⟨0, { cmd 0x02 with phase := .locking, keyspace := 1 }, { (default : Keyspace) with id := 1 },
      { run with clock := 0, net := { run.net with ctxs := [{ cmd 0x02 with phase := .locking, keyspace := 1 }] }, store := { run.store with keyspaces := [{ (default : Keyspace) with id := 1 }] } },
      by (try dsimp only [NoneWaits]); decide⟩

theorem met_LockLeft :
  (∃ (c : Nat) (s : State), (∀ x, s.ctx? c = some x → x.committed = true) ∧ NoneWaits s)
  ∧ (∃ (kind : MoveKind) (loc : Nat) (s : State), s.holdsLock (.move kind loc) = false ∧ NoneWaits s)
  ∧ (∃ (kind : MoveKind) (loc : Nat) (r : Rec) (s : State), s.holdsLock (.move kind loc) = true ∧ s.rec? loc = some r ∧ NoneWaits s) :=
  ⟨⟨0, { run with clock := 0, net := { run.net with ctxs := [] } },
      by exact ⟨(by intro x h; cases h), (by dsimp only [NoneWaits]; decide)⟩⟩,
    ⟨.collect, 0, run,
      by (try dsimp only [NoneWaits]); decide⟩,
    ⟨.collect, 1, { (default : Rec) with loc := 1, valLen := 4 },
        { run with clock := 0, net := { run.net with ctxs := [], locks := [{ (default : LockEntry) with recs := [{ (default : LockRec) with op := .move .collect 1, held := true }] }] }, store := { run.store with recs := [{ (default : Rec) with loc := 1, valLen := 4 }] } },
      by (try dsimp only [NoneWaits]); decide⟩⟩

theorem met_PagesRead :
  let reads (c loc a n : Nat) (x : Ctx) (r : Rec) (s : State) : Prop := s.ctx? c = some x ∧ x.phase = .reading ∧ x.recs = [(loc, a, n)]
    ∧ s.rec? loc = some r ∧ (x.mailbox = true ∨ ceilDiv n 4096 ≤ s.cellsFree x.pool) ∧ x.readFail = none
  (∃ (c loc a n step : Nat) (x : Ctx) (r : Rec) (s : State), reads c loc a n x r s ∧ r.poison = false ∧ r.sealed = none
      ∧ (r.digest = none ∨ x.flags.getLsbD 0 = false))
  ∧ (∃ (c loc a n step : Nat) (x : Ctx) (r : Rec) (s : State), reads c loc a n x r s ∧ r.poison = false ∧ r.sealed.isSome = true)
  ∧ (∃ (c loc a n : Nat) (o : ReadOutcome) (x : Ctx) (r : Rec) (s : State), reads c loc a n x r s ∧ r.poison = true) :=
  ⟨⟨0, 1, 0, 4, 0, { cmd 0x01 with phase := .reading, mailbox := true, recs := [(1, 0, 4)] },
      { (default : Rec) with loc := 1, valLen := 4 },
      { run with clock := 0, net := { run.net with ctxs := [{ cmd 0x01 with phase := .reading, mailbox := true, recs := [(1, 0, 4)] }] }, store := { run.store with recs := [{ (default : Rec) with loc := 1, valLen := 4 }] } },
      by (try dsimp only [NoneWaits]); decide⟩,
    ⟨0, 1, 0, 4, 0, { cmd 0x01 with phase := .reading, mailbox := true, recs := [(1, 0, 4)] },
        { (default : Rec) with loc := 1, sealed := some (0, 0) },
        { run with clock := 0, net := { run.net with ctxs := [{ cmd 0x01 with phase := .reading, mailbox := true, recs := [(1, 0, 4)] }] }, store := { run.store with recs := [{ (default : Rec) with loc := 1, sealed := some (0, 0) }] } },
      by (try dsimp only [NoneWaits]); decide⟩,
    ⟨0, 1, 0, 4, default, { cmd 0x01 with phase := .reading, mailbox := true, recs := [(1, 0, 4)] },
        { (default : Rec) with loc := 1, poison := true },
        { run with clock := 0, net := { run.net with ctxs := [{ cmd 0x01 with phase := .reading, mailbox := true, recs := [(1, 0, 4)] }] }, store := { run.store with recs := [{ (default : Rec) with loc := 1, poison := true }] } },
      by (try dsimp only [NoneWaits]); decide⟩⟩

theorem met_CipherJobs :
  (∃ (c : Nat) (x : Ctx) (k : Keyspace) (p : Pipe) (s : State), s.ctx? c = some x ∧ x.phase = .sealing ∧ x.sealGen = none
      ∧ s.keyspace? x.keyspace = some k ∧ s.hasJob (.cmd c) = false
      ∧ s.cipher.pipes.find? (fun q => q.owner == s.pipeOwner x.keyspace && q.running.isNone) = some p)
  ∧ (∃ (c : Nat) (x : Ctx) (s : State), s.ctx? c = some x ∧ x.phase = .sealing ∧ s.hasJob (.cmd c) = false ∧ (∀ q ∈ s.cipher.pipes,
      q.owner = s.pipeOwner x.keyspace → ∃ j, q.running = some j ∧ 1 ≤ j.cls))
  ∧ (∃ (job : JobOf) (s : State), (∀ j ∈ s.cipher.queue, j.of' ≠ job))
  ∧ (∃ (job : JobOf) (j : Job) (s : State), s.cipher.queue = [j] ∧ j.of' = job ∧ j.cls < 3 ∧ 50000 ≤ j.waited + (s.clock - j.since)
      ∧ (∀ q ∈ s.cipher.pipes, q.owner = j.owner → ∃ r, q.running = some r ∧ 3 ≤ r.cls))
  ∧ (∃ (c n gen use : Nat) (x : Ctx) (k : Keyspace) (slot : KeySlot) (p : Pipe) (j : Job) (s : State),
      s.cipher.pipes.find? (fun q => q.n == n) = some p ∧ p.running = some j ∧ p.suspended = [] ∧ s.cipher.queue = [] ∧ j.of' = .cmd c
      ∧ s.ctx? c = some x ∧ x.phase = .sealing ∧ s.keyspace? x.keyspace = some k ∧ x.sealGen = some (gen, use)
      ∧ (s.page k.keyPage).slotOf gen = some slot ∧ NoneWaits s) :=
  ⟨⟨0, { cmd 0x02 with phase := .sealing, keyspace := 1 }, { (default : Keyspace) with id := 1 },
      { n := 0, owner := 0, running := none, suspended := [] },
      { run with clock := 0, net := { run.net with ctxs := [{ cmd 0x02 with phase := .sealing, keyspace := 1 }] }, store := { run.store with keyspaces := [{ (default : Keyspace) with id := 1 }] } },
      by (try dsimp only [NoneWaits]); decide⟩,
    ⟨0, { cmd 0x02 with phase := .sealing, keyspace := 1 },
        { run with clock := 0, net := { run.net with ctxs := [{ cmd 0x02 with phase := .sealing, keyspace := 1 }] }, store := { run.store with keyspaces := [{ (default : Keyspace) with id := 1 }] }, cipher := { run.cipher with pipes := [{ (default : Pipe) with running := some { (default : Job) with of' := .cmd 9, cls := 1 } }] } },
      by (try dsimp only [NoneWaits]); decide⟩,
    ⟨.cmd 0, run,
      by (try dsimp only [NoneWaits]); decide⟩,
    ⟨.cmd 0, { (default : Job) with of' := .cmd 0 },
        { run with clock := 50000, net := { run.net with ctxs := [] }, cipher := { run.cipher with queue := [{ (default : Job) with of' := .cmd 0 }], pipes := [{ (default : Pipe) with running := some { (default : Job) with cls := 3 } }] } },
      by (try dsimp only [NoneWaits]); decide⟩,
    ⟨0, 0, 1, 0, { cmd 0x02 with phase := .sealing, keyspace := 1, sealGen := some (1, 0) }, { (default : Keyspace) with id := 1 },
        { KeySlot.blank with st := .loaded, gen := 1 }, { (default : Pipe) with running := some { (default : Job) with of' := .cmd 0 } },
        { (default : Job) with of' := .cmd 0 },
        { run with clock := 0, net := { run.net with ctxs := [{ cmd 0x02 with phase := .sealing, keyspace := 1, sealGen := some (1, 0) }] }, store := { run.store with keyspaces := [{ (default : Keyspace) with id := 1 }] }, cipher := { run.cipher with pages := [{ KeyPage.blank 0 with cur := { KeySlot.blank with st := .loaded, gen := 1 } }], pipes := [{ (default : Pipe) with running := some { (default : Job) with of' := .cmd 0 } }] } },
      by (try dsimp only [NoneWaits]); decide⟩⟩

theorem met_SettingsCommands :
  let admitted (c op : Nat) (x : Ctx) (s : State) : Prop := s.admin? c op = some x ∧ s.settingsBusy = false ∧ s.modeStops x = none
      ∧ s.settingsHeld = none
  (∃ (c : Nat) (x : Ctx) (s : State), admitted c 0x20 x s ∧ x.only 0 0 true true = true ∧ s.createStatus x.keyspace x.paramA.toNat = none)
  ∧ (∃ (c : Nat) (x : Ctx) (key : BitVec 256) (s : State), admitted c 0x23 x s ∧ s.keyTurn x = true ∧ x.only 0 40 true false = true
      ∧ x.paramA.toNat < 64 ∧ s.unwrapKey x.body = some (some key) ∧ (s.page x.paramA.toNat).cur.st = .empty)
  ∧ (∃ (c : Nat) (x : Ctx) (key : BitVec 256) (s : State), admitted c 0x24 x s ∧ s.keyTurn x = true ∧ x.only 0 40 true false = true
      ∧ x.paramA.toNat < 64 ∧ s.unwrapKey x.body = some (some key) ∧ (s.page x.paramA.toNat).sweep = none
      ∧ (s.page x.paramA.toNat).cur.st = .loaded)
  ∧ (∃ (c : Nat) (x : Ctx) (s : State), admitted c 0x28 x s ∧ x.only 0 0 true false = true ∧ s.fenceReply x = none)
  ∧ (∃ (c : Nat) (x : Ctx) (s : State), admitted c 0x29 x s ∧ shaperLimits x = true ∧ x.flags.getLsbD 1 = false
      ∧ x.flags.getLsbD 2 = false ∧ s.ksMissing x = false)
  ∧ (∃ (c : Nat) (x : Ctx) (s : State), admitted c 0x2A x s ∧ x.only 0 0 true true = true ∧ x.paramA.toNat < 4 ∧ x.paramB.toNat < 2 ^ 48
      ∧ (bits x.paramB.toNat 47 32 = 0 ∨ 10 ≤ bits x.paramB.toNat 47 32) ∧ varConditions (s.policyVars x) = true)
  ∧ (∃ (c : Nat) (x : Ctx) (us : List Succ) (s : State), admitted c 0x30 x s ∧ relayLimits x = true ∧ s.ksMissing x = false
      ∧ bit x.paramA.toNat 3 = false ∧ parseSuccs (bits x.paramA.toNat 1 0) x.body = some us ∧ s.seesCycle us = false)
  ∧ (∃ (c : Nat) (x : Ctx) (m : OrchardMap) (s : State), admitted c 0x31 x s ∧ x.keyLen = 0 ∧ x.flagsWithin 0 = true
      ∧ x.paramA.toNat < 2 ^ 32 ∧ x.paramB = 0 ∧ parseMap x.paramA.toNat x.body = some m ∧ (∀ n,
      s.relay.map = some n → n.epoch < x.paramA.toNat))
  ∧ (∃ (c v : Nat) (x : Ctx) (d : VarDesc) (s : State), admitted c 0x3D x s ∧ s.checkSet x = .inr (d, v)
      ∧ isStatusVar x.paramA.toNat = false ∧ ¬(x.paramA.toNat = 0x0B06 ∧ v = 1)) :=
  ⟨⟨0, { cmd 0x20 with keyspace := 1 }, { run with clock := 0, net := { run.net with ctxs := [{ cmd 0x20 with keyspace := 1 }] } },
      by (try dsimp only [NoneWaits]); decide⟩,
    ⟨0, { cmd 0x23 with valLen := 40, body := wrapped }, inner,
        { run with clock := 0, net := { run.net with ctxs := [{ cmd 0x23 with valLen := 40, body := wrapped }] }, cipher := { run.cipher with kek := some kek } },
      by exact ⟨by decide, by decide, by decide, by decide, (congrArg some test_keyUnwrap), by decide⟩⟩,
    ⟨0, { cmd 0x24 with valLen := 40, body := wrapped }, inner,
        { run with clock := 0, net := { run.net with ctxs := [{ cmd 0x24 with valLen := 40, body := wrapped }] }, cipher := { run.cipher with kek := some kek, pages := [{ KeyPage.blank 0 with cur := { KeySlot.blank with st := .loaded } }] } },
      by exact ⟨by decide, by decide, by decide, by decide, (congrArg some test_keyUnwrap), by decide, by decide⟩⟩,
    ⟨0, { cmd 0x28 with paramA := 0x041 }, { run with clock := 0, net := { run.net with ctxs := [{ cmd 0x28 with paramA := 0x041 }] } },
      by (try dsimp only [NoneWaits]); decide⟩,
    ⟨0, { cmd 0x29 with valLen := 32, keyspace := 1 },
        { run with clock := 0, net := { run.net with ctxs := [{ cmd 0x29 with valLen := 32, keyspace := 1 }] }, store := { run.store with keyspaces := [{ (default : Keyspace) with id := 1 }] } },
      by (try dsimp only [NoneWaits]); decide⟩,
    ⟨0, { cmd 0x2A with paramA := 3 }, { run with clock := 0, net := { run.net with ctxs := [{ cmd 0x2A with paramA := 3 }] } },
      by (try dsimp only [NoneWaits]); decide⟩,
    ⟨0, { cmd 0x30 with keyspace := 1 }, [],
        { run with clock := 0, net := { run.net with ctxs := [{ cmd 0x30 with keyspace := 1 }] }, store := { run.store with keyspaces := [{ (default : Keyspace) with id := 1 }] } },
      by (try dsimp only [NoneWaits]); decide⟩,
    ⟨0, { cmd 0x31 with paramA := 1, body := mapBody 65536 }, mapRead 65536,
        { run with clock := 0, net := { run.net with ctxs := [{ cmd 0x31 with paramA := 1, body := mapBody 65536 }] } },
      by exact ⟨⟨rfl, rfl, rfl, rfl⟩, rfl, by decide, by decide, by decide, parseMap_mapBody rfl, (by intro n h; cases h)⟩⟩,
    ⟨0, 25, { cmd 0x3D with paramA := 0x0601, paramB := 25 }, (varDesc 0x0601).getD default,
        { run with clock := 0, net := { run.net with ctxs := [{ cmd 0x3D with paramA := 0x0601, paramB := 25 }] } },
      by (try dsimp only [NoneWaits]); decide⟩⟩

theorem met_SettingsWritten :
  let quiet (s : State) : Prop := NoneWaits s ∧ ∀ r ∈ s.relay.slots, r.waiting = true ∨ r.ended.isSome = true ∨ r.sends ≠ 1
  let waits (c : Nat) (ch : Change) (x : Ctx) (s : State) : Prop := s.ctx? c = some x ∧ x.phase = .settings ∧ x.change = some ch
      ∧ x.opcode ≠ 0x21 ∧ quiet s
  (∃ (c id v : Nat) (x : Ctx) (d : VarDesc) (s : State), waits c (.config id v) x s ∧ varDesc id = some d ∧ isStatusVar id = false
      ∧ id ≠ 0x0101 ∧ id ≠ 0x0102 ∧ id ≠ 0x0B01 ∧ id ≠ 0x0B06 ∧ id ≠ 0x0D01)
  ∧ (∃ (c : Nat) (k : Keyspace) (x : Ctx) (s : State), waits c (.create k) x s)
  ∧ (∃ (c ks br bd or' od : Nat) (x : Ctx) (k : Keyspace) (s : State), waits c (.shaper false ks false false br bd or' od) x s
      ∧ s.keyspace? ks = some k ∧ k.shaper = none)
  ∧ (∃ (c deepest p1 p2 p3 : Nat) (x : Ctx) (s : State), waits c (.power deepest p1 p2 p3) x s)
  ∧ (∃ (c ks : Nat) (x : Ctx) (k : Keyspace) (s : State), waits c (.relay ks none) x s ∧ s.keyspace? ks = some k)
  ∧ (∃ (c n : Nat) (key : BitVec 256) (x : Ctx) (s : State), waits c (.keyLoad n false key) x s ∧ (s.page n).cur.st = .empty)
  ∧ (∃ (c n : Nat) (key : BitVec 256) (x : Ctx) (s : State), waits c (.keyRetire n key) x s ∧ s.keyInUse n = true)
  ∧ (∃ (c n : Nat) (key : BitVec 256) (x : Ctx) (s : State), waits c (.keyRetire n key) x s ∧ s.keyInUse n = false) :=
  ⟨⟨0, 0x0601, 25, { cmd 0x3D with phase := .settings, change := some (.config 0x0601 25) }, (varDesc 0x0601).getD default,
      { run with clock := 0, net := { run.net with ctxs := [{ cmd 0x3D with phase := .settings, change := some (.config 0x0601 25) }] } },
      by exact ⟨⟨by decide, by decide, by decide, by decide, ⟨(by dsimp only [NoneWaits]; decide), by decide⟩⟩, by decide, by decide,
          by decide⟩⟩,
    ⟨0, { (default : Keyspace) with id := 1 },
        { cmd 0x20 with phase := .settings, change := some (.create { (default : Keyspace) with id := 1 }) },
        { run with clock := 0, net := { run.net with ctxs := [{ cmd 0x20 with phase := .settings, change := some (.create { (default : Keyspace) with id := 1 }) }] } },
      by exact ⟨by decide, by decide, by decide, by decide, ⟨(by dsimp only [NoneWaits]; decide), by decide⟩⟩⟩,
    ⟨0, 1, 1, 2, 3, 4, { cmd 0x29 with phase := .settings, change := some (.shaper false 1 false false 1 2 3 4) },
        { (default : Keyspace) with id := 1 },
        { run with clock := 0, net := { run.net with ctxs := [{ cmd 0x29 with phase := .settings, change := some (.shaper false 1 false false 1 2 3 4) }] }, store := { run.store with keyspaces := [{ (default : Keyspace) with id := 1 }] } },
      by exact ⟨⟨by decide, by decide, by decide, by decide, ⟨(by dsimp only [NoneWaits]; decide), by decide⟩⟩, by decide, by decide⟩⟩,
    ⟨0, 1, 2, 3, 4, { cmd 0x2A with phase := .settings, change := some (.power 1 2 3 4) },
        { run with clock := 0, net := { run.net with ctxs := [{ cmd 0x2A with phase := .settings, change := some (.power 1 2 3 4) }] } },
      by exact ⟨by decide, by decide, by decide, by decide, ⟨(by dsimp only [NoneWaits]; decide), by decide⟩⟩⟩,
    ⟨0, 1, { cmd 0x30 with phase := .settings, change := some (.relay 1 none) }, { (default : Keyspace) with id := 1 },
        { run with clock := 0, net := { run.net with ctxs := [{ cmd 0x30 with phase := .settings, change := some (.relay 1 none) }] }, store := { run.store with keyspaces := [{ (default : Keyspace) with id := 1 }] } },
      by exact ⟨⟨by decide, by decide, by decide, by decide, ⟨(by dsimp only [NoneWaits]; decide), by decide⟩⟩, by decide⟩⟩,
    ⟨0, 0, 5, { cmd 0x23 with phase := .settings, change := some (.keyLoad 0 false 5) },
        { run with clock := 0, net := { run.net with ctxs := [{ cmd 0x23 with phase := .settings, change := some (.keyLoad 0 false 5) }] } },
      by exact ⟨⟨by decide, by decide, by decide, by decide, ⟨(by dsimp only [NoneWaits]; decide), by decide⟩⟩, by decide⟩⟩,
    ⟨0, 0, 5, { cmd 0x24 with phase := .settings, change := some (.keyRetire 0 5) },
        { run with clock := 0, net := { run.net with ctxs := [{ cmd 0x24 with phase := .settings, change := some (.keyRetire 0 5) }, { cmd 0x02 with id := 1, phase := .sealing, keyspace := 1, sealGen := some (0, 0) }] }, store := { run.store with keyspaces := [{ (default : Keyspace) with id := 1, encrypted := true }] }, cipher := { run.cipher with queue := [{ (default : Job) with of' := .cmd 1 }] } },
      by exact ⟨⟨by decide, by decide, by decide, by decide, ⟨(by dsimp only [NoneWaits]; decide), by decide⟩⟩, by decide⟩⟩,
    ⟨0, 0, 5, { cmd 0x24 with phase := .settings, change := some (.keyRetire 0 5) },
        { run with clock := 0, net := { run.net with ctxs := [{ cmd 0x24 with phase := .settings, change := some (.keyRetire 0 5) }] } },
      by exact ⟨⟨by decide, by decide, by decide, by decide, ⟨(by dsimp only [NoneWaits]; decide), by decide⟩⟩, by decide⟩⟩⟩

theorem met_AdminAnswers :
  let admitted (c op : Nat) (x : Ctx) (s : State) : Prop := s.admin? c op = some x ∧ s.modeStops x = none
  (∃ (c : Nat) (x : Ctx) (k : Keyspace) (s : State), admitted c 0x22 x s ∧ x.only 1 0 false false = true ∧ s.keyspace? x.keyspace = some k
      ∧ s.ksMissing x = false)
  ∧ (∃ (c p : Nat) (b : Bytes) (x : Ctx) (s : State), admitted c 0x38 x s ∧ x.only 0 0 true false = true ∧ x.paramA.toNat = p
      ∧ s.healthPage p = some b)
  ∧ (∃ (c : Nat) (x : Ctx) (s : State), admitted c 0x38 x s ∧ 10 < x.paramA.toNat)
  ∧ (∃ (c : Nat) (x : Ctx) (s : State), admitted c 0x39 x s ∧ x.only 0 0 false false = true)
  ∧ (∃ (c : Nat) (x : Ctx) (s : State), admitted c 0x3A x s ∧ x.keyLen = 0 ∧ x.flagsWithin 0 = true ∧ 280 ≤ x.valLen ∧ x.paramB.toNat < 2)
  ∧ (∃ (c : Nat) (x : Ctx) (d : VarDesc) (s : State), admitted c 0x3C x s ∧ x.varNamed = some d ∧ x.valLen = 0 ∧ x.paramB = 0)
  ∧ (∃ (c v : Nat) (x : Ctx) (d : VarDesc) (s : State), admitted c 0x3D x s ∧ s.settingsBusy = false ∧ s.checkSet x = .inr (d, v)
      ∧ x.paramA.toNat = 0x0205)
  ∧ (∃ (c : Nat) (x : Ctx) (s : State), admitted c 0x3D x s ∧ s.isTestNow x = true ∧ s.modes.mode.service = true
      ∧ s.holdup.testing = none)
  ∧ (∃ (c : Nat) (x : Ctx) (key : BitVec 256) (s : State), admitted c 0x23 x s ∧ s.settingsBusy = false ∧ s.keyTurn x = true
      ∧ x.only 0 40 true false = true ∧ x.paramA.toNat < 64 ∧ s.unwrapKey x.body = some (some key)
      ∧ (s.page x.paramA.toNat).cur.st = .recorded ∧ (s.page x.paramA.toNat).cur.identity = keyIdentity key) :=
  ⟨⟨0, { cmd 0x22 with flags := 1, keyspace := 1 }, { (default : Keyspace) with id := 1 },
      { run with clock := 0, net := { run.net with ctxs := [{ cmd 0x22 with flags := 1, keyspace := 1 }] }, store := { run.store with keyspaces := [{ (default : Keyspace) with id := 1 }] } },
      by (try dsimp only [NoneWaits]); decide⟩,
    ⟨0, 8, State.page8 { run with clock := 0, net := { run.net with ctxs := [{ cmd 0x38 with paramA := 8 }] } },
        { cmd 0x38 with paramA := 8 }, { run with clock := 0, net := { run.net with ctxs := [{ cmd 0x38 with paramA := 8 }] } },
      by exact ⟨⟨rfl, rfl⟩, by decide, by decide, rfl⟩⟩,
    ⟨0, { cmd 0x38 with paramA := 11 }, { run with clock := 0, net := { run.net with ctxs := [{ cmd 0x38 with paramA := 11 }] } },
      by (try dsimp only [NoneWaits]); decide⟩,
    ⟨0, cmd 0x39, { run with clock := 0, net := { run.net with ctxs := [cmd 0x39] } },
      by (try dsimp only [NoneWaits]); decide⟩,
    ⟨0, { cmd 0x3A with valLen := 280 }, { run with clock := 0, net := { run.net with ctxs := [{ cmd 0x3A with valLen := 280 }] } },
      by (try dsimp only [NoneWaits]); decide⟩,
    ⟨0, { cmd 0x3C with paramA := 0x0601 }, (varDesc 0x0601).getD default,
        { run with clock := 0, net := { run.net with ctxs := [{ cmd 0x3C with paramA := 0x0601 }] } },
      by (try dsimp only [NoneWaits]); decide⟩,
    ⟨0, 1, { cmd 0x3D with paramA := 0x0205, paramB := 1 }, (varDesc 0x0205).getD default,
        { run with clock := 0, net := { run.net with ctxs := [{ cmd 0x3D with paramA := 0x0205, paramB := 1 }] } },
      by (try dsimp only [NoneWaits]); decide⟩,
    ⟨0, { cmd 0x3D with paramA := 0x0B06, paramB := 1 },
        { run with clock := 0, net := { run.net with ctxs := [{ cmd 0x3D with paramA := 0x0B06, paramB := 1 }] } },
      by (try dsimp only [NoneWaits]); decide⟩,
    ⟨0, { cmd 0x23 with valLen := 40, body := wrapped }, inner,
        { run with clock := 0, net := { run.net with ctxs := [{ cmd 0x23 with valLen := 40, body := wrapped }] }, cipher := { run.cipher with kek := some kek, pages := [{ KeyPage.blank 0 with cur := { KeySlot.blank with st := .recorded, identity := keyIdentity inner } }] } },
      by exact ⟨⟨rfl, rfl⟩, by decide, by decide, by decide, by decide, (congrArg some test_keyUnwrap), rfl, rfl⟩⟩⟩

theorem met_KeyspacesEnd :
  let admitted (c op : Nat) (x : Ctx) (s : State) : Prop := s.admin? c op = some x ∧ s.modeStops x = none
  (∃ (c : Nat) (x : Ctx) (k : Keyspace) (s : State), admitted c 0x21 x s ∧ x.only 1 0 false false = true ∧ s.keyspace? x.keyspace = some k
      ∧ s.ksMissing x = false ∧ k.deleting = none ∧ s.settingsHeld = none)
  ∧ (∃ (c : Nat) (x y : Ctx) (k : Keyspace) (s : State), s.ctx? c = some x ∧ x.opcode = 0x21 ∧ x.phase = .draining
      ∧ s.keyspace? x.keyspace = some k ∧ y ∈ s.net.ctxs ∧ y.id < x.id ∧ y.keyspace = x.keyspace ∧ y.usesKeyspace = true)
  ∧ (∃ (c : Nat) (x : Ctx) (k : Keyspace) (s : State), s.ctx? c = some x ∧ x.opcode = 0x21 ∧ x.phase = .draining
      ∧ x.flags.getLsbD 0 = false ∧ s.keyspace? x.keyspace = some k ∧ k.deleting = some c ∧ (s.before x).isEmpty = true ∧ NoneWaits s
      ∧ (∀ y ∈ s.net.ctxs, y.phase ≠ .spaceWait) ∧ (∀ r ∈ s.relay.slots, r.waiting = true ∨ r.ended.isSome = true ∨ r.sends ≠ 1))
  ∧ (∃ (c n : Nat) (x : Ctx) (s : State), admitted c 0x32 x s ∧ x.only 1 0 false false = true ∧ x.flags.getLsbD 0 = false ∧ NoneWaits s
      ∧ (s.store.keyspaces.filter (·.partialSeed)).length = n ∧ 0 < n)
  ∧ (∃ (c : Nat) (x : Ctx) (s : State), admitted c 0x32 x s ∧ x.only 1 0 false false = true ∧ s.modes.mode = .shadowing ∧ NoneWaits s
      ∧ ((∀ k ∈ s.store.keyspaces, k.partialSeed = false) ∨ x.flags.getLsbD 0 = true)) :=
  ⟨⟨0, { cmd 0x21 with flags := 1, keyspace := 1 }, { (default : Keyspace) with id := 1 },
      { run with clock := 0, net := { run.net with ctxs := [{ cmd 0x21 with flags := 1, keyspace := 1 }] }, store := { run.store with keyspaces := [{ (default : Keyspace) with id := 1 }] } },
      by (try dsimp only [NoneWaits]); decide⟩,
    ⟨1, { cmd 0x21 with id := 1, phase := .draining, keyspace := 1 }, { cmd 0x02 with keyspace := 1 },
        { (default : Keyspace) with id := 1 },
        { run with clock := 0, net := { run.net with ctxs := [{ cmd 0x02 with keyspace := 1 }, { cmd 0x21 with id := 1, phase := .draining, keyspace := 1 }] }, store := { run.store with keyspaces := [{ (default : Keyspace) with id := 1 }] } },
      by (try dsimp only [NoneWaits]); decide⟩,
    ⟨0, { cmd 0x21 with phase := .draining, keyspace := 1 }, { (default : Keyspace) with id := 1, deleting := some 0 },
        { run with clock := 0, net := { run.net with ctxs := [{ cmd 0x21 with phase := .draining, keyspace := 1 }] }, store := { run.store with keyspaces := [{ (default : Keyspace) with id := 1, deleting := some 0 }] } },
      by (try dsimp only [NoneWaits]); decide⟩,
    ⟨0, 1, cmd 0x32,
        { run with clock := 0, net := { run.net with ctxs := [cmd 0x32] }, store := { run.store with keyspaces := [{ (default : Keyspace) with id := 1, partialSeed := true }] }, modes := { run.modes with mode := .shadowing } },
      by (try dsimp only [NoneWaits]); decide⟩,
    ⟨0, { cmd 0x32 with flags := 1 },
        { run with clock := 0, net := { run.net with ctxs := [{ cmd 0x32 with flags := 1 }] }, modes := { run.modes with mode := .shadowing } },
      by (try dsimp only [NoneWaits]); decide⟩⟩

theorem met_ModeCommands :
  let asks (c : Nat) (m : Mode) (x : Ctx) (s : State) : Prop := s.admin? c 0x49 = some x ∧ s.modeStops x = none
      ∧ x.only 0 0 true false = true
    ∧ modeOfCode x.paramA.toNat = some m
  (∃ (c : Nat) (x : Ctx) (s : State), asks c .frozen x s ∧ s.cutIn = false ∧ (s.modes.mode = .serving ∨ s.modes.mode = .shadowing))
  ∧ (∃ (c : Nat) (x : Ctx) (s : State), asks c .shadowing x s ∧ s.cutIn = false ∧ s.modes.mode = .serving ∧ (∀ k ∈ s.store.keyspaces,
      k.id = 0))
  ∧ (∃ (c : Nat) (x : Ctx) (m : Mode) (s : State), asks c m x s ∧ s.cutIn = false ∧ s.modes.mode = .frozen ∧ s.modes.frozenFrom = some m
      ∧ m ≠ .dormant ∧ s.modes.freezeCauses = FreezeCause.operator.word)
  ∧ (∃ (c : Nat) (x : Ctx) (s : State), asks c .dormant x s ∧ s.cutIn = false ∧ s.modes.mode.service = true)
  ∧ (∃ (c : Nat) (x : Ctx) (m : Mode) (s : State), asks c m x s ∧ s.cutIn = false ∧ (¬((s.modes.mode = .dormant
      ∧ m = .serving) ∨ (s.modes.mode = .serving ∧ (m = .shadowing ∨ m = .frozen ∨ m = .dormant)) ∨ (s.modes.mode = .shadowing
      ∧ (m = .frozen ∨ m = .dormant)) ∨ (s.modes.mode = .frozen ∧ (s.modes.frozenFrom = some m ∨ m = .dormant)))))
  ∧ (∃ (c : Nat) (x : Ctx) (m : Mode) (s : State), asks c m x s ∧ s.cutIn = false ∧ s.modes.mode = .frozen ∧ m ≠ .dormant
      ∧ s.modes.freezeCauses ≠ FreezeCause.operator.word)
  ∧ (∃ (c : Nat) (m : Mode) (x : Ctx) (s : State), asks c m x s ∧ s.cutIn = true)
  ∧ (∃ (c : Nat) (x : Ctx) (s : State), s.admin? c 0x48 = some x ∧ s.modeStops x = none ∧ x.only 0 0 true false = true
      ∧ x.paramA.toNat < 2 ∧ s.var 0x0E08 = 1)
  ∧ (∃ (c : Nat) (x : Ctx) (s : State), s.admin? c 0x48 = some x ∧ s.modeStops x = none ∧ x.only 0 0 true false = true
      ∧ x.paramA.toNat < 2 ∧ s.var 0x0E08 ≠ 1 ∧ s.cutIn = false) :=
  ⟨⟨0, { cmd 0x49 with paramA := 4 },
      { run with clock := 0, net := { run.net with ctxs := [{ cmd 0x49 with paramA := 4 }] }, modes := { run.modes with mode := .serving } },
      by (try dsimp only [NoneWaits]); decide⟩,
    ⟨0, { cmd 0x49 with paramA := 3 },
        { run with clock := 0, net := { run.net with ctxs := [{ cmd 0x49 with paramA := 3 }] }, modes := { run.modes with mode := .serving } },
      by (try dsimp only [NoneWaits]); decide⟩,
    ⟨0, { cmd 0x49 with paramA := 2 }, .serving,
        { run with clock := 0, net := { run.net with ctxs := [{ cmd 0x49 with paramA := 2 }] }, modes := { run.modes with mode := .frozen, frozenFrom := some .serving, freezeCauses := FreezeCause.operator.word } },
      by (try dsimp only [NoneWaits]); decide⟩,
    ⟨0, { cmd 0x49 with paramA := 0 },
        { run with clock := 0, net := { run.net with ctxs := [{ cmd 0x49 with paramA := 0 }] }, modes := { run.modes with mode := .serving } },
      by (try dsimp only [NoneWaits]); decide⟩,
    ⟨0, { cmd 0x49 with paramA := 1 }, .filling,
        { run with clock := 0, net := { run.net with ctxs := [{ cmd 0x49 with paramA := 1 }] }, modes := { run.modes with mode := .serving } },
      by (try dsimp only [NoneWaits]); decide⟩,
    ⟨0, { cmd 0x49 with paramA := 2 }, .serving,
        { run with clock := 0, net := { run.net with ctxs := [{ cmd 0x49 with paramA := 2 }] }, modes := { run.modes with mode := .frozen } },
      by (try dsimp only [NoneWaits]); decide⟩,
    ⟨0, .serving, { cmd 0x49 with paramA := 2 },
        { run with clock := 0, net := { run.net with ctxs := [{ cmd 0x49 with paramA := 2 }] }, modes := { run.modes with mode := .serving }, fw := { run.fw with act := 3 } },
      by (try dsimp only [NoneWaits]); decide⟩,
    ⟨0, cmd 0x48, { run with clock := 0, net := { run.net with ctxs := [cmd 0x48] }, vars := [(0x0E08, 1)] },
      by (try dsimp only [NoneWaits]); decide⟩,
    ⟨0, cmd 0x48, { run with clock := 0, net := { run.net with ctxs := [cmd 0x48] } },
      by (try dsimp only [NoneWaits]); decide⟩⟩

theorem met_TurningOff :
  (∃ (c : Nat) (x : Ctx) (s : State), s.ctx? c = some x ∧ x.opcode = 0x49 ∧ x.phase = .draining ∧ s.modes.flush = none
      ∧ (∀ y ∈ s.net.ctxs, c ≤ y.id))
  ∧ (∃ (c : Nat) (x y : Ctx) (s : State), s.ctx? c = some x ∧ x.opcode = 0x49 ∧ x.phase = .draining ∧ y ∈ s.net.ctxs ∧ y.id < c)
  ∧ (∃ (f : Flush) (s : State), s.modes.flush = some f ∧ f.trigger = 3)
  ∧ (∃ (e : Nat) (f : Flush) (s : State), s.modes.flush = some f ∧ f.waltz = true ∧ f.phase ≠ 5)
  ∧ (∃ (e : Nat) (f : Flush) (s : State), s.modes.flush = some f ∧ f.waltz = true ∧ f.phase = 5)
  ∧ (∃ (e : Nat) (f : Flush) (s : State), s.modes.flush = some f ∧ f.waltz = true ∧ f.phase ≤ 5)
  ∧ (∃ (n : Nat) (s : State), s.modes.mode = .sanitising ∧ s.modes.sanitising = true ∧ s.waltzing = false) :=
  ⟨⟨0, { cmd 0x49 with phase := .draining },
      { run with clock := 0, net := { run.net with ctxs := [{ cmd 0x49 with phase := .draining }] } },
      by (try dsimp only [NoneWaits]); decide⟩,
    ⟨1, { cmd 0x49 with id := 1, phase := .draining }, cmd 0,
        { run with clock := 0, net := { run.net with ctxs := [cmd 0, { cmd 0x49 with id := 1, phase := .draining }] } },
      by (try dsimp only [NoneWaits]); decide⟩,
    ⟨{ Flush.none with trigger := 3 }, { run with modes := { run.modes with flush := some { Flush.none with trigger := 3 } } },
      by (try dsimp only [NoneWaits]); decide⟩,
    ⟨0, { Flush.none with trigger := 1, phase := 1 },
        { run with modes := { run.modes with flush := some { Flush.none with trigger := 1, phase := 1 } } },
      by (try dsimp only [NoneWaits]); decide⟩,
    ⟨0, { Flush.none with trigger := 1, phase := 5 },
        { run with modes := { run.modes with flush := some { Flush.none with trigger := 1, phase := 5 } } },
      by (try dsimp only [NoneWaits]); decide⟩,
    ⟨0, { Flush.none with trigger := 1, phase := 1 },
        { run with modes := { run.modes with flush := some { Flush.none with trigger := 1, phase := 1 } } },
      by (try dsimp only [NoneWaits]); decide⟩,
    ⟨0, { run with modes := { run.modes with mode := .sanitising, sanitising := true } },
      by (try dsimp only [NoneWaits]); decide⟩⟩

theorem met_CommitsAndPrograms :
  let quiet (s : State) : Prop := NoneWaits s ∧ ∀ r ∈ s.relay.slots, r.waiting = true ∨ r.ended.isSome = true ∨ r.sends ≠ 1
  let ready (c : Nat) (x : Ctx) (s : State) : Prop := s.ctx? c = some x ∧ x.phase = .ready ∧ x.committed = false ∧ quiet s
  (∃ (c : Nat) (x : Ctx) (s : State), ready c x s ∧ (x.opcode = 0x01 ∨ x.opcode = 0x0C ∨ x.opcode = 0x0D)
      ∧ s.replyRoom x x.reply.body.length = true)
  ∧ (∃ (c : Nat) (x : Ctx) (s : State), ready c x s ∧ x.opcode = 0x08 ∧ s.replyRoom x (s.scanReply x).body.length = true)
  ∧ (∃ (c : Nat) (x : Ctx) (place : Place) (es : List Entry) (s : State), ready c x s ∧ (x.opcode = 0x02 ∨ x.opcode = 0x04)
      ∧ x.relayed = false ∧ x.pre = none ∧ s.writePlace x = some (place, es) ∧ s.relay.slots = []
      ∧ s.coh.quiet (match place with | .bucket n => n | .stash => bucket1 x.fp) = true ∧ s.qRoom (qBank x.fp) = true
      ∧ s.dirtyFull (match place with | .bucket n => n / 8192 | .stash => 65536) = false)
  ∧ (∃ (c : Nat) (x : Ctx) (s : State), ready c x s ∧ isDataWrite x.opcode = true ∧ s.writePlace x = none)
  ∧ (∃ (c slot : Nat) (x : Ctx) (s : State), ready c x s ∧ x.opcode = 0x09 ∧ x.slotRes = some slot)
  ∧ (∃ (c : Nat) (x : Ctx) (k : Keyspace) (s : State), s.ctx? c = some x ∧ x.phase = .programming ∧ x.relayed = false
      ∧ s.keyspace? x.keyspace = some k ∧ k.chain = none ∧ s.relay.slots = [] ∧ NoneWaits s ∧ (∀ y ∈ s.net.ctxs, y.phase ≠ .relayWait
      ∧ (y.id = c → y = x)))
  ∧ (∃ (c : Nat) (x : Ctx) (s : State), s.ctx? c = some x ∧ x.phase = .programming ∧ s.group? x.newGroup = none
      ∧ s.keyspace? x.keyspace = none ∧ NoneWaits s) :=
  ⟨⟨0, { cmd 0x01 with phase := .ready, mailbox := true },
      { run with clock := 0, net := { run.net with ctxs := [{ cmd 0x01 with phase := .ready, mailbox := true }] } },
      by exact ⟨⟨by decide, by decide, by decide, ⟨(by dsimp only [NoneWaits]; decide), by decide⟩⟩, by decide, by decide⟩⟩,
    ⟨0, { cmd 0x08 with phase := .ready, mailbox := true },
        { run with clock := 0, net := { run.net with ctxs := [{ cmd 0x08 with phase := .ready, mailbox := true }] } },
      by exact ⟨⟨by decide, by decide, by decide, ⟨(by dsimp only [NoneWaits]; decide), by decide⟩⟩, by decide, by decide⟩⟩,
    ⟨0, { cmd 0x02 with phase := .ready, keyspace := 1 }, .bucket 0, [],
        { run with clock := 0, net := { run.net with ctxs := [{ cmd 0x02 with phase := .ready, keyspace := 1 }] }, store := { run.store with keyspaces := [{ (default : Keyspace) with id := 1 }] } },
      by exact ⟨⟨by decide, by decide, by decide, ⟨(by dsimp only [NoneWaits]; decide), by decide⟩⟩, by decide, by decide, by decide,
          by decide, by decide, by decide, by decide, by decide⟩⟩,
    ⟨0, lastPut, full 65536,
      by exact ⟨⟨by decide, by decide, by decide, ⟨(by intro y h; rw [List.mem_singleton.mp h]; decide), by decide⟩⟩, by decide,
          no_place rfl⟩⟩,
    ⟨0, 0, { cmd 0x09 with phase := .ready, slotRes := some 0 },
        { run with clock := 0, net := { run.net with ctxs := [{ cmd 0x09 with phase := .ready, slotRes := some 0 }] } },
      by exact ⟨⟨by decide, by decide, by decide, ⟨(by dsimp only [NoneWaits]; decide), by decide⟩⟩, by decide, by decide⟩⟩,
    ⟨0, { cmd 0x02 with phase := .programming, keyspace := 1 }, { (default : Keyspace) with id := 1 },
        { run with clock := 0, net := { run.net with ctxs := [{ cmd 0x02 with phase := .programming, keyspace := 1 }] }, store := { run.store with keyspaces := [{ (default : Keyspace) with id := 1 }] } },
      by exact ⟨by decide, by decide, by decide, by decide, by decide, by decide, (by dsimp only [NoneWaits]; decide),
          (by intro y h; rw [List.mem_singleton.mp h]; exact ⟨by decide, fun _ => rfl⟩)⟩⟩,
    ⟨0, { cmd 0x02 with phase := .programming, newGroup := 5, keyspace := 1 },
        { run with clock := 0, net := { run.net with ctxs := [{ cmd 0x02 with phase := .programming, newGroup := 5, keyspace := 1 }] } },
      by (try dsimp only [NoneWaits]); decide⟩⟩

theorem met_SieveWork :
  let runs (n : Nat) (v : Sieve) (s : State) : Prop := s.sieves.list.find? (·.slot == n) = some v ∧ v.lost = [] ∧ v.ended = false
      ∧ v.batches.length < 2
    ∧ s.power.st = 0 ∧ s.modes.mode.service = true ∧ s.thermal.stage = 0 ∧ 0 ≤ v.tokens ∧ 0 ≤ s.sieves.tokens
  (∃ (n : Nat) (v : Sieve) (e : Entry) (s : State), runs n v s ∧ v.full = false ∧ s.nextKey v = some e)
  ∧ (∃ (n : Nat) (v : Sieve) (s : State), runs n v s ∧ (v.full = true ∨ s.nextKey v = none))
  ∧ (∃ (n : Nat) (v : Sieve) (s : State), s.sieves.list.find? (·.slot == n) = some v ∧ v.filling ≠ [] ∧ v.batches.length < 2
      ∧ v.full = false ∧ v.firstAt + ms (s.var 0x0504) ≤ s.clock)
  ∧ (∃ (n : Nat) (v : Sieve) (s : State), s.sieves.list.find? (·.slot == n) = some v ∧ v.lastNext + sec (s.var 0x0505) ≤ s.clock)
  ∧ (∃ (n : Nat) (v : Sieve) (s : State), s.sieves.list.find? (·.slot == n) = some v ∧ s.clock < v.lastNext + sec (s.var 0x0505)) :=
  ⟨⟨0, { (default : Sieve) with keyspace := 1 },
      { (default : Entry) with keyspace := 1, newest := { (default : Match) with loc := 1, stamp := 1 } },
      { run with clock := 0, net := { run.net with ctxs := [] }, store := { run.store with entries := [{ (default : Entry) with keyspace := 1, newest := { (default : Match) with loc := 1, stamp := 1 } }] }, sieves := { run.sieves with list := [{ (default : Sieve) with keyspace := 1 }] } },
      by (try dsimp only [NoneWaits]); decide⟩,
    ⟨0, { (default : Sieve) with keyspace := 1 },
        { run with clock := 0, net := { run.net with ctxs := [] }, sieves := { run.sieves with list := [{ (default : Sieve) with keyspace := 1 }] } },
      by (try dsimp only [NoneWaits]); decide⟩,
    ⟨0, { (default : Sieve) with keyspace := 1, filling := [[0]] },
        { run with clock := sec 100, net := { run.net with ctxs := [] }, sieves := { run.sieves with list := [{ (default : Sieve) with keyspace := 1, filling := [[0]] }] } },
      by (try dsimp only [NoneWaits]); decide⟩,
    ⟨0, { (default : Sieve) with keyspace := 1 },
        { run with clock := sec 100000, net := { run.net with ctxs := [] }, sieves := { run.sieves with list := [{ (default : Sieve) with keyspace := 1 }] } },
      by (try dsimp only [NoneWaits]); decide⟩,
    ⟨0, { (default : Sieve) with keyspace := 1 },
        { run with clock := 0, net := { run.net with ctxs := [] }, sieves := { run.sieves with list := [{ (default : Sieve) with keyspace := 1 }] } },
      by (try dsimp only [NoneWaits]); decide⟩⟩

theorem met_Forwards :
  (∃ (n us' : Nat) (credit : BitVec 16) (r : RelaySlot) (s : State), s.relay.slots.find? (·.id == n) = some r ∧ r.waiting = false)
  ∧ (∃ (n h : Nat) (r : RelaySlot) (p : Nat × Addr) (s : State), s.relay.slots.find? (·.id == n) = some r ∧ r.backoff = some h
      ∧ h ≤ s.clock ∧ s.route r.dest.addr = some p)
  ∧ (∃ (n since : Nat) (r : RelaySlot) (s : State), s.relay.slots.find? (·.id == n) = some r ∧ r.sentAt = some since
      ∧ s.clock < since + ms r.timeout)
  ∧ (∃ (n since : Nat) (r : RelaySlot) (s : State), s.relay.slots = [r] ∧ r.id = n ∧ r.sentAt = some since ∧ since + ms r.timeout ≤ s.clock
      ∧ r.succs = [r.dest] ∧ r.hop = 1 ∧ r.kind = .live ∧ r.marker = 0 ∧ r.ctx = none ∧ r.posted = false ∧ r.opcode = 0x02
      ∧ (∀ y ∈ s.net.ctxs, y.phase ≠ .relayWait ∧ y.phase ≠ .waiting) ∧ s.pair? r.keyspace r.dest = none)
  ∧ (∃ (n : Nat) (credit : BitVec 16) (r : RelaySlot) (s : State), s.relay.slots = [r] ∧ r.id = n ∧ r.waiting = false ∧ r.hop = r.succs.length ∧ r.kind = .live
      ∧ r.ctx = none ∧ (∀ y ∈ s.net.ctxs, y.phase ≠ .relayWait ∧ y.phase ≠ .waiting))
  ∧ (∃ (k m : Nat) (p : Pair) (s : State),
      s.relay.pairs.find? (fun p => p.keyspace == k && p.succ.moduleId == m && !p.running && (p.behind || p.seeding)) = some p
      ∧ s.modes.mode.service = true ∧ p.seeding = false ∧ p.behind = true ∧ p.since + ms (s.var 0x0902) ≤ s.clock ∧ p.discards = []
      ∧ p.redo = none ∧ (∀ e ∈ s.store.entries, e.keyspace ≠ p.keyspace) ∧ s.relay.slots = [] ∧ s.thermal.stage < 2 ∧ 0 < s.var 0x0904
      ∧ NoneWaits s)
  ∧ (∃ (k m : Nat) (p : Pair) (s : State),
      s.relay.pairs.find? (fun p => p.keyspace == k && p.succ.moduleId == m && !p.running && (p.behind || p.seeding)) = some p
      ∧ p.behind = true ∧ s.clock < p.since + ms (s.var 0x0902)) :=
  ⟨⟨0, 0, 0, (default : RelaySlot),
      { run with clock := 0, net := { run.net with ctxs := [] }, relay := { run.relay with slots := [(default : RelaySlot)] } },
      by (try dsimp only [NoneWaits]); decide⟩,
    ⟨0, 0, { (default : RelaySlot) with backoff := some 0 }, (0, ⟨false, 0⟩),
        { run with clock := 0, net := { run.net with ctxs := [] }, vars := [(0x0120, 5)], relay := { run.relay with slots := [{ (default : RelaySlot) with backoff := some 0 }] }, ports := { run.ports with links := [{ Link.off with up := true, lanes := 0x0F }] } },
      by (try dsimp only [NoneWaits]); decide⟩,
    ⟨0, 0, { (default : RelaySlot) with timeout := 100, sentAt := some 0 },
        { run with clock := 0, net := { run.net with ctxs := [] }, relay := { run.relay with slots := [{ (default : RelaySlot) with timeout := 100, sentAt := some 0 }] } },
      by (try dsimp only [NoneWaits]); decide⟩,
    ⟨0, 0, { (default : RelaySlot) with timeout := 1, sentAt := some 0, opcode := 0x02, keyspace := 1, hop := 1, succs := [{ moduleId := 1, port := 1, addr := ⟨false, 1⟩ }] },
        { run with clock := sec 1, net := { run.net with ctxs := [] }, relay := { run.relay with slots := [{ (default : RelaySlot) with timeout := 1, sentAt := some 0, opcode := 0x02, keyspace := 1, hop := 1, succs := [{ moduleId := 1, port := 1, addr := ⟨false, 1⟩ }] }] } },
      by (try dsimp only [NoneWaits]); decide⟩,
    ⟨0, 0, { (default : RelaySlot) with hop := 1, succs := [{ moduleId := 1, port := 1, addr := ⟨false, 1⟩ }] },
        { run with clock := 0, net := { run.net with ctxs := [] }, relay := { run.relay with slots := [{ (default : RelaySlot) with hop := 1, succs := [{ moduleId := 1, port := 1, addr := ⟨false, 1⟩ }] }] } },
      by (try dsimp only [NoneWaits]); decide⟩,
    ⟨1, 1, { (default : Pair) with keyspace := 1, succ := { moduleId := 1, port := 1, addr := ⟨false, 1⟩ }, behind := true },
        { run with clock := sec 1000, net := { run.net with ctxs := [] }, relay := { run.relay with pairs := [{ (default : Pair) with keyspace := 1, succ := { moduleId := 1, port := 1, addr := ⟨false, 1⟩ }, behind := true }] } },
      by (try dsimp only [NoneWaits]); decide⟩,
    ⟨1, 1, { (default : Pair) with keyspace := 1, succ := { moduleId := 1, port := 1, addr := ⟨false, 1⟩ }, behind := true },
        { run with clock := 0, net := { run.net with ctxs := [] }, relay := { run.relay with pairs := [{ (default : Pair) with keyspace := 1, succ := { moduleId := 1, port := 1, addr := ⟨false, 1⟩ }, behind := true }] } },
      by (try dsimp only [NoneWaits]); decide⟩⟩

theorem met_PowerStates :
  (∃ (n : Nat) (s : State), s.mayIdle n = true ∧ n < 3)
  ∧ (∃ (s : State), s.mayIdle 3 = true ∧ s.store.dirty = [])
  ∧ (∃ (s : State), s.mayIdle 3 = true ∧ s.store.dirty ≠ [])
  ∧ (∃ (n : Nat) (s : State), s.mayIdle n = false)
  ∧ (∃ (n : Nat) (s : State), s.mayIdle n = true)
  ∧ (∃ (st t0 : Nat) (s : State), s.power.exiting = some (st, t0) ∧ s.clock < t0 + exitLatency st)
  ∧ (∃ (st t0 : Nat) (s : State), s.power.exiting = some (st, t0) ∧ t0 + exitLatency st ≤ s.clock ∧ t0 ≤ s.power.lastFg)
  ∧ (∃ (n : Nat) (s : State), n < 16 ∧ s.power.st = 2 ∧ s.power.exiting = none)
  ∧ (∃ (n : Nat) (s : State), s.power.st ≠ 2) :=
  ⟨⟨1, { run with clock := sec 100000, net := { run.net with ctxs := [] }, vars := [(0x0B01, 3)], power := { run.power with lastFg := 0 } },
      by (try dsimp only [NoneWaits]); decide⟩,
    ⟨{ run with clock := sec 100000, net := { run.net with ctxs := [] }, vars := [(0x0B01, 3)], power := { run.power with st := 2 } },
      by (try dsimp only [NoneWaits]); decide⟩,
    ⟨{ run with clock := sec 100000, net := { run.net with ctxs := [] }, vars := [(0x0B01, 3)], store := { run.store with dirty := [(0, 0)] }, power := { run.power with st := 2 } },
      by (try dsimp only [NoneWaits]); decide⟩,
    ⟨1, run,
      by (try dsimp only [NoneWaits]); decide⟩,
    ⟨1, { run with clock := sec 100000, net := { run.net with ctxs := [] }, vars := [(0x0B01, 3)], power := { run.power with lastFg := 0 } },
      by (try dsimp only [NoneWaits]); decide⟩,
    ⟨1, 0,
        { run with clock := 0, net := { run.net with ctxs := [] }, vars := [(0x0B01, 3)], power := { run.power with exiting := some (1, 0) } },
      by (try dsimp only [NoneWaits]); decide⟩,
    ⟨1, 0,
        { run with clock := sec 1, net := { run.net with ctxs := [] }, vars := [(0x0B01, 3)], power := { run.power with exiting := some (1, 0) } },
      by (try dsimp only [NoneWaits]); decide⟩,
    ⟨0, { run with clock := 0, net := { run.net with ctxs := [] }, vars := [(0x0B01, 3)], power := { run.power with st := 2 } },
      by (try dsimp only [NoneWaits]); decide⟩,
    ⟨0, run,
      by (try dsimp only [NoneWaits]); decide⟩⟩

theorem met_LineTransfers :
  let idle (bucket : Nat) (s : State) : Prop := s.coh.txs = [] ∧ (∀ r ∈ s.coh.repairs, r.1 ≠ bucket)
      ∧ (s.coh.filter.filter (fun g => homeOf g.1 == homeOf bucket)).length < 8192
  (∃ (a b : Nat) (s : State), a < 16 ∧ idle b s ∧ s.coh.line? a b = none ∧ (s.coh.holders b).2 = none)
  ∧ (∃ (a b : Nat) (s : State), a < 16 ∧ idle b s ∧ s.coh.line? a b = none ∧ s.coh.holders b = ([], none))
  ∧ (∃ (a b h : Nat) (o : Option Nat) (s : State), a < 16 ∧ h ≠ a ∧ idle b s ∧ s.coh.line? a b = none ∧ s.coh.holders b = ([h], o))
  ∧ (∃ (a b : Nat) (l : Line) (s : State), s.coh.line? a b = some l ∧ l.st = .m ∧ (∀ w ∈ s.coh.flying, ¬(w.1 = a ∧ w.2.1 = b)))
  ∧ (∃ (a b v : Nat) (s : State), s.coh.flying = [(a, b, some v)] ∧ s.coh.txs = [])
  ∧ (∃ (a b : Nat) (l : Line) (s : State), s.coh.line? a b = some l ∧ l.st = .e ∧ (∀ w ∈ s.coh.flying, ¬(w.1 = a ∧ w.2.1 = b)))
  ∧ (∃ (a b : Nat) (s : State), s.coh.flying = [(a, b, none)] ∧ s.coh.txs = [])
  ∧ (∃ (a b : Nat) (l : Line) (s : State), s.coh.line? a b = some l ∧ l.st = .s ∧ (a, b) ∉ s.coh.evicts)
  ∧ (∃ (a b : Nat) (s : State), (a, b) ∈ s.coh.evicts)
  ∧ (∃ (a b : Nat) (l : Line) (s : State), (a, b, true) ∈ s.coh.snooped ∧ s.coh.line? a b = some l ∧ (l.st = .s ∨ l.st = .e))
  ∧ (∃ (a b : Nat) (l : Line) (s : State), (a, b, true) ∈ s.coh.snooped ∧ s.coh.line? a b = some l ∧ l.st = .m)
  ∧ (∃ (a b : Nat) (s : State), (a, b, true) ∈ s.coh.snooped ∧ s.coh.line? a b = none)
  ∧ (∃ (a b : Nat) (l : Line) (s : State), (a, b, false) ∈ s.coh.snooped ∧ s.coh.line? a b = some l ∧ l.st = .m)
  ∧ (∃ (a b : Nat) (x : HomeTx) (s : State), (a, b, some none) ∈ s.coh.answers ∧ s.coh.txs = [x] ∧ x.bucket = b ∧ x.active = true
      ∧ x.snoops = [a] ∧ x.owner = none ∧ x.slice ≠ a ∧ x.slice < 16 ∧ x.excl = true)
  ∧ (∃ (a b v : Nat) (x : HomeTx) (s : State), s.coh.answers = [(a, b, some (some v))] ∧ s.coh.txs = [x] ∧ x.bucket = b ∧ x.active = true
      ∧ x.snoops = [a] ∧ x.owner = none ∧ x.slice ≠ a ∧ x.slice < 16)
  ∧ (∃ (a b : Nat) (x : HomeTx) (s : State), (a, b, none) ∈ s.coh.answers ∧ s.coh.txs = [x] ∧ x.bucket = b ∧ x.active = true
      ∧ x.snoops = [a] ∧ (s.coh.holders b).2 = some a) :=
  ⟨⟨1, 5, run,
      by (try dsimp only [NoneWaits]); decide⟩,
    ⟨1, 5, run,
      by (try dsimp only [NoneWaits]); decide⟩,
    ⟨1, 5, 2, none, { run with coh := { run.coh with filter := [(5, [2], none)] } },
      by (try dsimp only [NoneWaits]); decide⟩,
    ⟨1, 5, { slice := 1, bucket := 5, st := .m, ver := 7 },
        { run with coh := { run.coh with lines := [{ slice := 1, bucket := 5, st := .m, ver := 7 }] } },
      by (try dsimp only [NoneWaits]); decide⟩,
    ⟨1, 5, 7, { run with coh := { run.coh with flying := [(1, 5, some 7)] } },
      by (try dsimp only [NoneWaits]); decide⟩,
    ⟨1, 5, { slice := 1, bucket := 5, st := .e, ver := 7 },
        { run with coh := { run.coh with lines := [{ slice := 1, bucket := 5, st := .e, ver := 7 }] } },
      by (try dsimp only [NoneWaits]); decide⟩,
    ⟨1, 5, { run with coh := { run.coh with flying := [(1, 5, none)] } },
      by (try dsimp only [NoneWaits]); decide⟩,
    ⟨1, 5, { slice := 1, bucket := 5, st := .s, ver := 7 },
        { run with coh := { run.coh with lines := [{ slice := 1, bucket := 5, st := .s, ver := 7 }] } },
      by (try dsimp only [NoneWaits]); decide⟩,
    ⟨1, 5, { run with coh := { run.coh with evicts := [(1, 5)] } },
      by (try dsimp only [NoneWaits]); decide⟩,
    ⟨1, 5, { slice := 1, bucket := 5, st := .s, ver := 7 },
        { run with coh := { run.coh with lines := [{ slice := 1, bucket := 5, st := .s, ver := 7 }], snooped := [(1, 5, true)] } },
      by (try dsimp only [NoneWaits]); decide⟩,
    ⟨1, 5, { slice := 1, bucket := 5, st := .m, ver := 7 },
        { run with coh := { run.coh with lines := [{ slice := 1, bucket := 5, st := .m, ver := 7 }], snooped := [(1, 5, true)] } },
      by (try dsimp only [NoneWaits]); decide⟩,
    ⟨1, 5, { run with coh := { run.coh with snooped := [(1, 5, true)] } },
      by (try dsimp only [NoneWaits]); decide⟩,
    ⟨1, 5, { slice := 1, bucket := 5, st := .m, ver := 7 },
        { run with coh := { run.coh with lines := [{ slice := 1, bucket := 5, st := .m, ver := 7 }], snooped := [(1, 5, false)] } },
      by (try dsimp only [NoneWaits]); decide⟩,
    ⟨1, 5, { bucket := 5, slice := 2, age := 0, active := true, excl := true, snoops := [1], owner := none },
        { run with coh := { run.coh with answers := [(1, 5, some none)], txs := [{ bucket := 5, slice := 2, age := 0, active := true, excl := true, snoops := [1], owner := none }] } },
      by (try dsimp only [NoneWaits]); decide⟩,
    ⟨1, 5, 7, { bucket := 5, slice := 2, age := 0, active := true, excl := true, snoops := [1], owner := none },
        { run with coh := { run.coh with answers := [(1, 5, some (some 7))], txs := [{ bucket := 5, slice := 2, age := 0, active := true, excl := true, snoops := [1], owner := none }] } },
      by (try dsimp only [NoneWaits]); decide⟩,
    ⟨1, 5, { bucket := 5, slice := 2, age := 0, active := true, excl := true, snoops := [1], owner := none },
        { run with coh := { run.coh with answers := [(1, 5, none)], txs := [{ bucket := 5, slice := 2, age := 0, active := true, excl := true, snoops := [1], owner := none }], filter := [(5, [1], some 1)] } },
      by (try dsimp only [NoneWaits]); decide⟩⟩

theorem met_BackgroundWork :
  (∃ (b : Nat) (u : QUpdate) (s : State), s.quince.updates.find? (·.bank == b) = some u)
  ∧ (∃ (b r w p : Nat) (x : Bool) (s : State), s.supply.mainOn = true ∧ b < 4 ∧ r < 4096)
  ∧ (∃ (b r : Nat) (s : State), (∀ q ∈ s.quince.rows, q.bank = b → q.row = r → q.ways = q.shadow))
  ∧ (∃ (b r w : Nat) (s : State), s.supply.mainOn = true ∧ b < 4 ∧ r < 4096 ∧ (∀ e ∈ s.store.entries, e.pinned = false))
  ∧ (∃ (x : Bool) (s : State), s.supply.mainOn = true ∧ (if x then s.store.logB else s.store.logA).buffer ≠ []
      ∧ (if x then s.store.logB else s.store.logA).lastAt + us (s.var 0x0407) ≤ s.clock)
  ∧ (∃ (d : Nat × Nat) (ds : List (Nat × Nat)) (s : State), s.store.dirty = d :: ds ∧ s.supply.mainOn = true ∧ s.waltzing = false)
  ∧ (∃ (n : Nat) (g : Group) (s : State), s.group? n = some g ∧ g.isOpen = true ∧ g.parity = true ∧ g.parityAt + ms 10 ≤ s.clock)
  ∧ (∃ (s : State), s.backgroundRuns = false)
  ∧ (∃ (o : Nat) (g : Group) (s : State), s.backgroundRuns = true ∧ s.modes.mode = .serving ∧ s.capacityOwners = [o]
      ∧ s.store.groups = [g] ∧ s.store.recs = [] ∧ g.owner = o ∧ g.isOpen = false ∧ g.slc = false ∧ g.collecting = false ∧ g.wear = none
      ∧ g.secure = none ∧ g.refresh = none ∧ s.wearSpread o ≤ 3 * s.var 0x060E ∧ s.freeBp o ≤ 100 * s.var 0x0602 ∧ NoneWaits s)
  ∧ (∃ (n : Nat) (g : Group) (s : State), s.group? n = some g ∧ s.supply.mainOn = true ∧ s.waltzing = false ∧ s.erasable g = true
      ∧ s.net.ctxs = [] ∧ s.store.eraseSets = [])
  ∧ (∃ (n p : Nat) (f : PatrolFinding) (g : Group) (s : State), s.backgroundRuns = true ∧ s.power.st < 2 ∧ s.group? n = some g
      ∧ s.qualifies f = false ∧ f.lastPage = false ∧ NoneWaits s)
  ∧ (∃ (n p : Nat) (f : PatrolFinding) (g : Group) (s : State), s.backgroundRuns = true ∧ s.power.st < 2 ∧ s.group? n = some g
      ∧ s.qualifies f = true ∧ f.lastPage = false ∧ p < g.written ∧ s.pageRecs n p = [] ∧ p ∉ g.patrolled
      ∧ 4 * (g.patrolled.length + 1) ≤ groupSlots g.slc ∧ NoneWaits s)
  ∧ (∃ (n p : Nat) (f : PatrolFinding) (s : State), s.backgroundRuns = true ∧ 2 ≤ s.power.st
      ∧ s.clock < s.store.patrolAt + sec (86400 * s.var 0x060C))
  ∧ (∃ (n loc : Nat) (w : Sweep) (r : Rec) (s : State), (s.page n).sweep = some w ∧ s.rec? loc = some r ∧ s.backgroundRuns = true
      ∧ s.thermal.stage ≠ 2 ∧ (s.page n).cur.st = .loaded ∧ (s.page n).prev.st = .loaded ∧ s.sweepWants (s.page n) loc = true
      ∧ (s.takeSlots (s.ksOwner r.keyspace) false false true r.length).isSome = true
      ∧ (s.enterMove .rekey loc).holdsLock (.move .rekey loc) = true ∧ NoneWaits s)
  ∧ (∃ (n loc : Nat) (x : Bool) (s : State), (s.page n).sweep = none) :=
  ⟨⟨0, { bank := 0, row := 0, ways := [] }, { run with quince := { run.quince with updates := [{ bank := 0, row := 0, ways := [] }] } },
      by (try dsimp only [NoneWaits]); decide⟩,
    ⟨0, 0, 0, 0, true, run,
      by (try dsimp only [NoneWaits]); decide⟩,
    ⟨0, 0, run,
      by (try dsimp only [NoneWaits]); decide⟩,
    ⟨0, 0, 0, run,
      by (try dsimp only [NoneWaits]); decide⟩,
    ⟨false,
        { run with clock := sec 10, net := { run.net with ctxs := [] }, store := { run.store with logA := { LogOwner.empty with buffer := [default] } } },
      by (try dsimp only [NoneWaits]); decide⟩,
    ⟨(0, 0), [], { run with clock := 0, net := { run.net with ctxs := [] }, store := { run.store with dirty := [(0, 0)] } },
      by (try dsimp only [NoneWaits]); decide⟩,
    ⟨3, { (default : Group) with num := 3, isOpen := true, parity := true },
        { run with clock := sec 1, net := { run.net with ctxs := [] }, store := { run.store with groups := [{ (default : Group) with num := 3, isOpen := true, parity := true }] } },
      by (try dsimp only [NoneWaits]); decide⟩,
    ⟨State.reset,
      by (try dsimp only [NoneWaits]); decide⟩,
    ⟨0, { (default : Group) with num := 3 },
        { run with clock := 0, net := { run.net with ctxs := [] }, store := { run.store with groups := [{ (default : Group) with num := 3 }] }, owners := [{ Owner.commons with moving := BitVec.allOnes 32 }] },
      by (try dsimp only [NoneWaits]); decide⟩,
    ⟨3, { (default : Group) with num := 3, collecting := true },
        { run with clock := 0, net := { run.net with ctxs := [] }, store := { run.store with groups := [{ (default : Group) with num := 3, collecting := true }] } },
      by (try dsimp only [NoneWaits]); decide⟩,
    ⟨3, 0, { (default : PatrolFinding) with outcome := .step 1 }, { (default : Group) with num := 3 },
        { run with clock := 0, net := { run.net with ctxs := [] }, store := { run.store with groups := [{ (default : Group) with num := 3 }] } },
      by (try dsimp only [NoneWaits]); decide⟩,
    ⟨3, 0, { (default : PatrolFinding) with outcome := .undecodable }, { (default : Group) with num := 3, written := 1 },
        { run with clock := 0, net := { run.net with ctxs := [] }, store := { run.store with groups := [{ (default : Group) with num := 3, written := 1 }] } },
      by (try dsimp only [NoneWaits]); decide⟩,
    ⟨3, 0, { (default : PatrolFinding) with outcome := .step 1 },
        { run with clock := 0, net := { run.net with ctxs := [] }, vars := [(0x0B01, 3)], power := { run.power with st := 2 } },
      by (try dsimp only [NoneWaits]); decide⟩,
    ⟨0, 1, default, { (default : Rec) with loc := 1, keyspace := 1, sealed := some (0, 0) },
        { run with clock := 0, net := { run.net with ctxs := [] }, store := { run.store with keyspaces := [{ (default : Keyspace) with id := 1, encrypted := true }], recs := [{ (default : Rec) with loc := 1, keyspace := 1, sealed := some (0, 0) }], entries := [{ (default : Entry) with keyspace := 1, newest := { (default : Match) with loc := 1 } }] }, cipher := { run.cipher with pages := [{ KeyPage.blank 0 with cur := { KeySlot.blank with st := .loaded, gen := 1 }, prev := { KeySlot.blank with st := .loaded }, sweep := some (default : Sweep) }] } },
      by (try dsimp only [NoneWaits]); decide⟩,
    ⟨0, 0, false, run,
      by (try dsimp only [NoneWaits]); decide⟩⟩

theorem met_SparesTakeOver :
  let quiet (s : State) : Prop := NoneWaits s ∧ ∀ r ∈ s.relay.slots, r.waiting = true ∨ r.ended.isSome = true ∨ r.sends ≠ 1
  (∃ (c p k : Nat) (s : State), s.supply.mainOn = true ∧ c < 32 ∧ p < 16 ∧ (c, p) ∉ s.spares.deadDies ∧ s.diesLeft c ≠ 0)
  ∧ (∃ (c p k : Nat) (s : State), s.supply.mainOn = true ∧ c < 32 ∧ p < 16 ∧ (c, p) ∉ s.spares.deadDies ∧ s.diesLeft c = 0
      ∧ (s.modes.mode = .serving ∨ s.modes.mode = .shadowing))
  ∧ (∃ (c p k : Nat) (s : State), (c, p) ∈ s.spares.deadDies)
  ∧ (∃ (c p : Nat) (r : (Nat × Nat) × Nat) (s : State), s.spares.rebuilding.find? (fun r => r.1 == (c, p)) = some r
      ∧ s.supply.mainOn = true)
  ∧ (∃ (h d : Nat) (s : State), s.supply.mainOn = true ∧ (h, d) ∉ s.spares.trunkSpares)
  ∧ (∃ (h d : Nat) (s : State), s.supply.mainOn = true ∧ (h, d) ∈ s.spares.trunkSpares)
  ∧ (∃ (n b role sp : Nat) (c : Nat × Nat × Nat × List Nat) (s : State), s.supply.mainOn = true ∧ s.roleOf n = some role
      ∧ classOf role = some c ∧ (s.sparesOf c).head? = some sp)
  ∧ (∃ (n b role : Nat) (s : State), s.supply.mainOn = true ∧ s.roleOf n = some role ∧ classOf role = none)
  ∧ (∃ (n role sp : Nat) (c : Nat × Nat × Nat × List Nat) (s : State), s.supply.mainOn = true ∧ n ∉ s.spares.retired ∧ n ≤ 262
      ∧ s.roleOf n = some role ∧ role ≤ 41 ∧ classOf role = some c ∧ (s.sparesOf c).head? = some sp ∧ s.fw.act ≠ 5 ∧ quiet s)
  ∧ (∃ (n role : Nat) (c : Nat × Nat × Nat × List Nat) (s : State), s.supply.mainOn = true ∧ n ∉ s.spares.retired ∧ n ≤ 262
      ∧ s.roleOf n = some role ∧ role ≤ 41 ∧ classOf role = some c ∧ (s.sparesOf c).head? = none ∧ s.fw.act ≠ 5
      ∧ (s.modes.mode = .serving ∨ s.modes.mode = .shadowing))
  ∧ (∃ (n : Nat) (s : State), s.supply.mainOn = true ∧ n ∉ s.spares.retired ∧ n ≤ 262 ∧ s.roleOf n = none ∧ s.fw.act ≠ 5)
  ∧ (∃ (n : Nat) (held : List Nat) (s : State), s.supply.mainOn = false ∧ n ≠ 243) :=
  ⟨⟨0, 0, 0, run,
      by (try dsimp only [NoneWaits]); decide⟩,
    ⟨0, 0, 0,
        { run with clock := 0, net := { run.net with ctxs := [] }, spares := { run.spares with dieMap := [((0, 1), 0), ((0, 2), 1)] } },
      by (try dsimp only [NoneWaits]); decide⟩,
    ⟨0, 0, 0, { run with clock := 0, net := { run.net with ctxs := [] }, spares := { run.spares with deadDies := [(0, 0)] } },
      by (try dsimp only [NoneWaits]); decide⟩,
    ⟨0, 0, ((0, 0), 0),
        { run with clock := 0, net := { run.net with ctxs := [] }, spares := { run.spares with rebuilding := [((0, 0), 0)] } },
      by (try dsimp only [NoneWaits]); decide⟩,
    ⟨0, 0, run,
      by (try dsimp only [NoneWaits]); decide⟩,
    ⟨0, 0, { run with clock := 0, net := { run.net with ctxs := [] }, spares := { run.spares with trunkSpares := [(0, 0)] } },
      by (try dsimp only [NoneWaits]); decide⟩,
    ⟨10, 0, 10, 26, (1, 10, 25, [26, 27]), run,
      by (try dsimp only [NoneWaits]); decide⟩,
    ⟨0, 0, 0, run,
      by (try dsimp only [NoneWaits]); decide⟩,
    ⟨10, 10, 26, (1, 10, 25, [26, 27]), run,
      by exact ⟨by decide, by decide, by decide, by decide, by decide, by decide, by decide, by decide,
          ⟨(by dsimp only [NoneWaits]; decide), by decide⟩⟩⟩,
    ⟨10, 10, (1, 10, 25, [26, 27]),
        { run with clock := 0, net := { run.net with ctxs := [] }, spares := { run.spares with unused := [] } },
      by (try dsimp only [NoneWaits]); decide⟩,
    ⟨26, run,
      by (try dsimp only [NoneWaits]); decide⟩,
    ⟨0, [], State.reset,
      by (try dsimp only [NoneWaits]); decide⟩⟩

theorem met_MemoryErrors :
  let quiet (s : State) : Prop := NoneWaits s ∧ ∀ r ∈ s.relay.slots, r.waiting = true ∨ r.ended.isSome = true ∨ r.sends ≠ 1
  (∃ (n q a r c : Nat) (f : Bool) (x : Ctx) (s : State), s.supply.mainOn = true ∧ s.ctx? c = some x ∧ x.committed = false ∧ quiet s)
  ∧ (∃ (n q a r c : Nat) (f : Bool) (s : State), s.supply.mainOn = true ∧ s.ctx? c = none ∧ quiet s)
  ∧ (∃ (n q a r u : Nat) (f : Bool) (s : State), s.supply.mainOn = true ∧ s.sliceHolds u = false ∧ quiet s)
  ∧ (∃ (n q a r loc : Nat) (f : Bool) (s : State), s.supply.mainOn = true ∧ s.rowsUsedOn (n - 213) < 511 ∧ quiet s)
  ∧ (∃ (u : Nat) (r : Nat × Nat × Nat) (s : State), s.coh.repairs.find? (·.1 == u) = some r ∧ s.rowsUsedOn r.2.1 < 511 ∧ s.coh.txs = []
      ∧ NoneWaits s)
  ∧ (∃ (n a : Nat) (held : List Nat) (s : State), s.supply.mainOn = true ∧ n ∉ s.spares.retired ∧ n ≤ 262 ∧ n ≠ 243 ∧ (n < 233 ∨ 242 < n)
      ∧ s.fw.act ≠ 5 ∧ (∀ x ∈ s.spares.traps, x.1 = (n, a) → x.2 + sec 1 ≤ s.clock))
  ∧ (∃ (n a h : Nat) (s : State), s.supply.mainOn = true ∧ n ∉ s.spares.retired ∧ n ≤ 262 ∧ n ≠ 243 ∧ (n < 233 ∨ 242 < n) ∧ s.fw.act ≠ 5
      ∧ ((n, a), h) ∈ s.spares.traps ∧ s.clock < h + sec 1 ∧ s.roleOf n = none)
  ∧ (∃ (sram : List (Nat × Nat × Nat)) (s : State), s.supply.mainOn = true ∧ (∀ c ∈ s.spares.ceRows, c.2 < s.var 0x0A03))
  ∧ (∃ (ch row k : Nat) (s : State), s.supply.mainOn = true ∧ s.spares.ceRows = [] ∧ s.var 0x0A03 ≤ k ∧ s.rowsUsedOn ch < 511)
  ∧ (∃ (n : Nat) (x : Ctx) (s : State), s.supply.mainOn = true
      ∧ s.net.ctxs.filter (fun x => s.holder (monitorRole x) == n && sec 4 ≤ s.workOf x) = [x] ∧ s.ctx? x.id = some x
      ∧ x.committed = false ∧ s.fw.act ≠ 5 ∧ quiet s)
  ∧ (∃ (n : Nat) (s : State), (∀ x ∈ s.net.ctxs, s.workOf x < sec 4)) :=
  ⟨⟨0, 0, 0, 0, 0, false, cmd 0x02, { run with clock := 0, net := { run.net with ctxs := [cmd 0x02] } },
      by exact ⟨by decide, by decide, by decide, ⟨(by dsimp only [NoneWaits]; decide), by decide⟩⟩⟩,
    ⟨0, 0, 0, 0, 0, false, run,
      by exact ⟨by decide, by decide, ⟨(by dsimp only [NoneWaits]; decide), by decide⟩⟩⟩,
    ⟨0, 0, 0, 0, 0, false, run,
      by exact ⟨by decide, by decide, ⟨(by dsimp only [NoneWaits]; decide), by decide⟩⟩⟩,
    ⟨213, 0, 0, 0, 0, false, run,
      by exact ⟨by decide, by decide, ⟨(by dsimp only [NoneWaits]; decide), by decide⟩⟩⟩,
    ⟨5, (5, 0, 0), { run with coh := { run.coh with repairs := [(5, 0, 0)] } },
      by (try dsimp only [NoneWaits]); decide⟩,
    ⟨0, 0, [], run,
      by (try dsimp only [NoneWaits]); decide⟩,
    ⟨26, 0, 0, { run with clock := 0, net := { run.net with ctxs := [] }, spares := { run.spares with traps := [((26, 0), 0)] } },
      by (try dsimp only [NoneWaits]); decide⟩,
    ⟨[], run,
      by (try dsimp only [NoneWaits]); decide⟩,
    ⟨0, 0, 100, run,
      by (try dsimp only [NoneWaits]); decide⟩,
    ⟨28, { cmd 0x02 with runSince := some 0 },
        { run with clock := sec 4, net := { run.net with ctxs := [{ cmd 0x02 with runSince := some 0 }] } },
      by exact ⟨by decide, by decide, by decide, by decide, by decide, ⟨(by dsimp only [NoneWaits]; decide), by decide⟩⟩⟩,
    ⟨0, run,
      by (try dsimp only [NoneWaits]); decide⟩⟩

theorem met_HeatAndHoldUp :
  let reads (r : List Int) (k : Nat) : Prop := ∃ l ∈ stageLimits, (if k ≤ 1 then l.2.1 else l.2.2) ≤ r.getD l.1 0
  (∃ (r : List Int) (s : State), s.supply.mainOn = true ∧ r.length = 10 ∧ s.sb.failed = [] ∧ s.thermal.stage = 0 ∧ reads r 2)
  ∧ (∃ (r : List Int) (s : State), s.supply.mainOn = true ∧ r.length = 10 ∧ s.sb.failed = [] ∧ s.thermal.stage = 0 ∧ reads r 1
      ∧ ¬ reads r 2)
  ∧ (∃ (r : List Int) (s : State), s.supply.mainOn = true ∧ r.length = 10 ∧ s.sb.failed = [] ∧ s.thermal.stage = 0 ∧ ¬ reads r 1
      ∧ ¬ reads r 2)
  ∧ (∃ (r : List Int) (s : State), s.supply.mainOn = true ∧ r.length = 10 ∧ s.sb.failed = [] ∧ s.thermal.stage = 1 ∧ ¬ reads r 2
      ∧ (∀ l ∈ stageLimits, r.getD l.1 0 ≤ l.2.1 - (s.var 0x0B07 : Int)))
  ∧ (∃ (s : State), s.supply.mainOn = true)
  ∧ (∃ (s : State), s.supply.mainOn = false)
  ∧ (∃ (s : State), s.holdup.lastTestAt + sec (86400 * s.var 0x0B05) ≤ s.clock ∧ s.modes.mode.service = true ∧ s.holdup.testing = none)
  ∧ (∃ (s : State), s.holdup.interrupted = false ∧ s.clock < s.holdup.lastTestAt + sec (86400 * s.var 0x0B05))
  ∧ (∃ (r : BankTest) (h : Nat) (s : State), s.holdup.testing = some h ∧ testFailed r = [] ∧ 1200 ≤ r.energyCj)
  ∧ (∃ (r : BankTest) (h : Nat) (s : State), s.holdup.testing = some h ∧ testFailed r = [] ∧ r.energyCj < 1200
      ∧ (s.modes.mode = .serving ∨ s.modes.mode = .shadowing))
  ∧ (∃ (r : BankTest) (s : State), s.holdup.testing = none)
  ∧ (∃ (n : Nat) (s : State), n < 7 ∧ s.supply.mainOn = true ∧ s.holdup.failed = 0 ∧ s.holdup.spareInUse = false)
  ∧ (∃ (n : Nat) (s : State), n < 7 ∧ s.supply.mainOn = true ∧ s.holdup.failed.getLsbD n = false ∧ s.holdup.spareInUse = true
      ∧ (s.modes.mode = .serving ∨ s.modes.mode = .shadowing))
  ∧ (∃ (n : Nat) (s : State), s.holdup.failed.getLsbD n = true ∧ s.supply.mainOn = true) :=
  ⟨⟨[0, 0, 0, 85, 0, 0, 0, 0, 0, 0], run,
      by (try dsimp only [NoneWaits]); decide⟩,
    ⟨[0, 0, 0, 75, 0, 0, 0, 0, 0, 0], run,
      by (try dsimp only [NoneWaits]); decide⟩,
    ⟨[0, 0, 0, 0, 0, 0, 0, 0, 0, 0], run,
      by (try dsimp only [NoneWaits]); decide⟩,
    ⟨[0, 0, 0, 0, 0, 0, 0, 0, 0, 0],
        { run with clock := 0, net := { run.net with ctxs := [] }, thermal := { run.thermal with stage := 1 } },
      by (try dsimp only [NoneWaits]); decide⟩,
    ⟨run,
      by (try dsimp only [NoneWaits]); decide⟩,
    ⟨State.reset,
      by (try dsimp only [NoneWaits]); decide⟩,
    ⟨{ run with clock := sec 100000000, net := { run.net with ctxs := [] } },
      by (try dsimp only [NoneWaits]); decide⟩,
    ⟨run,
      by (try dsimp only [NoneWaits]); decide⟩,
    ⟨⟨[], [], 1200⟩, 0, { run with clock := 0, net := { run.net with ctxs := [] }, holdup := { run.holdup with testing := some 0 } },
      by (try dsimp only [NoneWaits]); decide⟩,
    ⟨⟨[], [], 1⟩, 0, { run with clock := 0, net := { run.net with ctxs := [] }, holdup := { run.holdup with testing := some 0 } },
      by (try dsimp only [NoneWaits]); decide⟩,
    ⟨⟨[], [], 1⟩, run,
      by (try dsimp only [NoneWaits]); decide⟩,
    ⟨0, run,
      by (try dsimp only [NoneWaits]); decide⟩,
    ⟨0, { run with clock := 0, net := { run.net with ctxs := [] }, holdup := { run.holdup with spareInUse := true } },
      by (try dsimp only [NoneWaits]); decide⟩,
    ⟨0, { run with clock := 0, net := { run.net with ctxs := [] }, holdup := { run.holdup with failed := 1 } },
      by (try dsimp only [NoneWaits]); decide⟩⟩

theorem met_FirmwareStaging :
  let asks (c op : Nat) (x : Ctx) (s : State) : Prop := s.admin? c op = some x ∧ s.modeStops x = none
  let chunk (x : Ctx) : Prop := x.keyLen = 0 ∧ x.flagsWithin 0 = true ∧ 1 ≤ x.valLen ∧ x.valLen ≤ 16777216 ∧ x.paramA.toNat < 2 ^ 32
      ∧ x.paramB = 0
  (∃ (c : Nat) (x : Ctx) (s : State), asks c 0x40 x s ∧ chunk x ∧ s.fw.awaitSince = none ∧ s.fw.act < 3 ∧ s.fw.programming = none
      ∧ x.paramA = 0 ∧ 0 < x.body.length ∧ x.body.length < 256)
  ∧ (∃ (c : Nat) (x : Ctx) (b : Bytes) (s : State), asks c 0x40 x s ∧ chunk x ∧ s.fw.awaitSince = none ∧ s.fw.act < 3
      ∧ s.fw.programming = none ∧ s.fw.staging = some b ∧ x.paramA.toNat ≠ 0 ∧ x.paramA.toNat ≠ b.length)
  ∧ (∃ (c h : Nat) (x : Ctx) (s : State), asks c 0x40 x s ∧ chunk x ∧ s.fw.awaitSince = some h)
  ∧ (∃ (b : Bytes) (s : State), s.fw.staging = some b ∧ s.fw.programming = none ∧ s.fw.stagedAt + sec (s.var 0x0C04) ≤ s.clock)
  ∧ (∃ (b : Bytes) (s : State), s.fw.staging = some b ∧ s.clock < s.fw.stagedAt + sec (s.var 0x0C04))
  ∧ (∃ (h : Nat) (f : FwSlot) (ok : Bool) (s : State), s.fw.programming = some (h, f) ∧ s.fw.active < 2)
  ∧ (∃ (c : Nat) (x : Ctx) (s : State), asks c 0x41 x s ∧ x.only 1 0 false false = true ∧ s.fw.awaitSince = none ∧ s.fw.act < 3
      ∧ (s.fwSlot (1 - s.fw.active)).st ≠ 1)
  ∧ (∃ (c : Nat) (x : Ctx) (s : State), asks c 0x41 x s ∧ x.only 1 0 false false = true ∧ s.fw.awaitSince = none ∧ s.fw.act < 3
      ∧ s.fw.programming = none ∧ (s.fwSlot (1 - s.fw.active)).st = 1 ∧ (s.fwSlot (1 - s.fw.active)).sound = true)
  ∧ (∃ (c h : Nat) (x : Ctx) (s : State), asks c 0x42 x s ∧ x.only 0 0 false false = true ∧ s.fw.awaitSince = some h ∧ s.fw.active < 2)
  ∧ (∃ (c : Nat) (x : Ctx) (s : State), asks c 0x42 x s ∧ x.only 0 0 false false = true ∧ s.fw.awaitSince = none)
  ∧ (∃ (c : Nat) (x : Ctx) (b : Bytes) (s : State), asks c 0x43 x s ∧ x.only 0 0 false false = true ∧ s.fw.act < 3
      ∧ s.fw.programming = none ∧ s.fw.staging = some b)
  ∧ (∃ (c : Nat) (x : Ctx) (s : State), asks c 0x43 x s ∧ x.only 0 0 false false = true ∧ 3 ≤ s.fw.act ∧ s.fw.act ≠ 7)
  ∧ (∃ (c : Nat) (x : Ctx) (s : State), asks c 0x43 x s ∧ x.only 0 0 false false = true ∧ s.fw.act = 7) :=
  ⟨⟨0, { cmd 0x40 with valLen := 1, body := [0] },
      { run with clock := 0, net := { run.net with ctxs := [{ cmd 0x40 with valLen := 1, body := [0] }] } },
      by (try dsimp only [NoneWaits]); decide⟩,
    ⟨0, { cmd 0x40 with valLen := 1, paramA := 7, body := [0] }, [0],
        { run with clock := 0, net := { run.net with ctxs := [{ cmd 0x40 with valLen := 1, paramA := 7, body := [0] }] }, fw := { run.fw with staging := some [0] } },
      by (try dsimp only [NoneWaits]); decide⟩,
    ⟨0, 0, { cmd 0x40 with valLen := 1, body := [0] },
        { run with clock := 0, net := { run.net with ctxs := [{ cmd 0x40 with valLen := 1, body := [0] }] }, fw := { run.fw with awaitSince := some 0 } },
      by (try dsimp only [NoneWaits]); decide⟩,
    ⟨[0], { run with clock := sec 1000000, net := { run.net with ctxs := [] }, fw := { run.fw with staging := some [0] } },
      by (try dsimp only [NoneWaits]); decide⟩,
    ⟨[0], { run with clock := 0, net := { run.net with ctxs := [] }, fw := { run.fw with staging := some [0] } },
      by (try dsimp only [NoneWaits]); decide⟩,
    ⟨0, FwSlot.blank, true,
        { run with clock := 0, net := { run.net with ctxs := [] }, fw := { run.fw with programming := some (0, FwSlot.blank) } },
      by (try dsimp only [NoneWaits]); decide⟩,
    ⟨0, { cmd 0x41 with flags := 1 }, { run with clock := 0, net := { run.net with ctxs := [{ cmd 0x41 with flags := 1 }] } },
      by (try dsimp only [NoneWaits]); decide⟩,
    ⟨0, { cmd 0x41 with flags := 1 },
        { run with clock := 0, net := { run.net with ctxs := [{ cmd 0x41 with flags := 1 }] }, fw := { run.fw with slot1 := { FwSlot.factory with st := 1 } } },
      by (try dsimp only [NoneWaits]); decide⟩,
    ⟨0, 0, cmd 0x42, { run with clock := 0, net := { run.net with ctxs := [cmd 0x42] }, fw := { run.fw with awaitSince := some 0 } },
      by (try dsimp only [NoneWaits]); decide⟩,
    ⟨0, cmd 0x42, { run with clock := 0, net := { run.net with ctxs := [cmd 0x42] } },
      by (try dsimp only [NoneWaits]); decide⟩,
    ⟨0, cmd 0x43, [0], { run with clock := 0, net := { run.net with ctxs := [cmd 0x43] }, fw := { run.fw with staging := some [0] } },
      by (try dsimp only [NoneWaits]); decide⟩,
    ⟨0, cmd 0x43, { run with clock := 0, net := { run.net with ctxs := [cmd 0x43] }, fw := { run.fw with act := 3 } },
      by (try dsimp only [NoneWaits]); decide⟩,
    ⟨0, cmd 0x43, { run with clock := 0, net := { run.net with ctxs := [cmd 0x43] }, fw := { run.fw with act := 7 } },
      by (try dsimp only [NoneWaits]); decide⟩⟩

theorem met_FirmwareHandover :
  let hands (s : State) : Prop := s.fw.byRestart = false ∧ (s.fw.act = 3 ∨ (s.fw.act = 7 ∧ s.fw.active ≠ s.fw.confirmed))
  (∃ (s : State), hands s ∧ s.fw.copying = false ∧ s.fw.freeze = none)
  ∧ (∃ (s : State), hands s ∧ s.fw.copying = true ∧ s.fw.freeze = none)
  ∧ (∃ (s : State), ¬ hands s)
  ∧ (∃ (h : Nat) (s : State), hands s ∧ s.fw.freeze = some h ∧ s.fw.act = 3 ∧ s.fw.confirmed < 2
      ∧ (s.fwSlot (1 - s.fw.confirmed)).reloads ≠ [])
  ∧ (∃ (h : Nat) (s : State), hands s ∧ s.fw.freeze = some h ∧ s.fw.act = 3 ∧ s.fw.confirmed < 2
      ∧ (s.fwSlot (1 - s.fw.confirmed)).reloads = [])
  ∧ (∃ (h : Nat) (s : State), hands s ∧ s.fw.freeze = some h ∧ s.fw.act = 7)
  ∧ (∃ (n role a : Nat) (rest : List Nat) (s : State), s.fw.reload = role :: a :: rest ∧ s.fw.act = 4 ∧ n = s.loadTarget role
      ∧ s.fw.lastReload + ms (s.var 0x0C03) ≤ s.clock ∧ role < 181)
  ∧ (∃ (n role : Nat) (rest : List Nat) (x : Bool) (s : State), s.fw.reload = role :: rest
      ∧ s.clock < s.fw.lastReload + ms (s.var 0x0C03))
  ∧ (∃ (h : Nat) (s : State), s.fw.awaitSince = some h ∧ s.fw.act = 5 ∧ h + sec s.fw.selftestS ≤ s.clock ∧ s.var 0x0C01 ≠ 1)
  ∧ (∃ (h : Nat) (s : State), s.fw.awaitSince = some h ∧ s.fw.act = 5)
  ∧ (∃ (h : Nat) (s : State), s.fw.awaitSince = some h ∧ h + ms 600000 ≤ s.clock)
  ∧ (∃ (h : Nat) (s : State), s.fw.awaitSince = some h ∧ s.clock < h + ms 600000)
  ∧ (∃ (s : State), s.fw.restarting = true ∧ s.modes.flush = none ∧ s.net.ctxs = [] ∧ s.supply.mainOn = true)
  ∧ (∃ (f : Flush) (s : State), s.modes.flush = some f ∧ f.trigger = 0 ∧ s.fw.confirmed < 2)
  ∧ (∃ (s : State), s.fw.act = 7 ∧ s.fw.restarting = false ∧ s.fw.reload = [] ∧ s.fw.copying = false ∧ s.fw.freeze = none
      ∧ s.fw.active = s.fw.confirmed ∧ s.fw.confirmed < 2 ∧ s.modes.mode.service = true)
  ∧ (∃ (x : Bool) (s : State), s.fw.act = 3 ∧ s.fw.byRestart = false) :=
  ⟨⟨{ run with clock := 0, net := { run.net with ctxs := [] }, fw := { run.fw with act := 3 } },
      by (try dsimp only [NoneWaits]); decide⟩,
    ⟨{ run with clock := 0, net := { run.net with ctxs := [] }, fw := { run.fw with act := 3, copying := true } },
      by (try dsimp only [NoneWaits]); decide⟩,
    ⟨run,
      by (try dsimp only [NoneWaits]); decide⟩,
    ⟨0, { run with clock := 0, net := { run.net with ctxs := [] }, fw := { run.fw with act := 3, freeze := some 0, slot1 := { FwSlot.factory with parts := [3] } } },
      by (try dsimp only [NoneWaits]); decide⟩,
    ⟨0, { run with clock := 0, net := { run.net with ctxs := [] }, fw := { run.fw with act := 3, freeze := some 0 } },
      by (try dsimp only [NoneWaits]); decide⟩,
    ⟨0, { run with clock := 0, net := { run.net with ctxs := [] }, fw := { run.fw with act := 7, active := 1, freeze := some 0 } },
      by (try dsimp only [NoneWaits]); decide⟩,
    ⟨0, 0, 0, [], { run with clock := sec 100, net := { run.net with ctxs := [] }, fw := { run.fw with reload := [0, 0], act := 4 } },
      by (try dsimp only [NoneWaits]); decide⟩,
    ⟨0, 0, [], true, { run with clock := 0, net := { run.net with ctxs := [] }, fw := { run.fw with reload := [0], lastReload := 5 } },
      by (try dsimp only [NoneWaits]); decide⟩,
    ⟨0, { run with clock := sec 60, net := { run.net with ctxs := [] }, vars := [(0x0C01, 0)], fw := { run.fw with awaitSince := some 0, act := 5 } },
      by (try dsimp only [NoneWaits]); decide⟩,
    ⟨0, { run with clock := 0, net := { run.net with ctxs := [] }, fw := { run.fw with awaitSince := some 0, act := 5 } },
      by (try dsimp only [NoneWaits]); decide⟩,
    ⟨0, { run with clock := sec 600, net := { run.net with ctxs := [] }, fw := { run.fw with awaitSince := some 0 } },
      by (try dsimp only [NoneWaits]); decide⟩,
    ⟨0, { run with clock := 0, net := { run.net with ctxs := [] }, fw := { run.fw with awaitSince := some 0 } },
      by (try dsimp only [NoneWaits]); decide⟩,
    ⟨{ run with clock := 0, net := { run.net with ctxs := [] }, fw := { run.fw with restarting := true } },
      by (try dsimp only [NoneWaits]); decide⟩,
    ⟨{ Flush.none with trigger := 0 }, { run with modes := { run.modes with flush := some { Flush.none with trigger := 0 } } },
      by (try dsimp only [NoneWaits]); decide⟩,
    ⟨{ run with clock := 0, net := { run.net with ctxs := [] }, fw := { run.fw with act := 7 } },
      by (try dsimp only [NoneWaits]); decide⟩,
    ⟨true, { run with clock := 0, net := { run.net with ctxs := [] }, fw := { run.fw with act := 3 } },
      by (try dsimp only [NoneWaits]); decide⟩⟩

theorem met_Sideband :
  let on (s : State) (p : Pec) : Prop := s.supply.auxInRange = true ∧ s.pecRefused p = false
  (∃ (code : Nat) (b : Bytes) (p : Pec) (s : State), s.supply.auxInRange = true ∧ s.pecRefused p = true)
  ∧ (∃ (a : Nat) (b : Bytes) (p : Pec) (s : State), on s p ∧ s.sb.mb = .busy)
  ∧ (∃ (a : Nat) (b : Bytes) (p : Pec) (s : State), on s p ∧ s.sb.mb ≠ .busy ∧ a ≤ 4096)
  ∧ (∃ (a : Nat) (b : Bytes) (p : Pec) (s : State), on s p ∧ b.length ≠ 2 ∧ b.length ≠ 3)
  ∧ (∃ (b : Bytes) (p : Pec) (s : State), on s p ∧ s.sb.mb = .busy)
  ∧ (∃ (b : Bytes) (p : Pec) (s : State), on s p ∧ s.sb.mb ≠ .busy ∧ 1 ≤ b.length ∧ b.length ≤ 255 ∧ s.sb.mbOffset + b.length ≤ 4096)
  ∧ (∃ (p : Pec) (s : State), on s p ∧ s.sb.mb ≠ .busy ∧ mbChecks s.mbRequest = false)
  ∧ (∃ (p : Pec) (s : State), on s p ∧ s.sb.mb ≠ .busy ∧ mbChecks s.mbRequest = true ∧ s.waltzing = true)
  ∧ (∃ (p : Pec) (s : State), on s p ∧ s.sb.mb ≠ .busy ∧ mbChecks s.mbRequest = true ∧ s.waltzing = false
      ∧ s.mbStops (parseHeader s.mbRequest) (s.mbRequest.drop 40) = none ∧ s.ctx? s.net.nextId = none)
  ∧ (∃ (x : Ctx) (p : Pec) (s : State), on s p ∧ s.net.ctxs.find? (·.mailbox) = some x ∧ x.abortable = true ∧ s.ctx? x.id = some x
      ∧ NoneWaits s)
  ∧ (∃ (x : Ctx) (p : Pec) (s : State), on s p ∧ s.net.ctxs.find? (·.mailbox) = some x ∧ x.abortable = false)
  ∧ (∃ (s : State), s.supply.auxInRange = true ∧ s.sb.mb = .ready ∧ s.sb.reply.length ≤ s.sb.readOff + 254 ∧ s.sb.delivered = false)
  ∧ (∃ (s : State), s.supply.auxInRange = true ∧ s.sb.mb = .ready ∧ s.sb.readOff + 254 < s.sb.reply.length)
  ∧ (∃ (b : Bytes) (p : Pec) (s : State), on s p ∧ s.modes.mode.service = true ∧ s.cipher.kek = none ∧ s.supply.conditions = []
      ∧ b.length = 32)
  ∧ (∃ (b : Bytes) (p : Pec) (s : State), on s p ∧ s.modes.mode.service = true ∧ s.cipher.kek = none ∧ s.supply.conditions = []
      ∧ b.length ≠ 32)
  ∧ (∃ (b : Bytes) (p : Pec) (s : State), on s p ∧ (s.modes.mode.service = false ∨ s.cipher.kek ≠ none ∨ s.supply.conditions ≠ []))
  ∧ (∃ (s : State), s.supply.auxInRange = true)
  ∧ (∃ (s : State), s.supply.auxInRange = true) :=
  ⟨⟨0, [], .bad, run,
      by (try dsimp only [NoneWaits]); decide⟩,
    ⟨0, [0, 0], .good, { run with clock := 0, net := { run.net with ctxs := [] }, sb := { run.sb with mb := .busy } },
      by (try dsimp only [NoneWaits]); decide⟩,
    ⟨0, [0, 0], .good, run,
      by (try dsimp only [NoneWaits]); decide⟩,
    ⟨0, [0], .good, run,
      by (try dsimp only [NoneWaits]); decide⟩,
    ⟨[0], .good, { run with clock := 0, net := { run.net with ctxs := [] }, sb := { run.sb with mb := .busy } },
      by (try dsimp only [NoneWaits]); decide⟩,
    ⟨[0], .good, run,
      by (try dsimp only [NoneWaits]); decide⟩,
    ⟨.good, run,
      by (try dsimp only [NoneWaits]); decide⟩,
    ⟨.good,
        { run with sb := { run.sb with request := bytesOfNat 40 0x10390000000000000000000000000000000000000000000000000000000000000000000000000f15, mbLen := 40 }, modes := { run.modes with flush := some { Flush.none with trigger := 1 } } },
      by (try dsimp only [NoneWaits]); decide +kernel⟩,
    ⟨.good,
        { run with sb := { run.sb with request := bytesOfNat 40 0x10390000000000000000000000000000000000000000000000000000000000000000000000000f15, mbLen := 40 } },
      by (try dsimp only [NoneWaits]); decide +kernel⟩,
    ⟨{ cmd 0x01 with mailbox := true }, .good,
        { run with clock := 0, net := { run.net with ctxs := [{ cmd 0x01 with mailbox := true }] } },
      by (try dsimp only [NoneWaits]); decide⟩,
    ⟨{ cmd 0x38 with mailbox := true }, .good,
        { run with clock := 0, net := { run.net with ctxs := [{ cmd 0x38 with mailbox := true }] } },
      by (try dsimp only [NoneWaits]); decide⟩,
    ⟨{ run with clock := 0, net := { run.net with ctxs := [] }, sb := { run.sb with mb := .ready } },
      by (try dsimp only [NoneWaits]); decide⟩,
    ⟨{ run with clock := 0, net := { run.net with ctxs := [] }, sb := { run.sb with mb := .ready, reply := List.replicate 300 0 } },
      by (try dsimp only [NoneWaits]); decide +kernel⟩,
    ⟨List.replicate 32 0, .good, run,
      by (try dsimp only [NoneWaits]); decide⟩,
    ⟨[0], .good, run,
      by (try dsimp only [NoneWaits]); decide⟩,
    ⟨List.replicate 32 0, .good, { run with cipher := { run.cipher with kek := some 0 } },
      by (try dsimp only [NoneWaits]); decide⟩,
    ⟨run,
      by (try dsimp only [NoneWaits]); decide⟩,
    ⟨run,
      by (try dsimp only [NoneWaits]); decide⟩⟩

theorem met_SegmentConsoleTrace :
  (∃ (d : Nat) (s : State), s.supply.auxInRange = true ∧ d ≤ 12 ∧ d ≠ 2 ∧ d ≠ 10 ∧ s.sb.failed.any (·.1 == d) = false)
  ∧ (∃ (s : State), s.supply.auxInRange = true ∧ s.sb.failed.any (·.1 == 10) = false
      ∧ (s.modes.mode = .serving ∨ s.modes.mode = .shadowing))
  ∧ (∃ (d : Nat) (x : Bool) (s : State), (x = true ∨ s.sb.failed.any (·.1 == d) = true ∨ s.supply.auxInRange = false))
  ∧ (∃ (d h : Nat) (x : Bool) (s : State), s.sb.failed.find? (·.1 == d) = some (d, h) ∧ s.clock < h + sec 60)
  ∧ (∃ (d h : Nat) (s : State), s.supply.auxInRange = true ∧ s.sb.failed.find? (·.1 == d) = some (d, h) ∧ h + sec 60 ≤ s.clock)
  ∧ (∃ (d h : Nat) (s : State), s.supply.auxInRange = true ∧ s.sb.failed.find? (·.1 == d) = some (d, h) ∧ h + sec 60 ≤ s.clock)
  ∧ (∃ (line : Bytes) (s : State), s.supply.auxInRange = true ∧ (80 < line.length ∨ (line ≠ ascii "id" ∧ line ≠ ascii "status"
      ∧ line.take 7 ≠ ascii "events ")))
  ∧ (∃ (s : State), s.supply.auxInRange = true)
  ∧ (∃ (n : Nat) (s : State), s.supply.mainOn = true ∧ s.traced n = true ∧ 246 ∉ s.spares.lostRoles)
  ∧ (∃ (n : Nat) (s : State), (s.supply.mainOn = false ∨ s.traced n = false)) :=
  ⟨⟨0, run,
      by (try dsimp only [NoneWaits]); decide⟩,
    ⟨run,
      by (try dsimp only [NoneWaits]); decide⟩,
    ⟨0, true, run,
      by (try dsimp only [NoneWaits]); decide⟩,
    ⟨0, 0, true, { run with clock := 0, net := { run.net with ctxs := [] }, sb := { run.sb with failed := [(0, 0)] } },
      by (try dsimp only [NoneWaits]); decide⟩,
    ⟨0, 0, { run with clock := sec 60, net := { run.net with ctxs := [] }, sb := { run.sb with failed := [(0, 0)] } },
      by (try dsimp only [NoneWaits]); decide⟩,
    ⟨0, 0, { run with clock := sec 60, net := { run.net with ctxs := [] }, sb := { run.sb with failed := [(0, 0)] } },
      by (try dsimp only [NoneWaits]); decide⟩,
    ⟨[], run,
      by (try dsimp only [NoneWaits]); decide⟩,
    ⟨run,
      by (try dsimp only [NoneWaits]); decide⟩,
    ⟨10, { run with clock := 0, net := { run.net with ctxs := [] }, vars := [(0x0D03, 8)] },
      by (try dsimp only [NoneWaits]); decide⟩,
    ⟨0, run,
      by (try dsimp only [NoneWaits]); decide⟩⟩

theorem met_StepRunsFront :
  (∃ (c : Instr) (q : List Instr) (s : State), s.pending = c :: q)
  ∧ (∃ (s : State), s.pending = []) :=
  ⟨⟨.pwrEnWatchStart, [], { State.reset with pending := [.pwrEnWatchStart] },
      by rfl⟩,
    ⟨State.reset,
      by rfl⟩⟩

theorem met_StepKeepsInvariant :
  (∃ (s t : State), Inv s ∧ step s = .next t) :=
  ⟨{ State.reset with pending := [.pwrEnWatchStart] }, _,
      by exact ⟨⟨⟨Nat.zero_le 3, ⟨fun _ => rfl, ⟨(fun e h => nomatch h), Nat.le_refl 0⟩⟩⟩, ⟨⟨by decide, by decide,
          by intro i e h; cases h⟩, ⟨by decide, by decide, by intro i e h; cases h⟩⟩⟩, rfl⟩⟩

theorem met_HistoryOnlyGrows :
  (∃ (c : Instr) (s t : State), exec c s = .next t)
  ∧ (∃ (s t : State), step s = .next t) :=
  ⟨⟨.pwrEnWatchStart, State.reset, _,
      by rfl⟩,
    ⟨{ State.reset with pending := [.pwrEnWatchStart] }, _,
      by rfl⟩⟩

theorem met_UndefinedVariable :
  (∃ (c : Nat) (x : Ctx) (s : State), s.modeStops x = none ∧ (2 ^ 16 ≤ x.paramA.toNat ∨ varDesc x.paramA.toNat = none)
      ∧ s.admin? c 0x3C = some x)
  ∧ (∃ (c : Nat) (x : Ctx) (s : State), s.modeStops x = none ∧ (2 ^ 16 ≤ x.paramA.toNat ∨ varDesc x.paramA.toNat = none)
      ∧ s.admin? c 0x3D = some x ∧ s.settingsBusy = false) :=
  ⟨⟨0, { cmd 0x3C with paramA := 0xFFFF }, { run with clock := 0, net := { run.net with ctxs := [{ cmd 0x3C with paramA := 0xFFFF }] } },
      by (try dsimp only [NoneWaits]); decide⟩,
    ⟨0, { cmd 0x3D with paramA := 0xFFFF }, { run with clock := 0, net := { run.net with ctxs := [{ cmd 0x3D with paramA := 0xFFFF }] } },
      by (try dsimp only [NoneWaits]); decide⟩⟩

theorem met_ValueOutOfRange :
  (∃ (c v : Nat) (x : Ctx) (d : VarDesc) (s : State), s.admin? c 0x3D = some x ∧ s.settingsBusy = false ∧ s.modeStops x = none
      ∧ x.varNamed = some d ∧ d.modes.contains s.modes.mode = true ∧ (x.paramA.toNat / 256 = 0x0D → x.mailbox = true)
      ∧ x.varValue d = some v ∧ (¬ ((d.lo ≤ v ∧ v ≤ d.hi) ∨ (d.zero = true ∧ v = 0)))) :=
  ⟨0, 99, { cmd 0x3D with paramA := 0x0601, paramB := 99 }, (varDesc 0x0601).getD default,
      { run with clock := 0, net := { run.net with ctxs := [{ cmd 0x3D with paramA := 0x0601, paramB := 99 }] } },
      by (try dsimp only [NoneWaits]); decide⟩

theorem met_ModeNotListed :
  (∃ (c : Nat) (x : Ctx) (d : VarDesc) (s : State), s.admin? c 0x3D = some x ∧ s.settingsBusy = false ∧ s.modeStops x = none
      ∧ x.varNamed = some d ∧ d.modes.contains s.modes.mode = false) :=
  ⟨0, { cmd 0x3D with paramA := 0x010D }, (varDesc 0x010D).getD default,
      { run with clock := 0, net := { run.net with ctxs := [{ cmd 0x3D with paramA := 0x010D }] } },
      by (try dsimp only [NoneWaits]); decide⟩

end Sys2Proof.Tests
end

section
/-! PROOFS of the scope's statements: CONFIG_GET and CONFIG_SET of a variable that no chapter defines (R15, R192). -/

namespace Sys2Proof.Machine

/-- An ID that no chapter defines fails check 1 of R192 (R15). -/
theorem varNamed_eq_none_of_undefined {x : Ctx} (h : 2 ^ 16 ≤ x.paramA.toNat ∨ varDesc x.paramA.toNat = none) :
    x.varNamed = none := by
  unfold Ctx.varNamed
  rcases h with wide | undefined
  · have outside : ¬ x.paramA.toNat < 2 ^ 16 := Nat.not_lt.mpr wide
    rw [decide_eq_false outside, Bool.and_false, if_neg Bool.false_ne_true]
  · rw [undefined, ite_self]

theorem checkSet_of_varNamed_eq_none {s : State} {x : Ctx} (h : x.varNamed = none) : s.checkSet x = .inl .badLength := by
  unfold State.checkSet
  rw [h]

/-- A CONFIG_SET that fails a check of R192 is no start of a bank test. -/
theorem isTestNow_eq_false_of_checkSet {s : State} {x : Ctx} {st : Status} (h : s.checkSet x = .inl st) : s.isTestNow x = false := by
  unfold State.isTestNow
  rw [h]
  exact Bool.and_false _

/-- A CONFIG_GET that check 1 of R192 refuses only ends, with that check's status. -/
theorem execConfigGet_of_varNamed_eq_none {c : Nat} {x : Ctx} {s : State} (ha : s.admin? c 0x3C = some x)
    (hm : s.modeStops x = none) (h : x.varNamed = none) : execConfigGet c s = .next (s.endStatus c .badLength) := by
  unfold execConfigGet
  rw [adminRow_run ha Bool.false_ne_true.elim hm rfl, h]

/-- A CONFIG_SET that a check of R192 refuses only ends, with that check's status. -/
theorem execConfigSet_of_checkSet {c : Nat} {x : Ctx} {s : State} {st : Status} (ha : s.admin? c 0x3D = some x)
    (hb : s.settingsBusy = false) (hm : s.modeStops x = none) (h : s.checkSet x = .inl st) :
    execConfigSet c s = .next (s.endStatus c st) := by
  have notTest : (s.admin? c 0x3D).any s.isTestNow = false := by
    rw [ha]
    exact isTestNow_eq_false_of_checkSet h
  unfold execConfigSet
  rw [if_neg (by simp [notTest]), adminRow_run ha (fun _ => hb) hm rfl, h]

/-- A command that only ends with a status is answered with it and leaves the variables and the stored settings. -/
theorem gives_of_exec_endStatus {i : Instr} {c : Nat} {x : Ctx} {s : State} {st : Status} (hc : s.ctx? c = some x)
    (he : exec i s = .next (s.endStatus c st)) :
    Gives i s (fun t => Replied x (Reply.plain st) t ∧ t.vars = s.vars ∧ t.nor = s.nor
      ∧ Keeps [.ports, .sessions, .ctxs, .nextId, .kept, .held, .sent, .locks, .keyspaces,
          .quince, .pages, .pipes, .queue, .relay, .power, .sb] s t) := by
  obtain ⟨t, run, replied, kept⟩ := says_row hc he
  exact ⟨t, run, replied, kept .vars (by decide), kept .nor (by decide), kept⟩

/-- Settles O57: the ID fails check 1 of R192, so either command only ends with BAD_LENGTH. -/
theorem undefinedVariable : Obligations.UndefinedVariable := by
  intro c x s hm undefined
  have unnamed : x.varNamed = none := varNamed_eq_none_of_undefined undefined
  constructor
  · intro admitted
    exact gives_of_exec_endStatus (admin_ctx admitted).1 (execConfigGet_of_varNamed_eq_none admitted hm unnamed)
  · intro admitted idle
    exact gives_of_exec_endStatus (admin_ctx admitted).1
      (execConfigSet_of_checkSet admitted idle hm (checkSet_of_varNamed_eq_none unnamed))

end Sys2Proof.Machine
end

section
/-! PROOFS of the invariant, of what no command takes back and of the frame of every command. -/

namespace Sys2Proof.Machine

/-- No command is refused and none stops the machine: every branch of every meaning is a next state. -/
theorem exec_next (i : Instr) (s : State) : ∃ t, exec i s = .next t := by
  cases i
  all_goals dsimp only [exec]
  all_goals
    delta
      execP3v3AuxInRange execPwrEnWatchStart execP3v3AuxLoss execPwrEnRise execPwrEnFall execP12vInRange execP12vLoss execAlarm
      execMainRailsInRange execSramFillComplete execDramTrainingComplete execDramFillComplete execConfirmedImageRead
      execIslandCodeLoaded execSettingsMigrated execDirectoryRecovered execFillingComplete execFillingTimeout execRestart
      execMainSupplyReenable execPlugInInsert execCmisReadyTimeout execPlugInRemove execCmisPoll execLinkUp execLinkDown
      execLinkAttemptTimeout execFailoverHold execFailoverBack execEgressFrameTimeout execFrameReceive execPauseQuantaExpire
      execPauseWatchdog execPauseWatchdogHoldoffEnd execNeighbourAgeOut execAssemblyTimeout execAckCoalesceExpire execTransportAck
      execRetransmit execMessageUnanswered execSessionIdle execSessionFree execWindowRebalance execWatermarkHoldoffEnd execGet
      execPut execPutPosted execDelete execAppendSegment execDiscard execSecureDiscard execScanKeys execAbort execHead
      execVersionsNext execSieveOpen execSieveNext execSieveClose execSessionOpen execSessionClose execEcho execKeyspaceCreate
      execKeyspaceDelete execKeyspaceQuery execKeyLoad execKeyRetire execFenceSet execShaperSet execPowerPolicy execRelaySet
      execOrchardMapLoad execPromote execHealthRead execIdentify execLogRead execConfigGet execConfigSet execHoldupTestNow
      execFwStage execFwActivate execFwConfirm execFwAbort execSanitise execModeSet execRelayedWrite execSeedBegin execSeedEnd
      execShaperAdmit execRangeLockEnter execRangeLockLeave execQuinceUpdate execQuinceSweep execReadS execReadE execWriteBack
      execWriteBackClean execEvict execSnoopInv execSnoopFetch execPresentClean execPresentData execNotPresent execCipherJobArrive
      execCipherJobEnd execCipherUrgencyRaise execPageReadComplete execProgramComplete execEraseComplete execCommitClaim
      execSessionCloseDrained execKeyspaceDeleteDrained execDormantDrained execDormantFlushComplete execSettingsWriteDone
      execLogFlush execCheckpointWrite execStripeIdleClose execGcTick execHeatHalving execPatrolStep execRekeySweepStep
      execDieRetire execRebuildDone execIslandRetire execIslandFail execTrunkLinkFail execUeFound execRepairComplete execCodeTrap
      execCodeBankReloaded execCeDecay execProgressScan execSieveVisit execSieveBatchAge execSieveIdle execRelayForwardAnswer
      execRelayTimeout execResyncStart execResyncStateSave execIdleTimer execPowerExitComplete execThermalSample
      execTemperatureHistorySample execLastWaltzPhaseEnd execHoldupTestStart execHoldupTest execSectionFail
      execSanitiseEraseComplete execFwStageIdle execSlotProgramDone execStandbyBooted execHandoverDone execIslandReload
      execSelftestEnd execConfirmationWindowExpire execRestartActivation execFallbackDone execStandbyFail execMbData execGo
      execMbAbort execMbReply execKek execSbRegisterWrite execAlertResponse execSmbusTimeout execSegmentPoll execSegmentRetry
      execConsoleLine execTraceSync execAlarmConditionEnd execSignalReturn execRelayBackoffResend execBulkCopyDone
      execActivationFlushComplete execDramSelfRefresh
  case' islandRetire => dsimp only
  all_goals repeat' first | extract_lets | split
  all_goals exact ⟨_, rfl⟩

/-- A tick of the clock leaves a good state good. -/
theorem Inv.tick {s : State} (h : Inv s) : Inv { s with clock := s.clock + 1 } := by
  obtain ⟨⟨range, outside, exiting, forward⟩, logs⟩ := h
  exact ⟨⟨range, outside, exiting, Nat.le_succ_of_le forward⟩, logs⟩

/-- What a step is after: one tick of the clock, or the command in front of the queue. -/
theorem step_cases {s t : State} (h : step s = .next t) :
    (s.pending = [] ∧ t = { s with clock := s.clock + 1 })
      ∨ ∃ c q, s.pending = c :: q ∧ exec c { s with pending := q } = .next t := by
  unfold step at h
  cases hq : s.pending with
  | nil => rw [hq] at h; injection h with h; exact .inl ⟨rfl, h.symm⟩
  | cons c q => rw [hq] at h; exact .inr ⟨c, q, rfl, h⟩

/-- Settles O54: a tick keeps the invariant, and so does every command (`exec_after`). -/
theorem stepKeepsInvariant : Obligations.StepKeepsInvariant := by
  intro s t good run
  rcases step_cases run with ⟨-, rfl⟩ | ⟨c, q, -, run⟩
  · exact good.tick
  · have after := exec_after c _ t run
    exact ⟨after.power good.1, after.logs good.2⟩

/-- Settles O55: for a command by `exec_after`, for a step by its two cases. -/
theorem historyOnlyGrows : Obligations.HistoryOnlyGrows := by
  constructor
  · intro c s t run
    have after := exec_after c s t run
    exact ⟨after.pending, after.clock, after.sent, after.nextId, after.nextEv, after.nextJn, after.rnd⟩
  · intro s t run
    rcases step_cases run with ⟨empty, rfl⟩ | ⟨c, q, queued, run⟩
    · simp [empty]
    · have after := exec_after c _ t run
      exact ⟨by rw [after.pending, queued]; rfl, by rw [after.clock, queued]; rfl, after.sent, after.nextEv, after.nextJn⟩

/-- Settles O56: every command is answered by a next state, which differs in the parts `Instr.writes` lists at most. -/
theorem frames : Obligations.Frames := by
  intro c s
  obtain ⟨t, run⟩ := exec_next c s
  exact ⟨t, run, exec_keeps c s t run⟩

/-- Settles O51: each clause is `step` unfolded at a queue of its form. -/
theorem stepRunsFront : Obligations.StepRunsFront := by
  refine ⟨fun _ _ => rfl, fun c q s queued => ?_, fun s empty => ?_⟩
  · unfold step; rw [queued]
  · unfold step; rw [empty]

/-- A variable that no entry of `vars` names has its default. -/
theorem varIn_nil {id : Nat} {d : VarDesc} (h : varDesc id = some d) : varIn [] id = d.dflt := by
  unfold varIn; rw [h]; rfl

/-- Settles O52: reset has no stored variables, and its other fields are read off. -/
theorem resetState : Obligations.ResetState :=
  ⟨rfl, rfl, rfl, rfl, rfl, rfl, rfl, rfl, rfl, rfl, rfl, rfl, rfl, rfl, fun _ _ h => varIn_nil h⟩

/-- Settles O53: reset stands in P0, at time 0 and with both logs empty. -/
theorem resetInvariant : Obligations.ResetInvariant := by
  refine ⟨⟨Nat.zero_le 3, fun _ => rfl, ?_, Nat.le_refl 0⟩, LogOk.nil _ _, LogOk.nil _ _⟩
  intro e h; cases h

end Sys2Proof.Machine
end

section
/-! PROOFS about starts and the mode that Filling ends in. -/

namespace Sys2Proof.Machine

@[simp] theorem stepDone_modes (s : State) (n : Nat) : (s.stepDone n).modes = { s.modes with startStep := n } := by
  unfold State.stepDone; simp

@[simp] theorem stepDone_holdup (s : State) (n : Nat) : (s.stepDone n).holdup = s.holdup :=
  stepDone_frame s n .holdup (by decide)

theorem atStep_true {s : State} {n : Nat} (hf : s.modes.mode = .filling) (hm : s.supply.mainOn = true) (hs : s.modes.startStep = n) :
    s.atStep n = true := by
  unfold State.atStep; rw [hf, hm, hs]; simp

/-- The freeze causes at the end of Filling: an uncharged bank adds HOLDUP. -/
def causesAfter (s : State) (charged : Bool) : BitVec 8 :=
  if charged = true then s.modes.freezeCauses else s.modes.freezeCauses ||| 0x10#8

/-- What FILLING_COMPLETE leaves of the parts that the end of Filling is about: `m` is the mode R56 gives the recorded facts. -/
theorem fillingComplete_facts (charged : Bool) (s : State) (hs : s.atStep 10 = true) : Gives (.fillingComplete charged) s (fun t =>
    t.modes.startStep = 11 ∧ t.modes.freezeCauses = causesAfter s charged ∧ t.holdup.charged = charged ∧ t.supply.keptAlarms = []
      ∧ t.modes.mode = State.modeAfterStart { s with modes := { s.modes with freezeCauses := causesAfter s charged } }) := by
  refine gives_of (by simp only [exec, execFillingComplete]; rw [if_pos hs]) ?_
  refine ⟨?_, ?_, ?_, ?_, ?_⟩
  · simp [State.saveSettings, foldl_keysErased]
  · simp [State.saveSettings, foldl_keysErased, causesAfter, FreezeCause.word, FreezeCause.bit]
  · simp [State.saveSettings, foldl_keysErased]
  · simp [State.saveSettings]
  · simp [State.saveSettings, foldl_keysErased, causesAfter, FreezeCause.word, FreezeCause.bit, State.modeAfterStart]

/-- Settles O6: `State.modeAfterStart` read in each case of R56's list. -/
theorem modeAfterFilling : Obligations.ModeAfterFilling := by
  intro charged s filling mainOn at10
  obtain ⟨t, run, step, causes, bank, alarms, mode⟩ := fillingComplete_facts charged s (atStep_true filling mainOn at10)
  refine ⟨t, run, step, causes, bank, alarms, ?_⟩
  rw [show (if charged = true then s.modes.freezeCauses else s.modes.freezeCauses ||| 0x10#8) = causesAfter s charged from rfl, mode]
  unfold State.modeAfterStart
  refine ⟨fun san => if_pos san, fun san other => ?_, fun san none rec => ?_, fun san none rec => ?_, fun san none rec => ?_,
    fun san operator rec => ?_⟩
  · have notOnly : onlyOperator (causesAfter s charged) = false := by
      rw [Bool.eq_false_iff]; exact fun h => other ((onlyOp _).1 h)
    simp [san, notOnly]
  · simp [san, rec, (onlyOp _).2 none]
  · simp [san, rec, (onlyOp _).2 none]
  · simp [san, rec, (onlyOp _).2 none]
  · have only : onlyOperator 0x40#8 = true := by decide
    simp [san, rec, operator, only]

end Sys2Proof.Machine
end

section
/-! PROOFS about supplies, restarts, Last Waltz and alarms. -/

namespace Sys2Proof.Machine

/-- Turning the main supply off leaves neither log with buffered records. -/
theorem mainOff_buffers (s : State) : s.mainOff.store.logA.buffer = [] ∧ s.mainOff.store.logB.buffer = [] := ⟨rfl, rfl⟩

/-- A change to Dormant, with no session open, leaves the keys and the logs as they were. -/
theorem changeMode_dormant_rest {s : State} (h : s.net.sessions = []) :
    (s.changeMode .dormant).net.sessions = [] ∧ (s.changeMode .dormant).cipher.kek = s.cipher.kek
      ∧ (s.changeMode .dormant).store.logA = s.store.logA ∧ (s.changeMode .dormant).store.logB = s.store.logB :=
  ⟨by rw [changeMode_dormant_net s h]; exact h, changeMode_frame s _ .kek (by decide), changeMode_frame s _ .logA (by decide),
    changeMode_frame s _ .logB (by decide)⟩

/-- Settles O8: outside Filling a restart records the mode, drops what runs and turns the main supply off. -/
theorem restartTurnsOff : Obligations.RestartTurnsOff := by
  intro island s mode mainOn noWaltz
  have notFilling : s.modes.mode ≠ .filling := by rcases mode with h | h | h <;> rw [h] <;> decide
  refine ⟨_, rfl, ?_⟩
  unfold State.restart
  rw [if_neg (by simp [mainOn, noWaltz]), if_neg (by simp [notFilling])]
  dsimp only
  generalize hu : ((((s.fwLoss 6).recordMode).dropAll 3).flushLogs).keepPairs false = u
  have umodes : u.modes = { s.modes with recorded := some s.modes.mode } := by
    rw [← hu, show ∀ v : State, (v.keepPairs false).modes = v.modes from fun _ => rfl]
    simp [recordMode_modes_of _ (show (s.fwLoss 6).modes.mode = _ ∨ _ by simpa using mode)]
  obtain ⟨sessions, kek, logA, logB⟩ := changeMode_dormant_rest (mainOff_net u)
  obtain ⟨bufferA, bufferB⟩ := mainOff_buffers u
  refine ⟨?_, ?_, rfl, rfl, ?_, sessions, ?_, ?_, ?_⟩
  · simp [State.saveSettings]
  · simp [State.saveSettings, umodes]
  · simp [State.saveSettings]
  · exact kek.trans (mainOff_facts u).2.2.2.1
  · exact (congrArg LogOwner.buffer logA).trans bufferA
  · exact (congrArg LogOwner.buffer logB).trans bufferB

/-- The loss of a supply outside Filling starts Last Waltz. -/
theorem supplyLost_waltz {s : State} (n : Nat) (hm : s.supply.mainOn = true) (hf : s.modes.mode ≠ .filling) :
    s.supplyLost n = s.startWaltz n := by
  unfold State.supplyLost; rw [if_neg (by simp [hm]), if_neg (by simpa using hf)]

@[simp] theorem startWaltz_supply' (s : State) (n : Nat) : (s.startWaltz n).supply = s.supply := by
  unfold State.startWaltz; split
  · rfl
  · simp [State.linksOff]

/-- Settles O9: each of the three losses goes on to `State.startWaltz`. -/
theorem lastWaltzStarts : Obligations.LastWaltzStarts := by
  refine ⟨?_, ?_, ?_⟩
  · rintro s ⟨mainOn, notFilling, noFlush⟩ watched high
    let s1 : State := { s with supply := { s.supply with pwrEn := false, armed := false }, modes := { s.modes with restartAt := none } }
    refine gives_of (t := s1.supplyLost (if s.modes.mode = .sanitising then 1 else 2)) ?_ ?_
    · simp only [exec, execPwrEnFall]
      rw [if_neg (by simp [watched, high])]
      simp only [beq_iff_eq, s1]
    · rw [supplyLost_waltz _ (show s1.supply.mainOn = true from mainOn) (show s1.modes.mode ≠ .filling from notFilling)]
      obtain ⟨modes, rest⟩ := startWaltz_begun s1 (if s.modes.mode = .sanitising then 1 else 2) noFlush
      exact ⟨⟨by rw [modes], by rw [modes], rest⟩, by simp [s1]⟩
  · rintro removed s ⟨mainOn, notFilling, noFlush⟩
    let s1 : State := { s with supply := { s.supply with p12vOk := false, seated := s.supply.seated && !removed } }
    refine gives_of (t := s1.supplyLost 1) rfl ?_
    rw [supplyLost_waltz _ (show s1.supply.mainOn = true from mainOn) (show s1.modes.mode ≠ .filling from notFilling)]
    obtain ⟨modes, rest⟩ := startWaltz_begun s1 1 noFlush
    exact ⟨⟨by rw [modes], by rw [modes], rest⟩, by simp [s1]⟩
  · rintro s ⟨mainOn, notFilling, noFlush⟩ aux condition
    refine gives_of (by simp only [exec, execP3v3AuxLoss]; rw [if_neg (by simp [aux]), if_pos mainOn, if_pos (by simpa using condition)]) ?_
    rw [supplyLost_waltz _ mainOn notFilling]
    obtain ⟨modes, rest⟩ := startWaltz_begun s 4 noFlush
    exact ⟨⟨by rw [modes], by rw [modes], rest⟩, rfl⟩

theorem alarmArmed_of_aux {s : State} {a : AlarmSource} (ha : a = .tamper ∨ a = .temperature ∨ a = .clock)
    (aux : s.supply.auxInRange = true) : s.alarmArmed a = true := by
  rcases ha with rfl | rfl | rfl <;> simp [State.alarmArmed, aux]

theorem execAlarm_new {s : State} {a : AlarmSource} (ha : a = .tamper ∨ a = .temperature ∨ a = .clock)
    (aux : s.supply.auxInRange = true) (new : a ∉ s.supply.conditions) : exec (.alarm a) s = .next (s.raiseAlarm a).settle := by
  simp only [exec, execAlarm]; rw [if_pos (by simp [alarmArmed_of_aux ha aux, new])]

/-- An alarm in any mode: it is counted with its cause, and its condition holds. -/
theorem raiseAlarm_supply (s : State) (a : AlarmSource) :
    (s.raiseAlarm a).supply.lastCauses = BitVec.ofNat 8 (2 ^ AlarmSource_bit a) ∧ (s.raiseAlarm a).supply.alarms = s.supply.alarms + 1
      ∧ a ∈ (s.raiseAlarm a).supply.conditions := by
  unfold State.raiseAlarm; dsimp only; split <;> simp

theorem eraseKeys_unloaded (s : State) : ∀ p ∈ s.eraseKeys.cipher.pages, p.cur.st ≠ .loaded ∧ p.prev.st ≠ .loaded := by
  intro p hp
  simp only [State.eraseKeys, List.mem_map] at hp
  obtain ⟨q, -, rfl⟩ := hp
  constructor <;> dsimp only <;> split <;> simp_all

/-- The erasure of an alarm destroys the KEK. -/
theorem eraseForAlarm_kek (s : State) (causes : BitVec 8) : (s.eraseForAlarm causes).cipher.kek = none := by
  unfold State.eraseForAlarm; simp [State.eraseKeys]

/-- With no command in flight the erasure leaves the key pages as `State.eraseKeys` made them, and alerts KEYS_ERASED. -/
theorem eraseForAlarm_idle {s : State} (causes : BitVec 8) (h : s.net.ctxs = []) :
    (s.eraseForAlarm causes).net.ctxs = [] ∧ (s.eraseForAlarm causes).sb.alertStatus.getLsbD 3 = true
      ∧ (s.eraseForAlarm causes).cipher.pages = s.eraseKeys.cipher.pages := by
  unfold State.eraseForAlarm; dsimp only
  rw [endAll_nil _ _ .deviceFault (by simpa using h), endAll_nil _ _ .keyspaceLocked (by simpa using h)]
  refine ⟨by simp [h], ?_, ?_⟩
  · simp [State.alert, Alert.bit]
  · simp [State.alert]

/-- Settles O10: what `State.raiseAlarm` does in Dormant and Filling, and what `State.eraseForAlarm` adds elsewhere. -/
theorem alarms : Obligations.Alarms := by
  unfold Obligations.Alarms
  intro bit
  have bits : ∀ a, bit a = BitVec.ofNat 8 (2 ^ AlarmSource_bit a) := by intro a; cases a <;> rfl
  refine ⟨?_, ?_, ?_, fun _ _ => rfl⟩
  · intro a s ha aux mode new
    refine gives_of (execAlarm_new ha aux new) ?_
    obtain ⟨causes, count, holds⟩ := raiseAlarm_supply s a
    rw [settle_supply, bits]
    refine ⟨causes, count, holds, ?_⟩
    unfold State.raiseAlarm; dsimp only
    rw [if_pos (by rcases mode with h | h <;> rw [h] <;> rfl)]
    rcases mode with h | h <;> simp [h, Mode.code]
  · intro a s ha aux notDormant notFilling new
    refine gives_of (execAlarm_new ha aux new) ?_
    obtain ⟨causes, count, holds⟩ := raiseAlarm_supply s a
    rw [settle_supply, settle_kek, bits]
    obtain ⟨s1, erased, idle⟩ : ∃ s1 : State, s.raiseAlarm a = s1.eraseForAlarm (bit a) ∧ s1.net = s.net := by
      unfold State.raiseAlarm; dsimp only
      rw [if_neg (by simp [notDormant, notFilling]), bits]
      exact ⟨_, rfl, rfl⟩
    refine ⟨causes, count, holds, by rw [erased]; exact eraseForAlarm_kek _ _, fun none => ?_⟩
    obtain ⟨ctxs, alerted, pages⟩ := eraseForAlarm_idle (bit a) (show s1.net.ctxs = [] by rw [idle]; exact none)
    rw [erased, settle_nil _ ctxs, watch_pages, pages]
    exact ⟨watch_bits _ _ alerted, eraseKeys_unloaded s1⟩
  · intro a s holds
    simp only [exec, execAlarm]; rw [if_neg (by simp [holds])]

end Sys2Proof.Machine
end

section
/-! PROOFS about the auxiliary supply and the beginning of a start. -/

namespace Sys2Proof.Machine

/-- What sampling the straps writes (R35, R36). -/
theorem sampleStraps_facts (s : State) (straps : Straps) :
    (s.sampleStraps straps).supply = { s.supply with straps := straps }
    ∧ (straps.factoryN = false → (s.sampleStraps straps).modes = { s.modes with startFault := true, startCause := 3 })
    ∧ (straps.factoryN = true → s.modes.startFault = true ∧ s.modes.startCause = 3 →
        (s.sampleStraps straps).modes = { s.modes with startFault := false })
    ∧ (straps.factoryN = true → s.modes.startFault = false ∨ s.modes.startCause ≠ 3 → (s.sampleStraps straps).modes = s.modes)
    ∧ (s.sampleStraps straps).sb = s.sb ∧ Keeps [.supply, .modes] s (s.sampleStraps straps) := by
  unfold State.sampleStraps; dsimp only
  refine ⟨?_, fun h => ?_, fun h k => ?_, fun h k => ?_, ?_, ?_⟩
  · (repeat' split) <;> rfl
  · simp [h]
  · simp [h, k]
  · rcases k with k | k <;> simp [h, k]
  · (repeat' split) <;> rfl
  · intro p hp
    (repeat' split) <;> cases p <;> first | rfl | exact absurd (by decide) hp

/-- Settles O1: the straps are sampled as `sampleStraps_facts` says, and the other clauses are read off. -/
theorem auxiliarySupply : Obligations.AuxiliarySupply := by
  refine ⟨?_, ?_, ?_, ?_⟩
  · intro straps s off
    refine gives_of (by simp only [exec, execP3v3AuxInRange]; rw [if_neg (by simp [off])]) ?_
    obtain ⟨supply, factory, cleared, same, sb, rest⟩ := sampleStraps_facts _ straps
    refine ⟨supply, factory, cleared, same, by rw [sb], by rw [sb], by rw [sb], ?_⟩
    refine Keeps.trans ?_ (rest.mono (by decide))
    intro p hp; cases p <;> first | rfl | exact absurd (by decide) hp
  · intro s on idle due
    simp only [exec, execPwrEnWatchStart]
    have due' : s.supply.auxSince + ms 50 ≤ s.clock := due
    rw [if_pos (by simp [on, idle, due'])]
  · intro s early
    simp only [exec, execPwrEnWatchStart]
    have early' : ¬ s.supply.auxSince + ms 50 ≤ s.clock := Nat.not_le.mpr early
    rw [if_neg (by simp [early'])]
  · intro s on off
    simp only [exec, execP3v3AuxLoss]
    rw [if_neg (by simp [on]), if_neg (by simp [off])]

/-- What is left of a state when a start begins in it. -/
theorem beginFilling_begun (s : State) :
    s.beginFilling.modes = { s.modes with mode := .filling, fillStart := s.clock, timeBase := s.clock, startStep := 1,
                                          starts := s.modes.starts + 1, startFault := false, restartAt := none }
    ∧ s.beginFilling.supply.mainOn = true ∧ s.beginFilling.supply.erasedLocked = false := by simp

/-- The state a rising edge of PWR_EN leaves before a start is looked at: the straps sampled and a start asked for. -/
def risen (s : State) (straps : Straps) : State :=
  ({ s with supply := { s.supply with pwrEn := true, armed := true } } : State).sampleStraps straps

theorem exec_pwrEnRise_edge {s : State} {straps : Straps} (watched : s.supply.watched = true) (low : s.supply.pwrEn = false) :
    exec (.pwrEnRise straps) s = if (risen s straps).mayStart && (risen s straps).supply.armed then .next (risen s straps).beginFilling
      else .next (risen s straps) := by
  unfold exec execPwrEnRise; rw [watched, low]; rfl

/-- Settles O2: each of the three rows asks `State.mayStart`, and where it holds goes on to `State.beginFilling`. -/
theorem startBegins : Obligations.StartBegins := by
  unfold Obligations.StartBegins
  intro begun
  refine ⟨?_, ?_, ?_, ?_⟩
  · intro straps s dormant off aux watched low p12v noRestart factory noFault
    obtain ⟨supply, -, -, same, -, rest⟩ := sampleStraps_facts ({ s with supply := { s.supply with pwrEn := true, armed := true } } : State) straps
    have modes : (risen s straps).modes = s.modes := same factory (by simpa [or_iff_not_imp_left] using noFault)
    have supply1 : (risen s straps).supply = { s.supply with pwrEn := true, armed := true, straps := straps } := supply
    have may : ((risen s straps).mayStart && (risen s straps).supply.armed) = true := by
      unfold State.mayStart
      rw [modes, supply1, dormant, noRestart]; simp [off, aux, watched, p12v, factory]
    refine gives_of (t := (risen s straps).beginFilling) (by rw [exec_pwrEnRise_edge watched low, if_pos may]) ?_
    obtain ⟨m, on, erased⟩ := beginFilling_begun (risen s straps)
    refine ⟨⟨?_, on, erased⟩, ?_, ?_⟩
    · rw [m, modes, show (risen s straps).clock = s.clock from rest .clock (by decide)]
    · rw [beginFilling_supply', supply1]
    · rw [beginFilling_supply', supply1]
  · intro s dormant off aux watched high armed factory noRestart
    let s1 : State := { s with supply := { s.supply with p12vOk := true, seated := true } }
    have may : (s1.mayStart && s1.supply.armed) = true := by
      simp [s1, State.mayStart, dormant, off, aux, watched, high, armed, factory, noRestart]
    refine gives_of (t := s1.beginFilling) ?_ ⟨beginFilling_begun s1, ?_⟩
    · simp only [exec, execP12vInRange]
      rw [if_pos may]
    · rw [beginFilling_supply']
  · intro s at' dormant restarts due p12v aux
    refine gives_of (t := s.beginFilling) ?_ (beginFilling_begun s)
    simp only [exec, execMainSupplyReenable, restarts]
    have due' : at' + ms 50 ≤ s.clock := due
    rw [if_pos (by simp [p12v, aux, due'])]
  · intro straps s factory watched low
    have fault : risen s straps = { s with supply := { s.supply with pwrEn := true, armed := true, straps := straps }
                                           modes := { s.modes with startFault := true, startCause := 3 } } := by
      unfold risen State.sampleStraps; rw [factory]; rfl
    rw [exec_pwrEnRise_edge watched low, if_neg, fault]
    rw [fault]; simp [State.mayStart, factory]

end Sys2Proof.Machine
end

section
/-! PROOFS about links that come up, and about failover. -/

namespace Sys2Proof.Machine

theorem links_length (s : State) (n : Nat) (f : Link → Link) : (s.updLink n f).ports.links.length = s.ports.links.length := by
  simp [State.updLink]

/-- The link of an attempt that has trained, once it is up. -/
def Link.trained (k : Link) (full : BitVec 8) (now : Nat) : Link :=
  { k with up := true, degraded := k.lanes != full, upSince := now, ups := k.ups + 1, attempt := none, failed := 0, downAt := none }

/-- LINK_UP where its guard holds and no link waits for a carrier (R102, R114): the link is up, its addresses are announced and held
frames drain. -/
theorem exec_linkUp {n since : Nat} {s : State} (hn : n < 8) (down : (s.link n).up = false) (attempt : (s.link n).attempt = some since)
    (trainable : s.trainable (isPortB n) = true) (lanes : s.fullLanes n ≠ 0) (noneWaits : ∀ m, (s.link m).waiting = false) :
    ∃ t, exec (.linkUp n) s = .next t
      ∧ (∀ m, t.link m = if m = n then (s.link n).trained (s.fullLanes n) s.clock else s.link m)
      ∧ t.ports.locked = s.ports.locked ||| (s.link n).lanes := by
  have inRange := link_att_lt attempt
  let s1 := s.updLink n (fun k => { k with up := true, degraded := (s.link n).lanes != s.fullLanes n, upSince := s.clock, ups := k.ups + 1,
                                           attempt := none, failed := 0, downAt := none })
  let s2 : State := { s1 with ports := { s1.ports with locked := s1.ports.locked ||| (s.link n).lanes, failing := s1.ports.failing &&& ~~~(s.link n).lanes } }
  have link2 : ∀ m, s2.link m = if m = n then (s.link n).trained (s.fullLanes n) s.clock else s.link m := by
    intro m
    show s1.link m = _
    rw [link_updLink]; simp [inRange, Link.trained]
  let s3 := if (s.link n).lanes != s.fullLanes n then s2.portEvent (isPortB n) .laneDegraded else s2
  have link3 : ∀ m, s3.link m = s2.link m := by intro m; dsimp only [s3]; split <;> simp
  have locked3 : s3.ports.locked = s2.ports.locked := by dsimp only [s3]; split <;> simp [portEvent_ports]
  let s4 := if (s.link n).movedTo.isNone then (s3.updLink n (fun k => { k with waiting := false })).announce n else s3
  have link4 : ∀ m, s4.link m = s3.link m := by
    intro m; dsimp only [s4]; split
    · rw [announce_link, link_updLink]
      split
      · rename_i h; obtain ⟨rfl, -⟩ := h
        rw [link3, link2, if_pos rfl]
        simp only [Link.trained, noneWaits]
      · rfl
    · rfl
  have locked4 : s4.ports.locked = s3.ports.locked := by
    dsimp only [s4]; split
    · exact (announce_rest _ _).l
    · rfl
  have calm : (portLinks (!isPortB n)).filter (fun m => (s4.link m).waiting && !(s4.link m).up) = [] := by
    rw [List.filter_eq_nil_iff]; intro m _
    have w : (s4.link m).waiting = false := by
      rw [link4, link3, link2]; split
      · simp [Link.trained, noneWaits]
      · exact noneWaits m
    simp [w]
  refine ⟨s4.drainHeld, ?_, fun m => by rw [drainHeld_link, link4, link3, link2], ?_⟩
  · simp only [exec, execLinkUp]
    rw [if_pos (by simp [hn, down, attempt, trainable]; exact lanes)]
    show Host.Outcome.next (if _ then ((portLinks (!isPortB n)).filter (fun m => (s4.link m).waiting && !(s4.link m).up)).foldl _ _ else _) = _
    rw [calm, List.foldl_nil, ite_self]
  · rw [(drainHeld_rest s4).l, locked4, locked3]; rfl

/-- Settles O12: `exec_linkUp` read field by field. -/
theorem linkUp : Obligations.LinkUp := by
  intro n since s hn down attempt trainable lanes noneWaits
  obtain ⟨t, run, links, locked⟩ := exec_linkUp hn down attempt trainable lanes noneWaits
  refine ⟨t, run, ?_⟩
  dsimp only
  rw [links n, if_pos rfl]
  exact ⟨rfl, rfl, rfl, rfl, rfl, locked, fun m other => by rw [links m, if_neg other]⟩

/-- Failing over a link gives its addresses to the carrier and sets FAILOVER_OUT. -/
theorem failOver_facts {s : State} {n c : Nat} (hn : n < 8) (inRange : n < s.ports.links.length) (hc : n ≠ c) :
    ((s.failOver n c).link n).movedTo = some c ∧ ((s.failOver n c).link n).waiting = false
      ∧ (if n < 4 then (s.failOver n c).ports.eventsA else (s.failOver n c).ports.eventsB).getLsbD 13 = true := by
  unfold State.failOver; dsimp only
  generalize hm : (List.range 8).filter (fun m => m == n || (s.link m).movedTo == some n) = moved
  have hmem : n ∈ moved := by rw [← hm]; simp [hn]
  have moves : (moved.foldl (fun t m => t.updLink m (fun k => { k with movedTo := if m == c then none else some c, waiting := false })) s).link n
      = { s.link n with movedTo := some c, waiting := false } := by
    rw [foldl_upd_link c moved s n hmem inRange (fun m k => { k with movedTo := if m == c then none else some c, waiting := false }) (fun _ => rfl)]
    simp [hc]
  generalize List.foldl _ s moved = s1 at moves ⊢
  have link : ((moved.foldl (fun t m => t.announce m) s1).portEvent (isPortB n) .failoverOut).drainHeld.link n = s1.link n := by
    rw [drainHeld_link, portEvent_link]; exact link_of_links (announces_rest moved s1).k n
  rw [link, moves]
  exact ⟨rfl, rfl, event_rest (drainHeld_rest _) n 13 (portEvent_bit' _ n .failoverOut)⟩

/-- Settles O13: the choice of a carrier, `failOver_facts`, and the two rows of the return and of the discard. -/
theorem failover : Obligations.Failover := by
  refine ⟨?_, ?_, ?_, ?_⟩
  · intro n since s hn eight on down notMoved downAt due up
    have guard : (n < 8 && s.var 0x0105 == 1 && !(s.link n).up && (s.link n).movedTo.isNone && since + ms (s.var 0x0106) ≤ s.clock) = true := by
      have due' : since + ms (s.var 0x0106) ≤ s.clock := due
      simp [hn, on, down, notMoved, due']
    have choice : s.chooseCarrier n = some ((n + 4) % 8) := by unfold State.chooseCarrier; simp [up]
    refine gives_of (t := s.failOver n ((n + 4) % 8)) ?_ (failOver_facts hn (by omega) (by omega))
    simp only [exec, execFailoverHold, downAt]
    rw [if_pos guard, choice]
  · intro n since s hn eight on down notMoved downAt due none
    have due' : since + ms (s.var 0x0106) ≤ s.clock := due
    have choice : s.chooseCarrier n = .none := by unfold State.chooseCarrier; simp [none]
    simp only [exec, execFailoverHold, downAt]
    rw [if_pos (by simp [hn, on, down, notMoved, due']), choice]
  · intro n since carrier s hn up moved since' due
    have due' : (s.link n).upSince + sec 1 ≤ s.clock := by rw [since']; exact due
    have inRange := link_up_lt up
    refine gives_of (by simp only [exec, execFailoverBack]; rw [if_pos (by simp [hn, up, moved, due'])]) ⟨?_, ?_⟩
    · rw [drainHeld_link, portEvent_link, announce_link, link_updLink]; simp [inRange]
    · exact event_rest (drainHeld_rest _) n 14 (portEvent_bit' _ n .failoverBack)
  · intro h s found down due
    have due' : h.queued + sec 1 ≤ s.clock := due
    refine gives_of (by simp only [exec, execEgressFrameTimeout, found]; rw [if_pos (by simp [down, due'])]) ⟨?_, ?_, ?_⟩
    · rfl
    · rfl
    · intro p hp; cases p <;> first | rfl | exact absurd (by decide) hp

end Sys2Proof.Machine
end

section
/-! PROOFS about received frames. -/

namespace Sys2Proof.Machine

/-- The state that has noted activity on the port of a link. -/
def State.heardOn (s : State) (n : Nat) : State :=
  { s with ports := if isPortB n then { s.ports with activeB := s.clock } else { s.ports with activeA := s.clock } }

theorem heardOn_keeps (s : State) (n : Nat) : Keeps [.ports, .sb] s (s.heardOn n) := act_keeps s n

theorem heardOn_link (s : State) (n m : Nat) : (s.heardOn n).link m = s.link m :=
  link_of_links (by unfold State.heardOn; dsimp only; split <;> rfl) m

theorem heardOn_length (s : State) (n : Nat) : (s.heardOn n).ports.links = s.ports.links := by unfold State.heardOn; dsimp only; split <;> rfl

theorem heardOn_linkAddrs (s : State) (n m : Nat) : (s.heardOn n).linkAddrs m = s.linkAddrs m := by
  unfold State.linkAddrs State.carrier; simp only [heardOn_link]; rfl

theorem heardOn_isPaused (s : State) (n m prio : Nat) : (s.heardOn n).isPaused m prio = s.isPaused m prio := by
  unfold State.isPaused; rw [heardOn_link]

theorem heardOn_quantaNs (s : State) (n m quanta : Nat) : (s.heardOn n).quantaNs m quanta = s.quantaNs m quanta := by
  unfold State.quantaNs; rw [heardOn_link]

/-- A port event on top of what FRAME_RECEIVE notes stays within the port and its alert. -/
theorem heardOn_event {s t : State} (h : Keeps [.ports, .sb] s t) (n : Nat) (e : PortEvent) :
    (if n < 4 then (t.portEvent (isPortB n) e).ports.eventsA else (t.portEvent (isPortB n) e).ports.eventsB).getLsbD e.bit = true
      ∧ Keeps [.ports, .sb] s (t.portEvent (isPortB n) e) := ⟨portEvent_bit' t n e, portEvent_keeps h _ e (by decide)⟩

/-- A frame that passes the checks of R106 up to its destination is read. -/
theorem exec_frameReceive_good {n : Nat} {f : Frame} {s : State} (hn : n < 8) (up : (s.link n).up = true) (fcs : f.fcsOk = true)
    (fec : f.fecOk = true) (long : 64 ≤ f.length) (short : f.length ≤ s.mtu n + 22) (buffer : f.bufferFree = true) (dst : dstOk f = true) :
    exec (.frameReceive n f) s = .next ((s.heardOn n).frameL3 n f).watch := by
  simp only [exec, execFrameReceive]
  rw [if_pos (by simp [hn, up])]
  simp only [fcs, fec, buffer, dst, if_true, Bool.not_true, Bool.or_self, Bool.false_eq_true, if_false]
  rw [if_neg (by omega), if_neg (by rw [mtu_ports]; omega)]
  rfl

/-- A PAUSE for a link with no holdoff and no pause in force. -/
theorem pause_link {s : State} {n quanta : Nat} (inRange : n < s.ports.links.length) (some : quanta ≠ 0) (holdoff : (s.link n).holdoff = [])
    (pauses : (s.link n).pauses = []) : ((s.pause n 8 quanta).link n).pauses = [(8, s.clock, s.clock + s.quantaNs n quanta)] := by
  unfold State.pause
  rw [holdoff, List.any_nil, if_neg (by decide), if_neg (by simpa using some), link_updLink, if_pos ⟨rfl, inRange⟩, pauses]
  rfl

/-- Settles O16: one case for each check that fails, then a PAUSE and an ARP request that pass them all. -/
theorem framesReceived : Obligations.FramesReceived := by
  unfold Obligations.FramesReceived
  intro event up good
  have heard : ∀ s n, Keeps [.ports, .sb] s (State.heardOn s n) := heardOn_keeps
  refine ⟨?_, ?_, ?_, ?_, ?_, ?_, ?_, ?_⟩
  · intro n f s down
    simp only [exec, execFrameReceive]
    rw [if_neg (by simp [down])]
  · intro n f s ⟨hn, on⟩ fec
    refine gives_of (t := ((s.heardOn n).portEvent (isPortB n) .fecUncorrected).portEvent (isPortB n) .fcsError) ?_ ?_
    · simp only [exec, execFrameReceive]; rw [if_pos (by simp [hn, on])]; simp [fec, State.heardOn]
    · have first := heardOn_event (heard s n) n .fecUncorrected
      exact ⟨event_more _ n _ _ _ first.1, heardOn_event first.2 n .fcsError⟩
  · intro n f s ⟨hn, on⟩ fcs
    refine gives_of (t := (if f.fecOk then s.heardOn n else (s.heardOn n).portEvent (isPortB n) .fecUncorrected).portEvent (isPortB n) .fcsError) ?_ ?_
    · simp only [exec, execFrameReceive]; rw [if_pos (by simp [hn, on])]; simp [fcs, State.heardOn]
    · refine heardOn_event ?_ n .fcsError
      split
      · exact heard s n
      · exact (heardOn_event (heard s n) n .fecUncorrected).2
  · intro n f s ⟨hn, on⟩ fcs fec short
    refine gives_of (t := (s.heardOn n).portEvent (isPortB n) .runt) ?_ (heardOn_event (heard s n) n .runt)
    simp only [exec, execFrameReceive]; rw [if_pos (by simp [hn, on])]; simp [fcs, fec, short, State.heardOn]
  · intro n f s ⟨hn, on⟩ fcs fec long oversize
    refine gives_of (t := (s.heardOn n).portEvent (isPortB n) .oversize) ?_ (heardOn_event (heard s n) n .oversize)
    have notRunt : ¬ f.length < 64 := by omega
    simp only [exec, execFrameReceive]; rw [if_pos (by simp [hn, on])]
    simp [fcs, fec, notRunt, State.heardOn, mtu_ports, oversize]
  · intro n f s ⟨hn, on⟩ fcs fec long short full
    refine gives_of (t := (s.heardOn n).portEvent (isPortB n) .ingressDrop) ?_ (heardOn_event (heard s n) n .ingressDrop)
    have notRunt : ¬ f.length < 64 := by omega
    have notOver : ¬ s.mtu n + 22 < f.length := by omega
    simp only [exec, execFrameReceive]; rw [if_pos (by simp [hn, on])]
    simp [fcs, fec, notRunt, State.heardOn, mtu_ports, notOver, full]
  · intro n quanta f s ⟨hn, on, fcs, fec, long, short, buffer⟩ dst l3 someQuanta mode holdoff pauses
    refine gives_of (exec_frameReceive_good hn on fcs fec long short buffer (by simp [dstOk, dst, l3])) ?_
    have flow : ((s.heardOn n).var (if isPortB n = true then 0x0108 else 0x0107) == 1) = true := by
      rw [beq_iff_eq, ← mode]
      by_cases low : n < 4
      · rw [if_pos low, if_neg (by simp [isPortB]; omega)]; rfl
      · rw [if_neg low, if_pos (by simp [isPortB]; omega)]; rfl
    have taken : (s.heardOn n).frameL3 n f = (s.heardOn n).pause n 8 quanta := by
      unfold State.frameL3; rw [l3]; exact if_pos flow
    have paused := pause_link (s := s.heardOn n) (n := n) (quanta := quanta) (by rw [heardOn_length]; exact link_up_lt on) someQuanta
      (by rw [heardOn_link]; exact holdoff) (by rw [heardOn_link]; exact pauses)
    rw [link_of_links (watch_links _), taken, paused, heardOn_quantaNs]
    rfl
  · intro n a f s ⟨hn, on, fcs, fec, long, short, buffer⟩ dst l3 tag vlan mine notMoved pauses
    refine gives_of (exec_frameReceive_good hn on fcs fec long short buffer (by simp [dstOk, dst, l3])) ?_
    have carrier : (s.heardOn n).carrier n = n := by unfold State.carrier; rw [heardOn_link, notMoved]; rfl
    have vlan' : (s.heardOn n).var (0x0110 + n) = 0 := vlan
    have answered : (s.heardOn n).frameL3 n f
        = (s.heardOn n).sendFrame { link := n, src := { mac := f.srcMac, ip := a, port := 0, dst := a }, pcp := 0 } 0 none (.arpReply a) := by
      unfold State.frameL3; rw [l3]; dsimp only
      rw [tag, vlan', if_neg (by decide)]
      unfold State.arpNd; dsimp only
      rw [if_pos (by rw [heardOn_linkAddrs]; simpa using mine)]
    refine sent_mono (watch_after (After.refl _)) ?_
    rw [answered]
    have sent := mem_sent_frame (s.heardOn n) { link := n, src := { mac := f.srcMac, ip := a, port := 0, dst := a }, pcp := 0 } 0 none (.arpReply a)
      (by dsimp only; rw [carrier, heardOn_link]; exact on)
      (by dsimp only; rw [carrier, heardOn_isPaused]; unfold State.isPaused; rw [pauses]; rfl)
    have untagged : (s.heardOn n).frameTag n 0 = .untagged := by unfold State.frameTag; dsimp only; rw [vlan']; rfl
    dsimp only at sent
    rw [carrier, untagged] at sent
    exact sent

end Sys2Proof.Machine
end

section
/-! PROOFS about sessions that open and end, and about the commands of a session. -/

namespace Sys2Proof.Machine

theorem idleSession_of {s : State} {n : Nat} (noCtx : ∀ x ∈ s.net.ctxs, x.session ≠ some n) (noKept : ∀ k ∈ s.net.kept, k.session ≠ n) :
    s.idleSession n = true := by
  unfold State.idleSession
  simp only [Bool.and_eq_true, Bool.not_eq_true', List.any_eq_false, beq_iff_eq]
  exact ⟨noCtx, noKept⟩

/-- Journalling late faults leaves the net and the clock. -/
theorem journalLates_facts (l : List LateFault) (s : State) :
    (l.foldl State.journalLate s).net = s.net ∧ (l.foldl State.journalLate s).clock = s.clock
      ∧ (l.foldl State.journalLate s).logs.nextJn = s.logs.nextJn + l.length := by
  induction l generalizing s with
  | nil => exact ⟨rfl, rfl, rfl⟩
  | cons f l ih =>
    obtain ⟨net, clock, next⟩ := ih (s.journalLate f)
    rw [List.foldl_cons]
    exact ⟨net, clock, next.trans (by simp only [List.length_cons]; show s.logs.nextJn + 1 + _ = _; omega)⟩

theorem freeSession_facts {s : State} {n : Nat} {y : Session} (h : s.session? n = some y) :
    (s.freeSession n).net.sessions = s.net.sessions.filter (fun z => z.num != n) ∧ (s.freeSession n).net.closed = setKey s.net.closed n s.clock
      ∧ (s.freeSession n).logs.nextJn = s.logs.nextJn + (y.notices.filterMap (·.late)).length := by
  obtain ⟨net, clock, next⟩ := journalLates_facts (y.notices.filterMap (·.late)) s
  unfold State.freeSession; rw [h]; dsimp only
  rw [net, clock]
  exact ⟨rfl, rfl, next⟩

/-- The session that an accepted open makes, of owner `o`, request `r` and window `w`. -/
def Ctx.newSession (x : Ctx) (n o r w now : Nat) : Session :=
  { num := n, fence := o, path := x.path, nonce := x.paramB, openSeq := x.seq, granted := w, request := r, window := w,
    highest := x.seq, base := x.seq + 1, limit := x.seq + 1 + BitVec.ofNat 32 w,
    replay := [{ seq := x.seq, opcode := x.opcode, tag := x.tag, finished := false, status := .done, paramA := 0, rerun := false }], queue := [],
    noticeMask := BitVec.ofNat 16 (bits x.paramA.toNat 31 16), nextNotice := 0, notices := [], waitingSd := [], lost := false, backoffs := 0,
    lastHeard := now, used := false, closing := none, closed := false }

/-- An accepted open answers with the window it grants, and its session stands. -/
theorem openSession_facts {s : State} {x : Ctx} {n : Nat} (found : s.ctx? x.id = some x) (free : s.session? n = none) :
    let o := bits x.paramA.toNat 11 8
    let r := if bits x.paramA.toNat 5 0 = 0 then s.var 0x0201 else bits x.paramA.toNat 5 0
    let w := 1 + min (r - 1) (s.poolAvail o)
    Replied { x with session := some n, sessField := n, pool := o }
        { Reply.plain .done with paramA := BitVec.ofNat 64 n, paramB := BitVec.ofNat 64 w } (s.openSession x n)
      ∧ ∃ y, (s.openSession x n).session? n = some y ∧ y.fence = o ∧ y.path = x.path ∧ y.nonce = x.paramB ∧ y.window = w
        ∧ y.highest = x.seq ∧ y.queue = [] ∧ y.lastHeard = s.clock ∧ y.closing = none := by
  intro o r w
  let s1 : State := { s.drawn with net := { s.net with sessions := s.net.sessions ++ [x.newSession n o r w s.clock] } }
  let opened (k : Ctx) : Ctx := { k with session := some n, sessField := n, pool := o }
  let done : Reply := { Reply.plain .done with paramA := BitVec.ofNat 64 n, paramB := BitVec.ofNat 64 w }
  have run : s.openSession x n = (s1.updCtx x.id opened).endCmd x.id done := by
    have request : (if bits x.paramA.toNat 5 0 == 0 then s.var 0x0201 else bits x.paramA.toNat 5 0) = r := by simp [r]
    unfold State.openSession; dsimp only; rw [request]; rfl
  have foundNew : (s1.updCtx x.id opened).ctx? x.id = some (opened x) := ctx?_updCtx (s := s1) (f := opened) found rfl
  have session : (s1.updCtx x.id opened).session? n = some (x.newSession n o r w s.clock) := session?_append free rfl
  have ended := endCmd_session? done foundNew rfl
  rw [session] at ended
  rw [run]
  refine ⟨endCmd_replied _ foundNew, _, ended, ?_⟩
  split <;> exact ⟨rfl, rfl, rfl, rfl, rfl, rfl, rfl, rfl⟩

/-- Settles O17: an accepted open, a repeated one and one that finds no room, then the two ways a session is freed. -/
theorem sessionsOpenAndEnd : Obligations.SessionsOpenAndEnd := by
  refine ⟨?_, ?_, ?_, ?_, ?_⟩
  · intro c n x s fresh mode limits first running room number r w
    obtain ⟨found, -⟩ := fresh_ctx fresh
    have id := ctx?_id found
    obtain ⟨small, free, rested⟩ := freeNumber_spec number
    refine gives_of (t := s.openSession x n) ?_ ⟨small, free, rested, openSession_facts (id ▸ found) free⟩
    simp only [exec, execSessionOpen, fresh, mode, limits, first, State.activationDrains, running, State.openRoom, if_pos room, number]
    rfl
  · intro c x y s fresh mode limits repeated
    obtain ⟨found, -⟩ := fresh_ctx fresh
    have id := ctx?_id found
    refine gives_of (t := s.replayOpen x y) (by simp only [exec, execSessionOpen, fresh, mode, limits, repeated]; rfl) ⟨?_, ?_, ?_⟩
    · unfold State.ctx?
      rw [List.find?_eq_none]; intro k hk
      have other := (List.mem_filter.mp hk).2
      rw [id] at other; simpa using other
    · exact sendFrame_sessions _ _ _ _ _
    · exact sendOnce_leaves s x.path (some y.num) _
  · intro c x s fresh mode limits first running full noneIdle
    obtain ⟨found, -⟩ := fresh_ctx fresh
    refine gives_of (t := s.answerOpen x (Reply.withA .backoff (1000000 * s.var 0x0204))) ?_ (endCmd_replied _ (ctx?_id found ▸ found))
    simp only [exec, execSessionOpen, fresh, mode, limits, first, State.activationDrains, running, State.openRoom, if_neg (Nat.not_lt.mpr full),
      noneIdle]
    rfl
  · intro n y s found open_ noCtx noKept due
    refine gives_of ?_ (freeSession_facts found)
    have due' : y.lastHeard + sec (s.var 0x0203) ≤ s.clock := due
    simp only [exec, execSessionIdle, found]
    rw [if_pos (by simp [open_, idleSession_of noCtx noKept, due'])]
  · intro n y s found closed noCtx noKept
    obtain ⟨sessions, numbers, -⟩ := freeSession_facts found
    refine gives_of ?_ ⟨sessions, numbers⟩
    simp only [exec, execSessionFree, found]
    rw [if_pos (by simp [closed, idleSession_of noCtx noKept])]

/-- The context that an ABORT of `tag` names. -/
theorem tagged_eq {s : State} {x : Ctx} {n : Nat} (session : x.session = some n) (tag : Nat) :
    s.tagged x tag = s.net.ctxs.find? (fun z => z.session == some n && z.tag == tag && z.id != x.id && !z.reexec) := by
  unfold State.tagged; rw [session]

/-- Settles O18: closing, its drain and the echo by their rows; an abort by whether it names a command that can still be ended. -/
theorem sessionCommands : Obligations.SessionCommands := by
  refine ⟨?_, ?_, ?_, ?_, ?_⟩
  · intro c n x y s fresh mode key val flags a b session found notClosing
    obtain ⟨ctx, -⟩ := fresh_ctx fresh
    let close (y : Session) : Session := { y with closing := some (y.closing.getD c) }
    refine gives_of (t := (s.updSession n close).toPhase c .draining) ?_ ⟨⟨x.enter .draining s.clock, ?_, ?_, ?_⟩, ?_⟩
    · simp only [exec, execSessionClose, fresh, mode]
      rw [if_neg (by simp [key, val, a, b, flagsWithin_zero flags]), session]
    · show (s.updSession n close).session? n = _
      rw [session?_upd (f := close) (fun _ => rfl), found]
      simp only [Option.map_some, close, notClosing, Option.getD_none]
    · exact ctx?_toPhase (s := s.updSession n _) .draining ctx
    · exact enter_phase _ _ _
    · exact (updSession_frame s n _).mono (by decide) |>.trans ((toPhase_frame _ c _).mono (by decide))
  · intro c n x s ctx session phase op alone
    refine gives_of (t := (s.endStatus c .done).updSession n (fun y => { y with closed := true })) ?_ ⟨endCmd_replied _ ctx, ?_⟩
    · simp only [exec, execSessionCloseDrained, ctx, session]
      refine if_pos ?_
      have noneEarlier : s.earlier n c = [] := by
        unfold State.earlier
        rw [List.filter_eq_nil_iff]; intro y hy
        simp only [Bool.and_eq_true, beq_iff_eq, bne_iff_ne, Bool.not_eq_true', not_and]
        rintro ⟨mine, other⟩; exact absurd (alone y hy mine) other
      simp [phase, op, noneEarlier]
    · intro z hz num
      obtain ⟨w, -, rfl⟩ := List.mem_map.mp hz
      by_cases mine : (w.num == n) = true
      · rw [if_pos mine]
      · rw [if_neg mine] at num; exact absurd (by simpa using num) mine
  · intro c x s fresh mode key val flags
    obtain ⟨ctx, -⟩ := fresh_ctx fresh
    refine gives_of ?_ ⟨endCmd_replied _ ctx, endCmd_ctxs _⟩
    simp only [exec, execEcho, fresh, mode]
    rw [if_pos (by simp [key, val, flagsWithin_zero flags])]
  · intro c n x y s fresh mode key val flags small b other session wire wire' calm named found
    obtain ⟨ctx, -⟩ := fresh_ctx fresh
    have id := ctx?_id ctx
    have tagged : s.tagged x x.paramA.toNat = some y := by rw [tagged_eq session, id]; exact named
    have notSelf : y.id ≠ c := by
      have picked := List.find?_some named
      simp only [Bool.and_eq_true, bne_iff_ne] at picked
      exact picked.1.2
    have run : exec (.abort c) s = .next (if y.abortable then ((s.endStatus y.id .aborted).endCmd c (Reply.withA .done x.paramA.toNat)).settle
        else (s.endCmd c (Reply.withA .alreadyDone x.paramA.toNat)).settle) := by
      simp only [exec, execAbort, fresh, mode]
      rw [if_neg (by simp [key, val, b, flagsWithin_zero flags, small]), if_neg (by simpa using other), tagged]
      dsimp only
      split <;> rfl
    refine ⟨fun queued waits => ?_, fun late => ?_⟩
    · have able : y.abortable = true := by simp [Ctx.abortable, queued, waits]
      refine gives_of (run.trans (by rw [if_pos able])) ⟨?_, ?_⟩
      · exact ((endCmd_replied _ found).endCmd wire' c _).settle ((calm.endCmd _ _).endCmd _ _)
      · exact endCmd_settle_replied _ ((endCmd_ctx? _ notSelf.symm).trans ctx) (calm.endCmd _ _)
    · have unable : y.abortable = false := by cases late with
        | inl notQueued => simp [Ctx.abortable, notQueued]
        | inr committed => simp [Ctx.abortable, committed]
      refine gives_of (run.trans (by rw [if_neg (by rw [unable]; decide)])) ⟨endCmd_settle_replied _ ctx calm, ?_⟩
      rw [settle_quiet (calm.endCmd _ _), watch_ctx?, endCmd_ctx? _ notSelf]
      exact found
  · intro c x s fresh mode key val flags small b nobody calm
    obtain ⟨ctx, -⟩ := fresh_ctx fresh
    refine gives_of ?_ (endCmd_settle_replied (Reply.withA .notFound x.paramA.toNat) ctx calm)
    simp only [exec, execAbort, fresh, mode]
    rw [if_neg (by simp [key, val, b, flagsWithin_zero flags, small])]
    by_cases self : x.paramA.toNat = x.tag
    · rw [if_pos (by simpa using self)]
    · have noSession := nobody.resolve_left self
      rw [if_neg (by simpa using self)]
      unfold State.tagged; rw [noSession]

end Sys2Proof.Machine
end

section
/-! PROOFS about the admission of reads, writes and seed markers. -/

namespace Sys2Proof.Machine

/-- Settles O22: every row's command is `State.checked` with its limits, and `read_row` says what that gives. -/
theorem readsAdmitted : Obligations.ReadsAdmitted := by
  unfold Obligations.ReadsAdmitted
  intro plain row mem c x s fresh calm
  obtain ⟨ctx, op, -⟩ := fresh_ctx fresh
  have notWrite : ∀ {o}, x.opcode = o → isDataWrite o = false → x.relayed = false ∧ x.writesValue = false := fun e h => not_write (e ▸ h)
  simp only [List.mem_cons, List.not_mem_nil, or_false] at mem
  rcases mem with rfl | rfl | rfl | rfl | rfl | rfl | rfl <;>
  · obtain ⟨own, noValue⟩ := notWrite op (by decide)
    refine read_row ctx calm own noValue ?_
    dsimp only at fresh
    simp only [exec, execGet, execHead, execVersionsNext, execScanKeys, execSieveOpen, execSieveNext, execSieveClose, fresh] <;> rfl

/-- What checks 7 and 8 of R155 ask of a write. -/
theorem keysAllow {s : State} {x : Ctx} (unlocked : x.writesValue = false ∨ s.ksLocked x.keyspace = false) :
    (x.writesValue && s.ksLocked x.keyspace) = false := by
  cases unlocked with
  | inl noValue => rw [noValue]; rfl
  | inr open_ => rw [open_, Bool.and_false]

/-- A write that is checked: the checks of R155 in their order, then REQUIRE_DIGEST and the digest. -/
theorem write_row {s : State} {x : Ctx} {c : Nat} {i : Instr} (ctx : s.ctx? c = some x) (calm : NoneWaits s) (own : x.relayed = false)
    (notRead : isKeyRead x.opcode = false) (run : exec i s = .next (s.checkedWrite x).settle) :
    (∀ st, s.modeStops x = some st → Gives i s (Replied x (Reply.plain st)))
    ∧ (s.modeStops x = none → writeLimits x = false → Gives i s (Replied x (Reply.plain .badLength)))
    ∧ (s.modeStops x = none → writeLimits x = true →
        (s.ksMissing x = true → Gives i s (Replied x (Reply.plain .badKeyspace)))
        ∧ (s.ksMissing x = false →
            (∀ r, s.misplaced x false = some r → Gives i s (Replied x r))
            ∧ (s.misplaced x false = none →
                (x.writesValue = true → s.ksLocked x.keyspace = true → Gives i s (Replied x (Reply.plain .keyspaceLocked)))
                ∧ (x.writesValue = false ∨ s.ksLocked x.keyspace = false →
                    (s.keyExhausted x = true → Gives i s (Replied x (Reply.plain .keyExhausted)))
                    ∧ (s.keyExhausted x = false → s.refusal x (writeLimits x) true x.writesValue = none))))) := by
  have refused : ∀ {r}, s.refusal x (writeLimits x) true x.writesValue = some r → Gives i s (Replied x r) :=
    fun h => gives_of run (checkedWrite_refused ctx calm h)
  have refusal := refusal_writes (s := s) (x := x) (l := writeLimits x) (k := x.writesValue) notRead
  rw [own] at refusal
  refine ⟨fun st mode => refused ?_, fun mode long => refused ?_, fun mode fits => ⟨fun missing => refused ?_, fun there =>
    ⟨fun r away => refused ?_, fun here => ⟨fun value locked => refused ?_, fun unlocked => ⟨fun exhausted => refused ?_, fun usable => ?_⟩⟩⟩⟩⟩
  · rw [refusal, mode]
  · rw [refusal, mode, long]; rfl
  · rw [refusal, mode, fits, missing]; rfl
  · rw [refusal, mode, fits, there]; simp [away]
  · rw [refusal, mode, fits, there]; simp [here, value, locked]
  · rw [refusal, mode, fits, there, keysAllow unlocked]; simp [here, exhausted]
  · rw [refusal, mode, fits, there, keysAllow unlocked]; simp [here, usable]

/-- A write of its own checks is `State.checkedWrite`. -/
theorem exec_write {s : State} {x : Ctx} {c : Nat} {row : (Nat → Instr) × Nat}
    (mem : row ∈ [(Instr.put, 0x02), (.putPosted, 0x03), (.delete, 0x04), (.appendSegment, 0x05), (.discard, 0x06), (.secureDiscard, 0x07)])
    (fresh : s.fresh? c row.2 = some x) (own : x.relayed = false) : exec (row.1 c) s = .next (s.checkedWrite x).settle := by
  have written := writeRow_eq fresh own
  simp only [List.mem_cons, List.not_mem_nil, or_false] at mem
  rcases mem with rfl | rfl | rfl | rfl | rfl | rfl <;> exact congrArg _ written

theorem keyRead_of_write {op : Nat} (h : isDataWrite op = true) : isKeyRead op = false := by
  simp only [isDataWrite, Bool.or_eq_true, beq_iff_eq] at h
  simp only [isKeyRead, Bool.or_eq_false_iff, beq_eq_false_iff_ne]
  omega

theorem digestEvent_next (s : State) (ks place op : Nat) (fp : BitVec 128) :
    (s.digestEvent ks place op fp).counts.digestMis = s.counts.digestMis + 1 ∧ (s.digestEvent ks place op fp).logs.nextEv = s.logs.nextEv + 1 := by
  unfold State.digestEvent
  exact ⟨by rw [logEvent_counts], logEvent_nextEv _ _ _⟩

/-- Settles O23: `write_row` with `write_conditions`, and RECORD_CRC in front of them for a RELAYED write. -/
theorem writesAdmitted : Obligations.WritesAdmitted := by
  unfold Obligations.WritesAdmitted
  intro passes conditions
  refine ⟨?_, ?_⟩
  · intro row mem c x s fresh own calm
    obtain ⟨ctx, op, -⟩ := fresh_ctx fresh
    have notRead : isKeyRead x.opcode = false := keyRead_write op (by
      simp only [List.mem_cons, List.not_mem_nil, or_false] at mem
      rcases mem with rfl | rfl | rfl | rfl | rfl | rfl <;> decide)
    have run := exec_write mem fresh own
    obtain ⟨stops, long, rest⟩ := write_row ctx calm own notRead run
    refine ⟨stops, long, fun mode fits => ⟨(rest mode fits).1, fun there => ⟨((rest mode fits).2 there).1, fun here => ?_⟩⟩⟩
    obtain ⟨locked, keys⟩ := ((rest mode fits).2 there).2 here
    refine ⟨locked, fun unlocked => ⟨(keys unlocked).1, fun usable => ?_⟩⟩
    exact write_conditions ctx calm (run.trans (by rw [checkedWrite_passed ((keys unlocked).2 usable)]))
  · intro c x p s fresh relayed pre noMarker calm mode fits there unlocked usable
    obtain ⟨ctx, -⟩ := fresh_ctx fresh
    have id := ctx?_id ctx
    have notRead : isKeyRead x.opcode = false := keyRead_of_write (by
      unfold Ctx.relayed relayedFlag at relayed; exact (Bool.and_eq_true_iff.mp relayed).1)
    have keys := keysAllow unlocked
    have run : exec (.relayedWrite c) s = .next (if p.crc = crc64 (x.key ++ x.body) then (s.checkedWrite x).settle
        else ((s.digestEvent x.keyspace 5 x.opcode x.fp).endStatus c .digestMismatch).settle) := by
      simp only [exec, execRelayedWrite, ctx, Option.bind_some, fresh]
      rw [if_neg (by simp [relayed, pre, noMarker]), mode]
      dsimp only
      rw [if_neg (by simp [relayedLimits, pre, fits])]
      by_cases same : p.crc = crc64 (x.key ++ x.body)
      · rw [if_neg (by simp [pre, same]), if_pos same]
      · rw [if_pos (by simp only [there, usable, pre, keys]; simpa using same), if_neg same]
    refine ⟨fun differ => ?_, fun same => ?_⟩
    · have ctxs : (s.digestEvent x.keyspace 5 x.opcode x.fp).net.ctxs = s.net.ctxs := digestEvent_frame _ _ _ _ _ .ctxs (by decide)
      have calm' : NoneWaits (s.digestEvent x.keyspace 5 x.opcode x.fp) := by unfold NoneWaits; rw [ctxs]; exact calm
      have ctx' : (s.digestEvent x.keyspace 5 x.opcode x.fp).ctx? c = some x := by unfold State.ctx?; rw [ctxs]; exact ctx
      obtain ⟨count, next⟩ := digestEvent_next s x.keyspace 5 x.opcode x.fp
      refine gives_of (t := ((s.digestEvent x.keyspace 5 x.opcode x.fp).endCmd c (Reply.plain .digestMismatch)).settle)
        (run.trans (by rw [if_neg differ]; rfl)) ⟨endCmd_settle_replied _ ctx' calm', ?_, ?_⟩
      · rw [settle_quiet (calm'.endCmd _ _), watch_digestMis, endCmd_counts, count]
      · rw [settle_quiet (calm'.endCmd _ _), watch_logs0, endCmd_logs, next]
    · refine write_conditions ctx calm (run.trans ?_)
      have passed : s.refusal x (writeLimits x) true x.writesValue = none := by
        rw [refusal_writes notRead, mode, fits, there, relayed, keys, usable]; rfl
      rw [if_pos same, checkedWrite_passed passed]

theorem marker_prefix {s : State} {c kind : Nat} {x : Ctx} {p : Prefix} (h : s.marker? c kind = some (x, p)) : s.ctx? c = some x ∧ x.opcode = 0x06 := by
  obtain ⟨ctx, op, -⟩ := fresh_ctx (marker_fresh h)
  exact ⟨ctx, op⟩

/-- Settles O24: `saved_seed` for the mark of a keyspace that exists, and the waiting change for one to create. -/
theorem seedMarks : Obligations.SeedMarks := by
  refine ⟨?_, ?_⟩
  · intro c kind x p k s which marker mode limits found there attrs calm
    obtain ⟨ctx, op⟩ := marker_prefix marker
    have kid := keyspace?_id found
    have alive : k.deleting.any (· < x.id) = false := by
      unfold State.ksMissing at there; rw [found] at there; exact (Bool.or_eq_false_iff.mp there).2
    rcases which with rfl | rfl
    · refine gives_of ?_ (saved_seed (b := true) (f := fun k => { k with partialSeed := true }) (fun _ => rfl) (fun _ => rfl) ctx op found calm)
      simp only [if_pos, exec, execSeedBegin, marker, mode]
      rw [if_neg (by simp [limits]), found]
      dsimp only
      rw [if_neg (by simp [alive, attrs]), kid]
    · refine gives_of ?_ (saved_seed (b := false) (f := fun k => { k with partialSeed := false }) (fun _ => rfl) (fun _ => rfl) ctx op found calm)
      rw [if_neg (by decide)]
      simp only [exec, execSeedEnd, marker, mode]
      rw [if_neg (by simp [limits]), if_neg (by simp [there])]
  · intro c x p s marker mode limits absent allowed calm
    obtain ⟨ctx, -⟩ := marker_prefix marker
    let k := (s.dequeue x).drawn
    let made := s.newKeyspace x.keyspace p.attrs.toNat p.quota true
    let settle (y : Ctx) : Ctx := { y with change := some (.create made), reply := Reply.plain .done }.enter .settings k.clock
    have ctxs : k.net.ctxs = s.net.ctxs := dequeue_ctxs s x
    have ctx' : k.ctx? c = some x := by unfold State.ctx?; rw [ctxs]; exact ctx
    have calm' : NoneWaits (k.updCtx c settle) :=
      NoneWaits.updCtx (by unfold NoneWaits; rw [ctxs]; exact calm) c settle (fun y => by simp [settle])
    refine gives_of (t := (k.updCtx c settle).settle) ?_ ⟨settle x, made, ?_, enter_phase _ _ _, ?_, rfl, attrs_of (createStatus_lt allowed), rfl, rfl⟩
    · simp only [exec, execSeedBegin, marker, mode]
      rw [if_neg (by simp [limits]), absent]
      dsimp only
      rw [allowed]
      rfl
    · rw [settle_quiet calm', watch_ctx?]
      exact ctx?_updCtx ctx' (enter_id _ _ _)
    · unfold settle Ctx.enter; (repeat' split) <;> rfl

end Sys2Proof.Machine
end

section
/-! PROOFS about token buckets. -/

namespace Sys2Proof.Machine

/-- Where a command goes with its tokens (R214). -/
def Ctx.afterShaper (x : Ctx) : Phase := if x.opcode = 0x08 ∨ isSieve x.opcode = true then .ready else .locking

theorem exec_shaperAdmit {c : Nat} {x : Ctx} {s : State} (ctx : s.ctx? c = some x) (phase : x.phase = .shaping) (head : s.atHead x = true) :
    exec (.shaperAdmit c) s = .next (if x.isShaped = false then s.shaped x
      else
        let s1 := if x.ksTokens then s else s.takeKsTokens x
        match s1.ctx? c with
        | none => s1
        | some y => if y.ksTokens then s1.takeOwnerTokens y else s1) := by
  simp only [exec, execShaperAdmit, ctx]
  rw [if_neg (by simp [phase, head])]
  cases x.isShaped with
  | false => rfl
  | true =>
    simp only [Bool.not_true, Bool.false_eq_true, if_false, Bool.true_eq_false]
    generalize (if x.ksTokens = true then s else s.takeKsTokens x) = s1
    cases s1.ctx? c with
    | none => rfl
    | some y => exact (apply_ite _ _ _ _).symm

theorem admits_iff (h : Shaper) :
    h.admits = true ↔ (h.byteRate = 2 ^ 64 - 1 ∨ 0 ≤ h.bytes) ∧ (h.opRate = 2 ^ 64 - 1 ∨ 0 ≤ h.ops) := by
  simp [Shaper.admits, unlimited_eq]

theorem charge_bytes (h : Shaper) (n : Nat) : (h.charge n).bytes = h.bytes - (if h.byteRate = 2 ^ 64 - 1 then 0 else n) := by
  simp only [Shaper.charge, unlimited_eq, beq_iff_eq]; split <;> simp

theorem charge_ops (h : Shaper) (n : Nat) : (h.charge n).ops = h.ops - (if h.opRate = 2 ^ 64 - 1 then 0 else 1024) := by
  simp only [Shaper.charge, unlimited_eq, beq_iff_eq]; split <;> simp

theorem ksOwner_of_found {s : State} {n : Nat} {k : Keyspace} (h : s.keyspace? n = some k) : s.ksOwner n = k.fence := by
  unfold State.ksOwner; rw [h]

theorem ksShaper_of {s : State} {n : Nat} {k : Keyspace} {h : Shaper} (found : s.keyspace? n = some k) (shaper : k.shaper = some h)
    (running : h.stopped = false) : s.ksShaper n = some (h.accrue s.clock) := by
  unfold State.ksShaper; rw [found, Option.bind_some, shaper]; dsimp only; rw [if_neg (by rw [running]; decide)]

theorem onKsShaper_keyspace {s : State} {n : Nat} {k : Keyspace} (f : Shaper → Shaper) (found : s.keyspace? n = some k) :
    (s.onKsShaper n f).keyspace? n = some { k with shaper := k.shaper.map (fun h => if h.stopped then h else f h) } := by
  unfold State.onKsShaper
  rw [keyspace?_upd (f := fun k => { k with shaper := k.shaper.map (fun h => if h.stopped then h else f h) }) (fun _ => rfl), found]; rfl

/-- Settles O25: the passes of a command by its buckets, one clause for each. -/
theorem shaperAdmits : Obligations.ShaperAdmits := by
  refine ⟨?_, ?_, ?_, ?_, admits_iff⟩
  · intro c x s ⟨ctx, phase, head⟩ free
    obtain ⟨y, found, at', -⟩ := shaped_ctx ctx
    obtain ⟨store, owners⟩ := shaped_rest s x
    refine gives_of (by rw [exec_shaperAdmit ctx phase head, if_pos free]) ⟨⟨y, found, at'⟩, ?_, owners⟩
    rw [store]
  · intro c x k h s ⟨ctx, phase, head⟩ charged noTokens first found shaper running admits noOwnerShaper
    have id := ctx?_id ctx
    let charge (h : Shaper) : Shaper := (h.accrue s.clock).charge x.shapedBytes
    let s0 := s.onKsShaper x.keyspace charge
    let s1 := s0.updCtx x.id (fun y => { y with ksTokens := true })
    have ctx1 : s1.ctx? c = some { x with ksTokens := true } := by
      have := ctx?_updCtx (s := s0) (f := fun y => { y with ksTokens := true }) ctx rfl
      rw [← id] at this ⊢; exact this
    have takes : s.takeKsTokens x = s1 := by
      unfold State.takeKsTokens; rw [ksShaper_of found shaper running]; dsimp only; rw [if_pos (by rw [first, admits]; rfl)]
    have owner1 : (s1.owner (s1.ksOwner x.keyspace)).shaper = none := by
      rw [ksOwner_of_found (s := s1) (onKsShaper_keyspace charge found)]; exact noOwnerShaper
    have passes : s1.takeOwnerTokens { x with ksTokens := true } = s1.shaped { x with ksTokens := true } := by
      unfold State.takeOwnerTokens; dsimp only; rw [owner1]
    obtain ⟨y, ctxY, phaseY, tokensY⟩ := shaped_ctx ctx1
    have bucket : (s1.keyspace? x.keyspace).bind (·.shaper) = some (charge h) := updKs_shaper found shaper running
    refine gives_of (t := s1.shaped { x with ksTokens := true }) ?_ ⟨⟨y, ctxY, phaseY, tokensY⟩, charge h, ?_, ?_, ?_, rfl⟩
    · rw [exec_shaperAdmit ctx phase head, if_neg (by rw [charged]; decide), noTokens]
      dsimp only
      rw [if_neg (by decide), takes, ctx1]
      dsimp only
      rw [if_pos rfl, passes]
    · rw [keyspace?_of (s := s1) (by rw [(shaped_rest s1 _).1]), bucket]
    · exact charge_bytes _ _
    · exact charge_ops _ _
  · intro c x k h s ⟨ctx, phase, head⟩ charged noTokens found shaper running held
    have stays : s.takeKsTokens x = s := by
      unfold State.takeKsTokens; rw [ksShaper_of found shaper running]; dsimp only
      refine if_neg ?_
      cases held with
      | inl empty => simp [empty]
      | inr later => simp [later]
    rw [exec_shaperAdmit ctx phase head, if_neg (by rw [charged]; decide), noTokens]
    dsimp only
    rw [if_neg (by decide), stays, ctx]
    dsimp only
    rw [noTokens, if_neg (by decide)]
  · intro c x h s ⟨ctx, phase, head⟩ charged tokens first shaper inRange admits
    let s1 := s.onOwnerShaper (s.ksOwner x.keyspace) (fun h => (h.accrue s.clock).charge x.shapedBytes)
    obtain ⟨y, ctxY, phaseY, -⟩ := shaped_ctx (s := s1) ctx
    obtain ⟨store, owners⟩ := shaped_rest s1 x
    refine gives_of (t := s1.shaped x) ?_ ⟨⟨y, ctxY, phaseY⟩, ?_, ?_⟩
    · rw [exec_shaperAdmit ctx phase head, if_neg (by rw [charged]; decide), tokens]
      dsimp only
      rw [if_pos rfl, ctx]
      dsimp only
      rw [tokens, if_pos rfl]
      unfold State.takeOwnerTokens
      dsimp only
      rw [shaper]
      dsimp only
      rw [first, admits]
      rfl
    · show ((s1.shaped x).owners.getD _ _).shaper = _
      rw [owners]
      show (s1.owner _).shaper = _
      unfold s1 State.onOwnerShaper
      rw [owner_updOwner inRange, shaper]
      rfl
    · rw [store]; rfl

end Sys2Proof.Machine
end

section
/-! PROOFS about the range-lock table. -/

namespace Sys2Proof.Machine

/-- Entering an object that others hold keeps a blocked operation waiting in its entry, and no record of it is held. -/
theorem entered_waits {s : State} {c : Nat} {x : Ctx} (there : ∃ e ∈ s.net.locks, e.keyspace = x.keyspace ∧ e.fp = x.fp)
    (fresh : ∀ e ∈ s.net.locks, ∀ r ∈ e.recs, r.op ≠ .cmd c)
    (blocked : ∀ e ∈ s.net.locks, e.keyspace = x.keyspace → e.fp = x.fp → ∃ h ∈ e.recs, h.held = true ∧ h.conflicts (lockRecOf c x) = true) :
    (∀ e ∈ (entered c x s).net.locks, ∀ r ∈ e.recs, r.op = .cmd c → r.held = false)
      ∧ ∃ e ∈ (entered c x s).net.locks, e.keyspace = x.keyspace ∧ e.fp = x.fp ∧ lockRecOf c x ∈ e.recs := by
  let on (e : LockEntry) : Bool := e.keyspace == x.keyspace && e.fp == x.fp
  have onObject : ∀ {e}, on e = true ↔ e.keyspace = x.keyspace ∧ e.fp = x.fp := by intro e; simp [on]
  have locks : (entered c x s).net.locks = upd on (fun e => LockEntry.grant { e with recs := insertByAge (lockRecOf c x) e.recs }) s.net.locks := by
    have before : ((s.dequeue x).toPhase c .waiting).net.locks = s.net.locks := by simp
    obtain ⟨e, he, here⟩ := there
    unfold entered State.lockEnter
    dsimp only
    rw [before, if_pos (List.any_eq_true.mpr ⟨e, he, onObject.mpr here⟩)]
  have holder : ∀ e ∈ s.net.locks, on e = true → ∃ h ∈ (insertByAge (lockRecOf c x) e.recs).filter (·.held), h.conflicts (lockRecOf c x) = true := by
    intro e he here
    obtain ⟨h, hm, held, conflict⟩ := blocked e he (onObject.mp here).1 (onObject.mp here).2
    exact ⟨h, List.mem_filter.mpr ⟨(mem_insertByAge _ _ _).mpr (.inr hm), held⟩, conflict⟩
  rw [locks]
  refine ⟨?_, ?_⟩
  · intro e he
    obtain ⟨e₀, he₀, rfl⟩ := List.mem_map.mp he
    by_cases here : on e₀ = true
    · rw [if_pos here]
      refine grantPass_notheld (.cmd c) _ _ _ (fun q hq hop => ?_)
      rcases (mem_insertByAge _ _ _).mp hq with rfl | old
      · exact ⟨rfl, holder e₀ he₀ here⟩
      · exact absurd hop (fresh e₀ he₀ q old)
    · rw [if_neg here]; exact fun r hr hop => absurd hop (fresh e₀ he₀ r hr)
  · obtain ⟨e, he, here⟩ := there
    refine ⟨_, List.mem_map.mpr ⟨e, he, rfl⟩, ?_⟩
    rw [if_pos (onObject.mpr here)]
    exact ⟨here.1, here.2, grantPass_blocked _ rfl _ _ _ ((mem_insertByAge _ _ _).mpr (.inl rfl)) (holder e he (onObject.mpr here))⟩

/-- Settles O26: `entered_waits`, with nothing to settle after it; the table of modes by its cases. -/
theorem lockConflict : Obligations.LockConflict := by
  refine ⟨?_, fun m => by cases m <;> rfl, fun m => by cases m <;> rfl, fun m => by cases m <;> rfl⟩
  intro c x s ctx phase head calm there fresh blocked
  have id := ctx?_id ctx
  obtain ⟨notHeld, e, he, ks, fp, mine⟩ := entered_waits (c := c) there fresh (fun e he ks fp => by
    obtain ⟨h, hm, held, modes, low, high⟩ := blocked e he ks fp
    exact ⟨h, hm, held, by simp [LockRec.conflicts, lockRecOf, modes, low, high]⟩)
  have room : s.lockRoom x.keyspace x.fp = true := by
    obtain ⟨e, he, here⟩ := there
    unfold State.lockRoom
    rw [List.any_eq_true.mpr ⟨e, he, by simp [here]⟩]; rfl
  have ctxs : (entered c x s).net.ctxs = upd (·.id == c) (fun y => y.enter .waiting s.clock) s.net.ctxs := by
    have := entered_ctxs s x x.keyspace x.fp (lockRecOf c x)
    rw [id] at this; exact this
  have mineAlone : ∀ y ∈ (entered c x s).net.ctxs, y.phase = .waiting → y.id = c := by
    intro y hy waits
    rw [ctxs] at hy
    obtain ⟨z, hz, rfl⟩ := List.mem_map.mp hy
    by_cases hc : (z.id == c) = true
    · rw [if_pos hc, enter_id]; simpa using hc
    · rw [if_neg hc] at waits; exact absurd waits (calm z hz)
  have settled : (entered c x s).settle = (entered c x s).watch := by
    unfold State.settle
    rw [settleN_none _ (fun y hy waits => lockOf_none (by rw [mineAlone y hy waits]; exact notHeld))]
  have found : (entered c x s).ctx? c = some (x.enter .waiting s.clock) := by
    have := ctx?_toPhase .waiting ctx
    unfold State.ctx? at this ⊢
    rw [ctxs]; exact this
  have keeps : Keeps [.sessions, .ctxs, .locks] s (entered c x s) :=
    (((dequeue_frame s x).mono (by decide)).trans ((toPhase_frame _ _ _).mono (by decide))).trans ((lockEnter_frame _ _ _ _).mono (by decide))
  refine gives_of (t := (entered c x s).watch) ?_ ⟨⟨_, (watch_ctx? _ c).trans found, enter_phase _ _ _⟩, ?_, ?_, e, ?_, ks, fp, _, mine, rfl, rfl⟩
  · rw [← settled]; exact exec_enter ctx phase head room
  · exact Eq.trans (watch_keeps0 _ .recs (by decide)) (keeps .recs (by decide))
  · exact Eq.trans (watch_keeps0 _ .entries (by decide)) (keeps .entries (by decide))
  · rw [watch_locks']; exact he

end Sys2Proof.Machine
end

section
/-! PROOFS about what is decided at a grant: reads, the conditions of writes, and leaving the table. -/

namespace Sys2Proof.Machine

/-- The state in which an operation alone on its object is served: entered, its lookup noted. -/
def servedAt (c : Nat) (x : Ctx) (s : State) : State := (entered c x s).noteLookup x.keyspace x.fp (s.entry? x.keyspace x.fp x.key)

theorem Alone.servedAt_keeps {c : Nat} {x : Ctx} {s : State} (h : Alone c x s) : Keeps [.sessions, .ctxs, .locks, .quince] s (servedAt c x s) :=
  h.looked _ _ _

theorem Alone.servedAt_ctxs {c : Nat} {x : Ctx} {s : State} (h : Alone c x s) :
    (servedAt c x s).net.ctxs = upd (fun y => y.id == c) (fun y => y.enter .waiting s.clock) s.net.ctxs := by
  rw [← h.ctxs]; exact noteLookup_frame _ _ _ _ .ctxs (by decide)

theorem Alone.servedAt_ctx {c : Nat} {x : Ctx} {s : State} (h : Alone c x s) : (servedAt c x s).ctx? c = some (x.enter .waiting s.clock) := by
  rw [← h.ctx]; unfold State.ctx?; rw [h.servedAt_ctxs, h.ctxs]

theorem Alone.servedAt_entry {c : Nat} {x : Ctx} {s : State} (h : Alone c x s) (k : Nat) (fp : BitVec 128) (key : Bytes) :
    (servedAt c x s).entry? k fp key = s.entry? k fp key := entry?_of (h.servedAt_keeps .entries (by decide)) k fp key

theorem Alone.servedAt_length {c : Nat} {x : Ctx} {s : State} (h : Alone c x s) (m : Match) : (servedAt c x s).matchLength m = s.matchLength m :=
  matchLength_of (h.servedAt_keeps .recs (by decide)) m

/-- Serving that answers, or sends on, the command's own context leaves none waiting. -/
theorem Alone.served {c : Nat} {x : Ctx} {s : State} (h : Alone c x s) {g : Ctx → Ctx} (hg : ∀ y, (g y).phase ≠ .waiting) (hid : ∀ y, (g y).id = y.id)
    (run : (entered c x s).granted (x.enter .waiting s.clock) = (servedAt c x s).updCtx c g) :
    ∃ t, Machine.exec (.rangeLockEnter (.cmd c)) s = .next t ∧ t.ctx? c = some (g (x.enter .waiting s.clock)) := by
  have calm : NoneWaits ((servedAt c x s).updCtx c g) := by
    refine NoneWaits.after (c := c) h.hw s.clock g hg (fun y hy => by rw [enter_id]; exact hy) ?_
    rw [← h.servedAt_ctxs]; rfl
  refine ⟨((servedAt c x s).updCtx c g).watch, ?_, ?_⟩
  · rw [h.exec, h.settle (by rw [run]; exact calm), run]
  · rw [watch_ctx?]; exact ctx?_updCtx h.servedAt_ctx (hid _)

/-- A reply that is decided at the grant. -/
theorem Alone.decided {c : Nat} {x : Ctx} {s : State} (h : Alone c x s) {r : Reply}
    (run : (entered c x s).granted (x.enter .waiting s.clock) = (servedAt c x s).decideReply c r) :
    ∃ t, Machine.exec (.rangeLockEnter (.cmd c)) s = .next t ∧ ∃ y, t.ctx? c = some y ∧ y.phase = .ready ∧ y.reply = r := by
  obtain ⟨t, exec, found⟩ := h.served (g := fun y => ({ y with reply := r } : Ctx).enter .ready (servedAt c x s).clock)
    (fun y => by simp) (fun y => enter_id _ _ _) run
  refine ⟨t, exec, _, found, enter_phase _ _ _, ?_⟩
  obtain ⟨w, u, e⟩ := enter_same ({ x.enter .waiting s.clock with reply := r } : Ctx) .ready (servedAt c x s).clock
  rw [e]

/-- Entering a phase leaves what the command asks. -/
theorem enter_asks (x : Ctx) (p : Phase) (n : Nat) :
    (x.enter p n).keyspace = x.keyspace ∧ (x.enter p n).fp = x.fp ∧ (x.enter p n).key = x.key ∧ (x.enter p n).opcode = x.opcode
      ∧ (x.enter p n).offset = x.offset ∧ (x.enter p n).valLen = x.valLen := by
  obtain ⟨w, u, e⟩ := enter_same x p n
  rw [e]; exact ⟨rfl, rfl, rfl, rfl, rfl, rfl⟩

/-- What serves an operation at its grant, by its opcode. -/
theorem Alone.granted_eq {c : Nat} {x : Ctx} {s : State} (h : Alone c x s) :
    (entered c x s).granted (x.enter .waiting s.clock) = (if x.opcode == 0x01 then (servedAt c x s).grantGet (x.enter .waiting s.clock)
      else if x.opcode == 0x0D then (servedAt c x s).grantHead (x.enter .waiting s.clock)
      else if x.opcode == 0x0E then (servedAt c x s).grantVersions (x.enter .waiting s.clock)
      else (servedAt c x s).grantWrite (x.enter .waiting s.clock)) := by
  have entry : (entered c x s).entry? x.keyspace x.fp x.key = s.entry? x.keyspace x.fp x.key := entry?_of (h.keeps .entries (by decide)) _ _ _
  obtain ⟨ks, fp, key, op, -⟩ := enter_asks x .waiting s.clock
  unfold State.granted servedAt
  rw [ks, fp, key, op, entry]

/-- A GET or a HEAD of a key without a committed value. -/
theorem Alone.read_notFound {c : Nat} {x : Ctx} {s : State} (h : Alone c x s) (op : x.opcode = 0x01 ∨ x.opcode = 0x0D)
    (nothing : ∀ e, s.entry? x.keyspace x.fp x.key = some e → e.newest.tomb = true) :
    (entered c x s).granted (x.enter .waiting s.clock) = (servedAt c x s).decideReply c (Reply.plain .notFound) := by
  obtain ⟨ks, fp, key, -⟩ := enter_asks x .waiting s.clock
  rw [h.granted_eq]
  rcases op with op | op
  · rw [if_pos (by simp [op])]
    unfold State.grantGet; rw [ks, fp, key, h.servedAt_entry, enter_id, ctx?_id h.hc]
    cases found : s.entry? x.keyspace x.fp x.key with
    | none => rfl
    | some e => exact if_pos (nothing e found)
  · rw [if_neg (by simp [op]), if_pos (by simp [op])]
    unfold State.grantHead; rw [ks, fp, key, h.servedAt_entry, enter_id, ctx?_id h.hc]
    cases found : s.entry? x.keyspace x.fp x.key with
    | none => rfl
    | some e => exact if_pos (nothing e found)

/-- Settles O27: `read_notFound`, and the branches of a lookup that finds a value. -/
theorem readGranted : Obligations.ReadGranted := by
  unfold Obligations.ReadGranted
  intro alone decided
  have isAlone : ∀ {c op x s}, alone c op x s → Alone c x s ∧ x.opcode = op :=
    fun ⟨ctx, phase, op, head, calm, steady, noEntry, noRec, room⟩ => ⟨⟨ctx, phase, head, calm, steady, noEntry, noRec, room⟩, op⟩
  refine ⟨?_, ?_, ?_, ?_⟩
  · intro c op x s which hs nothing
    obtain ⟨h, rfl⟩ := isAlone hs
    obtain ⟨t, run, y, found, phase, reply⟩ := h.decided (h.read_notFound which nothing)
    exact gives_of run ⟨y, found, phase, reply⟩
  · intro c x e s hs found value
    obtain ⟨h, op⟩ := isAlone hs
    obtain ⟨ks, fp, key, -⟩ := enter_asks x .waiting s.clock
    obtain ⟨t, run, y, at', phase, reply⟩ := h.decided (r := {
        status := .done, flags := BitVec.ofNat 4 (8 * b1 (!e.older.isEmpty) + 4 * b1 e.newest.segs.isSome),
        paramA := BitVec.ofNat 64 e.newest.headStamp, paramB := BitVec.ofNat 64 (s.matchLength e.newest), body := [] }) (by
      rw [h.granted_eq, if_neg (by simp [op]), if_pos (by simp [op])]
      unfold State.grantHead; rw [ks, fp, key, h.servedAt_entry, enter_id, ctx?_id h.hc, found]
      dsimp only
      rw [if_neg (by simp [value]), h.servedAt_length])
    refine gives_of run ⟨y, at', phase, ?_⟩
    rw [reply]; exact ⟨rfl, rfl, rfl⟩
  · intro c x e s hs found value past
    obtain ⟨h, op⟩ := isAlone hs
    obtain ⟨ks, fp, key, -, offset, -⟩ := enter_asks x .waiting s.clock
    obtain ⟨t, run, y, at', phase, reply⟩ := h.decided (r := Reply.plain .badLength) (by
      rw [h.granted_eq, if_pos (by simp [op])]
      unfold State.grantGet; rw [ks, fp, key, h.servedAt_entry, enter_id, ctx?_id h.hc, found]
      dsimp only
      rw [if_neg (by simp [value]), h.servedAt_length, offset, if_pos past])
    exact gives_of run ⟨y, at', phase, reply⟩
  · intro c x e s hs found value whole within left want n some
    obtain ⟨h, op⟩ := isAlone hs
    obtain ⟨ks, fp, key, -, offset, len⟩ := enter_asks x .waiting s.clock
    have cap : (servedAt c x s).replyCap (x.enter .waiting s.clock) = s.replyCap x := by
      unfold servedAt; rw [h.replyCap]
      obtain ⟨w, u, same⟩ := enter_same x .waiting s.clock
      rw [same]; rfl
    have wanted : (if x.valLen == 2 ^ 32 - 1 then left else x.valLen) = want := by simp [want]
    let r : Reply := {
      status := (if n < want && n < left then .more else .done)
      flags := BitVec.ofNat 4 (8 * b1 (!e.older.isEmpty) + 4 * b1 false),
      paramA := BitVec.ofNat 64 e.newest.stamp, paramB := BitVec.ofNat 64 (x.offset * 2 ^ 32 + s.matchLength e.newest), body := [] }
    let g (y : Ctx) : Ctx := ({ y with reply := r, recs := [(e.newest.loc, x.offset, n)] } : Ctx).enter .reading (servedAt c x s).clock
    obtain ⟨t, run, at'⟩ := h.served (g := g) (fun y => by simp [g]) (fun y => enter_id _ _ _) (by
      rw [h.granted_eq, if_pos (by simp [op])]
      unfold State.grantGet; rw [ks, fp, key, h.servedAt_entry, enter_id, ctx?_id h.hc, found]
      dsimp only
      rw [if_neg (by simp [value]), h.servedAt_length, offset, if_neg (by omega), len, cap, wanted, whole]
      dsimp only
      rw [if_neg (show ¬(n == 0) = true by simpa using some), if_neg (show ¬(n == 0) = true by simpa using some)]
      rfl)
    refine gives_of run ⟨_, at', enter_phase _ _ _, ?_⟩
    obtain ⟨w, u, same⟩ := enter_same ({ x.enter .waiting s.clock with reply := r, recs := [(e.newest.loc, x.offset, n)] } : Ctx) .reading (servedAt c x s).clock
    unfold g; rw [same]
    refine ⟨rfl, ?_, rfl⟩
    simp only [r, Bool.and_eq_true, decide_eq_true_eq]

/-- A write that its conditions refuse at the grant is answered. -/
theorem Alone.write_refused {c : Nat} {x : Ctx} {k : Keyspace} {st : Status} {s : State} (h : Alone c x s) (keyspace : s.keyspace? x.keyspace = some k)
    (fresh : s.collides k.id x.fp x.key = false) (pre : x.pre = none) (op : x.opcode ≠ 0x01 ∧ x.opcode ≠ 0x0D ∧ x.opcode ≠ 0x0E)
    (refused : s.writeRefusal x = some st) : Gives (.rangeLockEnter (.cmd c)) s (Replied x (Reply.plain st)) := by
  have id := ctx?_id h.hc
  have entries : (servedAt c x s).store.entries = s.store.entries := h.servedAt_keeps .entries (by decide)
  have refusal : (servedAt c x s).writeRefusal (x.enter .waiting s.clock) = some st := by
    rw [← refused]
    obtain ⟨w, u, same⟩ := enter_same x .waiting s.clock
    rw [same]
    unfold State.writeRefusal
    dsimp only
    rw [h.servedAt_entry]
    simp only [h.servedAt_length]
    rfl
  have run : (entered c x s).granted (x.enter .waiting s.clock) = (servedAt c x s).endStatus c st := by
    rw [h.granted_eq, if_neg (by simp [op]), if_neg (by simp [op]), if_neg (by simp [op])]
    have pre' : (x.enter .waiting s.clock).pre = none := by
      obtain ⟨w, u, same⟩ := enter_same x .waiting s.clock
      rw [same]; exact pre
    obtain ⟨ks, fp, key, -⟩ := enter_asks x .waiting s.clock
    unfold State.grantWrite
    rw [ks, fp, key, enter_id, id, keyspace?_of (h.servedAt_keeps .keyspaces (by decide)), keyspace]
    dsimp only
    rw [if_neg (by unfold State.collides at fresh ⊢; rw [entries, fresh]; decide), pre', refusal, if_neg (by simp)]
  have calm : NoneWaits ((servedAt c x s).endStatus c st) := by
    intro y hy
    unfold State.endStatus at hy
    rw [endCmd_ctxs, h.servedAt_ctxs, List.mem_filter] at hy
    obtain ⟨mem, other⟩ := hy
    obtain ⟨z, hz, rfl⟩ := List.mem_map.mp mem
    by_cases mine : (z.id == c) = true
    · rw [if_pos mine, enter_id] at other; exact absurd mine (by simpa using other)
    · rw [if_neg mine]; exact h.hw z hz
  refine gives_of (t := ((servedAt c x s).endStatus c st).watch) ?_ ?_
  · rw [h.exec, h.settle (by rw [run]; exact calm), run]
  · have replied := (endCmd_replied (Reply.plain st) h.servedAt_ctx).watch
    obtain ⟨w, u, same⟩ := enter_same x .waiting s.clock
    exact Replied.msg replied (enter_id _ _ _) (by rw [same]) (fun r => by rw [same]; rfl)

/-- Settles O28: `write_refused` with the refusal of each opcode. -/
theorem writeConditionsAtGrant : Obligations.WriteConditionsAtGrant := by
  intro c x k s ctx phase head calm steady noEntry noRec room keyspace own pre fresh present
  have h : Alone c x s := ⟨ctx, phase, head, calm, steady, noEntry, noRec, room⟩
  have ends : ∀ {st}, (x.opcode ≠ 0x01 ∧ x.opcode ≠ 0x0D ∧ x.opcode ≠ 0x0E) → s.writeRefusal x = some st →
      Gives (.rangeLockEnter (.cmd c)) s (Replied x (Reply.plain st)) := fun op refused => h.write_refused keyspace fresh pre op refused
  have committed : (s.entry? x.keyspace x.fp x.key).any (fun e => !e.newest.tomb) = present := rfl
  refine ⟨?_, ?_, ?_, ?_⟩
  · intro op ifAbsent there
    refine ends (by rcases op with op | op <;> rw [op] <;> decide) ?_
    unfold State.writeRefusal; dsimp only
    rw [own, if_neg (by decide), if_pos (by rcases op with op | op <;> rw [op] <;> rfl), committed, ifAbsent, there]
    rfl
  · intro op notAbsent ifPresent missing
    refine ends (by rcases op with op | op <;> rw [op] <;> decide) ?_
    unfold State.writeRefusal; dsimp only
    rw [own, if_neg (by decide), if_pos (by rcases op with op | op <;> rw [op] <;> rfl), committed, notAbsent, ifPresent, missing]
    rfl
  · intro op missing
    refine ends (by rw [op]; decide) ?_
    unfold State.writeRefusal; dsimp only
    rw [own, if_neg (by decide), op, committed, missing]
    rfl
  · intro op missing
    refine ends (by rcases op with op | op <;> rw [op] <;> decide) ?_
    unfold State.writeRefusal; dsimp only
    rw [own, if_neg (by decide)]
    rcases op with op | op <;> rw [op, missing] <;> rfl

/-- Settles O29: `lockLeave_gone`, and for a MOVE that was held the record that `relocate` writes. -/
theorem lockLeft : Obligations.LockLeft := by
  unfold Obligations.LockLeft
  intro gone
  refine ⟨?_, ?_, ?_⟩
  · intro c s committed calm
    refine gives_of (t := (s.lockLeave (.cmd c)).watch) ?_ ⟨gone_watch (lockLeave_gone s _), ?_, ?_⟩
    · simp only [exec, execRangeLockLeave]
      cases found : s.ctx? c with
      | none => dsimp only; rw [lockLeave_settle _ calm]
      | some x => dsimp only; rw [if_pos (committed x found), lockLeave_settle _ calm]
    · exact watch_keeps0 _ .recs (by decide)
    · exact watch_keeps0 _ .entries (by decide)
  · intro kind loc s free calm
    refine gives_of (t := (s.lockLeave (.move kind loc)).watch) ?_ ⟨gone_watch (lockLeave_gone s _), ?_, ?_⟩
    · simp only [exec, execRangeLockLeave, State.finishMove]
      rw [if_neg (by rw [free]; decide), lockLeave_settle _ calm]
    · exact watch_keeps0 _ .recs (by decide)
    · exact watch_keeps0 _ .entries (by decide)
  · intro kind loc r s held found calm
    obtain ⟨r', mem, copy⟩ := relocate_rec s loc r found
    have calm' : NoneWaits (s.relocate loc id) := by
      have ctxs : (s.relocate loc id).net.ctxs = s.net.ctxs := by simp
      unfold NoneWaits; rw [ctxs]; exact calm
    refine gives_of (t := ((s.relocate loc id).lockLeave (.move kind loc)).watch) ?_ ⟨gone_watch (lockLeave_gone _ _), r', ?_, copy⟩
    · simp only [exec, execRangeLockLeave, State.finishMove]
      rw [if_pos held, lockLeave_settle _ calm']
    · have same : ((s.relocate loc id).lockLeave (.move kind loc)).watch.store.recs = (s.relocate loc id).store.recs := watch_keeps0 _ .recs (by decide)
      rw [same]; exact mem

end Sys2Proof.Machine
end

section
/-! PROOFS about pages that arrive and about cipher jobs. -/

namespace Sys2Proof.Machine

theorem supplied_plain {u : State} {x : Ctx} {r : Rec} {loc a n : Nat} (found : u.rec? loc = some r) (plain : r.sealed = none)
    (noCheck : r.digest = none ∨ x.flags.getLsbD 0 = false) : u.supplied x (loc, a, n) = (.done, (r.data.drop a).take n, r.digest.isSome) := by
  have opens : u.openRec r = some r.data := by unfold State.openRec; rw [plain]
  unfold State.supplied
  dsimp only
  rw [found]
  dsimp only
  rw [opens]
  dsimp only
  cases digest : r.digest with
  | none => rfl
  | some g =>
    have flag : x.flags.getLsbD 0 = false := noCheck.resolve_left (by rw [digest]; simp)
    dsimp only
    rw [flag]; rfl

/-- A read of one plain record whose digest is not asked for becomes a reply of its bytes. -/
theorem finishRead_plain {u : State} {c : Nat} {x : Ctx} {r : Rec} {loc a n : Nat} (ctx : u.ctx? c = some x) (recs : x.recs = [(loc, a, n)])
    (found : u.rec? loc = some r) (plain : r.sealed = none) (fail : x.readFail = none) (noCheck : r.digest = none ∨ x.flags.getLsbD 0 = false) :
    ∃ y, (u.finishRead x).ctx? c = some y ∧ y.phase = .ready ∧ y.reply = { x.reply with body := (r.data.drop a).take n }
      ∧ y.outCells = ceilDiv ((r.data.drop a).take n).length 4096 := by
  have got : x.recs.map (u.supplied x) = [(.done, (r.data.drop a).take n, r.digest.isSome)] := by
    rw [recs, List.map_singleton, supplied_plain found plain noCheck]
  have notChecked : (x.flags.getLsbD 0 && r.digest.isSome) = false := by
    rcases noCheck with none | off
    · rw [none, Option.isSome_none, Bool.and_false]
    · rw [off, Bool.false_and]
  generalize (r.data.drop a).take n = body at got
  have id := ctx?_id ctx
  let s1 : State := { u with counts := { u.counts with authFails := u.counts.authFails + 0 } }
  let s2 : State := if s1.cacheAdmits x.fp true && !(x.opcode == 0x01 && x.flags.getLsbD 1) then x.recs.foldl (fun t p => match t.rec? p.1 with
      | some r => t.cachePut r
      | none => t) s1 else s1
  have ctxs : s2.net.ctxs = u.net.ctxs := by
    unfold s2; split
    · exact congrArg (·.ctxs) (cacheFold_net x.recs s1)
    · rfl
  have run : u.finishRead x = (s2.updCtx c (fun y => { y with outCells := ceilDiv body.length 4096 })).decideReply c { x.reply with body := body } := by
    unfold State.finishRead
    dsimp only
    rw [got, fail, id, if_neg (by simp), if_neg (by simp), if_neg (by simp)]
    have flags : x.reply.flags ||| (if (x.flags.getLsbD 0 && r.digest.isSome) = true then 1 else 0) = x.reply.flags := by rw [notChecked]; simp
    simp only [List.isEmpty_cons, Bool.not_false, Bool.and_true, List.all_cons, List.all_nil, flags, List.map_cons, List.map_nil,
      List.flatten_cons, List.flatten_nil, List.append_nil]
    rfl
  have ctx2 : (s2.updCtx c (fun y => { y with outCells := ceilDiv body.length 4096 })).ctx? c = some { x with outCells := ceilDiv body.length 4096 } :=
    ctx?_updCtx (f := fun y => { y with outCells := ceilDiv body.length 4096 }) (show s2.ctx? c = some x by unfold State.ctx?; rw [ctxs]; exact ctx) rfl
  obtain ⟨y, foundY, phase, reply, cells, -⟩ := decideReply_ctx { x.reply with body := body } ctx2
  rw [run]
  exact ⟨y, foundY, phase, reply, cells⟩

/-- The state of a read whose pages have arrived, before they are read: its owner has worked just now. -/
def arrived (s : State) (x : Ctx) : State := s.updOwner (s.ksOwner x.keyspace) (fun o => { o with lastOp := s.clock })

/-- PAGE_READ_COMPLETE of one record where there is room for its reply. -/
theorem exec_pageRead {c loc a n : Nat} {o : ReadOutcome} {x : Ctx} {r : Rec} {s : State} (ctx : s.ctx? c = some x) (phase : x.phase = .reading)
    (recs : x.recs = [(loc, a, n)]) (found : s.rec? loc = some r) (room : x.mailbox = true ∨ ceilDiv n 4096 ≤ s.cellsFree x.pool) :
    exec (.pageReadComplete c o) s = .next (
      let q := (arrived s x).readRec r o
      if q.1 = false then ((q.2.poisonRec loc).updCtx c (fun y => { y with readFail := some .mediaError })).decideReply c (Reply.plain .mediaError)
      else if r.sealed.isSome then q.2.toPhase c .opening else q.2.finishRead x) := by
  have noRoom : (!x.mailbox && decide (s.cellsFree x.pool < ceilDiv (x.recs.map (·.2.2)).sum 4096)) = false := by
    rw [recs]
    rcases room with wire | free
    · rw [wire]; rfl
    · rw [Bool.and_eq_false_iff]; right; simpa using free
  have read : (arrived s x).readAll x o = (true && ((arrived s x).readRec r o).1,
      if ((arrived s x).readRec r o).1 then ((arrived s x).readRec r o).2 else ((arrived s x).readRec r o).2.poisonRec loc) :=
    readAll_one (arrived s x) x o loc a n r recs found
  unfold arrived at read
  simp only [exec, execPageReadComplete, ctx]
  rw [if_neg (by simp [phase]), if_neg (by simp [recs, found]), noRoom, Bool.false_and, if_neg (by decide), read]
  unfold arrived
  cases ok : ((s.updOwner (s.ksOwner x.keyspace) (fun o => { o with lastOp := s.clock })).readRec r o).1 with
  | false => rfl
  | true => simp only [recs, List.any_cons, List.any_nil, found, Option.any_some, Bool.or_false, if_true]; exact (apply_ite _ _ _ _).symm

/-- Settles O30: `exec_pageRead` for a plain, a sealed and a poisoned record. -/
theorem pagesRead : Obligations.PagesRead := by
  unfold Obligations.PagesRead
  intro reads
  refine ⟨?_, ?_, ?_⟩
  · intro c loc a n step x r s ⟨ctx, phase, recs, found, room, fail⟩ sound plain noCheck
    obtain ⟨ok, keeps⟩ := readRec_ok (arrived s x) r step sound
    have ctx' : ((arrived s x).readRec r (.step step)).2.ctx? c = some x := by
      unfold State.ctx?; rw [show _ = _ from keeps .ctxs (by decide)]; exact ctx
    have found' : ((arrived s x).readRec r (.step step)).2.rec? loc = some r := by rw [rec?_of (keeps .recs (by decide))]; exact found
    refine gives_of ((exec_pageRead ctx phase recs found room).trans ?_) (finishRead_plain ctx' recs found' plain fail noCheck)
    dsimp only
    rw [if_neg (by rw [ok]; decide), if_neg (by rw [plain]; decide)]
  · intro c loc a n step x r s ⟨ctx, phase, recs, found, room, fail⟩ sound isSealed
    obtain ⟨ok, keeps⟩ := readRec_ok (arrived s x) r step sound
    have ctx' : ((arrived s x).readRec r (.step step)).2.ctx? c = some x := by
      unfold State.ctx?; rw [show _ = _ from keeps .ctxs (by decide)]; exact ctx
    refine gives_of ((exec_pageRead ctx phase recs found room).trans ?_) ⟨_, ctx?_toPhase .opening ctx', enter_phase _ _ _⟩
    dsimp only
    rw [if_neg (by rw [ok]; decide), if_pos isSealed]
  · intro c loc a n o x r s ⟨ctx, phase, recs, found, room, fail⟩ poison
    have read : (arrived s x).readRec r o = (false, (arrived s x).mediaErrorEvent r) := by unfold State.readRec; rw [if_pos poison]
    let bad := ((arrived s x).mediaErrorEvent r).poisonRec loc
    have ctxs : bad.net.ctxs = s.net.ctxs := by unfold bad; simp [arrived, State.updOwner]
    have ctx' : (bad.updCtx c (fun y => { y with readFail := some .mediaError })).ctx? c = some { x with readFail := some .mediaError } :=
      ctx?_updCtx (f := fun y => { y with readFail := some .mediaError }) (show bad.ctx? c = some x by unfold State.ctx?; rw [ctxs]; exact ctx) rfl
    obtain ⟨y, foundY, phaseY, reply, -⟩ := decideReply_ctx (Reply.plain .mediaError) ctx'
    refine gives_of ((exec_pageRead ctx phase recs found room).trans ?_) ⟨⟨y, foundY, phaseY, reply⟩, ?_⟩
    · rw [read]; rfl
    · show bad.counts.mediaErrors = _
      unfold bad State.mediaErrorEvent
      rw [poisonRec_counts, logEvent_counts]; rfl

end Sys2Proof.Machine
end

section
/-! PROOFS about cipher jobs that start, grow urgent and end. -/

namespace Sys2Proof.Machine

/-- A write's job that starts takes the next use of its keyspace's current key (R354). -/
theorem takeUse_write {s : State} {c : Nat} {x : Ctx} {k : Keyspace} (ctx : s.ctx? c = some x) (phase : x.phase = .sealing)
    (noUse : x.sealGen = none) (keyspace : s.keyspace? x.keyspace = some k) :
    (s.takeUse (.cmd c)).ctx? c = some { x with sealGen := some ((s.page k.keyPage).cur.gen, (s.page k.keyPage).taken), keyUse := false }
      ∧ ((s.takeUse (.cmd c)).page k.keyPage).taken = (s.page k.keyPage).taken + 1
      ∧ ((s.takeUse (.cmd c)).page k.keyPage).reserved = (s.page k.keyPage).reserved - 1
      ∧ (s.takeUse (.cmd c)).cipher.pipes = s.cipher.pipes := by
  generalize hp : s.page k.keyPage = page
  have number : page.n = k.keyPage := hp ▸ page_n s k.keyPage
  let s1 := s.setPage { page with taken := page.taken + 1, reserved := page.reserved - 1 }
  let use (y : Ctx) : Ctx := { y with sealGen := some (page.cur.gen, page.taken), keyUse := false }
  let s2 := s1.updCtx c use
  have run : s.takeUse (.cmd c) = s2.keyEvents k.keyPage := by
    unfold State.takeUse
    dsimp only
    rw [ctx]
    dsimp only
    rw [if_neg (by rw [phase, noUse]; decide), keyspace]
    dsimp only
    rw [hp]
  have paged : s2.page k.keyPage = { page with taken := page.taken + 1, reserved := page.reserved - 1 } := by
    rw [← number]; exact setPage_page s { page with taken := page.taken + 1, reserved := page.reserved - 1 }
  have ctx2 : s2.ctx? c = some (use x) := ctx?_updCtx (s := s1) (f := use) ctx rfl
  have ctxs : (s2.keyEvents k.keyPage).net.ctxs = s2.net.ctxs := keyEvents_keeps0 s2 k.keyPage .ctxs (by decide)
  rw [run]
  refine ⟨?_, ?_, ?_, ?_⟩
  · unfold State.ctx? at ctx2 ⊢; rw [ctxs]; exact ctx2
  · rw [keyEvents_taken, paged]
  · rw [keyEvents_page, paged]
  · rw [keyEvents_pipes']; rfl

/-- A pipeline replaced is the one found under its number. -/
theorem find?_replaced {n : Nat} {p q : Pipe} {l : List Pipe} (h : l.find? (·.n == n) = some p) (same : q.n = n) :
    (upd (·.n == n) (fun _ => q) l).find? (·.n == n) = some q := by
  refine find?_first _ q _ (fun b mem hit => ?_) ⟨q, List.mem_map.mpr ⟨p, List.mem_of_find?_eq_some h, if_pos (List.find?_some h)⟩, by simpa using same⟩
  obtain ⟨a, -, rfl⟩ := List.mem_map.mp mem
  by_cases here : (a.n == n) = true
  · rw [if_pos here]
  · rw [if_neg here] at hit; exact absurd hit here

/-- A pipeline with nothing suspended, of an owner with nothing queued, stays idle. -/
theorem nextJob_idle {s : State} {n : Nat} (queue : s.cipher.queue = []) (suspended : ∀ p, s.cipher.pipes.find? (·.n == n) = some p → p.suspended = []) :
    s.nextJob n = s := by
  unfold State.nextJob
  cases found : s.cipher.pipes.find? (·.n == n) with
  | none => rfl
  | some p => dsimp only; rw [queue, suspended p found]; rfl

/-- A write goes to its program, or waits for space: only its own context changes among them. -/
theorem program_eq (s : State) (x : Ctx) (k : Keyspace) :
    ∃ (u : State) (g : Ctx → Ctx) (p : Phase), (p = .programming ∨ p = .spaceWait) ∧ (∀ y, (g y).id = y.id ∧ (g y).body = y.body)
      ∧ u.net.ctxs = s.net.ctxs ∧ u.cipher = s.cipher ∧ s.program x k = u.updCtx x.id (fun y => (g y).enter p u.clock) := by
  unfold State.program
  dsimp only
  split
  · exact ⟨s, fun y => y, .spaceWait, .inr rfl, fun _ => ⟨rfl, rfl⟩, rfl, rfl, rfl⟩
  · rename_i s1 g _ loc took
    have keeps : Keeps [.counts, .groups, .extents, .fineNext, .mapLog] s s1 := by
      split at took
      · rename_i r first; cases took; exact takeSlots_keeps (Keeps.refl _ _) first (by decide)
      · split at took
        · exact takeSlots_keeps (Keeps.refl _ _) took (by decide)
        · cases took
    have clock : s1.clock = s.clock := keeps .clock (by decide)
    refine ⟨s1.updOwner k.fence (fun o => { o with lastOp := s.clock }), fun y => { y with newLoc := loc, newGroup := g.num }, .programming, .inl rfl,
      fun _ => ⟨rfl, rfl⟩, keeps .ctxs (by decide), keeps.cipher (by decide), ?_⟩
    show _ = State.updCtx _ _ (fun y => Ctx.enter _ _ s1.clock)
    rw [clock]

/-- What a sealed write's cells hold goes on to its program. -/
theorem sealWrite_facts {s : State} {c gen use : Nat} {x : Ctx} {k : Keyspace} {slot : KeySlot} (ctx : s.ctx? c = some x)
    (keyspace : s.keyspace? x.keyspace = some k) (sealGen : x.sealGen = some (gen, use)) (key : (s.page k.keyPage).slotOf gen = some slot)
    (calm : NoneWaits s) :
    let r := ({ s.draft x with sealed := some (gen, use) } : Rec).seal slot use x.body
    NoneWaits (s.sealWrite x) ∧ (s.sealWrite x).cipher = s.cipher ∧ ∃ y, (s.sealWrite x).ctx? c = some y
      ∧ (y.phase = .programming ∨ y.phase = .spaceWait) ∧ y.body = r.data ++ bytesOfNat 16 r.gcmTag.toNat := by
  intro r
  have id := ctx?_id ctx
  let fill (y : Ctx) : Ctx := { y with body := r.data ++ bytesOfNat 16 r.gcmTag.toNat }
  let s1 := s.updCtx c fill
  have ctx1 : s1.ctx? c = some (fill x) := ctx?_updCtx (s := s) (f := fill) ctx rfl
  obtain ⟨u, g, p, phase, same, ctxs, cipher, program⟩ := program_eq s1 (fill x) k
  have run : s.sealWrite x = u.updCtx c (fun y => (g y).enter p u.clock) := by
    have program' : s1.program (fill x) k = u.updCtx c (fun y => (g y).enter p u.clock) := by rw [program, ← id]
    unfold State.sealWrite
    rw [keyspace, sealGen]
    dsimp only
    rw [key]
    dsimp only
    rw [id, show State.ctx? (s.updCtx c _) c = some (fill x) from ctx1]
    exact program'
  have notWaiting : p ≠ .waiting := by rcases phase with rfl | rfl <;> decide
  have calm1 : NoneWaits u := by
    unfold NoneWaits; rw [ctxs]
    intro y hy
    obtain ⟨z, hz, rfl⟩ := List.mem_map.mp hy
    split
    · exact calm z hz
    · exact calm z hz
  have found : (u.updCtx c (fun y => (g y).enter p u.clock)).ctx? c = some ((g (fill x)).enter p u.clock) :=
    ctx?_updCtx (s := u) (f := fun y => (g y).enter p u.clock) (by unfold State.ctx? at ctx1 ⊢; rw [ctxs]; exact ctx1) ((enter_id _ _ _).trans (same _).1)
  rw [run]
  refine ⟨calm1.updCtx c _ (fun y => by rw [enter_phase]; exact notWaiting), cipher, _, found, ?_, ?_⟩
  · rw [enter_phase]; exact phase
  · obtain ⟨w, r', e⟩ := enter_same (g (fill x)) p u.clock
    rw [e]; exact (same _).2

/-- Settles O31: arrival on an idle pipeline and in the queue, the two ways a job grows urgent, and the end of a sealing job. -/
theorem cipherJobs : Obligations.CipherJobs := by
  refine ⟨?_, ?_, ?_, ?_, ?_⟩
  · intro c x k p s ctx phase noUse keyspace noJob idle
    let j : Job := { of' := .cmd c, owner := s.pipeOwner x.keyspace, cls := 1, age := x.age, waited := 0, since := s.clock }
    let running : Pipe := { p with running := some { j with waited := j.waited + (s.clock - j.since) } }
    obtain ⟨found, taken, reserved, pipes⟩ := takeUse_write (s := s.setPipe running) ctx phase noUse keyspace
    have run : s.jobArrive j = (s.setPipe running).takeUse (.cmd c) := by unfold State.jobArrive; rw [idle]; rfl
    have row := arrive_row ctx phase noJob
    rw [run] at row
    refine gives_of row ⟨⟨_, (watch_ctx? _ c).trans found, phase, rfl, rfl⟩, ?_, ?_, running, _, ?_, rfl, rfl, rfl, rfl⟩
    · rw [watch_page]; exact taken
    · rw [watch_page]; exact reserved
    · have same : ((s.setPipe running).takeUse (.cmd c)).watch.cipher.pipes = _ := watch_keeps0 _ .pipes (by decide)
      rw [same, pipes]
      exact List.mem_map.mpr ⟨p, List.mem_of_find?_eq_some idle, if_pos (beq_self_eq_true p.n)⟩
  · intro c x s ctx phase noJob busy
    have run := arrive_row ctx phase noJob
    rw [jobArrive_wait busy] at run
    exact gives_of run ⟨watch_keeps0 _ .queue (by decide), watch_keeps0 _ .pipes (by decide), watch_pages _⟩
  · intro job s notQueued
    let due (j : Job) : Bool := j.of' == job && j.cls < 3 && us 50 ≤ j.waited + (s.clock - j.since)
    have due_iff : ∀ j, due j = true ↔ j.of' = job ∧ j.cls < 3 ∧ 50000 ≤ j.waited + (s.clock - j.since) := by
      intro j; simp only [due, Bool.and_eq_true, beq_iff_eq, decide_eq_true_eq, and_assoc]; exact Iff.rfl
    have none : s.cipher.queue.find? due = none := by
      rw [List.find?_eq_none]; intro j hj h; exact notQueued j hj ((due_iff j).mp h).1
    let raised : State := { s with cipher := { s.cipher with pipes := s.cipher.pipes.map (fun p =>
      { p with suspended := upd due (fun j => { j with cls := 3 }) p.suspended }) } }
    refine gives_of (t := raised) (by simp only [exec, execCipherUrgencyRaise]; rw [show s.cipher.queue.find? _ = _ from none]) ⟨?_, ?_⟩
    · refine List.map_congr_left (fun p _ => ?_)
      simp only [upd, due_iff]
    · intro q hq; cases q <;> first | rfl | exact absurd (by decide) hq
  · intro job j s queue of' low due busy
    have found : s.cipher.queue.find? (fun j => j.of' == job && j.cls < 3 && us 50 ≤ j.waited + (s.clock - j.since)) = some j := by
      rw [queue, List.find?_cons_of_pos]; simp only [of', beq_self_eq_true, low, decide_true, Bool.true_and, decide_eq_true_eq]; exact due
    let s1 : State := { s with cipher := { s.cipher with queue := s.cipher.queue.filter (fun i => i.of' != job) } }
    refine gives_of (t := s1.jobArrive { j with cls := 3 }) (by simp only [exec, execCipherUrgencyRaise]; rw [found]) ?_
    rw [jobArrive_wait (s := s1) (j := { j with cls := 3 }) busy]
    refine ⟨?_, rfl⟩
    show s.cipher.queue.filter _ ++ _ = _
    rw [queue]; simp [of']
  · intro c n gen use x k slot p j s pipe running suspended queue of' ctx phase keyspace sealGen key calm
    have number : p.n = n := by simpa using List.find?_some pipe
    let s1 := s.setPipe { p with running := none }
    obtain ⟨calm1, cipher, y, found, phaseY, body⟩ := sealWrite_facts (s := s1) ctx keyspace sealGen key calm
    have idle : (s1.sealWrite x).nextJob n = s1.sealWrite x := by
      refine nextJob_idle (by rw [cipher]; exact queue) (fun q hq => ?_)
      rw [cipher] at hq
      have replaced : s1.cipher.pipes.find? (·.n == n) = some { p with running := none } := by
        show (upd (fun q : Pipe => q.n == p.n) _ _).find? _ = _
        subst number; exact find?_replaced pipe rfl
      rw [replaced] at hq; cases hq; exact suspended
    refine gives_of (t := (s1.sealWrite x).watch) ?_ ⟨y, _, (watch_ctx? _ c).trans found, phaseY, rfl, body⟩
    have ends : exec (.cipherJobEnd n) s = .next (((s1.sealWrite x).nextJob n).settle) := by
      simp only [exec, execCipherJobEnd, pipe, running, of', show (s.setPipe { p with running := none }).ctx? c = some x from ctx]
      rw [if_pos (by rw [phase]; rfl)]
    rw [ends, idle, settle_quiet calm1]

end Sys2Proof.Machine
end

section
/-! PROOFS about commands that change the settings. -/

namespace Sys2Proof.Machine

/-- A command of the settings with its checks passed waits for its settings write. -/
theorem settings_row {c op : Nat} {x : Ctx} {i : Instr} {ch : Change} {r : Reply} {limits : Ctx → Bool} {run : Ctx → State} {s u : State}
    (admin : s.admin? c op = some x) (free : s.settingsBusy = false) (mode : s.modeStops x = none) (held : s.settingsHeld = none)
    (row : exec i s = .next (s.adminRow c op true limits run)) (fits : limits x = true) (changes : run x = u.change x ch r)
    (from' : u = s ∨ u = s.drawn) :
    Gives i s (fun t => (∃ y, t.ctx? c = some y ∧ y.phase = .settings ∧ y.change = some ch ∧ y.reply = r) ∧ Keeps [.ctxs, .rnd] s t) := by
  obtain ⟨ctx, -⟩ := admin_ctx admin
  exact gives_of (row.trans (by rw [adminRow_run admin (fun _ => free) mode fits, changes])) (change_waits ch r ctx held from')

theorem notBefore_of_turn {s : State} {c op : Nat} {x : Ctx} (admin : s.admin? c op = some x) (turn : s.keyTurn x = true) :
    ((s.admin? c op).any (fun x => !s.keyTurn x)) = false := by
  rw [admin, Option.any_some, turn]; rfl

/-- The fields of a KEY_LOAD's operand for a current slot. -/
theorem keyLoad_fields {a : Nat} (h : a < 64) : bits a 5 0 = a ∧ bit a 8 = false ∧ bits a 7 6 = 0 := by
  simp only [bits, bit]
  refine ⟨by omega, ?_, by omega⟩
  simp; omega

/-- Settles O32: `settings_row` for each command. -/
theorem settingsCommands : Obligations.SettingsCommands := by
  refine ⟨?_, ?_, ?_, ?_, ?_, ?_, ?_, ?_, ?_⟩
  · intro c x s ⟨admin, free, mode, held⟩ only allowed
    exact settings_row admin free mode held rfl only (by rw [allowed]) (.inr rfl)
  · intro c x key s ⟨admin, free, mode, held⟩ turn only small unwraps empty
    obtain ⟨slot, current, spare⟩ := keyLoad_fields small
    have low : x.paramA.toNat < 512 := by omega
    refine settings_row (u := s) admin free mode held (by simp only [exec, execKeyLoad]; rw [if_neg (by rw [notBefore_of_turn admin turn]; decide)])
      (by rw [only, spare, decide_eq_true low]; rfl) ?_ (.inl rfl)
    rw [unwraps, slot, current]
    simp [empty]
  · intro c x key s ⟨admin, free, mode, held⟩ turn only small unwraps noSweep loaded
    refine settings_row (u := s) admin free mode held (by simp only [exec, execKeyRetire]; rw [if_neg (by rw [notBefore_of_turn admin turn]; decide)])
      (by rw [only, decide_eq_true small]; rfl) ?_ (.inl rfl)
    rw [unwraps, noSweep, loaded, page_n]
    rfl
  · intro c x s ⟨admin, free, mode, held⟩ only fence
    exact settings_row admin free mode held rfl only (by rw [fence]) (.inl rfl)
  · intro c x s ⟨admin, free, mode, held⟩ limits notFence keeps there
    refine settings_row (u := s) admin free mode held rfl limits ?_ (.inl rfl)
    simp only [notFence, keeps, there]
    rfl
  · intro c x s ⟨admin, free, mode, held⟩ only deepest wide p1 conditions
    exact settings_row (u := s) admin free mode held rfl (by dsimp only; rw [only, decide_eq_true deepest, decide_eq_true wide, conditions, show (_ || _) = true by simpa using p1]; rfl) rfl (.inl rfl)
  · intro c x us s ⟨admin, free, mode, held⟩ limits there ownList parsed noCycle
    refine settings_row (u := s) admin free mode held rfl limits ?_ (.inl rfl)
    simp only [there, ownList, parsed, Option.getD_some, noCycle, beq_iff_eq]
    rfl
  · intro c x m s ⟨admin, free, mode, held⟩ key flags epoch b parsed newer
    refine settings_row (u := s) admin free mode held rfl (by rw [key, flags, decide_eq_true epoch, b, parsed]; rfl) ?_ (.inl rfl)
    have notOld : s.relay.map.any (fun m => decide (x.paramA.toNat ≤ m.epoch)) = false := by
      cases found : s.relay.map with
      | none => rfl
      | some n => simpa using newer n found
    rw [notOld]
    rfl
  · intro c v x d s ⟨admin, free, mode, held⟩ checked notStatus notTest
    have notTestNow : s.isTestNow x = false := by
      unfold State.isTestNow; rw [checked]
      rw [Bool.and_eq_false_iff]
      simpa using not_and_or.mp notTest
    refine settings_row (u := s) admin free mode held
      (by simp only [exec, execConfigSet]; rw [if_neg (by rw [admin, Option.any_some, notTestNow]; decide)]) rfl ?_ (.inl rfl)
    rw [checked]
    dsimp only
    rw [notStatus]
    rfl

end Sys2Proof.Machine
end

section
/-! PROOFS about the settings write that takes effect. -/

namespace Sys2Proof.Machine

/-- What SETTINGS_WRITE_DONE leaves, where its change leaves contexts and adds no relay slot. -/
theorem written {c : Nat} {ch : Change} {x : Ctx} {s u : State} (ctx : s.ctx? c = some x) (phase : x.phase = .settings)
    (change : x.change = some ch) (notDelete : x.opcode ≠ 0x21) (calm : NoneWaits s) (unstuck : NoneStuck s) (goes : s.changeWaits ch = false)
    (applied : s.applyChange ch = u) (ctxs : u.net.ctxs = s.net.ctxs) (slots : ∀ r ∈ u.relay.slots, r ∈ s.relay.slots) :
    ∃ t, exec (.settingsWriteDone c) s = .next t ∧ Stored t ∧ Replied x (u.saveSettings.changeReply x.reply ch) t
      ∧ t.vars = u.vars ∧ t.nor.seqA = max u.nor.seqA u.nor.seqB + 1 ∧ t.store.keyspaces = u.store.keyspaces ∧ t.relay.pairs = u.relay.pairs
      ∧ ∀ n, ∃ v, t.page n = { u.page n with reserved := v } := by
  subst applied
  have found : (s.applyChange ch).ctx? c = some x := by unfold State.ctx?; rw [ctxs]; exact ctx
  obtain ⟨t, run, rfl, stored, replied⟩ := written_row ctx phase change notDelete calm unstuck goes (fun y hy => by rw [ctxs] at hy; exact hy) found slots
  refine ⟨_, run, stored, replied, written_vars, written_seq, written_ks found notDelete, ?_, fun n => written_page _ c n _⟩
  rw [show ∀ w : State, w.watch.relay = w.relay from fun w => watch_keeps0 w .relay (by decide), (endCmd_relay _ _ _).2.1]
  rfl

/-- The write of a variable whose write acts nowhere else. -/
theorem setConfig_plain {s : State} {id v : Nat} (elsewhere : id ≠ 0x0101 ∧ id ≠ 0x0102 ∧ id ≠ 0x0B01 ∧ id ≠ 0x0B06 ∧ id ≠ 0x0D01) :
    Keeps [.vars, .sieves, .cache] s (s.setConfig id v) ∧ (s.setConfig id v).vars = setVarIn s.vars id v := by
  have settled : Keeps [.vars, .sieves, .cache] s (if id == 0x0502 then s.settleScan else s) ∧ (if id == 0x0502 then s.settleScan else s).vars = s.vars := by
    split
    · exact ⟨fun p hp => by cases p <;> first | rfl | exact absurd (by decide) hp, rfl⟩
    · exact ⟨Keeps.refl _ _, rfl⟩
  obtain ⟨keeps, vars⟩ := settled
  unfold State.setConfig
  dsimp only
  generalize (if id == 0x0502 then s.settleScan else s) = s0 at keeps vars
  rw [if_neg (by simp [elsewhere]), if_neg (by simp [elsewhere])]
  split
  · exact ⟨keeps.trans (fun p hp => by cases p <;> first | rfl | exact absurd (by decide) hp), by rw [← vars]; rfl⟩
  · rw [if_neg (by simp [elsewhere]), if_neg (by simp [elsewhere])]
    exact ⟨keeps.trans (fun p hp => by cases p <;> first | rfl | exact absurd (by decide) hp), by rw [← vars]⟩

theorem readVar_of {s : State} {id : Nat} (h : isStatusVar id = false) : s.readVar id = s.var id := by
  simp only [isStatusVar, Bool.or_eq_false_iff] at h
  obtain ⟨⟨⟨a, b⟩, c⟩, d⟩ := h
  unfold State.readVar; rw [a, b, c, d]; rfl

/-- A chain taken away: every pair of its keyspace is gone. -/
theorem setChain_none {s : State} {ks : Nat} {k : Keyspace} (found : s.keyspace? ks = some k) :
    s.setChain ks none = (s.updKeyspace ks (fun y => { y with chain := none })).dropPairs ks (fun _ => true) := by
  unfold State.setChain; rw [found]
  have noSuccs : s.allSuccs { k with chain := none } = [] := rfl
  dsimp only
  rw [noSuccs]
  rfl

theorem logEvent_page (u : State) (a : Nat) (b : Bytes) (n : Nat) : (u.logEvent a b).page n = u.page n := by unfold State.page; rw [logEvent_cipher]

theorem unlockSeen_page (u : State) (n : Nat) : u.unlockSeen.page n = u.page n := by
  unfold State.unlockSeen; split <;> rfl

/-- A key loaded into an EMPTY current slot is recorded there. -/
theorem loadKey_empty {s : State} {n : Nat} (key : BitVec 256) (empty : (s.page n).cur.st = .empty) :
    ∃ salt, (s.loadKey n false key).page n = { s.page n with cur := { st := .loaded, identity := keyIdentity key, salt := salt, gen := 1, key := key } } := by
  refine ⟨BitVec.ofNat 32 (Config.random s.rnd), ?_⟩
  unfold State.loadKey
  simp only [Bool.false_eq_true, if_false, empty]
  rw [if_neg (by decide), unlockSeen_page, logEvent_page]
  rw [if_pos (by decide)]
  have := setPage_page s.drawn { s.page n with cur := { st := .loaded, identity := keyIdentity key, salt := BitVec.ofNat 32 (Config.random s.rnd), gen := 1, key := key } }
  rw [show ({ s.page n with cur := _ } : KeyPage).n = n from page_n s n] at this
  exact this

/-- A page that is set, recorded and swept keeps what was set but for its marks and its sweep. -/
theorem rotated_page (u : State) (q : KeyPage) (a : Nat) (b : Bytes) :
    ∃ w e v, ((((u.setPage q).logEvent a b).keyEvents q.n).sweepEnd q.n).page q.n = { q with warnSent := w, exhSent := e, sweep := v } := by
  obtain ⟨v, swept⟩ := sweepEnd_page (((u.setPage q).logEvent a b).keyEvents q.n) q.n q.n
  obtain ⟨w, e, events⟩ := keyEvents_page_all ((u.setPage q).logEvent a b) q.n q.n
  rw [swept, events, logEvent_page, setPage_page]
  exact ⟨w, e, v, rfl⟩

/-- A page that is rotated: the current key is the previous one, and the new one has no use taken. -/
theorem retireKey_page (s : State) (n : Nat) (key : BitVec 256) :
    ∃ p, (s.retireKey n key).page n = p ∧ p.cur.st = .loaded ∧ p.cur.gen = ((s.page n).cur.gen + 1) % 2 ^ 32 ∧ p.cur.key = key
      ∧ p.prev = (s.page n).cur ∧ p.taken = 0 := by
  unfold State.retireKey
  obtain ⟨w, e, v, rotated⟩ := rotated_page _ _ _ _
  exact ⟨_, rotated, rfl, rfl, rfl, rfl, rfl⟩

/-- Settles O33: `written` for each change, with what the change makes of the state. -/
theorem settingsWritten : Obligations.SettingsWritten := by
  unfold Obligations.SettingsWritten
  intro stored quiet waits
  refine ⟨?_, ?_, ?_, ?_, ?_, ?_, ?_, ?_⟩
  · intro c id v x d s ⟨ctx, phase, change, op, calm, unstuck⟩ desc notStatus elsewhere
    obtain ⟨keeps, vars⟩ := setConfig_plain (s := s) (v := v) elsewhere
    obtain ⟨t, run, isStored, replied, tVars, seq, kss, -⟩ := written (u := s.setConfig id v) ctx phase change op calm unstuck rfl rfl (keeps .ctxs (by decide))
      (by rw [show (s.setConfig id v).relay = s.relay from keeps .relay (by decide)]; exact fun _ h => h)
    have value : (s.setConfig id v).saveSettings.readVar id = v := by
      rw [readVar_of notStatus]; show varIn (s.setConfig id v).vars id = v; rw [vars, varIn_set]
    have nor : (s.setConfig id v).nor = s.nor := keeps .nor (by decide)
    refine gives_of run ⟨tVars.trans vars, ?_, isStored, by rw [seq, nor], kss.trans (keeps .keyspaces (by decide)), ?_⟩
    · unfold State.var; rw [tVars.trans vars, varIn_set]
    · have reply : (s.setConfig id v).saveSettings.changeReply x.reply (.config id v)
          = { Reply.plain .done with paramA := BitVec.ofNat 64 v, paramB := BitVec.ofNat 64 id, body := if d.width = 128 then bytesOfNat 16 v else [] } := by
        unfold State.changeReply; dsimp only; rw [desc]
        unfold State.varReply; dsimp only; rw [value]
        simp only [beq_iff_eq]
      rw [← reply]; exact replied
  · intro c k x s ⟨ctx, phase, change, op, calm, unstuck⟩
    obtain ⟨t, run, isStored, replied, tVars, -, kss, -⟩ := written ctx phase change op calm unstuck rfl rfl rfl (fun _ h => h)
    exact gives_of run ⟨kss, isStored, tVars, replied⟩
  · intro c ks br bd or' od x k s ⟨ctx, phase, change, op, calm, unstuck⟩ found noShaper
    obtain ⟨t, run, isStored, replied, tVars, -, kss, -⟩ := written ctx phase change op calm unstuck rfl rfl rfl (fun _ h => h)
    let h : Shaper := { byteRate := br, byteDepth := bd, opRate := or', opDepth := od, bytes := bd, ops := 1024 * od, byteRem := 0, opRem := 0,
                        at' := s.clock, stopped := false }
    refine gives_of run ⟨h, ?_, rfl, rfl, rfl, rfl, rfl, rfl, rfl, isStored⟩
    have full : s.reshaped (s.targetShaper false ks) false br bd or' od = h := by
      unfold State.targetShaper; rw [if_neg (by decide), found, Option.bind_some, noShaper]; rfl
    rw [keyspace?_of kss]
    show ((s.updKeyspace ks (fun k => { k with shaper := some _ })).keyspace? ks).bind _ = _
    rw [keyspace?_upd (f := fun k => { k with shaper := some _ }) (fun _ => rfl), found]
    exact congrArg some full
  · intro c deepest p1 p2 p3 x s ⟨ctx, phase, change, op, calm, unstuck⟩
    let vars := setVarIn (setVarIn (setVarIn (setVarIn s.vars 0x0B01 deepest) 0x0B02 p1) 0x0B03 p2) 0x0B04 p3
    have keeps := clampPower_frame { s with vars := vars }
    obtain ⟨t, run, isStored, replied, tVars, -⟩ := written (u := State.clampPower { s with vars := vars }) ctx phase change op calm unstuck rfl rfl
      (keeps .ctxs (by decide)) (by rw [show (State.clampPower { s with vars := vars }).relay = s.relay from keeps .relay (by decide)]; exact fun _ h => h)
    have at' : t.vars = vars := tVars.trans (keeps .vars (by decide))
    refine gives_of run ⟨?_, ?_, ?_, ?_, isStored, replied⟩ <;> unfold State.var <;> rw [at'] <;> unfold vars
    · rw [varIn_set_ne _ _ (by decide), varIn_set_ne _ _ (by decide), varIn_set_ne _ _ (by decide), varIn_set]
    · rw [varIn_set_ne _ _ (by decide), varIn_set_ne _ _ (by decide), varIn_set]
    · rw [varIn_set_ne _ _ (by decide), varIn_set]
    · rw [varIn_set]
  · intro c ks x k s ⟨ctx, phase, change, op, calm, unstuck⟩ found
    obtain ⟨t, run, isStored, replied, tVars, -, kss, pairs, -⟩ := written ctx phase change op calm unstuck rfl (setChain_none found) rfl
      (fun r hr => (List.mem_filter.mp hr).1)
    refine gives_of run ⟨?_, ?_, isStored, replied⟩
    · rw [keyspace?_of kss]
      show ((s.updKeyspace ks (fun k => { k with chain := none })).keyspace? ks).bind _ = _
      rw [keyspace?_upd (f := fun k => { k with chain := none }) (fun _ => rfl), found]; rfl
    · intro p hp
      rw [pairs] at hp
      have kept := (List.mem_filter.mp hp).2
      simpa using kept
  · intro c n key x s ⟨ctx, phase, change, op, calm, unstuck⟩ empty
    obtain ⟨salt, loaded⟩ := loadKey_empty key empty
    obtain ⟨t, run, isStored, -, -, -, -, -, pages⟩ := written ctx phase change op calm unstuck rfl rfl (by rw [State.applyChange]; simp)
      (by rw [State.applyChange, loadKey_relay]; exact fun _ h => h)
    obtain ⟨v, page⟩ := pages n
    rw [State.applyChange, loaded] at page
    refine gives_of run ?_
    rw [page]
    exact ⟨rfl, rfl, rfl, rfl, rfl, isStored⟩
  · intro c n key x s ⟨ctx, phase, change, op, calm, unstuck⟩ inUse
    simp only [exec, execSettingsWriteDone, ctx, phase, change]
    exact if_pos inUse
  · intro c n key x s ⟨ctx, phase, change, op, calm, unstuck⟩ unused
    obtain ⟨p, rotated, loaded, gen, keyed, prev, taken⟩ := retireKey_page s n key
    obtain ⟨t, run, isStored, -, -, -, -, -, pages⟩ := written ctx phase change op calm unstuck unused rfl (by rw [State.applyChange]; simp)
      (by rw [State.applyChange, retireKey_relay]; exact fun _ h => h)
    obtain ⟨v, page⟩ := pages n
    rw [State.applyChange, rotated] at page
    refine gives_of run ?_
    rw [page]
    exact ⟨loaded, gen, keyed, prev, taken, isStored⟩

end Sys2Proof.Machine
end

section
/-! PROOFS about what the module answers of itself at once. -/

namespace Sys2Proof.Machine

theorem queryBody_length (s : State) (k : Keyspace) : (s.queryBody k).length = 64 := by
  unfold State.queryBody; rw [pack_len]; simp

theorem healthPage_isSome (p : Nat) (s : State) : (s.healthPage p).isSome = true ↔ p ≤ 10 := by
  match p with
  | 0 | 1 | 2 | 3 | 4 | 5 | 6 | 7 | 8 | 9 | 10 => simp [State.healthPage]
  | n + 11 => simp [State.healthPage]

theorem varNamed_of_testNow {s : State} {x : Ctx} (h : s.isTestNow x = true) : ∃ d, x.varNamed = some d := by
  cases named : x.varNamed with
  | some d => exact ⟨d, rfl⟩
  | none => unfold State.isTestNow State.checkSet at h; rw [named] at h; simp at h

/-- A key loaded again into a RECORDED current slot keeps what the slot records. -/
theorem loadKey_recorded {s : State} {n : Nat} (key : BitVec 256) (recorded : (s.page n).cur.st = .recorded) :
    (s.loadKey n false key).page n = { s.page n with cur := { (s.page n).cur with st := .loaded, key := key } } := by
  unfold State.loadKey
  simp only [Bool.false_eq_true, if_false, recorded]
  rw [if_neg (by decide), unlockSeen_page, logEvent_page, if_neg (by decide), if_neg (by decide)]
  have := setPage_page s { s.page n with cur := { (s.page n).cur with st := .loaded, key := key } }
  rw [show ({ s.page n with cur := _ } : KeyPage).n = n from page_n s n] at this
  exact this

/-- Settles O34: `says_row` where the command only answers, and the one change of each of the others. -/
theorem adminAnswers : Obligations.AdminAnswers := by
  unfold Obligations.AdminAnswers
  intro admitted tells
  have answers : ∀ {c op : Nat} {x : Ctx} {i : Instr} {r : Reply} {limits : Ctx → Bool} {run : Ctx → State} {s : State}, admitted c op x s →
      exec i s = .next (s.adminRow c op false limits run) → limits x = true → run x = s.endCmd c r → tells i x r s := by
    intro c op x i r limits run s ⟨admin, mode⟩ row fits answer
    exact says_row (admin_ctx admin).1 (row.trans (by rw [adminRow_run admin (by simp) mode fits, answer]))
  refine ⟨?_, ?_, healthPage_isSome, ?_, ?_, ?_, ?_, ?_, ?_, ?_⟩
  · intro c x k s ⟨admin, mode⟩ only found there
    obtain ⟨ctx, op, -⟩ := admin_ctx admin
    have id := keyspace?_id found
    let s1 := if x.flags.getLsbD 0 then s.updKeyspace x.keyspace (fun y => { y with lateSticky := false }) else s
    have run : exec (.keyspaceQuery c) s = .next (s1.endCmd c { Reply.plain .done with body := s.queryBody k }) := by
      simp only [exec, execKeyspaceQuery]
      rw [adminRow_run admin (by simp) mode only]
      rw [found]; dsimp only; rw [if_neg (by rw [there]; decide), id]
    have ctx1 : s1.ctx? c = some x := by unfold s1; split <;> exact ctx
    have keyspace1 : s1.keyspace? x.keyspace = some (if x.flags.getLsbD 0 then { k with lateSticky := false } else k) := by
      unfold s1
      split
      · rw [keyspace?_upd (f := fun y => { y with lateSticky := false }) (fun _ => rfl), found]; rfl
      · exact found
    refine gives_of run ⟨endCmd_replied _ ctx1, queryBody_length s k, ?_, ?_⟩
    · rw [keyspace?_of (endCmd_ks _ ctx1 (by rw [op]; decide)), keyspace1]
    · have recs : (s1.endCmd c { Reply.plain .done with body := s.queryBody k }).store.recs = s1.store.recs := endCmd_frame _ _ _ .recs (by decide)
      rw [recs]; unfold s1; split <;> rfl
  · intro c p b x s gate only page found
    refine answers gate rfl ?_ ?_
    · have low : x.paramA.toNat ≤ 10 := (healthPage_isSome _ s).mp (by rw [page, found]; rfl)
      rw [only, decide_eq_true low]; rfl
    · rw [page, found]
  · intro c x s ⟨admin, mode⟩ high
    refine says_row (admin_ctx admin).1 ?_
    simp only [exec, execHealthRead]
    rw [adminRow_limits admin (by simp) mode (by rw [decide_eq_false (by omega), Bool.and_false])]
    rfl
  · intro c x s gate only
    exact answers gate rfl only rfl
  · intro c x s gate key flags room which log next
    refine answers gate rfl (by rw [key, flags, decide_eq_true which, decide_eq_true room]; rfl) ?_
    by_cases first : x.paramB.toNat = 0
    · have zero : x.paramB = 0 := BitVec.eq_of_toNat_eq first
      simp [log, next, zero]
    · have nonzero : x.paramB ≠ 0 := fun e => first (by rw [e]; rfl)
      simp only [log, next, if_neg first]
      exact if_neg (by simpa using nonzero)
  · intro c x d s gate named val b
    refine answers gate rfl rfl ?_
    rw [named]; dsimp only; rw [if_pos (by rw [val, b]; rfl)]
    unfold State.varReply
    simp only [beq_iff_eq]
  · intro c v x d s ⟨admin, mode⟩ free checked watermark
    have notTest : s.isTestNow x = false := by unfold State.isTestNow; rw [watermark]; rfl
    have cleared : s.writeStatusVar x.paramA.toNat v = { s with marks := clearMarks s.marks v } := by
      unfold State.writeStatusVar; rw [watermark]; rfl
    let s1 : State := { s with marks := clearMarks s.marks v }
    refine gives_of (t := s1.endCmd c (s1.varReply d x.paramA.toNat)) ?_ ⟨?_, ?_, ?_⟩
    · simp only [exec, execConfigSet]
      rw [if_neg (by rw [admin, Option.any_some, notTest]; decide), adminRow_run admin (fun _ => free) mode rfl, checked]
      dsimp only
      rw [if_pos (by rw [watermark]; rfl), cleared]
    · exact endCmd_frame s1 _ _ .marks (by decide)
    · exact endCmd_frame s1 _ _ .vars (by decide)
    · exact endCmd_frame s1 _ _ .nor (by decide)
  · intro c x s ⟨admin, mode⟩ test service idle
    obtain ⟨d, named⟩ := varNamed_of_testNow test
    let s1 : State := { s with holdup := { s.holdup with testing := some s.clock, interrupted := false } }
    have starts : s.startTest = s1 := by unfold State.startTest; rw [service, idle]; rfl
    have holdup : (s1.endCmd c (s1.varReply d 0x0B06)).holdup = s1.holdup := endCmd_frame s1 _ _ .holdup (by decide)
    refine gives_of (t := s1.endCmd c (s1.varReply d 0x0B06)) ?_ ⟨by rw [holdup], ?_, ?_⟩
    · simp only [exec, execHoldupTestNow]
      rw [if_pos (by rw [admin]; exact test), adminRow_run admin (by simp) mode rfl, named, starts]
    · show b1 _ = 1
      rw [holdup]; rfl
    · exact endCmd_frame s1 _ _ .nor (by decide)
  · intro c x key s ⟨admin, mode⟩ free turn only small unwraps recorded same
    obtain ⟨ctx, -⟩ := admin_ctx admin
    obtain ⟨slot, current, spare⟩ := keyLoad_fields small
    have low : x.paramA.toNat < 512 := by omega
    let s1 := s.loadKey x.paramA.toNat false key
    have ctx1 : s1.ctx? c = some x := by unfold State.ctx? s1; rw [loadKey_net]; exact ctx
    obtain ⟨v, page⟩ := endCmd_page s1 c x.paramA.toNat (Reply.withA .done x.paramA.toNat)
    refine gives_of (t := s1.endCmd c (Reply.withA .done x.paramA.toNat)) ?_ ⟨endCmd_replied _ ctx1, ?_, ?_⟩
    · simp only [exec, execKeyLoad]
      rw [if_neg (by rw [notBefore_of_turn admin turn]; decide),
        adminRow_run admin (fun _ => free) mode (by rw [only, spare, decide_eq_true low]; rfl)]
      rw [unwraps, slot, current]
      simp only [Bool.false_eq_true, if_false]
      rw [if_neg (by rw [recorded, same]; simp), if_neg (by simp), if_neg (by rw [recorded]; decide)]
    · rw [page]; unfold s1; rw [loadKey_recorded key recorded]
    · exact Eq.trans (endCmd_frame s1 _ _ .nor (by decide)) (loadKey_nor s _ _ _)

end Sys2Proof.Machine
end

section
/-! PROOFS about turning off in order. -/

namespace Sys2Proof.Machine

/-- A reply stays given while contexts, what has left and the sideband stay. -/
theorem Replied.keeps {x : Ctx} {r : Reply} {ws : List Part} {s t : State} (h : Replied x r s) (k : Keeps ws s t)
    (ctxs : Part.ctxs ∉ ws) (sent : Part.sent ∉ ws) (held : Part.held ∉ ws) (sb : Part.sb ∉ ws) : Replied x r t := by
  have sb' : t.sb = s.sb := k .sb sb
  obtain ⟨gone, out⟩ := h
  refine ⟨(ctx?_of (k .ctxs ctxs) _).trans gone, ?_⟩
  split
  · rename_i wire; rw [if_pos wire] at out; rw [sb']; exact out
  · rename_i wire; rw [if_neg wire] at out
    unfold Leaves at out ⊢
    rw [show t.net.sent = s.net.sent from k .sent sent, show t.net.held = s.net.held from k .held held]; exact out

/-- Settles O37: the drain and the flush of a MODE_SET, the phases of Last Waltz, and the end of a sanitise. -/
theorem turningOff : Obligations.TurningOff := by
  refine ⟨?_, ?_, ?_, ?_, ?_, ?_, ?_⟩
  · intro c x s ctx op phase noFlush first
    let ended := s.endStatus c .done
    have keeps := abandonForwards_frame ended
    let f : Flush := { trigger := 3, phase := 3, since := s.clock, energyCj := 0, dirtyMiB := 0 }
    let t : State := { ended.abandonForwards with relay := { ended.abandonForwards.relay with slots := [] },
                                                  modes := { ended.abandonForwards.modes with flush := some f } }
    have noneBefore : s.net.ctxs.any (fun y => decide (y.id < c)) = false := by
      rw [List.any_eq_false]; intro y hy; have := first y hy; simp; omega
    refine gives_of (t := t) ?_ ⟨⟨f, rfl, rfl, rfl, rfl⟩, rfl, ?_, ?_⟩
    · simp only [exec, execDormantDrained, ctx]
      rw [if_pos (by rw [op, phase, noFlush, noneBefore]; decide)]
    · show ended.abandonForwards.modes.mode = _
      rw [show ended.abandonForwards.modes = ended.modes from keeps .modes (by decide)]
      exact congrArg ModeState.mode (endCmd_frame s c _ .modes (by decide))
    · have answered : Replied x (Reply.plain .done) ended.abandonForwards :=
        Replied.keeps (endCmd_replied _ ctx) keeps (by decide) (by decide) (by decide) (by decide)
      exact answered
  · intro c x y s ctx op phase mem before
    have any : s.net.ctxs.any (fun y => decide (y.id < c)) = true := List.any_eq_true.mpr ⟨y, mem, by simpa using before⟩
    simp only [exec, execDormantDrained, ctx]
    rw [any]; simp
  · intro f s flush trigger
    obtain ⟨supply1, recs1, -⟩ := phaseDone_keeps0 s { f with phase := 3 }
    obtain ⟨supply2, recs2, -⟩ := phaseDone_keeps0 (s.phaseDone { f with phase := 3 }).1 (s.phaseDone { f with phase := 3 }).2
    let a := s.flushAll f
    let u : State := { a.1 with supply := { a.1.supply with armed := false } }
    obtain ⟨mode, off, armed, noFlush, kek, recs, mark, -⟩ := finishFlush_facts u a.2 5
    refine gives_of (t := u.finishFlush a.2 5) ?_ ⟨mode, off, armed, noFlush, kek, recs.trans (recs2.trans recs1), mark⟩
    simp only [exec, execDormantFlushComplete, flush]
    rw [if_pos (by rw [trigger]; rfl)]
  · intro e f s flush waltz middle
    obtain ⟨supply, recs, phase, energy, -⟩ := phaseDone_keeps0 s { f with energyCj := f.energyCj + e }
    let a := s.phaseDone { f with energyCj := f.energyCj + e }
    refine gives_of (t := { a.1 with modes := { a.1.modes with flush := some a.2 } }) ?_ ⟨⟨a.2, rfl, phase, energy⟩, congrArg Supply.mainOn supply, recs⟩
    simp only [exec, execLastWaltzPhaseEnd, flush]
    rw [if_neg (by rw [waltz]; decide), if_neg (by decide), if_neg (by simpa using middle)]
  · intro e f s flush waltz last
    obtain ⟨mode, off, -, -, -, -, mark, runs⟩ := finishFlush_facts s { f with energyCj := f.energyCj + e } 5
    refine gives_of (t := s.finishFlush { f with energyCj := f.energyCj + e } 5) ?_ ⟨mode, off, mark, runs.trans (if_pos waltz)⟩
    simp only [exec, execLastWaltzPhaseEnd, flush]
    rw [if_neg (by rw [waltz]; decide), if_neg (by decide), if_pos (by rw [last]; rfl)]
  · intro e f s flush waltz atMost
    obtain ⟨mode, off, -, -, -, -, mark, -⟩ := finishFlush_facts s { f with energyCj := f.energyCj + e } (f.phase - 1)
    have unfinished : (f.phase - 1 == 5) = false := by simp; omega
    refine gives_of (t := s.finishFlush { f with energyCj := f.energyCj + e } (f.phase - 1)) ?_ ⟨mode, off, mark.trans (by rw [unfinished])⟩
    simp only [exec, execLastWaltzPhaseEnd, flush]
    rw [if_neg (by rw [waltz]; decide), if_pos (by decide)]
  · intro n s mode recorded noWaltz
    obtain ⟨modes1, stamps1, recs1, entries1, map1, pairs1⟩ := wipe_facts s n
    let s2 := if (s.wipe n).modes.resetConfig then (s.wipe n).resetVars else s.wipe n
    have reset : ∀ p : Part, p ∈ [Part.modes, .stamps, .recs, .entries, .relay] → Same (s.wipe n) s2 p := by
      intro p hp; unfold s2; split
      · exact resetVars_facts _ p hp
      · exact Keeps.refl [] _ p (by simp)
    have modes2 : s2.modes = { s.modes with sanitisePct := 100 } := (show s2.modes = _ from reset .modes (by decide)).trans modes1
    have relay2 : s2.relay = (s.wipe n).relay := reset .relay (by decide)
    let s3 : State := { s2 with modes := { s2.modes with sanitising := false, resetConfig := false } }
    let m : Mode := if onlyOperator s3.modes.freezeCauses then .serving else .frozen
    let s4 : State := { s3 with modes := { s3.modes with frozenFrom := if m == .frozen then some .serving else none } }
    have changed := changeMode_frame s4 m
    have watched := watch_frame (s4.changeMode m).saveSettings
    have modesT : ((s4.changeMode m).saveSettings).watch.modes = { s4.modes with mode := m } :=
      (show _ = (s4.changeMode m).modes from watched .modes (by decide)).trans (changeMode_modes s4 m)
    have relayT : ((s4.changeMode m).saveSettings).watch.relay = (s4.changeMode m).relay := watched .relay (by decide)
    refine gives_of (t := ((s4.changeMode m).saveSettings).watch) ?_ ⟨?_, ?_, ?_, ?_, ?_, ?_, ?_⟩
    · simp only [exec, execSanitiseEraseComplete]
      rw [if_pos (by rw [mode, recorded, noWaltz]; decide)]
    · rw [modesT]; show (if onlyOperator s2.modes.freezeCauses then _ else _) = _; rw [modes2]
    · rw [modesT]
    · exact Eq.trans (watched .recs (by decide)) (Eq.trans (changed .recs (by decide)) (Eq.trans (reset .recs (by decide)) recs1))
    · exact Eq.trans (watched .entries (by decide)) (Eq.trans (changed .entries (by decide)) (Eq.trans (reset .entries (by decide)) entries1))
    · rw [relayT, (changeMode_relay s4 m).2]; show s2.relay.map = _; rw [relay2, map1]
    · rw [relayT, (changeMode_relay s4 m).1]; show s2.relay.pairs = _; rw [relay2, pairs1]
    · exact Eq.trans (watched .stamps (by decide)) (Eq.trans (changed .stamps (by decide)) (Eq.trans (reset .stamps (by decide)) stamps1))

end Sys2Proof.Machine
end

section
/-! PROOFS about sieves at work. -/

namespace Sys2Proof.Machine

/-- A batch that closes takes what was filling. -/
theorem close_facts (v : Sieve) (last limit : Bool) (resume : Nat) :
    (v.close last limit resume).slot = v.slot ∧ (v.close last limit resume).filling = [] ∧ (v.close last limit resume).ended = (v.ended || last)
      ∧ ∃ b, (v.close last limit resume).batches = v.batches ++ [b] ∧ b.last = last ∧ b.num = v.nextNum :=
  ⟨rfl, rfl, rfl, _, rfl, rfl, rfl⟩

/-- A sieve with nothing left to visit closes its last batch. -/
theorem closeLast_done {s : State} {v : Sieve} (open_ : v.ended = false) (room : v.batches.length < 2) (done : v.full = true ∨ s.nextKey v = none) :
    ∃ limit resume, s.closeLast v = v.close true limit resume := by
  unfold State.closeLast
  rw [if_neg (by rw [open_]; simp; omega)]
  by_cases full : v.full = true
  · rw [if_pos full]; exact ⟨_, _, rfl⟩
  · rw [if_neg full, done.resolve_left full]; exact ⟨_, _, rfl⟩

/-- Settles O39: `visit_row` with what the visit made of the sieve; a batch that grew old, and a sieve that idles. -/
theorem sieveWork : Obligations.SieveWork := by
  unfold Obligations.SieveWork
  intro runs
  refine ⟨?_, ?_, ?_, ?_, ?_⟩
  · intro n v e s ⟨found, lost, open_, room, power, mode, stage, mine, all⟩ notFull next
    obtain ⟨a, b, t, run, mem, store⟩ := visit_row found lost open_ room power mode stage mine all
    have visited : s.visitNext v = s.visitKey v e := by unfold State.visitNext; rw [notFull, next]; rfl
    rw [visited] at mem
    obtain ⟨count, cursor, slot⟩ := visitKey_vc s v e
    obtain ⟨count', cursor', slot'⟩ := closeLast_vc s { (s.visitKey v e).1 with tokens := a, tokensAt := b }
    exact gives_of run ⟨_, mem, slot'.trans (slot.trans (find?_mem_slot found).2), count'.trans count, cursor'.trans cursor, store⟩
  · intro n v s ⟨found, lost, open_, room, power, mode, stage, mine, all⟩ done
    obtain ⟨a, b, t, run, mem, -⟩ := visit_row found lost open_ room power mode stage mine all
    have same : s.visitNext v = (v, 0) := by
      unfold State.visitNext
      by_cases full : v.full = true
      · rw [if_pos full]
      · rw [if_neg full, done.resolve_left full]
    rw [same] at mem
    obtain ⟨limit, resume, closed⟩ := closeLast_done (s := s) (v := { v with tokens := a, tokensAt := b }) open_ room done
    rw [closed] at mem
    obtain ⟨slot, filling, ended, batch⟩ := close_facts { v with tokens := a, tokensAt := b } true limit resume
    exact gives_of run ⟨_, mem, slot.trans (find?_mem_slot found).2, ended.trans (Bool.or_true _), filling, batch⟩
  · intro n v s found some room notFull due
    obtain ⟨slot, filling, ended, batch⟩ := close_facts v false false (cursorAfter (v.cursor - 1))
    let age (v : Sieve) : Sieve := v.close v.full v.full (cursorAfter (v.cursor - 1))
    have mem : age v ∈ (s.updSieve n age).sieves.list := mem_updSieve found age
    rw [show age v = v.close false false (cursorAfter (v.cursor - 1)) by unfold age; rw [notFull]] at mem
    refine gives_of (t := s.updSieve n age) ?_ ⟨_, mem, slot.trans (find?_mem_slot found).2, filling, ended.trans (Bool.or_false _), batch⟩
    simp only [exec, execSieveBatchAge, found]
    rw [if_pos (by rw [decide_eq_true room, decide_eq_true due]; simpa using some)]
  · intro n v s found due
    refine gives_of (t := s.closeSieves (fun w => w.slot == n) 1) ?_ ⟨?_, ?_⟩
    · simp only [exec, execSieveIdle, found]; rw [if_pos due]
    · intro w hw
      rw [closeSieves_list, List.mem_filter] at hw
      simpa using hw.2
    · obtain ⟨mem, slot⟩ := find?_mem_slot found
      have here : v ∈ s.sieves.list.filter (fun w => w.slot == n) := List.mem_filter.mpr ⟨mem, by simpa using slot⟩
      obtain ⟨w, hw, gen⟩ := gens_last n (s.sieves.list.filter (fun w => w.slot == n)) s.sieves.gens
        (fun w hw => by simpa using (List.mem_filter.mp hw).2) (List.ne_nil_of_mem here)
      rw [← closeSieves_gens s (fun w => w.slot == n) 1] at gen
      exact ⟨w, (List.mem_filter.mp hw).1, by simpa using (List.mem_filter.mp hw).2, gen⟩
  · intro n v s found early
    simp only [exec, execSieveIdle, found]
    exact if_neg (Nat.not_le.mpr early)

end Sys2Proof.Machine
end

section
/-! PROOFS about the forwards of a relay chain. -/

namespace Sys2Proof.Machine

theorem slot_id {s : State} {n : Nat} {r : RelaySlot} (h : s.relay.slots.find? (·.id == n) = some r) : r.id = n := by
  simpa using List.find?_some h

/-- A forward put on a route: its slot notes that the sending has ended. -/
theorem putForward_slot {s : State} {n : Nat} {r x : RelaySlot} (route : Nat × Addr) (id : r.id = n)
    (found : s.relay.slots.find? (·.id == n) = some x) :
    (s.putForward r route).relay.slots.find? (·.id == n) = some { x with ended := some s.clock } := by
  subst id
  unfold State.putForward
  dsimp only
  rw [slot_upd (r := x) (f := fun x => { x with ended := some _ }) (by simpa using found) rfl]
  simp

theorem dropSlot_last {s : State} {r : RelaySlot} (only : s.relay.slots = [r]) : (s.dropSlot r.id).relay = { s.relay with slots := [] } := by
  unfold State.dropSlot; simp [only]

/-- With no slot left and no command that waits for one, relay activity leaves nothing to do but the watermarks. -/
theorem pump_settle {s : State} (none : s.relay.slots = []) (idle : ∀ y ∈ s.net.ctxs, y.phase ≠ .relayWait ∧ y.phase ≠ .waiting) :
    s.pumpSlots.relaySettle = s.watch := by
  rw [pumpSlots_empty none (fun y hy => (idle y hy).1)]
  refine relaySettle_quiet ?_ (fun y hy => (idle y hy).2)
  intro r hr; rw [none] at hr; cases hr

/-- The state in which the only successor of a forward has become behind, before its slot is freed. -/
theorem behind_first {s : State} {r : RelaySlot} (live : r.kind = .live) (marker : r.marker = 0) (op : r.opcode = 0x02)
    (fresh : s.pair? r.keyspace r.dest = none) :
    ∃ p : Pair, p.keyspace = r.keyspace ∧ p.succ = r.dest ∧ p.behind = true ∧ p.point = r.stamp ∧ s.makeBehind r r.dest 1 = s.setPair p := by
  refine ⟨{ Pair.fresh r.keyspace r.dest 1 s.clock with behind := true, point := r.stamp }, rfl, rfl, rfl, rfl, ?_⟩
  unfold State.makeBehind
  dsimp only
  rw [fresh, op, marker]
  simp only [Option.getD_none, live]
  rfl

/-- Reporting a fault leaves the relay, the commands and the counters. -/
theorem faultTold_facts (w : State) (k : Nat) (a b : BitVec 64) (body : Bytes) :
    let t := ((w.broadcast .relayFault k a b []).logEvent 0x0902 body).alert .relayBehind
    t.relay = w.relay ∧ t.net.ctxs = w.net.ctxs ∧ t.counts = w.counts := by
  have told := broadcast_keeps0 w .relayFault k a b []
  have logged := (logEvent_frame (w.broadcast .relayFault k a b []) 0x0902 body)
  exact ⟨Eq.trans (logged .relay (by decide)) (told .relay (by decide)), Eq.trans (logged .ctxs (by decide)) (told .ctxs (by decide)),
    Eq.trans (logged .counts (by decide)) (told .counts (by decide))⟩

/-- A forward to an only successor faults: the successor is behind, and the slot is gone. -/
theorem relayFault_only {s : State} {r : RelaySlot} (only : s.relay.slots = [r]) (succs : r.succs = [r.dest]) (hop : r.hop = 1)
    (live : r.kind = .live) (marker : r.marker = 0) (ctx : r.ctx = none) (posted : r.posted = false) (op : r.opcode = 0x02)
    (fresh : s.pair? r.keyspace r.dest = none) :
    ∃ u : State, s.relayFault r 4 = u.pumpSlots ∧ u.relay.slots = [] ∧ u.net.ctxs = s.net.ctxs ∧ u.counts.relayFaults = s.counts.relayFaults + 1
      ∧ ∃ p ∈ u.relay.pairs, p.keyspace = r.keyspace ∧ p.succ = r.dest ∧ p.behind = true ∧ p.point = r.stamp := by
  let s0 : State := { s with counts := { s.counts with relayFaults := s.counts.relayFaults + 1 } }
  obtain ⟨p, ks, succ, behind, point, made⟩ := behind_first (s := s0) live marker op fresh
  have hops : (List.range r.succs.length).filter (fun i => decide (r.hop ≤ i + 1)) = [0] := by rw [succs, hop]; rfl
  have first : r.succs.getD 0 default = r.dest := by rw [succs]; rfl
  have newly : ∃ (a b : BitVec 64) (body : Bytes), s.relayFault r 4 = (State.dropSlot (State.alert (State.logEvent
      (State.broadcast (s0.setPair p) .relayFault r.keyspace a b []) 0x0902 body) .relayBehind) r.id).pumpSlots := by
    unfold State.relayFault
    dsimp only
    rw [hops]
    simp only [List.foldl_cons, List.foldl_nil, List.find?_cons, first, fresh, ctx, posted, Option.any_none, Bool.not_false, Option.bind_none]
    rw [if_neg (by decide), if_neg (by decide)]
    rw [show ({ s with counts := { s.counts with relayFaults := s.counts.relayFaults + 1 } } : State).makeBehind r r.dest (0 + 1) = s0.setPair p from made]
    exact ⟨_, _, _, rfl⟩
  obtain ⟨a, b, body, newly⟩ := newly
  obtain ⟨relay, ctxs, counts⟩ := faultTold_facts (s0.setPair p) r.keyspace a b body
  have dropped := dropSlot_last (r := r) ((congrArg Relay.slots relay).trans only)
  refine ⟨_, newly, congrArg Relay.slots dropped, ctxs, congrArg Counts.relayFaults counts, p, ?_, ks, succ, behind, point⟩
  rw [dropped, relay]; exact List.mem_cons_self

/-- The state without the pair of a keyspace and a successor. -/
def State.withoutPair (s : State) (p : Pair) : State :=
  { s with relay := { s.relay with pairs := s.relay.pairs.filter (fun q => !(q.keyspace == p.keyspace && q.succ == p.succ)) } }

/-- A pair with nothing left to send: its record is written and it is gone. -/
theorem pairNext_done {s : State} {p : Pair} (slots : s.relay.slots = []) (room : 0 < s.var 0x0904) (entries : ∀ e ∈ s.store.entries, e.keyspace ≠ p.keyspace)
    (redo : p.redo = none) (discards : p.discards = []) (seeding : p.seeding = false) :
    ∃ body, s.pairNext p = (s.logEvent 0x0903 body).withoutPair p := by
  have none : s.resyncKeys p = [] := by
    unfold State.resyncKeys
    dsimp only
    rw [List.filter_eq_nil_iff.mpr (fun e he => by simp [entries e he])]
    rfl
  unfold State.pairNext
  rw [if_neg (by unfold State.seedSlots; simp [slots]; omega), none]
  dsimp only
  rw [redo, discards, seeding]
  exact ⟨_, rfl⟩

/-- A running pair with nothing left to send ends: its record is written and the pair is gone. -/
theorem pairRun_done {s : State} {p : Pair} (found : s.pair? p.keyspace p.succ = some p) (running : p.running = true) (stage : s.thermal.stage < 2)
    (slots : s.relay.slots = []) (room : 0 < s.var 0x0904) (entries : ∀ e ∈ s.store.entries, e.keyspace ≠ p.keyspace)
    (redo : p.redo = none) (discards : p.discards = []) (seeding : p.seeding = false) :
    ∃ t, s.pairRun 4 p.keyspace p.succ = t ∧ (∀ q ∈ t.relay.pairs, ¬(q.keyspace = p.keyspace ∧ q.succ = p.succ)) ∧ t.logs.nextEv = s.logs.nextEv + 1
      ∧ t.relay.slots = [] ∧ t.net.ctxs = s.net.ctxs := by
  obtain ⟨body, next⟩ := pairNext_done slots room entries redo discards seeding
  have logged := logEvent_frame s 0x0903 body
  have relay : (s.logEvent 0x0903 body).relay = s.relay := logged .relay (by decide)
  have gone : ∀ q ∈ (s.pairNext p).relay.pairs, ¬(q.keyspace = p.keyspace ∧ q.succ = p.succ) := by
    rw [next]; intro q hq
    have kept := (List.mem_filter.mp hq).2
    rintro ⟨ks, succ⟩; simp [ks, succ] at kept
  refine ⟨s.pairNext p, ?_, gone, ?_, ?_, ?_⟩
  · have noPair : (s.pairNext p).pair? p.keyspace p.succ = none := by
      unfold State.pair?
      rw [List.find?_eq_none]; intro q hq; simpa using gone q hq
    unfold State.pairRun
    rw [found]
    dsimp only
    rw [if_neg (by simp [running, slots]; omega)]
    unfold State.pairRun
    rw [noPair]
  · rw [next]; exact logEvent_nextEv s _ _
  · rw [next]; show (s.logEvent 0x0903 body).relay.slots = []; rw [relay, slots]
  · rw [next]; exact logged .ctxs (by decide)

/-- The chain's timeout of a forward under way: once it has passed the forward faults, and before that nothing happens. -/
theorem exec_relayTimeout {s : State} {n since : Nat} {r : RelaySlot} (found : s.relay.slots.find? (·.id == n) = some r) (sentAt : r.sentAt = some since) :
    exec (.relayTimeout n) s = if since + ms r.timeout ≤ s.clock then .next (s.relayFault r 4).relaySettle else .next s := by
  have run : exec (.relayTimeout n) s = execRelayTimeout n s := rfl
  rw [run]
  unfold execRelayTimeout
  rw [found]
  dsimp only
  have passed : r.sentAt.any (fun t => decide (t + ms r.timeout ≤ s.clock)) = decide (since + ms r.timeout ≤ s.clock) := by rw [sentAt, Option.any_some]
  by_cases due : since + ms r.timeout ≤ s.clock
  · rw [if_pos due, if_pos (by rw [passed]; exact decide_eq_true due)]
  · rw [if_neg due, if_neg (by rw [passed, decide_eq_false due]; exact Bool.false_ne_true)]

/-- Settles O40: the waiting and the resend of a BACKOFF, the fault of a timeout, the last answer, and a resync with nothing to send. -/
theorem forwards : Obligations.Forwards := by
  refine ⟨?_, ?_, ?_, ?_, ?_, ?_, ?_, ?_⟩
  · intro n us' credit r s found sent
    let s1 := s.takeCredit (·.succ == r.dest) credit
    let wait (x : RelaySlot) : RelaySlot := { x with backoff := some (s.clock + us us'), acked := true }
    have slot : (s1.updSlot n wait).relay.slots.find? (·.id == n) = some (wait r) := slot_upd (s := s1) (f := wait) found rfl
    refine gives_of (t := s1.updSlot n wait) ?_ ⟨?_, ?_⟩
    · simp only [exec, execRelayForwardAnswer, found]
      rw [if_neg (by rw [sent]; decide)]
    · rw [slot]; unfold wait us; rw [Nat.mul_comm]
    · intro p hp; cases p <;> first | rfl | exact absurd (by decide) hp
  · intro n h r p s found backoff due route
    have id := slot_id found
    let r1 : RelaySlot := { r with backoff := none, sends := 1, ended := none, acked := false }
    let s1 := s.updSlot n (fun _ => r1)
    have routed : s1.route r.dest.addr = some p := route
    have slot1 : s1.relay.slots.find? (·.id == n) = some r1 := slot_upd (s := s) (f := fun _ => r1) found rfl
    refine gives_of (t := s1.putForward r1 p) ?_ ⟨_, putForward_slot p id slot1, rfl, rfl, rfl, rfl, rfl, rfl, rfl⟩
    simp only [exec, execRelayBackoffResend, found]
    rw [if_pos (by rw [backoff]; simpa using due)]
    split
    · next q taken => rw [Option.some.inj (taken.symm.trans routed)]
    · next lost => exact absurd (lost.symm.trans routed) (by simp)
  · intro n since r s found sentAt early
    rw [exec_relayTimeout found sentAt, if_neg (Nat.not_le.mpr early)]
  · intro n since r s only id sentAt due succs hop live marker ctx posted op idle fresh
    obtain ⟨u, fault, slots, ctxs, counts, pair⟩ := relayFault_only only succs hop live marker ctx posted op fresh
    have run : exec (.relayTimeout n) s = .next u.watch := by
      have found : s.relay.slots.find? (·.id == n) = some r := by rw [only, List.find?_cons_of_pos (by simpa using id)]
      rw [exec_relayTimeout found sentAt, if_pos due, fault, pump_settle slots (by rw [ctxs]; exact idle)]
    have relay : u.watch.relay = u.relay := watch_keeps0 u .relay (by decide)
    refine gives_of run ?_
    rw [relay, watch_digestMis]
    exact ⟨slots, counts, pair⟩
  · intro n credit r s only id sent last live ctx idle
    let s1 := s.takeCredit (·.succ == r.dest) credit
    have dropped := dropSlot_last (s := s1) (r := r) only
    have done : s1.slotDone r = (s1.dropSlot r.id).pumpSlots := by
      unfold State.slotDone
      dsimp only
      rw [if_neg (by rw [live]; decide), ctx]
      rfl
    have run : exec (.relayForwardAnswer n (.status 0 credit)) s = .next (s1.dropSlot r.id).watch := by
      simp only [exec, execRelayForwardAnswer]
      rw [only, List.find?_cons_of_pos (by simpa using id)]
      dsimp only
      rw [if_neg (by rw [sent]; decide), if_pos (by decide), if_neg (by omega)]
      rw [show State.slotDone _ r = (s1.dropSlot r.id).pumpSlots from done, pump_settle (s := s1.dropSlot r.id) (by rw [dropped]) idle]
    have relay : (s1.dropSlot r.id).watch.relay = (s1.dropSlot r.id).relay := watch_keeps0 _ .relay (by decide)
    refine gives_of run ?_
    rw [relay, dropped, watch_digestMis]
    exact ⟨rfl, rfl, rfl⟩
  · intro k m p s found service seeding behind due discards redo entries slots stage room calm
    let p1 : Pair := { p with running := true, started := s.clock, sends := 0, cursor := 0, part := 0, seeding := false, redo := none }
    let s1 := s.setPair p1
    have pair1 : s1.pair? p1.keyspace p1.succ = some p1 := by
      show (p1 :: _).find? _ = _
      rw [List.find?_cons_of_pos (by simp)]
    obtain ⟨t, runs, gone, next, slotsT, ctxs⟩ := pairRun_done pair1 rfl stage slots room entries rfl discards rfl
    have starts : s.startPair p = t.relaySettle := by
      unfold State.startPair
      dsimp only
      rw [seeding]
      simp only [Bool.false_eq_true, if_false, Bool.false_and]
      exact congrArg State.relaySettle runs
    have settled : t.relaySettle = t.watch :=
      relaySettle_quiet (fun r hr => by rw [slotsT] at hr; cases hr) (fun y hy => by rw [ctxs] at hy; exact calm y hy)
    have relay : t.watch.relay = t.relay := watch_keeps0 t .relay (by decide)
    have due' : ¬ s.clock < p.since + ms (s.var 0x0902) := Nat.not_lt.mpr due
    refine gives_of (t := t.watch) ?_ ?_
    · simp only [exec, execResyncStart, found]
      rw [if_neg (by simp [service, due']), starts, settled]
    · rw [relay, watch_logs0]; exact ⟨gone, next⟩
  · intro k m p s found behind early
    have early' : s.clock < p.since + ms (s.var 0x0902) := early
    simp only [exec, execResyncStart, found]
    rw [if_pos (by simp [behind, early'])]
  · intro s
    refine gives_of (t := { s with relay := { s.relay with stored := s.relay.pairs } }) rfl ⟨rfl, rfl, ?_⟩
    intro p hp; cases p <;> first | rfl | exact absurd (by decide) hp

end Sys2Proof.Machine
end

section
/-! PROOFS about the power states. -/

namespace Sys2Proof.Machine

/-- What an idle timer that may act has found. -/
theorem mayIdle_found {s : State} {n : Nat} (may : s.mayIdle n = true) :
    s.modes.mode = .serving ∧ s.power.st + 1 = n ∧ n ≤ s.var 0x0B01 ∧ s.foregroundNow = false ∧ s.power.lastFg + s.idleTime n ≤ s.clock := by
  unfold State.mayIdle at may
  simp only [Bool.and_eq_true, decide_eq_true_eq, beq_iff_eq, Bool.not_eq_true'] at may
  obtain ⟨⟨⟨⟨⟨⟨⟨⟨-, deepest⟩, serving⟩, next⟩, -⟩, -⟩, idle⟩, late⟩, -⟩ := may
  exact ⟨serving, next, deepest, idle, late⟩

/-- The log buffers programmed and the running parity closed, the module is ready for P3. -/
def State.ready3 (s : State) : State := s.flushLogs.closeParity

theorem exec_idleTimer {s : State} {n : Nat} (may : s.mayIdle n = true) (shallow : n < 3) : exec (.idleTimer n) s = .next (s.deepen n) := by
  simp only [exec, execIdleTimer]
  rw [if_neg (by simp [may]), if_neg (by simp; omega)]

theorem exec_idleTimer3 {s : State} (may : s.mayIdle 3 = true) :
    exec (.idleTimer 3) s = if s.store.dirty.isEmpty then .next (s.ready3.deepen 3) else .next { s.ready3 with power := { s.ready3.power with preparing := true } } := by
  simp only [exec, execIdleTimer]
  rw [if_neg (by simp [may]), if_pos (by decide)]
  rfl

/-- An exit that has not been overtaken by POWER_DEEPEST ends in P0. -/
theorem exec_powerExit {s : State} {st t0 : Nat} (leaving : s.power.exiting = some (st, t0)) (due : t0 + exitLatency st ≤ s.clock) (asked : t0 ≤ s.power.lastFg) :
    exec .powerExitComplete s = .next (s.shallower 0) := by
  simp only [exec, execPowerExitComplete, leaving]
  rw [if_neg (Nat.not_lt.mpr due), if_neg (by simp [Nat.not_lt.mpr asked])]

/-- Setting a bit leaves the others. -/
theorem or_bit_ne {w : Nat} (a : BitVec w) {n m : Nat} (ne : m ≠ n) : (a ||| BitVec.ofNat w (2 ^ n)).getLsbD m = a.getLsbD m := by
  rw [BitVec.getLsbD_or, BitVec.getLsbD_ofNat, Nat.testBit_two_pow_of_ne ne.symm]
  simp

/-- Settles O41: the idle timers, the exits and their latencies, and the self-refresh of an idle channel. -/
theorem powerStates : Obligations.PowerStates := by
  refine ⟨?_, ?_, ?_, ?_, ?_, ?_, ?_, rfl, rfl, rfl, ?_, ?_⟩
  · intro n s may shallow
    refine gives_of (exec_idleTimer may shallow) ?_
    rw [deepen_power]
    exact ⟨rfl, rfl, rfl, deepen_frame s n⟩
  · intro s may clean
    refine gives_of (t := s.ready3.deepen 3) (by rw [exec_idleTimer3 may, clean]; rfl) ?_
    rw [deepen_power, deepen_store]
    refine ⟨rfl, rfl, rfl, fun g hg => ?_⟩
    obtain ⟨g0, -, rfl⟩ := List.mem_map.mp hg
    rfl
  · intro s may dirty
    refine gives_of (t := { s.ready3 with power := { s.ready3.power with preparing := true } }) ?_ ⟨rfl, rfl⟩
    rw [exec_idleTimer3 may, if_neg (by simpa using dirty)]
  · intro n s may
    simp only [exec, execIdleTimer]
    rw [if_pos (by simp [may])]
  · intro n s may
    exact mayIdle_found may
  · intro st t0 s leaving early
    simp only [exec, execPowerExitComplete, leaving]
    rw [if_pos early]
  · intro st t0 s leaving due asked
    refine gives_of (exec_powerExit leaving due asked) ?_
    rw [shallower_power]
    exact ⟨rfl, rfl, rfl, rfl⟩
  · intro n s channel st leaving
    refine gives_of (t := { s with power := { s.power with refreshed := s.power.refreshed ||| BitVec.ofNat 16 (2 ^ n) } }) ?_
      ⟨or_bit _ n channel, fun m ne => or_bit_ne _ ne, ?_⟩
    · simp only [exec, execDramSelfRefresh]
      rw [if_pos (by simp [st, leaving, channel])]
    · intro p hp; cases p <;> first | rfl | exact absurd (by decide) hp
  · intro n s st
    simp only [exec, execDramSelfRefresh]
    rw [if_neg (by simp [st])]

end Sys2Proof.Machine
end

section
/-! PROOFS about lines between slices and homes. -/

namespace Sys2Proof.Machine

/-! ### Requests -/

/-- The holders that a request snoops. -/
def Coherence.targets (c : Coherence) (a b : Nat) (x : Bool) : List Nat :=
  if x then (c.holders b).1.filter (· != a) else (c.holders b).2.toList.filter (· != a)

/-- The slices and the homes with one request under way, whose snoops have left. -/
def State.asking (s : State) (a b : Nat) (x : Bool) : Coherence :=
  { s.coh with
    lines := s.coh.lines ++ [{ slice := a, bucket := b, st := if x then .wantE else .wantS, ver := 0 }]
    txs := [{ bucket := b, slice := a, excl := x, age := s.clock, active := true, snoops := s.coh.targets a b x, owner := none }]
    snooped := s.coh.snooped ++ (s.coh.targets a b x).map (fun h => (h, b, x)) }

/-- A request that nothing opposes starts at once. -/
theorem request_asks {s : State} {a b : Nat} (x : Bool) (slice : a < 16) (quiet : s.coh.txs = []) (repairs : ∀ r ∈ s.coh.repairs, r.1 ≠ b)
    (room : (s.coh.filter.filter (fun g => homeOf g.1 == homeOf b)).length < 8192) (absent : s.coh.line? a b = none) :
    s.request a b x = { s with coh := (s.asking a b x).run 5 } := by
  rw [request_run a b x s slice quiet absent]
  unfold State.homes
  dsimp only
  rw [show 2 * [(_ : HomeTx)].length + 4 = 5 + 1 from rfl, run_start 5 _ _ rfl rfl repairs, start_facts _ _ rfl room]
  rfl

/-- A request without anyone to snoop is filled from DRAM and recorded. -/
theorem asking_filled {s : State} {a b : Nat} (x : Bool) (slice : a < 16) (alone : s.coh.targets a b x = []) :
    (∃ l ∈ ((s.asking a b x).run 5).lines, l.slice = a ∧ l.bucket = b ∧ l.st = (if x then .e else .s) ∧ l.ver = s.coh.dramVer b)
    ∧ ((s.asking a b x).run 5).holders b = (if x then ([a], some a) else (a :: (s.coh.holders b).1.filter (· != a), none))
    ∧ ((s.asking a b x).run 5).txs = [] := by
  rw [run_finish 4 (s.asking a b x) _ rfl rfl alone rfl slice]
  obtain ⟨txs, line, -, holders⟩ := finish_facts (s.asking a b x) _ rfl slice
  exact ⟨line, holders, txs⟩

/-! ### Lines given up -/

/-- A line that a slice gives up is in it no longer, and its message is under way. -/
theorem giveUp_line {c : Coherence} {a b : Nat} {l : Line} (found : c.line? a b = some l) (st : l.st = .s ∨ l.st = .e ∨ l.st = .m) :
    (c.giveUp l).line? a b = none := by
  have at' : l.slice = a ∧ l.bucket = b := by
    have hit := List.find?_some found
    simpa using hit
  obtain ⟨rfl, rfl⟩ := at'
  refine line?_without c _ _ _ ?_
  unfold Coherence.giveUp
  rcases st with h | h | h <;> rw [h]

theorem giveUp_shared {c : Coherence} {a b : Nat} {l : Line} (found : c.line? a b = some l) (st : l.st = .s) : (c.giveUp l).evicts = c.evicts ++ [(a, b)] := by
  have hit := List.find?_some found
  simp only [Bool.and_eq_true, beq_iff_eq] at hit
  unfold Coherence.giveUp
  rw [st, hit.1, hit.2]

theorem giveUp_owned {c : Coherence} {a b : Nat} {l : Line} (found : c.line? a b = some l) (st : l.st = .e ∨ l.st = .m) :
    (c.giveUp l).flying = c.flying ++ [(a, b, if l.st = .m then some l.ver else none)] := by
  have hit := List.find?_some found
  simp only [Bool.and_eq_true, beq_iff_eq] at hit
  unfold Coherence.giveUp
  rcases st with h | h <;> rw [h, hit.1, hit.2] <;> rfl

/-- With no transaction at the homes, a line that lands leaves its data in DRAM and its slice in no record. -/
theorem landBack_lands {s : State} (a b : Nat) (d : Option Nat) (only : s.coh.flying = [(a, b, d)]) (quiet : s.coh.txs = []) :
    ∃ c : Coherence, s.landBack (a, b, d) = { s with coh := c } ∧ c.flying = [] ∧ a ∉ (c.holders b).1
      ∧ c.dram = (match d with | some v => setKey s.coh.dram b v | none => s.coh.dram) := by
  unfold State.landBack State.homes
  dsimp only
  rw [run_nil _ _ (by simp [Coherence.setHolders, quiet, upd])]
  refine ⟨_, rfl, ?_, ?_, by cases d <;> rfl⟩
  · show s.coh.flying.filter _ = []
    rw [only]; simp
  · exact holders_not _ b a _ _ (by simp)

/-! ### Snoops and their answers -/

/-- The slices once one has answered a snoop. -/
def Coherence.answered (c : Coherence) (a b : Nat) (inv : Bool) (lines : List Line) (d : Option (Option Nat)) : Coherence :=
  { c with snooped := c.snooped.filter (fun x => x != (a, b, inv)), lines := lines, answers := c.answers ++ [(a, b, d)] }

/-- The answer of a holder whose snoop was the last one awaited: the transaction awaits nobody. -/
theorem snoopAnswer_present {s : State} {a b : Nat} {d : Option Nat} {x : HomeTx} (here : (a, b, some d) ∈ s.coh.answers) (txs : s.coh.txs = [x])
    (bucket : x.bucket = b) (active : x.active = true) (snoops : x.snoops = [a]) :
    ∃ c : Coherence, s.snoopAnswer (a, b, some d) = s.homes c ∧ c.txs = [{ x with snoops := [] }]
      ∧ c.dram = (match d with | some v => setKey s.coh.dram b v | none => s.coh.dram) := by
  unfold State.snoopAnswer
  dsimp only
  rw [if_neg (by simpa using here)]
  refine ⟨_, rfl, ?_, ?_⟩
  · simp only [Option.isNone_some, Bool.false_and, Bool.false_eq_true, if_false]
    have awaited : upd (fun t : HomeTx => t.active && t.bucket == b && t.snoops.contains a)
        (fun t => { t with snoops := t.snoops.filter (· != a), owner := t.owner }) s.coh.txs = [{ x with snoops := [] }] := by
      rw [txs]; simp [upd, bucket, active, snoops]
    split <;> exact awaited
  · simp only [Option.isNone_some, Bool.false_and, Bool.false_eq_true, if_false]
    split <;> cases d <;> rfl

/-- The last answer of a transaction completes it: the requester is filled from DRAM. -/
theorem answer_completes {s : State} {a b : Nat} {d : Option Nat} {x : HomeTx} (here : (a, b, some d) ∈ s.coh.answers) (txs : s.coh.txs = [x])
    (bucket : x.bucket = b) (active : x.active = true) (snoops : x.snoops = [a]) (owner : x.owner = none) (slice : x.slice < 16) :
    ∃ c : Coherence, s.snoopAnswer (a, b, some d) = { s with coh := c } ∧ c.txs = []
      ∧ c.dram = (match d with | some v => setKey s.coh.dram b v | none => s.coh.dram)
      ∧ (∃ l ∈ c.lines, l.slice = x.slice ∧ l.bucket = b ∧ l.st = (if x.excl then .e else .s) ∧ l.ver = c.dramVer b)
      ∧ (x.excl = true → c.holders b = ([x.slice], some x.slice)) := by
  obtain ⟨c, run, one, dram⟩ := snoopAnswer_present here txs bucket active snoops
  obtain ⟨done, line, same, holders⟩ := finish_facts c _ one slice
  dsimp only at line holders
  have ver : c.dramVer b = (c.finish { x with snoops := [] }).dramVer b := by unfold Coherence.dramVer; rw [same]
  refine ⟨c.finish { x with snoops := [] }, ?_, done, same.trans dram, ?_, ?_⟩
  · rw [run]
    unfold State.homes
    rw [one, show 2 * [(_ : HomeTx)].length + 4 = 5 + 1 from rfl, run_finish 5 c _ one active rfl owner slice]
  · rw [← ver, ← bucket]; exact line
  · intro excl; rw [← bucket, holders, if_pos excl]

/-- A holder recorded as the owner that has the line no longer: the transaction waits for its write-back. -/
theorem snoopAnswer_absent {s : State} {a b : Nat} {x : HomeTx} (here : (a, b, none) ∈ s.coh.answers) (txs : s.coh.txs = [x])
    (bucket : x.bucket = b) (active : x.active = true) (snoops : x.snoops = [a]) (owner : (s.coh.holders b).2 = some a) :
    s.snoopAnswer (a, b, none) = { s with coh := { s.coh with answers := s.coh.answers.filter (fun y => y != (a, b, none)), txs := [{ x with snoops := [], owner := some a }] } } := by
  have recorded : (Coherence.holders { s.coh with answers := s.coh.answers.filter (fun y => y != (a, b, none)) } b).2 = some a := owner
  have awaited : upd (fun t : HomeTx => t.active && t.bucket == b && t.snoops.contains a)
      (fun t => { t with snoops := t.snoops.filter (· != a), owner := some a }) s.coh.txs = [{ x with snoops := [], owner := some a }] := by
    rw [txs]; simp [upd, bucket, active, snoops]
  unfold State.snoopAnswer
  dsimp only
  rw [if_neg (by simpa using here)]
  simp only [recorded, Option.isNone_none, beq_self_eq_true, Bool.and_self, if_true]
  rw [awaited]
  unfold State.homes
  rw [run_stuck _ _ { x with snoops := [], owner := some a } rfl active (.inr (by simp))]

/-- Settles O42: requests, lines given up and landed, snoops and the answers that complete a transaction. -/
theorem lineTransfers : Obligations.LineTransfers := by
  unfold Obligations.LineTransfers
  intro has idle
  refine ⟨?_, ?_, ?_, ?_, ?_, ?_, ?_, ?_, ?_, ?_, ?_, ?_, ?_, ?_, ?_, ?_⟩
  · intro a b s slice ⟨quiet, repairs, room⟩ absent unowned
    obtain ⟨line, holders, txs⟩ := asking_filled (s := s) (b := b) false slice (by unfold Coherence.targets; simp [unowned])
    exact gives_of (congrArg Host.Outcome.next (request_asks false slice quiet repairs room absent)) ⟨line, holders, txs, coh_keeps s _⟩
  · intro a b s slice ⟨quiet, repairs, room⟩ absent unheld
    obtain ⟨line, holders, txs⟩ := asking_filled (s := s) (b := b) true slice (by unfold Coherence.targets; simp [unheld])
    exact gives_of (congrArg Host.Outcome.next (request_asks true slice quiet repairs room absent)) ⟨line, holders, txs, coh_keeps s _⟩
  · intro a b h o s slice ne ⟨quiet, repairs, room⟩ absent held
    have snooped : s.coh.targets a b true = [h] := by unfold Coherence.targets; simp [held, ne]
    have stuck : (s.asking a b true).run 5 = s.asking a b true := run_stuck _ _ _ rfl rfl (.inl (by rw [snooped]; simp))
    refine gives_of (congrArg Host.Outcome.next (request_asks true slice quiet repairs room absent)) ?_
    rw [stuck]
    refine ⟨?_, ⟨_, List.mem_append_right _ List.mem_cons_self, rfl, rfl, rfl, rfl⟩, held, ⟨_, rfl, rfl, rfl, rfl, rfl, snooped⟩, coh_keeps s _⟩
    show s.coh.snooped ++ (s.coh.targets a b true).map _ = _
    rw [snooped]; rfl
  · intro a b l s found st unsent
    have none : s.coh.flying.find? (fun w => w.1 == a && w.2.1 == b && w.2.2.isSome) = none := by
      rw [List.find?_eq_none]; intro w hw; have := unsent w hw; simp; intro h1 h2; exact absurd ⟨h1, h2⟩ this
    refine gives_of (t := { s with coh := s.coh.giveUp l }) ?_ ⟨giveUp_line found (.inr (.inr st)), ?_, coh_keeps s _⟩
    · simp only [exec, execWriteBack, none, found, st]; rfl
    · exact (giveUp_owned found (.inr st)).trans (by rw [if_pos st])
  · intro a b v s only quiet
    obtain ⟨c, lands, flying, gone, dram⟩ := landBack_lands a b (some v) only quiet
    refine gives_of (t := { s with coh := c }) ?_ ⟨flying, ?_, gone, coh_keeps s _⟩
    · simp only [exec, execWriteBack, only]; simp [lands]
    · unfold Coherence.dramVer; rw [dram]; exact getKey_set b v 0
  · intro a b l s found st unsent
    have none : s.coh.flying.find? (fun w => w.1 == a && w.2.1 == b && w.2.2.isNone) = none := by
      rw [List.find?_eq_none]; intro w hw; have := unsent w hw; simp; intro h1 h2; exact absurd ⟨h1, h2⟩ this
    refine gives_of (t := { s with coh := s.coh.giveUp l }) ?_ ⟨giveUp_line found (.inr (.inl st)), ?_, coh_keeps s _⟩
    · simp only [exec, execWriteBackClean, none, found, st]; rfl
    · exact (giveUp_owned found (.inl st)).trans (by rw [if_neg (by rw [st]; decide)])
  · intro a b s only quiet
    obtain ⟨c, lands, flying, gone, dram⟩ := landBack_lands a b none only quiet
    refine gives_of (t := { s with coh := c }) ?_ ⟨flying, dram, gone, coh_keeps s _⟩
    simp only [exec, execWriteBackClean, only]; simp [lands]
  · intro a b l s found st unsent
    refine gives_of (t := { s with coh := s.coh.giveUp l }) ?_ ⟨giveUp_line found (.inl st), giveUp_shared found st, coh_keeps s _⟩
    simp only [exec, execEvict]
    rw [if_neg (by simpa using unsent), found]
    dsimp only
    rw [if_pos (by rw [st]; rfl)]
  · intro a b s sent
    refine gives_of (by simp only [exec, execEvict]; rw [if_pos (by simpa using sent)]) ⟨?_, ?_, coh_keeps s _⟩
    · show (a, b) ∉ s.coh.evicts.filter _
      simp
    · exact holders_not _ b a _ _ (by simp)
  · intro a b l s asked found st
    refine gives_of (t := { s with coh := s.coh.answered a b true (s.coh.without a b) (some none) }) ?_ ⟨line?_without s.coh _ a b rfl, rfl, coh_keeps s _⟩
    simp only [exec, execSnoopInv, State.snoop]
    rw [if_neg (by simpa using asked), found]
    rcases st with st | st <;> simp only [st] <;> rfl
  · intro a b l s asked found st
    refine gives_of (t := { s with coh := s.coh.answered a b true (s.coh.without a b) (some (some l.ver)) }) ?_ ⟨line?_without s.coh _ a b rfl, rfl, coh_keeps s _⟩
    simp only [exec, execSnoopInv, State.snoop]
    rw [if_neg (by simpa using asked), found]
    simp only [st]; rfl
  · intro a b s asked absent
    refine gives_of (t := { s with coh := s.coh.answered a b true s.coh.lines none }) ?_ ⟨rfl, rfl, coh_keeps s _⟩
    simp only [exec, execSnoopInv, State.snoop]
    rw [if_neg (by simpa using asked), absent]; rfl
  · intro a b l s asked found st
    have hit := List.find?_some found
    simp only [Bool.and_eq_true, beq_iff_eq] at hit
    obtain ⟨slice, bucket⟩ := hit
    refine gives_of (t := { s with coh := s.coh.answered a b false ({ l with st := .s } :: s.coh.without a b) (some (some l.ver)) }) ?_ ⟨⟨_, List.mem_cons_self, slice, bucket, rfl, rfl⟩, rfl, coh_keeps s _⟩
    simp only [exec, execSnoopFetch, State.snoop]
    rw [if_neg (by simpa using asked), found]
    simp only [st]; rfl
  · intro a b x s here txs bucket active snoops owner ne slice excl
    obtain ⟨c, run, done, dram, line, holders⟩ := answer_completes here txs bucket active snoops owner slice
    have ver : c.dramVer b = s.coh.dramVer b := by unfold Coherence.dramVer; rw [dram]
    rw [excl, ver] at line
    exact gives_of (congrArg Host.Outcome.next run) ⟨line, holders excl, done, coh_keeps s _⟩
  · intro a b v x s only txs bucket active snoops owner ne slice
    obtain ⟨c, run, done, dram, line, -⟩ := answer_completes (by rw [only]; exact List.mem_cons_self) txs bucket active snoops owner slice
    have ver : c.dramVer b = v := by unfold Coherence.dramVer; rw [dram]; exact getKey_set b v 0
    rw [ver] at line
    refine gives_of (t := { s with coh := c }) ?_ ⟨line, ver, done, coh_keeps s _⟩
    simp only [exec, execPresentData, only]; simp [run]
  · intro a b x s here txs bucket active snoops owner
    exact gives_of (congrArg Host.Outcome.next (snoopAnswer_absent here txs bucket active snoops owner)) ⟨rfl, rfl, coh_keeps s _⟩

end Sys2Proof.Machine
end

section
/-! PROOFS about the work in the background of the index, the log and the medium. -/

namespace Sys2Proof.Machine

/-! ### The Quince and the heat -/

/-- The Quince once a queued update has been written with its shadow. -/
def Quince.updated (q : Quince) (u : QUpdate) : Quince :=
  { q with rows := { bank := u.bank, row := u.row, ways := u.ways, shadow := u.ways } :: q.rows.filter (fun r => !(r.bank == u.bank && r.row == u.row))
           updates := q.updates.erase u }

/-- A row reloaded from its shadow agrees with it. -/
theorem reloaded_row {rows : List QRow} {b r : Nat} :
    ∀ q ∈ upd (fun q : QRow => q.bank == b && q.row == r) (fun q => { q with ways := q.shadow }) rows, q.bank = b → q.row = r → q.ways = q.shadow := by
  intro q hq bank row
  obtain ⟨q0, -, rfl⟩ := List.mem_map.mp hq
  dsimp only at bank row ⊢
  split
  · rfl
  · next other => rw [if_neg other] at bank row; exact absurd (by simp [bank, row]) other

theorem rowReload_count (s : State) (bank row : Nat) (cleared : Bool) : (s.rowReload bank row cleared).counts.quinceReloads = s.counts.quinceReloads + 1 := by
  unfold State.rowReload
  rw [show (State.logEvent _ _ _).counts = _ from logEvent_counts _ _ _]

/-- The heat counts halved; those that reach 0 are gone. -/
theorem halved_iff {heat : List (Nat × Nat)} {h : Nat × Nat} :
    h ∈ (heat.map (fun h => (h.1, h.2 / 2))).filter (fun h => h.2 != 0) ↔ 0 < h.2 ∧ ∃ k ∈ heat, k.1 = h.1 ∧ h.2 = k.2 / 2 := by
  simp only [List.mem_filter, List.mem_map, bne_iff_ne, ne_eq]
  constructor
  · rintro ⟨⟨k, mem, rfl⟩, hot⟩; exact ⟨Nat.pos_of_ne_zero hot, k, mem, rfl, rfl⟩
  · rintro ⟨hot, k, mem, key, half⟩; exact ⟨⟨k, mem, Prod.ext key half.symm⟩, Nat.ne_of_gt hot⟩

/-! ### Garbage collection -/

theorem leastGroup_nil (f : Group → Nat) : leastGroup f [] = none := rfl

/-- The least group of a list is one of the list. -/
theorem leastGroup_mem {f : Group → Nat} {l : List Group} {g : Group} (found : leastGroup f l = some g) : g ∈ l := by
  unfold leastGroup at found
  revert g
  refine List.foldlRecOn (motive := fun a => ∀ {g : Group}, a = some g → g ∈ l) l _ (by simp) ?_
  intro a least h mem g is
  cases a with
  | none => exact Option.some.inj is ▸ mem
  | some b =>
    dsimp only at is
    split at is
    · exact Option.some.inj is ▸ mem
    · exact least is

/-- A lone closed group that nothing marks is what its owner collects when space runs out. -/
theorem gcVictim_lone {s : State} {o : Nat} {g : Group} (groups : s.store.groups = [g]) (owner : g.owner = o) (closed : g.isOpen = false)
    (slc : g.slc = false) (fresh : g.collecting = false) (wear : g.wear = none) (secure : g.secure = none) (refresh : g.refresh = none) :
    s.gcVictim o 3 = some g := by
  have mine : s.store.groups.filter (fun g => g.owner == o && !g.collecting) = [g] := by rw [groups]; simp [owner, fresh]
  unfold State.gcVictim
  dsimp only
  rw [mine]
  simp only [secure, refresh, wear, closed, slc, List.filter_cons, List.filter_nil, List.any_cons, List.any_nil, Option.isSome_none, Bool.or_self,
    Bool.false_eq_true, if_false, Bool.not_false, Bool.and_self, if_true, leastGroup_nil]
  split
  · next h moving =>
    have mem := List.mem_filter.mp (leastGroup_mem moving)
    have only := (List.mem_filter.mp mem.1).1
    rw [groups, List.mem_singleton] at only
    rw [only]
  · simp [leastGroup]

/-- Nothing of a group's records stands, so there is nothing to move out of it. -/
theorem moveOne_none {s : State} {n : Nat} (recs : s.store.recs = []) : s.moveOne n = s := by
  have empty : s.groupRecs n = [] := by unfold State.groupRecs; rw [recs]; rfl
  unfold State.moveOne
  dsimp only
  rw [empty, List.find?_nil]

/-- An owner at its critical level of space begins to collect its only closed group. -/
theorem gcOwner_lone {s : State} {o : Nat} {g : Group} (serving : s.modes.mode = .serving) (groups : s.store.groups = [g]) (owner : g.owner = o)
    (closed : g.isOpen = false) (slc : g.slc = false) (fresh : g.collecting = false) (wear : g.wear = none) (secure : g.secure = none)
    (refresh : g.refresh = none) (spread : s.wearSpread o ≤ 3 * s.var 0x060E) (low : s.freeBp o ≤ 100 * s.var 0x0602) :
    s.gcOwner o = (s.updOwner o (fun w => { w with gc := 3 })).updGroup g.num (fun h => { h with collecting := true }) := by
  have marked : s.markWear o = s := by
    unfold State.markWear
    dsimp only
    rw [if_pos (by simp [spread])]
  have mode : s.gcMode o = 3 := by unfold State.gcMode; exact if_pos low
  let s2 := s.updOwner o (fun w => { w with gc := 3 })
  have groups2 : s2.store.groups = [g] := groups
  have victim := gcVictim_lone (s := s2) groups2 owner closed slc fresh wear secure refresh
  unfold State.gcOwner
  simp only [serving, show (Mode.serving == Mode.frozen) = false from rfl, Bool.false_eq_true, if_false, marked, mode]
  rw [show State.gcVictim (s.updOwner o fun w => { w with gc := 3 }) o 3 = some g from victim]
  rw [if_pos (by rw [show (s.updOwner o fun w => { w with gc := 3 }).store.groups = [g] from groups2]; simp [Group.byGc, fresh])]
  dsimp only
  unfold State.collect
  rw [closed]; rfl

/-- An owner without a full SLC group has nothing to fold. -/
theorem foldOwner_none {s : State} {o : Nat} (none : ∀ g ∈ s.store.groups, g.slc = false) : s.foldOwner o = s := by
  have empty : s.store.groups.filter (fun g => g.owner == o && g.slc && !g.isOpen) = [] := by
    rw [List.filter_eq_nil_iff]; intro g hg; simp [none g hg]
  unfold State.foldOwner
  dsimp only
  rw [empty]
  split <;> rfl

/-! ### Erasing -/

/-- With nothing under way and nothing to wait for, an erased group is gone and the space is passed on. -/
theorem eraseComplete_clean {s : State} {n : Nat} {g : Group} (found : s.group? n = some g) (on : s.supply.mainOn = true) (dry : s.waltzing = false)
    (erasable : s.erasable g = true) (quiet : s.net.ctxs = []) (sets : s.store.eraseSets = []) :
    exec (.eraseComplete n []) s = .next ((s.eraseGroup g).passSets.watch) := by
  let s2 : State := { (s.eraseGroup g) with counts := { (s.eraseGroup g).counts with eraseFails := (s.eraseGroup g).counts.eraseFails + 0 } }
  have sets2 : s2.store.eraseSets = [] := by
    show s.store.eraseSets.map _ = []
    rw [sets]; rfl
  have done : s2.eraseSetsDone = s2 := by
    unfold State.eraseSetsDone
    dsimp only
    rw [sets2]
    show { s2 with store := { s2.store with eraseSets := [] } } = s2
    rw [← sets2]
  have ctxs : (s2.passSets).net.ctxs = [] := Eq.trans (passSets_frame s2 .ctxs (by decide)) quiet
  have retried : s2.passSets.retrySpace = s2.passSets := by
    unfold State.retrySpace
    rw [ctxs]; rfl
  have settled : s2.passSets.settle = s2.passSets.watch := settle_quiet (by intro y hy; rw [ctxs] at hy; cases hy)
  simp only [exec, execEraseComplete, found]
  rw [if_neg (by simp [on, dry, erasable])]
  simp only [List.length_nil, List.foldl_nil]
  rw [show State.eraseSetsDone _ = s2 from done, retried, settled]
  rfl

/-! ### Patrol -/

/-- A page without records that is patrolled: its group notes it, and the visit is counted. -/
theorem patrolMove_empty {s : State} {n p : Nat} {g : Group} (o : ReadOutcome) (found : s.group? n = some g) (recs : s.pageRecs n p = []) (new : p ∉ g.patrolled)
    (few : 4 * (g.patrolled.length + 1) ≤ groupSlots g.slc) :
    ∃ u : State, s.patrolMove g p o = u ∧ u.group? n = some { g with patrolled := g.patrolled ++ [p] }
      ∧ u.counts.patrolMoves = s.counts.patrolMoves + 1 ∧ u.net.ctxs = s.net.ctxs := by
  have num : g.num = n := by have hit := List.find?_some found; simpa using hit
  subst num
  let note (h : Group) : Group := if h.patrolled.contains p then h else { h with patrolled := h.patrolled ++ [p] }
  have noted : (s.updGroup g.num note).group? g.num = some { g with patrolled := g.patrolled ++ [p] } := by
    rw [group?_upd s g.num note g (fun h => by unfold note; split <;> rfl) found]
    unfold note; rw [if_neg (by simpa using new)]
  let s2 := s.updGroup g.num note
  have far : ¬ groupSlots g.slc / 30 * 32 < 4 * ((s2.group? g.num).map (·.patrolled.length)).getD 0 := by
    rw [noted]
    simp only [Option.map_some, Option.getD_some, List.length_append, List.length_singleton, Nat.not_lt]
    refine few.trans ?_
    unfold groupSlots; split <;> decide
  have run : s.patrolMove g p o = { s2 with
      store := { s2.store with patrolMoved := s2.store.patrolMoved + 1 }
      counts := { s2.counts with patrolMoves := s2.counts.patrolMoves + 1 } } := by
    unfold State.patrolMove
    rw [recs]
    exact if_neg far
  exact ⟨_, run, noted, rfl, rfl⟩

/-! ### The re-key sweep -/

/-- A sweep that may have ended: the page's sweep is gone or goes on as it was. -/
theorem sweepEnd_sweep (s : State) (n : Nat) : ((s.sweepEnd n).page n).sweep = none ∨ ((s.sweepEnd n).page n).sweep = (s.page n).sweep := by
  unfold State.sweepEnd
  dsimp only
  split
  · exact .inr rfl
  · split
    · refine .inl ?_
      have n' : (s.page n).n = n := page_n s n
      rw [logEvent_page, keyUsage_page]
      have set := setPage_page s { s.page n with sweep := none }
      rw [show (({ s.page n with sweep := none } : KeyPage)).n = n from n'] at set
      rw [set]
    · exact .inr rfl

theorem rec?_loc {s : State} {loc : Nat} {r : Rec} (found : s.rec? loc = some r) : r.loc = loc := by
  unfold State.rec? at found
  split at found
  · cases found
  have hit := List.find?_some found
  simpa using hit

/-- A record that cannot be opened stays in place, and the sweep counts it so. -/
theorem reseal_inPlace {s : State} {n : Nat} {w : Sweep} {r : Rec} {p : KeyPage} (num : p.n = n) :
    ((s.reseal p w r false).page n).sweep = some { w with inPlace := w.inPlace ++ [r.loc] } := by
  subst num
  unfold State.reseal
  dsimp only
  have set := setPage_page s { p with reserved := p.reserved - 1, sweep := some { w with inPlace := w.inPlace ++ [r.loc] } }
  exact congrArg KeyPage.sweep set

/-- Settles O43: each piece of background work, by what it leaves in the part it works on. -/
theorem backgroundWork : Obligations.BackgroundWork := by
  refine ⟨?_, ?_, ?_, ?_, ?_, ?_, ?_, ?_, ?_, ?_, ?_, ?_, ?_, ?_, ?_, ?_⟩
  · intro b u s found
    refine gives_of (t := { s with quince := s.quince.updated u }) (by simp only [exec, execQuinceUpdate, found]; rfl) ⟨rfl, ⟨_, List.mem_cons_self, rfl, rfl, rfl, rfl⟩, ?_⟩
    intro p hp; cases p <;> first | rfl | exact absurd (by decide) hp
  · intro b r w p x s on bank row
    let s1 : State := { s with quince := { s.quince with rows := upd (fun q : QRow => q.bank == b && q.row == r) (fun q => { q with ways := q.shadow }) s.quince.rows } }
    refine gives_of (t := s1.rowReload b r false) (by simp only [exec, execQuinceSweep]; rw [if_neg (by simp [on]; omega)])
      ⟨?_, rowReload_count s1 b r false, congrArg Store.entries (rowReload_store s1 b r false)⟩
    rw [rowReload_quince]
    exact reloaded_row
  · intro b r s clean
    have agree : s.quince.rows.any (fun q => (q.bank == b && q.row == r) && q.ways != q.shadow) = false := by
      rw [List.any_eq_false]; intro q hq; have := clean q hq; simp; exact fun h1 h2 => this h1 h2
    simp only [exec, execQuinceSweep]
    rw [agree]
    simp
  · intro b r w s on bank row unpinned
    let s1 : State := { s with quince := { s.quince with rows := s.quince.rows.filter (fun q => !(q.bank == b && q.row == r)) } }
    have none : s1.store.entries.filter (fun e => e.pinned && qBank e.fp == b && qRowOf e.fp == r) = [] := by
      rw [List.filter_eq_nil_iff]; intro e he; simp [unpinned e he]
    refine gives_of (t := s1.rowReload b r true) ?_ ⟨?_, rowReload_count _ _ _ _⟩
    · simp only [exec, execQuinceSweep]
      rw [if_neg (by simp [on]; omega), show List.filter _ s.store.entries = [] from none]
      rfl
    · rw [rowReload_quince]
      intro q hq
      have kept := (List.mem_filter.mp hq).2
      rintro ⟨h1, h2⟩; simp [h1, h2] at kept
  · intro x s on some' due
    cases x with
    | true =>
      refine gives_of (t := { s with store := { s.store with logB := s.store.logB.program } }) ?_ ⟨rfl, rfl, rfl, ?_⟩
      · simp only [exec, execLogFlush]
        rw [if_neg (by simp [on]; exact ⟨some', due⟩), if_pos trivial]; rfl
      · intro p hp; cases p <;> first | rfl | exact absurd (by decide) hp
    | false =>
      refine gives_of (t := { s with store := { s.store with logA := s.store.logA.program } }) ?_ ⟨rfl, rfl, rfl, ?_⟩
      · simp only [exec, execLogFlush]
        rw [if_neg (by simp [on]; exact ⟨some', due⟩), if_neg Bool.false_ne_true]; rfl
      · intro p hp; cases p <;> first | rfl | exact absurd (by decide) hp
  · intro d ds s dirty on dry
    refine gives_of (t := s.writeChunk d.1) (by simp only [exec, execCheckpointWrite, dirty]; rw [if_pos (by simp [on, dry])])
      ⟨?_, ⟨_, List.mem_cons_self, rfl, rfl, rfl, rfl⟩, writeChunk_frame s d.1⟩
    intro y hy
    have kept := (List.mem_filter.mp hy).2
    simpa using kept
  · intro n g s found open' parity due
    have due' : (g.parityAt + ms 10 ≤ s.clock) = True := eq_true due
    refine gives_of (t := s.updGroup n (fun h => { h with written := 30 * ceilDiv h.written 30, parity := false }))
      (by simp only [exec, execStripeIdleClose, found]; rw [if_pos (by simp [open', parity, due'])]) ⟨?_, ?_⟩
    · exact group?_upd s n _ g (fun _ => rfl) found
    · intro p hp; cases p <;> first | rfl | exact absurd (by decide) hp
  · intro s
    refine gives_of rfl ⟨fun h hh => halved_iff.mp hh, fun k mem hot => halved_iff.mpr ⟨by show 0 < k.2 / 2; omega, k, mem, rfl, rfl⟩, ?_⟩
    intro p hp; cases p <;> first | rfl | exact absurd (by decide) hp
  · intro s idle
    simp only [exec, execGcTick]
    rw [if_pos (by simp [idle])]
  · intro o g s runs serving owners groups recs owner closed slc fresh wear secure refresh spread low calm
    let u := (s.updOwner o (fun w => { w with gc := 3 })).updGroup g.num (fun h => { h with collecting := true })
    have collects : s.gcOwner o = u := gcOwner_lone serving groups owner closed slc fresh wear secure refresh spread low
    have groupsU : u.store.groups = [{ g with collecting := true }] := by
      show upd _ _ s.store.groups = _
      rw [groups]; simp [upd]
    have folds : u.foldOwner o = u := foldOwner_none (by rw [groupsU]; intro h hh; rw [List.mem_singleton] at hh; rw [hh]; exact slc)
    have moved : (u.store.groups.filter (·.collecting)).foldl (fun t h => t.moveOne h.num) u = u := by
      rw [groupsU]; exact moveOne_none recs
    have watched : u.settle = u.watch := settle_quiet (s := u) calm
    have store : u.watch.store.groups = u.store.groups := watch_keeps0 u .groups (by decide)
    have ownersU : u.watch.owners = u.owners := watch_keeps0 u .owners (by decide)
    refine gives_of (t := u.watch) ?_ ⟨⟨{ g with collecting := true }, by rw [store, groupsU]; exact List.mem_cons_self, rfl, rfl⟩, ?_⟩
    · simp only [exec, execGcTick]
      rw [if_neg (by simp [runs]), gcFold owners collects folds, moved, watched]
    · unfold State.owner
      rw [ownersU]
      show (s.owners.set o _).length ≤ o ∨ ((s.owners.set o _).getD o Owner.none).gc = 3
      by_cases few : s.owners.length ≤ o
      · left; simpa using few
      · right; simp [List.getD, Nat.lt_of_not_le few]
  · intro n g s found on dry erasable quiet sets
    have num : g.num = n := by have hit := List.find?_some found; simpa using hit
    subst num
    let e := (s.eraseGroup g).passSets
    have kept : Keeps [.owners] (s.eraseGroup g) e := passSets_frame _
    have groups : e.watch.store.groups = s.store.groups.filter (·.num != g.num) :=
      Eq.trans (watch_keeps0 e .groups (by decide)) (kept .groups (by decide))
    have recs : e.watch.store.recs = s.store.recs.filter (·.group != g.num) := Eq.trans (watch_keeps0 e .recs (by decide)) (kept .recs (by decide))
    have gens : e.watch.store.gens = setKey s.store.gens g.num ((getKey s.store.gens g.num 0 + 1) % 256) :=
      Eq.trans (watch_keeps0 e .gens (by decide)) (kept .gens (by decide))
    have counts : e.watch.counts = s.counts := (watch_digestMis e).trans (kept .counts (by decide))
    refine gives_of (eraseComplete_clean found on dry erasable quiet sets) ⟨?_, ?_, ?_, congrArg Counts.eraseFails counts⟩
    · unfold State.group?
      rw [groups, List.find?_eq_none]; intro h hh
      simpa using (List.mem_filter.mp hh).2
    · rw [recs]; intro r hr; simpa using (List.mem_filter.mp hr).2
    · rw [gens]; exact getKey_set _ _ _
  · intro n p f g s runs shallow found fine more calm
    simp only [exec, execPatrolStep]
    rw [if_neg (by simp [runs]), if_neg (by omega), found]
    simp only [fine, more, Bool.and_false, Bool.false_eq_true, if_false]
    rw [settle_quiet calm]
  · intro n p f g s runs shallow found bad more written recs new few calm
    obtain ⟨u, moved, found', count, ctxs⟩ := patrolMove_empty f.outcome found recs new few
    have calm' : NoneWaits u := by intro y hy; rw [ctxs] at hy; exact calm y hy
    refine gives_of (t := u.watch) ?_ ⟨?_, ?_⟩
    · simp only [exec, execPatrolStep]
      rw [if_neg (by simp [runs]), if_neg (by omega), found]
      simp only [written, bad, more, decide_true, Bool.and_self, if_true, Bool.false_eq_true, if_false]
      rw [moved, settle_quiet calm']
    · rw [group?_of (show u.watch.store.groups = u.store.groups from watch_keeps0 u .groups (by decide))]; exact found'
    · rw [watch_digestMis]; exact count
  · intro n p f s runs deep early
    have early' : ¬ s.store.patrolAt + sec (86400 * s.var 0x060C) ≤ s.clock := Nat.not_le.mpr early
    simp only [exec, execPatrolStep]
    rw [if_neg (by simp [runs]), if_pos deep, if_neg early']
  · intro n loc w r s sweeping found runs cool cur prev wants room locked calm
    let s1 := s.enterMove .rekey loc
    let s2 := s1.reseal (s.page n) w r false
    let s3 := (s2.lockLeave (.move .rekey loc)).sweepEnd n
    have ctxs : s3.net.ctxs = s.net.ctxs :=
      Eq.trans (sweepEnd_frame _ n .ctxs (by decide)) (Eq.trans (lockLeave_frame s2 _ .ctxs (by decide)) (enterMove_frame s .rekey loc .ctxs (by decide)))
    have calm' : NoneWaits s3 := by intro y hy; rw [ctxs] at hy; exact calm y hy
    have left : ((s2.lockLeave (.move .rekey loc)).page n).sweep = some { w with inPlace := w.inPlace ++ [loc] } := by
      rw [← rec?_loc found]; exact reseal_inPlace (s := s1) (page_n s n)
    have page : s3.watch.page n = s3.page n := by unfold State.page; rw [show s3.watch.cipher.pages = s3.cipher.pages from watch_keeps0 s3 .pages (by decide)]
    refine gives_of (t := s3.watch) ?_ ?_
    · simp only [exec, execRekeySweepStep, sweeping, found]
      rw [if_neg (by simp [runs, cool, cur, prev]), if_neg (by simp [wants]), if_neg (by simpa using Option.isSome_iff_ne_none.mp room), if_pos locked]
      rw [show State.settle _ = s3.watch from settle_quiet calm']
    · rw [page]
      rcases sweepEnd_sweep (s2.lockLeave (.move .rekey loc)) n with gone | same
      · exact .inl gone
      · exact .inr ⟨_, same.trans left, rfl, rfl⟩
  · intro n loc x s idle
    simp only [exec, execRekeySweepStep, idle]

end Sys2Proof.Machine
end

section
/-! PROOFS about the spares that take over for parts that fail. -/

namespace Sys2Proof.Machine

/-- The classes of the low island numbers are foreground classes. -/
theorem classOf_low {role : Nat} {c : Nat × Nat × Nat × List Nat} (of : classOf role = some c) (low : role ≤ 41) : c.1 ≤ 7 := by
  have mem := List.mem_of_find?_eq_some of
  have hit := List.find?_some of
  simp only [islandClasses, List.mem_cons, List.not_mem_nil, or_false] at mem
  rcases mem with rfl | rfl | rfl | rfl | rfl | rfl | rfl | rfl | rfl
  all_goals first | (show _ ≤ 7; decide) | (simp at hit; omega)

/-- A die that the spares of its channel replace, with the rebuild of what it held. -/
def State.dieReplaced (s : State) (d : Nat × Nat) (phys : Nat) : State :=
  { s with
    counts := { s.counts with diesRetired := s.counts.diesRetired + 1 }
    spares := { s.spares with
      dieMap := (d, phys) :: s.spares.dieMap, rebuilding := (d, s.clock) :: s.spares.rebuilding.filter (fun r => r.1 != d)
      reserveUsed := s.spares.reserveUsed.filter (fun r => r.1 != d), remap := s.spares.remap.filter (fun r => (r.1.1, r.1.2.1) != d) } }

/-- A die that no spare replaces. -/
def State.dieLost (s : State) (d : Nat × Nat) : State :=
  { s with
    counts := { s.counts with diesRetired := s.counts.diesRetired + 1 }
    spares := { s.spares with deadDies := s.spares.deadDies ++ [d], rebuilding := s.spares.rebuilding.filter (fun r => r.1 != d) } }

/-- The corrected errors of an island's bank counted and the bank's own count ended. -/
def State.bankCleared (s : State) (n b : Nat) : State :=
  { s with
    counts := { s.counts with sramCorrected := s.counts.sramCorrected + (s.var 0x0A01 - s.bankCount n b) }
    spares := { s.spares with ceCounts := s.spares.ceCounts.filter (fun c => c.1 != (n, b)) } }

/-- An island of a class with a spare retires: the spare takes its role. -/
theorem exec_islandRetire {n b role sp : Nat} {c : Nat × Nat × Nat × List Nat} {s : State} (on : s.supply.mainOn = true) (roleOf : s.roleOf n = some role)
    (class' : classOf role = some c) (spare : (s.sparesOf c).head? = some sp) :
    ∃ u : State, exec (.islandRetire n b) s = .next (u.bringIn role c.1 sp).watch ∧ u.spares.retired = s.spares.retired ∧ u.holder role = s.holder role
      ∧ u.counts.islandsRetired = s.counts.islandsRetired + 1 := by
  let s1 := s.bankCleared n b
  have run : ∃ body, exec (.islandRetire n b) s = .next ((({ (s1.logEvent 0x0A02 body) with
      counts := { (s1.logEvent 0x0A02 body).counts with islandsRetired := (s1.logEvent 0x0A02 body).counts.islandsRetired + 1 } } : State)).bringIn role c.1 sp).watch := by
    simp only [exec, execIslandRetire]
    rw [if_neg (by simp [on]), roleOf]
    simp only [class', Option.bind_some, spare, Option.map_some]
    exact ⟨_, rfl⟩
  obtain ⟨body, run⟩ := run
  have logged := logEvent_frame s1 0x0A02 body
  have spares : (s1.logEvent 0x0A02 body).spares = s1.spares := logged .spares (by decide)
  have counts : (s1.logEvent 0x0A02 body).counts = s1.counts := logged .counts (by decide)
  refine ⟨_, run, (congrArg Spares.retired spares : _), ?_, ?_⟩
  · unfold State.holder
    show getKey (s1.logEvent 0x0A02 body).spares.roles role role = _
    rw [spares]; rfl
  · show (s1.logEvent 0x0A02 body).counts.islandsRetired + 1 = _
    rw [counts]; rfl

theorem exec_dieReplaced {c p k : Nat} {s : State} (on : s.supply.mainOn = true) (channel : c < 32) (position : p < 16) (new : (c, p) ∉ s.spares.deadDies)
    (left : s.diesLeft c ≠ 0) :
    ∃ body, exec (.dieRetire c p k) s
      = .next (((s.dieReplaced (c, p) (18 - s.diesLeft c)).logEvent 0x0602 body).spareNotice 10 (c * 18 + (18 - s.diesLeft c))).watch := by
  simp only [exec, execDieRetire]
  rw [if_neg (by simp [on, new]; omega), if_neg (by simp [left])]
  exact ⟨_, rfl⟩

theorem exec_dieLost {c p k : Nat} {s : State} (on : s.supply.mainOn = true) (channel : c < 32) (position : p < 16) (new : (c, p) ∉ s.spares.deadDies)
    (left : s.diesLeft c = 0) :
    ∃ body, exec (.dieRetire c p k) s = .next (((s.dieLost (c, p)).logEvent 0x0602 body).freeze .spareDie).watch := by
  simp only [exec, execDieRetire]
  rw [if_neg (by simp [on, new]; omega), if_pos (by simp [left])]
  exact ⟨_, rfl⟩

/-- What a failed part does leaves: a notice, the watermarks, the event. -/
theorem spareNotice_watch_keeps (s : State) (a b : Nat) : Keeps (.marks :: .sb :: noteParts) s (s.spareNotice a b).watch :=
  ((spareNotice_keeps0 s a b).mono (by decide)).trans (watch_keeps0 _)

/-- An island that its class's spare replaces: the role has moved, and the counters stand. -/
theorem bringIn_watch (s : State) (role cls sp : Nat) :
    (s.bringIn role cls sp).watch.holder role = sp ∧ sp ∉ (s.bringIn role cls sp).watch.spares.unused
    ∧ (s.bringIn role cls sp).watch.spares.retired = s.spares.retired ++ [s.holder role] ∧ (s.bringIn role cls sp).watch.counts = s.counts := by
  obtain ⟨holder, unused, retired, counts, -⟩ := bringIn_facts s role cls sp
  have spares : (s.bringIn role cls sp).watch.spares = (s.bringIn role cls sp).spares := watch_keeps0 _ .spares (by decide)
  refine ⟨?_, by rw [spares]; exact unused, by rw [spares]; exact retired, (watch_digestMis _).trans counts⟩
  unfold State.holder at holder ⊢
  rw [spares]; exact holder

/-- An island outside every activation whose failure is taken: what follows it is the relay's and the locks'. -/
theorem exec_islandFail {n : Nat} {s u : State} (on : s.supply.mainOn = true) (fail : s.failIsland n [] = u) (act : u.fw.act ≠ 5) :
    exec (.islandFail n []) s = .next u.relaySettle := by
  simp only [exec, execIslandFail]
  rw [if_pos (by simp [on]), fail, selftestFault_not act]

/-- Settles O44: dies, trunk links and islands, with a spare and without. -/
theorem sparesTakeOver : Obligations.SparesTakeOver := by
  unfold Obligations.SparesTakeOver
  intro quiet
  refine ⟨?_, ?_, ?_, ?_, ?_, ?_, ?_, ?_, ?_, ?_, ?_, ?_⟩
  · intro c p k s on channel position new left
    obtain ⟨body, run⟩ := exec_dieReplaced (k := k) on channel position new left
    let u := (s.dieReplaced (c, p) (18 - s.diesLeft c)).logEvent 0x0602 body
    have logged : Keeps _ (s.dieReplaced (c, p) (18 - s.diesLeft c)) u := logEvent_frame _ _ _
    have told := spareNotice_watch_keeps u 10 (c * 18 + (18 - s.diesLeft c))
    have spares := Eq.trans (told .spares (by decide)) (logged .spares (by decide))
    have noticed : (u.spareNotice 10 (c * 18 + (18 - s.diesLeft c))).counts = u.counts := spareNotice_keeps0 u _ _ .counts (by decide)
    have counts := (watch_digestMis _).trans (noticed.trans (logged .counts (by decide)))
    refine gives_of run ⟨congrArg Spares.dieMap spares, ?_, (congrArg Spares.deadDies spares : _), congrArg Counts.diesRetired counts, ?_⟩
    · rw [congrArg Spares.rebuilding spares]; exact List.mem_cons_self
    · exact Eq.trans (told .modes (by decide)) (logged .modes (by decide))
  · intro c p k s on channel position new left up
    obtain ⟨body, run⟩ := exec_dieLost (k := k) on channel position new left
    let u := (s.dieLost (c, p)).logEvent 0x0602 body
    have logged : Keeps _ (s.dieLost (c, p)) u := logEvent_frame _ _ _
    have modes : u.modes = s.modes := logged .modes (by decide)
    obtain ⟨mode, before, causes⟩ := freeze_mode' u .spareDie (by rw [modes]; exact up)
    have watched : (u.freeze .spareDie).watch.modes = (u.freeze .spareDie).modes := watch_keeps0 _ .modes (by decide)
    have spares : (u.freeze .spareDie).watch.spares = _ :=
      Eq.trans (watch_keeps0 _ .spares (by decide)) (Eq.trans (freeze_frame u .spareDie .spares (by decide)) (logged .spares (by decide)))
    refine gives_of run ⟨congrArg Spares.deadDies spares, ?_⟩
    rw [watched, mode, before, causes, modes]
    exact ⟨rfl, rfl, rfl⟩
  · intro c p k s dead
    simp only [exec, execDieRetire]
    rw [if_pos (by simp [dead])]
  · intro c p r s found on
    have at' : r.1 = (c, p) := by have hit := List.find?_some found; simpa using hit
    let s1 : State := { s with spares := { s.spares with rebuilding := s.spares.rebuilding.filter (fun q => q.1 != r.1) } }
    have changed : Keeps [.spares] s s1 := by intro p hp; cases p <;> first | rfl | exact absurd (by decide) hp
    have run : ∃ body, exec (.rebuildDone c p) s = .next (s1.logEvent 0x0604 body) := by
      simp only [exec, execRebuildDone, found]
      rw [if_neg (by simp [on])]
      exact ⟨_, rfl⟩
    obtain ⟨body, run⟩ := run
    refine gives_of run ⟨?_, logEvent_nextEv s1 _ _, (changed.mono (by decide)).trans ((logEvent_frame s1 _ _).mono (by decide))⟩
    rw [show (s1.logEvent 0x0604 body).spares = s1.spares from logEvent_frame s1 _ _ .spares (by decide)]
    intro q hq
    rw [← at']; simpa using (List.mem_filter.mp hq).2
  · intro h d s on full
    refine gives_of (by simp only [exec, execTrunkLinkFail]; rw [if_neg (by simp [on]), if_neg (by simpa using full)]) ?_
    rw [show (State.watch _).spares = _ from watch_keeps0 _ .spares (by decide)]
    exact ⟨by simp, rfl⟩
  · intro h d s on used
    refine gives_of (by simp only [exec, execTrunkLinkFail]; rw [if_neg (by simp [on]), if_pos (by simpa using used)]) ⟨rfl, ?_⟩
    intro p hp; cases p <;> first | rfl | exact absurd (by decide) hp
  · intro n b role sp c s on roleOf class' spare
    obtain ⟨u, run, retired, holder, counts⟩ := exec_islandRetire (b := b) on roleOf class' spare
    obtain ⟨moved, unused, retiredT, countsT⟩ := bringIn_watch u role c.1 sp
    refine gives_of run ⟨moved, unused, ?_, (congrArg Counts.islandsRetired countsT).trans counts⟩
    rw [retiredT, retired, holder]
  · intro n b role s on roleOf none
    let s1 := s.bankCleared n b
    have run : ∃ body, exec (.islandRetire n b) s = .next (s1.logEvent 0x0A02 body) := by
      simp only [exec, execIslandRetire]
      rw [if_neg (by simp [on]), roleOf]
      simp only [none, Option.bind_none]
      exact ⟨_, rfl⟩
    obtain ⟨body, run⟩ := run
    have logged := logEvent_frame s1 0x0A02 body
    have spares : (s1.logEvent 0x0A02 body).spares = s1.spares := logged .spares (by decide)
    refine gives_of run ⟨?_, ?_, (congrArg Spares.retired spares : _), (congrArg Counts.islandsRetired (logged .counts (by decide)) : _)⟩
    · rw [spares]; intro q hq; simpa using (List.mem_filter.mp hq).2
    · unfold State.holder; rw [spares]; rfl
  · intro n role sp c s on unretired range roleOf low class' spare act ⟨calm, stuck⟩
    let s1 : State := { s with counts := { s.counts with islandsFailed := s.counts.islandsFailed + 1 } }
    have fail : s.failIsland n [] = s1.bringIn role c.1 sp :=
      (failIsland_class unretired range roleOf low class').trans (failClass_spare (u := s1) low spare)
    obtain ⟨-, -, -, -, -, ctxs, relay, fw⟩ := bringIn_facts s1 role c.1 sp
    have run := exec_islandFail on fail (by rw [fw]; exact act)
    rw [relaySettle_quiet (by unfold NoneStuck; rw [relay]; exact stuck) (by unfold NoneWaits; rw [ctxs]; exact calm)] at run
    obtain ⟨holder, unused, retired, counts⟩ := bringIn_watch s1 role c.1 sp
    exact gives_of run ⟨holder, unused, retired, congrArg Counts.islandsFailed counts⟩
  · intro n role c s on unretired range roleOf low class' none act up
    let s1 : State := { s with counts := { s.counts with islandsFailed := s.counts.islandsFailed + 1 } }
    have fail : s.failIsland n [] = (s1.loseRole role).freeze .spareIsland :=
      (failIsland_class unretired range roleOf low class').trans (failClass_none (u := s1) low none (classOf_low class' low))
    have frozen := freeze_frame (s1.loseRole role) .spareIsland
    have run := exec_islandFail on fail (by rw [show (State.freeze _ _).fw = _ from frozen .fw (by decide)]; exact act)
    obtain ⟨mode, -, causes⟩ := freeze_mode' (s1.loseRole role) .spareIsland up
    refine gives_of run ?_
    rw [relaySettle_modes, mode, causes]
    refine ⟨?_, rfl, rfl⟩
    rw [show (State.relaySettle _).spares = _ from Eq.trans (relaySettle_frame _ .spares (by decide)) (frozen .spares (by decide))]
    exact List.mem_append_right _ (List.mem_singleton_self _)
  · intro n s on unretired range none act
    let s1 : State := { s with counts := { s.counts with islandsFailed := s.counts.islandsFailed + 1 } }
    have fail : s.failIsland n [] = { s1 with spares := { s1.spares with unused := s1.spares.unused.filter (· != n), retired := s1.spares.retired ++ [n] } } := by
      unfold State.failIsland
      rw [if_neg (by simp [unretired]; omega)]
      simp only [List.foldl_nil]
      rw [show State.roleOf s1 n = Option.none from none]
    refine gives_of (exec_islandFail on fail act) ?_
    rw [relaySettle_modes, show (State.relaySettle _).spares = _ from relaySettle_frame _ .spares (by decide)]
    exact ⟨by simp, rfl, rfl⟩
  · intro n held s off other
    simp only [exec, execIslandFail]
    rw [if_neg (by simp [off, other])]

end Sys2Proof.Machine
end

section
/-! PROOFS about memory errors and the progress monitor. -/

namespace Sys2Proof.Machine

/-- A quiet module: no command waits for a lock it holds and no forward has lost its route. -/
theorem relaySettle_kept {ws : List Part} {s u : State} (kept : Keeps ws s u) (ctxs : Part.ctxs ∉ ws) (relay : Part.relay ∉ ws) (calm : NoneWaits s)
    (stuck : NoneStuck s) : u.relaySettle = u.watch := by
  refine relaySettle_quiet ?_ ?_
  · unfold NoneStuck; rw [show u.relay = s.relay from kept .relay relay]; exact stuck
  · unfold NoneWaits; rw [show u.net.ctxs = s.net.ctxs from kept .ctxs ctxs]; exact calm

/-- A row spared by a repair that has completed. -/
theorem repairedRow {s : State} {ch row : Nat} (room : s.rowsUsedOn ch < 511) :
    ∃ u : State, (s.spareRow ch row 2).repaired = u ∧ Keeps [.spares, .logs, .dbg, .counts] s u ∧ (ch, row) ∈ u.spares.sparedRows
      ∧ u.rowsUsedOn ch = s.rowsUsedOn ch + 1 ∧ u.counts.repairs = s.counts.repairs + 1 := by
  obtain ⟨u, run, kept, spared, used, -⟩ := spareRow_room s ch row 2 room
  have counts : u.counts = s.counts := kept .counts (by decide)
  refine ⟨u.repaired, by rw [run], (kept.mono (by decide)).trans ?_, ?_, used, ?_⟩
  · intro p hp; cases p <;> first | rfl | exact absurd (by decide) hp
  · show (ch, row) ∈ u.spares.sparedRows
    rw [spared]; simp
  · show u.counts.repairs + 1 = _
    rw [counts]

theorem rowsUsedOn_of {s t : State} (spares : t.spares = s.spares) (ch : Nat) : t.rowsUsedOn ch = s.rowsUsedOn ch := by unfold State.rowsUsedOn; rw [spares]

/-- A command without its commit point that overran ends with DEVICE_FAULT, and the module goes on. -/
theorem overrun_replied {s : State} {n : Nat} {x : Ctx} (found : s.ctx? x.id = some x) (pending : x.committed = false) (act : s.fw.act ≠ 5) (calm : NoneWaits s)
    (stuck : NoneStuck s) : Replied x (Reply.plain .deviceFault) (s.overrun n x).selftestFault.relaySettle := by
  let u := s.endCmd x.id (Reply.plain .deviceFault)
  have ended : s.deviceEnd x.id = u := deviceEnd_replied found pending
  have kept : Keeps [.logs, .dbg, .counts] u (s.overrun n x) := by
    unfold State.overrun
    rw [ended]
    refine ((logEvent_frame u 0x0001 (s.overrunBody n x)).mono (by decide)).trans ?_
    intro p hp; cases p <;> first | rfl | exact absurd (by decide) hp
  have fw : (s.overrun n x).fw = s.fw := Eq.trans (kept .fw (by decide)) (endCmd_frame s x.id _ .fw (by decide))
  rw [selftestFault_not (by rw [fw]; exact act),
    relaySettle_kept kept (by decide) (by decide) (calm.endCmd x.id _) (stuck.sub (endCmd_relay s x.id _).1)]
  exact ((endCmd_replied _ found).keeps kept (by decide) (by decide) (by decide) (by decide)).watch

/-- A second trap at an address within a second is a failure of the island. -/
theorem codeTrap_again {n a h : Nat} {s : State} (on : s.supply.mainOn = true) (unretired : n ∉ s.spares.retired) (range : n ≤ 262) (other : n ≠ 243)
    (outside : n < 233 ∨ 242 < n) (trap : ((n, a), h) ∈ s.spares.traps) (recent : s.clock < h + sec 1) :
    ∃ u : State, exec (.codeTrap n a []) s = .next (u.failIsland n []).selftestFault.relaySettle
      ∧ u.spares = { s.spares with traps := ((n, a), s.clock) :: s.spares.traps.filter (fun t => t.1 != (n, a)) } ∧ u.fw = s.fw := by
  have inactive : s.inActive n = false := by unfold State.inActive; split <;> simp <;> omega
  have again : s.spares.traps.any (fun t => t.1 == (n, a) && decide (s.clock < t.2 + sec 1)) = true := by
    rw [List.any_eq_true]; exact ⟨_, trap, by simp [recent]⟩
  let s1 : State := { s with counts := { s.counts with codeTraps := s.counts.codeTraps + 1 } }
  let s2 := s1.ueRecord n 1 3 a false true
  have kept : Keeps _ s1 s2 := ueRecord_frame _ _ _ _ _ _ _
  have spares : s2.spares = s.spares := kept .spares (by decide)
  refine ⟨{ s2 with spares := { s2.spares with traps := ((n, a), s.clock) :: s2.spares.traps.filter (fun t => t.1 != (n, a)) } }, ?_, ?_, kept .fw (by decide)⟩
  · simp only [exec, execCodeTrap]
    rw [if_neg (by simp [on, unretired]; omega), inactive, again]
    simp only [show (n == 243) = false by simpa using other, Bool.or_self, Bool.false_eq_true, if_false, if_true]
    rfl
  · show ({ s2.spares with traps := ((n, a), s.clock) :: s2.spares.traps.filter (fun t => t.1 != (n, a)) } : Spares) = _
    rw [spares]

/-! ### Correctable errors -/

/-- The corrections of a period taken into the counters and the counts. -/
def State.corrected (s : State) (sram dram : List (Nat × Nat × Nat)) : State :=
  { s with
    counts := { s.counts with sramCorrected := s.counts.sramCorrected + (sram.map (·.2.2)).sum, dramCorrected := s.counts.dramCorrected + (dram.map (·.2.2)).sum }
    spares := { s.spares with ceCounts := sram.foldl addCount s.spares.ceCounts, ceRows := dram.foldl addCount s.spares.ceRows } }

/-- The counts one lower. -/
def State.decay (s : State) : State := { s with spares := { s.spares with ceCounts := decayed s.spares.ceCounts, ceRows := decayed s.spares.ceRows } }

/-- The rows at their limit are spared, and then every count falls. -/
theorem exec_ceDecay {sram dram : List (Nat × Nat × Nat)} {s : State} (on : s.supply.mainOn = true) :
    exec (.ceDecay sram dram) s = .next (((s.corrected sram dram).spares.ceRows.filter (fun c => s.var 0x0A03 ≤ c.2)).foldl
      (fun t c => t.spareRow c.1.1 c.1.2 1) (s.corrected sram dram)).decay.watch := by
  simp only [exec, execCeDecay]
  rw [if_neg (by simp [on])]
  rfl

/-- Settles O45: errors by their site, repairs, code traps, corrections and overruns. -/
theorem memoryErrors : Obligations.MemoryErrors := by
  unfold Obligations.MemoryErrors
  intro quiet
  refine ⟨?_, ?_, ?_, ?_, ?_, ?_, ?_, ?_, ?_, ?_, ?_, ?_⟩
  · intro n q a r c f x s on found pending ⟨calm, stuck⟩
    obtain ⟨u, run, kept, -⟩ := ueFound_run n q a r f (.bufferCell c) s on (by simp)
    have foundU : u.ctx? c = some x := (ctx?_of (kept .ctxs (by decide)) c).trans found
    have ended : u.ueEffect n r (s.policyB q) (.bufferCell c) = u.endCmd c (Reply.plain .deviceFault) := deviceEnd_replied foundU pending
    rw [ended] at run
    refine gives_of run (quiet_settle _ foundU ?_ ?_)
    · unfold NoneWaits; rw [show u.net.ctxs = s.net.ctxs from kept .ctxs (by decide)]; exact calm
    · unfold NoneStuck; rw [show u.relay = s.relay from kept .relay (by decide)]; exact stuck
  · intro n q a r c f s on absent ⟨calm, stuck⟩
    obtain ⟨u, run, kept, counts, next⟩ := ueFound_run n q a r f (.bufferCell c) s on (by simp)
    have none : u.ueEffect n r (s.policyB q) (.bufferCell c) = u := by
      show u.deviceEnd c = u
      unfold State.deviceEnd
      rw [(ctx?_of (kept .ctxs (by decide)) c).trans absent]
    rw [none, relaySettle_kept kept (by decide) (by decide) calm stuck] at run
    refine gives_of run ?_
    rw [watch_digestMis, counts, watch_logs0, next]
    refine ⟨rfl, rfl, rfl, ?_, ?_, rfl⟩ <;> cases s.policyB q <;> rfl
  · intro n q a r unit f s on unheld ⟨calm, stuck⟩
    obtain ⟨u, run, kept, counts, next⟩ := ueFound_run n q a r f (.directory unit Option.none) s on (by simp)
    have coh : u.coh = s.coh := kept .coh (by decide)
    let u1 : State := { u with coh := { u.coh with repairs := u.coh.repairs ++ [(unit, n - 213, r)] } }
    have effect : u.ueEffect n r (s.policyB q) (.directory unit Option.none) = u1 := by
      unfold State.ueEffect
      have unheld' : u.sliceHolds unit = false := by unfold State.sliceHolds at unheld ⊢; rw [coh]; exact unheld
      simp only [Option.toList_none, List.foldl_nil, ite_self, unheld']
      rfl
    have kept1 : Keeps [.counts, .logs, .dbg, .coh] s u1 := (kept.mono (by decide)).trans (by intro p hp; cases p <;> first | rfl | exact absurd (by decide) hp)
    rw [effect, relaySettle_kept kept1 (by decide) (by decide) calm stuck] at run
    refine gives_of run ⟨?_, ?_, Eq.trans (watch_keeps0 u1 .entries (by decide)) (kept1 .entries (by decide))⟩
    · rw [show u1.watch.coh = u1.coh from watch_keeps0 u1 .coh (by decide)]
      show u.coh.repairs ++ _ = _
      rw [coh]
    · rw [watch_digestMis]
      show u.counts.dramUe = _
      rw [counts]; rfl
  · intro n q a r loc f s on room ⟨calm, stuck⟩
    obtain ⟨u, run, kept, counts, -⟩ := ueFound_run n q a r f (.valueCache loc) s on (by simp)
    have spares : u.spares = s.spares := kept .spares (by decide)
    have used : (u.cacheDrop (· == loc)).rowsUsedOn (n - 213) = s.rowsUsedOn (n - 213) := rowsUsedOn_of spares _
    obtain ⟨v, effect, keptV, row, usedV, repairs⟩ := repairedRow (s := u.cacheDrop (· == loc)) (row := r) (by rw [used]; exact room)
    have all : Keeps [.counts, .logs, .dbg, .cache, .spares] s v :=
      ((kept.mono (by decide)).trans ((cacheDrop_frame u _).mono (by decide))).trans (keptV.mono (by decide))
    rw [show u.ueEffect n r (s.policyB q) (.valueCache loc) = v from effect, relaySettle_kept all (by decide) (by decide) calm stuck] at run
    have sparesW : v.watch.spares = v.spares := watch_keeps0 v .spares (by decide)
    have cache : v.watch.store.cache = u.store.cache.filter (fun l => !(l == loc)) := Eq.trans (watch_keeps0 v .cache (by decide)) (keptV .cache (by decide))
    refine gives_of run ⟨?_, ?_, ?_, ?_, Eq.trans (watch_keeps0 v .modes (by decide)) (all .modes (by decide))⟩
    · rw [cache]; simp
    · rw [sparesW]; exact row
    · rw [rowsUsedOn_of sparesW, usedV, used]
    · rw [watch_digestMis, repairs]
      show u.counts.repairs + 1 = _
      rw [counts]
  · intro unit r s found room quietHomes calm
    let s1 : State := { s with coh := { s.coh with repairs := s.coh.repairs.filter (·.1 != unit) } }
    obtain ⟨v, repaired, kept, row, -, repairs⟩ := repairedRow (s := s1) (row := r.2.2) room
    have coh : v.coh = s1.coh := kept .coh (by decide)
    have homes : v.homes v.coh = v := by
      unfold State.homes
      rw [run_nil _ _ (by rw [coh]; exact quietHomes)]
    have settled : v.settle = v.watch := settle_quiet (by unfold NoneWaits; rw [show v.net.ctxs = s1.net.ctxs from kept .ctxs (by decide)]; exact calm)
    refine gives_of (t := v.watch) ?_ ⟨?_, ?_, ?_⟩
    · simp only [exec, execRepairComplete, found]
      rw [if_pos trivial, show State.repaired _ = v from repaired, homes, settled]
    · rw [show v.watch.spares = v.spares from watch_keeps0 v .spares (by decide)]; exact row
    · rw [watch_digestMis]; exact repairs
    · rw [show v.watch.coh = s1.coh from Eq.trans (watch_keeps0 v .coh (by decide)) coh]
      intro q hq; simpa using (List.mem_filter.mp hq).2
  · intro n a held s on unretired range other outside act fresh
    obtain ⟨w, run, net, traps, ue, trap, trapped, retired⟩ := codeTrap_first n a held s on unretired range other outside act fresh
    exact gives_of run ⟨traps, ue, trap, trapped, retired, net⟩
  · intro n a h s on unretired range other outside act trap recent none
    obtain ⟨u, run, spares, fw⟩ := codeTrap_again on unretired range other outside trap recent
    have roleOf : u.roleOf n = Option.none := by
      unfold State.roleOf at none ⊢
      rw [spares]; exact none
    let v : State := { u with counts := { u.counts with islandsFailed := u.counts.islandsFailed + 1 } }
    have fail : u.failIsland n [] = { v with spares := { v.spares with unused := v.spares.unused.filter (· != n), retired := v.spares.retired ++ [n] } } := by
      unfold State.failIsland
      rw [if_neg (by rw [spares]; simp [unretired]; omega)]
      simp only [List.foldl_nil]
      rw [show State.roleOf v n = Option.none from roleOf]
    rw [fail, selftestFault_not (by show u.fw.act ≠ 5; rw [fw]; exact act)] at run
    refine gives_of run ?_
    rw [show (State.relaySettle _).spares = _ from relaySettle_frame _ .spares (by decide)]
    simp
  · intro n s
    refine gives_of rfl ⟨?_, ?_⟩
    · intro x hx; simpa using (List.mem_filter.mp hx).2
    · intro p hp; cases p <;> first | rfl | exact absurd (by decide) hp
  · intro sram s on low
    have none : (s.corrected sram []).spares.ceRows.filter (fun c => decide (s.var 0x0A03 ≤ c.2)) = [] := by
      rw [List.filter_eq_nil_iff]; intro c hc; simpa using low c hc
    have run := exec_ceDecay (sram := sram) (dram := []) on
    rw [none] at run
    refine gives_of run ?_
    rw [watch_digestMis, show (State.watch _).spares = _ from watch_keeps0 _ .spares (by decide)]
    exact ⟨rfl, rfl, rfl, rfl⟩
  · intro ch row k s on empty limit room
    let s1 := s.corrected [] [(ch, row, k)]
    have rows : s1.spares.ceRows = [((ch, row), k)] := by
      show [(ch, row, k)].foldl addCount s.spares.ceRows = _
      rw [empty]; simp [addCount]
    obtain ⟨u, spared, kept, sparedRows, used, -⟩ := spareRow_room s1 ch row 1 room
    have run := exec_ceDecay (sram := []) (dram := [(ch, row, k)]) on
    rw [rows] at run
    simp only [List.filter_cons, limit, decide_true, if_true, List.filter_nil, List.foldl_cons, List.foldl_nil] at run
    rw [spared] at run
    refine gives_of run ?_
    rw [rowsUsedOn_of (show u.decay.watch.spares = u.decay.spares from watch_keeps0 _ .spares (by decide)), watch_digestMis,
      show u.decay.watch.spares = u.decay.spares from watch_keeps0 _ .spares (by decide)]
    refine ⟨sparedRows, used, ?_⟩
    show u.counts.dramCorrected = _
    rw [show u.counts = s1.counts from kept .counts (by decide)]
    simp [s1, State.corrected]
  · intro n x s on late found pending act ⟨calm, stuck⟩
    refine gives_of ?_ (overrun_replied (n := n) found pending act calm stuck)
    simp only [exec, execProgressScan]
    rw [late, if_neg (by simp [on])]
    rfl
  · intro n s early
    have none : s.net.ctxs.filter (fun x => s.holder (monitorRole x) == n && decide (sec 4 ≤ s.workOf x)) = [] := by
      rw [List.filter_eq_nil_iff]; intro x hx; simp [early x hx]
    simp only [exec, execProgressScan]
    rw [none, if_pos (by simp)]

end Sys2Proof.Machine
end

section
/-! PROOFS about heat and the hold-up bank. -/

namespace Sys2Proof.Machine

/-! ### The throttle stage -/

/-- The state with its sensors sampled. -/
def State.sampled (s : State) (r : List Int) : State := { s with thermal := { s.thermal with readings := r } }

theorem exec_thermalSample {r : List Int} {s : State} (on : s.supply.mainOn = true) (all : r.length = 10) :
    exec (.thermalSample r) s = .next (s.sampled r).throttle.watch := by
  simp only [exec, execThermalSample]
  rw [if_pos (by simp [on, all])]
  rfl

/-- A sample that moves the stage: the stage, the readings, the mode, and outside stage 2 one record. -/
theorem sample_moves {r : List Int} {s : State} {n : Nat} (on : s.supply.mainOn = true) (all : r.length = 10) (next : (s.sampled r).nextStage = n)
    (moves : n ≠ s.thermal.stage) (cool : s.thermal.stage ≠ 2) :
    Gives (.thermalSample r) s (fun t => t.thermal.stage = n ∧ t.thermal.readings = r ∧ t.modes = s.modes
      ∧ (n ≠ 2 → t.logs.nextEv = s.logs.nextEv + 1)) := by
  obtain ⟨thermal, modes, events⟩ := throttle_to (s.sampled r) n next moves cool
  have kept := watch_keeps0 (s.sampled r).throttle
  have thermalT : (s.sampled r).throttle.watch.thermal = _ := Eq.trans (kept .thermal (by decide)) thermal
  refine gives_of (exec_thermalSample on all) ⟨?_, ?_, Eq.trans (kept .modes (by decide)) modes, ?_⟩
  · rw [thermalT]
  · rw [thermalT]; rfl
  · intro calm; rw [watch_logs0]; exact events calm

/-- What the stage after a sample is, from what the sensors have reached. -/
theorem nextStage_of {s : State} (top : Nat) (is : (if s.stageReached 2 then 2 else if s.stageReached 1 then 1 else 0) = top) (rises : s.thermal.stage < top) :
    s.nextStage = top := by
  unfold State.nextStage
  dsimp only
  rw [is, if_pos rises]

/-! ### Sections of the bank -/

/-- A section recorded as failed. -/
def State.sectionDown (s : State) (n : Nat) : State := { s with holdup := { s.holdup with failed := s.holdup.failed ||| BitVec.ofNat 8 (2 ^ n) } }

/-- A section in service that has not failed before fails: the unused spare takes its place, or the module freezes. -/
theorem failSection_serving {s : State} {n : Nat} (low : n < 7) (sound : s.holdup.failed.getLsbD n = false) :
    s.failSection n = if (s.sectionDown n).holdup.spareInUse || (s.sectionDown n).holdup.failed.getLsbD spareSection then (s.sectionDown n).freeze .holdup
      else ({ (s.sectionDown n) with holdup := { (s.sectionDown n).holdup with spareInUse := true } } : State).spareNotice 13 spareSection := by
  have serving : s.inService n = true := by unfold State.inService spareSection; simp [sound]; omega
  unfold State.failSection
  rw [if_neg (by simp [sound]; omega)]
  dsimp only
  rw [serving]
  rfl

/-- A section known to have failed changes nothing. -/
theorem failSection_known {s : State} {n : Nat} (known : s.holdup.failed.getLsbD n = true) : s.failSection n = s := by
  unfold State.failSection
  rw [if_pos (by simp [known])]

theorem exec_sectionFail {n : Nat} {s : State} (on : s.supply.mainOn = true) : exec (.sectionFail n) s = .next (s.failSection n).watch := by
  simp only [exec, execSectionFail]
  rw [if_pos on]

/-! ### Bank tests -/

/-- The bank after a test: what it found and when. -/
def State.bankTested (s : State) (r : BankTest) (passed : Bool) : State :=
  { s with holdup := { s.holdup with
      testing := none, tested := true, lastTestAt := s.clock, lastPassed := passed, charged := passed, energyCj := r.energyCj
      health := (List.range 8).map (fun i => r.capacitancePct.getD i 100) } }

/-- A test that finds no failed section: its record, a freeze where it did not pass, and the settings written. -/
theorem exec_holdupTest {r : BankTest} {h : Nat} {s : State} (testing : s.holdup.testing = some h) (sound : testFailed r = []) :
    ∃ body, exec (.holdupTest r) s = .next ((if 1200 ≤ r.energyCj then (s.bankTested r (decide (1200 ≤ r.energyCj))).logEvent 0x0B02 body
      else ((s.bankTested r (decide (1200 ≤ r.energyCj))).logEvent 0x0B02 body).freeze .holdup).saveSettings).watch := by
  simp only [exec, execHoldupTest]
  rw [if_neg (by simp [testing]), sound]
  by_cases enough : 1200 ≤ r.energyCj
  · simp only [enough, decide_true, if_true, List.foldl_nil]
    exact ⟨_, rfl⟩
  · simp only [enough, decide_false, if_false, List.foldl_nil]
    exact ⟨_, rfl⟩

/-- Settles O46: the stage that follows a sample, the history, bank tests, and sections that fail. -/
theorem heatAndHoldUp : Obligations.HeatAndHoldUp := by
  unfold Obligations.HeatAndHoldUp
  intro reads
  have reached (r : List Int) (s : State) (k : Nat) (sound : s.sb.failed = []) : (s.sampled r).stageReached k = true ↔ reads r k :=
    reached_iff (s.sampled r) r k sound rfl
  refine ⟨?_, ?_, ?_, ?_, ?_, ?_, ?_, ?_, ?_, ?_, ?_, ?_, ?_, ?_⟩
  · intro r s on all sound cold hot
    have next : (s.sampled r).nextStage = 2 :=
      nextStage_of 2 (by rw [if_pos ((reached r s 2 sound).mpr hot)]) (by show s.thermal.stage < 2; omega)
    obtain ⟨t, run, stage, readings, modes, -⟩ := sample_moves on all next (by omega) (by omega)
    exact ⟨t, run, stage, readings, modes⟩
  · intro r s on all sound cold warm hot
    have next : (s.sampled r).nextStage = 1 :=
      nextStage_of 1 (by rw [if_neg (fun h => hot ((reached r s 2 sound).mp h)), if_pos ((reached r s 1 sound).mpr warm)])
        (by show s.thermal.stage < 1; omega)
    obtain ⟨t, run, stage, readings, -, events⟩ := sample_moves on all next (by omega) (by omega)
    exact ⟨t, run, stage, readings, events (by decide)⟩
  · intro r s on all sound cold warm hot
    have next : (s.sampled r).nextStage = (s.sampled r).thermal.stage := by
      have stage : (s.sampled r).thermal.stage = 0 := cold
      unfold State.nextStage
      dsimp only
      rw [if_neg (fun h => hot ((reached r s 2 sound).mp h)), if_neg (fun h => warm ((reached r s 1 sound).mp h)), stage]
      rfl
    have run := exec_thermalSample on all
    rw [throttle_same _ next] at run
    refine gives_of run ?_
    rw [show (s.sampled r).watch.thermal = (s.sampled r).thermal from watch_keeps0 _ .thermal (by decide), watch_logs0]
    exact ⟨cold, rfl, rfl⟩
  · intro r s on all sound warm hot clear
    have next : (s.sampled r).nextStage = 0 := by
      have stage : (s.sampled r).thermal.stage = 1 := warm
      have cleared : (s.sampled r).stageCleared 1 = true := by
        unfold State.stageCleared State.stageReading
        rw [List.all_eq_true]; intro l hl
        rw [show (s.sampled r).sb.failed = [] from sound]
        exact decide_eq_true (clear l hl)
      unfold State.nextStage
      dsimp only
      rw [if_neg (fun h => hot ((reached r s 2 sound).mp h)), stage, if_neg (by split <;> decide), cleared]
      rfl
    obtain ⟨t, run, stage, -⟩ := sample_moves on all next (by omega) (by omega)
    exact ⟨t, run, stage⟩
  · intro s on
    have run : ∃ u : Thermal, exec .temperatureHistorySample s = .next { s with thermal := u } ∧ u.minutes = s.thermal.minutes + 1
        ∧ u.readings = s.thermal.readings ∧ u.stage = s.thermal.stage := by
      simp only [exec, execTemperatureHistorySample]
      rw [if_neg (by simp [on])]
      exact ⟨_, rfl, rfl, rfl, rfl⟩
    obtain ⟨u, run, minutes, readings, stage⟩ := run
    refine gives_of run ⟨minutes, readings, stage, ?_⟩
    intro p hp; cases p <;> first | rfl | exact absurd (by decide) hp
  · intro s off
    simp only [exec, execTemperatureHistorySample]
    rw [if_pos (by simp [off])]
  · intro s due service idle
    have due' : (s.holdup.lastTestAt + sec (86400 * s.var 0x0B05) ≤ s.clock) = True := eq_true due
    refine gives_of (t := { s with holdup := { s.holdup with testing := some s.clock, interrupted := false } }) ?_ ⟨rfl, rfl, ?_⟩
    · simp only [exec, execHoldupTestStart]
      rw [if_pos (by simp only [due', decide_true, Bool.or_true])]
      unfold State.startTest
      rw [if_pos (by simp [service, idle])]
    · intro p hp; cases p <;> first | rfl | exact absurd (by decide) hp
  · intro s whole early
    have early' : (s.holdup.lastTestAt + sec (86400 * s.var 0x0B05) ≤ s.clock) = False := eq_false (Nat.not_le.mpr early)
    simp only [exec, execHoldupTestStart]
    rw [if_neg (by simp only [whole, early', decide_false, Bool.or_false]; exact Bool.false_ne_true)]
  · intro r h s testing sound enough
    obtain ⟨body, run⟩ := exec_holdupTest testing sound
    rw [if_pos enough, decide_eq_true enough] at run
    let u := (s.bankTested r true).logEvent 0x0B02 body
    have logged : Keeps _ (s.bankTested r true) u := logEvent_frame _ _ _
    have kept := watch_keeps0 u.saveSettings
    have holdup : u.saveSettings.watch.holdup = (s.bankTested r true).holdup := Eq.trans (kept .holdup (by decide)) (logged .holdup (by decide))
    refine gives_of run ?_
    rw [holdup]
    exact ⟨rfl, rfl, rfl, rfl, rfl, Eq.trans (kept .modes (by decide)) (logged .modes (by decide))⟩
  · intro r h s testing sound short up
    obtain ⟨body, run⟩ := exec_holdupTest testing sound
    rw [if_neg (by omega), decide_eq_false (by omega)] at run
    let u := (s.bankTested r false).logEvent 0x0B02 body
    have logged : Keeps _ (s.bankTested r false) u := logEvent_frame _ _ _
    have modes : u.modes = s.modes := logged .modes (by decide)
    obtain ⟨mode, -, causes⟩ := freeze_mode' u .holdup (by rw [modes]; exact up)
    have kept := watch_keeps0 (u.freeze .holdup).saveSettings
    have holdup : (u.freeze .holdup).saveSettings.watch.holdup = (s.bankTested r false).holdup :=
      Eq.trans (kept .holdup (by decide)) (Eq.trans (freeze_frame u .holdup .holdup (by decide)) (logged .holdup (by decide)))
    have modesT : (u.freeze .holdup).saveSettings.watch.modes = (u.freeze .holdup).modes := kept .modes (by decide)
    refine gives_of run ?_
    rw [holdup, modesT, mode, causes, modes]
    exact ⟨rfl, rfl, rfl, rfl⟩
  · intro r s idle
    simp only [exec, execHoldupTest]
    rw [if_pos (by simp [idle])]
  · intro n s low on none spare
    have sound : s.holdup.failed.getLsbD n = false := by rw [none]; simp
    have free : (s.sectionDown n).holdup.failed.getLsbD spareSection = false := by
      show (s.holdup.failed ||| BitVec.ofNat 8 (2 ^ n)).getLsbD 7 = false
      rw [or_bit_ne _ (by omega), none]; simp
    let u : State := { (s.sectionDown n) with holdup := { (s.sectionDown n).holdup with spareInUse := true } }
    have takes : s.failSection n = u.spareNotice 13 spareSection := by
      rw [failSection_serving low sound, if_neg (by rw [free, show (s.sectionDown n).holdup.spareInUse = false from spare]; decide)]
    have kept := spareNotice_watch_keeps u 13 spareSection
    have run := exec_sectionFail (n := n) on
    rw [takes] at run
    refine gives_of run ?_
    rw [show (State.watch _).holdup = u.holdup from kept .holdup (by decide)]
    refine ⟨rfl, ?_, kept .modes (by decide)⟩
    show s.holdup.failed ||| BitVec.ofNat 8 (2 ^ n) = _
    rw [none]; simp
  · intro n s low on sound spare up
    have freezes : s.failSection n = (s.sectionDown n).freeze .holdup := by
      rw [failSection_serving low sound, if_pos (by rw [show (s.sectionDown n).holdup.spareInUse = true from spare]; rfl)]
    obtain ⟨mode, -, causes⟩ := freeze_mode' (s.sectionDown n) .holdup up
    have kept := watch_keeps0 ((s.sectionDown n).freeze .holdup)
    have run := exec_sectionFail (n := n) on
    rw [freezes] at run
    refine gives_of run ?_
    rw [show (State.watch _).holdup = (s.sectionDown n).holdup from Eq.trans (kept .holdup (by decide)) (freeze_frame _ .holdup .holdup (by decide)),
      show (State.watch _).modes = _ from kept .modes (by decide), mode, causes]
    exact ⟨rfl, rfl, rfl⟩
  · intro n s known on
    have run := exec_sectionFail (n := n) on
    rw [failSection_known known] at run
    have kept := watch_keeps0 s
    exact gives_of run ⟨kept .holdup (by decide), kept .modes (by decide)⟩

end Sys2Proof.Machine
end

section
/-! PROOFS about the staging, activation and confirmation of firmware. -/

namespace Sys2Proof.Machine

/-- A firmware command that a change `u` and a reply answer: the firmware is what the change left, and the reply is out. -/
theorem fw_row {c op : Nat} {x : Ctx} {i : Instr} {r : Reply} {limits : Ctx → Bool} {run : Ctx → State} {s u : State} (admin : s.admin? c op = some x)
    (mode : s.modeStops x = none) (row : exec i s = .next (s.adminRow c op false limits run)) (fits : limits x = true) (ends : run x = u.endCmd c r)
    (ctxs : u.net.ctxs = s.net.ctxs) : Gives i s (fun t => t.fw = u.fw ∧ t.nor = u.nor ∧ Replied x r t) := by
  have ctx : u.ctx? c = some x := (ctx?_of ctxs c).trans (admin_ctx admin).1
  refine gives_of (t := u.endCmd c r) (row.trans (by rw [adminRow_run admin (by simp) mode fits, ends]))
    ⟨endCmd_fw' u c r, endCmd_frame u c r .nor (by decide), endCmd_replied r ctx⟩

/-- The confirmed image's slots, floor and settings. -/
theorem confirmImage_facts {s : State} (slot : s.fw.active < 2) :
    s.confirmImage.fw.confirmed = s.fw.active ∧ s.confirmImage.fw.floor = max s.fw.floor (s.fwSlot s.fw.active).floor
      ∧ s.confirmImage.fw.awaitSince = none ∧ s.confirmImage.fw.act = 0 ∧ (s.confirmImage.fwSlot s.fw.active).st = 4
      ∧ (s.confirmImage.fwSlot (1 - s.fw.active)).st = 2 ∧ s.confirmImage.nor.older = none ∧ s.confirmImage.net.ctxs = s.net.ctxs := by
  let a := s.fw.active
  let s1 := (s.updFwSlot a (fun g => { g with st := 4 })).updFwSlot (1 - a) (fun g => { g with st := 2 })
  let s2 : State := { s1 with
    fw := { s1.fw with confirmed := a, floor := max s.fw.floor (s.fwSlot a).floor, mediaFmt := (s.fwSlot a).media, awaitSince := none, act := 0, byRestart := false,
                       standbyOld := false }
    nor := { s1.nor with older := none } }
  have told : Keeps _ s2 (s2.fwState 5 0 (s.fwSlot a).version) := fwState_frame _ _ _ _
  have fw : s.confirmImage.fw = { s2.fw with doneAt := 0 } := by
    show ({ (s2.fwState 5 0 (s.fwSlot a).version).fw with doneAt := 0 } : Firmware) = _
    rw [fwState_fw']
  have kept1 : Keeps [.fw] s s1 := (updFwSlot_k s _ _).trans (updFwSlot_k _ _ _)
  have mine := fwSlot_upd s a (fun g => { g with st := 4 }) slot
  have others := fwSlot_upd (s.updFwSlot a (fun g => { g with st := 4 })) (1 - a) (fun g => { g with st := 2 }) (by omega)
  rw [show 1 - (1 - a) = a by omega] at others
  refine ⟨by rw [fw], by rw [fw], by rw [fw], by rw [fw], ?_, ?_, ?_, ?_⟩
  · unfold State.fwSlot; rw [fw]
    show (s1.fwSlot a).st = 4
    rw [others.2, mine.1]
  · unfold State.fwSlot; rw [fw]
    show (s1.fwSlot (1 - a)).st = 2
    rw [others.1]
  · show (s2.fwState 5 0 (s.fwSlot a).version).nor.older = none
    rw [show (State.fwState _ _ _ _).nor = s2.nor from told .nor (by decide)]
  · show (s2.fwState 5 0 (s.fwSlot a).version).net.ctxs = _
    exact Eq.trans (told .ctxs (by decide)) (kept1 .ctxs (by decide))

/-- A first chunk shorter than the header completes no check: it is staged. -/
theorem stageChunk_first {s : State} {x : Ctx} (short : x.body.length < 256) :
    s.stageChunk x [] = ({ s with fw := { s.fw with staging := some x.body, stagedAt := s.clock, act := 1 } } : State).endCmd x.id (Reply.withA .done x.body.length) := by
  unfold State.stageChunk
  simp only [List.nil_append, show ¬ 256 ≤ x.body.length by omega, decide_false, Bool.and_false, Bool.false_and, Bool.false_eq_true, if_false]

/-- A fallback that begins names its reason and ends the wait for confirmation. -/
theorem startFallback_facts (s : State) (reason : Nat) :
    (s.startFallback reason).fw.act = 7 ∧ (s.startFallback reason).fw.fallback = reason ∧ (s.startFallback reason).fw.awaitSince = none
      ∧ (s.startFallback reason).net.ctxs = s.net.ctxs :=
  ⟨rfl, rfl, rfl, fwState_frame s 6 reason _ .ctxs (by decide)⟩

/-- Settles O47: each firmware command's answer with what it leaves in the slots. -/
theorem firmwareStaging : Obligations.FirmwareStaging := by
  unfold Obligations.FirmwareStaging
  intro asks chunk
  have fits (x : Ctx) (h : chunk x) :
      (x.keyLen == 0 && x.flagsWithin 0 && 1 ≤ x.valLen && x.valLen ≤ 16777216 && x.paramA.toNat < 2 ^ 32 && x.paramB == 0) = true := by
    obtain ⟨key, flags, some', size, offset, b⟩ := h
    rw [key, flags, decide_eq_true some', decide_eq_true size, decide_eq_true offset, b]; rfl
  refine ⟨?_, ?_, ?_, ?_, ?_, ?_, ?_, ?_, ?_, ?_, ?_, ?_, ?_⟩
  · intro c x s ⟨admin, mode⟩ limits calm early free first some' short
    have id := (asked admin).2
    obtain ⟨t, run, fw, -, replied⟩ := fw_row (r := Reply.withA .done x.body.length)
      (u := { s with fw := { s.fw with staging := some x.body, stagedAt := s.clock, act := 1 } }) (i := .fwStage c) admin mode rfl (fits x limits)
      (by
        dsimp only
        rw [if_neg (by rw [calm]; decide), if_neg (by omega), if_neg (by rw [free]; decide), if_pos (by rw [first]; rfl), stageChunk_first short, id]) rfl
    refine gives_of run ?_
    rw [fw]
    exact ⟨rfl, rfl, rfl, replied⟩
  · intro c x b s ⟨admin, mode⟩ limits calm early free staged notFirst notNext
    obtain ⟨t, run, fw, -, replied⟩ := fw_row (r := Reply.withA .badLength b.length) (u := s) (i := .fwStage c) admin mode rfl (fits x limits)
      (by
        dsimp only
        rw [if_neg (by rw [calm]; decide), if_neg (by omega), if_neg (by rw [free]; decide), staged, if_neg (by simpa using notFirst), if_neg (by simpa using notNext)]
        rfl) rfl
    exact gives_of run ⟨fw, replied⟩
  · intro c h x s ⟨admin, mode⟩ limits waits
    obtain ⟨t, run, fw, -, replied⟩ := fw_row (r := Reply.withA .notReady s.confirmLeft) (u := s) (i := .fwStage c) admin mode rfl (fits x limits)
      (by dsimp only; rw [if_pos (by rw [waits]; rfl)]) rfl
    exact gives_of run ⟨fw, replied⟩
  · intro b s staged free due
    have due' : (s.fw.stagedAt + sec (s.var 0x0C04) ≤ s.clock) = True := eq_true due
    refine gives_of (t := { s with fw := { s.fw with staging := none, act := if s.fw.act == 1 then 0 else s.fw.act } })
      (by simp only [exec, execFwStageIdle]; rw [if_pos (by simp only [staged, free, due', decide_true]; rfl)]) ⟨rfl, rfl, rfl, ?_⟩
    intro p hp; cases p <;> first | rfl | exact absurd (by decide) hp
  · intro b s staged early
    have early' : (s.fw.stagedAt + sec (s.var 0x0C04) ≤ s.clock) = False := eq_false (Nat.not_le.mpr early)
    simp only [exec, execFwStageIdle]
    rw [if_neg (by simp only [early', decide_false, Bool.and_false]; exact Bool.false_ne_true)]
  · intro h f ok s programming slot
    let s1 := s.updInactive (fun _ => { f with st := if ok then 1 else 3 })
    let s2 : State := { s1 with fw := { s1.fw with programming := none, act := 0 } }
    have slots := fwSlot_upd s (1 - s.fw.active) (fun _ => { f with st := if ok then 1 else 3 }) (by omega)
    rw [show 1 - (1 - s.fw.active) = s.fw.active by omega] at slots
    refine gives_of (t := if ok then s2.fwState 1 0 f.version else s2.fwState 2 7 f.version) (by simp only [exec, execSlotProgramDone, programming]; rfl) ?_
    have fw : (if ok then s2.fwState 1 0 f.version else s2.fwState 2 7 f.version).fw = s2.fw := by split <;> exact fwState_fw' _ _ _ _
    rw [fwSlot_of fw, fwSlot_of fw, fw]
    exact ⟨slots.1, slots.2, rfl, rfl⟩
  · intro c x s ⟨admin, mode⟩ limits calm early unstaged
    obtain ⟨t, run, fw, -, replied⟩ := fw_row (r := Reply.plain .notFound) (u := s) (i := .fwActivate c) admin mode rfl limits
      (by
        dsimp only
        rw [if_neg (by rw [calm]; decide), if_neg (by omega), if_pos (by simp [unstaged])]
        rfl) rfl
    exact gives_of run ⟨fw, replied⟩
  · intro c x s ⟨admin, mode⟩ limits calm early free staged sound
    let r := s.needsRestart (s.fwSlot (1 - s.fw.active)) (x.flags.getLsbD 0)
    obtain ⟨t, run, fw, -, replied⟩ := fw_row (r := Reply.withA .done (b1 r))
      (u := { s with fw := { s.fw with act := 3, byRestart := r, restarting := r, copying := false, freeze := none, reloaded := 0, reloadTotal := 0,
                                       reload := [], doneAt := s.clock, activations := s.fw.activations + 1 } }) (i := .fwActivate c) admin mode rfl limits
      (by
        dsimp only
        rw [if_neg (by rw [calm]; decide), if_neg (by omega), if_neg (by simp [staged, free]), if_neg (by simp [sound])]) rfl
    refine gives_of run ?_
    rw [fw]
    exact ⟨rfl, rfl, rfl, rfl, rfl, replied⟩
  · intro c h x s ⟨admin, mode⟩ limits waits slot
    obtain ⟨confirmed, floor, since, act, mine, other, older, ctxs⟩ := confirmImage_facts slot
    obtain ⟨t, run, fw, nor, replied⟩ := fw_row (r := Reply.plain .done) (u := s.confirmImage) (i := .fwConfirm c) admin mode rfl limits
      (by rw [if_pos (by rw [waits]; rfl)]; rfl) ctxs
    refine gives_of run ?_
    rw [fwSlot_of fw, fwSlot_of fw, fw, nor]
    exact ⟨confirmed, floor, since, act, mine, other, older, replied⟩
  · intro c x s ⟨admin, mode⟩ limits calm
    obtain ⟨t, run, fw, -, replied⟩ := fw_row (r := Reply.plain .alreadyDone) (u := s) (i := .fwConfirm c) admin mode rfl limits
      (by rw [if_neg (by rw [calm]; decide)]; rfl) rfl
    exact gives_of run ⟨fw, replied⟩
  · intro c x b s ⟨admin, mode⟩ limits early free staged
    let s1 := s.updInactive (fun f => if f.st == 1 then { f with st := 0 } else f)
    obtain ⟨t, run, fw, -, replied⟩ := fw_row (r := Reply.plain .done) (u := { s1 with fw := { s1.fw with staging := none, act := 0 } }) (i := .fwAbort c)
      admin mode rfl limits
      (by
        dsimp only
        rw [if_neg (by simp; omega), if_neg (by omega), if_neg (by rw [free]; decide), if_pos (by rw [staged]; rfl)]
        rfl) (updFwSlot_k s _ _ .ctxs (by decide))
    refine gives_of run ?_
    rw [fw]
    exact ⟨rfl, rfl, replied⟩
  · intro c x s ⟨admin, mode⟩ limits late notBack
    obtain ⟨act, reason, since, ctxs⟩ := startFallback_facts s 3
    obtain ⟨t, run, fw, -, replied⟩ := fw_row (r := Reply.plain .done) (u := s.startFallback 3) (i := .fwAbort c) admin mode rfl limits
      (by dsimp only; rw [if_neg (by simpa using notBack), if_pos late]; rfl) ctxs
    refine gives_of run ?_
    rw [fw]
    exact ⟨act, reason, since, replied⟩
  · intro c x s ⟨admin, mode⟩ limits back
    obtain ⟨t, run, fw, -, replied⟩ := fw_row (r := Reply.plain .notFound) (u := s) (i := .fwAbort c) admin mode rfl limits
      (by dsimp only; rw [if_pos (by rw [back]; rfl)]; rfl) rfl
    exact gives_of run ⟨fw, replied⟩

end Sys2Proof.Machine
end

section
/-! PROOFS about activation, handover and fallback. -/

namespace Sys2Proof.Machine

theorem fw_keeps (s : State) (f : Firmware) : Keeps [.fw] s { s with fw := f } := by intro p hp; cases p <;> first | rfl | exact absurd (by decide) hp

/-- A reload that goes on awaits no confirmation yet. -/
theorem reloadEnd_more {s : State} (more : s.fw.reload ≠ []) : s.reloadEnd = s := by
  unfold State.reloadEnd
  rw [if_neg (by simp [more])]

/-- A role loaded with its new code is held by the island that was loaded. -/
theorem rotateRole_holder (s : State) (role : Nat) : (s.rotateRole role).holder role = s.loadTarget role := by
  unfold State.rotateRole State.loadTarget
  cases rotates role with
  | false => rfl
  | true =>
    cases s.rotationSpare role with
    | none => rfl
    | some sp =>
      unfold State.holder
      exact getKey_set _ _ _

/-- The firmware once a role has been reloaded. -/
def State.reloadedOne (s : State) (rest : List Nat) : State := { s with fw := { s.fw with reload := rest, reloaded := s.fw.reloaded + 1, lastReload := s.clock } }

/-- An island outside the flash channels that loads in its turn. -/
theorem exec_islandReload {n role : Nat} {rest : List Nat} {s : State} (turn : s.fw.reload = role :: rest) (act : s.fw.act = 4) (target : n = s.loadTarget role)
    (due : s.fw.lastReload + ms (s.var 0x0C03) ≤ s.clock) (low : role < 181) :
    exec (.islandReload n true) s = .next ((s.rotateRole role).reloadedOne rest).reloadEnd := by
  have due' : (s.clock < s.fw.lastReload + ms (s.var 0x0C03)) = False := eq_false (Nat.not_lt.mpr due)
  have other : (decide (181 ≤ role) && decide (role ≤ 212) && decide (2 ≤ s.spares.rebuilding.length)) = false := by
    rw [decide_eq_false (by omega)]; rfl
  simp only [exec, execIslandReload, turn]
  rw [other, if_neg (by simp only [act, target, due', decide_false]; simp), if_pos trivial]
  rfl

/-- The module off and ready to boot: which image the next start boots is set, and the settings are written. -/
def State.bootReady (s : State) (new : Bool) : State :=
  ({ s with fw := { s.fw with bootNew := new, restarting := false }, modes := { s.modes with markFound := none } } : State).saveSettings

theorem bootReady_fw (s : State) (new : Bool) : (s.bootReady new).fw = { s.fw with bootNew := new, restarting := false } := rfl

theorem bootReady_confirmed (s : State) (new : Bool) : (s.bootReady new).fw.confirmed = s.fw.confirmed := rfl

theorem exec_activationFlush {f : Flush} {s : State} (flush : s.modes.flush = some f) (trigger : f.trigger = 0) :
    exec .activationFlushComplete s
      = .next (((s.flushAll f).1.recordMode.mainOff.changeMode .dormant).bootReady (s.fw.act == 3)).beginFilling := by
  show execActivationFlushComplete s = _
  unfold execActivationFlushComplete State.bootReady
  rw [flush]
  dsimp only
  rw [if_pos (by rw [trigger]; rfl)]

/-- The flush of a restart activation ends in the start of the activated image. -/
theorem activationFlush_boots {f : Flush} {s : State} (flush : s.modes.flush = some f) (trigger : f.trigger = 0) :
    ∃ u : State, exec .activationFlushComplete s = .next u.beginFilling ∧ u.fw.confirmed = s.fw.confirmed ∧ u.fw.bootNew = (s.fw.act == 3) := by
  have flushed : (s.flushAll f).1.fw = s.fw := flushAll_frame s f .fw (by decide)
  have recorded : (s.flushAll f).1.recordMode.fw = (s.flushAll f).1.fw := by
    unfold State.recordMode
    split <;> rfl
  have off (u : State) : (u.mainOff.changeMode .dormant).fw.confirmed = u.fw.confirmed := by
    rw [show (u.mainOff.changeMode .dormant).fw = u.mainOff.fw from changeMode_frame u.mainOff .dormant .fw (by decide), mainOff_conf]
  refine ⟨_, exec_activationFlush flush trigger, ?_, by rw [bootReady_fw]⟩
  rw [bootReady_confirmed, off, recorded, flushed]

/-- An activation abandoned before its handover leaves the slots. -/
theorem abandonActivation_facts (s : State) :
    s.abandonActivation.fw.act = 0 ∧ s.abandonActivation.fw.lastReason = 5 ∧ s.abandonActivation.fw.slot0 = s.fw.slot0
      ∧ s.abandonActivation.fw.slot1 = s.fw.slot1 ∧ s.abandonActivation.spares = s.spares := by
  let s1 : State := { s with fw := { s.fw with act := 0, copying := false, freeze := none, byRestart := false, restarting := false, lastReason := 5,
                                               fallbacks := s.fw.fallbacks + 1 } }
  have told : Keeps _ s1 (s1.fwState 8 5 s.newVersion) := fwState_frame _ _ _ _
  unfold State.abandonActivation
  dsimp only
  rw [show (State.fwState _ 8 5 s.newVersion).fw = s1.fw from fwState_fw' s1 8 5 _]
  exact ⟨rfl, rfl, rfl, rfl, told .spares (by decide)⟩

/-- Changing a slot leaves the rest of the firmware's state. -/
theorem updFwSlot_rest (s : State) (n : Nat) (f : FwSlot → FwSlot) : ∃ a b, (s.updFwSlot n f).fw = { s.fw with slot0 := a, slot1 := b } := by
  unfold State.updFwSlot
  split
  · exact ⟨_, s.fw.slot1, rfl⟩
  · exact ⟨s.fw.slot0, _, rfl⟩

/-- The state as the complexes exchange roles: the activated image runs, and its reload begins. -/
def State.exchanged (s : State) : State :=
  { s with fw := { s.fw with
      freeze := none, copying := false, complexB := !s.fw.complexB, lastReload := s.clock, active := 1 - s.fw.confirmed, act := 4, standbyOld := true,
      reload := (s.fwSlot (1 - s.fw.confirmed)).reloads, reloaded := 0, reloadTotal := (s.fwSlot (1 - s.fw.confirmed)).reloads.length } }

theorem exchanged_facts {s s2 : State} (slot : s.fw.confirmed < 2)
    (fw : s2.fw = ((s.exchanged.updFwSlot (1 - s.fw.confirmed) (fun f => { f with st := 5 })).updFwSlot s.fw.confirmed (fun f => { f with st := 2 })).fw) :
    (s2.fwSlot (1 - s.fw.confirmed)).st = 5 ∧ (s2.fwSlot s.fw.confirmed).st = 2 ∧ s2.fw.active = 1 - s.fw.confirmed ∧ s2.fw.act = 4
      ∧ s2.fw.complexB = !s.fw.complexB ∧ s2.fw.standbyOld = true ∧ s2.fw.freeze = none ∧ s2.fw.reload = (s.fwSlot (1 - s.fw.confirmed)).reloads := by
  have other := fwSlot_upd s.exchanged (1 - s.fw.confirmed) (fun f => { f with st := 5 }) (by omega)
  have mine := fwSlot_upd (s.exchanged.updFwSlot (1 - s.fw.confirmed) (fun f => { f with st := 5 })) s.fw.confirmed (fun f => { f with st := 2 }) slot
  obtain ⟨a, b, rest⟩ := updFwSlot_rest s.exchanged (1 - s.fw.confirmed) (fun f => { f with st := 5 })
  obtain ⟨a', b', rest'⟩ := updFwSlot_rest (s.exchanged.updFwSlot (1 - s.fw.confirmed) (fun f => { f with st := 5 })) s.fw.confirmed (fun f => { f with st := 2 })
  refine ⟨?_, ?_, ?_⟩
  · rw [fwSlot_of fw, mine.2, other.1]
  · rw [fwSlot_of fw, mine.1]
  · rw [fw, rest', rest]
    exact ⟨rfl, rfl, rfl, rfl, rfl, rfl⟩

/-- Settles O48: the handover step by step, the reload, the self-test, the restart activation and the ways back. -/
theorem firmwareHandover : Obligations.FirmwareHandover := by
  unfold Obligations.FirmwareHandover
  intro hands
  have handing (s : State) : s.handingOver = true ↔ hands s := handing_iff s
  refine ⟨?_, ?_, ?_, ?_, ?_, ?_, ?_, ?_, ?_, ?_, ?_, ?_, ?_, ?_, ?_, ?_⟩
  · intro s going waiting thawed
    simp only [exec, execStandbyBooted]
    rw [if_pos (by simp [(handing s).mpr going, waiting, thawed])]
  · intro s going copying thawed
    simp only [exec, execBulkCopyDone]
    rw [if_pos (by simp [(handing s).mpr going, copying, thawed])]
  · intro s idle
    have none : s.handingOver = false := by
      cases h : s.handingOver with
      | false => rfl
      | true => exact absurd ((handing s).mp h) idle
    simp only [exec, execStandbyBooted, execBulkCopyDone, execHandoverDone, none, Bool.false_and, Bool.false_eq_true, if_false]
    exact ⟨trivial, trivial, trivial⟩
  · intro h s going frozen act slot more
    obtain ⟨s2, run, fw, -⟩ := handover_act going frozen act
    have told : (s2.fwState 3 0 s.newVersion).fw = s2.fw := fwState_fw' _ _ _ _
    obtain ⟨st5, st2, active, act', side, old, thawed, reload⟩ := exchanged_facts (s := s) slot fw
    rw [reloadEnd_more (by rw [told, reload]; exact more)] at run
    refine gives_of run ?_
    rw [fwSlot_of told, fwSlot_of told, told]
    exact ⟨active, act', side, old, thawed, reload, st5, st2⟩
  · intro h s going frozen act slot none
    obtain ⟨s2, run, fw, kept⟩ := handover_act going frozen act
    have told : Keeps _ s2 (s2.fwState 3 0 s.newVersion) := fwState_frame _ _ _ _
    have toldFw : (s2.fwState 3 0 s.newVersion).fw = s2.fw := told .fw (by decide)
    obtain ⟨-, -, -, act', -, -, -, reload⟩ := exchanged_facts (s := s) slot fw
    have awaits : (s2.fwState 3 0 s.newVersion).reloadEnd = (s2.fwState 3 0 s.newVersion).awaitConfirm := by
      unfold State.reloadEnd
      rw [if_pos (by rw [toldFw, act', reload, none]; rfl)]
    rw [awaits] at run
    refine gives_of run ?_
    rw [awaitConfirm_fw, show (s2.fwState 3 0 s.newVersion).clock = s.clock from Eq.trans (told .clock (by decide)) (kept .clock (by decide)),
      show (s2.fwState 3 0 s.newVersion).var 0x0C02 = s.var 0x0C02 from congrArg (varIn · 0x0C02) (Eq.trans (told .vars (by decide)) (kept .vars (by decide)))]
    exact ⟨rfl, rfl, rfl⟩
  · intro h s going frozen act
    refine gives_of (t := { s with fw := { s.fw with
      freeze := none, copying := false, complexB := !s.fw.complexB, lastReload := s.clock, active := s.fw.confirmed, standbyOld := false } }) ?_ ⟨rfl, rfl, rfl, act, fw_keeps s _⟩
    simp only [exec, execHandoverDone]
    rw [if_pos (by simp [(handing s).mpr going, frozen]), if_neg (by rw [act]; decide)]
  · intro n role a rest s turn act target due low
    let u := (s.rotateRole role).reloadedOne (a :: rest)
    have run := exec_islandReload turn act target due low
    rw [reloadEnd_more (s := u) (by show a :: rest ≠ []; simp)] at run
    have kept := rotateRole_keeps (Keeps.refl [.spares] s) role rfl
    have fw : (s.rotateRole role).fw = s.fw := kept .fw (by decide)
    refine gives_of run ⟨rfl, ?_, kept .clock (by decide), ?_⟩
    · show (s.rotateRole role).fw.reloaded + 1 = _
      rw [fw]
    · rw [target]; exact rotateRole_holder s role
  · intro n role rest x s turn early
    simp only [exec, execIslandReload, turn]
    rw [if_pos (by simp only [early, decide_true, Bool.or_true, Bool.true_or])]
  · intro h s waits act due manual
    refine gives_of (t := { s with fw := { s.fw with selftested := true, act := 6 } }) ?_ ⟨rfl, rfl, waits, fw_keeps s _⟩
    simp only [exec, execSelftestEnd, waits]
    rw [if_neg (by simp [act]), if_neg (by decide), if_neg (Nat.not_lt.mpr due), if_neg (by simpa using manual)]
  · intro h s waits act
    obtain ⟨back, reason, since, -⟩ := startFallback_facts s 2
    refine gives_of ?_ ⟨back, reason, since⟩
    simp only [exec, execSelftestEnd, waits]
    rw [if_neg (by simp [act]), if_pos (by decide)]
  · intro h s waits due
    obtain ⟨back, reason, since, -⟩ := startFallback_facts s 1
    refine gives_of ?_ ⟨back, reason, since⟩
    simp only [exec, execConfirmationWindowExpire, waits]
    rw [if_pos due]
  · intro h s waits early
    simp only [exec, execConfirmationWindowExpire, waits]
    rw [if_neg (Nat.not_le.mpr early)]
  · intro s restarting idle empty on
    have fw : s.abandonForwards.fw = s.fw := abandonForwards_frame s .fw (by decide)
    have run : ∃ u : State, exec .restartActivation s = .next u ∧ (∃ f, u.modes.flush = some f ∧ f.trigger = 0 ∧ f.phase = 3) ∧ u.relay.slots = []
        ∧ u.fw = s.abandonForwards.fw := by
      simp only [exec, execRestartActivation]
      rw [if_pos (by simp [restarting, idle, empty, on])]
      exact ⟨_, rfl, ⟨_, rfl, rfl, rfl⟩, rfl, rfl⟩
    obtain ⟨u, run, flush, slots, same⟩ := run
    exact gives_of run ⟨flush, slots, same.trans fw⟩
  · intro f s flush trigger slot
    obtain ⟨u, run, confirmed, boots⟩ := activationFlush_boots flush trigger
    obtain ⟨mode, on, fw⟩ := beginFilling_facts u
    obtain ⟨active, bootNew, restarting⟩ := bootImage_active u
    refine gives_of run ⟨mode, on, ?_, by rw [fw]; exact bootNew, by rw [fw]; exact restarting⟩
    rw [fw, active, confirmed, boots]
    by_cases act : s.fw.act = 3 <;> simp [act]
  · intro s act noRestart reload copied thawed back slot service
    obtain ⟨t, run, fw⟩ := fallback_fw act noRestart reload copied thawed back service
    have other := fwSlot_upd s (1 - s.fw.confirmed) (fun f => { f with st := 3 }) (by omega)
    have mine := fwSlot_upd (s.updFwSlot (1 - s.fw.confirmed) (fun f => { f with st := 3 })) s.fw.confirmed (fun f => { f with st := 4 }) slot
    refine gives_of run ?_
    unfold State.fwSlot
    rw [fw]
    refine ⟨rfl, ?_, ?_, rfl, rfl⟩
    · exact congrArg FwSlot.st mine.1
    · exact congrArg FwSlot.st (mine.2.trans other.1)
  · intro x s act live
    let s1 : State := { s with spares := { s.spares with standbyLost := s.spares.standbyLost || !x } }
    obtain ⟨act', reason, slot0, slot1, spares⟩ := abandonActivation_facts s1
    have kept := watch_keeps0 s1.abandonActivation
    have fw : s1.abandonActivation.watch.fw = s1.abandonActivation.fw := kept .fw (by decide)
    refine gives_of (t := s1.abandonActivation.watch) ?_ ?_
    · simp only [exec, execStandbyFail]
      rw [if_pos (by simp [act, live])]
    · rw [fw, show s1.abandonActivation.watch.spares = s1.spares from Eq.trans (kept .spares (by decide)) spares]
      exact ⟨act', reason, slot0, slot1, rfl⟩

end Sys2Proof.Machine
end

section
/-! PROOFS about the SMBus sideband and its mailbox. -/

namespace Sys2Proof.Machine

theorem sb_keeps (s : State) (b : Sideband) : Keeps [.sb] s { s with sb := b } := by intro p hp; cases p <;> first | rfl | exact absurd (by decide) hp

/-! ### Register writes -/

/-- A register of two bytes written whole. -/
theorem write_word {s : State} {p : Pec} (code a : Nat) (open' : s.supply.auxInRange = true ∧ s.pecRefused p = false) (listed : (code, 2) ∈ writableSizes) :
    exec (.sbRegisterWrite code (bytesOfNat 2 a) p) s = .next (s.writeReg code (a % 2 ^ 16)) := by
  simp only [exec, execSbRegisterWrite]
  rw [sbWrite_on open', pad2, nat2, if_pos (by simpa using listed)]

theorem word_mod (a : Nat) : BitVec.ofNat 16 (a % 2 ^ 16) = BitVec.ofNat 16 a := by
  apply BitVec.eq_of_toNat_eq; simp

/-- No register is written in another size. -/
theorem writableSizes_only {code n : Nat} (two : n ≠ 2) (three : n ≠ 3) : writableSizes.contains (code, n) = false := by
  simp [writableSizes, two, three]

/-! ### Reads of the reply -/

/-- The code byte of a reply that is ready and has not been delivered is 0. -/
theorem replyCode_fresh : pack [(1, b1 (MbState.ready == MbState.ready && false)), (5, 0), (2, MbState.ready.code)] = [(0 : BitVec 8)] := by decide

/-- What a read delivers after its code byte. -/
theorem replyRead_drop {b : Sideband} (ready : b.mb = .ready) : b.replyRead.drop 1 = (b.reply.drop b.readOff).take 254 := by
  unfold Sideband.replyRead
  rw [if_pos (by rw [ready]; rfl), List.drop_append_of_le_length (by rw [pack_len]; simp)]
  rw [List.drop_eq_nil_of_le (by rw [pack_len]; simp), List.nil_append]

/-! ### GO and ABORT -/

/-- The mailbox with a command that ended without a reply. -/
def Sideband.unanswered (b : Sideband) (reason : Nat) : Sideband := { b with mb := .noReply, reason := reason, reply := [], readOff := 0, delivered := false }

/-- A GO whose command ends without a reply, told by its reason. -/
theorem go_unanswered {s : State} {p : Pec} {reason : Nat} (open' : s.supply.auxInRange = true ∧ s.pecRefused p = false)
    (go : s.mbGo = { s with sb := s.sb.unanswered reason }) :
    Gives (.go p) s (fun t => t.sb.mb = .noReply ∧ t.sb.reason = reason ∧ t.net.ctxs = s.net.ctxs) := by
  let u : State := { s with sb := s.sb.unanswered reason }
  obtain ⟨alerts, sb⟩ := watch_sb u
  refine gives_of (t := u.watch) ?_ ⟨by rw [sb]; rfl, by rw [sb]; rfl, watch_keeps0 u .ctxs (by decide)⟩
  simp only [exec, execGo]
  rw [sbWrite_on open', go]

/-- Settles O49: register writes, the mailbox's request and reply, the KEK and the bus. -/
theorem sideband : Obligations.Sideband := by
  unfold Obligations.Sideband
  intro on
  refine ⟨?_, ?_, ?_, ?_, ?_, ?_, ?_, ?_, ?_, ?_, ?_, ?_, ?_, ?_, ?_⟩
  · intro code b p s aux refused
    exact ⟨congrArg Host.Outcome.next (sbWrite_bad aux refused), congrArg Host.Outcome.next (sbWrite_bad aux refused),
      congrArg Host.Outcome.next (sbWrite_bad aux refused), congrArg Host.Outcome.next (sbWrite_bad aux refused)⟩
  · intro a b p s open'
    refine ⟨?_, ?_, ?_, ?_, ?_, ?_⟩
    · rw [write_word 2 a open' (by decide)]; unfold State.writeReg; rw [word_mod]; rfl
    · rw [write_word 3 a open' (by decide)]; unfold State.writeReg; rw [word_mod]; rfl
    · rw [write_word 0x12 a open' (by decide)]; rfl
    · intro busy
      rw [write_word 0x13 a open' (by decide)]
      unfold State.writeReg
      dsimp only
      rw [if_pos (by rw [busy]; rfl)]
      rfl
    · intro free fits
      rw [write_word 0x13 a open' (by decide), Nat.mod_eq_of_lt (by omega)]
      unfold State.writeReg
      dsimp only
      rw [if_neg (by simpa using free), if_pos fits]; rfl
    · intro two three code
      simp only [exec, execSbRegisterWrite]
      rw [sbWrite_on open', writableSizes_only two three, if_neg Bool.false_ne_true]
  · intro b p s open' busy
    simp only [exec, execMbData]
    rw [sbWrite_on open']
    unfold State.mbStore
    rw [if_pos (by rw [busy]; rfl)]
    rfl
  · intro b p s open' free some' short fits
    obtain ⟨request, offset, kept⟩ := mbStore_facts free some' short
    refine gives_of (t := s.mbStore b) (by simp only [exec, execMbData]; rw [sbWrite_on open']) ?_
    rw [request, offset, Nat.mod_eq_of_lt (by omega)]
    exact ⟨rfl, fun i hi => storeAt_in _ _ _ i fits hi, fun i hi out => storeAt_out _ _ _ i hi out, kept⟩
  · intro p s open' free bad
    refine go_unanswered open' ?_
    unfold State.mbGo
    dsimp only
    rw [if_neg (by simpa using free), bad, if_neg (by simp), if_neg (by simp)]
    rfl
  · intro p s open' free good waltz
    refine go_unanswered open' ?_
    unfold State.mbGo
    dsimp only
    rw [if_neg (by simpa using free), good, waltz, if_pos (by decide)]
    rfl
  · intro p s open' free good dry goes fresh
    obtain ⟨sb, x, ctxs, id, opcode, mailbox, phase, session⟩ := mbAccept_facts goes
    let u := s.mbAccept (parseHeader s.mbRequest) (s.mbRequest.drop 40)
    obtain ⟨alerts, sbW⟩ := watch_sb u
    have ctxsW : u.watch.net.ctxs = u.net.ctxs := watch_keeps0 u .ctxs (by decide)
    have found : u.watch.ctx? s.net.nextId = some x := by
      unfold State.ctx? at fresh ⊢
      rw [ctxsW, ctxs, List.find?_append, fresh]
      simp [id]
    refine gives_of (t := u.watch) ?_ ⟨by rw [sbW, sb], by rw [sbW, sb], by rw [sbW, sb], x, found, opcode, mailbox, phase, session⟩
    simp only [exec, execGo]
    rw [sbWrite_on open']
    unfold State.mbGo
    dsimp only
    rw [if_neg (by simpa using free), good, dry, if_neg (by decide), if_pos (by decide)]
  · intro x p s open' found abortable ctx calm
    refine gives_of ?_ (((endCmd_replied (Reply.plain .aborted) ctx).settle (calm.endCmd x.id _)).watch)
    simp only [exec, execMbAbort]
    rw [sbWrite_on open']
    unfold State.mbAbortCmd
    rw [found]
    dsimp only
    rw [if_pos abortable]
    rfl
  · intro x p s open' found kept
    simp only [exec, execMbAbort]
    rw [sbWrite_on open']
    unfold State.mbAbortCmd
    rw [found]
    dsimp only
    rw [if_neg (by simp [kept])]
  · intro s aux ready last new
    have bytes : s.sb.replyRead = [(0 : BitVec 8)] ++ s.sb.reply.drop s.sb.readOff := by
      unfold Sideband.replyRead
      rw [ready, new, replyCode_fresh, if_pos (by decide), List.take_of_length_le (by simp; omega)]
    have after : s.sb.afterRead = { s.sb with lastRead := s.sb.replyRead, readOff := 0, delivered := true, alertStatus := s.sb.alertStatus &&& ~~~(1#16) } := by
      unfold Sideband.afterRead
      dsimp only
      rw [if_neg (by rw [ready]; decide), if_neg (by omega), new]
      rfl
    refine gives_of (by simp only [exec, execMbReply]; rw [if_pos aux]) ?_
    rw [after]
    exact ⟨bytes, rfl, rfl, ready, rfl, sb_keeps s _⟩
  · intro s aux ready more
    have after : s.sb.afterRead = { s.sb with lastRead := s.sb.replyRead, readOff := s.sb.readOff + 254 } := by
      unfold Sideband.afterRead
      dsimp only
      rw [if_neg (by rw [ready]; decide), if_pos more]
    refine gives_of (by simp only [exec, execMbReply]; rw [if_pos aux]) ?_
    rw [after]
    exact ⟨replyRead_drop ready, rfl, rfl, sb_keeps s _⟩
  · intro b p s open' service free calm
    have may : s.kekOpen = true := by unfold State.kekOpen; simp [service, free, calm]
    simp only [exec, execKek]
    rw [sbWrite_on open']
    unfold State.kekWrite
    refine ⟨fun whole => ?_, fun other => ?_⟩
    · rw [if_pos (by simp [whole, may])]
    · rw [if_neg (by simp [other])]
  · intro b p s open' closed
    have not : s.kekOpen = false := by
      unfold State.kekOpen
      rcases closed with service | taken | alarm
      · simp [service]
      · cases h : s.cipher.kek with
        | none => exact absurd h taken
        | some k => simp
      · simp [alarm]
    simp only [exec, execKek]
    rw [sbWrite_on open']
    unfold State.kekWrite
    rw [if_neg (by simp [not])]
  · intro s aux
    exact gives_of (t := { s with sb := { s.sb with arAnswered := s.alertLow } }) (by simp only [exec, execAlertResponse]; rw [if_pos aux]) ⟨rfl, rfl, sb_keeps s _⟩
  · intro s aux
    exact gives_of (t := { s with sb := { s.sb with lastRead := [] } }) (by simp only [exec, execSmbusTimeout]; rw [if_pos aux]) ⟨rfl, rfl, sb_keeps s _⟩

end Sys2Proof.Machine
end

section
/-! PROOFS about the on-module segment, the console and the trace. -/

namespace Sys2Proof.Machine

/-- The state with a list of failed devices, and what marking one does: the event, the alert, and the sensors' readings. -/
theorem segmentEvent_marked (s : State) (l : List (Nat × Nat)) (d : Nat) (x : Bool) :
    (({ s with sb := { s.sb with failed := l } } : State).segmentEvent d x).sb.failed = l
      ∧ (({ s with sb := { s.sb with failed := l } } : State).segmentEvent d x).sb.alertStatus.getLsbD Alert.segmentFault.bit = true
      ∧ (({ s with sb := { s.sb with failed := l } } : State).segmentEvent d x).logs.nextEv = s.logs.nextEv + 1
      ∧ Keeps [.sb, .logs, .dbg] s (({ s with sb := { s.sb with failed := l } } : State).segmentEvent d x) := by
  obtain ⟨failed, alert, next, kept⟩ := segmentEvent_facts ({ s with sb := { s.sb with failed := l } } : State) d x
  exact ⟨failed, alert, next, ((sb_keeps s { s.sb with failed := l }).mono (by decide)).trans kept⟩

theorem segmentSensors_of {s u : State} (kept : Keeps [.sb, .logs, .dbg] s u) : u.segmentSensors = if s.supply.mainOn then u.throttle.watch else u := by
  unfold State.segmentSensors
  rw [show u.supply = s.supply from kept .supply (by decide)]

/-- A device other than the capacitor monitor that is marked failed. -/
theorem segmentFail_sensor {s : State} {d : Nat} (other : d ≠ 10) :
    ∃ u : State, s.segmentFail d = (if s.supply.mainOn && decide (d < 10) then u.throttle.watch else u) ∧ u.sb.failed = s.sb.failed ++ [(d, s.clock)]
      ∧ u.sb.alertStatus.getLsbD Alert.segmentFault.bit = true ∧ u.logs.nextEv = s.logs.nextEv + 1 ∧ Keeps [.sb, .logs, .dbg] s u := by
  obtain ⟨failed, alert, next, kept⟩ := segmentEvent_marked s (s.sb.failed ++ [(d, s.clock)]) d true
  refine ⟨_, ?_, failed, alert, next, kept⟩
  unfold State.segmentFail
  dsimp only
  rw [if_neg (by simpa using other), segmentSensors_of kept]
  by_cases sensor : d < 10
  · rw [if_pos sensor, decide_eq_true sensor, Bool.and_true]
  · rw [if_neg sensor, decide_eq_false sensor, Bool.and_false]; rfl

/-- The failed capacitor monitor counts as a bank that fails its test, and freezes the module. -/
theorem segmentFail_monitor {s : State} (up : s.modes.mode = .serving ∨ s.modes.mode = .shadowing) :
    (s.segmentFail 10).modes.mode = .frozen ∧ (s.segmentFail 10).modes.frozenFrom = some s.modes.mode
      ∧ (s.segmentFail 10).modes.freezeCauses = s.modes.freezeCauses ||| FreezeCause.holdup.word ∧ (s.segmentFail 10).holdup.lastPassed = false := by
  let s1 := ({ s with sb := { s.sb with failed := s.sb.failed ++ [(10, s.clock)] } } : State).segmentEvent 10 true
  let s2 : State := { s1 with holdup := { s1.holdup with lastPassed := false, charged := false } }
  have kept : Keeps [.sb, .logs, .dbg] s s1 := (segmentEvent_marked s _ 10 true).2.2.2
  have modes : s2.modes = s.modes := kept .modes (by decide)
  have run : s.segmentFail 10 = s2.freeze .holdup := rfl
  obtain ⟨mode, before, causes⟩ := freeze_mode' s2 .holdup (by rw [modes]; exact up)
  rw [run, mode, before, causes, modes, show (s2.freeze .holdup).holdup = s2.holdup from freeze_frame s2 .holdup .holdup (by decide)]
  exact ⟨rfl, rfl, rfl, rfl⟩

/-- A line that is too long or that no command spells is answered with a question mark. -/
theorem consoleAnswer_unknown {s : State} {line : Bytes}
    (unknown : 80 < line.length ∨ (line ≠ ascii "id" ∧ line ≠ ascii "status" ∧ line.take 7 ≠ ascii "events ")) : s.consoleAnswer line = [ascii "?"] := by
  unfold State.consoleAnswer
  by_cases long : 80 < line.length
  · rw [if_pos long]
  · obtain ⟨noId, noStatus, noEvents⟩ := unknown.resolve_left long
    rw [if_neg long, if_neg (by simpa using noId), if_neg (by simpa using noStatus)]
    rw [show (line.take 7 == ascii "events ") = false by simpa using noEvents]

/-- Settles O50: devices that fail and answer again, the console's answers, and the SYNC record. -/
theorem segmentConsoleTrace : Obligations.SegmentConsoleTrace := by
  refine ⟨?_, ?_, ?_, ?_, ?_, ?_, ?_, ?_, ?_, ?_, ?_⟩
  · intro d s aux range junction monitor sound
    obtain ⟨u, run, failed, alert, next, kept⟩ := segmentFail_sensor (s := s) monitor
    refine gives_of (t := s.segmentFail d) ?_ ⟨u, failed, alert, next, kept, run⟩
    simp only [exec, execSegmentPoll]
    rw [if_pos (by simp [aux, sound, segmentDevice, range, junction])]
  · intro s aux sound up
    refine gives_of (t := s.segmentFail 10) ?_ (segmentFail_monitor up)
    simp only [exec, execSegmentPoll]
    rw [if_pos (by rw [aux, sound]; rfl)]
  · intro d x s still
    simp only [exec, execSegmentPoll]
    rw [if_neg]
    rcases still with answers | known | off
    · simp [answers]
    · rw [known]; simp
    · simp [off]
  · intro d h x s found early
    have early' : (s.clock < h + sec 60) = True := eq_true early
    simp only [exec, execSegmentRetry, found]
    rw [if_pos (by simp only [early', decide_true, Bool.or_true])]
  · intro d h s aux found due
    have due' : (s.clock < h + sec 60) = False := eq_false (Nat.not_lt.mpr due)
    obtain ⟨failed, alert, next, kept⟩ := segmentEvent_marked s (s.sb.failed.filter (·.1 != d)) d false
    refine gives_of (t := s.segmentRecover d) ?_ ⟨_, failed, alert, next, kept, segmentSensors_of kept⟩
    simp only [exec, execSegmentRetry, found]
    rw [if_neg (by simp only [aux, due', decide_false]; decide), if_pos trivial]
  · intro d h s aux found due
    have due' : (s.clock < h + sec 60) = False := eq_false (Nat.not_lt.mpr due)
    refine gives_of (t := { s with sb := { s.sb with failed := upd (·.1 == d) (fun g => (g.1, s.clock)) s.sb.failed } }) ?_
      ⟨upd_find (f := fun _ => s.clock) found, upd_keys s.sb.failed d (fun _ => s.clock), sb_keeps s _⟩
    simp only [exec, execSegmentRetry, found]
    rw [if_neg (by simp only [aux, due', decide_false]; decide), if_neg (by decide)]
  · intro line s
    simp only [exec, execConsoleLine]
    rw [if_pos (by simp)]
  · intro line s aux unknown
    simp only [exec, execConsoleLine]
    rw [if_neg (by simp [aux]), consoleAnswer_unknown unknown, List.foldl_cons, List.foldl_nil]
  · intro s aux
    have answer : s.consoleAnswer (ascii "status") = [ascii ("mode " ++ s.modes.mode.name)] := by
      unfold State.consoleAnswer
      rw [if_neg (by decide), if_neg (by decide), if_pos (by simp)]
    simp only [exec, execConsoleLine]
    rw [if_neg (by simp [aux]), answer, List.foldl_cons, List.foldl_nil]
  · intro n s on traced kept
    have records := fun w : BitVec 64 => trace_mem (s := s) (n := n) 5 false w traced kept
    simp only [Gives, exec, execTraceSync]
    rw [if_pos (by simp [on, traced])]
    exact ⟨_, rfl, getKey_set _ _ _, records _⟩
  · intro n s idle
    simp only [exec, execTraceSync]
    rw [if_neg]
    rcases idle with off | untraced
    · simp [off]
    · simp [untraced]

end Sys2Proof.Machine
end
